-- ==== Sys2Proof/Word.lean ====
section
/-! DEFINITION. The word types of the A24 (R119): bytes, 32-bit lane words, 64-bit uniform words. -/

namespace Sys2Proof

/-- A byte of memory. -/
abbrev Byte := BitVec 8
/-- One lane of a lane register, an instruction word, a literal (R46, R118). -/
abbrev Word := BitVec 32
/-- A k register or special register (R104, R109). -/
abbrev DWord := BitVec 64

end Sys2Proof
end

