-- ==== Sys2Proof/Syntax.lean ====
section
/-! DEFINITION. The operations and events of the A24, one constructor of Instr a row of spec/opcode_table.json.
The fields of a word are those of R54 to R64 and R88; an event carries what names the thing that happens. -/

namespace Sys2Proof

/-! ## Operands (R51) -/

/-- A 6-bit operand field read as a source (R51); a literal carries the literal word itself. -/
inductive Opnd where
  | v (n : Fin 48)
  | k (n : Fin 8)
  | y (n : Fin 4)
  | zero
  | lit (x : Word)
  | lane
  | tid
  deriving DecidableEq, Repr

/-- A 6-bit operand field read as a destination (R51): a lane register, or 60. -/
inductive Dst where
  | v (n : Fin 48)
  | discard
  deriving DecidableEq, Repr

/-- The destination of a V2 or V3 word with its W bit (R52). -/
structure VDst where
  w : Bool
  d : Dst
  deriving DecidableEq, Repr

/-- Source B of the uniform register layout (R57): KB, or the literal. -/
inductive KSrc where
  | reg (n : Fin 64)
  | lit (x : Word)
  deriving DecidableEq, Repr

/-- The k0 to k7 or 60 of an engine command (R201, R262, R289). -/
inductive EOp where
  | k (n : Fin 8)
  | zero
  deriving DecidableEq, Repr

/-! ## Suffixes (R66 to R71) -/

/-- IADD and ISUB: plain, saturating signed, saturating unsigned (R68). -/
inductive Sat where
  | none | i32 | n32
  deriving DecidableEq, Repr
/-- IMUL's three function values (R68). -/
inductive MulKind where
  | low | highI | highN
  deriving DecidableEq, Repr
/-- The ten relations of KCMP and ICMP (R67, R68). -/
inductive Cc where
  | eq | ne | ltI | leI | gtI | geI | ltN | leN | gtN | geN
  deriving DecidableEq, Repr
/-- The eight relations of FCMP (R143). -/
inductive FCc where
  | eq | ne | lt | le | gt | ge | ord | uno
  deriving DecidableEq, Repr
/-- The five rounding modes (R56, R123). -/
inductive RMode where
  | rne | rz | rd | ru | rs
  deriving DecidableEq, Repr
/-- The four modes of FRND (R142). -/
inductive FrndMode where
  | rne | rz | rd | ru
  deriving DecidableEq, Repr
/-- The packed types of HADD2 to HMAX2 (R68). -/
inductive HTy where
  | bf16x2 | f16x2
  deriving DecidableEq, Repr
/-- The floating-point types of FCVT (R69). -/
inductive FTy where
  | f32 | f16 | bf16 | f8a | f8b
  deriving DecidableEq, Repr
/-- The conversions of ICVT (R69). -/
inductive IcvtKind where
  | i32 | n32 | i16 | n16 | i8 | n8 | fromI32 | fromN32
  deriving DecidableEq, Repr
/-- The element types of PACK and UNPACK (R69). -/
inductive PackTy where
  | i16 | n16 | i8 | n8 | i4 | n4
  deriving DecidableEq, Repr
/-- VOTE's four forms (R150). -/
inductive VoteOp where
  | any | all | ballot | eq
  deriving DecidableEq, Repr
/-- The eleven operations of REDQ and SCANQ (R68, R151). -/
inductive RedOp where
  | addI32 | addF32 | minI32 | minN32 | maxI32 | maxN32 | minF32 | maxF32 | and | or | xor
  deriving DecidableEq, Repr
/-- Sizes of a lane load (R62). -/
inductive LdSize where
  | n8 | i8 | n16 | i16 | b32 | b64 | b128
  deriving DecidableEq, Repr
/-- Sizes of a lane store (R62, R188). -/
inductive StSize where
  | n8 | n16 | b32 | b64 | b128
  deriving DecidableEq, Repr
/-- The sixteen operations of ATOM and ATOMS (R70, R192). -/
inductive AtomOp where
  | addN32 | addN64 | addF32 | addBf16x2 | addF16x2 | minI32 | minN32 | maxI32 | maxN32
  | and | or | xor | exch32 | exch64 | minF32 | maxF32
  deriving DecidableEq, Repr
/-- The fourteen operations of RED: ATOM's without the exchanges (R70). -/
inductive RedAtomOp where
  | addN32 | addN64 | addF32 | addBf16x2 | addF16x2 | minI32 | minN32 | maxI32 | maxN32
  | and | or | xor | minF32 | maxF32
  deriving DecidableEq, Repr
/-- Scopes (R63, R213). -/
inductive Scope where
  | grp | team | gang | die | dev | sys
  deriving DecidableEq, Repr
/-- Orders (R63). -/
inductive Order where
  | rlx | acq | rel | ar
  deriving DecidableEq, Repr
/-- Engine classes (R60, R183). -/
inductive EngineClass where
  | ld | st | cp | mx | tm | tour | cl
  deriving DecidableEq, Repr
/-- The mode of PHJOIN (R60, R235). -/
inductive JoinMode where
  | sig | wait | both
  deriving DecidableEq, Repr
/-- MMQ and MMQT's TYPE (R269). -/
inductive MmTy where
  | bf16 | f16 | f8a | f8b | f8af8b | f8bf8a | i8 | n8 | i4 | n4
  deriving DecidableEq, Repr
/-- MMQZ's QTYPE (R275). -/
inductive QTy where
  | i4 | n4 | i8 | n8
  deriving DecidableEq, Repr
/-- ALDS's TYPE (R280). -/
inductive AldTy where
  | f32 | f16 | bf16
  deriving DecidableEq, Repr
/-- ASCL's factor (R283): per row, or one k register. -/
inductive AsclF where
  | row (n : Fin 48)
  | k (n : Fin 8)
  deriving DecidableEq, Repr
/-- The reduction operator of COLL (R372). -/
inductive CollOp where
  | add | min | max
  deriving DecidableEq, Repr
/-- The element type of COLL (R372). -/
inductive CollTy where
  | f32 | bf16 | f16 | i32 | n32 | b8
  deriving DecidableEq, Repr
/-- The kind of COLL (R372). -/
inductive CollKind where
  | allReduce | reduceScatter | allGather | allToAll
  deriving DecidableEq, Repr
/-- The special registers of R110, in the order of their numbers 0x00 to 0x18. -/
inductive SReg where
  | active | retired | ixb | status | seed | sg | calldepth | group
  | teamx | teamy | teamz | teami | gridx | gridy | gridz | node
  | core | part | cycles | time | epc | ecause | einfo | emask | traplvl
  deriving DecidableEq, Repr

/-! ## The instructions and events -/

/-- One constructor a row of the opcode table. Words come first, in the table's order, then the events
that name their subject, then the words and events with no operand; an arrival's subject is what State says is arriving. -/
inductive Instr where
  -- control, major 0x00 (R66, R88)
  | brx (a : Fin 64)
  | callx (a : Fin 64)
  | ifL (o : Opnd)
  | breakL (o : Opnd) (depth : BitVec 8)
  | contL (o : Opnd) (depth : BitVec 8)
  | trap (code : BitVec 8)
  | sigchk (value : Word)
  | sleepImm (n : BitVec 16)
  | sleepK (a : Fin 64)
  | bkpt (code : BitVec 8)
  | bra (off : BitVec 23)
  | call (off : BitVec 23)
  | brz (a : Fin 64) (off : BitVec 14)
  | brnz (a : Fin 64) (off : BitVec 14)
  | brany (off : BitVec 20)
  | brnone (off : BitVec 20)
  | endloop (off : BitVec 20)
  -- uniform, major 0x01 (R67, R106)
  | kadd (d a : Fin 64) (b : KSrc)
  | ksub (d a : Fin 64) (b : KSrc)
  | kmul (d a : Fin 64) (b : KSrc)
  | kmulh (signed : Bool) (d a : Fin 64) (b : KSrc)
  | kand (d a : Fin 64) (b : KSrc)
  | kor (d a : Fin 64) (b : KSrc)
  | kxor (d a : Fin 64) (b : KSrc)
  | kshl (d a : Fin 64) (b : KSrc)
  | kshr (d a : Fin 64) (b : KSrc)
  | ksra (d a : Fin 64) (b : KSrc)
  | kmin (signed : Bool) (d a : Fin 64) (b : KSrc)
  | kmax (signed : Bool) (d a : Fin 64) (b : KSrc)
  | kcmp (cc : Cc) (d a : Fin 64) (b : KSrc)
  | ksel (d a : Fin 64) (b : KSrc)
  | kmov (d a : Fin 64)
  | kpopc (d a : Fin 64)
  | kbfe (signed : Bool) (d a : Fin 64) (b : KSrc)
  -- uniform, major 0x02
  | kaddImm (d : Fin 64) (i : BitVec 12)
  | ksubImm (d : Fin 64) (i : BitVec 12)
  | kmulImm (d : Fin 64) (i : BitVec 12)
  | kmulhImm (signed : Bool) (d : Fin 64) (i : BitVec 12)
  | kandImm (d : Fin 64) (i : BitVec 12)
  | korImm (d : Fin 64) (i : BitVec 12)
  | kxorImm (d : Fin 64) (i : BitVec 12)
  | kshlImm (d : Fin 64) (i : BitVec 12)
  | kshrImm (d : Fin 64) (i : BitVec 12)
  | ksraImm (d : Fin 64) (i : BitVec 12)
  | kminImm (signed : Bool) (d : Fin 64) (i : BitVec 12)
  | kmaxImm (signed : Bool) (d : Fin 64) (i : BitVec 12)
  | kcmpImm (cc : Cc) (d : Fin 64) (i : BitVec 12)
  | kbfeImm (signed : Bool) (d : Fin 64) (i : BitVec 12)
  -- uniform, major 0x03 (R58)
  | kli (d : Fin 64) (i : BitVec 15)
  | kliLiteral (d : Fin 64) (x : Word)
  | klih (d : Fin 64) (x : Word)
  | kget (d : Fin 64) (r : SReg)
  | kset (r : SReg) (a : Fin 64)
  | setix (n : BitVec 8)
  | setixK (a : Fin 64)
  -- integer, major 0x04 and IMAD, ISEL, IBFI (R135)
  | iadd (sat : Sat) (d : VDst) (a b : Opnd)
  | iaddc (d : VDst) (a b : Opnd)
  | isub (sat : Sat) (d : VDst) (a b : Opnd)
  | imul (kind : MulKind) (d : VDst) (a b : Opnd)
  | imin (signed : Bool) (d : VDst) (a b : Opnd)
  | imax (signed : Bool) (d : VDst) (a b : Opnd)
  | iabs (d : VDst) (a : Opnd)
  | iand (d : VDst) (a b : Opnd)
  | ior (d : VDst) (a b : Opnd)
  | ixor (d : VDst) (a b : Opnd)
  | ishl (d : VDst) (a b : Opnd)
  | ishr (d : VDst) (a b : Opnd)
  | isra (d : VDst) (a b : Opnd)
  | ibfe (signed : Bool) (d : VDst) (a b : Opnd)
  | ipopc (d : VDst) (a : Opnd)
  | iclz (d : VDst) (a : Opnd)
  | ibrev (d : VDst) (a : Opnd)
  | imad (d : VDst) (a b e : Opnd)
  | isel (d : VDst) (a b e : Opnd)
  | ibfi (d : VDst) (a b e : Opnd)
  | icmp (cc : Cc) (d : VDst) (a b : Opnd)
  -- float, majors 0x05, 0x06, 0x09, 0x0A, 0x0C (R138 to R144)
  | fadd (d : VDst) (a b : Opnd)
  | fsub (d : VDst) (a b : Opnd)
  | fmul (d : VDst) (a b : Opnd)
  | fmin (d : VDst) (a b : Opnd)
  | fmax (d : VDst) (a b : Opnd)
  | fabs (d : VDst) (a : Opnd)
  | fneg (d : VDst) (a : Opnd)
  | fclass (d : VDst) (a : Opnd)
  | frnd (m : FrndMode) (d : VDst) (a : Opnd)
  | ffma (d : VDst) (a b e : Opnd)
  | hadd2 (t : HTy) (d : VDst) (a b : Opnd)
  | hmul2 (t : HTy) (d : VDst) (a b : Opnd)
  | hmin2 (t : HTy) (d : VDst) (a b : Opnd)
  | hmax2 (t : HTy) (d : VDst) (a b : Opnd)
  | hfma2 (d : VDst) (a b e : Opnd)
  | fcmp (cc : FCc) (d : VDst) (a b : Opnd)
  | frcp (d : VDst) (a : Opnd)
  | frsq (d : VDst) (a : Opnd)
  | fsqrt (d : VDst) (a : Opnd)
  | fexp2 (d : VDst) (a : Opnd)
  | flog2 (d : VDst) (a : Opnd)
  | fsin (d : VDst) (a : Opnd)
  | fcos (d : VDst) (a : Opnd)
  -- conversion, major 0x07 (R145 to R148)
  | fcvt (dst src : FTy) (m : RMode) (d : VDst) (a : Opnd)
  | icvt (k : IcvtKind) (m : RMode) (d : VDst) (a : Opnd)
  | pack (t : PackTy) (d : VDst) (a b : Opnd)
  | unpack (t : PackTy) (d : VDst) (a b : Opnd)
  | scxp (d : VDst) (a b : Opnd)
  -- lane movement, major 0x08 and PRMT (R149 to R152)
  | mov (d : VDst) (a : Opnd)
  | shfl (d : VDst) (a b : Opnd)
  | shflx (d : VDst) (a b : Opnd)
  | shflup (d : VDst) (a b : Opnd)
  | shfldn (d : VDst) (a b : Opnd)
  | vote (op : VoteOp) (d : VDst) (a : Opnd)
  | redq (op : RedOp) (d : VDst) (a : Opnd)
  | scanq (op : RedOp) (d : VDst) (a : Opnd)
  | prmt (d : VDst) (a b e : Opnd)
  -- memory, majors 0x10 to 0x19 (R188 to R206, R221)
  | ld (sz : LdSize) (d : Dst) (win : Fin 8) (off : Opnd) (imm : BitVec 6)
  | st (sz : StSize) (data : Opnd) (win : Fin 8) (off : Opnd) (imm : BitVec 6)
  | lds (sz : LdSize) (d : Dst) (off : Opnd) (imm : BitVec 6)
  | ldsGang (sz : LdSize) (d : Dst) (mem : Fin 4) (off : Opnd) (imm : BitVec 6)
  | sts (sz : StSize) (data : Opnd) (off : Opnd) (imm : BitVec 6)
  | ldp (sz : LdSize) (d : Dst) (win : Fin 8) (off : Opnd) (imm : BitVec 6)
  | xwopen (n : Fin 8) (a b : Fin 64)
  | xwclose (n : Fin 8)
  | kldp (wide : Bool) (d : Fin 64) (win : Fin 8) (a : Fin 64) (imm : BitVec 7)
  | kldg (wide : Bool) (d : Fin 64) (win : Fin 8) (a : Fin 64) (imm : BitVec 7)
  | atom (op : AtomOp) (sc : Scope) (ord : Order) (win : Fin 8) (data : Fin 48) (off : Opnd)
  | red (op : RedAtomOp) (sc : Scope) (release : Bool) (win : Fin 8) (data off : Opnd)
  | atoms (op : AtomOp) (sc : Scope) (ord : Order) (gang : Option (Fin 4)) (data off : Opnd)
  | cas (wide : Bool) (sc : Scope) (ord : Order) (win : Fin 8) (data : Fin 48) (off : Opnd)
  | aggr (sc : Scope) (ord : Order) (win : Fin 8) (data : Fin 48) (off : Opnd)
  | putf (wide : Bool) (sc : Scope) (win : Fin 8) (data : Fin 48) (off : Opnd)
  | waita (wide : Bool) (win : Fin 8) (data off : Opnd)
  | pref (l2 : Bool) (win : Fin 8) (off : Opnd)
  | cpy (a b : EOp) (xw : Fin 8) (tag : Option (Fin 16)) (sstr rlen : BitVec 16)
  | cpyg (a : Fin 48) (b : EOp) (xw : Fin 8) (tag : Option (Fin 16)) (rlen : BitVec 16)
  | cpys (a b : EOp) (xw : Fin 8) (tag : Option (Fin 16)) (sstr rlen : BitVec 16)
  | cpyx (a b : EOp) (xw : Fin 8) (tag : Option (Fin 16)) (ncode : BitVec 16)
  | lda (wide : Bool) (sc : Scope) (win : Fin 8) (data : Fin 48) (off : Opnd)
  | stl (wide : Bool) (sc : Scope) (win : Fin 8) (data off : Opnd)
  | fence (sc : Scope) (ord : Order)
  | promote (sc : Scope) (data : Opnd)
  | wbr (win : Fin 8) (data off : Opnd)
  | invr (win : Fin 8) (data off : Opnd)
  -- batches and phasers, major 0x1A (R60, R184, R243)
  | close (c : EngineClass)
  | waitb (c : EngineClass) (n : BitVec 8)
  | waitbK (c : EngineClass) (a : Fin 64)
  | waitc (c : EngineClass) (n : BitVec 8)
  | phnew (a : Fin 64) (h : Fin 16)
  | phfree (h : Fin 16)
  | phjoin (d b : Fin 64) (h : Fin 16) (m : JoinMode)
  | phleave (h : Fin 16)
  | phsig (h : Fin 16) (w : Bool)
  | phwait (a : Fin 64) (h : Fin 16)
  | phsw (a : Fin 64) (h : Fin 16) (w : Bool)
  | phrd (d : Fin 64) (h : Fin 16)
  | emit (r : Fin 48) (n : Fin 64)
  -- matrix, major 0x1B (R262)
  | mmq (a : Fin 48) (b : Option (Fin 48)) (strm : Fin 4) (ru : Bool) (t : MmTy) (tq : BitVec 8) (boff : BitVec 20)
  | mmqz (a b : Fin 48) (strm : Fin 4) (ru : Bool) (q : QTy) (af16 : Bool) (tq : BitVec 8) (sel : Fin 4) (boff : BitVec 20)
  | mmqt (a : Fin 48) (pair : Fin 7) (strm : Fin 4) (ru : Bool) (t : MmTy) (tq : BitVec 8) (boff : BitVec 20)
  | aclr (strm : Fin 4) (tf n1 : BitVec 10)
  | alds (base : EOp) (strm : Fin 4) (t : AldTy) (tf n1 : BitVec 10)
  | asts (base : EOp) (strm : Fin 4) (t : FTy) (tf n1 : BitVec 10) (m : RMode)
  | amov (d : Fin 48) (strm : Fin 4) (tq : BitVec 8)
  | aadd (strm : Fin 4) (td ts n1 : BitVec 10)
  | ascl (f : AsclF) (strm : Fin 4) (tf n1 : BitVec 10)
  -- tempo, major 0x1C (R289)
  | twin (tw : BitVec 8)
  | tloadw (base : EOp) (nr1 fr : BitVec 7)
  | tcfg (bits : EOp) (h : Bool)
  | tstage (a : Fin 48) (rb : Fin 4)
  | tfire (fb : Bool)
  | tcapt (d : Fin 48) (cb : Fin 4)
  -- tour, major 0x1D (R307)
  | tourLd (a d stat : Fin 48) (pw : Fin 8) (wide : Bool) (loff : BitVec 16)
  | tourAdd (a d stat : Fin 48) (pw : Fin 8) (wide : Bool) (loff : BitVec 16)
  -- collectives, major 0x1E (R372)
  | coll (base : Fin 5) (d : Dst) (xw : Fin 8) (tag : Option (Fin 16)) (cid : BitVec 8) (op : CollOp) (ty : CollTy)
      (arrival : Bool) (kind : CollKind)
  | commqCreate (xw : Fin 8) (a : Fin 8) (d : Dst) (cid : BitVec 8)
  | commqDestroy (xw : Fin 8) (d : Dst) (cid : BitVec 8)
  | commqAbort (xw : Fin 8) (d : Dst) (cid : BitVec 8)
  | commqQuery (xw : Fin 8) (d : Dst) (cid : BitVec 8)
  -- Xcokihan words of a front-end core (R321)
  | fetchr (rd rs1 : Fin 32)
  | bfx (rd rs1 rs2 : Fin 32)
  | swait (rd rs1 rs2 : Fin 32)
  | disp (rd rs1 rs2 : Fin 32)
  -- front-end waits
  | swaitWake (fe : Nat)
  -- execution model
  | stallRunEnd (gid : Nat)
  | distributorClaim (die grid : Nat)
  | teamStartAttempt (die grid : Nat)
  | teamStart (die grid : Nat)
  | teamSteal (die grid : Nat)
  | gatherTimerLapse (grid die node : Nat)
  | groupEnd (gid : Nat)
  | gridComplete (grid : Nat)
  | launchStatusWrite (grid : Nat)
  | sleepExpire (gid : Nat)
  | batchComplete (gid : Nat) (c : EngineClass)
  -- translation
  | walkComplete (w : Nat)
  | translationRetry (w : Nat)
  | waitaReread (gid : Nat)
  | priResponse (req : Nat) (ok : Bool)
  | atsTranslationCompletion (req : Nat) (result : Option (BitVec 52))
  -- messages
  -- phaser messages
  -- links
  | dataFlitSend (link : Nat)
  | replayTimeout (link : Nat)
  | nakRepeat (link : Nat)
  | moduleRetrain (link : Nat) (badLow badHigh : Bool)
  | retrainComplete (link : Nat)
  -- queues
  | packetFetch (part q : Nat)
  | launch (part q : Nat)
  | write (part q : Nat)
  | signal (part q : Nat)
  | wait (part q : Nat)
  | waitSatisfied (part q : Nat)
  | writeSignal (part q : Nat)
  | phaser (part q : Nat)
  | timestamp (part q : Nat)
  | fencePacket (part q : Nat)
  | queueEnable (part q : Nat)
  | doorbell (part q : Nat) (v : DWord)
  | wakeRegister (part q : Nat)
  | queueUnmap (part q : Nat)
  | queueRemap (part q : Nat)
  | queueRepoll (part q : Nat)
  -- tenants
  | timeSliceExpire (part : Nat)
  | preemptRequest (part ctx : Nat) (cores : List Nat)
  | coreStateSave (core : Nat)
  | gatherBufferSave (part ctx die : Nat)
  | contextRestore (part ctx : Nat)
  | inval (part : Nat) (v : DWord)
  | invalidationDrainDone (part : Nat)
  | atsInvalidateRequest (pasid addr size : Nat)
  -- host registers and the package
  | dies (part : Nat) (v : DWord)
  | registerWrite (off : Nat) (v : DWord)
  | powerOn (verified : Bool)
  | powerSample (watts : Nat)
  | spdmRequest (req : Nat)
  | gangRelaunch (grid gang : Nat)
  | logRecordWrite (part : Nat) (errorLog : Bool)
  -- engines
  | tourSend (gid slot : Nat)
  | tourResend (gid slot lane : Nat)
  | copyComplete (c : Nat)
  | matrixCommandExecute (slot : Nat) (strm : Fin 4)
  | tempoCommandExecute (core : Nat)
  | collStep (id : Nat)
  | collTransferRetry (id : Nat)
  | collTransferTimeout (id : Nat)
  | collCompletionDelivery (id : Nat)
  | unassignedOpcode (w : Word)
  | swaitReread (fe : Nat)
  -- words and events without operands
  | nop
  | ret
  | elseL
  | endifL
  | loopL
  | exitL
  | yieldL
  | eret
  | bar
  | treset
  | lockdown
  | linkTrainingComplete
  | memoryTrainingComplete
  | derloStart
  | clockRead
  -- arrivals: what arrives (a message, a frame, a flit) is State's field arriving
  | gatherRecordArrival
  | readMessage
  | writeMessage
  | atomicMessage
  | readDataMessage
  | writeAcknowledge
  | releaseMarker
  | writeReport
  | tourStep
  | engineData
  | monitorWake
  | invalidationMessage
  | collectiveControl
  | promoteRequest
  | portSignalRelease
  | arrive
  | phaserSignal
  | join
  | leave
  | move
  | joined
  | left
  | moved
  | done
  | newFrame
  | freeFrame
  | idleFrame
  | ackFrame
  | nakFrame
  | dataFlit
  | idleFlit
  | ackFlit
  | nakFlit
  | fabricRequestTimeout
  | tourReturn
  | pageReturn
  | promoteAcknowledge
  deriving DecidableEq, Repr

end Sys2Proof
end

