-- ==== Sys2Proof/Config.lean ====
section
/-! DEFINITION. What is fixed for one A24 and what the manual leaves open. A figure carries its rule; an opaque constant is
a free value: nothing in Lean knows it, so a statement holds whatever it is. -/

namespace Sys2Proof.Config

/-- Compute dies of the package (R1). -/
def dies : Nat := 24
/-- Cores of a die (R2). -/
def coresPerDie : Nat := 24
/-- Cores of the package (R2). -/
def cores : Nat := 576
/-- Resident groups of a slot (R25). -/
def groupsPerSlot : Nat := 16
/-- Lane-register units and tiles of a slot (R25). -/
def unitsPerSlot : Nat := 1024
/-- Packets of a run (R28). -/
def packetsPerRun : Nat := 64
/-- Run ends at which a ready group may be passed over (R29). -/
def passLimit : Nat := 8
/-- Ways of the core array that can be pinned (R178). -/
def pinnableWays : Nat := 14
/-- Near-memory bytes of a die (R154). -/
def nearBytes : Nat := 0x180000000
/-- Far-memory bytes of a die (R154). -/
def farBytes : Nat := 0x1000000000
/-- Entries of a core TLB and of a die TLB (R164). -/
def coreTlb : Nat := 256
def dieTlb : Nat := 8192
/-- Monitor entries of a die (R170). -/
def monitors : Nat := 256
/-- Outstanding requests of a core (R177). -/
def requests : Nat := 2048
/-- Commands of a core's copy queue (R205), a slot's matrix queue (R265), a core's tempo queue (R292), an engine (R374). -/
def copyQueue : Nat := 64
def matrixQueue : Nat := 16
def tempoQueue : Nat := 32
def collQueue : Nat := 64
/-- Records of a gather buffer (R41). -/
def gatherRecords : Nat := 64
/-- Live phaser objects of the package (R233). -/
def phasers : Nat := 4096
/-- Live grids of a partition (R321). -/
def liveGrids : Nat := 256
/-- Outstanding PRI page requests of a partition (R370). -/
def priRequests : Nat := 512
/-- Flits or frames of a replay buffer (R363, R367, R368). -/
def replayBuffer : Nat := 256
/-- Replays without progress that retrain a module (R363). -/
def replayLimit : Nat := 16
/-- Modules of a boundary and direction (R360). -/
def modules : Nat := 96
/-- The arithmetic clock in MHz: highest, lowest, step (R4, R380). -/
def clockTop : Nat := 1900
def clockFloor : Nat := 1000
def clockStep : Nat := 50
/-- The power envelope and the resume threshold in W (R380). -/
def envelope : Nat := 15000
def resumePower : Nat := 14250
/-- The part field of ID (R369). -/
def part : Nat := 0xA024
/-- Nanoseconds between retries of R170, between re-reads of R198, and before a fabric or collective timeout (R367, R377). -/
def retryNs : Nat := 10000
def rereadNs : Nat := 2000
def timeoutNs : Nat := 1000000

/-- FREE VALUE: the Vendor ID that PCI-SIG assigns to Cokihan (R369 names no number; assumption 3). -/
opaque vendor : BitVec 16
/-- FREE VALUE: which conforming result a special function returns for an input (R144 gives a bound and one value for
each input; assumption 4): the function's number, the input, and how many results conform give an index among them. -/
opaque specialPick : Nat → BitVec 32 → Nat
/-- FREE VALUE: a choice the manual leaves open, taken afresh for each value of the counter (old or new bytes of R18,
R161, R175, R182; assumption 5). -/
opaque freeBit : Nat → Bool
/-- FREE VALUE: a number the device picks among free ones: a phaser's local ID (R245), a grid handle (R321; assumption 5). -/
opaque freeIndex : Nat → Nat
/-- FREE VALUE: bytes the manual does not give, such as a signed measurement report (R381; assumption 6). -/
opaque freeByte : Nat → BitVec 8
/-- FREE VALUE: the bits of ARG for which R361 names no content, in a message of a number (assumption 7). -/
opaque freeArg : Nat → BitVec 32
/-- FREE VALUE: how ARG writes a byte mask, given as the offsets of its bytes from ADDR (R361, assumption 7). -/
opaque argMask : List Nat → BitVec 32
/-- FREE VALUE: how ARG writes an atomic operation, given by its number, and its size in bytes (R361, assumption 7). -/
opaque argAtomic : Nat → Nat → BitVec 32
/-- FREE VALUE: which of the two host ports serves an address of the host tier; port 1 where it is true (R8, assumption 94). -/
opaque hostPort : Nat → Bool

end Sys2Proof.Config
end

