-- ==== Sys2Proof/WellFormed.lean ====
section
/-! DEFINITION. Which instructions the encodings of R54 to R71 admit: what a word may not say although its fields
could hold it. A word that breaks one of these raises illegal-opcode (R50 step 2). -/

namespace Sys2Proof

/-- The literal an operand reads, if it reads one (R51). -/
def Opnd.lit? : Opnd → Option Word
  | .lit x => some x
  | _ => none

/-- The operand names a lane register (values 0 to 47 of R51). -/
def Opnd.isReg : Opnd → Bool
  | .v _ => true
  | _ => false

/-- Two operands may name one literal only (R51). -/
def litsAgree2 (a b : Opnd) : Bool :=
  match a.lit?, b.lit? with
  | some x, some y => x == y
  | _, _ => true

/-- Three operands may name one literal only (R51). -/
def litsAgree3 (a b e : Opnd) : Bool :=
  litsAgree2 a b && litsAgree2 a e && litsAgree2 b e

/-- The access of a load takes one register (R62). -/
def LdSize.narrow : LdSize → Bool
  | .b64 | .b128 => false
  | _ => true

/-- The data of a store is one value (R62). -/
def StSize.narrow : StSize → Bool
  | .b64 | .b128 => false
  | _ => true

/-- A load of 8 or 16 bytes names a lane register (R62). -/
def ldDstOk (sz : LdSize) (d : Dst) : Bool :=
  sz.narrow || (match d with | .v _ => true | .discard => false)

/-- A store of 8 or 16 bytes names a lane register (R62). -/
def stDataOk (sz : StSize) (data : Opnd) : Bool := sz.narrow || data.isReg

/-- The 64-bit operations of R70. -/
def AtomOp.wide : AtomOp → Bool
  | .addN64 | .exch64 => true
  | _ => false

/-- The 64-bit operation of RED. -/
def RedAtomOp.wide : RedAtomOp → Bool
  | .addN64 => true
  | _ => false

/-- Stochastic rounding is legal only to .bf16, .f8a and .f8b (R56, R280). -/
def rsOk (t : FTy) (m : RMode) : Bool :=
  match m, t with
  | .rs, .bf16 | .rs, .f8a | .rs, .f8b => true
  | .rs, _ => false
  | _, _ => true

/-- The checks a word's fields must pass beyond their widths. -/
def Instr.wf : Instr → Bool
  | .breakL _ d | .contL _ d => d.toNat ≤ 252
  | .iadd _ _ a b | .iaddc _ a b | .isub _ _ a b | .imul _ _ a b | .imin _ _ a b | .imax _ _ a b | .iand _ a b
  | .ior _ a b | .ixor _ a b | .ishl _ a b | .ishr _ a b | .isra _ a b | .ibfe _ _ a b | .icmp _ _ a b
  | .fadd _ a b | .fsub _ a b | .fmul _ a b | .fmin _ a b | .fmax _ a b | .hadd2 _ _ a b | .hmul2 _ _ a b
  | .hmin2 _ _ a b | .hmax2 _ _ a b | .fcmp _ _ a b | .pack _ _ a b | .unpack _ _ a b | .scxp _ a b
  | .shfl _ a b | .shflx _ a b | .shflup _ a b | .shfldn _ a b => litsAgree2 a b
  | .imad _ a b e | .isel _ a b e | .ibfi _ a b e | .ffma _ a b e | .hfma2 _ a b e | .prmt _ a b e => litsAgree3 a b e
  | .fcvt t f m _ _ => t != f && rsOk t m
  | .icvt _ m _ _ => m != .rs
  | .ld sz d _ _ _ | .lds sz d _ _ | .ldsGang sz d _ _ _ | .ldp sz d _ _ _ => ldDstOk sz d
  | .st sz data _ off _ | .sts sz data off _ => stDataOk sz data && litsAgree2 data off
  | .red op _ _ _ data off => (!op.wide || data.isReg) && litsAgree2 data off
  | .atoms op sc _ g data off =>
    (!op.wide || data.isReg) && litsAgree2 data off &&
      (match sc with | .grp | .team => g.isNone | .gang => true | _ => false)
  | .waita wide _ data off => (!wide || data.isReg) && litsAgree2 data off
  | .stl wide _ _ data off => (!wide || data.isReg) && litsAgree2 data off
  | .promote sc _ => (match sc with | .die | .dev | .sys => true | _ => false)
  | .wbr _ data off | .invr _ data off => litsAgree2 data off
  | .asts _ _ t _ _ m => rsOk t m && (t != .f32 || m == .rne)
  | .twin tw => 1 ≤ tw.toNat && tw.toNat ≤ 254
  | .tloadw _ nr1 fr => fr.toNat + nr1.toNat + 1 ≤ 128
  | .tourLd _ d stat _ _ loff | .tourAdd _ d stat _ _ loff =>
    stat.val != d.val && stat.val != d.val + 1 && loff.toNat % 8 == 0
  | .coll _ _ _ _ _ op ty arr kind =>
    match kind with
    | .allReduce | .reduceScatter => ty != .b8
    | .allGather | .allToAll => op == .add && !arr
  | _ => true

/-- A well-formed instruction. -/
abbrev Instr.WellFormed (i : Instr) : Prop := i.wf = true

end Sys2Proof
end

