-- ==== Sys2Proof/Decode.lean ====
section
/-! DEFINITION. Reading instruction words (R46, R47, R51 to R71, R88, R321) and writing them. Words are natural numbers
here, and a field is a quotient and a remainder: bits [lo + n - 1 : lo] of w are w / 2 ^ lo % 2 ^ n. -/

namespace Sys2Proof

/-- Why a word is no instruction: it raises illegal-opcode (R50 step 2). -/
inductive Reject where
  /-- A bit or field the format reserves is not zero (R53). -/
  | reservedField
  /-- An operand value or field value that is not allowed there (R51, R56, R60 to R71). -/
  | operandValue
  /-- The fields are each legal and together they are not (Instr.wf). -/
  | combination
  /-- A front-end word outside Xcokihan (R321). -/
  | notXcokihan
  deriving DecidableEq, Repr

/-- What decoding answers. -/
abbrev Decoded := Except Reject Instr

/-! ## Sub-operation codes (R66 to R71) -/

/-- Bits [lo + n - 1 : lo] of a word. -/
def field (w lo n : Nat) : Nat := w / 2 ^ lo % 2 ^ n

def Cc.code : Cc → Nat
  | .eq => 0 | .ne => 1 | .ltI => 2 | .leI => 3 | .gtI => 4 | .geI => 5 | .ltN => 6 | .leN => 7 | .gtN => 8 | .geN => 9
def Cc.ofCode : Nat → Cc
  | 0 => .eq | 1 => .ne | 2 => .ltI | 3 => .leI | 4 => .gtI | 5 => .geI | 6 => .ltN | 7 => .leN | 8 => .gtN | _ => .geN
def FCc.code : FCc → Nat
  | .eq => 0 | .ne => 1 | .lt => 2 | .le => 3 | .gt => 4 | .ge => 5 | .ord => 6 | .uno => 7
def FCc.ofCode : Nat → FCc
  | 0 => .eq | 1 => .ne | 2 => .lt | 3 => .le | 4 => .gt | 5 => .ge | 6 => .ord | _ => .uno
def RMode.code : RMode → Nat
  | .rne => 0 | .rz => 1 | .rd => 2 | .ru => 3 | .rs => 4
def RMode.ofCode : Nat → RMode
  | 0 => .rne | 1 => .rz | 2 => .rd | 3 => .ru | _ => .rs
def FrndMode.code : FrndMode → Nat
  | .rne => 0 | .rz => 1 | .rd => 2 | .ru => 3
def FrndMode.ofCode : Nat → FrndMode
  | 0 => .rne | 1 => .rz | 2 => .rd | _ => .ru
def FTy.code : FTy → Nat
  | .f32 => 0 | .f16 => 1 | .bf16 => 2 | .f8a => 3 | .f8b => 4
def FTy.ofCode : Nat → FTy
  | 0 => .f32 | 1 => .f16 | 2 => .bf16 | 3 => .f8a | _ => .f8b
def IcvtKind.code : IcvtKind → Nat
  | .i32 => 32 | .n32 => 33 | .i16 => 34 | .n16 => 35 | .i8 => 36 | .n8 => 37 | .fromI32 => 40 | .fromN32 => 41
def IcvtKind.ofCode : Nat → IcvtKind
  | 32 => .i32 | 33 => .n32 | 34 => .i16 | 35 => .n16 | 36 => .i8 | 37 => .n8 | 40 => .fromI32 | _ => .fromN32
def PackTy.code : PackTy → Nat
  | .i16 => 0 | .n16 => 1 | .i8 => 2 | .n8 => 3 | .i4 => 4 | .n4 => 5
def PackTy.ofCode : Nat → PackTy
  | 0 => .i16 | 1 => .n16 | 2 => .i8 | 3 => .n8 | 4 => .i4 | _ => .n4
def VoteOp.code : VoteOp → Nat
  | .any => 0 | .all => 1 | .ballot => 2 | .eq => 3
def VoteOp.ofCode : Nat → VoteOp
  | 0 => .any | 1 => .all | 2 => .ballot | _ => .eq
def RedOp.code : RedOp → Nat
  | .addI32 => 0 | .addF32 => 1 | .minI32 => 2 | .minN32 => 3 | .maxI32 => 4 | .maxN32 => 5 | .minF32 => 6 | .maxF32 => 7
  | .and => 8 | .or => 9 | .xor => 10
def RedOp.ofCode : Nat → RedOp
  | 0 => .addI32 | 1 => .addF32 | 2 => .minI32 | 3 => .minN32 | 4 => .maxI32 | 5 => .maxN32 | 6 => .minF32 | 7 => .maxF32
  | 8 => .and | 9 => .or | _ => .xor
def LdSize.code : LdSize → Nat
  | .n8 => 0 | .i8 => 1 | .n16 => 2 | .i16 => 3 | .b32 => 4 | .b64 => 5 | .b128 => 6
def LdSize.ofCode : Nat → LdSize
  | 0 => .n8 | 1 => .i8 | 2 => .n16 | 3 => .i16 | 4 => .b32 | 5 => .b64 | _ => .b128
def StSize.code : StSize → Nat
  | .n8 => 0 | .n16 => 2 | .b32 => 4 | .b64 => 5 | .b128 => 6
def StSize.ofCode? : Nat → Option StSize
  | 0 => some .n8 | 2 => some .n16 | 4 => some .b32 | 5 => some .b64 | 6 => some .b128 | _ => none
def AtomOp.code : AtomOp → Nat
  | .addN32 => 0 | .addN64 => 1 | .addF32 => 2 | .addBf16x2 => 3 | .addF16x2 => 4 | .minI32 => 5 | .minN32 => 6
  | .maxI32 => 7 | .maxN32 => 8 | .and => 9 | .or => 10 | .xor => 11 | .exch32 => 12 | .exch64 => 13 | .minF32 => 14
  | .maxF32 => 15
def AtomOp.ofCode : Nat → AtomOp
  | 0 => .addN32 | 1 => .addN64 | 2 => .addF32 | 3 => .addBf16x2 | 4 => .addF16x2 | 5 => .minI32 | 6 => .minN32
  | 7 => .maxI32 | 8 => .maxN32 | 9 => .and | 10 => .or | 11 => .xor | 12 => .exch32 | 13 => .exch64 | 14 => .minF32
  | _ => .maxF32
/-- RED's operations among ATOM's (R70). -/
def RedAtomOp.toAtom : RedAtomOp → AtomOp
  | .addN32 => .addN32 | .addN64 => .addN64 | .addF32 => .addF32 | .addBf16x2 => .addBf16x2 | .addF16x2 => .addF16x2
  | .minI32 => .minI32 | .minN32 => .minN32 | .maxI32 => .maxI32 | .maxN32 => .maxN32 | .and => .and | .or => .or
  | .xor => .xor | .minF32 => .minF32 | .maxF32 => .maxF32
def RedAtomOp.ofCode? : Nat → Option RedAtomOp
  | 0 => some .addN32 | 1 => some .addN64 | 2 => some .addF32 | 3 => some .addBf16x2 | 4 => some .addF16x2
  | 5 => some .minI32 | 6 => some .minN32 | 7 => some .maxI32 | 8 => some .maxN32 | 9 => some .and | 10 => some .or
  | 11 => some .xor | 14 => some .minF32 | 15 => some .maxF32 | _ => none
def Scope.code : Scope → Nat
  | .grp => 0 | .team => 1 | .gang => 2 | .die => 3 | .dev => 4 | .sys => 5
def Scope.ofCode? : Nat → Option Scope
  | 0 => some .grp | 1 => some .team | 2 => some .gang | 3 => some .die | 4 => some .dev | 5 => some .sys | _ => none
def Order.code : Order → Nat
  | .rlx => 0 | .acq => 1 | .rel => 2 | .ar => 3
def Order.ofCode : Nat → Order
  | 0 => .rlx | 1 => .acq | 2 => .rel | _ => .ar
def EngineClass.code : EngineClass → Nat
  | .ld => 0 | .st => 1 | .cp => 2 | .mx => 3 | .tm => 4 | .tour => 5 | .cl => 6
def EngineClass.ofCode? : Nat → Option EngineClass
  | 0 => some .ld | 1 => some .st | 2 => some .cp | 3 => some .mx | 4 => some .tm | 5 => some .tour | 6 => some .cl
  | _ => none
def JoinMode.code : JoinMode → Nat
  | .sig => 1 | .wait => 2 | .both => 3
def JoinMode.ofCode? : Nat → Option JoinMode
  | 1 => some .sig | 2 => some .wait | 3 => some .both | _ => none
def MmTy.code : MmTy → Nat
  | .bf16 => 0 | .f16 => 1 | .f8a => 2 | .f8b => 3 | .f8af8b => 4 | .f8bf8a => 5 | .i8 => 6 | .n8 => 7 | .i4 => 8 | .n4 => 9
def MmTy.ofCode? : Nat → Option MmTy
  | 0 => some .bf16 | 1 => some .f16 | 2 => some .f8a | 3 => some .f8b | 4 => some .f8af8b | 5 => some .f8bf8a
  | 6 => some .i8 | 7 => some .n8 | 8 => some .i4 | 9 => some .n4 | _ => none
def QTy.code : QTy → Nat
  | .i4 => 0 | .n4 => 1 | .i8 => 2 | .n8 => 3
def QTy.ofCode? : Nat → Option QTy
  | 0 => some .i4 | 1 => some .n4 | 2 => some .i8 | 3 => some .n8 | _ => none
def AldTy.code : AldTy → Nat
  | .f32 => 0 | .f16 => 1 | .bf16 => 2
def AldTy.ofCode? : Nat → Option AldTy
  | 0 => some .f32 | 1 => some .f16 | 2 => some .bf16 | _ => none
/-- ASTS numbers its types .f32, .f16, .bf16, .f8a, .f8b (R280). -/
def astTy? (n : Nat) : Option FTy := if n < 5 then some (FTy.ofCode n) else none
def CollOp.code : CollOp → Nat
  | .add => 0 | .min => 1 | .max => 2
def CollOp.ofCode? : Nat → Option CollOp
  | 0 => some .add | 1 => some .min | 2 => some .max | _ => none
def CollTy.code : CollTy → Nat
  | .f32 => 0 | .bf16 => 1 | .f16 => 2 | .i32 => 3 | .n32 => 4 | .b8 => 5
def CollTy.ofCode? : Nat → Option CollTy
  | 0 => some .f32 | 1 => some .bf16 | 2 => some .f16 | 3 => some .i32 | 4 => some .n32 | 5 => some .b8 | _ => none
def CollKind.code : CollKind → Nat
  | .allReduce => 0 | .reduceScatter => 1 | .allGather => 2 | .allToAll => 3
def CollKind.ofCode? : Nat → Option CollKind
  | 0 => some .allReduce | 1 => some .reduceScatter | 2 => some .allGather | 3 => some .allToAll | _ => none
/-- The numbers of the special registers (R110). -/
def SReg.code : SReg → Nat
  | .active => 0 | .retired => 1 | .ixb => 2 | .status => 3 | .seed => 4 | .sg => 5 | .calldepth => 6 | .group => 7
  | .teamx => 8 | .teamy => 9 | .teamz => 10 | .teami => 11 | .gridx => 12 | .gridy => 13 | .gridz => 14 | .node => 15
  | .core => 16 | .part => 17 | .cycles => 18 | .time => 19 | .epc => 20 | .ecause => 21 | .einfo => 22 | .emask => 23
  | .traplvl => 24
def SReg.ofCode? : Nat → Option SReg
  | 0 => some .active | 1 => some .retired | 2 => some .ixb | 3 => some .status | 4 => some .seed | 5 => some .sg
  | 6 => some .calldepth | 7 => some .group | 8 => some .teamx | 9 => some .teamy | 10 => some .teamz | 11 => some .teami
  | 12 => some .gridx | 13 => some .gridy | 14 => some .gridz | 15 => some .node | 16 => some .core | 17 => some .part
  | 18 => some .cycles | 19 => some .time | 20 => some .epc | 21 => some .ecause | 22 => some .einfo | 23 => some .emask
  | 24 => some .traplvl | _ => none

/-! ## Operand fields (R51) -/

/-- A source operand field; lit is the literal word. -/
def Opnd.ofField (x lit : Nat) : Opnd :=
  if x < 48 then .v (Fin.ofNat 48 x)
  else if x < 56 then .k (Fin.ofNat 8 (x - 48))
  else if x < 60 then .y (Fin.ofNat 4 (x - 56))
  else if x = 60 then .zero
  else if x = 61 then .lit (BitVec.ofNat 32 lit)
  else if x = 62 then .lane
  else .tid
/-- The field of a source operand. -/
def Opnd.toField : Opnd → Nat
  | .v n => n.val
  | .k n => 48 + n.val
  | .y n => 56 + n.val
  | .zero => 60
  | .lit _ => 61
  | .lane => 62
  | .tid => 63
/-- A destination operand field. -/
def Dst.ofField? (x : Nat) : Option Dst :=
  if x < 48 then some (.v (Fin.ofNat 48 x)) else if x = 60 then some .discard else none
def Dst.toField : Dst → Nat
  | .v n => n.val
  | .discard => 60
/-- A k0 to k7 or 60 field. -/
def EOp.ofField? (x : Nat) : Option EOp :=
  if 48 ≤ x ∧ x < 56 then some (.k (Fin.ofNat 8 (x - 48))) else if x = 60 then some .zero else none
def EOp.toField : EOp → Nat
  | .k n => 48 + n.val
  | .zero => 60
/-- A lane register field 0 to 47. -/
def reg? (x : Nat) : Option (Fin 48) := if x < 48 then some (Fin.ofNat 48 x) else none
/-- The tag of an engine command: T and H, where T = 0 requires H = 0 (R201). -/
def tag? (ctl : Nat) : Option (Option (Fin 16)) :=
  if field ctl 4 1 = 1 then some (some (Fin.ofNat 16 ctl)) else if field ctl 0 4 = 0 then some none else none
def tagField : Option (Fin 16) → Nat
  | some h => 16 + h.val
  | none => 0

/-! ## The splitter's question (R47) -/

/-- Whether a word takes a literal, decided before any legality check. -/
def takesLiteral (w : Nat) : Bool :=
  let major := field w 25 6
  let a := field w 12 6
  let b := field w 6 6
  let e := field w 0 6
  if major = 0x00 then
    field w 23 2 = 0 && (field w 18 5 = 14 || ((field w 18 5 = 4 || field w 18 5 = 8 || field w 18 5 = 9) && a = 61))
  else if major = 0x01 then field w 24 1 = 1
  else if major = 0x03 then (field w 22 3 = 0 && field w 15 1 = 1) || field w 22 3 = 1
  else if 0x04 ≤ major ∧ major ≤ 0x09 then a = 61 || b = 61
  else if 0x0A ≤ major ∧ major ≤ 0x0F then a = 61 || b = 61 || e = 61
  else if major = 0x10 ∨ major = 0x12 then b = 61 || (field w 12 1 = 1 && field w 16 6 = 61)
  else if major = 0x13 ∨ (0x15 ≤ major ∧ major ≤ 0x18) then b = 61 || e = 61
  else if major = 0x14 then b = 61
  else if major = 0x19 ∨ (0x1B ≤ major ∧ major ≤ 0x1E) then true
  else false

/-- The pipes a word may go to (R49). -/
inductive Pipe where
  | v | u | m | x
  deriving DecidableEq, Repr

/-- The pipe of a major opcode (R49); none for an unassigned one (R65). -/
def pipeOf (major : Nat) : Option Pipe :=
  if major ≤ 0x03 ∨ major = 0x11 ∨ major = 0x1A then some .u
  else if 0x04 ≤ major ∧ major ≤ 0x0F then some .v
  else if major = 0x10 ∨ (0x12 ≤ major ∧ major ≤ 0x19) ∨ major = 0x1D ∨ major = 0x1E then some .m
  else if major = 0x1B ∨ major = 0x1C then some .x
  else none

/-! ## Decoding by format -/

/-- Accept i when the reserved bits are zero. -/
def reserved (ok : Bool) (i : Instr) : Decoded := if ok then .ok i else .error .reservedField
/-- Accept what an operand field gives, if it is allowed there. -/
def operand (o : Option α) (f : α → Decoded) : Decoded :=
  match o with
  | some x => f x
  | none => .error .operandValue

/-- Major 0x00 (R61, R66). -/
def decodeControl (w lit : Nat) : Decoded :=
  let a : Fin 64 := Fin.ofNat 64 (field w 12 6)
  let o := Opnd.ofField (field w 12 6) lit
  let low := w % 2 ^ 18
  match field w 23 2 with
  | 0 =>
    match field w 18 5 with
    | 0 => reserved (low = 0) .nop
    | 1 => reserved (low % 4096 = 0) (.brx a)
    | 2 => reserved (low % 4096 = 0) (.callx a)
    | 3 => reserved (low = 0) .ret
    | 4 => reserved (low % 4096 = 0) (.ifL o)
    | 5 => reserved (low = 0) .elseL
    | 6 => reserved (low = 0) .endifL
    | 7 => reserved (low = 0) .loopL
    | 8 => reserved (low % 16 = 0) (.breakL o (BitVec.ofNat 8 (field w 4 8)))
    | 9 => reserved (low % 16 = 0) (.contL o (BitVec.ofNat 8 (field w 4 8)))
    | 10 => reserved (low = 0) .exitL
    | 11 => reserved (low = 0) .yieldL
    | 12 => reserved (low / 256 = 0) (.trap (BitVec.ofNat 8 w))
    | 13 => reserved (low = 0) .eret
    | 14 => reserved (low = 0) (.sigchk (BitVec.ofNat 32 lit))
    | 15 =>
      if field w 17 1 = 0 then reserved (field w 16 1 = 0) (.sleepImm (BitVec.ofNat 16 w))
      else reserved (field w 16 1 = 0 && field w 0 10 = 0) (.sleepK (Fin.ofNat 64 (field w 10 6)))
    | 16 => reserved (low / 256 = 0) (.bkpt (BitVec.ofNat 8 w))
    | _ => .ok (.unassignedOpcode (BitVec.ofNat 32 w))
  | 1 => .ok (.bra (BitVec.ofNat 23 w))
  | 2 => .ok (.call (BitVec.ofNat 23 w))
  | _ =>
    let ka : Fin 64 := Fin.ofNat 64 (field w 14 6)
    match field w 20 3 with
    | 0 => .ok (.brz ka (BitVec.ofNat 14 w))
    | 1 => .ok (.brnz ka (BitVec.ofNat 14 w))
    | 2 => .ok (.brany (BitVec.ofNat 20 w))
    | 3 => .ok (.brnone (BitVec.ofNat 20 w))
    | 4 => .ok (.endloop (BitVec.ofNat 20 w))
    | _ => .ok (.unassignedOpcode (BitVec.ofNat 32 w))

/-- Major 0x01 (R57, R67). -/
def decodeKReg (w lit : Nat) : Decoded :=
  let d : Fin 64 := Fin.ofNat 64 (field w 18 6)
  let a : Fin 64 := Fin.ofNat 64 (field w 12 6)
  let l := field w 24 1
  let kb := field w 6 6
  let b : KSrc := if l = 0 then .reg (Fin.ofNat 64 kb) else .lit (BitVec.ofNat 32 lit)
  let ok : Bool := l = 0 || kb = 0
  match field w 0 6 with
  | 0 => reserved ok (.kadd d a b)
  | 1 => reserved ok (.ksub d a b)
  | 2 => reserved ok (.kmul d a b)
  | 3 => reserved ok (.kmulh true d a b)
  | 4 => reserved ok (.kmulh false d a b)
  | 5 => reserved ok (.kand d a b)
  | 6 => reserved ok (.kor d a b)
  | 7 => reserved ok (.kxor d a b)
  | 8 => reserved ok (.kshl d a b)
  | 9 => reserved ok (.kshr d a b)
  | 10 => reserved ok (.ksra d a b)
  | 11 => reserved ok (.kmin true d a b)
  | 12 => reserved ok (.kmin false d a b)
  | 13 => reserved ok (.kmax true d a b)
  | 14 => reserved ok (.kmax false d a b)
  | 32 => reserved ok (.ksel d a b)
  | 33 => reserved (l = 0 && kb = 0) (.kmov d a)
  | 34 => reserved (l = 0 && kb = 0) (.kpopc d a)
  | 35 => reserved ok (.kbfe false d a b)
  | 36 => reserved ok (.kbfe true d a b)
  | fn => if 16 ≤ fn ∧ fn ≤ 25 then reserved ok (.kcmp (Cc.ofCode (fn - 16)) d a b)
          else .ok (.unassignedOpcode (BitVec.ofNat 32 w))

/-- Major 0x02 (R57, R67). -/
def decodeKImm (w : Nat) : Decoded :=
  let d : Fin 64 := Fin.ofNat 64 (field w 18 6)
  let i := BitVec.ofNat 12 w
  let ok : Bool := field w 24 1 = 0
  match field w 12 6 with
  | 0 => reserved ok (.kaddImm d i)
  | 1 => reserved ok (.ksubImm d i)
  | 2 => reserved ok (.kmulImm d i)
  | 3 => reserved ok (.kmulhImm true d i)
  | 4 => reserved ok (.kmulhImm false d i)
  | 5 => reserved ok (.kandImm d i)
  | 6 => reserved ok (.korImm d i)
  | 7 => reserved ok (.kxorImm d i)
  | 8 => reserved ok (.kshlImm d i)
  | 9 => reserved ok (.kshrImm d i)
  | 10 => reserved ok (.ksraImm d i)
  | 11 => reserved ok (.kminImm true d i)
  | 12 => reserved ok (.kminImm false d i)
  | 13 => reserved ok (.kmaxImm true d i)
  | 14 => reserved ok (.kmaxImm false d i)
  | 35 => reserved ok (.kbfeImm false d i)
  | 36 => reserved ok (.kbfeImm true d i)
  | fn => if 16 ≤ fn ∧ fn ≤ 25 then reserved ok (.kcmpImm (Cc.ofCode (fn - 16)) d i)
          else .ok (.unassignedOpcode (BitVec.ofNat 32 w))

/-- Major 0x03 (R58). -/
def decodeKSpecial (w lit : Nat) : Decoded :=
  let kx : Fin 64 := Fin.ofNat 64 (field w 16 6)
  let l := field w 15 1
  match field w 22 3 with
  | 0 => if l = 0 then .ok (.kli kx (BitVec.ofNat 15 w))
         else reserved (field w 0 15 = 0) (.kliLiteral kx (BitVec.ofNat 32 lit))
  | 1 => reserved (l = 1 && field w 0 15 = 0) (.klih kx (BitVec.ofNat 32 lit))
  | 2 => operand (SReg.ofCode? (field w 0 8)) fun r => reserved (l = 0 && field w 8 7 = 0) (.kget kx r)
  | 3 => operand (SReg.ofCode? (field w 0 8)) fun r => reserved (l = 0 && field w 8 7 = 0) (.kset r kx)
  | 4 => if field w 14 1 = 0 then reserved (l = 0 && field w 8 6 = 0 && kx.val = 0) (.setix (BitVec.ofNat 8 w))
         else reserved (l = 0 && field w 0 14 = 0) (.setixK kx)
  | _ => .ok (.unassignedOpcode (BitVec.ofNat 32 w))

/-- Majors 0x04 to 0x09 (R55, R68, R69). -/
def decodeV2 (w lit : Nat) : Decoded :=
  let major := field w 25 6
  let fn := field w 0 6
  let bf := field w 6 6
  let a := Opnd.ofField (field w 12 6) lit
  let b := Opnd.ofField bf lit
  let un : Decoded := .ok (.unassignedOpcode (BitVec.ofNat 32 w))
  let two (f : VDst → Instr) : Decoded :=
    operand (Dst.ofField? (field w 18 6)) fun d => .ok (f ⟨field w 24 1 = 1, d⟩)
  let one (f : VDst → Instr) : Decoded :=
    operand (Dst.ofField? (field w 18 6)) fun d => reserved (bf = 0) (f ⟨field w 24 1 = 1, d⟩)
  if major = 0x04 then
    match fn with
    | 0 => two (.iadd .none · a b)
    | 1 => two (.iadd .i32 · a b)
    | 2 => two (.iadd .n32 · a b)
    | 3 => two (.iaddc · a b)
    | 4 => two (.isub .none · a b)
    | 5 => two (.isub .i32 · a b)
    | 6 => two (.isub .n32 · a b)
    | 7 => two (.imul .low · a b)
    | 8 => two (.imul .highI · a b)
    | 9 => two (.imul .highN · a b)
    | 10 => two (.imin true · a b)
    | 11 => two (.imin false · a b)
    | 12 => two (.imax true · a b)
    | 13 => two (.imax false · a b)
    | 14 => one (.iabs · a)
    | 16 => two (.iand · a b)
    | 17 => two (.ior · a b)
    | 18 => two (.ixor · a b)
    | 19 => two (.ishl · a b)
    | 20 => two (.ishr · a b)
    | 21 => two (.isra · a b)
    | 22 => two (.ibfe false · a b)
    | 23 => two (.ibfe true · a b)
    | 24 => one (.ipopc · a)
    | 25 => one (.iclz · a)
    | 26 => one (.ibrev · a)
    | _ => un
  else if major = 0x05 then
    match fn with
    | 0 => two (.fadd · a b)
    | 1 => two (.fsub · a b)
    | 2 => two (.fmul · a b)
    | 3 => two (.fmin · a b)
    | 4 => two (.fmax · a b)
    | 5 => one (.fabs · a)
    | 6 => one (.fneg · a)
    | 7 => one (.fclass · a)
    | 8 => one (.frnd .rne · a)
    | 9 => one (.frnd .rz · a)
    | 10 => one (.frnd .rd · a)
    | 11 => one (.frnd .ru · a)
    | 16 => two (.hadd2 .bf16x2 · a b)
    | 17 => two (.hadd2 .f16x2 · a b)
    | 18 => two (.hmul2 .bf16x2 · a b)
    | 19 => two (.hmul2 .f16x2 · a b)
    | 20 => two (.hmin2 .bf16x2 · a b)
    | 21 => two (.hmin2 .f16x2 · a b)
    | 22 => two (.hmax2 .bf16x2 · a b)
    | 23 => two (.hmax2 .f16x2 · a b)
    | _ => un
  else if major = 0x06 then
    if fn < 10 then two (.icmp (Cc.ofCode fn) · a b)
    else if 16 ≤ fn ∧ fn ≤ 23 then two (.fcmp (FCc.ofCode (fn - 16)) · a b)
    else un
  else if major = 0x07 then
    let mode := field w 6 3
    let rc (f : RMode → VDst → Instr) : Decoded :=
      operand (Dst.ofField? (field w 18 6)) fun d =>
        if field w 9 3 ≠ 0 then .error .reservedField
        else if mode ≤ 4 then .ok (f (RMode.ofCode mode) ⟨field w 24 1 = 1, d⟩)
        else .error .operandValue
    if fn < 25 then
      if fn % 6 = 0 then un else rc (fun m d => .fcvt (FTy.ofCode (fn % 5)) (FTy.ofCode (fn / 5)) m d a)
    else if (32 ≤ fn ∧ fn ≤ 37) ∨ fn = 40 ∨ fn = 41 then rc (fun m d => .icvt (IcvtKind.ofCode fn) m d a)
    else if 48 ≤ fn ∧ fn ≤ 53 then two (.pack (PackTy.ofCode (fn - 48)) · a b)
    else if 56 ≤ fn ∧ fn ≤ 61 then two (.unpack (PackTy.ofCode (fn - 56)) · a b)
    else if fn = 62 then two (.scxp · a b)
    else un
  else if major = 0x08 then
    match fn with
    | 0 => one (.mov · a)
    | 1 => two (.shfl · a b)
    | 2 => two (.shflx · a b)
    | 3 => two (.shflup · a b)
    | 4 => two (.shfldn · a b)
    | _ =>
      if 8 ≤ fn ∧ fn ≤ 11 then one (.vote (VoteOp.ofCode (fn - 8)) · a)
      else if 16 ≤ fn ∧ fn ≤ 26 then one (.redq (RedOp.ofCode (fn - 16)) · a)
      else if 32 ≤ fn ∧ fn ≤ 42 then one (.scanq (RedOp.ofCode (fn - 32)) · a)
      else un
  else
    match fn with
    | 0 => one (.frcp · a)
    | 1 => one (.frsq · a)
    | 2 => one (.fsqrt · a)
    | 3 => one (.fexp2 · a)
    | 4 => one (.flog2 · a)
    | 5 => one (.fsin · a)
    | 6 => one (.fcos · a)
    | _ => un

/-- Majors 0x0A to 0x0F (R54). -/
def decodeV3 (w lit : Nat) : Decoded :=
  let a := Opnd.ofField (field w 12 6) lit
  let b := Opnd.ofField (field w 6 6) lit
  let e := Opnd.ofField (field w 0 6) lit
  operand (Dst.ofField? (field w 18 6)) fun d0 =>
    let d : VDst := ⟨field w 24 1 = 1, d0⟩
    match field w 25 6 with
    | 0x0A => .ok (.ffma d a b e)
    | 0x0B => .ok (.imad d a b e)
    | 0x0C => .ok (.hfma2 d a b e)
    | 0x0D => .ok (.isel d a b e)
    | 0x0E => .ok (.ibfi d a b e)
    | _ => .ok (.prmt d a b e)

/-- Majors 0x10, 0x12, 0x14 (R62, R188). -/
def decodeM (w lit : Nat) : Decoded :=
  let major := field w 25 6
  let sz := field w 22 3
  let off := Opnd.ofField (field w 6 6) lit
  let imm := BitVec.ofNat 6 w
  let win := field w 13 3
  let load (f : LdSize → Dst → Decoded) : Decoded :=
    if sz = 7 then .error .operandValue
    else operand (Dst.ofField? (field w 16 6)) fun d => f (LdSize.ofCode sz) d
  let store (f : StSize → Opnd → Decoded) : Decoded :=
    operand (StSize.ofCode? sz) fun z => f z (Opnd.ofField (field w 16 6) lit)
  if major = 0x10 then
    if field w 12 1 = 0 then load fun z d => .ok (.ld z d (Fin.ofNat 8 win) off imm)
    else store fun z x => .ok (.st z x (Fin.ofNat 8 win) off imm)
  else if major = 0x12 then
    if field w 12 1 = 0 then
      if field w 15 1 = 1 then load fun z d => .ok (.ldsGang z d (Fin.ofNat 4 win) off imm)
      else load fun z d => reserved (win = 0) (.lds z d off imm)
    else store fun z x => reserved (win = 0) (.sts z x off imm)
  else load fun z d => reserved (field w 12 1 = 0) (.ldp z d (Fin.ofNat 8 win) off imm)

/-- Major 0x11 (R59). -/
def decodeKMem (w : Nat) : Decoded :=
  let n : Fin 8 := Fin.ofNat 8 (field w 19 3)
  let wide (b : Bool) (f : Bool → Fin 64 → Fin 8 → Fin 64 → BitVec 7 → Instr) : Decoded :=
    .ok (f b (Fin.ofNat 64 (field w 16 6)) (Fin.ofNat 8 (field w 13 3)) (Fin.ofNat 64 (field w 7 6)) (BitVec.ofNat 7 w))
  match field w 22 3 with
  | 0 => reserved (field w 0 7 = 0) (.xwopen n (Fin.ofNat 64 (field w 13 6)) (Fin.ofNat 64 (field w 7 6)))
  | 1 => reserved (field w 0 19 = 0) (.xwclose n)
  | 2 => wide false .kldp
  | 3 => wide true .kldp
  | 4 => wide false .kldg
  | 5 => wide true .kldg
  | _ => .ok (.unassignedOpcode (BitVec.ofNat 32 w))

/-- Majors 0x13, 0x15 to 0x18 (R63, R70, R191, R221). -/
def decodeA (w lit : Nat) : Decoded :=
  let major := field w 25 6
  let op := field w 21 4
  let win : Fin 8 := Fin.ofNat 8 (field w 13 3)
  let ord := Order.ofCode (field w 16 2)
  let dataF := field w 6 6
  let data := Opnd.ofField dataF lit
  let offF := field w 0 6
  let off := Opnd.ofField offF lit
  let un : Decoded := .ok (.unassignedOpcode (BitVec.ofNat 32 w))
  let inScope (f : Scope → Decoded) : Decoded :=
    if field w 12 1 ≠ 0 then .error .reservedField else operand (Scope.ofCode? (field w 18 3)) f
  let plain (ok : Bool) (i : Instr) : Decoded :=
    reserved (field w 12 1 = 0 && field w 16 5 = 0 && ok) i
  let withReg (f : Fin 48 → Decoded) : Decoded := operand (reg? dataF) f
  if major = 0x13 then
    inScope fun sc =>
      if field w 15 1 = 1 then .ok (.atoms (AtomOp.ofCode op) sc ord (some (Fin.ofNat 4 (field w 13 2))) data off)
      else reserved (field w 13 2 = 0) (.atoms (AtomOp.ofCode op) sc ord none data off)
  else if major = 0x15 then
    inScope fun sc => withReg fun r => .ok (.atom (AtomOp.ofCode op) sc ord win r off)
  else if major = 0x16 then
    match RedAtomOp.ofCode? op with
    | none => un
    | some o =>
      inScope fun sc =>
        match ord with
        | .rlx => .ok (.red o sc false win data off)
        | .rel => .ok (.red o sc true win data off)
        | _ => .error .operandValue
  else if major = 0x17 then
    match op with
    | 0 => inScope fun sc => withReg fun r => .ok (.cas false sc ord win r off)
    | 1 => inScope fun sc => withReg fun r => .ok (.cas true sc ord win r off)
    | 2 => inScope fun sc => withReg fun r => .ok (.aggr sc ord win r off)
    | 3 => inScope fun sc => withReg fun r => if ord = .rel then .ok (.putf false sc win r off) else .error .operandValue
    | 4 => inScope fun sc => withReg fun r => if ord = .rel then .ok (.putf true sc win r off) else .error .operandValue
    | 5 => inScope fun sc => withReg fun r => if ord = .acq then .ok (.lda false sc win r off) else .error .operandValue
    | 6 => inScope fun sc => withReg fun r => if ord = .acq then .ok (.lda true sc win r off) else .error .operandValue
    | 7 => inScope fun sc => if ord = .rel then .ok (.stl false sc win data off) else .error .operandValue
    | 8 => inScope fun sc => if ord = .rel then .ok (.stl true sc win data off) else .error .operandValue
    | _ => un
  else
    match op with
    | 0 => inScope fun sc => reserved (win.val = 0 && dataF = 0 && offF = 0) (.fence sc ord)
    | 1 => inScope fun sc =>
        if ord = .acq then reserved (win.val = 0 && offF = 0) (.promote sc data) else .error .operandValue
    | 2 => plain true (.wbr win data off)
    | 3 => plain true (.invr win data off)
    | 4 => plain true (.waita false win data off)
    | 5 => plain true (.waita true win data off)
    | 6 => plain (dataF = 0) (.pref false win off)
    | 7 => plain (dataF = 0) (.pref true win off)
    | _ => un

/-- Major 0x19 (R64, R201). -/
def decodeCopy (w lit : Nat) : Decoded :=
  let opa := field w 14 6
  let opb := field w 8 6
  let xw : Fin 8 := Fin.ofNat 8 (field w 5 3)
  let hi := BitVec.ofNat 16 (lit / 2 ^ 16)
  let lo := BitVec.ofNat 16 lit
  operand (tag? (w % 256)) fun tag =>
    match field w 20 5 with
    | 0 => operand (EOp.ofField? opa) fun a => operand (EOp.ofField? opb) fun b => .ok (.cpy a b xw tag hi lo)
    | 1 => operand (reg? opa) fun a => operand (EOp.ofField? opb) fun b => reserved (hi.toNat = 0) (.cpyg a b xw tag lo)
    | 2 => operand (EOp.ofField? opa) fun a => operand (EOp.ofField? opb) fun b => .ok (.cpys a b xw tag hi lo)
    | 3 => operand (EOp.ofField? opa) fun a => operand (EOp.ofField? opb) fun b =>
        reserved (hi.toNat = 0) (.cpyx a b xw tag lo)
    | _ => .ok (.unassignedOpcode (BitVec.ofNat 32 w))

/-- Major 0x1A (R60, R243). -/
def decodeSync (w : Nat) : Decoded :=
  let a : Fin 64 := Fin.ofNat 64 (field w 14 6)
  let b : Fin 64 := Fin.ofNat 64 (field w 8 6)
  let h : Fin 16 := Fin.ofNat 16 (field w 4 4)
  let n := BitVec.ofNat 8 (field w 3 8)
  let bw : Bool := field w 0 1 = 1
  let cls (f : EngineClass → Decoded) : Decoded := operand (EngineClass.ofCode? (field w 0 3)) f
  match field w 20 5 with
  | 0 => cls fun c => reserved (field w 3 17 = 0) (.close c)
  | 1 =>
    if field w 11 1 = 0 then cls fun c => reserved (field w 12 8 = 0) (.waitb c n)
    else cls fun c => reserved (field w 12 2 = 0 && field w 3 8 = 0) (.waitbK c a)
  | 2 => cls fun c => reserved (field w 11 9 = 0) (.waitc c n)
  | 3 => reserved (field w 0 4 = 0 && field w 8 6 = 0) (.phnew a h)
  | 4 => reserved (field w 0 4 = 0 && field w 8 12 = 0) (.phfree h)
  | 5 => operand (JoinMode.ofCode? (field w 0 2)) fun m => reserved (field w 2 2 = 0) (.phjoin a b h m)
  | 6 => reserved (field w 0 4 = 0 && field w 8 12 = 0) (.phleave h)
  | 7 => reserved (field w 1 3 = 0 && field w 8 12 = 0) (.phsig h bw)
  | 8 => reserved (field w 0 4 = 0 && field w 8 6 = 0) (.phwait a h)
  | 9 => reserved (field w 1 3 = 0 && field w 8 6 = 0) (.phsw a h bw)
  | 10 => reserved (field w 0 4 = 0 && field w 8 6 = 0) (.phrd a h)
  | 11 => reserved (field w 0 20 = 0) .bar
  | 12 => operand (reg? (field w 14 6)) fun r => reserved (field w 0 8 = 0) (.emit r b)
  | _ => .ok (.unassignedOpcode (BitVec.ofNat 32 w))

/-- Major 0x1B (R262, R269, R275, R280). -/
def decodeMatrix (w lit : Nat) : Decoded :=
  let opa := field w 14 6
  let opb := field w 8 6
  let strm : Fin 4 := Fin.ofNat 4 (field w 6 2)
  let ru : Bool := field w 5 1 = 1
  let tq := BitVec.ofNat 8 (lit / 2 ^ 24)
  let boff := BitVec.ofNat 20 lit
  let tf := BitVec.ofNat 10 (lit / 2 ^ 22)
  let n1 := BitVec.ofNat 10 (lit / 2 ^ 12)
  match field w 20 5 with
  | 0 => operand (reg? opa) fun a => operand (MmTy.ofCode? (field w 1 4)) fun t =>
      let b? : Option (Option (Fin 48)) := if opb = 60 then some none else (reg? opb).map some
      operand b? fun b => reserved (field w 0 1 = 0 && field lit 20 4 = 0) (.mmq a b strm ru t tq boff)
  | 1 => operand (reg? opa) fun a => operand (reg? opb) fun b => operand (QTy.ofCode? (field w 2 3)) fun q =>
      reserved (field w 0 1 = 0 && field lit 20 2 = 0)
        (.mmqz a b strm ru q (field w 1 1 = 1) tq (Fin.ofNat 4 (field lit 22 2)) boff)
  | 2 => operand (reg? opa) fun a => operand (MmTy.ofCode? (field w 1 4)) fun t =>
      if 48 ≤ opb ∧ opb ≤ 54 then
        reserved (field w 0 1 = 0 && field lit 20 4 = 0) (.mmqt a (Fin.ofNat 7 (opb - 48)) strm ru t tq boff)
      else .error .operandValue
  | 3 => reserved (opa = 0 && opb = 0 && field w 0 6 = 0 && field lit 0 12 = 0) (.aclr strm tf n1)
  | 4 => operand (EOp.ofField? opa) fun b => operand (AldTy.ofCode? (field w 2 3)) fun t =>
      reserved (opb = 0 && field w 5 1 = 0 && field w 0 2 = 0 && field lit 0 12 = 0) (.alds b strm t tf n1)
  | 5 => operand (EOp.ofField? opa) fun b => operand (astTy? (field w 2 3)) fun t =>
      if field lit 9 3 ≤ 4 then
        reserved (opb = 0 && field w 5 1 = 0 && field w 0 2 = 0 && field lit 0 9 = 0)
          (.asts b strm t tf n1 (RMode.ofCode (field lit 9 3)))
      else .error .operandValue
  | 6 => operand (reg? opa) fun d => reserved (opb = 0 && field w 0 6 = 0 && field lit 0 24 = 0) (.amov d strm tq)
  | 7 => reserved (opa = 0 && opb = 0 && field w 0 6 = 0 && field lit 0 2 = 0)
      (.aadd strm tf n1 (BitVec.ofNat 10 (lit / 4)))
  | 8 =>
    let f? : Option AsclF :=
      if opa < 48 then some (.row (Fin.ofNat 48 opa))
      else if opa < 56 then some (.k (Fin.ofNat 8 (opa - 48))) else none
    operand f? fun f => reserved (opb = 0 && field w 0 6 = 0 && field lit 0 12 = 0) (.ascl f strm tf n1)
  | _ => .ok (.unassignedOpcode (BitVec.ofNat 32 w))

/-- Major 0x1C (R289). -/
def decodeTempo (w lit : Nat) : Decoded :=
  let opa := field w 14 6
  let z : Bool := field w 0 14 = 0
  match field w 20 5 with
  | 0 => reserved (z && opa = 0 && field lit 8 24 = 0) (.twin (BitVec.ofNat 8 lit))
  | 1 => operand (EOp.ofField? opa) fun b =>
      reserved (z && field lit 7 1 = 0 && field lit 15 17 = 0) (.tloadw b (BitVec.ofNat 7 (lit / 256)) (BitVec.ofNat 7 lit))
  | 2 => operand (EOp.ofField? opa) fun b => reserved (z && field lit 1 31 = 0) (.tcfg b (field lit 0 1 = 1))
  | 3 => operand (reg? opa) fun a => reserved (z && field lit 2 30 = 0) (.tstage a (Fin.ofNat 4 (field lit 0 2)))
  | 4 => reserved (z && opa = 0 && field lit 1 31 = 0) (.tfire (field lit 0 1 = 1))
  | 5 => operand (reg? opa) fun d => reserved (z && field lit 2 30 = 0) (.tcapt d (Fin.ofNat 4 (field lit 0 2)))
  | 6 => reserved (z && opa = 0 && field lit 0 32 = 0) .treset
  | _ => .ok (.unassignedOpcode (BitVec.ofNat 32 w))

/-- Major 0x1D (R307). -/
def decodeTour (w lit : Nat) : Decoded :=
  let pw : Fin 8 := Fin.ofNat 8 (field lit 29 3)
  let loff := BitVec.ofNat 16 lit
  let go (f : Fin 48 → Fin 48 → Fin 48 → Fin 8 → Bool → BitVec 16 → Instr) : Decoded :=
    operand (reg? (field w 14 6)) fun a => operand (reg? (field w 8 6)) fun d => operand (reg? (field w 2 6)) fun s =>
      if field lit 24 2 ≤ 1 then
        reserved (field w 0 2 = 0 && field lit 26 3 = 0 && field lit 16 8 = 0) (f a d s pw (field lit 24 2 = 1) loff)
      else .error .operandValue
  match field w 20 5 with
  | 0 => go .tourLd
  | 1 => go .tourAdd
  | _ => .ok (.unassignedOpcode (BitVec.ofNat 32 w))

/-- Major 0x1E (R372). -/
def decodeColl (w lit : Nat) : Decoded :=
  let opa := field w 14 6
  let opb := field w 8 6
  let xw : Fin 8 := Fin.ofNat 8 (field w 5 3)
  let cid := BitVec.ofNat 8 (lit / 2 ^ 24)
  match field w 20 5 with
  | 0 =>
    if 48 ≤ opa ∧ opa ≤ 52 then
      operand (Dst.ofField? opb) fun d => operand (tag? (w % 256)) fun tag =>
        operand (CollOp.ofCode? (field lit 20 4)) fun op => operand (CollTy.ofCode? (field lit 16 4)) fun ty =>
          operand (CollKind.ofCode? (field lit 12 3)) fun kind =>
            reserved (field lit 0 12 = 0) (.coll (Fin.ofNat 5 (opa - 48)) d xw tag cid op ty (field lit 15 1 = 1) kind)
    else .error .operandValue
  | 1 =>
    operand (Dst.ofField? opb) fun d =>
      let ok : Bool := field w 0 5 = 0 && field lit 4 20 = 0
      match field lit 0 4 with
      | 0 => if 48 ≤ opa ∧ opa < 56 then reserved ok (.commqCreate xw (Fin.ofNat 8 (opa - 48)) d cid)
             else .error .operandValue
      | 1 => if opa = 60 then reserved ok (.commqDestroy xw d cid) else .error .operandValue
      | 2 => if opa = 60 then reserved ok (.commqAbort xw d cid) else .error .operandValue
      | 3 => if opa = 60 then reserved ok (.commqQuery xw d cid) else .error .operandValue
      | _ => .error .operandValue
  | _ => .ok (.unassignedOpcode (BitVec.ofNat 32 w))

/-- Decoding by major opcode (R65), before the checks of Instr.wf. -/
def decodeFields (w lit : Nat) : Decoded :=
  let major := field w 25 6
  if major = 0x00 then decodeControl w lit
  else if major = 0x01 then decodeKReg w lit
  else if major = 0x02 then decodeKImm w
  else if major = 0x03 then decodeKSpecial w lit
  else if major ≤ 0x09 then decodeV2 w lit
  else if major ≤ 0x0F then decodeV3 w lit
  else if major = 0x10 ∨ major = 0x12 ∨ major = 0x14 then decodeM w lit
  else if major = 0x11 then decodeKMem w
  else if major = 0x13 ∨ (0x15 ≤ major ∧ major ≤ 0x18) then decodeA w lit
  else if major = 0x19 then decodeCopy w lit
  else if major = 0x1A then decodeSync w
  else if major = 0x1B then decodeMatrix w lit
  else if major = 0x1C then decodeTempo w lit
  else if major = 0x1D then decodeTour w lit
  else if major = 0x1E then decodeColl w lit
  else .ok (.unassignedOpcode (BitVec.ofNat 32 w))

/-- The instruction of word w, whose literal word (if it takes one) is lit. Bit 31, the chain bit, is no part of it. -/
def decode (w lit : Nat) : Decoded :=
  match decodeFields w lit with
  | .ok i => if i.wf then .ok i else .error .combination
  | .error r => .error r

/-- An Xcokihan word (R321). FETCHR has no rs2: a field that is not zero is refused as illegal, which R321 does not say (assumption
102). -/
def decodeRv (w : Nat) : Decoded :=
  let rd : Fin 32 := Fin.ofNat 32 (field w 7 5)
  let rs1 : Fin 32 := Fin.ofNat 32 (field w 15 5)
  let rs2 : Fin 32 := Fin.ofNat 32 (field w 20 5)
  if field w 0 7 = 0x0B ∧ field w 25 7 = 0 then
    match field w 12 3 with
    | 0 => reserved (field w 20 5 = 0) (.fetchr rd rs1)
    | 1 => .ok (.bfx rd rs1 rs2)
    | 2 => .ok (.swait rd rs1 rs2)
    | 3 => .ok (.disp rd rs1 rs2)
    | _ => .error .notXcokihan
  else .error .notXcokihan

/-! ## Encoding -/

def boolBit (b : Bool) : Nat := if b then 1 else 0

/-- A V2 or V3 word: major, W, D, A, B and the last six bits (R54, R55). -/
def encV (major : Nat) (d : VDst) (a b e : Nat) : Nat :=
  major * 2 ^ 25 + boolBit d.w * 2 ^ 24 + d.d.toField * 2 ^ 18 + a * 2 ^ 12 + b * 2 ^ 6 + e
/-- A K register word (R105). -/
def encKReg (fn : Nat) (d a : Fin 64) (b : KSrc) : Nat :=
  match b with
  | .reg n => 0x02000000 + d.val * 2 ^ 18 + a.val * 2 ^ 12 + n.val * 2 ^ 6 + fn
  | .lit _ => 0x03000000 + d.val * 2 ^ 18 + a.val * 2 ^ 12 + fn
/-- A K immediate word (R105). -/
def encKImm (fn : Nat) (d : Fin 64) (i : BitVec 12) : Nat := 0x04000000 + d.val * 2 ^ 18 + fn * 2 ^ 12 + i.toNat
/-- A misc control word (R88). -/
def encMisc (sub low : Nat) : Nat := sub * 2 ^ 18 + low
/-- A format M word (R188). -/
def encM (base sz data win : Nat) (off : Opnd) (imm : BitVec 6) : Nat :=
  base + sz * 2 ^ 22 + data * 2 ^ 16 + win * 2 ^ 13 + off.toField * 2 ^ 6 + imm.toNat
/-- A format A word (R191, R221). -/
def encA (major op : Nat) (sc : Scope) (ord : Order) (win data : Nat) (off : Opnd) : Nat :=
  major * 2 ^ 25 + op * 2 ^ 21 + sc.code * 2 ^ 18 + ord.code * 2 ^ 16 + win * 2 ^ 13 + data * 2 ^ 6 + off.toField
/-- A format E word (R64). -/
def encE (major sub opa opb ctl : Nat) : Nat := major * 2 ^ 25 + sub * 2 ^ 20 + opa * 2 ^ 14 + opb * 2 ^ 8 + ctl
/-- A synchronisation word (R60). -/
def encS (sub rest : Nat) : Nat := 0x34000000 + sub * 2 ^ 20 + rest
/-- An Xcokihan word (R321). -/
def encRv (f3 : Nat) (rd rs1 rs2 : Fin 32) : Nat :=
  rs2.val * 2 ^ 20 + rs1.val * 2 ^ 15 + f3 * 2 ^ 12 + rd.val * 2 ^ 7 + 0x0B
def optReg : Option (Fin 48) → Nat
  | some r => r.val
  | none => 60
def AsclF.toField : AsclF → Nat
  | .row n => n.val
  | .k n => 48 + n.val

/-- The instruction word, chain bit zero; 0 for an event, which has no word. -/
def encodeWord : Instr → Nat
  | .nop => 0
  | .brx a => encMisc 1 (a.val * 2 ^ 12)
  | .callx a => encMisc 2 (a.val * 2 ^ 12)
  | .ret => encMisc 3 0
  | .ifL o => encMisc 4 (o.toField * 2 ^ 12)
  | .elseL => encMisc 5 0
  | .endifL => encMisc 6 0
  | .loopL => encMisc 7 0
  | .breakL o d => encMisc 8 (o.toField * 2 ^ 12 + d.toNat * 2 ^ 4)
  | .contL o d => encMisc 9 (o.toField * 2 ^ 12 + d.toNat * 2 ^ 4)
  | .exitL => encMisc 10 0
  | .yieldL => encMisc 11 0
  | .trap c => encMisc 12 c.toNat
  | .eret => encMisc 13 0
  | .sigchk _ => encMisc 14 0
  | .sleepImm n => encMisc 15 n.toNat
  | .sleepK a => encMisc 15 (2 ^ 17 + a.val * 2 ^ 10)
  | .bkpt c => encMisc 16 c.toNat
  | .bra o => 0x00800000 + o.toNat
  | .call o => 0x01000000 + o.toNat
  | .brz a o => 0x01800000 + a.val * 2 ^ 14 + o.toNat
  | .brnz a o => 0x01900000 + a.val * 2 ^ 14 + o.toNat
  | .brany o => 0x01A00000 + o.toNat
  | .brnone o => 0x01B00000 + o.toNat
  | .endloop o => 0x01C00000 + o.toNat
  | .kadd d a b => encKReg 0 d a b
  | .ksub d a b => encKReg 1 d a b
  | .kmul d a b => encKReg 2 d a b
  | .kmulh s d a b => encKReg (if s then 3 else 4) d a b
  | .kand d a b => encKReg 5 d a b
  | .kor d a b => encKReg 6 d a b
  | .kxor d a b => encKReg 7 d a b
  | .kshl d a b => encKReg 8 d a b
  | .kshr d a b => encKReg 9 d a b
  | .ksra d a b => encKReg 10 d a b
  | .kmin s d a b => encKReg (if s then 11 else 12) d a b
  | .kmax s d a b => encKReg (if s then 13 else 14) d a b
  | .kcmp cc d a b => encKReg (16 + cc.code) d a b
  | .ksel d a b => encKReg 32 d a b
  | .kmov d a => encKReg 33 d a (.reg 0)
  | .kpopc d a => encKReg 34 d a (.reg 0)
  | .kbfe s d a b => encKReg (if s then 36 else 35) d a b
  | .kaddImm d i => encKImm 0 d i
  | .ksubImm d i => encKImm 1 d i
  | .kmulImm d i => encKImm 2 d i
  | .kmulhImm s d i => encKImm (if s then 3 else 4) d i
  | .kandImm d i => encKImm 5 d i
  | .korImm d i => encKImm 6 d i
  | .kxorImm d i => encKImm 7 d i
  | .kshlImm d i => encKImm 8 d i
  | .kshrImm d i => encKImm 9 d i
  | .ksraImm d i => encKImm 10 d i
  | .kminImm s d i => encKImm (if s then 11 else 12) d i
  | .kmaxImm s d i => encKImm (if s then 13 else 14) d i
  | .kcmpImm cc d i => encKImm (16 + cc.code) d i
  | .kbfeImm s d i => encKImm (if s then 36 else 35) d i
  | .kli d i => 0x06000000 + d.val * 2 ^ 16 + i.toNat
  | .kliLiteral d _ => 0x06008000 + d.val * 2 ^ 16
  | .klih d _ => 0x06408000 + d.val * 2 ^ 16
  | .kget d r => 0x06800000 + d.val * 2 ^ 16 + r.code
  | .kset r a => 0x06C00000 + a.val * 2 ^ 16 + r.code
  | .setix n => 0x07000000 + n.toNat
  | .setixK a => 0x07004000 + a.val * 2 ^ 16
  | .iadd s d a b => encV 4 d a.toField b.toField (match s with | .none => 0 | .i32 => 1 | .n32 => 2)
  | .iaddc d a b => encV 4 d a.toField b.toField 3
  | .isub s d a b => encV 4 d a.toField b.toField (match s with | .none => 4 | .i32 => 5 | .n32 => 6)
  | .imul k d a b => encV 4 d a.toField b.toField (match k with | .low => 7 | .highI => 8 | .highN => 9)
  | .imin s d a b => encV 4 d a.toField b.toField (if s then 10 else 11)
  | .imax s d a b => encV 4 d a.toField b.toField (if s then 12 else 13)
  | .iabs d a => encV 4 d a.toField 0 14
  | .iand d a b => encV 4 d a.toField b.toField 16
  | .ior d a b => encV 4 d a.toField b.toField 17
  | .ixor d a b => encV 4 d a.toField b.toField 18
  | .ishl d a b => encV 4 d a.toField b.toField 19
  | .ishr d a b => encV 4 d a.toField b.toField 20
  | .isra d a b => encV 4 d a.toField b.toField 21
  | .ibfe s d a b => encV 4 d a.toField b.toField (if s then 23 else 22)
  | .ipopc d a => encV 4 d a.toField 0 24
  | .iclz d a => encV 4 d a.toField 0 25
  | .ibrev d a => encV 4 d a.toField 0 26
  | .imad d a b e => encV 0x0B d a.toField b.toField e.toField
  | .isel d a b e => encV 0x0D d a.toField b.toField e.toField
  | .ibfi d a b e => encV 0x0E d a.toField b.toField e.toField
  | .icmp cc d a b => encV 6 d a.toField b.toField cc.code
  | .fadd d a b => encV 5 d a.toField b.toField 0
  | .fsub d a b => encV 5 d a.toField b.toField 1
  | .fmul d a b => encV 5 d a.toField b.toField 2
  | .fmin d a b => encV 5 d a.toField b.toField 3
  | .fmax d a b => encV 5 d a.toField b.toField 4
  | .fabs d a => encV 5 d a.toField 0 5
  | .fneg d a => encV 5 d a.toField 0 6
  | .fclass d a => encV 5 d a.toField 0 7
  | .frnd m d a => encV 5 d a.toField 0 (8 + m.code)
  | .ffma d a b e => encV 0x0A d a.toField b.toField e.toField
  | .hadd2 t d a b => encV 5 d a.toField b.toField (match t with | .bf16x2 => 16 | .f16x2 => 17)
  | .hmul2 t d a b => encV 5 d a.toField b.toField (match t with | .bf16x2 => 18 | .f16x2 => 19)
  | .hmin2 t d a b => encV 5 d a.toField b.toField (match t with | .bf16x2 => 20 | .f16x2 => 21)
  | .hmax2 t d a b => encV 5 d a.toField b.toField (match t with | .bf16x2 => 22 | .f16x2 => 23)
  | .hfma2 d a b e => encV 0x0C d a.toField b.toField e.toField
  | .fcmp cc d a b => encV 6 d a.toField b.toField (16 + cc.code)
  | .frcp d a => encV 9 d a.toField 0 0
  | .frsq d a => encV 9 d a.toField 0 1
  | .fsqrt d a => encV 9 d a.toField 0 2
  | .fexp2 d a => encV 9 d a.toField 0 3
  | .flog2 d a => encV 9 d a.toField 0 4
  | .fsin d a => encV 9 d a.toField 0 5
  | .fcos d a => encV 9 d a.toField 0 6
  | .fcvt t f m d a => encV 7 d a.toField m.code (5 * f.code + t.code)
  | .icvt k m d a => encV 7 d a.toField m.code k.code
  | .pack t d a b => encV 7 d a.toField b.toField (48 + t.code)
  | .unpack t d a b => encV 7 d a.toField b.toField (56 + t.code)
  | .scxp d a b => encV 7 d a.toField b.toField 62
  | .mov d a => encV 8 d a.toField 0 0
  | .shfl d a b => encV 8 d a.toField b.toField 1
  | .shflx d a b => encV 8 d a.toField b.toField 2
  | .shflup d a b => encV 8 d a.toField b.toField 3
  | .shfldn d a b => encV 8 d a.toField b.toField 4
  | .vote o d a => encV 8 d a.toField 0 (8 + o.code)
  | .redq o d a => encV 8 d a.toField 0 (16 + o.code)
  | .scanq o d a => encV 8 d a.toField 0 (32 + o.code)
  | .prmt d a b e => encV 0x0F d a.toField b.toField e.toField
  | .ld z d w o i => encM 0x20000000 z.code d.toField w.val o i
  | .st z x w o i => encM 0x20001000 z.code x.toField w.val o i
  | .lds z d o i => encM 0x24000000 z.code d.toField 0 o i
  | .ldsGang z d m o i => encM 0x24000000 z.code d.toField (4 + m.val) o i
  | .sts z x o i => encM 0x24001000 z.code x.toField 0 o i
  | .ldp z d w o i => encM 0x28000000 z.code d.toField w.val o i
  | .xwopen n a b => 0x22000000 + n.val * 2 ^ 19 + a.val * 2 ^ 13 + b.val * 2 ^ 7
  | .xwclose n => 0x22400000 + n.val * 2 ^ 19
  | .kldp w d n a i => (if w then 0x22C00000 else 0x22800000) + d.val * 2 ^ 16 + n.val * 2 ^ 13 + a.val * 2 ^ 7 + i.toNat
  | .kldg w d n a i => (if w then 0x23400000 else 0x23000000) + d.val * 2 ^ 16 + n.val * 2 ^ 13 + a.val * 2 ^ 7 + i.toNat
  | .atom op sc o w r f => encA 0x15 op.code sc o w.val r.val f
  | .red op sc rel w x f => encA 0x16 op.toAtom.code sc (if rel then .rel else .rlx) w.val x.toField f
  | .atoms op sc o g x f => encA 0x13 op.code sc o (match g with | some m => 4 + m.val | none => 0) x.toField f
  | .cas wide sc o w r f => encA 0x17 (boolBit wide) sc o w.val r.val f
  | .aggr sc o w r f => encA 0x17 2 sc o w.val r.val f
  | .putf wide sc w r f => encA 0x17 (3 + boolBit wide) sc .rel w.val r.val f
  | .waita wide w x f => encA 0x18 (4 + boolBit wide) .grp .rlx w.val x.toField f
  | .pref l2 w f => encA 0x18 (6 + boolBit l2) .grp .rlx w.val 0 f
  | .cpy a b xw t _ _ => encE 0x19 0 a.toField b.toField (xw.val * 32 + tagField t)
  | .cpyg a b xw t _ => encE 0x19 1 a.val b.toField (xw.val * 32 + tagField t)
  | .cpys a b xw t _ _ => encE 0x19 2 a.toField b.toField (xw.val * 32 + tagField t)
  | .cpyx a b xw t _ => encE 0x19 3 a.toField b.toField (xw.val * 32 + tagField t)
  | .lda wide sc w r f => encA 0x17 (5 + boolBit wide) sc .acq w.val r.val f
  | .stl wide sc w x f => encA 0x17 (7 + boolBit wide) sc .rel w.val x.toField f
  | .fence sc o => 0x30000000 + sc.code * 2 ^ 18 + o.code * 2 ^ 16
  | .promote sc x => 0x30210000 + sc.code * 2 ^ 18 + x.toField * 2 ^ 6
  | .wbr w x f => encA 0x18 2 .grp .rlx w.val x.toField f
  | .invr w x f => encA 0x18 3 .grp .rlx w.val x.toField f
  | .close c => encS 0 c.code
  | .waitb c n => encS 1 (n.toNat * 8 + c.code)
  | .waitbK c a => encS 1 (a.val * 2 ^ 14 + 2 ^ 11 + c.code)
  | .waitc c n => encS 2 (n.toNat * 8 + c.code)
  | .phnew a h => encS 3 (a.val * 2 ^ 14 + h.val * 16)
  | .phfree h => encS 4 (h.val * 16)
  | .phjoin d b h m => encS 5 (d.val * 2 ^ 14 + b.val * 2 ^ 8 + h.val * 16 + m.code)
  | .phleave h => encS 6 (h.val * 16)
  | .phsig h w => encS 7 (h.val * 16 + boolBit w)
  | .phwait a h => encS 8 (a.val * 2 ^ 14 + h.val * 16)
  | .phsw a h w => encS 9 (a.val * 2 ^ 14 + h.val * 16 + boolBit w)
  | .phrd d h => encS 10 (d.val * 2 ^ 14 + h.val * 16)
  | .bar => encS 11 0
  | .emit r n => encS 12 (r.val * 2 ^ 14 + n.val * 2 ^ 8)
  | .mmq a b s ru t _ _ => encE 0x1B 0 a.val (optReg b) (s.val * 64 + boolBit ru * 32 + t.code * 2)
  | .mmqz a b s ru q f _ _ _ => encE 0x1B 1 a.val b.val (s.val * 64 + boolBit ru * 32 + q.code * 4 + boolBit f * 2)
  | .mmqt a p s ru t _ _ => encE 0x1B 2 a.val (48 + p.val) (s.val * 64 + boolBit ru * 32 + t.code * 2)
  | .aclr s _ _ => encE 0x1B 3 0 0 (s.val * 64)
  | .alds b s t _ _ => encE 0x1B 4 b.toField 0 (s.val * 64 + t.code * 4)
  | .asts b s t _ _ _ => encE 0x1B 5 b.toField 0 (s.val * 64 + t.code * 4)
  | .amov d s _ => encE 0x1B 6 d.val 0 (s.val * 64)
  | .aadd s _ _ _ => encE 0x1B 7 0 0 (s.val * 64)
  | .ascl f s _ _ => encE 0x1B 8 f.toField 0 (s.val * 64)
  | .twin _ => encE 0x1C 0 0 0 0
  | .tloadw b _ _ => encE 0x1C 1 b.toField 0 0
  | .tcfg b _ => encE 0x1C 2 b.toField 0 0
  | .tstage a _ => encE 0x1C 3 a.val 0 0
  | .tfire _ => encE 0x1C 4 0 0 0
  | .tcapt d _ => encE 0x1C 5 d.val 0 0
  | .treset => encE 0x1C 6 0 0 0
  | .tourLd a d s _ _ _ => encE 0x1D 0 a.val d.val (s.val * 4)
  | .tourAdd a d s _ _ _ => encE 0x1D 1 a.val d.val (s.val * 4)
  | .coll b d xw t _ _ _ _ _ => encE 0x1E 0 (48 + b.val) d.toField (xw.val * 32 + tagField t)
  | .commqCreate xw a d _ => encE 0x1E 1 (48 + a.val) d.toField (xw.val * 32)
  | .commqDestroy xw d _ => encE 0x1E 1 60 d.toField (xw.val * 32)
  | .commqAbort xw d _ => encE 0x1E 1 60 d.toField (xw.val * 32)
  | .commqQuery xw d _ => encE 0x1E 1 60 d.toField (xw.val * 32)
  | .fetchr rd rs1 => encRv 0 rd rs1 0
  | .bfx rd rs1 rs2 => encRv 1 rd rs1 rs2
  | .swait rd rs1 rs2 => encRv 2 rd rs1 rs2
  | .disp rd rs1 rs2 => encRv 3 rd rs1 rs2
  | .unassignedOpcode w => w.toNat
  | _ => 0

/-- The literal an operand carries, or the other's. -/
def litOf2 (a b : Opnd) : Option Word := a.lit?.orElse fun _ => b.lit?
def litOf3 (a b e : Opnd) : Option Word := a.lit?.orElse fun _ => litOf2 b e
def KSrc.lit? : KSrc → Option Word
  | .lit x => some x
  | .reg _ => none

/-- A literal with two fields [31:16] and [15:0]. -/
def litHalves (hi lo : BitVec 16) : Word := BitVec.ofNat 32 (hi.toNat * 2 ^ 16 + lo.toNat)
/-- A tile literal: [31:22] and [21:12], then the rest (R262). -/
def litTiles (tf n1 : BitVec 10) (rest : Nat) : Word := BitVec.ofNat 32 (tf.toNat * 2 ^ 22 + n1.toNat * 2 ^ 12 + rest)

/-- The literal word, if the instruction takes one (R47, R64). -/
def encodeLit : Instr → Option Word
  | .ifL o => o.lit?
  | .breakL o _ => o.lit?
  | .contL o _ => o.lit?
  | .sigchk x => some x
  | .kadd _ _ b | .ksub _ _ b | .kmul _ _ b | .kmulh _ _ _ b | .kand _ _ b | .kor _ _ b | .kxor _ _ b | .kshl _ _ b
  | .kshr _ _ b | .ksra _ _ b | .kmin _ _ _ b | .kmax _ _ _ b | .kcmp _ _ _ b | .ksel _ _ b | .kbfe _ _ _ b => b.lit?
  | .kliLiteral _ x => some x
  | .klih _ x => some x
  | .iadd _ _ a b | .iaddc _ a b | .isub _ _ a b | .imul _ _ a b | .imin _ _ a b | .imax _ _ a b | .iand _ a b
  | .ior _ a b | .ixor _ a b | .ishl _ a b | .ishr _ a b | .isra _ a b | .ibfe _ _ a b | .icmp _ _ a b
  | .fadd _ a b | .fsub _ a b | .fmul _ a b | .fmin _ a b | .fmax _ a b | .hadd2 _ _ a b | .hmul2 _ _ a b
  | .hmin2 _ _ a b | .hmax2 _ _ a b | .fcmp _ _ a b | .pack _ _ a b | .unpack _ _ a b | .scxp _ a b
  | .shfl _ a b | .shflx _ a b | .shflup _ a b | .shfldn _ a b => litOf2 a b
  | .iabs _ a | .ipopc _ a | .iclz _ a | .ibrev _ a | .fabs _ a | .fneg _ a | .fclass _ a | .frnd _ _ a | .frcp _ a
  | .frsq _ a | .fsqrt _ a | .fexp2 _ a | .flog2 _ a | .fsin _ a | .fcos _ a | .fcvt _ _ _ _ a | .icvt _ _ _ a
  | .mov _ a | .vote _ _ a | .redq _ _ a | .scanq _ _ a => a.lit?
  | .imad _ a b e | .isel _ a b e | .ibfi _ a b e | .ffma _ a b e | .hfma2 _ a b e | .prmt _ a b e => litOf3 a b e
  | .ld _ _ _ o _ | .lds _ _ o _ | .ldsGang _ _ _ o _ | .ldp _ _ _ o _ => o.lit?
  | .st _ x _ o _ | .sts _ x o _ => litOf2 x o
  | .atom _ _ _ _ _ f | .cas _ _ _ _ _ f | .aggr _ _ _ _ f | .putf _ _ _ _ f | .lda _ _ _ _ f | .pref _ _ f => f.lit?
  | .red _ _ _ _ x f | .atoms _ _ _ _ x f | .waita _ _ x f | .stl _ _ _ x f | .wbr _ x f | .invr _ x f => litOf2 x f
  | .promote _ x => x.lit?
  | .cpy _ _ _ _ s r | .cpys _ _ _ _ s r => some (litHalves s r)
  | .cpyg _ _ _ _ r | .cpyx _ _ _ _ r => some (litHalves 0 r)
  | .mmq _ _ _ _ _ tq boff | .mmqt _ _ _ _ _ tq boff => some (BitVec.ofNat 32 (tq.toNat * 2 ^ 24 + boff.toNat))
  | .mmqz _ _ _ _ _ _ tq sel boff => some (BitVec.ofNat 32 (tq.toNat * 2 ^ 24 + sel.val * 2 ^ 22 + boff.toNat))
  | .aclr _ tf n1 | .alds _ _ _ tf n1 | .ascl _ _ tf n1 => some (litTiles tf n1 0)
  | .asts _ _ _ tf n1 m => some (litTiles tf n1 (m.code * 2 ^ 9))
  | .amov _ _ tq => some (BitVec.ofNat 32 (tq.toNat * 2 ^ 24))
  | .aadd _ td ts n1 => some (litTiles td ts (n1.toNat * 4))
  | .twin tw => some (BitVec.ofNat 32 tw.toNat)
  | .tloadw _ nr1 fr => some (BitVec.ofNat 32 (nr1.toNat * 256 + fr.toNat))
  | .tcfg _ h => some (BitVec.ofNat 32 (boolBit h))
  | .tstage _ rb => some (BitVec.ofNat 32 rb.val)
  | .tfire fb => some (BitVec.ofNat 32 (boolBit fb))
  | .tcapt _ cb => some (BitVec.ofNat 32 cb.val)
  | .treset => some 0
  | .tourLd _ _ _ pw wide loff | .tourAdd _ _ _ pw wide loff =>
    some (BitVec.ofNat 32 (pw.val * 2 ^ 29 + boolBit wide * 2 ^ 24 + loff.toNat))
  | .coll _ _ _ _ cid op ty arr kind =>
    some (BitVec.ofNat 32
      (cid.toNat * 2 ^ 24 + op.code * 2 ^ 20 + ty.code * 2 ^ 16 + boolBit arr * 2 ^ 15 + kind.code * 2 ^ 12))
  | .commqCreate _ _ _ cid => some (BitVec.ofNat 32 (cid.toNat * 2 ^ 24))
  | .commqDestroy _ _ cid => some (BitVec.ofNat 32 (cid.toNat * 2 ^ 24 + 1))
  | .commqAbort _ _ cid => some (BitVec.ofNat 32 (cid.toNat * 2 ^ 24 + 2))
  | .commqQuery _ _ cid => some (BitVec.ofNat 32 (cid.toNat * 2 ^ 24 + 3))
  | _ => none

/-- The words of a well-formed instruction: the instruction word, then its literal word if it takes one. -/
def encode (i : Instr) : List Nat :=
  encodeWord i :: (match encodeLit i with | some x => [x.toNat] | none => [])

/-- How an instruction is written: as a word of a group (R46), as a word of a front-end core (R321), as a word that no table
assigns (R65), or not at all, an event. -/
inductive Form where
  | group | frontEnd | unassigned | event
  deriving DecidableEq, Repr
/-- The form of each instruction. -/
def Instr.form : Instr → Form
  | .fetchr .. | .bfx .. | .swait .. | .disp .. => .frontEnd
  | .unassignedOpcode _ => .unassigned
  | .swaitWake .. | .stallRunEnd .. | .distributorClaim .. | .teamStartAttempt .. | .teamStart .. | .teamSteal ..
  | .gatherTimerLapse .. | .groupEnd .. | .gridComplete .. | .launchStatusWrite .. | .sleepExpire ..
  | .batchComplete .. | .walkComplete .. | .translationRetry .. | .waitaReread .. | .priResponse ..
  | .atsTranslationCompletion .. | .dataFlitSend .. | .replayTimeout .. | .nakRepeat .. | .moduleRetrain ..
  | .retrainComplete .. | .packetFetch .. | .launch .. | .write .. | .signal .. | .wait .. | .waitSatisfied ..
  | .writeSignal .. | .phaser .. | .timestamp .. | .fencePacket .. | .queueEnable .. | .doorbell ..
  | .wakeRegister .. | .queueUnmap .. | .queueRemap .. | .queueRepoll .. | .timeSliceExpire .. | .preemptRequest ..
  | .coreStateSave .. | .gatherBufferSave .. | .contextRestore .. | .inval .. | .invalidationDrainDone ..
  | .atsInvalidateRequest .. | .dies .. | .registerWrite .. | .powerOn .. | .powerSample .. | .spdmRequest ..
  | .gangRelaunch .. | .logRecordWrite .. | .tourSend .. | .tourResend .. | .copyComplete ..
  | .matrixCommandExecute .. | .tempoCommandExecute .. | .collStep .. | .collTransferRetry ..
  | .collTransferTimeout .. | .collCompletionDelivery .. | .swaitReread .. | .lockdown | .linkTrainingComplete
  | .memoryTrainingComplete | .derloStart | .clockRead | .gatherRecordArrival | .readMessage | .writeMessage
  | .atomicMessage | .readDataMessage | .writeAcknowledge | .releaseMarker | .writeReport | .tourStep | .engineData
  | .monitorWake | .invalidationMessage | .collectiveControl | .promoteRequest | .portSignalRelease | .arrive
  | .phaserSignal | .join | .leave | .move | .joined | .left | .moved | .done | .newFrame | .freeFrame | .idleFrame
  | .ackFrame | .nakFrame | .dataFlit | .idleFlit | .ackFlit | .nakFlit | .fabricRequestTimeout | .tourReturn
  | .pageReturn | .promoteAcknowledge => .event
  | _ => .group

/-- The instruction a front-end core or a group reads from the bits w, numbered as the opcode table numbers them: the
first word is bits 31..0, and a literal word, when nbits gives one, bits 63..32. A word of the custom-0 form of R321 is
read as a front-end core's; every other word as a group's. An illegal word is none, an unassigned one the event of R65. -/
def decodeTableWord (nbits w : Nat) : Option Instr :=
  let word := w % 2 ^ 32
  let lit := if nbits ≤ 32 then 0 else w / 2 ^ 32 % 2 ^ 32
  match decodeRv word with
  | .ok i => some i
  | .error _ => match decode word lit with
    | .ok i => some i
    | .error _ => none

end Sys2Proof
end

