-- ==== Sys2Proof/Machine/State.lean ====
section
/-! DEFINITION. Everything the manual gives the A24, as plain data. A field names the rule that gives it; its default is its
value at reset. Indexed stores are lists of key and value with strictly rising keys (Map), and stores in which every
index holds a value list only the indexes whose value differs from the reset value (Cells). Addresses, sizes, numbers of
things and times are natural numbers; register contents are bit vectors. -/

namespace Sys2Proof.Machine

/-- A finite map: strictly rising keys. -/
abbrev Map (α : Type) := List (Nat × α)
/-- A store with a value at every index: strictly rising keys, none listed at the unlisted value. -/
abbrev Cells (α : Type) := List (Nat × α)

/-! ## A group (R83, R110, R162, R184, R235, R310, R334) -/

/-- A position: packet index and word 0 to 3 (R28, R110 EPC). -/
structure Pos where
  /-- packet index (R45) -/
  pkt : Nat := 0
  /-- word position; 3 can only be in EPC (R101) -/
  word : Nat := 0
  deriving DecidableEq, Repr, Inhabited

/-- A frame of the call stack (R91). -/
structure Frame where
  /-- return position (R91) -/
  ret : Pos
  /-- the 32 counters at the call, 0 where unlisted (R91) -/
  c : Cells Byte
  deriving DecidableEq, Repr

/-- A translation window (R162). -/
structure Window where
  /-- open bit; closed when a group starts (R162) -/
  isOpen : Bool := false
  /-- base VA (R162) -/
  base : Nat := 0
  /-- size in bytes (R162) -/
  size : Nat := 0
  /-- bytes the direct path covers (R163) -/
  limit : Nat := 0
  /-- physical address of the base (R163) -/
  frame : Nat := 0
  /-- write permission of the direct path (R163) -/
  w : Bool := false
  /-- S bit of the leaves the direct path covers (R163, R175) -/
  stable : Bool := false
  /-- physical addresses of the leaves the direct path covers (R163, R164) -/
  leaves : List Nat := []
  /-- the first write through the direct path has set D (R164) -/
  dirtied : Bool := false
  deriving DecidableEq, Repr, Inhabited

/-- Binding state of a handle (R235 ST). -/
inductive HState where
  | unbound | joining | bound | leaving
  deriving DecidableEq, Repr, Inhabited

/-- A phaser handle (R235). -/
structure Handle where
  /-- ST (R235) -/
  st : HState := .unbound
  /-- registered as signaller (R235 MODE) -/
  signals : Bool := false
  /-- registered as waiter (R235 MODE) -/
  waits : Bool := false
  /-- ID word bits [23:0], G resolved (R235) -/
  id : BitVec 24 := 0
  /-- next phase to signal (R235) -/
  s : Word := 0
  /-- registrant ID (R236) -/
  rid : Word := 0
  deriving DecidableEq, Repr, Inhabited

/-- An engine class of a group (R184). -/
structure Class where
  /-- NEXT, the number of the open batch (R184) -/
  next : Byte := 0
  /-- closed batches outstanding, 0 to 128 (R184) -/
  count : Nat := 0
  /-- error flag (R184) -/
  err : Bool := false
  /-- error batch EB (R184) -/
  eb : Byte := 0
  /-- cause kept with EB (R184) -/
  cause : Byte := 0
  deriving DecidableEq, Repr, Inhabited

/-- What a waiting group waits for (R28, R185, R186, R198, R210, R223, R250, R251, R96). -/
inductive Wait where
  /-- WAITB (R185) -/
  | batch (c : EngineClass) (n : Byte)
  /-- WAITC (R186) -/
  | count (c : EngineClass) (n : Nat)
  /-- PHWAIT or PHSW: handle and phase (R250) -/
  | phase (h : Nat) (p : Word)
  /-- BAR: the phase of the default team phaser (R251) -/
  | bar (p : Word)
  /-- WAITA: physical address, bytes, expected value (R198); none while the value is being read at the home -/
  | mem (pa : Nat) (bytes : Nat) (expected : DWord) (line : Nat)
  /-- SLEEP: cycles that remain (R98) -/
  | sleep
  /-- the walks of the stalled issue group (R210) -/
  | walks
  /-- the batches of an ended group (R96) -/
  | drain
  deriving DecidableEq, Repr

/-- The scheduling state of a group (R29, R334). -/
inductive GStatus where
  /-- placed; its team's carve-out is being pinned (R26, R179) -/
  | starting
  | ready
  | parked
  | waiting (w : Wait)
  | ended
  deriving DecidableEq, Repr

/-- A lane of a tour slot (R310). -/
inductive TourPhase where
  | idle | inFlight | parked | ended
  deriving DecidableEq, Repr, Inhabited

/-- A lane of a tour slot (R310). -/
structure TourLane where
  /-- state (R310) -/
  st : TourPhase := .idle
  /-- step index (R310) -/
  step : Nat := 0
  /-- pointer (R310) -/
  ptr : DWord := 0
  /-- addend of TOUR.add (R310) -/
  addend : DWord := 0
  /-- a wake arrived before the PAGE return (R315) -/
  woken : Bool := false
  deriving DecidableEq, Repr, Inhabited

/-- A tour slot (R310). -/
structure TourSlot where
  /-- in use (R310) -/
  busy : Bool := false
  /-- MASK0 to MASK3 (R305) -/
  masks : List DWord := []
  /-- step words (R306) -/
  steps : List DWord := []
  /-- TOUR.add (R307) -/
  add : Bool := false
  /-- SZ = 1, 8 bytes (R307) -/
  wide : Bool := false
  /-- result register after ixb (R310) -/
  d : Nat := 0
  /-- status register after ixb (R310) -/
  stat : Nat := 0
  /-- the operation of the TO class (R310) -/
  op : Nat := 0
  /-- waits for the write-backs before it is sent (R310): the home-bound writes still to be performed -/
  waitFor : List Nat := []
  /-- and the group's copies to memory that were under way at its issue (R214, R310) -/
  waitCopies : List Nat := []
  /-- and its collectives (R214, R310) -/
  waitColls : List Nat := []
  /-- lanes have been sent (R310) -/
  sent : Bool := false
  /-- lanes (R310) -/
  lanes : Map TourLane := []
  deriving DecidableEq, Repr, Inhabited

/-- What a translation found (R160). -/
inductive Xlate where
  /-- a leaf: first VA of the page, log2 of its bytes, the entry, the entry's physical address -/
  | leaf (va bits : Nat) (pte : DWord) (at_ : Nat)
  /-- V = 0 at this entry (R160) -/
  | absent (at_ : Nat)
  /-- page-table-format (R160) -/
  | format
  /-- a poisoned entry (R347) -/
  | poison (at_ : Nat)
  /-- an entry outside the installed memory (R154) -/
  | physical
  deriving DecidableEq, Repr

/-- The tag of a result held for an issue group: its packet position, the word's position and the operand values (R163, R210). -/
structure Tag where
  /-- packet position of the issue group (R163) -/
  pos : Pos := {}
  /-- word position (R163) -/
  word : Nat := 0
  /-- operand values (R163) -/
  ops : List Nat := []
  deriving DecidableEq, Repr, Inhabited

/-- The result of a walk held for a stalled issue group (R210). -/
structure HeldWalk where
  /-- what it was started for (R210) -/
  tag : Tag
  /-- first VA of the 4 KiB piece walked (R210) -/
  va : Nat
  /-- the access writes (R160) -/
  write : Bool
  /-- what it found (R210) -/
  res : Xlate
  deriving DecidableEq, Repr

/-- The uniform holding register (R163). -/
structure Hold where
  /-- packet position of the issue group (R163) -/
  pos : Pos
  /-- word position (R163) -/
  word : Nat
  /-- operand values (R163) -/
  ops : List Nat
  /-- the result, none while the attempt is outside the slot (R163) -/
  res : Option DWord := none
  /-- XWOPEN: the window it opened (R163) -/
  win : Option Window := none
  /-- TOUR: the step list that was read (R309) -/
  list : List DWord := []
  /-- a byte of the read lay outside the parameter window (R182) -/
  outside : Bool := false
  /-- the home-bound writes or requests the attempt still waits for (R223, R224) -/
  waitFor : List Nat := []
  /-- operations it still waits for (R223 FENCE.acq) -/
  waitOps : List Nat := []
  /-- the attempt's second phase has begun (FENCE.ar, PROMOTE) (R223, R224) -/
  phase2 : Bool := false
  deriving DecidableEq, Repr

/-- The bypass latches (R31). -/
structure Latches where
  /-- y0: a lane's element, 0 where unlisted; none is empty (R31) -/
  y0 : Option (Cells Word) := none
  /-- y1 (R31) -/
  y1 : Option (Cells Word) := none
  /-- y2 (R31) -/
  y2 : Option DWord := none
  /-- y3 (R31) -/
  y3 : Option DWord := none
  deriving DecidableEq, Repr, Inhabited

/-- The trap save state of a group (R100, R334). -/
structure TrapSave where
  /-- TRAPLVL (R110) -/
  lvl : Bool := false
  /-- EPC (R110) -/
  epc : Pos := {}
  /-- ECAUSE (R110) -/
  ecause : Byte := 0
  /-- EINFO (R110, R342) -/
  einfo : DWord := 0
  /-- EMASK (R110) -/
  emask : Word := 0
  /-- saved counters, 0 where unlisted (R100) -/
  c : Cells Byte := []
  /-- saved call depth (R100) -/
  depth : Nat := 0
  deriving DecidableEq, Repr, Inhabited

/-- A group (R15, R83, R84, R110, R334). -/
structure Group where
  /-- team it belongs to (R21) -/
  team : Nat := 0
  /-- group number within the team (R110 GROUP) -/
  num : Nat := 0
  /-- role (R110 GROUP) -/
  role : Nat := 0
  /-- package core number (R2) -/
  core : Nat := 0
  /-- slot of the core, 0 to 3 (R3) -/
  slot : Nat := 0
  /-- position in the slot, 0 to 15 (R236) -/
  position : Nat := 0
  /-- allotment A (R22) -/
  regs : Nat := 16
  /-- accumulator tiles T (R22) -/
  ntiles : Nat := 0
  /-- priority of its role (R22, R29) -/
  prio : Nat := 0
  /-- scheduling state (R29, R334) -/
  status : GStatus := .ready
  /-- cycle at which it became ready (R29) -/
  readyAt : Nat := 0
  /-- consecutive run ends at which it was passed over while ready (R29) -/
  passed : Nat := 0
  /-- PC and word (R84, R28) -/
  pc : Pos := {}
  /-- packets begun in the run (R28) -/
  runPkts : Nat := 0
  /-- the issue group is held at issue by a resource outside the slot (R28) -/
  stalled : Bool := false
  /-- lane counters, 0 where unlisted (R83) -/
  c : Cells Byte := []
  /-- the slot's second copy of the counters (R350) -/
  dup : Cells Byte := []
  /-- call stack, outermost frame first (R91) -/
  calls : List Frame := []
  /-- trap state (R100) -/
  trap : TrapSave := {}
  /-- index base (R108) -/
  ixb : Nat := 0
  /-- lane registers, key 32 * register + lane, 0 where unlisted (R84, R104) -/
  v : Cells Word := []
  /-- lane registers whose word fails its check: keys of v (R347) -/
  vBad : List Nat := []
  /-- k0 to k63, 0 where unlisted (R104) -/
  k : Cells DWord := []
  /-- STATUS [7:0] (R111) -/
  status8 : Byte := 0
  /-- SEED (R110, R125) -/
  seed : DWord := 0
  /-- SG (R110, R348) -/
  sg : Word := 0
  /-- CYCLES counted up to the cycle since (R110) -/
  cycles : Nat := 0
  /-- cycle from which CYCLES and a SLEEP count on: the group's start or its last restore (R98, R110) -/
  since : Nat := 0
  /-- SLEEP cycles still to elapse after the cycle since (R98) -/
  sleepLeft : Nat := 0
  /-- bypass latches (R31) -/
  y : Latches := {}
  /-- windows xw0 to xw7, closed where unlisted (R162) -/
  xw : Map Window := []
  /-- handles h0 to h15, unbound where unlisted (R235) -/
  h : Map Handle := []
  /-- classes by CLS, at their start where unlisted (R184) -/
  cls : Map Class := []
  /-- unfinished mask U; none means every lane (R169, R189) -/
  u : Option Word := none
  /-- lanes an EMIT has still to send; none means every lane (R253) -/
  uEmit : Option Word := none
  /-- uniform holding register: at most one entry for each word of the issue group (R163, R223, R224, assumption 11) -/
  hold : List Hold := []
  /-- a monitored line was written before the group parked (R211) -/
  woken : Bool := false
  /-- results of finished walks, and the walks still running (R210) -/
  heldWalks : List HeldWalk := []
  walksOut : List Nat := []
  /-- tour slots 0 to 3 (R310) -/
  tours : Map TourSlot := []
  /-- home-bound writes that later writes must follow (R223 FENCE.rel) -/
  fenceAfter : List Nat := []
  /-- what a group waits for besides, where WAITA stands beside a second wait in one issue group: it goes on once both are met (R96,
  R98, R198, assumption 97) -/
  also : Option Wait := none
  /-- position of the wait the group is in, and its word (R187) -/
  waitPos : Pos := {}
  waitWord : Nat := 0
  /-- SG before the issue group of that wait was hashed (R187, R348) -/
  waitSg : Word := 0
  /-- WAITA record: window, offset, expected (R208, R334) -/
  waita : Option (Nat × Nat × DWord) := none
  /-- accumulator tiles: key 128 * tile + 16 * row + col, +0.0 where unlisted (R260) -/
  tiles : Cells Word := []
  /-- tile words that fail their check (R347) -/
  tilesBad : List Nat := []
  deriving DecidableEq, Repr, Inhabited


/-! ## A team, a gang, a grid (R20 to R24, R178, R234, R327) -/

/-- The state a tree node keeps of a phaser (R237). C is O - 1. -/
structure PhNode where
  /-- O, the open phase (R237) -/
  o : Word := 1
  /-- Rn (R237) -/
  rn : Nat := 0
  /-- Rx (R237) -/
  rx : Nat := 0
  /-- A (R237) -/
  a : Nat := 0
  /-- E, early signals of a leaf (R237) -/
  e : Nat := 0
  /-- F (R237) -/
  f : Word := 0xFFFFFFFF
  /-- X (R237) -/
  x : Bool := false
  /-- an ARRIVE has been sent for O (R238) -/
  sent : Bool := false
  /-- early SIGNALs of ANY mode, oldest first (R241) -/
  early : List Word := []
  /-- leaf: registrants that are leaving, with their weight and next unsignalled phase (R240) -/
  leaving : List (Word × Nat × Word) := []
  /-- leaf: signals held because s is two or more phases ahead: registrant and phase (R241) -/
  held : List (Word × Word) := []
  /-- leaf after restores on other dies: the old dies' nodes, oldest first, to each of which ARRIVE goes for phases before the second
  part, which MOVED tells (R254) -/
  via : List (Nat × Option Word) := []
  deriving DecidableEq, Repr, Inhabited

/-- A team (R15, R21). A node group's team has a node number and no index (R42). -/
structure Team where
  /-- grid (R20) -/
  grid : Nat := 0
  /-- linear index i (R20) -/
  index : Nat := 0
  /-- gather node of a node group (R42) -/
  node : Option Nat := none
  /-- package core number (R26) -/
  core : Nat := 0
  /-- pinned ways, ascending (R179) -/
  ways : List Nat := []
  /-- carve-out bytes (R178) -/
  scratch : Nat := 0
  /-- carve-out contents, 0 where unlisted (R178, R179) -/
  carve : Cells Byte := []
  /-- carve-out words that are poisoned, by offset / 4 (R347) -/
  carveBad : List Nat := []
  /-- groups (R21) -/
  groups : List Nat := []
  /-- started; false while the carve-out is being pinned (R179) -/
  started : Bool := true
  /-- sets whose chosen lines have been written back, invalidated and zeroed, of 512 (R179) -/
  swept : Nat := 512
  /-- every group has ended (R96) -/
  finished : Bool := false
  /-- a node group that runs on its grid's reservation (R43) -/
  onReserve : Bool := false
  /-- default team phaser (R234) -/
  bar : PhNode := {}
  deriving DecidableEq, Repr, Inhabited

/-- A role of a launch header (R22, R327). -/
structure Role where
  /-- entry packet (R22) -/
  entry : Nat := 0
  /-- lane registers (R22) -/
  regs : Nat := 0
  /-- tiles (R22) -/
  tiles : Nat := 0
  /-- groups (R22) -/
  groups : Nat := 0
  /-- priority (R22) -/
  prio : Nat := 0
  deriving DecidableEq, Repr, Inhabited

/-- A parameter window (R182). -/
structure PWin where
  /-- bytes; 0 is unbound (R327) -/
  size : Nat := 0
  /-- physical address of the base (R182) -/
  frame : Nat := 0
  deriving DecidableEq, Repr, Inhabited

/-- A node-table entry (R39, R327). -/
structure NodeDecl where
  /-- entry packet (R39) -/
  entry : Nat := 0
  /-- record bytes (R39) -/
  bytes : Nat := 0
  /-- lane registers (R39) -/
  regs : Nat := 0
  /-- tiles (R39) -/
  tiles : Nat := 0
  /-- scratchpad ways (R39) -/
  ways : Nat := 0
  /-- placement: 0 any, 1 fixed, 2 hash (R327) -/
  place : Nat := 0
  /-- placement argument (R327) -/
  arg : Nat := 0
  /-- timer in microseconds (R39) -/
  timer : Nat := 1
  deriving DecidableEq, Repr, Inhabited

/-- The launch record of a gang (R353). -/
structure LaunchRec where
  /-- attempts so far, 1 at first (R353) -/
  attempt : Nat := 1
  /-- code, check, core and whether memory-side, of the last failure (R353, R354) -/
  last : Option (Byte × Nat × Nat × Bool) := none
  /-- the records of its kills, for those of class 3 when the gang completes (R354) -/
  kills : List (BitVec 512) := []
  /-- the last kill was lasting and removed its core (R354, R357) -/
  took : Bool := false
  /-- killed and draining, to be relaunched (R351) -/
  draining : Bool := false
  deriving DecidableEq, Repr, Inhabited

/-- How a grid ends (R325). -/
inductive GridEnd where
  | running
  | aborting (code : Byte)
  /-- the launch failed with a header error at an offset; only its status is still to be written (R325, R327) -/
  | refused (off : Nat)
  deriving DecidableEq, Repr, Inhabited

/-- A grid (R20, R327). -/
structure Grid where
  /-- partition (R329) -/
  part : Nat := 0
  /-- context (R322) -/
  ctx : Nat := 0
  /-- handle [15:0] (R321 DISP) -/
  handle : Nat := 0
  /-- code base VA and packets (R327) -/
  codeBase : Nat := 0
  codeSize : Nat := 1
  /-- gang size: 1, 2 or 4 (R24) -/
  gang : Nat := 1
  /-- relaunchable (R352) -/
  relaunch : Bool := false
  /-- dimensions (R20) -/
  x : Nat := 1
  y : Nat := 1
  z : Nat := 1
  /-- carve-out bytes of a team (R327) -/
  scratch : Nat := 0
  /-- launch seed (R110) -/
  seed : DWord := 0
  /-- trap entry packet (R327) -/
  trap : Option Nat := none
  /-- roles (R22) -/
  roles : List Role := []
  /-- parameter windows (R182) -/
  pw : Map PWin := []
  /-- launch-time phasers: number to object (R233) -/
  phs : Map Nat := []
  /-- nodes declared (R39) -/
  nodes : Map NodeDecl := []
  /-- team cursor (R34) -/
  cursor : Nat := 0
  /-- unstarted claimed teams by die, ascending (R34) -/
  chunks : Map (List Nat) := []
  /-- team indices that have finished (R37) -/
  doneTeams : List Nat := []
  /-- launches of each node on each die: key 24 * node + die (R110 SEED) -/
  nodeLaunches : Cells Nat := []
  /-- the node reservation of each die: core and slot (R43) -/
  reserve : Map (Nat × Nat) := []
  /-- launch records by gang number (R353) -/
  recs : Map LaunchRec := []
  /-- LAUNCH: partition's queue, ring index, status VA (R325) -/
  launch : Option (Nat × Nat × Nat) := none
  /-- how it ends (R325) -/
  ending : GridEnd := .running
  /-- complete or aborted: status not yet written (R176, R325) -/
  isOver : Bool := false
  /-- cores that held a team or node group of it (R176) -/
  cores : List Nat := []
  /-- the write-backs of R176 still to be performed -/
  wbacks : List Nat := []
  /-- records held by a full log that its status waits for (R344) -/
  logHeld : Bool := false
  /-- order of acceptance (R37) -/
  order : Nat := 0
  deriving DecidableEq, Repr, Inhabited

/-! ## Engines, caches and requests -/

/-- A piece of a matrix command, each made at a moment of its own (R266, R268). -/
inductive MxPiece where
  /-- 4-byte word w of the carve-out is read -/
  | word (w : Nat)
  /-- tile element k, keyed 128 × tile + 16 × row + column, is read -/
  | take (k : Nat)
  /-- element k takes the command's effect; AMOV writes it to its register -/
  | elem (k : Nat)
  /-- word w of the carve-out is written -/
  | put (w : Nat)
  deriving DecidableEq, Repr

/-- A command of a matrix unit with the operands it captured at issue (R262, R264). -/
structure MxCmd where
  /-- group (R262) -/
  gid : Nat
  /-- pieces still to be made; none before the command has begun (R265, R266, R268) -/
  left : Option (List MxPiece) := none
  /-- carve-out bytes read, by offset (R268) -/
  got : Cells Byte := []
  /-- tile elements read ahead of what is made of them: the source of AADD, what ASTS stores (R266) -/
  seen : Cells Word := []
  /-- stream (R265) -/
  strm : Nat
  /-- the instruction (R262) -/
  ins : Instr
  /-- captured A rows: key 32 * register + lane (R270, R274) -/
  a : Cells Word := []
  /-- captured second operand by lane: B offsets, scales and zero points, row factors (R270, R275, R283) -/
  b : Cells Word := []
  /-- captured mask pair or factor (R277, R283) or carve-out base (R280) -/
  k : List DWord := []
  /-- active mask at issue (R85) -/
  mask : Word := 0
  /-- SEED before an ASTS with stochastic rounding (R280) -/
  seed : DWord := 0
  /-- destination register after ixb (R281) -/
  d : Nat := 0
  /-- operation (R262) -/
  op : Nat := 0
  deriving DecidableEq, Repr

/-- A command of a tempo queue with the operands it captured at issue (R289, R291). -/
structure TmCmd where
  /-- group (R289) -/
  gid : Nat
  /-- carve-out words still to be read, or lanes still to be written; none before the command has begun (R293, R294) -/
  left : Option (List Nat) := none
  /-- carve-out bytes read, by offset (R294) -/
  got : Cells Byte := []
  /-- the instruction (R289) -/
  ins : Instr
  /-- captured lane values (R291) -/
  a : Cells Word := []
  /-- captured k value (R291) -/
  k : DWord := 0
  /-- active mask at issue (R297) -/
  mask : Word := 0
  /-- destination register after ixb (R299) -/
  d : Nat := 0
  /-- operation (R289) -/
  op : Nat := 0
  deriving DecidableEq, Repr

/-- A tempo array (R287). -/
structure Tempo where
  /-- cells: key 128 * i + j, value bit 4 E and [3:0] d, 0 where unlisted (R287) -/
  cells : Cells (BitVec 5) := []
  /-- column modes (R287) -/
  mode : BitVec 128 := 0
  /-- tick window (R287) -/
  tw : Byte := 32
  /-- staging: staged rows (R287) -/
  stage : Map Byte := []
  /-- outputs, 255 where unlisted (R287) -/
  out : Cells Byte := []
  /-- 32-bit words that fail their check, numbered from the start of the region that the save area gives the array (R333, R347,
  assumptions 60 and 103) -/
  bad : List Nat := []
  deriving DecidableEq, Repr, Inhabited

/-- A word of an L1 line (R172). -/
structure L1Word where
  /-- value (R172) -/
  val : Word
  /-- dirty bit (R172) -/
  dirty : Bool := false
  /-- groups whose stores the dirty word holds (R214) -/
  by_ : List Nat := []
  /-- poisoned (R347) -/
  bad : Bool := false
  /-- the way of its set that holds it, where that is not its line's: the line's way is being pinned, and a later miss filled another
  (R179) -/
  aside : Option Nat := none
  deriving DecidableEq, Repr, Inhabited

/-- An L1 line: its valid words (R172). -/
structure L1Line where
  /-- valid words by word index 0 to 31 (R172) -/
  words : Map L1Word := []
  /-- S of its page (R175) -/
  stable : Bool := false
  /-- when it was last used (R172) -/
  used : Nat := 0
  /-- the way of its set that holds it (R6, R179) -/
  way : Nat := 0
  deriving DecidableEq, Repr, Inhabited

/-- A TLB entry (R164, R161). -/
structure TlbEntry where
  /-- context (R158) -/
  ctx : Nat
  /-- first VA of the page (R160) -/
  va : Nat
  /-- log2 of the page bytes (R158) -/
  bits : Nat
  /-- the leaf (R159) -/
  pte : DWord
  /-- its physical address (R158) -/
  at_ : Nat
  /-- A and D as the walker has set them (R160) -/
  dSet : Bool := false
  /-- of an H = 1 leaf, the host address that was translated (R160, R370) -/
  host : Nat := 0
  deriving DecidableEq, Repr

/-- A line of a constant cache (R182). -/
structure CcLine where
  /-- line number PA / 128 -/
  line : Nat
  /-- its 128 bytes -/
  bytes : List Byte
  /-- words 0 to 31 that are poisoned (R347) -/
  bad : List Nat := []
  deriving DecidableEq, Repr, Inhabited

/-- A line of a die's L2 (R7, R174). -/
structure L2Line where
  /-- line number PA / 128 -/
  line : Nat
  /-- it differs from the memory behind it, to which it is written back (R174) -/
  dirty : Bool := false
  deriving DecidableEq, Repr, Inhabited

/-- A slot of a core (R3, R28). -/
structure Slot where
  /-- the group that holds it (R27) -/
  holder : Option Nat := none
  /-- operand collector: held register and its snapshot (R274) -/
  coll : Option (Nat × Cells Word) := none
  /-- matrix queue, oldest first (R265) -/
  mx : List MxCmd := []
  deriving DecidableEq, Repr, Inhabited

/-- A core (R2, R6). -/
structure Core where
  /-- slots, empty where unlisted (R3) -/
  slots : Map Slot := []
  /-- L1 lines by line number PA / 128 (R172) -/
  l1 : Map L1Line := []
  /-- core TLB, newest first (R164) -/
  tlb : List TlbEntry := []
  /-- tempo array (R287) -/
  tempo : Tempo := {}
  /-- tempo queue, oldest first (R292) -/
  tq : List TmCmd := []
  /-- constant cache, most recently used line first (R6, R182) -/
  cc : List CcLine := []
  /-- a pre-emption request: the context to save (R30) -/
  preempt : Option (Nat × Nat) := none
  deriving DecidableEq, Repr, Inhabited

/-- A party that a monitor or a walk answers (R170, R198, R206, R315, R321, R324, R375). -/
inductive Party where
  | group (gid : Nat)
  | lane (gid slot lane : Nat)
  | waita (gid : Nat)
  | copy (id : Nat)
  | fetch (gid : Nat)
  | window (gid : Nat)
  | queue (part q : Nat)
  | coll (id : Nat)
  | fe (id : Nat)
  deriving DecidableEq, Repr

/-- A monitor entry of a die (R170, R345). -/
structure Monitor where
  /-- line number PA / 128 (R170) -/
  line : Nat
  /-- who waits on it (R170) -/
  who : List Party := []
  /-- context and entry of the walks that armed it or recorded on it (R345) -/
  recs : List (Nat × Nat) := []
  deriving DecidableEq, Repr

/-- A translation walk in progress (R160, R210). -/
structure Walk where
  /-- partition and context (R158) -/
  part : Nat
  ctx : Nat
  /-- virtual address (R158) -/
  va : Nat
  /-- as a write (R160) -/
  write : Bool
  /-- who asked (R210) -/
  who : Party
  /-- die of the walker (R170) -/
  die : Nat
  /-- it runs later: a retry of R170 or R315, or a walk that an invalidation holds (R337) -/
  retry : Bool := false
  /-- a full monitor table has had its notice: this retry writes none (R345) -/
  noted : Bool := false
  /-- cycle time in ns from which a retry may run (R170) -/
  notBefore : Nat := 0
  /-- the word and operands it was started for (R210) -/
  tag : Tag := {}
  /-- a retry in place of a wake that found no path: the party goes on as that would have made it; va is the address of the line that was
  written (R211, assumption 83) -/
  lost : Bool := false
  deriving DecidableEq, Repr

/-- A party's request to the host for a translation or a page (R160, R370). -/
structure HostReq where
  /-- partition, context and PASID (R322) -/
  part : Nat
  ctx : Nat
  pasid : Nat
  /-- virtual address in the tenant's space and the untranslated host address of the leaf (R159) -/
  va : Nat
  host : Nat
  /-- as a write (R160) -/
  write : Bool
  /-- who asked (R160) -/
  who : Party
  /-- a PRI page request (R160); otherwise an ATS translation request -/
  pri : Bool
  /-- the core of its party has been saved since: what the host says is discarded (R346) -/
  stale : Bool := false
  /-- the word and operands its walk was started for (R210) -/
  tag : Tag := {}
  deriving DecidableEq, Repr

/-- An operation of an engine class (R184, R187). -/
structure Op where
  /-- group (R184) -/
  gid : Nat
  /-- class (R183) -/
  cls : EngineClass
  /-- closed batch that holds it; none is the open batch (R184) -/
  batch : Option Byte := none
  /-- parts not yet complete (R187) -/
  parts : Nat := 0
  /-- STATUS flags that reach STATUS when the batch completes (R112) -/
  flags : Byte := 0
  /-- tag handle (R207) -/
  tag : Option Nat := none
  /-- registers are written no more: the group ended or was killed (R96, R351) -/
  discard : Bool := false
  /-- an ST, STS or ATOMS, for which BAR waits (R251) -/
  holdsBar : Bool := false
  /-- its answers are no line requests: a core array's, the constant cache's, a range operation's (R177) -/
  uncounted : Bool := false
  /-- destination words, by lane and register (R187) -/
  dests : List (Nat × Nat) := []
  /-- a part has completed in error (R187) -/
  failed : Bool := false
  deriving DecidableEq, Repr

/-- A copy in the engine (R205, R206). -/
structure Copy where
  /-- group and core (R205) -/
  gid : Nat
  core : Nat
  /-- the command (R201) -/
  ins : Instr
  /-- operand values: per-lane offsets of CPYG, g and sp (R201) -/
  g : Cells Word := []
  /-- the values of OPA and OPB, as a save records them (R201, R333); OPA of CPYG is g -/
  opA : Nat := 0
  opB : Nat := 0
  spOff : Nat := 0
  rows : Nat := 0
  /-- active lanes of CPYG (R203) -/
  mask : Word := 0
  /-- window base as it stood at issue (R163) -/
  base : Nat := 0
  /-- team whose carve-out it uses (R202) -/
  team : Nat := 0
  /-- bytes still to move: pairs of memory VA and carve-out offset, one unit each with its length (R202) -/
  units : List (Nat × Nat × Nat) := []
  /-- every unit of the command, for a re-execution (R208) -/
  all : List (Nat × Nat × Nat) := []
  /-- units sent and not yet answered (R177) -/
  out : Nat := 0
  /-- waits for a piece that is not present (R206) -/
  waiting : Bool := false
  /-- stopped by an error (R206) -/
  failed : Bool := false
  /-- stream bytes read so far for CPYX: key byte index (R204) -/
  stream : Cells Byte := []
  /-- the first byte of the stream that is poisoned (R347) -/
  spoiled : Option Nat := none
  /-- earlier messages of the group that must be performed before it begins (R207, R220, R223) -/
  after : List Nat := []
  /-- operation (R205) -/
  op : Nat := 0
  deriving DecidableEq, Repr

/-- Where a message is performed (R157, R197, R365, R367). -/
inductive Home where
  | slice (die s : Nat)
  | core (c : Nat)
  | die (d : Nat)
  | port (p : Nat)
  /-- the host, through host port p -/
  | host (p : Nat)
  deriving DecidableEq, Repr

/-- Where the words of a read go when they return (R172, R187, R190, R206, R222, R347). -/
inductive ReadFor where
  /-- a lane load: operation, the line's lanes with register, byte address and size, words captured from the L1, and the words of
  the line that its fill may set -/
  | load (op : Nat) (sz : LdSize) (lanes : List (Nat × Nat × Nat)) (got : Cells Byte) (fill : List Nat) (stable : Bool)
  /-- KLDG: group, holding position, bytes, the words that its fill may set (R190) -/
  | kldg (gid word : Nat) (pa bytes : Nat) (got : Cells Byte) (fill : List Nat) (stable : Bool)
  /-- LDA (R222) -/
  | lda (op : Nat) (acq : Scope) (lane reg pa bytes : Nat)
  /-- PREF.l1, with the words that its fill may set (R200) -/
  | pref (fill : List Nat) (stable : Bool)
  /-- PREF.l2 (R200) -/
  | prefL2
  /-- WAITA set-up (R198) -/
  | waita (gid : Nat)
  /-- a copy unit: copy, physical address, carve-out offset, bytes (R206) -/
  | copy (c pa off n : Nat)
  /-- a unit of a collective's source that lies beyond a port: its attempt, physical address, offset, bytes (R367, R375, R377) -/
  | coll (id try_ pa off n : Nat)
  deriving DecidableEq, Repr

/-- One lane of an atomic transaction (R193 to R196). -/
structure ALane where
  /-- lane (R193) -/
  lane : Nat
  /-- physical byte address, or scratchpad offset (R193) -/
  pa : Nat
  /-- operand (R192) -/
  v : DWord
  /-- expected value of CAS (R194) -/
  exp : DWord := 0
  /-- destination register, none when nothing returns (R193) -/
  reg : Option Nat := none
  deriving DecidableEq, Repr

/-- What an atomic transaction does (R192 to R196). -/
inductive AKind where
  | op (o : AtomOp)
  | cas (wide : Bool)
  | aggr (flagged : List (Nat × Nat))
  | putf
  deriving DecidableEq, Repr

/-- What the packages of a communicator tell one another through the pool nodes (R371, R374, R375, R378; assumption 92). -/
inductive PoolMsg where
  /-- a member has issued its COLL of a step: its form, count and generation -/
  | issued (member step : Nat) (ins : Instr) (n : Nat) (gen : Word)
  /-- a member's source bytes as an attempt read them, and the offsets of those in poisoned words -/
  | source (member step : Nat) (bytes : List Byte) (bad : List Nat)
  /-- what a step's results are formed of, once for every package: the sources of all members, and the number of the free orders of
  ARRIVAL (R386) -/
  | formed (step order : Nat) (srcs : List (List Byte × List Nat))
  /-- a package's part of a step has failed for good: its members complete RETRY (R377) -/
  | failed (step : Nat)
  /-- ABORT has completed these steps -/
  | abort (steps : List Nat)
  deriving DecidableEq, Repr

/-- What a message carries (R361, R387). -/
inductive Body where
  /-- a read of words of a line (R172) -/
  | read (line : Nat) (words : List Nat) (f : ReadFor)
  /-- returned data by byte address, the poisoned word addresses, and whether it is an error completion (R187, R347) -/
  | data (f : ReadFor) (bytes : Cells Byte) (bad : List Nat) (err : Bool)
  /-- returned old values: operation, (lane, register, value) and error (R193) -/
  | atomData (op : Nat) (acq : Option Scope) (rets : List (Nat × Nat × Word)) (err : Bool)
  /-- a write of bytes; the operation it acknowledges (R172, R187) -/
  | write (bytes : Cells Byte) (bad : List Nat) (ack : Option Nat)
  /-- an atomic transaction on one line (R193) -/
  | atomic (op : Nat) (k : AKind) (acq : Option Scope) (lanes : List ALane)
  /-- a transaction at a core array: team, gang access (R181) -/
  | atoms (op team : Nat) (k : AKind) (lanes : List ALane)
  /-- a scratchpad load or store at a member's array (R181): operation, team, size, lane, register, offset -/
  | sread (op team : Nat) (sz : LdSize) (lanes : List (Nat × Nat × Nat))
  /-- a scratchpad store at the array (R181): operation, team, bytes by offset -/
  | swrite (op team : Nat) (bytes : Cells Byte)
  /-- a release marker for release r (R217) -/
  | marker (r : Nat)
  /-- the report of a counted write to release r (R217, R387) -/
  | report (r write : Nat)
  /-- an acknowledgement of operation op (R187, R387) -/
  | ack (op : Nat) (err : Bool)
  /-- a tour step at its home: group, slot, lane, address (R311) -/
  | tour (gid slot lane step pa : Nat) (ptr : DWord)
  /-- the return packet of a tour: kind, step, value, cause, and the address of the step (R312) -/
  | tourRet (gid slot lane kind step : Nat) (x : DWord) (cause : Byte) (addr : Nat)
  /-- a PAGE return: step and pointer (R315) -/
  | page (gid slot lane step : Nat) (ptr : DWord)
  /-- engine data of a copy to memory: copy, bytes (R206) -/
  | engine (c : Nat) (bytes : Cells Byte) (bad : List Nat)
  /-- engine data has been performed (R206) -/
  | engineAck (c : Nat) (err : Bool) (pa n : Nat)
  /-- a monitor wake, and the line that was written; 0 for a WAITA's own (R170, R198) -/
  | wake (who : Party) (line : Nat)
  /-- invalidation at a core: request of partition part (R337) -/
  | inval (part core : Nat)
  /-- collective control: member die tells it has issued step k of a communicator (R374) -/
  | collCtl (ctx cid die k : Nat)
  /-- collective data for a destination beyond a port: attempt, offset in the destination, bytes, poisoned words; and its
  acknowledgement: address, offset and how many bytes (R367, R375, R377) -/
  | collData (id try_ off : Nat) (bytes : Cells Byte) (bad : List Nat)
  | collAck (id try_ pa off n : Nat) (err : Bool)
  /-- what a communicator's packages tell one another, for a pool address (R367, R371, assumption 92) -/
  | pool (key : Nat) (m : PoolMsg) (addr : Nat)
  /-- a PROMOTE request to core victim, and its acknowledgement with the number of the request (R224) -/
  | promote (gid victim : Nat)
  | promoteAck (gid req : Nat)
  /-- a gather record: grid, node, words (R41) -/
  | record (grid node : Nat) (recs : List (List Word))
  deriving DecidableEq, Repr

/-- A message in flight (R157, R361, R366). -/
structure Msg where
  /-- number; also its TAG (R361) -/
  id : Nat
  /-- source die and core (R361 SRC); die engines use core 31 -/
  srcDie : Nat
  srcCore : Nat
  /-- where it is performed (R157) -/
  home : Home
  /-- group whose home-bound write it is (R214) -/
  gid : Option Nat := none
  /-- further groups whose stores a write-back carries (R214) -/
  also : List Nat := []
  /-- dies it has still to enter (R366) -/
  hops : List Nat := []
  /-- the die it is in (R366) -/
  at_ : Nat := 0
  /-- handed to a link and not yet received (R363) -/
  onLink : Bool := false
  /-- its place in the order in which it was sent or was received by the die it is in (R366) -/
  came : Nat := 0
  /-- it was held for a boundary that died, and goes on by the replacement route (R366) -/
  turned : Bool := false
  /-- writes that must be performed before it (R223) -/
  after : List Nat := []
  /-- the releases whose count holds it (R217) -/
  counted : List Nat := []
  /-- performed and only its report or completion is outstanding; time from which a timeout may come (R367) -/
  sentAt : Nat := 0
  /-- a read sent while its line's way was being pinned: what it brings fills another way (R179) -/
  aside : Bool := false
  /-- TAG and ADDR of the request, in its response (R361) -/
  tag : Option Nat := none
  addr : Nat := 0
  /-- what it carries (R361) -/
  body : Body
  deriving DecidableEq, Repr

/-- A release whose update waits at its home for the counted writes (R217). -/
structure Release where
  /-- group (R217) -/
  gid : Nat
  /-- counted writes not yet reported (R217) -/
  pending : List Nat := []
  /-- the marker has arrived at the home (R217) -/
  arrived : Bool := false
  /-- the update held at the home (R217) -/
  body : Body
  /-- where, and from where (R217) -/
  home : Home
  srcDie : Nat := 0
  srcCore : Nat := 0
  counted : List Nat := []
  deriving DecidableEq, Repr

/-- A signal or record held at a core's port (R249, R253). -/
structure PortHold where
  /-- group (R249) -/
  gid : Nat
  /-- home-bound writes and ST batches it waits for (R249) -/
  waitFor : List Nat := []
  waitOps : List Nat := []
  /-- the signal: node key of the object, phase, registrant (R249) -/
  signal : Option (Nat × Word × Word) := none
  /-- the records of an EMIT: die, grid, node, records in lane order (R253) -/
  records : List (Nat × Nat × Nat × List (List Word)) := []
  deriving DecidableEq, Repr

/-! ## Phasers (R231 to R242) -/

/-- A phaser object (R231), found by bits [19:0] of its ID word (R232). Node keys: a core's leaf is its package core number,
die d's node is 576 + d, the package root 600, the pod switch 601, and the leaf of die d's front end, on which queues register, 602 + d. -/
structure Phaser where
  /-- scope: 0 core, 1 die, 2 package, 3 pod (R232) -/
  scope : Nat := 0
  /-- ANY mode (R232) -/
  any : Bool := false
  /-- grid and context it belongs to (R233, R244) -/
  grid : Option Nat := none
  part : Nat := 0
  ctx : Nat := 0
  /-- core-scope team or die-scope die it admits; none before the first join of a launch-time phaser (R233) -/
  bound : Option Nat := none
  /-- this package holds the object or, of an object of another package, a proxy; otherwise only the pod switch does (R248) -/
  here : Bool := true
  /-- PHFREE has marked it (R247) -/
  marked : Bool := false
  /-- its last registrant is gone and the pod switch has been asked to free its object (R247, R255) -/
  freeing : Bool := false
  /-- registrants below it, joins under way included (R247) -/
  members : Nat := 0
  /-- nodes (R237) -/
  nodes : Map PhNode := []
  /-- nodes whose table word is poisoned (R347) -/
  bad : List Nat := []
  deriving DecidableEq, Repr, Inhabited

/-- The messages of the synchronisation network (R237). -/
inductive PKind where
  | arrive (p : Word) (k : Nat)
  | signal (p rid : Word)
  | join (w : Nat) (rid : Word)
  | leave (w : Nat) (rid : Word)
  | move (w old : Nat) (rid : Word)
  | joined (f rid : Word) (w : Nat)
  | left (g rid : Word) (w : Nat)
  | moved (g rid : Word) (w : Nat) (minus : Bool)
  | done (p f : Word)
  | newObj (w : Nat)
  | freeObj
  deriving DecidableEq, Repr

/-- A message between a node and its parent (R237). -/
structure PMsg where
  /-- object (R237) -/
  obj : Nat
  /-- sending and receiving node keys (R237) -/
  src : Nat
  dst : Nat
  /-- nodes below dst on the requester's path (R239) -/
  path : List Nat := []
  /-- what it carries (R237) -/
  k : PKind
  /-- sent in a frame of an uplink and not yet accepted (R255, R368) -/
  onLink : Bool := false
  deriving DecidableEq, Repr

/-! ## Links (R360 to R368) -/

/-- The sender's state (R363). -/
inductive SendSt where
  | normal | replay | retraining | disabled
  deriving DecidableEq, Repr, Inhabited

/-- One direction of a module, a fabric port or an uplink (R363, R365, R368). -/
structure Link where
  /-- next sequence number to send (R362) -/
  seq : BitVec 12 := 0
  /-- unacknowledged flits or frames, oldest first, with their sequence (R363) -/
  replay : List (BitVec 12 × BitVec 512) := []
  /-- flits to resend before any new one (R363) -/
  resend : List (BitVec 12) := []
  /-- replays since ACKSEQ last advanced (R363) -/
  tries : Nat := 0
  /-- time of the last acknowledgement or first unacknowledged sending (R363) -/
  since : Nat := 0
  /-- a retrain found failing lanes in both halves (R365) -/
  failed : Bool := false
  /-- sender state (R363) -/
  st : SendSt := .normal
  /-- bytes queued for sending (R361) -/
  txq : List Byte := []
  /-- receiver: expected sequence (R362) -/
  expect : BitVec 12 := 0
  /-- receiver in DISCARD (R363) -/
  discard : Bool := false
  /-- bytes of a message received so far (R361) -/
  rx : List Byte := []
  /-- payloads of disabled modules that this one sends ahead of any later message, each with the direction it began on (R365) -/
  moved : List (Nat × List Byte) := []
  /-- sequence numbers of flits that carry such a payload, as the two sides have told each other (R365) -/
  strange : List (BitVec 12 × Nat) := []
  /-- running at half width (R365) -/
  half : Bool := false
  /-- discarded flits or frames, and reserved messages (R361, R255) -/
  errors : Nat := 0
  /-- ACK or NAK flits to be sent (R363) -/
  replies : List (BitVec 512) := []
  deriving DecidableEq, Repr, Inhabited

/-! ## Collectives (R371 to R379) -/

/-- A communicator of a context as this package sees it (R371). -/
structure Comm where
  /-- die mask (R371) -/
  dies : BitVec 24 := 0
  /-- RETRY, NPKG, RANK (R371) -/
  retry : Nat := 0
  npkg : Nat := 1
  rank : Nat := 0
  /-- VA of the list of pool addresses (R371) -/
  pool : Nat := 0
  /-- COLLs each member die has issued: key die (R374) -/
  issued : Cells Nat := []
  /-- steps that ABORT has completed (R378) -/
  aborted : List Nat := []
  /-- collective control received: engine's die, member die, step (R374) -/
  told : List (Nat × Nat × Nat) := []
  /-- what other packages have told, and what has reached the pool nodes of this one's, each with its pool address, oldest first -/
  poolIn : List PoolMsg := []
  poolOut : List (PoolMsg × Nat) := []
  deriving DecidableEq, Repr, Inhabited

/-- A COLL at its die engine (R374). -/
structure Coll where
  /-- partition, context, communicator, die, step (R374) -/
  part : Nat
  ctx : Nat
  cid : Nat
  die : Nat
  step : Nat
  /-- issuing group, core and lanes (R373, R375) -/
  gid : Nat
  core : Nat
  mask : Word
  /-- the command (R372) -/
  ins : Instr
  /-- source and destination VA, count, generation (R372) -/
  src : Nat
  dst : Nat
  n : Nat
  gen : Word
  /-- status register after ixb, none to discard (R373) -/
  reg : Option Nat
  /-- writes that must be performed before its source is read (R206, R220, R375) -/
  after : List Nat := []
  /-- attempts begun (R377) -/
  tries : Nat := 0
  /-- a transfer is under way, from this time (R377) -/
  since : Option Nat := none
  /-- waits under a monitor (R375) -/
  waiting : Bool := false
  /-- source bytes that this attempt has read, by offset, and the offsets of those in poisoned words (R377) -/
  got : Map Byte := []
  gotBad : List Nat := []
  /-- the reads beyond a port have been sent in this attempt, and the writes (R367, R377) -/
  asked : Bool := false
  wrote : Bool := false
  /-- the other packages have been told in this attempt; a transfer of it has completed in error (R377) -/
  told : Bool := false
  erred : Bool := false
  /-- the result, once every source is read: destination bytes still to be written, by offset, and the offsets of those written
  poisoned (R375) -/
  stage : Option (Map Byte × List Nat) := none
  /-- status to deliver (R377) -/
  status : Option Word := none
  /-- operation (R373) -/
  op : Nat
  deriving DecidableEq, Repr

/-- An AtomicOp of PCIe (R369). -/
inductive HostAtomic where
  | fetchAdd | swap | cas
  deriving DecidableEq, Repr

/-- A host port, a PCIe endpoint (R8, R369). -/
structure HostPort where
  /-- answers to the host's own reads and AtomicOps: the tag of the request and the old value, oldest first (R369) -/
  answers : List (Nat × Nat) := []
  deriving DecidableEq, Repr, Inhabited

/-! ## Front ends, queues, contexts, partitions -/

/-- A mapped queue of a front end (R320, R323, R324). -/
structure MQueue where
  /-- partition and queue number (R323) -/
  part : Nat
  q : Nat
  /-- prefetched packets: index and 64 bytes as a number (R324) -/
  pre : List (Nat × BitVec 512) := []
  /-- header of the packet whose first step has been performed and whose second has not; a packet with another header that software has
  put in its place is another packet (R324, R326) -/
  half : Option DWord := none
  /-- the packet in execution waits under a monitor, or for its condition (R324, R325) -/
  waiting : Bool := false
  /-- a write satisfied the WAIT, or the wake register was written, during an unmap (R336) -/
  wakeSeen : Bool := false
  deriving DecidableEq, Repr

/-- A front-end core (R320, R321). -/
structure Fe where
  /-- integer registers, 0 where unlisted; x0 is 0 (R320) -/
  x : Cells DWord := []
  /-- program counter (R320) -/
  pc : Nat := 0
  /-- front-end memory of the core, 0 where unlisted (R320) -/
  imem : Cells Byte := []
  /-- words of its memory that are poisoned, by address / 4 (R347) -/
  imemBad : List Nat := []
  /-- packet buffer (R321) -/
  buf : BitVec 512 := 0
  /-- trap vector, and the exception registers (R321) -/
  mtvec : Nat := 0
  mepc : Nat := 0
  mcause : DWord := 0
  mtval : DWord := 0
  /-- mapped queues by slot 0 to 15 (R320) -/
  slots : Map MQueue := []
  /-- the slot of the current queue (R321) -/
  cur : Option Nat := none
  /-- SWAIT in progress: VA, value, register (R321) -/
  wait : Option (Nat × DWord × Nat) := none
  /-- FETCHR or DISP waits for a page (R321, R324, R327) -/
  blocked : Bool := false
  /-- the last value SWAIT read (R321) -/
  last : DWord := 0
  /-- reservation of LR: address and bytes (R320; the A extension, assumption 95) -/
  reserved : Option (Nat × Nat) := none
  /-- firmware runs (R382) -/
  running : Bool := false
  deriving DecidableEq, Repr, Inhabited

/-- A gather buffer (R41). -/
structure Gather where
  /-- grid and node (R41) -/
  grid : Nat
  node : Nat
  /-- records, oldest first (R41) -/
  recs : List (List Word) := []
  /-- time at which the timer lapses, in ns (R41) -/
  lapse : Option Nat := none
  deriving DecidableEq, Repr

/-- A die (R1, R7). -/
structure Die where
  /-- die TLB, newest first (R164) -/
  tlb : List TlbEntry := []
  /-- monitor entries (R170) -/
  mon : List Monitor := []
  /-- gather buffers (R41) -/
  gather : List Gather := []
  /-- lines present in the slices of the L2, most recently used first (R7, R174, R200) -/
  l2 : List L2Line := []
  /-- correction counter (R347) -/
  corrected : Nat := 0
  deriving DecidableEq, Repr, Inhabited

/-- An invalidation request (R337). -/
structure Inval where
  /-- context, entry address, count, level, address of the new values (R337, R369) -/
  ctx : Nat
  entry : Nat
  count : Nat
  level : Nat
  values : Nat
  /-- old frames: base and bytes (R337) -/
  frames : List (Nat × Nat) := []
  /-- messages and copies still to drain (R337 step 3) -/
  drain : List Nat := []
  /-- cores, and dies as 1000 + die, that have still to remove translations (R337 step 2) -/
  cores : List Nat := []
  /-- the L1 words of the old frames have been written back and invalidated (R337 step 4) -/
  flushed : Bool := false
  /-- a host ATS invalidation: no entry changes (R370) -/
  ats : Bool := false
  deriving DecidableEq, Repr

/-- A partition's host registers and state (R329, R369). -/
structure Part where
  /-- DIES (R369) -/
  dies : BitVec 24 := 0
  /-- RESV (R369) -/
  resv : BitVec 24 := 0
  /-- CTXTAB, QTAB, FLOG, ELOG (R369) -/
  ctxtab : DWord := 0
  qtab : DWord := 0
  flog : DWord := 0
  elog : DWord := 0
  /-- FHEAD and EHEAD: device write index, software read index (R369) -/
  fw : Word := 0
  fr : Word := 0
  ew : Word := 0
  er : Word := 0
  /-- QUANTUM (R369) -/
  quantum : Nat := 250
  /-- INVARG, INVSTAT [1] (R369) -/
  invarg : DWord := 0
  refused : Bool := false
  /-- invalidations in progress, oldest first (R337, R370) -/
  inval : List Inval := []
  /-- records held for the fault log and the error log: bytes, and the grid whose status waits (R344) -/
  fheld : List (BitVec 512 × Option Nat) := []
  eheld : List (BitVec 512 × Option Nat) := []
  /-- context whose slice runs (R330) -/
  slice : Option Nat := none
  /-- end of the slice in ns (R330) -/
  sliceEnd : Nat := 0
  /-- contexts stopped by a pre-emption (R332) -/
  stopped : List Nat := []
  /-- (context, core) pairs: the cores that class-0 work has taken from a context, with those of their gangs, until the context has them
  back (R37, R331, R338, R388) -/
  lost : List (Nat × Nat) := []
  deriving DecidableEq, Repr, Inhabited

/-- What is saved of a core and its teams (R332 to R334). -/
structure SavedCore where
  /-- old package core number (R333) -/
  core : Nat
  /-- teams and groups (R333, R334) -/
  teams : Map Team := []
  groups : Map Group := []
  /-- tempo array (R303) -/
  tempo : Tempo := {}
  /-- saved copy commands (R208) -/
  copies : Map Copy := []
  /-- phaser leaf entries: object, state (R254) -/
  leaves : Map PhNode := []
  deriving DecidableEq, Repr

/-- A saved context (R332, R328). -/
structure Saved where
  part : Nat
  ctx : Nat
  /-- cores (R333) -/
  cores : List SavedCore := []
  /-- gather buffers by die, with the remaining timers in ns (R328) -/
  gather : Map (List Gather) := []
  deriving DecidableEq, Repr

/-! ## The issue in progress -/

/-- A kill that a word raises (R351, R354). -/
structure Kill where
  /-- its code (R341) -/
  code : Byte
  /-- its check: a packet index, or the physical address of a poisoned word (R354) -/
  check : Nat
  /-- the poisoned word lay in memory-side storage (R354) -/
  memSide : Bool := false
  deriving DecidableEq, Repr, Inhabited

/-- What has become of the words of the issue group that is being issued (R27). -/
inductive Verdict where
  /-- every word so far takes effect -/
  | done
  /-- a fault of R50's stage, at a word position; its route has been taken -/
  | faulted (stage word : Nat)
  /-- held at issue by a resource outside the slot (R28) -/
  | stalled
  /-- parked on a translation (R169) -/
  | parked
  deriving DecidableEq, Repr, Inhabited

/-- The issue group that is being issued (R27, R17): every word reads pre and writes cur. -/
structure Issue where
  /-- group (R27) -/
  gid : Nat := 0
  /-- packet and first word of the issue group (R46) -/
  pos : Pos := {}
  /-- position of the word that exec runs (R342 WORD) -/
  word : Nat := 0
  /-- the word itself (R341 VALUE) -/
  raw : Word := 0
  /-- the three words of its packet, once they have been fetched (R45) -/
  fetched : Option (List Nat) := none
  /-- position after the issue group (R28) -/
  next : Pos := {}
  /-- the group before the issue group (R17) -/
  pre : Group := {}
  /-- the group as the words leave it -/
  cur : Group := {}
  /-- taken branch, call or return: where the group goes (R89, R90) -/
  target : Option Pos := none
  /-- an event of R28 ends the run -/
  endRun : Bool := false
  /-- SG is set to 0 after the hash (R103, R116) -/
  sgReset : Bool := false
  /-- reconvergence events to hash (R348) -/
  events : List Word := []
  /-- a word of the memory fault class stands in the issue group (R32) -/
  memWord : Bool := false
  /-- a V word and a U word of the issue group have entered their results in the latches (R32) -/
  vDone : Bool := false
  uDone : Bool := false
  /-- SIGCHK that matched: its word and literal are not hashed, SG restarts (R103) -/
  sigOk : Bool := false
  /-- a kill that the issue group raises (R103, R347, R350) -/
  kill : Option Kill := none
  /-- ERET: the latches are empty after the issue group (R101) -/
  noLatch : Bool := false
  /-- what has become of it (R27) -/
  verdict : Verdict := .done
  deriving DecidableEq, Repr, Inhabited

/-! ## What happens next, and what arrives -/

/-- What an arrival event is about: the thing that arrives (assumption 10). -/
inductive Arriving where
  | none
  /-- a message of net by number -/
  | msg (id : Nat)
  /-- a message of the synchronisation network by number -/
  | pmsg (id : Nat)
  /-- a signal or record held at a port -/
  | port (id : Nat)
  /-- a frame at a direction of a phaser uplink -/
  | frame (link : Nat) (f : BitVec 128)
  /-- a flit at a module direction or fabric port -/
  | flit (link : Nat) (f : BitVec 512)
  deriving DecidableEq, Repr

/-- A word of the SRAMs of R347, or a counter of R350. -/
inductive Stored where
  /-- near memory or the L2 before it: word address PA / 4 -/
  | mem (w : Nat)
  /-- core, line and word of an L1 -/
  | l1 (core line word : Nat)
  /-- core, line and word of a constant cache -/
  | constant (core line word : Nat)
  /-- group, 32 * register + lane -/
  | reg (gid key : Nat)
  /-- group, 128 * tile + element -/
  | tile (gid key : Nat)
  /-- team, carve-out offset / 4 -/
  | carve (team word : Nat)
  /-- core, word of its tempo array, as Tempo.bad numbers them -/
  | tempo (core word : Nat)
  /-- front-end core, word of its memory -/
  | frontEnd (id word : Nat)
  /-- object and node of a phaser table -/
  | phaser (obj node : Nat)
  deriving DecidableEq, Repr

/-- What comes from outside the rules of the machine: errors of its storage and of its ports, and
what the host and other packages do (assumption 84). -/
inductive Env where
  /-- PCIe or a pool node completes a request in error (R187, R367) -/
  | requestError (id : Nat)
  /-- a word of a die's storage is corrected (R347) -/
  | corrected (die : Nat)
  /-- an uncorrectable error in a word (R347) -/
  | upset (x : Stored)
  /-- one copy of a lane counter changes: the second one where second says so (R350) -/
  | counter (gid lane : Nat) (second : Bool) (x : Byte)
  /-- another package tells a communicator something through a pool node and a fabric port (R367, R374, R378) -/
  | pool (port comm : Nat) (m : PoolMsg)
  /-- a pool node completes a transfer of a collective in error (R367, R377) -/
  | transferError (coll : Nat)
  /-- a message of another package reaches the pod switch: object, its mode, what it carries (R248, assumption 96) -/
  | pod (obj : Nat) (any : Bool) (k : PKind)
  /-- the host writes BAR2 of a host port (R369) -/
  | bar2 (port off : Nat) (v : DWord)
  /-- an AtomicOp of the host: port, tag, physical address, 8 bytes or 4, operand and compare value (R369) -/
  | hostAtomic (port tag pa : Nat) (wide : Bool) (k : HostAtomic) (x cmp : DWord)
  /-- host software writes bytes, of its own memory or of the package's (R369, assumption 84) -/
  | hostWrite (port pa : Nat) (bytes : List Byte)
  deriving DecidableEq, Repr

/-- One entry of the agenda: what happens next (assumption 9). -/
inductive Act where
  /-- a slot issues, or selects its next group (R27, R29) -/
  | slot (core slot : Nat)
  /-- a front-end core executes its next instruction (R320) -/
  | fe (id : Nat)
  /-- an event of the opcode table happens, with what arrives -/
  | event (a : Arriving) (i : Instr)
  /-- a part of a matrix command, begun or to be begun, is made at its own moment, before the rest: the unit of a slot, numbered
  4 × core + slot, and the stream (R266, R268) -/
  | matrixPart (slot : Nat) (strm : Fin 4)
  /-- a part of the tempo command whose turn it is, likewise (R293, R294) -/
  | tempoPart (core : Nat)
  /-- a part of a collective's reads or writes is made at its own moment (R375, R377) -/
  | collPart (id : Nat)
  /-- the lines of one more set leave the ways that a team pins (R179) -/
  | pinPart (team : Nat)
  /-- an idle front-end core takes a mapped queue of another, by its slot (R320) -/
  | takeQueue (id victim slot : Nat)
  /-- n nanoseconds pass (R110 TIME, R98) -/
  | pass (n : Nat)
  /-- something from outside -/
  | env (e : Env)
  deriving DecidableEq, Repr

/-- The machine. -/
structure State where
  /-- memory by 52-bit physical address, fabric and host tiers included, 0 where unlisted (R154) -/
  mem : List Host.Cell := []
  /-- poisoned words: physical word addresses PA / 4, rising (R347) -/
  memBad : List Nat := []
  /-- TIME in ns (R110) -/
  time : Nat := 0
  /-- arithmetic cycles since reset (R98, R110) -/
  cycle : Nat := 0
  /-- the part of the next cycle that has gone by, in thousandths (R4) -/
  subcycle : Nat := 0
  /-- counter of the free values taken so far (assumption 5) -/
  fresh : Nat := 0
  /-- numbers given to messages, operations, groups and other things (assumption 8) -/
  nextId : Nat := 1
  /-- groups (R15) -/
  groups : Map Group := []
  /-- teams (R15) -/
  teams : Map Team := []
  /-- grids (R15) -/
  grids : Map Grid := []
  /-- cores, at their reset where unlisted (R2) -/
  cores : Map Core := []
  /-- dies, at their reset where unlisted (R1) -/
  dies : Map Die := []
  /-- operations of the engine classes (R184) -/
  ops : Map Op := []
  /-- copies (R205) -/
  copies : Map Copy := []
  /-- walks (R210) -/
  walks : Map Walk := []
  /-- ATS and PRI requests (R160, R370) -/
  hostReqs : Map HostReq := []
  /-- messages in flight, in the order sent (R157) -/
  net : List Msg := []
  /-- releases not yet performed (R217) -/
  rels : Map Release := []
  /-- signals and records held at ports (R249, R253) -/
  ports : Map PortHold := []
  /-- phaser objects by bits [19:0] of the ID word (R231, R232) -/
  phs : Map Phaser := []
  /-- a pod is configured, and this package's number in it (R232, R244) -/
  pod : Bool := false
  pkg : Nat := 0
  /-- messages of the synchronisation network, in the order sent (R237) -/
  pnet : Map PMsg := []
  /-- module directions, key 96 * (2 * boundary + direction) + module; fabric port p's from 7296 + 2 p; phaser uplink u's
  from 7360 + 2 u (R360, R367, R368) -/
  links : Map Link := []
  /-- boundaries whose every module is disabled (R366) -/
  deadBoundaries : List Nat := []
  /-- communicators: key 256 * (4096 * part + ctx) + cid (R371) -/
  comms : Map Comm := []
  /-- COLLs at their engines (R374) -/
  colls : Map Coll := []
  /-- partitions (R329, R369) -/
  parts : Map Part := []
  /-- saved contexts (R332) -/
  saved : List Saved := []
  /-- front-end cores: key 4 * die + core (R320) -/
  fes : Map Fe := []
  /-- the front-end core that executes (R321) -/
  feCur : Nat := 0
  /-- grid order counter (R37) -/
  launches : Nat := 0
  /-- STATE (R369): firmware verified, memory trained, links up, lockdown -/
  verified : Bool := false
  memTrained : Bool := false
  linksUp : Bool := false
  locked : Bool := false
  /-- Derlo runs (R382) -/
  derlo : Bool := false
  /-- IBASE_NEAR, IBASE_FAR (R369) -/
  ibaseNear : DWord := 0
  ibaseFar : DWord := 0
  /-- CLOCK: current and minimum in MHz (R369) -/
  clock : Nat := 1900
  clockMin : Nat := 1900
  /-- POWER (R369) -/
  power : Nat := 0
  /-- time since which power has been below 14.25 kW (R380) -/
  coolSince : Option Nat := none
  /-- ATSBYP (R369) -/
  atsbyp : BitVec 24 := 0
  /-- REMOVED: package core numbers, rising (R369, R355) -/
  removed : List Nat := []
  /-- the two host ports, at their reset where unlisted (R8, R369) -/
  hostPorts : Map HostPort := []
  /-- MSI-X vectors raised, oldest first (R369) -/
  msix : List Nat := []
  /-- PRI page requests and ATS requests sent to the host, and completions sent, by request number (R370) -/
  hostOut : List Nat := []
  /-- signed reports delivered through MCTP endpoints: request and report (R381) -/
  reports : List (Nat × List Byte) := []
  /-- what arrives (assumption 10) -/
  arriving : Arriving := .none
  /-- what happens next; when empty the machine chooses (assumption 9) -/
  agenda : List Act := []
  /-- the issue in progress (R27) -/
  issue : Issue := {}
  deriving DecidableEq, Repr

/-- The machine right after reset: every field at its default. -/
def State.reset : State := {}

/-- Why the machine stops. -/
inductive Fault where
  /-- A host access names a register offset that R369 does not assign: the manual gives it no effect. Raised by
  REGISTER_WRITE. Safe: the machine stops where the hardware would go on. -/
  | unassignedRegister
  deriving DecidableEq, Repr

/-- Why an instruction has no meaning here. -/
inductive Refusal where
  /-- An instruction of the opcode table without a meaning yet. Raised by the arms of exec. Safe. -/
  | notModelled (mnemonic : String)
  deriving DecidableEq, Repr

end Sys2Proof.Machine
end

