-- ==== Sys2Proof/Machine/Bits.lean ====
section
/-! DEFINITION. Maps and stores, byte order, bit fields and sign extension: the helpers every meaning uses. -/

namespace Sys2Proof.Machine

/-! ## Maps with rising keys -/

/-- The entry at key k. -/
def mget {α : Type} : Map α → Nat → Option α
  | [], _ => none
  | (j, x) :: t, k => if j = k then some x else if k < j then none else mget t k
/-- The map with x at key k. -/
def mput {α : Type} : Map α → Nat → α → Map α
  | [], k, x => [(k, x)]
  | (j, y) :: t, k, x => if k < j then (k, x) :: (j, y) :: t else if k = j then (k, x) :: t else (j, y) :: mput t k x
/-- The map without key k. What follows k has greater keys; the filter says so of a list that is no map too, so that reading
after a deletion needs no premise. -/
def mdel {α : Type} : Map α → Nat → Map α
  | [], _ => []
  | (j, y) :: t, k => if k = j then t.filter fun e => decide (k < e.1) else if k < j then (j, y) :: t else (j, y) :: mdel t k
/-- The keys rise strictly, all above lo where lo is given. -/
def rising {α : Type} : Option Nat → Map α → Bool
  | _, [] => true
  | none, (j, _) :: t => rising (some j) t
  | some lo, (j, _) :: t => decide (lo < j) && rising (some j) t

/-- What a store with unlisted value d holds at k. -/
def cget {α : Type} (d : α) (m : Cells α) (k : Nat) : α := (mget m k).getD d
/-- The store with x at k, in canonical form. -/
def cput {α : Type} [DecidableEq α] (d : α) (m : Cells α) (k : Nat) (x : α) : Cells α :=
  if x = d then mdel m k else mput m k x
/-- Write a list of entries, the last one standing. -/
def cputAll {α : Type} [DecidableEq α] (d : α) (m : Cells α) (xs : List (Nat × α)) : Cells α :=
  xs.foldl (fun m x => cput d m x.1 x.2) m
/-- Canonical form of a store with unlisted value d. -/
def cellsWf {α : Type} [DecidableEq α] (d : α) (m : Cells α) : Bool := rising none m && m.all fun x => x.2 != d

/-- Insert a number into a strictly rising list. -/
def insertNat : List Nat → Nat → List Nat
  | [], k => [k]
  | j :: t, k => if k < j then k :: j :: t else if k = j then j :: t else j :: insertNat t k
/-- Insert where not present, at the end. -/
def addOnce {α : Type} [DecidableEq α] (l : List α) (x : α) : List α := if l.contains x then l else l ++ [x]
/-- Replace the entries of an association list that f changes. -/
def mmap {α : Type} (m : Map α) (f : Nat → α → α) : Map α := m.map fun x => (x.1, f x.1 x.2)

/-! ## Bit fields, on natural numbers -/

/-- Bit n of w. -/
def bit (w n : Nat) : Bool := w / 2 ^ n % 2 = 1
/-- The value of an n-bit two's-complement field (R13 sext). -/
def sextInt (n w : Nat) : Int := if w % 2 ^ n < 2 ^ (n - 1) then (w % 2 ^ n : Nat) else (w % 2 ^ n : Nat) - (2 ^ n : Nat)
/-- sext of an n-bit field to a word (R13). -/
def sextWord (n w : Nat) : Word := BitVec.ofInt 32 (sextInt n w)
/-- Exclusive or of two 16-bit numbers, for CRC-16. -/
def xor16 (a b : Nat) : Nat := ((BitVec.ofNat 16 a) ^^^ (BitVec.ofNat 16 b)).toNat

/-! ## Bytes of values, little-endian (R118) -/

/-- The n bytes of x. -/
def bytesOf : Nat → Nat → List Byte
  | 0, _ => []
  | n + 1, x => BitVec.ofNat 8 x :: bytesOf n (x / 256)
/-- The number that bytes spell. -/
def ofBytes : List Byte → Nat
  | [] => 0
  | b :: t => b.toNat + 256 * ofBytes t
/-- The n bytes of x as cells from address a. -/
def cellsOf (a n x : Nat) : List (Nat × Byte) := (bytesOf n x).mapIdx fun i b => (a + i, b)

/-! ## Memory (R154) -/

/-- What an unlisted byte of memory reads as (assumption 1). -/
def memDefault : Byte := 0
/-- The memory's canonical form. -/
abbrev Memory.wf (m : List Host.Cell) : Bool := cellsWf memDefault m
/-- One byte of memory. -/
def readByte (m : List Host.Cell) (a : Nat) : Byte := cget memDefault m a
/-- Memory with one byte written. -/
def writeByte (m : List Host.Cell) (a : Nat) (b : Byte) : List Host.Cell := cput memDefault m a b
/-- n bytes from address a. -/
def readBytes (m : List Host.Cell) (a : Nat) : Nat → List Byte
  | 0 => []
  | n + 1 => readByte m a :: readBytes m (a + 1) n
/-- The number in n bytes from address a. -/
def readNum (m : List Host.Cell) (a n : Nat) : Nat := ofBytes (readBytes m a n)
/-- Memory with bytes written in order from address a. -/
def writeBytes (m : List Host.Cell) (a : Nat) : List Byte → List Host.Cell
  | [] => m
  | b :: t => writeBytes (writeByte m a b) (a + 1) t
/-- Memory with the n bytes of x written from address a. -/
def writeNum (m : List Host.Cell) (a n x : Nat) : List Host.Cell := writeBytes m a (bytesOf n x)

/-- The lanes of a group (R3). -/
def allLanes : List Nat := List.range 32
/-- The mask of the lanes that satisfy p. -/
def maskOf (p : Nat → Bool) : Word :=
  BitVec.ofNat 32 (allLanes.foldl (fun n l => if p l then n + 2 ^ l else n) 0)
/-- Lane l is in mask m. -/
def inMask (m : Word) (l : Nat) : Bool := m.getLsbD l
/-- The lanes of a mask, ascending. -/
def lanesOf (m : Word) : List Nat := allLanes.filter (inMask m)

end Sys2Proof.Machine
end

