-- ==== Sys2Proof/Machine/Float.lean ====
section
/-! DEFINITION. Floating-point numbers as exact values, and the one rounding of R123 to R125. A finite value is a sign, a
natural mantissa and an exponent of two. A computation is exact; deliver rounds it once to a format and gives the flags. -/

namespace Sys2Proof.Machine

/-! ## STATUS bits (R111) -/

def fNV : Byte := 1
def fDZ : Byte := 2
def fOF : Byte := 4
def fUF : Byte := 8
def fNX : Byte := 16
def fDS4 : Byte := 32
def fPWOVR : Byte := 64
def fSAT : Byte := 128

/-! ## Formats (R120) -/

/-- Width of the exponent field (R120). -/
def FTy.ebits : FTy → Nat
  | .f32 => 8 | .f16 => 5 | .bf16 => 8 | .f8a => 4 | .f8b => 5
/-- Width of the fraction field (R120). -/
def FTy.mbits : FTy → Nat
  | .f32 => 23 | .f16 => 10 | .bf16 => 7 | .f8a => 3 | .f8b => 2
/-- Exponent bias (R120). -/
def FTy.bias (t : FTy) : Nat := 2 ^ (FTy.ebits t - 1) - 1
/-- Total width (R120). -/
def FTy.width (t : FTy) : Nat := 1 + FTy.ebits t + FTy.mbits t
/-- The format has infinities: all but E4M3 (R120). -/
def FTy.hasInf : FTy → Bool
  | .f8a => false
  | _ => true
/-- The largest finite pattern without its sign (R120). -/
def FTy.maxBits (t : FTy) : Nat :=
  match t with
  | .f8a => 0x7E
  | _ => (2 ^ FTy.ebits t - 1) * 2 ^ FTy.mbits t - 1
/-- The canonical NaN (R121). -/
def FTy.nan : FTy → Nat
  | .f32 => 0x7FC00000 | .f16 => 0x7E00 | .bf16 => 0x7FC0 | .f8a => 0x7F | .f8b => 0x7E
/-- Exponent of the smallest normal (R120). -/
def FTy.emin (t : FTy) : Int := 1 - (FTy.bias t : Int)

/-- A floating-point value (R120): a NaN, an infinity, or the finite ±man * 2 ^ exp. -/
inductive FVal where
  | nan (signalling : Bool)
  | inf (neg : Bool)
  | fin (neg : Bool) (man : Nat) (exp : Int)
  deriving DecidableEq, Repr

/-- The value of a pattern (R120, R121). -/
def fval (t : FTy) (w : Nat) : FVal :=
  let m := FTy.mbits t
  let f := w % 2 ^ m
  let e := w / 2 ^ m % 2 ^ FTy.ebits t
  let neg := bit w (m + FTy.ebits t)
  let top := 2 ^ FTy.ebits t - 1
  if FTy.hasInf t = true ∧ e = top ∧ f = 0 then .inf neg
  else if FTy.hasInf t = true ∧ e = top then
    .nan (match t with | .f8b => false | _ => !bit w (m - 1))
  else if FTy.hasInf t = false ∧ e = top ∧ f = 7 then .nan false
  else if e = 0 then .fin neg f (FTy.emin t - m)
  else .fin neg (2 ^ m + f) ((e : Int) - FTy.bias t - m)

/-! ## Rounding (R123, R124, R125) -/

/-- man * 2 ^ exp in steps of 2 ^ q, rounded in a mode: the number of steps, and whether anything was lost. -/
def roundSteps (mode : RMode) (rnd : Nat) (neg : Bool) (man : Nat) (exp q : Int) : Nat × Bool :=
  if q ≤ exp then (man * 2 ^ (exp - q).toNat, false)
  else
    let d := (q - exp).toNat
    let n := man / 2 ^ d
    let r := man % 2 ^ d
    let up : Bool := match mode with
      | .rne => decide (2 ^ d < 2 * r) || (decide (2 * r = 2 ^ d) && decide (n % 2 = 1))
      | .rz => false
      | .rd => neg && r != 0
      | .ru => !neg && r != 0
      | .rs => decide (2 ^ 32 ≤ r * 2 ^ 32 / 2 ^ d + rnd)
    (if up then n + 1 else n, r != 0)

/-- The pattern of n steps of 2 ^ q, normal or subnormal, without its sign. -/
def packBits (t : FTy) (n : Nat) (q : Int) : Nat :=
  if n = 0 then 0
  else ((q + FTy.mbits t + FTy.bias t) * (2 ^ FTy.mbits t : Nat) + n - (2 ^ FTy.mbits t : Nat)).toNat

/-- A pattern with its sign. -/
def withSign (t : FTy) (neg : Bool) (b : Nat) : Nat := if neg then 2 ^ (FTy.width t - 1) + b else b
/-- The pattern of infinity, or of 448 in E4M3 (R124). -/
def infBits (t : FTy) : Nat := match t with
  | .f8a => 0x7E
  | _ => (2 ^ FTy.ebits t - 1) * 2 ^ FTy.mbits t

/-- What overflow delivers (R124). -/
def overflowBits (t : FTy) (mode : RMode) (neg : Bool) : Nat :=
  let largest : Bool := match mode with
    | .rz => true
    | .rd => !neg
    | .ru => neg
    | _ => false
  if largest then FTy.maxBits t else infBits t

/-- Round the nonzero or zero magnitude man * 2 ^ exp to a format: the pattern and the flags (R123 to R125). -/
def roundTo (t : FTy) (mode : RMode) (rnd : Nat) (neg : Bool) (man : Nat) (exp : Int) : Nat × Byte :=
  if man = 0 then (withSign t neg 0, 0)
  else
    let m : Int := FTy.mbits t
    let lg : Int := (man.log2 : Int) + exp
    let q0 := max (FTy.emin t - m) (lg - m)
    let q := if mode = .rs then min q0 ((FTy.maxBits t / 2 ^ FTy.mbits t : Nat) - FTy.bias t - m) else q0
    let (n, lost) := roundSteps mode rnd neg man exp q
    let b := packBits t n q
    if FTy.maxBits t < b then
      (withSign t neg (overflowBits t mode neg), fOF ||| fNX ||| (if FTy.hasInf t then 0 else fSAT))
    else
      let (n', _) := roundSteps mode rnd neg man exp (lg - m)
      let tiny : Bool := n' != 0 && decide ((n'.log2 : Int) + (lg - m) < FTy.emin t)
      (withSign t neg b, (if lost then fNX else 0) ||| (if lost && tiny then fUF else 0))

/-- Deliver an exact value to a format (R121, R123, R124). -/
def deliver (t : FTy) (mode : RMode) (rnd : Nat) : FVal → Nat × Byte
  | .nan _ => (FTy.nan t, 0)
  | .inf neg => (withSign t neg (infBits t), if FTy.hasInf t then 0 else fSAT)
  | .fin neg man exp => roundTo t mode rnd neg man exp

/-! ## Exact arithmetic (R138) -/

/-- NV for a signalling NaN (R126). -/
def nvOf : FVal → Byte
  | .nan true => fNV
  | _ => 0
def FVal.isNan : FVal → Bool
  | .nan _ => true
  | _ => false
def FVal.neg : FVal → FVal
  | .nan q => .nan q
  | .inf n => .inf (!n)
  | .fin n m e => .fin (!n) m e
/-- The signed mantissa at exponent e, not above the value's own. -/
def signedAt (neg : Bool) (man : Nat) (exp e : Int) : Int :=
  let x : Int := (man * 2 ^ (exp - e).toNat : Nat)
  if neg then -x else x
/-- A signed integer at exponent e as a value; zero takes the sign given. -/
def ofSigned (x : Int) (e : Int) (zeroNeg : Bool) : FVal :=
  if x = 0 then .fin zeroNeg 0 e else .fin (decide (x < 0)) x.natAbs e

/-- The exact sum, with NV (R123 zero rule, R138). -/
def addExact : FVal → FVal → FVal × Byte
  | .nan p, b => (.nan false, nvOf (.nan p) ||| nvOf b)
  | a, .nan q => (.nan false, nvOf a ||| nvOf (.nan q))
  | .inf n, .inf n' => if n = n' then (.inf n, 0) else (.nan false, fNV)
  | .inf n, _ => (.inf n, 0)
  | _, .inf n => (.inf n, 0)
  | .fin n m e, .fin n' m' e' =>
    let lo := min e e'
    (ofSigned (signedAt n m e lo + signedAt n' m' e' lo) lo (n && n' && decide (m = 0) && decide (m' = 0)), 0)

/-- The exact difference, with NV; an exact zero is +0, whatever the operands (R123 zero rule, R138). -/
def subExact (a b : FVal) : FVal × Byte :=
  match addExact a b.neg with
  | (.fin n m e, f) => (.fin (n && m != 0) m e, f)
  | r => r
/-- The exact product, with NV (R138). -/
def mulExact : FVal → FVal → FVal × Byte
  | .nan p, b => (.nan false, nvOf (.nan p) ||| nvOf b)
  | a, .nan q => (.nan false, nvOf a ||| nvOf (.nan q))
  | .inf n, .inf n' => (.inf (n != n'), 0)
  | .inf n, .fin n' m _ => if m = 0 then (.nan false, fNV) else (.inf (n != n'), 0)
  | .fin n m _, .inf n' => if m = 0 then (.nan false, fNV) else (.inf (n != n'), 0)
  | .fin n m e, .fin n' m' e' => (.fin (n != n') (m * m') (e + e'), 0)

/-- The exact a * b + c, with NV: an invalid product sets NV whatever the addend (R138). -/
def fmaExact (a b c : FVal) : FVal × Byte :=
  let (p, f) := mulExact a b
  let (r, g) := addExact p c
  (r, f ||| g)

/-- Round an exact result to nearest-even in a format, with all its flags (R138). -/
def roundRne (t : FTy) (r : FVal × Byte) : Nat × Byte :=
  let (b, f) := deliver t .rne 0 r.1
  (b, f ||| r.2)

/-- Addition, subtraction, multiplication and fused multiply-add in a format, nearest-even (R138). -/
def fpAdd (t : FTy) (a b : Nat) : Nat × Byte := roundRne t (addExact (fval t a) (fval t b))
def fpSub (t : FTy) (a b : Nat) : Nat × Byte := roundRne t (subExact (fval t a) (fval t b))
def fpMul (t : FTy) (a b : Nat) : Nat × Byte := roundRne t (mulExact (fval t a) (fval t b))
def fpFma (t : FTy) (a b c : Nat) : Nat × Byte := roundRne t (fmaExact (fval t a) (fval t b) (fval t c))

/-- The order of two numbers, −0 below +0 (R139). -/
def fltBits (t : FTy) (a b : Nat) : Bool :=
  let half := 2 ^ (FTy.width t - 1)
  let a := a % (2 * half)
  let b := b % (2 * half)
  if a < half then decide (b < half) && decide (a < b)
  else if b < half then true
  else decide (b < a)

/-- FMIN or FMAX in a format (R139). -/
def fpMinMax (t : FTy) (isMax : Bool) (a b : Nat) : Nat × Byte :=
  let x := fval t a
  let y := fval t b
  let nv := nvOf x ||| nvOf y
  match x.isNan, y.isNan with
  | true, true => (FTy.nan t, nv)
  | true, false => (b % 2 ^ FTy.width t, nv)
  | false, true => (a % 2 ^ FTy.width t, nv)
  | false, false =>
    let less := fltBits t a b
    ((if less != isMax then a else b) % 2 ^ FTy.width t, nv)

/-- Compare two numbers, −0 equal to +0 (R143): −1, 0 or 1. -/
def fcompare (a b : FVal) : Int :=
  match a, b with
  | .inf n, .inf n' => (if n then -1 else 1) - (if n' then -1 else 1)
  | .inf n, _ => if n then -1 else 1
  | _, .inf n => if n then 1 else -1
  | .fin n m e, .fin n' m' e' =>
    let lo := min e e'
    let d := signedAt n m e lo - signedAt n' m' e' lo
    if d < 0 then -1 else if d = 0 then 0 else 1
  | _, _ => 0

/-! ## Integers and floats (R142, R146) -/

/-- A finite value rounded to an integer in a mode, and whether anything was lost. -/
def roundInt (mode : RMode) (neg : Bool) (man : Nat) (exp : Int) : Int × Bool :=
  let (n, lost) := roundSteps mode 0 neg man exp 0
  (if neg then -(n : Int) else n, lost)

/-- Nearest-even in FRND's four modes. -/
def FrndMode.toRMode : FrndMode → RMode
  | .rne => .rne | .rz => .rz | .rd => .rd | .ru => .ru

/-! ## Square root and the special functions (R144) -/

/-- The largest r with r * r ≤ n, found bit by bit from 2 ^ k down. -/
def isqrtFrom (n : Nat) : Nat → Nat → Nat
  | 0, r => if (r + 1) * (r + 1) ≤ n then r + 1 else r
  | k + 1, r => isqrtFrom n k (if (r + 2 ^ (k + 1)) * (r + 2 ^ (k + 1)) ≤ n then r + 2 ^ (k + 1) else r)
/-- Integer square root. -/
def isqrt (n : Nat) : Nat := isqrtFrom n (n.log2 / 2 + 1) 0

/-- A rational interval with one denominator that holds the exact result. -/
structure Enclosure where
  lo : Int
  hi : Int
  den : Nat
  deriving DecidableEq, Repr

/-- An integer over a denominator as a sign, a mantissa and an exponent, with a sticky bit below 60 bits. -/
def ratVal (num : Int) (den : Nat) : Bool × Nat × Int :=
  let a := num.natAbs
  let k := 64 + den.log2 - a.log2
  let n := a * 2 ^ k / den
  let r := a * 2 ^ k % den
  (decide (num < 0), 2 * n + (if r = 0 then 0 else 1), -(k : Int) - 1)

/-- FP32 patterns in value order: the place of a pattern on the line of integers. -/
def f32Place (b : Nat) : Int := if b < 2 ^ 31 then b else (2 ^ 31 : Nat) - (b : Int)
/-- The pattern at a place. -/
def f32AtPlace (p : Int) : Nat := if 0 ≤ p then p.toNat else 2 ^ 31 + p.natAbs

/-- An FP32 value within e of every number of the interval, as Config.specialPick chooses it (assumption 4): the finite
patterns from the least at or above hi - e to the largest at or below lo + e; of two zeros within the bound only +0 is offered. -/
def pickWithin (fn : Nat) (x : Word) (i : Enclosure) (eNum : Int) (eDen : Nat) : Nat :=
  let down := ratVal (i.hi * eDen - eNum * i.den) (i.den * eDen)
  let up := ratVal (i.lo * eDen + eNum * i.den) (i.den * eDen)
  let a := (roundTo .f32 .ru 0 down.1 down.2.1 down.2.2).1
  let b := (roundTo .f32 .rd 0 up.1 up.2.1 up.2.2).1
  let top : Int := FTy.maxBits .f32
  let pa := max (-top) (min top (f32Place a))
  let pb := max (-top) (min top (f32Place b))
  if pb ≤ pa then f32AtPlace pa
  else f32AtPlace (pa + ((Config.specialPick fn x % (pb - pa + 1).toNat : Nat) : Int))

/-- The exponent of FP32's spacing at a nonzero number num / den, subnormal spacing included (R144). -/
def ulpExp (num : Int) (den : Nat) : Int :=
  let (_, m, e) := ratVal num den
  max (-149) ((m.log2 : Int) + e - 23)

/-- An inexact special result within n ulp, with its flags (R144): NX, UF when tiny, infinity with OF when it overflows. -/
def pickUlp (fn : Nat) (x : Word) (i : Enclosure) (n : Nat) : Nat × Byte :=
  let (neg, m, e) := ratVal i.lo i.den
  let (b, f) := roundTo .f32 .rne 0 neg m e
  if f &&& fOF ≠ 0 then (b, f)
  else
    let u := ulpExp i.lo i.den
    let y := if 0 ≤ u then pickWithin fn x i (n * 2 ^ u.toNat : Nat) 1 else pickWithin fn x i n (2 ^ (-u).toNat)
    let tiny : Bool := decide ((m.log2 : Int) + e < FTy.emin .f32) && (f &&& fUF != 0 || b % 2 ^ 31 < 2 ^ 23)
    (y, fNX ||| (if tiny then fUF else 0))

/-- An inexact special result within an absolute error, with its flags (R144). -/
def pickAbs (fn : Nat) (x : Word) (i : Enclosure) (eNum : Int) (eDen : Nat) : Nat × Byte :=
  (pickWithin fn x i eNum eDen, fNX)

/-- Fixed-point scale of the series below. -/
def fixBits : Nat := 96
/-- ln 2 in units of 2 ^ -96, rounded down. -/
def ln2Fix : Nat := 0xB17217F7D1CF79ABC9E3B398
/-- pi in units of 2 ^ -320, rounded down. -/
def piFix : Nat := 0x3243F6A8885A308D313198A2E03707344A4093822299F31D0082EFA98EC4E6C89452821E638D01377
/-- Fixed-point scale of the exponential: finer than the distance of any 2 ^ x from an FP32 value or a binade's end. -/
def expBits : Nat := 256
/-- ln 2 in units of 2 ^ -256, rounded down. -/
def ln2Exp : Nat := 0xB17217F7D1CF79ABC9E3B39803F2F6AF40F343267298B62D8A0D175B8BAAFA2B
/-- The sum of t ^ k / k! from term k on, for t in fixed point. -/
def expSeries (t : Nat) : Nat → Nat → Nat → Nat
  | 0, _, _ => 0
  | fuel + 1, k, term => term + expSeries t fuel (k + 1) (term * t / 2 ^ expBits / (k + 1))
/-- The sum of z ^ (2 k + 1) / (2 k + 1) from term k on. -/
def atanhSeries (z2 : Nat) : Nat → Nat → Nat → Nat
  | 0, _, _ => 0
  | fuel + 1, k, pw => pw / (2 * k + 1) + atanhSeries z2 fuel (k + 1) (pw * z2 / 2 ^ fixBits)
/-- The alternating sums of sine (odd) and cosine (even) from term k on. -/
def trigSeries (r2 : Nat) : Nat → Nat → Int → Int
  | 0, _, _ => 0
  | fuel + 1, k, term =>
    term + trigSeries r2 fuel (k + 2) (-(term * (r2 : Int) / (2 ^ fixBits : Nat) / (((k + 1) * (k + 2) : Nat) : Int)))
/-- The slack that covers the truncations of a series, in units of its scale. -/
def slack : Int := 4096

/-- 2 ^ f for a fraction f in fixed point, in fixed point, rounded down within slack. -/
def exp2Frac (f : Nat) : Nat := expSeries (f * ln2Exp / 2 ^ expBits) 64 0 (2 ^ expBits)

/-- Enclosure of 2 ^ x for a finite x (R144). -/
def exp2Enc (neg : Bool) (man : Nat) (exp : Int) : Enclosure :=
  let fx : Int := signedAt neg man (exp + expBits) 0
  let n : Int := fx / (2 ^ expBits : Nat)
  let f : Nat := (fx % (2 ^ expBits : Nat)).toNat
  let y : Int := exp2Frac f
  if 0 ≤ n then ⟨(y - slack) * (2 ^ n.toNat : Nat), (y + slack) * (2 ^ n.toNat : Nat), 2 ^ expBits⟩
  else ⟨y - slack, y + slack, 2 ^ (expBits + n.natAbs)⟩

/-- Enclosure of log2 of a positive finite x (R144). -/
def log2Enc (man : Nat) (exp : Int) : Enclosure :=
  let e : Int := (man.log2 : Int) + exp
  let m := man * 2 ^ fixBits / 2 ^ man.log2
  let z := (m - 2 ^ fixBits) * 2 ^ fixBits / (m + 2 ^ fixBits)
  let ln := 2 * atanhSeries (z * z / 2 ^ fixBits) 48 0 z
  let y : Int := e * (2 ^ fixBits : Nat) + (ln * 2 ^ fixBits / ln2Fix : Nat)
  ⟨y - slack, y + slack, 2 ^ fixBits⟩

/-- Enclosure of the sine (cosine when cos) of a finite x in radians (R144). -/
def trigEnc (cos neg : Bool) (man : Nat) (exp : Int) : Enclosure :=
  let x : Nat := if 0 ≤ exp + 319 then man * 2 ^ (exp + 319).toNat else man / 2 ^ (-(exp + 319)).toNat
  let half : Nat := piFix / 4
  let k := x / half
  let r := x % half / 2 ^ (319 - fixBits)
  let r2 := r * r / 2 ^ fixBits
  let sn := trigSeries r2 40 1 r
  let cs := trigSeries r2 40 0 (2 ^ fixBits : Nat)
  let q := (if cos then k + 1 else k) % 4
  let v : Int := match q with
    | 0 => sn
    | 1 => cs
    | 2 => -sn
    | _ => -cs
  let y := if neg && !cos then -v else v
  ⟨y - slack, y + slack, 2 ^ fixBits⟩

/-- man is a power of two. -/
def isPow2 (man : Nat) : Bool := man != 0 && decide (2 ^ man.log2 = man)

/-- FRCP (R144). -/
def fpRcp (x : Word) : Nat × Byte :=
  match fval .f32 x.toNat with
  | .nan q => (FTy.nan .f32, nvOf (.nan q))
  | .inf neg => (withSign .f32 neg 0, 0)
  | .fin neg man exp =>
    if man = 0 then (withSign .f32 neg (infBits .f32), fDZ)
    else if isPow2 man then roundTo .f32 .rne 0 neg 1 (-((man.log2 : Int) + exp))
    else
      let s : Int := if neg then -1 else 1
      if 0 ≤ exp then pickUlp 0 x ⟨s, s, man * 2 ^ exp.toNat⟩ 1
      else pickUlp 0 x ⟨s * (2 ^ exp.natAbs : Nat), s * (2 ^ exp.natAbs : Nat), man⟩ 1

/-- A positive finite value as an even-exponent square candidate: mantissa and half the exponent. -/
def evenForm (man : Nat) (exp : Int) (extra : Nat) : Nat × Int :=
  if exp % 2 = 0 then (man * 2 ^ (2 * extra), exp / 2 - extra) else (2 * man * 2 ^ (2 * extra), (exp - 1) / 2 - extra)

/-- FSQRT, correctly rounded (R144). -/
def fpSqrt (x : Word) : Nat × Byte :=
  match fval .f32 x.toNat with
  | .nan q => (FTy.nan .f32, nvOf (.nan q))
  | .inf neg => if neg then (FTy.nan .f32, fNV) else (x.toNat, 0)
  | .fin neg man exp =>
    if man = 0 then (x.toNat, 0)
    else if neg then (FTy.nan .f32, fNV)
    else
      let (m, e) := evenForm man exp 32
      let r := isqrt m
      let (b, f) := roundTo .f32 .rne 0 false (2 * r + (if r * r = m then 0 else 1)) (e - 1)
      (b, f)

/-- FRSQ (R144). -/
def fpRsq (x : Word) : Nat × Byte :=
  match fval .f32 x.toNat with
  | .nan q => (FTy.nan .f32, nvOf (.nan q))
  | .inf neg => if neg then (FTy.nan .f32, fNV) else (0, 0)
  | .fin neg man exp =>
    if man = 0 then (withSign .f32 neg (infBits .f32), fDZ)
    else if neg then (FTy.nan .f32, fNV)
    else if isPow2 man && ((man.log2 : Int) + exp) % 2 = 0 then
      roundTo .f32 .rne 0 false 1 (-(((man.log2 : Int) + exp) / 2))
    else
      let (m, e) := evenForm man exp 64
      let r := isqrt m
      if 0 ≤ e then pickUlp 1 x ⟨r, r + 1, r * (r + 1) * 2 ^ e.toNat⟩ 1
      else
        let num : Int := (2 ^ e.natAbs : Nat)
        pickUlp 1 x ⟨num * r, num * (r + 1), r * (r + 1)⟩ 1

/-- FEXP2 (R144). -/
def fpExp2 (x : Word) : Nat × Byte :=
  match fval .f32 x.toNat with
  | .nan q => (FTy.nan .f32, nvOf (.nan q))
  | .inf neg => if neg then (0, 0) else (infBits .f32, 0)
  | .fin neg man exp =>
    let (i, lost) := roundInt .rd neg man exp
    if !neg && 128 ≤ i then (infBits .f32, fOF ||| fNX)
    else if i < -150 then (0, fUF ||| fNX)
    else if !lost && -149 ≤ i then roundTo .f32 .rne 0 false 1 i
    else pickUlp 3 x (exp2Enc neg man exp) 2

/-- FLOG2 (R144). -/
def fpLog2 (x : Word) : Nat × Byte :=
  match fval .f32 x.toNat with
  | .nan q => (FTy.nan .f32, nvOf (.nan q))
  | .inf neg => if neg then (FTy.nan .f32, fNV) else (infBits .f32, 0)
  | .fin neg man exp =>
    if man = 0 then (withSign .f32 true (infBits .f32), fDZ)
    else if neg then (FTy.nan .f32, fNV)
    else
      let e : Int := (man.log2 : Int) + exp
      if isPow2 man then roundTo .f32 .rne 0 (decide (e < 0)) e.natAbs 0
      else if e = -1 ∨ e = 0 then pickAbs 4 x (log2Enc man exp) 1 (2 ^ 22)
      else pickUlp 4 x (log2Enc man exp) 2

/-- FSIN and FCOS (R144). -/
def fpTrig (cos : Bool) (x : Word) : Nat × Byte :=
  match fval .f32 x.toNat with
  | .nan q => (FTy.nan .f32, nvOf (.nan q))
  | .inf _ => (FTy.nan .f32, fNV)
  | .fin neg man exp =>
    if man = 0 ∨ (man.log2 : Int) + exp < -12 then (if cos then 0x3F800000 else x.toNat, 0)
    else pickAbs (if cos then 6 else 5) x (trigEnc cos neg man exp) 1 (2 ^ 21)

end Sys2Proof.Machine
end

