-- ==== Sys2Proof/Machine/Ops.lean ====
section
/-! DEFINITION. The named operations over the state that every meaning uses: reading and writing groups, cores and the rest,
sending messages, engine batches, trap entry and return, aborting and killing, and the logs. -/

namespace Sys2Proof.Machine

/-! ## Access to the parts of the state -/

def grp (s : State) (gid : Nat) : Group := (mget s.groups gid).getD {}
def setGrp (s : State) (gid : Nat) (g : Group) : State := { s with groups := mput s.groups gid g }
/-- Change a group that exists. -/
def modGrp (s : State) (gid : Nat) (f : Group → Group) : State :=
  match mget s.groups gid with
  | some g => setGrp s gid (f g)
  | none => s
def team (s : State) (t : Nat) : Team := (mget s.teams t).getD {}
def modTeam (s : State) (t : Nat) (f : Team → Team) : State :=
  match mget s.teams t with
  | some x => { s with teams := mput s.teams t (f x) }
  | none => s
def grid (s : State) (g : Nat) : Grid := (mget s.grids g).getD {}
def modGrid (s : State) (g : Nat) (f : Grid → Grid) : State :=
  match mget s.grids g with
  | some x => { s with grids := mput s.grids g (f x) }
  | none => s
def core (s : State) (c : Nat) : Core := (mget s.cores c).getD {}
def modCore (s : State) (c : Nat) (f : Core → Core) : State := { s with cores := mput s.cores c (f (core s c)) }
def die (s : State) (d : Nat) : Die := (mget s.dies d).getD {}
def modDie (s : State) (d : Nat) (f : Die → Die) : State := { s with dies := mput s.dies d (f (die s d)) }
/-- A team or a group wherever it is: resident, or in a saved context. -/
def teamAny (s : State) (t : Nat) : Team :=
  ((mget s.teams t).or (s.saved.findSome? fun x => x.cores.findSome? fun c => mget c.teams t)).getD {}
def grpAny (s : State) (gid : Nat) : Group :=
  ((mget s.groups gid).or (s.saved.findSome? fun x => x.cores.findSome? fun c => mget c.groups gid)).getD {}
def part (s : State) (p : Nat) : Part := (mget s.parts p).getD {}
def modPart (s : State) (p : Nat) (f : Part → Part) : State := { s with parts := mput s.parts p (f (part s p)) }
def slotOf (c : Core) (i : Nat) : Slot := (mget c.slots i).getD {}
def modSlot (s : State) (c i : Nat) (f : Slot → Slot) : State :=
  modCore s c fun k => { k with slots := mput k.slots i (f (slotOf k i)) }
def fe (s : State) (i : Nat) : Fe := (mget s.fes i).getD {}
def modFe (s : State) (i : Nat) (f : Fe → Fe) : State := { s with fes := mput s.fes i (f (fe s i)) }
def modOp (s : State) (id : Nat) (f : Op → Op) : State :=
  match mget s.ops id with
  | some o => { s with ops := mput s.ops id (f o) }
  | none => s
def modCopy (s : State) (id : Nat) (f : Copy → Copy) : State :=
  match mget s.copies id with
  | some o => { s with copies := mput s.copies id (f o) }
  | none => s
def modColl (s : State) (id : Nat) (f : Coll → Coll) : State :=
  match mget s.colls id with
  | some o => { s with colls := mput s.colls id (f o) }
  | none => s
/-- A number not used before. -/
def freshId (s : State) : State × Nat := ({ s with nextId := s.nextId + 1 }, s.nextId)

/-- The die of a core (R2). -/
def dieOf (c : Nat) : Nat := c / 24
/-- The grid, partition and context of a group (R15). -/
def gridOf (s : State) (g : Group) : Grid := grid s (team s g.team).grid
def gidOf (s : State) (g : Group) : Nat := (team s g.team).grid
/-- The dies of a partition, ascending (R40, R369). -/
def partDies (p : Part) : List Nat := (List.range 24).filter fun d => p.dies.getLsbD d
/-- The index of a die in its partition (R110 PART). -/
def dieIndex (p : Part) (d : Nat) : Nat := ((List.range d).filter fun e => p.dies.getLsbD e).length

/-! ## Groups: counters, registers, classes -/

/-- Counter of lane l (R83). -/
def ctr (g : Group) (l : Nat) : Byte := cget 0 g.c l
/-- Lane l is active (R83). -/
def isActive (g : Group) (l : Nat) : Bool := ctr g l = 0
/-- Lane l is retired (R83). -/
def isRetired (g : Group) (l : Nat) : Bool := ctr g l = 255
/-- The active mask (R83, R110 ACTIVE). -/
def activeMask (g : Group) : Word := maskOf (isActive g)
/-- The retired lanes (R110 RETIRED). -/
def retiredMask (g : Group) : Word := maskOf (isRetired g)
/-- The active lanes, ascending (R13). -/
def activeLanes (g : Group) : List Nat := allLanes.filter (isActive g)
/-- The lanes a re-issued memory word acts on (R169): active(g) ∩ U. -/
def workLanes (g : Group) : List Nat :=
  (activeLanes g).filter fun l => match g.u with
    | some u => inMask u l
    | none => true
/-- Apply f to every counter (R83). -/
def mapCtr (f : Nat → Byte → Byte) (c : Cells Byte) : Cells Byte :=
  allLanes.foldl (fun m l => cput 0 m l (f l (cget 0 c l))) c
/-- Change both copies of the counters alike (R350). -/
def setCtr (g : Group) (f : Nat → Byte → Byte) : Group := { g with c := mapCtr f g.c, dup := mapCtr f g.dup }
/-- Lane register r of lane l (R104). -/
def vget (g : Group) (r l : Nat) : Word := cget 0 g.v (32 * r + l)
/-- Lane register r of lane l written; a write of the whole word clears a failed check (R347). -/
def vput (g : Group) (r l : Nat) (x : Word) : Group :=
  { g with v := cput 0 g.v (32 * r + l) x, vBad := g.vBad.filter (· != 32 * r + l) }
/-- k register n (R104). -/
def kget (g : Group) (n : Nat) : DWord := cget 0 g.k n
/-- k register n written (R104). -/
def kput (g : Group) (n : Nat) (x : DWord) : Group := { g with k := cput 0 g.k n x }
/-- A U result enters y2 (R31). -/
def pushU (y : Latches) (x : DWord) : Latches := { y with y2 := some x, y3 := y.y2 }
/-- A V result enters y0 (R31). -/
def pushV (y : Latches) (x : Cells Word) : Latches := { y with y0 := some x, y1 := y.y0 }
/-- Handle n (R235). -/
def hget (g : Group) (n : Nat) : Handle := (mget g.h n).getD {}
/-- Window n (R162). -/
def xwget (g : Group) (n : Nat) : Window := (mget g.xw n).getD {}
/-- Class c of a group (R184). -/
def clsOf (g : Group) (c : EngineClass) : Class := (mget g.cls c.code).getD {}
def setCls (g : Group) (c : EngineClass) (x : Class) : Group := { g with cls := mput g.cls c.code x }
/-- The group's slot position: slot × 16 + position (R236). -/
def slotPos (g : Group) : Nat := g.slot * 16 + g.position
/-- A group becomes ready (R29). -/
def makeReady (s : State) (g : Group) : Group := { g with status := .ready, readyAt := s.cycle, passed := 0 }

/-! ## Positions and EINFO (R110, R342) -/

/-- EPC's layout (R110). -/
def posWord (p : Pos) : DWord := BitVec.ofNat 64 (p.pkt * 4 + p.word)
/-- A position from EPC's layout (R110). -/
def wordPos (x : DWord) : Pos := ⟨x.toNat / 4 % 2 ^ 32, x.toNat % 4⟩
/-- EINFO layout A (R342). -/
def einfoA (addr : Nat) (isVa sec : Bool) (word lane : Nat) : DWord :=
  BitVec.ofNat 64 (addr % 2 ^ 48 * 2 ^ 16 + boolBit isVa * 2 ^ 15 + boolBit sec * 2 ^ 14 + word * 2 ^ 5 + lane)
/-- EINFO layout B (R342). -/
def einfoB (value : Nat) (cls aux word : Nat) : DWord :=
  BitVec.ofNat 64 (value % 2 ^ 32 * 2 ^ 32 + cls * 2 ^ 16 + aux * 2 ^ 8 + word * 2 ^ 5)

/-! ## Logs (R344) -/

/-- A record of 64 bytes (R344). -/
def logRecord (code cls ctx time grid team loc epc addr aux : Nat) : BitVec 512 :=
  BitVec.ofNat 512 (code + cls * 2 ^ 8 + ctx * 2 ^ 32 + time % 2 ^ 64 * 2 ^ 64 + grid * 2 ^ 128 + team * 2 ^ 160
    + loc * 2 ^ 192 + epc * 2 ^ 256 + addr * 2 ^ 320 + aux * 2 ^ 384)
/-- Hand a record to a partition's error log or fault log; it is written by LOG_RECORD_WRITE, and the status of a grid whose
record it is waits for it. -/
def pushRecord (s : State) (p : Nat) (errorLog : Bool) (r : BitVec 512) (waits : Option Nat) : State :=
  let s := match waits with
    | some g => modGrid s g fun x => { x with logHeld := true }
    | none => s
  modPart s p fun x =>
    if errorLog then { x with eheld := x.eheld ++ [(r, waits)] } else { x with fheld := x.fheld ++ [(r, waits)] }
/-- TEAM of a record (R344). -/
def teamField (t : Team) : Nat := if t.node.isSome then 0xFFFFFFFF else t.index
/-- The attempt number of a team's gang (R344 LOC, R353). -/
def attemptOf (gr : Grid) (t : Team) : Nat := ((mget gr.recs (t.index / gr.gang)).getD {}).attempt
/-- LOC of a record (R344). -/
def locField (s : State) (g : Group) : Nat :=
  let t := teamAny s g.team
  g.core + slotPos g * 2 ^ 16 + (if t.node.isSome then 1 else attemptOf (grid s t.grid) t) * 2 ^ 24
/-- A record about a group (R344). -/
def groupRecord (s : State) (g : Group) (code cls : Nat) (epc addr aux : Nat) : BitVec 512 :=
  let t := teamAny s g.team
  let gr := grid s t.grid
  logRecord code cls gr.ctx s.time gr.handle (teamField t) (locField s g) epc addr aux
/-- A fault notice about a group's translation (R344, R345). -/
def pushNotice (s : State) (p ctx : Nat) (g? : Option Group) (va entry source : Nat) (write : Bool) : State :=
  let (gr, tm, loc, epc) := match g? with
    | some g => ((gridOf s g).handle, teamField (team s g.team), locField s g, (posWord g.pc).toNat)
    | none => (0, 0xFFFFFFFF, 0, 0)
  pushRecord s p false
    (logRecord 0x1D 0 ctx s.time gr tm loc epc va (entry + source * 2 ^ 56 + boolBit write * 2 ^ 60)) none

/-! ## Stopping groups, aborting grids, killing gangs (R96, R343, R351, R353) -/

/-- A parked tour lane is dropped; the others keep running (R351). -/
def dropParked (t : TourSlot) : TourSlot × Nat :=
  let n := (t.lanes.filter fun x => x.2.st = .parked).length
  ({ t with lanes := t.lanes.map fun x => if x.2.st = .parked then (x.1, { x.2 with st := .ended }) else x }, n)
/-- Complete n parts of an operation (R187). -/
def opParts (s : State) (id n : Nat) : State := modOp s id fun o => { o with parts := o.parts - n }
/-- A group stops at its boundary: it takes no further issue group and its engine commands go on without register writes. A kill
drops its parked tour lanes (R351); after a fault an issued TOUR completes (R317). -/
def stopGroup (drop : Bool) (s : State) (gid : Nat) : State :=
  match mget s.groups gid with
  | none => s
  | some g =>
    let s := if drop then g.tours.foldl (fun s t => opParts s t.2.op (dropParked t.2).2) s else s
    let s := { s with
      ops := mmap s.ops fun _ o => if o.gid = gid then { o with discard := true } else o
      walks := s.walks.filter fun w => !(g.walksOut.contains w.1) }
    let s := modSlot s g.core g.slot fun x => if x.holder = some gid then { x with holder := none, coll := none } else x
    let ended : Bool := match g.status with
      | .ended => true
      | _ => false
    setGrp s gid { g with
      status := if ended then .ended else .waiting .drain
      u := none, uEmit := none, y := {}, walksOut := [], heldWalks := [], hold := [], stalled := false, woken := false, also := none
      tours := if drop then mmap g.tours fun _ t => (dropParked t).1 else g.tours }
/-- A saved group that a kill stops: it comes back only to end (R351, R357). -/
def stoppedSaved (g : Group) : Group :=
  { g with status := .waiting .drain, u := none, uEmit := none, hold := [], also := none, tours := mmap g.tours fun _ t => (dropParked t).1 }
/-- A kill stops the groups of its gang that lie in a saved context (R351, R357). -/
def stopSavedGang (s : State) (gr gang size : Nat) : State :=
  let mine (t : Team) : Bool := t.grid = gr && t.node.isNone && t.index / size = gang
  let hit (c : SavedCore) (g : Group) : Bool := ((mget c.teams g.team).map mine).getD false
  let gs := s.saved.flatMap fun x => x.cores.flatMap fun c => c.groups.filter fun g => hit c g.2
  let s := gs.foldl (fun s g => g.2.tours.foldl (fun s t => opParts s t.2.op (dropParked t.2).2) s) s
  { s with
    ops := mmap s.ops fun _ o => if gs.any fun g => g.1 = o.gid then { o with discard := true } else o
    saved := s.saved.map fun x => { x with cores := x.cores.map fun c =>
      { c with groups := mmap c.groups fun _ g => if hit c g then stoppedSaved g else g } } }
/-- The groups of a team. -/
def teamGroups (s : State) (t : Nat) : List Nat := (team s t).groups
/-- The live teams of a grid. -/
def gridTeams (s : State) (gr : Nat) : List Nat := (s.teams.filter fun x => x.2.grid = gr).map (·.1)
/-- A code by which a kill aborts a grid (R341, R351, R353, R354). -/
def killCode (code : Byte) : Bool := code = 0x40 || code = 0x41 || code = 0x42 || code = 0x46
/-- Abort a grid: its groups stop, unstarted teams never start, buffered records are discarded (R340, R344, R41, R44). A kill in a
grid that is being aborted writes its record too (R357). -/
def abortGrid (s : State) (gr : Nat) (code : Byte) (record : BitVec 512) : State :=
  match (grid s gr).ending with
  | .refused _ => s
  | .aborting _ => if killCode code then pushRecord s (grid s gr).part true record (some gr) else s
  | .running =>
    let s := pushRecord s (grid s gr).part true record (some gr)
    let s := modGrid s gr fun x => { x with ending := .aborting code, chunks := [], cursor := x.x * x.y * x.z }
    let s := { s with dies := mmap s.dies fun _ d => { d with gather := d.gather.filter fun b => b.grid != gr } }
    (gridTeams s gr).foldl (fun s t => (teamGroups s t).foldl (stopGroup (killCode code)) s) s

/-- Kill the gang of a group (R351, R353, R354): check is the check of R354 and memSide says that a poisoned word lay in
memory. A node group's grid, and a grid that is not relaunchable, is aborted with the code; the fourth kill aborts it with
relaunch-limit; a second consumption of one memory-side word aborts it. A gang that is killed and drains is not killed again; a
kill with the code and check of the last one, on its core or after that kill removed its core, is lasting (R357). Groups of the
gang that lie in a saved context stop there. EPC of its records is the position of the issue group, and ADDR the address of a poisoned
word; 0x40 and 0x41 have no EINFO (R341) and the model gives them 0 there (assumption 47). -/
def killGang (s : State) (gid : Nat) (code : Byte) (check : Nat) (memSide : Bool) : State :=
  let g := grpAny s gid
  let t := teamAny s g.team
  let gr := grid s t.grid
  let at_ := if s.issue.gid = gid then s.issue.pos else g.pc
  let addr := if code = 0x42 then check else 0
  let record (cls : Nat) : BitVec 512 := groupRecord s g code.toNat cls (posWord at_).toNat addr 0
  let abort (c : Byte) : State :=
    abortGrid s t.grid c (groupRecord s g c.toNat 1 (posWord at_).toNat addr 0)
  let n := t.index / gr.gang
  let rec_ := (mget gr.recs n).getD {}
  let ends : Bool := match gr.ending with
    | .running => false
    | _ => true
  if t.node.isSome then (if ends then s else abort code)
  else if rec_.draining then s
  else if ends || !gr.relaunch then
    modGrid (abort code) t.grid fun x => { x with recs := mput x.recs n { rec_ with draining := true } }
  else
    let again : Bool := match rec_.last with
      | some (c, k, _, m) => c = code && k = check && m && memSide
      | none => false
    let lasting : Bool := match rec_.last with
      | some (c, k, core, _) => c = code && k = check && (core = g.core || rec_.took)
      | none => false
    let lost (s : State) : State :=
      if lasting then
        let s := pushRecord s gr.part true (record 4) (some t.grid)
        pushRecord { s with removed := insertNat s.removed g.core } gr.part true (record 5) (some t.grid)
      else s
    if again then abort 0x42
    else if 4 ≤ rec_.attempt then
      abortGrid (lost s) t.grid 0x46 (groupRecord s g 0x46 1 (posWord at_).toNat addr 0)
    else
      let s := lost (pushRecord s gr.part true (record 2) (some t.grid))
      let s := modGrid s t.grid fun x => { x with recs := mput x.recs n { rec_ with
        attempt := rec_.attempt + 1, last := some (code, check, g.core, memSide), took := lasting
        kills := rec_.kills ++ [record 2], draining := true } }
      let s := ((gridTeams s t.grid).filter fun k => (team s k).index / gr.gang = n && (team s k).node.isNone).foldl
        (fun s k => (teamGroups s k).foldl (stopGroup true) s) s
      stopSavedGang s t.grid n gr.gang

/-! ## Trap entry and return (R100, R101) -/

/-- Trap entry on a group: what is saved, what the counters, the level and the PC become (R100). Latches and collector are
emptied at the run end that follows (R32). -/
def Group.enterTrap (g : Group) (code : Byte) (info : DWord) (rp : Pos) (entry : Nat) : Group :=
  { setCtr g (fun _ x => if x = 255 then 255 else 0) with
    trap := { lvl := true, epc := rp, ecause := code, einfo := info, emask := activeMask g, c := g.c,
              depth := g.calls.length }
    pc := ⟨entry, 0⟩, u := none, uEmit := none, hold := [], heldWalks := [], stalled := false, woken := false }

/-- Return from the handler on a group, after the checks of R101. -/
def Group.leaveTrap (g : Group) : Group :=
  { setCtr g (fun l x => if x = 255 then 255 else cget 0 g.trap.c l) with trap := { g.trap with lvl := false } }

/-- A fault whose route is the trap, raised by the word that is being issued, at a stage of R50. rp is the position EPC
takes: the issue group for a fault, what follows it for TRAP (R100). At trap level 1 it is a double fault (R343, R359);
with no trap entry the grid is aborted (R100); a counter mismatch at the entry kills the gang (R350). A poisoned word that the word
has consumed before stays consumed: its kill stands beside the fault (R347, R357). -/
def raiseAt (s : State) (stage : Nat) (code : Byte) (info : DWord) (rp : Pos) : State :=
  let g := s.issue.pre
  let gr := gridOf s g
  let s := { s with issue := { s.issue with cur := g, verdict := .faulted stage s.issue.word, endRun := true, target := none,
                                            kill := s.issue.kill.filter fun k => k.code = 0x42, events := [], sgReset := false } }
  let here := (posWord s.issue.pos).toNat
  if g.trap.lvl then
    abortGrid s (gidOf s g) 0x43
      (groupRecord s g 0x43 1 here info.toNat (g.trap.ecause.toNat + code.toNat * 2 ^ 8))
  else
    match gr.trap with
    | none => abortGrid s (gidOf s g) 0x44 (groupRecord s g 0x44 1 here info.toNat 0)
    | some entry =>
      if g.c ≠ g.dup then { s with issue := { s.issue with kill := s.issue.kill.or (some ⟨0x41, s.issue.pos.pkt, false⟩) } }
      else { s with issue := { s.issue with cur := g.enterTrap code info rp entry } }
/-- A fault at the issue group itself (R27). -/
def raise (s : State) (stage : Nat) (code : Byte) (info : DWord) : State := raiseAt s stage code info s.issue.pos
/-- A fault with EINFO layout B (R342). -/
def raiseB (s : State) (stage : Nat) (code : Byte) (value : Nat) : State :=
  raise s stage code (einfoB value 0 0 s.issue.word)
/-- A fault of a lane access, EINFO layout A (R342). -/
def raiseA (s : State) (code : Byte) (addr : Nat) (isVa sec : Bool) (lane : Nat) : State :=
  raise s 6 code (einfoA addr isVa sec s.issue.word lane)
/-- A phaser fault: AUX holds the handle (R342). -/
def raisePh (s : State) (code : Byte) (value h : Nat) : State :=
  raise s 6 code (einfoB value 0 h s.issue.word)

/-- The issue group is held at issue by a resource outside the slot: no word takes effect (R28). The holding register and
the walks it started are kept. -/
def stall (s : State) : State :=
  { s with issue := { s.issue with
      cur := { s.issue.pre with hold := s.issue.cur.hold, heldWalks := s.issue.cur.heldWalks,
                                walksOut := s.issue.cur.walksOut, h := s.issue.cur.h }
      verdict := .stalled } }

/-- A poisoned word is consumed by the word that is being issued: its gang is killed after what the issue group does (R347).
check is the word's physical address, 0 for a register; memSide says that it lay in memory-side storage (R354). -/
def poisonKill (s : State) (check : Nat) (memSide : Bool) : State :=
  match s.issue.kill with
  | some _ => s
  | none => { s with issue := { s.issue with kill := some ⟨0x42, check, memSide⟩ } }

/-- The group's own state, changed by the word that is being issued (R17). -/
def modCur (s : State) (f : Group → Group) : State := { s with issue := { s.issue with cur := f s.issue.cur } }
/-- Change a group wherever it stands: in the list of groups, and as the issue in progress leaves it. -/
def modG (s : State) (gid : Nat) (f : Group → Group) : State :=
  let s := modGrp s gid f
  if s.issue.gid = gid then modCur s f else s
/-- A word of the memory fault class: the latches are emptied after every source is read, and the V and U results of the
same issue group stand in them (R32, R74). -/
def memClass (s : State) : State :=
  let y := s.issue.cur.y
  { s with issue := { s.issue with memWord := true, cur := { s.issue.cur with
      y := { y0 := if s.issue.vDone then y.y0 else none, y2 := if s.issue.uDone then y.y2 else none } } } }

/-! ## Operations of the engine classes (R184, R187) -/

/-- An operation joins the open batch of its class (R184). -/
def newOp (s : State) (o : Op) : State × Nat :=
  let (s, id) := freshId s
  ({ s with ops := mput s.ops id o }, id)
/-- The number of the batch that holds an operation, or that it will have (R184). -/
def opBatch (s : State) (o : Op) : Byte :=
  match o.batch with
  | some b => b
  | none => (clsOf (grp s o.gid) o.cls).next
/-- An operation completes in error: flag, EB and cause of its class, kept until the flag is cleared (R184). -/
def opError (s : State) (id : Nat) (cause : Byte) : State :=
  match mget s.ops id with
  | none => s
  | some o =>
    let b := opBatch s o
    modG s o.gid fun g =>
      let c := clsOf g o.cls
      if c.err then g else setCls g o.cls { c with err := true, eb := b, cause := cause }
/-- CLOSE of a class of a group: its open batch becomes closed batch NEXT (R184). -/
def closeBatch (s : State) (gid : Nat) (g : Group) (c : EngineClass) : State × Group :=
  let x := clsOf g c
  ({ s with ops := mmap s.ops fun _ o => if o.gid = gid && o.cls = c && o.batch.isNone then { o with batch := some x.next } else o },
   setCls g c { x with next := x.next + 1, count := x.count + 1 })
/-- The oldest closed batch of a class (R184). -/
def oldestBatch (x : Class) : Byte := x.next - BitVec.ofNat 8 x.count
/-- The oldest closed batch is complete: all its operations have completed (R184). -/
def batchReady (s : State) (gid : Nat) (c : EngineClass) : Bool :=
  let x := clsOf (grp s gid) c
  x.count != 0 && s.ops.all fun o =>
    !(o.2.gid = gid && o.2.cls = c && o.2.batch = some (oldestBatch x)) || o.2.parts = 0
/-- Batch n of a class is complete (R185): n lies more than the outstanding count behind NEXT, or is not yet closed. -/
def batchDone (x : Class) (n : Byte) : Bool :=
  let back := (x.next - 1 - n).toNat
  !(back < 128) || x.count ≤ back

/-- A party's walks and retries are over. -/
def dropWalks (s : State) (who : Party) : State := { s with walks := s.walks.filter fun w => w.2.who != who }

/-! ## Messages (R157, R217, R366) -/

/-- The die in which a message is performed. -/
def homeDie : Home → Option Nat
  | .slice d _ => some d
  | .core c => some (dieOf c)
  | .die d => some d
  | .port _ => none
  | .host _ => none
/-- The boundary between two adjacent dies (R385). -/
def boundary (a b : Nat) : Nat :=
  let lo := min a b
  if a / 6 = b / 6 then 5 * (lo / 6) + lo % 6 else 20 + 6 * (lo / 6) + lo % 6
/-- The dies after a along a row to column c (R366). -/
def alongRow : Nat → Nat → Nat → List Nat
  | 0, _, _ => []
  | n + 1, a, c =>
    if a % 6 = c then [] else
      let b := if a % 6 < c then a + 1 else a - 1
      b :: alongRow n b c
/-- The dies after a along a column to row r (R366). -/
def alongCol : Nat → Nat → Nat → List Nat
  | 0, _, _ => []
  | n + 1, a, r =>
    if a / 6 = r then [] else
      let b := if a / 6 < r then a + 6 else a - 6
      b :: alongCol n b r
/-- The boundaries a path from a crosses. -/
def pathBounds : Nat → List Nat → List Nat
  | _, [] => []
  | a, b :: t => boundary a b :: pathBounds b t
/-- The fixed route from die a to die b: row first, or column first where the first crosses a dead boundary (R366). None
when both orders are dead. -/
def route (dead : List Nat) (a b : Nat) : Option (List Nat) :=
  let p := let r := alongRow 6 a (b % 6); r ++ alongCol 6 (r.getLastD a) (b / 6)
  let q := let c := alongCol 6 a (b / 6); c ++ alongRow 6 (c.getLastD a) (b % 6)
  if (pathBounds a p).all fun x => !dead.contains x then some p
  else if (pathBounds a q).all fun x => !dead.contains x then some q
  else none

/-- The die that a port stands for in paths: 100 and more (R367). -/
def portDie (p : Nat) : Nat := 100 + p
/-- The dies and ports that a message from a die has to enter (R366, R367). -/
def hopsFor (dead : List Nat) (srcDie : Nat) (home : Home) : List Nat :=
  match home with
  | .port p => [portDie p]
  | .host _ => []
  | .slice d _ | .die d => if 100 ≤ srcDie then [d] else (route dead srcDie d).getD []
  | .core c => if 100 ≤ srcDie then [dieOf c] else (route dead srcDie (dieOf c)).getD []
/-- Module m of boundary b in a direction, port p and uplink u in a direction (R360, R367, R368). -/
def moduleKey (b dir m : Nat) : Nat := 96 * (2 * b + dir) + m
def portKey (p dir : Nat) : Nat := 7296 + 2 * p + dir
def uplinkKey (u dir : Nat) : Nat := 7360 + 2 * u + dir
def link (s : State) (l : Nat) : Link := (mget s.links l).getD {}
def modLink (s : State) (l : Nat) (f : Link → Link) : State := { s with links := mput s.links l (f (link s l)) }

/-- A message that is a home-bound write (R214). -/
def isHomeBound : Body → Bool
  | .write _ _ _ => true
  | .atomic _ _ _ _ => true
  | .marker _ => true
  | _ => false
/-- A write to a core array (R181). -/
def isScratchWrite : Body → Bool
  | .swrite _ _ _ | .atoms _ _ _ _ => true
  | _ => false
/-- A message is a write of a group: its own, or a write-back that carries its stores (R214). -/
def Msg.isOf (m : Msg) (gid : Nat) : Bool := m.gid = some gid || m.also.contains gid
/-- The writes of a group that a release waits for and that are not yet performed, messages and releases by number: its
home-bound writes, and its STS and ATOMS (R214, R217). -/
def homeBound (s : State) (gid : Nat) : List Nat :=
  (s.net.filter fun m => m.isOf gid && (isScratchWrite m.body || isHomeBound m.body) &&
      (match m.body with | .marker _ => false | _ => true)).map (·.id)
    ++ (s.rels.filter fun r => r.2.gid = gid).map (·.1)
/-- The engine writes of a group that are under way: a CPYS's, a COLL's, and a TOUR.add's packets, which keep their number from hop to
hop (R214). -/
def engineBound (s : State) (gid : Nat) : List Nat :=
  (s.net.filter fun m => match m.body with
    | .engine c _ _ => ((mget s.copies c).map (·.gid)) = some gid
    | .collData id _ _ _ _ => ((mget s.colls id).map (·.gid)) = some gid
    | .tour g slot _ _ _ _ => g = gid && ((mget (grp s g).tours slot).map (·.add)).getD false
    | _ => false).map (·.id)
/-- Every write of a group that is under way, engine writes included (R214, R223 .ar, R310). -/
def allBound (s : State) (gid : Nat) : List Nat := homeBound s gid ++ engineBound s gid
/-- Write number n has been performed. -/
def performed (s : State) (n : Nat) : Bool := !(s.net.any fun m => m.id = n) && (mget s.rels n).isNone

/-- Send a message from a core (die engines send as core 31 of their die); it takes the route of R366. -/
def sendFrom (s : State) (srcDie srcCore : Nat) (gid : Option Nat) (home : Home) (body : Body) : State :=
  let (s, id) := freshId s
  let hops := hopsFor s.deadBoundaries srcDie home
  let after := match gid with
    | some g => if isHomeBound body then
        (if s.issue.gid = g then s.issue.cur.fenceAfter else (grp s g).fenceAfter).filter fun n => !performed s n else []
    | none => []
  { s with net := s.net ++ [{ id := id, srcDie := srcDie, srcCore := srcCore, home := home, gid := gid, hops := hops,
                              at_ := srcDie, came := id, after := after, sentAt := s.time, body := body }] }
/-- Send from a package core. -/
def send (s : State) (c : Nat) (gid : Option Nat) (home : Home) (body : Body) : State :=
  sendFrom s (dieOf c) (c % 24) gid home body
/-- The message of a number. -/
def netGet (s : State) (id : Nat) : Option Msg := s.net.find? fun m => m.id = id
def netDel (s : State) (id : Nat) : State := { s with net := s.net.filter fun m => m.id != id }
def netMod (s : State) (id : Nat) (f : Msg → Msg) : State :=
  { s with net := s.net.map fun m => if m.id = id then f m else m }
/-- The requests that a core sends to a home; answers and reports are no requests (R157). -/
def isRequest : Body → Bool
  | .read _ _ _ | .write _ _ _ | .atomic _ _ _ _ | .atoms _ _ _ _ | .sread _ _ _ _ | .swrite _ _ _ | .marker _
  | .engine _ _ _ | .tour _ _ _ _ _ _ | .collData _ _ _ _ _ => true
  | _ => false
/-- The memory line that a request touches. -/
def bodyLine : Body → Option Nat
  | .read line _ _ => some line
  | .write bytes _ _ => bytes.head?.map fun x => x.1 / 128
  | .engine _ bytes _ => bytes.head?.map fun x => x.1 / 128
  | .atomic _ _ _ ls => ls.head?.map fun l => l.pa / 128
  | .tour _ _ _ _ pa _ => some (pa / 128)
  | _ => none
/-- Whether two messages must arrive in the order sent (R157, R181, R365): requests of one core to one home; within a
core's own array only those of one group. What a die's engines send, as core 31, is no core's request. -/
def samePath (a b : Msg) : Bool :=
  a.srcCore != 31 && isRequest a.body && isRequest b.body && a.srcDie = b.srcDie && a.srcCore = b.srcCore && a.home = b.home
    && (a.home != .core (24 * a.srcDie + a.srcCore) || a.gid = b.gid)
/-- A release of the same core on the same line, sent before, holds its update at the home (R168). -/
def behindRelease (s : State) (m : Msg) : Bool :=
  (bodyLine m.body).isSome && s.rels.any fun r =>
    decide (r.1 < m.id) && r.2.srcDie = m.srcDie && r.2.srcCore = m.srcCore && bodyLine r.2.body = bodyLine m.body
/-- A message has arrived and may be performed: it has entered its last die, none sent before it on its path is left, and
the writes it must follow have been performed (R157, R223). -/
def arrived (s : State) (m : Msg) : Bool :=
  m.hops.isEmpty && !m.onLink
    && (s.net.takeWhile fun x => x.id != m.id).all (fun x => !samePath x m)
    && m.after.all (performed s) && !behindRelease s m
/-- A message without a path, or for a port that is down, completes in error (R366, R367). -/
def unreachable (s : State) (m : Msg) : Bool :=
  match m.home, homeDie m.home with
  | .port p, _ => !m.hops.isEmpty && !m.onLink && (link s (portKey p 0)).st = .disabled
  | _, some d => m.at_ != d && m.hops.isEmpty && (route s.deadBoundaries m.at_ d).isNone
  | _, none => false

/-- A release by a group forms its marker: pend are the counted writes; body is the update its home holds (R217). The
marker's number is the release's. -/
def release (s : State) (c gid : Nat) (home : Home) (body : Body) (pend : List Nat) : State :=
  let n := s.nextId
  let s := send s c (some gid) home (.marker n)
  { s with
    net := s.net.map fun m => if pend.contains m.id then { m with counted := addOnce m.counted n } else m
    rels := mput (mmap s.rels fun k r => if pend.contains k then { r with counted := addOnce r.counted n } else r) n
      { gid := gid, pending := pend, body := body, home := home, srcDie := dieOf c, srcCore := c % 24 } }

/-- The reports of a performed write to the releases that count it (R217, R387). -/
def sendReports (s : State) (atDie : Nat) (n : Nat) (counted : List Nat) : State :=
  counted.foldl (fun s r => match mget s.rels r with
    | some x => sendFrom s atDie 31 none x.home (.report r n)
    | none => s) s

/-- Where an action at a home takes place: its die, the port for the fabric, the sender's die for the host. -/
def placeOf (h : Home) (srcDie : Nat) : Nat :=
  match h with
  | .port p => portDie p
  | _ => (homeDie h).getD srcDie

/-! ## Taking a free value -/

/-- A free choice of the hardware (assumption 5): the counter moves on. -/
def freeBit (s : State) : State × Bool := ({ s with fresh := s.fresh + 1 }, Config.freeBit s.fresh)

end Sys2Proof.Machine
end

