-- ==== Sys2Proof/Machine/Flags.lean ====
section
/-! DEFINITION. STATUS: which flags an instruction sets (R111, R126). Instructions only set flags; only KSET clears them. -/

namespace Sys2Proof.Machine

/-- OR flags into STATUS (R111, R126). -/
def setFlags (s : State) (f : Byte) : State := modCur s fun g => { g with status8 := g.status8 ||| f }

/-- The flags of the active lanes (R126). -/
def flagsOf (lanes : List Nat) (f : Nat → Byte) : Byte := lanes.foldl (fun x l => x ||| f l) 0

/-- The saturation flag of a clamped integer (R126, R135, R147). -/
def satIf (b : Bool) : Byte := if b then fSAT else 0

/-- x held within lo to hi, and whether that changed it (R135 clamp). -/
def clampInt (x lo hi : Int) : Int × Bool :=
  if x < lo then (lo, true) else if hi < x then (hi, true) else (x, false)

/-- FP32 to integer (R146): rounded in the mode, clamped to lo..hi; the value and the flags. -/
def toInt (mode : RMode) (lo hi : Int) (x : Word) : Int × Byte :=
  match fval .f32 x.toNat with
  | .nan _ => (0, fNV ||| fSAT)
  | .inf neg => (if neg then lo else hi, fNV ||| fSAT)
  | .fin neg man exp =>
    let (i, lost) := roundInt mode neg man exp
    let (y, sat) := clampInt i lo hi
    (y, if sat then fNV ||| fSAT else if lost then fNX else 0)

/-- FCMP: the result and NV (R143). -/
def fcmpFlags (cc : FCc) (a b : Word) : Bool × Byte :=
  let x := fval .f32 a.toNat
  let y := fval .f32 b.toNat
  let nan := x.isNan || y.isNan
  let sig := nvOf x ||| nvOf y
  let c := fcompare x y
  match cc with
  | .eq => (!nan && decide (c = 0), sig)
  | .ne => (nan || decide (c ≠ 0), sig)
  | .lt => (!nan && decide (c < 0), if nan then fNV else 0)
  | .le => (!nan && decide (c ≤ 0), if nan then fNV else 0)
  | .gt => (!nan && decide (0 < c), if nan then fNV else 0)
  | .ge => (!nan && decide (0 ≤ c), if nan then fNV else 0)
  | .ord => (!nan, sig)
  | .uno => (nan, sig)

end Sys2Proof.Machine
end

