-- ==== Sys2Proof/Machine/Operands.lean ====
section
/-! DEFINITION. Operand fields: what they read, the checks of R50 steps 3 and 4, and what they write (R23, R31, R33, R51, R52). -/

namespace Sys2Proof.Machine

/-- What a source operand gives lane l (R51). -/
def opv (g : Group) (o : Opnd) (l : Nat) : Word :=
  match o with
  | .v n => vget g (g.ixb + n.val) l
  | .k n => (kget g n.val).truncate 32
  | .y n =>
    match n.val with
    | 0 => cget 0 (g.y.y0.getD []) l
    | 1 => cget 0 (g.y.y1.getD []) l
    | 2 => (g.y.y2.getD 0).truncate 32
    | _ => (g.y.y3.getD 0).truncate 32
  | .zero => 0
  | .lit x => x
  | .lane => BitVec.ofNat 32 l
  | .tid => BitVec.ofNat 32 (32 * g.num + l)

/-- The lane register a source names, after ixb (R23). -/
def opndRegs (g : Group) : Opnd → List Nat
  | .v n => [g.ixb + n.val]
  | _ => []
/-- The lane register a destination names, after ixb (R23). -/
def dstRegs (g : Group) : Dst → List Nat
  | .v n => [g.ixb + n.val]
  | .discard => []
/-- The latch a source names is empty: its operand value (R33). -/
def emptyLatch (y : Latches) : Opnd → List Nat
  | .y n =>
    let gone := match n.val with
      | 0 => y.y0.isNone
      | 1 => y.y1.isNone
      | 2 => y.y2.isNone
      | _ => y.y3.isNone
    if gone then [56 + n.val] else []
  | _ => []

/-- A source that an active lane reads fails its check (R347). -/
def badSrcs (g : Group) (srcs : List Opnd) : Bool :=
  srcs.any fun o => (opndRegs g o).any fun r => (activeLanes g).any fun l => g.vBad.contains (32 * r + l)
/-- R50 steps 3 and 4 for one word: the registers it names, of a run the last, then its latches; sources before the
destination (assumption 13). None when both pass, and the raised state otherwise. -/
def checkRegs (s : State) (regs : List Nat) (srcs : List Opnd) : Option State :=
  let g := s.issue.pre
  match regs.find? fun r => g.regs ≤ r with
  | some r => some (raiseB s 3 0x03 r)
  | none =>
    match (srcs.map (emptyLatch g.y)).flatten with
    | v :: _ => some (raiseB s 4 0x04 v)
    | [] => none
/-- The registers that sources and a destination name. -/
def namedRegs (g : Group) (srcs : List Opnd) (d : List Nat) : List Nat := (srcs.map (opndRegs g)).flatten ++ d

/-- R23 applies to the last register of a run (R62, R191, R253, R262). -/
def top (run : List Nat) : List Nat :=
  match run.getLast? with
  | some r => [r]
  | none => []

/-- Run a word whose operand checks pass; a source word that fails its check kills the gang after it (R347). -/
def withRegs (s : State) (regs : List Nat) (srcs : List Opnd) (k : State → State) : State :=
  match checkRegs s regs srcs with
  | some t => t
  | none => if badSrcs s.issue.pre srcs then poisonKill (k s) 0 false else k s

/-- The result of a V word: written to the destination in active lanes unless W = 1 or discarded; y0 takes the elements of
the active lanes and zeros elsewhere (R31, R52, R131). -/
def vresult (s : State) (d : VDst) (f : Nat → Word) : State :=
  let g := s.issue.pre
  let act := activeLanes g
  let y := cputAll 0 [] (act.map fun l => (l, f l))
  let put (c : Group) : Group :=
    match d.w, d.d with
    | false, .v n => act.foldl (fun c l => vput c (g.ixb + n.val) l (f l)) c
    | _, _ => c
  let s := modCur s fun c => let c := put c; { c with y := pushV c.y y }
  { s with issue := { s.issue with vDone := true } }

/-- A V word with any sources: f gives each lane its result, fl the flags of each active lane (R126, R131). -/
def vword (s : State) (d : VDst) (srcs : List Opnd) (f : Group → Nat → Word) (fl : Group → Nat → Byte) : State :=
  let g := s.issue.pre
  withRegs s (namedRegs g srcs (dstRegs g d.d)) srcs fun s =>
    setFlags (vresult s d (f g)) (flagsOf (activeLanes g) (fl g))

/-- One source. -/
def v1 (s : State) (d : VDst) (a : Opnd) (f : Word → Word × Byte) : State :=
  vword s d [a] (fun g l => (f (opv g a l)).1) (fun g l => (f (opv g a l)).2)
/-- Two sources. -/
def v2 (s : State) (d : VDst) (a b : Opnd) (f : Word → Word → Word × Byte) : State :=
  vword s d [a, b] (fun g l => (f (opv g a l) (opv g b l)).1) (fun g l => (f (opv g a l) (opv g b l)).2)
/-- Three sources. -/
def v3 (s : State) (d : VDst) (a b e : Opnd) (f : Word → Word → Word → Word × Byte) : State :=
  vword s d [a, b, e] (fun g l => (f (opv g a l) (opv g b l) (opv g e l)).1)
    (fun g l => (f (opv g a l) (opv g b l) (opv g e l)).2)

/-! ## Uniform operands (R104, R105) -/

/-- KA (R57). -/
def kreg (s : State) (a : Fin 64) : DWord := kget s.issue.pre a.val
/-- B of the register layout: KB, or sext of the literal (R105). -/
def ksrc (s : State) : KSrc → DWord
  | .reg n => kget s.issue.pre n.val
  | .lit x => x.signExtend 64
/-- A k register is written and the value enters y2 (R104). -/
def kwrite (s : State) (d : Fin 64) (x : DWord) : State :=
  let s := modCur s fun c => let c := kput c d.val x; { c with y := pushU c.y x }
  { s with issue := { s.issue with uDone := true } }

/-- The 64-bit value of a register pair of lane l (R191). -/
def vpair (g : Group) (r l : Nat) : DWord :=
  (vget g (r + 1) l).zeroExtend 64 <<< 32 ||| (vget g r l).zeroExtend 64
/-- The engine command operand: k bits [31:0], or 0 (R201, R262). -/
def eopW (g : Group) : EOp → Nat
  | .k n => (kget g n.val).toNat % 2 ^ 32
  | .zero => 0
/-- The whole 64 bits of an engine command's k register, or 0 (R291, R372). -/
def eopD (g : Group) : EOp → DWord
  | .k n => kget g n.val
  | .zero => 0

end Sys2Proof.Machine
end

