-- ==== Sys2Proof/Machine/VecInt.lean ====
section
/-! DEFINITION. The integer instructions (R135 to R137). -/

namespace Sys2Proof.Machine

abbrev Out := Host.Outcome State Fault Refusal

/-- No flag. -/
def noFlag (x : Word) : Word × Byte := (x, 0)
/-- Signed or unsigned order of words (R135). -/
def wlt (signed : Bool) (a b : Word) : Bool := if signed then a.slt b else a.ult b
/-- A comparison of words (R137). -/
def icmpHolds (cc : Cc) (a b : Word) : Bool :=
  match cc with
  | .eq => a == b | .ne => a != b
  | .ltI => a.slt b | .leI => a.sle b | .gtI => b.slt a | .geI => b.sle a
  | .ltN => a.ult b | .leN => a.ule b | .gtN => b.ult a | .geN => b.ule a
def boolWord (b : Bool) : Word := if b then 1 else 0
/-- A clamped result with SAT (R135). -/
def satWord (x lo hi : Int) : Word × Byte :=
  let (y, c) := clampInt x lo hi
  (BitVec.ofInt 32 y, satIf c)
/-- Add or subtract with the saturation of R135. -/
def satOp (sat : Sat) (f : Int → Int → Int) (a b : Word) : Word × Byte :=
  match sat with
  | .none => noFlag (BitVec.ofInt 32 (f a.toNat b.toNat))
  | .i32 => satWord (f a.toInt b.toInt) (-(2 ^ 31)) (2 ^ 31 - 1)
  | .n32 => satWord (f a.toNat b.toNat) 0 (2 ^ 32 - 1)
/-- The field of a descriptor: position and width (R136). -/
def descField (desc : Word) : Nat × Nat :=
  let pos := desc.toNat % 64
  (pos, min (desc.toNat / 64 % 64 + 1) (32 - pos))
/-- IBFE (R136). -/
def ibfe (signed : Bool) (a desc : Word) : Word :=
  let (pos, w) := descField desc
  if 32 ≤ pos then 0
  else if signed then sextWord w (a.toNat / 2 ^ pos) else BitVec.ofNat 32 (a.toNat / 2 ^ pos % 2 ^ w)
/-- IBFI (R136). -/
def ibfi (a b desc : Word) : Word :=
  let (pos, w) := descField desc
  if 32 ≤ pos then a
  else
    let keep := a.toNat % 2 ^ pos + a.toNat / 2 ^ (pos + w) * 2 ^ (pos + w)
    BitVec.ofNat 32 (keep + b.toNat % 2 ^ w * 2 ^ pos)
/-- Number of one bits (R106 KPOPC, R135 IPOPC). -/
def popc (n x : Nat) : Nat := ((List.range n).filter (bit x)).length
/-- Leading zero bits (R135). -/
def clz (x : Word) : Nat := if x = 0 then 32 else 31 - x.toNat.log2
/-- Bits in reverse (R135). -/
def brev (x : Word) : Word :=
  BitVec.ofNat 32 ((List.range 32).foldl (fun n i => if bit x.toNat i then n + 2 ^ (31 - i) else n) 0)
/-- Shifts with any count (R135). -/
def shl (a b : Word) : Word := if 32 ≤ b.toNat then 0 else a <<< b.toNat
def shr (a b : Word) : Word := if 32 ≤ b.toNat then 0 else a >>> b.toNat
def sra (a b : Word) : Word := a.sshiftRight (min b.toNat 32)
/-- The 64-bit product's halves (R135). -/
def mulKind (k : MulKind) (a b : Word) : Word :=
  match k with
  | .low => a * b
  | .highI => BitVec.ofInt 32 (a.toInt * b.toInt / 2 ^ 32)
  | .highN => BitVec.ofNat 32 (a.toNat * b.toNat / 2 ^ 32)

/-- IADD and its saturating forms (R135). -/
def execIadd (sat : Sat) (d : VDst) (a b : Opnd) (s : State) : Out := .next (v2 s d a b (satOp sat (· + ·)))
/-- IADDC: the carry out (R135). -/
def execIaddc (d : VDst) (a b : Opnd) (s : State) : Out :=
  .next (v2 s d a b fun x y => noFlag (boolWord (2 ^ 32 ≤ x.toNat + y.toNat)))
/-- ISUB and its saturating forms (R135). -/
def execIsub (sat : Sat) (d : VDst) (a b : Opnd) (s : State) : Out := .next (v2 s d a b (satOp sat (· - ·)))
/-- IMUL, IMULH.i32, IMULH.n32 (R135). -/
def execImul (k : MulKind) (d : VDst) (a b : Opnd) (s : State) : Out :=
  .next (v2 s d a b fun x y => noFlag (mulKind k x y))
/-- IMIN (R135). -/
def execImin (signed : Bool) (d : VDst) (a b : Opnd) (s : State) : Out :=
  .next (v2 s d a b fun x y => noFlag (if wlt signed y x then y else x))
/-- IMAX (R135). -/
def execImax (signed : Bool) (d : VDst) (a b : Opnd) (s : State) : Out :=
  .next (v2 s d a b fun x y => noFlag (if wlt signed x y then y else x))
/-- IABS (R135). -/
def execIabs (d : VDst) (a : Opnd) (s : State) : Out :=
  .next (v1 s d a fun x => noFlag (if x.msb then 0 - x else x))
/-- IAND (R135). -/
def execIand (d : VDst) (a b : Opnd) (s : State) : Out := .next (v2 s d a b fun x y => noFlag (x &&& y))
/-- IOR (R135). -/
def execIor (d : VDst) (a b : Opnd) (s : State) : Out := .next (v2 s d a b fun x y => noFlag (x ||| y))
/-- IXOR (R135). -/
def execIxor (d : VDst) (a b : Opnd) (s : State) : Out := .next (v2 s d a b fun x y => noFlag (x ^^^ y))
/-- ISHL (R135). -/
def execIshl (d : VDst) (a b : Opnd) (s : State) : Out := .next (v2 s d a b fun x y => noFlag (shl x y))
/-- ISHR (R135). -/
def execIshr (d : VDst) (a b : Opnd) (s : State) : Out := .next (v2 s d a b fun x y => noFlag (shr x y))
/-- ISRA (R135). -/
def execIsra (d : VDst) (a b : Opnd) (s : State) : Out := .next (v2 s d a b fun x y => noFlag (sra x y))
/-- IBFE (R135, R136). -/
def execIbfe (signed : Bool) (d : VDst) (a b : Opnd) (s : State) : Out :=
  .next (v2 s d a b fun x y => noFlag (ibfe signed x y))
/-- IPOPC (R135). -/
def execIpopc (d : VDst) (a : Opnd) (s : State) : Out :=
  .next (v1 s d a fun x => noFlag (BitVec.ofNat 32 (popc 32 x.toNat)))
/-- ICLZ (R135). -/
def execIclz (d : VDst) (a : Opnd) (s : State) : Out := .next (v1 s d a fun x => noFlag (BitVec.ofNat 32 (clz x)))
/-- IBREV (R135). -/
def execIbrev (d : VDst) (a : Opnd) (s : State) : Out := .next (v1 s d a fun x => noFlag (brev x))
/-- IMAD (R135). -/
def execImad (d : VDst) (a b e : Opnd) (s : State) : Out := .next (v3 s d a b e fun x y z => noFlag (x * y + z))
/-- ISEL (R135). -/
def execIsel (d : VDst) (a b e : Opnd) (s : State) : Out :=
  .next (v3 s d a b e fun x y z => noFlag (if x = 0 then z else y))
/-- IBFI (R135, R136). -/
def execIbfi (d : VDst) (a b e : Opnd) (s : State) : Out := .next (v3 s d a b e fun x y z => noFlag (ibfi x y z))
/-- ICMP (R137). -/
def execIcmp (cc : Cc) (d : VDst) (a b : Opnd) (s : State) : Out :=
  .next (v2 s d a b fun x y => noFlag (boolWord (icmpHolds cc x y)))

end Sys2Proof.Machine
end

