-- ==== Sys2Proof/Machine/VecFloat.lean ====
section
/-! DEFINITION. The floating-point instructions (R138 to R144). -/

namespace Sys2Proof.Machine

/-- A pattern and its flags as a lane's result. -/
def outF (r : Nat × Byte) : Word × Byte := (BitVec.ofNat 32 r.1, r.2)
/-- The element type of a packed suffix (R68). -/
def HTy.fty : HTy → FTy
  | .bf16x2 => .bf16
  | .f16x2 => .f16
/-- A packed operation: elements [15:0] and [31:16], flags ORed (R138). -/
def packed2 (f : Nat → Nat → Nat × Byte) (a b : Word) : Word × Byte :=
  let lo := f (a.toNat % 2 ^ 16) (b.toNat % 2 ^ 16)
  let hi := f (a.toNat / 2 ^ 16) (b.toNat / 2 ^ 16)
  (BitVec.ofNat 32 (lo.1 + hi.1 * 2 ^ 16), lo.2 ||| hi.2)

/-- FADD (R138). -/
def execFadd (d : VDst) (a b : Opnd) (s : State) : Out := .next (v2 s d a b fun x y => outF (fpAdd .f32 x.toNat y.toNat))
/-- FSUB (R138). -/
def execFsub (d : VDst) (a b : Opnd) (s : State) : Out := .next (v2 s d a b fun x y => outF (fpSub .f32 x.toNat y.toNat))
/-- FMUL (R138). -/
def execFmul (d : VDst) (a b : Opnd) (s : State) : Out := .next (v2 s d a b fun x y => outF (fpMul .f32 x.toNat y.toNat))
/-- FMIN (R139). -/
def execFmin (d : VDst) (a b : Opnd) (s : State) : Out :=
  .next (v2 s d a b fun x y => outF (fpMinMax .f32 false x.toNat y.toNat))
/-- FMAX (R139). -/
def execFmax (d : VDst) (a b : Opnd) (s : State) : Out :=
  .next (v2 s d a b fun x y => outF (fpMinMax .f32 true x.toNat y.toNat))
/-- FABS (R140). -/
def execFabs (d : VDst) (a : Opnd) (s : State) : Out :=
  .next (v1 s d a fun x => noFlag (if (fval .f32 x.toNat).isNan then 0x7FC00000 else x &&& 0x7FFFFFFF))
/-- FNEG (R140). -/
def execFneg (d : VDst) (a : Opnd) (s : State) : Out :=
  .next (v1 s d a fun x => noFlag (if (fval .f32 x.toNat).isNan then 0x7FC00000 else x ^^^ 0x80000000))
/-- The class bit of an FP32 value (R141). -/
def fclassBit (x : Word) : Nat :=
  match fval .f32 x.toNat with
  | .nan sig => if sig then 8 else 9
  | .inf neg => if neg then 0 else 7
  | .fin neg man _ =>
    if man = 0 then (if neg then 3 else 4)
    else if man < 2 ^ 23 then (if neg then 2 else 5)
    else if neg then 1 else 6
/-- FCLASS (R141). -/
def execFclass (d : VDst) (a : Opnd) (s : State) : Out :=
  .next (v1 s d a fun x => noFlag (BitVec.ofNat 32 (2 ^ fclassBit x)))
/-- FRND's value: integral, the sign of a zero after A (R142). -/
def frnd (m : FrndMode) (x : Word) : Word × Byte :=
  match fval .f32 x.toNat with
  | .nan sig => (0x7FC00000, nvOf (.nan sig))
  | .inf _ => noFlag x
  | .fin neg man exp =>
    let (i, _) := roundInt (FrndMode.toRMode m) neg man exp
    noFlag (BitVec.ofNat 32 (roundTo .f32 .rne 0 neg i.natAbs 0).1)
/-- FRND (R142). -/
def execFrnd (m : FrndMode) (d : VDst) (a : Opnd) (s : State) : Out := .next (v1 s d a (frnd m))
/-- FFMA (R138). -/
def execFfma (d : VDst) (a b e : Opnd) (s : State) : Out :=
  .next (v3 s d a b e fun x y z => outF (fpFma .f32 x.toNat y.toNat z.toNat))
/-- HADD2 (R138). -/
def execHadd2 (t : HTy) (d : VDst) (a b : Opnd) (s : State) : Out := .next (v2 s d a b (packed2 (fpAdd (HTy.fty t))))
/-- HMUL2 (R138). -/
def execHmul2 (t : HTy) (d : VDst) (a b : Opnd) (s : State) : Out := .next (v2 s d a b (packed2 (fpMul (HTy.fty t))))
/-- HMIN2 (R139). -/
def execHmin2 (t : HTy) (d : VDst) (a b : Opnd) (s : State) : Out :=
  .next (v2 s d a b (packed2 (fpMinMax (HTy.fty t) false)))
/-- HMAX2 (R139). -/
def execHmax2 (t : HTy) (d : VDst) (a b : Opnd) (s : State) : Out :=
  .next (v2 s d a b (packed2 (fpMinMax (HTy.fty t) true)))
/-- HFMA2.bf16x2 (R138). -/
def hfma2 (a b e : Word) : Word × Byte :=
  let lo := fpFma .bf16 (a.toNat % 2 ^ 16) (b.toNat % 2 ^ 16) (e.toNat % 2 ^ 16)
  let hi := fpFma .bf16 (a.toNat / 2 ^ 16) (b.toNat / 2 ^ 16) (e.toNat / 2 ^ 16)
  (BitVec.ofNat 32 (lo.1 + hi.1 * 2 ^ 16), lo.2 ||| hi.2)
/-- HFMA2 (R138). -/
def execHfma2 (d : VDst) (a b e : Opnd) (s : State) : Out := .next (v3 s d a b e hfma2)
/-- FCMP (R143). -/
def execFcmp (cc : FCc) (d : VDst) (a b : Opnd) (s : State) : Out :=
  .next (v2 s d a b fun x y => (boolWord (fcmpFlags cc x y).1, (fcmpFlags cc x y).2))
/-- FRCP (R144). -/
def execFrcp (d : VDst) (a : Opnd) (s : State) : Out := .next (v1 s d a fun x => outF (fpRcp x))
/-- FRSQ (R144). -/
def execFrsq (d : VDst) (a : Opnd) (s : State) : Out := .next (v1 s d a fun x => outF (fpRsq x))
/-- FSQRT (R144). -/
def execFsqrt (d : VDst) (a : Opnd) (s : State) : Out := .next (v1 s d a fun x => outF (fpSqrt x))
/-- FEXP2 (R144). -/
def execFexp2 (d : VDst) (a : Opnd) (s : State) : Out := .next (v1 s d a fun x => outF (fpExp2 x))
/-- FLOG2 (R144). -/
def execFlog2 (d : VDst) (a : Opnd) (s : State) : Out := .next (v1 s d a fun x => outF (fpLog2 x))
/-- FSIN (R144). -/
def execFsin (d : VDst) (a : Opnd) (s : State) : Out := .next (v1 s d a fun x => outF (fpTrig false x))
/-- FCOS (R144). -/
def execFcos (d : VDst) (a : Opnd) (s : State) : Out := .next (v1 s d a fun x => outF (fpTrig true x))

end Sys2Proof.Machine
end

