-- ==== Sys2Proof/Machine/Convert.lean ====
section
/-! DEFINITION. The conversion instructions (R125, R128, R129, R145 to R148). -/

namespace Sys2Proof.Machine

/-- The increment of the stochastic-rounding generator (R125). -/
def seedStep : Nat := 0x9E3779B97F4A7C15
/-- The number drawn for lane or element l from seed s (R125). -/
def draw (s : DWord) (l : Nat) : Nat :=
  let z : DWord := s + BitVec.ofNat 64 (seedStep * (l + 1))
  let z : DWord := (z ^^^ (z >>> 30)) * 0xBF58476D1CE4E5B9
  let z : DWord := (z ^^^ (z >>> 27)) * 0x94D049BB133111EB
  let z : DWord := z ^^^ (z >>> 31)
  z.toNat / 2 ^ 32
/-- SEED after n draws (R125). -/
def seedAfter (s : DWord) (n : Nat) : DWord := s + BitVec.ofNat 64 (seedStep * n)

/-- A conversion between formats with drawn number rnd (R124, R145). -/
def fcvtVal (to_ from_ : FTy) (m : RMode) (rnd : Nat) (x : Nat) : Nat × Byte :=
  let v := fval from_ (x % 2 ^ FTy.width from_)
  let (b, f) := deliver to_ m rnd v
  (b, f ||| nvOf v)
/-- FCVT; .rs draws for every lane and advances SEED, also when no lane is active (R125, R145). -/
def execFcvt (dst src : FTy) (m : RMode) (d : VDst) (a : Opnd) (s : State) : Out :=
  let seed := s.issue.pre.seed
  let t := vword s d [a] (fun g l => (outF (fcvtVal dst src m (draw seed l) (opv g a l).toNat)).1)
    (fun g l => (fcvtVal dst src m (draw seed l) (opv g a l).toNat).2)
  .next (if m = .rs ∧ t.issue.verdict = .done then modCur t fun g => { g with seed := seedAfter seed 32 } else t)

/-- ICVT's value (R146). -/
def icvtVal (k : IcvtKind) (m : RMode) (x : Word) : Word × Byte :=
  let lim (lo hi : Int) : Word × Byte := let (y, f) := toInt m lo hi x; (BitVec.ofInt 32 y, f)
  match k with
  | .i32 => lim (-(2 ^ 31)) (2 ^ 31 - 1)
  | .n32 => lim 0 (2 ^ 32 - 1)
  | .i16 => lim (-(2 ^ 15)) (2 ^ 15 - 1)
  | .n16 => lim 0 (2 ^ 16 - 1)
  | .i8 => lim (-(2 ^ 7)) (2 ^ 7 - 1)
  | .n8 => lim 0 (2 ^ 8 - 1)
  | .fromI32 => outF (roundTo .f32 m 0 x.msb x.toInt.natAbs 0)
  | .fromN32 => outF (roundTo .f32 m 0 false x.toNat 0)
/-- ICVT (R146). -/
def execIcvt (k : IcvtKind) (m : RMode) (d : VDst) (a : Opnd) (s : State) : Out := .next (v1 s d a (icvtVal k m))

/-- Width and signedness of a packed element (R147). -/
def PackTy.w : PackTy → Nat
  | .i16 | .n16 => 16
  | .i8 | .n8 => 8
  | .i4 | .n4 => 4
def PackTy.signed : PackTy → Bool
  | .i16 | .i8 | .i4 => true
  | _ => false
/-- PACK's value (R147). -/
def packVal (t : PackTy) (a b : Word) : Word × Byte :=
  let w := PackTy.w t
  let (y, c) := if PackTy.signed t then clampInt b.toInt (-(2 ^ (w - 1) : Nat)) ((2 ^ (w - 1) : Nat) - 1)
    else clampInt b.toNat 0 ((2 ^ w : Nat) - 1)
  (a <<< w ||| BitVec.ofNat 32 ((BitVec.ofInt 32 y).toNat % 2 ^ w), satIf c)
/-- PACK (R147). -/
def execPack (t : PackTy) (d : VDst) (a b : Opnd) (s : State) : Out := .next (v2 s d a b (packVal t))
/-- UNPACK's value (R147). -/
def unpackVal (t : PackTy) (a b : Word) : Word :=
  let w := PackTy.w t
  let e := a.toNat / 2 ^ (w * (b.toNat % 32 % (32 / w))) % 2 ^ w
  if PackTy.signed t then sextWord w e else BitVec.ofNat 32 e
/-- UNPACK (R147). -/
def execUnpack (t : PackTy) (d : VDst) (a b : Opnd) (s : State) : Out :=
  .next (v2 s d a b fun x y => noFlag (unpackVal t x y))

/-- A scale code as an FP16 pattern (R128). -/
def scaleBits (code : Nat) : Nat := if 0xF9 ≤ code then 0x7E00 else code * 2 ^ 7
/-- One code of a DS4 stream: the code, the nibbles taken and whether the step left 0 to 255 (R129). -/
def ds4Step (prev n n1 n2 : Nat) : Nat × Nat × Bool :=
  if n = 8 then (16 * n1 + n2, 3, false)
  else
    let c : Int := (prev : Int) + sextInt 4 n
    if c < 0 ∨ 255 < c then (0, 1, true) else (c.toNat, 1, false)
/-- n codes from nibble m on: each code with the nibbles consumed so far, and whether any step left 0 to 255 (R129, R148). -/
def ds4Decode (nib : Nat → Nat) : Nat → Nat → Nat → List (Nat × Nat) × Bool
  | 0, _, _ => ([], false)
  | n + 1, prev, m =>
    let (c, k, e) := ds4Step prev (nib m) (nib (m + 1)) (nib (m + 2))
    let (t, e') := ds4Decode nib n c (m + k)
    ((c, m + k) :: t, e || e')
/-- A stream word of any lane, or lane 0's B, fails its check (R347, R148). -/
def badStream (g : Group) (a b : Opnd) : Bool :=
  ((opndRegs g a).any fun r => allLanes.any fun l => g.vBad.contains (32 * r + l)) ||
    (opndRegs g b).any fun r => g.vBad.contains (32 * r)
/-- SCXP: 32 codes from the stream across the group; a DS4 error of any lane position sets DS4 (R148). -/
def execScxp (d : VDst) (a b : Opnd) (s : State) : Out :=
  let run (g : Group) := ds4Decode (fun m => (opv g a (m / 8)).toNat / 16 ^ (m % 8) % 16) 32 ((opv g b 0).toNat % 256) 0
  let t := vword s d [a, b]
    (fun g l => let x := ((run g).1)[l]?.getD (0, 0); BitVec.ofNat 32 (x.2 * 2 ^ 24 + x.1 * 2 ^ 16 + scaleBits x.1))
    (fun _ _ => 0)
  let t := if t.issue.verdict = .done ∧ badStream s.issue.pre a b then poisonKill t 0 false else t
  .next (if t.issue.verdict = .done ∧ (run s.issue.pre).2 = true then setFlags t fDS4 else t)

end Sys2Proof.Machine
end

