-- ==== Sys2Proof/Machine/LaneMove.lean ====
section
/-! DEFINITION. The lane-movement instructions (R149 to R152). -/

namespace Sys2Proof.Machine

/-- MOV (R149). -/
def execMov (d : VDst) (a : Opnd) (s : State) : Out := .next (v1 s d a noFlag)
/-- A shuffle: the lane that lane l reads, from its own B; its own A where that lane is out of range or not active (R149). -/
def shuffle (s : State) (d : VDst) (a b : Opnd) (src : Nat → Word → Int) : State :=
  vword s d [a, b]
    (fun g l =>
      let k := src l (opv g b l)
      if 0 ≤ k ∧ k ≤ 31 ∧ isActive g k.toNat = true then opv g a k.toNat else opv g a l)
    (fun _ _ => 0)
/-- SHFL (R149). -/
def execShfl (d : VDst) (a b : Opnd) (s : State) : Out := .next (shuffle s d a b fun _ x => (x.toNat % 32 : Nat))
/-- SHFLX (R149). -/
def execShflx (d : VDst) (a b : Opnd) (s : State) : Out :=
  .next (shuffle s d a b fun l x => ((BitVec.ofNat 5 l ^^^ BitVec.ofNat 5 x.toNat).toNat : Nat))
/-- SHFLUP (R149). -/
def execShflup (d : VDst) (a b : Opnd) (s : State) : Out := .next (shuffle s d a b fun l x => (l : Int) - x.toNat)
/-- SHFLDN (R149). -/
def execShfldn (d : VDst) (a b : Opnd) (s : State) : Out := .next (shuffle s d a b fun l x => (l : Int) + x.toNat)

/-- VOTE's result over the active lanes (R150). -/
def voteVal (op : VoteOp) (g : Group) (a : Opnd) : Word :=
  let act := activeLanes g
  let t (l : Nat) : Bool := opv g a l != 0
  match op with
  | .any => boolWord (act.any t)
  | .all => boolWord (act.all t)
  | .ballot => maskOf fun l => isActive g l && t l
  | .eq => boolWord (act.all t || !(act.any t))
/-- VOTE (R150). -/
def execVote (op : VoteOp) (d : VDst) (a : Opnd) (s : State) : Out :=
  .next (vword s d [a] (fun g _ => voteVal op g a) (fun _ _ => 0))

/-- The combining operator of a reduction (R151). -/
def redOp (op : RedOp) (a b : Word) : Word × Byte :=
  match op with
  | .addI32 => noFlag (a + b)
  | .addF32 => outF (fpAdd .f32 a.toNat b.toNat)
  | .minI32 => noFlag (if wlt true b a then b else a)
  | .minN32 => noFlag (if wlt false b a then b else a)
  | .maxI32 => noFlag (if wlt true a b then b else a)
  | .maxN32 => noFlag (if wlt false a b then b else a)
  | .minF32 => outF (fpMinMax .f32 false a.toNat b.toNat)
  | .maxF32 => outF (fpMinMax .f32 true a.toNat b.toNat)
  | .and => noFlag (a &&& b)
  | .or => noFlag (a ||| b)
  | .xor => noFlag (a ^^^ b)
/-- Combine two contributions with the flags so far; a missing one passes the other on unchanged (R151). -/
def redJoin (op : RedOp) (a b : Option Word × Byte) : Option Word × Byte :=
  match a.1, b.1 with
  | some x, some y => let r := redOp op x y; (some r.1, a.2 ||| b.2 ||| r.2)
  | some x, none => (some x, a.2 ||| b.2)
  | none, y => (y, a.2 ||| b.2)
/-- node(j, k) of the tree over contributions (R151), with the flags made below it. -/
def redNode (op : RedOp) (v : Nat → Option Word) : Nat → Nat → Option Word × Byte
  | 0, k => (v k, 0)
  | j + 1, k => redJoin op (redNode op v j (2 * k)) (redNode op v j (2 * k + 1))
/-- The identity an inactive lane stands for (R151). -/
def redId : RedOp → Word
  | .addF32 => 0x80000000 | .minI32 => 0x7FFFFFFF | .minN32 => 0xFFFFFFFF | .and => 0xFFFFFFFF | .maxI32 => 0x80000000
  | .minF32 => 0x7F800000 | .maxF32 => 0xFF800000 | _ => 0
/-- The contribution of lane k (R151). -/
def contrib (g : Group) (a : Opnd) (k : Nat) : Option Word := if isActive g k then some (opv g a k) else none
/-- REDQ: the top of the tree in every active lane (R151). -/
def execRedq (op : RedOp) (d : VDst) (a : Opnd) (s : State) : Out :=
  .next (vword s d [a] (fun g _ => ((redNode op (contrib g a) 5 0).1).getD (redId op))
    (fun g _ => (redNode op (contrib g a) 5 0).2))
/-- The prefix of lanes 0 to l, built from the blocks of n = l + 1 from level j down (R151): acc and the flags of the
prefix combinations alone. -/
def scanFrom (op : RedOp) (v : Nat → Option Word) (n : Nat) : Nat → Nat → Option (Option Word) → Byte → Option Word × Byte
  | 0, _, acc, f => (acc.getD none, f)
  | j + 1, st, acc, f =>
    if bit n j then
      let blk := (redNode op v j (st / 2 ^ j)).1
      match acc with
      | none => scanFrom op v n j (st + 2 ^ j) (some blk) f
      | some x =>
        let r := redJoin op (x, 0) (blk, 0)
        scanFrom op v n j (st + 2 ^ j) (some r.1) (f ||| r.2)
    else scanFrom op v n j st acc f
/-- SCANQ: inclusive prefixes; flags of the whole tree and of the active lanes' prefix combinations (R151). -/
def execScanq (op : RedOp) (d : VDst) (a : Opnd) (s : State) : Out :=
  .next (vword s d [a] (fun g l => ((scanFrom op (contrib g a) (l + 1) 6 0 none 0).1).getD (redId op))
    (fun g l => (redNode op (contrib g a) 5 0).2 ||| (scanFrom op (contrib g a) (l + 1) 6 0 none 0).2))

/-- PRMT's value (R152). -/
def prmtVal (a b e : Word) : Word :=
  let byte (s : Nat) : Nat :=
    let src := if s % 8 < 4 then a.toNat / 256 ^ (s % 8) % 256 else b.toNat / 256 ^ (s % 8 - 4) % 256
    if 8 ≤ s then (if 128 ≤ src then 255 else 0) else src
  BitVec.ofNat 32 ((List.range 4).foldl (fun n i => n + byte (e.toNat / 16 ^ i % 16) * 256 ^ i) 0)
/-- PRMT (R152). -/
def execPrmt (d : VDst) (a b e : Opnd) (s : State) : Out := .next (v3 s d a b e fun x y z => noFlag (prmtVal x y z))

end Sys2Proof.Machine
end

