-- ==== Sys2Proof/Machine/Control.lean ====
section
/-! DEFINITION. The control instructions (R83 to R103, R116, R350). -/

namespace Sys2Proof.Machine

/-- SG is set to 0 after the issue group has been hashed (R116). -/
def resetSg (s : State) : State := { s with issue := { s.issue with sgReset := true } }
/-- An event of R28 ends the run after this issue group. -/
def endsRun (s : State) : State := { s with issue := { s.issue with endRun := true } }
/-- A reconvergence event to hash (R348). -/
def hashEvent (s : State) (x : Word) : State := { s with issue := { s.issue with events := s.issue.events ++ [x] } }
/-- The group goes to a position after this issue group; a backward one ends the run (R89). -/
def goTo (s : State) (p : Pos) : State :=
  { s with issue := { s.issue with target := some p, endRun := s.issue.endRun || decide (p.pkt ≤ s.issue.pos.pkt), sgReset := true } }
/-- A taken branch to a packet: code-bounds outside the code region (R72, R73). -/
def takeBranch (s : State) (t : Int) (k : State → State) : State :=
  if t < 0 ∨ ((gridOf s s.issue.pre).codeSize : Int) ≤ t then raiseB s 5 0x06 (BitVec.ofInt 32 t).toNat
  else k (goTo s ⟨t.toNat, 0⟩)
/-- The target of a relative branch (R72). -/
def relTarget (s : State) (n off : Nat) : Int := (s.issue.pos.pkt : Int) + sextInt n off
/-- A register target: misaligned-target, then code-bounds (R73). -/
def regTarget (s : State) (a : Fin 64) (k : State → State) : State :=
  let off := (kreg s a).toNat % 2 ^ 32
  if off % 12 ≠ 0 then raiseB s 5 0x05 off else takeBranch s (off / 12 : Nat) k
/-- The two copies of the counters are compared; a difference kills the gang (R350). -/
def compareCtr (s : State) (k : State → State) : State :=
  if s.issue.pre.c = s.issue.pre.dup then k s
  else { s with issue := { s.issue with kill := some ⟨0x41, s.issue.pos.pkt, false⟩, endRun := true } }

/-- NOP (R99). -/
def execNop (s : State) : Out := .next s
/-- BRA (R90). -/
def execBra (off : BitVec 23) (s : State) : Out := .next (takeBranch s (relTarget s 23 off.toNat) id)
/-- BRZ (R90). -/
def execBrz (a : Fin 64) (off : BitVec 14) (s : State) : Out :=
  .next (if kreg s a = 0 then takeBranch s (relTarget s 14 off.toNat) id else s)
/-- BRNZ (R90). -/
def execBrnz (a : Fin 64) (off : BitVec 14) (s : State) : Out :=
  .next (if kreg s a = 0 then s else takeBranch s (relTarget s 14 off.toNat) id)
/-- BRANY (R90). -/
def execBrany (off : BitVec 20) (s : State) : Out :=
  .next (if activeLanes s.issue.pre = [] then s else takeBranch s (relTarget s 20 off.toNat) id)
/-- BRNONE (R90). -/
def execBrnone (off : BitVec 20) (s : State) : Out :=
  .next (if activeLanes s.issue.pre = [] then takeBranch s (relTarget s 20 off.toNat) id else s)
/-- BRX (R90). -/
def execBrx (a : Fin 64) (s : State) : Out := .next (regTarget s a id)

/-- The frame of a call and the depth check, after the target's (R50, R92, assumption 14). -/
def pushFrame (s : State) : State :=
  let g := s.issue.pre
  if g.calls.length = 16 then raiseB s 6 0x07 0
  else modCur s fun c => { c with calls := c.calls ++ [⟨s.issue.next, g.c⟩] }
/-- CALL (R92). -/
def execCall (off : BitVec 23) (s : State) : Out := .next (takeBranch s (relTarget s 23 off.toNat) pushFrame)
/-- CALLX (R92). -/
def execCallx (a : Fin 64) (s : State) : Out := .next (regTarget s a pushFrame)
/-- RET (R92). -/
def execRet (s : State) : Out :=
  let g := s.issue.pre
  .next (compareCtr s fun s =>
    match g.calls.getLast? with
    | none => raiseB s 6 0x07 0
    | some f =>
      if allLanes.all fun l => ctr g l = 255 || ctr g l = cget 0 f.c l then
        goTo (modCur s fun c => { c with calls := c.calls.dropLast }) f.ret
      else raiseB s 6 0x07 0)

/-- A counter that is not 255 passes 254 (R86). -/
def tooDeep (g : Group) (n : Nat) : Bool :=
  allLanes.any fun l => ctr g l != 255 && ctr g l != 0 && decide (254 < (ctr g l).toNat + n)
/-- IF: it reads its operand in every lane that is not retired (R93, R347). -/
def execIfL (o : Opnd) (s : State) : Out :=
  let g := s.issue.pre
  let read := (opndRegs g o).any fun r => allLanes.any fun l => !isRetired g l && g.vBad.contains (32 * r + l)
  .next (withRegs s (namedRegs g [o] []) [o] fun s =>
    let s := if read then poisonKill s 0 false else s
    if tooDeep g 1 then raiseB s 6 0x07 0
    else modCur s fun c => setCtr c fun l x =>
      if x = 255 then x else if x ≠ 0 then x + 1 else if opv g o l = 0 then 1 else x)
/-- ELSE (R93). -/
def execElseL (s : State) : Out :=
  .next (compareCtr s fun s => hashEvent (modCur s fun c => setCtr c fun _ x => if x = 0 then 1 else if x = 1 then 0 else x)
    0xE0000001)
/-- ENDIF (R93). -/
def execEndifL (s : State) : Out :=
  .next (compareCtr s fun s => hashEvent (modCur s fun c => setCtr c fun _ x => if x = 255 ∨ x = 0 then x else x - 1)
    0xE0000002)
/-- LOOP (R94). -/
def execLoopL (s : State) : Out :=
  .next (if tooDeep s.issue.pre 2 then raiseB s 6 0x07 0
    else resetSg (modCur s fun c => setCtr c fun _ x => if x = 255 ∨ x = 0 then x else x + 2))
/-- The counters of active lanes with a true operand become n (R94). -/
def leaveLoop (s : State) (o : Opnd) (n : Byte) : State :=
  let g := s.issue.pre
  withRegs s (namedRegs g [o] []) [o] fun s =>
    modCur s fun c => setCtr c fun l x => if isActive g l && opv g o l != 0 then n else x
/-- BREAK (R94). -/
def execBreakL (o : Opnd) (depth : BitVec 8) (s : State) : Out := .next (leaveLoop s o (depth + 2))
/-- CONT (R94). -/
def execContL (o : Opnd) (depth : BitVec 8) (s : State) : Out := .next (leaveLoop s o (depth + 1))
/-- ENDLOOP (R94). -/
def execEndloop (off : BitVec 20) (s : State) : Out :=
  .next (compareCtr s fun s =>
    let one (c : Group) : Group := setCtr c fun _ x => if x = 1 then 0 else x
    if activeLanes (one s.issue.pre) = [] then
      hashEvent (modCur s fun c => setCtr c fun _ x => if x = 255 then x else if x = 1 then 0 else if x = 2 then 0
        else if 2 < x.toNat then x - 2 else x) 0xE0000003
    else takeBranch s (relTarget s 20 off.toNat) fun s => hashEvent (modCur s one) 0xE0000004)

/-- EXIT; the group ends when no lane is left (R96). -/
def execExitL (s : State) : Out :=
  let g := s.issue.pre
  let s := modCur s fun c => setCtr c fun l x => if isActive g l then 255 else x
  .next (if allLanes.all fun l => isRetired s.issue.cur l then
      endsRun (modCur s fun c => { c with status := .waiting .drain })
    else s)
/-- YIELD (R97). -/
def execYieldL (s : State) : Out := .next (endsRun s)
/-- The group sleeps n cycles; 0 acts as YIELD (R98). -/
def sleepFor (s : State) (n : Nat) : State :=
  endsRun (if n = 0 then s
    else modCur s fun c => { c with status := .waiting .sleep, sleepLeft := n + (s.cycle - c.since) })
/-- SLEEP imm (R98). -/
def execSleepImm (n : BitVec 16) (s : State) : Out := .next (sleepFor s n.toNat)
/-- SLEEP ka (R98). -/
def execSleepK (a : Fin 64) (s : State) : Out := .next (sleepFor s (min ((kreg s a).toNat % 2 ^ 32) (2 ^ 24)))
/-- TRAP: the issue group takes effect and the handler returns after it (R100). -/
def execTrap (code : BitVec 8) (s : State) : Out :=
  let g := s.issue.pre
  let info := code.zeroExtend 64
  .next (match (gridOf s g).trap with
    | some entry =>
      if g.trap.lvl || g.c != g.dup then raiseAt s 6 0x30 info s.issue.next
      else
        let s := modCur s fun c => c.enterTrap 0x30 info s.issue.next entry
        { s with issue := { s.issue with target := some ⟨entry, 0⟩, endRun := true } }
    | none => raiseAt s 6 0x30 info s.issue.next)
/-- BKPT (R100, R102). -/
def execBkpt (code : BitVec 8) (s : State) : Out := .next (raise s 6 0x31 (code.zeroExtend 64))
/-- ERET; the issue group that EPC names finds the latches empty (R101). -/
def execEret (s : State) : Out :=
  let g := s.issue.pre
  .next (if !g.trap.lvl then raiseB s 6 0x02 s.issue.raw.toNat
    else compareCtr s fun s =>
      if allLanes.any fun l => ctr g l != 0 && ctr g l != 255 then raiseB s 6 0x07 0
      else if g.calls.length ≠ g.trap.depth then raiseB s 6 0x07 0
      else if g.trap.epc.word = 3 ∨ (gridOf s g).codeSize ≤ g.trap.epc.pkt then raiseB s 6 0x06 g.trap.epc.pkt
      else
        let s := modCur s fun c => c.leaveTrap
        { s with issue := { s.issue with target := some g.trap.epc, noLatch := true } })
/-- SIGCHK (R103); no effect at trap level 1 (R117). -/
def execSigchk (value : Word) (s : State) : Out :=
  let g := s.issue.pre
  .next (if g.trap.lvl then s
    else if g.sg = value then { s with issue := { s.issue with sigOk := true } }
    else { s with issue := { s.issue with kill := some ⟨0x40, s.issue.pos.pkt, false⟩, endRun := true } })
/-- A word with an unassigned major, sub-operation or function value, or whose fields are not allowed (R50, R65). -/
def execUnassignedOpcode (_ : Word) (s : State) : Out := .next (raiseB s 2 0x02 s.issue.raw.toNat)

end Sys2Proof.Machine
end

