-- ==== Sys2Proof/Machine/Mem.lean ====
section
/-! DEFINITION. Physical addresses, page tables, TLBs and monitors, the L1 and the homes (R154 to R176), and the checks of a
lane access (R164 to R170). -/

namespace Sys2Proof.Machine

/-! ## Physical addresses (R154 to R157) -/

/-- TIER, DIE and OFFSET of an address (R154). -/
def paTier (pa : Nat) : Nat := pa / 2 ^ 50 % 4
def paDie (pa : Nat) : Nat := pa / 2 ^ 45 % 32
def paOff (pa : Nat) : Nat := pa % 2 ^ 45
def mkPa (tier d off : Nat) : Nat := tier * 2 ^ 50 + d * 2 ^ 45 + off
/-- Installed bytes of a die's tier (R154). -/
def capacity (tier : Nat) : Nat := if tier = 0 then Config.nearBytes else Config.farBytes
/-- The address that is accessed: interleaved addresses mapped to their die; none is physical-address (R154, R156). -/
def resolve (s : State) (pa : Nat) : Option Nat :=
  let t := paTier pa
  if 2 ≤ t then some (pa % 2 ^ 52)
  else if paDie pa < 24 then (if paOff pa < capacity t then some (pa % 2 ^ 52) else none)
  else if paDie pa = 31 then
    let p := paOff pa / 4096
    let q := p / 24
    let loc := (if t = 0 then s.ibaseNear else s.ibaseFar).toNat + 4096 * q + paOff pa % 4096
    if loc < capacity t then some (mkPa t ((p + 5 * q) % 24) loc) else none
  else none
/-- The slice of a die that homes an offset (R157). -/
def sliceOf (off : Nat) : Nat := (off / 128 + 7 * (off / 128 / 24)) % 24
/-- home(a) of a resolved address; the port of a host address is that of its line (R157, R197, R367, assumption 94). -/
def homeOf (pa : Nat) : Home :=
  match paTier pa with
  | 0 | 1 => .slice (paDie pa) (sliceOf (paOff pa))
  | 2 => .port (paDie pa)
  | _ => .host (if Config.hostPort (pa / 128 * 128) then 1 else 0)
/-- Near and far memory are cached in the L1 (R155, R172). -/
def cacheable (pa : Nat) : Bool := decide (paTier pa < 2)
/-- The physical words, PA / 4, that n bytes from pa touch. -/
def wordsOf (pa n : Nat) : List Nat := (List.range ((pa % 4 + n + 3) / 4)).map fun i => pa / 4 + i
/-- A word of a range is poisoned (R347). -/
def poisoned (s : State) (pa n : Nat) : Bool := (wordsOf pa n).any fun w => s.memBad.contains w
/-- The first poisoned word of a range, by its address (R354). -/
def firstPoison (s : State) (pa n : Nat) : Nat :=
  (((wordsOf pa n).find? fun w => s.memBad.contains w).map (4 * ·)).getD pa
/-- n bytes of memory at an unresolved address, as the device reads its own tables. -/
def devRead (s : State) (pa n : Nat) : Option Nat := (resolve s pa).map fun a => readNum s.mem a n

/-! ## Contexts and page tables (R158 to R161, R322) -/

/-- Address of a context record, and how many there are (R322, R369 CTXTAB). -/
def ctxAddr (p : Part) (ctx : Nat) : Nat := p.ctxtab.toNat / 4096 % 2 ^ 40 * 4096 + 64 * ctx
def ctxCount (p : Part) : Nat := p.ctxtab.toNat % 4096 + 1
/-- A field of a context record: n bytes at offset o (R322). -/
def ctxField (s : State) (p ctx o n : Nat) : Nat := (devRead s (ctxAddr (part s p) ctx + o) n).getD 0
def ctxRoot (s : State) (p ctx : Nat) : Nat := ctxField s p ctx 0 8
def ctxPasid (s : State) (p ctx : Nat) : Nat := ctxField s p ctx 8 4 % 2 ^ 20
def ctxSched (s : State) (p ctx : Nat) : Nat := ctxField s p ctx 12 4

/-- The frame or next table of an entry (R159). -/
def pteFrame (e : Nat) : Nat := e / 2 ^ 61 % 4 * 2 ^ 50 + e / 2 ^ 12 % 2 ^ 38 * 2 ^ 12
/-- log2 of the bytes that an entry of a level maps (R158). -/
def levelBits (level : Nat) : Nat := 12 + 9 * (4 - level)
/-- An entry is a leaf (R159 PS). -/
def isLeafEntry (level e : Nat) : Bool := level = 4 || (level != 1 && bit e 7)
/-- log2 of the page bytes of a leaf (R158). -/
def leafBits (level e : Nat) : Nat := if level = 4 then (if bit e 7 then 16 else 12) else levelBits level
/-- page-table-format of an entry (R159, R160). -/
def badEntry (level e : Nat) : Bool :=
  e / 2 ^ 50 % 2 ^ 10 != 0 || e / 2 ^ 8 % 16 != 0 || e / 2 % 4 != 0 || (level = 1 && bit e 7)
    || (if isLeafEntry level e then
          (level = 2 && e / 2 ^ 12 % 2 ^ 18 != 0) || (level = 3 && e / 2 ^ 12 % 2 ^ 9 != 0)
        else bit e 63 || bit e 60 || bit e 6 || bit e 5 || bit e 4 || bit e 3 || 2 ≤ e / 2 ^ 61 % 4)
/-- A walk from a table of a level downwards (R158, R160). -/
def walkFrom (s : State) (va : Nat) : Nat → Nat → Nat → Xlate
  | 0, _, _ => .format
  | n + 1, level, table =>
    match resolve s (table + 8 * (va / 2 ^ levelBits level % 512)) with
    | none => .physical
    | some a =>
      if poisoned s a 8 then .poison (firstPoison s a 8)
      else
        let e := readNum s.mem a 8
        if !bit e 0 then .absent a
        else if badEntry level e then .format
        else if isLeafEntry level e then
          .leaf (va / 2 ^ leafBits level e * 2 ^ leafBits level e) (leafBits level e) (BitVec.ofNat 64 e) a
        else walkFrom s va n (level + 1) (pteFrame e)
/-- A walk of a context's tables (R158). -/
def walkVa (s : State) (p ctx va : Nat) : Xlate := walkFrom s va 4 1 (ctxRoot s p ctx)
/-- The entries that a walk reads, from a table of a level downwards. -/
def entriesFrom (s : State) (va : Nat) : Nat → Nat → Nat → List Nat
  | 0, _, _ => []
  | n + 1, level, table =>
    match resolve s (table + 8 * (va / 2 ^ levelBits level % 512)) with
    | none => []
    | some a =>
      let e := readNum s.mem a 8
      if !bit e 0 || badEntry level e || isLeafEntry level e then [a] else a :: entriesFrom s va n (level + 1) (pteFrame e)
/-- An invalidation under way holds the walks that read an entry (R337 step 1). -/
def entryHeld (s : State) (a : Nat) : Bool :=
  s.parts.any fun p => p.2.inval.any fun v => !v.ats && decide (v.entry ≤ a) && decide (a < v.entry + 8 * v.count)
/-- A walk is held (R337 steps 1 and 6). -/
def walkHeld (s : State) (p ctx va : Nat) : Bool := (entriesFrom s va 4 1 (ctxRoot s p ctx)).any (entryHeld s)
/-- The physical address that a leaf gives a VA (R160, R161). -/
def leafPa (pte : DWord) (bits va : Nat) : Nat :=
  pteFrame pte.toNat / 2 ^ bits * 2 ^ bits + va % 2 ^ bits

/-! ## What a translation gives -/

/-- The outcome of a translation for one access (R160). -/
inductive Xr where
  /-- the resolved address, and S of the leaf -/
  | ok (pa : Nat) (stable : Bool)
  /-- a fault of R160 or R154 by its code -/
  | fault (code : Byte)
  /-- not present: the entry's address -/
  | absent (at_ : Nat)
  /-- a poisoned entry was read (R347) -/
  | poison (at_ : Nat)
  /-- an H = 1 leaf whose host address must be asked for (R160) -/
  | ats (host : Nat)
  /-- no translation is at hand: a walk is needed -/
  | miss
  deriving DecidableEq, Repr

/-- The leaf rows of R160 and the check of R154 for an access through a leaf; known says that an H = 1 leaf carries its
translated host address. -/
def useLeaf (s : State) (p : Nat) (write : Bool) (pte : DWord) (bits va : Nat) (known : Bool) : Xr :=
  let e := pte.toNat
  if write && !bit e 3 then .fault 0x17
  else if !bit e 63 && e / 2 ^ 61 % 4 = 3 && !s.atsbyp.getLsbD p then .fault 0x17
  else if bit e 63 && !known then .ats (leafPa pte bits va % 2 ^ 50)
  else match resolve s (leafPa pte bits va) with
    | none => .fault 0x18
    | some a => .ok a (bit e 60)

/-- The TLB entry for a VA (R161, R164). -/
def tlbFind (l : List TlbEntry) (ctx va : Nat) : Option TlbEntry :=
  l.find? fun e => e.ctx = ctx && e.va = va / 2 ^ e.bits * 2 ^ e.bits
/-- Whether an access may use an entry without the walker: a first write needs it to set D (R160). -/
def tlbServes (e : TlbEntry) (write : Bool) : Bool := !write || e.dSet || !bit e.pte.toNat 3
/-- A TLB with an entry loaded, newest first. -/
def tlbLoad (n : Nat) (l : List TlbEntry) (e : TlbEntry) : List TlbEntry :=
  (e :: l.filter fun x => !(x.ctx = e.ctx && x.va = e.va && x.bits = e.bits)).take n

/-! ## Sending translations, notices and monitors (R170, R345) -/

/-- A notice about a not-present entry: source as R344 AUX. -/
def notice (s : State) (p ctx : Nat) (who : Option Group) (va entry source : Nat) (write : Bool) : State :=
  pushNotice s p ctx who va entry source write
/-- Arm a monitor on the line of an entry, or join it, with the notice of R345. The second part says whether a monitor
holds the party; when none is free the party retries after 10 µs, and only its first walk
writes a notice (R170, R345). -/
def armMonitor (s : State) (p ctx : Nat) (g? : Option Group) (who : Party) (va entry source : Nat) (write noted : Bool) :
    State × Bool :=
  let d := paDie entry
  let line := entry / 128
  match (die s d).mon.find? fun m => m.line = line with
  | some m =>
    let known := m.recs.contains (ctx, entry)
    let s := modDie s d fun x =>
      { x with mon := x.mon.map fun k =>
          if k.line = line then { k with who := addOnce k.who who, recs := addOnce k.recs (ctx, entry) } else k }
    (if known || noted then s else notice s p ctx g? va entry source write, true)
  | none =>
    if (die s d).mon.length < Config.monitors then
      let s := modDie s d fun x => { x with mon := x.mon ++ [⟨line, [who], [(ctx, entry)]⟩] }
      (if noted then s else notice s p ctx g? va entry source write, true)
    else (if noted then s else notice s p ctx g? va entry source write, false)
/-- A walk, or a retry of one, under a number. -/
def addWalk (s : State) (w : Walk) : State × Nat :=
  let (s, id) := freshId s
  ({ s with walks := mput s.walks id w }, id)
/-- A party records itself on the monitor of an entry that was not present, or retries in 10 µs (R170, R206, R324). -/
def waitEntry (s : State) (p ctx : Nat) (g? : Option Group) (who : Party) (d va entry source : Nat) (write noted : Bool) : State :=
  let (s, armed) := armMonitor s p ctx g? who va entry source write noted
  if armed then s
  else (addWalk s { part := p, ctx := ctx, va := va, write := write, who := who, die := d, retry := true,
                    noted := true, notBefore := s.time + Config.retryNs }).1
/-- A party's first walk for a VA has met a full monitor table and written its notice (R345). -/
def hasNoted (s : State) (who : Party) (va : Nat) : Bool := s.walks.any fun w => w.2.who = who && w.2.va = va && w.2.noted

/-! ## Writing at the home -/

/-- The core at which a party is reached (R319, R346). -/
def partyHome (s : State) : Party → Home
  | .group gid | .lane gid _ _ | .waita gid | .fetch gid | .window gid => .core (grp s gid).core
  | .copy id => .core (((mget s.copies id).map fun x => x.core).getD 0)
  | .coll id => .die (((mget s.colls id).map fun x => x.die).getD 0)
  | .queue _ _ => .die 0
  | .fe id => .die (id / 4)
/-- A write of bytes to a monitored line: a WAITA reads again, every other party is woken and the entry freed (R170, R198). -/
def wakeLine (s : State) (line : Nat) : State :=
  let d := paDie (128 * line)
  match (die s d).mon.find? fun m => m.line = line with
  | none => s
  | some m =>
    let stays : Party → Bool := fun w => match w with
      | .waita gid => match (grp s gid).status with
        | .waiting (.mem pa n e _) => readNum s.mem pa n = e.toNat
        | _ => false
      | _ => false
    let keep := m.who.filter stays
    let s := modDie s d fun x =>
      let rest := if keep.isEmpty then x.mon.filter fun k => k.line != line
        else x.mon.map fun k => if k.line = line then { k with who := keep } else k
      { x with mon := rest }
    (m.who.filter fun w => !stays w).foldl (fun s w => sendFrom s d 31 none (partyHome s w) (.wake w line)) s
/-- The slice and the set of a slice that a line occupies in the L2 of its die: R157 gives the slice; the set, one of 2,048 of
16 ways, is the model's choice (R7, R174, assumption 77). -/
def l2Set (line : Nat) : Nat × Nat :=
  let off := paOff (128 * line)
  (sliceOf off, off / 128 / 24 % 2048)
/-- An access to a line at its home: near and far lines enter the L2 of their die, the least recently used line of a full set
leaving it for the memory behind (R7, R174). -/
def l2Touch (s : State) (line : Nat) (write : Bool) : State :=
  if !cacheable (128 * line) then s
  else modDie s (paDie (128 * line)) fun x =>
    let dirty := write || x.l2.any fun k => k.line = line && k.dirty
    let rest := x.l2.filter fun k => k.line != line
    let same := rest.filter fun k => l2Set k.line = l2Set line
    let rest := if same.length < 16 then rest
      else match same.getLast? with
        | some v => rest.filter fun k => k.line != v.line
        | none => rest
    { x with l2 := ⟨line, dirty⟩ :: rest }
/-- The lines that a list of byte addresses lies in, rising. -/
def linesOf (as : List Nat) : List Nat := as.foldl (fun l a => insertNat l (a / 128)) []
/-- A line is written at its home: the L2 takes it and monitors on it act (R170, R174). -/
def homeLine (s : State) (line : Nat) : State := wakeLine (l2Touch s line true) line
/-- Bytes are written at their home: memory changes, a word written whole loses its poison, words sent poisoned are marked,
and monitors on the lines act (R170, R172, R347). -/
def homeWrite (s : State) (bytes : Cells Byte) (bad : List Nat) : State :=
  let has (a : Nat) : Bool := (mget bytes a).isSome
  let whole (w : Nat) : Bool := has (4 * w) && has (4 * w + 1) && has (4 * w + 2) && has (4 * w + 3)
  let s := { s with
    mem := bytes.foldl (fun m x => writeByte m x.1 x.2) s.mem
    memBad := bad.foldl insertNat (s.memBad.filter fun w => !whole w) }
  (linesOf (bytes.map (·.1))).foldl homeLine s
/-- n bytes of x written at a home. -/
def homeWriteNum (s : State) (pa n x : Nat) : State := homeWrite s (cellsOf pa n x) []
/-- The walker's atomic OR of A, and of D for a write; an entry that it finds poisoned it leaves (R160, R347). -/
def setAD (s : State) (at_ : Nat) (write : Bool) : State :=
  let e := readNum s.mem at_ 8
  let e' := (BitVec.ofNat 64 e ||| (if write then 0x60 else 0x20)).toNat
  if e' = e || poisoned s at_ 8 then s else homeWriteNum s at_ 8 e'

/-! ## Translating -/

/-- Die TLB and walker at once, as an engine or a home slice translates (R206, R311, R387): the table is read, A and D set
and the die TLB loaded. -/
def xlateDie (s : State) (d p ctx va : Nat) (write : Bool) : State × Xr :=
  match (tlbFind (die s d).tlb ctx va).filter (tlbServes · write) with
  | some e => (s, useLeaf s p write e.pte e.bits va true)
  | none =>
    if walkHeld s p ctx va then (s, .miss) else
    match walkVa s p ctx va with
    | .absent a => (s, .absent a)
    | .format => (s, .fault 0x16)
    | .physical => (s, .fault 0x18)
    | .poison a => (s, .poison a)
    | .leaf base bits pte a =>
      match useLeaf s p write pte bits va false with
      | .ok pa st =>
        let s := setAD s a write
        let e : TlbEntry := ⟨ctx, base, bits, pte, a, write || bit pte.toNat 6, 0⟩
        (modDie s d fun x => { x with tlb := tlbLoad Config.dieTlb x.tlb e }, .ok pa st)
      | r => (s, r)
/-- The tag of a result held for the word that is being issued (R163, R210). -/
def tagOf (s : State) (ops : List Nat) : Tag := ⟨s.issue.pos, s.issue.word, ops⟩
/-- The held walk results whose tag matches: the word and its operand values are those of the first attempt (R210). -/
def heldFor (s : State) (ops : List Nat) : List HeldWalk := s.issue.pre.heldWalks.filter fun h => h.tag = tagOf s ops
/-- A group's translation from what is at hand: held walk results, the core TLB, the die TLB (R164, R210). -/
def xlateGroup (s : State) (c p ctx va : Nat) (write : Bool) (held : List HeldWalk) : Xr :=
  match held.find? fun h => h.va = va / 4096 * 4096 && (h.write || !write) with
  | some h =>
    match h.res with
    | .leaf _ bits pte _ => useLeaf s p write pte bits va true
    | .absent a => .absent a
    | .format => .fault 0x16
    | .poison a => .poison a
    | .physical => .fault 0x18
  | none =>
    match (tlbFind (core s c).tlb ctx va).filter (tlbServes · write) with
    | some e => useLeaf s p write e.pte e.bits va true
    | none =>
      match (tlbFind (die s (dieOf c)).tlb ctx va).filter (tlbServes · write) with
      | some e => useLeaf s p write e.pte e.bits va true
      | none => .miss
/-- A die TLB hit loads the core TLB (R164). -/
def loadCoreTlb (s : State) (c ctx va : Nat) (write : Bool) : State :=
  match (tlbFind (core s c).tlb ctx va).filter (tlbServes · write) with
  | some _ => s
  | none => match tlbFind (die s (dieOf c)).tlb ctx va with
    | some e => modCore s c fun k => { k with tlb := tlbLoad Config.coreTlb k.tlb e }
    | none => s

/-! ## The L1 (R172 to R176) -/

/-- The ways of a core that take new fills: those that no team has pinned or is pinning (R178, R179). -/
def openWays (s : State) (c : Nat) : List Nat :=
  (List.range 16).filter fun w => s.teams.all fun t => t.2.core != c || !t.2.ways.contains w
def l1Line (s : State) (c line : Nat) : L1Line := (mget (core s c).l1 line).getD {}
def l1Word (s : State) (c pa : Nat) : Option L1Word := mget (l1Line s c (pa / 128)).words (pa / 4 % 32)
/-- The home-bound writes that later ones of a group must follow (R223). -/
def fencesOf (s : State) (gid : Nat) : List Nat :=
  (if s.issue.gid = gid then s.issue.cur.fenceAfter else (grp s gid).fenceAfter).filter fun n => !performed s n
/-- A message with the dirty words of a line among ws, acknowledging an operation where one is given; its number. It is a
home-bound write of the group that asks for it and of every group whose stores the words hold (R172, R214). -/
def writeBackLine (s : State) (c : Nat) (gid ack : Option Nat) (line : Nat) (ws : List Nat) : State × List Nat :=
  let l := l1Line s c line
  let dirty := l.words.filter fun w => w.2.dirty && ws.contains w.1
  if dirty.isEmpty then (s, [])
  else
    let bytes := (dirty.map fun w => cellsOf (128 * line + 4 * w.1) 4 w.2.val.toNat).flatten
    let bad := (dirty.filter (·.2.bad)).map fun w => 32 * line + w.1
    let n := s.nextId
    let owners := (dirty.foldl (fun l w => w.2.by_.foldl addOnce l) []).filter fun g => some g != gid
    let s := send s c gid (homeOf (128 * line)) (.write bytes bad ack)
    let s := netMod s n fun m => { m with also := owners, after := owners.foldl (fun l g => (fencesOf s g).foldl addOnce l) m.after }
    let clean := l.words.map fun w => if ws.contains w.1 then (w.1, { w.2 with dirty := false, by_ := [] }) else w
    (modCore s c fun k => { k with l1 := mput k.l1 line { l with words := clean } }, [n])
/-- The words 0 to 31 of a line. -/
def allWords : List Nat := List.range 32
/-- Write back the dirty words that sel names of every line, giving the messages' numbers. -/
def writeBack (s : State) (c : Nat) (gid ack : Option Nat) (sel : Nat → Nat → Bool) : State × List Nat :=
  (core s c).l1.foldl (fun (x : State × List Nat) l =>
    let (t, ns) := writeBackLine x.1 c gid ack l.1 (allWords.filter (sel l.1))
    (t, x.2 ++ ns)) (s, [])
/-- Invalidate the words that sel names. -/
def invalidate (s : State) (c : Nat) (sel : Nat → L1Line → Nat → L1Word → Bool) : State :=
  modCore s c fun k => { k with l1 := (k.l1.map fun l =>
    (l.1, { l.2 with words := l.2.words.filter fun w => !sel l.1 l.2 w.1 w.2 })).filter fun l => !l.2.words.isEmpty }
/-- The words that a read sets in the L1 when it returns. -/
def fillOf : ReadFor → List Nat
  | .load _ _ _ _ ws _ | .kldg _ _ _ _ _ ws _ | .pref ws _ => ws
  | _ => []
/-- A read whose fill sets those words alone that keep names; it is told S of the page. -/
def cutFill (keep : Bool → Nat → Bool) : ReadFor → ReadFor
  | .load op sz ls got ws st => .load op sz ls got (ws.filter (keep st)) st
  | .kldg g w pa n got ws st => .kldg g w pa n got (ws.filter (keep st)) st
  | .pref ws st => .pref (ws.filter (keep st)) st
  | f => f
/-- A message is a core's own, or is on its way to it. -/
def fillFor (c : Nat) (m : Msg) : Bool := m.srcDie = dieOf c && m.srcCore = c % 24 || m.home = .core c
/-- A read, or what it has brought, whose fill no longer sets the words that sel names by S of their page and 32 × line + word; with
past only what a home has read is touched. -/
def cutMsg (past : Bool) (sel : Bool → Nat → Bool) (m : Msg) : Msg :=
  let cut (line : Nat) : ReadFor → ReadFor := cutFill fun st w => !sel st (32 * line + w)
  match m.body with
  | .read line ws f => if past then m else { m with body := .read line ws (cut line f) }
  | .data f ((a, b) :: bytes) bad err => { m with body := .data (cut (a / 128) f) ((a, b) :: bytes) bad err }
  | _ => m
/-- The words, 32 × line + word, that no fill on its way to a core sets any more, where sel names them (assumption 12). -/
def stopWords (s : State) (c : Nat) (sel : Nat → Bool) : State :=
  { s with net := s.net.map fun m => if fillFor c m then cutMsg false (fun _ => sel) m else m }
/-- The words that fills on their way to a core bring as their homes have read them already, and no longer set, where sel names them by
S of their page and by word: a read that is still to be performed gives what it finds then (assumption 12). -/
def stopOld (s : State) (c : Nat) (sel : Bool → Nat → Bool) : State :=
  { s with net := s.net.map fun m => if fillFor c m then cutMsg true sel m else m }
/-- A fill that will set words of a line in its way is on its way to a core; one sent since the way is being pinned fills another
(R179 step 2). -/
def fillComing (s : State) (c line : Nat) : Bool :=
  s.net.any fun m => fillFor c m && !m.aside && match m.body with
    | .read l _ f => l = line && !(fillOf f).isEmpty
    | .data f bytes _ err => (bytes.head?.map (·.1 / 128)) = some line && !(fillOf f).isEmpty && !err
    | _ => false
/-- An acquire at .gang or wider discards the core's clean words of S = 0 pages (R218). -/
def acquireAt (s : State) (c : Nat) (sc : Scope) : State :=
  match sc with
  | .grp | .team => s
  | _ => stopOld (invalidate s c fun _ l _ w => !w.dirty && !l.stable) c fun st _ => !st
/-- The dirty words of a core belong to no group any more: a write-back by pre-emption is of no group (R226). -/
def disown (s : State) (c : Nat) : State :=
  modCore s c fun k => { k with l1 := mmap k.l1 fun _ l => { l with words := mmap l.words fun _ w => { w with by_ := [] } } }
/-- One more than the latest use of a line of a core's L1. -/
def l1Clock (s : State) (c : Nat) : Nat := (core s c).l1.foldl (fun n l => max n l.2.used) 0 + 1
/-- A hit makes its line the most recently used one (R172). -/
def l1Touch (s : State) (c line : Nat) : State :=
  if (mget (core s c).l1 line).isSome then
    modCore s c fun k => { k with l1 := mput k.l1 line { l1Line s c line with used := l1Clock s c } }
  else s
/-- The way of its set that holds a word of a line (R6, R179). -/
def wayOf (l : L1Line) (w : L1Word) : Nat := w.aside.getD l.way
/-- The ways that a line takes. -/
def lineWays (l : L1Line) : List Nat := l.words.foldl (fun n w => addOnce n (wayOf l w.2)) [l.way]
/-- What a line has in some ways leaves the L1, its dirty words written back (R172, R179). -/
def dropWays (s : State) (c line : Nat) (ways : List Nat) : State :=
  let l := l1Line s c line
  let here (w : L1Word) : Bool := ways.contains (wayOf l w)
  let (s, _) := writeBackLine s c none none line ((l.words.filter fun w => here w.2).map (·.1))
  let rest := l.words.filter fun w => !here w.2
  modCore s c fun x => { x with l1 := match rest with
    | [] => mdel x.l1 line
    | w :: _ => mput x.l1 line { l with way := wayOf l w.2, words := mmap rest fun _ w => { w with aside := none } } }
/-- The lines of a set of a core's L1: the physical line number modulo 512 is the set; R6 gives 512 sets and no rule gives their
index (assumption 76). -/
def setLines (s : State) (c set : Nat) : Map L1Line := (core s c).l1.filter fun l => l.1 % 512 = set
/-- The first open way that no line of a set holds (assumption 76). -/
def freeWay (s : State) (c set : Nat) : Option Nat :=
  (openWays s c).find? fun w => (setLines s c set).all fun l => !(lineWays l.2).contains w
/-- The least recently used line among a set's unpinned ways (R172). -/
def oldestLine (s : State) (c set : Nat) : Option Nat :=
  (((setLines s c set).filter fun l => (lineWays l.2).any (openWays s c).contains).foldl (fun (b : Option (Nat × Nat)) l => match b with
    | none => some (l.1, l.2.used)
    | some (k, u) => if l.2.used < u then some (l.1, l.2.used) else some (k, u)) none).map (·.1)
/-- Make room for a line in a set: where no open way is free the least recently used line leaves (R172). -/
def l1Room (s : State) (c set : Nat) : State :=
  if (freeWay s c set).isSome then s
  else match oldestLine s c set with
    | some k => dropWays s c k (openWays s c)
    | none => s
/-- Put words into a line of the L1; a line that was not there takes a free way. -/
def l1Put (s : State) (c line : Nat) (stable : Bool) (ws : List (Nat × L1Word)) : State :=
  if ws.isEmpty then s
  else
    let s := if (mget (core s c).l1 line).isSome then s else l1Room s c (line % 512)
    let l := (mget (core s c).l1 line).getD { way := (freeWay s c (line % 512)).getD 15 }
    modCore s c fun k => { k with l1 := mput k.l1 line { l with
      words := ws.foldl (fun m w => mput m w.1 w.2) l.words, stable := stable, used := l1Clock s c } }
/-- A line lies in a way that is being pinned, which takes no new fills (R179 step 1). -/
def inChosenWay (s : State) (c line : Nat) : Bool :=
  ((mget (core s c).l1 line).map fun l => !(openWays s c).contains l.way).getD false
/-- The other way that later misses on a line in a chosen way fill: the one that already holds words of it, or one that room is made in
(R179). -/
def asideWay (s : State) (c line : Nat) : State × Option Nat :=
  match (l1Line s c line).words.findSome? fun w => w.2.aside.filter (openWays s c).contains with
  | some w => (s, some w)
  | none =>
    let s := l1Room s c (line % 512)
    (s, freeWay s c (line % 512))
/-- A fill sets its words valid and never overwrites a dirty one; one that is to fill another way than its line's does (R172, R179). -/
def l1Fill (s : State) (c line : Nat) (aside : Bool) (fill : List Nat) (stable : Bool) (bytes : Cells Byte) (bad : List Nat) : State :=
  let l := l1Line s c line
  let ws := allWords.filterMap fun w =>
    let a := 128 * line + 4 * w
    if !fill.contains w || ((mget l.words w).map (·.dirty)).getD false || (mget bytes a).isNone then none
    else some (w, ({ val := BitVec.ofNat 32 (ofBytes ((List.range 4).map fun i => cget 0 bytes (a + i))),
                     bad := bad.contains (a / 4) } : L1Word))
  if aside && !ws.isEmpty && inChosenWay s c line then
    let (s, way) := asideWay s c line
    l1Put s c line stable (ws.map fun w => (w.1, { w.2 with aside := way }))
  else l1Put s c line stable ws
/-- Ask a line's home for words of it; the number of the message is the next one. -/
def askLine (s : State) (c : Nat) (gid : Option Nat) (home : Home) (line : Nat) (ws : List Nat) (f : ReadFor) : State :=
  netMod (send s c gid home (.read line ws f)) s.nextId fun m => { m with aside := inChosenWay s c line }
/-- The bytes of a range that the L1 holds as valid words. -/
def l1Bytes (s : State) (c pa n : Nat) : Cells Byte :=
  (List.range n).foldl (fun m i => match l1Word s c (pa + i) with
    | some w => mput m (pa + i) (BitVec.ofNat 8 (w.val.toNat / 256 ^ ((pa + i) % 4)))
    | none => m) []
/-- The words of a line that a fill for some missing ones asks for: with each missing word the other word of its aligned pair,
unless that one is dirty, so that the valid words of a pair are of one read and an 8-byte load is single-copy atomic (R172, R212,
assumption 78). -/
def fillWords (s : State) (c line : Nat) (missing : List Nat) : List Nat :=
  allWords.filter fun w => missing.contains w
    || (missing.contains (w ^^^ 1) && !((mget (l1Line s c line).words w).map (·.dirty)).getD false)
/-- LDA: the dirty words among its bytes are written back and dropped (R222). -/
def dropDirty (s : State) (c : Nat) (gid : Option Nat) (pa n : Nat) : State :=
  if !cacheable pa then s
  else
    let ws := (wordsOf pa n).map (· % 32)
    let dirty := ws.filter fun w => ((mget (l1Line s c (pa / 128)).words w).map (·.dirty)).getD false
    let (s, _) := writeBackLine s c gid none (pa / 128) ws
    invalidate s c fun l _ w _ => l = pa / 128 && dirty.contains w
/-- The atomics and STL: write back the dirty words among their bytes, then drop the words, clean ones too, since a later load of
the group returns no value older than the store or atomic (R168, R173, R222, assumption 79). -/
def dropWords (s : State) (c : Nat) (gid : Option Nat) (pa n : Nat) : State × List Nat :=
  if !cacheable pa then (s, [])
  else
    let ws := (wordsOf pa n).map (· % 32)
    let (s, ns) := writeBackLine s c gid none (pa / 128) ws
    (stopWords (invalidate s c fun l _ w _ => l = pa / 128 && ws.contains w) c fun w => w / 32 = pa / 128 && ws.contains (w % 32), ns)

/-! ## The checks of a lane access (R164, R166 to R169) -/

/-- One address of a lane (R164, R196). -/
structure Item where
  lane : Nat
  off : Int
  size : Nat
  sec : Bool := false
  deriving DecidableEq, Repr
/-- A checked address: resolved, with S of its page. -/
structure Acc where
  lane : Nat
  pa : Nat
  size : Nat
  sec : Bool
  stable : Bool
  deriving DecidableEq, Repr
/-- What the checks give. -/
inductive Checked where
  /-- a fault, a kill or a wait has been recorded in the state -/
  | stop (s : State)
  /-- the lanes that are sent, and the lanes that are not present (R169) -/
  | ok (s : State) (acc : List Acc) (u : Word)

/-- The group's own part and context. -/
def partOf (s : State) (g : Group) : Nat := (gridOf s g).part
def ctxOf (s : State) (g : Group) : Nat := (gridOf s g).ctx
/-- EINFO's ADDR for checks 1 to 3 (R342). -/
def offAddr (o : Int) : Nat := (o % 2 ^ 48).toNat
/-- The address of an item and its S, from the direct path or the TLBs. -/
def itemPa (s : State) (g : Group) (w : Window) (write : Bool) (held : List HeldWalk) (i : Item) : Xr :=
  let o := i.off.toNat
  if o + i.size ≤ w.limit then
    (if write && !w.w then .fault 0x17
     else match resolve s (w.frame + o) with
      | some a => .ok a w.stable
      | none => .fault 0x18)
  else xlateGroup s g.core (partOf s g) (ctxOf s g) (w.base + o) write held
/-- The first write through a direct path: the walker sets D in every leaf that the path covers (R164). -/
def dirtyDirect (s : State) (w : Window) : State :=
  w.leaves.foldl (fun s a => setAD s a true) s
/-- A leaf that a direct path covers has been poisoned: setting A or D in it reads it (R164, R347). -/
def poisonedLeaf (s : State) (w : Window) : Option Nat := (w.leaves.find? (poisoned s · 8)).map (firstPoison s · 8)
/-- Start the walks for the pieces that miss and hold the issue group (R166, R210). -/
def walkPieces (s : State) (g : Group) (who : Party) (ops : List Nat) (accesses : List (Nat × Bool)) : State :=
  let pieces := accesses.foldl (fun (l : List (Nat × Bool)) x =>
    if l.any fun y => y.1 / 4096 = x.1 / 4096 && y.2 = x.2 then l else l ++ [x]) []
  let s := pieces.foldl (fun s x =>
    let (s, id) := addWalk s { part := partOf s g, ctx := ctxOf s g, va := x.1, write := x.2, who := who, die := dieOf g.core, tag := tagOf s ops }
    modCur s fun c => { c with walksOut := c.walksOut ++ [id] }) s
  stall s
/-- R166 for accesses through window n; tierOk says which tiers the operation may reach (R197). The walks that a stalled access starts
are its own where it comes again with the same addresses: R163 names the operand values for words with one address, and for lanes
the model compares the addresses, not the data to be stored or compared (R210, assumption 104). -/
def checkAccess (s : State) (n : Nat) (items : List Item) (write : Bool) (tierOk : Nat → Bool) : Checked :=
  let g := s.issue.pre
  let w := xwget g n
  match items.head? with
  | none => .ok s [] 0
  | some i0 =>
    if !w.isOpen then .stop (raiseA s 0x10 (offAddr i0.off) false i0.sec i0.lane)
    else match items.find? fun i => ((w.base : Int) + i.off) % i.size != 0 with
    | some i => .stop (raiseA s 0x13 (offAddr i.off) false i.sec i.lane)
    | none =>
      match items.find? fun i => decide (i.off < 0) || decide ((w.size : Int) < i.off + i.size) with
      | some i => .stop (raiseA s 0x11 (offAddr i.off) false i.sec i.lane)
      | none =>
        let ops := items.map fun i => w.base + i.off.toNat
        let rs := items.map fun i => (i, itemPa s g w write (heldFor s ops) i)
        let missing := rs.filter fun x => x.2 = .miss
        if !missing.isEmpty then
          .stop (walkPieces s g (.group s.issue.gid) ops
            (missing.map fun x => (w.base + x.1.off.toNat, write)))
        else
          let va (i : Item) : Nat := w.base + i.off.toNat
          let bad : Option (Item × Byte) := rs.findSome? fun x => match x.2 with
            | .fault c => some (x.1, c)
            | .ok pa _ => if tierOk (paTier pa) then none else some (x.1, 0x19)
            | _ => none
          match bad with
          | some (i, c) => .stop (raiseA s c (va i) true i.sec i.lane)
          | none =>
            let direct := rs.any fun x => decide (x.1.off.toNat + x.1.size ≤ w.limit)
            let first := write && direct && !w.dirtied
            match (rs.findSome? fun x => match x.2 with | .poison a => some a | _ => none).orElse
                fun _ => if first then poisonedLeaf s w else none with
            | some a => .stop (poisonKill s a true)
            | none =>
              let gone := maskOf fun l => rs.any fun x => x.1.lane = l && (match x.2 with | .absent _ => true | .ats _ => true | _ => false)
              let s := rs.foldl (fun s x => if x.1.off.toNat + x.1.size ≤ w.limit then s
                else loadCoreTlb s g.core (ctxOf s g) (va x.1) write) s
              let s := if first then
                  modCur (dirtyDirect s w) fun c => { c with xw := mput c.xw n { xwget c n with dirtied := true } }
                else s
              .ok s (rs.filterMap fun x => match x.2 with
                | .ok pa st => if inMask gone x.1.lane then none else some ⟨x.1.lane, pa, x.1.size, x.1.sec, st⟩
                | _ => none) gone

/-- After a memory word has sent the lanes that translated: lanes left over park the group, and no other word takes effect
(R169). Done otherwise, with U back at every lane. -/
def finishLanes (s : State) (u : Word) : State :=
  if u = 0 then modCur s fun c => { c with u := none }
  else { s with issue := { s.issue with verdict := .parked, cur := { s.issue.cur with u := some u } } }

/-! ## Requests (R177) -/

/-- The answers of an operation are those of line requests (R177). -/
def opCounted (s : State) (op : Nat) : Bool := ((mget s.ops op).map fun o => !o.uncounted).getD true
/-- Outstanding requests of a core: line requests of lane accesses and atomic transactions until they are answered, held ones
included, copy units and tour lanes in flight (R177, R310). A hit, a carve-out access and an LDP make none. -/
def outstanding (s : State) (c : Nat) : Nat :=
  let mine (m : Msg) : Bool := m.srcDie = dieOf c && m.srcCore = c % 24 && m.srcCore != 31
  let asks (m : Msg) : Bool := match m.body with
    | .read _ _ (.copy _ _ _ _) => false
    | .read _ _ _ | .atomic _ _ _ _ => mine m
    | .write _ _ (some op) => mine m && opCounted s op
    | .data (.copy _ _ _ _) _ _ _ => false
    | .data _ bytes _ _ => m.home = .core c && !bytes.isEmpty
    | .atomData op _ _ _ | .ack op _ => m.home = .core c && opCounted s op
    | _ => false
  let lanes (g : Group) : Nat := g.tours.foldl (fun n x => n + (x.2.lanes.filter fun l => l.2.st = .inFlight).length) 0
  (s.net.filter asks).length + (s.rels.filter fun r => 24 * r.2.srcDie + r.2.srcCore = c).length + (s.copies.filter fun x => x.2.core = c).foldl (fun n x => n + x.2.out) 0
    + (s.groups.filter fun g => g.2.core = c).foldl (fun n g => n + lanes g.2) 0
/-- Hold the issue group when n more requests would pass the limit (R177). -/
def withRequests (s : State) (n : Nat) (k : State → State) : State :=
  if n != 0 && Config.requests < outstanding s s.issue.pre.core + n then stall s else k s

/-- Group addresses by line, lines rising, lanes in order within a line. -/
def byLine (acc : List Acc) : List (Nat × List Acc) :=
  (linesOf (acc.map (·.pa))).map fun l => (l, acc.filter fun a => a.pa / 128 = l)

/-! ## Queue descriptors and contexts, as the device reads them (R322, R323) -/

/-- Address of a queue descriptor (R323, R369 QTAB). -/
def qAddr (s : State) (p q : Nat) : Nat := (part s p).qtab.toNat % 2 ^ 52 + 64 * q
/-- A field of a queue descriptor. -/
def qField (s : State) (p q o n : Nat) : Nat := (devRead s (qAddr s p q + o) n).getD 0
/-- Write a field of a queue descriptor. -/
def qPut (s : State) (p q o n x : Nat) : State :=
  match resolve s (qAddr s p q + o) with
  | some a => homeWriteNum s a n x
  | none => s
def qRing (s : State) (p q : Nat) : Nat := qField s p q 0 8
def qLen (s : State) (p q : Nat) : Nat := qField s p q 8 4 % 32
def qCtx (s : State) (p q : Nat) : Nat := qField s p q 8 4 / 2 ^ 16 % 2 ^ 12
def qFlags (s : State) (p q : Nat) : Nat := qField s p q 0x0C 4
def qRead (s : State) (p q : Nat) : Nat := qField s p q 0x10 8
def qWrite (s : State) (p q : Nat) : Nat := qField s p q 0x18 8
/-- Set or clear bit b of FLAGS. -/
def qFlag (s : State) (p q b : Nat) (v : Bool) : State :=
  let f := qFlags s p q
  qPut s p q 0x0C 4 (if bit f b = v then f else if v then f + 2 ^ b else f - 2 ^ b)
/-- VA of the packet of ring index i (R323). -/
def qPacketVa (s : State) (p q i : Nat) : Nat := qRing s p q + 64 * (i % 2 ^ qLen s p q)
/-- ERR is set and ERRSTAT written; what the queue waited for is over (R323 to R325). -/
def qError (s : State) (p q index cause : Nat) : State :=
  qFlag (qPut (dropWalks s (.queue p q)) p q 0x38 8 (index % 2 ^ 32 * 2 ^ 32 + cause)) p q 1 true
/-- The class of a context (R322). -/
def ctxClass (s : State) (p ctx : Nat) : Nat := ctxSched s p ctx % 4

end Sys2Proof.Machine
end

