-- ==== Sys2Proof/Machine/LoadStore.lean ====
section
/-! DEFINITION. Windows, lane loads and stores, uniform loads, WAITA and PREF (R162 to R190, R198 to R200). -/

namespace Sys2Proof.Machine

/-! ## Sizes and registers of an access (R62) -/

def ldBytes : LdSize → Nat
  | .n8 | .i8 => 1 | .n16 | .i16 => 2 | .b32 => 4 | .b64 => 8 | .b128 => 16
def stBytes : StSize → Nat
  | .n8 => 1 | .n16 => 2 | .b32 => 4 | .b64 => 8 | .b128 => 16
/-- Registers of a value of n bytes. -/
def regsFor (n : Nat) : Nat := if n ≤ 4 then 1 else n / 4
/-- The registers from r that n bytes take. -/
def regRun (r n : Nat) : List Nat := (List.range (regsFor n)).map fun i => r + i
/-- The registers a load writes (R62, R23). -/
def ldRegs (g : Group) (d : Dst) (n : Nat) : List Nat := match d with
  | .v r => regRun (g.ixb + r.val) n
  | .discard => []
/-- The registers a store's data takes. -/
def stRegs (g : Group) (data : Opnd) (n : Nat) : List Nat := match data with
  | .v r => regRun (g.ixb + r.val) n
  | _ => []
/-- The value a lane stores: the low bytes of the operand, or the register run, lowest register lowest (R189). -/
def stValue (g : Group) (data : Opnd) (n l : Nat) : Nat := match data with
  | .v r => ofBytes (((regRun (g.ixb + r.val) n).map fun k => bytesOf 4 (vget g k l).toNat).flatten.take n)
  | _ => (opv g data l).toNat % 256 ^ n
/-- A register of the run fails its check in a lane that reads it (R347). -/
def badRegs (s : State) (lanes : List Nat) (regs : List Nat) : Bool :=
  regs.any fun r => lanes.any fun l => s.issue.pre.vBad.contains (32 * r + l)

/-! ## Loads that have been sent -/

/-- The first register of a destination, or 0 where nothing is written. -/
def dst0 (g : Group) : Dst → Nat
  | .v r => g.ixb + r.val
  | .discard => 0
/-- The destination words of a load of n bytes in lanes (R187). -/
def destWords (g : Group) (d : Dst) (n : Nat) (lanes : List Nat) : List (Nat × Nat) :=
  lanes.flatMap fun l => (ldRegs g d n).map fun r => (l, r)
/-- A load's operation: n bytes in each of some lanes; a carve-out or constant-cache one makes no line request (R177, R183, R187). -/
def loadOp (s : State) (d : Dst) (n : Nat) (lanes : List Nat) (parts : Nat) (flags : Byte) (uncounted : Bool) : State × Nat :=
  newOp s { gid := s.issue.gid, cls := .ld, parts := parts, flags := flags, discard := d = .discard, uncounted := uncounted,
            dests := destWords s.issue.pre d n lanes }
/-- An operation of class ST with a number of parts outstanding. -/
def storeOp (s : State) (parts : Nat) : State × Nat := newOp s { gid := s.issue.gid, cls := .st, parts := parts }
/-- One line of a load is sent: words the L1 holds are captured, one request asks the home for the rest (R172, R189). A poisoned
word that is captured lay in core storage (R354). -/
def sendLoadLine (s : State) (op : Nat) (sz : LdSize) (r : Nat) (line : Nat) (acc : List Acc) : State :=
  let g := s.issue.pre
  let c := g.core
  let n := (ldBytes sz)
  let words := (acc.map fun a => (wordsOf a.pa n).map (· % 32)).flatten.foldl insertNat []
  let st := acc.any (·.stable)
  let held (w : Nat) : Bool := cacheable (128 * line) && (mget (l1Line s c line).words w).isSome
  let missing := words.filter fun w => !held w
  let missing := if cacheable (128 * line) then fillWords s c line missing else missing
  let got := if cacheable (128 * line) then (l1Bytes s c (128 * line) 128).filter fun b => !missing.contains (b.1 / 4 % 32) else []
  let lanes := acc.map fun a => (a.lane, r, a.pa)
  let s := match words.find? fun w => !missing.contains w && ((mget (l1Line s c line).words w).map (·.bad)).getD false with
    | some w => poisonKill s (128 * line + 4 * w) false
    | none => s
  let s := l1Touch s c line
  if missing.isEmpty then send s c (some s.issue.gid) (.core c) (.data (.load op sz lanes got [] st) [] [] false)
  else askLine s c (some s.issue.gid) (homeOf (128 * line)) line missing
    (.load op sz lanes got (if cacheable (128 * line) then missing else []) st)
/-- Lines of a load that need a request (R177). -/
def loadRequests (s : State) (sz : LdSize) (acc : List Acc) : Nat :=
  ((byLine acc).filter fun x => x.2.any fun a =>
    !cacheable a.pa || (wordsOf a.pa (ldBytes sz)).any fun w => (l1Word s s.issue.pre.core (4 * w)).isNone).length
/-- The exact offset of a format M access (R164). -/
def mOffset (g : Group) (off : Opnd) (imm : BitVec 6) (n l : Nat) : Int := ((opv g off l).toNat : Int) + imm.toInt * n
/-- One item a lane. -/
def mItems (g : Group) (off : Opnd) (imm : BitVec 6) (n : Nat) : List Item :=
  (workLanes g).map fun l => { lane := l, off := mOffset g off imm n l, size := n }
/-- Every tier is allowed. -/
def anyTier : Nat → Bool := fun _ => true

/-- LD (R188, R189). -/
def execLd (sz : LdSize) (d : Dst) (win : Fin 8) (off : Opnd) (imm : BitVec 6) (s : State) : Out :=
  let g := s.issue.pre
  .next (withRegs s (opndRegs g off ++ top (ldRegs g d (ldBytes sz))) [off] fun s =>
    match checkAccess (memClass s) win.val (mItems g off imm (ldBytes sz)) false anyTier with
    | .stop s => s
    | .ok s acc u =>
      withRequests s (loadRequests s sz acc) fun s =>
        let (s, op) := loadOp s d (ldBytes sz) (acc.map (·.lane)) (byLine acc).length 0 false
        finishLanes ((byLine acc).foldl (fun s x => sendLoadLine s op sz (dst0 g d) x.1 x.2) s) u)

/-- The bytes that lanes store to a line, the highest lane's standing (R168). -/
def storeCells (g : Group) (data : Opnd) (n : Nat) (acc : List Acc) : Cells Byte :=
  acc.foldl (fun m a => (cellsOf a.pa n (stValue g data n a.lane)).foldl (fun m x => mput m x.1 x.2) m) []
/-- One lane's store into the L1: whole words are set, 1 or 2 bytes merged into a valid word (R172). -/
def l1Store (s : State) (c : Nat) (a : Acc) (n x : Nat) : State :=
  let gid := s.issue.gid
  if n < 4 then
    match l1Word s c a.pa with
    | none => s
    | some w =>
      let sh := 256 ^ (a.pa % 4)
      let v := w.val.toNat
      let v := v % sh + x * sh + v / (sh * 256 ^ n) * (sh * 256 ^ n)
      l1Put s c (a.pa / 128) a.stable [(a.pa / 4 % 32, { w with val := BitVec.ofNat 32 v, dirty := true, by_ := addOnce w.by_ gid })]
  else l1Put s c (a.pa / 128) a.stable ((List.range (n / 4)).map fun i =>
    let old := l1Word s c (a.pa + 4 * i)
    ((a.pa / 4 + i) % 32, { val := BitVec.ofNat 32 (x / 2 ^ (32 * i)), dirty := true,
                            by_ := addOnce ((old.map (·.by_)).getD []) gid, aside := old.bind (·.aside) }))
/-- The lanes whose bytes go onward: 1 and 2 bytes to a word that is not valid, and the fabric and host (R172). -/
def goesOn (s : State) (n : Nat) (a : Acc) : Bool :=
  !cacheable a.pa || (decide (n < 4) && (l1Word s s.issue.pre.core a.pa).isNone)
/-- ST: a fill on its way sets the other missing words of a line that is stored to (R172, R188, R189). -/
def execSt (sz : StSize) (data : Opnd) (win : Fin 8) (off : Opnd) (imm : BitVec 6) (s : State) : Out :=
  let g := s.issue.pre
  let n := (stBytes sz)
  .next (withRegs s (top (stRegs g data n) ++ opndRegs g off) [data, off] fun s =>
    match checkAccess (memClass s) win.val (mItems g off imm n) true anyTier with
    | .stop s => s
    | .ok s acc u =>
      let onward := byLine (acc.filter (goesOn s n))
      withRequests s onward.length fun s =>
        let s := if badRegs s (workLanes g) (stRegs g data n) then poisonKill s 0 false else s
        let here := acc.filter fun a => !goesOn s n a
        let s := stopWords s g.core fun w => acc.any fun a => (wordsOf a.pa n).contains w
        let s := here.foldl (fun s a => l1Store s g.core a n (stValue g data n a.lane)) s
        let (s, op) := storeOp s onward.length
        let s := modOp s op fun o => { o with holdsBar := true }
        finishLanes (onward.foldl (fun s x => send s g.core (some s.issue.gid) (homeOf (128 * x.1))
          (.write (storeCells g data n x.2) [] (some op))) s) u)

/-! ## Scratchpad (R178, R181) -/

/-- The gang size of a group: a node group is in no gang and has its own carve-out alone (R24, R42). -/
def gangSize (s : State) (g : Group) : Nat := if (team s g.team).node.isSome then 1 else (gridOf s g).gang
/-- The team of gang member m (R24). -/
def memberTeam (s : State) (g : Group) (m : Nat) : Nat :=
  let t := team s g.team
  if t.node.isSome then g.team else
  let idx := t.index / (grid s t.grid).gang * (grid s t.grid).gang + m
  ((s.teams.find? fun x => x.2.grid = t.grid && x.2.node.isNone && x.2.index = idx).map (·.1)).getD g.team
/-- The checks of R166 for a carve-out: gang member, alignment, bounds; k runs with the owning team. -/
def withScratch (s : State) (member : Option Nat) (items : List Item) (k : State → Nat → State) : State :=
  let g := s.issue.pre
  match items.head? with
  | none => k s g.team
  | some i0 =>
    if (match member with | some m => decide (gangSize s g ≤ m) | none => false) then
      raiseA s 0x14 (offAddr i0.off) false false i0.lane
    else match items.find? fun i => i.off % (i.size : Int) != 0 with
    | some i => raiseA s 0x13 (offAddr i.off) false false i.lane
    | none =>
      let t := match member with | some m => memberTeam s g m | none => g.team
      match items.find? fun i => decide (i.off < 0) || decide (((team s t).scratch : Int) < i.off + i.size) with
      | some i => raiseA s 0x14 (offAddr i.off) false false i.lane
      | none => k s t
/-- LDS and LDS.gang: a request to the owning array (R181, R189). -/
def loadScratch (s : State) (sz : LdSize) (d : Dst) (member : Option Nat) (off : Opnd) (imm : BitVec 6) : State :=
  let g := s.issue.pre
  withRegs s (opndRegs g off ++ top (ldRegs g d (ldBytes sz))) [off] fun s =>
    let items := mItems g off imm (ldBytes sz)
    withScratch (memClass s) member items fun s t =>
      if items.isEmpty then s
      else
        let (s, op) := loadOp s d (ldBytes sz) (items.map (·.lane)) 1 0 true
        finishLanes (send s g.core (some s.issue.gid) (.core (team s t).core)
          (.sread op t sz (items.map fun i => (i.lane, dst0 g d, i.off.toNat)))) 0
/-- LDS (R188). -/
def execLds (sz : LdSize) (d : Dst) (off : Opnd) (imm : BitVec 6) (s : State) : Out := .next (loadScratch s sz d none off imm)
/-- LDS.gang (R188). -/
def execLdsGang (sz : LdSize) (d : Dst) (mem : Fin 4) (off : Opnd) (imm : BitVec 6) (s : State) : Out :=
  .next (loadScratch s sz d (some mem.val) off imm)
/-- STS (R188). -/
def execSts (sz : StSize) (data : Opnd) (off : Opnd) (imm : BitVec 6) (s : State) : Out :=
  let g := s.issue.pre
  let n := (stBytes sz)
  .next (withRegs s (top (stRegs g data n) ++ opndRegs g off) [data, off] fun s =>
    let items := mItems g off imm n
    withScratch (memClass s) none items fun s t =>
      if items.isEmpty then s
      else
        let s := if badRegs s (workLanes g) (stRegs g data n) then poisonKill s 0 false else s
        let (s, op) := storeOp s 1
        let s := modOp s op fun o => { o with holdsBar := true, uncounted := true }
        let bytes := items.foldl (fun m i =>
          (cellsOf i.off.toNat n (stValue g data n i.lane)).foldl (fun m x => mput m x.1 x.2) m) []
        finishLanes (send s g.core (some s.issue.gid) (.core (team s t).core) (.swrite op t bytes)) 0)

/-! ## Parameter windows (R182, R190) -/

/-- A line becomes the most recently used one of a constant cache of 64 KiB; the least recently used one leaves a full cache. How
its 512 lines are organised is the model's choice (R6, assumption 80). -/
def ccUse (s : State) (c : Nat) (l : CcLine) : State :=
  modCore s c fun k => { k with cc := (l :: k.cc.filter fun x => x.line != l.line).take 512 }
/-- A poisoned word that was read: its physical address, and whether it lay in memory-side storage (R347, R354). -/
abbrev Spoiled := Option (Nat × Bool)
/-- One byte through the constant cache: the cached byte, or the byte in memory; either where they differ (R182). -/
def pwByte (s : State) (c : Nat) (pa : Nat) : State × Byte × Spoiled :=
  let now := readByte s.mem pa
  let line := pa / 128
  let inMem : Spoiled := if s.memBad.contains (pa / 4) then some (pa / 4 * 4, true) else none
  match (core s c).cc.find? fun l => l.line = line with
  | none =>
    (ccUse s c ⟨line, readBytes s.mem (128 * line) 128, (List.range 32).filter fun w => s.memBad.contains (32 * line + w)⟩, now, inMem)
  | some l =>
    let s := ccUse s c l
    let old := (l.bytes[pa % 128]?).getD 0
    let inCache : Spoiled := if l.bad.contains (pa / 4 % 32) then some (pa / 4 * 4, false) else none
    if old = now then (s, now, inCache)
    else
      let (s, b) := freeBit s
      (s, if b then (now, inMem) else (old, inCache))
/-- What a read of a parameter window gives. -/
structure PwGot where
  /-- the bytes -/
  bytes : List Byte := []
  /-- a byte lay outside the window (R182) -/
  outside : Bool := false
  /-- a poisoned word was among them (R347) -/
  bad : Spoiled := none
/-- n bytes of a parameter window from offset o: bytes outside read 0 (R182). -/
def pwRead (s : State) (c : Nat) (w : PWin) (o : Int) : Nat → State × PwGot
  | 0 => (s, {})
  | n + 1 =>
    let inside : Bool := decide (0 ≤ o) && decide (o < w.size)
    match (if inside then resolve s (w.frame + o.toNat) else none) with
    | some a =>
      let (s, b, x) := pwByte s c a
      let (s, r) := pwRead s c w (o + 1) n
      (s, { r with bytes := b :: r.bytes, bad := x.orElse fun _ => r.bad })
    | none =>
      let (s, r) := pwRead s c w (o + 1) n
      (s, { r with bytes := 0 :: r.bytes, outside := true })
/-- A poisoned word that a parameter-window read takes is consumed (R347). -/
def pwKill (s : State) (bad : Spoiled) : State :=
  match bad with
  | some (a, m) => poisonKill s a m
  | none => s
/-- Window n of the grid (R182). -/
def pwin (s : State) (g : Group) (n : Nat) : PWin := (mget (gridOf s g).pw n).getD {}
/-- The entry of the holding register that this word's operands tag (R163). -/
def findHold (s : State) (ops : List Nat) : Option Hold :=
  s.issue.pre.hold.find? fun h => h.pos = s.issue.pos && h.word = s.issue.word && h.ops = ops
/-- The holding register takes a new entry for this word (R163). -/
def noteHold (s : State) (ops : List Nat) (h : Hold) : State :=
  modCur s fun c => { c with hold := (c.hold.filter fun x => x.word != s.issue.word) ++
    [{ h with pos := s.issue.pos, word := s.issue.word, ops := ops }] }
/-- The holding register takes a new entry for this word and the issue group is held (R163). -/
def holdWord (s : State) (ops : List Nat) (h : Hold) : State := stall (noteHold s ops h)
/-- The offset of a uniform load (R190). -/
def kOffset (s : State) (a : Fin 64) (imm : BitVec 7) (n : Nat) : Nat := (kreg s a).toNat % 2 ^ 32 + imm.toNat * n
def kBytes (wide : Bool) : Nat := if wide then 8 else 4
/-- KLDP's value and flag (R182, R190). -/
def kldpResult (s : State) (d : Fin 64) (x : DWord) (outside : Bool) : State :=
  let s := kwrite s d x
  if outside then setFlags s fPWOVR else s
/-- KLDP (R163, R190). -/
def execKldp (wide : Bool) (d : Fin 64) (win : Fin 8) (a : Fin 64) (imm : BitVec 7) (s : State) : Out :=
  let g := s.issue.pre
  let n := kBytes wide
  let o := kOffset s a imm n
  let w := pwin s g win.val
  .next (if w.size = 0 then raiseA s 0x15 o false false 0
    else if o % n ≠ 0 then raiseA s 0x13 o false false 0
    else
      match findHold s [8, win.val, o] with
      | some h => kldpResult s d (h.res.getD 0) h.outside
      | none =>
        let (s, r) := pwRead s g.core w o n
        let x := BitVec.ofNat 64 (ofBytes r.bytes)
        kldpResult (noteHold (pwKill s r.bad) [8, win.val, o] { pos := {}, word := 0, ops := [], res := some x, outside := r.outside })
          d x r.outside)
/-- LDP: lane loads through the constant cache; PWOVR reaches STATUS with the batch (R182, R189). -/
def execLdp (sz : LdSize) (d : Dst) (win : Fin 8) (off : Opnd) (imm : BitVec 6) (s : State) : Out :=
  let g := s.issue.pre
  let n := (ldBytes sz)
  .next (withRegs s (opndRegs g off ++ top (ldRegs g d n)) [off] fun s =>
    let s := memClass s
    let items := mItems g off imm n
    let w := pwin s g win.val
    match items.head? with
    | none => s
    | some i0 =>
      if w.size = 0 then raiseA s 0x15 (offAddr i0.off) false false i0.lane
      else match items.find? fun i => i.off % (i.size : Int) != 0 with
      | some i => raiseA s 0x13 (offAddr i.off) false false i.lane
      | none =>
        let key (i : Item) : Nat := (i.off + 2 ^ 33).toNat
        let (s, got, ov) := items.foldl (fun (x : State × Cells Byte × Bool) i =>
          let (t, r) := pwRead x.1 g.core w i.off n
          (pwKill t r.bad, (r.bytes.mapIdx fun k b => (key i + k, b)).foldl (fun m y => mput m y.1 y.2) x.2.1, x.2.2 || r.outside)) (s, [], false)
        let (s, op) := loadOp s d n (items.map (·.lane)) 1 (if ov then fPWOVR else 0) true
        finishLanes (send s g.core (some s.issue.gid) (.core g.core)
          (.data (.load op sz (items.map fun i => (i.lane, dst0 g d, key i)) got [] false) [] [] false)) 0)

/-! ## Windows (R162 to R165) -/

/-- The window is parked on: no word of the issue group takes effect (R169). -/
def parkWord (s : State) : State :=
  { s with issue := { s.issue with cur := { s.issue.pre with heldWalks := s.issue.cur.heldWalks }, verdict := .parked } }
/-- The leaves of the same table page that follow, while each maps a page of the same size with the same TIER, H, S and W
and its frame follows; k counts the entries left in the table page. Gives the bytes gained and the entries. -/
def moreLeaves (s : State) (pte bits step : Nat) (need : Nat) : Nat → Nat → Nat → Nat → List Nat → Nat × List Nat
  | 0, _, _, lim, es => (lim, es)
  | k + 1, at_, frame, lim, es =>
    let e := readNum s.mem at_ 8
    let level := if bits = 30 then 2 else if bits = 21 then 3 else 4
    let same := e / 2 ^ 60 % 16 = pte / 2 ^ 60 % 16 && bit e 3 = bit pte 3
    let lead := pteFrame e / 2 ^ bits * 2 ^ bits
    if need ≤ lim || entryHeld s at_ || poisoned s at_ 8 || !bit e 0 || badEntry level e || !isLeafEntry level e || leafBits level e != bits
        || !same || lead != frame then (lim, es)
    else moreLeaves s pte bits step need k (at_ + 8 * step) (frame + 2 ^ bits) (lim + 2 ^ bits)
      (es ++ (List.range step).map fun i => at_ + 8 * i)
/-- The direct path of a window from the leaf of its base (R163): limit and entries, A set in each. -/
def directPath (s : State) (base size : Nat) (pte : DWord) (bits at_ : Nat) : State × Window :=
  let e := pte.toNat
  let pa := leafPa pte bits base
  let w : Window := { isOpen := true, base := base, size := size, frame := pa, w := bit e 3, stable := bit e 60 }
  if bit e 63 then (s, w)
  else
    let step := if bits = 16 then 16 else 1
    let index := at_ / 8 % 512
    let first := index / step * step
    let at0 := at_ - 8 * (index - first)
    let got := moreLeaves s e bits step (min size (2 ^ 30)) ((512 - first - step) / step) (at0 + 8 * step)
      (pa / 2 ^ bits * 2 ^ bits + 2 ^ bits) (2 ^ bits - base % 2 ^ bits) ((List.range step).map fun i => at0 + 8 * i)
    (got.2.foldl (fun s a => setAD s a false) s,
     { w with limit := min got.1 (min size (2 ^ 30)), leaves := got.2 })
/-- The leaf that translates a VA for a window: the held walk, else the table, read as the walker reads it. -/
def windowLeaf (s : State) (g : Group) (va size : Nat) : Xlate :=
  match (heldFor s [va, size]).find? fun h => h.va = va / 4096 * 4096 with
  | some h => h.res
  | none => walkVa s (partOf s g) (ctxOf s g) va
/-- XWOPEN's window once its base has a leaf; none where R160 gives an outcome without an address. -/
def openWindow (s : State) (g : Group) (base size : Nat) : Except Xr (State × Window) :=
  match windowLeaf s g base size with
  | .leaf _ bits pte at_ =>
    match if bit pte.toNat 63 then .ok 0 false else useLeaf s (partOf s g) false pte bits base true with
    | .ok _ _ =>
      let x := directPath s base size pte bits at_
      match poisonedLeaf s x.2 with
      | some a => .error (.poison a)
      | none => .ok x
    | r => .error r
  | .absent a => .error (.absent a)
  | .format => .error (.fault 0x16)
  | .poison a => .error (.poison a)
  | .physical => .error (.fault 0x18)
/-- XWOPEN sets its window, which the holding register keeps while another word holds the issue group (R163). -/
def setWindow (s : State) (n : Nat) (ops : List Nat) (w : Window) : State :=
  modCur (noteHold s ops { pos := {}, word := 0, ops := [], win := some w }) fun c => { c with xw := mput c.xw n w }
/-- XWOPEN (R163). -/
def execXwopen (n : Fin 8) (a b : Fin 64) (s : State) : Out :=
  let g := s.issue.pre
  let base := (kreg s a).toNat
  let size := (kreg s b).toNat
  let s := memClass s
  .next (if 2 ^ 48 ≤ base ∨ size = 0 ∨ 2 ^ 32 < size ∨ 2 ^ 48 < base + size then raiseB s 6 0x12 base
    else match (findHold s [9, n.val, base, size]).bind (·.win) with
    | some w => setWindow s n.val [9, n.val, base, size] w
    | none => match xlateGroup s g.core (partOf s g) (ctxOf s g) base false (heldFor s [base, size]) with
    | .miss => walkPieces s g (.window s.issue.gid) [base, size] [(base, false)]
    | .absent _ => parkWord s
    | .ats _ => parkWord s
    | .fault c => raiseA s c base true false 0
    | .poison x => poisonKill s x true
    | .ok _ _ =>
      match openWindow s g base size with
      | .ok (s, w) => setWindow s n.val [9, n.val, base, size] w
      | .error (.fault c) => raiseA s c base true false 0
      | .error (.poison x) => poisonKill s x true
      | .error _ => walkPieces s g (.window s.issue.gid) [base, size] [(base, false)])
/-- XWCLOSE (R165). -/
def execXwclose (n : Fin 8) (s : State) : Out :=
  .next (modCur s fun c => { c with xw := mput c.xw n.val { xwget c n.val with isOpen := false } })

/-! ## KLDG (R163, R190) -/

/-- KLDG: the checks of R166 for one lane, its offset aligned as its address is (R163, R167, R190). -/
def execKldg (wide : Bool) (d : Fin 64) (win : Fin 8) (a : Fin 64) (imm : BitVec 7) (s : State) : Out :=
  let g := s.issue.pre
  let n := kBytes wide
  let o := kOffset s a imm n
  let ops := [6, win.val, o]
  let s := memClass s
  .next (match findHold s ops with
    | some h => match h.res with
      | some x => kwrite s d x
      | none => stall s
    | none =>
      if (xwget g win.val).isOpen && o % n != 0 then raiseA s 0x13 o false false 0
      else match checkAccess s win.val [{ lane := 0, off := o, size := n }] false anyTier with
      | .stop s => s
      | .ok s acc _ =>
        match acc with
        | [] => parkWord s
        | x :: _ =>
          let line := x.pa / 128
          let got := if cacheable x.pa then l1Bytes s g.core x.pa n else []
          let s := l1Touch s g.core line
          if got.length = n then
            let s := match (wordsOf x.pa n).find? fun w => ((l1Word s g.core (4 * w)).map (·.bad)).getD false with
              | some w => poisonKill s (4 * w) false
              | none => s
            let v := BitVec.ofNat 64 (ofBytes (got.map (·.2)))
            kwrite (noteHold s ops { pos := {}, word := 0, ops := [], res := some v }) d v
          else
            let missing := ((wordsOf x.pa n).filter fun w => (mget got (4 * w)).isNone).map (· % 32)
            let words := if cacheable x.pa then fillWords s g.core line missing else missing
            let got := got.filter fun b => !words.contains (b.1 / 4 % 32)
            withRequests s 1 fun s =>
              let s := match got.find? fun b => ((l1Word s g.core b.1).map (·.bad)).getD false with
                | some b => poisonKill s (b.1 / 4 * 4) false
                | none => s
              holdWord (askLine s g.core (some s.issue.gid) (homeOf x.pa) line words
                (.kldg s.issue.gid s.issue.word x.pa n got (if cacheable x.pa then words else []) x.stable)) ops
                { pos := {}, word := 0, ops := [] })

/-! ## WAITA and PREF (R198 to R200) -/

/-- A second wait of the issue group, as the words before WAITA leave the group (assumption 97). -/
def otherWait (g : Group) : Option Wait := match g.status with
  | .waiting w => some w
  | _ => none
/-- WAITA: the group waits for memory, and for what a second word of its issue group waits for besides; a group whose lanes have
all exited ends (R96, R198, assumption 97). -/
def execWaita (wide : Bool) (win : Fin 8) (data off : Opnd) (s : State) : Out :=
  let g := s.issue.pre
  let n := kBytes wide
  .next (withRegs s (top (stRegs g data n) ++ opndRegs g off) [data, off] fun s =>
    let s := memClass s
    match (activeLanes g).head? with
    | none => endsRun s
    | some l =>
      let o := (opv g off l).toNat
      match checkAccess s win.val [{ lane := l, off := o, size := n }] false anyTier with
      | .stop s => s
      | .ok s acc _ =>
        match acc with
        | [] => finishLanes s (maskOf (· = l))
        | x :: _ =>
          let e := BitVec.ofNat 64 (stValue g data n l)
          let w := otherWait s.issue.cur
          if w = some .drain then endsRun (modCur s fun c => { c with u := none }) else
          let s := modCur s fun c => { c with u := none, status := .waiting (.mem x.pa n e (x.pa / 128)), also := w,
                                              waita := some (win.val, o, e) }
          endsRun (send s g.core (some s.issue.gid) (homeOf x.pa)
            (.read (x.pa / 128) ((wordsOf x.pa n).map (· % 32)) (.waita s.issue.gid))))
/-- PREF: one lane, translated by the die; dropped where R200 says. R200 gives PREF no access size; the lane's offset is out of
bounds where the byte it names is (assumption 81). -/
def prefLane (s : State) (l2 : Bool) (win : Nat) (o : Nat) : State :=
  let g := s.issue.pre
  let w := xwget g win
  if !w.isOpen || w.size ≤ o || Config.requests ≤ outstanding s g.core then s
  else
    let (s, r) := xlateDie s (dieOf g.core) (partOf s g) (ctxOf s g) (w.base + o) false
    match r with
    | .ok pa st =>
      if !cacheable pa then s
      else if l2 then send s g.core none (homeOf pa) (.read (pa / 128) [] .prefL2)
      else
        let missing := allWords.filter fun k => (mget (l1Line s g.core (pa / 128)).words k).isNone
        if missing.isEmpty then s
        else
          let ws := fillWords s g.core (pa / 128) missing
          askLine s g.core none (homeOf pa) (pa / 128) ws (.pref ws st)
    | .poison a => poisonKill s a true
    | _ => s
/-- PREF.l1 and PREF.l2 (R200). -/
def execPref (l2 : Bool) (win : Fin 8) (off : Opnd) (s : State) : Out :=
  let g := s.issue.pre
  .next (withRegs s (opndRegs g off) [off] fun s =>
    (workLanes g).foldl (fun s l => prefLane s l2 win.val (opv g off l).toNat) (memClass s))

end Sys2Proof.Machine
end

