-- ==== Sys2Proof/Machine/Atomic.lean ====
section
/-! DEFINITION. Atomics, ordered accesses, fences and range operations (R191 to R197, R212 to R228). -/

namespace Sys2Proof.Machine

/-! ## What an atomic computes (R192 to R196) -/

/-- Bytes an operation accesses (R191). -/
def atomBytes : AtomOp → Nat
  | .addN64 | .exch64 => 8
  | _ => 4
/-- f(old, v) of R192. -/
def atomNew (o : AtomOp) (old v : DWord) : DWord :=
  let a : Word := old.truncate 32
  let b : Word := v.truncate 32
  let w (x : Word) : DWord := x.zeroExtend 64
  match o with
  | .addN32 => w (a + b)
  | .addN64 => old + v
  | .addF32 => w (outF (fpAdd .f32 a.toNat b.toNat)).1
  | .addBf16x2 => w (packed2 (fpAdd .bf16) a b).1
  | .addF16x2 => w (packed2 (fpAdd .f16) a b).1
  | .minI32 => w (if wlt true b a then b else a)
  | .minN32 => w (if wlt false b a then b else a)
  | .maxI32 => w (if wlt true a b then b else a)
  | .maxN32 => w (if wlt false a b then b else a)
  | .and => w (a &&& b)
  | .or => w (a ||| b)
  | .xor => w (a ^^^ b)
  | .exch32 => w b
  | .exch64 => v
  | .minF32 => w (outF (fpMinMax .f32 false a.toNat b.toNat)).1
  | .maxF32 => w (outF (fpMinMax .f32 true a.toNat b.toNat)).1
/-- Bytes a transaction's lane accesses. -/
def kindBytes : AKind → Nat
  | .op o => atomBytes o
  | .cas wide => if wide then 8 else 4
  | .aggr _ | .putf => 4
/-- The value a lane leaves (R192, R194 to R196). -/
def kindNew (k : AKind) (old : DWord) (l : ALane) : DWord :=
  match k with
  | .op o => atomNew o old l.v
  | .cas _ => if old = l.exp then l.v else old
  | .aggr _ | .putf => atomNew .addN32 old l.v
/-- What a lane returns: (lane, register, value) for each register written (R193 to R195). -/
def kindRets (k : AKind) (old : DWord) (l : ALane) : List (Nat × Nat × Word) :=
  match k with
  | .aggr flagged => flagged.mapIdx fun i f => (f.1, f.2, old.truncate 32 + BitVec.ofNat 32 i)
  | _ => match l.reg with
    | none => []
    | some r =>
      if kindBytes k = 8 then [(l.lane, r, old.truncate 32), (l.lane, r + 1, (old >>> 32).truncate 32)]
      else [(l.lane, r, old.truncate 32)]
/-- A transaction on a store: lanes in order, each reading what the one before left (R193). -/
def atomRun (k : AKind) (m : Cells Byte) : List ALane → Cells Byte × List (Nat × Nat × Word)
  | [] => ([], [])
  | l :: t =>
    let n := kindBytes k
    let old := BitVec.ofNat 64 (readNum m l.pa n)
    let new := kindNew k old l
    let (ws, rs) := atomRun k (writeNum m l.pa n new.toNat) t
    ((cellsOf l.pa n new.toNat).foldl (fun ws x => if (mget ws x.1).isSome then ws else mput ws x.1 x.2) ws,
     kindRets k old l ++ rs)

/-! ## Sending transactions (R193, R197) -/

/-- What the host's AtomicOps can do (R197). -/
def hostAtom : AtomOp → Bool
  | .addN32 | .addN64 | .exch32 | .exch64 => true
  | _ => false
/-- The tiers an operation reaches (R197). -/
def atomTier (o : AtomOp) : Nat → Bool := fun t => t != 3 || hostAtom o
/-- The transactions of an instruction: one a line on near and far memory, one a lane elsewhere (R193, R197). -/
def transactions (acc : List Acc) : List (List Acc) :=
  ((byLine (acc.filter fun a => cacheable a.pa)).map (·.2)) ++ (acc.filter fun a => !cacheable a.pa).map fun a => [a]
/-- The scope of an acquire. -/
def acqOf (sc : Scope) : Order → Option Scope
  | .acq | .ar => some sc
  | _ => none
def isRelease : Order → Bool
  | .rel | .ar => true
  | _ => false
/-- Send transactions: L1 words of their bytes are written back and dropped first; a release carries its marker (R173, R217). -/
def sendAtomics (s : State) (k : AKind) (op : Nat) (acq : Option Scope) (rel : Bool) (lane : Acc → ALane) (acc : List Acc) : State :=
  let g := s.issue.pre
  let gid := s.issue.gid
  let pend := homeBound s gid
  let s := acc.foldl (fun s a => (dropWords s g.core (some gid) a.pa a.size).1) s
  (transactions acc).foldl (fun s t =>
    match t with
    | [] => s
    | a :: _ =>
      let body := Body.atomic op k acq (t.map lane)
      if rel then release s g.core gid (homeOf a.pa) body pend else send s g.core (some gid) (homeOf a.pa) body) s
/-- The items of a format A access: no immediate (R164). -/
def aItems (g : Group) (off : Opnd) (n : Nat) : List Item :=
  (workLanes g).map fun l => { lane := l, off := ((opv g off l).toNat : Int), size := n }
/-- The registers r to r + n − 1, after ixb. -/
def vRun (g : Group) (r : Fin 48) (n : Nat) : List Nat := (List.range n).map fun i => g.ixb + r.val + i
/-- The destination words of an access that returns n words in each lane (R187). -/
def accDests (g : Group) (r : Fin 48) (n : Nat) (acc : List Acc) : List (Nat × Nat) :=
  acc.flatMap fun a => (vRun g r n).map fun k => (a.lane, k)

/-- ATOM (R191, R193). -/
def execAtom (op : AtomOp) (sc : Scope) (ord : Order) (win : Fin 8) (data : Fin 48) (off : Opnd) (s : State) : Out :=
  let g := s.issue.pre
  let n := atomBytes op
  let r := g.ixb + data.val
  .next (withRegs s (top (vRun g data (n / 4)) ++ opndRegs g off) [off] fun s =>
    match checkAccess (memClass s) win.val (aItems g off n) true (atomTier op) with
    | .stop s => s
    | .ok s acc u => withRequests s (transactions acc).length fun s =>
      let s := if badRegs s (workLanes g) (vRun g data (n / 4)) then poisonKill s 0 false else s
      let (s, o) := newOp s { gid := s.issue.gid, cls := .ld, parts := (transactions acc).length, dests := accDests g data (n / 4) acc }
      finishLanes (sendAtomics s (.op op) o (acqOf sc ord) (isRelease ord)
        (fun a => { lane := a.lane, pa := a.pa, v := BitVec.ofNat 64 (stValue g (.v data) n a.lane), reg := some r }) acc) u)
/-- RED (R191, R193). -/
def execRed (op : RedAtomOp) (_sc : Scope) (rel : Bool) (win : Fin 8) (data off : Opnd) (s : State) : Out :=
  let g := s.issue.pre
  let o := op.toAtom
  let n := atomBytes o
  .next (withRegs s (top (stRegs g data n) ++ opndRegs g off) [data, off] fun s =>
    match checkAccess (memClass s) win.val (aItems g off n) true (atomTier o) with
    | .stop s => s
    | .ok s acc u => withRequests s (transactions acc).length fun s =>
      let s := if badRegs s (workLanes g) (stRegs g data n) then poisonKill s 0 false else s
      let (s, id) := storeOp s (transactions acc).length
      finishLanes (sendAtomics s (.op o) id none rel
        (fun a => { lane := a.lane, pa := a.pa, v := BitVec.ofNat 64 (stValue g data n a.lane) }) acc) u)
/-- ATOMS: one request to the owning array (R181, R193). -/
def execAtoms (op : AtomOp) (_sc : Scope) (_ord : Order) (gang : Option (Fin 4)) (data off : Opnd) (s : State) : Out :=
  let g := s.issue.pre
  let n := atomBytes op
  .next (withRegs s (top (stRegs g data n) ++ opndRegs g off) [data, off] fun s =>
    let items := aItems g off n
    withScratch (memClass s) (gang.map (·.val)) items fun s t =>
      if items.isEmpty then s
      else
        let s := if badRegs s (workLanes g) (stRegs g data n) then poisonKill s 0 false else s
        let reg := match data with | .v r => some (g.ixb + r.val) | _ => none
        let (s, o) := newOp s { gid := s.issue.gid, cls := if reg.isSome then .ld else .st, parts := 1, holdsBar := true, uncounted := true }
        finishLanes (send s g.core (some s.issue.gid) (.core (team s t).core)
          (.atoms o t (.op op) (items.map fun i =>
            { lane := i.lane, pa := i.off.toNat, v := BitVec.ofNat 64 (stValue g data n i.lane), reg := reg }))) 0)
/-- CAS (R194): expected value first, then the new value. -/
def execCas (wide : Bool) (sc : Scope) (ord : Order) (win : Fin 8) (data : Fin 48) (off : Opnd) (s : State) : Out :=
  let g := s.issue.pre
  let n := kBytes wide
  let r := g.ixb + data.val
  .next (withRegs s (top (vRun g data (n / 2)) ++ opndRegs g off) [off] fun s =>
    match checkAccess (memClass s) win.val (aItems g off n) true anyTier with
    | .stop s => s
    | .ok s acc u => withRequests s (transactions acc).length fun s =>
      let s := if badRegs s (workLanes g) (vRun g data (n / 2)) then poisonKill s 0 false else s
      let val (q l : Nat) : DWord := if wide then vpair g (r + 2 * q) l else (vget g (r + q) l).zeroExtend 64
      let (s, o) := newOp s { gid := s.issue.gid, cls := .ld, parts := (transactions acc).length, dests := accDests g data (n / 4) acc }
      finishLanes (sendAtomics s (.cas wide) o (acqOf sc ord) (isRelease ord)
        (fun a => { lane := a.lane, pa := a.pa, v := val 1 a.lane, exp := val 0 a.lane, reg := some r }) acc) u)
/-- AGGR (R195): one add of the number of flagged lanes at the lowest flagged lane's address. -/
def execAggr (sc : Scope) (ord : Order) (win : Fin 8) (data : Fin 48) (off : Opnd) (s : State) : Out :=
  let g := s.issue.pre
  let r := g.ixb + data.val
  .next (withRegs s (r :: opndRegs g off) [off] fun s =>
    let s := memClass s
    let flagged := (workLanes g).filter fun l => vget g r l != 0
    match flagged.head? with
    | none => finishLanes s 0
    | some l =>
      match checkAccess s win.val [{ lane := l, off := ((opv g off l).toNat : Int), size := 4 }] true anyTier with
      | .stop s => s
      | .ok s acc u =>
        if u != 0 then finishLanes s (maskOf fun l => (workLanes g).contains l)
        else withRequests s 1 fun s =>
          let s := if badRegs s (workLanes g) [r] then poisonKill s 0 false else s
          let (s, o) := newOp s { gid := s.issue.gid, cls := .ld, parts := 1, dests := flagged.map fun f => (f, r) }
          finishLanes (sendAtomics s (.aggr (flagged.map fun f => (f, r))) o (acqOf sc ord) (isRelease ord)
            (fun a => { lane := a.lane, pa := a.pa, v := BitVec.ofNat 64 flagged.length }) acc) 0)
/-- PUTF (R196): each lane's data is sent, and its flag's increment waits at the flag's home for it and for every earlier
home-bound write. Data that cannot be written leaves the flag as it is, and the operation completes in error (assumption 82). -/
def execPutf (wide : Bool) (_sc : Scope) (win : Fin 8) (data : Fin 48) (off : Opnd) (s : State) : Out :=
  let g := s.issue.pre
  let gid := s.issue.gid
  let n := kBytes wide
  let r := g.ixb + data.val
  let q := n / 4
  .next (withRegs s (top (vRun g data (q + 1)) ++ opndRegs g off) [off] fun s =>
    let items := ((workLanes g).map fun l =>
      [({ lane := l, off := ((opv g off l).toNat : Int), size := n } : Item),
       { lane := l, off := ((vget g (r + q) l).toNat : Int), size := 4, sec := true }]).flatten
    match checkAccess (memClass s) win.val items true anyTier with
    | .stop s => s
    | .ok s acc u => withRequests s acc.length fun s =>
      let s := if badRegs s (workLanes g) (vRun g data (q + 1)) then poisonKill s 0 false else s
      let pend := homeBound s gid
      let (s, o) := storeOp s acc.length
      let s := acc.foldl (fun s a => (dropWords s g.core (some gid) a.pa a.size).1) s
      finishLanes ((acc.filter fun a => !a.sec).foldl (fun s a =>
        let w := s.nextId
        let s := send s g.core (some gid) (homeOf a.pa) (.write (cellsOf a.pa n (stValue g (.v data) n a.lane)) [] (some o))
        match acc.find? fun f => f.sec && f.lane = a.lane with
        | none => s
        | some f => release s g.core gid (homeOf f.pa)
            (.atomic o .putf none [{ lane := f.lane, pa := f.pa, v := 1 }]) (pend ++ [w])) s) u)

/-! ## Ordered accesses (R221, R222) -/

/-- LDA (R222). -/
def execLda (wide : Bool) (sc : Scope) (win : Fin 8) (data : Fin 48) (off : Opnd) (s : State) : Out :=
  let g := s.issue.pre
  let gid := s.issue.gid
  let n := kBytes wide
  .next (withRegs s (top (vRun g data (n / 4)) ++ opndRegs g off) [off] fun s =>
    match checkAccess (memClass s) win.val (aItems g off n) false anyTier with
    | .stop s => s
    | .ok s acc u => withRequests s acc.length fun s =>
      let (s, o) := newOp s { gid := gid, cls := .ld, parts := acc.length, dests := accDests g data (n / 4) acc }
      let s := acc.foldl (fun s a => dropDirty s g.core (some gid) a.pa a.size) s
      finishLanes (acc.foldl (fun s a => send s g.core (some gid) (homeOf a.pa)
        (.read (a.pa / 128) ((wordsOf a.pa n).map (· % 32)) (.lda o sc a.lane (g.ixb + data.val) a.pa n))) s) u)
/-- STL (R222). -/
def execStl (wide : Bool) (_sc : Scope) (win : Fin 8) (data off : Opnd) (s : State) : Out :=
  let g := s.issue.pre
  let gid := s.issue.gid
  let n := kBytes wide
  .next (withRegs s (top (stRegs g data n) ++ opndRegs g off) [data, off] fun s =>
    match checkAccess (memClass s) win.val (aItems g off n) true anyTier with
    | .stop s => s
    | .ok s acc u => withRequests s acc.length fun s =>
      let s := if badRegs s (workLanes g) (stRegs g data n) then poisonKill s 0 false else s
      let pend := homeBound s gid
      let (s, o) := storeOp s acc.length
      let s := acc.foldl (fun s a => (dropWords s g.core (some gid) a.pa a.size).1) s
      finishLanes (acc.foldl (fun s a => release s g.core gid (homeOf a.pa)
        (.write (cellsOf a.pa n (stValue g data n a.lane)) [] (some o)) pend) s) u)

/-! ## Fences, PROMOTE and the range operations (R223 to R225) -/

/-- An LD operation of the group has not completed (R223). -/
def loadsOut (s : State) (gid : Nat) : Bool := s.ops.any fun o => o.2.gid = gid && o.2.cls = .ld && o.2.parts != 0
/-- FENCE; an acquire takes effect when it completes (R218, R223). -/
def execFence (sc : Scope) (ord : Order) (s : State) : Out :=
  let g := s.issue.pre
  let gid := s.issue.gid
  let s := memClass s
  .next (match ord with
    | .rlx => s
    | .rel => modCur s fun c => { c with fenceAfter := homeBound s gid }
    | .acq => if loadsOut s gid then stall s else acquireAt s g.core sc
    | .ar =>
      match findHold s [0] with
      | some h => if h.waitFor.all (performed s) then acquireAt s g.core sc else stall s
      | none =>
        if loadsOut s gid then stall s
        else
          let pend := allBound s gid
          if pend.isEmpty then acquireAt s g.core sc
          else holdWord s [0] { pos := {}, word := 0, ops := [], waitFor := pend, phase2 := true })
/-- PROMOTE: the request, whose number its acknowledgement names, is one of the attempt that it was sent in (R224, R226). -/
def execPromote (sc : Scope) (data : Opnd) (s : State) : Out :=
  let g := s.issue.pre
  .next (withRegs s (opndRegs g data) [data] fun s =>
    let s := memClass s
    match (activeLanes g).head? with
    | none => s
    | some l =>
      let v := (opv g data l).toNat % 1024
      if 576 ≤ v || !(part s (partOf s g)).dies.getLsbD (dieOf v) then raiseB s 6 0x1A v
      else match findHold s [4, v, sc.code] with
        | some h => if h.res.isSome then s else stall s
        | none => holdWord (send s g.core none (.core v) (.promote s.issue.gid v)) [4, v, sc.code]
            { pos := {}, word := 0, ops := [], waitFor := [s.nextId] })
/-- What the pieces of a byte range translate to (R225). -/
structure Pieces where
  /-- resolved addresses and lengths; pieces that are not present or fault are left out -/
  got : List (Nat × Nat) := []
  /-- a walk that an invalidation holds (R337) -/
  held : Bool := false
  /-- a poisoned entry that a walk read (R347) -/
  bad : Option Nat := none
/-- The pieces of n bytes at a VA. -/
def rangePieces (s : State) (g : Group) (va n : Nat) : State × Pieces :=
  if n = 0 then (s, {}) else
  (List.range ((va % 4096 + n + 4095) / 4096)).foldl (fun (x : State × Pieces) i =>
    let lo := max va ((va / 4096 + i) * 4096)
    let hi := min (va + n) ((va / 4096 + i + 1) * 4096)
    let (t, r) := xlateDie x.1 (dieOf g.core) (partOf s g) (ctxOf s g) lo false
    match r with
    | .ok pa _ => if cacheable pa then (t, { x.2 with got := x.2.got ++ [(pa, hi - lo)] }) else (t, x.2)
    | .miss => (t, { x.2 with held := true })
    | .poison a => (t, { x.2 with bad := some a })
    | _ => (t, x.2)) (s, {})
/-- A word of the L1 holds a byte of a piece. -/
def inPieces (ps : List (Nat × Nat)) (line w : Nat) : Bool :=
  ps.any fun p => decide (p.1 < 128 * line + 4 * w + 4) && decide (128 * line + 4 * w < p.1 + p.2)
/-- WBR and INVR (R225). -/
def rangeOp (s : State) (inv : Bool) (win : Fin 8) (data off : Opnd) : State :=
  let g := s.issue.pre
  withRegs s (opndRegs g data ++ opndRegs g off) [data, off] fun s =>
    let s := memClass s
    let w := xwget g win.val
    let lanes := workLanes g
    match lanes.head? with
    | none => s
    | some l0 =>
      if !w.isOpen then raiseA s 0x10 (opv g off l0).toNat false false l0
      else match lanes.find? fun l => w.size < (opv g off l).toNat + (opv g data l).toNat with
      | some l => raiseA s 0x11 (opv g off l).toNat false false l
      | none =>
        let (s, all) := lanes.foldl (fun (x : State × List Pieces) l =>
          let (t, p) := rangePieces x.1 g (w.base + (opv g off l).toNat) (opv g data l).toNat
          (t, x.2 ++ [p])) (s, [])
        if all.any (·.held) then stall s
        else match all.findSome? (·.bad) with
        | some a => poisonKill s a true
        | none =>
        let (s, op) := storeOp s 0
        let s := modOp s op fun o => { o with uncounted := true }
        all.foldl (fun s p =>
          let ps := p.got
          let (s, ns) := writeBack s g.core (some s.issue.gid) (some op) (inPieces ps)
          let s := modOp s op fun o => { o with parts := o.parts + ns.length }
          if inv then
            stopOld (invalidate s g.core fun line _ k _ => inPieces ps line k) g.core fun _ w => inPieces ps (w / 32) (w % 32)
          else s) s
/-- WBR (R225). -/
def execWbr (win : Fin 8) (data off : Opnd) (s : State) : Out := .next (rangeOp s false win data off)
/-- INVR (R225). -/
def execInvr (win : Fin 8) (data off : Opnd) (s : State) : Out := .next (rangeOp s true win data off)

end Sys2Proof.Machine
end

