-- ==== Sys2Proof/Machine/Phaser.lean ====
section
/-! DEFINITION. Phasers and the synchronisation network, BAR and EMIT (R231 to R259). -/

namespace Sys2Proof.Machine

/-! ## Names and nodes (R231 to R237) -/

/-- Phase p is completed when C is c (R231). -/
def phaseDone (c p : Word) : Bool := decide ((c - p).toNat < 2 ^ 31)
/-- The local ID and package of an object's key (R232). -/
def keyLid (obj : Nat) : Nat := obj % 4096
def keyPkg (obj : Nat) : Nat := obj / 4096
/-- The ID word of an object (R232). -/
def idWord (obj : Nat) (p : Phaser) : Nat := obj + p.scope * 2 ^ 20 + boolBit p.any * 2 ^ 22
def phaserOf (s : State) (obj : Nat) : Phaser := (mget s.phs obj).getD {}
def modPh (s : State) (obj : Nat) (f : Phaser → Phaser) : State :=
  match mget s.phs obj with
  | some p => { s with phs := mput s.phs obj (f p) }
  | none => s
def phNode (p : Phaser) (k : Nat) : PhNode := (mget p.nodes k).getD {}
def modNode (s : State) (obj k : Nat) (f : PhNode → PhNode) : State :=
  modPh s obj fun p => { p with nodes := mput p.nodes k (f (phNode p k)), bad := p.bad.filter (· != k) }
/-- The package root and the pod switch. -/
def pkgNode : Nat := 600
def podNode : Nat := 601
def dieNode (d : Nat) : Nat := 576 + d
/-- The leaf on which the queues of a die's front end register (assumption 15). -/
def feLeaf (d : Nat) : Nat := 602 + d
/-- A node is a leaf. -/
def isLeaf (k : Nat) : Bool := decide (k < 576) || decide (602 ≤ k)
/-- The parent of a node; none at the root of the scope (R233). -/
def parentOf (p : Phaser) (k : Nat) : Option Nat :=
  if k < 576 then (if p.scope = 0 then none else some (dieNode (dieOf k)))
  else if k < 600 then (if p.scope = 1 then none else some pkgNode)
  else if k = pkgNode then (if p.scope = 3 then some podNode else none)
  else if k = podNode then none
  else some (dieNode (k - 602))
/-- The nodes from k up to the root, k first. -/
def pathUp (p : Phaser) : Nat → Nat → List Nat
  | 0, k => [k]
  | n + 1, k => match parentOf p k with
    | some q => k :: pathUp p n q
    | none => [k]
/-- A node without an entry knows what its parent knows, with no weight (R237, R245): its state when it is first needed. -/
def nodeNew (p : Phaser) : Nat → Nat → PhNode
  | 0, k => phNode p k
  | n + 1, k => match mget p.nodes k, parentOf p k with
    | some x, _ => x
    | none, some q => let x := nodeNew p n q; { o := x.o, f := x.f }
    | none, none => {}
/-- Give every node from k up an entry. -/
def growPath (s : State) (obj k : Nat) : State :=
  let p := phaserOf s obj
  (pathUp p 3 k).foldl (fun s j => modNode s obj j fun _ => nodeNew p 3 j) s
/-- C at a node (R237). -/
def nodeC (x : PhNode) : Word := x.o - 1
/-- RID of a group's handle (R236). -/
def ridOf (s : State) (g : Group) (h : Nat) : Word := BitVec.ofNat 32 (s.pkg * 2 ^ 24 + g.core * 2 ^ 14 + slotPos g * 2 ^ 8 + h * 2 ^ 4)
/-- The group that holds a handle with a registrant ID in a state (R246, R247). -/
def handleGroup (s : State) (obj : Nat) (rid : Word) (st : HState) : Option (Nat × Nat) :=
  s.groups.findSome? fun g => (g.2.h.find? fun h => h.2.st = st && h.2.rid = rid && h.2.id.toNat % 2 ^ 20 = obj).map fun h => (g.1, h.1)

/-! ## The handle of a queue (R323 HSTATE, R325, assumption 15) -/

/-- The registrant ID of queue q at the front end of die d. -/
def queueRid (s : State) (d q : Nat) : Word := BitVec.ofNat 32 (s.pkg * 2 ^ 24 + (576 + d) * 2 ^ 14 + q * 2 ^ 4)
/-- The queue that a registrant ID names. -/
def queueOfRid (s : State) (rid : Word) : Option (Nat × Nat) :=
  let c := rid.toNat / 2 ^ 14 % 2 ^ 10
  if c < 576 then none
  else (s.parts.find? fun p => p.2.dies.getLsbD (c - 576)).map fun p => (p.1, rid.toNat / 2 ^ 4 % 2 ^ 10)
def HState.code : HState → Nat
  | .unbound => 0
  | .joining => 1
  | .bound => 2
  | .leaving => 3
/-- HSTATE of a queue as a handle; its registrant ID is not kept there. -/
def queueHandle (s : State) (p q : Nat) : Handle :=
  let x := qField s p q 0x30 8
  { st := [HState.unbound, .joining, .bound, .leaving].getD (x % 4) .unbound, signals := bit x 2, waits := bit x 3
    id := BitVec.ofNat 24 (x / 16), s := BitVec.ofNat 32 (x / 2 ^ 32) }
def putQueueHandle (s : State) (p q : Nat) (h : Handle) : State :=
  qPut s p q 0x30 8 (HState.code h.st + boolBit h.signals * 4 + boolBit h.waits * 8 + h.id.toNat * 16 + h.s.toNat * 2 ^ 32)

/-! ## Messages (R237 to R242) -/

def pSend (s : State) (m : PMsg) : State :=
  let (s, id) := freshId s
  { s with pnet := mput s.pnet id m }
/-- Wake the groups of a leaf's core that wait for a completed phase; the wake is an acquire (R238, R250). -/
def wakePhase (s : State) (obj leaf : Nat) : State :=
  let p := phaserOf s obj
  let c := nodeC (phNode p leaf)
  let ready := s.groups.filter fun g => g.2.core = leaf && (match g.2.status with
    | .waiting (.phase h q) => (hget g.2 h).id.toNat % 2 ^ 20 = obj && phaseDone c q
    | _ => false)
  ready.foldl (fun s g => modG (acquireAt s leaf (if p.scope = 0 then .team else .dev)) g.1 (makeReady s)) s
/-- DONE's rule for a handle in ANY mode (R259). -/
def skipHandle (obj : Nat) (q : Word) (y : Handle) : Handle :=
  if y.st = .bound && y.id.toNat % 2 ^ 20 = obj && phaseDone q y.s then { y with s := q + 1 } else y
/-- DONE's rule at a leaf (R259). -/
def skipPhase (s : State) (obj leaf : Nat) (q : Word) : State :=
  if 602 ≤ leaf then
    match s.parts.find? fun p => p.2.dies.getLsbD (leaf - 602) with
    | some p => (List.range 1024).foldl (fun s k =>
        let h := queueHandle s p.1 k
        if skipHandle obj q h = h then s else putQueueHandle s p.1 k (skipHandle obj q h)) s
    | none => s
  else (s.groups.filter fun g => g.2.core = leaf).foldl (fun s g => modG s g.1 fun x =>
    { x with h := mmap x.h fun _ y => skipHandle obj q y }) s
/-- Objects and proxies of this package (R233, R248). -/
def liveObjects (s : State) : Nat := (s.phs.filter fun p => p.2.here).length
/-- A signal or an arrival of an object is on its way up to the switch. -/
def goingUp (s : State) (obj : Nat) : Bool :=
  s.pnet.any fun m => m.2.obj = obj && m.2.src != podNode && match m.2.k with
    | .arrive _ _ | .signal _ _ => true
    | _ => false
/-- Free an object that PHFREE marked, once its last registrant here is gone: at pod scope the switch is asked to, which has the other
packages' (R247); a proxy is held while a group is registered, and until what its withdrawals send has reached the switch (R240,
R248). -/
def freeIfLast (s : State) (obj : Nat) : State :=
  match mget s.phs obj with
  | some p =>
    if p.here && p.members = 0 && keyPkg obj != s.pkg && !p.freeing && !p.marked then
      if goingUp s obj then s
      else modPh s obj fun p => { p with here := false, nodes := p.nodes.filter fun n => n.1 = podNode }
    else if p.here && p.marked && p.members = 0 && !p.freeing then
      if p.scope = 3 then
        pSend (modPh s obj fun p => { p with freeing := true }) { obj := obj, src := pkgNode, dst := podNode, k := .freeObj }
      else { s with phs := mdel s.phs obj, pnet := s.pnet.filter fun m => m.2.obj != obj }
    else s
  | none => s

/-- A node's own state on DONE(q): what opens with the next phase (R238, R240, R241). -/
def doneState (p : Phaser) (k : Nat) (q finder : Word) : PhNode :=
  let x := phNode p k
  let o := q + 1
  let gone := (x.leaving.filter fun r => r.2.2 = o || !phaseDone r.2.2 o).foldl (fun n r => n + r.2.1) 0
  { x with o := o, rn := x.rx, a := if isLeaf k then x.e + (if p.any then 0 else gone) else 0, e := 0, x := false, sent := false
           f := finder, via := x.via.filter fun v => match v.2 with
             | some g => !phaseDone o g
             | none => true }

/-- The nodes just below k that have an entry. -/
def childrenOf (p : Phaser) (k : Nat) : List Nat := (p.nodes.map (·.1)).filter fun j => parentOf p j = some k
/-- Where a leaf sends ARRIVE(q): its parent, or the old die node after a move (R254). -/
def arriveTo (p : Phaser) (k : Nat) (q : Word) : Option Nat :=
  let old := (phNode p k).via.find? fun v => match v.2 with
    | some g => phaseDone (g - 1) q
    | none => true
  match old with
  | some v => some v.1
  | none => parentOf p k

/-- DONE(q) at a node, and everything that follows at once: DONE to the nodes below, waiters, early and held signals, and
the check of R238, which at a root can complete the next phase. n bounds how many phases complete at once. -/
def doneAt : Nat → State → Nat → Nat → Word → Word → State
  | 0, s, _, _, _, _ => s
  | n + 1, s, obj, k, q, finder =>
    let p := phaserOf s obj
    let s := (childrenOf p k).foldl (fun s j => pSend s { obj := obj, src := k, dst := j, k := .done q finder }) s
    let s := modNode s obj k fun _ => doneState p k q finder
    let s := if isLeaf k then wakePhase (if p.any then skipPhase s obj k q else s) obj k else s
    let x := phNode (phaserOf s obj) k
    let root := (parentOf p k).isNone
    if p.any then
      let now := x.early ++ (x.held.filter fun h => h.2 = x.o).map (·.1)
      let s := modNode s obj k fun x => { x with
        early := (x.held.filter fun h => h.2 = x.o + 1).map (·.1)
        held := x.held.filter fun h => !(h.2 = x.o || h.2 = x.o + 1), x := !now.isEmpty }
      match now with
      | [] => s
      | r :: _ =>
        if root then doneAt n s obj k (q + 1) r
        else pSend s { obj := obj, src := k, dst := (parentOf p k).getD 0, k := .signal (q + 1) r }
    else
      let due := x.held.filter fun h => h.2 = x.o || h.2 = x.o + 1
      let s := if due.isEmpty then s else modNode s obj k fun x =>
        { x with held := x.held.filter fun h => !due.contains h
                 a := x.a + (due.filter fun h => h.2 = x.o).length, e := x.e + (due.filter fun h => h.2 != x.o).length }
      let x := phNode (phaserOf s obj) k
      if x.a = x.rn && 1 ≤ x.rn && !x.sent then
        if root then doneAt n s obj k x.o 0xFFFFFFFF
        else pSend (modNode s obj k fun x => { x with sent := true })
          { obj := obj, src := k, dst := (arriveTo p k x.o).getD 0, k := .arrive x.o x.rn }
      else s
/-- A bound on the phases that can complete at one moment at a leaf that is its own root: the open one, an early one, and one for
each signal held (R241). -/
def doneFuel (s : State) (obj k : Nat) : Nat :=
  let x := phNode (phaserOf s obj) k
  x.held.length + x.early.length + 4
/-- The check of R238 after a change of A or Rn. -/
def checkNode (s : State) (obj k : Nat) : State :=
  let p := phaserOf s obj
  let x := phNode p k
  if !p.any && x.a = x.rn && decide (1 ≤ x.rn) && !x.sent then
    match arriveTo p k x.o with
    | none => doneAt (doneFuel s obj k) s obj k x.o 0xFFFFFFFF
    | some q => pSend (modNode s obj k fun x => { x with sent := true }) { obj := obj, src := k, dst := q, k := .arrive x.o x.rn }
  else s
/-- A SIGNAL of the open phase at a node in ANY mode (R242). -/
def anySignal (s : State) (obj k : Nat) (q rid : Word) : State :=
  let p := phaserOf s obj
  let x := phNode p k
  if x.x || q != x.o then s
  else
    let s := modNode s obj k fun x => { x with x := true }
    match parentOf p k with
    | none => doneAt (doneFuel s obj k) s obj k q rid
    | some j => pSend s { obj := obj, src := k, dst := j, k := .signal q rid }
/-- A signal for phase q at a leaf (R241); one two phases or more ahead is held. -/
def signalAt (s : State) (obj leaf : Nat) (q rid : Word) : State :=
  let p := phaserOf s obj
  let x := phNode p leaf
  if q = x.o then
    if p.any then anySignal s obj leaf q rid
    else checkNode (modNode s obj leaf fun x => { x with a := x.a + 1 }) obj leaf
  else if q = x.o + 1 then modNode s obj leaf fun x => if p.any then { x with early := x.early ++ [rid] } else { x with e := x.e + 1 }
  else if phaseDone (q - 2) x.o then modNode s obj leaf fun x => { x with held := x.held ++ [(rid, q)] }
  else s

/-- A registrant is bound to a leaf's object: JOINED has arrived (R246). A registrant that is gone leaves at once. -/
def bindHandle (s : State) (obj : Nat) (f rid : Word) : State :=
  match queueOfRid s rid with
  | some (p, q) => putQueueHandle s p q { queueHandle s p q with st := .bound, s := f }
  | none =>
  match handleGroup s obj rid .joining with
  | some (gid, h) =>
    modG s gid fun g =>
      { g with h := mput g.h h { hget g h with st := .bound, s := f }
               hold := g.hold.map fun x => if x.ops.head? = some 5 && x.ops[1]? = some h
                 then { x with res := some (f.zeroExtend 64 ||| rid.zeroExtend 64 <<< 32) } else x }
  | none => s
/-- The pod switch has created an object: the PHNEW that waits for it has its result (R245, R255). -/
def podCreated (s : State) (obj : Nat) : State :=
  let w := BitVec.ofNat 64 (idWord obj (phaserOf s obj))
  let put (g : Group) (x : Hold) : Hold :=
    if x.ops.head? = some 3 && (hget g ((x.ops[1]?).getD 0)).id.toNat % 2 ^ 20 = obj then { x with res := some w } else x
  { s with groups := mmap s.groups fun _ g => { g with hold := g.hold.map (put g) } }
/-- A signal is a registrant's, its own or one of its tagged copies (R236). -/
def signalOf (rid r : Word) : Bool := r = rid || r = rid ||| 8
/-- The signals of a registrant for phase g and later that its port still holds are dropped. -/
def dropSignals (s : State) (obj : Nat) (g rid : Word) : State :=
  let gone (h : PortHold) : Bool := match h.signal with
    | some (o, q, r) => o = obj && signalOf rid r && phaseDone q g
    | none => false
  { s with ports := (mmap s.ports fun _ h => if gone h then { h with signal := none } else h).filter fun h =>
      h.2.signal.isSome || !h.2.records.isEmpty }
/-- LEFT(g) has arrived at the leaf, whose open phase is g - 1: the registrant goes, and with it its signals for phase g and later:
the early one, those held, and those at its port (R239 to R241, R247). -/
def unbindHandle (s : State) (obj leaf : Nat) (g rid : Word) (w : Nat) : State :=
  let ahead := ((phNode (phaserOf s obj) leaf).leaving.any fun r => r.1 = rid && !phaseDone g r.2.2)
    && !(s.ports.any fun h => match h.2.signal with
      | some (o, q, r) => o = obj && q = g && signalOf rid r
      | none => false)
  let s := modNode (dropSignals s obj g rid) obj leaf fun x => { x with
    leaving := x.leaving.filter fun r => r.1 != rid
    e := if ahead then x.e - w else x.e
    early := x.early.filter fun r => !signalOf rid r
    held := x.held.filter fun h => !signalOf rid h.1 }
  let s := match queueOfRid s rid, handleGroup s obj rid .leaving with
    | some (p, q), _ => putQueueHandle s p q {}
    | none, some (gid, h) => modG s gid fun x => { x with h := mput x.h h {} }
    | none, none => s
  freeIfLast (modPh s obj fun p => { p with members := p.members - 1 }) obj
/-- Send a registration change from a node up, or resolve it where the node is the root. The change reaches the root with
the path below it (R239). -/
def resolveAt (s : State) (obj root : Nat) (path : List Nat) (k : PKind) : State :=
  let x := phNode (phaserOf s obj) root
  let down (s : State) (m : PKind) : State := match path with
    | j :: rest => pSend s { obj := obj, src := root, dst := j, path := rest, k := m }
    | [] => s
  match k with
  | .join w rid =>
    let f := x.o + 1
    let s := down (modNode s obj root fun x => { x with rx := x.rx + w }) (.joined f rid w)
    let s := if path.isEmpty then bindHandle s obj f rid else s
    if x.rn = 0 then doneAt (doneFuel s obj root) s obj root x.o 0xFFFFFFFF else s
  | .leave w rid =>
    let g := x.o + 1
    let s := down (modNode s obj root fun x => { x with rx := x.rx - w }) (.left g rid w)
    if path.isEmpty then unbindHandle s obj root g rid w else s
  | .move w old rid =>
    let g := x.o + 1
    let s := down s (.moved g rid w false)
    if (mget (phaserOf s obj).nodes (dieNode old)).isNone then s
    else if root = podNode then pSend s { obj := obj, src := root, dst := pkgNode, path := [dieNode old], k := .moved g rid w true }
    else pSend s { obj := obj, src := root, dst := dieNode old, k := .moved g rid w true }
  | _ => s
/-- JOIN, LEAVE or MOVE leaves a leaf, or a node on its way up (R239). -/
def changeUp (s : State) (obj k : Nat) (below : List Nat) (m : PKind) : State :=
  match parentOf (phaserOf s obj) k with
  | some q => pSend s { obj := obj, src := k, dst := q, path := k :: below, k := m }
  | none => resolveAt s obj k below m
/-- The switch has a FREE of this package for an object that another package is still registered on (R247, R255); the objects of a grid
that has completed are freed without it (R233). -/
def freeWaits (s : State) (obj : Nat) : Bool :=
  let p := phaserOf s obj
  (phNode p podNode).rx != 0 && match p.grid with
    | some g => (mget s.grids g).isSome
    | none => true
/-- The switch's object goes, and FREE is answered with LEFT (R255). -/
def podFreed (s : State) (obj : Nat) : State :=
  pSend (modPh s obj fun p => { p with nodes := mdel p.nodes podNode }) { obj := obj, src := podNode, dst := pkgNode, k := .left 0 0 0 }
/-- A FREE of this package has reached the switch. -/
def freeAsked (s : State) (obj : Nat) : Bool :=
  (phaserOf s obj).freeing && !(s.pnet.any fun m => m.2.obj = obj && m.2.k = .freeObj) && (mget (phaserOf s obj).nodes podNode).isSome
/-- A message of the network acts at its node (R238 to R242, R246, R247, R254). -/
def phDeliver (s : State) (m : PMsg) : State :=
  let below (k : PKind) : State → State := fun s => match m.path with
    | j :: rest => pSend s { m with src := m.dst, dst := j, path := rest, k := k }
    | [] => s
  let leafEnd := m.path.isEmpty
  match m.k with
  | .arrive _ k => freeIfLast (checkNode (modNode s m.obj m.dst fun x => { x with a := x.a + k }) m.obj m.dst) m.obj
  | .signal q rid => freeIfLast (anySignal s m.obj m.dst q rid) m.obj
  | .join _ _ | .leave _ _ | .move _ _ _ => changeUp s m.obj m.dst m.path m.k
  | .joined f rid w =>
    let s := below m.k (modNode s m.obj m.dst fun x => { x with rx := x.rx + w })
    if !leafEnd then s else if isLeaf m.dst then bindHandle s m.obj f rid else podCreated s m.obj
  | .left g rid w =>
    let s := below m.k (modNode s m.obj m.dst fun x => { x with rx := x.rx - w })
    if !leafEnd then s
    else if isLeaf m.dst then unbindHandle s m.obj m.dst g rid w
    else { s with phs := mdel s.phs m.obj }
  | .moved g _ w minus =>
    if leafEnd && isLeaf m.dst then modNode s m.obj m.dst fun x => { x with via := x.via.map fun v => (v.1, some (v.2.getD g)) }
    else below m.k (modNode s m.obj m.dst fun x => { x with rx := if minus then x.rx - w else x.rx + w })
  | .done q finder =>
    if isLeaf m.dst && phaseDone (nodeC (phNode (phaserOf s m.obj) m.dst)) q then s
    else doneAt (doneFuel s m.obj m.dst) s m.obj m.dst q finder
  | .newObj w => pSend (modNode s m.obj podNode fun _ => { rn := w, rx := w }) { m with src := podNode, dst := m.src, path := [], k := .joined 1 0 0 }
  | .freeObj => if freeWaits s m.obj then s else podFreed s m.obj

/-- A message of another package reaches the pod switch, which answers that package; an object that this package has no proxy of is
known at the switch alone (R248, R255, assumption 96). -/
def podTurn (s : State) (obj : Nat) (any : Bool) (k : PKind) : State :=
  match k, mget s.phs obj with
  | .newObj w, none => { s with phs := mput s.phs obj { scope := 3, any := any, here := false, nodes := [(podNode, { rn := w, rx := w })] } }
  | .freeObj, some p =>
    if !p.here && (phNode p podNode).rx = 0 then { s with phs := mdel s.phs obj }
    else freeIfLast (modPh s obj fun p => { p with marked := true }) obj
  | m, some p =>
    if p.scope != 3 || (mget p.nodes podNode).isNone then s
    else
      let x := phNode p podNode
      match m with
      | .arrive _ n => checkNode (modNode s obj podNode fun x => { x with a := x.a + n }) obj podNode
      | .signal q rid => anySignal s obj podNode q rid
      | .join w _ =>
        let s := modNode s obj podNode fun x => { x with rx := x.rx + w }
        if x.rn = 0 then doneAt (doneFuel s obj podNode) s obj podNode x.o 0xFFFFFFFF else s
      | .leave w _ =>
        let s := modNode s obj podNode fun x => { x with rx := x.rx - w }
        if freeAsked s obj then (if freeWaits s obj then s else podFreed s obj)
        else if !p.here && p.marked && x.rx - w = 0 then { s with phs := mdel s.phs obj }
        else s
      | _ => s
  | _, none => s

/-! ## Ports (R249) -/

/-- The operations of earlier closed ST batches that have not completed (R249). -/
def closedStores (s : State) (gid : Nat) : List Nat :=
  (s.ops.filter fun o => o.2.gid = gid && o.2.cls = .st && o.2.batch.isSome && o.2.parts != 0).map (·.1)
/-- What a port waits for has happened. -/
def portReady (s : State) (h : PortHold) : Bool :=
  h.waitFor.all (performed s) && h.waitOps.all fun o => ((mget s.ops o).map (·.parts)).getD 0 = 0
/-- A port sends what it holds (R249, R253). -/
def portSend (s : State) (h : PortHold) : State :=
  let s := match h.signal with
    | some (obj, q, rid) => signalAt s obj (grp s h.gid).core q rid
    | none => s
  h.records.foldl (fun s r => send s (grp s h.gid).core none (.die r.1) (.record r.2.1 r.2.2.1 r.2.2.2)) s
/-- Hold at the port until the earlier writes are performed; sent at once where there are none (R249, R253). -/
def portHold (s : State) (h : PortHold) : State :=
  let h := { h with waitFor := homeBound s h.gid, waitOps := closedStores s h.gid }
  if portReady s h then portSend s h
  else
    let (s, id) := freshId s
    { s with ports := mput s.ports id h }

/-! ## The instructions (R243 to R252) -/

/-- The checks of a handle that must be bound, and of its mode (R244). One that is still joining is not bound: phaser-handle (assumption
110). -/
def needHandle (s : State) (h : Fin 16) (value : Nat) (sig wait : Bool) (k : State → Handle → State) : State :=
  let x := hget s.issue.pre h.val
  if x.st ≠ .bound then raisePh s 0x20 value h.val
  else if (sig && !x.signals) || (wait && !x.waits) then raisePh s 0x21 value h.val
  else k s x
/-- The object of a handle. -/
def Handle.obj (x : Handle) : Nat := x.id.toNat % 2 ^ 20
/-- The leaf of the issuing group. -/
def leafNode (s : State) (obj : Nat) : PhNode := phNode (phaserOf s obj) s.issue.pre.core
/-- The signal of PHSIG: held at issue while it is two phases ahead (R241, R249). -/
def phSignal (s : State) (h : Nat) (x : Handle) (bw : Bool) (k : State → State) : State :=
  let o := (leafNode s x.obj).o
  if x.s != o && x.s != o + 1 && phaseDone (x.s - 2) o then stall s
  else
    let s := modCur s fun c => { c with h := mput c.h h { x with s := x.s + 1 } }
    k (if bw then portHold s { gid := s.issue.gid, signal := some (x.obj, x.s, x.rid) }
       else signalAt s x.obj s.issue.pre.core x.s x.rid)
/-- PHWAIT's wait: satisfied at once it is an acquire (R250, R258). -/
def phAwait (s : State) (h : Nat) (x : Handle) (q : Word) : State :=
  let s := endsRun s
  if phaseDone (nodeC (leafNode s x.obj)) q then
    acquireAt s s.issue.pre.core (if (phaserOf s x.obj).scope = 0 then .team else .dev)
  else modCur s fun c => { c with status := .waiting (.phase h q) }
/-- Bits [31:0] of a k register. -/
def kLow (s : State) (a : Fin 64) : Nat := (kreg s a).toNat % 2 ^ 32
/-- The lowest free local ID from a start: which free one the root takes is not given (R245, assumption 5). -/
def freeLid (s : State) : Option Nat :=
  let free := (List.range 4096).filter fun l => (mget s.phs (s.pkg * 4096 + l)).isNone
  if liveObjects s < Config.phasers then free[Config.freeIndex s.fresh % free.length]? else none
/-- A new object on a path of nodes, with its first weight; NEW tells it to the pod switch (R245, R255). -/
def newObject (s : State) (obj : Nat) (p : Phaser) (leaf : Option Nat) (w : Nat) : State :=
  let s := { s with phs := mput s.phs obj p, fresh := s.fresh + 1 }
  match leaf with
  | none => s
  | some k => ((pathUp p 3 k).filter (· != podNode)).foldl (fun s j => modNode s obj j fun _ => { rn := w, rx := w }) s
/-- PHNEW (R245). -/
def execPhnew (a : Fin 64) (h : Fin 16) (s : State) : Out :=
  let g := s.issue.pre
  let c := (kreg s a).toNat
  let v := c % 2 ^ 32
  let scope := c % 4
  let reg := c / 16 % 4
  .next (match findHold s [3, h.val] with
    | some x => match x.res with
      | some r => kwrite s a r
      | none => stall s
    | none =>
      match (hget g h.val).st with
      | .leaving => stall s
      | .bound => raisePh s 0x20 v h.val
      | .joining => raisePh s 0x20 v h.val
      | .unbound =>
        if 64 ≤ c ∨ c / 8 % 2 = 1 ∨ reg = 0 then raisePh s 0x22 v h.val
        else if scope = 3 ∧ s.pod = false then raisePh s 0x24 v h.val
        else match freeLid s with
          | none => raisePh s 0x25 v h.val
          | some l =>
            let obj := s.pkg * 4096 + l
            let p : Phaser := { scope := scope, any := bit c 2, part := partOf s g, ctx := ctxOf s g, members := 1,
                                grid := some (gidOf s g),
                                bound := if scope = 0 then some g.team else if scope = 1 then some (dieOf g.core) else none }
            let w := if bit reg 0 then 1 else 0
            let s := newObject s obj p (some g.core) w
            let x : Handle := { st := .bound, signals := bit reg 0, waits := bit reg 1, id := BitVec.ofNat 24 (idWord obj p),
                                s := 1, rid := ridOf s g h.val }
            let s := modCur s fun c => { c with h := mput c.h h.val x }
            if scope = 3 then
              holdWord (pSend s { obj := obj, src := pkgNode, dst := podNode, k := .newObj w }) [3, h.val]
                { pos := {}, word := 0, ops := [] }
            else kwrite s a (BitVec.ofNat 64 (idWord obj p)))
/-- A registrant leaves at its leaf: it counts as withdrawn from then on; LEAVE goes up, and then what the withdrawal completes
(R240, R247). -/
def leaveLeaf (s : State) (leaf : Nat) (x : Handle) : State :=
  let w := if x.signals then 1 else 0
  let o := (phNode (phaserOf s x.obj) leaf).o
  let now := x.s = o && !(phaserOf s x.obj).any
  let s := modNode s x.obj leaf fun n => { n with
    leaving := n.leaving ++ [(x.rid, w, x.s)], a := if now then n.a + w else n.a }
  let s := changeUp s x.obj leaf [] (.leave w x.rid)
  if now && w = 1 then checkNode s x.obj leaf else s
/-- The commands that a group has issued with a tag handle signal it no more: it has become leaving since (R205, R249). -/
def dropTags (s : State) (gid h : Nat) : State :=
  { s with ops := mmap s.ops fun _ o => if o.gid = gid && o.tag = some h then { o with tag := none } else o }
/-- PHFREE's and PHLEAVE's leaving of a bound handle (R205, R247). -/
def leaveHandle (s : State) (gid core h : Nat) (x : Handle) : State :=
  leaveLeaf (dropTags (modG s gid fun g => { g with h := mput g.h h { x with st := .leaving } }) gid h) core x
/-- PHFREE (R247). -/
def execPhfree (h : Fin 16) (s : State) : Out :=
  .next (needHandle s h 0 false false fun s x =>
    leaveHandle (modPh s x.obj fun p => { p with marked := true }) s.issue.gid s.issue.pre.core h.val x)
/-- PHLEAVE (R247). -/
def execPhleave (h : Fin 16) (s : State) : Out :=
  .next (needHandle s h 0 false false fun s x => leaveHandle s s.issue.gid s.issue.pre.core h.val x)
/-- The object that an ID word names (R232, R244): none is phaser-id. -/
def resolveId (s : State) (g : Group) (w : Nat) : Option Nat :=
  if 2 ^ 24 ≤ w then none
  else if bit w 23 then (if w / 16 % 2 ^ 19 ≠ 0 then none else mget (gridOf s g).phs (w % 16))
  else some (w % 2 ^ 20)
/-- An object admits a group; a core-scope one of launch time, until a team has joined it, a group of its grid (R233). -/
def admits (s : State) (p : Phaser) (g : Group) : Bool :=
  match p.scope with
  | 0 => (p.bound.isNone && p.grid = some (gidOf s g)) || p.bound = some g.team
  | 1 => p.bound.isNone || p.bound = some (dieOf g.core)
  | 3 => s.pod
  | _ => true
/-- An object of another package gets a proxy with its first registrant here, and belongs to that registrant's partition and context:
no rule says which context of a package such an object is live in (R244, R248, assumption 96). -/
def makeProxy (s : State) (obj p ctx : Nat) : State :=
  modPh s obj fun x => if x.here then x else { x with here := true, part := p, ctx := ctx, grid := none, members := 0 }
/-- PHJOIN (R246). An object of another package needs a proxy, which counts against the package's objects (R248): where none is free the
fault is phaser-exhausted, which R244 names for PHNEW alone (assumption 96). -/
def execPhjoin (d b : Fin 64) (h : Fin 16) (m : JoinMode) (s : State) : Out :=
  let g := s.issue.pre
  let word := (kreg s b).toNat
  let v := word % 2 ^ 32
  let ops := [5, h.val, word, m.code]
  .next (match findHold s ops with
    | some x => match x.res with
      | some r => kwrite s d r
      | none => stall s
    | none =>
      match (hget g h.val).st with
      | .leaving => stall s
      | .bound => raisePh s 0x20 v h.val
      | .joining => raisePh s 0x20 v h.val
      | .unbound =>
        match resolveId s g word with
        | none => raisePh s 0x23 v h.val
        | some obj =>
          match mget s.phs obj with
          | none => raisePh s 0x23 v h.val
          | some p =>
            if p.marked || (p.here && (p.part != partOf s g || p.ctx != ctxOf s g)) then raisePh s 0x23 v h.val
            else if !admits s p g then raisePh s 0x24 v h.val
            else if !p.here && decide (Config.phasers ≤ liveObjects s) then raisePh s 0x25 v h.val
            else
              let s := makeProxy s obj (partOf s g) (ctxOf s g)
              let sig := m != .wait
              let wt := m != .sig
              let rid := ridOf s g h.val
              let to_ := if p.bound.isSome then p.bound else if p.scope = 0 then some g.team
                else if p.scope = 1 then some (dieOf g.core) else none
              let s := modPh s obj fun p => { p with members := p.members + 1, bound := to_ }
              let x : Handle := { st := .joining, signals := sig, waits := wt, id := BitVec.ofNat 24 (idWord obj p), rid := rid }
              let s := modG s s.issue.gid fun c => { c with h := mput c.h h.val x }
              let s := changeUp (growPath s obj g.core) obj g.core [] (.join (if sig then 1 else 0) rid)
              let y := hget s.issue.cur h.val
              if y.st = .bound then kwrite s d (y.s.zeroExtend 64 ||| rid.zeroExtend 64 <<< 32)
              else holdWord s ops { pos := {}, word := 0, ops := [] })
/-- PHSIG (R249). -/
def execPhsig (h : Fin 16) (w : Bool) (s : State) : Out :=
  .next (needHandle s h 0 true false fun s x => phSignal s h.val x w id)
/-- PHWAIT (R250). -/
def execPhwait (a : Fin 64) (h : Fin 16) (s : State) : Out :=
  let v := kLow s a
  .next (needHandle s h v false true fun s x => phAwait s h.val x (BitVec.ofNat 32 v))
/-- PHSW (R251). -/
def execPhsw (a : Fin 64) (h : Fin 16) (w : Bool) (s : State) : Out :=
  let v := kLow s a
  .next (needHandle s h v true true fun s x => phSignal s h.val x w fun s => phAwait s h.val x (BitVec.ofNat 32 v))
/-- PHRD (R252). -/
def execPhrd (d : Fin 64) (h : Fin 16) (s : State) : Out :=
  .next (needHandle s h 0 false false fun s x =>
    let n := leafNode s x.obj
    kwrite s d ((nodeC n).zeroExtend 64 ||| n.f.zeroExtend 64 <<< 32))

/-! ## The default team phaser (R234, R251) -/

/-- Complete the team's open phase while every registered group has arrived. -/
def barCheck (s : State) (t : Nat) : State :=
  let x := (team s t).bar
  if x.a = x.rn && 1 ≤ x.rn then
    let s := modTeam s t fun y => { y with bar := { y.bar with o := x.o + 1, rn := x.rx, a := 0 } }
    (teamGroups s t).foldl (fun s gid => match (grp s gid).status with
      | .waiting (.bar q) => if phaseDone x.o q then modG s gid (makeReady s) else s
      | _ => s) s
  else s
/-- BAR (R251). -/
def execBar (s : State) : Out :=
  let g := s.issue.pre
  let t := team s g.team
  .next (if s.ops.any fun o => o.2.gid = s.issue.gid && o.2.holdsBar && o.2.parts != 0 then stall s
    else if t.node.isSome then endsRun s
    else
      let p := t.bar.o
      let s := modG (endsRun s) s.issue.gid fun c => { c with status := .waiting (.bar p) }
      barCheck (modTeam s g.team fun y => { y with bar := { y.bar with a := y.bar.a + 1 } }) g.team)
/-- A group that ends leaves its team's phaser: it counts as arrived in the open phase and no longer in the next (R240, R247). -/
def barLeave (s : State) (t : Nat) : State :=
  barCheck (modTeam s t fun y => { y with bar := { y.bar with a := y.bar.a + 1, rx := y.bar.rx - 1 } }) t

/-! ## EMIT (R40, R253) -/

/-- The target die of a record (R40). -/
def recordDie (s : State) (g : Group) (n : NodeDecl) (words : List Word) : Nat :=
  let ds := partDies (part s (partOf s g))
  match n.place with
  | 1 => ds.getD n.arg (dieOf g.core)
  | 2 =>
    let w := (words.getD (n.arg / 4) 0).toNat
    ds.getD (w * 0x9E3779B1 % 2 ^ 32 * ds.length / 2 ^ 32) (dieOf g.core)
  | _ => dieOf g.core
/-- Records that a gather buffer holds or is about to receive (R41). -/
def gatherLoad (s : State) (d gr node : Nat) : Nat :=
  let have_ := ((die s d).gather.filter fun b => b.grid = gr && b.node = node).foldl (fun n b => n + b.recs.length) 0
  let sent := s.net.foldl (fun n m => match m.body with
    | .record g k rs => if m.home = .die d && g = gr && k = node then n + rs.length else n
    | _ => n) 0
  s.ports.foldl (fun n p => n + (p.2.records.filter fun r => r.1 = d && r.2.1 = gr && r.2.2.1 = node).foldl
    (fun n r => n + r.2.2.2.length) 0) (have_ + sent)
/-- A record joins those of its die, in lane order. -/
def addRecord (rs : List (Nat × Nat × Nat × List (List Word))) (d gr node : Nat) (w : List Word) :
    List (Nat × Nat × Nat × List (List Word)) :=
  if rs.any fun r => r.1 = d then rs.map fun r => if r.1 = d then (r.1, r.2.1, r.2.2.1, r.2.2.2 ++ [w]) else r
  else rs ++ [(d, gr, node, [w])]
/-- EMIT (R253). -/
def execEmit (r : Fin 48) (n : Fin 64) (s : State) : Out :=
  let g := s.issue.pre
  let gr := gidOf s g
  let decl := mget (grid s gr).nodes n.val
  let words := match decl with | some d => d.bytes / 4 | none => 1
  let regs := (List.range words).map fun i => g.ixb + r.val + i
  .next (withRegs s (top regs) [] fun s =>
    match decl with
    | none => raiseB s 6 0x26 n.val
    | some d =>
      let lanes := (activeLanes g).filter fun l => match g.uEmit with | some u => inMask u l | none => true
      let s := if badRegs s lanes regs then poisonKill s 0 false else s
      let (rs, rest) := lanes.foldl (fun (x : List (Nat × Nat × Nat × List (List Word)) × List Nat) l =>
        let w := regs.map fun k => vget g k l
        let t := recordDie s g d w
        let queued := (x.1.filter fun r => r.1 = t).foldl (fun n r => n + r.2.2.2.length) 0
        if gatherLoad s t gr n.val + queued < Config.gatherRecords then (addRecord x.1 t gr n.val w, x.2) else (x.1, x.2 ++ [l])) ([], [])
      let s := if rs.isEmpty then s else portHold s { gid := s.issue.gid, records := rs }
      if rest.isEmpty then modCur s fun c => { c with uEmit := none }
      else modCur (stall s) fun c => { c with uEmit := some (maskOf fun l => rest.contains l) })

end Sys2Proof.Machine
end

