-- ==== Sys2Proof/Machine/Batch.lean ====
section
/-! DEFINITION. Engine batches and the waits for them (R183 to R187), and SLEEP's end (R98). -/

namespace Sys2Proof.Machine

/-- A load that has completed in error holds all ones in every destination word of the operation (R187). -/
def failLoad (s : State) (id : Nat) : State :=
  match mget s.ops id with
  | some o =>
    if o.failed && o.parts = 0 && !o.discard then
      modGrp s o.gid fun g => o.dests.foldl (fun g d => vput g d.2 d.1 0xFFFFFFFF) g
    else s
  | none => s
/-- A part of an operation has been performed, or has completed in error (R187). -/
def opDone (s : State) (id : Nat) (err : Option Byte) : State :=
  let s := match err with
    | some c => modOp (opError s id c) id fun o => { o with failed := true }
    | none => s
  failLoad (opParts s id 1) id

/-- A fault of a group that is not issuing: at a wait whose condition holds (R187). -/
def trapOutside (s : State) (gid : Nat) (code : Byte) (info : DWord) (rp : Pos) : State :=
  let g := grp s gid
  let epc := (posWord rp).toNat
  if g.trap.lvl then
    abortGrid s (gidOf s g) 0x43 (groupRecord s g 0x43 1 epc info.toNat (g.trap.ecause.toNat + code.toNat * 2 ^ 8))
  else match (gridOf s g).trap with
    | none => abortGrid s (gidOf s g) 0x44 (groupRecord s g 0x44 1 epc info.toNat 0)
    | some entry =>
      if g.c != g.dup then killGang s gid 0x41 rp.pkt false
      else setGrp s gid (makeReady s (g.enterTrap code info rp entry))
/-- engine-error's EINFO (R187, R342). -/
def engineInfo (x : Class) (c : EngineClass) (word : Nat) : DWord := einfoB x.eb.toNat c.code x.cause.toNat word
/-- The wait's condition holds: engine-error where the class's flag is set, and the flag is cleared. The fault is precise at the wait,
whose issue group SG forgets (R187, R348; assumption 109 for the words beside the wait). -/
def waitHolds (s : State) (gid : Nat) (c : EngineClass) : State :=
  let g := grp s gid
  let x := clsOf g c
  if x.err then
    trapOutside (setGrp s gid { setCls g c { x with err := false } with sg := g.waitSg }) gid 0x1E (engineInfo x c g.waitWord) g.waitPos
  else setGrp s gid (makeReady s g)
/-- Wake a group whose wait on a class has become true (R185, R186). -/
def checkWait (s : State) (gid : Nat) (c : EngineClass) : State :=
  let g := grp s gid
  match g.status with
  | .waiting (.batch d n) => if d = c && batchDone (clsOf g c) n then waitHolds s gid c else s
  | .waiting (.count d n) => if d = c && decide ((clsOf g c).count ≤ n) then waitHolds s gid c else s
  | _ => s

/-- CLOSE (R184). -/
def execClose (c : EngineClass) (s : State) : Out :=
  .next (if (clsOf s.issue.cur c).count = 128 then stall s
    else
      let (s, g) := closeBatch s s.issue.gid s.issue.cur c
      modCur s fun _ => g)
/-- A wait of a class: its run ends; the group waits unless the condition holds, and engine-error is raised at it (R185 to R187). -/
def waitFor (s : State) (c : EngineClass) (holds : Bool) (w : Wait) : State :=
  let x := clsOf s.issue.pre c
  if !holds then
    endsRun (modCur s fun g => { g with status := .waiting w, waitPos := s.issue.pos, waitWord := s.issue.word,
                                            waitSg := s.issue.pre.sg })
  else if x.err then
    modCur (raise s 6 0x1E (engineInfo x c s.issue.word)) fun g => setCls g c { clsOf g c with err := false }
  else endsRun s
/-- WAITB c, n (R185). -/
def execWaitb (c : EngineClass) (n : BitVec 8) (s : State) : Out :=
  .next (waitFor s c (batchDone (clsOf s.issue.pre c) n) (.batch c n))
/-- WAITB c, ka (R185). -/
def execWaitbK (c : EngineClass) (a : Fin 64) (s : State) : Out :=
  let n : Byte := (kreg s a).truncate 8
  .next (waitFor s c (batchDone (clsOf s.issue.pre c) n) (.batch c n))
/-- WAITC (R186). -/
def execWaitc (c : EngineClass) (n : BitVec 8) (s : State) : Out :=
  .next (waitFor s c (decide ((clsOf s.issue.pre c).count ≤ n.toNat)) (.count c n.toNat))

/-- The signal of a tagged batch for one handle (R207, R249): dropped when the handle is leaving or unbound. -/
def tagSignal (s : State) (gid h : Nat) : State :=
  let x := hget (grp s gid) h
  if x.st != .bound then s
  else
    let s := modG s gid fun g => { g with h := mput g.h h { x with s := x.s + 1 } }
    portHold s { gid := gid, signal := some (x.obj, x.s, x.rid ||| 8) }
/-- BATCH_COMPLETE: the oldest closed batch of a class completes: flags reach STATUS, tags signal in ascending order, waits
are met (R112, R184, R207). -/
def execBatchComplete (gid : Nat) (c : EngineClass) (s : State) : Out :=
  .next (if !batchReady s gid c then s
    else
      let x := clsOf (grp s gid) c
      let b := oldestBatch x
      let ops := s.ops.filter fun o => o.2.gid = gid && o.2.cls = c && o.2.batch = some b
      let flags := ops.foldl (fun (f : Byte) o => f ||| o.2.flags) 0
      let tags := ops.foldl (fun l o => match o.2.tag with | some h => insertNat l h | none => l) []
      let s := { s with ops := s.ops.filter fun o => !(o.2.gid = gid && o.2.cls = c && o.2.batch = some b) }
      let s := modGrp s gid fun g => { setCls g c { x with count := x.count - 1 } with status8 := g.status8 ||| flags }
      checkWait (tags.foldl (fun s h => tagSignal s gid h) s) gid c)

/-- SLEEP_EXPIRE: the count has run out (R98). -/
def execSleepExpire (gid : Nat) (s : State) : Out :=
  let g := grp s gid
  .next (match g.status with
    | .waiting .sleep => if g.sleepLeft ≤ s.cycle - g.since then setGrp s gid { makeReady s g with sleepLeft := 0 } else s
    | _ => s)

end Sys2Proof.Machine
end

