-- ==== Sys2Proof/Machine/Copy.lean ====
section
/-! DEFINITION. The copy engine (R201 to R207). -/

namespace Sys2Proof.Machine

/-! ## Fields of a command (R201) -/

def copyXw : Instr → Nat
  | .cpy _ _ xw _ _ _ | .cpyg _ _ xw _ _ | .cpys _ _ xw _ _ _ | .cpyx _ _ xw _ _ => xw.val
  | _ => 0
def isCpys : Instr → Bool
  | .cpys _ _ _ _ _ _ => true
  | _ => false
def isCpyx : Instr → Bool
  | .cpyx _ _ _ _ _ => true
  | _ => false
/-- NCODE of CPYX. -/
def copyCodes : Instr → Nat
  | .cpyx _ _ _ _ n => n.toNat
  | _ => 0

/-! ## Running (R206) -/

/-- A range cut at line boundaries: memory VA, carve-out offset, bytes. -/
def cutUnits : Nat → Nat → Nat → Nat → List (Nat × Nat × Nat)
  | 0, _, _, _ => []
  | fuel + 1, va, off, n =>
    if n = 0 then []
    else
      let k := min n (128 - va % 128)
      (va, off, k) :: cutUnits fuel (va + k) (off + k) (n - k)
/-- The units of a range. -/
def unitsOf (va off n : Nat) : List (Nat × Nat × Nat) := cutUnits (n / 128 + 2) va off n
/-- A copy stops in error and waits no more; bytes already written stay (R206). -/
def failCopy (s : State) (id : Nat) (cause : Byte) : State :=
  match mget s.copies id with
  | some c => opError (modCopy s id fun c => { c with units := [], failed := true, waiting := false }) c.op cause
  | none => s
/-- Send one unit whose memory lies at pa (R206). -/
def sendUnit (s : State) (id : Nat) (c : Copy) (pa off n : Nat) : State :=
  let words := (wordsOf pa n).map (· % 32)
  let s := if cacheable pa then (writeBackLine s c.core (some c.gid) none (pa / 128) words).1 else s
  if isCpys c.ins then
    let t := team s c.team
    let bytes := (List.range n).map fun i => (pa + i, cget 0 t.carve (off + i))
    let bad := (List.range n).foldl (fun l i => if t.carveBad.contains ((off + i) / 4) then insertNat l ((pa + i) / 4) else l) []
    send s c.core (some c.gid) (homeOf pa) (.engine id bytes bad)
  else send s c.core (some c.gid) (homeOf pa) (.read (pa / 128) words (.copy id pa off n))
/-- A party's request for a translation is at the host (R160). -/
def atsOut (s : State) (who : Party) : Bool := s.hostReqs.any fun r => r.2.who = who && !r.2.pri && !r.2.stale
/-- The copy goes on: it sends units in order until a piece is not present, the requests are used up or none is left. The
first part bounds how many. -/
def pumpCopy : Nat → State → Nat → State
  | 0, s, _ => s
  | fuel + 1, s, id =>
    match mget s.copies id with
    | none => s
    | some c =>
      if c.waiting || !c.after.all (performed s) || Config.requests ≤ outstanding s c.core then s
      else match c.units with
        | [] => s
        | (va, off, n) :: rest =>
          let g := grp s c.gid
          let (s, r) := xlateDie s (dieOf c.core) (partOf s g) (ctxOf s g) va (isCpys c.ins)
          match r with
          | .ok pa _ =>
            pumpCopy fuel (sendUnit (modCopy s id fun c => { c with units := rest, out := c.out + 1 }) id c pa off n) id
          | .fault code => failCopy s id code
          | .poison a =>
            let s := failCopy s id 0x42
            if s.issue.gid = c.gid then poisonKill s a true else killGang s c.gid 0x42 a true
          | .absent a =>
            let noted := hasNoted s (.copy id) va
            let s := dropWalks s (.copy id)
            waitEntry (modCopy s id fun c => { c with waiting := true }) (partOf s g) (ctxOf s g) (some g) (.copy id) (dieOf c.core) va a 1 (isCpys c.ins) noted
          | .ats host =>
            let (s, k) := freshId s
            { modCopy s id (fun c => { c with waiting := true }) with
              hostReqs := mput s.hostReqs k { part := partOf s g, ctx := ctxOf s g, pasid := ctxPasid s (partOf s g) (ctxOf s g), va := va, host := host, write := isCpys c.ins, who := .copy id, pri := false }
              hostOut := s.hostOut ++ [k] }
          | .miss => s
/-- The copy goes on with every unit it can send. -/
def pump (s : State) (id : Nat) : State :=
  match mget s.copies id with
  | some c => pumpCopy (c.units.length + 1) s id
  | none => s
/-- Every byte has been written, or the copy was stopped and nothing is under way (R187, R206). -/
def copyOver (c : Copy) : Bool := c.units.isEmpty && c.out = 0
/-- CPYX's codes: nibble i of the stream, decoded and written as FP16 patterns (R129, R204). -/
def expandStream (c : Copy) : List (Nat × Nat) × Bool :=
  ds4Decode (fun i => (cget 0 c.stream (i / 2)).toNat / 16 ^ (i % 2) % 16) (copyCodes c.ins) 0 0
/-- What CPYX writes into the carve-out: code i's pattern at offset sp + 2i. Words written from the poisoned part of the stream are
poisoned; a word written whole from the rest is not (R129, R204, R347). -/
def putCodes (s : State) (c : Copy) (codes : List (Nat × Nat)) : State :=
  let bytes := (codes.mapIdx fun i x => cellsOf (c.spOff + 2 * i) 2 (scaleBits x.1)).flatten
  let marks := (codes.mapIdx fun i x => match c.spoiled with
    | some b => if 2 * b < x.2 then [(c.spOff + 2 * i) / 4] else []
    | none => []).flatten
  let whole (w : Nat) : Bool := decide (c.spOff ≤ 4 * w) && decide (4 * w + 4 ≤ c.spOff + 2 * codes.length)
  modTeam s c.team fun t => { t with
    carve := cputAll 0 t.carve bytes, carveBad := marks.foldl insertNat (t.carveBad.filter fun w => !whole w) }
/-- COPY_COMPLETE (R187, R204, R206). -/
def execCopyComplete (id : Nat) (s : State) : Out :=
  .next (match mget s.copies id with
    | none => s
    | some c =>
      if !copyOver c then s
      else
        let s := if isCpyx c.ins && !c.failed then
            let (codes, err) := expandStream c
            let s := putCodes s c codes
            if err then modOp s c.op fun o => { o with flags := o.flags ||| fDS4 } else s
          else s
        opDone { s with copies := mdel s.copies id } c.op none)
/-- Every copy that can go on does (R205, R207): the requests that held it are answered, the writes it follows performed. -/
def pumpAll (s : State) : State := s.copies.foldl (fun s c => pump s c.1) s

/-! ## Issue (R202 to R205) -/

/-- The last check of a tagged command (R205, R244). -/
def checkTag (s : State) (tag : Option (Fin 16)) (k : State → State) : State :=
  match tag with
  | none => k s
  | some h =>
    let x := hget s.issue.pre h.val
    if x.st != .bound then raisePh s 0x20 0 h.val
    else if !x.signals then raisePh s 0x21 0 h.val
    else k s
/-- The messages of a group that a copy must not pass: those to its own array, and writes before a FENCE.rel (R207, R223). -/
def copyAfter (s : State) (gid : Nat) : List Nat :=
  (s.net.filter fun m => m.gid = some gid && (match m.body with
    | .sread _ _ _ _ | .swrite _ _ _ | .atoms _ _ _ _ => true
    | _ => false)).map (·.id) ++ s.issue.cur.fenceAfter
/-- A command that passed its checks joins the open CP batch and starts; a full queue holds it (R205). -/
def startCopy (s : State) (c : Copy) (tag : Option (Fin 16)) : State :=
  let g := s.issue.pre
  if Config.copyQueue ≤ (s.copies.filter fun x => x.2.core = g.core).length then stall s
  else
    let (s, op) := newOp s { gid := s.issue.gid, cls := .cp, parts := 1, tag := tag.map (·.val) }
    let (s, id) := freshId s
    let c := { c with gid := s.issue.gid, core := g.core, team := g.team, op := op, all := c.units, after := copyAfter s s.issue.gid }
    pump { s with copies := mput s.copies id c } id
/-- A row of a copy: lane, memory offset, carve-out offset. -/
abbrev Row := Nat × Nat × Nat
/-- The checks of R202 and R203 over rows of rl bytes, each check over every row; g0 and sp are what EINFO names for a
linear copy. -/
def checkRows (s : State) (w : Window) (rows : List Row) (rl : Nat) (linear : Option (Nat × Nat)) (k : State → State) : State :=
  let size := (team s s.issue.pre.team).scratch
  let gOf (r : Row) : Nat := match linear with | some (g, _) => g | none => r.2.1
  let pOf (r : Row) : Nat := match linear with | some (_, p) => p | none => r.2.2
  match rows with
  | [] => k s
  | r0 :: _ =>
    if !w.isOpen then raiseA s 0x10 r0.2.1 false false r0.1
    else match rows.find? fun r => r.2.1 % 16 != 0 || r.2.2 % 16 != 0 with
    | some r => raiseB s 6 0x13 (if r.2.1 % 16 != 0 then r.2.1 else r.2.2)
    | none =>
      if rl = 0 then k s
      else match rows.find? fun r => decide (w.size < r.2.1 + rl) with
      | some r => raiseB s 6 0x11 (gOf r)
      | none => match rows.find? fun r => decide (size < r.2.2 + rl) with
        | some r => raiseB s 6 0x14 (pOf r)
        | none => k s
/-- Rows of a linear copy (R202). -/
def linearRows (g rows st sp rl : Nat) : List Row := (List.range rows).map fun r => (0, g + r * st, sp + r * rl)
/-- CPY and CPYS (R202). -/
def linearCopy (s : State) (ins : Instr) (a b : EOp) (xw : Fin 8) (tag : Option (Fin 16)) (sstr rlen : BitVec 16) : State :=
  let g := s.issue.pre
  let s := memClass s
  let go := eopW g a
  let ob := eopW g b
  let sp := ob % 2 ^ 20
  let rl := 16 * rlen.toNat
  let w := xwget g xw.val
  let rows := linearRows go (ob / 2 ^ 20 + 1) (16 * sstr.toNat) sp rl
  checkRows s w rows rl (some (go, sp)) fun s => checkTag s tag fun s =>
    startCopy s { gid := 0, core := 0, ins := ins, opA := go, opB := ob, spOff := sp, rows := ob / 2 ^ 20 + 1, base := w.base
                  units := (rows.map fun r => unitsOf (w.base + r.2.1) r.2.2 rl).flatten } tag
/-- CPY (R202). -/
def execCpy (a b : EOp) (xw : Fin 8) (tag : Option (Fin 16)) (sstr rlen : BitVec 16) (s : State) : Out :=
  .next (linearCopy s (.cpy a b xw tag sstr rlen) a b xw tag sstr rlen)
/-- CPYS (R202). -/
def execCpys (a b : EOp) (xw : Fin 8) (tag : Option (Fin 16)) (sstr rlen : BitVec 16) (s : State) : Out :=
  .next (linearCopy s (.cpys a b xw tag sstr rlen) a b xw tag sstr rlen)
/-- CPYG (R203). The window is checked before any row: with no active lane a closed one is reported at lane 0, offset 0
(assumption 85). -/
def execCpyg (a : Fin 48) (b : EOp) (xw : Fin 8) (tag : Option (Fin 16)) (rlen : BitVec 16) (s : State) : Out :=
  let g := s.issue.pre
  let r := g.ixb + a.val
  .next (withRegs s [r] [] fun s =>
    let s := memClass s
    let sp := eopW g b % 2 ^ 20
    let rl := 16 * rlen.toNat
    let w := xwget g xw.val
    let lanes := activeLanes g
    let s := if badRegs s lanes [r] then poisonKill s 0 false else s
    let rows : List Row := lanes.map fun l => (l, (vget g r l).toNat, sp + l * rl)
    if !w.isOpen then raiseA s 0x10 ((rows.head?.map fun x => x.2.1).getD 0) false false ((rows.head?.map fun x => x.1).getD 0)
    else checkRows s w rows rl none fun s => checkTag s tag fun s =>
      startCopy s { gid := 0, core := 0, ins := .cpyg a b xw tag rlen, opB := eopW g b, spOff := sp, mask := activeMask g, base := w.base
                    g := lanes.map fun l => (l, vget g r l)
                    units := (rows.map fun x => unitsOf (w.base + x.2.1) x.2.2 rl).flatten } tag)
/-- CPYX (R204). -/
def execCpyx (a b : EOp) (xw : Fin 8) (tag : Option (Fin 16)) (ncode : BitVec 16) (s : State) : Out :=
  let g := s.issue.pre
  let s := memClass s
  let go := eopW g a
  let sp := eopW g b % 2 ^ 20
  let n := ncode.toNat
  let len := (3 * n + 1) / 2
  let w := xwget g xw.val
  .next (if !w.isOpen then raiseA s 0x10 go false false 0
    else if sp % 2 ≠ 0 then raiseB s 6 0x13 sp
    else if (team s g.team).scratch < sp + 2 * n then raiseB s 6 0x14 sp
    else if w.size < go + len then raiseB s 6 0x11 go
    else checkTag s tag fun s =>
      startCopy s { gid := 0, core := 0, ins := .cpyx a b xw tag ncode, opA := go, opB := eopW g b, spOff := sp, base := w.base
                    units := unitsOf (w.base + go) 0 len } tag)

end Sys2Proof.Machine
end

