-- ==== Sys2Proof/Machine/Issue.lean ====
section
/-! DEFINITION. The issue of a group: fetching a packet, splitting it into issue groups, running the words of one, the
signature, and the end of a run (R27 to R33, R45 to R50, R73, R82, R160, R348, R389). -/

namespace Sys2Proof.Machine

/-! ## Fetching a packet (R45, R73, R160) -/

/-- The leaf that a fetch goes through, from what is at hand. -/
def codeLeaf (s : State) (g : Group) (va : Nat) : Nat :=
  match (heldFor s [va]).find? fun h => h.va = va / 4096 * 4096 with
  | some h => match h.res with
    | .leaf _ _ pte _ => pte.toNat
    | _ => 0
  | none =>
    match tlbFind (core s g.core).tlb (ctxOf s g) va with
    | some e => e.pte.toNat
    | none => ((tlbFind (die s (dieOf g.core)).tlb (ctxOf s g) va).map fun e => e.pte.toNat).getD 0
/-- No word of the issue group can be read: the group waits or is killed (R169, R347). -/
def holdPoison (s : State) (check : Nat) : State := poisonKill (stall s) check true
/-- The physical address of a code word, after the checks of R160. -/
def fetchAt (s : State) (va : Nat) (k : State → Nat → State) : State :=
  let g := s.issue.pre
  let info := einfoA va true false s.issue.pos.word 0
  match xlateGroup s g.core (partOf s g) (ctxOf s g) va false (heldFor s [va]) with
  | .miss => walkPieces s g (.fetch s.issue.gid) [va] [(va, false)]
  | .absent _ => parkWord s
  | .ats _ => parkWord s
  | .fault c => raise s 0 c info
  | .poison a => holdPoison s a
  | .ok pa _ => if bit (codeLeaf s g va) 4 then k (loadCoreTlb s g.core (ctxOf s g) va false) pa else raise s 0 0x17 info
/-- The three words of the packet of the position, read in memory. -/
def fetchPacket (s : State) (k : State → List Nat → State) : State :=
  let gr := gridOf s s.issue.pre
  let pkt := s.issue.pos.pkt
  if gr.codeSize ≤ pkt then raiseB s 5 0x06 pkt
  else
    let va := gr.codeBase + 12 * pkt
    fetchAt s va fun s p0 =>
      let same := va / 4096 = (va + 8) / 4096
      let go (s : State) (p2 : Nat) : State :=
        let p1 := if va / 4096 = (va + 4) / 4096 then p0 + 4 else p2 - 4
        match [p0, p1, p2].find? fun a => poisoned s a 4 with
        | some a => holdPoison s a
        | none => k s [readNum s.mem p0 4, readNum s.mem p1 4, readNum s.mem p2 4]
      if same then go s (p0 + 8) else fetchAt s (va + 8) go

/-! ## Splitting a packet (R19, R46 to R49, R389) -/

/-- A word of an issue group: its position, its bits, its literal word, what it says. -/
structure Member where
  /-- word position -/
  pos : Nat
  /-- the word -/
  raw : Nat
  /-- its literal word, if it takes one (R47) -/
  lit : Option Nat
  /-- the instruction; an illegal word acts as UNASSIGNED_OPCODE does (R50 step 2) -/
  ins : Instr

/-- What a word says with its literal. -/
def readWord (raw lit : Nat) : Instr :=
  match decode raw lit with
  | .ok i => i
  | .error _ => .unassignedOpcode (BitVec.ofNat 32 raw)
/-- Word w of a packet. -/
def word (ws : List Nat) (w : Nat) : Nat := ws.getD w 0
/-- The words of the issue group at w, the position where the packet proves illegal, and the first word after it (R46). -/
def members (ws : List Nat) : Nat → Nat → List Member × Option Nat × Nat
  | 0, w => ([], none, w)
  | n + 1, w =>
    let x := word ws w
    if takesLiteral x then
      if w = 2 || bit x 31 then ([], some w, 3)
      else ([⟨w, x, some (word ws (w + 1)), readWord x (word ws (w + 1))⟩], none, w + 2)
    else
      let m : Member := ⟨w, x, none, readWord x 0⟩
      if !bit x 31 then ([m], none, w + 1)
      else if w = 2 then ([m], some 2, 3)
      else
        let (ms, e, next) := members ws n (w + 1)
        (m :: ms, e, next)
/-- The words at which issue groups of a packet start (R46, R389; assumption 74 for what follows an illegal one). -/
def starts (ws : List Nat) : Nat → Nat → List Nat
  | 0, _ => []
  | n + 1, w => if 3 ≤ w then [] else w :: starts ws n (members ws 3 w).2.2
/-- Every word from w is NOP (R48). -/
def onlyNops (ws : List Nat) (w : Nat) : Bool := (ws.drop w).all (· = 0)
/-- The pipe of a member (R49). -/
def Member.pipe (m : Member) : Option Pipe := pipeOf (field m.raw 25 6)
/-- n registers from r. -/
def namesRun (r : Fin 48) (n : Nat) : List Nat := (List.range n).map fun i => r.val + i
/-- The lane registers a destination field names, with those that follow it (R19, R62). -/
def dstNames (d : Dst) (n : Nat) : List Nat := match d with
  | .v r => namesRun r n
  | .discard => []
/-- The lane registers an instruction names as destination (R19). -/
def laneDests : Instr → List Nat
  | .iadd _ d _ _ | .iaddc d _ _ | .isub _ d _ _ | .imul _ d _ _ | .imin _ d _ _ | .imax _ d _ _ | .iabs d _ | .iand d _ _
  | .ior d _ _ | .ixor d _ _ | .ishl d _ _ | .ishr d _ _ | .isra d _ _ | .ibfe _ d _ _ | .ipopc d _ | .iclz d _ | .ibrev d _
  | .imad d _ _ _ | .isel d _ _ _ | .ibfi d _ _ _ | .icmp _ d _ _ | .fadd d _ _ | .fsub d _ _ | .fmul d _ _ | .fmin d _ _
  | .fmax d _ _ | .fabs d _ | .fneg d _ | .fclass d _ | .frnd _ d _ | .ffma d _ _ _ | .hadd2 _ d _ _ | .hmul2 _ d _ _
  | .hmin2 _ d _ _ | .hmax2 _ d _ _ | .hfma2 d _ _ _ | .fcmp _ d _ _ | .frcp d _ | .frsq d _ | .fsqrt d _ | .fexp2 d _
  | .flog2 d _ | .fsin d _ | .fcos d _ | .fcvt _ _ _ d _ | .icvt _ _ d _ | .pack _ d _ _ | .unpack _ d _ _ | .scxp d _ _
  | .mov d _ | .shfl d _ _ | .shflx d _ _ | .shflup d _ _ | .shfldn d _ _ | .vote _ d _ | .redq _ d _ | .scanq _ d _
  | .prmt d _ _ _ => dstNames d.d 1
  | .ld sz d _ _ _ | .lds sz d _ _ | .ldsGang sz d _ _ _ | .ldp sz d _ _ _ => dstNames d (regsFor (ldBytes sz))
  | .atom op _ _ _ d _ => namesRun d (atomBytes op / 4)
  | .atoms op _ _ _ (.v d) _ => namesRun d (atomBytes op / 4)
  | .cas wide _ _ _ d _ | .lda wide _ _ d _ => namesRun d (if wide then 2 else 1)
  | .aggr _ _ _ d _ => [d.val]
  | .amov d _ _ => namesRun d 16
  | .tcapt d _ => [d.val]
  | .tourLd _ d stat _ _ _ | .tourAdd _ d stat _ _ _ => namesRun d 2 ++ [stat.val]
  | .coll _ d _ _ _ _ _ _ _ | .commqCreate _ _ d _ | .commqDestroy _ d _ | .commqAbort _ d _ | .commqQuery _ d _ => dstNames d 1
  | _ => []
/-- The lane registers that the destination field of an illegal word names by the format of its major opcode: R19 is checked before
the word's legality (R50). -/
def fieldDests (w : Nat) : List Nat :=
  let major := field w 25 6
  let sub := field w 20 5
  let run (lo n : Nat) : List Nat := if field w lo 6 < 48 then (List.range n).map (field w lo 6 + ·) else []
  if 0x04 ≤ major ∧ major ≤ 0x0F then run 18 1
  else if major = 0x14 ∨ ((major = 0x10 ∨ major = 0x12) ∧ field w 12 1 = 0) then
    run 16 (if field w 22 3 = 7 then 1 else regsFor (ldBytes (LdSize.ofCode (field w 22 3))))
  else if major = 0x13 ∨ major = 0x15 then run 6 (atomBytes (AtomOp.ofCode (field w 21 4)) / 4)
  else if major = 0x17 then match field w 21 4 with
    | 0 | 2 | 5 => run 6 1
    | 1 | 6 => run 6 2
    | _ => []
  else if major = 0x1B then (if sub = 6 then run 14 16 else [])
  else if major = 0x1C then (if sub = 5 then run 14 1 else [])
  else if major = 0x1D then (if sub ≤ 1 then run 8 2 ++ run 2 1 else [])
  else if major = 0x1E then (if sub ≤ 1 then run 8 1 else [])
  else []
/-- The lane registers that a member names as destination (R19). -/
def Member.dests (m : Member) : List Nat := match m.ins with
  | .unassignedOpcode _ => fieldDests m.raw
  | i => laneDests i
/-- The first member, in word order, whose pipe or destination an earlier one takes: of two words that clash the later is the one
reported (R19, R46; assumption 42). -/
def clash : List Member → List (Option Pipe) → List Nat → Option Nat
  | [], _, _ => none
  | m :: t, pipes, regs =>
    let d := m.dests
    if (m.pipe.isSome && pipes.contains m.pipe) || d.any (regs.contains ·) then some m.pos
    else clash t (m.pipe :: pipes) (d ++ regs)
/-- The lower of two positions. -/
def lowest (a b : Option Nat) : Option Nat :=
  match a, b with
  | some x, some y => some (min x y)
  | some x, none => some x
  | none, y => y
/-- The issue group at a word: its members, or the word of an illegal-packet, and the first word after it. NOPs that follow
the last issue group are no issue group; a packet of NOPs is one (R48). -/
def split (ws : List Nat) (w : Nat) : Except Nat (List Member × Nat) :=
  if onlyNops ws 0 && w = 0 then .ok ((List.range 3).map fun i => ⟨i, 0, none, .nop⟩, 3)
  else if w ≠ 0 && !(starts ws 3 0).contains w then .error w
  else
    let (ms, e, next) := members ws 3 w
    match lowest e (clash ms [] []) with
    | some x => .error x
    | none => .ok (ms, next)

/-! ## The signature (R103, R116, R117, R348) -/

/-- One step of the hash (R348). -/
def hashStep (sg x : Word) : Word := ((sg ^^^ x) * 0x01000193).rotateLeft 13
/-- The words of a member that are hashed (R348). -/
def hashedWords (m : Member) : List Word :=
  match m.ins with
  | .sigchk _ | .bkpt _ => []
  | _ => BitVec.ofNat 32 m.raw :: (match m.lit with | some x => [BitVec.ofNat 32 x] | none => [])
/-- SG after the issue group (R116, R348). -/
def newSg (s : State) (ms : List Member) : Word :=
  let i := s.issue
  if i.pre.trap.lvl then i.cur.sg
  else
    let x := ((ms.map hashedWords).flatten ++ i.events).foldl hashStep (if i.sigOk then 0 else i.cur.sg)
    if i.sgReset then 0 else x

/-! ## The end of a run (R28, R29, R32) -/

/-- The lowest number that a rising list does not hold. -/
def firstGap : Nat → List Nat → Nat
  | n, [] => n
  | n, k :: t => if k = n then firstGap (n + 1) t else n
/-- The group belongs to the lowest unfinished team of its grid, or to that team's gang (R29, R37). -/
def isLowest (s : State) (g : Group) : Bool :=
  let t := team s g.team
  let gr := grid s t.grid
  t.node.isNone && t.index / gr.gang = firstGap 0 gr.doneTeams / gr.gang
/-- R29's order among the ready groups of a slot: the smallest goes first. -/
def rank (s : State) (g : Group) : List Nat :=
  [boolBit (!isLowest s g), boolBit (g.passed < 8), 3 - g.prio, g.readyAt, g.position]
/-- Lexicographic order. -/
def lexLt : List Nat → List Nat → Bool
  | a :: s, b :: t => decide (a < b) || (a = b && lexLt s t)
  | _, _ => false
/-- The ready groups of a slot (R29). -/
def readyGroups (s : State) (c i : Nat) : List (Nat × Group) :=
  s.groups.filter fun g => g.2.core = c && g.2.slot = i && g.2.status = .ready
/-- The group that R29 selects. -/
def selectNext (s : State) (c i : Nat) : Option Nat :=
  (((readyGroups s c i).map fun g => (g.1, rank s g.2)).foldl (fun (b : Option (Nat × List Nat)) x => match b with
    | none => some x
    | some y => if lexLt x.2 y.2 then some x else some y) none).map (·.1)
/-- The slot selects its next group; atEnd says that a run has ended, which passes the others over. A pre-emption request
stops selection (R29, R30). -/
def selectAt (s : State) (c i : Nat) (atEnd : Bool) : State :=
  if (core s c).preempt.isSome then modSlot s c i fun x => { x with holder := none }
  else
    let h := selectNext s c i
    let others := (readyGroups s c i).filter fun g => some g.1 != h
    let s := if atEnd then others.foldl (fun s g => setGrp s g.1 { g.2 with passed := g.2.passed + 1 }) s else s
    let s := match h with
      | some gid => modGrp s gid fun g => { g with passed := 0, runPkts := 0, stalled := false, y := {} }
      | none => s
    modSlot s c i fun x => { x with holder := h }
/-- The run of a group ends: latches and collector are emptied and the slot selects again; a group that stays ready became
ready when it did (R28, R29, R32, R97, R274). -/
def endRunOf (s : State) (gid : Nat) : State :=
  let g := grp s gid
  let s := setGrp s gid { g with y := {}, runPkts := 0, stalled := false }
  let s := modSlot s g.core g.slot fun x => { x with coll := none }
  selectAt s g.core g.slot true

/-! ## An issue group takes effect, or does not -/

/-- The words of a member run on the issue group's state. -/
def runMember (ex : Instr → State → Out) (m : Member) (s : State) : Out :=
  ex m.ins { s with issue := { s.issue with word := m.pos, raw := BitVec.ofNat 32 m.raw } }
/-- The members one after another. -/
def runMembers (ex : Instr → State → Out) : List Member → State → Out
  | [], s => .next s
  | m :: t, s => match runMember ex m s with
    | .next s => runMembers ex t s
    | x => x
/-- The state an outcome leaves. -/
def outState (s : State) : Out → State
  | .next t => t
  | _ => s
/-- A smaller stage of R50, then a lower word. -/
def worse (a b : State) : Bool :=
  match a.issue.verdict, b.issue.verdict with
  | .faulted x i, .faulted y j => decide (x < y) || (x = y && decide (i < j))
  | _, _ => false
def isFault (s : State) : Bool := match s.issue.verdict with | .faulted _ _ => true | _ => false
/-- The members in the order U, V, M, X. -/
def byPipe (ms : List Member) : List Member :=
  [Pipe.u, .v, .m, .x].flatMap (fun p => ms.filter fun m => m.pipe = some p) ++ ms.filter fun m => m.pipe.isNone
/-- What an attempt that is given up leaves in the holding register: what it has read, and the writes that a FENCE waits for; a request
that it would have sent is sent by a later attempt (R163, R223). -/
def Hold.stands (h : Hold) : Bool := h.res.isSome || h.win.isSome || !h.list.isEmpty || h.ops.head? = some 0
/-- The holding register of a stalled issue group also keeps what its other words have read (R163). -/
def keepHolds (s : State) (others : List State) : State :=
  modCur s fun c => { c with hold := others.foldl (fun l t =>
    l ++ t.issue.cur.hold.filter fun h => h.stands && !(l.any fun x => x.word = h.word)) c.hold }
/-- A poisoned word that a word of the issue group has consumed is consumed whatever fault the issue group takes (R347, R357). -/
def keepKill (f : State) (ts : List State) : State :=
  match f.issue.kill, ts.findSome? fun t => t.issue.kill.filter fun k => k.code = 0x42 with
  | none, some k => { f with issue := { f.issue with kill := some k } }
  | _, _ => f
/-- The words of an issue group: each is tried on the state before it; the first fault of R50 decides, then a stall, then a
park, which is the memory word's where it parks; else all take effect (R27, R50, R169). A stall before a park, and a higher word's fault at
once while a lower word is held on a walk that may yet fault, are the model's choices (assumption 21). -/
def runGroup (ex : Instr → State → Out) (ms : List Member) (s : State) : Out :=
  match ms with
  | [m] => runMember ex m s
  | _ =>
    let ms := byPipe ms
    let outs := ms.map fun m => (m, runMember ex m s)
    match outs.find? fun x => match x.2 with | .next _ => false | _ => true with
    | some x => x.2
    | none =>
      let ts := outs.map fun x => (x.1, outState s x.2)
      let faults := (ts.map (·.2)).filter isFault
      match faults with
      | f :: rest => .next (keepKill (rest.foldl (fun a b => if worse b a then b else a) f) (ts.map (·.2)))
      | [] => match ts.find? fun t => t.2.issue.verdict = .stalled with
        | some t => .next (keepHolds t.2 (ts.map (·.2)))
        | none => match ts.find? fun t => t.2.issue.verdict = .parked && t.1.pipe = some .m with
          | some t => .next t.2
          | none => match ts.find? fun t => t.2.issue.verdict = .parked with
            | some t => .next t.2
            | none => runMembers ex ms s

/-- The grid of the issuing group has been aborted. -/
def aborting (s : State) (gid : Nat) : Bool := match (gridOf s (grp s gid)).ending with
  | .aborting _ | .refused _ => true
  | .running => false
/-- The kill that the issue group raised, after what took effect stands (R351). -/
def applyKill (s : State) (gid : Nat) (kill : Option Kill) : State :=
  match kill with
  | some k => killGang s gid k.code k.check k.memSide
  | none => s
/-- Every open batch of a group that has ended closes, and what it still receives is discarded (R96). -/
def closeAll (s : State) (gid : Nat) : State :=
  let (s, g) := [EngineClass.ld, .st, .cp, .mx, .tm, .tour, .cl].foldl (fun (x : State × Group) c =>
    if x.1.ops.any fun o => o.2.gid = gid && o.2.cls = c && o.2.batch.isNone then closeBatch x.1 gid x.2 c else x) (s, grp s gid)
  let s := setGrp s gid g
  { s with ops := mmap s.ops fun _ o => if o.gid = gid then { o with discard := true } else o }
/-- Where the group goes after its issue group: NOPs that end the packet are skipped (R48). -/
def afterGroup (ws : List Nat) (pkt next : Nat) : Pos := if onlyNops ws next then ⟨pkt + 1, 0⟩ else ⟨pkt, next⟩
/-- The end of an issue: what took effect is committed, SG formed, the packet counted, and the run ended where R28 says. -/
def finish (s : State) (ms : List Member) (next : Pos) : State :=
  let i := s.issue
  let gid := i.gid
  let done (s : State) : State := { s with issue := {} }
  match i.verdict with
  | .done =>
    let go := i.target.getD next
    let count := i.cur.runPkts + (if go.pkt = i.pos.pkt && i.target.isNone then 0 else 1)
    let g := { i.cur with
      y := if i.noLatch then {} else i.cur.y
      pc := go, sg := newSg s ms, runPkts := count, hold := [], heldWalks := [], walksOut := [], stalled := false, woken := false }
    let s := setGrp s gid g
    let s := if g.status = .waiting .drain then closeAll s gid else s
    let s := done (applyKill s gid i.kill)
    if i.endRun || Config.packetsPerRun ≤ count then endRunOf s gid else s
  | .faulted _ _ =>
    let s := applyKill (if aborting s gid then s else setGrp s gid i.cur) gid i.kill
    endRunOf (done s) gid
  | .stalled => done (applyKill (setGrp s gid { i.cur with stalled := true }) gid i.kill)
  | .parked =>
    let g := { i.cur with heldWalks := [], walksOut := [], status := if i.cur.woken then .ready else .parked, woken := false }
    endRunOf (done (applyKill (setGrp s gid g) gid i.kill)) gid

/-- Issue of one group of the group that holds a slot. A packet entered at word 1 or 2 of which only NOPs are left is passed
at no cost and counts towards the run (R28, R48; assumption 73 for a packet of three NOPs), which n bounds. -/
def issueGroup (ex : Instr → State → Out) : Nat → Nat → State → Out
  | 0, _, s => .next s
  | n + 1, gid, s =>
    let g := grp s gid
    let s := { s with issue := { gid := gid, pos := g.pc, word := g.pc.word, pre := g, cur := g } }
    let t := fetchPacket s fun s ws => { s with issue := { s.issue with fetched := some ws } }
    match t.issue.fetched with
    | none => .next (finish t [] g.pc)
    | some ws =>
      if g.pc.word ≠ 0 && onlyNops ws g.pc.word && (starts ws 3 0).contains g.pc.word then
        let t := { setGrp s gid { g with pc := ⟨g.pc.pkt + 1, 0⟩, runPkts := g.runPkts + 1, heldWalks := [] } with issue := {} }
        if Config.packetsPerRun ≤ g.runPkts + 1 then .next (endRunOf t gid) else issueGroup ex n gid t
      else
        match split ws g.pc.word with
        | .error w =>
          let t := { t with issue := { t.issue with word := w } }
          .next (finish (raiseB t 1 0x01 (word ws w)) [] g.pc)
        | .ok (ms, next) =>
          let follow : Pos := if next = 3 then ⟨g.pc.pkt + 1, 0⟩ else ⟨g.pc.pkt, next⟩
          match runGroup ex ms { t with issue := { t.issue with next := follow } } with
          | .next u => .next (finish u ms (afterGroup ws g.pc.pkt next))
          | x => x
/-- A slot's turn: it selects a group where none holds it, and issues one issue group unless its walks are out (R27, R210). -/
def slotTurn (ex : Instr → State → Out) (c i : Nat) (s : State) : Out :=
  let s := if (slotOf (core s c) i).holder.isNone then selectAt s c i false else s
  match (slotOf (core s c) i).holder with
  | none => .next s
  | some gid => if (grp s gid).stalled && !(grp s gid).walksOut.isEmpty then .next s else issueGroup ex 2 gid s

/-- STALL_RUN_END: a stall of more than 16 cycles ends the run; a group whose walks are out is not ready (R28, R210). -/
def execStallRunEnd (gid : Nat) (s : State) : Out :=
  let g := grp s gid
  .next (if g.stalled && (slotOf (core s g.core) g.slot).holder = some gid then
      let status : GStatus := if g.walksOut.isEmpty then g.status else .waiting .walks
      endRunOf (setGrp s gid { g with status := status }) gid
    else s)

end Sys2Proof.Machine
end

