-- ==== Sys2Proof/Machine/Matrix.lean ====
section
/-! DEFINITION. The matrix unit: its commands at issue and when they execute (R260 to R286). -/

namespace Sys2Proof.Machine

/-! ## Elements (R269, R270, R275) -/

/-- An element type of an operand: a float format, or an integer with its signedness and width. -/
inductive El where
  | fl (t : FTy)
  | int (signed : Bool) (w : Nat)
  deriving DecidableEq, Repr
def elWidth : El → Nat
  | .fl t => FTy.width t
  | .int _ w => w
/-- The exact value of an element (R122, R271). -/
def elVal (e : El) (x : Nat) : FVal :=
  match e with
  | .fl t => fval t (x % 2 ^ FTy.width t)
  | .int signed w => ofSigned (if signed then sextInt w x else (x % 2 ^ w : Nat)) 0 false
def elIsInt : El → Bool
  | .int _ _ => true
  | .fl _ => false
/-- A and B types of MMQ and MMQT (R269). -/
def mmTypes : MmTy → El × El
  | .bf16 => (.fl .bf16, .fl .bf16)
  | .f16 => (.fl .f16, .fl .f16)
  | .f8a => (.fl .f8a, .fl .f8a)
  | .f8b => (.fl .f8b, .fl .f8b)
  | .f8af8b => (.fl .f8a, .fl .f8b)
  | .f8bf8a => (.fl .f8b, .fl .f8a)
  | .i8 => (.int true 8, .int true 8)
  | .n8 => (.int false 8, .int false 8)
  | .i4 => (.int true 4, .int true 4)
  | .n4 => (.int false 4, .int false 4)
/-- Weight type of MMQZ (R275). -/
def qType : QTy → El
  | .i4 => .int true 4
  | .n4 => .int false 4
  | .i8 => .int true 8
  | .n8 => .int false 8
/-- K of a type (R269): 512 bits of a row. -/
def mmK (e : El) : Nat := 512 / elWidth e
/-- Bytes of B: K rows of 16 elements. -/
def bBytes (e : El) (k : Nat) : Nat := k * 16 * elWidth e / 8
/-- A(l, k) of a command (R270). -/
def aElem (c : MxCmd) (e : El) (l k : Nat) : FVal :=
  let per := 32 / elWidth e
  elVal e ((cget 0 c.a (32 * (k / per) + l)).toNat / 2 ^ (elWidth e * (k % per)))
/-- B(k, j) at a base (R270). -/
def bElem (carve : Cells Byte) (e : El) (base k j : Nat) : FVal :=
  match elWidth e with
  | 16 => elVal e (readNum carve (base + 2 * (16 * k + j)) 2)
  | 8 => elVal e (readNum carve (base + 16 * k + j) 1)
  | _ => elVal e (readNum carve (base + 8 * k + j / 2) 1 / 16 ^ (j % 2))

/-! ## Arithmetic (R271, R276) -/

/-- The exact sum of a block's terms; an exact zero is +0 unless every term is −0 (R271). -/
def blockSum (ints : Bool) (ts : List (FVal × Byte)) : FVal × Byte :=
  let fl := ts.foldl (fun (f : Byte) t => f ||| t.2) 0
  let has (p : FVal → Bool) : Bool := ts.any fun t => p t.1
  let inf (n : Bool) : Bool := has fun v => match v with | .inf m => m = n | _ => false
  if has (·.isNan) then (.nan false, fl)
  else if inf true && inf false then (.nan false, fl ||| fNV)
  else if inf true then (.inf true, fl)
  else if inf false then (.inf false, fl)
  else
    let lo := ts.foldl (fun (m : Int) t => match t.1 with | .fin _ _ e => min m e | _ => m) 0
    let x := ts.foldl (fun (n : Int) t => match t.1 with | .fin s m e => n + signedAt s m e lo | _ => n) 0
    let neg := !ints && ts.all fun t => match t.1 with | .fin s m _ => s && m = 0 | _ => false
    (ofSigned x lo neg, fl)
/-- NV and OF alone (R271, R276). -/
def nvOfOnly (f : Byte) : Byte := f &&& (fNV ||| fOF)
/-- An element after all the blocks of a row and column (R271). -/
def mmElem (ints : Bool) (a b : Nat → FVal) : Nat → Nat → Word × Byte → Word × Byte
  | 0, _, x => x
  | n + 1, blk, (acc, f) =>
    let (v, f1) := blockSum ints ((List.range 16).map fun i => mulExact (a (16 * blk + i)) (b (16 * blk + i)))
    let (t, f2) := deliver .f32 .rne 0 v
    let (r, f3) := fpAdd .f32 acc.toNat t
    mmElem ints a b n (blk + 1) (BitVec.ofNat 32 r, f ||| nvOfOnly (f1 ||| f2 ||| f3))
/-- An element of a row of an inactive lane: +0 is added for every block (R271). The sum is FADD's, so an accumulator that is a
NaN becomes the canonical one and a signalling one sets NV, as in an active row (assumption 87). -/
def idleElem (acc : Word) : Word × Byte :=
  let (r, f) := fpAdd .f32 acc.toNat 0
  (BitVec.ofNat 32 r, nvOfOnly f)
/-- An element of MMQZ: the exact scale × (S − Z), rounded once, and added (R276). -/
def mzElem (a q : Nat → FVal) (scale : FVal) (zp : Int) (acc : Word) : Word × Byte :=
  let as_ := (List.range 32).map a
  let bad := as_.any fun v => match v with | .fin _ _ _ => false | _ => true
  let sig := as_.foldl (fun (f : Byte) v => f ||| nvOf v) (nvOf scale)
  let (u, f) : Nat × Byte := match scale with
    | .fin sn sm se =>
      if bad then (FTy.nan .f32, fNV ||| sig)
      else
        let lo := as_.foldl (fun (m : Int) v => match v with | .fin _ _ e => min m e | _ => m) 0
        let at_ (v : FVal) : Int := match v with | .fin n m e => signedAt n m e lo | _ => 0
        let x := (List.range 32).foldl (fun (n : Int) k => n + at_ (a k) * ((match q k with | .fin s m _ => if s then -(m : Int) else m | _ => 0) - zp)) 0
        deliver .f32 .rne 0 (ofSigned (x * (if sn then -(sm : Int) else sm)) (lo + se) false)
    | _ => (FTy.nan .f32, fNV ||| sig)
  let (r, g) := fpAdd .f32 acc.toNat u
  (BitVec.ofNat 32 r, nvOfOnly (f ||| g))

/-! ## Tiles (R260) -/

abbrev Tiles := Cells Word
def tileKey (tile row col : Nat) : Nat := 128 * tile + 16 * row + col
/-- The tile, the quarter counted from tile t0, the row and the column of an element's key. -/
def keyTile (k : Nat) : Nat := k / 128
def keyQuarter (t0 k : Nat) : Nat := k / 128 - t0
def keyRow (k : Nat) : Nat := k / 16 % 8
def keyCol (k : Nat) : Nat := k % 16
/-- The elements of some tiles in row-major order. -/
def tileKeys (ts : List Nat) : List Nat := ts.flatMap fun t => (List.range 128).map (128 * t + ·)
/-- The quarters with an active lane (R273). -/
def liveQuarters (mask : Word) : List Nat := (List.range 4).filter fun q => mask.toNat / 2 ^ (8 * q) % 256 != 0
/-- A quarter's B base (R270). -/
def bBase (boff : BitVec 20) (off : Cells Word) (q : Nat) : Nat := boff.toNat + (cget 0 off (8 * q)).toNat
/-- Element (r, j) of quarter q is masked (R277). -/
def mmtMasked (k0 k1 : DWord) (q r j : Nat) : Bool :=
  let row0 := k0.toNat % 2 ^ 32
  let col0 := k0.toNat / 2 ^ 32
  decide (sextInt 32 k1.toNat < ((col0 + j : Nat) : Int) - ((row0 + 8 * q + r : Nat) : Int))
/-- Every element of a quarter is masked (R277). -/
def allMasked (k0 k1 : DWord) (q : Nat) : Bool := (List.range 128).all fun i => mmtMasked k0 k1 q (i / 16) (i % 16)

/-- An element of MMQ or MMQT that is computed; A and B types, B's base (R271). -/
def mmValue (c : MxCmd) (t : MmTy) (q r j base : Nat) (x : Word) : Word × Byte :=
  let (ea, eb) := mmTypes t
  if !inMask c.mask (8 * q + r) then idleElem x
  else mmElem (elIsInt ea) (aElem c ea (8 * q + r)) (fun k => bElem c.got eb base k j) (mmK ea / 16) 0 (x, 0)
/-- The scale and the zero point of a column of MMQZ (R275). -/
def mzScale (c : MxCmd) (sel : Fin 4) (j : Nat) : FVal := fval .f16 ((cget 0 c.b j).toNat / 2 ^ (16 * (sel.val % 2)) % 2 ^ 16)
def mzZero (c : MxCmd) (qt : QTy) (sel : Fin 4) (j : Nat) : Int :=
  match elVal (qType qt) ((cget 0 c.b (16 + j)).toNat / 2 ^ (8 * sel.val)) with
  | .fin s m _ => if s then -(m : Int) else m
  | _ => 0
/-- An element of MMQZ (R276). -/
def mzValue (c : MxCmd) (qt : QTy) (af16 : Bool) (sel : Fin 4) (q r j base : Nat) (x : Word) : Word × Byte :=
  let ea : El := .fl (if af16 then .f16 else .bf16)
  if !inMask c.mask (8 * q + r) then idleElem x
  else mzElem (aElem c ea (8 * q + r)) (fun k => bElem c.got (qType qt) base k j) (mzScale c sel j) (mzZero c qt sel j) x
/-- N consecutive tiles. -/
def tileRun (tf n1 : BitVec 10) : List Nat := (List.range (n1.toNat + 1)).map fun i => tf.toNat + i
def aldTy : AldTy → FTy
  | .f32 => .f32 | .f16 => .f16 | .bf16 => .bf16
/-- Bytes of a carve-out element (R280). -/
def elBytes (t : FTy) : Nat := FTy.width t / 8

/-! ## Executing a command (R265 to R267) -/

/-- Captured value i: a mask register, a factor, a base. -/
def mxK (c : MxCmd) (i : Nat) : DWord := c.k.getD i 0
/-- Words of a range of the carve-out: offset and bytes. -/
def rangeWords (lo n : Nat) : List Nat := (List.range (n / 4)).map (lo / 4 + ·)
/-- The words of a column of B at a base (R270). -/
def bWords (e : El) (n base j : Nat) : List Nat :=
  ((List.range n).map fun k => (base + (16 * k + j) * elWidth e / 8) / 4).eraseDups
/-- The carve-out words that a command reads (R268). -/
def mxWords (c : MxCmd) : List Nat :=
  match c.ins with
  | .mmq _ _ _ _ t _ boff => let eb := (mmTypes t).2
    ((liveQuarters c.mask).flatMap fun q => rangeWords (bBase boff c.b q) (bBytes eb (mmK eb))).eraseDups
  | .mmqt _ _ _ _ t _ boff => let eb := (mmTypes t).2
    if (liveQuarters c.mask).any fun q => !allMasked (mxK c 0) (mxK c 1) q then rangeWords boff.toNat (bBytes eb (mmK eb)) else []
  | .mmqz _ _ _ _ q _ _ _ boff => if (liveQuarters c.mask).isEmpty then [] else rangeWords boff.toNat (bBytes (qType q) 32)
  | .alds _ _ t _ n1 => rangeWords (mxK c 0).toNat ((n1.toNat + 1) * 128 * elBytes (aldTy t))
  | _ => []
/-- The elements that take a command's effect: a skipped quarter, and rows of inactive lanes for AMOV and the row form of ASCL,
take none (R273, R281, R283). -/
def mxElems (c : MxCmd) : List Nat :=
  match c.ins with
  | .mmq _ _ _ _ _ tq _ | .mmqt _ _ _ _ _ tq _ | .mmqz _ _ _ _ _ _ tq _ _ => tileKeys ((liveQuarters c.mask).map (4 * tq.toNat + ·))
  | .amov _ _ tq => (lanesOf c.mask).flatMap fun l => (List.range 16).map fun j => tileKey (4 * tq.toNat + l / 8) (l % 8) j
  | .aclr _ tf n1 | .alds _ _ _ tf n1 | .aadd _ tf _ n1 => tileKeys (tileRun tf n1)
  | .ascl (.k _) _ tf n1 => tileKeys (tileRun tf n1)
  | .ascl (.row _) _ tf n1 => (tileKeys (tileRun tf n1)).filter fun k => inMask c.mask (8 * (keyQuarter tf.toNat k % 4) + keyRow k)
  | _ => []
/-- The elements that are read ahead: what ASTS stores, and the source of AADD, which is not its destination (R266, R282). -/
def mxTakes (c : MxCmd) : List Nat :=
  match c.ins with
  | .asts _ _ _ tf n1 _ => tileKeys (tileRun tf n1)
  | .aadd _ td ts n1 => if td = ts then [] else tileKeys (tileRun ts n1)
  | _ => []
/-- The words that ASTS writes (R280). -/
def mxPuts (c : MxCmd) : List Nat :=
  match c.ins with
  | .asts _ _ t _ n1 _ => rangeWords (mxK c 0).toNat ((n1.toNat + 1) * 128 * elBytes t)
  | _ => []
/-- The pieces of a command. -/
def mxPieces (c : MxCmd) : List MxPiece :=
  (mxWords c).map .word ++ (mxTakes c).map .take ++ (mxElems c).map .elem ++ (mxPuts c).map .put
/-- The pieces that are still to be made. -/
def mxLeft (c : MxCmd) : List MxPiece := c.left.getD (mxPieces c)
/-- The source of an element of AADD. -/
def aaddSource (td ts : BitVec 10) (k : Nat) : Nat := k + 128 * ts.toNat - 128 * td.toNat
/-- The elements that a word of ASTS holds. -/
def putElems (t : FTy) (tf : BitVec 10) (sp w : Nat) : List Nat :=
  (List.range (4 / elBytes t)).map fun i => 128 * tf.toNat + (4 * w - sp) / elBytes t + i
/-- What a piece must have read. An element that AADD changes and also reads for another is read before it changes (R282). -/
def mxNeeds (c : MxCmd) (p : MxPiece) : List MxPiece :=
  match p, c.ins with
  | .elem k, .mmq _ _ _ _ t tq boff => let eb := (mmTypes t).2
    (bWords eb (mmK eb) (bBase boff c.b (keyQuarter (4 * tq.toNat) k)) (keyCol k)).map .word
  | .elem k, .mmqt _ _ _ _ t tq boff => let eb := (mmTypes t).2
    if allMasked (mxK c 0) (mxK c 1) (keyQuarter (4 * tq.toNat) k) then []
    else (bWords eb (mmK eb) boff.toNat (keyCol k)).map .word
  | .elem k, .mmqz _ _ _ _ q _ _ _ boff => (bWords (qType q) 32 boff.toNat (keyCol k)).map .word
  | .elem k, .alds _ _ t tf _ => [.word (((mxK c 0).toNat + (k - 128 * tf.toNat) * elBytes (aldTy t)) / 4)]
  | .elem k, .aadd _ td ts _ => [.take (aaddSource td ts k), .take k]
  | .put w, .asts _ _ t tf _ _ => (putElems t tf (mxK c 0).toNat w).map .take
  | _, _ => []
/-- A command reads an element that it changes; a whole quarter set to the fill, ACLR and ALDS read none (R277, R279, R280). -/
def mxReadsElem (c : MxCmd) (k : Nat) : Bool :=
  match c.ins with
  | .mmqt _ _ _ _ _ tq _ => !allMasked (mxK c 0) (mxK c 1) (keyQuarter (4 * tq.toNat) k)
  | .aclr _ _ _ | .alds _ _ _ _ _ => false
  | _ => true
/-- The value of an element after a command, and its flags, from the value it holds (R271, R276, R277, R279, R280, R282, R283). -/
def mxElem (c : MxCmd) (k : Nat) (x : Word) : Word × Byte :=
  match c.ins with
  | .mmq _ _ _ _ t tq boff =>
    let q := keyQuarter (4 * tq.toNat) k
    mmValue c t q (keyRow k) (keyCol k) (bBase boff c.b q) x
  | .mmqt _ _ _ _ t tq boff =>
    let q := keyQuarter (4 * tq.toNat) k
    if mmtMasked (mxK c 0) (mxK c 1) q (keyRow k) (keyCol k) then (BitVec.ofNat 32 ((mxK c 1).toNat / 2 ^ 32), 0)
    else mmValue c t q (keyRow k) (keyCol k) boff.toNat x
  | .mmqz _ _ _ _ q af16 tq sel boff =>
    mzValue c q af16 sel (keyQuarter (4 * tq.toNat) k) (keyRow k) (keyCol k) boff.toNat x
  | .aclr _ _ _ => (0, 0)
  | .alds _ _ t tf _ =>
    let es := elBytes (aldTy t)
    let (v, f) := fcvtVal .f32 (aldTy t) .rne 0 (readNum c.got ((mxK c 0).toNat + (k - 128 * tf.toNat) * es) es)
    (BitVec.ofNat 32 v, f &&& fNV)
  | .aadd _ td ts _ => outF (fpAdd .f32 x.toNat (if td = ts then x else cget 0 c.seen (aaddSource td ts k)).toNat)
  | .ascl (.k _) _ _ _ => outF (fpMul .f32 x.toNat ((mxK c 0).toNat % 2 ^ 32))
  | .ascl (.row _) _ tf _ => outF (fpMul .f32 x.toNat (cget 0 c.b (8 * (keyQuarter tf.toNat k % 4) + keyRow k)).toNat)
  | _ => (x, 0)
/-- The register and lane that element k of AMOV is written to (R281). -/
def amovDest (c : MxCmd) (k : Nat) : Option (Nat × Nat) :=
  match c.ins with
  | .amov _ _ tq => some (c.d + keyCol k, 8 * keyQuarter (4 * tq.toNat) k + keyRow k)
  | _ => none
/-- The bytes of a word that ASTS writes, and their flags (R280). -/
def astsWord (c : MxCmd) (w : Nat) : Cells Byte × Byte :=
  match c.ins with
  | .asts _ _ t tf _ m =>
    let es := elBytes t
    let vals := (putElems t tf (mxK c 0).toNat w).map fun k =>
      fcvtVal t .f32 m (draw c.seed (k - 128 * tf.toNat)) (cget 0 c.seen k).toNat
    ((vals.mapIdx fun i v => cellsOf (4 * w + i * es) es v.1).flatten, vals.foldl (fun (f : Byte) v => f ||| v.2) 0)
  | _ => ([], 0)
/-- A poisoned word, or an element that fails its check, that some pieces read (R347). -/
def mxBad (g : Group) (t : Team) (c : MxCmd) (ps : List MxPiece) : Option Nat :=
  ps.findSome? fun p => match p with
    | .word w => if t.carveBad.contains w then some (4 * w) else none
    | .take k => if g.tilesBad.contains k then some 0 else none
    | .elem k => if mxReadsElem c k && g.tilesBad.contains k then some 0 else none
    | .put _ => none
/-- Some pieces of a command are made at one moment, with what they must have read and is not read yet: tiles and registers are
written unless the command's writes are discarded, the carve-out always (R266 to R268, R351). What the pieces read that is
poisoned comes with them. -/
def mxAct (s : State) (c : MxCmd) (ps : List MxPiece) : State × MxCmd × Option Nat :=
  let g := grp s c.gid
  let t := team s g.team
  let ps := ps ++ (ps.flatMap (mxNeeds c)).filter fun p => (mxLeft c).contains p && !ps.contains p
  let left := (mxLeft c).filter fun p => !ps.contains p
  let got := ps.foldl (fun m p => match p with
    | .word w => cputAll 0 m ((List.range 4).map fun i => (4 * w + i, cget 0 t.carve (4 * w + i)))
    | _ => m) c.got
  let seen := ps.foldl (fun m p => match p with
    | .take k => cput 0 m k (cget 0 g.tiles k)
    | _ => m) c.seen
  let c := { c with got := got, seen := seen, left := some left }
  let vals := ps.filterMap fun p => match p with
    | .elem k => some (k, mxElem c k (cget 0 g.tiles k))
    | _ => none
  let puts := ps.filterMap fun p => match p with
    | .put w => some (astsWord c w)
    | _ => none
  let bytes := puts.flatMap (·.1)
  let flags := puts.foldl (fun (f : Byte) p => f ||| p.2) (vals.foldl (fun (f : Byte) v => f ||| v.2.2) 0)
  let s := modTeam s g.team fun t => { t with
    carve := cputAll 0 t.carve bytes
    carveBad := t.carveBad.filter fun w => (mget bytes (4 * w)).isNone }
  let s := if ((mget s.ops c.op).map (·.discard)).getD false then s
    else modGrp s c.gid fun g => vals.foldl (fun g v => match amovDest c v.1 with
      | some (r, l) => vput g r l v.2.1
      | none => { g with tiles := cput 0 g.tiles v.1 v.2.1, tilesBad := g.tilesBad.filter fun k => k != v.1 }) g
  (modOp s c.op fun o => { o with flags := o.flags ||| flags }, c, mxBad g t c ps)
/-- The gang of a group that consumed a poisoned word is killed (R347). -/
def mxKill (s : State) (gid : Nat) (bad : Option Nat) : State :=
  match bad with
  | some x => killGang s gid 0x42 x false
  | none => s
/-- What is left of a command is made, and it is complete (R267). -/
def mxRun (s : State) (c : MxCmd) : State :=
  let (t, _, bad) := mxAct s c (mxLeft c)
  mxKill (opDone t c.op none) c.gid bad
/-- Every earlier scratchpad message of the group has reached the carve-out (R220, R268). -/
def scratchDone (s : State) (gid op : Nat) : Bool :=
  s.net.all fun m => !(m.gid = some gid && decide (m.id < op) && (match m.body with
    | .sread _ _ _ _ | .swrite _ _ _ | .atoms _ _ _ _ => true
    | _ => false))
/-- The oldest command of a stream that no earlier command of its group's stream holds back (R265). -/
def nextMx (s : State) (strm : Nat) : List MxCmd → List Nat → Option MxCmd
  | [], _ => none
  | c :: t, held =>
    if c.strm = strm && !held.contains c.gid then
      if scratchDone s c.gid c.op then some c else nextMx s strm t (c.gid :: held)
    else nextMx s strm t held
/-- The command that a unit's stream executes: the one that has begun, or the next (R265). -/
def mxTurn (s : State) (slot : Nat) (strm : Fin 4) : Option MxCmd :=
  let q := (slotOf (core s (slot / 4)) (slot % 4)).mx
  (q.find? fun c => c.strm = strm.val && c.left.isSome).orElse fun _ => nextMx s strm.val q []
/-- The matrix queue of a slot changes. -/
def modMx (s : State) (slot : Nat) (f : List MxCmd → List MxCmd) : State :=
  modSlot s (slot / 4) (slot % 4) fun y => { y with mx := f y.mx }
/-- MATRIX_COMMAND_EXECUTE: the unit of a slot, numbered 4 × core + slot, executes a stream's next command, or what is left of the
one that has begun (R265 to R267). -/
def execMatrixCommandExecute (slot : Nat) (strm : Fin 4) (s : State) : Out :=
  .next (match mxTurn s slot strm with
    | none => s
    | some x => mxRun (modMx s slot fun q => q.filter fun z => z.op != x.op) x)
/-- A part of a stream's command is made before the rest: any of the pieces that are left, so that the streams reach each element
in either order and each word is read and written at a moment of its own (R266, R268; assumption 26). -/
def matrixPart (slot : Nat) (strm : Fin 4) (s : State) : State :=
  match mxTurn s slot strm with
  | none => s
  | some x =>
    let n := s.fresh
    let ps := ((mxLeft x).mapIdx fun i p => (i, p)).filterMap fun p => if Config.freeBit (n + p.1) then some p.2 else none
    let (t, y, bad) := mxAct { s with fresh := n + (mxLeft x).length } x ps
    mxKill (modMx t slot fun q => q.map fun z => if z.op = x.op then y else z) x.gid bad

/-! ## Issue (R264, R274, R284) -/

/-- What R284 checks: tile ranges, and carve-out ranges by base, alignment and bytes. -/
structure MxChecks where
  tiles : List (Nat × Nat) := []
  carve : List (Nat × Nat × Nat) := []
/-- R284 steps 2 to 4. Where both ranges of AADD pass the allotment, the fault names the lower of the first tiles outside
(assumption 88). -/
def mxCheck (s : State) (x : MxChecks) (k : State → State) : State :=
  let g := s.issue.pre
  let size := (team s g.team).scratch
  let outs := x.tiles.filterMap fun r => if g.ntiles < r.1 + r.2 then some (max r.1 g.ntiles) else none
  match outs.foldl (fun (m : Option Nat) a => match m with | none => some a | some b => some (min a b)) none with
  | some t => raiseB s 6 0x29 t
  | none => match x.carve.find? fun r => r.1 % r.2.1 != 0 with
    | some r => raiseB s 6 0x13 r.1
    | none => match x.carve.find? fun r => size < r.1 + r.2.2 with
      | some r => raiseB s 6 0x14 r.1
      | none => k s
/-- A command enters the slot's queue and the open MX batch; a full queue holds it (R265, R284). -/
def enqueueMx (s : State) (c : MxCmd) (k : State → State) : State :=
  let g := s.issue.pre
  if Config.matrixQueue ≤ (slotOf (core s g.core) g.slot).mx.length then stall s
  else
    let (s, op) := newOp s { gid := s.issue.gid, cls := .mx, parts := 1 }
    let c := { c with gid := s.issue.gid, mask := activeMask g, op := op }
    k (modSlot s g.core g.slot fun x => { x with mx := x.mx ++ [c] })
/-- 16 registers from r, all lanes: key 32 × register + lane, registers from 0. -/
def captureRun (g : Group) (r : Nat) : Cells Word :=
  (g.v.filter fun x => decide (32 * r ≤ x.1) && decide (x.1 < 32 * (r + 16))).map fun x => (x.1 - 32 * r, x.2)
/-- One register, all lanes: key lane. -/
def captureReg (g : Group) (r : Nat) : Cells Word :=
  (g.v.filter fun x => decide (32 * r ≤ x.1) && decide (x.1 < 32 * (r + 1))).map fun x => (x.1 - 32 * r, x.2)
/-- MMQ, MMQZ and MMQT: the collector, the checks and the queue; bs are the registers of the second operand, which is read at issue as
the A run is (R264, R274, R284, R347). -/
def issueMm (s : State) (ins : Instr) (strm : Fin 4) (ru : Bool) (a : Fin 48) (x : MxChecks) (bs : List Nat) (b : Cells Word) (ks : List DWord) : State :=
  let g := s.issue.pre
  let n := g.ixb + a.val
  let held := (slotOf (core s g.core) g.slot).coll
  match held with
  | some (r, _) => if r != n then raiseB s 6 0x28 r else go s g n held
  | none => go s g n held
where
  go (s : State) (g : Group) (n : Nat) (held : Option (Nat × Cells Word)) : State :=
    let snap := match held with | some (_, c) => c | none => captureRun g n
    let s := if (held.isNone && badRegs s allLanes ((List.range 16).map (n + ·))) || badRegs s allLanes bs then poisonKill s 0 false else s
    mxCheck s x fun s =>
      enqueueMx s { gid := 0, strm := strm.val, ins := ins, a := snap, b := b, k := ks } fun s =>
        modSlot s g.core g.slot fun y => { y with coll := if ru then some (n, snap) else none }
/-- A quarter's tiles for MMQ, MMQZ, MMQT and AMOV (R261). -/
def quadTiles (tq : BitVec 8) : Nat × Nat := (4 * tq.toNat, 4)
/-- The last registers of the A run and of one more operand. -/
def mmRegs (g : Group) (a : Fin 48) (b : Option (Fin 48)) : List Nat :=
  (g.ixb + a.val + 15) :: (match b with | some r => [g.ixb + r.val] | none => [])
/-- MMQ (R269 to R274). -/
def execMmq (a : Fin 48) (b : Option (Fin 48)) (strm : Fin 4) (ru : Bool) (t : MmTy) (tq : BitVec 8) (boff : BitVec 20) (s : State) : Out :=
  let g := s.issue.pre
  let eb := (mmTypes t).2
  let off := match b with | some r => captureReg g (g.ixb + r.val) | none => []
  .next (withRegs s (mmRegs g a b) [] fun s =>
    issueMm s (.mmq a b strm ru t tq boff) strm ru a
      { tiles := [quadTiles tq], carve := (liveQuarters (activeMask g)).map fun q => (bBase boff off q, 64, bBytes eb (mmK eb)) }
      (b.toList.map fun r => g.ixb + r.val) off [])
/-- MMQZ (R275). -/
def execMmqz (a b : Fin 48) (strm : Fin 4) (ru : Bool) (q : QTy) (af16 : Bool) (tq : BitVec 8) (sel : Fin 4) (boff : BitVec 20)
    (s : State) : Out :=
  let g := s.issue.pre
  .next (withRegs s (mmRegs g a (some b)) [] fun s =>
    issueMm s (.mmqz a b strm ru q af16 tq sel boff) strm ru a
      { tiles := [quadTiles tq], carve := (liveQuarters (activeMask g)).map fun _ => (boff.toNat, 64, bBytes (qType q) 32) }
      [g.ixb + b.val] (captureReg g (g.ixb + b.val)) [])
/-- MMQT (R277). -/
def execMmqt (a : Fin 48) (pair : Fin 7) (strm : Fin 4) (ru : Bool) (t : MmTy) (tq : BitVec 8) (boff : BitVec 20) (s : State) : Out :=
  let g := s.issue.pre
  let eb := (mmTypes t).2
  .next (withRegs s (mmRegs g a none) [] fun s =>
    issueMm s (.mmqt a pair strm ru t tq boff) strm ru a
      { tiles := [quadTiles tq], carve := (liveQuarters (activeMask g)).map fun _ => (boff.toNat, 64, bBytes eb (mmK eb)) }
      [] [] [kget g pair.val, kget g (pair.val + 1)])
/-- A command on a range of tiles. -/
def rangeTiles (tf n1 : BitVec 10) : Nat × Nat := (tf.toNat, n1.toNat + 1)
/-- ACLR (R279). -/
def execAclr (strm : Fin 4) (tf n1 : BitVec 10) (s : State) : Out :=
  .next (mxCheck s { tiles := [rangeTiles tf n1] } fun s =>
    enqueueMx s { gid := 0, strm := strm.val, ins := .aclr strm tf n1 } id)
/-- ALDS (R280). -/
def execAlds (base : EOp) (strm : Fin 4) (t : AldTy) (tf n1 : BitVec 10) (s : State) : Out :=
  let sp := eopW s.issue.pre base
  .next (mxCheck s { tiles := [rangeTiles tf n1], carve := [(sp, 16, (n1.toNat + 1) * 128 * elBytes (aldTy t))] } fun s =>
    enqueueMx s { gid := 0, strm := strm.val, ins := .alds base strm t tf n1, k := [BitVec.ofNat 64 sp] } id)
/-- ASTS; .rs advances SEED at issue (R280). -/
def execAsts (base : EOp) (strm : Fin 4) (t : FTy) (tf n1 : BitVec 10) (m : RMode) (s : State) : Out :=
  let g := s.issue.pre
  let sp := eopW g base
  let n := 128 * (n1.toNat + 1)
  .next (mxCheck s { tiles := [rangeTiles tf n1], carve := [(sp, 16, n * elBytes t)] } fun s =>
    enqueueMx s { gid := 0, strm := strm.val, ins := .asts base strm t tf n1 m, k := [BitVec.ofNat 64 sp], seed := g.seed } fun s =>
      if m = .rs then modCur s fun c => { c with seed := seedAfter g.seed n } else s)
/-- AMOV (R281). -/
def execAmov (d : Fin 48) (strm : Fin 4) (tq : BitVec 8) (s : State) : Out :=
  let g := s.issue.pre
  .next (withRegs s [g.ixb + d.val + 15] [] fun s =>
    mxCheck s { tiles := [quadTiles tq] } fun s =>
      enqueueMx s { gid := 0, strm := strm.val, ins := .amov d strm tq, d := g.ixb + d.val } id)
/-- AADD (R282). -/
def execAadd (strm : Fin 4) (td ts n1 : BitVec 10) (s : State) : Out :=
  .next (mxCheck s { tiles := [rangeTiles td n1, rangeTiles ts n1] } fun s =>
    enqueueMx s { gid := 0, strm := strm.val, ins := .aadd strm td ts n1 } id)
/-- ASCL (R283). Where a row form's range passes the allotment and its TF or N is no multiple of 4 besides, VALUE is the first tile outside
(assumption 88). -/
def execAscl (f : AsclF) (strm : Fin 4) (tf n1 : BitVec 10) (s : State) : Out :=
  let g := s.issue.pre
  let c : MxCmd := { gid := 0, strm := strm.val, ins := .ascl f strm tf n1 }
  .next (match f with
    | .k n => mxCheck s { tiles := [rangeTiles tf n1] } fun s => enqueueMx s { c with k := [kget g n.val] } id
    | .row r =>
      withRegs s [g.ixb + r.val] [] fun s =>
        let s := if badRegs s allLanes [g.ixb + r.val] then poisonKill s 0 false else s
        mxCheck s { tiles := [rangeTiles tf n1] } fun s =>
          if tf.toNat % 4 != 0 || (n1.toNat + 1) % 4 != 0 then raiseB s 6 0x29 tf.toNat
          else enqueueMx s { c with b := captureReg g (g.ixb + r.val) } id)

end Sys2Proof.Machine
end

