-- ==== Sys2Proof/Machine/Tempo.lean ====
section
/-! DEFINITION. The tempo array (R287 to R304). -/

namespace Sys2Proof.Machine

/-! ## A race (R298) -/

/-- A cell's enable and delay (R287). -/
def cellE (x : BitVec 5) : Bool := x.getLsbD 4
def cellD (x : BitVec 5) : Nat := x.toNat % 16
/-- The tick on which a row rises; 255 is NEVER (R287, R298). -/
def rowTick (t : Tempo) (fb : Bool) (i : Nat) : Nat :=
  if fb then (cget 255 t.out i).toNat
  else match mget t.stage i with
    | some x => x.toNat
    | none => 255
/-- Enabled rows of a column. -/
def enabledRows (t : Tempo) (j : Nat) : List Nat := (List.range 128).filter fun i => cellE (cget 0 t.cells (128 * i + j))
/-- The result of a column (R298). -/
def column (t : Tempo) (fb : Bool) (j : Nat) : Byte :=
  let rows := enabledRows t j
  let ts := rows.filterMap fun i =>
    let x := rowTick t fb i
    let y := x + cellD (cget 0 t.cells (128 * i + j))
    if x != 255 && decide (y < t.tw.toNat) then some y else none
  match ts with
  | [] => 255
  | y :: rest =>
    if t.mode.getLsbD j then (if ts.length = rows.length then BitVec.ofNat 8 (rest.foldl max y) else 255)
    else BitVec.ofNat 8 (rest.foldl min y)
/-- The 32-bit words of the array, numbered as Tempo.bad has them: of a cell, of a column's mode bit, the tick window, of a row's
staging, of a column's output (assumption 60). -/
def cellWord (i j : Nat) : Nat := (128 * i + j) / 4
def modeWord (j : Nat) : Nat := 4096 + j / 32
def twWord : Nat := 4100
def stageWord (i : Nat) : Nat := 4104 + i / 2
def outWord (j : Nat) : Nat := 4168 + j / 4
/-- A column's result is formed of a word that fails its check (R298, assumption 103). -/
def columnBad (t : Tempo) (fb : Bool) (j : Nat) : Bool :=
  t.bad.contains twWord || t.bad.contains (modeWord j)
    || (List.range 128).any (fun i => t.bad.contains (cellWord i j))
    || (enabledRows t j).any fun i => t.bad.contains (if fb then outWord i else stageWord i)
/-- The marks after a race: the outputs are replaced, and a word of them is marked where a result in it is formed of a marked word.
R347 names no race among the consumptions: that a mark goes with the data through it is assumption 103. -/
def raceBad (t : Tempo) (fb : Bool) : List Nat :=
  (t.bad.filter fun w => decide (w < 4168)) ++
    if t.bad.isEmpty then [] else (((List.range 128).filter (columnBad t fb)).map outWord).eraseDups
/-- A race: every column's result is formed, then the outputs are replaced (R298). -/
def race (t : Tempo) (fb : Bool) : Tempo :=
  { t with
    out := cputAll 255 [] ((List.range 128).map fun j => (j, column t fb j))
    bad := raceBad t fb }

/-! ## Executing a command (R292 to R300) -/

/-- A cell from its byte (R294). -/
def cellOf (b : Byte) : BitVec 5 := BitVec.ofNat 5 (b.toNat / 128 * 16 + b.toNat % 16)
/-- Rows FR to FR + NR − 1 from the carve-out (R294); each of their words is written whole (R347). -/
def loadRows (t : Tempo) (carve : Cells Byte) (sp fr nr : Nat) : Tempo :=
  { t with bad := t.bad.filter fun w => decide (w < 32 * fr) || decide (32 * (fr + nr) ≤ w), cells := (List.range (128 * nr)).foldl (fun m i => cput 0 m (128 * fr + i) (cellOf (cget 0 carve (sp + i)))) t.cells }
/-- Mode bits 64·h to 64·h + 63 (R295). -/
def setModes (t : Tempo) (bits : DWord) (h : Bool) : Tempo :=
  let lo : BitVec 128 := t.mode &&& 0xFFFFFFFFFFFFFFFF
  let hi : BitVec 128 := t.mode >>> 64 <<< 64
  { t with mode := if h then lo ||| bits.zeroExtend 128 <<< 64 else hi ||| bits.zeroExtend 128
           bad := t.bad.filter fun w => w / 2 != 2048 + boolBit h }
/-- Rows 32 · rb + l of the active lanes take their lane's tick (R297); a word of the staging loses its mark where both its rows do. -/
def stageRows (t : Tempo) (mask : Word) (a : Cells Word) (rb : Nat) : Tempo :=
  let rows := (lanesOf mask).map (32 * rb + ·)
  { t with stage := (lanesOf mask).foldl (fun m l => mput m (32 * rb + l) ((cget 0 a l).truncate 8)) t.stage
           bad := t.bad.filter fun w => !(decide (4104 ≤ w) && rows.contains (2 * (w - 4104)) && rows.contains (2 * (w - 4104) + 1)) }
/-- The array after a command (R294 to R300). -/
def tempoAfter (t : Tempo) (carve : Cells Byte) (c : TmCmd) : Tempo :=
  match c.ins with
  | .twin tw => { t with tw := tw, bad := t.bad.filter fun w => w != twWord }
  | .tloadw _ nr1 fr => loadRows t carve (c.k.toNat % 2 ^ 32) fr.toNat (nr1.toNat + 1)
  | .tcfg _ h => setModes t c.k h
  | .tstage _ rb => stageRows t c.mask c.a rb.val
  | .tfire fb => race t fb
  | .treset => { t with stage := [], out := [], bad := t.bad.filter fun w => decide (w < 4104) }
  | _ => t
/-- The pieces of a command, each made at a moment of its own: the carve-out words that TLOADW reads, the lanes that TCAPT writes
(R293, R294). -/
def tempoPieces (x : TmCmd) : List Nat :=
  match x.ins with
  | .tloadw _ nr1 _ => (List.range (32 * (nr1.toNat + 1))).map (x.k.toNat % 2 ^ 32 / 4 + ·)
  | .tcapt _ _ => lanesOf x.mask
  | _ => []
/-- The pieces that are still to be made. -/
def tempoLeft (x : TmCmd) : List Nat := x.left.getD (tempoPieces x)
/-- The value that TCAPT writes to a lane (R299). -/
def captWord (t : Tempo) (x : TmCmd) (l : Nat) : Word :=
  match x.ins with
  | .tcapt _ cb => (cget 255 t.out (32 * cb.val + l)).zeroExtend 32
  | _ => 0
/-- The check of a poisoned carve-out word that TLOADW reads, or of a failed word of the outputs that TCAPT reads, which has no
address: 0 (R347, R354, assumption 86). -/
def tempoBad (t : Tempo) (carveBad : List Nat) (x : TmCmd) (ps : List Nat) : Option Nat :=
  match x.ins with
  | .tloadw _ _ _ => (ps.find? carveBad.contains).map (4 * ·)
  | .tcapt _ cb => if ps.any fun l => t.bad.contains (outWord (32 * cb.val + l)) then some 0 else none
  | _ => none
/-- Some pieces of the command whose turn it is are made at one moment; registers keep their values where its writes are
discarded (R293, R294, R351). What it read that is poisoned comes with it. -/
def tempoAct (s : State) (c : Nat) (x : TmCmd) (ps : List Nat) : State × TmCmd × Option Nat :=
  let t := team s (grp s x.gid).team
  let arr := (core s c).tempo
  let left := (tempoLeft x).filter fun p => !ps.contains p
  let bad := tempoBad arr t.carveBad x ps
  match x.ins with
  | .tloadw _ _ _ =>
    let got := ps.foldl (fun m w => cputAll 0 m ((List.range 4).map fun i => (4 * w + i, cget 0 t.carve (4 * w + i)))) x.got
    (s, { x with left := some left, got := got }, bad)
  | .tcapt _ _ =>
    let s := if ((mget s.ops x.op).map (·.discard)).getD false then s
      else modGrp s x.gid fun g => ps.foldl (fun g l => vput g x.d l (captWord arr x l)) g
    (s, { x with left := some left }, bad)
  | _ => (s, x, none)
/-- What is left of the command whose turn it is is made, it acts on the array, and it is complete (R292, R293). -/
def tempoRun (s : State) (c : Nat) (x : TmCmd) : State :=
  let (s, x, bad) := tempoAct s c x (tempoLeft x)
  let s := modCore s c fun k => { k with tempo := tempoAfter k.tempo x.got x }
  mxKill (opDone s x.op none) x.gid bad
/-- TEMPO_COMMAND_EXECUTE: the core's oldest command, once the group's earlier scratchpad messages are performed (R220, R292). -/
def execTempoCommandExecute (c : Nat) (s : State) : Out :=
  .next (match (core s c).tq with
    | [] => s
    | x :: rest =>
      if scratchDone s x.gid x.op then tempoRun (modCore s c fun k => { k with tq := rest }) c x else s)

/-- A part of the command whose turn it is is made before the rest: any of the words or lanes that are left (R293, R294;
assumption 26). -/
def tempoPart (c : Nat) (s : State) : State :=
  match (core s c).tq with
  | [] => s
  | x :: rest =>
    if scratchDone s x.gid x.op then
      let n := s.fresh
      let ps := ((tempoLeft x).mapIdx fun i p => (i, p)).filterMap fun p => if Config.freeBit (n + p.1) then some p.2 else none
      let (t, y, bad) := tempoAct { s with fresh := n + (tempoLeft x).length } c x ps
      mxKill (modCore t c fun k => { k with tq := y :: rest }) x.gid bad
    else s

/-! ## Issue (R289, R291, R302) -/

/-- A command enters the core's queue and the open TM batch; a full queue holds it (R292). -/
def enqueueTm (s : State) (x : TmCmd) : State :=
  let g := s.issue.pre
  if Config.tempoQueue ≤ (core s g.core).tq.length then stall s
  else
    let (s, op) := newOp s { gid := s.issue.gid, cls := .tm, parts := 1 }
    let x := { x with gid := s.issue.gid, mask := activeMask g, op := op }
    modCore s g.core fun k => { k with tq := k.tq ++ [x] }
/-- TWIN (R296). -/
def execTwin (tw : BitVec 8) (s : State) : Out := .next (enqueueTm s { gid := 0, ins := .twin tw })
/-- TLOADW (R294, R302). -/
def execTloadw (base : EOp) (nr1 fr : BitVec 7) (s : State) : Out :=
  let g := s.issue.pre
  let sp := eopW g base
  .next (if sp % 16 ≠ 0 then raiseB s 6 0x13 sp
    else if (team s g.team).scratch < sp + 128 * (nr1.toNat + 1) then raiseB s 6 0x14 sp
    else enqueueTm s { gid := 0, ins := .tloadw base nr1 fr, k := BitVec.ofNat 64 sp })
/-- TCFG (R295). -/
def execTcfg (bits : EOp) (h : Bool) (s : State) : Out :=
  .next (enqueueTm s { gid := 0, ins := .tcfg bits h, k := eopD s.issue.pre bits })
/-- TSTAGE (R297). -/
def execTstage (a : Fin 48) (rb : Fin 4) (s : State) : Out :=
  let g := s.issue.pre
  .next (withRegs s [g.ixb + a.val] [] fun s =>
    let s := if badRegs s allLanes [g.ixb + a.val] then poisonKill s 0 false else s
    enqueueTm s { gid := 0, ins := .tstage a rb, a := captureReg g (g.ixb + a.val) })
/-- TFIRE (R298). -/
def execTfire (fb : Bool) (s : State) : Out := .next (enqueueTm s { gid := 0, ins := .tfire fb })
/-- TCAPT (R299). -/
def execTcapt (d : Fin 48) (cb : Fin 4) (s : State) : Out :=
  let g := s.issue.pre
  .next (withRegs s [g.ixb + d.val] [] fun s => enqueueTm s { gid := 0, ins := .tcapt d cb, d := g.ixb + d.val })
/-- TRESET (R300). -/
def execTreset (s : State) : Out := .next (enqueueTm s { gid := 0, ins := .treset })

end Sys2Proof.Machine
end

