-- ==== Sys2Proof/Machine/Tour.lean ====
section
/-! DEFINITION. Tour packets (R305 to R319). -/

namespace Sys2Proof.Machine

/-! ## The step list (R305, R306) -/

def stepNs (x : DWord) : Bool := x.getLsbD 34
def stepMsel (x : DWord) : Nat := x.toNat / 2 ^ 32 % 4
def stepOff (x : DWord) : Int := sextInt 32 x.toNat
/-- The address of a step (R311). -/
def stepAddr (x ptr : DWord) : Nat := (((ptr.toNat : Int) + stepOff x) % 2 ^ 64).toNat
/-- n 8-byte words of the list from an offset, and whether a byte lay past the bound. A poisoned word of the list is consumed as one
that KLDP reads is: R347 names no read of a step list (assumption 98). -/
def listWords (s : State) (c : Nat) (w : PWin) (o : Nat) : Nat → State × List DWord × Bool
  | 0 => (s, [], false)
  | n + 1 =>
    let (s, r) := pwRead s c w o 8
    let (s, xs, ov) := listWords (pwKill s r.bad) c w (o + 8) n
    (s, BitVec.ofNat 64 (ofBytes r.bytes) :: xs, r.outside || ov)
/-- The header breaks R305. -/
def badHeader (h : DWord) : Bool := h.toNat = 0 || decide (8 < h.toNat)
/-- A step word breaks R306; last says that it is the final one. -/
def badStep (x : DWord) (last : Bool) : Bool := x.toNat / 2 ^ 35 != 0 || (last && stepMsel x != 0)
/-- The group was killed, or a kill aborted its grid: its parks are dropped (R317, R351). -/
def killedGroup (s : State) (g : Group) : Bool :=
  let t := team s g.team
  let gr := grid s t.grid
  match gr.ending with
  | .aborting c => killCode c
  | .refused _ => true
  | .running => t.node.isNone && ((mget gr.recs (t.index / gr.gang)).getD {}).draining

/-! ## Running (R311, R312, R315) -/

def tourSlot (g : Group) (i : Nat) : TourSlot := (mget g.tours i).getD {}
def tourLane (t : TourSlot) (l : Nat) : TourLane := (mget t.lanes l).getD {}
/-- Change a lane of a slot. -/
def modLane (s : State) (gid slot lane : Nat) (f : TourLane → TourLane) : State :=
  modGrp s gid fun g =>
    let t := tourSlot g slot
    { g with tours := mput g.tours slot { t with lanes := mput t.lanes lane (f (tourLane t lane)) } }
/-- finish(kind, i, x, cause): a return packet from where the tour ended, at the step whose address is a (R312). -/
def tourFinish (s : State) (gid slot lane srcDie srcCore kind i x : Nat) (cause : Byte) (a : Nat) : State :=
  sendFrom s srcDie srcCore none (.core (grp s gid).core) (.tourRet gid slot lane kind i (BitVec.ofNat 64 x) cause a)
/-- The packet of a lane goes on to the home of its next step; one that came from a home keeps its number. -/
def tourHop (s : State) (num : Option Nat) (srcDie srcCore : Nat) (home : Home) (body : Body) : State :=
  let id := s.nextId
  let s := sendFrom s srcDie srcCore none home body
  match num with
  | some n => netMod s id fun m => { m with id := n }
  | none => s
/-- The leaf of an address leads to the fabric or the host, or has H = 1 (R311). It is looked at before the address is translated: neither A
nor D is set in it and no TLB takes it (assumption 111). -/
def foreign (s : State) (d p ctx va : Nat) : Bool :=
  let e := match tlbFind (die s d).tlb ctx va with
    | some e => e.pte.toNat
    | none => if walkHeld s p ctx va then 0 else match walkVa s p ctx va with
      | .leaf _ _ pte _ => pte.toNat
      | _ => 0
  bit e 63 || 2 ≤ e / 2 ^ 61 % 4
/-- One pass of R311's loop at a die, up to the hop; noted says that a notice has been written before (R345), num is the number
of a packet that came from a home. A step whose walk an invalidation holds goes back to its core, which sends it again (R337, assumption
111). -/
def tourPass (s : State) (num : Option Nat) (gid slot lane srcDie srcCore i : Nat) (ptr : DWord) (noted : Bool) : State :=
  let g := grp s gid
  let t := tourSlot g slot
  let step := t.steps.getD i 0
  let last := i + 1 = t.steps.length
  let fin := tourFinish s gid slot lane srcDie srcCore
  let a := stepAddr step ptr
  if stepNs step && ptr = 0 then fin 1 i 0 0 a
  else
    let z := if last then (if t.wide then 8 else 4) else 8
    if 2 ^ 48 ≤ a then fin 3 i a 0x1C a
    else if a % z ≠ 0 then fin 3 i a 0x13 a
    else if foreign s srcDie (partOf s g) (ctxOf s g) a then fin 2 i ptr.toNat 0 a
    else
      let write := last && t.add
      let (s, r) := xlateDie s srcDie (partOf s g) (ctxOf s g) a write
      match r with
      | .ok pa _ => tourHop s num srcDie srcCore (homeOf pa) (.tour gid slot lane i pa ptr)
      | .fault c => tourFinish s gid slot lane srcDie srcCore 3 i a c a
      | .poison x => killGang (tourFinish s gid slot lane srcDie srcCore 3 i a 0x42 a) gid 0x42 x true
      | .absent e =>
        let s := waitEntry s (partOf s g) (ctxOf s g) (some g) (.lane gid slot lane) srcDie a e 2 write noted
        sendFrom s srcDie srcCore none (.core g.core) (.page gid slot lane i ptr)
      | .ats _ => tourFinish s gid slot lane srcDie srcCore 2 i ptr.toNat 0 a
      | .miss =>
        let s := (addWalk s { part := partOf s g, ctx := ctxOf s g, va := a, write := write, who := .lane gid slot lane, die := srcDie,
                              retry := true, notBefore := s.time }).1
        sendFrom s srcDie srcCore none (.core g.core) (.page gid slot lane i ptr)
/-- The core sends a lane from its step and pointer (R311, R315). -/
def tourLaunch (s : State) (gid slot lane : Nat) (noted : Bool) : State :=
  let g := grp s gid
  let x := tourLane (tourSlot g slot) lane
  let s := modLane s gid slot lane fun y => { y with st := .inFlight, woken := false }
  tourPass s none gid slot lane (dieOf g.core) (g.core % 24) x.step x.ptr noted
/-- A lane has ended; the slot is freed with the last (R310). -/
def tourEnded (s : State) (gid slot lane : Nat) : State :=
  let op := (tourSlot (grp s gid) slot).op
  let s := modLane s gid slot lane fun y => { y with st := .ended }
  let s := modGrp s gid fun g =>
    if (tourSlot g slot).lanes.all fun y => y.2.st = .ended then { g with tours := mdel g.tours slot } else g
  opParts s op 1
/-- A step is performed at its home (R311). -/
def tourAtHome (s : State) (num gid slot lane i pa : Nat) (ptr : DWord) : State :=
  let t := tourSlot (grp s gid) slot
  let d := paDie pa
  let step := t.steps.getD i 0
  let last := i + 1 = t.steps.length
  let z := if last then (if t.wide then 8 else 4) else 8
  let a := stepAddr step ptr
  if poisoned s pa z then
    killGang (tourFinish s gid slot lane d 31 3 i a 0x42 a) gid 0x42 (firstPoison s pa z) true
  else
    let w := readNum s.mem pa z
    if !last then
      tourPass s (some num) gid slot lane d 31 (i + 1) (BitVec.ofNat 64 w &&& t.masks.getD (stepMsel step) 0) false
    else if t.add then
      tourFinish (homeWriteNum s pa z (w + (tourLane t lane).addend.toNat)) gid slot lane d 31 0 i w 0 a
    else tourFinish s gid slot lane d 31 0 i w 0 a
/-- The status word of a return (R312). -/
def tourStatus (kind i : Nat) (cause : Byte) : Word := BitVec.ofNat 32 (cause.toNat * 2 ^ 8 + i * 2 ^ 4 + kind)
/-- A return packet reaches the issuing core: its result words and its status word enter the registers at one moment (R312, assumption
99). -/
def tourDeliver (s : State) (gid slot lane kind i : Nat) (x : DWord) (cause : Byte) : State :=
  let t := tourSlot (grp s gid) slot
  let discard := ((mget s.ops t.op).map (·.discard)).getD false
  let s := if discard then s
    else modGrp s gid fun g =>
      vput (vput (vput g t.d lane (x.truncate 32)) (t.d + 1) lane ((x >>> 32).truncate 32)) t.stat lane (tourStatus kind i cause)
  let s := if kind = 3 then opError s t.op cause else s
  tourEnded s gid slot lane
/-- A PAGE return parks the lane, or resends it when a wake came first; a killed group's lane is dropped (R315, R351). -/
def tourPage (s : State) (gid slot lane i : Nat) (ptr : DWord) : State :=
  let x := tourLane (tourSlot (grp s gid) slot) lane
  let s := modLane s gid slot lane fun y => { y with st := .parked, step := i, ptr := ptr }
  if killedGroup s (grp s gid) then tourEnded s gid slot lane
  else if x.woken then tourLaunch s gid slot lane false
  else s
/-- A wake reaches every lane of a group that is parked or whose PAGE return may travel (R315, R319). -/
def wakeLanes (s : State) (gid : Nat) : State :=
  modGrp s gid fun g => { g with tours := mmap g.tours fun _ t => { t with lanes := mmap t.lanes fun _ y =>
    if y.st = .parked || y.st = .inFlight then { y with woken := true } else y } }

/-- A copy has written every byte, or is gone. -/
def copyGone (s : State) (id : Nat) : Bool := ((mget s.copies id).map copyOver).getD true
/-- A collective has written its result, or is gone. -/
def collGone (s : State) (id : Nat) : Bool := ((mget s.colls id).map fun c => c.status.isSome).getD true
/-- What a tour waits for besides messages is over: the group's copies to memory and its collectives (R214, R310). -/
def enginesGone (s : State) (t : TourSlot) : Bool := t.waitCopies.all (copyGone s) && t.waitColls.all (collGone s)
/-- TOUR_SEND: the lanes leave once the write-backs and the earlier home-bound writes are performed, those of the group's copies
to memory and of its collectives among them (R214, R310, R313). -/
def execTourSend (gid slot : Nat) (s : State) : Out :=
  .next (match mget (grp s gid).tours slot with
    | none => s
    | some t =>
      if t.sent || !t.waitFor.all (performed s) || !enginesGone s t then s
      else
        let s := modGrp s gid fun g => { g with tours := mput g.tours slot { tourSlot g slot with sent := true, waitFor := [], waitCopies := [], waitColls := [] } }
        t.lanes.foldl (fun s y => tourLaunch s gid slot y.1 false) s)
/-- A retry of a lane that found no free monitor is due (R170, R315). -/
def laneRetry (s : State) (gid slot lane : Nat) : Option (Nat × Walk) :=
  s.walks.find? fun w => w.2.who = .lane gid slot lane && decide (w.2.notBefore ≤ s.time)
/-- TOUR_RESEND: a parked lane is resent on a wake or every 10 µs (R315, R319). -/
def execTourResend (gid slot lane : Nat) (s : State) : Out :=
  let y := tourLane (tourSlot (grp s gid) slot) lane
  .next (if y.st != .parked then s
    else match laneRetry s gid slot lane with
      | some (w, k) => tourLaunch { s with walks := mdel s.walks w } gid slot lane k.noted
      | none => if y.woken then tourLaunch s gid slot lane false else s)

/-! ## Issue (R307, R309, R310) -/

/-- The lowest free tour slot of a group. -/
def freeTour (g : Group) : Option Nat := (List.range 4).find? fun i => (mget g.tours i).isNone
/-- A tour whose list is good is issued; keep puts the list into the holding register, also while another word holds the issue
group (R163, R177, R309, R310). -/
def startTour (s : State) (add wide : Bool) (n d stat : Nat) (masks steps : List DWord) (ov : Bool) (keep : State → State) : State :=
  let g := s.issue.pre
  let s := keep s
  let gid := s.issue.gid
  let flag (s : State) : State := if ov then setFlags s fPWOVR else s
  let lanes := activeLanes g
  if lanes.isEmpty then flag (newOp s { gid := gid, cls := .tour }).1
  else match freeTour g with
    | none => stall s
    | some slot =>
      if Config.requests < outstanding s g.core + lanes.length then stall s
      else
        let s := if badRegs s lanes ((List.range (if add then (if wide then 4 else 3) else 2)).map (n + ·)) then poisonKill s 0 false else s
        let (s, op) := newOp s { gid := gid, cls := .tour, parts := lanes.length }
        let (s, _) := writeBack s g.core (some gid) none fun _ _ => true
        let addend (l : Nat) : DWord :=
          if !add then 0 else if wide then vpair g (n + 2) l else (vget g (n + 2) l).zeroExtend 64
        let ls : Map TourLane := lanes.map fun l => (l, { st := .inFlight, ptr := vpair g n l, addend := addend l })
        let t : TourSlot := {
          busy := true, masks := masks, steps := steps, add := add, wide := wide, d := d, stat := stat, op := op, lanes := ls
          waitFor := allBound s gid, waitCopies := (s.copies.filter fun c => c.2.gid = gid && isCpys c.2.ins).map (·.1)
          waitColls := (s.colls.filter fun c => c.2.gid = gid).map (·.1) }
        flag (modCur s fun c => { c with tours := mput c.tours slot t })
/-- TOUR.ld and TOUR.add (R309). -/
def issueTour (s : State) (add : Bool) (a d stat : Fin 48) (pw : Fin 8) (wide : Bool) (loff : Nat) : State :=
  let g := s.issue.pre
  let run := if add then (if wide then 3 else 2) else 1
  withRegs s [g.ixb + a.val + run, g.ixb + d.val + 1, g.ixb + stat.val] [] fun s =>
    let s := memClass s
    let w := pwin s g pw.val
    if w.size = 0 then raiseB s 6 0x15 pw.val
    else
      let go (s : State) (xs : List DWord) (ov : Bool) : State :=
        startTour s add wide (g.ixb + a.val) (g.ixb + d.val) (g.ixb + stat.val) (xs.take 4) (xs.drop 4) ov fun s =>
          noteHold s [7, pw.val, loff] { pos := {}, word := 0, ops := [], list := xs, outside := ov }
      match findHold s [7, pw.val, loff] with
      | some h => go s h.list h.outside
      | none =>
      let (s, hs, ov) := listWords s g.core w loff 1
      let h := hs.getD 0 0
      let fault (s : State) (ov : Bool) : State :=
        let s := raiseB s 6 0x1B loff
        if ov then setFlags s fPWOVR else s
      if badHeader h then fault s ov
      else
        let n := h.toNat
        let (s, xs, ov') := listWords s g.core w (loff + 8) (4 + n)
        let ov := ov || ov'
        let steps := xs.drop 4
        if (steps.mapIdx fun i x => badStep x (i + 1 = n)).any id then fault s ov
        else go s xs ov
/-- TOUR.ld (R307). -/
def execTourLd (a d stat : Fin 48) (pw : Fin 8) (wide : Bool) (loff : BitVec 16) (s : State) : Out :=
  .next (issueTour s false a d stat pw wide loff.toNat)
/-- TOUR.add (R307). -/
def execTourAdd (a d stat : Fin 48) (pw : Fin 8) (wide : Bool) (loff : BitVec 16) (s : State) : Out :=
  .next (issueTour s true a d stat pw wide loff.toNat)

end Sys2Proof.Machine
end

