-- ==== Sys2Proof/Machine/Messages.lean ====
section
/-! DEFINITION. Messages performed at their homes and answers that reach their cores (R157, R172, R181, R187, R193, R217,
R222 to R224, R366, R367, R387). An event whose message has not arrived changes nothing. -/

namespace Sys2Proof.Machine

/-! ## Communicators -/

/-- The key of a communicator (R371). -/
def commKey (p ctx cid : Nat) : Nat := 256 * (4096 * p + ctx) + cid
def Coll.key (c : Coll) : Nat := commKey c.part c.ctx c.cid

/-! ## Taking a message -/

/-- The package core that sent a message. -/
def srcOf (m : Msg) : Nat := 24 * m.srcDie + m.srcCore
/-- TAG of a message: its own number, or the request's in a response (R361). -/
def tagNum (m : Msg) : Nat := m.tag.getD m.id % 2 ^ 16
/-- The address of step i of a tour lane (R311). -/
def laneAddr (s : State) (gid slot i : Nat) (ptr : DWord) : Nat := stepAddr ((tourSlot (grp s gid) slot).steps.getD i 0) ptr
/-- ADDR of what a message carries, where it has a physical address of its own: the first byte it names (R361). -/
def bodyAddr : Body → Option Nat
  | .read line ws _ => some (128 * line + 4 * ws.headD 0)
  | .data _ bytes _ _ | .write bytes _ _ | .engine _ bytes _ => bytes.head?.map (·.1)
  | .atomic _ _ _ ls => ls.head?.map (·.pa)
  | .tour _ _ _ _ pa _ => some pa
  | .engineAck _ _ pa _ => some pa
  | .collData _ _ _ bytes _ => bytes.head?.map (·.1)
  | .collAck _ _ pa _ _ _ => some pa
  | .pool _ _ a => some a
  | .wake _ line => some (128 * line)
  | _ => none
/-- ADDR of a message (R361): a marker's is its update's, a report's the address of the update that counted the write, a tour
return's the address of its step, an invalidation's its entry; another response repeats the request's. -/
def msgAddr (s : State) (m : Msg) : Nat :=
  match m.body with
  | .marker r | .report r _ => ((mget s.rels r).bind fun x => bodyAddr x.body).getD m.addr
  | .tourRet _ _ _ _ _ _ _ a => a
  | .page gid slot _ i ptr => laneAddr s gid slot i ptr
  | .inval p _ => ((part s p).inval.head?.map (·.entry)).getD m.addr
  | b => (bodyAddr b).getD m.addr
/-- A message that answers another repeats its TAG and ADDR and is as old; what a read brings fills the way that it is to (R179, R361,
R367). -/
def answers (s : State) (m x : Msg) : Msg := { x with tag := some (tagNum m), addr := msgAddr s m, sentAt := m.sentAt, aside := m.aside }
/-- Where an answer goes: to the core that asked, or to its die's engine. -/
def askerOf (m : Msg) : Home := if m.srcCore = 31 then .die m.srcDie else .core (srcOf m)
/-- Answer the sender from where a message was performed. -/
def reply (s : State) (m : Msg) (b : Body) : State :=
  let id := s.nextId
  netMod (sendFrom s (placeOf m.home m.srcDie) 31 none (askerOf m) b) id (answers s m)
/-- The bytes and the poisoned words of words of a line, as its home reads them. -/
def lineBytes (s : State) (line : Nat) (ws : List Nat) : Cells Byte × List Nat :=
  ((ws.map fun w => (readBytes s.mem (128 * line + 4 * w) 4).mapIdx fun i b => (128 * line + 4 * w + i, b)).flatten,
   (ws.map fun w => 32 * line + w).filter fun w => s.memBad.contains w)
/-- An operation's group. -/
def opGid (s : State) (op : Nat) : Nat := ((mget s.ops op).map (·.gid)).getD 0
/-- Results of an operation are written no more (R96, R351). -/
def opDiscard (s : State) (op : Nat) : Bool := ((mget s.ops op).map (·.discard)).getD true
/-- An acquire that its operation carries takes effect when the operation completes (R218, R222). -/
def acquireDone (s : State) (op : Nat) (acq : Option Scope) : State :=
  match acq, mget s.ops op with
  | some sc, some o => if o.parts = 0 then acquireAt s (grp s o.gid).core sc else s
  | _, _ => s

/-! ## Performing at a home -/

/-- An atomic transaction is performed at its home (R193). -/
def performAtomic (s : State) (op : Nat) (k : AKind) (acq : Option Scope) (lanes : List ALane) : State × Body :=
  match lanes.find? fun l => poisoned s l.pa (kindBytes k) with
  | some l => (killGang s (opGid s op) 0x42 (firstPoison s l.pa (kindBytes k)) true, .ack op false)
  | none =>
    let (bytes, rets) := atomRun k s.mem lanes
    (homeWrite s bytes [], if rets.isEmpty then .ack op false else .atomData op acq rets false)
/-- A home-bound write is performed: memory changes, its reports leave, its sender is answered (R187, R217). -/
def performWrite (s : State) (m : Msg) : State :=
  let at_ := placeOf m.home m.srcDie
  match m.body with
  | .write bytes bad ack =>
    let s := sendReports (homeWrite s bytes bad) at_ m.id m.counted
    match ack with
    | some op => reply s m (.ack op false)
    | none => s
  | .atomic op k acq lanes =>
    let (s, b) := performAtomic s op k acq lanes
    reply (sendReports s at_ m.id m.counted) m b
  | _ => s
/-- A release whose marker is at its home and whose counted writes are all reported performs its update (R217). -/
def tryRelease (s : State) (r : Nat) : State :=
  match mget s.rels r with
  | some x =>
    if x.arrived && x.pending.isEmpty then
      performWrite { s with rels := mdel s.rels r }
        { id := r, srcDie := x.srcDie, srcCore := x.srcCore, home := x.home, gid := some x.gid, counted := x.counted, body := x.body }
    else s
  | none => s
/-- The address of a WAITA that has still to be translated: no physical address (R154). -/
def noPa : Nat := 2 ^ 52
/-- A WAITA's value is read again in 2 µs (R198, R199). -/
def waitaLater (s : State) (gid : Nat) : State :=
  match (grp s gid).status with
  | .waiting (.mem pa _ _ _) =>
    (addWalk s { part := partOf s (grp s gid), ctx := ctxOf s (grp s gid), va := pa, write := false, who := .waita gid, die := paDie pa,
                 retry := true, notBefore := s.time + Config.rereadNs }).1
  | _ => s
/-- The value at a WAITA's address is read at the home: a different one wakes the group, else the home watches the line, and
where it cannot the value is read again in 2 µs; so it is where the address has been invalidated since (R198, R199, R370). -/
def readWaita (s : State) (m : Msg) (gid : Nat) : State :=
  match (grp s gid).status with
  | .waiting (.mem pa n e line) =>
    if pa = noPa then waitaLater s gid
    else if readNum s.mem pa n ≠ e.toNat then reply s m (.wake (.waita gid) 0)
    else
      let d := paDie pa
      if !cacheable pa then waitaLater s gid
      else match (die s d).mon.find? fun k => k.line = line with
        | some _ => modDie s d fun x =>
            { x with mon := x.mon.map fun k => if k.line = line then { k with who := addOnce k.who (.waita gid) } else k }
        | none =>
          if (die s d).mon.length < Config.monitors then
            modDie s d fun x => { x with mon := x.mon ++ [{ line := line, who := [.waita gid] }] }
          else waitaLater s gid
  | _ => s
/-- A read is performed at its home (R172, R190, R198, R200, R206, R222). -/
def performRead (s : State) (m : Msg) : State :=
  match m.body with
  | .read line ws f =>
    let s := l2Touch s line false
    match f with
    | .waita gid => readWaita s m gid
    | .prefL2 => s
    | _ =>
      let (bytes, bad) := lineBytes s line ws
      reply s m (.data f bytes bad false)
  | _ => s

/-! ## Results that reach a core -/

/-- A loaded value, extended to a word (R188). -/
def ldExtend (sz : LdSize) (x : Nat) : Nat :=
  match sz with
  | .i8 => (sextWord 8 x).toNat
  | .i16 => (sextWord 16 x).toNat
  | _ => x
/-- The words a lane's load writes: register and value; all ones where the load completes in error (R187, R189). -/
def ldWords (n : Nat) (r x : Nat) (err : Bool) : List (Nat × Word) :=
  (regRun r n).mapIdx fun i k => (k, if err then 0xFFFFFFFF else BitVec.ofNat 32 (x / 2 ^ (32 * i)))
/-- Write registers of a group. -/
def putRegs (g : Group) (ws : List (Nat × Nat × Word)) : Group := ws.foldl (fun g w => vput g w.2.1 w.1 w.2.2) g
/-- An error completion's cause (R187). -/
def remote (err : Bool) : Option Byte := if err then some 0x1F else none
/-- n bytes from a in what came back. -/
def gotNum (bytes : Cells Byte) (a n : Nat) : Nat := ofBytes ((List.range n).map fun i => cget 0 bytes (a + i))
/-- The first poisoned word that lanes take. -/
def firstBad (bad : List Nat) (ranges : List (Nat × Nat)) : Option Nat :=
  ranges.findSome? fun r => ((wordsOf r.1 r.2).find? fun w => bad.contains w).map (4 * ·)
/-- A consumed poisoned word kills the gang: its address, and whether it lay in memory-side storage (R347, R354). -/
def consume (s : State) (gid : Nat) (bad : Option Nat) (memSide : Bool) : State :=
  match bad with
  | some a => killGang s gid 0x42 a memSide
  | none => s
/-- What a carve-out load's answer adds to its offsets, which are no physical addresses (assumption 86). -/
def carveTag : Nat := 2 ^ 34
/-- A lane load's line has come back: every word that the answer brings is written, in all its lanes, at one moment, where R18 leaves
each word a moment of its own (R172, R187, R189, assumption 99). A carve-out's answer holds no line's bytes. -/
def deliverLoad (s : State) (m : Msg) (op : Nat) (sz : LdSize) (lanes : List (Nat × Nat × Nat)) (got : Cells Byte)
    (fill : List Nat) (stable : Bool) (bytes : Cells Byte) (bad : List Nat) (err : Bool) : State :=
  let n := ldBytes sz
  let all := bytes.foldl (fun k x => mput k x.1 x.2) got
  let c := match m.home with | .core c => c | _ => 0
  let s := if err then s else (match bytes with
      | (a, _) :: _ => l1Fill s c (a / 128) m.aside fill stable bytes bad
      | [] => s)
  let gid := opGid s op
  let s := if opDiscard s op then s
    else modGrp s gid fun g =>
      putRegs g ((lanes.map fun l => (ldWords n l.2.1 (ldExtend sz (gotNum all l.2.2 n)) err).map fun w => (l.1, w)).flatten)
  let s := opDone s op (remote err)
  let mem := !bytes.isEmpty
  if opDiscard s op then s
  else consume s gid ((firstBad bad (lanes.map fun l => (l.2.2, n))).map fun a => if mem then a else a - carveTag) mem
/-- KLDG's value reaches the holding register (R163, R190). -/
def deliverKldg (s : State) (m : Msg) (gid word pa n : Nat) (got : Cells Byte) (fill : List Nat) (stable : Bool) (bytes : Cells Byte)
    (bad : List Nat) (err : Bool) : State :=
  let all := bytes.foldl (fun k x => mput k x.1 x.2) got
  let c := match m.home with | .core c => c | _ => 0
  let s := if err then s else l1Fill s c (pa / 128) m.aside fill stable bytes bad
  let v : DWord := BitVec.ofNat 64 (if err then 256 ^ n - 1 else gotNum all pa n)
  let put (h : Hold) : Hold := if h.word = word && h.res.isNone then { h with res := some v } else h
  let s := modGrp s gid fun g => { g with hold := g.hold.map put }
  if err then s else consume s gid (firstBad bad [(pa, n)]) true
/-- LDA's value reaches its lane (R222). -/
def deliverLda (s : State) (op : Nat) (acq : Scope) (lane reg pa n : Nat) (bytes : Cells Byte) (bad : List Nat) (err : Bool) : State :=
  let gid := opGid s op
  let s := if opDiscard s op then s
    else modGrp s gid fun g => putRegs g ((ldWords n reg (gotNum bytes pa n) err).map fun w => (lane, w))
  let s := acquireDone (opDone s op (remote err)) op (some acq)
  consume s gid (firstBad bad [(pa, n)]) true
/-- Bytes of a copy reach the carve-out, or the stream that CPYX expands; marks travel with their words (R204, R206, R347). -/
def deliverCopy (s : State) (id pa off n : Nat) (bytes : Cells Byte) (bad : List Nat) (err : Bool) : State :=
  match mget s.copies id with
  | none => s
  | some c =>
    let s := modCopy s id fun c => { c with out := c.out - 1 }
    if err then failCopy s id 0x1F
    else
      let here := (List.range n).map fun i => (off + i, cget 0 bytes (pa + i))
      if isCpyx c.ins then
        let first := (bad.map fun w => max off (4 * w + off - pa)).foldl (fun o b => match o with
          | some a => some (min a b)
          | none => some b) c.spoiled
        pump (modCopy s id fun c => { c with stream := cputAll 0 c.stream here, spoiled := first }) id
      else
        let marks := bad.map fun w => (4 * w - pa + off) / 4
        let old := (List.range (n / 4)).map fun i => off / 4 + i
        pump (modTeam s c.team fun t => { t with
          carve := cputAll 0 t.carve here
          carveBad := marks.foldl insertNat (t.carveBad.filter fun w => !old.contains w) }) id
/-- An answer belongs to the attempt that a collective's engine makes. -/
def collNow (s : State) (id t : Nat) : Bool :=
  ((mget s.colls id).map fun c => c.tries = t && c.since.isSome && c.status.isNone).getD false
/-- A transfer of a collective's attempt has completed in error; COLL_TRANSFER_RETRY takes it up (R367, R377). -/
def collErred (s : State) (id t : Nat) : State := if collNow s id t then modColl s id fun c => { c with erred := true } else s
/-- Source bytes from beyond a port reach the engine that asked (R367, R375, R377). -/
def deliverColl (s : State) (id t pa off n : Nat) (bytes : Cells Byte) (bad : List Nat) (err : Bool) : State :=
  if err then collErred s id t
  else if !collNow s id t then s
  else modColl s id fun c => (List.range n).foldl (fun c i => { c with
    got := mput c.got (off + i) (cget 0 bytes (pa + i))
    gotBad := if bad.contains ((pa + i) / 4) then insertNat c.gotBad (off + i) else c.gotBad }) c
/-- A destination beyond a port has taken bytes of the results (R367, R375, R377). -/
def deliverCollAck (s : State) (id t off n : Nat) (err : Bool) : State :=
  let there (o : Nat) : Bool := decide (off ≤ o) && decide (o < off + n)
  if err then collErred s id t
  else if !collNow s id t then s
  else modColl s id fun c => { c with stage := c.stage.map fun x => (x.1.filter fun b => !there b.1, x.2) }
/-- Returned data reaches what it is for. -/
def deliverData (s : State) (m : Msg) : State :=
  match m.body with
  | .data (.load op sz lanes got fill st) bytes bad err => deliverLoad s m op sz lanes got fill st bytes bad err
  | .data (.kldg gid word pa n got fill st) bytes bad err => deliverKldg s m gid word pa n got fill st bytes bad err
  | .data (.lda op acq lane reg pa n) bytes bad err => deliverLda s op acq lane reg pa n bytes bad err
  | .data (.pref fill st) bytes bad err =>
    if err then s else (match bytes, m.home with
      | (a, _) :: _, .core c => l1Fill s c (a / 128) m.aside fill st bytes bad
      | _, _ => s)
  | .data (.coll id t pa off n) bytes bad err => deliverColl s id t pa off n bytes bad err
  | .data (.copy c pa off n) bytes bad err => deliverCopy s c pa off n bytes bad err
  | .atomData op acq rets err =>
    let gid := opGid s op
    let s := if opDiscard s op then s else modGrp s gid fun g => putRegs g (if err then rets.map fun r => (r.1, r.2.1, 0xFFFFFFFF) else rets)
    acquireDone (opDone s op (remote err)) op acq
  | _ => s
/-- An acknowledgement reaches the issuing core, or a collective's engine (R187, R206, R377). -/
def deliverAck (s : State) (m : Msg) : State :=
  match m.body with
  | .ack op err => opDone s op (remote err)
  | .collAck id t _ off n err => deliverCollAck s id t off n err
  | .engineAck id err pa n =>
    match mget s.copies id with
    | none => s
    | some c =>
      let s := modCopy s id fun c => { c with out := c.out - 1 }
      let s := stopOld (invalidate s c.core fun l _ w x => !x.dirty && inPieces [(pa, n)] l w) c.core fun _ w => inPieces [(pa, n)] (w / 32) (w % 32)
      pump (if err then failCopy s id 0x1F else s) id
  | _ => s
/-- PUTF's data has not been written: the lane's flag is not incremented, and that part of the operation is complete in error
(R187, R196, R217, assumption 82). -/
def cancelPutf (s : State) (op w : Nat) : State :=
  let ofLane (r : Nat × Release) : Bool := r.2.pending.contains w && (match r.2.body with
    | .atomic o .putf _ _ => o = op
    | _ => false)
  match s.rels.find? ofLane with
  | some r =>
    let s := { s with rels := mdel s.rels r.1, net := s.net.filter fun m => match m.body with | .marker k => k != r.1 | _ => true }
    opDone (sendReports s r.2.srcDie r.1 r.2.counted) op (some 0x1F)
  | none => s
/-- PROMOTE's request of a number is acknowledged: where its attempt still waits the caller acts as an acquire at the named scope (R218,
R224, R226). -/
def promoteDone (s : State) (gid req : Nat) : State :=
  let g := grp s gid
  let its (h : Hold) : Bool := h.ops.head? = some 4 && h.ops.length = 3 && h.waitFor = [req]
  match g.hold.find? fun h => its h && h.res.isNone with
  | none => s
  | some h =>
    let put (x : Hold) : Hold := if its x then { x with res := some 0 } else x
    let s := modGrp s gid fun g => { g with hold := g.hold.map put }
    match Scope.ofCode? ((h.ops[2]?).getD 4) with
    | some sc => acquireAt s g.core sc
    | none => s
/-- A request, or the answer that should end it, completes in error with cause 0x1F at the issuing core (R187, R366, R367). A WAITA
reads again. A PROMOTE is over. A wake that finds no path is made up for by a retry of its party 10 µs later, so that no wake is lost
(R211). What else belongs to no operation - an invalidation, a record, collective control - is lost, and what waits for it goes on waiting
(assumption 83). -/
def errorOf (s : State) (m : Msg) : State :=
  match m.body with
  | .data f bytes bad _ => deliverData s { m with body := .data f bytes bad true }
  | .atomData op acq rets _ => deliverData s { m with body := .atomData op acq rets true }
  | .ack op _ => deliverAck s { m with body := .ack op true }
  | .engineAck c _ pa n => deliverAck s { m with body := .engineAck c true pa n }
  | .report r w => match mget s.rels r with
    | some x => tryRelease { s with rels := mput s.rels r { x with pending := x.pending.filter (· != w) } } r
    | none => s
  | .tourRet gid slot lane _ i _ _ a => tourDeliver s gid slot lane 3 i (BitVec.ofNat 64 a) 0x1F
  | .page gid slot lane i ptr => tourDeliver s gid slot lane 3 i (BitVec.ofNat 64 (laneAddr s gid slot i ptr)) 0x1F
  | .promote gid _ => promoteDone s gid m.id
  | .promoteAck gid req => promoteDone s gid req
  | .wake (.waita gid) _ => waitaLater s gid
  | .wake who line => (addWalk s { part := 0, ctx := 0, va := 128 * line, write := false, who := who, die := m.srcDie, retry := true,
                                   lost := true, notBefore := s.time + Config.retryNs }).1
  | .inval _ _ | .collCtl _ _ _ _ | .record _ _ _ => s
  | .sread op _ _ _ => opDone s op (some 0x1F)
  | .swrite op _ _ | .atoms op _ _ _ => opDone (sendReports s m.srcDie m.id m.counted) op (some 0x1F)
  | .collData id t _ _ _ | .collAck id t _ _ _ _ => collErred s id t
  | .pool key x _ => match x with
    | .source _ k _ _ | .formed k _ _ => (s.colls.filter fun c => c.2.key = key && c.2.step = k).foldl (fun s c => collErred s c.1 c.2.tries) s
    | _ => s
  | .read line ws f =>
    match f with
    | .waita gid => waitaLater s gid
    | .pref _ _ | .prefL2 => s
    | _ => deliverData s { m with home := .core (srcOf m), body := .data f (lineBytes s line ws).1 [] true }
  | .write _ _ ack =>
    let s := sendReports s m.srcDie m.id m.counted
    match ack with
    | some op => cancelPutf (opDone s op (some 0x1F)) op m.id
    | none => s
  | .atomic op k acq lanes =>
    let (_, rets) := atomRun k s.mem lanes
    let s := sendReports s m.srcDie m.id m.counted
    if rets.isEmpty then opDone s op (some 0x1F)
    else deliverData s { m with body := .atomData op acq rets true }
  | .engine c bytes _ =>
    deliverAck s { m with body := .engineAck c true ((bytes.head?.map (·.1)).getD 0) bytes.length }
  | .marker r => match mget s.rels r with
    | some x =>
      let ack := match x.body with
        | .write _ _ a => a
        | .atomic op _ _ _ => some op
        | _ => none
      let s := sendReports { s with rels := mdel s.rels r } m.srcDie r x.counted
      match ack with
      | some op => opDone s op (some 0x1F)
      | none => s
    | none => s
  | .tour gid slot lane i _ ptr =>
    let a := laneAddr s gid slot i ptr
    tourFinish s gid slot lane m.srcDie m.srcCore 3 i a 0x1F a

/-- Run an arrival: the message that arrives, of a kind that ok names, is taken off the network; one without a path
completes in error (R366). -/
def onMessage (s : State) (ok : Body → Bool) (k : State → Msg → State) : State :=
  match s.arriving with
  | .msg id => match netGet s id with
    | some m =>
      if !ok m.body then s
      else if unreachable s m then errorOf (netDel s id) m
      else if arrived s m then k (netDel s id) m
      else s
    | none => s
  | _ => s

/-! ## The events -/

/-- A tour's return or PAGE return. -/
def isTourAnswer : Body → Bool
  | .tourRet _ _ _ _ _ _ _ _ | .page _ _ _ _ _ => true
  | _ => false
/-- READ_MESSAGE: a read at its home, or an LDS at its array (R172, R181). -/
def execReadMessage (s : State) : Out :=
  .next (onMessage s (fun b => match b with | .read _ _ _ | .sread _ _ _ _ => true | _ => false) fun s m =>
    match m.body with
    | .sread op t sz lanes =>
      let x := team s t
      let top := carveTag
      let n := ldBytes sz
      let got := (lanes.map fun l => (List.range n).map fun i => (top + l.2.2 + i, cget 0 x.carve (l.2.2 + i))).flatten.foldl
        (fun k y => mput k y.1 y.2) []
      let bad := (lanes.map fun l => (wordsOf l.2.2 n).filter x.carveBad.contains).flatten.map (top / 4 + ·)
      reply s m (.data (.load op sz (lanes.map fun l => (l.1, l.2.1, top + l.2.2)) got [] false) [] bad false)
    | _ => performRead s m)
/-- WRITE_MESSAGE: a write merged at its home, or an STS at its array (R172, R181, R187). -/
def execWriteMessage (s : State) : Out :=
  .next (onMessage s (fun b => match b with | .write _ _ _ | .swrite _ _ _ => true | _ => false) fun s m =>
    match m.body with
    | .swrite op t bytes =>
      let has (a : Nat) : Bool := (mget bytes a).isSome
      let s := modTeam s t fun x => { x with
        carve := cputAll 0 x.carve bytes
        carveBad := x.carveBad.filter fun w => !(has (4 * w) && has (4 * w + 1) && has (4 * w + 2) && has (4 * w + 3)) }
      reply (sendReports s (placeOf m.home m.srcDie) m.id m.counted) m (.ack op false)
    | _ => performWrite s m)
/-- ATOMIC_MESSAGE: a transaction at its home, or an ATOMS at its array (R181, R193). -/
def execAtomicMessage (s : State) : Out :=
  .next (onMessage s (fun b => match b with | .atomic _ _ _ _ | .atoms _ _ _ _ => true | _ => false) fun s m =>
    match m.body with
    | .atoms op t k lanes =>
      let x := team s t
      match lanes.find? fun l => (wordsOf l.pa (kindBytes k)).any x.carveBad.contains with
      | some l => reply (sendReports (killGang s (opGid s op) 0x42 (4 * (((wordsOf l.pa (kindBytes k)).find? x.carveBad.contains).getD 0)) false) (placeOf m.home m.srcDie) m.id m.counted) m (.ack op false)
      | none =>
        let (bytes, rets) := atomRun k x.carve lanes
        let s := modTeam s t fun x => { x with carve := cputAll 0 x.carve bytes }
        reply (sendReports s (placeOf m.home m.srcDie) m.id m.counted) m
          (if rets.isEmpty then .ack op false else .atomData op none rets false)
    | _ => performWrite s m)
/-- READ_DATA_MESSAGE (R172, R187, R190, R206, R222). -/
def execReadDataMessage (s : State) : Out :=
  .next (onMessage s (fun b => match b with | .data _ _ _ _ | .atomData _ _ _ _ => true | _ => false) deliverData)
/-- WRITE_ACKNOWLEDGE (R187, R206, R387). -/
def execWriteAcknowledge (s : State) : Out :=
  .next (onMessage s (fun b => match b with | .ack _ _ | .engineAck _ _ _ _ | .collAck _ _ _ _ _ _ => true | _ => false) deliverAck)
/-- RELEASE_MARKER (R217). -/
def execReleaseMarker (s : State) : Out :=
  .next (onMessage s (fun b => match b with | .marker _ => true | _ => false) fun s m =>
    match m.body with
    | .marker r => match mget s.rels r with
      | some x => tryRelease { s with rels := mput s.rels r { x with arrived := true } } r
      | none => s
    | _ => s)
/-- A counted write has been performed: its release counts it no more (R217). -/
def deliverReport (s : State) (m : Msg) : State :=
  match m.body with
  | .report r w => match mget s.rels r with
    | some x => tryRelease { s with rels := mput s.rels r { x with pending := x.pending.filter (· != w) } } r
    | none => s
  | _ => s
/-- WRITE_REPORT (R217, R387). -/
def execWriteReport (s : State) : Out :=
  .next (onMessage s (fun b => match b with | .report _ _ => true | _ => false) deliverReport)
/-- TOUR_STEP (R311). -/
def execTourStep (s : State) : Out :=
  .next (onMessage s (fun b => match b with | .tour _ _ _ _ _ _ => true | _ => false) fun s m =>
    match m.body with
    | .tour gid slot lane i pa ptr =>
      let t := tourAtHome (l2Touch s (pa / 128) false) m.id gid slot lane i pa ptr
      { t with net := t.net.map fun x => if s.nextId ≤ x.id && isTourAnswer x.body then answers s m x else x }
    | _ => s)
/-- TOUR_RETURN (R312). -/
def execTourReturn (s : State) : Out :=
  .next (onMessage s (fun b => match b with | .tourRet _ _ _ _ _ _ _ _ => true | _ => false) fun s m =>
    match m.body with
    | .tourRet gid slot lane kind i x cause _ => tourDeliver s gid slot lane kind i x cause
    | _ => s)
/-- PAGE_RETURN (R315). -/
def execPageReturn (s : State) : Out :=
  .next (onMessage s (fun b => match b with | .page _ _ _ _ _ => true | _ => false) fun s m =>
    match m.body with
    | .page gid slot lane i ptr => tourPage s gid slot lane i ptr
    | _ => s)
/-- ENGINE_DATA: a copy's bytes, or a collective's, are written at their home (R206, R367, R375). -/
def execEngineData (s : State) : Out :=
  .next (onMessage s (fun b => match b with | .engine _ _ _ | .collData _ _ _ _ _ => true | _ => false) fun s m =>
    match m.body with
    | .engine c bytes bad =>
      let s := sendReports (homeWrite s bytes bad) (placeOf m.home m.srcDie) m.id m.counted
      reply s m (.engineAck c false ((bytes.head?.map (·.1)).getD 0) bytes.length)
    | .collData id t off bytes bad =>
      reply (homeWrite s bytes bad) m (.collAck id t ((bytes.head?.map (·.1)).getD 0) off bytes.length false)
    | _ => s)
/-- The writes that a core has sent and that are not yet performed, TOUR.add's packets among them (R214, R224). -/
def coreBound (s : State) (c : Nat) : List Nat :=
  (s.net.filter fun m => match m.body with
    | .write _ _ _ | .atomic _ _ _ _ | .engine _ _ _ => srcOf m = c
    | .tour g slot _ _ _ _ => (grp s g).core = c && ((mget (grp s g).tours slot).map (·.add)).getD false
    | _ => false).map (·.id) ++ (s.rels.filter fun r => 24 * r.2.srcDie + r.2.srcCore = c).map (·.1)
/-- PROMOTE_REQUEST: the victim writes its dirty words back and drops them, and acknowledges once every write it had sent is
performed (R224, R229). -/
def execPromoteRequest (s : State) : Out :=
  .next (onMessage s (fun b => match b with | .promote _ _ => true | _ => false) fun s m =>
    match m.body with
    | .promote gid v =>
      let dirty := ((core s v).l1.map fun l => (l.2.words.filter fun w => w.2.dirty).map fun w => (l.1, w.1)).flatten
      let (s, _) := writeBack s v none none fun _ _ => true
      let s := stopWords (invalidate s v fun l _ w _ => dirty.contains (l, w)) v fun w => dirty.contains (w / 32, w % 32)
      let pend := coreBound s v
      let id := s.nextId
      netMod (send s v none (.core (grp s gid).core) (.promoteAck gid m.id)) id fun x => { answers s m x with after := pend }
    | _ => s)
/-- PROMOTE_ACKNOWLEDGE: the caller acts as an acquire at the named scope and its PROMOTE completes (R224). -/
def execPromoteAcknowledge (s : State) : Out :=
  .next (onMessage s (fun b => match b with | .promoteAck _ _ => true | _ => false) fun s m =>
    match m.body with
    | .promoteAck gid req => promoteDone s gid req
    | _ => s)
/-- FABRIC_REQUEST_TIMEOUT: no answer within 1 ms completes the request in error; a request that has reached the port may
have been performed (R367). -/
def execFabricRequestTimeout (s : State) : Out :=
  .next (match s.arriving with
    | .msg id => match netGet s id with
      | some m =>
        if s.time < m.sentAt + Config.timeoutNs then s
        else if 100 ≤ m.at_ && (match m.home with | .port _ => false | _ => true) then errorOf (netDel s id) m
        else match m.home with
        | .port _ =>
          let (s, done) := freeBit (netDel s id)
          let s := match done, m.body with
            | true, .write bytes bad _ => homeWrite s bytes bad
            | true, .engine _ bytes bad | true, .collData _ _ _ bytes bad => homeWrite s bytes bad
            | true, .atomic _ k _ lanes => homeWrite s (atomRun k s.mem lanes).1 []
            | _, _ => s
          errorOf s m
        | _ => s
      | none => s
    | _ => s)

/-- PORT_SIGNAL_RELEASE: what a port holds is sent once the earlier writes are performed (R249, R253). -/
def execPortSignalRelease (s : State) : Out :=
  .next (match s.arriving with
    | .port id => match mget s.ports id with
      | some h => if portReady s h then portSend { s with ports := mdel s.ports id } h else s
      | none => s
    | _ => s)

/-! ## The synchronisation network inside the package (R237 to R242) -/

/-- Run the arrival of a network message of a kind that ok names, when it is the first of its sender and receiver; messages
between the package root and the pod switch travel as uplink frames (R237, R255). -/
def onPhaser (s : State) (ok : PKind → Bool) : State :=
  match s.arriving with
  | .pmsg id => match mget s.pnet id with
    | some m =>
      let first := s.pnet.all fun x => id ≤ x.1 || x.2.src != m.src || x.2.dst != m.dst
      if ok m.k && first && m.src != podNode && m.dst != podNode then phDeliver { s with pnet := mdel s.pnet id } m else s
    | none => s
  | _ => s

end Sys2Proof.Machine
end

