-- ==== Sys2Proof/Machine/Walks.lean ====
section
/-! DEFINITION. Walks that finish, and what a wake or a translation does for a group (R160, R164, R169 to R171, R198, R199,
R210, R211, R315, R319, R345, R346). -/

namespace Sys2Proof.Machine

/-- The group that a party stands for; none for engines and front ends. -/
def partyGroup : Party → Option Nat
  | .group gid | .fetch gid | .window gid => some gid
  | _ => none
/-- The source field of a notice (R344 AUX). -/
def partySource : Party → Nat
  | .group _ | .waita _ => 0
  | .copy _ => 1
  | .lane _ _ _ => 2
  | .fetch _ => 3
  | .window _ => 4
  | .queue _ _ | .fe _ => 5
  | .coll _ => 6
/-- The group still waits for a walk; the reply of any other is discarded (R346). -/
def awaited (s : State) (id : Nat) (who : Party) : Option (Nat × Group) :=
  match partyGroup who with
  | some gid => match mget s.groups gid with
    | some g => if g.walksOut.contains id then some (gid, g) else none
    | none => none
  | none => none
/-- The result of a walk is held for the issue group that asked; when its last walk has finished a group that waits for them
is ready (R210). -/
def holdWalk (s : State) (id gid : Nat) (h : HeldWalk) : State :=
  modGrp s gid fun g =>
    let left := g.walksOut.filter (· != id)
    let g := { g with walksOut := left, heldWalks := g.heldWalks ++ [h] }
    if left.isEmpty && g.status = .waiting .walks then makeReady s g else g
/-- A translation enters the TLBs of a core and its die (R164, R210). -/
def loadTlbs (s : State) (c : Nat) (e : TlbEntry) : State :=
  let s := modDie s (dieOf c) fun x => { x with tlb := tlbLoad Config.dieTlb x.tlb e }
  modCore s c fun k => { k with tlb := tlbLoad Config.coreTlb k.tlb e }
/-- A leaf whose frame the host has translated: H stays, and TIER and ADDR name the host address (R159, R160). -/
def hostLeaf (pte : DWord) (pa : Nat) : DWord :=
  BitVec.ofNat 64 (2 ^ 63 + 3 * 2 ^ 61 + boolBit (bit pte.toNat 60) * 2 ^ 60 + pa / 2 ^ 12 % 2 ^ 38 * 2 ^ 12 + pte.toNat % 2 ^ 7)
/-- A request to the host for a translation, or for a page (R160, R370). -/
def askHost (s : State) (id : Nat) (part ctx va host : Nat) (write pri : Bool) (who : Party) (tag : Tag) : State :=
  { s with
    hostReqs := mput s.hostReqs id { part := part, ctx := ctx, pasid := ctxPasid s part ctx, va := va, host := host, write := write, who := who, pri := pri, tag := tag }
    hostOut := s.hostOut ++ [id] }
/-- A group's walk finds an entry with V = 0: a monitor is armed, and the issue group will park on it (R169, R170, R211). -/
def walkAbsent (s : State) (id gid : Nat) (g : Group) (w : Walk) (entry : Nat) : State :=
  holdWalk (waitEntry s w.part w.ctx (some g) w.who w.die w.va entry (partySource w.who) w.write false) id gid
    ⟨w.tag, w.va / 4096 * 4096, w.write, .absent entry⟩
/-- A walk of a group reads its entries (R160, R210, R347). -/
def groupWalk (s : State) (id gid : Nat) (g : Group) (w : Walk) : State :=
  let keep (s : State) (r : Xlate) : State := holdWalk s id gid ⟨w.tag, w.va / 4096 * 4096, w.write, r⟩
  match walkVa s w.part w.ctx w.va with
  | .leaf base bits pte a =>
    match useLeaf s w.part w.write pte bits (w.va / 4096 * 4096) false with
    | .ok _ _ =>
      let s := setAD s a w.write
      keep (loadTlbs s g.core ⟨w.ctx, base, bits, pte, a, w.write || bit pte.toNat 6, 0⟩) (.leaf base bits pte a)
    | .ats host => askHost s id w.part w.ctx (w.va / 4096 * 4096) host w.write false w.who w.tag
    | _ => keep s (.leaf base bits pte a)
  | .absent a => walkAbsent s id gid g w a
  | .poison a => killGang s gid 0x42 a true
  | r => keep s r
/-- WALK_COMPLETE: a walk finishes, unless an invalidation holds it (R160, R210, R337). -/
def execWalkComplete (w : Nat) (s : State) : Out :=
  .next (match mget s.walks w with
    | none => s
    | some k =>
      if k.retry || walkHeld s k.part k.ctx k.va then s
      else
        let s := { s with walks := mdel s.walks w }
        match awaited s w k.who with
        | some (gid, g) => groupWalk s w gid g k
        | none => s)
/-- A WAITA that waits without an address, as after a restore, translates it again and reads; where that fails it tries again in
2 µs, the host being asked first where it has the page, and a poisoned entry kills the gang (R160, R198, R347). -/
def waitaAfresh (s : State) (gid : Nat) (g : Group) (n : Nat) (e : DWord) : State :=
  let (xw, off, _) := g.waita.getD (0, 0, 0)
  let va := (xwget g xw).base + off
  let (s, r) := xlateDie s (dieOf g.core) (partOf s g) (ctxOf s g) va false
  match r with
  | .poison a => killGang s gid 0x42 a true
  | .ok pa _ =>
    let s := modGrp s gid fun g => { g with status := .waiting (.mem pa n e (pa / 128)) }
    send s g.core (some gid) (homeOf pa) (.read (pa / 128) ((wordsOf pa n).map (· % 32)) (.waita gid))
  | .ats host =>
    let (s, id) := freshId s
    askHost s id (partOf s g) (ctxOf s g) (va / 4096 * 4096) host false false (.waita gid) {}
  | _ => (addWalk s { part := partOf s g, ctx := ctxOf s g, va := va, write := false, who := .waita gid, die := dieOf g.core,
                      retry := true, notBefore := s.time + Config.rereadNs }).1
/-- WAITA_REREAD: without a monitor the value is read again at its home (R198, R199). -/
def execWaitaReread (gid : Nat) (s : State) : Out :=
  .next (match s.walks.find? fun w => w.2.who = .waita gid && decide (w.2.notBefore ≤ s.time) with
    | none => s
    | some w =>
      let s := { s with walks := mdel s.walks w.1 }
      match mget s.groups gid with
      | none => s
      | some g => match g.status with
        | .waiting (.mem pa n e line) =>
          if pa = noPa then waitaAfresh s gid g n e
          else send s g.core (some gid) (homeOf pa) (.read line ((wordsOf pa n).map (· % 32)) (.waita gid))
        | _ => s)
/-- A walk of the group has found an entry on the line not present, and the group has not parked on it yet (R211); line 0 is the
host's answer. -/
def aboutToPark (g : Group) (line : Nat) : Bool := g.heldWalks.any fun h => match h.res with
  | .absent a => a / 128 = line
  | _ => false
/-- A wake for a group: a parked group is ready, one that has not parked yet parks and is ready at once, and its tour lanes
are resent. It ends no other wait (R170, R211, R315, R319). -/
def wakeGroup (s : State) (gid line : Nat) : State :=
  let s := modGrp s gid fun g => match g.status with
    | .parked => makeReady s g
    | _ => if aboutToPark g line then { g with woken := true } else g
  wakeLanes s gid
/-- A group's wait is looked at again: its condition may hold already (R185, R186, R250, R251). -/
def lookAgain (s : State) (gid : Nat) : State :=
  let g := grp s gid
  match g.status with
  | .waiting (.batch c _) | .waiting (.count c _) => checkWait s gid c
  | .waiting (.phase h _) => wakePhase s (hget g h).obj g.core
  | .waiting (.bar q) => if phaseDone (nodeC (team s g.team).bar) q then setGrp s gid (makeReady s g) else s
  | _ => s
/-- A WAITA's wake: its group is ready, or goes on with the second wait of its issue group (R198, assumption 97). -/
def wakeWaita (s : State) (gid : Nat) : State :=
  let g := grp s gid
  match g.status, g.also with
  | .waiting (.mem _ _ _ _), none => setGrp s gid { makeReady s g with waita := none }
  | .waiting (.mem _ _ _ _), some w => lookAgain (setGrp s gid { g with status := .waiting w, waita := none, also := none }) gid
  | _, _ => s
/-- A copy goes on after a wait (R206). -/
def wakeCopy (s : State) (id : Nat) : State := pump (modCopy s id fun c => { c with waiting := false }) id
/-- A group's retry without a monitor: the group is woken when its translation no longer meets V = 0, and waits again
otherwise (R170). -/
def retryGroup (s : State) (gid : Nat) (w : Walk) : State :=
  match mget s.groups gid with
  | none => s
  | some g =>
    match walkVa s w.part w.ctx w.va with
    | .absent a => waitEntry s w.part w.ctx (some g) w.who w.die w.va a (partySource w.who) w.write w.noted
    | _ => wakeGroup s gid ((g.heldWalks.findSome? fun h => match h.res with
        | .absent a => if h.va = w.va / 4096 * 4096 then some (a / 128) else none
        | _ => none).getD 0)

end Sys2Proof.Machine
end

