-- ==== Sys2Proof/Machine/Coll.lean ====
section
/-! DEFINITION. The collective engines: COLL, COMMQ, their steps and their completions (R371 to R379, R386). -/

namespace Sys2Proof.Machine

/-! ## Communicators (R371) -/

/-- The member dies, ascending. -/
def commDies (c : Comm) : List Nat := (List.range 24).filter fun d => c.dies.getLsbD d
/-- M (R371). -/
def commM (c : Comm) : Nat := (commDies c).length * c.npkg
/-- The member index of a die (R371). -/
def memberIndex (c : Comm) (d : Nat) : Nat := c.rank * (commDies c).length + ((commDies c).takeWhile (· != d)).length
def isColl : Instr → Bool
  | .coll _ _ _ _ _ _ _ _ _ => true
  | _ => false
def isDestroy : Instr → Bool
  | .commqDestroy _ _ _ => true
  | _ => false
/-- A COLL that has no status yet. -/
def openColl (c : Coll) : Bool := isColl c.ins && c.status.isNone
/-- The outstanding COLLs of a communicator. -/
def outstandingColls (s : State) (key : Nat) : List (Nat × Coll) := s.colls.filter fun c => openColl c.2 && c.2.key = key
/-- The COLLs of a step, member dies ascending. -/
def stepMembers (s : State) (key k : Nat) : List (Nat × Coll) :=
  match mget s.comms key with
  | none => []
  | some c => (commDies c).filterMap fun d => (outstandingColls s key).find? fun x => x.2.die = d && x.2.step = k

/-! ## The command's fields (R372) -/

def elemSize : CollTy → Nat
  | .f32 | .i32 | .n32 => 4
  | .bf16 | .f16 => 2
  | .b8 => 1
/-- Elements of the source and of the destination (R373). -/
def srcCount (k : CollKind) (m n : Nat) : Nat := match k with
  | .allReduce | .allGather => n
  | .reduceScatter | .allToAll => m * n
def dstCount (k : CollKind) (m n : Nat) : Nat := match k with
  | .allReduce | .reduceScatter => n
  | .allGather | .allToAll => m * n
/-- What the members must agree in: KIND, OP, TYPE and MODE. -/
def collForm : Instr → CollKind × CollOp × CollTy × Bool
  | .coll _ _ _ _ _ op ty arr kind => (kind, op, ty, arr)
  | _ => (.allReduce, .add, .b8, false)
/-- The status word (R377). -/
def statusWord (kind cause member attempts : Nat) : Word :=
  BitVec.ofNat 32 (kind + cause * 2 ^ 8 + member % 256 * 2 ^ 16 + attempts % 256 * 2 ^ 24)
/-- MEMBER of a status for which R377 names none: a free value (assumption 50). -/
def freeMember (s : State) : State × Nat := ({ s with fresh := s.fresh + 1 }, (Config.freeByte s.fresh).toNat)
/-- A COLL has its status; COLL_COMPLETION_DELIVERY delivers it. -/
def endColl (s : State) (id : Nat) (w : Word) : State := modColl s id fun c => { c with status := some w, since := none, waiting := false }
/-- A COLL ends with a status whose MEMBER the rules do not name. -/
def endCollFree (s : State) (id kind cause attempts : Nat) : State :=
  let (s, m) := freeMember s
  endColl s id (statusWord kind cause m attempts)
/-- The step of a message of the pool; none for an abort. -/
def PoolMsg.step? : PoolMsg → Option Nat
  | .issued _ k _ _ _ | .source _ k _ _ | .formed k _ _ | .failed k => some k
  | .abort _ => none
/-- A step is over: what its engines were told of it is dropped. -/
def forgetStep (s : State) (key k : Nat) : State :=
  match mget s.comms key with
  | some c => { s with comms := mput s.comms key { c with
      told := c.told.filter fun t => t.2.2 != k
      poolIn := c.poolIn.filter fun m => m.step? != some k } }
  | none => s

/-! ## Combining (R375, R386) -/

/-- One operation on two elements (R375). -/
def collRed (ty : CollTy) (op : CollOp) (x y : Nat) : Nat :=
  let fl (t : FTy) : Nat := match op with
    | .add => (fpAdd t x y).1
    | .min => (fpMinMax t false x y).1
    | .max => (fpMinMax t true x y).1
  let lo (signed : Bool) : Nat := if wlt signed (BitVec.ofNat 32 y) (BitVec.ofNat 32 x) then y else x
  let hi (signed : Bool) : Nat := if wlt signed (BitVec.ofNat 32 x) (BitVec.ofNat 32 y) then y else x
  let int (signed : Bool) : Nat := match op with
    | .add => (x + y) % 2 ^ 32
    | .min => lo signed
    | .max => hi signed
  match ty with
  | .f32 => fl .f32
  | .bf16 => fl .bf16
  | .f16 => fl .f16
  | .i32 => int true
  | .n32 => int false
  | .b8 => x
/-- One level of the tree: a missing right operand passes the left one through. -/
def pairUp (f : Nat → Nat → Nat) : List Nat → List Nat
  | a :: b :: t => f a b :: pairUp f t
  | l => l
/-- TREE (R375); a list of n values needs at most n levels. -/
def treeRed (f : Nat → Nat → Nat) : Nat → List Nat → Nat
  | 0, l => l.headD 0
  | n + 1, l => treeRed f n (pairUp f l)
/-- Values in an order that is free (R375 ARRIVAL, assumption 5). -/
def freeOrder : Nat → Nat → List Nat → List Nat
  | 0, _, l => l
  | n + 1, fresh, l =>
    let i := Config.freeIndex fresh % l.length
    l.getD i 0 :: freeOrder n (fresh + 1) (l.eraseIdx i)
/-- ARRIVAL: a left fold. -/
def arrivalRed (f : Nat → Nat → Nat) (fresh : Nat) (l : List Nat) : Nat :=
  match freeOrder (l.length - 1) fresh l with
  | [] => 0
  | x :: t => t.foldl f x
/-- The element that a member's destination holds at e: the source elements (member, element) it comes from (R375). -/
def elemFrom (kind : CollKind) (ms n m e : Nat) : List (Nat × Nat) :=
  match kind with
  | .allReduce => (List.range ms).map fun k => (k, e)
  | .reduceScatter => (List.range ms).map fun k => (k, m * n + e)
  | .allGather => [(e / n, e % n)]
  | .allToAll => [(e / n, m * n + e % n)]

/-! ## Translating a member's buffers (R375) -/

/-- Ranges of a range: physical address, offset in the range, bytes. -/
abbrev Ranges := List (Nat × Nat × Nat)
/-- The pieces of a range, cut at 4 KiB, or what stops them with its VA. -/
def mapRange (d p ctx : Nat) (write : Bool) : Nat → Nat → Nat → Nat → State → State × Except (Xr × Nat) Ranges
  | 0, _, _, _, s => (s, .ok [])
  | fuel + 1, va, off, len, s =>
    if len = 0 then (s, .ok [])
    else
      let n := min len (4096 - va % 4096)
      let (s, r) := xlateDie s d p ctx va write
      match r with
      | .ok pa _ =>
        let (s, rest) := mapRange d p ctx write fuel (va + n) (off + n) (len - n) s
        (s, rest.map fun ps => (pa, off, n) :: ps)
      | r => (s, .error (r, va))
/-- The physical address of byte i of a range. -/
def pieceAt (ps : Ranges) (i : Nat) : Nat :=
  match ps.find? fun p => decide (p.2.1 ≤ i) && decide (i < p.2.1 + p.2.2) with
  | some p => p.1 + (i - p.2.1)
  | none => 0
/-- A member's buffers: its COLL, source pieces, destination pieces. -/
abbrev Mapped := (Nat × Coll) × Ranges × Ranges
/-- What translating a step's buffers gives. -/
inductive StepMap where
  /-- every piece has an address -/
  | ok (ms : List Mapped)
  /-- a member waits -/
  | wait
  /-- memory faults: member's COLL and cause -/
  | errors (es : List (Nat × Byte))
/-- A member waits for a piece (R170, R375). -/
def waitColl (s : State) (id : Nat) (c : Coll) (r : Xr) (va : Nat) (write : Bool) : State :=
  match r with
  | .absent a =>
    let noted := hasNoted s (.coll id) va
    let s := dropWalks s (.coll id)
    waitEntry (modColl s id fun c => { c with waiting := true }) c.part c.ctx (mget s.groups c.gid) (.coll id) c.die va a 6 write noted
  | .ats host =>
    let (s, k) := freshId s
    askHost (modColl s id fun c => { c with waiting := true }) k c.part c.ctx va host write false (.coll id) {}
  | _ => s
/-- The cause of a piece that cannot be used (R160, R347). -/
def pieceCause : Xr → Option Byte
  | .fault c => some c
  | .poison _ => some 0x42
  | _ => none
/-- Translate the buffers of the members of a step; a walk that reads a poisoned entry consumes it for the command's gang (R347, R375,
R377). -/
def mapMembers (m : Nat) : List (Nat × Coll) → State → State × StepMap
  | [], s => (s, .ok [])
  | (id, c) :: t, s =>
    let (kind, _, ty, _) := collForm c.ins
    let sl := srcCount kind m c.n * elemSize ty
    let dl := dstCount kind m c.n * elemSize ty
    let (s, a) := mapRange c.die c.part c.ctx false (sl / 4096 + 2) c.src 0 sl s
    let (s, b) := mapRange c.die c.part c.ctx true (dl / 4096 + 2) c.dst 0 dl s
    let stop (s : State) (x : Xr × Nat) (write : Bool) : State × StepMap :=
      let s := match x.1 with
        | .poison a => killGang s c.gid 0x42 a true
        | _ => s
      match pieceCause x.1 with
      | some cause => match mapMembers m t s with
        | (s, .errors es) => (s, .errors ((id, cause) :: es))
        | (s, .ok _) => (s, .errors [(id, cause)])
        | (s, .wait) => (s, .wait)
      | none => (waitColl s id c x.1 x.2 write, .wait)
    match a, b with
    | .error x, _ => stop s x false
    | _, .error x => stop s x true
    | .ok ps, .ok qs => match mapMembers m t s with
      | (s, .ok ms) => (s, .ok (((id, c), ps, qs) :: ms))
      | r => r

/-! ## A step (R374, R375, R377) -/

/-- The members of a communicator that are not of this package. -/
def otherMembers (c : Comm) : List Nat := (List.range (commM c)).filter fun m => m / (commDies c).length != c.rank
/-- Byte i of a member's source: what this attempt has read, else what memory holds; and whether its word is poisoned. -/
def sourceByte (s : State) (x : Mapped) (i : Nat) : Byte × Bool :=
  match mget x.1.2.got i with
  | some b => (b, x.1.2.gotBad.contains i)
  | none => let a := pieceAt x.2.1 i; (readByte s.mem a, s.memBad.contains (a / 4))
/-- Bytes of a member's source, and of its destination. -/
def sourceBytes (m : Nat) (c : Coll) : Nat := let f := collForm c.ins; srcCount f.1 m c.n * elemSize f.2.2.1
/-- An address lies beyond a port: its bytes cross as messages (R367). -/
def beyond (pa : Nat) : Bool := !cacheable pa
/-- Source bytes whose word sel names, by address / 4, are read for this attempt (R377). -/
def readSources (s : State) (m : Nat) (ms : List Mapped) (sel : Nat → Bool) : State :=
  ms.foldl (fun s x => modColl s x.1.1 fun c =>
    (List.range (sourceBytes m c)).foldl (fun c i =>
      if (mget c.got i).isSome || beyond (pieceAt x.2.1 i) || !sel (pieceAt x.2.1 i / 4) then c
      else
        let (b, bad) := sourceByte s x i
        { c with got := mput c.got i b, gotBad := if bad then insertNat c.gotBad i else c.gotBad }) c) s
/-- What the package of rank 0 has formed a step's results of, as it keeps it and as the others have heard (R386). -/
def formedOf (c : Comm) (k : Nat) : Option (Nat × List (List Byte × List Nat)) := c.poolIn.reverse.findSome? fun p => match p with
  | .formed k' n srcs => if k' = k then some (n, srcs) else none
  | _ => none
/-- The sources of a step by member: bytes, and offsets in poisoned words; of a member elsewhere what it has told last. -/
def sourcesOf (s : State) (key k : Nat) (ms : List Mapped) : List (List Byte × List Nat) :=
  let c := (mget s.comms key).getD {}
  let m := commM c
  (List.range m).map fun i =>
    match ms.find? fun x => memberIndex c x.1.2.die = i with
    | some x =>
      let bs := (List.range (sourceBytes m x.1.2)).map (sourceByte s x)
      (bs.map (·.1), (List.range bs.length).filter fun j => ((bs[j]?).map (·.2)).getD false)
    | none => (c.poolIn.reverse.findSome? fun p => match p with
      | .source j k' bytes bad => if j = i && k' = k then some (bytes, bad) else none
      | _ => none).getD ([], [])
/-- The bytes that a member's destination receives, by offset, and the offsets of the poisoned ones; fresh numbers the free orders. -/
def resultOf (fresh : Nat) (srcs : List (List Byte × List Nat)) (m : Nat) (x : Mapped) : Map Byte × List Nat :=
  let (kind, op, ty, arr) := collForm x.1.2.ins
  let es := elemSize ty
  let n := x.1.2.n
  let ms := srcs.length
  let value (k e : Nat) : Nat := ofBytes ((List.range es).map fun i => ((srcs[k]?).getD ([], [])).1.getD (e * es + i) 0)
  let bad (k e : Nat) : Bool := (List.range es).any fun i => ((srcs[k]?).getD ([], [])).2.contains (e * es + i)
  let one (e : Nat) : Nat :=
    let vs := (elemFrom kind ms n m e).map fun f => value f.1 f.2
    let g := match kind with
      | .reduceScatter => m * n + e
      | _ => e
    if arr then arrivalRed (collRed ty op) (fresh + g * ms) vs else treeRed (collRed ty op) vs.length vs
  (List.range (dstCount kind ms n)).foldl (fun (r : Map Byte × List Nat) e =>
    let bs := (bytesOf es (one e)).mapIdx fun i b => (e * es + i, b)
    let gone := (elemFrom kind ms n m e).any fun f => bad f.1 f.2
    (bs.foldl (fun c y => mput c y.1 y.2) r.1, if gone then bs.foldl (fun l y => insertNat l y.1) r.2 else r.2)) ([], [])
/-- Every source is read: the results are staged at the engines, where they are not yet. They are formed once for all packages: by
that of rank 0, of what it has and in orders that it takes; by the others of what it tells (R375, R386, assumption 92). -/
def stageResults (s : State) (key k : Nat) (ms : List Mapped) : State :=
  if ms.all fun x => x.1.2.stage.isSome then s
  else
    let c := (mget s.comms key).getD {}
    let (fresh, srcs) := (formedOf c k).getD (s.fresh, sourcesOf s key k ms)
    let s := { s with fresh := s.fresh + (match ms with
      | [] => 0
      | x :: _ => srcs.length * srcCount (collForm x.1.2.ins).1 srcs.length x.1.2.n) }
    ms.foldl (fun s x => modColl s x.1.1 fun y =>
      { y with stage := some (resultOf fresh srcs (memberIndex c x.1.2.die) x) }) s
/-- A member's destination is written at the homes, and the issuing core's L1 words of it are invalidated; a dirty word
among them is written back first, with its mark (R347, R375). -/
def writeMember (s : State) (x : Mapped) (bytes : Map Byte) (bad : List Nat) : State :=
  let ps := x.2.2.map fun p => (p.1, p.2.2)
  let c := x.1.2.core
  let dirty := (core s c).l1.flatMap fun l => (l.2.words.filter fun w => w.2.dirty && inPieces ps l.1 w.1).map fun w => (32 * l.1 + w.1, w.2)
  let s := homeWrite s (dirty.flatMap fun w => cellsOf (4 * w.1) 4 w.2.val.toNat) ((dirty.filter (·.2.bad)).map (·.1))
  let s := stopOld (invalidate s c fun l _ w _ => inPieces ps l w) c fun _ w => inPieces ps (w / 32) (w % 32)
  homeWrite s bytes bad
/-- The staged bytes whose word sel names, by address / 4, are written, those words with their marks alone (R375, R347). -/
def writeStaged (s : State) (ms : List Mapped) (sel : Nat → Bool) : State :=
  ms.foldl (fun s x => match (mget s.colls x.1.1).bind (·.stage) with
    | none => s
    | some (bytes, bad) =>
      let at_ := pieceAt x.2.2
      let now := bytes.filter fun b => sel (at_ b.1 / 4)
      if now.isEmpty then s
      else modColl (writeMember s x (now.foldl (fun m b => mput m (at_ b.1) b.2) [])
          ((bad.filter fun o => sel (at_ o / 4)).foldl (fun l o => insertNat l (at_ o / 4)) [])) x.1.1 fun y =>
        { y with stage := some (bytes.filter fun b => !sel (at_ b.1 / 4), bad) }) s
/-- A free choice of words, each for itself (assumption 5): by address / 4. -/
def someWords (s : State) : State × (Nat → Bool) := ({ s with fresh := s.fresh + 1 }, fun w => Config.freeBit (2 ^ 64 * (s.fresh + 1) + w))
/-- A step has been told of by a member of another package. -/
def toldOutside (c : Comm) (k m : Nat) : Bool := c.poolIn.any fun p => match p with
  | .issued j k' _ _ _ => j = m && k' = k
  | _ => false
/-- Every member of a step has issued its COLL, and every engine has been told (R374). -/
def stepReady (s : State) (key k : Nat) : Bool :=
  match mget s.comms key with
  | none => false
  | some c =>
    let ds := commDies c
    (stepMembers s key k).length = ds.length
      && (ds.all fun e => ds.all fun d => e = d || c.told.contains (e, d, k))
      && (otherMembers c).all (toldOutside c k)
/-- What the results are formed of has come: to rank 0 the sources of the other packages' members, to the others what rank 0 has
formed them of (R375, R386, assumption 92). -/
def sourcesCome (s : State) (key k : Nat) : Bool :=
  let c := (mget s.comms key).getD {}
  if c.rank = 0 then (otherMembers c).all fun m => c.poolIn.any fun p => match p with
    | .source j k' _ _ => j = m && k' = k
    | _ => false
  else c.npkg ≤ 1 || (formedOf c k).isSome
/-- The words that a step which ends early leaves old or final; where the results cannot have been formed, all are old (R377, R378). -/
def scatterStep (s : State) (key k : Nat) : State :=
  let cs := stepMembers s key k
  match mapMembers (commM ((mget s.comms key).getD {})) cs s with
  | (s, .ok ms) =>
    if !sourcesCome s key k && ms.any (·.1.2.stage.isNone) then s
    else
      let (s, sel) := someWords s
      writeStaged (stageResults s key k ms) ms sel
  | (s, _) => s
/-- The pool address of a package of a communicator, four bytes of its list, where the page is present (R371). -/
def poolAddr (s : State) (x : Coll) (rank : Nat) : Option Nat :=
  let va := ((mget s.comms x.key).getD {}).pool + 4 * rank
  match walkVa s x.part x.ctx va with
  | .leaf _ bits pte _ => match useLeaf s x.part false pte bits va false with
    | .ok pa _ => some (readNum s.mem pa 4)
    | _ => none
  | _ => none
/-- The port through which a pool address is reached: R371 gives its four bytes no layout; the model takes the port from the top
five bits, as R367 does of a fabric address (assumption 92). -/
def poolPort (a : Nat) : Nat := a / 2 ^ 27 % 32
/-- The other packages of a communicator are told something: a message of collective data for the pool address of each crosses a
fabric port (R367, R371). -/
def tellOutside (s : State) (x : Coll) (m : PoolMsg) : State :=
  match mget s.comms x.key with
  | some c => ((List.range c.npkg).filter (· != c.rank)).foldl (fun s i => match poolAddr s x i with
      | some a => sendFrom s x.die 31 none (.port (poolPort a)) (.pool x.key m a)
      | none => s) s
  | none => s
/-- A transfer of the step has a disabled path: from an engine to a home or to another engine, or through a port that is down
(R366, R367, R377). -/
def pathBroken (s : State) (ms : List Mapped) : Bool :=
  let cut (a b : Nat) : Bool := (route s.deadBoundaries a b).isNone
  ms.any fun x =>
    ((x.2.1 ++ x.2.2).any fun p => match homeOf p.1 with
      | .port q => (link s (portKey q 0)).st = .disabled
      | h => ((homeDie h).map (cut x.1.2.die)).getD false)
    || ms.any fun y => cut x.1.2.die y.1.2.die
/-- The writes under way that carry stores of a group, and the write-backs of its core that are of no group (R172, R214, R226). -/
def backsOf (s : State) (gid c : Nat) : List Nat :=
  let ofNone (m : Msg) : Bool := m.gid.isNone && m.also.isEmpty && m.srcDie = dieOf c && m.srcCore = c % 24
  (s.net.filter fun m => (m.isOf gid || ofNone m) && (match m.body with | .write _ _ _ => true | _ => false)).map (·.id)
/-- An attempt begins: the members' dirty source words are written back, and it follows the writes of its groups' stores that are under
way, whoever wrote them back (R220, R375, R377). -/
def beginAttempt (s : State) (ms : List Mapped) : State :=
  ms.foldl (fun s x =>
    let c := x.1.2
    let ps := x.2.1.map fun p => (p.1, p.2.2)
    let (s, ns) := writeBack s c.core (some c.gid) none (inPieces ps)
    modColl s x.1.1 fun c => { c with tries := c.tries + 1, since := some s.time, after := c.after ++ ns ++ backsOf s c.gid c.core }) s
/-- A memory fault: its members complete ERROR with the cause, the others RETRY (R377). -/
def errorStep (s : State) (cs : List (Nat × Coll)) (es : List (Nat × Byte)) : State :=
  cs.foldl (fun s x =>
    let n := max 1 x.2.tries
    match es.find? fun e => e.1 = x.1 with
    | some e => endCollFree s x.1 5 e.2.toNat n
    | none => endCollFree s x.1 2 0 n) s
/-- The members of a step, ascending: index, form, count and generation. -/
def stepForms (c : Comm) (k : Nat) (cs : List (Nat × Coll)) : List (Nat × (CollKind × CollOp × CollTy × Bool) × Nat × Word) :=
  (List.range (commM c)).filterMap fun m => match cs.find? fun x => memberIndex c x.2.die = m with
    | some x => some (m, collForm x.2.ins, x.2.n, x.2.gen)
    | none => c.poolIn.findSome? fun p => match p with
      | .issued j k' ins n gen => if j = m && k' = k then some (m, collForm ins, n, gen) else none
      | _ => none
/-- What the members disagree in: the status of every member (R375). -/
def disagreement (c : Comm) (k : Nat) (cs : List (Nat × Coll)) : Option (Nat × Nat) :=
  match stepForms c k cs with
  | [] => none
  | x :: t =>
    if t.any fun y => y.2.1 != x.2.1 || y.2.2.1 != x.2.2.1 then some (4, 0)
    else (t.find? fun y => y.2.2.2 != x.2.2.2).map fun y => (1, y.1)
/-- The members of a step end alike. -/
def endAll (s : State) (key k : Nat) (cs : List (Nat × Coll)) (f : State → Nat × Coll → State) : State :=
  forgetStep (cs.foldl f s) key k
/-- Pieces cut at 128-byte lines: physical address, offset, bytes. -/
def lineUnits (ps : Ranges) : Ranges := ps.flatMap fun p => unitsOf p.1 p.2.1 p.2.2
/-- The parts of the sources that lie beyond a port are asked for, once in an attempt (R367, R375). -/
def askSources (s : State) (ms : List Mapped) : State :=
  ms.foldl (fun s x =>
    let c := x.1.2
    if c.asked then s
    else ((lineUnits x.2.1).filter fun u => beyond u.1).foldl (fun s u =>
      sendFrom s c.die 31 none (homeOf u.1) (.read (u.1 / 128) ((wordsOf u.1 u.2.2).map (· % 32)) (.coll x.1.1 c.tries u.1 u.2.1 u.2.2)))
      (modColl s x.1.1 fun c => { c with asked := true })) s
/-- Every source byte of this package's members has been read in this attempt. -/
def allRead (s : State) (m : Nat) (ms : List Mapped) : Bool :=
  ms.all fun x => ((mget s.colls x.1.1).map fun c => (List.range (sourceBytes m c)).all fun i => (mget c.got i).isSome).getD false
/-- A package other than that of rank 0 tells it its members' sources, once in an attempt (R375, R386, assumption 92). -/
def tellSources (s : State) (key k : Nat) (ms : List Mapped) : State :=
  let c := (mget s.comms key).getD {}
  let m := commM c
  if c.rank = 0 then s
  else ms.foldl (fun s x => match mget s.colls x.1.1 with
    | some y => if y.told then s
        else modColl (tellOutside s y (.source (memberIndex c y.die) k ((List.range (sourceBytes m y)).map fun o => (mget y.got o).getD 0) y.gotBad))
          x.1.1 fun y => { y with told := true }
    | none => s) s
/-- The package of rank 0 forms the results and tells the others of what; the others form them of that (R375, R386, assumption 92). -/
def formResults (s : State) (key k : Nat) (ms : List Mapped) : State :=
  let c := (mget s.comms key).getD {}
  let (n, srcs) := (formedOf c k).getD (s.fresh, sourcesOf s key k ms)
  if c.rank != 0 || c.npkg ≤ 1 then stageResults s key k ms
  else match ms with
    | [] => s
    | x :: _ =>
      let s := if (formedOf c k).isSome then s
        else { s with comms := mput s.comms key { c with poolIn := c.poolIn ++ [.formed k n srcs] } }
      let s := stageResults s key k ms
      if x.1.2.told then s
      else modColl (tellOutside s x.1.2 (.formed k n srcs)) x.1.1 fun y => { y with told := true }
/-- The parts of the results that lie beyond a port leave for their destinations, once in an attempt (R367, R375). -/
def sendResults (s : State) (ms : List Mapped) : State :=
  ms.foldl (fun s x => match mget s.colls x.1.1 with
    | some y =>
      let (bytes, bad) := y.stage.getD ([], [])
      if y.wrote then s
      else ((lineUnits x.2.2).filter fun u => beyond u.1).foldl (fun s u =>
        let part := (List.range u.2.2).filterMap fun i => (mget bytes (u.2.1 + i)).map fun b => (u.1 + i, b)
        let marks := (List.range u.2.2).foldl (fun l i => if bad.contains (u.2.1 + i) then insertNat l ((u.1 + i) / 4) else l) []
        if part.isEmpty then s else sendFrom s y.die 31 none (homeOf u.1) (.collData x.1.1 y.tries u.2.1 part marks))
        (modColl s x.1.1 fun y => { y with wrote := true })
    | none => s) s
/-- Every destination byte of a step is written. -/
def allWritten (s : State) (ms : List Mapped) : Bool :=
  ms.all fun x => ((mget s.colls x.1.1).map fun c => (c.stage.map (·.1.isEmpty)).getD false).getD true
/-- The members as they stand now. -/
def refresh (s : State) (ms : List Mapped) : List Mapped :=
  ms.map fun x => ((x.1.1, (mget s.colls x.1.1).getD x.1.2), x.2)
/-- A transfer that is under way and may go on: its members' commands, where nothing stops them (R375, R377). -/
def movingStep (s : State) (c0 : Coll) : State × Option (List Mapped) :=
  let key := c0.key
  let cs := stepMembers s key c0.step
  if !openColl c0 || !stepReady s key c0.step || cs.any (·.2.waiting) || c0.since.isNone then (s, none)
  else match mapMembers (commM ((mget s.comms key).getD {})) cs s with
    | (s, .ok ms) => (s, if pathBroken s ms || !(cs.all fun x => x.2.after.all (performed s)) then none else some ms)
    | (_, _) => (s, none)
/-- A part of a collective's transfers is made before the rest: some words of the sources are read, and once all are, and the
others' have come, some words of the destinations are written, each at its own moment (R375, R377; assumption 26). -/
def collPart (id : Nat) (s : State) : State :=
  match mget s.colls id with
  | none => s
  | some c0 => match movingStep s c0 with
    | (s, none) => s
    | (s, some ms) =>
      let m := commM ((mget s.comms c0.key).getD {})
      let (s, sel) := someWords s
      let s := readSources s m ms sel
      let ms := refresh s ms
      let (s, go) := freeBit s
      if (!allRead s m ms && ms.any fun x => x.1.2.stage.isNone) || !go || !sourcesCome s c0.key c0.step then s
      else writeStaged (formResults s c0.key c0.step ms) ms fun w => sel w && !beyond (4 * w)
/-- COLL_STEP: a step that every member has issued checks, begins an attempt, and completes once what it must follow has been
performed and every source is at hand (R374, R375, R377). -/
def execCollStep (id : Nat) (s : State) : Out :=
  .next (match mget s.colls id with
    | none => s
    | some c0 =>
      let key := c0.key
      let cs := stepMembers s key c0.step
      let comm := (mget s.comms key).getD {}
      if !openColl c0 || !stepReady s key c0.step || cs.any (·.2.waiting) then s
      else match disagreement comm c0.step cs with
        | some (4, _) => endAll s key c0.step cs fun s x => endCollFree s x.1 4 0 0
        | some (kind, m) => endAll s key c0.step cs fun s x => endColl s x.1 (statusWord kind 0 m 0)
        | none =>
          match mapMembers (commM comm) cs s with
          | (s, .wait) => cs.foldl (fun s x => modColl s x.1 fun c => { c with
              since := none, tries := if c.since.isSome then c.tries - 1 else c.tries, asked := false, wrote := false }) s
          | (s, .errors es) => forgetStep (errorStep (tellOutside s c0 (.failed c0.step)) cs es) key c0.step
          | (s, .ok ms) =>
            if c0.since.isNone then beginAttempt s ms
            else if pathBroken s ms || !(cs.all fun x => x.2.after.all (performed s)) then s
            else
              let staged := ms.all fun x => x.1.2.stage.isSome
              let s := if staged then s else readSources (askSources s ms) (commM comm) ms fun _ => true
              if !staged && !allRead s (commM comm) ms then s
              else
                let ms := refresh s ms
                let s := if staged then s else tellSources s key c0.step ms
                if !staged && !sourcesCome s key c0.step then s
                else
                  let s := formResults s key c0.step ms
                  let s := sendResults (writeStaged s ms fun w => !beyond (4 * w)) ms
                  if !allWritten s ms then s
                  else endAll s key c0.step cs fun s x => endColl s x.1 (statusWord 0 0 0 x.2.tries))
/-- A transfer has failed: the step is tried again from the retained source, read again unless results are staged, since a
destination takes the values of one attempt alone; or every member completes RETRY (R377, R379). -/
def failStep (s : State) (c0 : Coll) : State :=
  let key := c0.key
  let cs := stepMembers s key c0.step
  let retry := ((mget s.comms key).map (·.retry)).getD 0
  if c0.tries ≤ retry then
    cs.foldl (fun s x => modColl s x.1 fun c => { c with
      tries := c.tries + 1, since := some s.time, got := [], gotBad := [], asked := false, wrote := false, told := false, erred := false }) s
  else endAll (scatterStep (tellOutside s c0 (.failed c0.step)) key c0.step) key c0.step cs fun s x => endCollFree s x.1 2 0 x.2.tries
/-- A transfer of a collective completes in error at a pool node (R367, R377). -/
def transferError (s : State) (id : Nat) : State :=
  match mget s.colls id with
  | some c => if openColl c && c.since.isSome then failStep s c else s
  | none => s
/-- COLL_TRANSFER_RETRY: a transfer that completed in error, or whose path is disabled, has failed (R377). -/
def execCollTransferRetry (id : Nat) (s : State) : Out :=
  .next (match mget s.colls id with
    | none => s
    | some c0 =>
      if !openColl c0 || c0.since.isNone then s
      else if c0.erred then failStep s c0
      else
        let cs := stepMembers s c0.key c0.step
        match mapMembers (commM ((mget s.comms c0.key).getD {})) cs s with
        | (_, .ok ms) => if pathBroken s ms then failStep s c0 else s
        | _ => s)
/-- COLL_TRANSFER_TIMEOUT: no acknowledgement within 1 ms counts as a failure (R377). -/
def execCollTransferTimeout (id : Nat) (s : State) : Out :=
  .next (match mget s.colls id with
    | none => s
    | some c0 => match c0.since with
      | some t => if openColl c0 && decide (t + Config.timeoutNs ≤ s.time) then failStep s c0 else s
      | none => s)
/-- The steps of a communicator that are outstanding: issued by any member, here or in another package, and not complete (R378). -/
def openSteps (s : State) (key : Nat) : List Nat :=
  let here := (outstandingColls s key).foldl (fun l c => insertNat l c.2.step) []
  ((mget s.comms key).getD {}).poolIn.foldl (fun l p => match p with
    | .issued _ k _ _ _ => insertNat l k
    | _ => l) here
/-- DESTROY completes once no step is outstanding: CID is no longer live and what was on its way for it is dropped (R378). -/
def destroyNow (s : State) (id : Nat) (c : Coll) : State :=
  if c.status.isSome || !isDestroy c.ins then s
  else if (mget s.comms c.key).isNone then endColl s id 7
  else if !(openSteps s c.key).isEmpty then s
  else
    let keep (m : Msg) : Bool := match m.body with
      | .collCtl ctx cid _ _ => 256 * ctx + cid != c.key
      | .pool key _ _ => key != c.key
      | _ => true
    endColl { s with comms := mdel s.comms c.key, net := s.net.filter keep } id 0
/-- COLL_COMPLETION_DELIVERY: status or result reaches its register in the lanes that were active, and the operation
completes; held while the group is not resident (R373, R377 to R379). -/
def execCollCompletionDelivery (id : Nat) (s : State) : Out :=
  .next (match mget s.colls id with
    | none => s
    | some c =>
      let s := destroyNow s id c
      match ((mget s.colls id).bind (·.status)), mget s.groups c.gid with
      | some w, some _ =>
        let s := match c.reg with
          | some r => if opDiscard s c.op then s else modGrp s c.gid fun g => putRegs g ((lanesOf c.mask).map fun l => (l, r, w))
          | none => s
        let err : Option Byte := if isColl c.ins && w.toNat % 16 = 5 then some (BitVec.ofNat 8 (w.toNat / 256)) else none
        opDone { s with colls := mdel s.colls id } c.op err
      | _, _ => s)

/-! ## Issue (R373, R374, R378) -/

/-- A command takes its place in its die's engine; a full one holds it (R374). -/
def enterEngine (s : State) (c : Coll) (tag : Option (Fin 16)) (k : State → Nat → Coll → State) : State :=
  let g := s.issue.pre
  if Config.collQueue ≤ (s.colls.filter fun x => x.2.die = dieOf g.core).length then stall s
  else
    let (s, op) := newOp s { gid := s.issue.gid, cls := .cl, parts := 1, tag := tag.map (·.val) }
    let (s, id) := freshId s
    let c := { c with part := partOf s g, ctx := ctxOf s g, die := dieOf g.core, gid := s.issue.gid, core := g.core, mask := activeMask g, op := op }
    k { s with colls := mput s.colls id c } id c
/-- A COLL enters its engine: it is part of the die's next step, or completes at once (R374, R378). -/
def enterColl (s : State) (id : Nat) (c : Coll) : State :=
  match mget s.comms c.key with
  | none => endCollFree s id 7 0 0
  | some m =>
    if !(commDies m).contains c.die then endCollFree s id 7 0 0
    else
      let k := cget 0 m.issued c.die
      let s := { s with comms := mput s.comms c.key { m with issued := cput 0 m.issued c.die (k + 1) } }
      let s := modColl s id fun x => { x with step := k }
      if m.aborted.contains k then endCollFree s id 3 0 0
      else
        let s := tellOutside s c (.issued (memberIndex m c.die) k c.ins c.n c.gen)
        ((commDies m).filter (· != c.die)).foldl (fun s e =>
        sendFrom s c.die 31 none (.die e) (.collCtl (c.key / 256) c.cid c.die k)) s
/-- The registers of a destination field, after ixb. -/
def collReg (g : Group) (d : Dst) : Option Nat := (dstRegs g d).head?
/-- The checks of R373 on a COLL's offsets and ranges: source then destination within each check. -/
def checkColl (s : State) (w : Window) (src dst sl dl es : Nat) (k : State → State) : State :=
  if !w.isOpen then raiseA s 0x10 src false false 0
  else match [src, dst].find? fun o => o % es != 0 with
    | some o => raiseB s 6 0x13 o
    | none => match [(src, sl), (dst, dl)].find? fun r => decide (w.size < r.1 + r.2) with
      | some r => raiseA s 0x11 r.1 false false 0
      | none => k s
/-- COLL (R372 to R374). -/
def execColl (base : Fin 5) (d : Dst) (xw : Fin 8) (tag : Option (Fin 16)) (cid : BitVec 8) (op : CollOp) (ty : CollTy)
    (arrival : Bool) (kind : CollKind) (s : State) : Out :=
  let g := s.issue.pre
  let kv (i : Nat) : Nat := (kget g (base.val + i)).toNat
  .next (withRegs s (dstRegs g d) [] fun s =>
    let s := memClass s
    let w := xwget g xw.val
    let m := ((mget s.comms (commKey (partOf s g) (ctxOf s g) cid.toNat)).map commM).getD 1
    let es := elemSize ty
    checkColl s w (kv 0) (kv 1) (srcCount kind m (kv 2) * es) (dstCount kind m (kv 2) * es) es fun s =>
      checkTag s tag fun s =>
        enterEngine s { part := 0, ctx := 0, cid := cid.toNat, die := 0, step := 0, gid := 0, core := 0, mask := 0, ins := .coll base d xw tag cid op ty arrival kind, src := w.base + kv 0, dst := w.base + kv 1, n := kv 2, gen := BitVec.ofNat 32 (kv 3), reg := collReg g d, after := homeBound s s.issue.gid, op := 0 } tag enterColl)
/-- COMMQ's command without a descriptor. -/
def commq (s : State) (ins : Instr) (d : Dst) (cid : BitVec 8) (act : State → Nat → Coll → State) : State :=
  let g := s.issue.pre
  withRegs s (dstRegs g d) [] fun s =>
    enterEngine (memClass s) { part := 0, ctx := 0, cid := cid.toNat, die := 0, step := 0, gid := 0, core := 0, mask := 0, ins := ins, src := 0, dst := 0, n := 0, gen := 0, reg := collReg g d, op := 0 } none act
/-- The descriptor's communicator (R371). -/
def commOf (b : Nat → Nat → Nat) : Comm :=
  { dies := BitVec.ofNat 24 (b 0 4), retry := b 0 4 / 2 ^ 24 % 16, npkg := b 4 2, rank := b 6 2, pool := b 8 8 }
/-- COMMQ.create: the descriptor is read at issue, and the communicator is live on every die of its mask (R373, R378). -/
def execCommqCreate (xw : Fin 8) (a : Fin 8) (d : Dst) (cid : BitVec 8) (s : State) : Out :=
  let g := s.issue.pre
  let o := (kget g a.val).toNat
  .next (withRegs s (dstRegs g d) [] fun s =>
    let s := memClass s
    let w := xwget g xw.val
    if !w.isOpen then raiseA s 0x10 o false false 0
    else if o % 8 ≠ 0 then raiseB s 6 0x13 o
    else if w.size < o + 64 then raiseA s 0x11 o false false 0
    else match checkAccess s xw.val ((List.range 64).map fun i => { lane := 0, off := (o + i : Nat), size := 1 }) false anyTier with
      | .stop s => s
      | .ok s acc _ =>
        if acc.length ≠ 64 then parkWord s
        else if !(homeBound s s.issue.gid).isEmpty then stall s
        else
          let byte (i : Nat) : Byte :=
            let pa := ((acc[i]?).map (·.pa)).getD 0
            match (l1Word s g.core pa) with
            | some x => BitVec.ofNat 8 (x.val.toNat / 256 ^ (pa % 4))
            | none => readByte s.mem pa
          let c := commOf fun p n => ofBytes ((List.range n).map fun i => byte (p + i))
          commq s (.commqCreate xw a d cid) d cid fun s id x =>
            if (mget s.comms x.key).isSome then endColl s id 6
            else endColl { s with comms := mput s.comms x.key c } id 0)
/-- The communicator is live and the issuing die is one of its members (R378). -/
def liveHere (s : State) (x : Coll) : Bool := ((mget s.comms x.key).map fun c => (commDies c).contains x.die).getD false
/-- COMMQ.destroy; it completes when no step is outstanding (R378). -/
def execCommqDestroy (xw : Fin 8) (d : Dst) (cid : BitVec 8) (s : State) : Out :=
  .next (commq s (.commqDestroy xw d cid) d cid fun s id x => if liveHere s x then s else endColl s id 7)
/-- The members of a step that have issued it complete, with a status; where its transfers were under way each destination word is
old or final (R377, R378). -/
def breakOff (s : State) (key k kind : Nat) : State :=
  let cs := (outstandingColls s key).filter fun c => c.2.step = k
  let s := if cs.any (·.2.since.isSome) then scatterStep s key k else s
  endAll s key k cs fun s c => endCollFree s c.1 kind 0 c.2.tries
/-- Steps complete ABORTED at every member that issued a COLL, and the members that have not still owe them (R378). -/
def abortSteps (s : State) (key : Nat) (ks : List Nat) : State :=
  let s := ks.foldl (fun s k => breakOff s key k 3) s
  match mget s.comms key with
  | some c => { s with comms := mput s.comms key { c with aborted := ks.foldl insertNat c.aborted } }
  | none => s
/-- Another package tells a communicator something (R374, R378). -/
def poolArrives (s : State) (key : Nat) (m : PoolMsg) : State :=
  match mget s.comms key, m with
  | none, _ => s
  | some _, .abort ks => abortSteps s key ks
  | some _, .failed k => breakOff s key k 2
  | some c, m =>
    if (m.step?.map c.aborted.contains).getD false then s
    else { s with comms := mput s.comms key { c with poolIn := c.poolIn ++ [m] } }
/-- COLLECTIVE_CONTROL: an engine is told that a member has issued a step, or a message between packages reaches the pool node or the
die that it is for (R367, R374). -/
def execCollectiveControl (s : State) : Out :=
  .next (onMessage s (fun b => match b with | .collCtl _ _ _ _ | .pool _ _ _ => true | _ => false) fun s m =>
    match m.body, m.home with
    | .collCtl ctx cid d k, .die e =>
      let key := 256 * ctx + cid
      match mget s.comms key with
      | some c => { s with comms := mput s.comms key { c with told := addOnce c.told (e, d, k) } }
      | none => s
    | .pool key x _, .die _ => poolArrives s key x
    | .pool key x a, _ => match mget s.comms key with
      | some c => { s with comms := mput s.comms key { c with poolOut := c.poolOut ++ [(x, a)] } }
      | none => s
    | _, _ => s)
/-- COMMQ.abort: every outstanding step completes ABORTED (R378). -/
def execCommqAbort (xw : Fin 8) (d : Dst) (cid : BitVec 8) (s : State) : Out :=
  .next (commq s (.commqAbort xw d cid) d cid fun s id x =>
    if !liveHere s x then endColl s id 7
    else
      let ks := openSteps s x.key
      endColl (tellOutside (abortSteps s x.key ks) x (.abort ks)) id 0)
/-- COMMQ.query (R378). -/
def execCommqQuery (xw : Fin 8) (d : Dst) (cid : BitVec 8) (s : State) : Out :=
  .next (commq s (.commqQuery xw d cid) d cid fun s id x =>
    if (mget s.comms x.key).isNone then endColl s id 7
    else endColl s id (BitVec.ofNat 32 (((outstandingColls s x.key).filter fun c => c.2.die = x.die).length * 2 ^ 16)))
/-- A step goes on after a wait (R375). -/
def wakeColl (s : State) (id : Nat) : State := modColl s id fun c => { c with waiting := false }

end Sys2Proof.Machine
end

