-- ==== Sys2Proof/Machine/Grid.lean ====
section
/-! DEFINITION. Grids, teams and gather nodes: claiming, placing, starting and ending them, node groups, relaunch, and the end
of a grid (R20 to R44, R84, R96, R176 to R180, R234, R325, R329, R330, R351 to R356). -/

namespace Sys2Proof.Machine

/-! ## Class 0 (R329) -/

/-- n bytes at a VA, where its page is present, without effect on the page tables. -/
def peekVa (s : State) (p ctx va n : Nat) : Option Nat :=
  match walkVa s p ctx va with
  | .leaf _ bits pte _ => match useLeaf s p false pte bits va false with
    | .ok pa _ => some (readNum s.mem pa n)
    | _ => none
  | _ => none
/-- The mapped queues: front-end core, slot, queue. -/
def mappedQueues (s : State) : List (Nat × Nat × MQueue) :=
  (s.fes.map fun f => f.2.slots.map fun q => (f.1, q.1, q.2)).flatten
/-- A mapped class-0 queue has a LAUNCH at its head (R329). -/
def class0Waits (s : State) (p : Nat) : Bool :=
  (mappedQueues s).any fun q =>
    let m := q.2.2
    m.part = p && ctxClass s p (qCtx s p m.q) = 0 && qRead s p m.q != qWrite s p m.q
      && (peekVa s p (qCtx s p m.q) (qPacketVa s p m.q (qRead s p m.q)) 1).getD 0 = 1
/-- Class-0 work is at a queue head, or resident: a class-0 grid that has been accepted and has not ended (R329, R331). -/
def class0Work (s : State) (p : Nat) : Bool :=
  class0Waits s p || s.grids.any fun g => g.2.part = p && ctxClass s p g.2.ctx = 0 && !g.2.isOver

/-! ## Room on a core (R25, R26, R43, R178, R179) -/

/-- The largest allotments among the nodes of a grid: registers, tiles, ways (R43). -/
def reserveNeed (gr : Grid) : Nat × Nat × Nat :=
  gr.nodes.foldl (fun n d => (max n.1 d.2.regs, max n.2.1 d.2.tiles, max n.2.2 d.2.ways)) (0, 0, 0)
/-- The reservations placed on a core: slot and allotments. -/
def reservesOn (s : State) (c : Nat) : List (Nat × Nat × Nat × Nat) :=
  (s.grids.map fun g => (g.2.reserve.filter fun r => r.2.1 = c).map fun r => (r.2.2, reserveNeed g.2)).flatten
/-- The team of a group runs on a reservation. -/
def onReserve (s : State) (g : Group) : Bool := (team s g.team).onReserve
/-- The groups resident on a core. -/
def coreGroups (s : State) (c : Nat) : List (Nat × Group) := s.groups.filter fun g => g.2.core = c
/-- What a slot has taken: group positions, register units, tiles, a reservation counting in full; and the groups that are
resident, by which R26 ranks. -/
structure Load where
  groups : Nat := 0
  regs : Nat := 0
  tiles : Nat := 0
  resident : Nat := 0
/-- A slot has room for a group. -/
def Load.room (x : Load) (regs tiles : Nat) : Bool :=
  decide (x.groups < Config.groupsPerSlot) && decide (x.regs + regs ≤ Config.unitsPerSlot) && decide (x.tiles + tiles ≤ Config.unitsPerSlot)
/-- A slot with one more group, and with one more reservation. -/
def Load.add (x : Load) (regs tiles : Nat) : Load := ⟨x.groups + 1, x.regs + regs, x.tiles + tiles, x.resident + 1⟩
def Load.reserve (x : Load) (regs tiles : Nat) : Load := { x.add regs tiles with resident := x.resident }
/-- The load of slot i of a core. -/
def slotLoad (s : State) (c i : Nat) : Load :=
  let here := (coreGroups s c).filter fun g => g.2.slot = i
  let x := (here.filter fun g => !onReserve s g.2).foldl (fun (x : Load) g => x.add g.2.regs g.2.ntiles) {}
  let x := ((reservesOn s c).filter fun r => r.1 = i).foldl (fun x r => x.reserve r.2.1 r.2.2.1) x
  { x with resident := here.length }
/-- R26's slot for a group: the fewest resident groups among those with room, ties to the lowest. -/
def bestSlot (ls : List Load) (regs tiles : Nat) : Option Nat :=
  (ls.mapIdx fun i x => (i, x)).foldl (fun b x =>
    if !x.2.room regs tiles then b else match b with
      | some j => if x.2.resident < (ls.getD j {}).resident then some x.1 else some j
      | none => some x.1) none
/-- Slots for groups in order (R26). -/
def placeAll : List Load → List (Nat × Nat) → Option (List Nat)
  | _, [] => some []
  | ls, (r, t) :: rest => match bestSlot ls r t with
    | none => none
    | some i => (placeAll (ls.set i ((ls.getD i {}).add r t)) rest).map (i :: ·)
/-- Ways that are pinned or reserved on a core. -/
def waysTaken (s : State) (c : Nat) : Nat :=
  (s.teams.filter fun t => t.2.core = c && !t.2.onReserve).foldl (fun n t => n + t.2.ways.length) 0
    + (reservesOn s c).foldl (fun n r => n + r.2.2.2) 0
/-- The W lowest ways that no team of the core has pinned (R179). -/
def takeWays (s : State) (c w : Nat) : List Nat :=
  ((List.range Config.pinnableWays).filter fun k => s.teams.all fun t => t.2.core != c || !t.2.ways.contains k).take w
/-- The contexts whose teams a core holds. -/
def coreCtxs (s : State) (c : Nat) : List (Nat × Nat) :=
  (s.teams.filter fun t => t.2.core = c).map fun t => ((grid s t.2.grid).part, (grid s t.2.grid).ctx)
/-- A context is scheduled: class 0 always, another during its slice (R329, R330). -/
def scheduled (s : State) (p ctx : Nat) : Bool := ctxClass s p ctx = 0 || (part s p).slice = some ctx
/-- A core's capacity is there for a context (R30, R329, R330, R355). -/
def coreAvail (s : State) (p ctx c : Nat) : Bool :=
  let x := part s p
  let resv := x.resv.getLsbD (c % 24)
  !s.removed.contains c && x.dies.getLsbD (dieOf c) && (core s c).preempt.isNone && scheduled s p ctx
    && (coreCtxs s c).all (· = (p, ctx))
    && (if ctxClass s p ctx = 0 then resv else !resv || !class0Work s p)
/-- A core's capacity is free for a context's teams: what a pre-emption for class-0 work took from it is not, while that work goes on
(R37, R331, R388; assumption 106). -/
def coreOpen (s : State) (p ctx c : Nat) : Bool :=
  coreAvail s p ctx c && !((part s p).lost.contains (ctx, c) && class0Work s p)
/-- A context has a core again. -/
def regain (s : State) (p ctx c : Nat) : State :=
  if (part s p).lost.contains (ctx, c) then modPart s p fun x => { x with lost := x.lost.filter (· != (ctx, c)) } else s

/-! ## Creating teams (R24, R26, R84, R178, R179, R234) -/

/-- The groups of a team in order: role and its number within the roles list (R21). -/
def teamRoles (gr : Grid) : List (Nat × Role) :=
  (gr.roles.mapIdx fun i r => List.replicate r.groups (i, r)).flatten
/-- Ways of a carve-out (R178). -/
def waysOf (gr : Grid) : Nat := gr.scratch / 65536
/-- A node group of a grid runs on its reservation of a die. -/
def reserveBusy (s : State) (gid d : Nat) : Bool :=
  s.teams.any fun t => t.2.grid = gid && t.2.onReserve && dieOf t.2.core = d
/-- The reservation of a grid on a die stands: it is in use, or its core is there for the grid (R43, R329, R330, R355). R37 holds back
no node group on its reservation. -/
def reserveStands (s : State) (gid d : Nat) : Bool :=
  let gr := grid s gid
  match mget gr.reserve d with
  | some (c, _) => reserveBusy s gid d || coreAvail s gr.part gr.ctx c
  | none => false
/-- Every grid of a context that has started teams and declares nodes has its reservation on a die: no team takes room there before it
is placed, also when a slice hands the die over core by core (R43, R339, R388). -/
def reservesStand (s : State) (p ctx d : Nat) : Bool :=
  s.grids.all fun g => g.2.part != p || g.2.ctx != ctx || g.2.nodes.isEmpty || g.2.cores.isEmpty || g.2.ending != .running || g.2.isOver
    || reserveStands s g.1 d
/-- The slots for a team's groups on a core, where it can start there (R26). -/
def placeTeam (s : State) (gr : Grid) (c : Nat) : Option (List Nat) :=
  if !coreOpen s gr.part gr.ctx c || !reservesStand s gr.part gr.ctx (dieOf c) || Config.pinnableWays < waysTaken s c + waysOf gr
      || 64 ≤ (s.teams.filter fun t => t.2.core = c).length then none
  else placeAll ((List.range 4).map (slotLoad s c)) ((teamRoles gr).map fun r => (r.2.regs, r.2.tiles))
/-- The lowest free position of a slot (R236). -/
def freePosition (s : State) (c i : Nat) : Nat :=
  firstGap 0 (((coreGroups s c).filter fun g => g.2.slot = i).foldl (fun l g => insertNat l g.2.position) [])
/-- A new group as R84 starts it. -/
def freshGroup (t core slot pos num role regs tiles prio entry : Nat) (seed : DWord) : Group :=
  { team := t, num := num, role := role, core := core, slot := slot, position := pos, regs := regs, ntiles := tiles, prio := prio,
    status := .starting, pc := ⟨entry, 0⟩, seed := seed }
/-- The lines of a core's L1 in the ways that a team pins, in the sets it has not finished. -/
def chosenLines (s : State) (t : Team) : List Nat :=
  ((core s t.core).l1.filter fun l => (lineWays l.2).any t.ways.contains && decide (t.swept ≤ l.1 % 512)).map (·.1)
/-- The pinning of a team's ways goes on, set by set, up to a set: the dirty words of the chosen lines are written back and the lines
invalidated; it stops before a set with a chosen line that a fill is on its way to (R179). -/
def sweep (s : State) (t upTo : Nat) : State :=
  let x := team s t
  let lines := chosenLines s x
  let stop := (lines.filter (fillComing s x.core)).foldl (fun n l => min n (l % 512)) upTo
  let s := (lines.filter fun l => decide (l % 512 < stop)).foldl (fun s l => dropWays s x.core l x.ways) s
  modTeam s t fun y => { y with swept := max y.swept stop }
/-- A part of a team's pinning: its next set (R179). -/
def pinPart (s : State) (t : Nat) : State := sweep s t ((team s t).swept + 1)
/-- Every chosen line of a team has finished (R179). -/
def pinned (t : Team) : Bool := decide (512 ≤ t.swept)
/-- S = 1 words that are clean leave a core when a grid starts or ends there (R175). -/
def dropStable (s : State) (c : Nat) : State :=
  stopOld (invalidate s c fun _ l _ w => l.stable && !w.dirty) c fun st _ => st
/-- The tempo array takes its reset state when a team starts on a core that has none: whether the core has none is looked at when the team
is placed (R288, assumption 115). -/
def freshArray (s : State) (c : Nat) : State :=
  if s.teams.any fun t => t.2.core = c then s else modCore s c fun k => { k with tempo := {} }
/-- The sets whose chosen lines have finished when a team takes its ways: without ways there are none to do (R179). -/
def sweptAt (ways : List Nat) : Nat := if ways.isEmpty then 512 else 0
/-- A team takes a core: its ways are to be pinned and its groups are placed, not yet started (R26, R179, R234). -/
def putTeam (s : State) (gid c index : Nat) (slots : List Nat) : State :=
  let gr := grid s gid
  let (s, t) := freshId s
  let roles := teamRoles gr
  let n := roles.length
  let ways := takeWays s c (waysOf gr)
  let x : Team := { grid := gid, index := index, core := c, ways := ways, scratch := gr.scratch, started := false, swept := sweptAt ways,
                    bar := { rn := n, rx := n } }
  let s := freshArray (if gr.cores.contains c then s else dropStable s c) c
  let s := regain s gr.part gr.ctx c
  let s := modGrid { s with teams := mput s.teams t x } gid fun g => { g with cores := insertNat g.cores c }
  let one (s : State) (k : Nat × (Nat × Role) × Nat) : State :=
    let (s, id) := freshId s
    let r := k.2.1.2
    let seed := gr.seed + BitVec.ofNat 64 (32 * index + k.1)
    let g := freshGroup t c k.2.2 (freePosition s c k.2.2) k.1 k.2.1.1 r.regs r.tiles r.prio r.entry seed
    modTeam (setGrp s id g) t fun y => { y with groups := y.groups ++ [id] }
  ((roles.zip slots).mapIdx fun i r => (i, r.1, r.2)).foldl one s
/-- The cores of a gang whose member 0 stands on a core, members in order; none where the block leaves the die (R2, R24). -/
def gangCores (size c : Nat) : Option (List Nat) :=
  let row := c % 24 / 6
  let col := c % 6
  match size with
  | 1 => some [c]
  | 2 => if col + 1 < 6 then some [c, c + 1] else none
  | _ => if col + 1 < 6 ∧ row + 1 < 4 then some [c, c + 1, c + 6, c + 7] else none
/-- Start the members of a gang at a core, or none of them (R24, R26). -/
def putGang (s : State) (gid first : Nat) (cs : List Nat) : Option State :=
  (cs.mapIdx fun m c => (m, c)).foldl (fun (o : Option State) x => match o with
    | none => none
    | some s => (placeTeam s (grid s gid) x.2).map fun slots => putTeam s gid x.2 (first + x.1) slots) (some s)
/-- Every way to place a gang on a die, by the core of its member 0, ascending. -/
def gangPlaces (s : State) (gid d first : Nat) : List State :=
  (List.range 24).filterMap fun k => (gangCores (grid s gid).gang (24 * d + k)).bind fun cs => putGang s gid first cs
/-- Place a gang on a die; which core it takes is free (assumption 5). -/
def tryPlace (s : State) (gid d first : Nat) : Option State :=
  let ps := gangPlaces { s with fresh := s.fresh + 1 } gid d first
  ps[Config.freeIndex s.fresh % ps.length]?
/-- Gangs that a die could start now, counted by placing them at the lowest cores (R34). -/
def countPlaces (gid d : Nat) : Nat → State → Nat
  | 0, _ => 0
  | n + 1, s => match (gangPlaces s gid d 0).head? with
    | some s => 1 + countPlaces gid d n s
    | none => 0
/-- The machine with every other team absent, and all other work: what is left is a grid's own, in its slice (R331, R356). -/
def emptied (s : State) (gid : Nat) : State :=
  let gr := grid s gid
  { s with
    teams := [], groups := [], grids := [(gid, { gr with reserve := [], cores := [] })], fes := []
    cores := mmap s.cores fun _ c => { c with preempt := none }
    parts := mput s.parts gr.part { part s gr.part with slice := some gr.ctx } }
/-- A gang could be placed on a die of its partition if every other team were absent (R356). -/
def everFits (s : State) (gid : Nat) : Bool :=
  (partDies (part s (grid s gid).part)).any fun d => !(gangPlaces (emptied s gid) gid d 0).isEmpty
/-- A node group could be placed on a die if every other team were absent (R356). -/
def nodeEverFits (s : State) (gid d : Nat) (regs tiles ways : Nat) : Bool :=
  let gr := grid s gid
  decide (ways ≤ Config.pinnableWays) && (List.range 24).any fun k =>
    coreAvail (emptied s gid) gr.part gr.ctx (24 * d + k) && (bestSlot [{}, {}, {}, {}] regs tiles).isSome

/-! ## Node reservations (R43) -/

/-- A core may hold a reservation: one that class-0 work closes may not, as long as a die has others, since a node group can always launch
(R43, R329; assumption 107). -/
def mayReserve (s : State) (gr : Grid) (c : Nat) : Bool :=
  let resv := (part s gr.part).resv
  coreAvail s gr.part gr.ctx c && (ctxClass s gr.part gr.ctx = 0 || !resv.getLsbD (c % 24) || resv = BitVec.allOnes 24)
/-- A core of a die and the slot of a reservation on it. -/
def reserveOn (s : State) (gr : Grid) (d : Nat) : List (Nat × Nat) :=
  let (regs, tiles, ways) := reserveNeed gr
  (List.range 24).filterMap fun k =>
    let c := 24 * d + k
    if !mayReserve s gr c || Config.pinnableWays < waysTaken s c + ways then none
    else (bestSlot ((List.range 4).map (slotLoad s c)) regs tiles).map fun i => (c, i)
/-- The reservation of a grid on a die, placed anew where it does not stand; none where it finds no place yet (R43, R339). -/
def placeReserve (s : State) (gid d : Nat) : Option State :=
  if reserveStands s gid d then some s
  else
    let s := modGrid s gid fun g => { g with reserve := mdel g.reserve d }
    let cs := reserveOn s (grid s gid) d
    (cs[Config.freeIndex s.fresh % cs.length]?).map fun r =>
      modGrid { s with fresh := s.fresh + 1 } gid fun g => { g with reserve := mput g.reserve d r }
/-- The reservations of a grid on every die of its partition, those that do not stand placed anew; none where one finds no place
yet (R43, R339). -/
def ensureReserve (s : State) (gid : Nat) : Option State :=
  let gr := grid s gid
  if gr.nodes.isEmpty then some s
  else (partDies (part s gr.part)).foldl (fun (o : Option State) d => o.bind fun s => placeReserve s gid d) (some s)

/-! ## Claims, starts and steals (R34 to R37) -/

def gridSize (gr : Grid) : Nat := gr.x * gr.y * gr.z
/-- The gang of a team is resident or being started. -/
def gangHere (s : State) (gid gang : Nat) : Bool :=
  s.teams.any fun t => t.2.grid = gid && t.2.node.isNone && t.2.index / (grid s gid).gang = gang
/-- The gang of the lowest unfinished team (R37). -/
def lowestGang (gr : Grid) : Nat := firstGap 0 gr.doneTeams / gr.gang
/-- A grid that may start teams: running, in a scheduled context, with its lowest unfinished gang waiting. -/
def lowestWaits (s : State) (gid : Nat) (gr : Grid) : Bool :=
  gr.ending = .running && !gr.isOver && decide (gr.doneTeams.length < gridSize gr) && scheduled s gr.part gr.ctx
    && !gangHere s gid (lowestGang gr)
/-- A gang of a grid may start now, in the order lowest unfinished teams by acceptance, relaunched gangs, the others; a class-0
team waits only for relaunched gangs of its grid (R37, R353). -/
def mayStart (s : State) (gid gang : Nat) (relaunch : Bool) : Bool :=
  let gr := grid s gid
  let waits := s.grids.filter fun g => g.2.part = gr.part && lowestWaits s g.1 g.2
  if ctxClass s gr.part gr.ctx = 0 then relaunch || gr.recs.all fun r => !r.2.draining
  else if gang = lowestGang gr then waits.all fun g => decide (gr.order ≤ g.2.order)
  else waits.isEmpty && (relaunch || gr.recs.all fun r => !r.2.draining)
/-- A grid that starts teams: running, its context scheduled and not being pre-empted (R332 step 2). -/
def startable (s : State) (gid : Nat) : Bool :=
  match mget s.grids gid with
  | some gr => gr.ending = .running && !gr.isOver && scheduled s gr.part gr.ctx && !(part s gr.part).stopped.contains gr.ctx
  | none => false
/-- Teams of a grid that have been claimed and not started, with the die that holds them. -/
def unstarted (gr : Grid) : List (Nat × Nat) := (gr.chunks.map fun c => c.2.map fun t => (c.1, t)).flatten
/-- A gang leaves whichever chunk holds it. -/
def unclaim (s : State) (gid first : Nat) : State :=
  modGrid s gid fun g => { g with chunks := (mmap g.chunks fun _ l => l.filter fun t => t / g.gang != first / g.gang).filter fun c => !c.2.isEmpty }
/-- DISTRIBUTOR_CLAIM (R34, R43). -/
def execDistributorClaim (d gid : Nat) (s : State) : Out :=
  .next (let gr := grid s gid
    if !startable s gid || !((part s gr.part).dies.getLsbD d) || (mget gr.chunks d).isSome || gridSize gr ≤ gr.cursor then s
    else match ensureReserve s gid with
      | none => s
      | some s =>
        let most := min 8 (gridSize gr - gr.cursor) / gr.gang
        let n := countPlaces gid d most s
        if n = 0 then s
        else modGrid s gid fun g => { g with
          chunks := mput g.chunks d ((List.range (n * g.gang)).map (g.cursor + ·)), cursor := g.cursor + n * g.gang })
/-- A record about a gang that stands on no core: LOC has its attempt alone, core and slot 0 (R344, R356; assumption 91). -/
def gridRecord (s : State) (gr : Grid) (code : Nat) (team : Nat) : BitVec 512 :=
  logRecord code 1 gr.ctx s.time gr.handle team (((mget gr.recs (team / gr.gang)).getD {}).attempt * 2 ^ 24) 0 0 0
/-- A gang that can never be placed aborts its grid (R356). -/
def neverFits (s : State) (gid first : Nat) : State :=
  if everFits s gid then s else abortGrid s gid 0x45 (gridRecord s (grid s gid) 0x45 first)
/-- The gang that a distributor tries next: the lowest unfinished team's, whichever chunk holds it, else its own chunk's
first (R35, R37). -/
def nextGang (s : State) (gid d : Nat) : Option Nat :=
  let gr := grid s gid
  let low := lowestGang gr * gr.gang
  if (unstarted gr).any fun t => t.2 = low then some low else (mget gr.chunks d).bind List.head?
/-- TEAM_START_ATTEMPT (R26, R35, R37, R43, R179). -/
def execTeamStartAttempt (d gid : Nat) (s : State) : Out :=
  .next (if !startable s gid then s
    else match nextGang s gid d with
      | none => s
      | some first =>
        if !mayStart s gid (first / (grid s gid).gang) false then s
        else match ensureReserve s gid with
          | none => s
          | some s => match tryPlace s gid d first with
            | some s => unclaim s gid first
            | none => neverFits s gid first)
/-- The other members of a team's gang stand with their carve-outs pinned (R179). -/
def gangPinned (s : State) (t : Team) : Bool :=
  let size := (grid s t.grid).gang
  t.node.isSome || s.teams.all fun y => y.2.grid != t.grid || y.2.node.isSome || y.2.index / size != t.index / size || pinned y.2
/-- A team starts: its groups become ready; a node group's start is a .dev acquire on its core (R84, R253). -/
def startTeam (s : State) (t : Nat) : State :=
  let x := team s t
  let s := if x.node.isSome then acquireAt s x.core .dev else s
  x.groups.foldl (fun s k => modGrp s k fun g =>
    if g.status = .starting then { makeReady s g with since := s.cycle } else g)
    (modTeam s t fun x => { x with started := true })
/-- The teams of a grid on a die that have not started. -/
def notStarted (s : State) (gid d : Nat) : List Nat :=
  (s.teams.filter fun t => t.2.grid = gid && dieOf t.2.core = d && !t.2.started).map (·.1)
/-- The teams of a grid on a die whose carve-outs can be pinned are, and start, a gang's together (R24, R26, R84, R179). -/
def startTeams (s : State) (gid d : Nat) : State :=
  let s := (notStarted s gid d).foldl (fun s t => sweep s t 512) s
  (notStarted s gid d).foldl (fun s t => if gangPinned s (team s t) && pinned (team s t) then startTeam s t else s) s
/-- TEAM_START (R24, R84, R179). -/
def execTeamStart (d gid : Nat) (s : State) : Out := .next (startTeams s gid d)
/-- TEAM_STEAL (R36). -/
def execTeamSteal (d gid : Nat) (s : State) : Out :=
  .next (let gr := grid s gid
    if !startable s gid || gr.cursor < gridSize gr || (mget gr.chunks d).isSome || !((part s gr.part).dies.getLsbD d) then s
    else match ensureReserve s gid with
      | none => s
      | some s =>
        let gangs := (unstarted gr).foldl (fun l t => insertNat l (t.2 / gr.gang)) []
        match gangs.reverse.find? fun k => mayStart s gid k false && (tryPlace s gid d (k * gr.gang)).isSome with
        | none => s
        | some k => match tryPlace s gid d (k * gr.gang) with
          | some s => startTeams (unclaim s gid (k * gr.gang)) gid d
          | none => s)

/-! ## Gather nodes (R39 to R43) -/

/-- The gather buffer of a node on a die. -/
def bufferOf (s : State) (d gid node : Nat) : Option Gather := (die s d).gather.find? fun b => b.grid = gid && b.node = node
def setBuffer (s : State) (d : Nat) (b : Gather) : State :=
  modDie s d fun x => { x with gather := (x.gather.filter fun y => !(y.grid = b.grid && y.node = b.node)) ++ (if b.recs.isEmpty then [] else [b]) }
/-- Where a node group can stand on a die: the reservation where it is free and its core open, else any core with room (R42,
R43, R329, R330, R355). -/
def nodePlaces (s : State) (gid d : Nat) (n : NodeDecl) : List (Nat × Nat × Bool) :=
  let gr := grid s gid
  match mget gr.reserve d with
  | none => []
  | some (c, i) =>
    if !reserveBusy s gid d then (if coreAvail s gr.part gr.ctx c then [(c, i, true)] else [])
    else (List.range 24).filterMap fun k =>
      let c := 24 * d + k
      if !coreOpen s gr.part gr.ctx c || Config.pinnableWays < waysTaken s c + n.ways
          || 64 ≤ (s.teams.filter fun t => t.2.core = c).length then none
      else (bestSlot ((List.range 4).map (slotLoad s c)) n.regs n.tiles).map fun i => (c, i, false)
/-- Put the words of records into a node group's registers (R42). -/
def recordRegs (recs : List (List Word)) : Cells Word :=
  (recs.mapIdx fun l ws => ws.mapIdx fun k w => (32 * k + l, w)).flatten.foldl (fun m x => cput 0 m x.1 x.2) []
/-- The counters of a node group with n records: the lanes without one are retired (R42). -/
def nodeCounters (n : Nat) : Cells Byte := (allLanes.filter (n ≤ ·)).map fun l => (l, 255)
/-- Launch a node group with the oldest records of its buffer (R41, R42, R110 SEED); it starts once its ways are pinned (R179). One
that could be placed on no core of the die even with every other team absent aborts its grid (R356). Its issue priority is 0: neither
R39 nor R327 gives a node one (assumption 89). -/
def launchNode (s : State) (d gid node : Nat) : State :=
  let s := if startable s gid && !(grid s gid).nodes.isEmpty then (placeReserve s gid d).getD s else s
  let gr := grid s gid
  match bufferOf s d gid node, mget gr.nodes node with
  | some b, some n =>
    let ps := nodePlaces s gid d n
    match ps[Config.freeIndex s.fresh % ps.length]? with
    | none =>
      if nodeEverFits s gid d n.regs n.tiles n.ways || !startable s gid then s
      else abortGrid s gid 0x45 (gridRecord s gr 0x45 0xFFFFFFFF)
    | some (c, i, res) =>
      if !startable s gid then s
      else
        let recs := b.recs.take 32
        let s := setBuffer { s with fresh := s.fresh + 1 } d { b with recs := b.recs.drop 32 }
        let count := cget 0 gr.nodeLaunches (24 * node + d)
        let (s, t) := freshId s
        let (s, id) := freshId s
        let ways := takeWays s c n.ways
        let x : Team := { grid := gid, node := some node, core := c, ways := ways, scratch := 65536 * n.ways, groups := [id], started := false, swept := sweptAt ways, onReserve := res, bar := { rn := 1, rx := 1 } }
        let s := freshArray (if gr.cores.contains c then s else dropStable s c) c
        let s := modGrid { s with teams := mput s.teams t x } gid fun g => { g with
          cores := insertNat g.cores c, nodeLaunches := cput 0 g.nodeLaunches (24 * node + d) (count + 1) }
        let seed := (gr.seed ^^^ BitVec.ofNat 64 (2 ^ 63)) + BitVec.ofNat 64 count
        let g := freshGroup t c i (freePosition s c i) 0 0 n.regs n.tiles 0 n.entry seed
        let cs := nodeCounters recs.length
        let s := sweep (setGrp s id { g with c := cs, dup := cs, v := recordRegs recs }) t 512
        if pinned (team s t) then startTeam s t else s
  | _, _ => s
/-- GATHER_RECORD_ARRIVAL: records enter the buffer of their die; 32 of them launch a node group (R41, R44). -/
def execGatherRecordArrival (s : State) : Out :=
  .next (onMessage s (fun b => match b with | .record _ _ _ => true | _ => false) fun s m =>
    match m.body, m.home with
    | .record gid node recs, .die d =>
      match mget s.grids gid, mget (grid s gid).nodes node with
      | some gr, some n =>
        if gr.ending != .running || gr.isOver then s
        else
          let b := (bufferOf s d gid node).getD { grid := gid, node := node }
          let b := { b with recs := b.recs ++ recs, lapse := if b.recs.isEmpty then some (s.time + 1000 * n.timer) else b.lapse }
          let s := setBuffer s d b
          if 32 ≤ b.recs.length then launchNode s d gid node else s
      | _, _ => s
    | _, _ => s)
/-- GATHER_TIMER_LAPSE: a node group is launched once the timer has lapsed or 32 records wait (R41). -/
def execGatherTimerLapse (gid d node : Nat) (s : State) : Out :=
  .next (match bufferOf s d gid node with
    | some b =>
      let due := match b.lapse with
        | some t => decide (t ≤ s.time)
        | none => false
      if !b.recs.isEmpty && (due || decide (32 ≤ b.recs.length)) then launchNode s d gid node else s
    | none => s)

/-! ## The end of a group and of a team (R96, R180, R187, R247, R351, R354) -/

/-- A kill's record as one of class 3, formed at a time: class 2 becomes 3, and the rest tells the kill (R344, R354). -/
def asClass3 (r : BitVec 512) (time : Nat) : BitVec 512 :=
  let n := r.toNat
  BitVec.ofNat 512 (n % 2 ^ 64 + 2 ^ 8 + time % 2 ^ 64 * 2 ^ 64 + n / 2 ^ 128 * 2 ^ 128)
/-- A gang that completes after kills writes a record for each (R354). -/
def killRecords (s : State) (gid gang : Nat) : State :=
  let gr := grid s gid
  match mget gr.recs gang with
  | none => s
  | some r =>
    let s := r.kills.foldl (fun s k => pushRecord s gr.part true (asClass3 k s.time) (some gid)) s
    modGrid s gid fun g => { g with recs := mdel g.recs gang }
/-- Members of a gang lie in a saved context. -/
def savedGang (s : State) (gid gang : Nat) : Bool :=
  s.saved.any fun x => x.cores.any fun c => c.teams.any fun t =>
    t.2.grid = gid && t.2.node.isNone && t.2.index / (grid s gid).gang = gang
/-- A team none of whose groups is left: its carve-out is released, with its gang's, and it has finished unless it was killed
or its grid aborted (R37, R96, R180, R351). -/
def endTeam (s : State) (t : Nat) : State :=
  let x := team s t
  let gr := grid s x.grid
  if x.node.isSome then { s with teams := mdel s.teams t }
  else
    let s := modTeam s t fun y => { y with finished := true }
    let gang := x.index / gr.gang
    let mates := s.teams.filter fun y => y.2.grid = x.grid && y.2.node.isNone && y.2.index / gr.gang = gang
    if mates.any (fun y => !y.2.finished) || savedGang s x.grid gang then s
    else
      let s := { s with teams := s.teams.filter fun y => !(mates.any fun z => z.1 = y.1) }
      let killed := gr.ending != .running || ((mget gr.recs gang).getD {}).draining
      if killed then s
      else
        let s := modGrid s x.grid fun g => { g with doneTeams := mates.foldl (fun l y => insertNat l y.2.index) g.doneTeams }
        killRecords s x.grid gang
/-- The classes that end with their error flag set (R187). -/
def leftError (g : Group) : Option (EngineClass × Class) :=
  [EngineClass.ld, .st, .cp, .mx, .tm, .tour, .cl].findSome? fun c =>
    let x := clsOf g c
    if x.err then some (c, x) else none
/-- The group was stopped before it ended by itself: a kill, or the abort of its grid. Its open batches are never closed
(R340, R351). -/
def stoppedGroup (s : State) (g : Group) : Bool :=
  match (gridOf s g).ending with
  | .running => killedGroup s g
  | _ => true
/-- GROUP_END: once its batches are complete, an ended group leaves its phasers and frees its position (R96, R187, R247). -/
def execGroupEnd (gid : Nat) (s : State) : Out :=
  .next (match mget s.groups gid with
    | none => s
    | some g =>
      let killed := killedGroup s g
      let idle := s.ops.all fun o => o.2.gid != gid || (stoppedGroup s g && o.2.parts = 0)
      let joins := g.h.any fun h => h.2.st = .joining
      let ports := s.ports.any fun p => p.2.gid = gid
      if g.status != .waiting .drain || !idle || joins || ports then s
      else
        let s := { s with ops := s.ops.filter fun o => o.2.gid != gid }
        let s := match leftError g with
          | some (c, x) => if killed then s
            else abortGrid s (gidOf s g) 0x1E (groupRecord s g 0x1E 1 (posWord g.pc).toNat (engineInfo x c 0).toNat 0)
          | none => s
        let s := g.h.foldl (fun s h => if h.2.st = .bound then leaveHandle s gid g.core h.1 h.2 else s) s
        let s := if (team s g.team).node.isNone then barLeave s g.team else s
        let s := modTeam { s with groups := mdel s.groups gid } g.team fun t => { t with groups := t.groups.filter (· != gid) }
        if (team s g.team).groups.isEmpty then endTeam s g.team else s)

/-! ## Relaunch (R353, R355, R356) -/

/-- GANG_RELAUNCH: a killed gang that has drained starts afresh, ahead of every unstarted team of its grid (R353). -/
def execGangRelaunch (gid gang : Nat) (s : State) : Out :=
  .next (let gr := grid s gid
    match mget gr.recs gang with
    | none => s
    | some r =>
      let first := gang * gr.gang
      if !r.draining || gangHere s gid gang || savedGang s gid gang || !startable s gid || !mayStart s gid gang true then s
      else match ensureReserve s gid with
        | none => s
        | some s => match (partDies (part s gr.part)).findSome? fun d => tryPlace s gid d first with
          | some s => modGrid s gid fun g => { g with recs := mput g.recs gang { r with draining := false } }
          | none => neverFits s gid first)

/-! ## The end of a grid (R44, R176, R325, R344) -/

/-- Teams of a grid that lie in saved contexts. -/
def savedTeams (s : State) (gid : Nat) : Bool :=
  s.saved.any fun x => x.cores.any fun c => c.teams.any fun t => t.2.grid = gid
/-- No record of a grid waits or travels (R44). -/
def noRecords (s : State) (gid : Nat) : Bool :=
  (s.dies.all fun d => d.2.gather.all fun b => b.grid != gid)
    && (s.net.all fun m => match m.body with | .record g _ _ => g != gid | _ => true)
    && (s.ports.all fun p => p.2.records.all fun r => r.2.1 != gid)
    && (s.saved.all fun x => x.gather.all fun d => d.2.all fun b => b.grid != gid)
/-- A grid has completed, or has been aborted and stopped (R44, R325). -/
def gridDone (s : State) (gid : Nat) (gr : Grid) : Bool :=
  !gr.isOver && s.teams.all (fun t => t.2.grid != gid)
    && !savedTeams s gid && (gr.ending != .running || (gr.doneTeams.length = gridSize gr && noRecords s gid))
/-- Saved records of an aborted grid are discarded (R41, R44). -/
def dropSaved (s : State) (gid : Nat) : State :=
  { s with saved := s.saved.map fun x => { x with gather := mmap x.gather fun _ l => l.filter fun b => b.grid != gid } }
/-- GRID_COMPLETE: the cores of a grid that has ended write back their dirty words (R44, R176). -/
def execGridComplete (gid : Nat) (s : State) : Out :=
  .next (match mget s.grids gid with
    | none => s
    | some gr =>
      if !gridDone s gid gr then s
      else
        let (s, ns) := gr.cores.foldl (fun (x : State × List Nat) c =>
          let (t, n) := writeBack x.1 c none none fun _ _ => true
          (t, x.2 ++ n)) (dropSaved s gid, [])
        modGrid s gid fun g => { g with isOver := true, wbacks := ns, reserve := [] })
/-- The status of a LAUNCH (R325). -/
def launchStatus (gr : Grid) : Nat :=
  match gr.ending with
  | .running => 0
  | .refused off => 1 + off % 2 ^ 16 * 2 ^ 16
  | .aborting c => (if c = 0x1E || c = 0x43 || c = 0x44 then 2 else 3) + c.toNat * 2 ^ 8
/-- The die whose front end serves a queue. -/
def queueDie (s : State) (p q : Nat) : Nat :=
  match (mappedQueues s).find? fun m => m.2.2.part = p && m.2.2.q = q with
  | some m => m.1 / 4
  | none => (partDies (part s p)).headD 0
/-- A party other than a group waits for a page: under a monitor, for the host, or for an invalidation that holds its walk (R160,
R170, R321, R324, R325, R337). -/
def waitPage (s : State) (who : Party) (p ctx d va : Nat) (r : Xr) (write : Bool) : State :=
  match r with
  | .absent a =>
    let noted := hasNoted s who va
    waitEntry (dropWalks s who) p ctx none who d va a (partySource who) write noted
  | .ats host =>
    let (s, k) := freshId s
    askHost s k p ctx va host write false who {}
  | .miss => (addWalk s { part := p, ctx := ctx, va := va, write := write, who := who, die := d, retry := true, notBefore := s.time }).1
  | _ => s
/-- The grid is gone: what it held beside memory is freed and its queue counts it no more (R175, R182, R233, R325). -/
def removeGrid (s : State) (gid : Nat) : State :=
  let gr := grid s gid
  let mine := (s.phs.filter fun p => p.2.grid = some gid).map (·.1)
  let s := gr.cores.foldl (fun s c => modCore (dropStable s c) c fun k => { k with cc := [] }) s
  let s := mine.foldl (fun s o => freeIfLast (modPh s o fun p => { p with marked := true, members := 0 }) o) s
  mine.foldl (fun s o => if freeAsked s o then podFreed s o else s) { s with grids := mdel s.grids gid }
/-- Write a number of n bytes to pieces, at their home (R325). -/
def piecesWrite (s : State) (ps : Ranges) (n x : Nat) : State :=
  homeWrite s (((bytesOf n x).mapIdx fun i b => (pieceAt ps i, b)).foldl (fun m y => mput m y.1 y.2) []) []
/-- LAUNCH_STATUS_WRITE: after the write-backs and the error record, to the pages of its four bytes (R176, R325, R344). -/
def execLaunchStatusWrite (gid : Nat) (s : State) : Out :=
  .next (match mget s.grids gid with
    | none => s
    | some gr =>
      if !gr.isOver || gr.logHeld || !gr.wbacks.all (performed s) then s
      else match gr.launch with
        | none => removeGrid s gid
        | some (q, index, va) =>
          if va = 0 then removeGrid s gid
          else
            let d := queueDie s gr.part q
            let (t, r) := mapRange d gr.part gr.ctx true 2 va 0 4 s
            match r with
            | .ok ps => removeGrid (piecesWrite t ps 4 (launchStatus gr)) gid
            | .error (r, va) => match pieceCause r with
              | some c => removeGrid (qError t gr.part q index c.toNat) gid
              | none => waitPage t (.queue gr.part q) gr.part gr.ctx d va r true)

end Sys2Proof.Machine
end

