-- ==== Sys2Proof/Machine/Launch.lean ====
section
/-! DEFINITION. DISP: the validation of a launch header and the acceptance of its grid (R20, R22, R39, R73, R182, R233, R321,
R327). -/

namespace Sys2Proof.Machine

/-- What DISP gives. -/
inductive Disp where
  /-- a page is not present, or the partition holds 256 live grids: it waits (R321, R327) -/
  | wait (s : State)
  /-- a header error: the offset of the first failing field (R327) -/
  | bad (s : State) (off : Nat)
  /-- the grid is accepted: its number and handle -/
  | ok (s : State) (gid handle : Nat)

/-- Bytes at a VA read through a context's tables: none where the range cannot be read, and the wait where a page of it is not
present. -/
inductive Got where
  | bytes (f : Nat → Nat → Nat)
  | unreadable
  | wait (r : Xr) (va : Nat)
/-- Read n bytes at a VA; f o k is the number in k bytes at offset o. -/
def readVa (s : State) (d p ctx va n : Nat) : State × Got :=
  let (s, r) := mapRange d p ctx false (n / 4096 + 2) va 0 n s
  match r with
  | .ok ps => (s, .bytes fun o k => ofBytes ((List.range k).map fun i => readByte s.mem (pieceAt ps (o + i))))
  | .error (x, va) => match x with
    | .fault _ | .poison _ => (s, .unreadable)
    | r => (s, .wait r va)
/-- A number names a context of a partition (R321, R322, R323). -/
def ctxValid (s : State) (p ctx : Nat) : Bool := decide (ctx < ctxCount (part s p)) && ctxSched s p ctx / 2 ^ 8 % 32 = p
/-- A check of DISP: whether it holds, and the offset that its failure reports. -/
abbrev Check := Bool × Nat
/-- The first failing check. -/
def firstFail (cs : List Check) : Option Nat := (cs.find? fun c => !c.1).map (·.2)
/-- The packet index of an entry lies in the code region; a check of two fields, the lower being CODESIZE (R73, R327). -/
def entryOk (f : Nat → Nat → Nat) (e : Nat) : Check := (decide (e < f 0x08 4), 0x08)
/-- The number of roles (R327 FLAGS). -/
def roleCount (f : Nat → Nat → Nat) : Nat := f 0x0C 4 / 2 ^ 4 % 4 + 1
def nodeCount (f : Nat → Nat → Nat) : Nat := f 0x0C 4 / 2 ^ 16 % 2 ^ 7
/-- The gang size (R24, R327). -/
def gangOf (f : Nat → Nat → Nat) : Nat := match f 0x0C 4 % 4 with
  | 1 => 2
  | 2 => 4
  | _ => 1
/-- The checks of role r (R22, R327). -/
def roleChecks (f : Nat → Nat → Nat) (r : Nat) : List Check :=
  let o := 0x30 + 16 * r
  if roleCount f ≤ r then
    [(f o 4 = 0, o), (f (o + 4) 2 = 0, o + 4), (f (o + 6) 2 = 0, o + 6), (f (o + 8) 1 = 0, o + 8), (f (o + 9) 1 = 0, o + 9),
     (f (o + 10) 6 = 0, o + 10)]
  else
    let regs := f (o + 4) 2
    let tiles := f (o + 6) 2
    let groups := f (o + 8) 1
    [(decide (16 ≤ regs) && decide (regs ≤ 256) && regs % 8 = 0, o + 4), (decide (tiles ≤ 1024) && tiles % 4 = 0, o + 6),
     (decide (1 ≤ groups) && decide (groups ≤ 32), o + 8), (decide (f (o + 9) 1 ≤ 3), o + 9), (f (o + 10) 6 = 0, o + 10)]
/-- The groups of a team (R21). -/
def groupTotal (f : Nat → Nat → Nat) : Nat := ((List.range (roleCount f)).map fun r => f (0x38 + 16 * r) 1).foldl (· + ·) 0
/-- The header's checks in ascending offset, the bindings of the parameter windows, the phasers and the node table apart
(R20, R22, R327); x is GRIDX after the override. -/
def headChecks (f : Nat → Nat → Nat) (x : Nat) : List Check :=
  let fl := f 0x0C 4
  let y := f 0x14 4
  let z := f 0x18 4
  let size := f 0x08 4
  let trap := f 0x28 4
  let scr := f 0x1C 4
  [(f 0 8 % 128 = 0 && decide (f 0 8 < 2 ^ 48), 0x00), (decide (1 ≤ size) && decide (size ≤ 2 ^ 24), 0x08)]
  ++ ((List.range (roleCount f)).map fun r => entryOk f (f (0x30 + 16 * r) 4))
  ++ [(trap = 0xFFFFFFFF || decide (trap < size), 0x08),
      (fl % 4 != 3 && !bit fl 3 && fl / 2 ^ 6 % 2 ^ 10 = 0 && decide (nodeCount f ≤ 64) && fl / 2 ^ 23 = 0, 0x0C),
      (x * y * z % gangOf f = 0, 0x0C), (decide (1 ≤ x), 0x10), (decide (x * y * z ≤ 2 ^ 31), 0x10), (decide (1 ≤ y), 0x14),
      (decide (1 ≤ z), 0x18), (scr % 65536 = 0 && decide (scr ≤ 917504), 0x1C), (f 0x2C 4 = 0, 0x2C)]
  ++ roleChecks f 0 ++ [(decide (groupTotal f ≤ 32), 0x38)] ++ roleChecks f 1 ++ roleChecks f 2 ++ roleChecks f 3
/-- The order in which the header's checks report: ascending offset (R327). -/
def lowestFail (cs : List Check) : Option Nat :=
  (cs.filter fun c => !c.1).foldl (fun b c => match b with
    | none => some c.2
    | some o => some (min o c.2)) none
/-- What binding a parameter window gives: its first address as its leaf gives it, interleaved addresses being contiguous as
they stand; a binding that cannot be read or is not contiguous; or the wait for the host's address or for an invalidation
(R160, R182, R337). -/
inductive Bound where
  | ok (pa : Nat)
  | bad
  | wait (r : Xr) (va : Nat)
/-- The physical address of a VA whose translation a die's TLB holds, as its leaf gives it. -/
def framePa (s : State) (d ctx va pa : Nat) : Nat := match tlbFind (die s d).tlb ctx va with
  | some e => leafPa e.pte e.bits va
  | none => pa
/-- A parameter window's binding (R182). The walk takes the low 48 bits of its base, as it does of DISP's and SWAIT's operands (assumption
46). -/
def bindWindow (s : State) (d p ctx va size : Nat) : State × Bound :=
  let (s, r) := mapRange d p ctx false (size / 4096 + 2) va 0 size s
  match r with
  | .ok ps => match ps with
    | [] => (s, .bad)
    | (pa, _, _) :: _ =>
      let first := framePa s d ctx va pa
      (s, if ps.all fun q => framePa s d ctx (va + q.2.1) q.1 = first + q.2.1 then .ok first else .bad)
  | .error (.ats host, va) => (s, .wait (.ats host) va)
  | .error (.miss, va) => (s, .wait .miss va)
  | .error _ => (s, .bad)
/-- The parameter windows: the checks of a window, then its binding, in ascending offset (R182, R327). -/
def bindWindows (d p ctx : Nat) (f : Nat → Nat → Nat) : Nat → State → State × Except (Nat ⊕ Xr × Nat) (Map PWin)
  | 0, s => (s, .ok [])
  | n + 1, s =>
    match bindWindows d p ctx f n s with
    | (s, .error o) => (s, .error o)
    | (s, .ok m) =>
      let o := 0x70 + 16 * n
      let size := f (o + 8) 4
      let (s, b) := if 0 < size ∧ size ≤ 65536 then bindWindow s d p ctx (f o 8) size else (s, .ok 0)
      match b with
      | .bad => (s, .error (.inl o))
      | .wait r va => (s, .error (.inr (r, va)))
      | .ok pa =>
        if 65536 < size then (s, .error (.inl (o + 8)))
        else if f (o + 12) 4 ≠ 0 then (s, .error (.inl (o + 12)))
        else (s, .ok (if size = 0 then m else mput m n { size := size, frame := pa }))
/-- Launch-time phasers asked for: number, scope, ANY (R233, R327 PHASERS). -/
def phasersAsked (f : Nat → Nat → Nat) : List (Nat × Nat × Bool) :=
  (List.range 16).filterMap fun n =>
    let x := f 0xF0 8 / 2 ^ (4 * n) % 16
    if bit x 3 then some (n, x % 4, bit x 2) else none
/-- The launch-time phasers can be created (R233). -/
def phasersOk (s : State) (asked : List (Nat × Nat × Bool)) : Bool :=
  decide (liveObjects s + asked.length ≤ Config.phasers) && asked.all fun a => a.2.1 != 3 || s.pod
/-- Create them for a grid (R233). -/
def makePhasers (s : State) (gid p ctx : Nat) (asked : List (Nat × Nat × Bool)) : State :=
  asked.foldl (fun s a => match freeLid s with
    | none => s
    | some l =>
      let obj := s.pkg * 4096 + l
      let s := newObject s obj { scope := a.2.1, any := a.2.2, grid := some gid, part := p, ctx := ctx } none 0
      let s := if a.2.1 = 3 then pSend s { obj := obj, src := pkgNode, dst := podNode, k := .newObj 0 } else s
      modGrid s gid fun g => { g with phs := mput g.phs a.1 obj }) s
/-- The checks of node-table entry n at offset 32 n of the table, in ascending offset; a check that involves several fields
reports the lowest (R39, R327). -/
def nodeChecks (f t : Nat → Nat → Nat) (dies n : Nat) : List Check :=
  let b := 32 * n
  let o := 0x100 + b
  let rec_ := t (b + 4) 2
  let regs := t (b + 6) 2
  let tiles := t (b + 8) 2
  let place := t (b + 11) 1
  let arg := t (b + 12) 2
  let timer := t (b + 14) 2
  if t b 32 = 0 then []
  else
    [entryOk f (t b 4), (decide (4 ≤ rec_) && decide (rec_ ≤ 256) && rec_ % 4 = 0, o + 4), (decide (rec_ / 4 ≤ regs), o + 4),
     (place != 2 || decide (arg < rec_), o + 4), (decide (16 ≤ regs) && decide (regs ≤ 256) && regs % 8 = 0, o + 6),
     (decide (tiles ≤ 1024) && tiles % 4 = 0, o + 8), (decide (t (b + 10) 1 ≤ 14), o + 10), (decide (place ≤ 2), o + 11),
     (place != 1 || decide (arg < dies), o + 11), (place != 2 || arg % 4 = 0, o + 11),
     (decide (1 ≤ timer) && decide (timer ≤ 1024), o + 14), (t (b + 16) 16 = 0, o + 16)]
/-- The declared nodes of a table (R39, R327). -/
def nodesOf (t : Nat → Nat → Nat) (n : Nat) : Map NodeDecl :=
  ((List.range n).filter fun k => t (32 * k) 32 != 0).map fun k =>
    let b := 32 * k
    (k, { entry := t b 4, bytes := t (b + 4) 2, regs := t (b + 6) 2, tiles := t (b + 8) 2, ways := t (b + 10) 1
          place := t (b + 11) 1, arg := t (b + 12) 2, timer := t (b + 14) 2 })
/-- The roles of a header (R22). -/
def rolesOf (f : Nat → Nat → Nat) : List Role :=
  (List.range (roleCount f)).map fun r =>
    let o := 0x30 + 16 * r
    { entry := f o 4, regs := f (o + 4) 2, tiles := f (o + 6) 2, groups := f (o + 8) 1, prio := f (o + 9) 1 }
/-- The grid that a header describes. -/
def gridOfHeader (f : Nat → Nat → Nat) (p ctx handle x order : Nat) (launch : Option (Nat × Nat × Nat)) (pw : Map PWin)
    (nodes : Map NodeDecl) : Grid :=
  { part := p, ctx := ctx, handle := handle, codeBase := f 0 8, codeSize := f 8 4, gang := gangOf f, relaunch := bit (f 0x0C 4) 2,
    x := x, y := f 0x14 4, z := f 0x18 4, scratch := f 0x1C 4, seed := BitVec.ofNat 64 (f 0x20 8),
    trap := if f 0x28 4 = 0xFFFFFFFF then none else some (f 0x28 4), roles := rolesOf f, pw := pw, nodes := nodes,
    launch := launch, order := order }
/-- Live grids of a partition (R321). -/
def liveGrids (s : State) (p : Nat) : Nat := (s.grids.filter fun g => g.2.part = p && !g.2.isOver).length
/-- A grid handle that no grid has; which one is free (R321, assumption 5). -/
def freeHandle (s : State) : State × Nat :=
  let free := (List.range 65536).filter fun h => s.grids.all fun g => g.2.handle != h
  ({ s with fresh := s.fresh + 1 }, free.getD (Config.freeIndex s.fresh % free.length) 0)
/-- The node table, read and checked (R327). -/
inductive Table where
  | ok (nodes : Map NodeDecl)
  | bad (off : Nat)
  | wait (r : Xr) (va : Nat)
def readTable (s : State) (d p ctx : Nat) (f : Nat → Nat → Nat) : State × Table :=
  let n := nodeCount f
  let va := f 0xF8 8
  if n = 0 then (s, if va = 0 then .ok [] else .bad 0xF8)
  else if va = 0 ∨ va % 32 ≠ 0 ∨ 2 ^ 48 ≤ va then (s, .bad 0xF8)
  else match readVa s d p ctx va (32 * n) with
    | (s, .unreadable) => (s, .bad 0xF8)
    | (s, .wait r va) => (s, .wait r va)
    | (s, .bytes t) =>
      match firstFail ((List.range n).map fun k => nodeChecks f t (partDies (part s p)).length k).flatten with
      | some o => (s, .bad o)
      | none => (s, .ok (nodesOf t n))
/-- DISP on die d for a context: xover replaces GRIDX where it is not 0; onWait records the wait (R321, R327). -/
def dispatch (s : State) (d p ctx va xover : Nat) (launch : Option (Nat × Nat × Nat)) (onWait : State → Xr → Nat → State) : Disp :=
  if Config.liveGrids ≤ liveGrids s p then .wait s
  else if va % 64 ≠ 0 then .bad s 0
  else match readVa s d p ctx va 256 with
    | (s, .unreadable) => .bad s 0
    | (s, .wait r v) => .wait (onWait s r v)
    | (s, .bytes f) =>
      let x := if xover = 0 then f 0x10 4 else xover
      match lowestFail (headChecks f x) with
      | some o => .bad s o
      | none =>
        match bindWindows d p ctx f 8 s with
        | (s, .error (.inl o)) => .bad s o
        | (s, .error (.inr (r, v))) => .wait (onWait s r v)
        | (s, .ok pw) =>
          let asked := phasersAsked f
          if !phasersOk s asked then .bad s 0xF0
          else match readTable s d p ctx f with
            | (s, .bad o) => .bad s o
            | (s, .wait r v) => .wait (onWait s r v)
            | (s, .ok nodes) =>
              let (s, h) := freeHandle s
              let (s, gid) := freshId s
              let g := gridOfHeader f p ctx h x s.launches launch pw nodes
              let s := { s with grids := mput s.grids gid g, launches := s.launches + 1 }
              .ok (makePhasers s gid p ctx asked) gid h

end Sys2Proof.Machine
end

