-- ==== Sys2Proof/Machine/Riscv.lean ====
section
/-! DEFINITION. The base set RV64IMAC of a front-end core, which R320 names and the manual does not describe: its words are those of
the RISC-V unprivileged manual, with MRET and the four trap registers that R321's exceptions need (assumption 95). -/

namespace Sys2Proof.Machine

/-! ## Registers, memory and exceptions (R320, R321) -/

/-- Integer register i; x0 is 0. -/
def xget (f : Fe) (i : Nat) : DWord := if i = 0 then 0 else cget 0 f.x i
/-- Integer register i written; a write of x0 is discarded. -/
def xput (f : Fe) (i : Nat) (v : DWord) : Fe := if i = 0 then f else { f with x := cput 0 f.x i v }
/-- An exception: the firmware's trap vector, with mtval (R321; assumption 16). -/
def Fe.trap (f : Fe) (cause : Nat) (val : DWord) : Fe :=
  { f with mepc := f.pc, mcause := BitVec.ofNat 64 cause, mtval := val, pc := f.mtvec, wait := none, blocked := false }
/-- A front-end exception; what the instruction waited for is over (R321). -/
def feTrap (s : State) (id cause : Nat) (val : DWord) : State := modFe (dropWalks s (.fe id)) id fun f => f.trap cause val
/-- n bytes of a core's memory. -/
def feLoad (f : Fe) (a n : Nat) : Nat := ofBytes ((List.range n).map fun i => cget 0 f.imem ((a + i) % 2 ^ 64))
/-- n bytes of a core's memory written; a word written whole loses its mark (R347). -/
def feStore (f : Fe) (a n x : Nat) : Fe :=
  { f with
    imem := (bytesOf n x).mapIdx (fun i b => ((a + i) % 2 ^ 64, b)) |>.foldl (fun m y => cput 0 m y.1 y.2) f.imem
    imemBad := f.imemBad.filter fun w => !(decide (a ≤ 4 * w) && decide (4 * w + 4 ≤ a + n)) }

/-! ## Fields of a word -/

/-- n bits of a word from bit i. -/
def bitsOf (w i n : Nat) : Nat := w / 2 ^ i % 2 ^ n
/-- An n-bit two's-complement value as 64 bits. -/
def sext64 (n x : Nat) : DWord := BitVec.ofInt 64 (sextInt n x)
/-- The low 32 bits, sign-extended. -/
def low32 (x : DWord) : DWord := (x.truncate 32).signExtend 64
/-- Immediates of the I, S, B, U and J formats. -/
def immI (w : Nat) : DWord := sext64 12 (bitsOf w 20 12)
def immS (w : Nat) : DWord := sext64 12 (bitsOf w 25 7 * 2 ^ 5 + bitsOf w 7 5)
def immB (w : Nat) : DWord :=
  sext64 13 (bitsOf w 31 1 * 2 ^ 12 + bitsOf w 7 1 * 2 ^ 11 + bitsOf w 25 6 * 2 ^ 5 + bitsOf w 8 4 * 2)
def immU (w : Nat) : DWord := sext64 32 (bitsOf w 12 20 * 2 ^ 12)
def immJ (w : Nat) : DWord :=
  sext64 21 (bitsOf w 31 1 * 2 ^ 20 + bitsOf w 12 8 * 2 ^ 12 + bitsOf w 20 1 * 2 ^ 11 + bitsOf w 21 10 * 2)

/-! ## Arithmetic -/

/-- The OP and OP-IMM operations by funct3; alt is bit 30. -/
def aluOp (f3 : Nat) (alt : Bool) (a b : DWord) : DWord :=
  let sh := b.toNat % 64
  match f3 with
  | 0 => if alt then a - b else a + b
  | 1 => a <<< sh
  | 2 => if a.toInt < b.toInt then 1 else 0
  | 3 => if a.toNat < b.toNat then 1 else 0
  | 4 => a ^^^ b
  | 5 => if alt then a.sshiftRight sh else a >>> sh
  | 6 => a ||| b
  | _ => a &&& b
/-- Their 32-bit forms, before the extension. -/
def aluOp32 (f3 : Nat) (alt : Bool) (a b : Word) : Option Word :=
  let sh := b.toNat % 32
  match f3 with
  | 0 => some (if alt then a - b else a + b)
  | 1 => some (a <<< sh)
  | 5 => some (if alt then a.sshiftRight sh else a >>> sh)
  | _ => none
/-- Quotient and remainder of the M extension: division by 0 and the overflow give the values that it names. -/
def mulDiv {n : Nat} (f3 : Nat) (a b : BitVec n) : BitVec n :=
  match f3 with
  | 0 => a * b
  | 1 => BitVec.ofInt n (a.toInt * b.toInt / 2 ^ n)
  | 2 => BitVec.ofInt n (a.toInt * b.toNat / 2 ^ n)
  | 3 => BitVec.ofNat n (a.toNat * b.toNat / 2 ^ n)
  | 4 => if b = 0 then BitVec.allOnes n else BitVec.ofInt n (a.toInt.tdiv b.toInt)
  | 5 => if b = 0 then BitVec.allOnes n else a / b
  | 6 => if b = 0 then a else BitVec.ofInt n (a.toInt.tmod b.toInt)
  | _ => if b = 0 then a else a % b
/-- The branch conditions by funct3. -/
def branchTaken (f3 : Nat) (a b : DWord) : Option Bool :=
  match f3 with
  | 0 => some (a = b)
  | 1 => some (a ≠ b)
  | 4 => some (a.toInt < b.toInt)
  | 5 => some (b.toInt ≤ a.toInt)
  | 6 => some (a.toNat < b.toNat)
  | 7 => some (b.toNat ≤ a.toNat)
  | _ => none
/-- The value that an AMO of funct5 leaves, on n bits. -/
def amoValue {n : Nat} (f5 : Nat) (old x : BitVec n) : Option (BitVec n) :=
  match f5 with
  | 0 => some (old + x)
  | 1 => some x
  | 4 => some (old ^^^ x)
  | 8 => some (old ||| x)
  | 12 => some (old &&& x)
  | 16 => some (if old.toInt < x.toInt then old else x)
  | 20 => some (if old.toInt < x.toInt then x else old)
  | 24 => some (if old.toNat < x.toNat then old else x)
  | 28 => some (if old.toNat < x.toNat then x else old)
  | _ => none

/-! ## A word's effect -/

/-- The core after a word of n bytes that writes rd and goes on behind itself. -/
def Fe.result (f : Fe) (n rd : Nat) (v : DWord) : Fe := { xput f rd v with pc := (f.pc + n) % 2 ^ 64 }
/-- A jump. -/
def Fe.goto (f : Fe) (a : DWord) : Fe := { f with pc := a.toNat }
/-- Loads by funct3: bytes, and whether the value is sign-extended. -/
def loadShape (f3 : Nat) : Option (Nat × Bool) :=
  match f3 with
  | 0 => some (1, true)
  | 1 => some (2, true)
  | 2 => some (4, true)
  | 3 => some (8, true)
  | 4 => some (1, false)
  | 5 => some (2, false)
  | 6 => some (4, false)
  | _ => none
/-- LR, SC and the AMOs, on aligned words of 4 or 8 bytes; an SC ends the reservation, and succeeds where it stood on its bytes. -/
def amoTurn (f : Fe) (n w : Nat) (bad : Fe) : Fe :=
  let a := xget f (bitsOf w 15 5)
  let x := xget f (bitsOf w 20 5)
  let rd := bitsOf w 7 5
  let f5 := bitsOf w 27 5
  let k := 2 ^ bitsOf w 12 3
  let old := feLoad f a.toNat k
  let ret : DWord := if k = 4 then sext64 32 old else BitVec.ofNat 64 old
  if bitsOf w 12 3 ≠ 2 ∧ bitsOf w 12 3 ≠ 3 then bad
  else if a.toNat % k ≠ 0 then f.trap (if f5 = 2 then 4 else 6) a
  else if f5 = 2 then (if bitsOf w 20 5 = 0 then { f with reserved := some (a.toNat, k) }.result n rd ret else bad)
  else if f5 = 3 then
    if f.reserved = some (a.toNat, k) then { feStore f a.toNat k x.toNat with reserved := none }.result n rd 0
    else { f with reserved := none }.result n rd 1
  else
    let new := if k = 4 then (amoValue f5 (BitVec.ofNat 32 old) (x.truncate 32 : Word)).map (·.toNat)
      else (amoValue f5 (BitVec.ofNat 64 old) x).map (·.toNat)
    match new with
    | some v => (feStore f a.toNat k v).result n rd ret
    | none => bad
/-- The trap registers as software reaches them: mtvec, mepc, mcause, mtval. -/
def csrGet (f : Fe) (c : Nat) : Option DWord :=
  match c with
  | 0x305 => some (BitVec.ofNat 64 f.mtvec)
  | 0x341 => some (BitVec.ofNat 64 f.mepc)
  | 0x342 => some f.mcause
  | 0x343 => some f.mtval
  | _ => none
/-- A write of one: mtvec's mode is direct, and an address in mepc is even. -/
def csrPut (f : Fe) (c : Nat) (v : DWord) : Fe :=
  match c with
  | 0x305 => { f with mtvec := v.toNat / 4 * 4 }
  | 0x341 => { f with mepc := v.toNat / 2 * 2 }
  | 0x342 => { f with mcause := v }
  | 0x343 => { f with mtval := v }
  | _ => f
/-- ECALL, EBREAK, MRET, and the reads and writes of the trap registers. -/
def systemTurn (f : Fe) (n w : Nat) (bad : Fe) : Fe :=
  let f3 := bitsOf w 12 3
  let rd := bitsOf w 7 5
  let c := bitsOf w 20 12
  let src : DWord := if 4 ≤ f3 then BitVec.ofNat 64 (bitsOf w 15 5) else xget f (bitsOf w 15 5)
  if w = 0x73 then f.trap 11 0
  else if w = 0x100073 then f.trap 3 (BitVec.ofNat 64 f.pc)
  else if w = 0x30200073 then { f with pc := f.mepc }
  else match csrGet f c with
    | none => bad
    | some old =>
      let put (v : DWord) : Fe := (csrPut f c v).result n rd old
      match f3 % 4 with
      | 1 => put src
      | 2 => put (if bitsOf w 15 5 = 0 then old else old ||| src)
      | 3 => put (if bitsOf w 15 5 = 0 then old else old &&& ~~~ src)
      | _ => bad
/-- A 32-bit word, or what a 16-bit one stands for, of n bytes; bad is the illegal-instruction exception. -/
def wordTurn (f : Fe) (n w : Nat) (bad : Fe) : Fe :=
  let rd := bitsOf w 7 5
  let f3 := bitsOf w 12 3
  let f7 := bitsOf w 25 7
  let a := xget f (bitsOf w 15 5)
  let b := xget f (bitsOf w 20 5)
  let pc : DWord := BitVec.ofNat 64 f.pc
  let link : DWord := pc + BitVec.ofNat 64 n
  match bitsOf w 0 7 with
  | 0x37 => f.result n rd (immU w)
  | 0x17 => f.result n rd (pc + immU w)
  | 0x6F => (xput f rd link).goto (pc + immJ w)
  | 0x67 => if f3 = 0 then (xput f rd link).goto ((a + immI w) >>> 1 <<< 1) else bad
  | 0x63 => match branchTaken f3 a b with
    | some true => f.goto (pc + immB w)
    | some false => f.goto link
    | none => bad
  | 0x03 => match loadShape f3 with
    | some (k, signed) =>
      let x := feLoad f (a + immI w).toNat k
      f.result n rd (if signed then sext64 (8 * k) x else BitVec.ofNat 64 x)
    | none => bad
  | 0x23 => if f3 < 4 then { feStore f (a + immS w).toNat (2 ^ f3) b.toNat with pc := link.toNat } else bad
  | 0x13 =>
    if (f3 = 1 && bitsOf w 26 6 != 0) || (f3 = 5 && bitsOf w 26 6 != 0 && bitsOf w 26 6 != 16) then bad
    else f.result n rd (aluOp f3 (f3 = 5 && bit w 30) a (immI w))
  | 0x1B =>
    if (f3 = 1 && f7 != 0) || (f3 = 5 && f7 != 0 && f7 != 32) then bad
    else match aluOp32 f3 (f3 = 5 && bit w 30) (a.truncate 32) ((immI w).truncate 32) with
      | some v => f.result n rd (v.signExtend 64)
      | none => bad
  | 0x33 =>
    if f7 = 1 then f.result n rd (mulDiv f3 a b)
    else if f7 = 0 || (f7 = 32 && (f3 = 0 || f3 = 5)) then f.result n rd (aluOp f3 (f7 = 32) a b)
    else bad
  | 0x3B =>
    if f7 = 1 then
      if f3 = 0 || 4 ≤ f3 then f.result n rd ((mulDiv f3 (a.truncate 32 : Word) (b.truncate 32)).signExtend 64) else bad
    else if f7 = 0 || (f7 = 32 && (f3 = 0 || f3 = 5)) then
      match aluOp32 f3 (f7 = 32) (a.truncate 32) (b.truncate 32) with
      | some v => f.result n rd (v.signExtend 64)
      | none => bad
    else bad
  | 0x0F => if f3 = 0 then f.goto link else bad
  | 0x2F => amoTurn f n w bad
  | 0x73 => systemTurn f n w bad
  | _ => bad

/-! ## The C extension: the 32-bit word that a 16-bit one stands for -/

/-- Words of the I, S, B, J, R and U formats. -/
def mkI (op f3 rd rs1 imm : Nat) : Nat := op + rd * 2 ^ 7 + f3 * 2 ^ 12 + rs1 * 2 ^ 15 + imm % 2 ^ 12 * 2 ^ 20
def mkS (f3 rs1 rs2 imm : Nat) : Nat :=
  0x23 + imm % 2 ^ 5 * 2 ^ 7 + f3 * 2 ^ 12 + rs1 * 2 ^ 15 + rs2 * 2 ^ 20 + imm / 2 ^ 5 % 2 ^ 7 * 2 ^ 25
def mkB (f3 rs1 imm : Nat) : Nat :=
  0x63 + bitsOf imm 11 1 * 2 ^ 7 + bitsOf imm 1 4 * 2 ^ 8 + f3 * 2 ^ 12 + rs1 * 2 ^ 15 + bitsOf imm 5 6 * 2 ^ 25 + bitsOf imm 12 1 * 2 ^ 31
def mkJ (rd imm : Nat) : Nat :=
  0x6F + rd * 2 ^ 7 + bitsOf imm 12 8 * 2 ^ 12 + bitsOf imm 11 1 * 2 ^ 20 + bitsOf imm 1 10 * 2 ^ 21 + bitsOf imm 20 1 * 2 ^ 31
def mkR (op f3 f7 rd rs1 rs2 : Nat) : Nat := op + rd * 2 ^ 7 + f3 * 2 ^ 12 + rs1 * 2 ^ 15 + rs2 * 2 ^ 20 + f7 * 2 ^ 25
/-- An n-bit two's-complement field as one of m bits. -/
def widen (n m x : Nat) : Nat := if bit x (n - 1) then 2 ^ m - 2 ^ n + x else x
/-- Quadrant 0: accesses on the registers x8 to x15. -/
def expand0 (h : Nat) : Option Nat :=
  let r1 := 8 + bitsOf h 7 3
  let r2 := 8 + bitsOf h 2 3
  let u4 := bitsOf h 11 2 * 2 ^ 4 + bitsOf h 7 4 * 2 ^ 6 + bitsOf h 6 1 * 2 ^ 2 + bitsOf h 5 1 * 2 ^ 3
  let ow := bitsOf h 10 3 * 2 ^ 3 + bitsOf h 6 1 * 2 ^ 2 + bitsOf h 5 1 * 2 ^ 6
  let od := bitsOf h 10 3 * 2 ^ 3 + bitsOf h 5 2 * 2 ^ 6
  match bitsOf h 13 3 with
  | 0 => if u4 = 0 then none else some (mkI 0x13 0 r2 2 u4)
  | 2 => some (mkI 0x03 2 r2 r1 ow)
  | 3 => some (mkI 0x03 3 r2 r1 od)
  | 6 => some (mkS 2 r1 r2 ow)
  | 7 => some (mkS 3 r1 r2 od)
  | _ => none
/-- Quadrant 1: arithmetic, jumps and branches. -/
def expand1 (h : Nat) : Option Nat :=
  let rd := bitsOf h 7 5
  let r1 := 8 + bitsOf h 7 3
  let r2 := 8 + bitsOf h 2 3
  let i6 := bitsOf h 12 1 * 2 ^ 5 + bitsOf h 2 5
  let sp := bitsOf h 12 1 * 2 ^ 9 + bitsOf h 6 1 * 2 ^ 4 + bitsOf h 5 1 * 2 ^ 6 + bitsOf h 3 2 * 2 ^ 7 + bitsOf h 2 1 * 2 ^ 5
  let j := bitsOf h 12 1 * 2 ^ 11 + bitsOf h 11 1 * 2 ^ 4 + bitsOf h 9 2 * 2 ^ 8 + bitsOf h 8 1 * 2 ^ 10 + bitsOf h 7 1 * 2 ^ 6
    + bitsOf h 6 1 * 2 ^ 7 + bitsOf h 3 3 * 2 + bitsOf h 2 1 * 2 ^ 5
  let b := bitsOf h 12 1 * 2 ^ 8 + bitsOf h 10 2 * 2 ^ 3 + bitsOf h 5 2 * 2 ^ 6 + bitsOf h 3 2 * 2 + bitsOf h 2 1 * 2 ^ 5
  match bitsOf h 13 3 with
  | 0 => some (mkI 0x13 0 rd rd (widen 6 12 i6))
  | 1 => if rd = 0 then none else some (mkI 0x1B 0 rd rd (widen 6 12 i6))
  | 2 => some (mkI 0x13 0 rd 0 (widen 6 12 i6))
  | 3 => if rd = 2 then (if sp = 0 then none else some (mkI 0x13 0 2 2 (widen 10 12 sp)))
    else if i6 = 0 then none else some (0x37 + rd * 2 ^ 7 + widen 6 20 i6 * 2 ^ 12)
  | 4 => match bitsOf h 10 2 with
    | 0 => some (mkI 0x13 5 r1 r1 i6)
    | 1 => some (mkI 0x13 5 r1 r1 (i6 + 2 ^ 10))
    | 2 => some (mkI 0x13 7 r1 r1 (widen 6 12 i6))
    | _ =>
      let wide := bitsOf h 12 1
      match bitsOf h 5 2 with
      | 0 => some (mkR (if wide = 1 then 0x3B else 0x33) 0 32 r1 r1 r2)
      | 1 => some (if wide = 1 then mkR 0x3B 0 0 r1 r1 r2 else mkR 0x33 4 0 r1 r1 r2)
      | 2 => if wide = 1 then none else some (mkR 0x33 6 0 r1 r1 r2)
      | _ => if wide = 1 then none else some (mkR 0x33 7 0 r1 r1 r2)
  | 5 => some (mkJ 0 (widen 12 21 j))
  | 6 => some (mkB 0 r1 (widen 9 13 b))
  | _ => some (mkB 1 r1 (widen 9 13 b))
/-- Quadrant 2: shifts, accesses by the stack pointer, moves and jumps. -/
def expand2 (h : Nat) : Option Nat :=
  let rd := bitsOf h 7 5
  let rs2 := bitsOf h 2 5
  let i6 := bitsOf h 12 1 * 2 ^ 5 + rs2
  match bitsOf h 13 3 with
  | 0 => some (mkI 0x13 1 rd rd i6)
  | 2 => if rd = 0 then none else some (mkI 0x03 2 rd 2 (bitsOf h 12 1 * 2 ^ 5 + bitsOf h 4 3 * 2 ^ 2 + bitsOf h 2 2 * 2 ^ 6))
  | 3 => if rd = 0 then none else some (mkI 0x03 3 rd 2 (bitsOf h 12 1 * 2 ^ 5 + bitsOf h 5 2 * 2 ^ 3 + bitsOf h 2 3 * 2 ^ 6))
  | 4 =>
    if bitsOf h 12 1 = 0 then
      if rs2 ≠ 0 then some (mkR 0x33 0 0 rd 0 rs2) else if rd = 0 then none else some (mkI 0x67 0 0 rd 0)
    else if rs2 ≠ 0 then some (mkR 0x33 0 0 rd rd rs2)
    else if rd = 0 then some 0x100073 else some (mkI 0x67 0 1 rd 0)
  | 6 => some (mkS 2 2 rs2 (bitsOf h 9 4 * 2 ^ 2 + bitsOf h 7 2 * 2 ^ 6))
  | 7 => some (mkS 3 2 rs2 (bitsOf h 10 3 * 2 ^ 3 + bitsOf h 7 3 * 2 ^ 6))
  | _ => none
/-- The 32-bit word that a 16-bit one stands for. -/
def expand (h : Nat) : Option Nat :=
  match h % 4 with
  | 0 => expand0 h
  | 1 => expand1 h
  | _ => expand2 h
/-- A front-end core executes the base word at its program counter, whose 32 bits are w. -/
def baseTurn (f : Fe) (w : Nat) : Fe :=
  if w % 4 = 3 then wordTurn f 4 w (f.trap 2 (BitVec.ofNat 64 w))
  else
    let h := w % 2 ^ 16
    let bad := f.trap 2 (BitVec.ofNat 64 h)
    match expand h with
    | some x => wordTurn f 2 x bad
    | none => bad

end Sys2Proof.Machine
end

