-- ==== Sys2Proof/Machine/Uniform.lean ====
section
/-! DEFINITION. The uniform instructions (R104 to R112). -/

namespace Sys2Proof.Machine

/-- 1 or 0 (R106 KCMP). -/
def boolD (b : Bool) : DWord := if b then 1 else 0
/-- A comparison of 64-bit values (R67, R106). -/
def kcmpHolds (cc : Cc) (a b : DWord) : Bool :=
  match cc with
  | .eq => a == b | .ne => a != b
  | .ltI => a.slt b | .leI => a.sle b | .gtI => b.slt a | .geI => b.sle a
  | .ltN => a.ult b | .leN => a.ule b | .gtN => b.ult a | .geN => b.ule a
def dlt (signed : Bool) (a b : DWord) : Bool := if signed then a.slt b else a.ult b
def kmulhVal (signed : Bool) (a b : DWord) : DWord :=
  if signed then BitVec.ofInt 64 (a.toInt * b.toInt / 2 ^ 64) else BitVec.ofNat 64 (a.toNat * b.toNat / 2 ^ 64)
def kshlVal (a b : DWord) : DWord := if 64 ≤ b.toNat then 0 else a <<< b.toNat
def kshrVal (a b : DWord) : DWord := if 64 ≤ b.toNat then 0 else a >>> b.toNat
def ksraVal (a b : DWord) : DWord := a.sshiftRight (min b.toNat 64)
def kminVal (signed : Bool) (a b : DWord) : DWord := if dlt signed b a then b else a
def kmaxVal (signed : Bool) (a b : DWord) : DWord := if dlt signed a b then b else a
/-- KBFE's field (R106). -/
def kbfeVal (signed : Bool) (a b : DWord) : DWord :=
  let pos := b.toNat % 64
  let w := min (b.toNat / 64 % 64 + 1) (64 - pos)
  let x := a.toNat / 2 ^ pos % 2 ^ w
  if signed then BitVec.ofInt 64 (sextInt w x) else BitVec.ofNat 64 x

/-- A register-layout operation (R105, R106). -/
def kop (s : State) (d a : Fin 64) (b : KSrc) (f : DWord → DWord → DWord) : Out := .next (kwrite s d (f (kreg s a) (ksrc s b)))
/-- An immediate-layout operation: KD is source A too (R57, R105). -/
def kopImm (s : State) (d : Fin 64) (i : BitVec 12) (f : DWord → DWord → DWord) : Out :=
  .next (kwrite s d (f (kreg s d) (i.signExtend 64)))

/-- KADD (R106). -/
def execKadd (d a : Fin 64) (b : KSrc) (s : State) : Out := kop s d a b (· + ·)
/-- KSUB (R106). -/
def execKsub (d a : Fin 64) (b : KSrc) (s : State) : Out := kop s d a b (· - ·)
/-- KMUL (R106). -/
def execKmul (d a : Fin 64) (b : KSrc) (s : State) : Out := kop s d a b (· * ·)
/-- KMULH (R106). -/
def execKmulh (sg : Bool) (d a : Fin 64) (b : KSrc) (s : State) : Out := kop s d a b (kmulhVal sg)
/-- KAND (R106). -/
def execKand (d a : Fin 64) (b : KSrc) (s : State) : Out := kop s d a b (· &&& ·)
/-- KOR (R106). -/
def execKor (d a : Fin 64) (b : KSrc) (s : State) : Out := kop s d a b (· ||| ·)
/-- KXOR (R106). -/
def execKxor (d a : Fin 64) (b : KSrc) (s : State) : Out := kop s d a b (· ^^^ ·)
/-- KSHL (R106). -/
def execKshl (d a : Fin 64) (b : KSrc) (s : State) : Out := kop s d a b kshlVal
/-- KSHR (R106). -/
def execKshr (d a : Fin 64) (b : KSrc) (s : State) : Out := kop s d a b kshrVal
/-- KSRA (R106). -/
def execKsra (d a : Fin 64) (b : KSrc) (s : State) : Out := kop s d a b ksraVal
/-- KMIN (R106). -/
def execKmin (sg : Bool) (d a : Fin 64) (b : KSrc) (s : State) : Out := kop s d a b (kminVal sg)
/-- KMAX (R106). -/
def execKmax (sg : Bool) (d a : Fin 64) (b : KSrc) (s : State) : Out := kop s d a b (kmaxVal sg)
/-- KCMP (R106). -/
def execKcmp (cc : Cc) (d a : Fin 64) (b : KSrc) (s : State) : Out := kop s d a b fun x y => boolD (kcmpHolds cc x y)
/-- KSEL: the old KD is the condition (R106). -/
def execKsel (d a : Fin 64) (b : KSrc) (s : State) : Out := kop s d a b fun x y => if kreg s d ≠ 0 then x else y
/-- KMOV (R106). -/
def execKmov (d a : Fin 64) (s : State) : Out := .next (kwrite s d (kreg s a))
/-- KPOPC (R106). -/
def execKpopc (d a : Fin 64) (s : State) : Out := .next (kwrite s d (BitVec.ofNat 64 (popc 64 (kreg s a).toNat)))
/-- KBFE (R106). -/
def execKbfe (sg : Bool) (d a : Fin 64) (b : KSrc) (s : State) : Out := kop s d a b (kbfeVal sg)

/-- KADD, immediate (R105). -/
def execKaddImm (d : Fin 64) (i : BitVec 12) (s : State) : Out := kopImm s d i (· + ·)
/-- KSUB, immediate (R105). -/
def execKsubImm (d : Fin 64) (i : BitVec 12) (s : State) : Out := kopImm s d i (· - ·)
/-- KMUL, immediate (R105). -/
def execKmulImm (d : Fin 64) (i : BitVec 12) (s : State) : Out := kopImm s d i (· * ·)
/-- KMULH, immediate (R105). -/
def execKmulhImm (sg : Bool) (d : Fin 64) (i : BitVec 12) (s : State) : Out := kopImm s d i (kmulhVal sg)
/-- KAND, immediate (R105). -/
def execKandImm (d : Fin 64) (i : BitVec 12) (s : State) : Out := kopImm s d i (· &&& ·)
/-- KOR, immediate (R105). -/
def execKorImm (d : Fin 64) (i : BitVec 12) (s : State) : Out := kopImm s d i (· ||| ·)
/-- KXOR, immediate (R105). -/
def execKxorImm (d : Fin 64) (i : BitVec 12) (s : State) : Out := kopImm s d i (· ^^^ ·)
/-- KSHL, immediate (R105). -/
def execKshlImm (d : Fin 64) (i : BitVec 12) (s : State) : Out := kopImm s d i kshlVal
/-- KSHR, immediate (R105). -/
def execKshrImm (d : Fin 64) (i : BitVec 12) (s : State) : Out := kopImm s d i kshrVal
/-- KSRA, immediate (R105). -/
def execKsraImm (d : Fin 64) (i : BitVec 12) (s : State) : Out := kopImm s d i ksraVal
/-- KMIN, immediate (R105). -/
def execKminImm (sg : Bool) (d : Fin 64) (i : BitVec 12) (s : State) : Out := kopImm s d i (kminVal sg)
/-- KMAX, immediate (R105). -/
def execKmaxImm (sg : Bool) (d : Fin 64) (i : BitVec 12) (s : State) : Out := kopImm s d i (kmaxVal sg)
/-- KCMP, immediate (R105). -/
def execKcmpImm (cc : Cc) (d : Fin 64) (i : BitVec 12) (s : State) : Out := kopImm s d i fun x y => boolD (kcmpHolds cc x y)
/-- KBFE, immediate (R57, R105). -/
def execKbfeImm (sg : Bool) (d : Fin 64) (i : BitVec 12) (s : State) : Out := kopImm s d i (kbfeVal sg)

/-- KLI, short (R107). -/
def execKli (d : Fin 64) (i : BitVec 15) (s : State) : Out := .next (kwrite s d (i.signExtend 64))
/-- KLI, literal (R107). -/
def execKliLiteral (d : Fin 64) (x : Word) (s : State) : Out := .next (kwrite s d (x.signExtend 64))
/-- KLIH (R107). -/
def execKlih (d : Fin 64) (x : Word) (s : State) : Out :=
  .next (kwrite s d (x ++ (kreg s d).truncate 32))

/-! ## Special registers (R109, R110) -/

/-- What KGET reads (R110). -/
def sregVal (s : State) (r : SReg) : DWord :=
  let g := s.issue.pre
  let t := team s g.team
  let gr := grid s t.grid
  let p := part s gr.part
  let idx (n : Nat) : DWord := if t.node.isSome then 0 else BitVec.ofNat 64 n
  match r with
  | .active => (activeMask g).zeroExtend 64
  | .retired => (retiredMask g).zeroExtend 64
  | .ixb => BitVec.ofNat 64 g.ixb
  | .status => g.status8.zeroExtend 64
  | .seed => g.seed
  | .sg => g.sg.zeroExtend 64
  | .calldepth => BitVec.ofNat 64 g.calls.length
  | .group => BitVec.ofNat 64 (g.num + g.role * 2 ^ 8)
  | .teamx => idx (t.index % gr.x)
  | .teamy => idx (t.index / gr.x % gr.y)
  | .teamz => idx (t.index / gr.x / gr.y)
  | .teami => idx t.index
  | .gridx => BitVec.ofNat 64 gr.x
  | .gridy => BitVec.ofNat 64 gr.y
  | .gridz => BitVec.ofNat 64 gr.z
  | .node => match t.node with
    | some n => BitVec.ofNat 64 (64 + n)
    | none => 0
  | .core => BitVec.ofNat 64 (g.core % 24 * 2 ^ 24 + g.core / 24 * 2 ^ 16 + g.core)
  | .part => BitVec.ofNat 64 (dieIndex p (dieOf g.core) * 2 ^ 8 + (partDies p).length)
  | .cycles => BitVec.ofNat 64 (g.cycles + (s.cycle - g.since))
  | .time => BitVec.ofNat 64 s.time
  | .epc => posWord g.trap.epc
  | .ecause => g.trap.ecause.zeroExtend 64
  | .einfo => g.trap.einfo
  | .emask => g.trap.emask.zeroExtend 64
  | .traplvl => boolD g.trap.lvl

/-- KGET (R109). -/
def execKget (d : Fin 64) (r : SReg) (s : State) : Out := .next (kwrite s d (sregVal s r))
/-- KSET: STATUS, SEED, and EPC at trap level 1; every other register, and EPC at level 0, raises illegal-opcode (R109, R110). -/
def execKset (r : SReg) (a : Fin 64) (s : State) : Out :=
  let x := kreg s a
  .next (match r with
    | .status => modCur s fun c => { c with status8 := x.truncate 8 }
    | .seed => modCur s fun c => { c with seed := x }
    | .epc => if s.issue.pre.trap.lvl then modCur s fun c => { c with trap := { c.trap with epc := wordPos x } }
              else raiseB s 6 0x02 s.issue.raw.toNat
    | _ => raiseB s 2 0x02 s.issue.raw.toNat)
/-- The index base becomes n, unless n is not below the allotment (R108). -/
def setIxb (s : State) (n : Nat) : State :=
  if s.issue.pre.regs ≤ n then raiseB s 6 0x03 n else modCur s fun c => { c with ixb := n }
/-- SETIX n (R108). -/
def execSetix (n : BitVec 8) (s : State) : Out := .next (setIxb s n.toNat)
/-- SETIX ka (R108). -/
def execSetixK (a : Fin 64) (s : State) : Out := .next (setIxb s (kreg s a).toNat)

end Sys2Proof.Machine
end

