-- ==== Sys2Proof/Machine/FrontEnd.lean ====
section
/-! DEFINITION. The front-end cores: mapped queues and their packets, the Xcokihan instructions, and their waits (R320, R321,
R323, R324, R327). -/

namespace Sys2Proof.Machine

/-! ## Front-end cores (R320, R321) -/

/-- The instruction completes with a result; what it waited for is over. -/
def feDone (s : State) (id rd : Nat) (v : DWord) : State :=
  modFe (dropWalks s (.fe id)) id fun f => { xput f rd v with pc := (f.pc + 4) % 2 ^ 64, wait := none, blocked := false }
/-- The die of a front-end core, and the partition that holds a die (R320, R329). -/
def feDie (id : Nat) : Nat := id / 4
def diePart (s : State) (d : Nat) : Option Nat := (s.parts.find? fun p => p.2.dies.getLsbD d).map (·.1)

/-! ## Mapped queues and their packets (R320, R323, R324) -/

/-- The mapped queue of a number: front-end core, slot, its state. -/
def findQueue (s : State) (p q : Nat) : Option (Nat × Nat × MQueue) :=
  (mappedQueues s).find? fun m => m.2.2.part = p && m.2.2.q = q
/-- Change the state of a mapped queue. -/
def modQueue (s : State) (p q : Nat) (f : MQueue → MQueue) : State :=
  { s with fes := mmap s.fes fun _ x => { x with slots := mmap x.slots fun _ m => if m.part = p && m.q = q then f m else m } }
/-- What reading a packet gives. -/
inductive Packet where
  /-- READ = WRITE -/
  | empty
  /-- ring index and the 64 bytes -/
  | ok (i : Nat) (x : BitVec 512)
  /-- an outcome of R160, or poison: the cause -/
  | bad (i : Nat) (cause : Nat)
  /-- the page is not present -/
  | wait (r : Xr) (va : Nat)
/-- Read the packet of ring index i in memory (R323). -/
def readPacket (s : State) (d p q i : Nat) : State × Packet :=
  let va := qPacketVa s p q i
  let (s, r) := xlateDie s d p (qCtx s p q) va false
  match r with
  | .ok pa _ => if poisoned s pa 64 then (s, .bad i 0x42) else (s, .ok i (BitVec.ofNat 512 (readNum s.mem pa 64)))
  | .fault c => (s, .bad i c.toNat)
  | .poison _ => (s, .bad i 0x42)
  | r => (s, .wait r va)
/-- Take the packet that comes up for execution: a prefetched one where its header still stands in memory; else that packet
and the later prefetched ones are discarded and it is fetched again (R324). -/
def takePacket (s : State) (d p q : Nat) (m : MQueue) : State × Packet :=
  let i := qRead s p q
  if i = qWrite s p q then (s, .empty)
  else match readPacket s d p q i with
    | (s, .ok i x) => match m.pre.find? fun y => y.1 = i with
      | some y => if y.2.truncate 64 = x.truncate 64 then (s, .ok i y.2)
        else (modQueue s p q fun m => { m with pre := m.pre.filter fun z => decide (z.1 < i) }, .ok i x)
      | none => (s, .ok i x)
    | r => r

/-! ## Monitors on data (R170, R198, R321) -/

/-- A party waits for a write to the line of a word; without a monitor it reads again in 2 µs (R170, R321). -/
def armData (s : State) (who : Party) (p ctx va pa : Nat) : State :=
  let d := paDie pa
  let line := pa / 128
  let later (s : State) : State :=
    (addWalk s { part := p, ctx := ctx, va := va, write := false, who := who, die := d, retry := true, notBefore := s.time + Config.rereadNs }).1
  if !cacheable pa then later s
  else match (die s d).mon.find? fun m => m.line = line with
    | some _ => modDie s d fun x =>
      { x with mon := x.mon.map fun k => if k.line = line then { k with who := addOnce k.who who } else k }
    | none =>
      if (die s d).mon.length < Config.monitors then modDie s d fun x => { x with mon := x.mon ++ [{ line := line, who := [who] }] }
      else later s

/-! ## The instructions (R321) -/

/-- A page that is not present holds a front-end core (R324, R327). -/
def feWait (s : State) (id p ctx va : Nat) (r : Xr) : State :=
  modFe (waitPage s (.fe id) p ctx (feDie id) va r false) id fun f => { f with blocked := true }
/-- FETCHR (R321, R324). -/
def execFetchr (rd rs1 : Fin 32) (s : State) : Out :=
  let id := s.feCur
  let f := fe s id
  let a := xget f rs1.val
  .next (match if a.toNat < 16 then mget f.slots a.toNat else none with
    | none => feTrap s id 24 a
    | some m =>
      let s := modFe s id fun f => { f with cur := some a.toNat }
      if (devRead s (qAddr s m.part m.q) 64).isNone then feTrap s id 24 a
      else match takePacket s (feDie id) m.part m.q m with
        | (s, .empty) => feDone s id rd.val (BitVec.allOnes 64)
        | (s, .ok i x) => feDone (modFe s id fun f => { f with buf := x }) id rd.val (BitVec.ofNat 64 i)
        | (s, .bad _ _) => feTrap s id 24 a
        | (s, .wait r va) => feWait s id m.part (qCtx s m.part m.q) va r)
/-- BFX (R106, R321). -/
def execBfx (rd rs1 rs2 : Fin 32) (s : State) : Out :=
  let id := s.feCur
  let f := fe s id
  let b := xget f rs2.val
  .next (if b.toNat / 2 ^ 12 ≠ 0 then feTrap s id 25 b else feDone s id rd.val (kbfeVal false (xget f rs1.val) b))
/-- The current queue: R321 names it for SWAIT and does not say which it is; the model takes the slot of the last FETCHR (assumption
102). -/
def curQueue (f : Fe) : Option MQueue := f.cur.bind fun i => mget f.slots i
/-- SWAIT reads its word at the home: it ends, waits, or faults; one that has no current queue, whose context would give the
translation, raises signal-fault (R321, assumption 102). -/
def swaitEval (s : State) (id : Nat) : State :=
  let f := fe s id
  match f.wait with
  | none => s
  | some (va, v, rd) =>
    match curQueue f with
    | none => feTrap s id 26 (BitVec.ofNat 64 va)
    | some m =>
      let ctx := qCtx s m.part m.q
      let (s, r) := xlateDie s (feDie id) m.part ctx va false
      match r with
      | .ok pa _ =>
        let x : DWord := BitVec.ofNat 64 (readNum s.mem pa 8)
        let s := modFe s id fun f => { f with last := x }
        if v.toNat ≤ x.toNat then feDone s id rd x else armData s (.fe id) m.part ctx va pa
      | .fault _ => feTrap s id 26 (BitVec.ofNat 64 va)
      | .poison _ => feTrap s id 26 (BitVec.ofNat 64 va)
      | r => waitPage s (.fe id) m.part ctx (feDie id) va r false
/-- SWAIT (R321). -/
def execSwait (rd rs1 rs2 : Fin 32) (s : State) : Out :=
  let id := s.feCur
  let f := fe s id
  let a := xget f rs1.val
  .next (if a.toNat % 8 ≠ 0 then feTrap s id 26 a
    else swaitEval (modFe s id fun f => { f with wait := some (a.toNat, xget f rs2.val, rd.val) }) id)
/-- DISP (R321, R327). -/
def execDisp (rd rs1 rs2 : Fin 32) (s : State) : Out :=
  let id := s.feCur
  let f := fe s id
  let ctx := xget f rs2.val
  .next (match diePart s (feDie id) with
    | none => feTrap s id 27 ctx
    | some p =>
      if !ctxValid s p ctx.toNat then feTrap s id 27 ctx
      else match dispatch s (feDie id) p ctx.toNat (xget f rs1.val).toNat 0 none fun s r va => feWait s id p ctx.toNat va r with
        | .wait s => s
        | .bad s off => feDone s id rd.val (BitVec.ofNat 64 (2 ^ 63 + off))
        | .ok s _ h => feDone s id rd.val (BitVec.ofNat 64 h))
/-- A front-end core goes on after a wait. -/
def wakeFe (s : State) (id : Nat) : State := swaitEval (modFe s id fun f => { f with blocked := false }) id
/-- SWAIT_WAKE (R321). -/
def execSwaitWake (id : Nat) (s : State) : Out := .next (swaitEval s id)
/-- A retry without a monitor is due: its number. -/
def retryDue (s : State) (who : Party) : Option Nat :=
  (s.walks.find? fun w => w.2.retry && w.2.who = who && decide (w.2.notBefore ≤ s.time)).map (·.1)
/-- SWAIT_REREAD (R321). -/
def execSwaitReread (id : Nat) (s : State) : Out :=
  .next (match retryDue s (.fe id) with
    | some w => wakeFe { s with walks := mdel s.walks w } id
    | none => s)

/-! ## A front-end core's turn (R320, R321) -/

/-- The 32 bits at the program counter. -/
def feWord (f : Fe) : Nat := ofBytes ((List.range 4).map fun i => cget 0 f.imem (f.pc + i))
/-- A front-end core executes its next instruction: an Xcokihan word, an illegal word of custom-0, or a word of the base set (R320,
R321). -/
def feTurn (ex : Instr → State → Out) (id : Nat) (s : State) : Out :=
  let f := fe s id
  let w := feWord f
  if !f.running || f.blocked || f.wait.isSome then .next s
  else if w % 128 = 0x0B then
    match decodeRv w with
    | .ok i => ex i { s with feCur := id }
    | .error _ => .next (feTrap s id 2 (BitVec.ofNat 64 w))
  else .next (modFe s id fun f => baseTurn f w)

end Sys2Proof.Machine
end

