-- ==== Sys2Proof/Machine/Queues.lean ====
section
/-! DEFINITION. Queues: their packets, and enabling, mapping, unmapping and waking them (R323 to R326, R335, R336). -/

namespace Sys2Proof.Machine

/-! ## A packet's turn (R324 to R326) -/

/-- A 64-bit field of a packet. -/
def pktField (x : BitVec 512) (o : Nat) : Nat := x.toNat / 2 ^ (8 * o) % 2 ^ 64
def pktKind (x : BitVec 512) : Nat := x.toNat % 2 ^ 8
/-- A kind or a reserved field that R325 refuses. -/
def badPacket (x : BitVec 512) : Bool :=
  let k := pktKind x
  k = 0 || decide (9 ≤ k) || x.toNat / 2 ^ 8 % 2 ^ 24 != 0 || (k = 1 && pktField x 0x18 / 2 ^ 32 != 0)
    || (k = 6 && (pktField x 0x08 / 2 ^ 23 != 0 || pktField x 0x10 / 4 != 0 || pktField x 0x18 / 2 ^ 32 != 0))
/-- A queue may execute its packets: it is enabled without error after lockdown, does not wait, and its context runs
(R323, R326, R330, R332, R382). A mapped queue whose EN is cleared keeps its slot and executes nothing (assumption 113). -/
def queueRuns (s : State) (p q : Nat) (m : MQueue) : Bool :=
  let f := qFlags s p q
  let ctx := qCtx s p q
  s.locked && bit f 0 && !bit f 1 && !m.waiting && scheduled s p ctx && !(part s p).stopped.contains ctx
/-- The packet in execution completes: READ advances (R325). -/
def qDone (s : State) (p q i : Nat) : State :=
  let s := qPut (dropWalks s (.queue p q)) p q 0x10 8 ((i + 1) % 2 ^ 64)
  let s := if bit (qFlags s p q) 4 then qFlag s p q 4 false else s
  modQueue s p q fun m => { m with half := none, waiting := false, wakeSeen := false, pre := m.pre.filter fun y => decide (i < y.1) }
/-- The queue waits for a page (R324). -/
def qWait (s : State) (p q va : Nat) (r : Xr) (write : Bool) : State :=
  modQueue (waitPage s (.queue p q) p (qCtx s p q) (queueDie s p q) va r write) p q fun m => { m with waiting := true }
/-- Run the packet that comes up for execution; the die is the front end's that serves the queue. -/
def withPacket (s : State) (p q : Nat) (k : State → Nat → MQueue → Nat → BitVec 512 → State) : State :=
  match findQueue s p q with
  | none => s
  | some (id, _, m) =>
    if !queueRuns s p q m then s
    else match takePacket s (feDie id) p q m with
      | (s, .empty) => s
      | (s, .bad i c) => qError s p q i c
      | (s, .wait r va) => qWait s p q va r false
      | (s, .ok i x) => if badPacket x then qError s p q i 0x48 else k s (feDie id) m i x
/-- Run a packet of one kind. -/
def onKind (s : State) (p q kind : Nat) (k : State → Nat → MQueue → Nat → BitVec 512 → State) : State :=
  withPacket s p q fun s d m i x => if pktKind x = kind then k s d m i x else s
/-- Eight bytes at a VA in the queue's context, for reading or writing; not present makes the queue wait, another outcome
sets ERR (R324). -/
def qBytes (s : State) (d p q i va : Nat) (write : Bool) (k : State → Ranges → State) : State :=
  let (s, r) := mapRange d p (qCtx s p q) write 3 va 0 8 s
  match r with
  | .ok ps => k s ps
  | .error (x, va) => match pieceCause x with
    | some c => qError s p q i c.toNat
    | none => qWait s p q va x write
/-- The number that pieces hold. -/
def piecesNum (s : State) (ps : Ranges) : Nat := ofBytes ((List.range 8).map fun i => readByte s.mem (pieceAt ps i))
/-- An 8-byte atomic add; one that reads a poisoned word performs no update (R325, R347). -/
def qAdd (s : State) (d p q i va addend : Nat) (k : State → State) : State :=
  qBytes s d p q i va true fun s ps =>
    if (List.range 8).any fun j => s.memBad.contains (pieceAt ps j / 4) then qError s p q i 0x42
    else k (piecesWrite s ps 8 ((piecesNum s ps + addend) % 2 ^ 64))
/-- PACKET_FETCH: the fetcher reads one more packet ahead, never at or past WRITE (R324). -/
def execPacketFetch (p q : Nat) (s : State) : Out :=
  .next (match findQueue s p q with
    | none => s
    | some (id, _, m) =>
      if !queueRuns s p q m then s
      else
        let r := qRead s p q
        match ((List.range 17).map (r + ·)).find? fun i => decide (i < qWrite s p q) && m.pre.all fun y => y.1 != i with
        | none => s
        | some i => match readPacket s (feDie id) p q i with
          | (s, .ok i x) => modQueue s p q fun m => { m with pre := m.pre ++ [(i, x)] }
          | _ => s)

/-! ## The packets (R325) -/

/-- LAUNCH (R325, R327). -/
def execLaunch (p q : Nat) (s : State) : Out :=
  .next (onKind s p q 1 fun s d _ i x =>
    let ctx := qCtx s p q
    let status := pktField x 0x10
    match dispatch s d p ctx (pktField x 0x08) (pktField x 0x18) (some (q, i, status)) fun s r va => qWait s p q va r false with
    | .wait s => s
    | .ok s _ _ => qDone s p q i
    | .bad s off =>
      let (s, gid) := freshId s
      let g : Grid := { part := p, ctx := ctx, launch := some (q, i, status), ending := .refused off, isOver := true, order := s.launches }
      qDone { s with grids := mput s.grids gid g } p q i)
/-- WRITE (R325). -/
def execWrite (p q : Nat) (s : State) : Out :=
  .next (onKind s p q 2 fun s d _ i x =>
    qBytes s d p q i (pktField x 0x08) true fun s ps => qDone (piecesWrite s ps 8 (pktField x 0x10)) p q i)
/-- SIGNAL (R325). -/
def execSignal (p q : Nat) (s : State) : Out :=
  .next (onKind s p q 3 fun s d _ i x => qAdd s d p q i (pktField x 0x08) (pktField x 0x10) fun s => qDone s p q i)
/-- WAIT's evaluation: it completes, or waits under a monitor with its address and value kept (R321, R325). -/
def waitPacket (s : State) (d p q i : Nat) (x : BitVec 512) (arm : Bool) : State :=
  let va := pktField x 0x08
  let v := pktField x 0x10
  qBytes s d p q i va false fun s ps =>
    if v ≤ piecesNum s ps then qDone s p q i
    else if !arm then s
    else
      let s := qFlag (qPut (qPut s p q 0x20 8 va) p q 0x28 8 v) p q 4 true
      let s := armData s (.queue p q) p (qCtx s p q) va (pieceAt ps 0)
      modQueue s p q fun m => { m with waiting := true, wakeSeen := false }
/-- WAIT (R325). -/
def execWait (p q : Nat) (s : State) : Out := .next (onKind s p q 4 fun s d _ i x => waitPacket s d p q i x true)
/-- WAIT_SATISFIED: the word of a waiting queue has reached the value (R325). -/
def execWaitSatisfied (p q : Nat) (s : State) : Out :=
  .next (match findQueue s p q with
    | some (_, _, m) =>
      if m.waiting && bit (qFlags s p q) 4 then
        let t := onKind (modQueue s p q fun m => { m with waiting := false }) p q 4 fun s d _ i x => waitPacket s d p q i x false
        if qRead t p q = qRead s p q then s else t
      else s
    | none => s)
/-- The header of a packet (R324). -/
def pktHeader (x : BitVec 512) : DWord := x.truncate 64
/-- WRITE_SIGNAL: the write, then the signal; a write that has been performed is not performed again (R324 to R326). -/
def execWriteSignal (p q : Nat) (s : State) : Out :=
  .next (onKind s p q 5 fun s d m i x =>
    let sig (s : State) : State := qAdd s d p q i (pktField x 0x18) (pktField x 0x20) fun s => qDone s p q i
    if m.half = some (pktHeader x) then sig s
    else qBytes s d p q i (pktField x 0x08) true fun s ps =>
      sig (modQueue (piecesWrite s ps 8 (pktField x 0x10)) p q fun m => { m with half := some (pktHeader x) }))
/-- The die at whose front end a queue registers on an object: a die-scope object's own where it lies in the partition, else
the partition's lowest (assumption 15). -/
def phaserDie (s : State) (p : Nat) (o : Phaser) : Nat :=
  let low := (partDies (part s p)).headD 0
  match o.scope, o.bound with
  | 1, some d => if (part s p).dies.getLsbD d then d else low
  | _, _ => low
/-- PHASER's join (R246, R325): an object that does not admit the queue is a refused packet (assumption 15). -/
def queueJoin (s : State) (p q i : Nat) (x : BitVec 512) (obj : Nat) (m : MQueue) : State :=
  match (queueHandle s p q).st with
  | .joining | .leaving => s
  | .bound => if m.half = some (pktHeader x) then qDone s p q i else qError s p q i 0x48
  | .unbound =>
    match mget s.phs obj with
    | none => qError s p q i 0x48
    | some o =>
      let d := phaserDie s p o
      let admitted := o.scope != 0 && (o.scope != 1 || o.bound.isNone || o.bound = some d) && (o.scope != 3 || s.pod)
      let theirs := o.marked || (o.here && (o.part != p || o.ctx != qCtx s p q))
      if theirs || !admitted || (!o.here && decide (Config.phasers ≤ liveObjects s)) then qError s p q i 0x48
      else
        let s := makeProxy s obj p (qCtx s p q)
        let s := modPh s obj fun o => { o with members := o.members + 1, bound := if o.scope = 1 then some d else o.bound }
        let s := putQueueHandle s p q { st := .joining, signals := true, waits := true, id := BitVec.ofNat 24 (idWord obj o) }
        let s := modQueue s p q fun m => { m with half := some (pktHeader x) }
        changeUp (growPath s obj (feLeaf d)) obj (feLeaf d) [] (.join 1 (queueRid s d q))
/-- PHASER (R325): the queue's handle acts as PHWAIT, PHJOIN, PHSIG.w or PHLEAVE. -/
def execPhaser (p q : Nat) (s : State) : Out :=
  .next (onKind s p q 6 fun s _ m i x =>
    let op := pktField x 0x10
    if op = 1 then queueJoin s p q i x (pktField x 0x08 % 2 ^ 20) m
    else
      let h := queueHandle s p q
      if h.st ≠ .bound then qError s p q i 0x48
      else
        let o := phaserOf s h.obj
        let d := phaserDie s p o
        let leaf := feLeaf d
        let n := phNode o leaf
        let h := { h with rid := queueRid s d q }
        if op = 0 then (if phaseDone (nodeC n) (BitVec.ofNat 32 (pktField x 0x18)) then qDone s p q i else s)
        else if op = 2 then
          if h.s != n.o && h.s != n.o + 1 && phaseDone (h.s - 2) n.o then s
          else qDone (signalAt (putQueueHandle s p q { h with s := h.s + 1 }) h.obj leaf h.s h.rid) p q i
        else qDone (leaveLeaf (putQueueHandle s p q { h with st := .leaving }) leaf h) p q i)
/-- TIMESTAMP (R325). -/
def execTimestamp (p q : Nat) (s : State) : Out :=
  .next (onKind s p q 7 fun s d _ i x =>
    qBytes s d p q i (pktField x 0x08) true fun s ps => qDone (piecesWrite s ps 8 (s.time % 2 ^ 64)) p q i)
/-- FENCE: every earlier LAUNCH of the queue has ended (R325). -/
def execFencePacket (p q : Nat) (s : State) : Out :=
  .next (onKind s p q 8 fun s _ _ i _ =>
    if s.grids.any fun g => g.2.part = p && (g.2.launch.map (·.1)) = some q then s else qDone s p q i)

/-! ## Enabling, mapping and unmapping (R320, R323, R335, R336) -/

/-- The check of a descriptor (R323). -/
def descriptorOk (s : State) (p q : Nat) : Bool :=
  let cfg := qField s p q 8 4
  let l := cfg % 32
  ctxValid s p (qCtx s p q) && decide (4 ≤ l) && decide (l ≤ 20) && cfg / 2 ^ 5 % 2 ^ 11 = 0 && cfg / 2 ^ 28 = 0
    && qFlags s p q / 2 ^ 5 = 0
/-- The free slots of a partition's front ends. -/
def freeSlots (s : State) (p : Nat) : List (Nat × Nat) :=
  ((partDies (part s p)).map fun d => ((List.range 4).map fun c => ((List.range 16).filter fun i =>
    (mget (fe s (4 * d + c)).slots i).isNone).map fun i => (4 * d + c, i)).flatten).flatten
/-- Map a queue into a free slot, checking its descriptor; PW is cleared, and a WAIT is evaluated before anything else, being
the packet at READ; where no slot is free a wake is kept in PW (R323, R335, R336). -/
def mapQueue (s : State) (p q : Nat) (wake : Bool := false) : State :=
  let f := qFlags s p q
  if !s.locked || !bit f 0 || bit f 1 || (findQueue s p q).isSome then s
  else if !descriptorOk s p q then qError s p q (qRead s p q) 0x49
  else
    let free := freeSlots s p
    match free[Config.freeIndex s.fresh % free.length]? with
    | none => if wake then qFlag s p q 2 true else s
    | some (id, i) =>
      let s := modFe { s with fresh := s.fresh + 1 } id fun x => { x with slots := mput x.slots i { part := p, q := q } }
      qFlag (qFlag s p q 3 true) p q 2 false
/-- The condition of a saved WAIT holds (R335). -/
def waitMet (s : State) (p q : Nat) : Bool :=
  match peekVa s p (qCtx s p q) (qField s p q 0x20 8) 8 with
  | some x => decide (qField s p q 0x28 8 ≤ x)
  | none => false
/-- QUEUE_ENABLE: the descriptor is checked when software sets EN, of a queue that is mapped too; an unmapped one is mapped (R323). -/
def execQueueEnable (p q : Nat) (s : State) : Out :=
  let f := qFlags s p q
  .next (if (findQueue s p q).isNone then mapQueue s p q
    else if s.locked && bit f 0 && !bit f 1 && !descriptorOk s p q then qError s p q (qRead s p q) 0x49
    else s)
/-- An unmapped queue has a reason to run (R335, R336). -/
def mapReason (s : State) (p q : Nat) : Bool :=
  let f := qFlags s p q
  bit f 2 || (!bit f 4 && qRead s p q != qWrite s p q)
/-- QUEUE_REMAP (R335, R336). -/
def execQueueRemap (p q : Nat) (s : State) : Out := .next (if mapReason s p q then mapQueue s p q else s)
/-- QUEUE_REPOLL: an unmapped queue whose saved WAIT is satisfied is mapped (R335). -/
def execQueueRepoll (p q : Nat) (s : State) : Out :=
  .next (if (findQueue s p q).isNone && bit (qFlags s p q) 4 && waitMet s p q then mapQueue s p q else s)
/-- DOORBELL: WRITE is set; an unmapped queue that it passes READ of is mapped (R323, R335, R369). -/
def execDoorbell (p q : Nat) (v : DWord) (s : State) : Out :=
  let s := qPut s p q 0x18 8 v.toNat
  .next (if (findQueue s p q).isNone && mapReason s p q then mapQueue s p q else s)
/-- WAKE_REGISTER: the queue's WAIT is evaluated again and a SWAIT on it ends; an unmapped queue is mapped, PW keeping the wake
until a slot is free (R321, R335, R336). -/
def execWakeRegister (p q : Nat) (s : State) : Out :=
  .next (match findQueue s p q with
    | some _ =>
      let s := modQueue s p q fun m => { m with wakeSeen := true, waiting := m.waiting && !bit (qFlags s p q) 4 }
      s.fes.foldl (fun s f => match f.2.wait, curQueue f.2 with
        | some (_, _, rd), some m => if m.part = p && m.q = q then feDone s f.1 rd f.2.last else s
        | _, _ => s) s
    | none => mapQueue s p q true)
/-- A partition has more enabled queues than mapped slots (R320, R335). -/
def tooManyQueues (s : State) (p : Nat) : Bool :=
  decide (64 * (partDies (part s p)).length < ((List.range 1024).filter fun q => bit (qFlags s p q) 0).length)
/-- The packet at READ is half done: its first step has been performed and its second has not, and it is still that packet, or cannot be
read (R324, R326). -/
def halfDone (s : State) (p : Nat) (m : MQueue) : Bool := match m.half with
  | none => false
  | some h => ((peekVa s p (qCtx s p m.q) (qPacketVa s p m.q (qRead s p m.q)) 8).getD h.toNat) = h.toNat
/-- QUEUE_UNMAP: where enabled queues outnumber the slots, an idle queue's slot is freed; a wake that has come since sets PW before MAPPED
clears; a packet half done is finished first (R326, R335, R336). -/
def execQueueUnmap (p q : Nat) (s : State) : Out :=
  .next (match findQueue s p q with
    | none => s
    | some (id, i, m) =>
      let waits := bit (qFlags s p q) 4
      if !tooManyQueues s p || halfDone s p m || !(m.waiting || waits || qRead s p q = qWrite s p q) then s
      else
        let s := if m.wakeSeen || (waits && waitMet s p q) then qFlag s p q 2 true else s
        modFe (qFlag s p q 3 false) id fun x => { x with slots := mdel x.slots i })
/-- A WAIT of a context's mapped queues that is not satisfied is abandoned: it is executed again from the start when the queue next
runs, and its monitor is left (R326). -/
def abandonWaits (s : State) (p ctx : Nat) : State :=
  (mappedQueues s).foldl (fun s x =>
    let m := x.2.2
    if m.part != p || qCtx s p m.q != ctx || !m.waiting || !bit (qFlags s p m.q) 4 then s
    else
      let s := modQueue s p m.q fun m => { m with waiting := false }
      { s with
        dies := mmap s.dies fun _ d => { d with mon := (d.mon.map fun k => { k with who := k.who.filter (· != .queue p m.q) }).filter fun k => !k.who.isEmpty }
        walks := s.walks.filter fun w => w.2.who != .queue p m.q }) s
/-- A front-end core may take a mapped queue of another: of its own partition, from one that serves several, and not one that is
current or inside a packet that waits (R320). -/
def mayTake (s : State) (id : Nat) (f : Fe) (slot : Nat) (m : MQueue) : Bool :=
  diePart s (feDie id) = some m.part && decide (2 ≤ f.slots.length) && f.cur != some slot && m.half.isNone && !m.waiting
/-- An idle front-end core, one that serves no queue, takes a mapped queue from another (R320). -/
def takeQueue (id victim slot : Nat) (s : State) : State :=
  let f := fe s victim
  match mget f.slots slot with
  | some m =>
    if (fe s id).slots.isEmpty && mayTake s id f slot m then
      modFe (modFe s victim fun f => { f with slots := mdel f.slots slot }) id fun f => { f with slots := mput f.slots 0 m }
    else s
  | none => s
/-- A queue goes on after a wait. -/
def wakeQueue (s : State) (p q : Nat) : State := modQueue s p q fun m => { m with waiting := false }

end Sys2Proof.Machine
end

