-- ==== Sys2Proof/Machine/Wake.lean ====
section
/-! DEFINITION. Wakes, retries and the host's answers, for every party that can wait for a translation (R160, R170, R171, R198,
R206, R315, R319, R321, R324, R346, R370, R375). -/

namespace Sys2Proof.Machine

/-- A wake reaches a party; one whose group is not resident is discarded (R170, R346). -/
def wakeParty (s : State) (line : Nat) : Party → State
  | .group gid | .fetch gid | .window gid | .lane gid _ _ => wakeGroup s gid line
  | .waita gid => wakeWaita s gid
  | .copy id => wakeCopy s id
  | .queue p q => wakeQueue s p q
  | .coll id => wakeColl s id
  | .fe id => wakeFe s id
/-- MONITOR_WAKE: one that reaches another core than its party's is discarded (R170, R198, R319, R346). -/
def execMonitorWake (s : State) : Out :=
  .next (onMessage s (fun b => match b with | .wake _ _ => true | _ => false) fun s m =>
    match m.body with
    | .wake who line => if m.home = partyHome s who then wakeParty s line who else s
    | _ => s)
/-- A retry that has been made stays as the mark that its party's notice is written (R345); one that has written none goes. -/
def again (s : State) (w : Nat) (k : Walk) : State :=
  { s with walks := if k.noted then mput s.walks w { k with notBefore := s.time + Config.retryNs } else mdel s.walks w }
/-- TRANSLATION_RETRY: a party without a monitor, or whose wake found no path, tries its translation again (R170, R206, R211, R315,
R375). -/
def execTranslationRetry (w : Nat) (s : State) : Out :=
  .next (match mget s.walks w with
    | none => s
    | some k =>
      if !k.retry || s.time < k.notBefore then s
      else
        let t := { s with walks := mdel s.walks w }
        if k.lost then wakeParty t (k.va / 128) k.who
        else match k.who with
        | .group gid | .fetch gid | .window gid => retryGroup t gid k
        | .lane gid slot lane => if (tourLane (tourSlot (grp s gid) slot) lane).st = .parked then tourLaunch t gid slot lane k.noted else s
        | .copy id => let u := wakeCopy s id; { u with walks := mdel u.walks w }
        | .queue p q => if ((findQueue s p q).map (·.2.2.waiting)).getD false then wakeQueue (again s w k) p q else t
        | .coll id => if ((mget s.colls id).map (·.waiting)).getD false then wakeColl (again s w k) id else t
        | .fe id => if (fe s id).blocked || (fe s id).wait.isSome then wakeFe (again s w k) id else t
        | .waita _ => s)
/-- The die whose TLB serves a party. -/
def partyDie (s : State) : Party → Nat
  | .group gid | .fetch gid | .window gid | .lane gid _ _ | .waita gid => dieOf (grp s gid).core
  | .copy id => dieOf (((mget s.copies id).map (·.core)).getD 0)
  | .queue p q => queueDie s p q
  | .coll id => ((mget s.colls id).map (·.die)).getD 0
  | .fe id => feDie id
/-- The walk that a request to the host stands for. -/
def reqWalk (s : State) (r : HostReq) : Walk :=
  { part := r.part, ctx := r.ctx, va := r.va, write := r.write, who := r.who, die := partyDie s r.who, tag := r.tag }
/-- The party that asked is where it asked from: what reaches a group that is not resident is discarded (R346). -/
def asksStill (s : State) (r : HostReq) : Bool :=
  !r.stale && match r.who with
    | .group gid | .fetch gid | .window gid | .lane gid _ _ | .waita gid => (mget s.groups gid).isSome
    | .copy id => (mget s.copies id).isSome
    | _ => true
/-- The host's answer lets a party go on: a WAITA translates and reads again, any other is woken (R160, R198). -/
def hostWake (s : State) (who : Party) : State :=
  match who with
  | .waita gid => match (grp s gid).status with
    | .waiting (.mem _ _ _ _) => (addWalk s { part := 0, ctx := 0, va := 0, write := false, who := who, die := 0, retry := true, notBefore := s.time }).1
    | _ => s
  | _ => wakeParty s 0 who
/-- The host has given a translation: it enters the TLBs and the party goes on; where an invalidation holds the walk, the party
walks anew once it is released (R160, R164, R337). -/
def hostGrant (s : State) (id : Nat) (r : HostReq) (pa : Nat) : State :=
  let w := reqWalk s r
  let page := r.va / 4096 * 4096
  if walkHeld s r.part r.ctx r.va then (match awaited s id r.who with
    | some _ => { s with walks := mput s.walks id w }
    | none => (addWalk s { w with retry := true, notBefore := s.time }).1)
  else match walkVa s r.part r.ctx r.va with
  | .leaf _ bits pte a =>
    match useLeaf s r.part r.write pte bits r.va false with
    | .ats _ =>
      let s := setAD s a r.write
      let e : TlbEntry := ⟨r.ctx, page, 12, hostLeaf pte pa, a, r.write || bit pte.toNat 6, r.host⟩
      match awaited s id r.who with
      | some (gid, g) => holdWalk (loadTlbs s g.core e) id gid ⟨r.tag, page, r.write, .leaf page 12 (hostLeaf pte pa) a⟩
      | none => hostWake (modDie s w.die fun x => { x with tlb := tlbLoad Config.dieTlb x.tlb e }) r.who
    | _ => match awaited s id r.who with
      | some (gid, g) => groupWalk s id gid g w
      | none => hostWake s r.who
  | _ => match awaited s id r.who with
    | some (gid, g) => groupWalk s id gid g w
    | none => hostWake s r.who
/-- The PRI page requests of a partition that are outstanding (R370). -/
def priCount (s : State) (p : Nat) : Nat := (s.hostReqs.filter fun r => r.2.pri && r.2.part = p).length
/-- The translation request failed: a page is asked for, or the party retries every 10 µs where 512 requests are outstanding;
a group parks (R160, R370). -/
def hostRefuse (s : State) (id : Nat) (r : HostReq) : State :=
  let s := if priCount s r.part < Config.priRequests then
      { s with hostReqs := mput s.hostReqs id { r with pri := true }, hostOut := s.hostOut ++ [id] }
    else (addWalk s { reqWalk s r with retry := true, notBefore := s.time + Config.retryNs }).1
  match awaited s id r.who with
  | some (gid, _) => holdWalk s id gid ⟨r.tag, r.va / 4096 * 4096, r.write, .absent 0⟩
  | none => s
/-- ATS_TRANSLATION_COMPLETION (R160, R346). -/
def execAtsTranslationCompletion (req : Nat) (result : Option (BitVec 52)) (s : State) : Out :=
  .next (match mget s.hostReqs req with
    | none => s
    | some r =>
      if r.pri then s
      else
        let s := { s with hostReqs := mdel s.hostReqs req }
        if !asksStill s r then s
        else match result with
        | some pa => hostGrant s req r pa.toNat
        | none => hostRefuse s req r)
/-- PRI_RESPONSE: whatever it says, the party is woken and tries again (R160, R170, R346). -/
def execPriResponse (req : Nat) (_ok : Bool) (s : State) : Out :=
  .next (match mget s.hostReqs req with
    | none => s
    | some r =>
      if !r.pri then s
      else
        let s := { s with hostReqs := mdel s.hostReqs req }
        if asksStill s r then hostWake s r.who else s)

end Sys2Proof.Machine
end

