-- ==== Sys2Proof/Machine/Links.lean ====
section
/-! DEFINITION. The links between dies, the fabric ports and the phaser uplinks: flits and frames, their sequence numbers, CRC
and replay, retraining, and the messages they carry (R237, R255, R360 to R368, R383 to R385). -/

namespace Sys2Proof.Machine

/-! ## CRC-16 (R361, R362, R368) -/

/-- One bit, most significant first, polynomial 0x1021. -/
def crcBit (c : BitVec 16) (b : Bool) : BitVec 16 :=
  if c.getLsbD 15 != b then (c <<< 1) ^^^ 0x1021 else c <<< 1
/-- Bits of x from bit n - 1 down, n of them. -/
def crcBits (x : Nat) : Nat → BitVec 16 → BitVec 16
  | 0, c => c
  | n + 1, c => crcBits x n (crcBit c (bit x n))
/-- The CRC of bytes. -/
def crcBytes (seed : BitVec 16) (bs : List Byte) : BitVec 16 := bs.foldl (fun c b => crcBits b.toNat 8 c) seed
/-- The seed of IDLE, ACK and NAK. -/
def controlSeed : BitVec 16 := 0xF000

/-! ## Flits (R361) and frames (R255) -/

/-- A direction is a phaser uplink's. -/
def isUplink (l : Nat) : Bool := decide (7360 ≤ l)
/-- The other direction of a module, port or uplink. -/
def opposite (l : Nat) : Nat :=
  if l < 7296 then (let k := l / 96; moduleKey 0 (if k % 2 = 0 then k + 1 else k - 1) (l % 96)) else (if l % 2 = 0 then l + 1 else l - 1)
/-- Byte i of a flit. -/
def flitByte (f : BitVec 512) (i : Nat) : Byte := BitVec.ofNat 8 (f.toNat / 2 ^ (8 * i))
/-- A flit of a TYPE with an ACKSEQ and a payload of 59 bytes, its CRC under a seed. -/
def makeFlit (type ack : Nat) (payload : List Byte) (seed : BitVec 16) : BitVec 512 :=
  let body := [BitVec.ofNat 8 (16 * type), BitVec.ofNat 8 ack, BitVec.ofNat 8 (ack / 256)] ++ payload
  BitVec.ofNat 512 (ofBytes body + (crcBytes seed body).toNat * 2 ^ 496)
/-- A frame of bits [127:16], its CRC under a seed. -/
def makeFrame (top : Nat) (seed : BitVec 16) : BitVec 512 := BitVec.ofNat 512 (top * 2 ^ 16 + (crcBits top 112 seed).toNat)
/-- What a flit or frame is. -/
inductive UnitKind where
  | idle | data | ack | nak | reserved
  deriving DecidableEq, Repr
/-- The TYPE of a flit or frame. -/
def unitType (l : Nat) (f : BitVec 512) : Nat := if isUplink l then f.toNat / 2 ^ 124 % 16 else f.toNat / 16 % 16
def unitKind (l : Nat) (f : BitVec 512) : UnitKind :=
  let t := unitType l f
  if isUplink l then (if t < 11 then .data else if t = 11 then .idle else if t = 12 then .ack else if t = 13 then .nak else .reserved)
  else (match t with | 0 => .idle | 1 => .data | 2 => .ack | 3 => .nak | _ => .reserved)
/-- ACKSEQ. -/
def unitAck (l : Nat) (f : BitVec 512) : BitVec 12 :=
  BitVec.ofNat 12 (if isUplink l then f.toNat / 2 ^ 72 else f.toNat / 2 ^ 8)
/-- The CRC matches under a seed (R362, R368). -/
def unitOk (l : Nat) (f : BitVec 512) (seed : BitVec 16) : Bool :=
  if isUplink l then crcBits (f.toNat / 2 ^ 16 % 2 ^ 112) 112 seed = BitVec.ofNat 16 f.toNat
  else crcBytes seed ((List.range 62).map (flitByte f)) = BitVec.ofNat 16 (f.toNat / 2 ^ 496)
/-- The seed of the expected data unit. -/
def dataSeed (q : BitVec 12) : BitVec 16 := q.zeroExtend 16
/-- An ACK or NAK with a sequence number for a direction. -/
def controlUnit (l : Nat) (nak : Bool) (q : BitVec 12) : BitVec 512 :=
  if isUplink l then makeFrame ((if nak then 13 else 12) * 2 ^ 108 + q.toNat * 2 ^ 56) controlSeed
  else makeFlit (if nak then 3 else 2) q.toNat (List.replicate 59 0) controlSeed

/-! ## The replay machine (R363) -/

/-- Units up to and with sequence number a have been received: they leave the buffer. -/
def freeUpTo (s : State) (l : Nat) (a : BitVec 12) : State :=
  let x := link s l
  if x.replay.any fun r => r.1 = a then
    let rest := (x.replay.dropWhile fun r => r.1 != a).drop 1
    modLink s l fun x => { x with replay := rest, resend := x.resend.filter fun q => rest.any fun r => r.1 = q, tries := 0, since := s.time }
  else s
/-- Units before e leave the buffer, and the others are sent again in order. -/
def replayFrom (s : State) (l : Nat) (e : BitVec 12) : State :=
  let x := link s l
  let rest := if e = x.seq then [] else if x.replay.any fun r => r.1 = e then x.replay.dropWhile fun r => r.1 != e else x.replay
  let moved : Bool := rest.length != x.replay.length
  modLink s l fun x => { x with
    replay := rest, resend := rest.map (·.1), tries := if moved then 1 else x.tries + 1, since := s.time
    st := if x.st = .normal && !rest.isEmpty then .replay else x.st }
/-- A direction carries units: its module, port or uplink neither retrains nor is disabled. -/
def linkRuns (x : Link) : Bool := x.st = .normal || x.st = .replay
/-- Queue an ACK or NAK of direction l, which travels the other way; an ACK replaces an older one. -/
def queueReply (s : State) (l : Nat) (nak : Bool) (q : BitVec 12) : State :=
  let o := opposite l
  modLink s o fun x => { x with replies := (x.replies.filter fun f => nak || unitKind o f != .ack) ++ [controlUnit o nak q] }
/-- A unit arrives at the receiver of direction l: a data unit in sequence is accepted and handed to k, an IDLE, ACK or NAK acts
on the other direction's sender, every other unit is a CRC failure (R362, R363, R368). -/
def receiveUnit (s : State) (l : Nat) (f : BitVec 512) (k : State → State) : State :=
  let x := link s l
  let o := opposite l
  if !linkRuns x then s
  else if unitKind l f = .data && unitOk l f (dataSeed x.expect) then
    let s := modLink s l fun x => { x with expect := x.expect + 1, discard := false }
    let s := queueReply s l false x.expect
    k (if isUplink l then s else freeUpTo s o (unitAck l f))
  else if unitOk l f controlSeed && (unitKind l f != .data && unitKind l f != .reserved) then
    let s := modLink s l fun x => { x with replies := x.replies.erase f }
    match unitKind l f with
    | .ack => freeUpTo s o (unitAck l f)
    | .nak => replayFrom s o (unitAck l f)
    | _ => s
  else
    let s := modLink s l fun y => { y with errors := y.errors + 1, discard := true }
    if x.discard then s else queueReply s l true x.expect

/-! ## Messages as bytes (R361, R383) -/

/-- OPC of a message. -/
def opcOf : Body → Nat
  | .read _ _ _ | .sread _ _ _ _ => 0
  | .write _ _ _ | .swrite _ _ _ | .record _ _ _ => 1
  | .atomic _ _ _ _ | .atoms _ _ _ _ => 2
  | .data _ _ _ _ | .atomData _ _ _ _ => 3
  | .ack _ _ | .engineAck _ _ _ _ | .promoteAck _ _ | .collAck _ _ _ _ _ _ => 4
  | .marker _ => 5
  | .report _ _ => 6
  | .tour _ _ _ _ _ _ | .tourRet _ _ _ _ _ _ _ _ | .page _ _ _ _ _ => 7
  | .engine _ _ _ | .collData _ _ _ _ _ => 8
  | .wake _ _ => 9
  | .inval _ _ | .promote _ _ => 10
  | .collCtl _ _ _ _ | .pool _ _ _ => 11
/-- The data words, of 8 bytes, that follow a header. -/
def msgWords : Body → List Nat
  | .write bytes _ _ | .swrite _ _ bytes | .data _ bytes _ _ | .engine _ bytes _ | .collData _ _ _ bytes _ =>
    let n := (bytes.length + 7) / 8
    (List.range n).map fun i => ofBytes (((bytes.drop (8 * i)).take 8).map (·.2))
  | .atomic _ _ _ ls | .atoms _ _ _ ls => ls.map fun a => a.v.toNat
  | .atomData _ _ rets _ => rets.map fun r => r.2.2.toNat
  | .tour _ _ _ _ _ p | .page _ _ _ _ p => [p.toNat]
  | .tourRet _ _ _ _ _ x _ _ => [x.toNat]
  | .record _ _ rs => rs.flatten.map (·.toNat)
  | .pool _ (.source _ _ bytes _) _ => (List.range ((bytes.length + 7) / 8)).map fun i => ofBytes ((bytes.drop (8 * i)).take 8)
  | _ => []
/-- The number of an atomic operation in ARG: ATOM's OP, then CAS, AGGR and PUTF. -/
def kindCode : AKind → Nat
  | .op o => o.code
  | .cas _ => 16
  | .aggr _ => 17
  | .putf => 18
/-- The byte mask of bytes, as offsets from the first. -/
def maskArg (as : List Nat) : BitVec 32 := Config.argMask (as.map fun a => a - as.headD 0)
/-- ARG by OPC (R361): the byte mask of a read, a write or their data, the operation and size of an atomic, the count of a
marker, the step index of a tour; how a mask or an operation is written, and what the others hold, is open (assumption 7). -/
def argOf (s : State) (m : Msg) : BitVec 32 :=
  match m.body with
  | .read line ws _ => maskArg (ws.map fun w => (List.range 4).map fun i => 128 * line + 4 * w + i).flatten
  | .sread _ _ sz ls => maskArg (ls.map fun l => (List.range (ldBytes sz)).map fun i => l.2.2 + i).flatten
  | .write bytes _ _ | .swrite _ _ bytes | .data _ bytes _ _ | .engine _ bytes _ | .collData _ _ _ bytes _ => maskArg (bytes.map (·.1))
  | .atomic _ k _ _ | .atoms _ _ k _ => Config.argAtomic (kindCode k) (kindBytes k)
  | .marker r => BitVec.ofNat 32 (((mget s.rels r).map fun x => x.pending.length).getD 0)
  | .tour _ _ _ i _ _ | .tourRet _ _ _ _ i _ _ _ | .page _ _ _ i _ => BitVec.ofNat 32 i
  | _ => Config.freeArg m.id
/-- The two words of a message's header (R361). -/
def headerOf (s : State) (m : Msg) : Nat × Nat :=
  (opcOf m.body * 2 ^ 58 + ((msgWords m.body).take 32).length * 2 ^ 52 + msgAddr s m % 2 ^ 52,
   m.srcDie % 32 * 2 ^ 59 + m.srcCore % 32 * 2 ^ 54 + tagNum m * 2 ^ 32 + (argOf s m).toNat)
/-- The header and data words of a message (R361). -/
def msgBytes (s : State) (m : Msg) : List Byte :=
  let h := headerOf s m
  bytesOf 8 h.1 ++ bytesOf 8 h.2 ++ (((msgWords m.body).take 32).map (bytesOf 8)).flatten
/-- The receiver ends a flit's payload here: what would be a header has OPC 63 and LEN 63; in a payload's last bytes, where no header
shows them, all ones end it (R383, assumption 100). -/
def endsPayload (b : List Byte) : Bool :=
  if 8 ≤ b.length then ofBytes (b.take 8) / 2 ^ 52 = 2 ^ 12 - 1 else b.all fun x => x = 0xFF
/-- The messages complete in received bytes: OPC, TAG and the words of SRC of each, and the bytes of the one that goes on. -/
def parseMessages : Nat → List Byte → List (Nat × Nat) × List Byte
  | 0, b => ([], b)
  | n + 1, b =>
    if endsPayload b then ([], [])
    else if b.length < 16 then ([], b)
    else
      let w0 := ofBytes (b.take 8)
      let size := 16 + 8 * (w0 / 2 ^ 52 % 64)
      if b.length < size then ([], b)
      else
        let (ms, rest) := parseMessages n (b.drop size)
        ((w0 / 2 ^ 58, ofBytes ((b.drop 8).take 8) / 2 ^ 32) :: ms, rest)

/-! ## Modules and paths (R365 to R367) -/

/-- The slice or core of a destination that selects the module; the engines count as 31. -/
def destIndex : Home → Nat
  | .slice _ i => i
  | .core c => c % 24
  | _ => 31
/-- The first enabled module from one on, in ascending order. -/
def enabledFrom (s : State) (b dir first : Nat) : Option Nat :=
  ((List.range 96).map fun i => (first + i) % 96).find? fun m => (link s (moduleKey b dir m)).st != .disabled
/-- The direction on which a message makes its next hop. -/
def linkOf (s : State) (m : Msg) : Option Nat :=
  match m.hops with
  | [] => none
  | d :: _ =>
    if 100 ≤ d then some (portKey (d - 100) 0)
    else if 100 ≤ m.at_ then some (portKey (m.at_ - 100) 1)
    else
      let b := boundary m.at_ d
      let dir := if m.at_ < d then 0 else 1
      (enabledFrom s b dir ((m.srcCore + 7 * destIndex m.home) % 96)).map (moduleKey b dir)
/-- A message whose next boundary is dead takes the replacement route from the die it is in (R366). -/
def reroute (dead : List Nat) (m : Msg) : Msg :=
  match m.hops, homeDie m.home with
  | d :: _, some h => if d < 100 && m.at_ < 100 && dead.contains (boundary m.at_ d)
      then { m with hops := (route dead m.at_ h).getD [], turned := true } else m
  | _, _ => m
/-- The first message on a link with an OPC and with the SRC and TAG that a header's second word holds enters its next die. -/
def advance (s : State) (l opc top : Nat) : State :=
  let is (m : Msg) : Bool := opcOf m.body = opc && m.srcDie % 32 * 2 ^ 27 + m.srcCore % 32 * 2 ^ 22 + tagNum m = top
  match s.net.find? fun m => m.onLink && is m && linkOf s m = some l with
  | some m =>
    let (s, n) := freshId s
    netMod s m.id fun m => reroute s.deadBoundaries { m with hops := m.hops.drop 1, at_ := m.hops.headD m.at_, onLink := false, came := n }
  | none => s
/-- A DATA flit's payload: whole messages are delivered, in order; one with a reserved OPC is discarded and counted (R361). The
payload that a disabled module began goes on where that module's left off (R365). -/
def takePayload (s : State) (l : Nat) (f : BitVec 512) : State :=
  let x := link s l
  let q := x.expect - 1
  let from_ := ((x.strange.find? fun r => r.1 = q).map (·.2)).getD l
  let s := modLink s l fun x => { x with strange := x.strange.filter fun r => r.1 != q }
  let (ms, rest) := parseMessages 60 ((link s from_).rx ++ (List.range 59).map fun i => flitByte f (i + 3))
  ms.foldl (fun s m => if 12 ≤ m.1 then modLink s l fun x => { x with errors := x.errors + 1 } else advance s l m.1 m.2)
    (modLink s from_ fun x => { x with rx := rest })

/-! ## Frames (R255, R368) -/

/-- Bits [127:16] of a frame: TYPE, PID, PHASE, COUNT, RID. -/
def frameTop (type obj phase count rid : Nat) : Nat :=
  type * 2 ^ 108 + obj % 2 ^ 20 * 2 ^ 88 + phase % 2 ^ 32 * 2 ^ 56 + count % 2 ^ 20 * 2 ^ 36 + rid % 2 ^ 32 * 2 ^ 4
/-- A message of the synchronisation network as a frame; MOVE carries the old die in PHASE. -/
def frameOf (m : PMsg) : Nat :=
  match m.k with
  | .arrive p k => frameTop 0 m.obj p.toNat k 0
  | .signal p rid => frameTop 1 m.obj p.toNat 0 rid.toNat
  | .join w rid => frameTop 2 m.obj 0 w rid.toNat
  | .leave w rid => frameTop 3 m.obj 0 w rid.toNat
  | .move w old rid => frameTop 4 m.obj old w rid.toNat
  | .done p f => frameTop 5 m.obj p.toNat 0 f.toNat
  | .joined f rid w => frameTop 6 m.obj f.toNat w rid.toNat
  | .left g rid w => frameTop 7 m.obj g.toNat w rid.toNat
  | .moved g rid w _ => frameTop 8 m.obj g.toNat w rid.toNat
  | .newObj w => frameTop 9 m.obj 0 w 0
  | .freeObj => frameTop 10 m.obj 0 0 0
/-- The uplink direction of a message between the package root and the pod switch; bits [1:0] of the local ID name the uplink. -/
def frameLink (m : PMsg) : Option Nat :=
  if m.src = pkgNode && m.dst = podNode then some (uplinkKey (m.obj % 4) 0)
  else if m.src = podNode && m.dst = pkgNode then some (uplinkKey (m.obj % 4) 1)
  else none
/-- The nodes below the package root on a registrant's path (R236, R237). -/
def ridPath (rid : Nat) : List Nat :=
  let c := rid / 2 ^ 14 % 2 ^ 10
  if c < 576 then [dieNode (dieOf c), c] else [dieNode (c - 576), feLeaf (c - 576)]
/-- A frame from the pod switch that answers other packages' doings, as a message to the package root. -/
def frameMessage (top : Nat) : Option PMsg :=
  let obj := top / 2 ^ 88 % 2 ^ 20
  let p : Word := BitVec.ofNat 32 (top / 2 ^ 56)
  let w := top / 2 ^ 36 % 2 ^ 20
  let r := top / 2 ^ 4 % 2 ^ 32
  let rid : Word := BitVec.ofNat 32 r
  let m (k : PKind) (path : List Nat) : Option PMsg := some { obj := obj, src := podNode, dst := pkgNode, path := path, k := k }
  match top / 2 ^ 108 with
  | 5 => m (.done p rid) []
  | 6 => m (.joined p rid w) (ridPath r)
  | 7 => m (.left p rid w) (ridPath r)
  | 8 => m (.moved p rid w false) (ridPath r)
  | _ => none
/-- An accepted data frame acts at its node; one whose PID names no proxy is dropped and counted (R255). -/
def takeFrame (s : State) (l : Nat) (f : BitVec 512) : State :=
  let top := f.toNat / 2 ^ 16 % 2 ^ 112
  let same (m : PMsg) : Bool := m.onLink && frameLink m = some l && frameOf m / 2 ^ 4 = top / 2 ^ 4
  let drop (s : State) : State := modLink s l fun x => { x with errors := x.errors + 1 }
  let at_ (s : State) (m : PMsg) : State :=
    if m.dst = podNode || ((mget s.phs m.obj).map (·.here)).getD false then phDeliver s m else drop s
  match s.pnet.find? fun m => same m.2 with
  | some m => at_ { s with pnet := mdel s.pnet m.1 } { m.2 with onLink := false }
  | none => match if l % 2 = 1 then frameMessage top else none with
    | some m => at_ s m
    | none => drop s

/-! ## Arrivals -/

/-- A flit arrives under the event of its kind; one of a reserved TYPE with a DATA_FLIT (R361, R363). -/
def onFlit (s : State) (k : UnitKind) : State :=
  match s.arriving with
  | .flit l f =>
    if isUplink l then s
    else if unitKind l f = k || (k = .data && unitKind l f = .reserved) then receiveUnit s l f fun s => takePayload s l f else s
  | _ => s
/-- DATA_FLIT (R361 to R364). -/
def execDataFlit (s : State) : Out := .next (onFlit s .data)
/-- IDLE_FLIT (R361). -/
def execIdleFlit (s : State) : Out := .next (onFlit s .idle)
/-- ACK_FLIT (R363). -/
def execAckFlit (s : State) : Out := .next (onFlit s .ack)
/-- NAK_FLIT (R363). -/
def execNakFlit (s : State) : Out := .next (onFlit s .nak)
/-- A frame arrives under the event of its TYPE; one of a reserved TYPE with an IDLE_FRAME (R255, R368). -/
def onFrame (s : State) (type : Nat) : State :=
  match s.arriving with
  | .frame l f =>
    let x := f.zeroExtend 512
    if !isUplink l then s
    else if unitType l x = type || (type = 11 && unitKind l x = .reserved) then receiveUnit s l x fun s => takeFrame s l x else s
  | _ => s
/-- An event of the synchronisation network: inside the package, or in a frame of an uplink. -/
def onNetwork (s : State) (type : Nat) (ok : PKind → Bool) : State := onFrame (onPhaser s ok) type
/-- ARRIVE (R238). -/
def execArrive (s : State) : Out := .next (onNetwork s 0 fun k => match k with | .arrive _ _ => true | _ => false)
/-- PHASER_SIGNAL (R242). -/
def execPhaserSignal (s : State) : Out := .next (onNetwork s 1 fun k => match k with | .signal _ _ => true | _ => false)
/-- JOIN (R239). -/
def execJoin (s : State) : Out := .next (onNetwork s 2 fun k => match k with | .join _ _ => true | _ => false)
/-- LEAVE (R239). -/
def execLeave (s : State) : Out := .next (onNetwork s 3 fun k => match k with | .leave _ _ => true | _ => false)
/-- MOVE (R254). -/
def execMove (s : State) : Out := .next (onNetwork s 4 fun k => match k with | .move _ _ _ => true | _ => false)
/-- DONE (R238). -/
def execDone (s : State) : Out := .next (onNetwork s 5 fun k => match k with | .done _ _ => true | _ => false)
/-- JOINED (R239, R246). -/
def execJoined (s : State) : Out := .next (onNetwork s 6 fun k => match k with | .joined _ _ _ => true | _ => false)
/-- LEFT (R239, R247). -/
def execLeft (s : State) : Out := .next (onNetwork s 7 fun k => match k with | .left _ _ _ => true | _ => false)
/-- MOVED (R254). -/
def execMoved (s : State) : Out := .next (onNetwork s 8 fun k => match k with | .moved _ _ _ _ => true | _ => false)
/-- NEW_FRAME (R255). -/
def execNewFrame (s : State) : Out := .next (onFrame s 9)
/-- FREE_FRAME (R255). -/
def execFreeFrame (s : State) : Out := .next (onFrame s 10)
/-- IDLE_FRAME (R368). -/
def execIdleFrame (s : State) : Out := .next (onFrame s 11)
/-- ACK_FRAME (R368). -/
def execAckFrame (s : State) : Out := .next (onFrame s 12)
/-- NAK_FRAME (R368). -/
def execNakFrame (s : State) : Out := .next (onFrame s 13)

/-! ## Sending (R363, R383) -/

/-- A new data unit takes the next sequence number and stays in the buffer. -/
def sendUnit_ (s : State) (l : Nat) (f : BitVec 512) : State :=
  modLink s l fun x => { x with
    seq := x.seq + 1, replay := x.replay ++ [(x.seq, f)], since := if x.replay.isEmpty then s.time else x.since }
/-- A message that its source still has is held: one that it sent earlier to the same die was held for a boundary that died, and has
not been delivered (R366; assumption 101 for whose messages are affected). -/
def heldAtSource (s : State) (m : Msg) : Bool :=
  m.at_ = m.srcDie && !m.turned && s.net.any fun x =>
    x.turned && decide (x.id < m.id) && x.srcDie = m.srcDie && x.srcCore = m.srcCore && homeDie x.home = homeDie m.home
/-- A message among others, by the order in which they came. -/
def insertCame (m : Msg) : List Msg → List Msg
  | [] => [m]
  | x :: t => if m.came < x.came then m :: x :: t else x :: insertCame m t
/-- Messages that wait for a direction, in the order in which the die sent or received them (R366). -/
def waitingFor (s : State) (l : Nat) : List Msg :=
  (s.net.filter fun m => !m.onLink && linkOf s m = some l && !heldAtSource s m).foldl (fun q m => insertCame m q) []
/-- A message would begin in the last bytes of a payload, fewer than 8, and look like their fill: it begins in the next flit instead
(R383, assumption 100). -/
def looksFilled (used : Nat) (b : List Byte) : Bool := decide (51 < used) && (b.take (59 - used)).all fun x => x = 0xFF
/-- Bytes waiting to be sent, filled up with whole messages until a payload is full. -/
def fillTx : List Msg → State → Nat → State
  | [], s, _ => s
  | m :: t, s, l =>
    if 59 ≤ (link s l).txq.length || looksFilled (link s l).txq.length (msgBytes s m) then s
    else fillTx t (modLink (netMod s m.id fun m => { m with onLink := true }) l fun x => { x with txq := x.txq ++ msgBytes s m }) l
/-- A DATA flit of direction l with a payload, filled up, in its place in the sequence. -/
def dataFlit (s : State) (l : Nat) (payload : List Byte) : BitVec 512 :=
  makeFlit 1 ((link s (opposite l)).expect - 1).toNat (payload ++ List.replicate (59 - payload.length) 0xFF) (dataSeed (link s l).seq)
/-- The next DATA flit of a module or port leaves; what a disabled module has handed over goes first (R365). -/
def sendFlit (s : State) (l : Nat) : State :=
  match (link s l).moved with
  | (from_, p) :: rest =>
    sendUnit_ (modLink s l fun x => { x with moved := rest, strange := x.strange ++ [(x.seq, from_)] }) l (dataFlit s l p)
  | [] =>
    let s := fillTx (waitingFor s l) s l
    let x := link s l
    if x.txq.isEmpty then s
    else sendUnit_ (modLink s l fun x => { x with txq := x.txq.drop 59 }) l (dataFlit s l (x.txq.take 59))
/-- The next data frame of an uplink leaves. -/
def sendFrame (s : State) (l : Nat) : State :=
  match s.pnet.find? fun m => !m.2.onLink && frameLink m.2 = some l with
  | some m => sendUnit_ { s with pnet := mput s.pnet m.1 { m.2 with onLink := true } } l (makeFrame (frameOf m.2) (dataSeed (link s l).seq))
  | none => s
/-- DATA_FLIT_SEND: a unit to be resent goes first; a new one leaves when the buffer has room (R363, R368, R383). -/
def execDataFlitSend (l : Nat) (s : State) : Out :=
  let x := link s l
  .next (if !linkRuns x then s
    else match x.resend with
      | _ :: rest => modLink s l fun x => { x with resend := rest, st := if rest.isEmpty then .normal else .replay }
      | [] => if Config.replayBuffer ≤ x.replay.length then s else if isUplink l then sendFrame s l else sendFlit s l)
/-- REPLAY_TIMEOUT: no acknowledgement for 1 µs (R363). -/
def execReplayTimeout (l : Nat) (s : State) : Out :=
  let x := link s l
  .next (match x.replay with
    | [] => s
    | r :: _ => if linkRuns x && decide (x.since + 1000 ≤ s.time) then replayFrom s l r.1 else s)
/-- NAK_REPEAT: a receiver that discards repeats its NAK (R363). -/
def execNakRepeat (l : Nat) (s : State) : Out :=
  .next (if (link s l).discard && linkRuns (link s l) then queueReply s l true (link s l).expect else s)

/-! ## Retraining (R365, R366, R384) -/

/-- MODULE_RETRAIN: after 16 replays without progress a module retrains, in both directions; what it finds narrows it or will
disable it (R363, R365). -/
def execModuleRetrain (l : Nat) (low high : Bool) (s : State) : Out :=
  let start (s : State) (k : Nat) : State := modLink s k fun x => { x with
    st := .retraining, half := x.half || low != high, failed := low && high }
  .next (if linkRuns (link s l) && decide (Config.replayLimit ≤ (link s l).tries) then start (start s l) (opposite l) else s)
/-- Bytes in payloads of 59. -/
def payloads : Nat → List Byte → List (List Byte)
  | 0, _ => []
  | n + 1, b => if b.isEmpty then [] else b.take 59 :: payloads n (b.drop 59)
/-- The payloads that a disabled direction has not delivered, each with the direction it began on: the flits from the sequence
number that the receiver expects on, those that it was to send for others, and the bytes not yet in a flit (R365). -/
def undelivered (s : State) (l : Nat) : List (Nat × List Byte) :=
  let x := link s l
  let rest := if x.expect = x.seq then [] else x.replay.dropWhile fun r => r.1 != x.expect
  (rest.map fun r => (((x.strange.find? fun y => y.1 = r.1).map (·.2)).getD l, (List.range 59).map fun i => flitByte r.2 (i + 3)))
    ++ x.moved ++ (payloads x.txq.length x.txq).map fun p => (l, p)
/-- A module is disabled in a direction: the flits it has not delivered are sent on the next enabled module, ahead of any later
message, and the receiver goes on with the message it was receiving (R365). Where none is enabled, and on a port or an uplink,
which has no other, what has not been delivered stays where it is (R366). -/
def dropLink (s : State) (l : Nat) : State :=
  let off (s : State) : State := modLink s l fun x =>
    { x with st := .disabled, replay := [], resend := [], txq := [], replies := [], moved := [], strange := [] }
  let next := if 7296 ≤ l then none else (enabledFrom (off s) (l / 192) (l / 96 % 2) (l % 96 + 1)).map (moduleKey (l / 192) (l / 96 % 2))
  match next with
  | some n => modLink (off s) n fun x => { x with moved := x.moved ++ undelivered s l }
  | none =>
    let mine (m : Msg) : Bool := m.onLink && linkOf s m = some l
    let s := { s with
      net := s.net.map fun m => if mine m then { m with onLink := false } else m
      pnet := mmap s.pnet fun _ m => if frameLink m = some l then { m with onLink := false } else m }
    modLink (off s) l fun x => { x with rx := [] }
/-- A boundary none of whose modules is enabled is dead: messages held for it take the other order (R366). -/
def checkBoundary (s : State) (l : Nat) : State :=
  let b := l / 192
  if 7296 ≤ l || (List.range 96).any fun m => (link s (moduleKey b 0 m)).st != .disabled then s
  else
    let dead := insertNat s.deadBoundaries b
    { s with deadBoundaries := dead, net := s.net.map (reroute dead) }
/-- The sender resends from what the receiver expects (R384). -/
def resumeLink (s : State) (l : Nat) : State :=
  let e := (link s l).expect
  modLink s l fun x =>
    let rest := if e = x.seq then [] else x.replay.dropWhile fun r => r.1 != e
    { x with replay := rest, resend := rest.map (·.1), tries := 0, since := s.time, st := if rest.isEmpty then .normal else .replay }
/-- RETRAIN_COMPLETE (R365, R384). -/
def execRetrainComplete (l : Nat) (s : State) : Out :=
  let o := opposite l
  .next (if (link s l).st != .retraining then s
    else if (link s l).failed then checkBoundary (dropLink (dropLink s l) o) l
    else resumeLink (resumeLink s l) o)

end Sys2Proof.Machine
end

