-- ==== Sys2Proof/Machine/SaveArea.lean ====
section
/-! DEFINITION. The context save area: what each byte of a core's block and of a die's gather area holds, and what a restore reads
back from it (R328, R333, R334). Orders that the rules leave to a region are those of assumption 15. -/

namespace Sys2Proof.Machine

/-! ## Writing -/

/-- A value of n bytes at an offset of a block. -/
abbrev Put := Nat × Nat × Nat
/-- A 4 KiB page at a physical base becomes zero, without marks; monitors on its lines act. -/
def zeroPage (s : State) (base : Nat) : State :=
  match resolve s base with
  | none => s
  | some a =>
    let old (x : Nat) : Bool := decide (a ≤ x) && decide (x < a + 4096)
    let lines := ((die s (paDie a)).mon.map fun m => m.line).filter fun l => old (128 * l)
    lines.foldl homeLine { s with mem := s.mem.filter fun c => !old c.1, memBad := s.memBad.filter fun w => !old (4 * w) }
/-- n pages from a physical base become zero. -/
def zeroPages (s : State) (base n : Nat) : State := (List.range n).foldl (fun s i => zeroPage s (base + 4096 * i)) s
/-- The words at some offsets of a block are marked poisoned: a mark travels with its word (R347). -/
def markPuts (s : State) (base : Nat) (offs : List Nat) : State :=
  offs.foldl (fun s o => match resolve s (base + o) with
    | some a => { s with memBad := insertNat s.memBad (a / 4) }
    | none => s) s
/-- Write a block at a physical base. -/
def writePuts (s : State) (base : Nat) (ps : List Put) : State :=
  ps.foldl (fun s x => match resolve s (base + x.1) with
    | some a => homeWriteNum s a x.2.1 x.2.2
    | none => s) s
/-- 32 counters as bytes. -/
def counterNum (c : Cells Byte) : Nat := allLanes.foldl (fun n l => n + (cget 0 c l).toNat * 2 ^ (8 * l)) 0
/-- Bits [35:34] of a group record. -/
def statusCode : GStatus → Nat
  | .ready | .starting => 0
  | .parked => 1
  | .waiting .drain | .ended => 3
  | .waiting _ => 2
/-- A handle as 16 bytes, packed in the order of R235 (assumption 15). -/
def handleNum (h : Handle) : Nat :=
  HState.code h.st + boolBit h.signals * 4 + boolBit h.waits * 8 + h.id.toNat * 2 ^ 4 + h.s.toNat * 2 ^ 32 + h.rid.toNat * 2 ^ 64
/-- A tour slot as 512 bytes; a lane that has not been sent stands as one that is to be sent again (R310, R334, assumption 60). -/
def tourPuts (base : Nat) (t : TourSlot) : List Put :=
  [(base, 8, t.steps.length)] ++ (t.masks.mapIdx fun i x => (base + 8 + 8 * i, 8, x.toNat))
    ++ (t.steps.mapIdx fun i x => (base + 40 + 8 * i, 8, x.toNat))
    ++ [(base + 104, 8, boolBit t.busy + boolBit t.add * 2 + boolBit t.wide * 4), (base + 112, 8, t.d), (base + 120, 8, t.stat)]
    ++ allLanes.flatMap fun l =>
        let x := tourLane t l
        let code := match x.st with | .idle => 0 | .inFlight => if t.sent then 1 else 2 | .parked => 2 | .ended => 3
        [(base + 128 + 12 * l, 4, code + x.step * 2 ^ 8), (base + 132 + 12 * l, 8, x.ptr.toNat)]
/-- A group record (R334); the group's first lane-register unit and tile are those of the packed regions, team is its team's
number in the team table. U is the mask of the word that the group re-issues, EMIT's included; where a
memory word and an EMIT of one issue group each have one, the EMIT's stands in the upper four bytes (R169, R253, assumption 60). -/
def groupPuts (s : State) (g : Group) (gid team reg0 tile0 : Nat) : List Put :=
  [(0x000, 8, (posWord g.pc).toNat + statusCode g.status * 2 ^ 34), (0x008, 32, counterNum g.c),
   (0x028, 8, g.calls.length + boolBit g.trap.lvl * 2 ^ 8 + g.ixb * 2 ^ 16 + reg0 * 2 ^ 32 + tile0 * 2 ^ 48)]
    ++ (g.calls.mapIdx fun i f => [(0x030 + 40 * i, 8, (posWord f.ret).toNat), (0x038 + 40 * i, 32, counterNum f.c)]).flatten
    ++ [(0x2B0, 32, counterNum g.trap.c), (0x2D0, 8, g.trap.depth), (0x2D8, 8, (posWord g.trap.epc).toNat),
        (0x2E0, 8, g.trap.ecause.toNat), (0x2E8, 8, g.trap.einfo.toNat), (0x2F0, 8, g.trap.emask.toNat)]
    ++ ((List.range 64).map fun i => (0x300 + 8 * i, 8, (kget g i).toNat))
    ++ [(0x500, 8, g.status8.toNat), (0x508, 8, g.seed.toNat), (0x510, 8, g.sg.toNat), (0x518, 8, g.sleepLeft)]
    ++ ((List.range 8).map fun i =>
        let w := xwget g i
        [(0x520 + 24 * i, 8, w.base), (0x528 + 24 * i, 8, w.size), (0x530 + 24 * i, 8, boolBit w.isOpen)]).flatten
    ++ ((List.range 16).map fun i => (0x5E0 + 16 * i, 16, handleNum (hget g i)))
    ++ (([EngineClass.ld, .st, .cp, .mx, .tm, .tour, .cl].map fun c =>
        let x := clsOf g c
        let isOpen := s.ops.any fun o => o.2.gid = gid && o.2.cls = c && o.2.batch.isNone
        (0x6E0 + 8 * c.code, 8, x.next.toNat + x.count * 2 ^ 8 + boolBit x.err * 2 ^ 16 + x.eb.toNat * 2 ^ 24 + x.cause.toNat * 2 ^ 32
          + boolBit isOpen * 2 ^ 40)))
    ++ [(0x720, 4, ((g.u.or g.uEmit).getD 0xFFFFFFFF).toNat), (0x724, 4, if g.u.isSome then (g.uEmit.getD 0).toNat else 0)]
    ++ (match g.waita with
        | some (w, o, e) => [(0x728, 8, w), (0x730, 8, o), (0x738, 8, e.toNat)]
        | none => [])
    ++ [(0x740, 4, team), (0x744, 4, g.num), (0x748, 4, g.role), (0x74C, 4, g.slot), (0x750, 4, g.regs), (0x754, 4, g.ntiles)]
    ++ ((List.range 4).map fun i => tourPuts (0x800 + 512 * i) (tourSlot g i)).flatten
/-- Running totals before each element. -/
def before (f : Group → Nat) : Nat → List Group → List Nat
  | _, [] => []
  | n, g :: t => n :: before f (n + f g) t
/-- Role counts of a team's resident groups: a byte for each role. -/
def roleCounts (gs : Map Group) (t : Nat) : Nat :=
  gs.foldl (fun n g => if g.2.team = t then n + 2 ^ (8 * g.2.role) else n) 0
/-- A phaser leaf entry of 32 bytes (R237, R254). -/
def leafPuts (base obj : Nat) (n : PhNode) : List Put :=
  [(base, 4, obj), (base + 4, 4, n.o.toNat), (base + 8, 4, n.rn), (base + 12, 4, n.rx), (base + 16, 4, n.a), (base + 20, 4, n.e),
   (base + 24, 4, n.f.toNat), (base + 28, 4, boolBit n.x)]
/-- The leaf entries of a block: its objects, then the default phasers of its teams, by their number in the team table, under
2^31 + that number (R234, R333). -/
def leafEntries (x : SavedCore) : List (Nat × PhNode) := x.leaves ++ x.teams.mapIdx fun i t => (2 ^ 31 + i, t.2.bar)
/-- The offset of each team's carve-out in the scratchpad region. -/
def carveBases (x : SavedCore) : List Nat := (x.teams.foldl (fun (l : List Nat × Nat) t => (l.1 ++ [l.2], l.2 + t.2.scratch)) ([], 0)).1
/-- The numbers of each group's first lane register and first tile in the packed regions. -/
def regBases (x : SavedCore) : List Nat := before (·.regs) 0 (x.groups.map (·.2))
def tileBases (x : SavedCore) : List Nat := before (·.ntiles) 0 (x.groups.map (·.2))
/-- The block of a core (R333). R333 gives the tempo region its order and the cells their bytes; the model has the modes at 0x6000,
TW at 0x6010, two bytes for each row's staging from 0x6020 (the tick, and bit 8 set where the row is staged) and a byte for each
output from 0x6120 (assumption 60). -/
def corePuts (s : State) (x : SavedCore) : List Put :=
  let gs := x.groups
  let regs := regBases x
  let tiles := tileBases x
  let carve0 := carveBases x
  [(0, 8, x.teams.length), (8, 8, gs.length), (16, 8, x.copies.length), (24, 8, (leafEntries x).length)]
    ++ (x.teams.mapIdx fun i t =>
        let gr := grid s t.2.grid
        let b := 0x1000 + 64 * i
        [(b, 4, teamField t.2), (b + 4, 4, roleCounts gs t.1), (b + 8, 4, t.2.index / gr.gang), (b + 12, 4, t.2.index % gr.gang),
         (b + 16, 4, t.2.ways.length), (b + 20, 4, carve0.getD i 0)]).flatten
    ++ (x.tempo.cells.map fun c => (0x2000 + c.1, 1, c.2.toNat / 16 * 128 + c.2.toNat % 16))
    ++ [(0x6000, 16, x.tempo.mode.toNat), (0x6010, 1, x.tempo.tw.toNat)]
    ++ (x.tempo.stage.map fun r => (0x6020 + 2 * r.1, 2, r.2.toNat + 256))
    ++ ((List.range 128).map fun j => (0x6120 + j, 1, (cget 255 x.tempo.out j).toNat))
    ++ (x.copies.mapIdx fun i c =>
        let ws := encode c.2.ins
        let b := 0x8000 + 32 * i
        [(b, 4, ws.getD 0 0), (b + 4, 4, ws.getD 1 0), (b + 8, 8, c.2.opA), (b + 16, 8, c.2.opB),
         (b + 24, 8, (((mget s.ops c.2.op).map (opBatch s)).getD 0).toNat)]).flatten
    ++ ((leafEntries x).mapIdx fun i n => leafPuts (0x8800 + 32 * i) n.1 n.2).flatten
    ++ (gs.mapIdx fun i g =>
        (groupPuts s g.2 g.1 (x.teams.takeWhile fun t => t.1 != g.2.team).length (regs.getD i 0) (tiles.getD i 0)).map fun u =>
          (0x20000 + 4096 * i + u.1, u.2)).flatten
    ++ (gs.mapIdx fun i g => g.2.v.map fun w => (0x60000 + 128 * (regs.getD i 0 + w.1 / 32) + 4 * (w.1 % 32), 4, w.2.toNat)).flatten
    ++ (gs.mapIdx fun i g => g.2.tiles.map fun w => (0xE0000 + 512 * (tiles.getD i 0 + w.1 / 128) + 4 * (w.1 % 128), 4, w.2.toNat)).flatten
    ++ (x.teams.mapIdx fun i t => t.2.carve.map fun b => (0x2E0000 + carve0.getD i 0 + b.1, 1, b.2.toNat)).flatten
/-- The offsets of the words of a block that carry a mark (R347). -/
def coreMarks (x : SavedCore) : List Nat :=
  (x.groups.mapIdx fun i g =>
      (g.2.vBad.map fun k => 0x60000 + 128 * ((regBases x).getD i 0 + k / 32) + 4 * (k % 32))
        ++ g.2.tilesBad.map fun k => 0xE0000 + 512 * ((tileBases x).getD i 0 + k / 128) + 4 * (k % 128)).flatten
    ++ (x.teams.mapIdx fun i t => t.2.carveBad.map fun w => 0x2E0000 + (carveBases x).getD i 0 + 4 * w).flatten
    ++ x.tempo.bad.map fun w => 0x2000 + 4 * w
/-- The block of a core of a partition: 4 MiB from SAVE, by the core's number in it (R322, R333). -/
def saveBase (s : State) (p ctx c : Nat) : Nat := ctxField s p ctx 0x10 8 + 2 ^ 22 * (24 * dieIndex (part s p) (dieOf c) + c % 24)
/-- A core's block is written, every byte of it (R333, R334). -/
def writeBlock (s : State) (p ctx : Nat) (x : SavedCore) : State :=
  let base := saveBase s p ctx x.core
  markPuts (writePuts (zeroPages s base 1024) base (corePuts s x)) base (coreMarks x)

/-! ## Reading back (R333, R334) -/

/-- n bytes of a block. -/
def blockNum (s : State) (base o n : Nat) : Nat := (devRead s (base + o) n).getD 0
/-- The word at an offset of a block is poisoned. -/
def blockBad (s : State) (base o : Nat) : Bool := match resolve s (base + o) with
  | some a => s.memBad.contains (a / 4)
  | none => false
/-- 32 counters from their bytes. -/
def countersOf (x : Nat) : Cells Byte := allLanes.foldl (fun m l => cput 0 m l (BitVec.ofNat 8 (x / 2 ^ (8 * l)))) []
/-- A tour slot as its 512 bytes give it. -/
def loadTour (f : Nat → Nat → Nat) (base : Nat) (t : TourSlot) : TourSlot :=
  { t with
    masks := (List.range 4).map fun i => BitVec.ofNat 64 (f (base + 8 + 8 * i) 8)
    steps := (List.range (f base 8 % 16)).map fun i => BitVec.ofNat 64 (f (base + 40 + 8 * i) 8)
    d := f (base + 112) 8, stat := f (base + 120) 8
    lanes := mmap t.lanes fun l x => { x with step := f (base + 128 + 12 * l) 4 / 2 ^ 8, ptr := BitVec.ofNat 64 (f (base + 132 + 12 * l) 8) } }
/-- A class as its 8 bytes give it. -/
def loadClass (x : Nat) : Class :=
  { next := BitVec.ofNat 8 x, count := x / 2 ^ 8 % 2 ^ 8, err := bit x 16, eb := BitVec.ofNat 8 (x / 2 ^ 24), cause := BitVec.ofNat 8 (x / 2 ^ 32) }
/-- A group as its record, its lane registers and its tiles give it (R334); f reads the block, rec its record. -/
def loadGroup (f : Nat → Nat → Nat) (bad : Nat → Bool) (i reg0 tile0 : Nat) (g : Group) : Group :=
  let rec_ (o n : Nat) : Nat := f (0x20000 + 4096 * i + o) n
  let c := countersOf (rec_ 0x008 32)
  let word (o : Nat) : DWord := BitVec.ofNat 64 (rec_ o 8)
  let regAt (k : Nat) : Nat := 0x60000 + 128 * (reg0 + k / 32) + 4 * (k % 32)
  let tileAt (k : Nat) : Nat := 0xE0000 + 512 * (tile0 + k / 128) + 4 * (k % 128)
  let regs := List.range (32 * g.regs)
  let tiles := List.range (128 * g.ntiles)
  { g with
    pc := wordPos (BitVec.ofNat 64 (rec_ 0x000 8 % 2 ^ 34)), c := c, dup := c, ixb := rec_ 0x028 8 / 2 ^ 16 % 2 ^ 8
    calls := (List.range (rec_ 0x028 8 % 2 ^ 5)).map fun k => ⟨wordPos (word (0x030 + 40 * k)), countersOf (rec_ (0x038 + 40 * k) 32)⟩
    trap := { lvl := bit (rec_ 0x028 8) 8, c := countersOf (rec_ 0x2B0 32), depth := rec_ 0x2D0 8, epc := wordPos (word 0x2D8)
              ecause := BitVec.ofNat 8 (rec_ 0x2E0 8), einfo := word 0x2E8, emask := BitVec.ofNat 32 (rec_ 0x2F0 8) }
    k := (List.range 64).foldl (fun m n => cput 0 m n (word (0x300 + 8 * n))) []
    status8 := BitVec.ofNat 8 (rec_ 0x500 8), seed := word 0x508, sg := BitVec.ofNat 32 (rec_ 0x510 8), sleepLeft := rec_ 0x518 8
    xw := mmap g.xw fun n w => { w with base := rec_ (0x520 + 24 * n) 8, size := rec_ (0x528 + 24 * n) 8, isOpen := bit (rec_ (0x530 + 24 * n) 8) 0 }
    cls := mmap g.cls fun n _ => loadClass (rec_ (0x6E0 + 8 * n) 8)
    u := g.u.map fun _ => BitVec.ofNat 32 (rec_ 0x720 4), uEmit := g.uEmit.map fun _ => BitVec.ofNat 32 (rec_ (if g.u.isSome then 0x724 else 0x720) 4)
    waita := g.waita.map fun _ => (rec_ 0x728 8, rec_ 0x730 8, word 0x738)
    tours := mmap g.tours fun n t => loadTour rec_ (0x800 + 512 * n) t
    v := regs.foldl (fun m k => cput 0 m k (BitVec.ofNat 32 (f (regAt k) 4))) [], vBad := regs.filter fun k => bad (regAt k)
    tiles := tiles.foldl (fun m k => cput 0 m k (BitVec.ofNat 32 (f (tileAt k) 4))) [], tilesBad := tiles.filter fun k => bad (tileAt k) }
/-- The tempo array as the block gives it (R303). -/
def loadTempo (f : Nat → Nat → Nat) (bad : Nat → Bool) : Tempo :=
  { cells := (List.range 16384).foldl (fun m k => let b := f (0x2000 + k) 1; cput 0 m k (BitVec.ofNat 5 (b / 128 * 16 + b % 16))) []
    mode := BitVec.ofNat 128 (f 0x6000 16), tw := BitVec.ofNat 8 (f 0x6010 1)
    stage := (List.range 128).filterMap fun k => let x := f (0x6020 + 2 * k) 2; if 256 ≤ x then some (k, BitVec.ofNat 8 x) else none
    out := (List.range 128).foldl (fun m j => cput 255 m j (BitVec.ofNat 8 (f (0x6120 + j) 1))) []
    bad := (List.range 4200).filter fun w => bad (0x2000 + 4 * w) }
/-- What a restore reads of a core's block: the state that R333 and R334 lay out, beside the model's own names of things. -/
def loadBlock (s : State) (p ctx : Nat) (x : SavedCore) : SavedCore :=
  let base := saveBase s p ctx x.core
  let f := blockNum s base
  let bad := blockBad s base
  { x with
    tempo := loadTempo f bad
    teams := x.teams.mapIdx fun i t =>
      let b := 0x2E0000 + (carveBases x).getD i 0
      (t.1, { t.2 with
        carve := (List.range t.2.scratch).foldl (fun m k => cput 0 m k (BitVec.ofNat 8 (f (b + k) 1))) []
        carveBad := (List.range (t.2.scratch / 4)).filter fun w => bad (b + 4 * w) })
    groups := x.groups.mapIdx fun i g => (g.1, loadGroup f bad i ((regBases x).getD i 0) ((tileBases x).getD i 0) g.2) }

/-! ## Gather areas (R328) -/

/-- A die's gather buffers as bytes (R328). -/
def gatherPuts (gr : Grid) (bufs : List (Nat × Gather × Nat)) : List Put :=
  gr.nodes.flatMap fun n =>
    let b := (bufs.find? fun b => b.1 = n.1).map (·.2)
    let recs := (b.map fun b => b.1.recs).getD []
    [(2 ^ 20 + 64 * n.1, 64, recs.length + n.2.bytes * 2 ^ 16 + ((b.map (·.2)).getD 0) / 1000 * 2 ^ 32)]
      ++ (recs.mapIdx fun k ws => ws.mapIdx fun i w => (2 ^ 14 * n.1 + 256 * k + 4 * i, 4, w.toNat)).flatten

end Sys2Proof.Machine
end

