-- ==== Sys2Proof/Machine/Preempt.lean ====
section
/-! DEFINITION. Time slices, pre-emption, the context save area and restore (R30, R171, R208, R226, R254, R285, R288, R303, R317,
R326, R328 to R334, R338, R339, R355, R356, R388). -/

namespace Sys2Proof.Machine

/-! ## Slices (R330) -/

/-- The length of a context's slice in ns: WEIGHT × Q ÷ 16 (R322, R330). -/
def sliceNs (s : State) (p ctx : Nat) : Nat := (ctxSched s p ctx / 4 % 64 + 1) * (part s p).quantum * 1000 / 16
/-- A queue of the partition has a packet ready: enabled, without error, READ behind WRITE, and where a WAIT is at its head
satisfied by what memory holds, or to be evaluated again after a wake (R326, R330, R336). A packet that waits for a phase or for a page
counts as ready (assumption 114). -/
def packetReady (s : State) (p q : Nat) : Bool :=
  let f := qFlags s p q
  let woken : Bool := match findQueue s p q with
    | some x => x.2.2.wakeSeen
    | none => bit f 2
  bit f 0 && !bit f 1 && qRead s p q != qWrite s p q && (!bit f 4 || woken || waitMet s p q)
/-- The contexts of classes 1 to 3 that have a packet ready or a grid unfinished, in the order of a round. -/
def roundOf (s : State) (p : Nat) : List Nat :=
  let qs := ((List.range 1024).filter (packetReady s p)).map (qCtx s p)
  let gs := (s.grids.filter fun g => g.2.part = p && !g.2.isOver).map fun g => g.2.ctx
  let all := (qs ++ gs).foldl insertNat []
  [1, 2, 3].flatMap fun k => all.filter fun c => ctxClass s p c = k
/-- The context after one in a round. -/
def nextInRound (s : State) (p : Nat) (round : List Nat) (cur : Option Nat) : Option Nat :=
  match cur with
  | none => round.head?
  | some c =>
    let key (x : Nat) : Nat := ctxClass s p x * 4096 + x
    match round.find? fun x => decide (key c < key x) with
    | some x => some x
    | none => round.head?
/-- A WRITE-SIGNAL of a context has performed its write and not its signal (R326). Where the signal has failed and set ERR it still
counts, until software has cleared ERR and the signal is made, or has put another packet in its place (assumption 112). -/
def halfSignal (s : State) (p ctx : Nat) : Bool :=
  (mappedQueues s).any fun q =>
    let m := q.2.2
    m.part = p && qCtx s p m.q = ctx && (m.half.map (·.toNat % 2 ^ 8)) = some 5 && halfDone s p m
/-- The cores that hold teams of a context. -/
def coresOf (s : State) (p ctx : Nat) : List Nat :=
  s.teams.foldl (fun l t => let g := grid s t.2.grid; if g.part = p && g.ctx = ctx then insertNat l t.2.core else l) []
/-- A dirty word was left behind: it holds no store of a group that is still on a core, or one of another besides (R176). -/
def leftBehind (s : State) (w : L1Word) : Bool := w.dirty && (w.by_.isEmpty || w.by_.any fun g => (mget s.groups g).isNone)
/-- A dirty word of a core's L1 was left behind. -/
def dirtyL1 (s : State) (c : Nat) : Bool := (core s c).l1.any fun l => l.2.words.any fun w => leftBehind s w.2
/-- A core writes back the words that were left behind. What of them no group on the core has stored to besides is of no group, and no
release counts it (R226, assumption 93). -/
def writeLeft (s : State) (c : Nat) : State :=
  let left (line w : Nat) : Bool := ((mget (l1Line s c line).words w).map (leftBehind s)).getD false
  let t := modCore s c fun k => { k with l1 := mmap k.l1 fun _ l => { l with words := mmap l.words fun _ w =>
    { w with by_ := w.by_.filter fun g => (mget s.groups g).isSome } } }
  (writeBack t c none none left).1
/-- The cores that held teams of a context's grids, hold none of its now, and have dirty words: those words may be its (R176). -/
def leftCores (s : State) (p ctx : Nat) : List Nat :=
  ((s.grids.filter fun g => g.2.part = p && g.2.ctx = ctx && !g.2.isOver).foldl (fun l g => g.2.cores.foldl insertNat l) []).filter fun c =>
    !(coreCtxs s c).contains (p, ctx) && (core s c).preempt.isNone && dirtyL1 s c
/-- Ask cores to give up a context (R30, R332). -/
def askCores (s : State) (p ctx : Nat) (cs : List Nat) : State :=
  cs.foldl (fun s c => modCore s c fun k => { k with preempt := some (p, ctx) }) s
/-- A slice ends on every core where its context has teams or where they left dirty words: the pre-emption has written these back
before the context runs again (R229). A core that no team holds is pre-empted as the others are; one that another context's teams hold
writes back what was left behind and goes on (assumption 93). -/
def askLeaving (s : State) (p ctx : Nat) : State :=
  let left := leftCores s p ctx
  let s := askCores s p ctx (coresOf s p ctx ++ left.filter fun c => (coreCtxs s c).isEmpty)
  (left.filter fun c => !(coreCtxs s c).isEmpty).foldl writeLeft s
/-- A context that gives up its cores abandons its unsatisfied waits, and its reservations that no node group uses are free (R43,
R326). -/
def leaveSlice (s : State) (p ctx : Nat) : State :=
  let s := abandonWaits s p ctx
  { s with grids := mmap s.grids fun k g =>
      if g.part = p && g.ctx = ctx then { g with reserve := g.reserve.filter fun r => reserveBusy s k r.1 } else g }
/-- TIME_SLICE_EXPIRE: the slice has ended, or its context has nothing left; it renews where no other context is ready, else
the next context's begins, with every core that the slice hands over, and the outgoing one's cores are pre-empted (R326, R330, R388). -/
def execTimeSliceExpire (p : Nat) (s : State) : Out :=
  .next (let x := part s p
    let round := roundOf s p
    let early : Bool := match x.slice with
      | some c => round.contains c && decide (s.time < x.sliceEnd)
      | none => false
    let half : Bool := match x.slice with
      | some c => halfSignal s p c
      | none => false
    if early || half then s
    else match nextInRound s p round x.slice with
      | none => s
      | some c =>
        let s := match x.slice with
          | some old => if old = c then s else askLeaving (leaveSlice s p old) p old
          | none => s
        modPart s p fun x => { x with
          slice := some c, sliceEnd := s.time + sliceNs s p c, lost := if x.slice = some c then x.lost else x.lost.filter (·.1 != c) })
/-- The gangs with a member on a core, of a context. -/
def gangsOn (s : State) (c : Nat) : List (Nat × Nat) :=
  (s.teams.filter fun t => t.2.core = c && t.2.node.isNone).map fun t => (t.2.grid, t.2.index / (grid s t.2.grid).gang)
/-- A set of cores with every core that holds a member of a gang on it (R338). -/
def gangCover (s : State) : Nat → List Nat → List Nat
  | 0, cs => cs
  | n + 1, cs =>
    let gs := cs.flatMap (gangsOn s)
    gangCover s n (s.teams.foldl (fun l t =>
      if t.2.node.isNone && gs.contains (t.2.grid, t.2.index / (grid s t.2.grid).gang) then insertNat l t.2.core else l) cs)
/-- The request is one for class-0 work: it names a reserved core that such work needs (R331). -/
def forClass0 (s : State) (p ctx : Nat) (cores : List Nat) : Bool :=
  ctxClass s p ctx != 0 && class0Work s p && cores.any fun c => (part s p).resv.getLsbD (c % 24)
/-- PREEMPT_REQUEST: dispatch for the context stops, and the cores, with those of their gangs, are to end their runs and drain; what
class-0 work takes is lost to the context (R37, R326, R331, R332, R338). -/
def execPreemptRequest (p ctx : Nat) (cores : List Nat) (s : State) : Out :=
  .next (if halfSignal s p ctx then s
    else
      let cs := (gangCover s 24 (cores.foldl insertNat [])).filter fun c => (coreCtxs s c).contains (p, ctx)
      if cs.isEmpty then s
      else
        let taken := if forClass0 s p ctx cores then (cs.map fun c => (ctx, c)).filter fun l => !(part s p).lost.contains l else []
        modPart (askCores (abandonWaits s p ctx) p ctx cs) p fun x => { x with stopped := insertNat x.stopped ctx, lost := x.lost ++ taken })

/-! ## The drain (R208, R226, R254, R285, R303, R317) -/

/-- The phaser objects of a context. -/
def ctxObjects (s : State) (p ctx : Nat) : List (Nat × Phaser) := s.phs.filter fun o => o.2.here && o.2.part = p && o.2.ctx = ctx
/-- A message is for a core's array. -/
def forArray (c : Nat) (m : Msg) : Bool :=
  m.home = .core c && (isScratchWrite m.body || (match m.body with | .sread _ _ _ _ => true | _ => false))
/-- The lanes of tours of a core's groups that have not been sent. -/
def unsentLanes (s : State) (c : Nat) : Nat :=
  (coreGroups s c).foldl (fun n g => (g.2.tours.filter fun t => !t.2.sent).foldl (fun n t => n + t.2.lanes.length) n) 0
/-- A tour is at rest: none of its lanes is in flight, or it waits for a copy that is stopped or for a collective (R208, R310, R317). -/
def tourRests (s : State) (t : TourSlot) : Bool :=
  if t.sent then t.lanes.all fun l => l.2.st != .inFlight else !enginesGone s t
/-- A group that was killed has ended, or an engine still works for it (R351, R357). -/
def killMade (s : State) (gid : Nat) (g : Group) : Bool :=
  !killedGroup s g || s.ops.any fun o => o.2.gid = gid && o.2.parts != 0
/-- Every run of a core has ended, no access of a gang's member to its array is on its way, and its engines have drained; a copy that
waits for a page that is not present is stopped and saved, any other completes (R206, R208, R332). -/
def coreDrained (s : State) (c p ctx : Nat) : Bool :=
  let gs := coreGroups s c
  let mine (gid : Nat) : Bool := gs.any fun g => g.1 = gid
  let k := core s c
  !(s.net.any (forArray c)) && (k.slots.all fun x => x.2.holder.isNone && x.2.mx.isEmpty) && k.tq.isEmpty
    && (s.teams.all fun t => t.2.core != c || t.2.started)
    && outstanding s c = unsentLanes s c
    && (s.copies.all fun x => x.2.core != c || (x.2.waiting && x.2.out = 0 && !x.2.failed && !atsOut s (.copy x.1)))
    && (s.ops.all fun o => !mine o.2.gid || o.2.parts = 0 || o.2.cls = .cp || o.2.cls = .cl || o.2.cls = .tour)
    && (gs.all fun g => (homeBound s g.1).isEmpty
        && (g.2.tours.all fun t => tourRests s t.2)
        && (g.2.h.all fun h => h.2.st != .joining && h.2.st != .leaving)
        && (g.2.hold.all fun h => h.ops.head? != some 3 || h.res.isSome)
        && killMade s g.1 g.2)
    && (s.ports.all fun x => !mine x.2.gid)
    && (s.pnet.all fun m => !((ctxObjects s p ctx).any fun o => o.1 = m.2.obj) || (m.2.dst != c && !m.2.path.contains c))
/-- A core and every core that shares a gang with it have drained: the members of a gang are saved together, and a kill of one ends
before (R257, R338, R357). -/
def drained (s : State) (c p ctx : Nat) : Bool := (gangCover s 24 [c]).all fun m => coreDrained s m p ctx

/-! ## Saving a core (R208, R254, R332, R333) -/

/-- The saved context, empty where nothing is saved. -/
def savedOf (s : State) (p ctx : Nat) : Saved := (s.saved.find? fun x => x.part = p && x.ctx = ctx).getD { part := p, ctx := ctx }
def putSaved (s : State) (x : Saved) : State :=
  let rest := s.saved.filter fun y => !(y.part = x.part && y.ctx = x.ctx)
  { s with saved := if x.cores.isEmpty && x.gather.isEmpty then rest else rest ++ [x] }
/-- A group as it is saved: its parks and walks are given up, its holding register is emptied but for a registration that the
network has already seen, and its clocks stop (R98, R110, R171, R226). -/
def savedGroup (s : State) (g : Group) : Group :=
  { g with
    hold := g.hold.filter fun h => h.ops.head? = some 3 || h.ops.head? = some 5
    heldWalks := [], walksOut := [], stalled := false, y := {}, woken := false, runPkts := 0
    cycles := g.cycles + (s.cycle - g.since), sleepLeft := g.sleepLeft - (s.cycle - g.since), since := s.cycle }
/-- A party belongs to a core's groups or copies. -/
def partyOn (s : State) (c : Nat) : Party → Bool
  | .group g | .lane g _ _ | .waita g | .fetch g | .window g => ((mget s.groups g).map (·.core)) = some c
  | .copy id => ((mget s.copies id).map (·.core)) = some c
  | _ => false
/-- Interest in monitors and walks of a core's groups is dropped, and what the host may still answer (R171, R317, R346). -/
def dropInterest (s : State) (c : Nat) : State :=
  { s with
    dies := mmap s.dies fun _ d => { d with mon := (d.mon.map fun m => { m with who := m.who.filter fun w => !partyOn s c w }).filter fun m => !m.who.isEmpty }
    walks := s.walks.filter fun w => !partyOn s c w.2.who
    hostReqs := mmap s.hostReqs fun _ r => if partyOn s c r.who then { r with stale := true } else r }
/-- A drained core's state is saved and the core is free (R254, R288, R332 to R334). -/
def saveCore (s : State) (c p ctx : Nat) : State :=
  let k := core s c
  let gs := mmap (coreGroups s c) fun _ g => savedGroup s g
  let ts := s.teams.filter fun t => t.2.core = c
  let leaves := (ctxObjects s p ctx).filterMap fun o => (mget o.2.nodes c).map fun n => (o.1, n)
  let x : SavedCore := { core := c, teams := ts, groups := gs, tempo := k.tempo, copies := s.copies.filter fun x => x.2.core = c, leaves := leaves }
  let s := if ts.isEmpty then s else writeBlock s p ctx x
  let s := dropInterest s c
  let s := { s with
    groups := s.groups.filter fun g => g.2.core != c
    teams := s.teams.filter fun t => t.2.core != c
    copies := s.copies.filter fun y => y.2.core != c
    phs := mmap s.phs fun _ o => if o.part = p && o.ctx = ctx then { o with nodes := mdel o.nodes c } else o
    grids := mmap s.grids fun _ g => if g.part = p && g.ctx = ctx then { g with reserve := g.reserve.filter fun r => r.2.1 != c } else g }
  let s := modCore s c fun k => { k with slots := [], tempo := {}, preempt := none }
  let y := savedOf s p ctx
  let s := if ts.isEmpty then s else putSaved s { y with cores := y.cores ++ [x] }
  if s.cores.any fun k => k.2.preempt = some (p, ctx) then s
  else modPart s p fun x => { x with stopped := x.stopped.filter (· != ctx) }
/-- The groups of a core and of the cores that share a gang with it whose two copies of the counters differ, but for those that a kill
or an abort has stopped (R350). -/
def unequalGroups (s : State) (c : Nat) : List Nat :=
  ((gangCover s 24 [c]).flatMap fun m => (coreGroups s m).filter fun g => decide (g.2.c ≠ g.2.dup) && !stoppedGroup s g.2).map (·.1)
/-- CORE_STATE_SAVE: once the core has drained, the copies of its groups' counters are compared, a difference killing the gang; then
it writes back and empties its L1, and once that is performed it saves (R208, R226, R332, R333, R350). -/
def execCoreStateSave (c : Nat) (s : State) : Out :=
  .next (match (core s c).preempt with
    | none => s
    | some (p, ctx) =>
      if !drained s c p ctx then s
      else if !(unequalGroups s c).isEmpty then
        (unequalGroups s c).foldl (fun s g => killGang s g 0x41 (grp s g).pc.pkt false) s
      else
        let (s, ns) := writeBack (disown s c) c none none fun _ _ => true
        let s := modCore s c fun k => { k with l1 := [] }
        if ns.isEmpty && (coreBound s c).isEmpty then saveCore s c p ctx else s)
/-- GATHER_BUFFER_SAVE: once no team of the context is left on a core and no record is on its way to the die, its buffers and what
is left of their timers are saved, a header for every declared node, empty ones included (R328, R339). -/
def execGatherBufferSave (p ctx d : Nat) (s : State) : Out :=
  .next (let mine (gid : Nat) : Bool := (grid s gid).part = p && (grid s gid).ctx = ctx
    let coming := s.net.any fun m => match m.body with
      | .record gid _ _ => mine gid && m.home = .die d
      | _ => false
    let held := s.ports.any fun x => x.2.records.any fun r => r.1 = d && mine r.2.1
    let bufs := (die s d).gather.filter fun b => mine b.grid
    let declared := s.grids.any fun g => mine g.1 && !g.2.isOver && !g.2.nodes.isEmpty
    let already := (mget (savedOf s p ctx).gather d).isSome
    if scheduled s p ctx || coming || held || !declared || already || !(coresOf s p ctx).isEmpty || !(part s p).dies.getLsbD d then s
    else
      let left := bufs.map fun b => { b with lapse := b.lapse.map (· - s.time) }
      let base := ctxField s p ctx 0x18 8 + 2 ^ 21 * dieIndex (part s p) d
      let s := (s.grids.filter fun g => g.2.part = p && g.2.ctx = ctx && !g.2.isOver).foldl (fun s g =>
        writePuts s base (gatherPuts g.2 ((left.filter fun b => b.grid = g.1).map fun b => (b.node, b, b.lapse.getD 0)))) s
      let s := modDie s d fun x => { x with gather := x.gather.filter fun b => !mine b.grid }
      let y := savedOf s p ctx
      putSaved s { y with gather := mput y.gather d left })

/-! ## Restore (R165, R171, R198, R254, R317, R356, R388) -/

/-- The buffers of a context are reloaded and their timers count on (R328). -/
def restoreGather (s : State) (x : Saved) : State :=
  x.gather.foldl (fun s d => d.2.foldl (fun s b =>
    setBuffer s d.1 { b with lapse := b.lapse.map (s.time + ·) }) s) s
/-- A window is rebuilt as XWOPEN builds it; where its base faults or is absent, or an invalidation holds its walk, its limit is 0; a
poisoned entry that the walk reads is consumed (R165, R337, R347). -/
def rebuildWindow (s : State) (gid n : Nat) (w : Window) : State :=
  let g := grp s gid
  if !w.isOpen then s
  else
    let none_ : Window := { isOpen := true, base := w.base, size := w.size }
    let (s, x) := match if walkHeld s (partOf s g) (ctxOf s g) w.base then .error .miss else openWindow s (grp s gid) w.base w.size with
      | .ok (s, x) => (s, x)
      | .error (.poison a) => (killGang s gid 0x42 a true, none_)
      | .error _ => (s, none_)
    modGrp s gid fun g => { g with xw := mput g.xw n x }
/-- What a saved wait becomes (R171, R198, R254). -/
def resumeGroup (s : State) (gid : Nat) : State :=
  let g := grp s gid
  match g.status with
  | .parked | .waiting .walks | .ready => setGrp s gid (makeReady s g)
  | .waiting (.mem _ n e _) =>
    let s := setGrp s gid { g with status := .waiting (.mem noPa n e 0) }
    (addWalk s { part := partOf s g, ctx := ctxOf s g, va := 0, write := false, who := .waita gid, die := dieOf g.core, retry := true, notBefore := s.time }).1
  | .waiting (.batch c _) | .waiting (.count c _) => checkWait s gid c
  | _ => s
/-- A leaf that has missed phases, as it stands before the last of them, now - 1, is done: signals for the phases between are for
completed ones and go (R254, R259). -/
def caughtUp (n : PhNode) (now : Word) : PhNode :=
  if n.o = now || n.o + 1 = now then n
  else { n with
    o := now - 1, rn := n.rx, a := 0, e := 0, x := false, sent := false
    early := (n.held.filter fun h => h.2 = now).map (·.1), held := n.held.filter fun h => !phaseDone now h.2 }
/-- A saved leaf as it stands when its new core has open phase now: its open phase is now, with the early and held signals that this
opens (R238, R241, R254). The second part is the finders that signal the phase in ANY mode. -/
def settle (p : Phaser) (c : Nat) (n : PhNode) (now f : Word) : PhNode × List Word :=
  if n.o = now then (n, [])
  else
    let x := doneState { p with nodes := mput p.nodes c (caughtUp n now) } c (now - 1) f
    if p.any then
      ({ x with early := (x.held.filter fun h => h.2 = now + 1).map (·.1), held := x.held.filter fun h => !(h.2 = now || h.2 = now + 1) },
        x.early ++ (x.held.filter fun h => h.2 = now).map (·.1))
    else
      let due := x.held.filter fun h => h.2 = now || h.2 = now + 1
      ({ x with held := x.held.filter fun h => !due.contains h
                a := x.a + (due.filter fun h => h.2 = now).length, e := x.e + (due.filter fun h => h.2 != now).length }, [])
/-- Two leaf entries of one core in one open phase as one: what has not arrived yet is counted, and what has been sent is not sent
again (R238, R254). -/
def joinLeaves (x y : PhNode) : PhNode :=
  let (rn, a, sent) :=
    if x.sent = y.sent then (x.rn + y.rn, x.a + y.a, x.sent)
    else
      let (said, open_) := if x.sent then (x, y) else (y, x)
      if open_.rn = 0 then (said.rn, said.a + open_.a, true) else (open_.rn, open_.a, false)
  { x with
    rn := rn, a := a, sent := sent, rx := x.rx + y.rx, e := x.e + y.e, x := x.x || y.x, early := x.early ++ y.early
    leaving := x.leaving ++ y.leaving, held := x.held ++ y.held, via := x.via ++ y.via }
/-- A saved phaser leaf at its new core: a team's phaser and a die's move whole, a leaf on another die asks for its weight to be
moved; the leaf learns of the phases that have passed, and joins the entry that other teams of the core have (R254). -/
def installLeaf (s : State) (old c obj : Nat) (n : PhNode) : State :=
  let p := phaserOf s obj
  if p.scope = 0 then modPh s obj fun p => { p with nodes := mput p.nodes c n }
  else
    let od := dieOf old
    let nd := dieOf c
    let s := if p.scope = 1 && od != nd then modPh s obj fun p => { p with
        bound := some nd, nodes := match mget p.nodes (dieNode od) with
          | some x => mput (mdel p.nodes (dieNode od)) (dieNode nd) x
          | none => p.nodes }
      else s
    let far := p.scope != 1 && od != nd
    let s := growPath s obj c
    let ahead (s : State) : Bool := phaseDone (n.o - 1) (phNode (phaserOf s obj) c).o
    let s := if ahead s then doneAt (doneFuel s obj c) s obj c (n.o - 1) n.f else s
    let here := phNode (phaserOf s obj) c
    let (x, now) := settle (phaserOf s obj) c n here.o here.f
    let x := { x with via := x.via ++ (if far && (n.rx != 0 || n.rn != 0) then [(dieNode od, none)] else []) }
    let s := modNode s obj c fun y => joinLeaves y x
    let s := if far && (n.rx != 0 || n.rn != 0) then changeUp s obj c [] (.move n.rx od 0) else s
    let s := if (phaserOf s obj).any then now.foldl (fun s r => anySignal s obj c here.o r) (skipPhase s obj c (here.o - 1))
      else checkNode s obj c
    wakePhase s obj c
/-- No arrival of a leaf's open phase or a later one goes to a die that it was moved from (R254). -/
def pathHome (y : PhNode) : Bool := y.via.all fun v => match v.2 with
  | some g => !phaseDone (g - 1) y.o
  | none => false
/-- A core's entries for the phasers of a saved core admit the saved ones: a core has one path for its arrivals, so where teams there
are registered on one of the phasers, both come from the core's own die (R254, assumption 105). -/
def leafAllows (s : State) (x : SavedCore) (c : Nat) : Bool :=
  x.leaves.all fun l =>
    let p := phaserOf s l.1
    p.scope = 0 || match mget p.nodes c with
      | none => true
      | some y => dieOf x.core = dieOf c && y.via.isEmpty && l.2.via.isEmpty
          || (y.rn = 0 && y.rx = 0 && pathHome y && (coreGroups s c).all fun g => g.2.h.all fun h => h.2.st != .joining || h.2.id.toNat % 2 ^ 20 != l.1)
/-- A die-scope object whose die still holds other leaves keeps a restored team on that die (R254). -/
def dieAllows (s : State) (x : SavedCore) (d : Nat) : Bool :=
  x.leaves.all fun l =>
    let p := phaserOf s l.1
    p.scope != 1 || p.bound.isNone || p.bound = some d || p.nodes.all fun n => !isLeaf n.1
/-- A core takes a saved core's tempo array: it holds no team, or one array serves both (R288, R303, assumption 90). -/
def arrayAllows (s : State) (x : SavedCore) (c : Nat) : Bool :=
  !(s.teams.any fun t => t.2.core = c) || (core s c).tempo = x.tempo
/-- The teams of a grid that is being aborted, and of a gang that was killed, only come back to end: they need no room (R340, R351,
R356). -/
def endsOnly (s : State) (t : Team) : Bool :=
  let gr := grid s t.grid
  gr.ending != .running || (t.node.isNone && ((mget gr.recs (t.index / gr.gang)).getD {}).draining)
/-- A saved core whose stopped teams ask for no room. -/
def liveRoom (s : State) (x : SavedCore) : SavedCore :=
  let dead (t : Nat) : Bool := x.teams.any fun y => y.1 = t && endsOnly s y.2
  { x with
    teams := mmap x.teams fun _ t => if endsOnly s t then { t with ways := [] } else t
    groups := mmap x.groups fun _ g => if dead g.team then { g with regs := 0, ntiles := 0 } else g }
/-- Restored groups of a grid that is being aborted, and of a gang that was killed, stop at once (R340, R351). -/
def stopEnded (s : State) (x : SavedCore) : State :=
  x.teams.foldl (fun s t => match (grid s t.2.grid).ending with
    | .aborting k => t.2.groups.foldl (stopGroup (killCode k)) s
    | _ => if endsOnly s t.2 then t.2.groups.foldl (stopGroup true) s else s) s
/-- A saved copy as its command is carried out again in full (R208). -/
def copyAgain (c : Nat) (y : Copy) : Copy :=
  { y with core := c, waiting := false, units := y.all, out := 0, stream := [], spoiled := none, after := [] }
/-- The saved node groups of a core that ran on their grids' reservations and may again: the reservation of the new die is free, and moves
to the core with them (R43; assumption 107). -/
def onReserves (s : State) (x : SavedCore) (c : Nat) : List (Nat × Team) :=
  let d := dieOf c
  x.teams.filter fun t => t.2.onReserve && !endsOnly s t.2 && mayReserve s (grid s t.2.grid) c && (mget (grid s t.2.grid).reserve d).isSome && !reserveBusy s t.2.grid d
/-- A saved core's teams take a core, whole; their ways are pinned at once, and while a fill is on its way to one of the lines the
core is not taken (R26, R43, R175, R179, R288, R303, R388). -/
def restoreCore (s : State) (p ctx : Nat) (x : SavedCore) (c : Nat) : Option State :=
  let x := liveRoom s x
  let d := dieOf c
  let res := onReserves s x c
  let stand := reservesStand s p ctx d
  let s := res.foldl (fun s t => modGrid s t.2.grid fun g => { g with reserve := mdel g.reserve d }) s
  let room (t : Nat) (n : Nat × Nat × Nat) : Nat × Nat × Nat := match mget res t with
    | some y => reserveNeed (grid s y.grid)
    | none => n
  let need := x.teams.foldl (fun n t => n + (room t.1 (0, 0, t.2.ways.length)).2.2) 0
  let here := (s.teams.filter fun t => t.2.core = c).length
  if !coreOpen s p ctx c || !arrayAllows s x c || 64 < here + x.teams.length || Config.pinnableWays < waysTaken s c + need || !dieAllows s x d
      || !leafAllows s x c || !stand then none
  else (placeAll ((List.range 4).map (slotLoad s c)) (x.groups.map fun g => let n := room g.2.team (g.2.regs, g.2.ntiles, 0); (n.1, n.2.1))).bind fun slots =>
    let s := if x.teams.any fun t => !(grid s t.2.grid).cores.contains c then dropStable s c else s
    let s := x.teams.foldl (fun s t =>
      let ways := takeWays s c t.2.ways.length
      sweep { s with teams := mput s.teams t.1 { t.2 with core := c, ways := ways, swept := sweptAt ways, onReserve := (mget res t.1).isSome } } t.1 512) s
    if x.teams.any fun t => !pinned (team s t.1) then none else
    let s := (x.groups.zip slots).foldl (fun s g =>
      setGrp s g.1.1 { g.1.2 with core := c, slot := g.2, position := freePosition s c g.2, since := s.cycle }) s
    let s := (x.groups.zip slots).foldl (fun s g => match mget res g.1.2.team with
      | some t => modGrid s t.grid fun y => { y with reserve := mput y.reserve d (c, g.2) }
      | none => s) s
    let s := modCore (regain s p ctx c) c fun k => { k with tempo := x.tempo }
    let s := x.teams.foldl (fun s t => modGrid s t.2.grid fun g => { g with cores := insertNat g.cores c }) s
    let s := x.groups.foldl (fun s g => g.2.xw.foldl (fun s w => rebuildWindow s g.1 w.1 w.2) s) s
    let s := x.leaves.foldl (fun s l => installLeaf s x.core c l.1 l.2) s
    let s := x.copies.foldl (fun s y =>
      pump { s with copies := mput s.copies y.1 (copyAgain c y.2) } y.1) s
    let s := x.groups.foldl (fun s g => resumeGroup s g.1) s
    let s := x.groups.foldl (fun s g => g.2.tours.foldl (fun s t => t.2.lanes.foldl (fun s l =>
      if l.2.st = .parked then tourLaunch s g.1 t.1 l.1 false else s) s) s) s
    some (stopEnded s x)
/-- Two saved cores hold members of one gang of a grid that goes on. -/
def gangLinked (s : State) (x y : SavedCore) : Bool :=
  x.teams.any fun a => y.teams.any fun b => a.2.grid = b.2.grid && !endsOnly s a.2 && a.2.node.isNone && b.2.node.isNone
    && a.2.index / (grid s a.2.grid).gang = b.2.index / (grid s b.2.grid).gang
/-- Two saved cores hold handles on one die-scope phaser. -/
def dieLinked (s : State) (x y : SavedCore) : Bool :=
  x.leaves.any fun a => (phaserOf s a.1).scope = 1 && y.leaves.any fun b => a.1 = b.1
/-- The saved cores linked to a first one, and the others. -/
def closeOver (rel : SavedCore → SavedCore → Bool) : Nat → List SavedCore → List SavedCore → List SavedCore × List SavedCore
  | 0, a, b => (a, b)
  | n + 1, a, b =>
    let i := b.filter fun y => a.any fun x => rel x y
    let o := b.filter fun y => !(a.any fun x => rel x y)
    if i.isEmpty then (a, b) else closeOver rel n (a ++ i) o
/-- The sets of saved cores that a relation links. -/
def linkedSets (rel : SavedCore → SavedCore → Bool) : Nat → List SavedCore → List (List SavedCore)
  | 0, _ => []
  | _, [] => []
  | n + 1, x :: t =>
    let (a, b) := closeOver rel (t.length + 1) [x] t
    a :: linkedSets rel n b
/-- The core that lies to c as to_ lies to the first saved core; none where it leaves the die. -/
def shiftCore (first to_ c : Nat) : Option Nat :=
  let r : Int := (c % 24 / 6 : Nat) + ((to_ % 24 / 6 : Nat) - (first % 24 / 6 : Nat) : Int)
  let k : Int := (c % 6 : Nat) + ((to_ % 6 : Nat) - (first % 6 : Nat) : Int)
  if 0 ≤ r ∧ r < 4 ∧ 0 ≤ k ∧ k < 6 then some (24 * dieOf to_ + 6 * r.toNat + k.toNat) else none
/-- The saved cores of linked gangs take cores of a die, as they lay to one another; which is free (assumption 5). -/
def placeGangs (s : State) (p ctx d : Nat) (xs : List SavedCore) : Option State :=
  match xs with
  | [] => some s
  | x0 :: _ =>
    let start := Config.freeIndex s.fresh
    (List.range 24).findSome? fun i =>
      let to_ := 24 * d + (start + i) % 24
      xs.foldl (fun (o : Option State) x => o.bind fun s => (shiftCore x0.core to_ x.core).bind (restoreCore s p ctx x)) (some s)
/-- Gangs that a die-scope phaser ties together take one die; which is free (assumption 5). -/
def placeUnit (s : State) (p ctx : Nat) (us : List (List SavedCore)) : Option State :=
  let dies := partDies (part s p)
  let first := Config.freeIndex (s.fresh + 1) % dies.length
  (dies.drop first ++ dies.take first).findSome? fun d =>
    us.foldl (fun (o : Option State) xs => o.bind fun s => placeGangs s p ctx d xs) (some s)
/-- A part of a unit has not been saved yet: a member of one of its gangs that go on, or a group with a handle on one of its die-scope
phasers whose core is to give up its context, is still on a core (R254, R257, R388). A gang that only comes back to end does so member
by member. -/
def unitSplit (s : State) (x : SavedCore) : Bool :=
  (x.teams.any fun t => t.2.node.isNone && !endsOnly s t.2 && gangHere s t.2.grid (t.2.index / (grid s t.2.grid).gang))
    || x.leaves.any fun l =>
      let p := phaserOf s l.1
      p.scope = 1 && p.nodes.any fun n => isLeaf n.1 && (core s n.1).preempt.isSome
/-- A gang or a node group that could not be placed even with every other team absent aborts its grid; the other teams of its unit
wait (R356). -/
def abortUnfit (s : State) (xs : List SavedCore) : State :=
  xs.foldl (fun s x => x.teams.foldl (fun s t =>
    let gr := grid s t.2.grid
    if endsOnly s t.2 then s
    else match t.2.node with
      | none => neverFits s t.2.grid t.2.index
      | some k =>
        let n := (mget gr.nodes k).getD {}
        if (partDies (part s gr.part)).any fun d => nodeEverFits s t.2.grid d n.regs n.tiles n.ways then s
        else abortGrid s t.2.grid 0x45 (gridRecord s gr 0x45 0xFFFFFFFF)) s) s
/-- The order of the grid whose lowest unfinished gang lies in a unit and waits, the first where there are several (R37). -/
def unitOrder (s : State) (u : List (List SavedCore)) : Option Nat :=
  let low := u.flatten.flatMap fun x => x.teams.filterMap fun t =>
    let gr := grid s t.2.grid
    if t.2.node.isNone && !endsOnly s t.2 && lowestWaits s t.2.grid gr && t.2.index / gr.gang = lowestGang gr then some gr.order else none
  match low with
  | [] => none
  | o :: rest => some (rest.foldl min o)
/-- A gang that was killed has drained and waits to be relaunched (R353). -/
def relaunchWaits (s : State) (gid : Nat) : Bool :=
  (grid s gid).recs.any fun r => r.2.draining && !gangHere s gid r.1 && !savedGang s gid r.1
/-- A unit may take positions now: it waits as unstarted teams do, the waiting lowest unfinished teams of the partition first, by the
acceptance of their grids, then relaunched gangs; node groups, class 0 and what only comes back to end are not held back (R37, R353,
R388). -/
def unitMay (s : State) (p ctx : Nat) (u : List (List SavedCore)) : Bool :=
  let waits := s.grids.filter fun g => g.2.part = p && lowestWaits s g.1 g.2
  let held := u.flatten.flatMap fun x => x.teams.filter fun t => t.2.node.isNone && !endsOnly s t.2
  ctxClass s p ctx = 0 || held.isEmpty || match unitOrder s u with
    | some o => waits.all fun g => decide (o ≤ g.2.order)
    | none => waits.isEmpty && held.all fun t => !relaunchWaits s t.2.grid
/-- Restore one unit where it fits, from what the save area holds (R333, R334); the second part says whether it was. -/
def restoreUnit (s : State) (p ctx : Nat) (us : List (List SavedCore)) : State × Bool :=
  if us.flatten.any (unitSplit s) || !unitMay s p ctx us then (s, false)
  else match placeUnit s p ctx (us.map fun xs => xs.map (loadBlock s p ctx)) with
    | some s => ({ s with fresh := s.fresh + 2 }, true)
    | none => (abortUnfit s us.flatten, false)
/-- The reservations of a context's grids are placed before its teams are, on every die that has room for them (R43, R339). -/
def rebuildReserves (s : State) (p ctx : Nat) : State :=
  (s.grids.filter fun g => g.2.part = p && g.2.ctx = ctx && g.2.ending = .running && !g.2.isOver && !g.2.nodes.isEmpty).foldl (fun s g =>
    (partDies (part s p)).foldl (fun s d => (placeReserve s g.1 d).getD s) s) s
/-- Units with those first that hold lowest unfinished teams, by the acceptance of their grids (R37, R388). -/
def inOrder (s : State) (us : List (List (List SavedCore))) : List (List (List SavedCore)) :=
  (s.grids.foldl (fun l g => insertNat l g.2.order) []).flatMap (fun o => us.filter fun u => unitOrder s u = some o)
    ++ us.filter fun u => (unitOrder s u).isNone
/-- CONTEXT_RESTORE: buffers and reservations first, then every unit of saved cores that finds room; the others wait (R37, R328, R339,
R388). -/
def execContextRestore (p ctx : Nat) (s : State) : Out :=
  .next (if !scheduled s p ctx then s
    else match s.saved.find? fun x => x.part = p && x.ctx = ctx with
      | none => s
      | some x =>
        let s := rebuildReserves (restoreGather s x) p ctx
        let gangs := linkedSets (gangLinked s) (x.cores.length + 1) x.cores
        let tied (a b : List SavedCore) : Bool := a.any fun y => b.any fun z => dieLinked s y z
        let units := gangs.foldl (fun (us : List (List (List SavedCore))) g =>
          let i := us.filter fun u => u.any (tied g)
          let o := us.filter fun u => !(u.any (tied g))
          o ++ [i.flatten ++ [g]]) []
        let (s, left) := (inOrder s units).foldl (fun (a : State × List SavedCore) u =>
          let (t, placed) := restoreUnit a.1 p ctx u
          (t, if placed then a.2 else a.2 ++ u.flatten)) (s, [])
        putSaved s { x with cores := left, gather := [] })

end Sys2Proof.Machine
end

