-- ==== Sys2Proof/Machine/Inval.lean ====
section
/-! DEFINITION. Changing page tables: the invalidation procedure and the host's ATS invalidations (R161, R316, R337, R369,
R370). -/

namespace Sys2Proof.Machine

/-! ## Old frames and what was derived through entries (R337) -/

/-- The frames that an entry of a level covers: a leaf's own, a table's whole subtree. -/
def framesUnder (s : State) : Nat → Nat → Nat → List (Nat × Nat)
  | 0, _, _ => []
  | n + 1, level, a =>
    let e := (devRead s a 8).getD 0
    if !bit e 0 || badEntry level e then []
    else if isLeafEntry level e then
      let b := 2 ^ leafBits level e
      [(pteFrame e / b * b, b)]
    else (List.range 512).flatMap fun i => framesUnder s n (level + 1) (pteFrame e + 8 * i)
/-- A range meets a frame. -/
def meets (frames : List (Nat × Nat)) (a n : Nat) : Bool := frames.any fun f => decide (f.1 < a + n) && decide (a < f.1 + f.2)
/-- The interleaved address, DIE = 31, that R156 maps to an address of a die; none where no interleaved address maps to it. -/
def interleaved (s : State) (pa : Nat) : Option Nat :=
  let t := paTier pa
  let base := (if t = 0 then s.ibaseNear else s.ibaseFar).toNat
  if 2 ≤ t || paOff pa < base then none
  else
    let q := (paOff pa - base) / 4096
    some (mkPa t 31 (4096 * (24 * q + (paDie pa + 24 * q - 5 * q) % 24) + paOff pa % 4096))
/-- A range within a 4 KiB piece of a die meets a frame, under its own address or under its interleaved one (R156). -/
def meetsPa (s : State) (frames : List (Nat × Nat)) (pa n : Nat) : Bool :=
  meets frames pa n || (match interleaved s pa with
    | some a => meets frames a n
    | none => false)
/-- A range of addresses as page tables name them covers a byte of a frame (R161). -/
def coversFrame (s : State) (frames : List (Nat × Nat)) (a n : Nat) : Bool :=
  (List.range (n / 4096 + 2)).any fun i =>
    let x := max a ((a / 4096 + i) * 4096)
    let len := min (a + n) ((x / 4096 + 1) * 4096) - x
    decide (x < a + n) && (meets frames x len || (match resolve s x with
      | some r => meetsPa s frames r len
      | none => false))
/-- An entry lies in an invalidation's range. -/
def Inval.covers (v : Inval) (a : Nat) : Bool := decide (v.entry ≤ a) && decide (a < v.entry + 8 * v.count)
/-- A translation of a VA was derived through the entries: its walk reads one of them. -/
def derived (s : State) (p : Nat) (v : Inval) (ctx va at_ : Nat) : Bool :=
  v.covers at_ || (entriesFrom s va 4 1 (ctxRoot s p ctx)).any v.covers
/-- A TLB without the translations derived through the entries. -/
def cutTlb (s : State) (p : Nat) (v : Inval) (l : List TlbEntry) : List TlbEntry :=
  l.filter fun e => !derived s p v e.ctx e.va e.at_
/-- A window whose direct path covers an old frame has limit 0 (R161, R337). -/
def cutWindow (s : State) (v : Inval) (w : Window) : Window :=
  if w.limit != 0 && coversFrame s v.frames w.frame w.limit then { w with limit := 0 } else w
/-- A group without them: held walks are dropped, and its windows are cut, the one that its holding register keeps too. -/
def cutGroup (s : State) (p : Nat) (v : Inval) (g : Group) : Group :=
  { g with
    heldWalks := g.heldWalks.filter fun h => !(entriesFrom s h.va 4 1 (ctxRoot s p (ctxOf s g))).any v.covers
    hold := g.hold.map fun h => { h with win := h.win.map (cutWindow s v) }
    xw := mmap g.xw fun _ w => cutWindow s v w }
/-- The requests under way from a die, or from one of its cores: what an invalidation drains (R337 step 3 lets it be more than
those to old frames). -/
def underWay (s : State) (d : Nat) (c : Option Nat) : List Nat :=
  let mine (die core : Nat) : Bool := die = d && (match c with | some k => core = k % 24 | none => true)
  (s.net.filter fun m => isRequest m.body && mine m.srcDie m.srcCore).map (·.id)
    ++ (s.rels.filter fun r => mine r.2.srcDie r.2.srcCore).map (·.1)
/-- The dies and cores of a partition that can hold translations: cores by number, dies as 1000 + die. -/
def holders (s : State) (p : Nat) : List Nat :=
  let here (c : Nat) : Bool := (part s p).dies.getLsbD (dieOf c)
  let cs := (s.cores.map (·.1)) ++ s.groups.map fun g => g.2.core
  (cs.filter here).foldl insertNat [] ++ (partDies (part s p)).map (1000 + ·)
/-- Where an invalidation message goes. -/
def holderHome (c : Nat) : Home := if 1000 ≤ c then .die (c - 1000) else .core c
/-- Change the first invalidation of a partition that satisfies a test. -/
def modFirst (f : Inval → Option Inval) : List Inval → List Inval
  | [] => []
  | v :: t => match f v with
    | some w => w :: t
    | none => v :: modFirst f t

/-! ## INVAL (R337, R369) -/

/-- A completed request: MSI-X vector 2p + 1 (R369). -/
def invalDone (s : State) (p : Nat) : State := { s with msix := s.msix ++ [2 * p + 1] }
/-- A write of INVAL: a level outside 1 to 4 changes nothing and completes refused; else walks that read the entries are held
from now on and every core and die is told to remove what was derived through them (R337 steps 1 and 2). -/
def startInval (s : State) (p : Nat) (v : DWord) : State :=
  let x := part s p
  let arg := x.invarg.toNat
  let level := arg / 2 ^ 9 % 8
  if level = 0 || 5 ≤ level then invalDone (modPart s p fun x => { x with refused := true }) p
  else
    let entry := v.toNat % 2 ^ 52
    let count := arg % 2 ^ 9 + 1
    let frames := (List.range count).flatMap fun i => framesUnder s 4 level (entry + 8 * i)
    let hs := holders s p
    let at0 := (resolve s entry).getD entry
    let w : Inval := { ctx := v.toNat / 2 ^ 52, entry := at0, count := count, level := level, values := arg / 2 ^ 12 * 2 ^ 12,
                       frames := frames, cores := hs }
    let s := modPart s p fun x => { x with refused := false, inval := x.inval ++ [w] }
    let d := (partDies x).headD 0
    hs.foldl (fun s c => sendFrom s d 31 none (holderHome c) (.inval p c)) s
/-- INVAL: a register of a partition's block, which no step of bring-up before Derlo's start lets be written (R337, R382). -/
def execInval (p : Nat) (v : DWord) (s : State) : Out := .next (if s.derlo then startInval s p v else s)
/-- INVALIDATION_MESSAGE: a core or die removes translations and window limits; what it had sent before is drained. With a core's
entries those of its die go, from which it could load them again, and with a die's those of all its cores, on which a team may have been
put since the request (R337). -/
def execInvalidationMessage (s : State) : Out :=
  .next (onMessage s (fun b => match b with | .inval _ _ => true | _ => false) fun s m =>
    match m.body with
    | .inval p c =>
      match (part s p).inval.find? fun v => v.cores.contains c with
      | none => s
      | some v =>
        let d := if 1000 ≤ c then c - 1000 else dieOf c
        let t := modDie s d fun x => { x with tlb := cutTlb s p v x.tlb }
        let hit (k : Nat) : Bool := if 1000 ≤ c then dieOf k = d else k = c
        let t := { t with
          cores := mmap t.cores fun k x => if hit k then { x with tlb := cutTlb s p v x.tlb } else x
          groups := mmap t.groups fun _ g => if hit g.core then cutGroup s p v g else g }
        let more := underWay t d (if 1000 ≤ c then none else some c)
        modPart t p fun x => { x with inval := modFirst (fun v => if v.cores.contains c
          then some { v with cores := v.cores.filter (· != c), drain := more.foldl insertNat v.drain } else none) x.inval }
    | _ => s)
/-- L1 words of the old frames are written back and invalidated on every core of the partition, and fills of them stopped; the
write-backs' numbers are drained too (R337 step 4). -/
def flushFrames (s : State) (p : Nat) (frames : List (Nat × Nat)) : State × List Nat :=
  ((holders s p).filter fun c => decide (c < 1000)).foldl (fun (a : State × List Nat) c =>
    let old (line : Nat) (w : Nat) : Bool := meetsPa s frames (128 * line + 4 * w) 4
    let (s, ns) := writeBack a.1 c none none old
    (stopWords (invalidate s c fun l _ w _ => old l w) c fun w => old (w / 32) (w % 32), a.2 ++ ns)) (s, [])
/-- Parties that waited for the entries to be free go on. -/
def releaseHeld (s : State) (p : Nat) : State :=
  (s.copies.filter fun c => (part s p).dies.getLsbD (dieOf c.2.core)).foldl (fun s c => pump s c.1) s
/-- INVALIDATION_DRAIN_DONE: after the drain the L1 words go; once they are home the new values are written, the held walks
released and the completion made (R337 steps 3 to 6); a host's invalidation is answered (R370). -/
def execInvalidationDrainDone (p : Nat) (s : State) : Out :=
  .next (match (part s p).inval with
    | [] => s
    | v :: rest =>
      if !v.cores.isEmpty || !v.drain.all (performed s) then s
      else if !v.flushed then
        let (s, ns) := flushFrames s p v.frames
        modPart s p fun x => { x with inval := { v with flushed := true, drain := ns } :: rest }
      else
        let s := modPart s p fun x => { x with inval := rest }
        if v.ats then (let (s, id) := freshId s; { s with hostOut := s.hostOut ++ [id] })
        else
          let s := (List.range v.count).foldl (fun s i =>
            homeWriteNum s (v.entry + 8 * i) 8 ((devRead s (v.values + 8 * i) 8).getD 0)) s
          invalDone (releaseHeld s p) p)

/-! ## A host's ATS invalidation (R370) -/

/-- A TLB entry of an H = 1 leaf taken from a range of host addresses under a PASID. -/
def fromHost (s : State) (p pasid addr size : Nat) (e : TlbEntry) : Bool :=
  bit e.pte.toNat 63 && ctxPasid s p e.ctx = pasid && meets [(addr, size)] e.host (2 ^ e.bits)
/-- Requests under way to the host, the updates of releases that wait for earlier writes among them. -/
def toHost (s : State) : List Nat :=
  let there (h : Home) : Bool := h = .host 0 || h = .host 1
  (s.net.filter fun m => isRequest m.body && there m.home).map (·.id) ++ (s.rels.filter fun r => there r.2.home).map (·.1)
/-- A partition has a context with a PASID. -/
def hasPasid (s : State) (p pasid : Nat) : Bool :=
  (partDies (part s p)).length != 0 && (List.range (ctxCount (part s p))).any fun c => ctxPasid s p c = pasid
/-- A group without held translations of H = 1 leaves; a WAITA on a host address translates it again before its next read. -/
def cutHost (g : Group) : Group :=
  { g with
    heldWalks := g.heldWalks.filter fun h => match h.res with
      | .leaf _ _ pte _ => !bit pte.toNat 63
      | _ => true
    status := match g.status with
      | .waiting (.mem pa n e line) => .waiting (if paTier pa = 3 then .mem noPa n e 0 else .mem pa n e line)
      | st => st }
/-- Translations of a range and PASID leave the TLBs of a partition (R370). -/
def cutHostTlbs (s : State) (p pasid addr size : Nat) : State :=
  let ds := partDies (part s p)
  let cut (l : List TlbEntry) : List TlbEntry := l.filter fun e => !fromHost s p pasid addr size e
  let t := ds.foldl (fun t d => modDie t d fun y => { y with tlb := cut y.tlb }) s
  { t with
    cores := mmap t.cores fun c k => if ds.contains (dieOf c) then { k with tlb := cut k.tlb } else k
    groups := mmap t.groups fun _ g => if ds.contains (dieOf g.core) then cutHost g else g }
/-- ATS_INVALIDATE_REQUEST: translations of the range and PASID leave the TLBs of every partition, requests under way are drained,
and then the one completion is sent, by way of the first partition that has the PASID (R370). -/
def execAtsInvalidateRequest (pasid addr size : Nat) (s : State) : Out :=
  let ps := (s.parts.filter fun x => hasPasid s x.1 pasid).map (·.1)
  let t := ps.foldl (fun t p => cutHostTlbs t p pasid addr size) s
  .next (match ps with
    | [] => (let (s, id) := freshId s; { s with hostOut := s.hostOut ++ [id] })
    | p :: _ =>
      let v : Inval := { ctx := 0, entry := addr, count := size, level := 0, values := pasid, drain := toHost s, ats := true }
      modPart t p fun y => { y with inval := y.inval ++ [v] })

end Sys2Proof.Machine
end

