-- ==== Sys2Proof/Machine/Package.lean ====
section
/-! DEFINITION. The host registers, bring-up, power, reports and the logs (R344, R345, R369, R380 to R382). -/

namespace Sys2Proof.Machine

/-! ## Reading host registers (R369) -/

/-- LINKS of a boundary: modules at x32 and modules disabled (R385). -/
def linksOf (s : State) (b : Nat) : Nat :=
  let ls := (List.range 96).map fun m => link s (moduleKey b 0 m)
  (ls.filter fun l => l.half && l.st != .disabled).length + (ls.filter fun l => l.st = .disabled).length * 2 ^ 8
/-- Eight bytes of REMOVED: package cores from 64 i (R369). -/
def removedWord (s : State) (i : Nat) : Nat :=
  (List.range 64).foldl (fun n k => if s.removed.contains (64 * i + k) then n + 2 ^ k else n) 0
/-- A register of a partition's block. -/
def partRead (s : State) (p o : Nat) : Option DWord :=
  let x := part s p
  match o with
  | 0x00 => some (x.dies.zeroExtend 64)
  | 0x08 => some (x.resv.zeroExtend 64)
  | 0x10 => some x.ctxtab
  | 0x18 => some x.qtab
  | 0x20 => some x.flog
  | 0x28 => some x.elog
  | 0x30 => some (x.fw.zeroExtend 64 ||| x.fr.zeroExtend 64 <<< 32)
  | 0x38 => some (x.ew.zeroExtend 64 ||| x.er.zeroExtend 64 <<< 32)
  | 0x40 => some (BitVec.ofNat 64 x.quantum)
  | 0x50 => some x.invarg
  | 0x58 => some (BitVec.ofNat 64 (boolBit (x.inval.any fun v => !v.ats) + boolBit x.refused * 2))
  | _ => none
/-- What eight bytes of BAR0 read as, those of LINKS from the two bytes of any boundary on (R385); none where no readable register
stands. -/
def hostRead (s : State) (off : Nat) : Option DWord :=
  if off = 0x00 then some (BitVec.ofNat 64 (Config.vendor.toNat + Config.part * 2 ^ 16))
  else if off = 0x08 then
    some (BitVec.ofNat 64 (boolBit s.verified + boolBit s.memTrained * 2 + boolBit s.linksUp * 4 + boolBit s.locked * 8))
  else if off = 0x10 then some s.ibaseNear
  else if off = 0x18 then some s.ibaseFar
  else if off = 0x20 then some (BitVec.ofNat 64 (s.clock % 2 ^ 12 + s.clockMin % 2 ^ 12 * 2 ^ 16))
  else if off = 0x28 then some (BitVec.ofNat 64 (s.power % 2 ^ 16))
  else if off = 0x30 then some (s.atsbyp.zeroExtend 64)
  else if 0x40 ≤ off ∧ off < 0x88 ∧ off % 8 = 0 then some (BitVec.ofNat 64 (removedWord s ((off - 0x40) / 8)))
  else if 0x100 ≤ off ∧ off < 0x160 ∧ off % 2 = 0 then
    let b := (off - 0x100) / 2
    let at_ (i : Nat) : Nat := if b + i < 38 then linksOf s (b + i) else 0
    some (BitVec.ofNat 64 (at_ 0 + at_ 1 * 2 ^ 16 + at_ 2 * 2 ^ 32 + at_ 3 * 2 ^ 48))
  else if 0x1000 ≤ off ∧ off < 0x1000 + 0x100 * 24 then partRead s ((off - 0x1000) / 0x100) (off % 0x100)
  else none
/-- CLOCK_READ: the read takes the register's value, and the minimum is counted afresh (R369). -/
def execClockRead (s : State) : Out := .next { s with clockMin := s.clock }

/-! ## Writing host registers (R369) -/

/-- The rows and columns of a die mask. -/
def maskRows (m : BitVec 24) : List Nat := (List.range 4).filter fun r => (List.range 6).any fun c => m.getLsbD (6 * r + c)
def maskCols (m : BitVec 24) : List Nat := (List.range 6).filter fun c => (List.range 4).any fun r => m.getLsbD (6 * r + c)
/-- Adjacent numbers. -/
def adjacent : List Nat → Bool
  | a :: b :: t => a + 1 = b && adjacent (b :: t)
  | _ => true
/-- A rectangle of 1, 2, 3, 4, 6, 8, 12 or 24 dies (R329). -/
def isRectangle (m : BitVec 24) : Bool :=
  let rs := maskRows m
  let cs := maskCols m
  adjacent rs && adjacent cs && (rs.all fun r => cs.all fun c => m.getLsbD (6 * r + c))
    && [1, 2, 3, 4, 6, 8, 12, 24].contains (rs.length * cs.length)
/-- A write of DIES (R329, R369). -/
def writeDies (s : State) (p : Nat) (v : DWord) : State :=
  let m := v.truncate 24
  let shares := s.parts.any fun x => x.1 != p && (x.2.dies &&& m) != 0
  if 24 ≤ p || (m != 0 && (!isRectangle m || shares)) then s else modPart s p fun x => { x with dies := m }
/-- DIES, in its step of bring-up or later (R369, R382). -/
def execDies (p : Nat) (v : DWord) (s : State) : Out := .next (if s.derlo then writeDies s p v else s)
/-- A write to a register of a partition's block; none where R369 assigns none. -/
def partWrite (s : State) (p o : Nat) (v : DWord) : Option State :=
  match o with
  | 0x00 => some (writeDies s p v)
  | 0x08 => some (modPart s p fun x => { x with resv := v.truncate 24 })
  | 0x10 => some (modPart s p fun x => { x with ctxtab := v })
  | 0x18 => some (modPart s p fun x => { x with qtab := v })
  | 0x20 => some (modPart s p fun x => { x with flog := v })
  | 0x28 => some (modPart s p fun x => { x with elog := v })
  | 0x30 => some (modPart s p fun x => { x with fr := (v >>> 32).truncate 32 })
  | 0x38 => some (modPart s p fun x => { x with er := (v >>> 32).truncate 32 })
  | 0x40 => some (if 10 ≤ v.toNat ∧ v.toNat ≤ 10000 then modPart s p fun x => { x with quantum := v.toNat } else s)
  | 0x48 => some (startInval s p v)
  | 0x50 => some (modPart s p fun x => { x with invarg := v })
  | 0x58 => some s
  | _ => none
/-- A read-only register of BAR0's first 4 KiB; each boundary's two bytes of LINKS are one (R385). -/
def readOnlyOff (off : Nat) : Bool :=
  off = 0x00 || off = 0x08 || off = 0x20 || off = 0x28 || (decide (0x40 ≤ off) && decide (off < 0x88) && off % 8 = 0)
    || (decide (0x100 ≤ off) && decide (off < 0x160) && off % 2 = 0)
/-- REGISTER_WRITE: eight bytes to BAR0, once Derlo runs, the step of bring-up before; RW registers below 0x1000 ignore writes after
lockdown, read-only registers always (R156, R369, R382). -/
def execRegisterWrite (off : Nat) (v : DWord) (s : State) : Out :=
  if !s.derlo then .next s
  else if off = 0x10 then .next (if s.locked then s else { s with ibaseNear := v >>> 30 <<< 30 })
  else if off = 0x18 then .next (if s.locked then s else { s with ibaseFar := v >>> 30 <<< 30 })
  else if off = 0x30 then .next (if s.locked then s else { s with atsbyp := v.truncate 24 })
  else if readOnlyOff off then .next s
  else if 0x1000 ≤ off ∧ off < 0x1000 + 0x100 * 24 then
    match partWrite s ((off - 0x1000) / 0x100) (off % 0x100) v with
    | some t => .next t
    | none => .fault .unassignedRegister
  else .fault .unassignedRegister

/-! ## Bring-up (R381, R382) -/

/-- POWER_ON: the images verify, or the package does not leave reset (R381). -/
def execPowerOn (verified : Bool) (s : State) : Out := .next { s with verified := s.verified || verified }
/-- LINK_TRAINING_COMPLETE (R382). -/
def execLinkTrainingComplete (s : State) : Out := .next (if s.verified then { s with linksUp := true } else s)
/-- MEMORY_TRAINING_COMPLETE (R382). -/
def execMemoryTrainingComplete (s : State) : Out := .next (if s.linksUp then { s with memTrained := true } else s)
/-- DERLO_START: Derlo starts on every front end (R382). -/
def execDerloStart (s : State) : Out :=
  .next (if s.memTrained && !s.derlo then
      (List.range 96).foldl (fun s i => modFe s i fun f => { f with running := true }) { s with derlo := true }
    else s)
/-- LOCKDOWN (R369, R382). -/
def execLockdown (s : State) : Out := .next (if s.derlo then { s with locked := true } else s)
/-- The measured registers, as bytes: those at 0x0000 to 0x0FFF (R381). -/
def measured (s : State) : List Byte :=
  (List.range 512).flatMap fun i => match hostRead s (8 * i) with
    | some v => bytesOf 8 v.toNat
    | none => []
/-- SPDM_REQUEST: identity, measurements and signature are the device's own secret and images: their bytes are free (R381,
assumption 6). -/
def execSpdmRequest (req : Nat) (s : State) : Out :=
  let free := (List.range 96).map fun i => Config.freeByte (s.fresh + i)
  .next { s with reports := s.reports ++ [(req, measured s ++ free)], fresh := s.fresh + 96 }

/-! ## Power (R380) -/

/-- POWER_SAMPLE: above the envelope the clock falls a step, to its floor; it rises a step after 1 ms below 14.25 kW (R380). -/
def execPowerSample (watts : Nat) (s : State) : Out :=
  let s := { s with power := watts }
  .next (if Config.envelope < watts then
      let c := max Config.clockFloor (s.clock - Config.clockStep)
      { s with clock := c, clockMin := min s.clockMin c, coolSince := none }
    else if watts < Config.resumePower then
      match s.coolSince with
      | none => { s with coolSince := some s.time }
      | some t =>
        if t + 1000000 ≤ s.time then { s with clock := min Config.clockTop (s.clock + Config.clockStep), coolSince := some s.time }
        else s
    else { s with coolSince := none })

/-! ## The logs (R344, R345) -/

/-- A ring's write and read index, base and records. -/
def logFull (w r : Word) (reg : DWord) : Bool := (w - r).toNat = 64 * (reg.toNat % 4096)
def logAddr (w : Word) (reg : DWord) : Nat := reg.toNat / 4096 * 4096 + 64 * (w.toNat % (64 * (reg.toNat % 4096)))
/-- A grid none of whose records is held has its status written (R344). -/
def logWritten (s : State) (p : Nat) (waits : Option Nat) : State :=
  match waits with
  | none => s
  | some g => if (part s p).eheld.any fun r => r.2 = some g then s else modGrid s g fun x => { x with logHeld := false }
/-- LOG_RECORD_WRITE: a held record is written once its ring has room; a fault notice raises vector 2p (R344, R345, R369). -/
def execLogRecordWrite (p : Nat) (errorLog : Bool) (s : State) : Out :=
  let x := part s p
  let write (s : State) (a : Nat) (r : BitVec 512) : State := match resolve s a with
    | some a => homeWriteNum s a 64 r.toNat
    | none => s
  .next (if errorLog then match x.eheld with
      | [] => s
      | (r, waits) :: rest =>
        if logFull x.ew x.er x.elog then s
        else logWritten (modPart (write s (logAddr x.ew x.elog) r) p fun x => { x with eheld := rest, ew := x.ew + 1 }) p waits
    else match x.fheld with
      | [] => s
      | (r, _) :: rest =>
        if logFull x.fw x.fr x.flog then s
        else
          let s := modPart (write s (logAddr x.fw x.flog) r) p fun x => { x with fheld := rest, fw := x.fw + 1 }
          { s with msix := s.msix ++ [2 * p] })

end Sys2Proof.Machine
end

