-- ==== Sys2Proof/Machine/Dispatch.lean ====
section
/-! DEFINITION. One arm per instruction of the opcode table. -/

namespace Sys2Proof.Machine

def exec (i : Instr) (s : State) : Host.Outcome State Fault Refusal :=
  match i with
  | .brx a => Sys2Proof.Machine.execBrx a s
  | .callx a => Sys2Proof.Machine.execCallx a s
  | .ifL o => Sys2Proof.Machine.execIfL o s
  | .breakL o depth => Sys2Proof.Machine.execBreakL o depth s
  | .contL o depth => Sys2Proof.Machine.execContL o depth s
  | .trap code => Sys2Proof.Machine.execTrap code s
  | .sigchk value => Sys2Proof.Machine.execSigchk value s
  | .sleepImm n => Sys2Proof.Machine.execSleepImm n s
  | .sleepK a => Sys2Proof.Machine.execSleepK a s
  | .bkpt code => Sys2Proof.Machine.execBkpt code s
  | .bra off => Sys2Proof.Machine.execBra off s
  | .call off => Sys2Proof.Machine.execCall off s
  | .brz a off => Sys2Proof.Machine.execBrz a off s
  | .brnz a off => Sys2Proof.Machine.execBrnz a off s
  | .brany off => Sys2Proof.Machine.execBrany off s
  | .brnone off => Sys2Proof.Machine.execBrnone off s
  | .endloop off => Sys2Proof.Machine.execEndloop off s
  | .kadd d a b => Sys2Proof.Machine.execKadd d a b s
  | .ksub d a b => Sys2Proof.Machine.execKsub d a b s
  | .kmul d a b => Sys2Proof.Machine.execKmul d a b s
  | .kmulh signed d a b => Sys2Proof.Machine.execKmulh signed d a b s
  | .kand d a b => Sys2Proof.Machine.execKand d a b s
  | .kor d a b => Sys2Proof.Machine.execKor d a b s
  | .kxor d a b => Sys2Proof.Machine.execKxor d a b s
  | .kshl d a b => Sys2Proof.Machine.execKshl d a b s
  | .kshr d a b => Sys2Proof.Machine.execKshr d a b s
  | .ksra d a b => Sys2Proof.Machine.execKsra d a b s
  | .kmin signed d a b => Sys2Proof.Machine.execKmin signed d a b s
  | .kmax signed d a b => Sys2Proof.Machine.execKmax signed d a b s
  | .kcmp cc d a b => Sys2Proof.Machine.execKcmp cc d a b s
  | .ksel d a b => Sys2Proof.Machine.execKsel d a b s
  | .kmov d a => Sys2Proof.Machine.execKmov d a s
  | .kpopc d a => Sys2Proof.Machine.execKpopc d a s
  | .kbfe signed d a b => Sys2Proof.Machine.execKbfe signed d a b s
  | .kaddImm d imm => Sys2Proof.Machine.execKaddImm d imm s
  | .ksubImm d imm => Sys2Proof.Machine.execKsubImm d imm s
  | .kmulImm d imm => Sys2Proof.Machine.execKmulImm d imm s
  | .kmulhImm signed d imm => Sys2Proof.Machine.execKmulhImm signed d imm s
  | .kandImm d imm => Sys2Proof.Machine.execKandImm d imm s
  | .korImm d imm => Sys2Proof.Machine.execKorImm d imm s
  | .kxorImm d imm => Sys2Proof.Machine.execKxorImm d imm s
  | .kshlImm d imm => Sys2Proof.Machine.execKshlImm d imm s
  | .kshrImm d imm => Sys2Proof.Machine.execKshrImm d imm s
  | .ksraImm d imm => Sys2Proof.Machine.execKsraImm d imm s
  | .kminImm signed d imm => Sys2Proof.Machine.execKminImm signed d imm s
  | .kmaxImm signed d imm => Sys2Proof.Machine.execKmaxImm signed d imm s
  | .kcmpImm cc d imm => Sys2Proof.Machine.execKcmpImm cc d imm s
  | .kbfeImm signed d imm => Sys2Proof.Machine.execKbfeImm signed d imm s
  | .kli d imm => Sys2Proof.Machine.execKli d imm s
  | .kliLiteral d x => Sys2Proof.Machine.execKliLiteral d x s
  | .klih d x => Sys2Proof.Machine.execKlih d x s
  | .kget d r => Sys2Proof.Machine.execKget d r s
  | .kset r a => Sys2Proof.Machine.execKset r a s
  | .setix n => Sys2Proof.Machine.execSetix n s
  | .setixK a => Sys2Proof.Machine.execSetixK a s
  | .iadd sat d a b => Sys2Proof.Machine.execIadd sat d a b s
  | .iaddc d a b => Sys2Proof.Machine.execIaddc d a b s
  | .isub sat d a b => Sys2Proof.Machine.execIsub sat d a b s
  | .imul kind d a b => Sys2Proof.Machine.execImul kind d a b s
  | .imin signed d a b => Sys2Proof.Machine.execImin signed d a b s
  | .imax signed d a b => Sys2Proof.Machine.execImax signed d a b s
  | .iabs d a => Sys2Proof.Machine.execIabs d a s
  | .iand d a b => Sys2Proof.Machine.execIand d a b s
  | .ior d a b => Sys2Proof.Machine.execIor d a b s
  | .ixor d a b => Sys2Proof.Machine.execIxor d a b s
  | .ishl d a b => Sys2Proof.Machine.execIshl d a b s
  | .ishr d a b => Sys2Proof.Machine.execIshr d a b s
  | .isra d a b => Sys2Proof.Machine.execIsra d a b s
  | .ibfe signed d a b => Sys2Proof.Machine.execIbfe signed d a b s
  | .ipopc d a => Sys2Proof.Machine.execIpopc d a s
  | .iclz d a => Sys2Proof.Machine.execIclz d a s
  | .ibrev d a => Sys2Proof.Machine.execIbrev d a s
  | .imad d a b e => Sys2Proof.Machine.execImad d a b e s
  | .isel d a b e => Sys2Proof.Machine.execIsel d a b e s
  | .ibfi d a b e => Sys2Proof.Machine.execIbfi d a b e s
  | .icmp cc d a b => Sys2Proof.Machine.execIcmp cc d a b s
  | .fadd d a b => Sys2Proof.Machine.execFadd d a b s
  | .fsub d a b => Sys2Proof.Machine.execFsub d a b s
  | .fmul d a b => Sys2Proof.Machine.execFmul d a b s
  | .fmin d a b => Sys2Proof.Machine.execFmin d a b s
  | .fmax d a b => Sys2Proof.Machine.execFmax d a b s
  | .fabs d a => Sys2Proof.Machine.execFabs d a s
  | .fneg d a => Sys2Proof.Machine.execFneg d a s
  | .fclass d a => Sys2Proof.Machine.execFclass d a s
  | .frnd m d a => Sys2Proof.Machine.execFrnd m d a s
  | .ffma d a b e => Sys2Proof.Machine.execFfma d a b e s
  | .hadd2 t d a b => Sys2Proof.Machine.execHadd2 t d a b s
  | .hmul2 t d a b => Sys2Proof.Machine.execHmul2 t d a b s
  | .hmin2 t d a b => Sys2Proof.Machine.execHmin2 t d a b s
  | .hmax2 t d a b => Sys2Proof.Machine.execHmax2 t d a b s
  | .hfma2 d a b e => Sys2Proof.Machine.execHfma2 d a b e s
  | .fcmp cc d a b => Sys2Proof.Machine.execFcmp cc d a b s
  | .frcp d a => Sys2Proof.Machine.execFrcp d a s
  | .frsq d a => Sys2Proof.Machine.execFrsq d a s
  | .fsqrt d a => Sys2Proof.Machine.execFsqrt d a s
  | .fexp2 d a => Sys2Proof.Machine.execFexp2 d a s
  | .flog2 d a => Sys2Proof.Machine.execFlog2 d a s
  | .fsin d a => Sys2Proof.Machine.execFsin d a s
  | .fcos d a => Sys2Proof.Machine.execFcos d a s
  | .fcvt dst src m d a => Sys2Proof.Machine.execFcvt dst src m d a s
  | .icvt k m d a => Sys2Proof.Machine.execIcvt k m d a s
  | .pack t d a b => Sys2Proof.Machine.execPack t d a b s
  | .unpack t d a b => Sys2Proof.Machine.execUnpack t d a b s
  | .scxp d a b => Sys2Proof.Machine.execScxp d a b s
  | .mov d a => Sys2Proof.Machine.execMov d a s
  | .shfl d a b => Sys2Proof.Machine.execShfl d a b s
  | .shflx d a b => Sys2Proof.Machine.execShflx d a b s
  | .shflup d a b => Sys2Proof.Machine.execShflup d a b s
  | .shfldn d a b => Sys2Proof.Machine.execShfldn d a b s
  | .vote op d a => Sys2Proof.Machine.execVote op d a s
  | .redq op d a => Sys2Proof.Machine.execRedq op d a s
  | .scanq op d a => Sys2Proof.Machine.execScanq op d a s
  | .prmt d a b e => Sys2Proof.Machine.execPrmt d a b e s
  | .ld sz d win off imm => Sys2Proof.Machine.execLd sz d win off imm s
  | .st sz data win off imm => Sys2Proof.Machine.execSt sz data win off imm s
  | .lds sz d off imm => Sys2Proof.Machine.execLds sz d off imm s
  | .ldsGang sz d mem off imm => Sys2Proof.Machine.execLdsGang sz d mem off imm s
  | .sts sz data off imm => Sys2Proof.Machine.execSts sz data off imm s
  | .ldp sz d win off imm => Sys2Proof.Machine.execLdp sz d win off imm s
  | .xwopen n a b => Sys2Proof.Machine.execXwopen n a b s
  | .xwclose n => Sys2Proof.Machine.execXwclose n s
  | .kldp wide d win a imm => Sys2Proof.Machine.execKldp wide d win a imm s
  | .kldg wide d win a imm => Sys2Proof.Machine.execKldg wide d win a imm s
  | .atom op sc ord win data off => Sys2Proof.Machine.execAtom op sc ord win data off s
  | .red op sc release win data off => Sys2Proof.Machine.execRed op sc release win data off s
  | .atoms op sc ord gang data off => Sys2Proof.Machine.execAtoms op sc ord gang data off s
  | .cas wide sc ord win data off => Sys2Proof.Machine.execCas wide sc ord win data off s
  | .aggr sc ord win data off => Sys2Proof.Machine.execAggr sc ord win data off s
  | .putf wide sc win data off => Sys2Proof.Machine.execPutf wide sc win data off s
  | .waita wide win data off => Sys2Proof.Machine.execWaita wide win data off s
  | .pref l2 win off => Sys2Proof.Machine.execPref l2 win off s
  | .cpy a b xw tag sstr rlen => Sys2Proof.Machine.execCpy a b xw tag sstr rlen s
  | .cpyg a b xw tag rlen => Sys2Proof.Machine.execCpyg a b xw tag rlen s
  | .cpys a b xw tag sstr rlen => Sys2Proof.Machine.execCpys a b xw tag sstr rlen s
  | .cpyx a b xw tag ncode => Sys2Proof.Machine.execCpyx a b xw tag ncode s
  | .lda wide sc win data off => Sys2Proof.Machine.execLda wide sc win data off s
  | .stl wide sc win data off => Sys2Proof.Machine.execStl wide sc win data off s
  | .fence sc ord => Sys2Proof.Machine.execFence sc ord s
  | .promote sc data => Sys2Proof.Machine.execPromote sc data s
  | .wbr win data off => Sys2Proof.Machine.execWbr win data off s
  | .invr win data off => Sys2Proof.Machine.execInvr win data off s
  | .close c => Sys2Proof.Machine.execClose c s
  | .waitb c n => Sys2Proof.Machine.execWaitb c n s
  | .waitbK c a => Sys2Proof.Machine.execWaitbK c a s
  | .waitc c n => Sys2Proof.Machine.execWaitc c n s
  | .phnew a h => Sys2Proof.Machine.execPhnew a h s
  | .phfree h => Sys2Proof.Machine.execPhfree h s
  | .phjoin d b h m => Sys2Proof.Machine.execPhjoin d b h m s
  | .phleave h => Sys2Proof.Machine.execPhleave h s
  | .phsig h w => Sys2Proof.Machine.execPhsig h w s
  | .phwait a h => Sys2Proof.Machine.execPhwait a h s
  | .phsw a h w => Sys2Proof.Machine.execPhsw a h w s
  | .phrd d h => Sys2Proof.Machine.execPhrd d h s
  | .emit r n => Sys2Proof.Machine.execEmit r n s
  | .mmq a b strm ru t tq boff => Sys2Proof.Machine.execMmq a b strm ru t tq boff s
  | .mmqz a b strm ru q af16 tq sel boff => Sys2Proof.Machine.execMmqz a b strm ru q af16 tq sel boff s
  | .mmqt a pair strm ru t tq boff => Sys2Proof.Machine.execMmqt a pair strm ru t tq boff s
  | .aclr strm tf n1 => Sys2Proof.Machine.execAclr strm tf n1 s
  | .alds base strm t tf n1 => Sys2Proof.Machine.execAlds base strm t tf n1 s
  | .asts base strm t tf n1 m => Sys2Proof.Machine.execAsts base strm t tf n1 m s
  | .amov d strm tq => Sys2Proof.Machine.execAmov d strm tq s
  | .aadd strm td ts n1 => Sys2Proof.Machine.execAadd strm td ts n1 s
  | .ascl f strm tf n1 => Sys2Proof.Machine.execAscl f strm tf n1 s
  | .twin tw => Sys2Proof.Machine.execTwin tw s
  | .tloadw base nr1 fr => Sys2Proof.Machine.execTloadw base nr1 fr s
  | .tcfg bits h => Sys2Proof.Machine.execTcfg bits h s
  | .tstage a rb => Sys2Proof.Machine.execTstage a rb s
  | .tfire fb => Sys2Proof.Machine.execTfire fb s
  | .tcapt d cb => Sys2Proof.Machine.execTcapt d cb s
  | .tourLd a d stat pw wide loff => Sys2Proof.Machine.execTourLd a d stat pw wide loff s
  | .tourAdd a d stat pw wide loff => Sys2Proof.Machine.execTourAdd a d stat pw wide loff s
  | .coll base d xw tag cid op ty arrival kind => Sys2Proof.Machine.execColl base d xw tag cid op ty arrival kind s
  | .commqCreate xw a d cid => Sys2Proof.Machine.execCommqCreate xw a d cid s
  | .commqDestroy xw d cid => Sys2Proof.Machine.execCommqDestroy xw d cid s
  | .commqAbort xw d cid => Sys2Proof.Machine.execCommqAbort xw d cid s
  | .commqQuery xw d cid => Sys2Proof.Machine.execCommqQuery xw d cid s
  | .fetchr rd rs1 => Sys2Proof.Machine.execFetchr rd rs1 s
  | .bfx rd rs1 rs2 => Sys2Proof.Machine.execBfx rd rs1 rs2 s
  | .swait rd rs1 rs2 => Sys2Proof.Machine.execSwait rd rs1 rs2 s
  | .disp rd rs1 rs2 => Sys2Proof.Machine.execDisp rd rs1 rs2 s
  | .swaitWake fe => Sys2Proof.Machine.execSwaitWake fe s
  | .stallRunEnd gid => Sys2Proof.Machine.execStallRunEnd gid s
  | .distributorClaim die grid => Sys2Proof.Machine.execDistributorClaim die grid s
  | .teamStartAttempt die grid => Sys2Proof.Machine.execTeamStartAttempt die grid s
  | .teamStart die grid => Sys2Proof.Machine.execTeamStart die grid s
  | .teamSteal die grid => Sys2Proof.Machine.execTeamSteal die grid s
  | .gatherTimerLapse grid die node => Sys2Proof.Machine.execGatherTimerLapse grid die node s
  | .groupEnd gid => Sys2Proof.Machine.execGroupEnd gid s
  | .gridComplete grid => Sys2Proof.Machine.execGridComplete grid s
  | .launchStatusWrite grid => Sys2Proof.Machine.execLaunchStatusWrite grid s
  | .sleepExpire gid => Sys2Proof.Machine.execSleepExpire gid s
  | .batchComplete gid c => Sys2Proof.Machine.execBatchComplete gid c s
  | .walkComplete w => Sys2Proof.Machine.execWalkComplete w s
  | .translationRetry w => Sys2Proof.Machine.execTranslationRetry w s
  | .waitaReread gid => Sys2Proof.Machine.execWaitaReread gid s
  | .priResponse req ok => Sys2Proof.Machine.execPriResponse req ok s
  | .atsTranslationCompletion req result => Sys2Proof.Machine.execAtsTranslationCompletion req result s
  | .dataFlitSend link => Sys2Proof.Machine.execDataFlitSend link s
  | .replayTimeout link => Sys2Proof.Machine.execReplayTimeout link s
  | .nakRepeat link => Sys2Proof.Machine.execNakRepeat link s
  | .moduleRetrain link badLow badHigh => Sys2Proof.Machine.execModuleRetrain link badLow badHigh s
  | .retrainComplete link => Sys2Proof.Machine.execRetrainComplete link s
  | .packetFetch part q => Sys2Proof.Machine.execPacketFetch part q s
  | .launch part q => Sys2Proof.Machine.execLaunch part q s
  | .write part q => Sys2Proof.Machine.execWrite part q s
  | .signal part q => Sys2Proof.Machine.execSignal part q s
  | .wait part q => Sys2Proof.Machine.execWait part q s
  | .waitSatisfied part q => Sys2Proof.Machine.execWaitSatisfied part q s
  | .writeSignal part q => Sys2Proof.Machine.execWriteSignal part q s
  | .phaser part q => Sys2Proof.Machine.execPhaser part q s
  | .timestamp part q => Sys2Proof.Machine.execTimestamp part q s
  | .fencePacket part q => Sys2Proof.Machine.execFencePacket part q s
  | .queueEnable part q => Sys2Proof.Machine.execQueueEnable part q s
  | .doorbell part q v => Sys2Proof.Machine.execDoorbell part q v s
  | .wakeRegister part q => Sys2Proof.Machine.execWakeRegister part q s
  | .queueUnmap part q => Sys2Proof.Machine.execQueueUnmap part q s
  | .queueRemap part q => Sys2Proof.Machine.execQueueRemap part q s
  | .queueRepoll part q => Sys2Proof.Machine.execQueueRepoll part q s
  | .timeSliceExpire part => Sys2Proof.Machine.execTimeSliceExpire part s
  | .preemptRequest part ctx cores => Sys2Proof.Machine.execPreemptRequest part ctx cores s
  | .coreStateSave core => Sys2Proof.Machine.execCoreStateSave core s
  | .gatherBufferSave part ctx die => Sys2Proof.Machine.execGatherBufferSave part ctx die s
  | .contextRestore part ctx => Sys2Proof.Machine.execContextRestore part ctx s
  | .inval part v => Sys2Proof.Machine.execInval part v s
  | .invalidationDrainDone part => Sys2Proof.Machine.execInvalidationDrainDone part s
  | .atsInvalidateRequest pasid addr size => Sys2Proof.Machine.execAtsInvalidateRequest pasid addr size s
  | .dies part v => Sys2Proof.Machine.execDies part v s
  | .registerWrite off v => Sys2Proof.Machine.execRegisterWrite off v s
  | .powerOn verified => Sys2Proof.Machine.execPowerOn verified s
  | .powerSample watts => Sys2Proof.Machine.execPowerSample watts s
  | .spdmRequest req => Sys2Proof.Machine.execSpdmRequest req s
  | .gangRelaunch grid gang => Sys2Proof.Machine.execGangRelaunch grid gang s
  | .logRecordWrite part errorLog => Sys2Proof.Machine.execLogRecordWrite part errorLog s
  | .tourSend gid slot => Sys2Proof.Machine.execTourSend gid slot s
  | .tourResend gid slot lane => Sys2Proof.Machine.execTourResend gid slot lane s
  | .copyComplete c => Sys2Proof.Machine.execCopyComplete c s
  | .matrixCommandExecute slot strm => Sys2Proof.Machine.execMatrixCommandExecute slot strm s
  | .tempoCommandExecute core => Sys2Proof.Machine.execTempoCommandExecute core s
  | .collStep id => Sys2Proof.Machine.execCollStep id s
  | .collTransferRetry id => Sys2Proof.Machine.execCollTransferRetry id s
  | .collTransferTimeout id => Sys2Proof.Machine.execCollTransferTimeout id s
  | .collCompletionDelivery id => Sys2Proof.Machine.execCollCompletionDelivery id s
  | .unassignedOpcode w => Sys2Proof.Machine.execUnassignedOpcode w s
  | .swaitReread fe => Sys2Proof.Machine.execSwaitReread fe s
  | .nop => Sys2Proof.Machine.execNop s
  | .ret => Sys2Proof.Machine.execRet s
  | .elseL => Sys2Proof.Machine.execElseL s
  | .endifL => Sys2Proof.Machine.execEndifL s
  | .loopL => Sys2Proof.Machine.execLoopL s
  | .exitL => Sys2Proof.Machine.execExitL s
  | .yieldL => Sys2Proof.Machine.execYieldL s
  | .eret => Sys2Proof.Machine.execEret s
  | .bar => Sys2Proof.Machine.execBar s
  | .treset => Sys2Proof.Machine.execTreset s
  | .lockdown => Sys2Proof.Machine.execLockdown s
  | .linkTrainingComplete => Sys2Proof.Machine.execLinkTrainingComplete s
  | .memoryTrainingComplete => Sys2Proof.Machine.execMemoryTrainingComplete s
  | .derloStart => Sys2Proof.Machine.execDerloStart s
  | .clockRead => Sys2Proof.Machine.execClockRead s
  | .gatherRecordArrival => Sys2Proof.Machine.execGatherRecordArrival s
  | .readMessage => Sys2Proof.Machine.execReadMessage s
  | .writeMessage => Sys2Proof.Machine.execWriteMessage s
  | .atomicMessage => Sys2Proof.Machine.execAtomicMessage s
  | .readDataMessage => Sys2Proof.Machine.execReadDataMessage s
  | .writeAcknowledge => Sys2Proof.Machine.execWriteAcknowledge s
  | .releaseMarker => Sys2Proof.Machine.execReleaseMarker s
  | .writeReport => Sys2Proof.Machine.execWriteReport s
  | .tourStep => Sys2Proof.Machine.execTourStep s
  | .engineData => Sys2Proof.Machine.execEngineData s
  | .monitorWake => Sys2Proof.Machine.execMonitorWake s
  | .invalidationMessage => Sys2Proof.Machine.execInvalidationMessage s
  | .collectiveControl => Sys2Proof.Machine.execCollectiveControl s
  | .promoteRequest => Sys2Proof.Machine.execPromoteRequest s
  | .portSignalRelease => Sys2Proof.Machine.execPortSignalRelease s
  | .arrive => Sys2Proof.Machine.execArrive s
  | .phaserSignal => Sys2Proof.Machine.execPhaserSignal s
  | .join => Sys2Proof.Machine.execJoin s
  | .leave => Sys2Proof.Machine.execLeave s
  | .move => Sys2Proof.Machine.execMove s
  | .joined => Sys2Proof.Machine.execJoined s
  | .left => Sys2Proof.Machine.execLeft s
  | .moved => Sys2Proof.Machine.execMoved s
  | .done => Sys2Proof.Machine.execDone s
  | .newFrame => Sys2Proof.Machine.execNewFrame s
  | .freeFrame => Sys2Proof.Machine.execFreeFrame s
  | .idleFrame => Sys2Proof.Machine.execIdleFrame s
  | .ackFrame => Sys2Proof.Machine.execAckFrame s
  | .nakFrame => Sys2Proof.Machine.execNakFrame s
  | .dataFlit => Sys2Proof.Machine.execDataFlit s
  | .idleFlit => Sys2Proof.Machine.execIdleFlit s
  | .ackFlit => Sys2Proof.Machine.execAckFlit s
  | .nakFlit => Sys2Proof.Machine.execNakFlit s
  | .fabricRequestTimeout => Sys2Proof.Machine.execFabricRequestTimeout s
  | .tourReturn => Sys2Proof.Machine.execTourReturn s
  | .pageReturn => Sys2Proof.Machine.execPageReturn s
  | .promoteAcknowledge => Sys2Proof.Machine.execPromoteAcknowledge s

end Sys2Proof.Machine
end

