-- ==== Sys2Proof/Machine/Environment.lean ====
section
/-! DEFINITION. Time, and what comes from outside the rules of the machine: errors of its storage, its counters and its ports, and
what the host and other packages do (R4, R187, R347, R350, R367, R369, R374, R377, R380). -/

namespace Sys2Proof.Machine

/-- n nanoseconds pass: TIME counts them, and the arithmetic clock its cycles at its present rate, whose fractions are kept; the
copies that can go on do (R4, R110, R205, R380). -/
def passTime (s : State) (n : Nat) : State :=
  let ticks := s.subcycle + n * s.clock
  pumpAll { s with time := s.time + n, cycle := s.cycle + ticks / 1000, subcycle := ticks % 1000 }

/-- A word is marked poisoned, where it is there to be marked (R347). -/
def poison (s : State) (x : Stored) : State :=
  match x with
  | .mem w => if cacheable (4 * w) then { s with memBad := insertNat s.memBad w } else s
  | .l1 c line w => modCore s c fun k => match mget k.l1 line with
    | some l => { k with l1 := mput k.l1 line { l with words := mmap l.words fun i y => if i = w then { y with bad := true } else y } }
    | none => k
  | .constant c line w => modCore s c fun k =>
    { k with cc := k.cc.map fun l => if l.line = line then { l with bad := addOnce l.bad w } else l }
  | .reg gid key => modGrp s gid fun g => { g with vBad := addOnce g.vBad key }
  | .tile gid key => modGrp s gid fun g => { g with tilesBad := addOnce g.tilesBad key }
  | .carve t w => modTeam s t fun y => { y with carveBad := insertNat y.carveBad w }
  | .tempo c w => modCore s c fun k => { k with tempo := { k.tempo with bad := insertNat k.tempo.bad w } }
  | .frontEnd id w => modFe s id fun f => { f with imemBad := insertNat f.imemBad w }
  | .phaser obj node => modPh s obj fun p => { p with bad := insertNat p.bad node }
/-- The other end of a request completes it in error: PCIe or a pool node (R187, R367). The request may still be on its way or its
answer may be. -/
def failRequest (s : State) (id : Nat) : State :=
  match netGet s id with
  | some m =>
    let outside : Bool := match m.home with
      | .port _ | .host _ => true
      | _ => decide (100 ≤ m.at_) || decide (100 ≤ m.srcDie)
    if outside then errorOf (netDel s id) m else s
  | none => s
/-- A write of BAR2: a doorbell, or at 0x4_0000 and the same offset a wake register; any other offset holds nothing (R369). -/
def bar2Write (off : Nat) (v : DWord) (s : State) : State :=
  let at_ (o : Nat) (f : Nat → Nat → State → Out) : State :=
    if o % 8 ≠ 0 ∨ 8 * 1024 * 24 ≤ o then s
    else match f (o / 8 / 1024) (o / 8 % 1024) s with
      | .next t => t
      | _ => s
  if off < 0x40000 then at_ off fun p q s => execDoorbell p q v s else at_ (off - 0x40000) fun p q s => execWakeRegister p q s
/-- The value that an AtomicOp leaves, on n bytes. -/
def hostAtomicValue (k : HostAtomic) (n old : Nat) (x cmp : DWord) : Nat :=
  match k with
  | .fetchAdd => (old + x.toNat) % 256 ^ n
  | .swap => x.toNat % 256 ^ n
  | .cas => if old = cmp.toNat % 256 ^ n then x.toNat % 256 ^ n else old
/-- An AtomicOp of the host is performed at the home of its address and its old value returned through its port; one off its size or
outside the installed memory has no effect (R154, R369). On a poisoned word it updates nothing, and what it returns is a free value
(R347, assumption 108). -/
def hostAtomic (s : State) (port tag pa : Nat) (wide : Bool) (k : HostAtomic) (x cmp : DWord) : State :=
  let n := if wide then 8 else 4
  match if pa % n = 0 then resolve s pa else none with
  | none => s
  | some a =>
    let bad := poisoned s a n
    let old := if bad then ofBytes ((List.range n).map fun i => Config.freeByte (s.fresh + i)) else readNum s.mem a n
    let s := if bad then { s with fresh := s.fresh + n } else homeWriteNum s a n (hostAtomicValue k n old x cmp)
    { s with hostPorts := mput s.hostPorts port { answers := ((mget s.hostPorts port).getD {}).answers ++ [(tag, old)] } }
/-- Bytes that host software writes; those outside the installed memory are dropped. -/
def hostWrite (s : State) (pa : Nat) (bytes : List Byte) : State :=
  homeWrite s ((bytes.mapIdx fun i b => (pa + i, b)).foldl (fun m x => match resolve s x.1 with
    | some a => mput m a x.2
    | none => m) []) []
/-- Another package's message for a communicator enters by a port, on its way to the lowest of its dies here (R367, assumption 92). -/
def poolFromOutside (s : State) (port comm : Nat) (m : PoolMsg) : State :=
  match mget s.comms comm with
  | some c => sendFrom s (portDie port) 31 none (.die (((List.range 24).find? c.dies.getLsbD).getD 0)) (.pool comm m 0)
  | none => s
/-- What comes from outside happens (assumption 84). -/
def envTurn (e : Env) (s : State) : State :=
  match e with
  | .requestError id => failRequest s id
  | .corrected d => modDie s d fun x => { x with corrected := x.corrected + 1 }
  | .upset x => poison s x
  | .counter gid lane second x => modGrp s gid fun g =>
    if second then { g with dup := cput 0 g.dup lane x } else { g with c := cput 0 g.c lane x }
  | .pool port comm m => poolFromOutside s port comm m
  | .transferError id => transferError s id
  | .pod obj any k => podTurn s obj any k
  | .bar2 _ off v => bar2Write off v s
  | .hostAtomic port tag pa wide k x cmp => hostAtomic s port tag pa wide k x cmp
  | .hostWrite _ pa bytes => hostWrite s pa bytes

end Sys2Proof.Machine
end

