-- ==== Sys2Proof/Machine/Plan.lean ====
section
/-! DEFINITION. What the machine does next when the agenda is empty: the messages, engines, slots and timers that can act, in
one order of the many that the manual leaves open (assumption 9). An act whose condition no longer holds when its turn comes
changes nothing. -/

namespace Sys2Proof.Machine

/-- An event about nothing that arrives. -/
def evt (i : Instr) : Act := .event .none i
/-- The event of a message at its home. -/
def msgEvent : Body → Instr
  | .read _ _ _ | .sread _ _ _ _ => .readMessage
  | .write _ _ _ | .swrite _ _ _ => .writeMessage
  | .atomic _ _ _ _ | .atoms _ _ _ _ => .atomicMessage
  | .data _ _ _ _ | .atomData _ _ _ _ => .readDataMessage
  | .ack _ _ | .engineAck _ _ _ _ => .writeAcknowledge
  | .marker _ => .releaseMarker
  | .report _ _ => .writeReport
  | .tour _ _ _ _ _ _ => .tourStep
  | .tourRet _ _ _ _ _ _ _ _ => .tourReturn
  | .page _ _ _ _ _ => .pageReturn
  | .engine _ _ _ => .engineData
  | .wake _ _ => .monitorWake
  | .inval _ _ => .invalidationMessage
  | .collCtl _ _ _ _ => .collectiveControl
  | .promote _ _ => .promoteRequest
  | .promoteAck _ _ => .promoteAcknowledge
  | .collData _ _ _ _ _ => .engineData
  | .collAck _ _ _ _ _ _ => .writeAcknowledge
  | .pool _ _ _ => .collectiveControl
  | .record _ _ _ => .gatherRecordArrival
/-- The event of a message of the synchronisation network. -/
def pmsgEvent : PKind → Instr
  | .arrive _ _ => .arrive
  | .signal _ _ => .phaserSignal
  | .join _ _ => .join
  | .leave _ _ => .leave
  | .move _ _ _ => .move
  | .joined _ _ _ => .joined
  | .left _ _ _ => .left
  | .moved _ _ _ _ => .moved
  | .done _ _ => .done
  | .newObj _ => .newFrame
  | .freeObj => .freeFrame
/-- The event of a frame by its TYPE. -/
def frameEvent (l : Nat) (f : BitVec 512) : Instr :=
  [Instr.arrive, .phaserSignal, .join, .leave, .move, .done, .joined, .left, .moved, .newFrame, .freeFrame, .idleFrame, .ackFrame,
   .nakFrame].getD (unitType l f) .idleFrame
/-- The event of a flit by its TYPE. -/
def flitEvent (l : Nat) (f : BitVec 512) : Instr :=
  match unitKind l f with
  | .idle => .idleFlit
  | .ack => .ackFlit
  | .nak => .nakFlit
  | _ => .dataFlit
/-- A unit arrives on a direction. -/
def unitArrives (l : Nat) (f : BitVec 512) : Act :=
  if isUplink l then .event (.frame l (f.truncate 128)) (frameEvent l f) else .event (.flit l f) (flitEvent l f)
/-- What a direction does: control units and the expected data unit arrive, and the next unit is sent. -/
def linkActs (l : Nat) (x : Link) : List Act :=
  if x.st = .retraining then [evt (.retrainComplete l)]
  else if Config.replayLimit ≤ x.tries then [evt (.moduleRetrain l false false)]
  else
    (x.replies.map (unitArrives l))
      ++ ((x.replay.filter fun r => r.1 = x.expect && !x.resend.contains r.1).map fun r => unitArrives l r.2)
      ++ (if x.resend.isEmpty && x.txq.isEmpty && x.moved.isEmpty then [] else [evt (.dataFlitSend l)])
/-- What the network does. -/
def netActs (s : State) : List Act :=
  (s.net.flatMap fun m =>
    let mine : Act := .event (.msg m.id) (msgEvent m.body)
    let late : List Act := match m.home with
      | .port _ => if m.sentAt + Config.timeoutNs ≤ s.time then [.event (.msg m.id) .fabricRequestTimeout] else []
      | _ => []
    late ++ (if m.onLink then [] else match linkOf s m with
      | some l => if unreachable s m then [mine] else [evt (.dataFlitSend l)]
      | none => [mine]))
    ++ (s.pnet.flatMap fun m => match frameLink m.2 with
      | some l => if m.2.onLink then [] else [evt (.dataFlitSend l)]
      | none => [.event (.pmsg m.1) (pmsgEvent m.2.k)])
    ++ (s.links.flatMap fun l => linkActs l.1 l.2)
    ++ s.ports.map fun h => .event (.port h.1) .portSignalRelease
/-- What walks, copies, collectives, matrix and tempo engines do. -/
def engineActs (s : State) : List Act :=
  (s.walks.map fun w => evt (if !w.2.retry then .walkComplete w.1 else match w.2.who with
      | .waita g => .waitaReread g
      | .fe id => .swaitReread id
      | .lane g slot lane => .tourResend g slot lane
      | _ => .translationRetry w.1))
    ++ (s.copies.filterMap fun c => if copyOver c.2 then some (evt (.copyComplete c.1)) else none)
    ++ (s.cores.flatMap fun c =>
        (c.2.slots.flatMap fun x => 
            (x.2.mx.map fun m => .matrixPart (4 * c.1 + x.1) (Fin.ofNat 4 m.strm))
              ++ x.2.mx.map fun m => evt (.matrixCommandExecute (4 * c.1 + x.1) (Fin.ofNat 4 m.strm)))
          ++ c.2.tq.flatMap fun _ => [.tempoPart c.1, evt (.tempoCommandExecute c.1)])
    ++ s.colls.flatMap fun c => [.collPart c.1, evt (.collStep c.1), evt (.collTransferRetry c.1), evt (.collTransferTimeout c.1),
                                 evt (.collCompletionDelivery c.1)]
/-- What groups do beside issuing. -/
def groupActs (s : State) : List Act :=
  s.groups.flatMap fun g =>
    ([EngineClass.ld, .st, .cp, .mx, .tm, .tour, .cl].filterMap fun c => if batchReady s g.1 c then some (evt (.batchComplete g.1 c)) else none)
      ++ (g.2.tours.flatMap fun t => (if t.2.sent then [] else [evt (.tourSend g.1 t.1)])
            ++ t.2.lanes.filterMap fun l => if l.2.st = .parked && l.2.woken then some (evt (.tourResend g.1 t.1 l.1)) else none)
      ++ (match g.2.status with
          | .waiting .drain => [evt (.groupEnd g.1)]
          | .waiting .sleep => [evt (.sleepExpire g.1)]
          | _ => if g.2.stalled then [evt (.stallRunEnd g.1)] else [])
/-- The pinning of teams' ways goes on (R179). -/
def pinActs (s : State) : List Act :=
  s.teams.filterMap fun t => if t.2.started || pinned t.2 then none else some (.pinPart t.1)
/-- What distributors, gathers and the ends of grids do: claims, the starts of what is claimed, then thefts of what is left. -/
def gridActs (s : State) : List Act :=
  s.grids.flatMap fun g =>
    let ds := partDies (part s g.2.part)
    (ds.map fun d => evt (.distributorClaim d g.1))
      ++ (g.2.chunks.flatMap fun c => c.2.map fun _ => evt (.teamStartAttempt c.1 g.1))
      ++ (if g.2.chunks.isEmpty then [] else ds.map fun d => evt (.teamStartAttempt d g.1))
      ++ (ds.map fun d => evt (.teamStart d g.1))
      ++ (ds.map fun d => evt (.teamSteal d g.1))
      ++ (g.2.recs.filterMap fun r => if r.2.draining then some (evt (.gangRelaunch g.1 r.1)) else none)
      ++ (ds.flatMap fun d => ((die s d).gather.filter fun b => b.grid = g.1).map fun b => evt (.gatherTimerLapse g.1 d b.node))
      ++ [evt (.gridComplete g.1), evt (.launchStatusWrite g.1)]
/-- The packet at the head of a mapped queue, as an event. -/
def packetEvent (s : State) (p q : Nat) : List Act :=
  let k := (peekVa s p (qCtx s p q) (qPacketVa s p q (qRead s p q)) 1).getD 0
  match k with
  | 1 => [evt (.launch p q)]
  | 2 => [evt (.write p q)]
  | 3 => [evt (.signal p q)]
  | 4 => [evt (.wait p q)]
  | 5 => [evt (.writeSignal p q)]
  | 6 => [evt (.phaser p q)]
  | 7 => [evt (.timestamp p q)]
  | 8 => [evt (.fencePacket p q)]
  | _ => [evt (.launch p q)]
/-- The mapped queues, those of class 0 first (R331). -/
def queueOrder (s : State) : List (Nat × Nat × MQueue) :=
  let first (m : Nat × Nat × MQueue) : Bool := ctxClass s m.2.2.part (qCtx s m.2.2.part m.2.2.q) = 0
  (mappedQueues s).filter first ++ (mappedQueues s).filter fun m => !first m
/-- An idle front-end core takes a queue of its partition from another: any that it can take (R320). -/
def takeActs (s : State) : List Act :=
  (s.fes.filter fun f => f.2.running && f.2.slots.isEmpty).flatMap fun f =>
    s.fes.flatMap fun v => (v.2.slots.filter fun m => mayTake s f.1 v.2 m.1 m.2).map fun m => .takeQueue f.1 v.1 m.1
/-- What front ends do: mapped queues, queues to be unmapped and mapped, queues taken over, instructions. -/
def feActs (s : State) : List Act :=
  ((queueOrder s).flatMap fun m => packetEvent s m.2.2.part m.2.2.q)
    ++ ((mappedQueues s).filterMap fun m => if tooManyQueues s m.2.2.part then some (evt (.queueUnmap m.2.2.part m.2.2.q)) else none)
    ++ takeActs s
    ++ (s.parts.flatMap fun p => if !s.locked || p.2.dies = 0 then [] else (List.range 1024).flatMap fun q =>
        if !bit (qFlags s p.1 q) 0 || (findQueue s p.1 q).isSome then [] else [evt (.queueRemap p.1 q), evt (.queueRepoll p.1 q)])
    ++ s.fes.filterMap fun f => if f.2.running then some (.fe f.1) else none
/-- Reserved cores that class-0 work needs, and removed cores, held by teams of other work (R331, R355). -/
def preemptActs (s : State) (p : Nat) : List Act :=
  let x := part s p
  let held := s.teams.filter fun t =>
    let g := grid s t.2.grid
    g.part = p && (core s t.2.core).preempt.isNone
      && (s.removed.contains t.2.core || (ctxClass s p g.ctx != 0 && x.resv.getLsbD (t.2.core % 24) && class0Work s p))
  held.map fun t => evt (.preemptRequest p (grid s t.2.grid).ctx [t.2.core])
/-- What partitions do: slices, saves, restores, invalidations, logs. -/
def partActs (s : State) : List Act :=
  s.parts.flatMap fun p =>
    preemptActs s p.1
      ++ (if p.2.fheld.isEmpty then [] else [evt (.logRecordWrite p.1 false)])
      ++ (if p.2.eheld.isEmpty then [] else [evt (.logRecordWrite p.1 true)])
      ++ (if p.2.inval.isEmpty then [] else [evt (.invalidationDrainDone p.1)])
      ++ (s.grids.flatMap fun g => if g.2.part != p.1 || scheduled s p.1 g.2.ctx then [] else
            (partDies p.2).map fun d => evt (.gatherBufferSave p.1 g.2.ctx d))
      ++ [evt (.timeSliceExpire p.1)]
/-- Cores that save, and contexts that are restored. -/
def saveActs (s : State) : List Act :=
  (s.cores.filterMap fun c => if c.2.preempt.isSome then some (evt (.coreStateSave c.1)) else none)
    ++ s.saved.map fun x => evt (.contextRestore x.part x.ctx)
/-- The slots that have a group to issue. -/
def slotActs (s : State) : List Act :=
  (s.groups.foldl (fun (l : List Nat) g => if g.2.status = .ready then insertNat l (4 * g.2.core + g.2.slot) else l) []).map fun k =>
    .slot (k / 4) (k % 4)
/-- One round of everything that can act, then 1 ns. -/
def plan (s : State) : List Act :=
  netActs s ++ engineActs s ++ groupActs s ++ pinActs s ++ gridActs s ++ feActs s ++ partActs s ++ saveActs s ++ slotActs s ++ [.pass 1]

end Sys2Proof.Machine
end

