-- ==== Sys2Proof/Machine/Place.lean ====
section
/-! DEFINITION. One instruction placed where the next step fetches: what a load from outside does to the state (assumption 17). -/

namespace Sys2Proof.Machine

/-- A one-packet grid of one team of one group, on slot 0 of core 0, whose code page is VA 0 at near memory of die 0. -/
def placedGrid : Grid := { codeBase := 0, codeSize := 1, scratch := 65536, cursor := 1, cores := [0] }
/-- Its team. -/
def placedTeam (gr gid : Nat) : Team := { grid := gr, core := 0, ways := [0], scratch := 65536, groups := [gid], bar := { rn := 1, rx := 1 } }
/-- Its group: 64 registers and 64 tiles, every lane active, at packet 0. -/
def placedGroup (t : Nat) : Group := { team := t, regs := 64, ntiles := 64 }
/-- The core TLB entry of its code page: V, W, X, A and D set, frame 0. -/
def placedEntry : TlbEntry := { ctx := 0, va := 0, bits := 12, pte := 0x79, at_ := 0, dSet := true }
/-- A group's word and its literal word at packet 0, the third word a NOP; slot 0 of core 0 issues next. -/
def placeGroup (s : State) (w : Nat) : State :=
  let gr := s.nextId
  let t := s.nextId + 1
  let gid := s.nextId + 2
  { s with
    mem := writeNum s.mem 0 12 (w % 2 ^ 64)
    memBad := s.memBad.filter fun x => decide (3 ≤ x)
    nextId := s.nextId + 3
    grids := mput s.grids gr placedGrid
    teams := mput s.teams t (placedTeam gr gid)
    groups := mput s.groups gid (placedGroup t)
    cores := mput s.cores 0 { core s 0 with
      slots := mput (core s 0).slots 0 { slotOf (core s 0) 0 with holder := some gid }, tlb := [placedEntry], preempt := none }
    issue := {}
    verified := true
    arriving := .none
    agenda := .slot 0 0 :: s.agenda }
/-- A front-end core's word at its program counter; front-end core 0 executes next. -/
def placeFe (s : State) (w : Nat) : State :=
  let f := fe s 0
  { s with
    fes := mput s.fes 0 { f with
      imem := cputAll 0 f.imem (cellsOf f.pc 4 (w % 2 ^ 32)), running := true, wait := none, blocked := false }
    verified := true
    arriving := .none
    agenda := .fe 0 :: s.agenda }
/-- The word goes to a front-end core where it is of the custom-0 form, else to a group (R321). -/
def place (s : State) (w : Nat) : State :=
  match decodeRv (w % 2 ^ 32) with
  | .ok _ => placeFe s w
  | .error _ => placeGroup s w

end Sys2Proof.Machine
end

