-- ==== Sys2Proof/Machine/Step.lean ====
section
/-! DEFINITION. One step of the machine: the first entry of the agenda happens; an empty agenda is first filled with what can
act (assumption 9). -/

namespace Sys2Proof.Machine

/-- An event happens, with what arrives. -/
def runEvent (a : Arriving) (i : Instr) (s : State) : Out :=
  match exec i { s with arriving := a } with
  | .next t => .next { t with arriving := .none }
  | .fault f => .fault f
  | .refused r => .refused r
/-- Before its images verify the package is in reset: it hears the management controller and time passes (R381, R382). -/
def awake (a : Act) (s : State) : Bool :=
  s.verified || (match a with
    | .event _ (.powerOn _) | .event _ (.spdmRequest _) | .pass _ => true
    | _ => false)
/-- What an entry of the agenda does. -/
def act (a : Act) (s : State) : Out :=
  if !awake a s then .next s
  else match a with
  | .slot c i => slotTurn exec c i s
  | .fe id => feTurn exec id s
  | .event a i => runEvent a i s
  | .matrixPart slot strm => .next (matrixPart slot strm s)
  | .tempoPart c => .next (tempoPart c s)
  | .collPart id => .next (collPart id s)
  | .pinPart t => .next (pinPart s t)
  | .takeQueue id victim slot => .next (takeQueue id victim slot s)
  | .pass n => .next (passTime s n)
  | .env e => .next (envTurn e s)
/-- One step. -/
def step (s : State) : Host.Outcome State Fault Refusal :=
  match s.agenda with
  | a :: rest => act a { s with agenda := rest }
  | [] => match plan s with
    | a :: rest => act a { s with agenda := rest }
    | [] => .next s
/-- s with an instruction stored where the next step fetches it: its first word is bits 31..0 of w, its literal word, zero where
nbits ends before it, bits 63..32. -/
def State.withFetchWord (s : State) (nbits w : Nat) : State := place s (w % 2 ^ nbits)

end Sys2Proof.Machine
end

