-- ==== Sys2Proof/Safety.lean ====
section
/-! DEFINITION. What a safe step is, the invariants, and the words in which statements say what an instruction did: each
predicate names every part of the state that may differ. -/

namespace Sys2Proof.Machine

/-- A step is safe when it answers a next state. -/
def Safe (s : State) : Prop := ∃ t, step s = .next t
/-- Memory is in its canonical form. -/
def MemInv (s : State) : Prop := Memory.wf s.mem = true

/-! ## Words of a group -/

/-- i answers the next state t for which P s t holds. -/
def Gives (i : Instr) (s : State) (P : State → State → Prop) : Prop := ∃ t, exec i s = .next t ∧ P s t

/-- A U word has written x to k register d and to latch y2, and nothing else (R31, R104). -/
def KWritten (d : Fin 64) (x : DWord) (s t : State) : Prop :=
  (∀ n, kget t.issue.cur n = if n = d.val then x else kget s.issue.cur n) ∧
  t.issue.cur.y = { s.issue.cur.y with y2 := some x, y3 := s.issue.cur.y.y2 } ∧
  t = { s with issue := { s.issue with
    uDone := true, cur := { s.issue.cur with k := t.issue.cur.k, y := t.issue.cur.y } } }

/-- Registers lie in the allotment, no latch that is read is empty, and no source word fails its check (R23, R33, R347). -/
def RegsOk (s : State) (regs : List Nat) (srcs : List Opnd) : Prop :=
  (∀ r ∈ regs, r < s.issue.pre.regs) ∧ (∀ o ∈ srcs, emptyLatch s.issue.pre.y o = []) ∧ badSrcs s.issue.pre srcs = false
/-- Sources and destination of a V word can be read and written (R23, R33). -/
def OperandsOk (s : State) (srcs : List Opnd) (d : Dst) : Prop :=
  RegsOk s (namedRegs s.issue.pre srcs (dstRegs s.issue.pre d)) srcs

/-- The lane register that a V word writes: none under W = 1 or for the discard code (R52, R131). -/
def laneDst (g : Group) (d : VDst) : Option Nat := match d.d with
  | .v n => if d.w then none else some (g.ixb + n.val)
  | .discard => none

/-- A V word has given each active lane its result f and set the flags fl of the active lanes: the destination in the active
lanes, latch y0 and STATUS, and nothing else (R31, R52, R126, R131). -/
def LanesWritten (d : VDst) (f : Nat → Word) (fl : Byte) (s t : State) : Prop :=
  (∀ r l, l < 32 → vget t.issue.cur r l =
    if laneDst s.issue.pre d = some r ∧ isActive s.issue.pre l = true then f l else vget s.issue.cur r l) ∧
  (∃ y, t.issue.cur.y = { s.issue.cur.y with y0 := some y, y1 := s.issue.cur.y.y0 } ∧
    ∀ l, l < 32 → cget 0 y l = if isActive s.issue.pre l = true then f l else 0) ∧
  t.issue.cur.status8 = s.issue.cur.status8 ||| fl ∧
  (∀ k ∈ t.issue.cur.vBad, k ∈ s.issue.cur.vBad) ∧
  t = { s with issue := { s.issue with
    vDone := true
    cur := { s.issue.cur with
      v := t.issue.cur.v, vBad := t.issue.cur.vBad, y := t.issue.cur.y, status8 := t.issue.cur.status8 } } }

/-- i gives each active lane l the result (f l).1 and sets the flags (f l).2. -/
def GivesLanes (i : Instr) (s : State) (d : VDst) (f : Nat → Word × Byte) : Prop :=
  Gives i s (LanesWritten d (fun l => (f l).1) (flagsOf (activeLanes s.issue.pre) fun l => (f l).2))

/-- The group goes to p after the issue group; SG restarts and a backward target ends the run; nothing else (R89, R90). -/
def landed (s : State) (p : Pos) : State :=
  { s with issue := { s.issue with
    target := some p, endRun := s.issue.endRun || decide (p.pkt ≤ s.issue.pos.pkt), sgReset := true } }

/-- A packet index lies in the code region (R73). -/
def InCode (s : State) (t : Int) : Prop := 0 ≤ t ∧ t < (gridOf s s.issue.pre).codeSize

/-- Only the counters of the group have changed, in both copies, to f of what they were; the issue may carry marks (R83, R350). -/
def CountersBecome (f : Nat → Byte → Byte) (s t : State) : Prop :=
  (∀ l, l < 32 → ctr t.issue.cur l = f l (ctr s.issue.cur l)) ∧
  (∀ l, l < 32 → cget 0 t.issue.cur.dup l = f l (cget 0 s.issue.cur.dup l)) ∧
  t = { s with issue := { s.issue with
    cur := { s.issue.cur with c := t.issue.cur.c, dup := t.issue.cur.dup }
    events := t.issue.events, sgReset := t.issue.sgReset, endRun := t.issue.endRun, target := t.issue.target } }

/-- Trap entry on group g (R100): what is saved and what the level, the counters and the PC become; registers keep their
values. -/
def TrapTaken (g : Group) (code : Byte) (info : DWord) (rp : Pos) (entry : Nat) (t : State) : Prop :=
  t.issue.cur.trap = { lvl := true, epc := rp, ecause := code, einfo := info, emask := activeMask g, c := g.c,
                       depth := g.calls.length } ∧
  t.issue.cur.pc = ⟨entry, 0⟩ ∧
  (∀ l, l < 32 → ctr t.issue.cur l = if ctr g l = 255 then 255 else 0) ∧
  t.issue.cur.v = g.v ∧ t.issue.cur.k = g.k ∧ t.issue.cur.status8 = g.status8 ∧ t.issue.cur.ixb = g.ixb ∧
  t.issue.cur.calls = g.calls ∧ t.issue.cur.h = g.h ∧ t.issue.cur.xw = g.xw ∧ t.issue.cur.tiles = g.tiles ∧
  t.issue.cur.sg = g.sg ∧ t.issue.cur.seed = g.seed

/-- The issuing group is at trap level 0, its grid has a trap entry and its counters agree: a fault takes the trap (R100). -/
def CanTrap (s : State) (entry : Nat) : Prop :=
  s.issue.pre.trap.lvl = false ∧ (gridOf s s.issue.pre).trap = some entry ∧ s.issue.pre.c = s.issue.pre.dup

/-- Only the issue in progress differs. -/
def OnlyIssue (s t : State) : Prop := t = { s with issue := t.issue }

/-- P holds of every V word over a destination and three operands, with the sources that it reads. -/
def OfEveryVWord (d : VDst) (a b e : Opnd) (P : List Opnd → Instr → Prop) : Prop :=
  (∀ i ∈ [Instr.iabs d a, .ipopc d a, .iclz d a, .ibrev d a, .fabs d a, .fneg d a, .fclass d a, .frcp d a, .frsq d a, .fsqrt d a,
      .fexp2 d a, .flog2 d a, .fsin d a, .fcos d a, .mov d a], P [a] i) ∧
  (∀ m, P [a] (.frnd m d a)) ∧ (∀ dst src m, P [a] (.fcvt dst src m d a)) ∧ (∀ k m, P [a] (.icvt k m d a)) ∧
  (∀ op, P [a] (.vote op d a)) ∧ (∀ op, P [a] (.redq op d a)) ∧ (∀ op, P [a] (.scanq op d a)) ∧
  (∀ i ∈ [Instr.iaddc d a b, .iand d a b, .ior d a b, .ixor d a b, .ishl d a b, .ishr d a b, .isra d a b, .fadd d a b, .fsub d a b,
      .fmul d a b, .fmin d a b, .fmax d a b, .scxp d a b, .shfl d a b, .shflx d a b, .shflup d a b, .shfldn d a b], P [a, b] i) ∧
  (∀ sat, P [a, b] (.iadd sat d a b) ∧ P [a, b] (.isub sat d a b)) ∧ (∀ k, P [a, b] (.imul k d a b)) ∧
  (∀ sg, P [a, b] (.imin sg d a b) ∧ P [a, b] (.imax sg d a b) ∧ P [a, b] (.ibfe sg d a b)) ∧
  (∀ cc, P [a, b] (.icmp cc d a b)) ∧ (∀ cc, P [a, b] (.fcmp cc d a b)) ∧
  (∀ t, P [a, b] (.hadd2 t d a b) ∧ P [a, b] (.hmul2 t d a b) ∧ P [a, b] (.hmin2 t d a b) ∧ P [a, b] (.hmax2 t d a b)) ∧
  (∀ t, P [a, b] (.pack t d a b) ∧ P [a, b] (.unpack t d a b)) ∧
  ∀ i ∈ [Instr.imad d a b e, .isel d a b e, .ibfi d a b e, .ffma d a b e, .hfma2 d a b e, .prmt d a b e], P [a, b, e] i

/-! ## Records (R344) -/

/-- n bytes of a record from byte o, as a number. -/
def recField (r : BitVec 512) (o n : Nat) : Nat := r.toNat / 2 ^ (8 * o) % 2 ^ (8 * n)
/-- The attempt of a team's gang (R353); a node group counts as a first attempt. -/
def attemptIn (x : Team) (gr : Grid) : Nat := if x.node.isSome then 1 else ((mget gr.recs (x.index / gr.gang)).getD {}).attempt
/-- r is a record, formed now, about group g of team x of grid gr (R344). -/
def RecordIs (s : State) (g : Group) (x : Team) (gr : Grid) (r : BitVec 512) (code cls epc addr aux : Nat) : Prop :=
  recField r 0 4 = code + cls * 2 ^ 8 ∧ recField r 4 4 = gr.ctx ∧ recField r 8 8 = s.time ∧ recField r 0x10 4 = gr.handle ∧
  recField r 0x14 4 = (if x.node.isSome then 0xFFFFFFFF else x.index) ∧
  recField r 0x18 4 = g.core + (16 * g.slot + g.position) * 2 ^ 16 + attemptIn x gr * 2 ^ 24 ∧ recField r 0x1C 4 = 0 ∧
  recField r 0x20 8 = epc ∧ recField r 0x28 8 = addr ∧ recField r 0x30 8 = aux ∧ recField r 0x38 8 = 0
/-- What a record about a group holds fits its fields. -/
def RecordFits (s : State) (g : Group) (x : Team) (gr : Grid) : Prop :=
  gr.ctx < 2 ^ 12 ∧ s.time < 2 ^ 64 ∧ gr.handle < 2 ^ 16 ∧ x.index < 2 ^ 32 ∧ g.core < 2 ^ 10 ∧ g.slot < 4 ∧ g.position < 16 ∧
  attemptIn x gr < 16 ∧ s.issue.pos.pkt < 2 ^ 61 ∧ s.issue.pos.word < 4 ∧ g.pc.pkt < 2 ^ 61 ∧ g.pc.word < 4

/-! ## Memory and engine words of a group -/

/-- Every register of the group but the latches keeps its value, and the word is not held, parked or faulted. -/
def RegsKept (s t : State) : Prop :=
  t.issue.cur.v = s.issue.cur.v ∧ t.issue.cur.k = s.issue.cur.k ∧ t.issue.cur.c = s.issue.cur.c ∧
  t.issue.cur.dup = s.issue.cur.dup ∧ t.issue.cur.status8 = s.issue.cur.status8 ∧ t.issue.cur.seed = s.issue.cur.seed ∧
  t.issue.cur.sg = s.issue.cur.sg ∧ t.issue.cur.ixb = s.issue.cur.ixb ∧ t.issue.cur.calls = s.issue.cur.calls ∧
  t.issue.cur.trap = s.issue.cur.trap ∧ t.issue.cur.tiles = s.issue.cur.tiles ∧ t.issue.pre = s.issue.pre ∧
  t.issue.verdict = s.issue.verdict
/-- Every byte of memory outside the page-table entries es reads as before. -/
def MemKeptBut (es : List Nat) (s t : State) : Prop :=
  ∀ b, (∀ e ∈ es, ¬(e ≤ b ∧ b < e + 8)) → readByte t.mem b = readByte s.mem b
/-- n requests fit under the limit of R177. -/
def RoomFor (s : State) (n : Nat) : Prop := n = 0 ∨ outstanding s s.issue.pre.core + n ≤ Config.requests
/-- The operation and the lanes of a load's message. -/
def loadOf : Body → Option (Nat × List (Nat × Nat × Nat))
  | .read _ _ (.load op _ lanes _ _ _) => some (op, lanes)
  | .data (.load op _ lanes _ _ _) _ _ _ => some (op, lanes)
  | _ => none
/-- S of the page whose words a read fills (R175). -/
def fillStable : ReadFor → Bool
  | .load _ _ _ _ _ st | .kldg _ _ _ _ _ _ st | .pref _ st => st
  | _ => false
/-- A message of the issuing group with a body, to a home, is in flight, sent no earlier than message n. -/
def InFlight (s t : State) (n : Nat) (home : Home) (body : Body) : Prop :=
  ∃ m ∈ t.net, n ≤ m.id ∧ m.home = home ∧ m.body = body ∧ m.gid = some s.issue.gid
/-- An access to a carve-out passes its checks (R166, R181): member where it names one, alignment, bounds; t owns the array. -/
def ScratchOk (s : State) (member : Option (Fin 4)) (items : List Item) (t : Nat) : Prop :=
  items ≠ [] ∧
  (∀ m, member = some m → m.val < if (team s s.issue.pre.team).node.isSome then 1 else (gridOf s s.issue.pre).gang) ∧
  t = (match member with | some m => memberTeam s s.issue.pre m.val | none => s.issue.pre.team) ∧
  ∀ i ∈ items, i.off % (i.size : Int) = 0 ∧ 0 ≤ i.off ∧ i.off + i.size ≤ (team s t).scratch
/-- i has queued one command at its slot's matrix unit, of class MX; every register but SEED is kept. -/
def MxQueued (i : Instr) (s : State) (P : MxCmd → Prop) : Prop :=
  Gives i s fun s t => ∃ c, P c ∧ c.ins = i ∧ c.gid = s.issue.gid ∧ c.mask = activeMask s.issue.pre ∧ c.op = s.nextId ∧
    (slotOf (core t s.issue.pre.core) s.issue.pre.slot).mx = (slotOf (core s s.issue.pre.core) s.issue.pre.slot).mx ++ [c] ∧
    mget t.ops c.op = some { gid := s.issue.gid, cls := .mx, parts := 1 } ∧ t.mem = s.mem ∧ t.teams = s.teams ∧
    t.issue.cur = { s.issue.cur with seed := t.issue.cur.seed } ∧ t.issue.verdict = s.issue.verdict
/-- i has queued one command at its core's tempo array, of class TM; every register is kept. -/
def TmQueued (i : Instr) (s : State) (P : TmCmd → Prop) : Prop :=
  Gives i s fun s t => ∃ c, P c ∧ c.ins = i ∧ c.gid = s.issue.gid ∧ c.mask = activeMask s.issue.pre ∧ c.op = s.nextId ∧
    (core t s.issue.pre.core).tq = (core s s.issue.pre.core).tq ++ [c] ∧
    mget t.ops c.op = some { gid := s.issue.gid, cls := .tm, parts := 1 } ∧ t.mem = s.mem ∧ t.teams = s.teams ∧
    t.issue.cur = s.issue.cur ∧ t.issue.verdict = s.issue.verdict

/-! ## Messages and events -/

/-- Message m of net is the one that arrives, and it has arrived where it is performed (R157, R366). -/
def Arrives (s : State) (m : Msg) : Prop :=
  s.arriving = .msg m.id ∧ netGet s m.id = some m ∧ unreachable s m = false ∧ arrived s m = true
/-- An answer with a body is on its way to the core that sent m, or to its die's engine, which sends as core 31; it is as old as m
(R361, R367). -/
def Replied (t : State) (m : Msg) (b : Body) : Prop :=
  ∃ r ∈ t.net, r.home = (if m.srcCore = 31 then .die m.srcDie else .core (24 * m.srcDie + m.srcCore)) ∧ r.body = b ∧ r.sentAt = m.sentAt
/-- A message with a home and a body is in flight. -/
def OnItsWay (t : State) (h : Home) (b : Body) : Prop := ∃ r ∈ t.net, r.home = h ∧ r.body = b
/-- Memory has taken bytes, each address once, and is otherwise as before. -/
def MemTakes (bytes : Cells Byte) (s t : State) : Prop :=
  ∀ a, readByte t.mem a = ((bytes.find? fun x => x.1 = a).map (·.2)).getD (readByte s.mem a)
/-- A message of the synchronisation network is the one that arrives and may act (R237). -/
def PhArrives (s : State) (id : Nat) (m : PMsg) : Prop :=
  s.arriving = .pmsg id ∧ mget s.pnet id = some m ∧ m.src ≠ podNode ∧ m.dst ≠ podNode ∧
    s.pnet.all (fun x => id ≤ x.1 || x.2.src != m.src || x.2.dst != m.dst) = true
/-- A message of the synchronisation network is on its way. -/
def PhSent (t : State) (obj src dst : Nat) (path : List Nat) (k : PKind) : Prop :=
  ∃ id y, mget t.pnet id = some y ∧ y.obj = obj ∧ y.src = src ∧ y.dst = dst ∧ y.path = path ∧ y.k = k
/-- Operation op has one part fewer to complete. -/
def PartDone (s t : State) (op : Nat) : Prop := (mget t.ops op).map (·.parts) = (mget s.ops op).map (·.parts - 1)
/-- Packet x, at index i, comes up for execution on queue q of partition p (R323, R324). -/
def PacketUp (s t : State) (p q i : Nat) (x : BitVec 512) : Prop :=
  ∃ id slot m, findQueue s p q = some (id, slot, m) ∧ queueRuns s p q m = true ∧ takePacket s (feDie id) p q m = (t, .ok i x) ∧
    badPacket x = false
/-- The descriptor of queue q of partition p stands in installed memory from physical address b. -/
def QueueAt (s : State) (p q b : Nat) : Prop := ∀ o, o < 64 → resolve s (qAddr s p q + o) = some (b + o)
/-- Eight bytes of a range of physical pieces, each byte once and none in the 64 bytes from b, read as the number v. -/
def PiecesApart (ps : Ranges) (b : Nat) : Prop :=
  (∀ i j, i < j → j < 8 → pieceAt ps i ≠ pieceAt ps j) ∧ ∀ j, j < 8 → pieceAt ps j < b ∨ b + 64 ≤ pieceAt ps j


/-! ## Floating point by its exact values (R120 to R125, R138 to R146) -/

/-- The fields of a pattern: sign, exponent field, fraction field (R120). -/
def fpNeg (t : FTy) (w : Nat) : Bool := w / 2 ^ (FTy.ebits t + FTy.mbits t) % 2 = 1
def fpExpField (t : FTy) (w : Nat) : Nat := w / 2 ^ FTy.mbits t % 2 ^ FTy.ebits t
def fpFrac (t : FTy) (w : Nat) : Nat := w % 2 ^ FTy.mbits t
/-- An infinity; E4M3 has none (R120). -/
def fpInf (t : FTy) (w : Nat) : Bool :=
  t != .f8a && fpExpField t w = 2 ^ FTy.ebits t - 1 && fpFrac t w = 0
/-- A NaN (R120). -/
def fpNan (t : FTy) (w : Nat) : Bool :=
  fpExpField t w = 2 ^ FTy.ebits t - 1 && (if t = .f8a then fpFrac t w = 7 else fpFrac t w ≠ 0)
/-- A signalling NaN; every FP8 NaN is quiet (R121). -/
def fpSnan (t : FTy) (w : Nat) : Bool :=
  fpNan t w && t != .f8a && t != .f8b && decide (fpFrac t w < 2 ^ (FTy.mbits t - 1))
/-- The magnitude of a finite pattern (R120). -/
def fpMag (t : FTy) (w : Nat) : ℚ :=
  if fpExpField t w = 0 then (2 : ℚ) ^ ((1 : ℤ) - FTy.bias t) * (fpFrac t w / 2 ^ FTy.mbits t)
  else (2 : ℚ) ^ ((fpExpField t w : ℤ) - FTy.bias t) * (1 + fpFrac t w / 2 ^ FTy.mbits t)
/-- The value of a finite pattern (R120). -/
def fpNum (t : FTy) (w : Nat) : ℚ := if fpNeg t w then -fpMag t w else fpMag t w
/-- The canonical NaN (R121), the infinity pattern and the largest finite pattern without their signs (R120), and a pattern
with a sign. E4M3 delivers 448 where others deliver an infinity (R124). -/
def fpCanon : FTy → Nat
  | .f32 => 0x7FC00000 | .f16 => 0x7E00 | .bf16 => 0x7FC0 | .f8a => 0x7F | .f8b => 0x7E
def fpTopInf : FTy → Nat
  | .f32 => 0x7F800000 | .f16 => 0x7C00 | .bf16 => 0x7F80 | .f8a => 0x7E | .f8b => 0x7C
def fpLargest : FTy → Nat
  | .f32 => 0x7F7FFFFF | .f16 => 0x7BFF | .bf16 => 0x7F7F | .f8a => 0x7E | .f8b => 0x7B
def fpSigned (t : FTy) (neg : Bool) (b : Nat) : Nat := if neg then b + 2 ^ (FTy.ebits t + FTy.mbits t) else b

/-- The multiple of 2 ^ q that a magnitude v rounds to in a mode: n is floor (v / 2 ^ q) or one more (R123, R125). -/
def stepsOf (mode : RMode) (rnd : Nat) (neg : Bool) (v : ℚ) (q : ℤ) : Nat :=
  let n : Nat := ⌊v / 2 ^ q⌋₊
  let f : ℚ := v / 2 ^ q - n
  let up : Bool := match mode with
    | .rne => decide (1 / 2 < f) || (decide (f = 1 / 2) && decide (n % 2 = 1))
    | .rz => false
    | .rd => neg && decide (f ≠ 0)
    | .ru => !neg && decide (f ≠ 0)
    | .rs => decide (2 ^ 32 ≤ ⌊f * 2 ^ 32⌋₊ + rnd)
  if up then n + 1 else n
/-- r is the pattern and the flags of the exact value with sign neg and magnitude v, rounded once to a format (R123 to R125):
the spacing at v, subnormal spacing included; overflow as the table of R124 says; UF for a tiny inexact result. -/
def Rounded (t : FTy) (mode : RMode) (rnd : Nat) (neg : Bool) (v : ℚ) (r : Nat × Byte) : Prop :=
  let m : ℤ := FTy.mbits t
  let emin : ℤ := 1 - FTy.bias t
  let q0 : ℤ := max (Int.log 2 v) emin - m
  let q : ℤ := if mode = .rs then min q0 (Int.log 2 (fpMag t (fpLargest t)) - m) else q0
  let x : ℚ := stepsOf mode rnd neg v q * 2 ^ q
  let u : ℚ := stepsOf mode rnd neg v (Int.log 2 v - m) * 2 ^ (Int.log 2 v - m)
  if v = 0 then r = (fpSigned t neg 0, 0)
  else if fpMag t (fpLargest t) < x then
    r = (fpSigned t neg (match mode with
      | .rz => fpLargest t
      | .rd => if neg then fpTopInf t else fpLargest t
      | .ru => if neg then fpLargest t else fpTopInf t
      | _ => fpTopInf t), fOF ||| fNX ||| (if t = .f8a then fSAT else 0))
  else
    r.1 < 2 ^ (1 + FTy.ebits t + FTy.mbits t) ∧ fpNan t r.1 = false ∧ fpInf t r.1 = false ∧ fpNeg t r.1 = neg ∧
    fpMag t r.1 = x ∧
    r.2 = (if x = v then 0 else fNX) ||| (if x ≠ v ∧ 0 < u ∧ u < 2 ^ emin then fUF else 0)
/-- An exact value that is a sum or product of finite ones, rounded to nearest-even; zero takes the sign given (R123). -/
def RoundedSum (t : FTy) (x : ℚ) (zeroNeg : Bool) (r : Nat × Byte) : Prop :=
  if x = 0 then r = (fpSigned t zeroNeg 0, 0) else Rounded t .rne 0 (decide (x < 0)) |x| r

/-- r is A + B, or A - B, in a format (R123, R138). A zero sum of operands of one sign keeps it (assumption 75). -/
def SumIs (t : FTy) (sub : Bool) (a b : Nat) (r : Nat × Byte) : Prop :=
  let nb := fpNeg t b != sub
  if fpNan t a || fpNan t b then r = (fpCanon t, if fpSnan t a || fpSnan t b then fNV else 0)
  else if fpInf t a && fpInf t b && fpNeg t a != nb then r = (fpCanon t, fNV)
  else if fpInf t a then r = (fpSigned t (fpNeg t a) (fpTopInf t), 0)
  else if fpInf t b then r = (fpSigned t nb (fpTopInf t), 0)
  else RoundedSum t (if sub then fpNum t a - fpNum t b else fpNum t a + fpNum t b) (!sub && fpNeg t a && fpNeg t b) r
/-- r is A × B in a format (R138). -/
def ProductIs (t : FTy) (a b : Nat) (r : Nat × Byte) : Prop :=
  let neg := fpNeg t a != fpNeg t b
  if fpNan t a || fpNan t b then r = (fpCanon t, if fpSnan t a || fpSnan t b then fNV else 0)
  else if (fpInf t a && !fpInf t b && fpMag t b = 0) || (fpInf t b && !fpInf t a && fpMag t a = 0) then r = (fpCanon t, fNV)
  else if fpInf t a || fpInf t b then r = (fpSigned t neg (fpTopInf t), 0)
  else RoundedSum t (fpNum t a * fpNum t b) neg r
/-- r is A × B + E in a format, the product not rounded; 0 × ∞ sets NV whatever the addend (R138). -/
def FusedIs (t : FTy) (a b e : Nat) (r : Nat × Byte) : Prop :=
  let neg := fpNeg t a != fpNeg t b
  let nan := fpNan t a || fpNan t b
  let bad := !nan && ((fpInf t a && !fpInf t b && fpMag t b = 0) || (fpInf t b && !fpInf t a && fpMag t a = 0))
  let pinf := !nan && (fpInf t a || fpInf t b)
  if nan || fpNan t e || bad then
    r = (fpCanon t, if bad || fpSnan t a || fpSnan t b || fpSnan t e then fNV else 0)
  else if pinf && fpInf t e && neg != fpNeg t e then r = (fpCanon t, fNV)
  else if pinf then r = (fpSigned t neg (fpTopInf t), 0)
  else if fpInf t e then r = (fpSigned t (fpNeg t e) (fpTopInf t), 0)
  else RoundedSum t (fpNum t a * fpNum t b + fpNum t e) (neg && fpNeg t e) r
/-- A is below B as numbers, infinities included (R139, R143). -/
def fpBelow (t : FTy) (a b : Nat) : Bool :=
  if fpInf t a then fpNeg t a && !(fpInf t b && fpNeg t b)
  else if fpInf t b then !fpNeg t b
  else decide (fpNum t a < fpNum t b)
/-- r is the smaller or larger of A and B: -0 below +0, a NaN gives way to a number (R139). -/
def MinMaxIs (t : FTy) (isMax : Bool) (a b : Nat) (r : Nat × Byte) : Prop :=
  let w := 2 ^ (1 + FTy.ebits t + FTy.mbits t)
  let below (x y : Nat) : Bool := fpBelow t x y || (!fpBelow t y x && fpNeg t x && !fpNeg t y)
  r = (if fpNan t a && fpNan t b then fpCanon t
       else if fpNan t a then b % w else if fpNan t b then a % w
       else if below a b != isMax then a % w else b % w,
    if fpSnan t a || fpSnan t b then fNV else 0)
/-- r is A rounded to an integral value in a mode (R142). -/
def IntegralIs (m : RMode) (a : Nat) (r : Nat × Byte) : Prop :=
  if fpNan .f32 a then r = (fpCanon .f32, if fpSnan .f32 a then fNV else 0)
  else if fpInf .f32 a then r = (a, 0)
  else r.1 < 2 ^ 32 ∧ fpNan .f32 r.1 = false ∧ fpInf .f32 r.1 = false ∧ fpNeg .f32 r.1 = fpNeg .f32 a ∧
    fpMag .f32 r.1 = stepsOf m 0 (fpNeg .f32 a) (fpMag .f32 a) 0 ∧ r.2 = 0
/-- r is A of one format converted to another (R145). -/
def ConvertedIs (to_ from_ : FTy) (m : RMode) (rnd a : Nat) (r : Nat × Byte) : Prop :=
  if fpNan from_ a then r = (fpCanon to_, if fpSnan from_ a then fNV else 0)
  else if fpInf from_ a then r = (fpSigned to_ (fpNeg from_ a) (fpTopInf to_), if to_ = .f8a then fSAT else 0)
  else Rounded to_ m rnd (fpNeg from_ a) (fpMag from_ a) r
/-- r is FP32 A as an integer from lo to hi (R146). -/
def IntegerIs (m : RMode) (lo hi : Int) (a : Nat) (r : Word × Byte) : Prop :=
  let n : Int := stepsOf m 0 (fpNeg .f32 a) (fpMag .f32 a) 0
  let i : Int := if fpNeg .f32 a then -n else n
  if fpNan .f32 a then r = (0, fNV ||| fSAT)
  else if fpInf .f32 a then r = (BitVec.ofInt 32 (if fpNeg .f32 a then lo else hi), fNV ||| fSAT)
  else r = (BitVec.ofInt 32 (max lo (min hi i)),
    if i < lo ∨ hi < i then fNV ||| fSAT else if (i : ℚ) ≠ fpNum .f32 a then fNX else 0)
/-- The two halves of a packed result, each as R says of the elements, with their flags ORed (R138). -/
def PackedIs (R : Nat → Nat → Nat → Nat × Byte → Prop) (a b e : Word) (r : Word × Byte) : Prop :=
  ∃ f g : Byte, r.2 = f ||| g ∧
    R (a.toNat % 2 ^ 16) (b.toNat % 2 ^ 16) (e.toNat % 2 ^ 16) (r.1.toNat % 2 ^ 16, f) ∧
    R (a.toNat / 2 ^ 16) (b.toNat / 2 ^ 16) (e.toNat / 2 ^ 16) (r.1.toNat / 2 ^ 16, g)
/-- i gives each active lane l a result that R l describes, and sets its flags. -/
def GivesEach (i : Instr) (s : State) (d : VDst) (R : Nat → Word × Byte → Prop) : Prop :=
  ∃ f : Nat → Word × Byte, GivesLanes i s d f ∧ ∀ l, R l (f l)
/-- A relation on patterns, of a lane's word. -/
def asWord (R : Nat × Byte → Prop) (r : Word × Byte) : Prop := R (r.1.toNat, r.2)
/-- The class of an FP32 pattern by its bit of FCLASS (R141). -/
def ClassIs (a : Nat) (bit : Nat) : Prop :=
  bit = if fpSnan .f32 a then 8 else if fpNan .f32 a then 9
    else if fpInf .f32 a then (if fpNeg .f32 a then 0 else 7)
    else if fpMag .f32 a = 0 then (if fpNeg .f32 a then 3 else 4)
    else if fpMag .f32 a < 2 ^ (-126 : ℤ) then (if fpNeg .f32 a then 2 else 5)
    else if fpNeg .f32 a then 1 else 6
/-- FCMP's relation of FP32 A and B, and its NV (R143). -/
def ComparedIs (cc : FCc) (a b : Nat) (r : Word × Byte) : Prop :=
  let nan := fpNan .f32 a || fpNan .f32 b
  let sig := fpSnan .f32 a || fpSnan .f32 b
  let below := fpBelow .f32 a b
  let above := fpBelow .f32 b a
  let holds : Bool := match cc with
    | .eq => !nan && !below && !above
    | .ne => nan || below || above
    | .lt => !nan && below
    | .le => !nan && !above
    | .gt => !nan && above
    | .ge => !nan && !below
    | .ord => !nan
    | .uno => nan
  let nv : Bool := match cc with
    | .lt | .le | .gt | .ge => nan
    | _ => sig
  r = (if holds then 1 else 0, if nv then fNV else 0)

/-! ## Reductions (R151) -/

/-- r is what the combining operator gives of x and y. -/
def OpIs (op : RedOp) (x y : Word) (r : Word × Byte) : Prop :=
  match op with
  | .addI32 => r = (x + y, 0)
  | .addF32 => asWord (SumIs .f32 false x.toNat y.toNat) r
  | .minI32 => r = (if y.toInt < x.toInt then y else x, 0)
  | .minN32 => r = (if y.toNat < x.toNat then y else x, 0)
  | .maxI32 => r = (if x.toInt < y.toInt then y else x, 0)
  | .maxN32 => r = (if x.toNat < y.toNat then y else x, 0)
  | .minF32 => asWord (MinMaxIs .f32 false x.toNat y.toNat) r
  | .maxF32 => asWord (MinMaxIs .f32 true x.toNat y.toNat) r
  | .and => r = (x &&& y, 0)
  | .or => r = (x ||| y, 0)
  | .xor => r = (x ^^^ y, 0)
/-- Two contributions combine to c with flags f: that of an inactive lane passes the other on. -/
def JoinIs (op : RedOp) (a b c : Option Word) (f : Byte) : Prop :=
  match a, b with
  | some x, some y => ∃ z, c = some z ∧ OpIs op x y (z, f)
  | none, _ => c = b ∧ f = 0
  | _, none => c = a ∧ f = 0
/-- node is the tree over the contributions v: each node's value, and the flags made in it and below. -/
def TreeIs (op : RedOp) (v : Nat → Option Word) (node : Nat → Nat → Option Word × Byte) : Prop :=
  (∀ k, node 0 k = (v k, 0)) ∧
  ∀ j k, ∃ f, JoinIs op (node j (2 * k)).1 (node j (2 * k + 1)).1 (node (j + 1) k).1 f ∧
    (node (j + 1) k).2 = (node j (2 * k)).2 ||| (node j (2 * k + 1)).2 ||| f
/-- acc is the loop of SCANQ for lane l over a tree, from level 5 down to 0: what it holds before level j + 1 and the flags of its
combinations. -/
def PrefixIs (op : RedOp) (node : Nat → Nat → Option Word × Byte) (l : Nat) (acc : Nat → Option (Option Word) × Byte) : Prop :=
  acc 6 = (none, 0) ∧ ∀ j, j < 6 →
    let blk := (node j ((l + 1) / 2 ^ (j + 1) * 2)).1
    if (l + 1).testBit j then
      match (acc (j + 1)).1 with
      | none => acc j = (some blk, (acc (j + 1)).2)
      | some x => ∃ c f, acc j = (some c, (acc (j + 1)).2 ||| f) ∧ JoinIs op x blk c f
    else acc j = acc (j + 1)
/-- The number an FP32 special function has to come near to lies within its bound of the result (R144): the spacing at the exact
value, subnormal spacing counted, times n. -/
def WithinUlps (n : Nat) (y : ℝ) (r : Nat) : Prop :=
  |(fpNum .f32 r : ℝ) - y| ≤ n * (2 : ℝ) ^ (max (Int.log 2 |y|) (-126) - 23)

/-! ## Matrix elements (R269 to R271, R275, R276) -/

/-- The operand types and K of MMQ's types, by the table of R269. -/
def mmTable : MmTy → El × El × Nat
  | .bf16 => (.fl .bf16, .fl .bf16, 32) | .f16 => (.fl .f16, .fl .f16, 32)
  | .f8a => (.fl .f8a, .fl .f8a, 64) | .f8b => (.fl .f8b, .fl .f8b, 64)
  | .f8af8b => (.fl .f8a, .fl .f8b, 64) | .f8bf8a => (.fl .f8b, .fl .f8a, 64)
  | .i8 => (.int true 8, .int true 8, 64) | .n8 => (.int false 8, .int false 8, 64)
  | .i4 => (.int true 4, .int true 4, 128) | .n4 => (.int false 4, .int false 4, 128)
/-- MMQZ's weights, by the table of R275. -/
def mzTable : QTy → El
  | .i4 => .int true 4 | .n4 => .int false 4 | .i8 => .int true 8 | .n8 => .int false 8
/-- Bits of an element: of a float format, or of an integer. -/
def exWidth : El → Nat
  | .fl .f32 => 32 | .fl .f16 => 16 | .fl .bf16 => 16 | .fl .f8a => 8 | .fl .f8b => 8
  | .int _ w => w
def exNan : El → Nat → Bool
  | .fl t, w => fpNan t w
  | .int _ _, _ => false
def exSnan : El → Nat → Bool
  | .fl t, w => fpSnan t w
  | .int _ _, _ => false
def exInf : El → Nat → Bool
  | .fl t, w => fpInf t w
  | .int _ _, _ => false
def exNeg : El → Nat → Bool
  | .fl t, w => fpNeg t w
  | .int _ _, _ => false
/-- The exact value of a finite element (R122, R271). -/
def exNum : El → Nat → ℚ
  | .fl t, w => fpNum t w
  | .int sg n, w => if sg = true ∧ 2 ^ (n - 1) ≤ w % 2 ^ n then ((w % 2 ^ n : Nat) : ℚ) - 2 ^ n else ((w % 2 ^ n : Nat) : ℚ)
/-- Element k of lane l's row of A: of captured registers, key 32 × register + lane (R270). -/
def aBits (a : Cells Word) (w l k : Nat) : Nat := (cget 0 a (32 * (k / (32 / w)) + l)).toNat / 2 ^ (w * (k % (32 / w))) % 2 ^ w
/-- Element (k, j) of B at a base of a carve-out (R270). -/
def bBits (carve : Cells Byte) (w base k j : Nat) : Nat :=
  let byteAt (o : Nat) : Nat := (cget 0 carve o).toNat
  if w = 16 then byteAt (base + 2 * (16 * k + j)) + 256 * byteAt (base + 2 * (16 * k + j) + 1)
  else if w = 8 then byteAt (base + 16 * k + j)
  else byteAt (base + 8 * k + j / 2) / 16 ^ (j % 2) % 16
/-- A block of 16 products of elements a and b delivers t, with flags f of NV and OF alone (R271). -/
def BlockIs (ea eb : El) (a b : Nat → Nat) (t : Nat) (f : Byte) : Prop :=
  let is_ := List.range 16
  let nan (i : Nat) : Bool := exNan ea (a i) || exNan eb (b i)
  let zeroInf (i : Nat) : Bool := !nan i && ((exInf ea (a i) && !exInf eb (b i) && decide (exNum eb (b i) = 0))
    || (exInf eb (b i) && !exInf ea (a i) && decide (exNum ea (a i) = 0)))
  let neg (i : Nat) : Bool := exNeg ea (a i) != exNeg eb (b i)
  let inf (n : Bool) : Bool := is_.any fun i => (exInf ea (a i) || exInf eb (b i)) && neg i == n
  let term (i : Nat) : ℚ := exNum ea (a i) * exNum eb (b i)
  if (is_.any fun i => nan i || zeroInf i) = true then
    t = fpCanon .f32 ∧ f = if (is_.any fun i => zeroInf i || exSnan ea (a i) || exSnan eb (b i)) = true then fNV else 0
  else if inf true = true ∧ inf false = true then t = fpCanon .f32 ∧ f = fNV
  else if inf true = true ∨ inf false = true then t = fpSigned .f32 (inf true) (fpTopInf .f32) ∧ f = 0
  else ∃ g, RoundedSum .f32 (is_.map term).sum (is_.all fun i => neg i && decide (term i = 0)) (t, g) ∧ f = g &&& fOF
/-- r is an accumulator x after the products of a row of A and a column of B, K elements, a block of 16 at a time, and the flags (R271). -/
def MmIs (ea eb : El) (k : Nat) (a b : Nat → Nat) (x : Word) (r : Word × Byte) : Prop :=
  ∃ (acc : Nat → Word) (fl : Nat → Byte), acc 0 = x ∧ fl 0 = 0 ∧ r = (acc (k / 16), fl (k / 16)) ∧
    ∀ n, n < k / 16 → ∃ t f g, BlockIs ea eb (fun i => a (16 * n + i)) (fun i => b (16 * n + i)) t f ∧
      SumIs .f32 false (acc n).toNat t ((acc (n + 1)).toNat, g) ∧ fl (n + 1) = fl n ||| f ||| (g &&& (fNV ||| fOF))
/-- r is an accumulator x of a row of an inactive lane: +0 is added (R271; a NaN becomes the canonical one, assumption 87). -/
def IdleIs (x : Word) (r : Word × Byte) : Prop := ∃ g, SumIs .f32 false x.toNat 0 (r.1.toNat, g) ∧ r.2 = g &&& (fNV ||| fOF)
/-- r is an accumulator x after a row of A, 32 elements, and a column of weights q with a scale in FP16 and a zero point (R276). -/
def MzIs (ea : El) (a : Nat → Nat) (q : Nat → ℚ) (scale : Nat) (zp : ℚ) (x : Word) (r : Word × Byte) : Prop :=
  let ks := List.range 32
  ∃ t f g, SumIs .f32 false x.toNat t (r.1.toNat, g) ∧ r.2 = (f ||| g) &&& (fNV ||| fOF) ∧
    if ((ks.any fun k => exNan ea (a k) || exInf ea (a k)) || fpNan .f16 scale || fpInf .f16 scale) = true then t = fpCanon .f32 ∧ f = fNV
    else RoundedSum .f32 (fpNum .f16 scale * ((ks.map fun k => exNum ea (a k) * q k).sum - zp * (ks.map fun k => exNum ea (a k)).sum))
      false (t, f)
/-- The number that the stochastic rounding of element m draws from a seed (R125, R280). -/
def drawOf (seed : DWord) (m : Nat) : Nat :=
  let z0 : DWord := seed + 0x9E3779B97F4A7C15#64 * BitVec.ofNat 64 (m + 1)
  let z1 := (z0 ^^^ z0 >>> 30) * 0xBF58476D1CE4E5B9#64
  let z2 := (z1 ^^^ z1 >>> 27) * 0x94D049BB133111EB#64
  (z2 ^^^ z2 >>> 31).toNat / 2 ^ 32

/-! ## Atomics at their home (R191 to R196) -/

/-- new is what an operation of ATOM, RED or ATOMS leaves of old with operand v (R192). -/
def AtomIs (o : AtomOp) (old v new : DWord) : Prop :=
  let a : Word := old.truncate 32
  let b : Word := v.truncate 32
  let n : Word := new.truncate 32
  match o with
  | .addN64 => new = old + v
  | .exch64 => new = v
  | .addN32 => n = a + b
  | .addF32 => ∃ f, SumIs .f32 false a.toNat b.toNat (n.toNat, f)
  | .addBf16x2 => ∃ f, PackedIs (fun x y _ r => SumIs .bf16 false x y r) a b 0 (n, f)
  | .addF16x2 => ∃ f, PackedIs (fun x y _ r => SumIs .f16 false x y r) a b 0 (n, f)
  | .minI32 => n = if b.toInt < a.toInt then b else a
  | .minN32 => n = if b.toNat < a.toNat then b else a
  | .maxI32 => n = if a.toInt < b.toInt then b else a
  | .maxN32 => n = if a.toNat < b.toNat then b else a
  | .and => n = a &&& b
  | .or => n = a ||| b
  | .xor => n = a ^^^ b
  | .exch32 => n = b
  | .minF32 => ∃ f, MinMaxIs .f32 false a.toNat b.toNat (n.toNat, f)
  | .maxF32 => ∃ f, MinMaxIs .f32 true a.toNat b.toNat (n.toNat, f)
/-- Bytes that a lane of a transaction accesses (R191, R194). -/
def laneBytes : AKind → Nat
  | .op .addN64 | .op .exch64 | .cas true => 8
  | _ => 4
/-- One lane of a transaction takes the bytes b to b' and reads old: an operation of R192, CAS, and the adds of AGGR and PUTF. -/
def LaneAtom (k : AKind) (l : ALane) (b b' : Nat → Byte) (old : DWord) : Prop :=
  let n := laneBytes k
  let num (b : Nat → Byte) : Nat := ofBytes ((List.range n).map fun i => b (l.pa + i))
  old = BitVec.ofNat 64 (num b) ∧ (∀ a, (a < l.pa ∨ l.pa + n ≤ a) → b' a = b a) ∧
  match k with
  | .op o => AtomIs o old l.v (BitVec.ofNat 64 (num b'))
  | .cas _ => num b' = (if old = l.exp then l.v else old).toNat % 256 ^ n
  | .aggr _ | .putf => num b' = (old.toNat + l.v.toNat) % 2 ^ 32
/-- A transaction takes the bytes b to b', lane by lane, each reading what the one before left; olds are the values read (R193). -/
def AtomRun (k : AKind) (ls : List ALane) (b b' : Nat → Byte) (olds : Nat → DWord) : Prop :=
  ∃ seq : Nat → Nat → Byte, seq 0 = b ∧ seq ls.length = b' ∧ ∀ i l, ls[i]? = some l → LaneAtom k l (seq i) (seq (i + 1)) (olds i)
/-- What a lane's registers take: the old value, or for AGGR the old value and the rank in each flagged lane (R193 to R195). -/
def laneRets (k : AKind) (l : ALane) (old : DWord) : List (Nat × Nat × Word) :=
  match k, l.reg with
  | .aggr flagged, _ => flagged.mapIdx fun i f => (f.1, f.2, old.truncate 32 + BitVec.ofNat 32 i)
  | _, none => []
  | .op .addN64, some r | .op .exch64, some r | .cas true, some r => [(l.lane, r, old.truncate 32), (l.lane, r + 1, (old >>> 32).truncate 32)]
  | _, some r => [(l.lane, r, old.truncate 32)]
/-- The answer of a transaction. -/
def atomAnswer (op : Nat) (k : AKind) (acq : Option Scope) (ls : List ALane) (olds : Nat → DWord) : Body :=
  let rets := (ls.mapIdx fun i l => laneRets k l (olds i)).flatten
  if rets = [] then .ack op false else .atomData op acq rets false

/-! ## Collectives (R375) -/

/-- z is what one operation of a reduction gives of x and y, elements of a type. -/
def CollOpIs (ty : CollTy) (op : CollOp) (x y z : Nat) : Prop :=
  let fl (t : FTy) : Prop := ∃ f, match op with
    | .add => SumIs t false x y (z, f)
    | .min => MinMaxIs t false x y (z, f)
    | .max => MinMaxIs t true x y (z, f)
  let a : Int := (BitVec.ofNat 32 x).toInt
  let b : Int := (BitVec.ofNat 32 y).toInt
  match ty, op with
  | .f32, _ => fl .f32
  | .bf16, _ => fl .bf16
  | .f16, _ => fl .f16
  | .i32, .add | .n32, .add => z = (x + y) % 2 ^ 32
  | .i32, .min => z = if b < a then y else x
  | .i32, .max => z = if a < b then y else x
  | .n32, .min => z = if y < x then y else x
  | .n32, .max => z = if x < y then y else x
  | .b8, _ => False
/-- z is the TREE reduction of v 0 to v (m − 1): node (j, k) covers the members from 2 ^ j * k on, and a missing right operand passes
the left one through. -/
def TreeOf (R : Nat → Nat → Nat → Prop) (v : Nat → Nat) (m z : Nat) : Prop :=
  ∃ node : Nat → Nat → Nat, (∀ k, node 0 k = v k) ∧ node m 0 = z ∧
    ∀ j k, if 2 ^ j * (2 * k + 1) < m then R (node j (2 * k)) (node j (2 * k + 1)) (node (j + 1) k) else node (j + 1) k = node j (2 * k)
/-- z is an ARRIVAL reduction of v 0 to v (m − 1): a left fold in some order of the members. -/
def FoldOf (R : Nat → Nat → Nat → Prop) (v : Nat → Nat) (m z : Nat) : Prop :=
  ∃ (l : List Nat) (acc : Nat → Nat), l.Perm (List.range m) ∧ acc 0 = v (l.headD 0) ∧ acc (m - 1) = z ∧
    ∀ i, i + 1 < m → R (acc i) (v (l.getD (i + 1) 0)) (acc (i + 1))
/-- z is element e of member i's destination, for M members with n elements each; src k e is element e of member k's source. -/
def DestIs (kind : CollKind) (op : CollOp) (ty : CollTy) (arrival : Bool) (m n i e : Nat) (src : Nat → Nat → Nat) (z : Nat) : Prop :=
  let red (v : Nat → Nat) : Prop := if arrival = true then FoldOf (CollOpIs ty op) v m z else TreeOf (CollOpIs ty op) v m z
  match kind with
  | .allReduce => red fun k => src k e
  | .reduceScatter => red fun k => src k (i * n + e)
  | .allGather => z = src (e / n) (e % n)
  | .allToAll => z = src (e / n) (i * n + e % n)

/-! ## The special functions (R144) -/

/-- The value of 2 ^ n as FP32 is exact, or passes the largest finite value. -/
def f32Pow (neg : Bool) (n : ℤ) (r : Nat × Byte) : Prop :=
  if 127 < n then r = (fpSigned .f32 neg (fpTopInf .f32), fOF ||| fNX)
  else r.2 = 0 ∧ r.1 < 2 ^ 32 ∧ fpNan .f32 r.1 = false ∧ fpInf .f32 r.1 = false ∧ fpNeg .f32 r.1 = neg ∧ fpMag .f32 r.1 = 2 ^ n
/-- A finite FP32 pattern. -/
def F32Fin (w : Nat) : Prop := w < 2 ^ 32 ∧ fpNan .f32 w = false ∧ fpInf .f32 w = false
/-- The magnitude of A is a power of two. -/
def f32PowOf (a : Nat) : Prop := fpMag .f32 a = 2 ^ Int.log 2 (fpMag .f32 a)
/-- FRCP (R144): the exact cases, and else 1 ulp of 1 / A with NX, UF where that is tiny and infinity where it overflows. -/
def RcpIs (a : Nat) (r : Nat × Byte) : Prop :=
  let neg := fpNeg .f32 a
  let n := Int.log 2 (fpMag .f32 a)
  let y : ℚ := 1 / fpMag .f32 a
  let q := Int.log 2 y - 23
  if fpNan .f32 a then r = (fpCanon .f32, if fpSnan .f32 a then fNV else 0)
  else if fpInf .f32 a then r = (fpSigned .f32 neg 0, 0)
  else if fpMag .f32 a = 0 then r = (fpSigned .f32 neg (fpTopInf .f32), fDZ)
  else if fpMag .f32 a = 2 ^ n then f32Pow neg (-n) r
  else if fpMag .f32 (fpLargest .f32) < stepsOf .rne 0 neg y q * 2 ^ q then
    r = (fpSigned .f32 neg (fpTopInf .f32), fOF ||| fNX)
  else F32Fin r.1 ∧ |fpNum .f32 r.1 - 1 / fpNum .f32 a| ≤ 2 ^ (max (Int.log 2 y) (-126) - 23) ∧
    r.2 = fNX ||| (if (stepsOf .rne 0 neg y q : ℚ) * 2 ^ q < 2 ^ (-126 : ℤ) then fUF else 0)
/-- FRSQ (R144): the exact cases, and else 1 ulp of the reciprocal root, said of squares: u is the spacing at it. -/
def RsqIs (a : Nat) (r : Nat × Byte) : Prop :=
  let x := fpMag .f32 a
  let n := Int.log 2 x
  if fpNan .f32 a then r = (fpCanon .f32, if fpSnan .f32 a then fNV else 0)
  else if fpInf .f32 a = false ∧ x = 0 then r = (fpSigned .f32 (fpNeg .f32 a) (fpTopInf .f32), fDZ)
  else if fpNeg .f32 a then r = (fpCanon .f32, fNV)
  else if fpInf .f32 a then r = (0, 0)
  else if x = 2 ^ n ∧ n % 2 = 0 then f32Pow false (-(n / 2)) r
  else F32Fin r.1 ∧ fpNeg .f32 r.1 = false ∧ r.2 = fNX ∧
    ∃ q : ℤ, (2 : ℚ) ^ (2 * (q + 23)) * x ≤ 1 ∧ 1 < (2 : ℚ) ^ (2 * (q + 24)) * x ∧
      (fpNum .f32 r.1 ≤ 2 ^ q ∨ (fpNum .f32 r.1 - 2 ^ q) ^ 2 * x ≤ 1) ∧ 1 ≤ (fpNum .f32 r.1 + 2 ^ q) ^ 2 * x
/-- FSQRT (R144): correctly rounded, said of squares: n steps of 2 ^ q, NX where the root is no such number. -/
def SqrtIs (a : Nat) (r : Nat × Byte) : Prop :=
  let x := fpMag .f32 a
  if fpNan .f32 a then r = (fpCanon .f32, if fpSnan .f32 a then fNV else 0)
  else if fpInf .f32 a = false ∧ x = 0 then r = (a, 0)
  else if fpNeg .f32 a then r = (fpCanon .f32, fNV)
  else if fpInf .f32 a then r = (a, 0)
  else F32Fin r.1 ∧ fpNeg .f32 r.1 = false ∧
    ∃ (n : Nat) (q : ℤ), (2 : ℚ) ^ (2 * (q + 23)) ≤ x ∧ x < (2 : ℚ) ^ (2 * (q + 24)) ∧ fpMag .f32 r.1 = n * 2 ^ q ∧
      (2 * (n : ℚ) - 1) ^ 2 * 2 ^ (2 * q) ≤ 4 * x ∧ 4 * x ≤ (2 * (n : ℚ) + 1) ^ 2 * 2 ^ (2 * q) ∧
      r.2 = if (n : ℚ) ^ 2 * 2 ^ (2 * q) = x then 0 else fNX
/-- FEXP2's exact cases and flags (R144). -/
def Exp2Is (a : Nat) (r : Nat × Byte) : Prop :=
  let x := fpNum .f32 a
  if fpNan .f32 a then r = (fpCanon .f32, if fpSnan .f32 a then fNV else 0)
  else if fpInf .f32 a then r = (if fpNeg .f32 a then 0 else fpTopInf .f32, 0)
  else if 128 ≤ x then r = (fpTopInf .f32, fOF ||| fNX)
  else if x < -150 then r = (0, fUF ||| fNX)
  else if x = ⌊x⌋ ∧ -149 ≤ x then f32Pow false ⌊x⌋ r
  else F32Fin r.1 ∧ r.2 = fNX ||| (if x < -126 then fUF else 0)
/-- FLOG2's exact cases and flags (R144). -/
def Log2Is (a : Nat) (r : Nat × Byte) : Prop :=
  let x := fpMag .f32 a
  let n := Int.log 2 x
  if fpNan .f32 a then r = (fpCanon .f32, if fpSnan .f32 a then fNV else 0)
  else if fpInf .f32 a = false ∧ x = 0 then r = (fpSigned .f32 true (fpTopInf .f32), fDZ)
  else if fpNeg .f32 a then r = (fpCanon .f32, fNV)
  else if fpInf .f32 a then r = (fpTopInf .f32, 0)
  else if x = 2 ^ n then F32Fin r.1 ∧ fpNum .f32 r.1 = n ∧ r.2 = 0
  else F32Fin r.1 ∧ r.2 = fNX
/-- FSIN's and FCOS's exact cases and flags (R144). -/
def TrigIs (cos : Bool) (a : Nat) (r : Nat × Byte) : Prop :=
  if fpNan .f32 a then r = (fpCanon .f32, if fpSnan .f32 a then fNV else 0)
  else if fpInf .f32 a then r = (fpCanon .f32, fNV)
  else if fpMag .f32 a < 2 ^ (-12 : ℤ) then r = (if cos then 0x3F800000 else a, 0)
  else F32Fin r.1 ∧ r.2 = fNX

/-! ## The save area (R332 to R334) -/

/-- n bytes from a physical address lie in the installed memory of one die and tier (R154). -/
def Installed (a n : Nat) : Prop := paTier a < 2 ∧ paDie a < 24 ∧ paOff a + n ≤ capacity (paTier a)
/-- What a saved core holds fits the regions of its block, each of its stores within its allotment (R22, R178, R287, R333). -/
def BlockFits (x : SavedCore) : Prop :=
  x.teams.length ≤ 64 ∧ x.groups.length ≤ 64 ∧ x.copies.length ≤ 64 ∧ x.leaves.length ≤ 1024 ∧
  (x.groups.map (·.2.regs)).sum ≤ 4096 ∧ (x.groups.map (·.2.ntiles)).sum ≤ 4096 ∧ (x.teams.map (·.2.scratch)).sum ≤ 0xE0000 ∧
  (∀ g ∈ x.groups, g.2.pc.pkt < 2 ^ 32 ∧ g.2.pc.word < 4 ∧ g.2.calls.length ≤ 16 ∧ g.2.ixb < 2 ^ 8 ∧
    rising none g.2.v = true ∧ (∀ w ∈ g.2.v, w.1 < 32 * g.2.regs) ∧ rising none g.2.tiles = true ∧ (∀ w ∈ g.2.tiles, w.1 < 128 * g.2.ntiles) ∧
    ∀ i, (tourSlot g.2 i).steps.length ≤ 8 ∧ (tourSlot g.2 i).masks.length ≤ 4) ∧
  (∀ t ∈ x.teams, rising none t.2.carve = true ∧ ∀ b ∈ t.2.carve, b.1 < t.2.scratch) ∧
  rising none x.tempo.cells = true ∧ (∀ c ∈ x.tempo.cells, c.1 < 16384) ∧ ∀ r ∈ x.tempo.stage, r.1 < 128
/-- Bits [35:34] of a group record (R334). -/
def recordState (g : Group) : Nat := match g.status with
  | .ready | .starting => 0
  | .parked => 1
  | .waiting .drain | .ended => 3
  | .waiting _ => 2
/-- The block of a core stands in memory from a physical address: its header, the group records with counters, call stack, trap save,
k registers, special registers and windows, the lane registers, the tiles, the carve-outs and the tempo cells (R294, R333, R334). -/
def BlockHolds (m : List Host.Cell) (a : Nat) (x : SavedCore) : Prop :=
  let n (o k : Nat) : Nat := readNum m (a + o) k
  let counters (o : Nat) (c : Cells Byte) : Prop := ∀ l, l < 32 → n (o + l) 1 = (cget 0 c l).toNat
  let at_ (p : Pos) : Nat := (4 * p.pkt + p.word) % 2 ^ 64
  n 0 8 = x.teams.length ∧ n 8 8 = x.groups.length ∧ n 16 8 = x.copies.length ∧ n 24 8 = x.leaves.length + x.teams.length ∧
  (∀ k, k < 16384 → n (0x2000 + k) 1 = (let c := (cget 0 x.tempo.cells k).toNat; c / 16 * 2 ^ 7 + c % 16)) ∧
  n 0x6000 16 = x.tempo.mode.toNat ∧
  (∀ i id g, x.groups[i]? = some (id, g) →
    let r := 0x20000 + 4096 * i
    let reg0 := ((x.groups.take i).map (·.2.regs)).sum
    let tile0 := ((x.groups.take i).map (·.2.ntiles)).sum
    n r 8 = 4 * g.pc.pkt + g.pc.word + recordState g * 2 ^ 34 ∧ counters (r + 0x008) g.c ∧
    n (r + 0x028) 8 = g.calls.length + boolBit g.trap.lvl * 2 ^ 8 + g.ixb * 2 ^ 16 + reg0 * 2 ^ 32 + tile0 * 2 ^ 48 ∧
    (∀ j f, g.calls[j]? = some f → n (r + 0x030 + 40 * j) 8 = at_ f.ret ∧ counters (r + 0x038 + 40 * j) f.c) ∧
    counters (r + 0x2B0) g.trap.c ∧ n (r + 0x2D0) 8 = g.trap.depth % 2 ^ 64 ∧ n (r + 0x2D8) 8 = at_ g.trap.epc ∧
    n (r + 0x2E0) 8 = g.trap.ecause.toNat ∧ n (r + 0x2E8) 8 = g.trap.einfo.toNat ∧ n (r + 0x2F0) 8 = g.trap.emask.toNat ∧
    (∀ j, j < 64 → n (r + 0x300 + 8 * j) 8 = (kget g j).toNat) ∧
    n (r + 0x500) 8 = g.status8.toNat ∧ n (r + 0x508) 8 = g.seed.toNat ∧ n (r + 0x510) 8 = g.sg.toNat ∧ n (r + 0x518) 8 = g.sleepLeft % 2 ^ 64 ∧
    (∀ j, j < 8 → let w := xwget g j
      n (r + 0x520 + 24 * j) 8 = w.base % 2 ^ 64 ∧ n (r + 0x528 + 24 * j) 8 = w.size % 2 ^ 64 ∧ n (r + 0x530 + 24 * j) 8 = boolBit w.isOpen) ∧
    (∀ q l, q < g.regs → l < 32 → n (0x60000 + 128 * (reg0 + q) + 4 * l) 4 = (vget g q l).toNat) ∧
    ∀ q j, q < g.ntiles → j < 128 → n (0xE0000 + 512 * (tile0 + q) + 4 * j) 4 = (cget 0 g.tiles (128 * q + j)).toNat) ∧
  ∀ i id t, x.teams[i]? = some (id, t) → ∀ b, b < t.scratch →
    n (0x2E0000 + ((x.teams.take i).map (·.2.scratch)).sum + b) 1 = (cget 0 t.carve b).toNat

end Sys2Proof.Machine
end

