-- ==== Sys2Proof/Certificates/Slice0/Obligations.lean ====
section
/-! DEFINITION. The statements for the provers. Each formalises rules of the manual, named in its docstring. -/

open Sys2Proof Sys2Proof.Machine

/-! ## Uniform words -/

/-- R104 to R106: the functions of majors 0x01 and 0x02. A is KA, or KD in the immediate layout, and B is KB, the sign-extended
literal or the sign-extended immediate; the result is written to KD and latch y2, and nothing else changes. KSEL, KMOV and KPOPC
have no immediate form: its words are illegal, and so are KMOV and KPOPC with a KB or a literal. -/
def Obligations.UniformWords : Prop :=
  ∀ (s : State) (d a : Fin 64) (b : KSrc) (i : BitVec 12),
    let A := kget s.issue.pre a.val
    let B := ksrc s b
    let both (r m : Instr) (f : DWord → DWord → DWord) : Prop :=
      Gives r s (KWritten d (f A B)) ∧ Gives m s (KWritten d (f (kget s.issue.pre d.val) (i.signExtend 64)))
    let less (sg : Bool) (x y : DWord) : Prop := if sg then x.toInt < y.toInt else x.toNat < y.toNat
    let holds (cc : Cc) (x y : DWord) : Prop := match cc with
      | .eq => x = y | .ne => x ≠ y
      | .ltI => x.toInt < y.toInt | .leI => x.toInt ≤ y.toInt | .gtI => y.toInt < x.toInt | .geI => y.toInt ≤ x.toInt
      | .ltN => x.toNat < y.toNat | .leN => x.toNat ≤ y.toNat | .gtN => y.toNat < x.toNat | .geN => y.toNat ≤ x.toNat
    both (.kadd d a b) (.kaddImm d i) (· + ·) ∧ both (.ksub d a b) (.ksubImm d i) (· - ·) ∧
    both (.kmul d a b) (.kmulImm d i) (· * ·) ∧
    both (.kmulh true d a b) (.kmulhImm true d i) (fun x y => BitVec.ofInt 64 (x.toInt * y.toInt / 2 ^ 64)) ∧
    both (.kmulh false d a b) (.kmulhImm false d i) (fun x y => BitVec.ofNat 64 (x.toNat * y.toNat / 2 ^ 64)) ∧
    both (.kand d a b) (.kandImm d i) (· &&& ·) ∧ both (.kor d a b) (.korImm d i) (· ||| ·) ∧
    both (.kxor d a b) (.kxorImm d i) (· ^^^ ·) ∧
    both (.kshl d a b) (.kshlImm d i) (fun x y => if y.toNat < 64 then x <<< y.toNat else 0) ∧
    both (.kshr d a b) (.kshrImm d i) (fun x y => if y.toNat < 64 then x >>> y.toNat else 0) ∧
    both (.ksra d a b) (.ksraImm d i) (fun x y => x.sshiftRight (min y.toNat 64)) ∧
    (∀ sg, ∃ f, both (.kmin sg d a b) (.kminImm sg d i) f ∧ ∀ x y, (less sg y x → f x y = y) ∧ (¬less sg y x → f x y = x)) ∧
    (∀ sg, ∃ f, both (.kmax sg d a b) (.kmaxImm sg d i) f ∧ ∀ x y, (less sg x y → f x y = y) ∧ (¬less sg x y → f x y = x)) ∧
    (∀ cc, ∃ f, both (.kcmp cc d a b) (.kcmpImm cc d i) f ∧ ∀ x y, (holds cc x y → f x y = 1) ∧ (¬holds cc x y → f x y = 0)) ∧
    Gives (.ksel d a b) s (KWritten d (if kget s.issue.pre d.val ≠ 0 then A else B)) ∧
    Gives (.kmov d a) s (KWritten d A) ∧
    Gives (.kpopc d a) s (KWritten d (BitVec.ofNat 64 ((List.range 64).filter fun i => A.getLsbD i).length)) ∧
    (∀ sg, both (.kbfe sg d a b) (.kbfeImm sg d i) fun x y =>
      let pos := y.toNat % 64
      let w := min (y.toNat / 64 % 64 + 1) (64 - pos)
      if sg then BitVec.ofInt 64 (Int.bmod (x.toNat / 2 ^ pos) (2 ^ w)) else BitVec.ofNat 64 (x.toNat / 2 ^ pos % 2 ^ w)) ∧
    (∀ fn kb l, fn = 33 ∨ fn = 34 → kb < 64 → l < 2 → ¬(kb = 0 ∧ l = 0) → ∀ lit,
      decode (0x02000000 + l * 2 ^ 24 + d.val * 2 ^ 18 + a.val * 2 ^ 12 + kb * 2 ^ 6 + fn) lit = .error .reservedField) ∧
    ∀ fn, 32 ≤ fn → fn ≤ 34 →
      let w := 0x04000000 + d.val * 2 ^ 18 + fn * 2 ^ 12 + i.toNat
      decode w 0 = .ok (.unassignedOpcode (BitVec.ofNat 32 w)) ∧ ∀ entry, CanTrap s entry → Gives (.unassignedOpcode (BitVec.ofNat 32 w)) s
        fun s t => TrapTaken s.issue.pre 0x02 (einfoB s.issue.raw.toNat 0 0 s.issue.word) s.issue.pos entry t ∧ OnlyIssue s t

/-- R20, R40, R107, R109, R110: constants, and KGET of every special register: the group's own values, its place in its team, its
team's in the grid and its core's in the package and the partition. Coordinates and index read 0 in a node group. -/
def Obligations.UniformConstantsAndKget : Prop :=
  ∀ (s : State) (d : Fin 64),
    let g := s.issue.pre
    let x := team s g.team
    let gr := grid s x.grid
    let dies := (part s gr.part).dies
    let reads (r : SReg) (n : Nat) : Prop := Gives (.kget d r) s (KWritten d (BitVec.ofNat 64 n))
    (∀ i, Gives (.kli d i) s (KWritten d (i.signExtend 64))) ∧
    (∀ x, Gives (.kliLiteral d x) s (KWritten d (x.signExtend 64))) ∧
    (∀ x, Gives (.klih d x) s (KWritten d (x.zeroExtend 64 <<< 32 ||| (kget g d.val &&& 0xFFFFFFFF)))) ∧
    Gives (.kget d .active) s (fun s t => ∃ x : DWord, KWritten d x s t ∧
      ∀ l, x.getLsbD l = (decide (l < 32) && isActive g l)) ∧
    Gives (.kget d .retired) s (fun s t => ∃ x : DWord, KWritten d x s t ∧
      ∀ l, x.getLsbD l = (decide (l < 32) && isRetired g l)) ∧
    Gives (.kget d .ixb) s (KWritten d (BitVec.ofNat 64 g.ixb)) ∧
    Gives (.kget d .status) s (KWritten d (g.status8.zeroExtend 64)) ∧
    Gives (.kget d .seed) s (KWritten d g.seed) ∧
    Gives (.kget d .sg) s (KWritten d (g.sg.zeroExtend 64)) ∧
    Gives (.kget d .calldepth) s (KWritten d (BitVec.ofNat 64 g.calls.length)) ∧
    Gives (.kget d .time) s (KWritten d (BitVec.ofNat 64 s.time)) ∧
    Gives (.kget d .epc) s (KWritten d (BitVec.ofNat 64 (g.trap.epc.pkt * 4 + g.trap.epc.word))) ∧
    Gives (.kget d .ecause) s (KWritten d (g.trap.ecause.zeroExtend 64)) ∧
    Gives (.kget d .einfo) s (KWritten d g.trap.einfo) ∧
    Gives (.kget d .emask) s (KWritten d (g.trap.emask.zeroExtend 64)) ∧
    Gives (.kget d .traplvl) s (KWritten d (if g.trap.lvl then 1 else 0)) ∧
    reads .group (g.num + g.role * 2 ^ 8) ∧
    (∀ i j k, i < gr.x → j < gr.y → x.index = i + gr.x * (j + gr.y * k) → x.node = none →
      reads .teamx i ∧ reads .teamy j ∧ reads .teamz k ∧ reads .teami x.index) ∧
    (x.node.isSome → reads .teamx 0 ∧ reads .teamy 0 ∧ reads .teamz 0 ∧ reads .teami 0) ∧
    reads .gridx gr.x ∧ reads .gridy gr.y ∧ reads .gridz gr.z ∧
    (x.node = none → reads .node 0) ∧ (∀ n, x.node = some n → n < 64 → reads .node (2 ^ 6 + n)) ∧
    (∀ e c, c < 24 → g.core = 24 * e + c → reads .core (c * 2 ^ 24 + e * 2 ^ 16 + g.core) ∧
      reads .part (((List.range e).filter fun i => dies.getLsbD i).length * 2 ^ 8 +
        ((List.range 24).filter fun i => dies.getLsbD i).length)) ∧
    reads .cycles (g.cycles + (s.cycle - g.since)) ∧
    ∀ r, Gives (.kget d r) s (KWritten d (sregVal s r))

/-- R108 to R111: KSET writes STATUS and SEED, and EPC at trap level 1, and of any other register raises illegal-opcode; SETIX
sets ixb to n or to the whole of KA where that is below the allotment, and else raises register-bounds. Each leaves everything
else, the k registers and the latches included; with a trap entry a fault is taken and no register is written. -/
def Obligations.SpecialRegisterWrites : Prop :=
  ∀ (s : State) (a : Fin 64) (n : BitVec 8),
    let x := kget s.issue.pre a.val
    let traps (i : Instr) (code : Byte) (y : Nat) : Prop := ∀ entry, CanTrap s entry → Gives i s fun s t =>
      TrapTaken s.issue.pre code (einfoB y 0 0 s.issue.word) s.issue.pos entry t ∧ t.issue.cur.ixb = s.issue.pre.ixb ∧ OnlyIssue s t
    exec (.kset .status a) s = .next (modCur s fun g => { g with status8 := x.truncate 8 }) ∧
    exec (.kset .seed a) s = .next (modCur s fun g => { g with seed := x }) ∧
    (s.issue.pre.trap.lvl = true → exec (.kset .epc a) s =
      .next (modCur s fun g => { g with trap := { g.trap with epc := ⟨x.toNat / 4 % 2 ^ 32, x.toNat % 4⟩ } })) ∧
    (∀ r, r ≠ .status → r ≠ .seed → traps (.kset r a) 0x02 s.issue.raw.toNat) ∧
    (n.toNat < s.issue.pre.regs → exec (.setix n) s = .next (modCur s fun g => { g with ixb := n.toNat })) ∧
    (x.toNat < s.issue.pre.regs → exec (.setixK a) s = .next (modCur s fun g => { g with ixb := x.toNat })) ∧
    (s.issue.pre.regs ≤ n.toNat → traps (.setix n) 0x03 n.toNat) ∧
    (s.issue.pre.regs ≤ x.toNat → traps (.setixK a) 0x03 x.toNat)

/-! ## Vector words -/

/-- R135 to R137: the integer words, under readable operands. Each active lane gets the result; saturation alone sets a flag. -/
def Obligations.IntegerWords : Prop :=
  ∀ (s : State) (d : VDst) (a b e : Opnd),
    let A := opv s.issue.pre a
    let B := opv s.issue.pre b
    let E := opv s.issue.pre e
    let clamped (x lo hi : Int) : Word × Byte := (BitVec.ofInt 32 (max lo (min hi x)), if lo ≤ x ∧ x ≤ hi then 0 else fSAT)
    let pos (x : Word) : Nat := x.toNat % 64
    let wid (x : Word) : Nat := min (x.toNat / 64 % 64 + 1) (32 - pos x)
    let holds (cc : Cc) (x y : Word) : Prop := match cc with
      | .eq => x = y | .ne => x ≠ y
      | .ltI => x.toInt < y.toInt | .leI => x.toInt ≤ y.toInt | .gtI => y.toInt < x.toInt | .geI => y.toInt ≤ x.toInt
      | .ltN => x.toNat < y.toNat | .leN => x.toNat ≤ y.toNat | .gtN => y.toNat < x.toNat | .geN => y.toNat ≤ x.toNat
    let two (i : Instr) (f : Word → Word → Word) : Prop := GivesLanes i s d fun l => (f (A l) (B l), 0)
    (OperandsOk s [a] d.d →
      GivesLanes (.iabs d a) s d (fun l => (if (A l).toInt < 0 then -A l else A l, 0)) ∧
      GivesLanes (.ipopc d a) s d (fun l => (BitVec.ofNat 32 ((List.range 32).filter fun i => (A l).getLsbD i).length, 0)) ∧
      (∃ f : Word → Nat, GivesLanes (.iclz d a) s d (fun l => (BitVec.ofNat 32 (f (A l)), 0)) ∧ ∀ x, f x ≤ 32 ∧
        (∀ i, i < f x → x.getLsbD (31 - i) = false) ∧ (f x < 32 → x.getLsbD (31 - f x) = true)) ∧
      (∃ f : Word → Word, GivesLanes (.ibrev d a) s d (fun l => (f (A l), 0)) ∧ ∀ x i, i < 32 → (f x).getLsbD i = x.getLsbD (31 - i))) ∧
    (OperandsOk s [a, b] d.d →
      two (.iadd .none d a b) (· + ·) ∧ two (.isub .none d a b) (· - ·) ∧
      GivesLanes (.iadd .i32 d a b) s d (fun l => clamped ((A l).toInt + (B l).toInt) (-(2 ^ 31)) (2 ^ 31 - 1)) ∧
      GivesLanes (.iadd .n32 d a b) s d (fun l => clamped ((A l).toNat + (B l).toNat) 0 (2 ^ 32 - 1)) ∧
      GivesLanes (.isub .i32 d a b) s d (fun l => clamped ((A l).toInt - (B l).toInt) (-(2 ^ 31)) (2 ^ 31 - 1)) ∧
      GivesLanes (.isub .n32 d a b) s d (fun l => clamped ((A l).toNat - (B l).toNat) 0 (2 ^ 32 - 1)) ∧
      two (.iaddc d a b) (fun x y => if 2 ^ 32 ≤ x.toNat + y.toNat then 1 else 0) ∧
      two (.imul .low d a b) (· * ·) ∧
      two (.imul .highI d a b) (fun x y => BitVec.ofInt 32 (x.toInt * y.toInt / 2 ^ 32)) ∧
      two (.imul .highN d a b) (fun x y => BitVec.ofNat 32 (x.toNat * y.toNat / 2 ^ 32)) ∧
      two (.imin true d a b) (fun x y => if y.toInt < x.toInt then y else x) ∧
      two (.imin false d a b) (fun x y => if y.toNat < x.toNat then y else x) ∧
      two (.imax true d a b) (fun x y => if x.toInt < y.toInt then y else x) ∧
      two (.imax false d a b) (fun x y => if x.toNat < y.toNat then y else x) ∧
      two (.iand d a b) (· &&& ·) ∧ two (.ior d a b) (· ||| ·) ∧ two (.ixor d a b) (· ^^^ ·) ∧
      two (.ishl d a b) (fun x y => if y.toNat < 32 then x <<< y.toNat else 0) ∧
      two (.ishr d a b) (fun x y => if y.toNat < 32 then x >>> y.toNat else 0) ∧
      two (.isra d a b) (fun x y => x.sshiftRight (min y.toNat 32)) ∧
      two (.ibfe false d a b) (fun x y => if 32 ≤ pos y then 0 else BitVec.ofNat 32 (x.toNat / 2 ^ pos y % 2 ^ wid y)) ∧
      two (.ibfe true d a b) (fun x y => if 32 ≤ pos y then 0 else BitVec.ofInt 32 (Int.bmod (x.toNat / 2 ^ pos y) (2 ^ wid y))) ∧
      (∀ cc, ∃ f, two (.icmp cc d a b) f ∧ ∀ x y, (holds cc x y → f x y = 1) ∧ (¬holds cc x y → f x y = 0))) ∧
    (OperandsOk s [a, b, e] d.d →
      GivesLanes (.imad d a b e) s d (fun l => (A l * B l + E l, 0)) ∧
      GivesLanes (.isel d a b e) s d (fun l => (if A l = 0 then E l else B l, 0)) ∧
      ∃ f : Word → Word → Word → Word, GivesLanes (.ibfi d a b e) s d (fun l => (f (A l) (B l) (E l), 0)) ∧ ∀ x y z i, i < 32 →
        (f x y z).getLsbD i = if pos z < 32 ∧ pos z ≤ i ∧ i < pos z + wid z then y.getLsbD (i - pos z) else x.getLsbD i)

/-- R123, R124, R138 to R143: the floating-point words, under readable operands. Each active lane gets the exact result rounded
once to nearest-even, with the flags of the rules; the elements of a packed word are computed apart and their flags ORed. The sign
of a zero sum of operands of one sign is the model's reading of R123 (assumption 75). -/
def Obligations.FloatWords : Prop :=
  ∀ (s : State) (d : VDst) (a b e : Opnd),
    let A := opv s.issue.pre a
    let B := opv s.issue.pre b
    let E := opv s.issue.pre e
    let one (i : Instr) (R : Nat → Nat × Byte → Prop) : Prop := GivesEach i s d fun l => asWord (R (A l).toNat)
    let two (i : Instr) (R : Nat → Nat → Nat × Byte → Prop) : Prop :=
      GivesEach i s d fun l => asWord (R (A l).toNat (B l).toNat)
    let halves (i : Instr) (R : Nat → Nat → Nat × Byte → Prop) : Prop :=
      GivesEach i s d fun l => PackedIs (fun x y _ => R x y) (A l) (B l) 0
    (OperandsOk s [a] d.d →
      GivesLanes (.fabs d a) s d (fun l => (if fpNan .f32 (A l).toNat then 0x7FC00000 else A l &&& 0x7FFFFFFF, 0)) ∧
      GivesLanes (.fneg d a) s d (fun l => (if fpNan .f32 (A l).toNat then 0x7FC00000 else A l ^^^ 0x80000000, 0)) ∧
      GivesEach (.fclass d a) s d (fun l r => r.2 = 0 ∧ ∃ bit, ClassIs (A l).toNat bit ∧ r.1 = BitVec.ofNat 32 (2 ^ bit)) ∧
      ∀ m : FrndMode, one (.frnd m d a)
        (IntegralIs (match m with | .rne => .rne | .rz => .rz | .rd => .rd | .ru => .ru))) ∧
    (OperandsOk s [a, b] d.d →
      two (.fadd d a b) (SumIs .f32 false) ∧ two (.fsub d a b) (SumIs .f32 true) ∧ two (.fmul d a b) (ProductIs .f32) ∧
      two (.fmin d a b) (MinMaxIs .f32 false) ∧ two (.fmax d a b) (MinMaxIs .f32 true) ∧
      (∀ cc, GivesEach (.fcmp cc d a b) s d fun l => ComparedIs cc (A l).toNat (B l).toNat) ∧
      ∀ t : HTy, let f : FTy := match t with | .bf16x2 => .bf16 | .f16x2 => .f16
        halves (.hadd2 t d a b) (SumIs f false) ∧ halves (.hmul2 t d a b) (ProductIs f) ∧
        halves (.hmin2 t d a b) (MinMaxIs f false) ∧ halves (.hmax2 t d a b) (MinMaxIs f true)) ∧
    (OperandsOk s [a, b, e] d.d →
      GivesEach (.ffma d a b e) s d (fun l => asWord (FusedIs .f32 (A l).toNat (B l).toNat (E l).toNat)) ∧
      GivesEach (.hfma2 d a b e) s d (fun l => PackedIs (FusedIs .bf16) (A l) (B l) (E l)))

/-- R144: the special functions, under readable operands: their exact cases, their flags, and for FRCP, FRSQ and FSQRT the bound. -/
def Obligations.SpecialFunctionWords : Prop :=
  ∀ (s : State) (d : VDst) (a : Opnd), OperandsOk s [a] d.d →
    let one (i : Instr) (R : Nat → Nat × Byte → Prop) : Prop :=
      GivesEach i s d fun l => asWord (R (opv s.issue.pre a l).toNat)
    one (.frcp d a) RcpIs ∧ one (.frsq d a) RsqIs ∧ one (.fsqrt d a) SqrtIs ∧ one (.fexp2 d a) Exp2Is ∧
    one (.flog2 d a) Log2Is ∧ one (.fsin d a) (TrigIs false) ∧ one (.fcos d a) (TrigIs true)

/-- R144: the bounds of FEXP2, FLOG2, FSIN and FCOS on finite operands whose exact result is in range: 2 ulp, 2 ulp outside
[0.5, 2] and 2^-22 inside, and 2^-21. -/
def Obligations.SpecialFunctionBounds : Prop :=
  ∀ (s : State) (d : VDst) (a : Opnd), OperandsOk s [a] d.d →
    let x (l : Nat) : Nat := (opv s.issue.pre a l).toNat
    let v (l : Nat) : ℝ := (fpNum .f32 (x l) : ℝ)
    let near (i : Instr) (P : Nat → Nat → Prop) : Prop :=
      GivesEach i s d fun l r => fpNan .f32 (x l) = false → fpInf .f32 (x l) = false → P l r.1.toNat
    near (.fexp2 d a) (fun l r => -150 ≤ v l → v l < 128 → WithinUlps 2 ((2 : ℝ) ^ v l) r) ∧
    near (.flog2 d a) (fun l r => 0 < v l →
      if 1 / 2 ≤ v l ∧ v l ≤ 2 then |(fpNum .f32 r : ℝ) - Real.logb 2 (v l)| ≤ 1 / 2 ^ 22
      else WithinUlps 2 (Real.logb 2 (v l)) r) ∧
    near (.fsin d a) (fun l r => |(fpNum .f32 r : ℝ) - Real.sin (v l)| ≤ 1 / 2 ^ 21) ∧
    near (.fcos d a) (fun l r => |(fpNum .f32 r : ℝ) - Real.cos (v l)| ≤ 1 / 2 ^ 21)

/-- R123 to R125, R145 to R148: conversions, by the exact value converted. Stochastic rounding draws as R125 writes it, for every
lane, and advances SEED by 32 draws, whatever lanes are active; SCXP's codes follow the steps of R129 and a DS4 error sets DS4. -/
def Obligations.ConversionWords : Prop :=
  ∀ (s : State) (d : VDst) (a b : Opnd),
    let A (l : Nat) : Nat := (opv s.issue.pre a l).toNat
    let B (l : Nat) : Nat := (opv s.issue.pre b l).toNat
    let width (t : PackTy) : Nat := match t with | .i16 | .n16 => 16 | .i8 | .n8 => 8 | .i4 | .n4 => 4
    let signed (t : PackTy) : Bool := match t with | .i16 | .i8 | .i4 => true | _ => false
    let rnd (l : Nat) : Nat :=
      let z0 : DWord := s.issue.pre.seed + 0x9E3779B97F4A7C15#64 * BitVec.ofNat 64 (l + 1)
      let z1 := (z0 ^^^ z0 >>> 30) * 0xBF58476D1CE4E5B9#64
      let z2 := (z1 ^^^ z1 >>> 27) * 0x94D049BB133111EB#64
      (z2 ^^^ z2 >>> 31).toNat / 2 ^ 32
    (OperandsOk s [a] d.d →
      (∀ dst src m, m ≠ .rs → GivesEach (.fcvt dst src m d a) s d fun l =>
        asWord (ConvertedIs dst src m 0 (A l % 2 ^ FTy.width src))) ∧
      (∀ dst src, s.issue.verdict = .done → ∃ f : Nat → Word × Byte,
        (∀ l, asWord (ConvertedIs dst src .rs (rnd l) (A l % 2 ^ FTy.width src)) (f l)) ∧
        Gives (.fcvt dst src .rs d a) s fun s t =>
          t.issue.cur.seed = s.issue.pre.seed + 0x9E3779B97F4A7C15#64 * 32#64 ∧
          LanesWritten d (fun l => (f l).1) (flagsOf (activeLanes s.issue.pre) fun l => (f l).2) s
            (modCur t fun g => { g with seed := s.issue.cur.seed })) ∧
      (∀ m, GivesEach (.icvt .i32 m d a) s d (fun l => IntegerIs m (-(2 ^ 31)) (2 ^ 31 - 1) (A l)) ∧
        GivesEach (.icvt .n32 m d a) s d (fun l => IntegerIs m 0 (2 ^ 32 - 1) (A l)) ∧
        GivesEach (.icvt .i16 m d a) s d (fun l => IntegerIs m (-(2 ^ 15)) (2 ^ 15 - 1) (A l)) ∧
        GivesEach (.icvt .n16 m d a) s d (fun l => IntegerIs m 0 (2 ^ 16 - 1) (A l)) ∧
        GivesEach (.icvt .i8 m d a) s d (fun l => IntegerIs m (-(2 ^ 7)) (2 ^ 7 - 1) (A l)) ∧
        GivesEach (.icvt .n8 m d a) s d (fun l => IntegerIs m 0 (2 ^ 8 - 1) (A l)) ∧
        GivesEach (.icvt .fromI32 m d a) s d (fun l =>
          let x : Int := (opv s.issue.pre a l).toInt
          asWord (Rounded .f32 m 0 (decide (x < 0)) (x.natAbs : ℚ))) ∧
        GivesEach (.icvt .fromN32 m d a) s d (fun l => asWord (Rounded .f32 m 0 false (A l : ℚ))))) ∧
    (OperandsOk s [a, b] d.d →
      (∀ t, GivesLanes (.pack t d a b) s d fun l =>
        let w := width t
        let x : Int := if signed t then (opv s.issue.pre b l).toInt else B l
        let y : Int := if signed t then max (-(2 ^ (w - 1))) (min (2 ^ (w - 1) - 1) x) else max 0 (min (2 ^ w - 1) x)
        (BitVec.ofNat 32 (A l * 2 ^ w % 2 ^ 32 + (y % 2 ^ w).toNat), if y = x then 0 else fSAT)) ∧
      (∀ t, GivesLanes (.unpack t d a b) s d fun l =>
        let w := width t
        let field := A l / 2 ^ (w * (B l % 32 % (32 / w))) % 2 ^ w
        (if signed t then BitVec.ofInt 32 (Int.bmod field (2 ^ w)) else BitVec.ofNat 32 field, 0)) ∧
      (s.issue.verdict = .done → badStream s.issue.pre a b = false → ∃ code at_ : Nat → Nat,
        let nibble (m : Nat) : Nat := A (m / 8) / 16 ^ (m % 8) % 16
        let delta (n : Nat) : Int := if n < 8 then n else (n : Int) - 16
        let off (l : Nat) : Bool := nibble (at_ l) != 8 &&
          (decide ((code l : Int) + delta (nibble (at_ l)) < 0) || decide (255 < (code l : Int) + delta (nibble (at_ l))))
        code 0 = B 0 % 256 ∧ at_ 0 = 0 ∧
        (∀ l, l < 32 →
          (nibble (at_ l) = 8 → code (l + 1) = 16 * nibble (at_ l + 1) + nibble (at_ l + 2) ∧ at_ (l + 1) = at_ l + 3) ∧
          (nibble (at_ l) ≠ 8 → (code (l + 1) : Int) = (if off l then 0 else (code l : Int) + delta (nibble (at_ l))) ∧
            at_ (l + 1) = at_ l + 1)) ∧
        Gives (.scxp d a b) s (LanesWritten d
          (fun l => BitVec.ofNat 32 (at_ (l + 1) * 2 ^ 24 + code (l + 1) * 2 ^ 16 +
            (if 0xF9 ≤ code (l + 1) then 0x7E00 else code (l + 1) * 2 ^ 7)))
          (if (List.range 32).any off then fDS4 else 0))))

/-- R149 to R152: lane movement, votes, reductions and PRMT. A shuffle gives a lane its own A where the lane it names is out of
range or not active; a reduction combines the active lanes' values in the tree of R151, where no lane's flags but those of its
combinations arise. -/
def Obligations.LaneMovementWords : Prop :=
  ∀ (s : State) (d : VDst) (a b e : Opnd),
    let g := s.issue.pre
    let A := opv g a
    let B := opv g b
    let from_ (k : Int) (l : Nat) : Word := if 0 ≤ k ∧ k < 32 ∧ isActive g k.toNat = true then A k.toNat else A l
    (OperandsOk s [a] d.d →
      GivesLanes (.mov d a) s d (fun l => (A l, 0)) ∧
      GivesLanes (.vote .any d a) s d (fun _ => (if ∃ l ∈ activeLanes g, A l ≠ 0 then 1 else 0, 0)) ∧
      GivesLanes (.vote .all d a) s d (fun _ => (if ∀ l ∈ activeLanes g, A l ≠ 0 then 1 else 0, 0)) ∧
      (∃ m : Word, GivesLanes (.vote .ballot d a) s d (fun _ => (m, 0)) ∧
        ∀ l, l < 32 → m.getLsbD l = (isActive g l && A l != 0)) ∧
      GivesLanes (.vote .eq d a) s d
        (fun _ => (if (∀ l ∈ activeLanes g, A l ≠ 0) ∨ (∀ l ∈ activeLanes g, A l = 0) then 1 else 0, 0)) ∧
      (∀ op, ∃ node, TreeIs op (fun k => if isActive g k then some (A k) else none) node ∧
        GivesLanes (.redq op d a) s d (fun _ => ((node 5 0).1.getD 0, (node 5 0).2)) ∧
        ∃ acc : Nat → Nat → Option (Option Word) × Byte, (∀ l, PrefixIs op node l (acc l)) ∧
          GivesLanes (.scanq op d a) s d fun l => (((acc l 0).1.getD none).getD 0, (node 5 0).2 ||| (acc l 0).2))) ∧
    (OperandsOk s [a, b] d.d →
      GivesLanes (.shfl d a b) s d (fun l => (from_ ((B l).toNat % 32 : Nat) l, 0)) ∧
      GivesLanes (.shflx d a b) s d
        (fun l => (from_ ((BitVec.ofNat 5 l ^^^ BitVec.ofNat 5 (B l).toNat).toNat : Nat) l, 0)) ∧
      GivesLanes (.shflup d a b) s d (fun l => (from_ ((l : Int) - (B l).toNat) l, 0)) ∧
      GivesLanes (.shfldn d a b) s d (fun l => (from_ ((l : Int) + (B l).toNat) l, 0))) ∧
    (OperandsOk s [a, b, e] d.d →
      GivesLanes (.prmt d a b e) s d (fun l =>
        let src := (A l).toNat + (B l).toNat * 2 ^ 32
        let sel (i : Nat) : Nat := (opv g e l).toNat / 16 ^ i % 16
        let byte (i : Nat) : Nat := src / 256 ^ (sel i % 8) % 256
        let out (i : Nat) : Nat := if sel i < 8 then byte i else if byte i < 128 then 0 else 255
        (BitVec.ofNat 32 (out 0 + out 1 * 2 ^ 8 + out 2 * 2 ^ 16 + out 3 * 2 ^ 24), 0)))

/-- R23, R33, R50, R347: every V word. One that names a register at or above the allotment raises register-bounds, and one that
reads an empty latch raises empty-latch; no register is written. One with a source word that fails its check kills its gang. That a
word is checked whole before the words behind it, sources before the destination, is assumption 13; that the kill of a poisoned lane
register has check 0, a register having no physical address, is the model's choice (assumptions 42 and 86). -/
def Obligations.VectorOperandFaults : Prop :=
  ∀ (s : State) (d : VDst) (a b e : Opnd) (entry : Nat), CanTrap s entry →
    let g := s.issue.pre
    OfEveryVWord d a b e fun srcs i =>
      let regs := namedRegs g srcs (dstRegs g d.d)
      let empty := (srcs.map (emptyLatch g.y)).flatten
      (∀ r, regs.find? (fun r => decide (g.regs ≤ r)) = some r → Gives i s fun s t =>
        TrapTaken g 0x03 (einfoB r 0 0 s.issue.word) s.issue.pos entry t ∧ OnlyIssue s t) ∧
      (∀ n rest, (∀ r ∈ regs, r < g.regs) → empty = n :: rest → Gives i s fun s t =>
        TrapTaken g 0x04 (einfoB n 0 0 s.issue.word) s.issue.pos entry t ∧ OnlyIssue s t) ∧
      ((∀ r ∈ regs, r < g.regs) → empty = [] → badSrcs g srcs = true → s.issue.kill = none → Gives i s fun _ t =>
        t.issue.kill = some ⟨0x42, 0, false⟩)

/-! ## Control words -/

/-- R72, R73, R90: branches. A taken branch whose target lies in the code region sends the group there, one whose target lies
outside raises code-bounds, a register target that is no multiple of 12 raises misaligned-target, and a branch that is not taken
changes nothing. -/
def Obligations.Branches : Prop :=
  ∀ (s : State) (a : Fin 64),
    let g := s.issue.pre
    let A := kget g a.val
    let off := A.toNat % 2 ^ 32
    let traps (i : Instr) (code : Byte) (y : Nat) : Prop := ∀ entry, CanTrap s entry → Gives i s fun s t =>
      TrapTaken g code (einfoB y 0 0 s.issue.word) s.issue.pos entry t ∧ OnlyIssue s t
    let taken (i : Instr) (o : Int) : Prop :=
      let t := (s.issue.pos.pkt : Int) + o
      (InCode s t → exec i s = .next (landed s ⟨t.toNat, 0⟩)) ∧ (¬InCode s t → traps i 0x06 (BitVec.ofInt 32 t).toNat)
    let not (i : Instr) : Prop := exec i s = .next s
    (∀ o : BitVec 23, taken (.bra o) o.toInt) ∧
    (∀ o : BitVec 14, (A = 0 → taken (.brz a o) o.toInt) ∧ (A ≠ 0 → not (.brz a o))) ∧
    (∀ o : BitVec 14, (A ≠ 0 → taken (.brnz a o) o.toInt) ∧ (A = 0 → not (.brnz a o))) ∧
    (∀ o : BitVec 20, ((∃ l, l < 32 ∧ isActive g l = true) → taken (.brany o) o.toInt) ∧
      ((∀ l, l < 32 → isActive g l = false) → not (.brany o))) ∧
    (∀ o : BitVec 20, ((∀ l, l < 32 → isActive g l = false) → taken (.brnone o) o.toInt) ∧
      ((∃ l, l < 32 ∧ isActive g l = true) → not (.brnone o))) ∧
    (off % 12 = 0 → off / 12 < (gridOf s g).codeSize → exec (.brx a) s = .next (landed s ⟨off / 12, 0⟩)) ∧
    (off % 12 ≠ 0 → traps (.brx a) 0x05 off) ∧
    (off % 12 = 0 → (gridOf s g).codeSize ≤ off / 12 → traps (.brx a) 0x06 (off / 12))

/-- R73, R91, R92: CALL and CALLX push the position after the issue group and the counters; RET pops them where every lane that
is not retired has its counter of the call. A call at depth 16, a RET at depth 0 and a diverged RET raise nesting, and a bad target
the faults of R73, the target's before the depth's (R50, assumption 14). -/
def Obligations.CallsAndReturns : Prop :=
  ∀ (s : State) (a : Fin 64),
    let g := s.issue.pre
    let off := (kget g a.val).toNat % 2 ^ 32
    let pushed (p : Nat) : State :=
      modCur (landed s ⟨p, 0⟩) fun c => { c with calls := c.calls ++ [⟨s.issue.next, g.c⟩] }
    let traps (i : Instr) (code : Byte) (y : Nat) : Prop := ∀ entry, CanTrap s entry → Gives i s fun s t =>
      TrapTaken g code (einfoB y 0 0 s.issue.word) s.issue.pos entry t ∧ OnlyIssue s t
    let called (i : Instr) (p : Nat) : Prop :=
      (g.calls.length ≠ 16 → exec i s = .next (pushed p)) ∧ (g.calls.length = 16 → traps i 0x07 0)
    (∀ o : BitVec 23, let t := (s.issue.pos.pkt : Int) + o.toInt
      (InCode s t → called (.call o) t.toNat) ∧ (¬InCode s t → traps (.call o) 0x06 (BitVec.ofInt 32 t).toNat)) ∧
    (off % 12 = 0 → off / 12 < (gridOf s g).codeSize → called (.callx a) (off / 12)) ∧
    (off % 12 ≠ 0 → traps (.callx a) 0x05 off) ∧
    (off % 12 = 0 → (gridOf s g).codeSize ≤ off / 12 → traps (.callx a) 0x06 (off / 12)) ∧
    (g.calls = [] → traps .ret 0x07 0) ∧
    (∀ f fs, g.calls = fs ++ [f] →
      (g.c = g.dup → (∀ l, l < 32 → ctr g l = 255 ∨ ctr g l = cget 0 f.c l) →
        exec .ret s = .next (landed (modCur s fun c => { c with calls := c.calls.dropLast }) f.ret)) ∧
      ((∃ l, l < 32 ∧ ctr g l ≠ 255 ∧ ctr g l ≠ cget 0 f.c l) → traps .ret 0x07 0))

/-- R83 to R86, R93, R94, R347, R350: the structured words, on the counters of every lane. An IF or LOOP that would raise a counter
above 254 raises nesting, and an ENDLOOP whose taken target lies outside the code region code-bounds. Where the two copies of the
counters differ, the words that compare them kill the gang. IF reads its operand in every lane that is not retired, and a word there
that fails its check kills the gang (R347; its check 0 is the model's choice, assumptions 42 and 86). -/
def Obligations.MaskWords : Prop :=
  ∀ (s : State) (o : Opnd) (depth : BitVec 8),
    let g := s.issue.pre
    let past (n : Nat) : Prop := ∃ l, l < 32 ∧ ctr g l ≠ 255 ∧ ctr g l ≠ 0 ∧ 254 < (ctr g l).toNat + n
    let clean : Prop := ∀ r ∈ opndRegs g o, ∀ l, l < 32 → ctr g l ≠ 255 → g.vBad.contains (32 * r + l) = false
    let entered (l : Nat) (x : Byte) : Byte := if x = 255 then 255 else if x ≠ 0 then x + 1 else if opv g o l = 0 then 1 else 0
    let traps (i : Instr) (code : Byte) (y : Nat) : Prop := ∀ entry, CanTrap s entry → Gives i s fun s t =>
      TrapTaken g code (einfoB y 0 0 s.issue.word) s.issue.pos entry t ∧ OnlyIssue s t
    let kills (i : Instr) : Prop := g.c ≠ g.dup → exec i s =
      .next { s with issue := { s.issue with kill := some ⟨0x41, s.issue.pos.pkt, false⟩, endRun := true } }
    (OperandsOk s [o] .discard → past 1 → traps (.ifL o) 0x07 0) ∧ (past 2 → traps .loopL 0x07 0) ∧
    (∀ off : BitVec 20, let t := (s.issue.pos.pkt : Int) + off.toInt
      (∃ l, l < 32 ∧ (ctr g l = 0 ∨ ctr g l = 1)) → ¬InCode s t → traps (.endloop off) 0x06 (BitVec.ofInt 32 t).toNat) ∧
    kills .elseL ∧ kills .endifL ∧ (∀ off, kills (.endloop off)) ∧ kills .ret ∧ (g.trap.lvl = true → kills .eret) ∧
    (OperandsOk s [o] .discard → clean → ¬past 1 → Gives (.ifL o) s (CountersBecome entered)) ∧
    ((∀ r ∈ opndRegs g o, r < g.regs) → emptyLatch g.y o = [] → ¬clean → ¬past 1 → s.issue.kill = none →
      Gives (.ifL o) s fun s t => t.issue.kill = some ⟨0x42, 0, false⟩ ∧
        CountersBecome entered s { t with issue := { t.issue with kill := none } }) ∧
    (g.c = g.dup →
      Gives .elseL s (CountersBecome fun _ x => if x = 0 then 1 else if x = 1 then 0 else x) ∧
      Gives .endifL s (CountersBecome fun _ x => if x = 255 ∨ x = 0 then x else x - 1)) ∧
    (¬past 2 → Gives .loopL s (CountersBecome fun _ x => if x = 255 ∨ x = 0 then x else x + 2)) ∧
    (OperandsOk s [o] .discard →
      Gives (.breakL o depth) s (CountersBecome fun l x => if isActive g l = true ∧ opv g o l ≠ 0 then depth + 2 else x) ∧
      Gives (.contL o depth) s (CountersBecome fun l x => if isActive g l = true ∧ opv g o l ≠ 0 then depth + 1 else x)) ∧
    (∀ off : BitVec 20, g.c = g.dup → (∃ l, l < 32 ∧ (ctr g l = 0 ∨ ctr g l = 1)) →
      InCode s (s.issue.pos.pkt + off.toInt) → Gives (.endloop off) s fun s t =>
        CountersBecome (fun _ x => if x = 1 then 0 else x) s t ∧
        t.issue.target = some ⟨(s.issue.pos.pkt + off.toInt).toNat, 0⟩) ∧
    (∀ off : BitVec 20, g.c = g.dup → (∀ l, l < 32 → ctr g l ≠ 0 ∧ ctr g l ≠ 1) → Gives (.endloop off) s fun s t =>
      CountersBecome (fun _ x => if x = 255 then 255 else if x = 2 then 0 else if 2 < x.toNat then x - 2 else
        if x = 1 then 0 else x) s t ∧ t.issue.target = s.issue.target)

/-- R96 to R99: EXIT retires the active lanes, and the group drains when none is left; YIELD ends the run; SLEEP waits, and acts
as YIELD with 0 cycles; NOP does nothing. -/
def Obligations.ExitYieldSleepNop : Prop :=
  ∀ (s : State) (a : Fin 64),
    let g := s.issue.pre
    exec .nop s = .next s ∧
    exec .yieldL s = .next { s with issue := { s.issue with endRun := true } } ∧
    (s.issue.cur.c = g.c → Gives .exitL s fun s t =>
      (∀ l, l < 32 → ctr t.issue.cur l = if ctr g l = 0 then 255 else ctr g l) ∧
      ((∀ l, l < 32 → ctr g l = 0 ∨ ctr g l = 255) → t.issue.cur.status = .waiting .drain ∧ t.issue.endRun = true) ∧
      t.issue.cur.v = s.issue.cur.v ∧ t.issue.cur.k = s.issue.cur.k ∧ OnlyIssue s t) ∧
    (∀ n : BitVec 16, n ≠ 0 → exec (.sleepImm n) s = .next { s with issue := { s.issue with
      endRun := true
      cur := { s.issue.cur with status := .waiting .sleep, sleepLeft := n.toNat + (s.cycle - s.issue.cur.since) } } }) ∧
    exec (.sleepImm 0) s = exec .yieldL s ∧ ((kget g a.val).toNat % 2 ^ 32 = 0 → exec (.sleepK a) s = exec .yieldL s) ∧
    ((kget g a.val).toNat % 2 ^ 32 ≠ 0 → exec (.sleepK a) s = .next { s with issue := { s.issue with
      endRun := true
      cur := { s.issue.cur with
        status := .waiting .sleep
        sleepLeft := min ((kget g a.val).toNat % 2 ^ 32) 16777216 + (s.cycle - s.issue.cur.since) } } })

/-- R100, R102: TRAP, BKPT and an illegal word take the trap. EPC is the issue group's position, and for TRAP what follows it;
ECAUSE and EINFO say why; the counters of lanes that are not retired become 0. -/
def Obligations.TrapEntry : Prop :=
  ∀ (s : State) (entry : Nat), CanTrap s entry →
    (∀ code : BitVec 8, Gives (.bkpt code) s fun s t =>
      TrapTaken s.issue.pre 0x31 (code.zeroExtend 64) s.issue.pos entry t ∧ OnlyIssue s t) ∧
    (∀ code : BitVec 8, Gives (.trap code) s fun s t =>
      TrapTaken s.issue.cur 0x30 (code.zeroExtend 64) s.issue.next entry t ∧
        t.issue.target = some ⟨entry, 0⟩ ∧ OnlyIssue s t) ∧
    (∀ w, Gives (.unassignedOpcode w) s fun s t =>
      TrapTaken s.issue.pre 0x02 (einfoB s.issue.raw.toNat 0 0 s.issue.word) s.issue.pos entry t ∧ OnlyIssue s t)

/-- R23, R33, R73, R86, R92, R101, R108, R109, R166, R343, R344, R359: a fault at trap level 1 whose route is the trap, TRAP and BKPT
among them, is a double fault: the grid is aborted with code 0x43 and starts no further team. Its record goes to the error log:
EPC is the issue group that raised the second fault, ADDR its EINFO and AUX the codes of the first and the second. Said of TRAP, BKPT,
an illegal word, the operand faults of every V word, KSET and SETIX, every target and nesting fault, ERET's, and the window faults of LD,
and of no other fault. That the first faulting operand is reported is assumption 13, that CALL checks its target before the depth is
assumption 14, and that ADDR cuts an offset to 48 bits is assumption 43. -/
def Obligations.DoubleFaultAborts : Prop :=
  ∀ (s : State) (x : Team) (gr : Grid) (d : VDst) (a b e : Opnd) (ka : Fin 64) (n : BitVec 8),
    let g := s.issue.pre
    let w := s.issue.word
    let A := kget g ka.val
    let off := A.toNat % 2 ^ 32
    let aborts (i : Instr) (code : Byte) (info : DWord) : Prop := Gives i s fun s t =>
      (grid t x.grid).ending = .aborting 0x43 ∧ (grid t x.grid).chunks = [] ∧ t.issue.cur.trap = g.trap ∧ t.mem = s.mem ∧
      ∃ r, (part t gr.part).eheld = (part s gr.part).eheld ++ [(r, some x.grid)] ∧
        RecordIs s g x gr r 0x43 1 (s.issue.pos.pkt * 4 + s.issue.pos.word) info.toNat (g.trap.ecause.toNat + code.toNat * 2 ^ 8)
    let faults (i : Instr) (code : Byte) (y : Nat) : Prop := aborts i code (einfoB y 0 0 w)
    let far (i : Instr) (o : Int) : Prop :=
      ¬InCode s (s.issue.pos.pkt + o) → faults i 0x06 (BitVec.ofInt 32 (s.issue.pos.pkt + o)).toNat
    let past (n : Nat) : Prop := ∃ l, l < 32 ∧ ctr g l ≠ 255 ∧ ctr g l ≠ 0 ∧ 254 < (ctr g l).toNat + n
    g.trap.lvl = true → mget s.teams g.team = some x → mget s.grids x.grid = some gr → gr.ending = .running → RecordFits s g x gr →
      (∀ code : BitVec 8, aborts (.trap code) 0x30 (code.zeroExtend 64) ∧ aborts (.bkpt code) 0x31 (code.zeroExtend 64)) ∧
      (∀ u, faults (.unassignedOpcode u) 0x02 s.issue.raw.toNat) ∧
      (OfEveryVWord d a b e fun srcs i =>
        let regs := namedRegs g srcs (dstRegs g d.d)
        (∀ r, regs.find? (fun r => decide (g.regs ≤ r)) = some r → faults i 0x03 r) ∧
        (∀ n rest, (∀ r ∈ regs, r < g.regs) → (srcs.map (emptyLatch g.y)).flatten = n :: rest → faults i 0x04 n)) ∧
      (∀ r, r ≠ .status → r ≠ .seed → r ≠ .epc → faults (.kset r ka) 0x02 s.issue.raw.toNat) ∧
      (g.regs ≤ n.toNat → faults (.setix n) 0x03 n.toNat) ∧ (g.regs ≤ A.toNat → faults (.setixK ka) 0x03 A.toNat) ∧
      (∀ o : BitVec 23, far (.bra o) o.toInt ∧ far (.call o) o.toInt ∧
        (InCode s (s.issue.pos.pkt + o.toInt) → g.calls.length = 16 → faults (.call o) 0x07 0)) ∧
      (∀ o : BitVec 14, (A = 0 → far (.brz ka o) o.toInt) ∧ (A ≠ 0 → far (.brnz ka o) o.toInt)) ∧
      (∀ o : BitVec 20, ((∃ l, l < 32 ∧ isActive g l = true) → far (.brany o) o.toInt) ∧
        ((∀ l, l < 32 → isActive g l = false) → far (.brnone o) o.toInt) ∧
        (g.c = g.dup → (∃ l, l < 32 ∧ (ctr g l = 0 ∨ ctr g l = 1)) → far (.endloop o) o.toInt)) ∧
      (off % 12 ≠ 0 → faults (.brx ka) 0x05 off ∧ faults (.callx ka) 0x05 off) ∧
      (off % 12 = 0 → (gridOf s g).codeSize ≤ off / 12 → faults (.brx ka) 0x06 (off / 12) ∧ faults (.callx ka) 0x06 (off / 12)) ∧
      (off % 12 = 0 → off / 12 < (gridOf s g).codeSize → g.calls.length = 16 → faults (.callx ka) 0x07 0) ∧
      (g.c = g.dup → g.calls = [] ∨ (∃ f fs, g.calls = fs ++ [f] ∧ ∃ l, l < 32 ∧ ctr g l ≠ 255 ∧ ctr g l ≠ cget 0 f.c l) →
        faults .ret 0x07 0) ∧
      (OperandsOk s [a] .discard → past 1 → faults (.ifL a) 0x07 0) ∧ (past 2 → faults .loopL 0x07 0) ∧
      (g.c = g.dup → ((∃ l, l < 32 ∧ ctr g l ≠ 0 ∧ ctr g l ≠ 255) ∨ g.calls.length ≠ g.trap.depth → faults .eret 0x07 0) ∧
        ((∀ l, l < 32 → ctr g l = 0 ∨ ctr g l = 255) → g.calls.length = g.trap.depth →
          g.trap.epc.word = 3 ∨ (gridOf s g).codeSize ≤ g.trap.epc.pkt → faults .eret 0x06 g.trap.epc.pkt)) ∧
      ∀ (sz : LdSize) (dst : Dst) (win : Fin 8) (imm : BitVec 6) (i : Item) (rest : List Item),
        let m := ldBytes sz
        let win' := xwget g win.val
        let at_ (code : Byte) : Prop := aborts (.ld sz dst win a imm) code (einfoA (offAddr i.off) false false w i.lane)
        RegsOk s (opndRegs g a ++ top (ldRegs g dst m)) [a] → mItems g a imm m = i :: rest →
          (win'.isOpen = false → at_ 0x10) ∧ (win'.isOpen = true → ((win'.base : Int) + i.off) % m ≠ 0 → at_ 0x13) ∧
          (win'.isOpen = true → (∀ j ∈ i :: rest, ((win'.base : Int) + j.off) % m = 0) →
            (i.off < 0 ∨ (win'.size : Int) < i.off + m) → at_ 0x11)

/-- R101, R117, R343: ERET restores every counter that is not retired from the trap frame, lowers the level and goes to EPC; at
trap level 0 it raises illegal-opcode. An ERET whose counters, call depth or EPC fail their check is a double fault. -/
def Obligations.TrapReturn : Prop :=
  ∀ s : State,
    let g := s.issue.pre
    (g.trap.lvl = true → g.c = g.dup → (∀ l, l < 32 → ctr g l = 0 ∨ ctr g l = 255) → g.calls.length = g.trap.depth →
      g.trap.epc.word ≠ 3 → g.trap.epc.pkt < (gridOf s g).codeSize →
      Gives .eret s fun s t =>
        t.issue.target = some g.trap.epc ∧ t.issue.cur.trap = { s.issue.cur.trap with lvl := false } ∧
        (∀ l, l < 32 → ctr t.issue.cur l = if ctr s.issue.cur l = 255 then 255 else cget 0 s.issue.cur.trap.c l) ∧
        t.issue.cur.v = s.issue.cur.v ∧ t.issue.cur.k = s.issue.cur.k ∧ t.issue.verdict = s.issue.verdict ∧ t.issue.noLatch = true ∧ OnlyIssue s t) ∧
    (∀ gr, g.trap.lvl = true → g.c = g.dup → mget s.grids (gidOf s g) = some gr → gr.ending = .running →
      (∃ l, l < 32 ∧ ctr g l ≠ 0 ∧ ctr g l ≠ 255) ∨ g.calls.length ≠ g.trap.depth ∨ g.trap.epc.word = 3 ∨
        (gridOf s g).codeSize ≤ g.trap.epc.pkt →
      Gives .eret s fun s t => (grid t (gidOf s g)).ending = .aborting 0x43 ∧ t.issue.cur.trap = g.trap ∧ t.mem = s.mem) ∧
    (∀ entry, CanTrap s entry → Gives .eret s fun s t =>
      TrapTaken s.issue.pre 0x02 (einfoB s.issue.raw.toNat 0 0 s.issue.word) s.issue.pos entry t)

/-- R103, R117, R351: SIGCHK compares SG: a match restarts it, a difference kills the gang with code 0x40, and at trap level 1
nothing happens. -/
def Obligations.SignatureCheck : Prop :=
  ∀ (s : State) (value : Word),
    (s.issue.pre.trap.lvl = true → exec (.sigchk value) s = .next s) ∧
    (s.issue.pre.trap.lvl = false → s.issue.pre.sg = value →
      exec (.sigchk value) s = .next { s with issue := { s.issue with sigOk := true } }) ∧
    (s.issue.pre.trap.lvl = false → s.issue.pre.sg ≠ value → exec (.sigchk value) s =
      .next { s with issue := { s.issue with kill := some ⟨0x40, s.issue.pos.pkt, false⟩, endRun := true } })

/-! ## Windows, loads and stores -/

/-- R154, R158 to R169: an access through a window that passes its checks. The window is open, every item is aligned and inside it;
every address handed on is that of R160 to R164 for its item, in a tier that the operation reaches; a read changes no byte of
memory and a write at most the page-table entries of the window's leaves. An item's address is the direct path's where the window's
limit covers it, and else comes through the core TLB, the die TLB and the walk: which leaf a walk reaches, which entry ends it, and
what a leaf gives, by the rows of R160 in their order. -/
def Obligations.WindowAccess : Prop :=
  (∀ (s : State) (pa : Nat), let tier := pa / 2 ^ 50 % 4
    let off := pa % 2 ^ 45
    let size : Nat := if tier = 0 then 6 * 2 ^ 30 else 64 * 2 ^ 30
    (2 ≤ tier → resolve s pa = some (pa % 2 ^ 52)) ∧
    (tier < 2 → pa / 2 ^ 45 % 32 < 24 → resolve s pa = if off < size then some (pa % 2 ^ 52) else none) ∧
    (tier < 2 → 24 ≤ pa / 2 ^ 45 % 32 → pa / 2 ^ 45 % 32 < 31 → resolve s pa = none)) ∧
  (∀ (s : State) (p ctx va level table : Nat), 1 ≤ level → level ≤ 4 →
    let walk := walkFrom s va (5 - level) level table
    let entry := resolve s (table + 8 * (va / 2 ^ (12 + 9 * (4 - level)) % 512))
    walkVa s p ctx va = walkFrom s va 4 1 (ctxRoot s p ctx) ∧ (entry = none → walk = .physical) ∧
    ∀ a, entry = some a →
      let e := readNum s.mem a 8
      let f (lo n : Nat) : Nat := e / 2 ^ lo % 2 ^ n
      let leaf : Prop := level = 4 ∨ (level ≠ 1 ∧ f 7 1 = 1)
      let malformed : Prop := f 50 10 ≠ 0 ∨ f 8 4 ≠ 0 ∨ f 1 2 ≠ 0 ∨ (level = 1 ∧ f 7 1 = 1) ∨
        (leaf ∧ (level = 2 ∧ f 12 18 ≠ 0 ∨ level = 3 ∧ f 12 9 ≠ 0)) ∨
        (¬leaf ∧ (f 3 4 ≠ 0 ∨ f 60 1 = 1 ∨ f 63 1 = 1 ∨ 2 ≤ f 61 2))
      let n := if level = 4 then (if f 7 1 = 1 then 16 else 12) else 12 + 9 * (4 - level)
      (poisoned s a 8 = true → ∃ b, walk = .poison b) ∧
      (poisoned s a 8 = false → (f 0 1 = 0 → walk = .absent a) ∧
        (f 0 1 = 1 → (malformed → walk = .format) ∧
          (¬malformed → leaf → walk = .leaf (va / 2 ^ n * 2 ^ n) n (BitVec.ofNat 64 e) a) ∧
          (¬malformed → ¬leaf → walk = walkFrom s va (4 - level) (level + 1) (f 61 2 * 2 ^ 50 + f 12 38 * 2 ^ 12))))) ∧
  (∀ (s : State) (p : Nat) (write known : Bool) (pte : DWord) (bits va : Nat),
    let f (lo n : Nat) : Nat := pte.toNat / 2 ^ lo % 2 ^ n
    let pa := (f 61 2 * 2 ^ 50 + f 12 38 * 2 ^ 12) / 2 ^ bits * 2 ^ bits + va % 2 ^ bits
    let r := useLeaf s p write pte bits va known
    (write = true → f 3 1 = 0 → r = .fault 0x17) ∧
    ((write = false ∨ f 3 1 = 1) →
      (f 63 1 = 0 → f 61 2 = 3 → s.atsbyp.getLsbD p = false → r = .fault 0x17) ∧
      (f 63 1 = 1 → known = false → r = .ats (pa % 2 ^ 50)) ∧
      ((f 63 1 = 1 ∧ known = true) ∨ (f 63 1 = 0 ∧ (f 61 2 ≠ 3 ∨ s.atsbyp.getLsbD p = true)) →
        (resolve s pa = none → r = .fault 0x18) ∧ ∀ a, resolve s pa = some a → r = .ok a (decide (f 60 1 = 1))))) ∧
  (∀ (s : State) (c p ctx va : Nat) (write : Bool) (held : List HeldWalk),
    let at_ (l : List TlbEntry) := (tlbFind l ctx va).filter (tlbServes · write)
    let near := at_ (core s c).tlb
    let r := xlateGroup s c p ctx va write held
    (∀ l e, tlbFind l ctx va = some e → e ∈ l ∧ e.ctx = ctx ∧ e.va ≤ va ∧ va < e.va + 2 ^ e.bits) ∧
    (∀ h base bits pte a, held.find? (fun h => h.va = va / 4096 * 4096 && (h.write || !write)) = some h → h.res = .leaf base bits pte a →
      r = useLeaf s p write pte bits va true) ∧
    (held = [] → (∀ e, near = some e → r = useLeaf s p write e.pte e.bits va true) ∧
      (∀ e, near = none → at_ (die s (dieOf c)).tlb = some e → r = useLeaf s p write e.pte e.bits va true) ∧
      (near = none → at_ (die s (dieOf c)).tlb = none → r = .miss))) ∧
  (∀ (s : State) (g : Group) (w : Window) (write : Bool) (held : List HeldWalk) (i : Item),
    let o := i.off.toNat
    let r := itemPa s g w write held i
    (o + i.size ≤ w.limit → (write = true → w.w = false → r = .fault 0x17) ∧ ((write = false ∨ w.w = true) →
      (resolve s (w.frame + o) = none → r = .fault 0x18) ∧ ∀ a, resolve s (w.frame + o) = some a → r = .ok a w.stable)) ∧
    (w.limit < o + i.size → r = xlateGroup s g.core (partOf s g) (ctxOf s g) (w.base + o) write held)) ∧
  ∀ (s s1 : State) (n : Nat) (items : List Item) (write : Bool) (tierOk : Nat → Bool) (acc : List Acc) (u : Word),
    let g := s.issue.pre
    let w := xwget g n
    let held := heldFor s (items.map fun i => w.base + i.off.toNat)
    checkAccess s n items write tierOk = .ok s1 acc u → items ≠ [] →
      w.isOpen = true ∧
      (∀ i ∈ items, ((w.base : Int) + i.off) % i.size = 0 ∧ 0 ≤ i.off ∧ i.off + i.size ≤ w.size) ∧
      (∀ a ∈ acc, ∃ i ∈ items, i.lane = a.lane ∧ i.size = a.size ∧ itemPa s g w write held i = .ok a.pa a.stable ∧
        tierOk (paTier a.pa) = true) ∧
      (∀ i ∈ items, itemPa s g w write held i ≠ .miss) ∧
      (write = false → s1.mem = s.mem ∧ s1.nextId = s.nextId) ∧ MemKeptBut w.leaves s s1 ∧ RegsKept s s1

/-- R166: the checks of LD stop in this order: a closed window, a misaligned address, an offset outside the window. EINFO's ADDR is
the offset; that one below 0, or above 48 bits, is cut to 48 bits is the model's reading (assumption 43). -/
def Obligations.WindowFaults : Prop :=
  ∀ (s : State) (sz : LdSize) (d : Dst) (win : Fin 8) (off : Opnd) (imm : BitVec 6) (entry : Nat) (i : Item) (rest : List Item),
    let g := s.issue.pre
    let n := ldBytes sz
    let w := xwget g win.val
    CanTrap s entry → RegsOk s (opndRegs g off ++ top (ldRegs g d n)) [off] → mItems g off imm n = i :: rest →
      (w.isOpen = false → Gives (.ld sz d win off imm) s fun s t =>
        TrapTaken g 0x10 (einfoA (offAddr i.off) false false s.issue.word i.lane) s.issue.pos entry t ∧ OnlyIssue s t) ∧
      (w.isOpen = true → ((w.base : Int) + i.off) % n ≠ 0 → Gives (.ld sz d win off imm) s fun s t =>
        TrapTaken g 0x13 (einfoA (offAddr i.off) false false s.issue.word i.lane) s.issue.pos entry t ∧ OnlyIssue s t) ∧
      (w.isOpen = true → (∀ j ∈ i :: rest, ((w.base : Int) + j.off) % n = 0) → (i.off < 0 ∨ (w.size : Int) < i.off + n) →
        Gives (.ld sz d win off imm) s fun s t =>
          TrapTaken g 0x11 (einfoA (offAddr i.off) false false s.issue.word i.lane) s.issue.pos entry t ∧ OnlyIssue s t)

/-- R183, R187 to R189: LD and LDP. A load joins class LD with one part for each line; a request for each line is in flight;
the registers change only when data returns. -/
def Obligations.LaneLoads : Prop :=
  ∀ (s s1 : State) (sz : LdSize) (d : Dst) (win : Fin 8) (off : Opnd) (imm : BitVec 6) (acc : List Acc),
    let g := s.issue.pre
    let n := ldBytes sz
    let items := mItems g off imm n
    RegsOk s (opndRegs g off ++ top (ldRegs g d n)) [off] →
      (checkAccess (memClass s) win.val items false anyTier = .ok s1 acc 0 → RoomFor s1 (loadRequests s1 sz acc) →
        Gives (.ld sz d win off imm) s fun s t =>
          RegsKept s t ∧ t.mem = s.mem ∧
          mget t.ops s1.nextId = some { gid := s.issue.gid, cls := .ld, parts := (byLine acc).length,
                                        discard := decide (d = .discard), dests := destWords g d n (acc.map (·.lane)) } ∧
          ∀ x ∈ byLine acc, ∃ m ∈ t.net, m.gid = some s.issue.gid ∧
            loadOf m.body = some (s1.nextId, x.2.map fun a => (a.lane, dst0 g d, a.pa))) ∧
      (items ≠ [] → (pwin s g win.val).size ≠ 0 → (∀ i ∈ items, i.off % (i.size : Int) = 0) →
        Gives (.ldp sz d win off imm) s fun s t =>
          RegsKept s t ∧ t.mem = s.mem ∧
          (mget t.ops s.nextId).map (fun o => (o.gid, o.cls, o.parts, o.discard)) =
            some (s.issue.gid, .ld, 1, decide (d = .discard)) ∧
          ∃ m ∈ t.net, m.gid = some s.issue.gid ∧ (loadOf m.body).map (·.1) = some s.nextId)

/-- R168, R172, R187 to R189: ST joins class ST. Every byte that a lane stores to near or far memory, of every size, lies in a valid
and dirty word of the core's L1, the highest lane's where several store it, while no line leaves the set it is stored in; the bytes
that no lane stores keep their values. 1 and 2 bytes to a word that is not valid, and the fabric and the host, go on to their home in
flight. No register changes, and no byte of memory but the D bits of the window's leaves. -/
def Obligations.LaneStores : Prop :=
  ∀ (s s1 : State) (sz : StSize) (data : Opnd) (win : Fin 8) (off : Opnd) (imm : BitVec 6) (acc : List Acc),
    let g := s.issue.pre
    let n := stBytes sz
    let onward := byLine (acc.filter (goesOn s1 n))
    let there : Prop := ∀ b ∈ acc, (mget (core s1 g.core).l1 (b.pa / 128)).isSome
    let covers (b : Acc) (x : Nat) : Prop := b.pa ≤ x ∧ x < b.pa + n
    let byte (t : State) (x : Nat) : Option Nat := (l1Word t g.core x).map fun w => w.val.toNat / 256 ^ (x % 4) % 256
    RegsOk s (top (stRegs g data n) ++ opndRegs g off) [data, off] →
    checkAccess (memClass s) win.val (mItems g off imm n) true anyTier = .ok s1 acc 0 → RoomFor s1 onward.length →
    Gives (.st sz data win off imm) s fun s t =>
      RegsKept s t ∧ MemKeptBut (xwget g win.val).leaves s t ∧
      (∀ b, goesOn s1 n b = (decide (2 ≤ b.pa / 2 ^ 50 % 4) || (decide (n < 4) && (l1Word s1 g.core b.pa).isNone))) ∧
      (∃ op, mget t.ops op = some { gid := s.issue.gid, cls := .st, parts := onward.length, holdsBar := true } ∧
        ∀ x ∈ onward, InFlight s t op (homeOf (128 * x.1)) (.write (storeCells g data n x.2) [] (some op))) ∧
      (∀ pre a post j, acc = pre ++ a :: post → a.pa % n = 0 → goesOn s1 n a = false → (∀ b ∈ acc, b.pa % n = 0) →
        there ∨ (∀ b ∈ acc, b.pa / 128 = a.pa / 128) → j < n → (∀ b ∈ post, ¬covers b (a.pa + j)) →
        byte t (a.pa + j) = some (stValue g data n a.lane / 256 ^ j % 256) ∧
        ∃ w, l1Word t g.core (a.pa + j) = some w ∧ w.dirty = true ∧ s.issue.gid ∈ w.by_) ∧
      (there → (∀ b ∈ acc, b.pa % n = 0) → ∀ x, (∀ b ∈ acc, ¬covers b x) → byte t x = byte s1 x)

/-- R178, R181, R187 to R189, R193: LDS, LDS.gang, STS and ATOMS send one request to the array of the team that owns the
carve-out. -/
def Obligations.ScratchWords : Prop :=
  ∀ (s : State) (sz : LdSize) (ss : StSize) (op : AtomOp) (sc : Scope) (ord : Order) (d : Dst) (data off : Opnd) (m : Fin 4)
    (gang : Option (Fin 4)) (imm : BitVec 6) (ow : Nat),
    let g := s.issue.pre
    let to_ := Home.core (team s ow).core
    let loads (t : State) (items : List Item) : Prop :=
      RegsKept s t ∧ t.mem = s.mem ∧
      mget t.ops s.nextId = some { gid := s.issue.gid, cls := .ld, parts := 1, discard := decide (d = .discard), uncounted := true,
                                   dests := destWords g d (ldBytes sz) (items.map (·.lane)) } ∧
      InFlight s t s.nextId to_ (.sread s.nextId ow sz (items.map fun i => (i.lane, dst0 g d, i.off.toNat)))
    (RegsOk s (opndRegs g off ++ top (ldRegs g d (ldBytes sz))) [off] →
      (ScratchOk s none (mItems g off imm (ldBytes sz)) ow →
        Gives (.lds sz d off imm) s fun _ t => loads t (mItems g off imm (ldBytes sz))) ∧
      (ScratchOk s (some m) (mItems g off imm (ldBytes sz)) ow →
        Gives (.ldsGang sz d m off imm) s fun _ t => loads t (mItems g off imm (ldBytes sz)))) ∧
    (RegsOk s (top (stRegs g data (stBytes ss)) ++ opndRegs g off) [data, off] →
      ScratchOk s none (mItems g off imm (stBytes ss)) ow → Gives (.sts ss data off imm) s fun s t =>
        RegsKept s t ∧ t.mem = s.mem ∧
        mget t.ops s.nextId = some { gid := s.issue.gid, cls := .st, parts := 1, holdsBar := true, uncounted := true } ∧
        InFlight s t s.nextId to_ (.swrite s.nextId ow ((mItems g off imm (stBytes ss)).foldl (fun k i =>
          (cellsOf i.off.toNat (stBytes ss) (stValue g data (stBytes ss) i.lane)).foldl (fun k x => mput k x.1 x.2) k) []))) ∧
    (RegsOk s (top (stRegs g data (atomBytes op)) ++ opndRegs g off) [data, off] →
      ScratchOk s gang (aItems g off (atomBytes op)) ow → Gives (.atoms op sc ord gang data off) s fun s t =>
        let reg := match data with | .v r => some (g.ixb + r.val) | _ => none
        RegsKept s t ∧ t.mem = s.mem ∧
        mget t.ops s.nextId = some { gid := s.issue.gid, cls := if reg.isSome then .ld else .st, parts := 1, holdsBar := true,
                                     uncounted := true } ∧
        InFlight s t s.nextId to_ (.atoms s.nextId ow (.op op) ((aItems g off (atomBytes op)).map fun i =>
          { lane := i.lane, pa := i.off.toNat, v := BitVec.ofNat 64 (stValue g data (atomBytes op) i.lane), reg := reg })))

/-- R191 to R195, R217: ATOM, RED, CAS and AGGR that pass their checks. Each transaction is in flight to its home, or, under
release, its marker is, and the update waits at the home for the group's home-bound writes before it. -/
def Obligations.AtomicWords : Prop :=
  ∀ (s s1 : State) (op : AtomOp) (rop : RedAtomOp) (wide rel : Bool) (sc : Scope) (ord : Order) (win : Fin 8) (data : Fin 48)
    (src off : Opnd) (acc : List Acc),
    let g := s.issue.pre
    let gid := s.issue.gid
    let sent (t : State) (rel : Bool) (k : AKind) (acq : Option Scope) (lane : Acc → ALane) : Prop :=
      ∀ a tr, (a :: tr) ∈ transactions acc →
        let body := Body.atomic s1.nextId k acq ((a :: tr).map lane)
        if rel then ∃ n r, mget t.rels n = some r ∧ r.gid = gid ∧ r.body = body ∧ r.home = homeOf a.pa ∧
          r.pending = homeBound s1 gid ∧ InFlight s t n (homeOf a.pa) (.marker n)
        else InFlight s t s1.nextId (homeOf a.pa) body
    let kept (t : State) : Prop := RegsKept s t ∧ MemKeptBut (xwget g win.val).leaves s t
    (RegsOk s (top (vRun g data (atomBytes op / 4)) ++ opndRegs g off) [off] →
      checkAccess (memClass s) win.val (aItems g off (atomBytes op)) true (atomTier op) = .ok s1 acc 0 →
      RoomFor s1 (transactions acc).length → Gives (.atom op sc ord win data off) s fun _ t =>
        kept t ∧ mget t.ops s1.nextId = some { gid := gid, cls := .ld, parts := (transactions acc).length,
                                               dests := accDests g data (atomBytes op / 4) acc } ∧
        sent t (isRelease ord) (.op op) (acqOf sc ord) fun a =>
          { lane := a.lane, pa := a.pa, v := BitVec.ofNat 64 (stValue g (.v data) (atomBytes op) a.lane), reg := some (g.ixb + data.val) }) ∧
    (RegsOk s (top (stRegs g src (atomBytes rop.toAtom)) ++ opndRegs g off) [src, off] →
      checkAccess (memClass s) win.val (aItems g off (atomBytes rop.toAtom)) true (atomTier rop.toAtom) = .ok s1 acc 0 →
      RoomFor s1 (transactions acc).length → Gives (.red rop sc rel win src off) s fun _ t =>
        kept t ∧ mget t.ops s1.nextId = some { gid := gid, cls := .st, parts := (transactions acc).length } ∧
        sent t rel (.op rop.toAtom) none fun a =>
          { lane := a.lane, pa := a.pa, v := BitVec.ofNat 64 (stValue g src (atomBytes rop.toAtom) a.lane) }) ∧
    (RegsOk s (top (vRun g data (kBytes wide / 2)) ++ opndRegs g off) [off] →
      checkAccess (memClass s) win.val (aItems g off (kBytes wide)) true anyTier = .ok s1 acc 0 →
      RoomFor s1 (transactions acc).length → Gives (.cas wide sc ord win data off) s fun _ t =>
        let val (q l : Nat) : DWord :=
          if wide then vpair g (g.ixb + data.val + 2 * q) l else (vget g (g.ixb + data.val + q) l).zeroExtend 64
        kept t ∧ mget t.ops s1.nextId = some { gid := gid, cls := .ld, parts := (transactions acc).length,
                                               dests := accDests g data (kBytes wide / 4) acc } ∧
        sent t (isRelease ord) (.cas wide) (acqOf sc ord) fun a =>
          { lane := a.lane, pa := a.pa, v := val 1 a.lane, exp := val 0 a.lane, reg := some (g.ixb + data.val) }) ∧
    (∀ l fs a, RegsOk s ((g.ixb + data.val) :: opndRegs g off) [off] →
      (workLanes g).filter (fun l => vget g (g.ixb + data.val) l != 0) = l :: fs →
      checkAccess (memClass s) win.val [{ lane := l, off := ((opv g off l).toNat : Int), size := 4 }] true anyTier = .ok s1 acc 0 →
      acc = [a] → RoomFor s1 1 → Gives (.aggr sc ord win data off) s fun _ t =>
        kept t ∧ mget t.ops s1.nextId = some { gid := gid, cls := .ld, parts := 1,
                                               dests := (l :: fs).map fun f => (f, g.ixb + data.val) } ∧
        sent t (isRelease ord) (.aggr ((l :: fs).map fun f => (f, g.ixb + data.val))) (acqOf sc ord) fun a =>
          { lane := a.lane, pa := a.pa, v := BitVec.ofNat 64 (fs.length + 1) })

/-- R173, R196, R214, R217, R221, R222: PUTF sends each lane's data, and its flag's increment is held at the flag's home for that
data and for every home-bound write of the group before it; LDA writes back and drops the dirty words among its bytes and then
reads at the home; STL's store is held at its home for the writes before it. A release is counted by the group's home-bound writes, its
STS and ATOMS, and its own releases that are not yet performed; that a write-back counts as a write of every group whose store it carries,
and LDA's as its group's, is assumption 33. -/
def Obligations.OrderedWords : Prop :=
  ∀ (s s1 : State) (wide : Bool) (sc : Scope) (win : Fin 8) (data : Fin 48) (src off : Opnd) (acc : List Acc),
    let g := s.issue.pre
    let gid := s.issue.gid
    let n := kBytes wide
    let r := g.ixb + data.val
    let held (t : State) (home : Home) (body : Body) (pending : List Nat) : Prop :=
      ∃ k x, mget t.rels k = some x ∧ x.gid = gid ∧ x.body = body ∧ x.home = home ∧ x.pending = pending ∧
        InFlight s t k home (.marker k)
    (∀ k, k ∈ homeBound s1 gid ↔ (∃ x, (k, x) ∈ s1.rels ∧ x.gid = gid) ∨ ∃ m ∈ s1.net, m.id = k ∧ (m.gid = some gid ∨ gid ∈ m.also) ∧
      ((∃ b w a, m.body = .write b w a) ∨ (∃ o h a l, m.body = .atomic o h a l) ∨ (∃ o w b, m.body = .swrite o w b) ∨
        ∃ o w h l, m.body = .atoms o w h l)) ∧
    (RegsOk s (top (vRun g data (n / 4 + 1)) ++ opndRegs g off) [off] →
      checkAccess (memClass s) win.val (((workLanes g).map fun l =>
        [({ lane := l, off := ((opv g off l).toNat : Int), size := n } : Item),
         { lane := l, off := ((vget g (r + n / 4) l).toNat : Int), size := 4, sec := true }]).flatten) true anyTier = .ok s1 acc 0 →
      RoomFor s1 acc.length → Gives (.putf wide sc win data off) s fun s t =>
        RegsKept s t ∧ MemKeptBut (xwget g win.val).leaves s t ∧
        mget t.ops s1.nextId = some { gid := gid, cls := .st, parts := acc.length } ∧
        ∀ a ∈ acc, a.sec = false → ∃ m ∈ t.net, s1.nextId < m.id ∧ m.home = homeOf a.pa ∧ m.gid = some gid ∧
          m.body = .write (cellsOf a.pa n (stValue g (.v data) n a.lane)) [] (some s1.nextId) ∧
          ∀ f, acc.find? (fun f => f.sec && f.lane = a.lane) = some f →
            held t (homeOf f.pa) (.atomic s1.nextId .putf none [{ lane := f.lane, pa := f.pa, v := 1 }]) (homeBound s1 gid ++ [m.id])) ∧
    (RegsOk s (top (vRun g data (n / 4)) ++ opndRegs g off) [off] →
      checkAccess (memClass s) win.val (aItems g off n) false anyTier = .ok s1 acc 0 → RoomFor s1 acc.length →
      Gives (.lda wide sc win data off) s fun s t =>
        RegsKept s t ∧ t.mem = s.mem ∧ mget t.ops s1.nextId = some { gid := gid, cls := .ld, parts := acc.length,
                                                                     dests := accDests g data (n / 4) acc } ∧
        ∃ k, s1.nextId < k ∧
          (∀ a ∈ acc, InFlight s t k (homeOf a.pa)
            (.read (a.pa / 128) ((wordsOf a.pa n).map (· % 32)) (.lda s1.nextId sc a.lane r a.pa n))) ∧
          ∀ a ∈ acc, cacheable a.pa = true → a.pa % n = 0 → rising none (core s1 g.core).l1 = true →
            (∀ l ∈ (core s1 g.core).l1, rising none l.2.words = true) → ∀ w ∈ wordsOf a.pa n, ∀ x, l1Word s1 g.core (4 * w) = some x →
            x.dirty = true → l1Word t g.core (4 * w) = none ∧ ∃ m ∈ t.net, m.id < k ∧ m.home = homeOf a.pa ∧ m.gid = some gid ∧
              ∃ bytes bad, m.body = .write bytes bad none ∧
                ∀ i, i < 4 → (4 * w + i, BitVec.ofNat 8 (x.val.toNat / 256 ^ i)) ∈ bytes) ∧
    (RegsOk s (top (stRegs g src n) ++ opndRegs g off) [src, off] →
      checkAccess (memClass s) win.val (aItems g off n) true anyTier = .ok s1 acc 0 → RoomFor s1 acc.length →
      Gives (.stl wide sc win src off) s fun s t =>
        RegsKept s t ∧ MemKeptBut (xwget g win.val).leaves s t ∧
        mget t.ops s1.nextId = some { gid := gid, cls := .st, parts := acc.length } ∧
        ∀ a ∈ acc, held t (homeOf a.pa) (.write (cellsOf a.pa n (stValue g src n a.lane)) [] (some s1.nextId)) (homeBound s1 gid))

/-- R28, R157, R163, R175, R214, R218, R223, R224: FENCE waits for the loads under acquire and marks the writes under release: no later
home-bound write of the group is performed before them. An acquire at .gang or wider drops the clean words of pages with S = 0 of the
issuing core, and no other word; that what a home had read for the core by then enters no word of such a page, and what it reads later
does, is assumption 12. An acquire of .ar takes effect when FENCE completes. PROMOTE asks the victim core and completes when it has
acknowledged. -/
def Obligations.FencesAndPromote : Prop :=
  (∀ (s : State) (c : Nat) (sc : Scope), rising none (core s c).l1 = true → (∀ l ∈ (core s c).l1, rising none l.2.words = true) →
    let t := acquireAt s c sc
    (sc = .grp ∨ sc = .team → t = s) ∧
    (sc ≠ .grp → sc ≠ .team → t.mem = s.mem ∧ t.issue = s.issue ∧ t.groups = s.groups ∧ t.ops = s.ops ∧
      (∀ d, d ≠ c → core t d = core s d) ∧ t.net.map (·.id) = s.net.map (·.id) ∧
      (∀ m ∈ t.net, fillFor c m = true → ∀ f bytes bad err, m.body = .data f bytes bad err → bytes ≠ [] → fillStable f = false →
        fillOf f = []) ∧
      (∀ m ∈ s.net, fillFor c m = false ∨ (∀ f bytes bad err, m.body ≠ .data f bytes bad err) → m ∈ t.net) ∧
      ∀ line k, mget (l1Line t c line).words k = (mget (l1Line s c line).words k).filter fun w => w.dirty || (l1Line s c line).stable)) ∧
  (∀ (s : State) (c gid : Nat) (home : Home) (body : Body), isHomeBound body = true → s.issue.gid = gid →
    ∃ m, (send s c (some gid) home body).net = s.net ++ [m] ∧ m.body = body ∧ m.home = home ∧
      ∀ k, k ∈ m.after ↔ k ∈ s.issue.cur.fenceAfter ∧ performed s k = false) ∧
  (∀ (s : State) (m : Msg) (bytes : Cells Byte) (bad : List Nat) (op : Option Nat), s.arriving = .msg m.id → netGet s m.id = some m →
    m.body = .write bytes bad op → unreachable s m = false → (∃ k ∈ m.after, performed s k = false) →
    exec .writeMessage s = .next s) ∧
  ∀ (s : State) (sc : Scope) (data : Opnd),
    let g := s.issue.pre
    let gid := s.issue.gid
    let waits (ord : Order) : Prop := Gives (.fence sc ord) s fun s t =>
      t.issue.verdict = .stalled ∧ OnlyIssue s t ∧ t.issue.cur.v = g.v ∧ t.issue.cur.k = g.k ∧ t.issue.cur.fenceAfter = g.fenceAfter
    exec (.fence sc .rlx) s = .next (memClass s) ∧
    exec (.fence sc .rel) s = .next (modCur (memClass s) fun c => { c with fenceAfter := homeBound s gid }) ∧
    (loadsOut s gid = true ↔ ∃ o ∈ s.ops, o.2.gid = gid ∧ o.2.cls = .ld ∧ o.2.parts ≠ 0) ∧
    (loadsOut s gid = true → waits .acq ∧ (findHold (memClass s) [0] = none → waits .ar)) ∧
    (loadsOut s gid = false → exec (.fence sc .acq) s = .next (acquireAt (memClass s) g.core sc)) ∧
    (findHold (memClass s) [0] = none → loadsOut s gid = false → allBound s gid = [] →
      exec (.fence sc .ar) s = .next (acquireAt (memClass s) g.core sc)) ∧
    (findHold (memClass s) [0] = none → loadsOut s gid = false → allBound s gid ≠ [] → Gives (.fence sc .ar) s fun s t =>
      t.issue.verdict = .stalled ∧ t.mem = s.mem ∧ t.net.length = s.net.length ∧
      ∃ h ∈ t.issue.cur.hold, h.waitFor = allBound s gid) ∧
    (∀ h, findHold (memClass s) [0] = some h → (h.waitFor.all (performed s) = true →
        exec (.fence sc .ar) s = .next (acquireAt (memClass s) g.core sc)) ∧
      (h.waitFor.all (performed s) = false → waits .ar)) ∧
    (activeLanes g = [] → RegsOk s (opndRegs g data) [data] → exec (.promote sc data) s = .next (memClass s)) ∧
    (∀ l rest v, RegsOk s (opndRegs g data) [data] → activeLanes g = l :: rest → (opv g data l).toNat % 1024 = v →
      (∀ entry, CanTrap s entry → (576 ≤ v ∨ (part s (partOf s g)).dies.getLsbD (v / 24) = false) → Gives (.promote sc data) s fun s t =>
        TrapTaken g 0x1A (einfoB v 0 0 s.issue.word) s.issue.pos entry t ∧ OnlyIssue s t) ∧
      (v < 576 → (part s (partOf s g)).dies.getLsbD (v / 24) = true →
        (findHold s [4, v, sc.code] = none → Gives (.promote sc data) s fun _ t =>
          t.issue.verdict = .stalled ∧ t.issue.cur.v = g.v ∧ t.issue.cur.k = g.k ∧
          ∃ m ∈ t.net, m.home = .core v ∧ m.body = .promote gid v ∧ ∃ h ∈ t.issue.cur.hold, h.ops = [4, v, sc.code] ∧ h.res = none ∧
            h.waitFor = [m.id]) ∧
        (∀ h, findHold s [4, v, sc.code] = some h → (h.res = none → Gives (.promote sc data) s fun s t =>
          t.issue.verdict = .stalled ∧ OnlyIssue s t) ∧ (h.res.isSome = true → exec (.promote sc data) s = .next (memClass s)))))

/-- R170, R172, R198, R200, R214, R225: WAITA waits for the value at one lane's address; a wait that a U word of its issue group has
begun is kept beside it (assumption 97). PREF.l1 asks the home for the words of its
line that the L1 lacks, never for a dirty one, and PREF.l2 for the line alone; neither changes a register. That a lane of PREF is inside its
window where its offset is, PREF having no access size, is the model's choice (assumption 81). WBR leaves no dirty word of its range
in the L1, and INVR no word at all; what they write back is on its way home and counts in an operation of class ST. -/
def Obligations.RangeAndWaitWords : Prop :=
  ∀ (s : State) (win : Fin 8) (data off : Opnd) (wide : Bool) (l : Nat),
    let g := s.issue.pre
    let w := xwget g win.val
    let n := kBytes wide
    let cleared (inv : Bool) (s t : State) : Prop :=
      let pieces := (rangePieces (memClass s) g (w.base + (opv g off l).toNat) (opv g data l).toNat).2.got
      RegsKept s t ∧
      (∀ line k x, k < 32 → mget (l1Line t g.core line).words k = some x → inPieces pieces line k = true → inv = false ∧ x.dirty = false) ∧
      ∃ op o, s.nextId ≤ op ∧ mget t.ops op = some o ∧ o.gid = s.issue.gid ∧ o.cls = .st ∧ o.uncounted = true ∧
        ∀ line k x, k < 32 → mget (l1Line s g.core line).words k = some x → x.dirty = true → inPieces pieces line k = true →
          ∃ m ∈ t.net, m.home = homeOf (128 * line) ∧ m.gid = some s.issue.gid ∧ ∃ bytes bad, m.body = .write bytes bad (some op) ∧
            ∀ i, i < 4 → (128 * line + 4 * k + i, BitVec.ofNat 8 (x.val.toNat / 256 ^ i)) ∈ bytes
    (∀ s1 x rest u, RegsOk s (top (stRegs g data n) ++ opndRegs g off) [data, off] → (activeLanes g).head? = some l →
      s.issue.cur.status ≠ .waiting .drain →
      checkAccess (memClass s) win.val [{ lane := l, off := ((opv g off l).toNat : Int), size := n }] false anyTier = .ok s1 (x :: rest) u →
      Gives (.waita wide win data off) s fun s t =>
        RegsKept s t ∧ t.mem = s.mem ∧ t.issue.endRun = true ∧
        t.issue.cur.status = .waiting (.mem x.pa n (BitVec.ofNat 64 (stValue g data n l)) (x.pa / 128)) ∧
        (∀ k, s.issue.cur.status = .waiting k → t.issue.cur.also = some k) ∧
        InFlight s t s1.nextId (homeOf x.pa) (.read (x.pa / 128) ((wordsOf x.pa n).map (· % 32)) (.waita s.issue.gid))) ∧
    (∀ l2, RegsOk s (opndRegs g off) [off] → workLanes g = [l] → w.isOpen = false →
      exec (.pref l2 win off) s = .next (memClass s)) ∧
    (∀ s1 pa st, RegsOk s (opndRegs g off) [off] → workLanes g = [l] → w.isOpen = true → (opv g off l).toNat < w.size →
      outstanding (memClass s) g.core < Config.requests →
      xlateDie (memClass s) (dieOf g.core) (partOf s g) (ctxOf s g) (w.base + (opv g off l).toNat) false = (s1, .ok pa st) →
      (cacheable pa = false → ∀ l2, exec (.pref l2 win off) s = .next s1) ∧
      (cacheable pa = true → (Gives (.pref true win off) s fun s t =>
          RegsKept s t ∧ ∃ m ∈ t.net, m.home = homeOf pa ∧ m.body = .read (pa / 128) [] .prefL2) ∧
        ((∀ k, k < 32 → (mget (l1Line s1 g.core (pa / 128)).words k).isSome) → exec (.pref false win off) s = .next s1) ∧
        ((∃ k, k < 32 ∧ mget (l1Line s1 g.core (pa / 128)).words k = none) → Gives (.pref false win off) s fun s t =>
          RegsKept s t ∧ t.mem = s1.mem ∧ t.cores = s1.cores ∧ ∃ m ∈ t.net, ∃ ws, m.home = homeOf pa ∧
            m.body = .read (pa / 128) ws (.pref ws st) ∧ ∀ k, k < 32 →
              (mget (l1Line s1 g.core (pa / 128)).words k = none → k ∈ ws) ∧
              ∀ x, mget (l1Line s1 g.core (pa / 128)).words k = some x → x.dirty = true → k ∉ ws))) ∧
    (RegsOk s (opndRegs g data ++ opndRegs g off) [data, off] → workLanes g = [l] → w.isOpen = true →
      (opv g off l).toNat + (opv g data l).toNat ≤ w.size →
      let pieces := (rangePieces (memClass s) g (w.base + (opv g off l).toNat) (opv g data l).toNat).2
      pieces.held = false → pieces.bad = none → rising none (core s g.core).l1 = true →
      (∀ l ∈ (core s g.core).l1, rising none l.2.words = true) →
      Gives (.wbr win data off) s (cleared false) ∧ Gives (.invr win data off) s (cleared true))

/-- R162, R163, R165, R182, R190: XWOPEN opens the window it names and no other, XWCLOSE closes it; KLDP reads the bytes of a
parameter window; KLDG takes what the L1 holds at once, and else its value arrives through the holding register. -/
def Obligations.WindowsAndUniformLoads : Prop :=
  ∀ (s : State) (n win : Fin 8) (a b d : Fin 64) (wide : Bool) (imm : BitVec 7),
    let g := s.issue.pre
    let base := (kget g a.val).toNat
    let size := (kget g b.val).toNat
    (∀ s1 w pa st, base < 2 ^ 48 → 0 < size → size ≤ 2 ^ 32 → base + size ≤ 2 ^ 48 →
      findHold (memClass s) [9, n.val, base, size] = none →
      xlateGroup (memClass s) g.core (partOf s g) (ctxOf s g) base false (heldFor (memClass s) [base, size]) = .ok pa st →
      openWindow (memClass s) g base size = .ok (s1, w) → Gives (.xwopen n a b) s fun s t =>
        RegsKept s t ∧ w.isOpen = true ∧ w.base = base ∧ w.size = size ∧ w.limit ≤ size ∧
        ∀ m, xwget t.issue.cur m = if m = n.val then w else xwget s.issue.cur m) ∧
    Gives (.xwclose n) s (fun s t => RegsKept s t ∧ OnlyIssue s t ∧
      ∀ m, xwget t.issue.cur m = if m = n.val then { xwget s.issue.cur m with isOpen := false } else xwget s.issue.cur m) ∧
    (∀ pa, let o := (kget g a.val).toNat % 2 ^ 32 + imm.toNat * kBytes wide
      let w := pwin s g win.val
      findHold s [8, win.val, o] = none →
      w.size ≠ 0 → o % kBytes wide = 0 → o + kBytes wide ≤ w.size → (core s g.core).cc = [] →
      (∀ i, i < kBytes wide → resolve s (w.frame + (o + i)) = some (pa + i)) → Gives (.kldp wide d win a imm) s fun s t =>
        (∀ m, kget t.issue.cur m = if m = d.val then BitVec.ofNat 64 (readNum s.mem pa (kBytes wide)) else kget s.issue.cur m) ∧
        t.issue.cur.v = s.issue.cur.v ∧ t.issue.cur.status8 = s.issue.cur.status8 ∧ t.issue.verdict = s.issue.verdict ∧
        t.mem = s.mem) ∧
    (∀ s1 pa st, let o := (kget g a.val).toNat % 2 ^ 32 + imm.toNat * kBytes wide
      let byte (i : Nat) : Nat := ((l1Word s1 g.core (pa + i)).map fun w => w.val.toNat / 256 ^ ((pa + i) % 4) % 256).getD 0
      findHold (memClass s) [6, win.val, o] = none → o % kBytes wide = 0 → cacheable pa = true →
      checkAccess (memClass s) win.val [{ lane := 0, off := o, size := kBytes wide }] false anyTier =
        .ok s1 [⟨0, pa, kBytes wide, false, st⟩] 0 →
      (∀ i, i < kBytes wide → (l1Word s1 g.core (pa + i)).isSome = true) → Gives (.kldg wide d win a imm) s fun s t =>
        (∀ m, kget t.issue.cur m = if m = d.val
          then BitVec.ofNat 64 ((List.range (kBytes wide)).foldl (fun n i => n + byte i * 256 ^ i) 0) else kget s.issue.cur m) ∧
        t.issue.cur.v = s.issue.cur.v ∧ t.issue.cur.status8 = s.issue.cur.status8 ∧ t.issue.verdict = s.issue.verdict ∧
        t.mem = s.mem) ∧
    (∀ h x, findHold (memClass s) [6, win.val, kOffset (memClass s) a imm (kBytes wide)] = some h → h.res = some x →
      Gives (.kldg wide d win a imm) s fun s t => KWritten d x (memClass s) t)

/-- R183, R201 to R205, R207: a copy that passes its checks joins class CP and the core's copy queue; its tag is the handle it
signals. A tag whose handle is not bound, or does not signal, raises a fault, and a full queue holds the issue group. -/
def Obligations.CopyWords : Prop :=
  ∀ (s : State) (a b : EOp) (av : Fin 48) (xw : Fin 8) (tag : Option (Fin 16)) (sstr rlen nc : BitVec 16),
    let g := s.issue.pre
    let w := xwget g xw.val
    let size := (team s g.team).scratch
    let rl := 16 * rlen.toNat
    let fits (rows : List Row) : Prop :=
      ∀ r ∈ rows, r.2.1 % 16 = 0 ∧ r.2.2 % 16 = 0 ∧ (rl ≠ 0 → r.2.1 + rl ≤ w.size ∧ r.2.2 + rl ≤ size)
    let queued (ins : Instr) (s t : State) : Prop :=
      t.issue.verdict = s.issue.verdict ∧ t.issue.cur.v = s.issue.cur.v ∧ t.issue.cur.k = s.issue.cur.k ∧
      (mget t.ops s.nextId).map (fun o => (o.gid, o.cls, o.parts, o.tag)) = some (s.issue.gid, .cp, 1, tag.map (·.val)) ∧
      (mget t.copies (s.nextId + 1)).map (fun c => (c.gid, c.core, c.ins, c.op)) = some (s.issue.gid, g.core, ins, s.nextId)
    let full : Prop := Config.copyQueue ≤ (s.copies.filter fun x => x.2.core = g.core).length
    let tagOk : Prop := ∀ h, tag = some h → (hget g h.val).st = .bound ∧ (hget g h.val).signals = true
    let traps (i : Instr) (code : Byte) (h : Nat) : Prop := ∀ entry, CanTrap s entry → Gives i s fun s t =>
      TrapTaken g code (einfoB 0 0 h s.issue.word) s.issue.pos entry t ∧ OnlyIssue s t
    let issues (ins : Instr) : Prop :=
      (tagOk → ¬full → Gives ins s (queued ins)) ∧ (tagOk → full → Gives ins s fun _ t => t.issue.verdict = .stalled) ∧
      ∀ h, tag = some h → ((hget g h.val).st ≠ .bound → traps ins 0x20 h.val) ∧
        ((hget g h.val).st = .bound → (hget g h.val).signals = false → traps ins 0x21 h.val)
    w.isOpen = true →
      (fits (linearRows (eopW g a) (eopW g b / 2 ^ 20 + 1) (16 * sstr.toNat) (eopW g b % 2 ^ 20) rl) →
        issues (.cpy a b xw tag sstr rlen) ∧ issues (.cpys a b xw tag sstr rlen)) ∧
      (g.ixb + av.val < g.regs →
        fits ((activeLanes g).map fun l => (l, (vget g (g.ixb + av.val) l).toNat, eopW g b % 2 ^ 20 + l * rl)) →
        issues (.cpyg av b xw tag rlen)) ∧
      ((eopW g b % 2 ^ 20) % 2 = 0 → eopW g b % 2 ^ 20 + 2 * nc.toNat ≤ size → eopW g a + (3 * nc.toNat + 1) / 2 ≤ w.size →
        issues (.cpyx a b xw tag nc))

/-! ## Batches, phasers, the team barrier and records -/

/-- R184 to R187: CLOSE numbers the open batch; WAITB and WAITC end the run and go on where the batch is complete or few enough
are outstanding, wait where not, and raise engine-error where the class has failed. -/
def Obligations.BatchWords : Prop :=
  ∀ (s : State) (c : EngineClass) (n : Byte) (a : Fin 64),
    let x := clsOf s.issue.cur c
    let y := clsOf s.issue.pre c
    let gid := s.issue.gid
    let na : Byte := (kget s.issue.pre a.val).truncate 8
    let done (m : Byte) : Bool := !decide ((y.next - 1 - m).toNat < min 128 y.count)
    let waits (i : Instr) (holds : Bool) (w : Wait) : Prop :=
      (holds = true → y.err = false → exec i s = .next (endsRun s)) ∧
      (holds = false → Gives i s fun s t => RegsKept s t ∧ OnlyIssue s t ∧ t.issue.endRun = true ∧
        t.issue.cur.status = .waiting w ∧ t.issue.cur.waitPos = s.issue.pos ∧ t.issue.cur.waitSg = s.issue.pre.sg) ∧
      ∀ entry, holds = true → y.err = true → CanTrap s entry → Gives i s fun s t => OnlyIssue s t ∧
        TrapTaken s.issue.pre 0x1E (einfoB y.eb.toNat c.code y.cause.toNat s.issue.word) s.issue.pos entry t ∧
        (clsOf t.issue.cur c).err = false
    (x.count < 128 → Gives (.close c) s fun s t => RegsKept s t ∧ t.mem = s.mem ∧
      clsOf t.issue.cur c = { x with next := x.next + 1, count := x.count + 1 } ∧
      ∀ id o, mget s.ops id = some o → mget t.ops id =
        some (if o.gid = gid ∧ o.cls = c ∧ o.batch = none then { o with batch := some x.next } else o)) ∧
    waits (.waitb c n) (done n) (.batch c n) ∧ waits (.waitbK c a) (done na) (.batch c na) ∧
    waits (.waitc c n) (decide (y.count ≤ n.toNat)) (.count c n.toNat)

/-- R238, R241, R242, R249 to R252: PHSIG, PHWAIT, PHSW and PHRD on a bound handle. A signal of the open phase counts in A, one
of the next phase in E; the last one sends ARRIVE, or completes a core-scope phase at once; in ANY mode the first sends SIGNAL.
A signal with .w is held at the port behind the earlier writes. -/
def Obligations.PhaserSignalsAndWaits : Prop :=
  ∀ (s : State) (d a : Fin 64) (h : Fin 16) (p : Phaser),
    let g := s.issue.pre
    let x := hget g h.val
    let obj := x.obj
    let n := leafNode s obj
    let q : Word := (kget g a.val).truncate 32
    let up := dieNode (dieOf g.core)
    let waiting (t : State) : Prop := t.issue.endRun = true ∧ t.issue.cur.status = .waiting (.phase h.val q)
    let signalled (t : State) (m : PhNode) : Prop :=
      hget t.issue.cur h.val = { x with s := x.s + 1 } ∧ phNode (phaserOf t obj) g.core = m ∧ t.mem = s.mem ∧
      t.issue.cur.v = g.v ∧ t.issue.cur.k = g.k ∧ t.issue.verdict = s.issue.verdict
    let sent (t : State) (k : PKind) : Prop := ∃ id m, mget t.pnet id = some m ∧ m.obj = obj ∧ m.src = g.core ∧ m.dst = up ∧ m.k = k
    s.issue.cur = g → g.core < 576 → x.st = .bound → mget s.phs obj = some p →
      Gives (.phrd d h) s (KWritten d ((n.o - 1).zeroExtend 64 ||| n.f.zeroExtend 64 <<< 32)) ∧
      (x.waits = true → (n.o - 1 - q).toNat < 2 ^ 31 →
        exec (.phwait a h) s = .next (acquireAt (endsRun s) g.core (if p.scope = 0 then .team else .dev))) ∧
      (x.waits = true → 2 ^ 31 ≤ (n.o - 1 - q).toNat → Gives (.phwait a h) s fun s t => RegsKept s t ∧ OnlyIssue s t ∧ waiting t) ∧
      (x.signals = true → p.any = false → n.via = [] →
        (x.s = n.o → n.a + 1 ≠ n.rn →
          Gives (.phsig h false) s (fun _ t => signalled t { n with a := n.a + 1 }) ∧
          (x.waits = true → 2 ^ 31 ≤ (n.o - 1 - q).toNat → Gives (.phsw a h false) s fun _ t =>
            signalled t { n with a := n.a + 1 } ∧ waiting t)) ∧
        (x.s = n.o + 1 → Gives (.phsig h false) s fun _ t => signalled t { n with e := n.e + 1 }) ∧
        (x.s = n.o → n.a + 1 = n.rn → n.sent = false → p.scope ≠ 0 → Gives (.phsig h false) s fun _ t =>
          signalled t { n with a := n.a + 1, sent := true } ∧ sent t (.arrive n.o n.rn)) ∧
        (x.s = n.o → n.a + 1 = n.rn → n.sent = false → p.scope = 0 → n.held = [] → n.leaving = [] → n.e ≠ n.rx →
          Gives (.phsig h false) s fun _ t =>
            signalled t { n with o := n.o + 1, rn := n.rx, a := n.e, e := 0, x := false, f := 0xFFFFFFFF })) ∧
      (x.signals = true → p.any = true → x.s = n.o → n.x = false → p.scope ≠ 0 → Gives (.phsig h false) s fun _ t =>
        signalled t { n with x := true } ∧ sent t (.signal n.o x.rid)) ∧
      (x.signals = true → (x.s = n.o ∨ x.s = n.o + 1) → homeBound s s.issue.gid ≠ [] → Gives (.phsig h true) s fun _ t =>
        signalled t n ∧ ∃ id y, mget t.ports id = some y ∧ y.gid = s.issue.gid ∧ y.waitFor = homeBound s s.issue.gid ∧
          y.signal = some (obj, x.s, x.rid))

/-- R236, R240, R245 to R247: PHNEW creates an object with this handle's weight, PHJOIN asks the root and gives the phase of the
first registration and refuses an object that is marked, PHLEAVE and PHFREE withdraw the handle, which the commands issued with it as
their tag then signal no more, and PHFREE marks the object. -/
def Obligations.PhaserRegistration : Prop :=
  ∀ (s : State) (d a b : Fin 64) (h : Fin 16) (m : JoinMode) (l obj : Nat) (p : Phaser),
    let g := s.issue.pre
    let x := hget g h.val
    let c := (kget g a.val).toNat
    let scope := c % 4
    let reg := c / 16 % 4
    let w := reg % 2
    let word := (kget g b.val).toNat
    let rid := ridOf s g h.val
    let up := dieNode (dieOf g.core)
    let jw := if m = .wait then 0 else 1
    let asked (t : State) (k : PKind) : Prop := ∃ id y, mget t.pnet id = some y ∧ y.obj = obj ∧ y.src = g.core ∧ y.dst = up ∧ y.k = k
    let open_ (p : Phaser) : Prop := p.marked = false ∧ (p.here = true → p.part = partOf s g ∧ p.ctx = ctxOf s g) ∧
      (p.here = false → liveObjects s < Config.phasers)
    let untagged (t : State) : Prop := ∀ id o, mget s.ops id = some o →
      mget t.ops id = some (if o.gid = s.issue.gid ∧ o.tag = some h.val then { o with tag := none } else o)
    s.issue.cur = g → g.core < 576 → slotPos g < 64 →
      (∀ entry, CanTrap s entry → x.st = .unbound → findHold s [5, h.val, word, m.code] = none → resolveId s g word = some obj →
        mget s.phs obj = some p → p.marked = true → Gives (.phjoin d b h m) s fun s t =>
          TrapTaken g 0x23 (einfoB (word % 2 ^ 32) 0 h.val s.issue.word) s.issue.pos entry t ∧ OnlyIssue s t) ∧
      (x.st = .unbound → findHold s [3, h.val] = none → c < 64 → bit c 3 = false → reg ≠ 0 → scope ≠ 3 → freeLid s = some l →
        Gives (.phnew a h) s fun s t => ∃ y, mget t.phs (s.pkg * 4096 + l) = some y ∧ y.scope = scope ∧ y.any = bit c 2 ∧
          y.members = 1 ∧ y.part = partOf s g ∧ y.ctx = ctxOf s g ∧ phNode y g.core = { rn := w, rx := w } ∧
          kget t.issue.cur a.val = BitVec.ofNat 64 (s.pkg * 4096 + l + scope * 2 ^ 20 + boolBit (bit c 2) * 2 ^ 22) ∧
          (hget t.issue.cur h.val).st = .bound ∧ (hget t.issue.cur h.val).s = 1 ∧ (hget t.issue.cur h.val).rid = rid ∧
          (hget t.issue.cur h.val).signals = bit reg 0 ∧ (hget t.issue.cur h.val).waits = bit reg 1 ∧ t.mem = s.mem) ∧
      (∀ y r, findHold s [5, h.val, word, m.code] = some y → y.res = some r → Gives (.phjoin d b h m) s (KWritten d r)) ∧
      (x.st = .unbound → findHold s [5, h.val, word, m.code] = none → resolveId s g word = some obj → mget s.phs obj = some p →
        open_ p → admits s p g = true → p.scope ≠ 0 →
        Gives (.phjoin d b h m) s fun _ t => t.issue.verdict = .stalled ∧ (hget t.issue.cur h.val).st = .joining ∧
          (hget t.issue.cur h.val).rid = rid ∧ asked t (.join jw rid) ∧ t.mem = s.mem) ∧
      (x.st = .unbound → findHold s [5, h.val, word, m.code] = none → resolveId s g word = some obj → mget s.phs obj = some p →
        open_ p → admits s p g = true → p.scope = 0 →
        (mget s.groups s.issue.gid).isSome → handleGroup s obj rid .joining = none → ∀ n, mget p.nodes g.core = some n → n.rn ≠ 0 →
        Gives (.phjoin d b h m) s fun _ t => kget t.issue.cur d.val = (n.o + 1).zeroExtend 64 ||| rid.zeroExtend 64 <<< 32 ∧
          (hget t.issue.cur h.val).st = .bound ∧ (hget t.issue.cur h.val).s = n.o + 1 ∧
          phNode (phaserOf t obj) g.core = { n with rx := n.rx + jw } ∧ t.mem = s.mem) ∧
      (x.st = .bound → x.obj = obj → mget s.phs obj = some p → p.scope ≠ 0 →
        Gives (.phleave h) s (fun _ t => hget t.issue.cur h.val = { x with st := .leaving } ∧
          asked t (.leave (boolBit x.signals) x.rid) ∧ untagged t ∧ t.mem = s.mem) ∧
        Gives (.phfree h) s (fun _ t => hget t.issue.cur h.val = { x with st := .leaving } ∧ untagged t ∧
          asked t (.leave (boolBit x.signals) x.rid) ∧ (phaserOf t obj).marked = true ∧ t.mem = s.mem))

/-- R40, R251, R253: BAR counts its group in its team's phaser and waits; the last group's BAR completes the phase. EMIT sends
each active lane's record to the die that its node places it on. -/
def Obligations.BarrierAndRecords : Prop :=
  ∀ (s : State) (r : Fin 48) (k : Fin 64) (n : NodeDecl),
    let g := s.issue.pre
    let gid := s.issue.gid
    let x := team s g.team
    let gr := gidOf s g
    let words (l : Nat) : List Word := (List.range (n.bytes / 4)).map fun i => vget g (g.ixb + r.val + i) l
    let regs := (List.range (n.bytes / 4)).map fun i => g.ixb + r.val + i
    ((s.ops.all fun o => o.2.gid != gid || !o.2.holdsBar || o.2.parts = 0) = true → (mget s.teams g.team).isSome → x.node = none →
      (x.bar.a + 1 ≠ x.bar.rn → Gives .bar s fun s t => RegsKept s t ∧ t.mem = s.mem ∧ t.issue.endRun = true ∧
        t.issue.cur.status = .waiting (.bar x.bar.o) ∧ (team t g.team).bar = { x.bar with a := x.bar.a + 1 }) ∧
      (x.bar.a + 1 = x.bar.rn → gid ∈ x.groups → (mget s.groups gid).isSome → Gives .bar s fun s t => RegsKept s t ∧ t.mem = s.mem ∧
        t.issue.endRun = true ∧ t.issue.cur.status = .ready ∧
        (team t g.team).bar = { x.bar with o := x.bar.o + 1, rn := x.bar.rx, a := 0 })) ∧
    (mget (grid s gr).nodes k.val = some n → RegsOk s (top regs) [] → badRegs s (activeLanes g) regs = false → g.uEmit = none →
      homeBound s gid = [] → closedStores s gid = [] → (∀ d, gatherLoad s d gr k.val + 32 ≤ Config.gatherRecords) →
      Gives (.emit r k) s fun s t => RegsKept s t ∧ t.mem = s.mem ∧ ∀ l ∈ activeLanes g, ∃ m ∈ t.net, ∃ recs,
        m.home = .die (recordDie s g n (words l)) ∧ m.body = .record gr k.val recs ∧ words l ∈ recs)

/-! ## Engine words -/

/-- R262, R264, R265, R269 to R283: a matrix word that passes its checks is queued at the slot's unit with the operands it
captured, and joins class MX; no tile or register changes yet, but SEED for a stochastic ASTS. -/
def Obligations.MatrixIssue : Prop :=
  ∀ (s : State) (a b d : Fin 48) (bo : Option (Fin 48)) (strm sel : Fin 4) (ru af16 : Bool) (t : MmTy) (q : QTy) (tq : BitVec 8)
    (boff : BitVec 20) (pair : Fin 7) (tf n1 td ts : BitVec 10) (base : EOp) (at_ : AldTy) (ft : FTy) (rm : RMode) (kf : Fin 8)
    (rf : Fin 48),
    let g := s.issue.pre
    let n := n1.toNat + 1
    let sp := eopW g base
    let size := (team s g.team).scratch
    let tiles (first count : Nat) : Prop := first + count ≤ g.ntiles
    let range (o align bytes : Nat) : Prop := o % align = 0 ∧ o + bytes ≤ size
    let live : Prop := liveQuarters (activeMask g) ≠ []
    let bytes := bBytes (mmTypes t).2 (mmK (mmTypes t).2)
    let rows (r : Nat) (c : MxCmd) : Prop := ∀ i l, i < 16 → l < 32 → cget 0 c.a (32 * i + l) = vget g (r + i) l
    let lanes (r : Nat) (c : MxCmd) : Prop := ∀ l, l < 32 → cget 0 c.b l = vget g r l
    rising none g.v = true → (slotOf (core s g.core) g.slot).mx.length < Config.matrixQueue → (slotOf (core s g.core) g.slot).coll = none →
      (RegsOk s [g.ixb + a.val + 15] [] → tiles (4 * tq.toNat) 4 → bo = none → (live → range boff.toNat 64 bytes) →
        MxQueued (.mmq a bo strm ru t tq boff) s fun c => rows (g.ixb + a.val) c) ∧
      (RegsOk s [g.ixb + a.val + 15, g.ixb + b.val] [] → tiles (4 * tq.toNat) 4 →
        (∀ qt ∈ liveQuarters (activeMask g), range (boff.toNat + (vget g (g.ixb + b.val) (8 * qt)).toNat) 64 bytes) →
        MxQueued (.mmq a (some b) strm ru t tq boff) s fun c => rows (g.ixb + a.val) c ∧ lanes (g.ixb + b.val) c) ∧
      (RegsOk s [g.ixb + a.val + 15, g.ixb + b.val] [] → tiles (4 * tq.toNat) 4 → (live → range boff.toNat 64 (bBytes (qType q) 32)) →
        MxQueued (.mmqz a b strm ru q af16 tq sel boff) s fun c => rows (g.ixb + a.val) c ∧ lanes (g.ixb + b.val) c) ∧
      (RegsOk s [g.ixb + a.val + 15] [] → tiles (4 * tq.toNat) 4 → (live → range boff.toNat 64 bytes) →
        MxQueued (.mmqt a pair strm ru t tq boff) s fun c => rows (g.ixb + a.val) c ∧ c.k = [kget g pair.val, kget g (pair.val + 1)]) ∧
      (tiles tf.toNat n → MxQueued (.aclr strm tf n1) s fun _ => True) ∧
      (tiles tf.toNat n → range sp 16 (n * 128 * elBytes (aldTy at_)) →
        MxQueued (.alds base strm at_ tf n1) s fun c => c.k = [BitVec.ofNat 64 sp]) ∧
      (tiles tf.toNat n → range sp 16 (128 * n * elBytes ft) → MxQueued (.asts base strm ft tf n1 rm) s fun c =>
        c.k = [BitVec.ofNat 64 sp] ∧ c.seed = g.seed) ∧
      (RegsOk s [g.ixb + d.val + 15] [] → tiles (4 * tq.toNat) 4 → MxQueued (.amov d strm tq) s fun c => c.d = g.ixb + d.val) ∧
      (tiles td.toNat n → tiles ts.toNat n → MxQueued (.aadd strm td ts n1) s fun _ => True) ∧
      (tiles tf.toNat n → MxQueued (.ascl (.k kf) strm tf n1) s fun c => c.k = [kget g kf.val]) ∧
      (RegsOk s [g.ixb + rf.val] [] → tiles tf.toNat n → tf.toNat % 4 = 0 → n % 4 = 0 →
        MxQueued (.ascl (.row rf) strm tf n1) s fun c => lanes (g.ixb + rf.val) c)

/-- R289, R291, R292, R294 to R300: a tempo word that passes its checks enters the core's queue with the operands it captured,
and joins class TM. -/
def Obligations.TempoIssue : Prop :=
  ∀ (s : State) (tw : BitVec 8) (base : EOp) (nr1 fr : BitVec 7) (h fb : Bool) (a d : Fin 48) (rb : Fin 4),
    let g := s.issue.pre
    let sp := eopW g base
    rising none g.v = true → (core s g.core).tq.length < Config.tempoQueue →
      TmQueued (.twin tw) s (fun _ => True) ∧
      (sp % 16 = 0 → sp + 128 * (nr1.toNat + 1) ≤ (team s g.team).scratch →
        TmQueued (.tloadw base nr1 fr) s fun c => c.k = BitVec.ofNat 64 sp) ∧
      TmQueued (.tcfg base h) s (fun c => c.k = eopD g base) ∧
      (RegsOk s [g.ixb + a.val] [] → TmQueued (.tstage a rb) s fun c => ∀ l, l < 32 → cget 0 c.a l = vget g (g.ixb + a.val) l) ∧
      TmQueued (.tfire fb) s (fun _ => True) ∧
      (RegsOk s [g.ixb + d.val] [] → TmQueued (.tcapt d rb) s fun c => c.d = g.ixb + d.val) ∧
      TmQueued .treset s (fun _ => True)

/-- R305 to R310: a tour with a good step list takes the lowest free slot of its group, with the list and each active lane's
pointer, and joins class TO with a part for each lane. -/
def Obligations.TourWords : Prop :=
  ∀ (s s1 s2 : State) (add : Bool) (a d stat : Fin 48) (pw : Fin 8) (wide : Bool) (loff : BitVec 16) (h : DWord) (xs : List DWord)
    (slot : Nat),
    let g := s.issue.pre
    let w := pwin s g pw.val
    let lanes := activeLanes g
    let run := if add then (if wide then 3 else 2) else 1
    RegsOk s [g.ixb + a.val + run, g.ixb + d.val + 1, g.ixb + stat.val] [] → w.size ≠ 0 → lanes ≠ [] →
    findHold (memClass s) [7, pw.val, loff.toNat] = none → listWords (memClass s) g.core w loff.toNat 1 = (s1, [h], false) → 1 ≤ h.toNat → h.toNat ≤ 8 →
    listWords s1 g.core w (loff.toNat + 8) (4 + h.toNat) = (s2, xs, false) →
    ((xs.drop 4).mapIdx fun i x => badStep x (i + 1 = h.toNat)).any id = false → freeTour g = some slot → RoomFor s2 lanes.length →
    Gives (if add then .tourAdd a d stat pw wide loff else .tourLd a d stat pw wide loff) s fun s t =>
      RegsKept s t ∧ t.mem = s.mem ∧ ∃ x o, mget t.issue.cur.tours slot = some x ∧ mget t.ops x.op = some o ∧
        o.gid = s.issue.gid ∧ o.cls = .tour ∧ o.parts = lanes.length ∧ x.masks = xs.take 4 ∧ x.steps = xs.drop 4 ∧ x.add = add ∧
        x.wide = wide ∧ x.d = g.ixb + d.val ∧ x.stat = g.ixb + stat.val ∧
        ∀ l ∈ lanes, (mget x.lanes l).map (·.ptr) = some (vpair g (g.ixb + a.val) l)

/-- R371 to R374, R378: COLL and COMMQ that pass their checks join class CL and enter their die's engine. A COLL takes the next
step of its communicator, or completes with status 7 where none is live; COMMQ's results are 0, 6 and 7, and its counts. ABORT gives
every outstanding COLL of the communicator status 3 with the attempts it has begun, and the communicator stays live; the steps are owed
by members that have not issued them. What an ABORT tells the members of other packages is left to assumption 92. -/
def Obligations.CollectiveWords : Prop :=
  ∀ (s : State) (base : Fin 5) (d : Dst) (xw a : Fin 8) (tag : Option (Fin 16)) (cid : BitVec 8) (op : CollOp) (ty : CollTy)
    (arrival : Bool) (kind : CollKind),
    let g := s.issue.pre
    let kv (i : Nat) : Nat := (kget g (base.val + i)).toNat
    let w := xwget g xw.val
    let dd := dieOf g.core
    let key := commKey (partOf s g) (ctxOf s g) cid.toNat
    let comm := mget s.comms key
    let m := (comm.map commM).getD 1
    let es := elemSize ty
    let entered (i : Instr) (P : State → Coll → Prop) : Prop := Gives i s fun s t =>
      RegsKept s t ∧ t.mem = s.mem ∧ ∃ id c o, mget t.colls id = some c ∧ c.ins = i ∧ c.gid = s.issue.gid ∧ c.die = dd ∧
        c.mask = activeMask g ∧ c.reg = (dstRegs g d).head? ∧ mget t.ops c.op = some o ∧ o.gid = s.issue.gid ∧ o.cls = .cl ∧
        o.parts = 1 ∧ P t c
    RegsOk s (dstRegs g d) [] → (s.colls.filter fun x => x.2.die = dd).length < Config.collQueue →
      (w.isOpen = true → kv 0 % es = 0 → kv 1 % es = 0 → kv 0 + srcCount kind m (kv 2) * es ≤ w.size →
        kv 1 + dstCount kind m (kv 2) * es ≤ w.size →
        (∀ h, tag = some h → (hget g h.val).st = .bound ∧ (hget g h.val).signals = true) →
        entered (.coll base d xw tag cid op ty arrival kind) fun t c =>
          c.src = w.base + kv 0 ∧ c.dst = w.base + kv 1 ∧ c.n = kv 2 ∧ c.gen = BitVec.ofNat 32 (kv 3) ∧
          (comm = none → (c.status.map fun x => x.toNat % 16) = some 7) ∧
          ∀ x, comm = some x → x.dies.getLsbD dd = true → dd < 24 → x.aborted.contains (cget 0 x.issued dd) = false →
            c.status = none ∧ c.step = cget 0 x.issued dd ∧
            (mget t.comms key).map (fun y => cget 0 y.issued dd) = some (cget 0 x.issued dd + 1)) ∧
      (∀ s1 acc u, w.isOpen = true → (kget g a.val).toNat % 8 = 0 → (kget g a.val).toNat + 64 ≤ w.size →
        checkAccess (memClass s) xw.val ((List.range 64).map fun i => { lane := 0, off := ((kget g a.val).toNat + i : Nat), size := 1 })
          false anyTier = .ok s1 acc u → acc.length = 64 → homeBound s1 s.issue.gid = [] →
        entered (.commqCreate xw a d cid) fun t c =>
          c.status = some (if comm.isSome then 6 else 0) ∧ (mget t.comms key).isSome) ∧
      entered (.commqDestroy xw d cid) (fun t c => t.comms = s.comms ∧
        c.status = if (comm.map fun x => decide (dd < 24) && x.dies.getLsbD dd) = some true then none else some 7) ∧
      (comm = none → entered (.commqAbort xw d cid) fun _ c => c.status = some 7) ∧
      (∀ x, comm = some x → x.dies.getLsbD dd = true → dd < 24 → (∀ y ∈ s.colls, openColl y.2 = true → y.2.key ≠ key) → x.poolIn = [] →
        entered (.commqAbort xw d cid) fun t c => c.status = some 0 ∧ mget t.comms key = some x) ∧
      (∀ x, comm = some x → x.dies.getLsbD dd = true → dd < 24 → x.npkg ≤ 1 → x.poolIn = [] → rising none s.colls = true →
        s.memBad = [] → mget s.colls (s.nextId + 1) = none → Gives (.commqAbort xw d cid) s fun s t => RegsKept s t ∧
          ((∀ y ∈ s.colls, y.2.since = none) → t.mem = s.mem) ∧
          (∃ c, mget t.colls (s.nextId + 1) = some c ∧ c.ins = .commqAbort xw d cid ∧ c.gid = s.issue.gid ∧ c.status = some 0) ∧
          (∃ z, mget t.comms key = some z ∧ z.dies = x.dies ∧ z.issued = x.issued ∧
            ∀ k, k ∈ z.aborted ↔ k ∈ x.aborted ∨ ∃ y ∈ s.colls, openColl y.2 = true ∧ y.2.key = key ∧ y.2.step = k) ∧
          ∀ i y, mget s.colls i = some y → openColl y = true → if y.key = key
            then ∃ (z : Coll) (m : Nat), mget t.colls i = some { z with status := some (statusWord 3 0 m y.tries) } ∧ z.op = y.op ∧ z.reg = y.reg
            else mget t.colls i = some y) ∧
      (mget s.colls (s.nextId + 1) = none → entered (.commqQuery xw d cid) fun t c => t.comms = s.comms ∧ c.status = some (if comm.isNone then 7 else
        BitVec.ofNat 32 (((outstandingColls s key).filter fun y => y.2.die = dd).length * 2 ^ 16)))

/-! ## Words of a front-end core -/

/-- R320, R321, R324, R327: BFX, FETCHR, SWAIT and DISP of front-end core feCur. A word that completes writes rd, x0 excepted,
and moves the program counter by 4; one that raises an exception enters the firmware's trap vector with mtval. The queue whose context
SWAIT translates in is that of the slot of the last FETCHR (assumption 102). -/
def Obligations.FrontEndWords : Prop :=
  ∀ (s : State) (rd rs1 rs2 : Fin 32),
    let id := s.feCur
    let f := fe s id
    let A := xget f rs1.val
    let B := xget f rs2.val
    let slot := A.toNat
    let completes (i : Instr) (x : DWord) (P : State → Prop) : Prop := Gives i s fun _ t => P t ∧
      (∀ r, xget (fe t id) r = if r = rd.val ∧ r ≠ 0 then x else xget f r) ∧
      (fe t id).pc = (f.pc + 4) % 2 ^ 64 ∧ (fe t id).wait = none ∧ (fe t id).blocked = false
    let traps (i : Instr) (cause : Nat) (x : DWord) : Prop := Gives i s fun _ t => t.mem = s.mem ∧
      (fe t id).mcause = BitVec.ofNat 64 cause ∧ (fe t id).mtval = x ∧ (fe t id).mepc = f.pc ∧ (fe t id).pc = f.mtvec ∧
      ∀ r, xget (fe t id) r = xget f r
    let pos := B.toNat % 64
    let len := B.toNat / 64 % 64
    (B.toNat < 2 ^ 12 → completes (.bfx rd rs1 rs2) (BitVec.ofNat 64 (A.toNat / 2 ^ pos % 2 ^ min (len + 1) (64 - pos)))
      fun t => t.mem = s.mem) ∧
    (2 ^ 12 ≤ B.toNat → traps (.bfx rd rs1 rs2) 25 B) ∧
    ((16 ≤ slot ∨ mget f.slots slot = none) → traps (.fetchr rd rs1) 24 A) ∧
    (∀ m, slot < 16 → mget f.slots slot = some m → (devRead s (qAddr s m.part m.q) 64).isSome → qRead s m.part m.q = qWrite s m.part m.q →
      completes (.fetchr rd rs1) (BitVec.allOnes 64) fun t => (fe t id).cur = some slot ∧ t.mem = s.mem) ∧
    (∀ m t i x, slot < 16 → mget f.slots slot = some m → (devRead s (qAddr s m.part m.q) 64).isSome →
      takePacket (modFe s id fun f => { f with cur := some slot }) (feDie id) m.part m.q m = (t, .ok i x) →
      (fe t id).x = f.x → (fe t id).pc = f.pc →
      completes (.fetchr rd rs1) (BitVec.ofNat 64 i) fun t => (fe t id).buf = x) ∧
    (A.toNat % 8 ≠ 0 → traps (.swait rd rs1 rs2) 26 A) ∧
    (∀ c m t pa st, A.toNat % 8 = 0 → f.cur = some c → mget f.slots c = some m →
      xlateDie (modFe s id fun f => { f with wait := some (A.toNat, B, rd.val) }) (feDie id) m.part (qCtx s m.part m.q) A.toNat false =
        (t, .ok pa st) → (fe t id).x = f.x → (fe t id).pc = f.pc → B.toNat ≤ readNum t.mem pa 8 →
      completes (.swait rd rs1 rs2) (BitVec.ofNat 64 (readNum t.mem pa 8)) fun t => (fe t id).last = BitVec.ofNat 64 (readNum t.mem pa 8)) ∧
    ((∀ p, diePart s (feDie id) = some p → ctxValid s p B.toNat = false) → traps (.disp rd rs1 rs2) 27 B) ∧
    (∀ p t gid h, diePart s (feDie id) = some p → ctxValid s p B.toNat = true →
      dispatch s (feDie id) p B.toNat A.toNat 0 none (fun s r va => feWait s id p B.toNat va r) = .ok t gid h →
      (fe t id).x = f.x → (fe t id).pc = f.pc →
      completes (.disp rd rs1 rs2) (BitVec.ofNat 64 h) fun u => u.grids = t.grids) ∧
    (∀ p t off, diePart s (feDie id) = some p → ctxValid s p B.toNat = true →
      dispatch s (feDie id) p B.toNat A.toNat 0 none (fun s r va => feWait s id p B.toNat va r) = .bad t off →
      (fe t id).x = f.x → (fe t id).pc = f.pc →
      completes (.disp rd rs1 rs2) (BitVec.ofNat 64 (2 ^ 63 + off)) fun u => u.grids = t.grids)
/-! ## Engines, groups and messages -/

/-- R98, R112, R184, R206, R267, R269 to R271, R273, R275 to R283, R292, R294 to R300: what the engines' events do to the state: a matrix
unit's and a tempo array's next command, a copy's end, a batch's end, the end of a sleep. A matrix command that starts whole gives every
element of its tiles its new value, leaves every other element, and leaves its flags with its operation; a tempo command changes the
array, and a race gives every column the first or the last of the enabled rows in time. That an inactive row's NaN is made canonical with
NV is assumption 87, that an infinity difference beside a NaN sets no NV assumption 27, and the sign of a zero sum assumption 75. -/
def Obligations.EngineEvents : Prop :=
  ∀ (s : State) (gid op : Nat) (g : Group) (o : Op) (c : EngineClass),
    mget s.groups gid = some g → mget s.ops op = some o →
      (∀ slot strm x, mxTurn s slot strm = some x → x.left = none → x.gid = gid → x.op = op →
        o.discard = false → o.failed = false → g.tilesBad = [] → (team s g.team).carveBad = [] →
        let carve := (team s g.team).carve
        let old (k : Nat) : Word := cget 0 g.tiles k
        let new (t : State) (k : Nat) : Word := cget 0 (grp t gid).tiles k
        let base := (x.k.getD 0 0).toNat
        let live (q : Nat) : Prop := ∃ r, r < 8 ∧ inMask x.mask (8 * q + r) = true
        let flagged (t : State) (F : Nat → Byte) : Prop :=
          ∀ i, (mget t.ops op).map (·.flags.getLsbD i) = some true ↔ o.flags.getLsbD i = true ∨ ∃ k, (F k).getLsbD i = true
        let tilesOnly (t : State) : Prop := (grp t gid).v = g.v ∧ (grp t gid).k = g.k ∧ (team t g.team).carve = carve
        let elems (t : State) (P : Nat → Prop) (R : Nat → Word × Byte → Prop) : Prop := tilesOnly t ∧ ∃ F, flagged t F ∧
          ∀ k, (P k → R k (new t k, F k)) ∧ (¬P k → new t k = old k ∧ F k = 0)
        let quads (t : State) (tq : BitVec 8) (R : Nat → Nat → Nat → Word → Word × Byte → Prop) : Prop :=
          elems t (fun k => 4 * tq.toNat ≤ k / 128 ∧ k / 128 < 4 * tq.toNat + 4 ∧ live (k / 128 - 4 * tq.toNat)) fun k =>
            R (k / 128 - 4 * tq.toNat) (k / 16 % 8) (k % 16) (old k)
        let run (t : State) (tf n1 : BitVec 10) (R : Nat → Word × Byte → Prop) : Prop :=
          elems t (fun k => tf.toNat ≤ k / 128 ∧ k / 128 ≤ tf.toNat + n1.toNat) R
        let product (ty : MmTy) (at_ : Nat) (q r j : Nat) (v : Word) (y : Word × Byte) : Prop :=
          let (ea, eb, n) := mmTable ty
          if inMask x.mask (8 * q + r) = true
            then MmIs ea eb n (aBits x.a (exWidth ea) (8 * q + r)) (fun k => bBits carve (exWidth eb) at_ k j) v y
            else IdleIs v y
        Gives (.matrixCommandExecute slot strm) s fun s t => PartDone s t op ∧ t.mem = s.mem ∧
          (∀ k, k ≠ gid → mget t.groups k = mget s.groups k) ∧
          (∀ a b st ru ty tq boff, x.ins = .mmq a b st ru ty tq boff → (∀ q, q < 4 → (boff.toNat + (cget 0 x.b (8 * q)).toNat) % 4 = 0) →
            quads t tq fun q => product ty (boff.toNat + (cget 0 x.b (8 * q)).toNat) q) ∧
          (∀ a p st ru ty tq boff k0 k1, x.ins = .mmqt a p st ru ty tq boff → x.k = [k0, k1] → boff.toNat % 4 = 0 →
            quads t tq fun q r j v y =>
              if (k1.truncate 32 : Word).toInt < ((k0.toNat / 2 ^ 32 + j : Nat) : Int) - ((k0.toNat % 2 ^ 32 + 8 * q + r : Nat) : Int)
                then y = ((k1 >>> 32).truncate 32, 0) else product ty boff.toNat q r j v y) ∧
          (∀ a b st ru qt af16 tq sel boff, x.ins = .mmqz a b st ru qt af16 tq sel boff → boff.toNat % 4 = 0 →
            quads t tq fun q r j v y =>
              let ea : El := .fl (if af16 = true then .f16 else .bf16)
              let w := mzTable qt
              if inMask x.mask (8 * q + r) = true
                then MzIs ea (aBits x.a 16 (8 * q + r)) (fun k => exNum w (bBits carve (exWidth w) boff.toNat k j))
                  ((cget 0 x.b j).toNat / 2 ^ (16 * (sel.val % 2)) % 2 ^ 16) (exNum w ((cget 0 x.b (16 + j)).toNat / 2 ^ (8 * sel.val))) v y
                else IdleIs v y) ∧
          (∀ st tf n1, x.ins = .aclr st tf n1 → run t tf n1 fun _ y => y = (0, 0)) ∧
          (∀ b st ty tf n1, x.ins = .alds b st ty tf n1 → base % 4 = 0 → run t tf n1 fun k y =>
            let ft : FTy := match ty with | .f32 => .f32 | .f16 => .f16 | .bf16 => .bf16
            let es := if ft = .f32 then 4 else 2
            ∃ f, ConvertedIs .f32 ft .rne 0 (readNum carve (base + (k - 128 * tf.toNat) * es) es) (y.1.toNat, f) ∧ y.2 = f &&& fNV) ∧
          (∀ b st ty tf n1 m, x.ins = .asts b st ty tf n1 m → base % 4 = 0 → (mget s.teams g.team).isSome →
            let es := match ty with | .f32 => 4 | .f16 => 2 | .bf16 => 2 | _ => 1
            let bytes := 128 * (n1.toNat + 1) * es
            let after := (team t g.team).carve
            (grp t gid).tiles = g.tiles ∧ (grp t gid).v = g.v ∧ (grp t gid).k = g.k ∧
            (∀ i, (i < base ∨ base + bytes ≤ i) → cget 0 after i = cget 0 carve i) ∧
            ∃ F, flagged t F ∧ (∀ i, 128 * (n1.toNat + 1) ≤ i → F i = 0) ∧ ∀ i, i < 128 * (n1.toNat + 1) →
              ConvertedIs ty .f32 m (drawOf x.seed i) (old (128 * tf.toNat + i)).toNat (readNum after (base + i * es) es, F i)) ∧
          (∀ d st tq, x.ins = .amov d st tq → (grp t gid).tiles = g.tiles ∧ (grp t gid).k = g.k ∧ (team t g.team).carve = carve ∧
            flagged t (fun _ => 0) ∧ ∀ l i, l < 32 → vget (grp t gid) i l =
              if x.d ≤ i ∧ i < x.d + 16 ∧ inMask x.mask l = true then old (128 * (4 * tq.toNat + l / 8) + 16 * (l % 8) + (i - x.d))
              else vget g i l) ∧
          (∀ st td ts n1, x.ins = .aadd st td ts n1 → run t td n1 fun k y =>
            SumIs .f32 false (old k).toNat (old (k + 128 * ts.toNat - 128 * td.toNat)).toNat (y.1.toNat, y.2)) ∧
          (∀ f st tf n1, x.ins = .ascl (.k f) st tf n1 → run t tf n1 fun k y =>
            ProductIs .f32 (old k).toNat (base % 2 ^ 32) (y.1.toNat, y.2)) ∧
          (∀ f st tf n1, x.ins = .ascl (.row f) st tf n1 → run t tf n1 fun k y =>
            let l := 8 * ((k / 128 - tf.toNat) % 4) + k / 16 % 8
            if inMask x.mask l = true then ProductIs .f32 (old k).toNat (cget 0 x.b l).toNat (y.1.toNat, y.2) else y = (old k, 0))) ∧
      (∀ k x rest, (core s k).tq = x :: rest → scratchDone s x.gid x.op = true → x.op = op → o.failed = false → (core s k).tempo.bad = [] →
        (team s (grp s x.gid).team).carveBad = [] →
        let arr := (core s k).tempo
        Gives (.tempoCommandExecute k) s fun s t => PartDone s t op ∧ t.mem = s.mem ∧ t.teams = s.teams ∧ (core t k).tq = rest ∧
          ((∀ d cb, x.ins ≠ .tcapt d cb) → t.groups = s.groups) ∧
          (∀ tw, x.ins = .twin tw → (core t k).tempo = { arr with tw := tw }) ∧
          (x.ins = .treset → (core t k).tempo = { arr with stage := [], out := [], bad := [] }) ∧
          (∀ b nr1 fr, x.ins = .tloadw b nr1 fr → x.left = none → x.k.toNat % 2 ^ 32 % 4 = 0 →
            (core t k).tempo = { arr with cells := (core t k).tempo.cells } ∧ ∀ i, cget 0 (core t k).tempo.cells i =
            if 128 * fr.toNat ≤ i ∧ i < 128 * (fr.toNat + nr1.toNat + 1) then
              (let b := (cget 0 (team s (grp s x.gid).team).carve (x.k.toNat % 2 ^ 32 + (i - 128 * fr.toNat))).toNat
               BitVec.ofNat 5 (b / 128 * 16 + b % 16))
            else cget 0 arr.cells i) ∧
          (∀ b h, x.ins = .tcfg b h → (core t k).tempo = { arr with mode := (core t k).tempo.mode } ∧ ∀ j, j < 128 →
            (core t k).tempo.mode.getLsbD j = if j / 64 = (if h = true then 1 else 0) then x.k.getLsbD (j % 64) else arr.mode.getLsbD j) ∧
          (∀ a rb, x.ins = .tstage a rb → (core t k).tempo = { arr with stage := (core t k).tempo.stage } ∧ ∀ i, i < 128 →
            mget (core t k).tempo.stage i =
              if i / 32 = rb.val ∧ inMask x.mask (i % 32) = true then some ((cget 0 x.a (i % 32)).truncate 8) else mget arr.stage i) ∧
          (∀ d cb, x.ins = .tcapt d cb → x.left = none → x.gid = gid → o.discard = false → (core t k).tempo = arr ∧
            ∀ r l, l < 32 → vget (grp t gid) r l = if r = x.d ∧ inMask x.mask l = true
              then (cget 255 arr.out (32 * cb.val + l)).zeroExtend 32 else vget g r l) ∧
          ∀ fb, x.ins = .tfire fb → (core t k).tempo = { arr with out := (core t k).tempo.out } ∧ ∀ j, j < 128 →
            let on (i : Nat) : Prop := i < 128 ∧ (cget 0 arr.cells (128 * i + j)).getLsbD 4 = true
            let tick (i : Nat) : Nat := if fb = true then (cget 255 arr.out i).toNat else ((mget arr.stage i).getD 255).toNat
            let late (i : Nat) : Nat := tick i + (cget 0 arr.cells (128 * i + j)).toNat % 16
            let inTime (i : Nat) : Prop := on i ∧ tick i ≠ 255 ∧ late i < arr.tw.toNat
            let y := cget 255 (core t k).tempo.out j
            (arr.mode.getLsbD j = false → ((∀ i, ¬inTime i) → y = 255) ∧
              ∀ i, inTime i → (∀ n, inTime n → late i ≤ late n) → y = BitVec.ofNat 8 (late i)) ∧
            (arr.mode.getLsbD j = true → (((∀ i, ¬on i) ∨ ∃ i, on i ∧ ¬inTime i) → y = 255) ∧
              ∀ i, on i → (∀ n, on n → inTime n ∧ late n ≤ late i) → y = BitVec.ofNat 8 (late i))) ∧
      (∀ id x, mget s.copies id = some x → x.units = [] → x.out = 0 → x.op = op → isCpyx x.ins = false →
        Gives (.copyComplete id) s fun s t => PartDone s t op ∧ mget t.copies id = none ∧ t.mem = s.mem ∧ t.teams = s.teams) ∧
      (batchReady s gid c = true → s.issue.gid ≠ gid →
        (∀ y ∈ s.ops, y.2.gid = gid → y.2.cls = c → y.2.batch = some (oldestBatch (clsOf g c)) → y.2.tag = none) →
        (∀ d n, g.status ≠ .waiting (.batch d n)) → (∀ d n, g.status ≠ .waiting (.count d n)) →
        Gives (.batchComplete gid c) s fun s t => t.mem = s.mem ∧
          grp t gid = { setCls g c { clsOf g c with count := (clsOf g c).count - 1 } with status8 := (grp t gid).status8 } ∧
          (∀ i, (grp t gid).status8.getLsbD i = (g.status8.getLsbD i || s.ops.any fun y => y.2.gid = gid && y.2.cls = c
            && y.2.batch = some (oldestBatch (clsOf g c)) && y.2.flags.getLsbD i)) ∧
          ∀ y, y ∈ t.ops ↔ y ∈ s.ops ∧ ¬(y.2.gid = gid ∧ y.2.cls = c ∧ y.2.batch = some (oldestBatch (clsOf g c)))) ∧
      (batchReady s gid c = true → s.issue.gid ≠ gid → (clsOf g c).count ≤ 128 → (clsOf g c).err = false →
        (∀ y ∈ s.ops, y.2.gid = gid → y.2.cls = c → y.2.tag = none) →
        g.status = .waiting (.batch c (oldestBatch (clsOf g c))) → Gives (.batchComplete gid c) s fun s t =>
          (grp t gid).status = .ready ∧ (grp t gid).readyAt = s.cycle) ∧
      (g.status = .waiting .sleep → g.sleepLeft ≤ s.cycle - g.since → exec (.sleepExpire gid) s =
        .next (setGrp s gid { g with status := .ready, readyAt := s.cycle, passed := 0, sleepLeft := 0 }))

/-- R28, R32, R96, R187, R247: a stalled run ends with its latches and collector empty; an ended group whose operations are
complete goes, and its team ends with its last group. -/
def Obligations.RunAndGroupEnds : Prop :=
  ∀ (s : State) (gid : Nat) (g : Group), rising none s.groups = true → mget s.groups gid = some g →
    (g.stalled = true → (slotOf (core s g.core) g.slot).holder = some gid →
      Gives (.stallRunEnd gid) s fun s t => (grp t gid).stalled = false ∧ (grp t gid).y = {} ∧ (grp t gid).runPkts = 0 ∧
        (grp t gid).v = g.v ∧ (grp t gid).k = g.k ∧ (grp t gid).pc = g.pc ∧ (slotOf (core t g.core) g.slot).coll = none ∧
        t.mem = s.mem ∧ (g.walksOut ≠ [] → (grp t gid).status = .waiting .walks)) ∧
    (g.status = .waiting .drain → (∀ o ∈ s.ops, o.2.gid = gid → stoppedGroup s g = true ∧ o.2.parts = 0) →
      (∀ p ∈ s.ports, p.2.gid ≠ gid) → g.h = [] → leftError g = none → (mget s.teams g.team).isSome →
      Gives (.groupEnd gid) s fun s t => mget t.groups gid = none ∧ t.mem = s.mem ∧
        ((∃ k ∈ (team s g.team).groups, k ≠ gid) → (team t g.team).groups = (team s g.team).groups.filter (· != gid)) ∧
        ((team s g.team).groups = [gid] → (team s g.team).node.isSome → mget t.teams g.team = none))

/-- R157, R172, R187, R191 to R196, R206, R217, R311, R367: a message performed at its home. A read answers with the bytes of memory; a
write, engine data and a collective's data put their bytes there and are acknowledged; a transaction of ATOM, RED, CAS or AGGR, and one
of ATOMS at its array, takes its lanes in order, each reading what the one before left, and answers with what it read; a release's
update - a store, an atomic, or PUTF's increment of its flag - waits for every counted write; a tour's last step reads, and TOUR.add
adds. -/
def Obligations.HomeMessages : Prop :=
  ∀ (s : State) (m : Msg), Arrives s m →
    (∀ line ws f, m.body = .read line ws f → (∀ g, f ≠ .waita g) → f ≠ .prefL2 →
      Gives .readMessage s fun s t => t.mem = s.mem ∧ t.groups = s.groups ∧ ∃ bytes bad, Replied t m (.data f bytes bad false) ∧
        (∀ w ∈ ws, ∀ i, i < 4 → (128 * line + 4 * w + i, readByte s.mem (128 * line + 4 * w + i)) ∈ bytes) ∧
        ∀ w, w ∈ bad ↔ w ∈ s.memBad ∧ ∃ k ∈ ws, w = 32 * line + k) ∧
    (∀ bytes bad op, m.body = .write bytes bad (some op) → (bytes.map (·.1)).Nodup →
      Gives .writeMessage s fun s t => MemTakes bytes s t ∧ Replied t m (.ack op false)) ∧
    (∀ op t bytes, m.body = .swrite op t bytes → (bytes.map (·.1)).Nodup → (mget s.teams t).isSome →
      Gives .writeMessage s fun s u => u.mem = s.mem ∧ Replied u m (.ack op false) ∧
        ∀ a, cget 0 (team u t).carve a = ((bytes.find? fun x => x.1 = a).map (·.2)).getD (cget 0 (team s t).carve a)) ∧
    (∀ op k acq ls, m.body = .atomic op k acq ls → (∀ l ∈ ls, poisoned s l.pa (laneBytes k) = false) →
      Gives .atomicMessage s fun s t => t.groups = s.groups ∧ ∃ olds, AtomRun k ls (readByte s.mem) (readByte t.mem) olds ∧
        Replied t m (atomAnswer op k acq ls olds)) ∧
    (∀ op a k ls, m.body = .atoms op a k ls → (mget s.teams a).isSome → (team s a).carveBad = [] →
      Gives .atomicMessage s fun s t => t.mem = s.mem ∧ t.groups = s.groups ∧ ∃ olds,
        AtomRun k ls (cget 0 (team s a).carve) (cget 0 (team t a).carve) olds ∧ Replied t m (atomAnswer op k none ls olds)) ∧
    (∀ c bytes bad, m.body = .engine c bytes bad → (bytes.map (·.1)).Nodup →
      Gives .engineData s fun s t => MemTakes bytes s t ∧ Replied t m (.engineAck c false ((bytes.head?.map (·.1)).getD 0) bytes.length)) ∧
    (∀ id k off bytes bad, m.body = .collData id k off bytes bad → (bytes.map (·.1)).Nodup →
      Gives .engineData s fun s t => MemTakes bytes s t ∧
        Replied t m (.collAck id k ((bytes.head?.map (·.1)).getD 0) off bytes.length false)) ∧
    (let updated (x : Release) (s t : State) : Prop :=
       (∀ bytes op, x.body = .write bytes [] (some op) → (bytes.map (·.1)).Nodup → MemTakes bytes s t ∧
         OnItsWay t (.core (24 * x.srcDie + x.srcCore)) (.ack op false)) ∧
       ∀ op k acq ls, x.body = .atomic op k acq ls → (∀ l ∈ ls, poisoned s l.pa (laneBytes k) = false) →
         ∃ olds, AtomRun k ls (readByte s.mem) (readByte t.mem) olds ∧
           OnItsWay t (.core (24 * x.srcDie + x.srcCore)) (atomAnswer op k acq ls olds)
     (∀ r x, m.body = .marker r → mget s.rels r = some x → x.srcCore < 24 → Gives .releaseMarker s fun s t =>
       (x.pending ≠ [] → t.mem = s.mem ∧ mget t.rels r = some { x with arrived := true }) ∧
       (x.pending = [] → updated x s t ∧ mget t.rels r = none)) ∧
     (∀ r w x, m.body = .report r w → mget s.rels r = some x → x.srcCore < 24 → Gives .writeReport s fun s t =>
       ((x.arrived = false ∨ ∃ k ∈ x.pending, k ≠ w) → t.mem = s.mem ∧
         mget t.rels r = some { x with pending := x.pending.filter (· != w) }) ∧
       (x.arrived = true → (∀ k ∈ x.pending, k = w) → updated x s t ∧ mget t.rels r = none))) ∧
    (∀ gid slot lane i pa ptr, m.body = .tour gid slot lane i pa ptr →
      let t := tourSlot (grp s gid) slot
      let z := if t.wide then 8 else 4
      let x := readNum s.mem pa z
      i + 1 = t.steps.length → poisoned s pa z = false →
      Gives .tourStep s fun s u =>
        OnItsWay u (.core (grp s gid).core) (.tourRet gid slot lane 0 i (BitVec.ofNat 64 x) 0 (laneAddr s gid slot i ptr)) ∧
        (t.add = false → u.mem = s.mem) ∧
        (t.add = true → MemTakes (cellsOf pa z (x + (tourLane t lane).addend.toNat)) s u))

/-- R187, R189, R193, R206, R222, R312, R315: answers that reach the core: loaded values and old values enter their registers,
acknowledgements complete, an error sets the class's flag with cause 0x1F and fills a load's destinations with ones, a tour's return
fills its registers, and a PAGE return parks its lane. -/
def Obligations.AnswersAtTheCore : Prop :=
  ∀ (s : State) (m : Msg) (op : Nat) (o : Op) (g : Group), Arrives s m →
    mget s.ops op = some o → mget s.groups o.gid = some g → o.discard = false → s.issue.gid ≠ o.gid →
    let clean := o.failed = false
    (∀ sz l r a bytes st, m.body = .data (.load op sz [(l, r, a)] [] [] st) bytes [] false → clean → l < 32 → ldBytes sz ≤ 4 →
      Gives .readDataMessage s fun s t => PartDone s t op ∧ t.mem = s.mem ∧ ∀ r' l', l' < 32 → vget (grp t o.gid) r' l' =
        if r' = r ∧ l' = l then BitVec.ofNat 32 (ldExtend sz (gotNum (bytes.foldl (fun k x => mput k x.1 x.2) []) a (ldBytes sz)))
        else vget g r' l') ∧
    (∀ sz lanes got fill st bytes, m.body = .data (.load op sz lanes got fill st) bytes [] true → o.parts = 1 →
      Gives .readDataMessage s fun s t => PartDone s t op ∧ t.mem = s.mem ∧ ∀ x ∈ o.dests, vget (grp t o.gid) x.2 x.1 = 0xFFFFFFFF) ∧
    (∀ acq l r x, m.body = .atomData op acq [(l, r, x)] false → clean → l < 32 → acq = none →
      Gives .readDataMessage s fun s t => PartDone s t op ∧ t.mem = s.mem ∧ ∀ r' l', l' < 32 → vget (grp t o.gid) r' l' =
        if r' = r ∧ l' = l then x else vget g r' l') ∧
    (m.body = .ack op false → clean → Gives .writeAcknowledge s fun s t => PartDone s t op ∧ t.groups = s.groups ∧ t.mem = s.mem) ∧
    (m.body = .ack op true → (clsOf g o.cls).err = false → Gives .writeAcknowledge s fun s t => PartDone s t op ∧ t.mem = s.mem ∧
      (clsOf (grp t o.gid) o.cls).err = true ∧ (clsOf (grp t o.gid) o.cls).cause = 0x1F ∧
      (clsOf (grp t o.gid) o.cls).eb = opBatch s o) ∧
    (∀ slot lane i x a, m.body = .tourRet o.gid slot lane 0 i x 0 a → clean → (tourSlot g slot).op = op → lane < 32 → i < 8 →
      let y := tourSlot g slot
      y.d + 1 < y.stat →
      Gives .tourReturn s fun s t => PartDone s t op ∧ t.mem = s.mem ∧ vget (grp t o.gid) y.d lane = x.truncate 32 ∧
        vget (grp t o.gid) (y.d + 1) lane = (x >>> 32).truncate 32 ∧ vget (grp t o.gid) y.stat lane = BitVec.ofNat 32 (16 * i)) ∧
    (∀ slot lane i ptr, m.body = .page o.gid slot lane i ptr → (tourLane (tourSlot g slot) lane).woken = false →
      killedGroup s g = false → Gives .pageReturn s fun _ t =>
        let y := tourLane (tourSlot (grp t o.gid) slot) lane
        y.st = .parked ∧ y.step = i ∧ y.ptr = ptr ∧ (grp t o.gid).v = g.v)

/-- R41, R170, R198, R211, R224, R249, R253, R337, R367, R374: the other arrivals inside the package: a wake for a parked group and for a
WAITA, whose issue group may hold a second wait (assumption 97), and one that reaches a core its group is no longer on, which is
discarded; collective control; PROMOTE's request, which writes back what its victim holds, and its acknowledgement, which names the
request it answers and is not taken before every write that the victim had sent is performed; an invalidation at a core, whose die's
translations go with the core's, and at a die, whose cores' go with the die's; records at a gather buffer; a request at a port that has
no answer after 1 ms, where R367 says that it may have been performed and whether it was is a free choice (assumption 45); and what a
port held. -/
def Obligations.WakesAndControl : Prop :=
  ∀ (s : State) (m : Msg) (gid : Nat) (g : Group), mget s.groups gid = some g →
    (Arrives s m →
      (∀ line, m.body = .wake (.group gid) line → m.home = .core g.core → g.status = .parked → Gives .monitorWake s fun s t =>
        (grp t gid).status = .ready ∧ (grp t gid).readyAt = s.cycle ∧ (grp t gid).v = g.v ∧ t.mem = s.mem) ∧
      (∀ who line, m.body = .wake who line → who = .group gid ∨ who = .waita gid → m.home ≠ .core g.core →
        Gives .monitorWake s fun s t => t.groups = s.groups ∧ t.mem = s.mem ∧ t.walks = s.walks) ∧
      (∀ pa n e line k, m.body = .wake (.waita gid) k → m.home = .core g.core → g.status = .waiting (.mem pa n e line) → Gives .monitorWake s fun s t =>
        (g.also = none → (grp t gid).status = .ready) ∧ (g.also = some .sleep → (grp t gid).status = .waiting .sleep) ∧
        ((g.also = none ∨ g.also = some .sleep) → (grp t gid).waita = none ∧ (grp t gid).also = none ∧ (grp t gid).v = g.v) ∧ t.mem = s.mem) ∧
      (∀ ctx cid d k e c, m.body = .collCtl ctx cid d k → m.home = .die e → mget s.comms (256 * ctx + cid) = some c →
        Gives .collectiveControl s fun s t => ∃ c', mget t.comms (256 * ctx + cid) = some c' ∧ (e, d, k) ∈ c'.told ∧
          (∀ x ∈ c'.told, x = (e, d, k) ∨ x ∈ c.told) ∧ t.mem = s.mem) ∧
      (∀ v, m.body = .promote gid v → Gives .promoteRequest s fun s t => t.mem = s.mem ∧
        (∀ l ∈ (core t v).l1, ∀ w ∈ l.2.words, w.2.dirty = false) ∧
        ∃ r ∈ t.net, r.home = .core g.core ∧ r.body = .promoteAck gid m.id ∧
          (∀ line y, mget (core s v).l1 line = some y → ∀ w ∈ y.words, w.2.dirty = true → w.1 < 32 → ∃ x ∈ t.net, x.id ∈ r.after ∧
            ∃ bytes bad ack, x.body = .write bytes bad ack ∧
              ∀ j, j < 4 → (128 * line + 4 * w.1 + j, BitVec.ofNat 8 (w.2.val.toNat / 256 ^ j)) ∈ bytes) ∧
          (∀ x ∈ s.net, x.id ≠ m.id → ∀ bytes bad ack, x.body = .write bytes bad ack → 24 * x.srcDie + x.srcCore = v → x.id ∈ r.after) ∧
          ∀ e ∈ s.rels, 24 * e.2.srcDie + e.2.srcCore = v → e.1 ∈ r.after) ∧
      (∀ h req, m.body = .promoteAck gid req → g.hold = [h] → h.ops.head? = some 4 → h.ops.length = 3 → h.res = none →
        Gives .promoteAcknowledge s fun s t => t.mem = s.mem ∧
          (h.waitFor = [req] → (grp t gid).hold = [{ h with res := some 0 }]) ∧ (h.waitFor ≠ [req] → (grp t gid).hold = [h])) ∧
      (∀ p c v rest, m.body = .inval p c → (mget s.parts p).isSome → (part s p).inval = v :: rest → v.cores.contains c = true →
        let d := if 1000 ≤ c then c - 1000 else dieOf c
        Gives .invalidationMessage s fun s t => t.mem = s.mem ∧
          (∀ k, (if 1000 ≤ c then dieOf k = d else k = c) → ∀ e ∈ (core t k).tlb, e ∈ (core s k).tlb ∧ derived s p v e.ctx e.va e.at_ = false) ∧
          (∀ e ∈ (die t d).tlb, e ∈ (die s d).tlb ∧ derived s p v e.ctx e.va e.at_ = false) ∧
          ∃ w, (part t p).inval = w :: rest ∧ w.cores = v.cores.filter (· != c) ∧
            ∀ n ∈ underWay s d (if 1000 ≤ c then none else some c), n ≠ m.id → n ∈ w.drain) ∧
      (∀ gr node recs d x n, m.body = .record gr node recs → m.home = .die d → mget s.grids gr = some x → x.ending = .running →
        x.isOver = false → mget x.nodes node = some n → bufferOf s d gr node = none → recs ≠ [] → recs.length < 32 →
        Gives .gatherRecordArrival s fun s t => t.mem = s.mem ∧
          bufferOf t d gr node = some { grid := gr, node := node, recs := recs, lapse := some (s.time + 1000 * n.timer) })) ∧
    (∀ req, s.arriving = .msg m.id → netGet s m.id = some m → m.body = .promoteAck gid req → unreachable s m = false →
      (∃ n ∈ m.after, performed s n = false) → exec .promoteAcknowledge s = .next s) ∧
    (∀ p bytes op o, s.arriving = .msg m.id → netGet s m.id = some m → m.home = .port p → m.at_ < 100 →
      m.body = .write bytes [] (some op) → (bytes.map (·.1)).Nodup → mget s.ops op = some o → o.gid = gid → s.issue.gid ≠ gid →
      (∀ r ∈ s.rels, ∀ acq ls, r.2.body ≠ .atomic op .putf acq ls) →
      (s.time < m.sentAt + Config.timeoutNs → exec .fabricRequestTimeout s = .next s) ∧
      (m.sentAt + Config.timeoutNs ≤ s.time → (clsOf g o.cls).err = false → Gives .fabricRequestTimeout s fun s t =>
        PartDone s t op ∧ (clsOf (grp t gid) o.cls).cause = 0x1F ∧ (clsOf (grp t gid) o.cls).err = true ∧
        (MemTakes bytes s t ∨ t.mem = s.mem))) ∧
    (∀ id h d gr node recs, s.arriving = .port id → mget s.ports id = some h → portReady s h = true → h.signal = none → h.gid = gid →
      h.records = [(d, gr, node, recs)] → Gives .portSignalRelease s fun s t => mget t.ports id = none ∧ t.mem = s.mem ∧
        OnItsWay t (.die d) (.record gr node recs))

/-- R160, R164, R170, R198, R210, R310, R315, R321, R370: walks that finish, retries and the host's answers. A group's walk
loads its core's TLB and is held for the issue group; the last one makes the group ready; a wake or retry lets its party go on. What the
host says to a party whose core has been saved since is discarded; a tour leaves once the writes before it, those of its group's copies
and collectives among them, are performed. -/
def Obligations.WalksAndRetries : Prop :=
  ∀ (s : State) (id gid : Nat) (g : Group) (w : Walk) (r : HostReq), mget s.groups gid = some g →
    (mget s.walks id = some w → w.who = .group gid → w.retry = false → walkHeld s w.part w.ctx w.va = false → g.walksOut = [id] →
      g.status = .waiting .walks → ∀ base bits pte a pa st, walkVa s w.part w.ctx w.va = .leaf base bits pte a →
      useLeaf s w.part w.write pte bits (w.va / 4096 * 4096) false = .ok pa st →
      Gives (.walkComplete id) s fun s t => mget t.walks id = none ∧ (grp t gid).status = .ready ∧ (grp t gid).walksOut = [] ∧
        (grp t gid).heldWalks = g.heldWalks ++ [⟨w.tag, w.va / 4096 * 4096, w.write, .leaf base bits pte a⟩] ∧
        (∃ e, (core t g.core).tlb.head? = some e ∧ e.ctx = w.ctx ∧ e.va = base ∧ e.pte = pte ∧ e.at_ = a) ∧
        readNum t.mem a 8 = (BitVec.ofNat 64 (readNum s.mem a 8) ||| (if w.write then 0x60 else 0x20)).toNat ∧
        MemKeptBut [a] s t) ∧
    (mget s.walks id = some w → w.who = .group gid → w.retry = true → w.notBefore ≤ s.time → g.status = .parked →
      (∀ a, walkVa s w.part w.ctx w.va ≠ .absent a) → Gives (.translationRetry id) s fun s t =>
        mget t.walks id = none ∧ (grp t gid).status = .ready ∧ t.mem = s.mem) ∧
    (∀ pa n e line, s.walks = [(id, w)] → w.who = .waita gid → w.notBefore ≤ s.time → g.status = .waiting (.mem pa n e line) → pa ≠ noPa →
      Gives (.waitaReread gid) s fun s t => mget t.walks id = none ∧ t.groups = s.groups ∧ t.mem = s.mem ∧
        OnItsWay t (homeOf pa) (.read line ((wordsOf pa n).map (· % 32)) (.waita gid))) ∧
    (∀ ok x, mget s.hostReqs id = some r → r.stale = true →
      exec (if r.pri = true then .priResponse id ok else .atsTranslationCompletion id x) s = .next { s with hostReqs := mdel s.hostReqs id }) ∧
    (mget s.hostReqs id = some r → r.pri = false → r.stale = false → r.who = .group gid → g.walksOut = [id] → g.status = .waiting .walks →
      (∀ base bits pte a pa host, walkHeld s r.part r.ctx r.va = false → walkVa s r.part r.ctx r.va = .leaf base bits pte a →
        useLeaf s r.part r.write pte bits r.va false = .ats host → Gives (.atsTranslationCompletion id (some pa)) s fun _ t =>
          mget t.hostReqs id = none ∧ (grp t gid).status = .ready ∧
          (grp t gid).heldWalks = g.heldWalks ++ [⟨r.tag, r.va / 4096 * 4096, r.write, .leaf (r.va / 4096 * 4096) 12 (hostLeaf pte pa.toNat) a⟩]) ∧
      ((s.hostReqs.filter fun x => x.2.pri && x.2.part = r.part).length < Config.priRequests →
        Gives (.atsTranslationCompletion id none) s fun s t => t.mem = s.mem ∧ mget t.hostReqs id = some { r with pri := true } ∧
          t.hostOut = s.hostOut ++ [id] ∧ (grp t gid).status = .ready)) ∧
    (∀ ok, mget s.hostReqs id = some r → r.pri = true → r.stale = false → r.who = .group gid → g.status = .parked →
      Gives (.priResponse id ok) s fun s t => mget t.hostReqs id = none ∧ (grp t gid).status = .ready ∧ t.mem = s.mem) ∧
    (∀ slot x, mget g.tours slot = some x → x.sent = false → x.waitFor.all (performed s) = true → x.waitCopies.all (copyGone s) = true →
      x.waitColls.all (collGone s) = true → s.memBad = [] → Gives (.tourSend gid slot) s fun _ t =>
      ∃ y, mget (grp t gid).tours slot = some y ∧ y.sent = true ∧ y.waitFor = [] ∧ y.waitCopies = [] ∧ y.waitColls = [] ∧ y.steps = x.steps ∧ (grp t gid).v = g.v) ∧
    (∀ slot x c, mget g.tours slot = some x → x.sent = false → c ∈ x.waitColls → collGone s c = false → exec (.tourSend gid slot) s = .next s) ∧
    (∀ slot lane, (mget g.tours slot).isSome → (tourLane (tourSlot g slot) lane).st = .parked → (tourLane (tourSlot g slot) lane).woken = true →
      s.walks = [] → s.memBad = [] → Gives (.tourResend gid slot lane) s fun _ t =>
        (tourLane (tourSlot (grp t gid) slot) lane).st = .inFlight ∧ (tourLane (tourSlot (grp t gid) slot) lane).woken = false ∧
        (grp t gid).v = g.v) ∧
    ∀ k va v rd q t pa st, (fe s k).wait = some (va, v, rd) → curQueue (fe s k) = some q → v.toNat ≤ readNum t.mem pa 8 →
      let ends (i : Instr) : Prop := Gives i s fun _ u => (fe u k).wait = none ∧
        xget (fe u k) rd = if rd = 0 then 0 else BitVec.ofNat 64 (readNum t.mem pa 8)
      (xlateDie s (feDie k) q.part (qCtx s q.part q.q) va false = (t, .ok pa st) → fe t k = fe s k → ends (.swaitWake k)) ∧
      let s' := modFe { s with walks := [] } k fun f => { f with blocked := false }
      s.walks = [(id, w)] → w.retry = true → w.who = .fe k → w.notBefore ≤ s.time →
        xlateDie s' (feDie k) q.part (qCtx s' q.part q.q) va false = (t, .ok pa st) → fe t k = fe s' k → ends (.swaitReread k)
/-! ## Collectives, the synchronisation network and the links -/

/-- R373 to R377, R386: the events of a collective step. Members that disagree complete with MISMATCH; members whose generations differ
complete with GENERATION and the lowest member that differs, and no byte is written; members that agree begin an attempt. Once what they
follow is performed, a step whose members are all of this package and whose buffers lie in near and far memory completes with DONE:
every destination holds the elements that its kind, mode and operation make of the sources, the same ones at every member of an
all-reduce. A failed transfer is tried again while tries are left, and then completes with RETRY; a status reaches its register in the
lanes that were active. -/
def Obligations.CollectiveEvents : Prop :=
  ∀ (s : State) (id : Nat) (c : Coll), rising none s.colls = true → mget s.colls id = some c →
    let cs := stepMembers s c.key c.step
    let comm := (mget s.comms c.key).getD {}
    let ready := openColl c = true ∧ stepReady s c.key c.step = true ∧ ∀ x ∈ cs, x.2.waiting = false
    let all (t : State) (P : Coll → Coll → Prop) : Prop := ∀ x ∈ cs, ∃ y, mget t.colls x.1 = some y ∧ P x.2 y
    let kind (k : Nat) (_ y : Coll) : Prop := (y.status.map fun w => w.toNat % 16) = some k
    let again (s : State) (x y : Coll) : Prop := y.tries = x.tries + 1 ∧ y.since = some s.time ∧ y.status = none
    let retry := ((mget s.comms c.key).map (·.retry)).getD 0
    let fails (i : Instr) : Prop :=
      (c.tries ≤ retry → Gives i s fun s t => t.mem = s.mem ∧ all t (again s)) ∧
      (retry < c.tries → Gives i s fun _ t => all t (kind 2))
    (ready → (∀ x ∈ cs, memberIndex comm x.2.die < commM comm) → (∃ x ∈ cs, ∃ y ∈ cs, x.2.n ≠ y.2.n) → Gives (.collStep id) s fun s t => t.mem = s.mem ∧ all t (kind 4)) ∧
    (∀ x0 x, ready → comm.npkg = 1 → comm.rank = 0 → x0 ∈ cs → memberIndex comm x0.2.die = 0 →
      (∀ y ∈ cs, collForm y.2.ins = collForm x0.2.ins ∧ y.2.n = x0.2.n) → x ∈ cs → x.2.gen ≠ x0.2.gen →
      (∀ y ∈ cs, memberIndex comm y.2.die < memberIndex comm x.2.die → y.2.gen = x0.2.gen) →
      Gives (.collStep id) s fun s t => t.mem = s.mem ∧ all t fun _ y =>
        y.status = some (BitVec.ofNat 32 (1 + memberIndex comm x.2.die % 256 * 2 ^ 16))) ∧
    (∀ s1 ms, ready → disagreement comm c.step cs = none → mapMembers (commM comm) cs s = (s1, .ok ms) →
      (c.since = none → Gives (.collStep id) s fun s t => all t (again s)) ∧
      (c.since ≠ none → pathBroken s1 ms = false → (∀ x ∈ cs, x.2.after.all (performed s1) = true) →
        comm.npkg = 1 → comm.rank = 0 → comm.poolIn = [] → (id, c) ∈ cs → (∀ x ∈ cs, x.2.got = [] ∧ x.2.stage = none ∧ (core s1 x.2.core).l1 = []) →
        (∀ x ∈ ms, ∀ i, beyond (pieceAt x.2.1 i) = false ∧ beyond (4 * (pieceAt x.2.2 i / 4)) = false) →
        let (kind, op, ty, arr) := collForm c.ins
        let m := commM comm
        let es := elemSize ty
        let bytes := dstCount kind m c.n * es
        (ty = .b8 → kind = .allGather ∨ kind = .allToAll) →
        (∀ x ∈ ms, ∀ y ∈ ms, ∀ i j, i < bytes → j < bytes → pieceAt x.2.2 i = pieceAt y.2.2 j → x = y ∧ i = j) →
        let num (t : State) (ps : Ranges) (e : Nat) : Nat := ofBytes ((List.range es).map fun i => readByte t.mem (pieceAt ps (e * es + i)))
        let src (k e : Nat) : Nat := match ms.find? fun y => memberIndex comm y.1.2.die = k with
          | some y => num s1 y.2.1 e
          | none => 0
        Gives (.collStep id) s fun _ t =>
          (all t fun x y => y.status = some (BitVec.ofNat 32 (x.tries % 256 * 2 ^ 24))) ∧
          (∀ x ∈ ms, ∀ e, e < dstCount kind m c.n → DestIs kind op ty arr m c.n (memberIndex comm x.1.2.die) e src (num t x.2.2 e)) ∧
          (kind = .allReduce → ∀ x ∈ ms, ∀ y ∈ ms, ∀ e, e < c.n → num t x.2.2 e = num t y.2.2 e) ∧
          ∀ a, (∀ x ∈ ms, ∀ i, i < bytes → pieceAt x.2.2 i ≠ a) → readByte t.mem a = readByte s1.mem a)) ∧
    (openColl c = true → c.since ≠ none → c.erred = true → fails (.collTransferRetry id)) ∧
    (∀ s1 ms, openColl c = true → c.since ≠ none → c.erred = false → mapMembers (commM comm) cs s = (s1, .ok ms) → pathBroken s ms = true →
      fails (.collTransferRetry id)) ∧
    (∀ t0, openColl c = true → c.since = some t0 → t0 + Config.timeoutNs ≤ s.time → fails (.collTransferTimeout id)) ∧
    (∀ g w r o, mget s.groups c.gid = some g → c.status = some w → c.reg = some r → mget s.ops c.op = some o → o.discard = false →
      isColl c.ins = true → s.issue.gid ≠ c.gid → o.gid = c.gid → o.dests = [] → Gives (.collCompletionDelivery id) s fun s t =>
        PartDone s t c.op ∧ mget t.colls id = none ∧ t.mem = s.mem ∧
        (∀ r' l, l < 32 → vget (grp t c.gid) r' l = if r' = r ∧ inMask c.mask l = true then w else vget g r' l) ∧
        (w.toNat % 16 = 5 → (clsOf g o.cls).err = false → (clsOf (grp t c.gid) o.cls).err = true ∧
          (clsOf (grp t c.gid) o.cls).cause = BitVec.ofNat 8 (w.toNat / 256)))

/-- R237 to R242, R246, R247, R250, R254: a message of the synchronisation network at its node. ARRIVE counts, and the last one
goes up; the first SIGNAL in ANY mode goes up; JOIN, LEAVE and MOVE travel to the root, which answers with the phase after the
open one; JOINED, LEFT and MOVED change the weight below and reach the handle; DONE opens the next phase and goes down. -/
def Obligations.PhaserNetwork : Prop :=
  ∀ (s : State) (id : Nat) (m : PMsg) (p : Phaser) (n : PhNode), PhArrives s id m → mget s.phs m.obj = some p →
    mget p.nodes m.dst = some n →
      let node (t : State) := phNode (phaserOf t m.obj) m.dst
      let up (t : State) (j : Nat) (path : List Nat) (k : PKind) := PhSent t m.obj m.dst j path k
      let does (i : Instr) (P : State → Prop) : Prop := Gives i s fun s t => t.mem = s.mem ∧ P t
      (∀ q k, m.k = .arrive q k → p.any = false → p.members ≠ 0 →
        (n.a + k ≠ n.rn → does .arrive fun t => node t = { n with a := n.a + k }) ∧
        (∀ j, n.a + k = n.rn → 1 ≤ n.rn → n.sent = false → n.via = [] → parentOf p m.dst = some j →
          does .arrive fun t => node t = { n with a := n.a + k, sent := true } ∧ up t j [] (.arrive n.o n.rn))) ∧
      (∀ q rid, m.k = .signal q rid → p.members ≠ 0 →
        (n.x = true → does .phaserSignal fun t => t.phs = s.phs) ∧
        (∀ j, n.x = false → q = n.o → parentOf p m.dst = some j →
          does .phaserSignal fun t => node t = { n with x := true } ∧ up t j [] (.signal q rid))) ∧
      (∀ w rid, m.k = .join w rid →
        (∀ j, parentOf p m.dst = some j → does .join fun t => t.phs = s.phs ∧ up t j (m.dst :: m.path) (.join w rid)) ∧
        (∀ j rest, parentOf p m.dst = none → m.path = j :: rest → n.rn ≠ 0 →
          does .join fun t => node t = { n with rx := n.rx + w } ∧ up t j rest (.joined (n.o + 1) rid w))) ∧
      (∀ w rid, m.k = .leave w rid →
        (∀ j, parentOf p m.dst = some j → does .leave fun t => t.phs = s.phs ∧ up t j (m.dst :: m.path) (.leave w rid)) ∧
        (∀ j rest, parentOf p m.dst = none → m.path = j :: rest →
          does .leave fun t => node t = { n with rx := n.rx - w } ∧ up t j rest (.left (n.o + 1) rid w))) ∧
      (∀ w old rid, m.k = .move w old rid →
        (∀ j, parentOf p m.dst = some j → does .move fun t => t.phs = s.phs ∧ up t j (m.dst :: m.path) (.move w old rid)) ∧
        (∀ j rest, parentOf p m.dst = none → m.path = j :: rest →
          does .move fun t => t.phs = s.phs ∧ up t j rest (.moved (n.o + 1) rid w false))) ∧
      (∀ f rid w, m.k = .joined f rid w →
        (∀ j rest, m.path = j :: rest → does .joined fun t => node t = { n with rx := n.rx + w } ∧ up t j rest (.joined f rid w)) ∧
        (∀ gid h g, m.path = [] → m.dst < 576 → queueOfRid s rid = none → handleGroup s m.obj rid .joining = some (gid, h) →
          mget s.groups gid = some g → does .joined fun t => node t = { n with rx := n.rx + w } ∧
            (hget (grp t gid) h) = { hget g h with st := .bound, s := f })) ∧
      (∀ g0 rid w, m.k = .left g0 rid w →
        (∀ j rest, m.path = j :: rest → does .left fun t => node t = { n with rx := n.rx - w } ∧ up t j rest (.left g0 rid w)) ∧
        (∀ gid h g, m.path = [] → m.dst < 576 → queueOfRid s rid = none → handleGroup s m.obj rid .leaving = some (gid, h) →
          mget s.groups gid = some g → does .left fun t => hget (grp t gid) h = {})) ∧
      (∀ g0 rid w minus j rest, m.k = .moved g0 rid w minus → m.path = j :: rest →
        does .moved fun t => node t = { n with rx := if minus then n.rx - w else n.rx + w } ∧ up t j rest (.moved g0 rid w minus)) ∧
      (∀ q f, m.k = .done q f → p.any = false → n.via = [] → n.held = [] → n.leaving = [] →
        (isLeaf m.dst = false → does .done fun t =>
          node t = { n with o := q + 1, rn := n.rx, a := 0, e := 0, x := false, sent := false, f := f } ∧
          ∀ j ∈ childrenOf p m.dst, up t j [] (.done q f)) ∧
        (∀ gid g h q0, m.dst < 576 → 2 ^ 31 ≤ (n.o - 1 - q).toNat → n.e ≠ n.rx → rising none s.groups = true → mget s.groups gid = some g → g.core = m.dst →
          g.status = .waiting (.phase h q0) → (hget g h).id.toNat % 2 ^ 20 = m.obj → (q - q0).toNat < 2 ^ 31 →
          does .done fun t => node t = { n with o := q + 1, rn := n.rx, a := n.e, e := 0, x := false, sent := false, f := f } ∧
            (grp t gid).status = .ready))

/-- R255, R361 to R363, R368: a flit or frame at its receiver. A data unit in sequence is accepted and acknowledged, one that
fails its check is discarded and answered with NAK; ACK frees the sender's buffer, NAK has it resend; IDLE frees nothing;
NEW and FREE act at the pod switch, which answers; a frame for an object that has no proxy here is dropped and counted. -/
def Obligations.UnitsAtTheReceiver : Prop :=
  ∀ (s : State) (l : Nat) (f : BitVec 512) (w : BitVec 128),
    let x := link s l
    let y := link s (opposite l)
    let wide := w.zeroExtend 512
    let frees (i : Instr) (u : BitVec 512) : Prop := ∀ pre post r, y.replay = pre ++ (unitAck l u, r) :: post →
      (∀ e ∈ pre, e.1 ≠ unitAck l u) → Gives i s fun s t => (link t (opposite l)).replay = post ∧ (link t (opposite l)).tries = 0 ∧
        (link t (opposite l)).since = s.time ∧ t.mem = s.mem
    let resends (i : Instr) (u : BitVec 512) : Prop := ∀ pre post r, y.replay = pre ++ (unitAck l u, r) :: post →
      (∀ e ∈ pre, e.1 ≠ unitAck l u) → unitAck l u ≠ y.seq → y.st = .normal → Gives i s fun s t =>
        (link t (opposite l)).replay = (unitAck l u, r) :: post ∧ (link t (opposite l)).resend = unitAck l u :: post.map (·.1) ∧
        (link t (opposite l)).st = .replay ∧ (link t (opposite l)).tries = (if pre.isEmpty then y.tries + 1 else 1) ∧ t.mem = s.mem
    let control (k : UnitKind) (u : BitVec 512) := unitKind l u = k ∧ unitOk l u controlSeed = true
    linkRuns x = true →
      (isUplink l = false → s.arriving = .flit l f →
        (control .ack f → frees .ackFlit f) ∧ (control .nak f → resends .nakFlit f) ∧
        (control .idle f → Gives .idleFlit s fun s t => link t (opposite l) = y ∧ (link t l).expect = x.expect ∧ t.net = s.net ∧ t.mem = s.mem) ∧
        (unitKind l f = .data → unitOk l f (dataSeed x.expect) = true → Gives .dataFlit s fun s t =>
          (link t l).expect = x.expect + 1 ∧ (link t l).discard = false ∧
          controlUnit (opposite l) false x.expect ∈ (link t (opposite l)).replies ∧ t.mem = s.mem) ∧
        (unitKind l f = .data → unitOk l f (dataSeed x.expect) = false → x.discard = false → Gives .dataFlit s fun s t =>
          (link t l).expect = x.expect ∧ (link t l).discard = true ∧ (link t l).errors = x.errors + 1 ∧
          controlUnit (opposite l) true x.expect ∈ (link t (opposite l)).replies ∧ t.net = s.net ∧ t.mem = s.mem)) ∧
      (isUplink l = true → s.arriving = .frame l w →
        (control .ack wide → unitType l wide = 12 → frees .ackFrame wide) ∧ (control .nak wide → unitType l wide = 13 → resends .nakFrame wide) ∧
        (control .idle wide → unitType l wide = 11 → Gives .idleFrame s fun s t =>
          link t (opposite l) = y ∧ (link t l).expect = x.expect ∧ t.pnet = s.pnet ∧ t.mem = s.mem) ∧
        ∀ id m p, unitOk l wide (dataSeed x.expect) = true → s.pnet = [(id, m)] → m.onLink = true → frameLink m = some l →
          frameOf m / 2 ^ 4 = w.toNat / 2 ^ 16 % 2 ^ 112 / 2 ^ 4 → mget s.phs m.obj = some p →
          (∀ q y, m.k = .done q y → unitType l wide = 5 → m.dst ≠ podNode → p.here = false → Gives .done s fun s t =>
            (link t l).expect = x.expect + 1 ∧ (link t l).errors = x.errors + 1 ∧ t.phs = s.phs ∧ t.mem = s.mem) ∧
          (m.dst = podNode ∨ p.here = true → ∀ n, m.k = .newObj n → unitType l wide = 9 → Gives .newFrame s fun s t => (link t l).expect = x.expect + 1 ∧ t.mem = s.mem ∧
            phNode (phaserOf t m.obj) podNode = { rn := n, rx := n } ∧ PhSent t m.obj podNode m.src [] (.joined 1 0 0)) ∧
          (m.dst = podNode ∨ p.here = true → m.k = .freeObj → unitType l wide = 10 → (phNode p podNode).rx = 0 → Gives .freeFrame s fun s t =>
            (link t l).expect = x.expect + 1 ∧ t.mem = s.mem ∧
            mget (phaserOf t m.obj).nodes podNode = none ∧ PhSent t m.obj podNode pkgNode [] (.left 0 0 0)))

/-- R362, R363, R365, R383, R384: a sender. A new flit carries the next sequence number in its check and stays in the buffer; a
timeout resends all; a discarding receiver repeats NAK; 16 replays without progress retrain the module in both directions, and
what failed in both halves is disabled, its undelivered flits going to the next enabled module. That both directions of a module
retrain and are disabled together is assumption 59, and which flits count as undelivered, and that they follow those already handed
over, is assumption 58. -/
def Obligations.LinkSenders : Prop :=
  ∀ (s : State) (l : Nat) (low high : Bool),
    let x := link s l
    let o := opposite l
    let from_ (k : Link) (e : BitVec 12) := if e = k.seq then [] else k.replay.dropWhile fun r => r.1 != e
    (linkRuns x = true → ∀ q rest, x.resend = q :: rest → Gives (.dataFlitSend l) s fun s t => t.mem = s.mem ∧ t.net = s.net ∧
      link t l = { x with resend := rest, st := if rest = [] then .normal else .replay }) ∧
    (linkRuns x = true → x.resend = [] → x.replay.length < Config.replayBuffer → isUplink l = false →
      (x.moved = [] ∧ x.txq ≠ [] ∨ ∃ p rest, x.moved = p :: rest ∧ p.2.length ≤ 59) →
      Gives (.dataFlitSend l) s fun s t => t.mem = s.mem ∧ (link t l).seq = x.seq + 1 ∧ ∃ f, (link t l).replay = x.replay ++ [(x.seq, f)] ∧
        unitKind l f = .data ∧ unitOk l f (dataSeed x.seq) = true) ∧
    (linkRuns x = true → x.since + 1000 ≤ s.time → ∀ r rest, x.replay = r :: rest → r.1 ≠ x.seq → Gives (.replayTimeout l) s fun s t =>
      t.mem = s.mem ∧ link t l = { x with resend := x.replay.map (·.1), tries := x.tries + 1, since := s.time, st := .replay }) ∧
    (linkRuns x = true → x.discard = true → Gives (.nakRepeat l) s fun s t =>
      t.mem = s.mem ∧ controlUnit o true x.expect ∈ (link t o).replies ∧ link t l = x) ∧
    (linkRuns x = true → Config.replayLimit ≤ x.tries → Gives (.moduleRetrain l low high) s fun s t => t.mem = s.mem ∧ t.net = s.net ∧
      link t l = { x with st := .retraining, half := x.half || low != high, failed := low && high } ∧
      link t o = { link s o with st := .retraining, half := (link s o).half || low != high, failed := low && high }) ∧
    (x.st = .retraining → x.failed = false → Gives (.retrainComplete l) s fun s t => t.mem = s.mem ∧ t.net = s.net ∧
      (link t l).resend = (from_ x x.expect).map (·.1) ∧ (link t l).tries = 0 ∧ (link t l).st ≠ .retraining ∧ (link t o).st ≠ .retraining) ∧
    (x.st = .retraining → x.failed = true → Gives (.retrainComplete l) s fun s t => t.mem = s.mem ∧
      (link t l).st = .disabled ∧ (link t o).st = .disabled ∧ (link t l).replay = [] ∧
      ∀ n, l < 7296 → enabledFrom s (l / 192) (l / 96 % 2) (l % 96 + 1) = some n → n ≠ l % 96 →
        let k := moduleKey (l / 192) (l / 96 % 2) n
        (link t k).moved = (link s k).moved ++ undelivered s l)
/-! ## Queues -/

/-- R246, R247, R249, R250, R324, R325: a packet of each kind that comes up for execution and meets nothing in its way has its effect, and
READ advances past it; one that waits leaves READ; an illegal one sets ERR and ERRSTAT. The mark of a WRITE-SIGNAL's performed write, or
of a join that has been sent, is the packet's header: a packet with another header performs its own write. PHASER waits, joins, signals
and leaves with the queue's handle, from the leaf of its front end's die, which is assumption 15, as are the packing of HSTATE and the
refusal of an object that does not admit it. That a packet's write is performed at once, and that WRITE-SIGNAL translates its two
addresses step by step, is assumption 56. -/
def Obligations.QueuePackets : Prop :=
  (∀ (s t : State) (p q b i slot id : Nat) (m : MQueue) (x : BitVec 512), QueueAt t p q b → i < 2 ^ 64 → findQueue s p q = some (id, slot, m) →
    queueRuns s p q m = true → takePacket s (feDie id) p q m = (t, .ok i x) → badPacket x = true →
    ∀ e ∈ [Instr.launch p q, .write p q, .signal p q, .wait p q, .writeSignal p q, .phaser p q, .timestamp p q, .fencePacket p q],
      Gives e s fun _ u => bit (qFlags u p q) 1 = true ∧ qField u p q 0x38 8 = i % 2 ^ 32 * 2 ^ 32 + 0x48 ∧ qRead u p q = qRead t p q) ∧
  ∀ (s t t1 : State) (p q b i : Nat) (x : BitVec 512) (ps : Ranges), QueueAt t1 p q b → i < 2 ^ 64 → PacketUp s t p q i x →
    let begun : Prop := (findQueue s p q).bind (·.2.2.half) = some (pktHeader x)
    let d := feDie (((findQueue s p q).map (·.1)).getD 0)
    let ctx := qCtx t p q
    let f (o : Nat) : Nat := pktField x o
    let passes (e : Instr) (P : State → Prop) : Prop := Gives e s fun _ u => qRead u p q = (i + 1) % 2 ^ 64 ∧ P u
    let at8 (write : Bool) : Prop := mapRange d p ctx write 3 (f 0x08) 0 8 t = (t1, .ok ps) ∧ PiecesApart ps b
    let good : Prop := ∀ j, j < 8 → t1.memBad.contains (pieceAt ps j / 4) = false
    (∀ gid h, pktKind x = 1 → dispatch t d p ctx (f 0x08) (f 0x18) (some (q, i, f 0x10))
        (fun s r va => qWait s p q va r false) = .ok t1 gid h → passes (.launch p q) fun u => u.grids = t1.grids) ∧
    (∀ off, pktKind x = 1 → dispatch t d p ctx (f 0x08) (f 0x18) (some (q, i, f 0x10))
        (fun s r va => qWait s p q va r false) = .bad t1 off → passes (.launch p q) fun u => ∃ gid g, mget u.grids gid = some g ∧
          g.ending = .refused off ∧ g.isOver = true ∧ g.launch = some (q, i, f 0x10)) ∧
    (pktKind x = 2 → at8 true → passes (.write p q) fun u => piecesNum u ps = f 0x10) ∧
    (pktKind x = 3 → at8 true → good → passes (.signal p q) fun u => piecesNum u ps = (piecesNum t1 ps + f 0x10) % 2 ^ 64) ∧
    (pktKind x = 4 → at8 false → f 0x10 ≤ piecesNum t1 ps → passes (.wait p q) fun _ => True) ∧
    (pktKind x = 4 → at8 false → piecesNum t1 ps < f 0x10 → Gives (.wait p q) s fun _ u => qRead u p q = qRead t1 p q ∧
      bit (qFlags u p q) 4 = true ∧ qField u p q 0x20 8 = f 0x08 ∧ qField u p q 0x28 8 = f 0x10) ∧
    (∀ t2 ps2, ¬begun → pktKind x = 5 → at8 true → PiecesApart ps2 b → QueueAt t2 p q b → (∀ j, j < 8 → t2.memBad.contains (pieceAt ps2 j / 4) = false) →
      (∀ j k, j < 8 → k < 8 → pieceAt ps j ≠ pieceAt ps2 k) →
      mapRange d p (qCtx (modQueue (piecesWrite t1 ps 8 (f 0x10)) p q fun m => { m with half := some (pktHeader x) }) p q) true 3 (f 0x18) 0 8
        (modQueue (piecesWrite t1 ps 8 (f 0x10)) p q fun m => { m with half := some (pktHeader x) }) = (t2, .ok ps2) →
      passes (.writeSignal p q) fun u => piecesNum u ps2 = (piecesNum t2 ps2 + f 0x20) % 2 ^ 64 ∧
        (t2.mem = (piecesWrite t1 ps 8 (f 0x10)).mem → piecesNum u ps = f 0x10)) ∧
    (begun → pktKind x = 5 → mapRange d p ctx true 3 (f 0x18) 0 8 t = (t1, .ok ps) → PiecesApart ps b → good →
      passes (.writeSignal p q) fun u => piecesNum u ps = (piecesNum t1 ps + f 0x20) % 2 ^ 64 ∧
        ∀ a, (∀ j, j < 8 → a ≠ pieceAt ps j) → (a < b ∨ b + 64 ≤ a) → readByte u.mem a = readByte t1.mem a) ∧
    (pktKind x = 6 → t = t1 →
      let h := queueHandle t p q
      let o := phaserOf t h.obj
      let e := phaserDie t p o
      let leaf := feLeaf e
      let n := phNode o leaf
      let met : Prop := phaseDone (nodeC n) (BitVec.ofNat 32 (f 0x18)) = true
      let bound (op : Nat) : Prop := h.st = .bound ∧ f 0x10 = op ∧ (mget t.phs h.obj).isSome
      let direct : Prop := n.via = []
      let arrives (u : State) : Prop := PhSent u h.obj leaf (dieNode e) [] (.arrive n.o n.rn)
      (bound 0 → met → passes (.phaser p q) fun u => u.phs = s.phs ∧ u.pnet = s.pnet) ∧
      (bound 0 → ¬met → exec (.phaser p q) s = .next t) ∧
      (bound 2 → o.any = false → direct → h.s = n.o → passes (.phaser p q) fun u => (queueHandle u p q).s = h.s + 1 ∧
        (phNode (phaserOf u h.obj) leaf).a = n.a + 1 ∧ (n.a + 1 ≠ n.rn → u.pnet = t.pnet) ∧
        (n.a + 1 = n.rn → n.sent = false → arrives u)) ∧
      (bound 2 → o.any = false → h.s = n.o + 1 → passes (.phaser p q) fun u => (queueHandle u p q).s = h.s + 1 ∧
        (phNode (phaserOf u h.obj) leaf).e = n.e + 1 ∧ u.pnet = t.pnet) ∧
      (bound 2 → o.any = true → h.s = n.o → n.x = false → passes (.phaser p q) fun u => (queueHandle u p q).s = h.s + 1 ∧
        PhSent u h.obj leaf (dieNode e) [] (.signal n.o (queueRid t e q))) ∧
      (bound 2 → h.s ≠ n.o → h.s ≠ n.o + 1 → phaseDone (h.s - 2) n.o = true → exec (.phaser p q) s = .next t) ∧
      (bound 3 → passes (.phaser p q) fun u => (queueHandle u p q).st = .leaving ∧
        PhSent u h.obj leaf (dieNode e) [leaf] (.leave (if h.signals = true then 1 else 0) (queueRid t e q)) ∧
        (o.any = false → direct → h.signals = true → h.s = n.o → n.a + 1 = n.rn → n.sent = false → arrives u)) ∧
      (h.st ≠ .bound → f 0x10 ≠ 1 → exec (.phaser p q) s = .next (qError t p q i 0x48)) ∧
      (f 0x10 = 1 →
        (∀ j y, j = f 0x08 % 2 ^ 20 → h.st = .unbound → mget t.phs j = some y → y.here = true → y.marked = false → y.part = p →
          y.ctx = qCtx t p q →
          let d := phaserDie t p y
          y.scope = 2 ∨ (y.scope = 3 ∧ t.pod = true) ∨ (y.scope = 1 ∧ (y.bound = none ∨ y.bound = some d)) →
          Gives (.phaser p q) s fun _ u => qRead u p q = qRead t p q ∧ (findQueue u p q).bind (·.2.2.half) = some (pktHeader x) ∧
            PhSent u j (feLeaf d) (dieNode d) [feLeaf d] (.join 1 (queueRid t d q)) ∧ (phaserOf u j).members = y.members + 1 ∧
            let k := queueHandle u p q
            k.st = .joining ∧ k.signals = true ∧ k.waits = true ∧ k.obj = j) ∧
        (h.st = .unbound → mget t.phs (f 0x08 % 2 ^ 20) = none → exec (.phaser p q) s = .next (qError t p q i 0x48)) ∧
        (h.st = .joining → exec (.phaser p q) s = .next t) ∧
        (h.st = .bound → begun → passes (.phaser p q) fun u => u.phs = s.phs ∧ u.pnet = s.pnet) ∧
        (h.st = .bound → ¬begun → exec (.phaser p q) s = .next (qError t p q i 0x48)))) ∧
    (pktKind x = 7 → at8 true → passes (.timestamp p q) fun u => piecesNum u ps = s.time % 2 ^ 64) ∧
    (pktKind x = 8 → t = t1 → (∀ g ∈ s.grids, g.2.part = p → g.2.launch.map (·.1) ≠ some q) →
      passes (.fencePacket p q) fun u => u.grids = s.grids)

/-- R321, R323, R324, R335, R336, R369: fetching ahead, enabling, mapping, unmapping and waking a queue; the descriptor of a mapped queue
is checked too when EN is set, that a queue whose EN is cleared stays mapped being assumption 113. -/
def Obligations.QueueControl : Prop :=
  ∀ (s : State) (p q b : Nat) (v : DWord), QueueAt s p q b →
    let f := qFlags s p q
    let free := freeSlots s p
    let maps (e : Instr) : Prop := Gives e s fun s u => ∃ slot, slot ∈ free ∧
      mget (fe u slot.1).slots slot.2 = some { part := p, q := q } ∧ bit (qFlags u p q) 3 = true ∧ bit (qFlags u p q) 2 = false ∧
      qRead u p q = qRead s p q
    let ready : Prop := s.locked = true ∧ bit f 0 = true ∧ bit f 1 = false ∧ findQueue s p q = none ∧ descriptorOk s p q = true ∧ free ≠ []
    (ready → maps (.queueEnable p q) ∧ maps (.wakeRegister p q) ∧
      ((bit f 2 = true ∨ (bit f 4 = false ∧ qRead s p q ≠ qWrite s p q)) → maps (.queueRemap p q)) ∧
      (bit f 4 = true → waitMet s p q = true → maps (.queueRepoll p q))) ∧
    Gives (.doorbell p q v) s (fun _ u => qWrite u p q = v.toNat) ∧
    (∀ id slot m, findQueue s p q = some (id, slot, m) →
      (∀ t i x, queueRuns s p q m = true → m.pre = [] → i = qRead s p q → i < qWrite s p q → readPacket s (feDie id) p q i = (t, .ok i x) →
        Gives (.packetFetch p q) s fun _ u => findQueue u p q = some (id, slot, { m with pre := [(i, x)] })) ∧
      ((∀ e ∈ s.fes, e.2.wait = none) → Gives (.wakeRegister p q) s fun _ u =>
        findQueue u p q = some (id, slot, { m with wakeSeen := true, waiting := m.waiting && !bit f 4 }) ∧ u.mem = s.mem) ∧
      (s.locked = true → bit f 0 = true → bit f 1 = false → descriptorOk s p q = false → Gives (.queueEnable p q) s fun _ u =>
        bit (qFlags u p q) 1 = true ∧ qField u p q 0x38 8 = qRead s p q % 2 ^ 32 * 2 ^ 32 + 0x49 ∧ qRead u p q = qRead s p q) ∧
      (descriptorOk s p q = true → exec (.queueEnable p q) s = .next s) ∧
      (tooManyQueues s p = false → exec (.queueUnmap p q) s = .next s) ∧
      (tooManyQueues s p = true → m.half = none → m.wakeSeen = false → bit f 4 = false → qRead s p q = qWrite s p q →
        Gives (.queueUnmap p q) s fun s u => mget (fe u id).slots slot = none ∧ bit (qFlags u p q) 3 = false ∧
          qRead u p q = qRead s p q) ∧
      (∀ t t1 i x ps, m.waiting = true → bit f 4 = true → i < 2 ^ 64 →
        PacketUp (modQueue s p q fun m => { m with waiting := false }) t p q i x → pktKind x = 4 → QueueAt t1 p q b →
        mapRange (feDie id) p (qCtx t p q) false 3 (pktField x 0x08) 0 8 t = (t1, .ok ps) → pktField x 0x10 ≤ piecesNum t1 ps →
        Gives (.waitSatisfied p q) s fun _ u => qRead u p q = (i + 1) % 2 ^ 64 ∧ bit (qFlags u p q) 4 = false))

/-! ## Grids, tenants and the package -/

/-- R24, R26, R34 to R37, R41, R42, R44, R84, R176, R179, R325, R344, R353: claims, starts and steals of teams, gather timers, relaunches,
the end of a grid, its status, and the records of the logs, for gangs of every size. A team starts when the lines of its ways have
left, its gang's with it. That a steal places its gang and starts it at once is assumption 54, and that a line's set is its
number modulo 512 is assumption 76. -/
def Obligations.GridEvents : Prop :=
  ∀ (s : State) (gid d : Nat) (gr : Grid), mget s.grids gid = some gr →
    let started (u : State) (first : Nat) (b : Bool) : Prop := ∃ x ∈ u.teams, x.2.grid = gid ∧ x.2.index = first ∧
      dieOf x.2.core = d ∧ x.2.node = none ∧ x.2.started = b
    (startable s gid = true → (part s gr.part).dies.getLsbD d = true → mget gr.chunks d = none → gr.nodes = [] → 0 < gr.gang →
      gr.gang ≤ min 8 (gridSize gr - gr.cursor) → gangPlaces s gid d 0 ≠ [] → Gives (.distributorClaim d gid) s fun s u =>
        ∃ n, 0 < n ∧ n * gr.gang ≤ min 8 (gridSize gr - gr.cursor) ∧ u.teams = s.teams ∧ u.mem = s.mem ∧
          grid u gid = { gr with chunks := mput gr.chunks d ((List.range (n * gr.gang)).map (gr.cursor + ·)), cursor := gr.cursor + n * gr.gang }) ∧
    (∀ first u, ensureReserve s gid = some s → startable s gid = true → nextGang s gid d = some first →
      mayStart s gid (first / gr.gang) false = true → gr.gang ≤ 4 → tryPlace s gid d first = some u →
      Gives (.teamStartAttempt d gid) s fun _ t => (∀ m, m < gr.gang → started t (first + m) false) ∧ ∀ c ∈ (grid t gid).chunks, first ∉ c.2) ∧
    (rising none s.teams = true → (∀ c, rising none (core s c).l1 = true) →
      let mine (x : Nat × Team) : Prop := x ∈ s.teams ∧ x.2.grid = gid ∧ dieOf x.2.core = d ∧ x.2.started = false
      let lines (x : Nat × Team) (l : Nat × L1Line) : Prop := (∃ w ∈ lineWays l.2, w ∈ x.2.ways) ∧ x.2.swept ≤ l.1 % 512
      (∀ x ∈ s.teams, x.2.grid = gid → x.2.swept < 512 → dieOf x.2.core = d ∧ x.2.started = false ∧
        ∀ l ∈ (core s x.2.core).l1, lines x l → fillComing s x.2.core l.1 = false) →
      Gives (.teamStart d gid) s fun s u => u.mem = s.mem ∧ (∀ x ∈ u.teams, x.2.grid = gid → dieOf x.2.core = d → x.2.started = true) ∧
        (∀ x, mine x → ∀ l ∈ (core u x.2.core).l1, ¬lines x l) ∧
        ∀ x, mine x → ∀ k ∈ x.2.groups, ∀ g, mget s.groups k = some g →
          g.status = .starting → (grp u k).status = .ready ∧ (grp u k).since = s.cycle) ∧
    (∀ x ∈ s.teams, rising none s.teams = true → x.2.grid = gid → dieOf x.2.core = d → x.2.started = false → x.2.swept = 0 →
      (∃ l ∈ (core s x.2.core).l1, (∃ w ∈ lineWays l.2, w ∈ x.2.ways) ∧ l.1 % 512 = 0 ∧ fillComing s x.2.core l.1 = true) →
      Gives (.teamStart d gid) s fun _ u => (∃ y ∈ u.teams, y.1 = x.1 ∧ y.2.started = false)) ∧
    (∀ e f u, ensureReserve s gid = some s → startable s gid = true → gridSize gr ≤ gr.cursor → 0 < gr.gang → gr.gang ≤ 4 → f % gr.gang = 0 →
      gr.chunks = [(e, (List.range gr.gang).map (f + ·))] → e ≠ d → (part s gr.part).dies.getLsbD d = true → gr.scratch < 65536 →
      gangHere s gid (f / gr.gang) = false → mayStart s gid (f / gr.gang) false = true → tryPlace s gid d f = some u → rising none u.teams = true →
      Gives (.teamSteal d gid) s fun _ t => (∀ m, m < gr.gang → started t (f + m) true) ∧ (grid t gid).chunks = []) ∧
    (∀ node b n c i res, bufferOf s d gid node = some b → b.recs ≠ [] → b.recs.length ≤ 32 → (∃ l, b.lapse = some l ∧ l ≤ s.time) →
      placeReserve s gid d = some s → mget gr.nodes node = some n → nodePlaces s gid d n = [(c, i, res)] → startable s gid = true →
      n.ways = 0 ∨ (core s c).l1 = [] →
      Gives (.gatherTimerLapse gid d node) s fun s t => bufferOf t d gid node = none ∧ ∃ x ∈ t.groups,
        x.2.status = .ready ∧ x.2.core = c ∧ x.2.slot = i ∧ x.2.pc = ⟨n.entry, 0⟩ ∧ x.2.regs = n.regs ∧ x.2.since = s.cycle ∧
        (∀ l, l < 32 → isActive x.2 l = decide (l < b.recs.length)) ∧
        ∀ l ws, b.recs[l]? = some ws → ∀ k w, ws[k]? = some w → vget x.2 k l = w) ∧
    (∀ k r u, mget gr.recs k = some r → r.draining = true → gangHere s gid k = false → savedGang s gid k = false →
      ensureReserve s gid = some s → startable s gid = true → gr.gang ≤ 4 →
      mayStart s gid k true = true → (partDies (part s gr.part)).findSome? (fun e => tryPlace s gid e (k * gr.gang)) = some u →
      Gives (.gangRelaunch gid k) s fun _ t => mget (grid t gid).recs k = some { r with draining := false } ∧
        ∀ m, m < gr.gang → ∃ x ∈ t.teams, x.2.grid = gid ∧ x.2.index = k * gr.gang + m ∧ x.2.started = false) ∧
    (gridDone s gid gr = true → Gives (.gridComplete gid) s fun s t => t.mem = s.mem ∧ (grid t gid).isOver = true ∧
      (grid t gid).reserve = [] ∧ (grid t gid).ending = gr.ending) ∧
    (∀ q i va t ps, gr.isOver = true → gr.logHeld = false → gr.wbacks.all (performed s) = true → gr.launch = some (q, i, va) → va ≠ 0 →
      mapRange (queueDie s gr.part q) gr.part gr.ctx true 2 va 0 4 s = (t, .ok ps) →
      (∀ j k, j < k → k < 4 → pieceAt ps j ≠ pieceAt ps k) → Gives (.launchStatusWrite gid) s fun _ u =>
        let status : Nat := ofBytes ((List.range 4).map fun j => readByte u.mem (pieceAt ps j))
        mget u.grids gid = none ∧ (gr.ending = .running → status = 0) ∧
        (∀ off, gr.ending = .refused off → off < 2 ^ 16 → status = 1 + off * 2 ^ 16) ∧
        (∀ c, gr.ending = .aborting c → status = (if c = 0x1E ∨ c = 0x43 ∨ c = 0x44 then 2 else 3) + c.toNat * 2 ^ 8)) ∧
    (∀ p r rest a, (mget s.parts p).isSome →
      ((part s p).fheld = r :: rest → logFull (part s p).fw (part s p).fr (part s p).flog = false →
        resolve s (logAddr (part s p).fw (part s p).flog) = some a → Gives (.logRecordWrite p false) s fun s t =>
          readNum t.mem a 64 = r.1.toNat ∧ (part t p).fw = (part s p).fw + 1 ∧ (part t p).fheld = rest ∧ t.msix = s.msix ++ [2 * p]) ∧
      ((part s p).eheld = r :: rest → logFull (part s p).ew (part s p).er (part s p).elog = false →
        resolve s (logAddr (part s p).ew (part s p).elog) = some a → Gives (.logRecordWrite p true) s fun s t =>
          readNum t.mem a 64 = r.1.toNat ∧ (part t p).ew = (part s p).ew + 1 ∧ (part t p).eheld = rest ∧ t.msix = s.msix))

/-- R30, R171, R229, R326, R328, R330, R332 to R334, R337 to R339, R369, R370, R388: slices, pre-emption, saves and restores with the
bytes of the save and gather areas, and invalidation. A core without teams that holds a context's dirty words is pre-empted with it
(assumption 93). What a save keeps beside its block, and a restore takes from State.saved, is assumption 60; several invalidations in
progress, and the one completion of an ATS invalidation after the drain of what was on its way to the host, are assumption 62; that INVAL
before Derlo's start changes nothing is assumption 66, and that a context lacks the cores that class-0 work takes from it until it has
them back is assumption 106. -/
def Obligations.TenantEvents : Prop :=
  ∀ (s : State) (p ctx c d : Nat) (v : DWord),
    let x := part s p
    let level := x.invarg.toNat / 2 ^ 9 % 8
    let n := x.invarg.toNat % 2 ^ 9 + 1
    (∀ next rest, roundOf s p = next :: rest → x.slice = none → Gives (.timeSliceExpire p) s fun s t => t.mem = s.mem ∧
      part t p = { x with slice := some next, sliceEnd := s.time + (ctxSched s p next / 4 % 64 + 1) * x.quantum * 1000 / 16,
                          lost := x.lost.filter (·.1 != next) }) ∧
    (∀ next old, x.slice = some old → x.sliceEnd ≤ s.time → halfSignal s p old = false → nextInRound s p (roundOf s p) x.slice = some next →
      old ≠ next → Gives (.timeSliceExpire p) s fun _ t => (part t p).slice = some next ∧
        (c ∈ coresOf s p old ∨ (c ∈ leftCores s p old ∧ coreCtxs s c = []) → (core t c).preempt = some (p, old)) ∧
        ∀ k y, mget s.grids k = some y → y.part = p → y.ctx = old → (∀ e, reserveBusy s k e = false) → (grid t k).reserve = []) ∧
    (halfSignal s p ctx = false → (coreCtxs s c).contains (p, ctx) = true → Gives (.preemptRequest p ctx [c]) s fun _ t =>
      (core t c).preempt = some (p, ctx) ∧ ctx ∈ (part t p).stopped ∧ t.groups = s.groups ∧
      (forClass0 s p ctx [c] = true → (ctx, c) ∈ (part t p).lost)) ∧
    ((core s c).preempt = some (p, ctx) → drained s c p ctx = true → (core s c).l1 = [] → coreBound s c = [] →
      unequalGroups s c = [] → (∃ k ∈ s.teams, k.2.core = c) → Gives (.coreStateSave c) s fun s t => (∀ g ∈ t.groups, g.2.core ≠ c) ∧
        (∀ k ∈ t.teams, k.2.core ≠ c) ∧ (core t c).preempt = none ∧
        ∃ y ∈ t.saved, y.part = p ∧ y.ctx = ctx ∧ ∃ z ∈ y.cores, z.core = c ∧ z.teams = s.teams.filter (fun k => k.2.core = c) ∧
          (∀ g ∈ coreGroups s c, ∃ g' ∈ z.groups, g'.1 = g.1 ∧ g'.2.pc = g.2.pc ∧ g'.2.v = g.2.v ∧ g'.2.k = g.2.k ∧ g'.2.c = g.2.c ∧
            g'.2.tiles = g.2.tiles ∧ g'.2.sg = g.2.sg) ∧
          let a := saveBase s p ctx c
          (BlockFits z → a < 2 ^ 52 → Installed a (2 ^ 22) → BlockHolds t.mem a z)) ∧
    (∀ y i id g, y.groups[i]? = some (id, g) → ∃ g', (loadBlock s p ctx y).groups[i]? = some (id, g') ∧
      let n (o k : Nat) : Nat := (devRead s (saveBase s p ctx y.core + o) k).getD 0
      let r := 0x20000 + 4096 * i
      let reg0 := ((y.groups.take i).map (·.2.regs)).sum
      g'.pc = ⟨n r 8 / 4 % 2 ^ 32, n r 8 % 4⟩ ∧ (∀ j, j < 64 → kget g' j = BitVec.ofNat 64 (n (r + 0x300 + 8 * j) 8)) ∧
      (∀ l, l < 32 → ctr g' l = BitVec.ofNat 8 (n (r + 0x008) 32 / 2 ^ (8 * l))) ∧
      g'.status8 = BitVec.ofNat 8 (n (r + 0x500) 8) ∧ g'.seed = BitVec.ofNat 64 (n (r + 0x508) 8) ∧ g'.sg = BitVec.ofNat 32 (n (r + 0x510) 8) ∧
      ∀ q l, q < g.regs → l < 32 → vget g' q l = BitVec.ofNat 32 (n (0x60000 + 128 * (reg0 + q) + 4 * l) 4)) ∧
    (∀ b gr, scheduled s p ctx = false → s.net = [] → s.ports = [] → (die s d).gather = [b] → mget s.grids b.grid = some gr → gr.part = p →
      gr.ctx = ctx → gr.isOver = false → gr.nodes ≠ [] → coresOf s p ctx = [] → x.dies.getLsbD d = true →
      savedOf s p ctx = { part := p, ctx := ctx } → Gives (.gatherBufferSave p ctx d) s fun _ t => (die t d).gather = [] ∧
        (∃ y ∈ t.saved, y.part = p ∧ y.ctx = ctx ∧ y.gather = [(d, [{ b with lapse := b.lapse.map (· - s.time) }])]) ∧
        let a := ctxField s p ctx 0x18 8 + 2 ^ 21 * dieIndex x d
        let left := ((b.lapse.map (· - s.time)).getD 0) / 1000
        ∀ n, s.grids = [(b.grid, gr)] → gr.nodes = [(b.node, n)] → b.node < 64 → b.recs.length ≤ 64 → (∀ r ∈ b.recs, r.length ≤ 64) →
          n.bytes < 2 ^ 16 → left < 2 ^ 32 → a < 2 ^ 52 → Installed a (2 ^ 21) →
          readNum t.mem (a + 2 ^ 20 + 64 * b.node) 64 = b.recs.length + n.bytes * 2 ^ 16 + left * 2 ^ 32 ∧
          ∀ k i ws w, b.recs[k]? = some ws → ws[i]? = some w → readNum t.mem (a + 2 ^ 14 * b.node + 256 * k + 4 * i) 4 = w.toNat) ∧
    (∀ b, scheduled s p ctx = true → s.saved = [{ part := p, ctx := ctx, gather := [(d, [b])] }] → b.recs ≠ [] → (die s d).gather = [] →
      Gives (.contextRestore p ctx) s fun s t => t.saved = [] ∧ (die t d).gather = [{ b with lapse := b.lapse.map (s.time + ·) }]) ∧
    (∀ y u, scheduled s p ctx = true → s.saved = [{ part := p, ctx := ctx, cores := [y] }] → rebuildReserves s p ctx = s →
      unitSplit s y = false → unitMay s p ctx [[y]] = true → (∀ o, unitOrder s [[y]] = some o → ∃ g ∈ s.grids, g.2.order = o) → placeUnit s p ctx [[loadBlock s p ctx y]] = some u → u.saved = s.saved →
      Gives (.contextRestore p ctx) s fun _ t => t.saved = [] ∧ t.groups = u.groups ∧ t.teams = u.teams) ∧
    (s.derlo = false → exec (.inval p v) s = .next s) ∧
    (s.derlo = true → level = 0 ∨ 5 ≤ level → Gives (.inval p v) s fun s t => t.msix = s.msix ++ [2 * p + 1] ∧ part t p = { x with refused := true } ∧
      t.mem = s.mem) ∧
    (s.derlo = true → 1 ≤ level → level ≤ 4 → Gives (.inval p v) s fun s t => t.mem = s.mem ∧ t.msix = s.msix ∧ (∃ w, (part t p).inval = x.inval ++ [w] ∧
      w.ctx = v.toNat / 2 ^ 52 ∧ w.count = n ∧ w.level = level ∧ w.values = x.invarg.toNat / 2 ^ 12 * 2 ^ 12 ∧ w.cores = holders s p) ∧
      ∀ k ∈ holders s p, OnItsWay t (holderHome k) (.inval p k)) ∧
    (∀ w rest, x.inval = w :: rest → w.cores = [] → w.drain.all (performed s) = true → w.flushed = true → w.ats = false → s.copies = [] →
      (∀ i, i < w.count → ∃ a, resolve s (w.values + 8 * i) = some a ∧ ∀ j, j < w.count → a + 8 ≤ w.entry + 8 * j ∨ w.entry + 8 * j + 8 ≤ a) →
      Gives (.invalidationDrainDone p) s fun s t => (part t p).inval = rest ∧ t.msix = s.msix ++ [2 * p + 1] ∧
        ∀ i a, i < w.count → resolve s (w.values + 8 * i) = some a → readNum t.mem (w.entry + 8 * i) 8 = readNum s.mem a 8) ∧
    (∀ pasid addr size, (∀ y ∈ s.parts, hasPasid s y.1 pasid = false) → Gives (.atsInvalidateRequest pasid addr size) s fun s t =>
      t.hostOut = s.hostOut ++ [s.nextId] ∧ t.mem = s.mem ∧ t.dies = s.dies) ∧
    (∀ pasid addr size, mget s.parts p = some x → hasPasid s p pasid = true → (partDies x).contains d = true →
      Gives (.atsInvalidateRequest pasid addr size) s fun s t => t.mem = s.mem ∧ t.hostOut = s.hostOut ∧
        (∀ e ∈ (die t d).tlb, e ∈ (die s d).tlb ∧ fromHost s p pasid addr size e = false) ∧
        ∀ rest, s.parts = (p, x) :: rest → ∃ w, (part t p).inval = x.inval ++ [w] ∧ w.ats = true ∧ w.drain = toHost s)

/-- R156, R329, R369, R380 to R382, R385: the host's registers, bring-up in its order, reports and the power governor. That a write to
an offset that R369 does not assign stops by unassignedRegister is assumption 30; that the registers cannot be written before Derlo's
start, and that a step of bring-up out of order changes nothing, is assumption 66; that a report is the measured registers, then free
bytes, is assumption 64. -/
def Obligations.HostAndPower : Prop :=
  ∀ (s : State) (p watts req off : Nat) (v : DWord) (ok : Bool),
    let m : BitVec 24 := v.truncate 24
    let put (o : Nat) (f : Part → Part) : Prop := s.derlo = true → p < 24 → exec (.registerWrite (0x1000 + 0x100 * p + o) v) s = .next (modPart s p f)
    exec (.powerOn ok) s = .next { s with verified := s.verified || ok } ∧
    (s.verified = true → exec .linkTrainingComplete s = .next { s with linksUp := true }) ∧
    (s.linksUp = true → exec .memoryTrainingComplete s = .next { s with memTrained := true }) ∧
    (s.memTrained = true → s.derlo = false → Gives .derloStart s fun s t => t.derlo = true ∧ t.mem = s.mem ∧
      ∀ i, i < 96 → fe t i = { fe s i with running := true }) ∧
    (s.derlo = true → exec .lockdown s = .next { s with locked := true }) ∧
    exec .clockRead s = .next { s with clockMin := s.clock } ∧
    (s.derlo = false → exec (.dies p v) s = .next s ∧ exec (.registerWrite off v) s = .next s) ∧
    (s.derlo = true → p < 24 → (m = 0 ∨ (isRectangle m = true ∧ ∀ y ∈ s.parts, y.1 ≠ p → y.2.dies &&& m = 0)) →
      exec (.dies p v) s = .next (modPart s p fun x => { x with dies := m })) ∧
    (m ≠ 0 → (isRectangle m = false ∨ ∃ y ∈ s.parts, y.1 ≠ p ∧ y.2.dies &&& m ≠ 0) → exec (.dies p v) s = .next s) ∧
    (s.derlo = true → s.locked = false → exec (.registerWrite 0x10 v) s = .next { s with ibaseNear := v >>> 30 <<< 30 }) ∧
    (s.derlo = true → s.locked = false → exec (.registerWrite 0x18 v) s = .next { s with ibaseFar := v >>> 30 <<< 30 }) ∧
    (s.derlo = true → s.locked = false → exec (.registerWrite 0x30 v) s = .next { s with atsbyp := m }) ∧
    (s.locked = true → ∀ o, o = 0x10 ∨ o = 0x18 ∨ o = 0x30 → exec (.registerWrite o v) s = .next s) ∧
    (∀ b, b < 38 → readOnlyOff (0x100 + 2 * b) = true ∧ ∃ w, hostRead s (0x100 + 2 * b) = some w ∧
      let ms := (List.range 96).map fun k => link s (moduleKey b 0 k)
      w.toNat % 2 ^ 16 = (ms.filter fun l => l.half && l.st != .disabled).length + 2 ^ 8 * (ms.filter fun l => l.st = .disabled).length) ∧
    (readOnlyOff off = true → exec (.registerWrite off v) s = .next s) ∧
    put 0x08 (fun x => { x with resv := m }) ∧ put 0x10 (fun x => { x with ctxtab := v }) ∧ put 0x18 (fun x => { x with qtab := v }) ∧
    put 0x20 (fun x => { x with flog := v }) ∧ put 0x28 (fun x => { x with elog := v }) ∧
    put 0x30 (fun x => { x with fr := (v >>> 32).truncate 32 }) ∧ put 0x38 (fun x => { x with er := (v >>> 32).truncate 32 }) ∧
    (10 ≤ v.toNat → v.toNat ≤ 10000 → put 0x40 fun x => { x with quantum := v.toNat }) ∧ put 0x50 (fun x => { x with invarg := v }) ∧
    (s.derlo = true → 0x1000 + 0x100 * 24 ≤ off → exec (.registerWrite off v) s = .fault .unassignedRegister) ∧
    (15000 < watts → Gives (.powerSample watts) s fun s t => t.power = watts ∧ t.clock = max 1000 (s.clock - 50) ∧
      t.clockMin = min s.clockMin t.clock ∧ t.coolSince = none ∧ t.mem = s.mem) ∧
    (∀ t0, watts < 14250 → s.coolSince = some t0 → t0 + 1000000 ≤ s.time → Gives (.powerSample watts) s fun s t =>
      t.power = watts ∧ t.clock = min 1900 (s.clock + 50) ∧ t.clockMin = s.clockMin ∧ t.mem = s.mem) ∧
    Gives (.spdmRequest req) s (fun s t => t.mem = s.mem ∧ ∃ sig, t.reports = s.reports ++ [(req, measured s ++ sig)])
/-! ## Words, the step and memory -/

/-- R45 to R71, R88, R321: words written out from the encodings of the manual decode to what they stand for, a literal word with
them where they take one. A sanity statement. -/
def Obligations.EncodedWords : Prop :=
  decode 0x08101080 0 = .ok (.iadd .none ⟨false, .v 4⟩ (.v 1) (.v 2)) ∧
  decode 0x0A1C3F42 0x3FC00000 = .ok (.fmul ⟨false, .v 7⟩ (.v 3) (.lit 0x3FC00000)) ∧
  decode 0x141C1083 0 = .ok (.ffma ⟨false, .v 7⟩ (.v 1) (.v 2) (.v 3)) ∧
  decode 0x04040005 0 = .ok (.kaddImm 1 5) ∧ decode 0x07054000 0 = .ok (.setixK 5) ∧
  decode 0x00280000 0 = .ok .exitL ∧
  decode 0x21062082 0 = .ok (.ld .b32 (.v 6) 1 (.v 2) 2) ∧
  decode 0x2A104143 0 = .ok (.atom .addN32 .dev .rlx 2 5 (.v 3)) ∧
  decode 0x320CB332 0x01000004 = .ok (.cpy (.k 2) (.k 3) 1 (some 2) 0x0100 4) ∧
  decode 0x34510923 0 = .ok (.phjoin 4 9 2 .both) ∧
  decode 0x36003C40 0x02004000 = .ok (.mmq 0 none 1 false .bf16 2 0x4000) ∧
  decode 0x381C4000 0x00007F00 = .ok (.tloadw (.k 1) 127 0) ∧
  decode 0x3A000A30 0x21000040 = .ok (.tourLd 0 10 12 1 true 0x40) ∧
  decode 0x3C1C8920 0x03000000 = .ok (.commqCreate 1 2 (.v 9) 3) ∧
  decodeRv 0x0005850B = .ok (.fetchr 10 11) ∧ decodeRv 0x00C5B50B = .ok (.disp 10 11 12)

/-- R45 to R71, R88, R321: reading what the encoder writes gives the instruction back, for every well-formed instruction that is
a word and every value of its operands; the chain bit is no part of it; and a word asks for a literal word where it has one. -/
def Obligations.DecodeOfEncode : Prop :=
  ∀ i : Instr, i.wf = true →
    (i.form = .group → ∀ c, c < 2 →
      decode (encodeWord i + c * 2 ^ 31) ((encodeLit i).getD 0).toNat = .ok i ∧ encodeWord i < 2 ^ 31 ∧
      takesLiteral (encodeWord i + c * 2 ^ 31) = (encodeLit i).isSome) ∧
    (i.form = .frontEnd → decodeRv (encodeWord i) = .ok i)

/-- R27, R45 to R48, R160, R321: a step runs the decoded instruction. Where a slot acts and its group's packet is translated to an
executable page, the word at the group's position, alone in its issue group, decodes with its literal to i and i runs on the fetched
state; what it answers is committed with the position that follows. A front-end core runs the Xcokihan instruction at its program
counter. An event runs with what arrives. Before the images verify, nothing but POWER_ON, a report and the passing of time happens
(R381). -/
def Obligations.StepRunsDecoded : Prop :=
  (∀ (s : State) (c j gid pa x : Nat) (st : Bool) (rest : List Act) (i : Instr),
    s.verified = true → s.agenda = .slot c j :: rest → (slotOf (core s c) j).holder = some gid → (grp s gid).stalled = false →
    let g := grp s gid
    let pkt := g.pc.pkt
    let w := g.pc.word
    let s1 : State := { s with agenda := rest, issue := { gid := gid, pos := g.pc, word := w, pre := g, cur := g } }
    let va := (gridOf s1 g).codeBase + 12 * pkt
    pkt < (gridOf s1 g).codeSize → va / 4096 = (va + 8) / 4096 →
    xlateGroup s1 g.core (partOf s1 g) (ctxOf s1 g) va false (heldFor s1 [va]) = .ok pa st → bit (codeLeaf s1 g va) 4 = true →
    let s2 := loadCoreTlb s1 g.core (ctxOf s1 g) va false
    (∀ k, k < 3 → poisoned s2 (pa + 4 * k) 4 = false) →
    let ws := [readNum s2.mem pa 4, readNum s2.mem (pa + 4) 4, readNum s2.mem (pa + 8) 4]
    let lit := word ws (w + 1)
    let next := if takesLiteral x then w + 2 else w + 1
    word ws w = x → bit x 31 = false → next ≤ 3 → onlyNops ws w = false → (w = 0 ∨ w ∈ starts ws 3 0) →
    decode x (if takesLiteral x then lit else 0) = .ok i →
    step s = match exec i { s2 with issue := { s2.issue with
        fetched := some ws, next := if next = 3 then ⟨pkt + 1, 0⟩ else ⟨pkt, next⟩, word := w, raw := BitVec.ofNat 32 x } } with
      | .next t => .next (finish t [⟨w, x, if takesLiteral x then some lit else none, i⟩] (afterGroup ws pkt next))
      | o => o) ∧
  (∀ (s : State) (id : Nat) (rest : List Act) (i : Instr), s.verified = true → s.agenda = .fe id :: rest → (fe s id).running = true →
    (fe s id).blocked = false → (fe s id).wait = none → decodeRv (feWord (fe s id)) = .ok i →
    step s = exec i { s with agenda := rest, feCur := id }) ∧
  (∀ (s t : State) (a : Arriving) (rest : List Act) (i : Instr), s.agenda = .event a i :: rest →
    (s.verified = true ∨ (∃ ok, i = .powerOn ok) ∨ ∃ q, i = .spdmRequest q) → exec i { s with agenda := rest, arriving := a } = .next t → step s = .next { t with arriving := .none }) ∧
  ∀ (s : State) (a : Act) (rest : List Act), s.verified = false → s.agenda = a :: rest → (∀ x ok, a ≠ .event x (.powerOn ok)) →
    (∀ x q, a ≠ .event x (.spdmRequest q)) → (∀ n, a ≠ .pass n) → step s = .next { s with agenda := rest }

/-- R27, R50, R163, R357: an issue group takes effect whole or not at all. Of several words, each tried on the state before the issue
group, the fault of the smallest stage, then of the lowest word, is the one raised, and a kill for a poisoned word that another of them
consumed stands beside it; with no fault a word that must wait holds the whole issue group, whose holding register keeps what each of
its words has read and the writes that a FENCE waits for - what another word would only have sent goes with its attempt -, and with
neither every word takes effect, one after another. That they do so in the order of the pipes U, V, M and X is assumption 20, that a word
that stalls is followed before one that parks, and a fault before either, is assumption 21, and that the holding register has one entry
for each word is assumption 11. -/
def Obligations.IssueGroups : Prop :=
  ∀ (ms : List Member) (s : State) (f : Member → State), 2 ≤ ms.length →
    (∀ m ∈ ms, runMember exec m s = .next (f m)) →
    ((∃ m ∈ ms, isFault (f m) = true) →
      ∃ m ∈ ms, isFault (f m) = true ∧ (∀ n ∈ ms, worse (f n) (f m) = false) ∧
        ∃ k, runGroup exec ms s = .next { f m with issue := { (f m).issue with kill := k } } ∧
          ((f m).issue.kill.isSome → k = (f m).issue.kill) ∧
          ((f m).issue.kill = none → (∀ j, k = some j → j.code = 0x42 ∧ ∃ n ∈ ms, (f n).issue.kill = some j) ∧
            (k = none → ∀ n ∈ ms, ∀ j, (f n).issue.kill = some j → j.code ≠ 0x42))) ∧
    ((∀ m ∈ ms, isFault (f m) = false) → (∃ m ∈ ms, (f m).issue.verdict = .stalled) →
      ∃ m ∈ ms, (f m).issue.verdict = .stalled ∧ ∃ hs, runGroup exec ms s = .next (modCur (f m) fun c => { c with hold := hs }) ∧
        (∀ h ∈ (f m).issue.cur.hold, h ∈ hs) ∧ (∀ h ∈ hs, h ∉ (f m).issue.cur.hold → h.stands = true ∧ ∃ n ∈ ms, h ∈ (f n).issue.cur.hold) ∧
        ∀ n ∈ ms, ∀ h ∈ (f n).issue.cur.hold, h.stands = true → ∃ k ∈ hs, k.word = h.word) ∧
    ((∀ m ∈ ms, isFault (f m) = false) → (∀ m ∈ ms, (f m).issue.verdict ≠ .stalled) → (∃ m ∈ ms, (f m).issue.verdict = .parked) →
      ∃ m ∈ ms, runGroup exec ms s = .next (f m) ∧ (f m).issue.verdict = .parked) ∧
    ((∀ m ∈ ms, (f m).issue.verdict = .done) → runGroup exec ms s = runMembers exec (byPipe ms) s)

/-- R287, R369: what the manual gives at reset. No partition has dies, contexts or queues; a slice is 250 µs; the clock is at
1,900 MHz; STATE, the bases, POWER, ATSBYP and REMOVED are 0; every tempo array has its cells disabled, its window at 32, its rows
unstaged and its outputs at NEVER. Memory, which the manual leaves open (assumption 1), is in its canonical form. -/
def Obligations.ResetState : Prop :=
  let s := State.reset
  MemInv s ∧ s.verified = false ∧ s.memTrained = false ∧ s.linksUp = false ∧ s.locked = false ∧ s.derlo = false ∧ s.ibaseNear = 0 ∧
  s.ibaseFar = 0 ∧ s.clock = 1900 ∧ s.power = 0 ∧ s.atsbyp = 0 ∧ s.removed = [] ∧
  (∀ p, (part s p).dies = 0 ∧ (part s p).resv = 0 ∧ (part s p).ctxtab = 0 ∧ (part s p).qtab = 0 ∧ (part s p).flog = 0 ∧
    (part s p).elog = 0 ∧ (part s p).fw = 0 ∧ (part s p).fr = 0 ∧ (part s p).ew = 0 ∧ (part s p).er = 0 ∧
    (part s p).quantum = 250 ∧ (part s p).invarg = 0 ∧ (part s p).refused = false) ∧
  ∀ c, (core s c).tempo.tw = 32 ∧ (core s c).tempo.mode = 0 ∧ (∀ i, cget 0 (core s c).tempo.cells i = 0) ∧
    (∀ j, cget 255 (core s c).tempo.out j = 255) ∧ ∀ i, mget (core s c).tempo.stage i = none

/-- Memory keeps its canonical form: from every state whose memory has it, every step that answers a next state leaves it so. -/
def Obligations.MemoryStaysCanonical : Prop :=
  ∀ s t : State, MemInv s → step s = .next t → MemInv t


/-- R27, R28, R31, R32, R96, R103, R116, R117, R169, R347, R348, R351, R353 to R355, R357: the end of an issue group, and the kill of
a gang. What took effect is committed at the target or the position that follows; SG is hashed over the words and events, from 0 after
a SIGCHK that matched, and restarts where R116 says; at trap level 1 it stays. An event of R28 or the 64th packet ends the run with
latches and collector empty. A stalled or parked issue group leaves its group there, a fault leaves it at the trap's entry. A kill
mark kills the gang: its groups stop, their results are discarded, its record is written, and it is to be relaunched, unless it was the
fourth kill, the grid is not relaunchable, the group is a node group's, or a memory-side word is consumed again: those abort the
grid. A second kill with one code and check on one core removes the core. That a kill during a drain is not counted again, and that
a kill after a removal counts as lasting on the new core, are assumptions 42 and 86; that EPC of a kill's records is the position of the
issue group, and ADDR of the codes that have no EINFO 0, is assumption 47. -/
def Obligations.CommitAndKill : Prop :=
  ∀ (s : State) (ms : List Member) (next : Pos) (gid : Nat) (g : Group) (x : Team) (gr : Grid) (code : Byte) (check : Nat) (mem : Bool),
    rising none s.groups = true → rising none s.teams = true →
    (let i := s.issue
     let go := i.target.getD next
     let n := i.cur.runPkts + (if go.pkt = i.pos.pkt ∧ i.target = none then 0 else 1)
     let hash (sg x : Word) : Word := ((sg ^^^ x) * 0x01000193#32).rotateLeft 13
     let words (m : Member) : List Word := match m.ins with
       | .sigchk _ | .bkpt _ => []
       | _ => BitVec.ofNat 32 m.raw :: (m.lit.map fun y => BitVec.ofNat 32 y).toList
     let sg := if i.pre.trap.lvl = true then i.cur.sg else if i.sgReset = true then 0
       else ((ms.map words).flatten ++ i.events).foldl hash (if i.sigOk = true then 0 else i.cur.sg)
     let c : Group := { i.cur with
       pc := go, sg := sg, runPkts := n, y := if i.noLatch = true then {} else i.cur.y, hold := [], heldWalks := [], walksOut := []
       stalled := false, woken := false }
     let ends : Prop := i.endRun = true ∨ 64 ≤ n
     let t := finish s ms next
     let drains : Prop := i.cur.status = .waiting .drain
     let ended (c : Group) : Prop :=
       (grp t i.gid).y = {} ∧ (grp t i.gid).runPkts = 0 ∧ (slotOf (core t c.core) c.slot).coll = none ∧ t.mem = s.mem ∧ t.issue = {} ∧
       (grp t i.gid).pc = c.pc ∧ (grp t i.gid).sg = c.sg ∧ (grp t i.gid).v = c.v ∧ (grp t i.gid).k = c.k ∧ (grp t i.gid).c = c.c ∧
       (grp t i.gid).status8 = c.status8 ∧ (grp t i.gid).trap = c.trap ∧ (grp t i.gid).status = c.status
     let killed (c : Group) : Prop := ∀ k, i.kill = some k →
       let u := killGang (setGrp s i.gid c) i.gid k.code k.check k.memSide
       t.grids = u.grids ∧ t.parts = u.parts ∧ t.ops = u.ops ∧ t.removed = u.removed ∧ t.mem = u.mem ∧
         ((grp u i.gid).status = .waiting .drain → (grp t i.gid).status = .waiting .drain)
     let parked : Group := { i.cur with
       status := if i.cur.woken = true then .ready else .parked, heldWalks := [], walksOut := [], woken := false }
     (i.verdict = .done → ¬drains → (¬ends → i.kill = none → t = { setGrp s i.gid c with issue := {} }) ∧
       (ends → i.kill = none → ended c) ∧ killed c) ∧
     (i.verdict = .done → drains → i.kill = none → ∀ o ∈ t.ops, o.2.gid = i.gid → o.2.discard = true ∧ o.2.batch.isSome) ∧
     (∀ st w, i.verdict = .faulted st w →
       ((gridOf s (grp s i.gid)).ending = .running → (i.kill = none → ended i.cur) ∧ killed i.cur) ∧
       ∀ e, (gridOf s (grp s i.gid)).ending = .aborting e → (mget s.groups i.gid).isSome → i.kill = none → ended (grp s i.gid)) ∧
     (i.verdict = .stalled → (i.kill = none → t = { setGrp s i.gid { i.cur with stalled := true } with issue := {} }) ∧
       killed { i.cur with stalled := true }) ∧
     (i.verdict = .parked → (i.kill = none → ended parked) ∧ killed parked)) ∧
    (mget s.groups gid = some g → mget s.teams g.team = some x → mget s.grids x.grid = some gr → gr.ending = .running →
      RecordFits s g x gr → check < 2 ^ 64 →
      let t := killGang s gid code check mem
      let n := x.index / gr.gang
      let last := (mget gr.recs n).getD {}
      let pos := if s.issue.gid = gid then s.issue.pos else g.pc
      let is (r : BitVec 512) (c : Byte) (cls : Nat) : Prop :=
        RecordIs s g x gr r c.toNat cls (4 * pos.pkt + pos.word) (if code = 0x42 then check else 0) 0
      let logged (P : List (BitVec 512) → Prop) : Prop :=
        ∃ rs, P rs ∧ (part t gr.part).eheld = (part s gr.part).eheld ++ rs.map fun r => (r, some x.grid)
      let aborted (c : Byte) : Prop := (grid t x.grid).ending = .aborting c ∧ (grid t x.grid).chunks = [] ∧ t.mem = s.mem
      let aborts (c : Byte) : Prop := aborted c ∧ logged fun rs => ∃ r, rs = [r] ∧ is r c 1
      let again : Prop := mem = true ∧ ∃ k, last.last = some (code, check, k, true)
      let lasting : Prop := ∃ k m, last.last = some (code, check, k, m) ∧ (k = g.core ∨ last.took = true)
      let lost (rs : List (BitVec 512)) : Prop :=
        ∃ a b, rs = [a, b] ∧ is a code 4 ∧ is b code 5 ∧ g.core ∈ t.removed
      let mine (k : Nat) : Prop := ∃ y ∈ s.teams, y.2.grid = x.grid ∧ y.2.node = none ∧ y.2.index / gr.gang = n ∧ k ∈ y.2.groups
      (x.node.isSome → aborts code) ∧ (x.node = none → last.draining = true → t = s) ∧
      (x.node = none → last.draining = false →
        (gr.relaunch = false → aborts code) ∧
        (gr.relaunch = true → (again → aborts 0x42) ∧ (¬again → 4 ≤ last.attempt → ¬lasting → aborts 0x46) ∧
          (¬again → 4 ≤ last.attempt → lasting → aborted 0x46 ∧ logged fun rs => ∃ ls r, rs = ls ++ [r] ∧ lost ls ∧ is r 0x46 1) ∧
          (¬again → last.attempt < 4 → ∃ r, is r code 2 ∧ t.mem = s.mem ∧ (∀ c, (core t c).l1 = (core s c).l1) ∧
            (¬lasting → t.removed = s.removed ∧ logged fun rs => rs = [r]) ∧
            (lasting → logged fun rs => ∃ ls, rs = r :: ls ∧ lost ls) ∧
            (grid t x.grid).ending = .running ∧
            (∃ took, (took = true ↔ lasting) ∧ mget (grid t x.grid).recs n = some { last with
              attempt := last.attempt + 1, last := some (code, check, g.core, mem), took := took, kills := last.kills ++ [r]
              draining := true }) ∧
            ∀ k h, mget s.groups k = some h →
              (mine k → h.status ≠ .ended → (grp t k).status = .waiting .drain ∧ (grp t k).v = h.v ∧ (grp t k).k = h.k ∧
                ∀ o ∈ t.ops, o.2.gid = k → o.2.discard = true) ∧
              (¬mine k → mget t.groups k = some h)))))
end

