-- ==== Sys2Proof/Laws/Links.lean ====
section
/-! SUPPORT. What a flit or frame that a sender makes reads as: its check, its type and its sequence number (R255, R361, R362). -/

namespace Sys2Proof.Machine

theorem ofBytes_lt (bs : List Byte) : ofBytes bs < 2 ^ (8 * bs.length) := by
  induction bs with
  | nil => simp [ofBytes]
  | cons b t ih =>
    have hb := b.isLt
    rw [List.length_cons, Nat.mul_add, Nat.pow_add]
    simp only [ofBytes]
    omega

theorem ofBytes_byte (bs : List Byte) (i : Nat) (h : i < bs.length) : ofBytes bs / 2 ^ (8 * i) % 256 = (bs[i]).toNat := by
  induction bs generalizing i with
  | nil => simp at h
  | cons b t ih =>
    have hb := b.isLt
    cases i with
    | zero => simp only [ofBytes, List.getElem_cons_zero, Nat.mul_zero, Nat.pow_zero, Nat.div_one]; omega
    | succ i =>
      have e : 2 ^ (8 * (i + 1)) = 256 * 2 ^ (8 * i) := by rw [Nat.mul_add, Nat.pow_add]; omega
      rw [e, ← Nat.div_div_eq_div_mul]
      have : ofBytes (b :: t) / 256 = ofBytes t := by simp only [ofBytes]; omega
      rw [this, List.getElem_cons_succ]
      exact ih i (by simpa using h)

/-- The 62 bytes under a flit's check. -/
def flitBody (type ack : Nat) (payload : List Byte) : List Byte :=
  [BitVec.ofNat 8 (16 * type), BitVec.ofNat 8 ack, BitVec.ofNat 8 (ack / 256)] ++ payload

theorem flitBody_length (type ack : Nat) (payload : List Byte) (h : payload.length = 59) :
    (flitBody type ack payload).length = 62 := by simp [flitBody, h]

theorem makeFlit_toNat (type ack : Nat) (payload : List Byte) (seed : BitVec 16) (h : payload.length = 59) :
    (makeFlit type ack payload seed).toNat =
      ofBytes (flitBody type ack payload) + (crcBytes seed (flitBody type ack payload)).toNat * 2 ^ 496 := by
  have h1 := ofBytes_lt (flitBody type ack payload)
  rw [flitBody_length _ _ _ h] at h1
  have h2 := (crcBytes seed (flitBody type ack payload)).isLt
  have e : makeFlit type ack payload seed =
    BitVec.ofNat 512 (ofBytes (flitBody type ack payload) + (crcBytes seed (flitBody type ack payload)).toNat * 2 ^ 496) := rfl
  rw [e, BitVec.toNat_ofNat]
  apply Nat.mod_eq_of_lt
  generalize ofBytes (flitBody type ack payload) = a at *
  generalize (crcBytes seed (flitBody type ack payload)).toNat = b at *
  have e1 : (2 : Nat) ^ 512 = 2 ^ 16 * 2 ^ 496 := by rw [← Nat.pow_add]
  rw [e1]
  have e2 : 8 * 62 = 496 := rfl
  rw [e2] at h1
  generalize (2 : Nat) ^ 496 = c at *
  have : (b + 1) * c ≤ 2 ^ 16 * c := Nat.mul_le_mul_right _ h2
  rw [Nat.add_mul] at this
  omega

/-- Byte i of a flit a sender makes. -/
theorem makeFlit_byte (type ack : Nat) (payload : List Byte) (seed : BitVec 16) (h : payload.length = 59) (i : Nat) (hi : i < 62) :
    flitByte (makeFlit type ack payload seed) i = (flitBody type ack payload)[i]'(by rw [flitBody_length _ _ _ h]; exact hi) := by
  apply BitVec.eq_of_toNat_eq
  have hl := flitBody_length type ack payload h
  rw [flitByte, BitVec.toNat_ofNat, makeFlit_toNat _ _ _ _ h, ← ofBytes_byte _ _ (by rw [hl]; exact hi)]
  generalize ofBytes (flitBody type ack payload) = a
  generalize (crcBytes seed (flitBody type ack payload)).toNat = b
  have e : b * 2 ^ 496 = 2 ^ (8 * i) * (256 * (2 ^ (496 - 8 * i - 8) * b)) := by
    have e1 : (2 : Nat) ^ 496 = 2 ^ (8 * i) * (2 ^ 8 * 2 ^ (496 - 8 * i - 8)) := by
      rw [← Nat.pow_add, ← Nat.pow_add]; congr 1; omega
    have e2 : (256 : Nat) = 2 ^ 8 := rfl
    rw [e1, Nat.mul_comm b, Nat.mul_assoc, Nat.mul_assoc, e2]
  rw [e, Nat.add_mul_div_left _ _ (Nat.pow_pos (by decide)), Nat.add_mul_mod_self_left]

/-- A flit a sender makes passes its check (R362). -/
theorem makeFlit_ok (l type ack : Nat) (payload : List Byte) (seed : BitVec 16) (hl : isUplink l = false) (h : payload.length = 59) :
    unitOk l (makeFlit type ack payload seed) seed = true := by
  have e : (List.range 62).map (flitByte (makeFlit type ack payload seed)) = flitBody type ack payload := by
    apply List.ext_getElem
    · simp [flitBody_length _ _ _ h]
    · intro i h1 h2
      rw [List.getElem_map, List.getElem_range]
      exact makeFlit_byte _ _ _ _ h i (by simpa using h1)
  have hb := ofBytes_lt (flitBody type ack payload)
  rw [flitBody_length _ _ _ h] at hb
  rw [unitOk, hl, e, makeFlit_toNat _ _ _ _ h]
  simp only [Bool.false_eq_true, if_false, decide_eq_true_eq]
  rw [Nat.add_mul_div_right _ _ (Nat.pow_pos (by decide)), Nat.div_eq_of_lt hb, Nat.zero_add]
  simp

/-- The type of a flit a sender makes (R361). -/
theorem makeFlit_type (l type ack : Nat) (payload : List Byte) (seed : BitVec 16) (hl : isUplink l = false) (h : payload.length = 59)
    (ht : type < 16) : unitType l (makeFlit type ack payload seed) = type := by
  have e := congrArg BitVec.toNat (makeFlit_byte type ack payload seed h 0 (by decide))
  simp only [flitByte, flitBody, BitVec.toNat_ofNat, List.cons_append, List.getElem_cons_zero, Nat.mul_zero, Nat.pow_zero,
    Nat.div_one] at e
  rw [unitType, hl]
  simp only [Bool.false_eq_true, if_false]
  omega

/-- The sequence number a flit a sender makes carries (R361). -/
theorem makeFlit_ack (l type ack : Nat) (payload : List Byte) (seed : BitVec 16) (hl : isUplink l = false) (h : payload.length = 59)
    (ha : ack < 4096) : unitAck l (makeFlit type ack payload seed) = BitVec.ofNat 12 ack := by
  have e1 := congrArg BitVec.toNat (makeFlit_byte type ack payload seed h 1 (by decide))
  have e2 := congrArg BitVec.toNat (makeFlit_byte type ack payload seed h 2 (by decide))
  simp only [flitByte, flitBody, BitVec.toNat_ofNat, List.cons_append, List.getElem_cons_zero, List.getElem_cons_succ] at e1 e2
  apply BitVec.eq_of_toNat_eq
  rw [unitAck, hl]
  simp only [Bool.false_eq_true, if_false, BitVec.toNat_ofNat]
  omega

/-- The check of bytes after bytes. -/
theorem crcBytes_append (seed : BitVec 16) (a b : List Byte) : crcBytes seed (a ++ b) = crcBytes (crcBytes seed a) b :=
  List.foldl_append

/-- A frame a sender makes, of at most 112 bits above its check, reads as those bits and passes its check (R255, R368). -/
theorem makeFrame_ok (l top : Nat) (seed : BitVec 16) (hl : isUplink l = true) (ht : top < 2 ^ 112) :
    unitOk l (makeFrame top seed) seed = true ∧ (makeFrame top seed).toNat / 2 ^ 16 = top := by
  have h2 := (crcBits top 112 seed).isLt
  have e : (makeFrame top seed).toNat = top * 2 ^ 16 + (crcBits top 112 seed).toNat := by
    rw [makeFrame, BitVec.toNat_ofNat]
    apply Nat.mod_eq_of_lt
    have : (2 : Nat) ^ 128 ≤ 2 ^ 512 := Nat.pow_le_pow_right (by decide) (by decide)
    omega
  have e1 : (makeFrame top seed).toNat / 2 ^ 16 = top := by rw [e]; omega
  refine ⟨?_, e1⟩
  rw [unitOk, hl, e1, Nat.mod_eq_of_lt ht, e]
  simp only [if_true, decide_eq_true_eq]
  apply BitVec.eq_of_toNat_eq
  rw [BitVec.toNat_ofNat]; omega

end Sys2Proof.Machine
end

