-- ==== Sys2Proof/Laws/Store.lean ====
section
/-! SUPPORT. The laws of maps, stores and memory: reading after writing and deleting, and the canonical form. -/

namespace Sys2Proof.Machine

theorem mget_mput_same {α : Type} (m : Map α) (k : Nat) (x : α) : mget (mput m k x) k = some x := by
  induction m with
  | nil => simp [mput, mget]
  | cons e t ih =>
    obtain ⟨j, y⟩ := e
    unfold mput
    split
    · simp [mget]
    · split
      · simp [mget]
      · rw [mget, if_neg (by omega), if_neg (by omega), ih]

theorem mget_mput_other {α : Type} (m : Map α) (k n : Nat) (x : α) (h : n ≠ k) : mget (mput m k x) n = mget m n := by
  induction m with
  | nil => simp [mput, mget]; intro e; omega
  | cons e t ih =>
    obtain ⟨j, y⟩ := e
    unfold mput
    split
    · rw [mget, if_neg (by omega)]
      split
      · simp only [mget]; rw [if_neg (by omega), if_pos (by omega)]
      · rfl
    · split
      · subst_vars; simp only [mget, if_neg (Ne.symm h)]
      · simp only [mget, ih]

theorem mget_filter_above {α : Type} (t : Map α) (k n : Nat) :
    mget (t.filter fun e => decide (k < e.1)) n = if k < n then mget t n else none := by
  induction t with
  | nil => simp [mget]
  | cons e t ih =>
    obtain ⟨j, y⟩ := e
    by_cases hj : k < j
    · simp only [List.filter, hj, decide_true, mget, ih]
      by_cases h1 : j = n
      · subst h1; simp [hj]
      · rw [if_neg h1, if_neg h1]
        by_cases h2 : n < j
        · simp [h2]
        · rw [if_neg h2, if_neg h2]
    · simp only [List.filter, hj, decide_false, mget, ih]
      by_cases h : k < n
      · rw [if_pos h, if_pos h, if_neg (by omega), if_neg (by omega)]
      · rw [if_neg h, if_neg h]

theorem mget_mdel_same {α : Type} (m : Map α) (k : Nat) : mget (mdel m k) k = none := by
  induction m with
  | nil => simp [mdel, mget]
  | cons e t ih =>
    obtain ⟨j, y⟩ := e
    unfold mdel
    split
    · rw [mget_filter_above]; simp
    · split
      · rw [mget, if_neg (by omega), if_pos (by omega)]
      · rw [mget, if_neg (by omega), if_neg (by omega), ih]

theorem mget_mdel_other {α : Type} (m : Map α) (k n : Nat) (h : n ≠ k) : mget (mdel m k) n = mget m n := by
  induction m with
  | nil => simp [mdel, mget]
  | cons e t ih =>
    obtain ⟨j, y⟩ := e
    unfold mdel
    split
    · subst_vars
      rw [mget_filter_above]
      simp only [mget, if_neg (Ne.symm h)]
      by_cases h1 : n < j
      · simp [h1, Nat.not_lt.2 (Nat.le_of_lt h1)]
      · simp [h1, show j < n by omega]
    · split
      · rfl
      · simp only [mget, ih]

theorem mget_mput {α : Type} (m : Map α) (k n : Nat) (x : α) :
    mget (mput m k x) n = if n = k then some x else mget m n := by
  split
  · subst_vars; exact mget_mput_same ..
  · exact mget_mput_other _ _ _ _ ‹_›

/-- A map changed entry by entry. -/
theorem mget_mmap {α : Type} (m : Map α) (f : Nat → α → α) (k : Nat) : mget (mmap m f) k = (mget m k).map (f k) := by
  induction m with
  | nil => simp [mmap, mget]
  | cons e t ih =>
    obtain ⟨j, y⟩ := e
    simp only [mmap, List.map_cons, mget]
    split
    · subst_vars; rfl
    · split
      · rfl
      · exact ih

/-- Reading a store after a write (R154). -/
theorem cget_cput {α : Type} [DecidableEq α] (d : α) (m : Cells α) (k n : Nat) (x : α) :
    cget d (cput d m k x) n = if n = k then x else cget d m n := by
  unfold cget cput
  split
  · split
    · subst_vars; simp [mget_mdel_same]
    · rw [mget_mdel_other _ _ _ ‹_›]
  · rw [mget_mput]; split <;> rfl

/-! ## The canonical form -/

theorem rising_mono {α : Type} {a b : Nat} (h : a ≤ b) : ∀ {m : Map α}, rising (some b) m = true → rising (some a) m = true
  | [], _ => rfl
  | (j, _) :: t, hr => by
    simp only [rising, Bool.and_eq_true, decide_eq_true_eq] at hr ⊢
    exact ⟨by omega, hr.2⟩

theorem rising_none {α : Type} {a : Nat} : ∀ {m : Map α}, rising (some a) m = true → rising none m = true
  | [], _ => rfl
  | (_, _) :: _, hr => by
    simp only [rising, Bool.and_eq_true] at hr ⊢
    exact hr.2

theorem rising_mput {α : Type} (m : Map α) (k : Nat) (x : α) (lo : Option Nat)
    (hl : ∀ a, lo = some a → a < k) (h : rising lo m = true) : rising lo (mput m k x) = true := by
  induction m generalizing lo with
  | nil => cases lo <;> simp_all [mput, rising]
  | cons e t ih =>
    obtain ⟨j, y⟩ := e
    have hj : rising (some j) t = true := by
      cases lo <;> simp only [rising, Bool.and_eq_true] at h
      · exact h
      · exact h.2
    have hlo : ∀ a, lo = some a → a < j := by
      intro a e; subst e; simp only [rising, Bool.and_eq_true, decide_eq_true_eq] at h; exact h.1
    unfold mput
    split
    · rename_i hk
      cases lo <;> simp_all [rising]
    · split
      · subst_vars; cases lo <;> simp_all [rising]
      · have := ih (some j) (by intro a e; cases e; omega) hj
        cases lo <;> simp_all [rising]

theorem rising_filter {α : Type} (t : Map α) (a : Nat) (p : Nat × α → Bool) (h : rising (some a) t = true) :
    rising (some a) (t.filter p) = true := by
  induction t generalizing a with
  | nil => rfl
  | cons e t ih =>
    obtain ⟨j, y⟩ := e
    simp only [rising, Bool.and_eq_true, decide_eq_true_eq] at h
    simp only [List.filter]
    split
    · simp only [rising, Bool.and_eq_true, decide_eq_true_eq]; exact ⟨h.1, ih _ h.2⟩
    · exact rising_mono (Nat.le_of_lt h.1) (ih _ h.2)

theorem rising_mdel {α : Type} (m : Map α) (k : Nat) (lo : Option Nat) (h : rising lo m = true) :
    rising lo (mdel m k) = true := by
  induction m generalizing lo with
  | nil => cases lo <;> rfl
  | cons e t ih =>
    obtain ⟨j, y⟩ := e
    have hj : rising (some j) t = true := by
      cases lo <;> simp only [rising, Bool.and_eq_true] at h
      · exact h
      · exact h.2
    unfold mdel
    split
    · cases lo
      · exact rising_none (rising_filter _ _ _ hj)
      · simp only [rising, Bool.and_eq_true, decide_eq_true_eq] at h
        exact rising_mono (Nat.le_of_lt h.1) (rising_filter _ _ _ hj)
    · split
      · exact h
      · have := ih (some j) hj
        cases lo <;> simp_all [rising]

theorem all_mput {α : Type} (m : Map α) (k : Nat) (x : α) (p : Nat × α → Bool) (hx : p (k, x) = true)
    (h : m.all p = true) : (mput m k x).all p = true := by
  induction m with
  | nil => simp [mput, hx]
  | cons e t ih =>
    obtain ⟨j, y⟩ := e
    unfold mput
    split
    · simp_all
    · split <;> simp_all

theorem all_mdel {α : Type} (m : Map α) (k : Nat) (p : Nat × α → Bool) (h : m.all p = true) : (mdel m k).all p = true := by
  induction m with
  | nil => rfl
  | cons e t ih =>
    obtain ⟨j, y⟩ := e
    unfold mdel
    split
    · simp only [List.all_cons, Bool.and_eq_true] at h
      simp only [List.all_eq_true, List.mem_filter] at h ⊢
      exact fun x hx => h.2 x hx.1
    · split
      · exact h
      · simp_all

/-- A write keeps the canonical form. -/
theorem cput_wf {α : Type} [DecidableEq α] (d : α) (m : Cells α) (k : Nat) (x : α) (h : cellsWf d m = true) :
    cellsWf d (cput d m k x) = true := by
  unfold cellsWf at *
  simp only [Bool.and_eq_true] at *
  unfold cput
  split
  · exact ⟨rising_mdel _ _ _ h.1, all_mdel _ _ _ h.2⟩
  · exact ⟨rising_mput _ _ _ _ (by simp) h.1, all_mput _ _ _ _ (by simpa using ‹_›) h.2⟩

theorem cputAll_wf {α : Type} [DecidableEq α] (d : α) (xs : List (Nat × α)) (m : Cells α) (h : cellsWf d m = true) :
    cellsWf d (cputAll d m xs) = true := by
  unfold cputAll
  induction xs generalizing m with
  | nil => exact h
  | cons x t ih => exact ih _ (cput_wf _ _ _ _ h)

/-! ## Memory (R154) -/

/-- Reading one byte of memory after writing one. -/
theorem readByte_writeByte (m : List Host.Cell) (a b : Nat) (x : Byte) :
    readByte (writeByte m a x) b = if b = a then x else readByte m b := cget_cput ..

theorem writeByte_wf (m : List Host.Cell) (a : Nat) (x : Byte) (h : Memory.wf m = true) : Memory.wf (writeByte m a x) = true :=
  cput_wf _ _ _ _ h

theorem writeBytes_wf (bs : List Byte) (m : List Host.Cell) (a : Nat) (h : Memory.wf m = true) :
    Memory.wf (writeBytes m a bs) = true := by
  induction bs generalizing m a with
  | nil => exact h
  | cons b t ih => exact ih _ _ (writeByte_wf _ _ _ h)

theorem writeNum_wf (m : List Host.Cell) (a n x : Nat) (h : Memory.wf m = true) : Memory.wf (writeNum m a n x) = true :=
  writeBytes_wf _ _ _ h

/-- Bytes written from an address up: the bytes outside keep their values. -/
theorem readByte_writeBytes_outside (bs : List Byte) (m : List Host.Cell) (a b : Nat) (h : b < a ∨ a + bs.length ≤ b) :
    readByte (writeBytes m a bs) b = readByte m b := by
  induction bs generalizing m a with
  | nil => rfl
  | cons x t ih =>
    simp only [List.length_cons] at h
    rw [writeBytes, ih _ _ (by omega), readByte_writeByte, if_neg (by omega)]

/-- Bytes written from an address up are read back. -/
theorem readByte_writeBytes_inside (bs : List Byte) (m : List Host.Cell) (a i : Nat) (h : i < bs.length) :
    readByte (writeBytes m a bs) (a + i) = bs[i] := by
  induction bs generalizing m a i with
  | nil => simp at h
  | cons x t ih =>
    cases i with
    | zero =>
      rw [writeBytes, readByte_writeBytes_outside _ _ _ _ (by omega), readByte_writeByte]; simp
    | succ i =>
      rw [writeBytes, show a + (i + 1) = a + 1 + i by omega, ih _ _ _ (by simpa using h)]; rfl

end Sys2Proof.Machine
end

