-- ==== Sys2Proof/Laws/State.lean ====
section
/-! SUPPORT. What the named updates of the state change and what they leave: one lemma per field per update, and one frame
equation per update of a thing that may be absent. -/

namespace Sys2Proof.Machine

@[simp] theorem setGrp_mem (s : State) (gid : Nat) (g : Group) : (setGrp s gid g).mem = s.mem := rfl
@[simp] theorem setGrp_memBad (s : State) (gid : Nat) (g : Group) : (setGrp s gid g).memBad = s.memBad := rfl
@[simp] theorem setGrp_time (s : State) (gid : Nat) (g : Group) : (setGrp s gid g).time = s.time := rfl
@[simp] theorem setGrp_cycle (s : State) (gid : Nat) (g : Group) : (setGrp s gid g).cycle = s.cycle := rfl
@[simp] theorem setGrp_subcycle (s : State) (gid : Nat) (g : Group) : (setGrp s gid g).subcycle = s.subcycle := rfl
@[simp] theorem setGrp_fresh (s : State) (gid : Nat) (g : Group) : (setGrp s gid g).fresh = s.fresh := rfl
@[simp] theorem setGrp_nextId (s : State) (gid : Nat) (g : Group) : (setGrp s gid g).nextId = s.nextId := rfl
@[simp] theorem setGrp_teams (s : State) (gid : Nat) (g : Group) : (setGrp s gid g).teams = s.teams := rfl
@[simp] theorem setGrp_grids (s : State) (gid : Nat) (g : Group) : (setGrp s gid g).grids = s.grids := rfl
@[simp] theorem setGrp_cores (s : State) (gid : Nat) (g : Group) : (setGrp s gid g).cores = s.cores := rfl
@[simp] theorem setGrp_dies (s : State) (gid : Nat) (g : Group) : (setGrp s gid g).dies = s.dies := rfl
@[simp] theorem setGrp_ops (s : State) (gid : Nat) (g : Group) : (setGrp s gid g).ops = s.ops := rfl
@[simp] theorem setGrp_copies (s : State) (gid : Nat) (g : Group) : (setGrp s gid g).copies = s.copies := rfl
@[simp] theorem setGrp_walks (s : State) (gid : Nat) (g : Group) : (setGrp s gid g).walks = s.walks := rfl
@[simp] theorem setGrp_hostReqs (s : State) (gid : Nat) (g : Group) : (setGrp s gid g).hostReqs = s.hostReqs := rfl
@[simp] theorem setGrp_net (s : State) (gid : Nat) (g : Group) : (setGrp s gid g).net = s.net := rfl
@[simp] theorem setGrp_rels (s : State) (gid : Nat) (g : Group) : (setGrp s gid g).rels = s.rels := rfl
@[simp] theorem setGrp_ports (s : State) (gid : Nat) (g : Group) : (setGrp s gid g).ports = s.ports := rfl
@[simp] theorem setGrp_phs (s : State) (gid : Nat) (g : Group) : (setGrp s gid g).phs = s.phs := rfl
@[simp] theorem setGrp_pod (s : State) (gid : Nat) (g : Group) : (setGrp s gid g).pod = s.pod := rfl
@[simp] theorem setGrp_pkg (s : State) (gid : Nat) (g : Group) : (setGrp s gid g).pkg = s.pkg := rfl
@[simp] theorem setGrp_pnet (s : State) (gid : Nat) (g : Group) : (setGrp s gid g).pnet = s.pnet := rfl
@[simp] theorem setGrp_links (s : State) (gid : Nat) (g : Group) : (setGrp s gid g).links = s.links := rfl
@[simp] theorem setGrp_deadBoundaries (s : State) (gid : Nat) (g : Group) : (setGrp s gid g).deadBoundaries = s.deadBoundaries := rfl
@[simp] theorem setGrp_comms (s : State) (gid : Nat) (g : Group) : (setGrp s gid g).comms = s.comms := rfl
@[simp] theorem setGrp_colls (s : State) (gid : Nat) (g : Group) : (setGrp s gid g).colls = s.colls := rfl
@[simp] theorem setGrp_parts (s : State) (gid : Nat) (g : Group) : (setGrp s gid g).parts = s.parts := rfl
@[simp] theorem setGrp_saved (s : State) (gid : Nat) (g : Group) : (setGrp s gid g).saved = s.saved := rfl
@[simp] theorem setGrp_fes (s : State) (gid : Nat) (g : Group) : (setGrp s gid g).fes = s.fes := rfl
@[simp] theorem setGrp_feCur (s : State) (gid : Nat) (g : Group) : (setGrp s gid g).feCur = s.feCur := rfl
@[simp] theorem setGrp_launches (s : State) (gid : Nat) (g : Group) : (setGrp s gid g).launches = s.launches := rfl
@[simp] theorem setGrp_verified (s : State) (gid : Nat) (g : Group) : (setGrp s gid g).verified = s.verified := rfl
@[simp] theorem setGrp_memTrained (s : State) (gid : Nat) (g : Group) : (setGrp s gid g).memTrained = s.memTrained := rfl
@[simp] theorem setGrp_linksUp (s : State) (gid : Nat) (g : Group) : (setGrp s gid g).linksUp = s.linksUp := rfl
@[simp] theorem setGrp_locked (s : State) (gid : Nat) (g : Group) : (setGrp s gid g).locked = s.locked := rfl
@[simp] theorem setGrp_derlo (s : State) (gid : Nat) (g : Group) : (setGrp s gid g).derlo = s.derlo := rfl
@[simp] theorem setGrp_ibaseNear (s : State) (gid : Nat) (g : Group) : (setGrp s gid g).ibaseNear = s.ibaseNear := rfl
@[simp] theorem setGrp_ibaseFar (s : State) (gid : Nat) (g : Group) : (setGrp s gid g).ibaseFar = s.ibaseFar := rfl
@[simp] theorem setGrp_clock (s : State) (gid : Nat) (g : Group) : (setGrp s gid g).clock = s.clock := rfl
@[simp] theorem setGrp_clockMin (s : State) (gid : Nat) (g : Group) : (setGrp s gid g).clockMin = s.clockMin := rfl
@[simp] theorem setGrp_power (s : State) (gid : Nat) (g : Group) : (setGrp s gid g).power = s.power := rfl
@[simp] theorem setGrp_coolSince (s : State) (gid : Nat) (g : Group) : (setGrp s gid g).coolSince = s.coolSince := rfl
@[simp] theorem setGrp_atsbyp (s : State) (gid : Nat) (g : Group) : (setGrp s gid g).atsbyp = s.atsbyp := rfl
@[simp] theorem setGrp_removed (s : State) (gid : Nat) (g : Group) : (setGrp s gid g).removed = s.removed := rfl
@[simp] theorem setGrp_hostPorts (s : State) (gid : Nat) (g : Group) : (setGrp s gid g).hostPorts = s.hostPorts := rfl
@[simp] theorem setGrp_msix (s : State) (gid : Nat) (g : Group) : (setGrp s gid g).msix = s.msix := rfl
@[simp] theorem setGrp_hostOut (s : State) (gid : Nat) (g : Group) : (setGrp s gid g).hostOut = s.hostOut := rfl
@[simp] theorem setGrp_reports (s : State) (gid : Nat) (g : Group) : (setGrp s gid g).reports = s.reports := rfl
@[simp] theorem setGrp_arriving (s : State) (gid : Nat) (g : Group) : (setGrp s gid g).arriving = s.arriving := rfl
@[simp] theorem setGrp_agenda (s : State) (gid : Nat) (g : Group) : (setGrp s gid g).agenda = s.agenda := rfl
@[simp] theorem setGrp_issue (s : State) (gid : Nat) (g : Group) : (setGrp s gid g).issue = s.issue := rfl

@[simp] theorem modCore_mem (s : State) (c : Nat) (f : Core → Core) : (modCore s c f).mem = s.mem := rfl
@[simp] theorem modCore_memBad (s : State) (c : Nat) (f : Core → Core) : (modCore s c f).memBad = s.memBad := rfl
@[simp] theorem modCore_time (s : State) (c : Nat) (f : Core → Core) : (modCore s c f).time = s.time := rfl
@[simp] theorem modCore_cycle (s : State) (c : Nat) (f : Core → Core) : (modCore s c f).cycle = s.cycle := rfl
@[simp] theorem modCore_subcycle (s : State) (c : Nat) (f : Core → Core) : (modCore s c f).subcycle = s.subcycle := rfl
@[simp] theorem modCore_fresh (s : State) (c : Nat) (f : Core → Core) : (modCore s c f).fresh = s.fresh := rfl
@[simp] theorem modCore_nextId (s : State) (c : Nat) (f : Core → Core) : (modCore s c f).nextId = s.nextId := rfl
@[simp] theorem modCore_groups (s : State) (c : Nat) (f : Core → Core) : (modCore s c f).groups = s.groups := rfl
@[simp] theorem modCore_teams (s : State) (c : Nat) (f : Core → Core) : (modCore s c f).teams = s.teams := rfl
@[simp] theorem modCore_grids (s : State) (c : Nat) (f : Core → Core) : (modCore s c f).grids = s.grids := rfl
@[simp] theorem modCore_dies (s : State) (c : Nat) (f : Core → Core) : (modCore s c f).dies = s.dies := rfl
@[simp] theorem modCore_ops (s : State) (c : Nat) (f : Core → Core) : (modCore s c f).ops = s.ops := rfl
@[simp] theorem modCore_copies (s : State) (c : Nat) (f : Core → Core) : (modCore s c f).copies = s.copies := rfl
@[simp] theorem modCore_walks (s : State) (c : Nat) (f : Core → Core) : (modCore s c f).walks = s.walks := rfl
@[simp] theorem modCore_hostReqs (s : State) (c : Nat) (f : Core → Core) : (modCore s c f).hostReqs = s.hostReqs := rfl
@[simp] theorem modCore_net (s : State) (c : Nat) (f : Core → Core) : (modCore s c f).net = s.net := rfl
@[simp] theorem modCore_rels (s : State) (c : Nat) (f : Core → Core) : (modCore s c f).rels = s.rels := rfl
@[simp] theorem modCore_ports (s : State) (c : Nat) (f : Core → Core) : (modCore s c f).ports = s.ports := rfl
@[simp] theorem modCore_phs (s : State) (c : Nat) (f : Core → Core) : (modCore s c f).phs = s.phs := rfl
@[simp] theorem modCore_pod (s : State) (c : Nat) (f : Core → Core) : (modCore s c f).pod = s.pod := rfl
@[simp] theorem modCore_pkg (s : State) (c : Nat) (f : Core → Core) : (modCore s c f).pkg = s.pkg := rfl
@[simp] theorem modCore_pnet (s : State) (c : Nat) (f : Core → Core) : (modCore s c f).pnet = s.pnet := rfl
@[simp] theorem modCore_links (s : State) (c : Nat) (f : Core → Core) : (modCore s c f).links = s.links := rfl
@[simp] theorem modCore_deadBoundaries (s : State) (c : Nat) (f : Core → Core) : (modCore s c f).deadBoundaries = s.deadBoundaries := rfl
@[simp] theorem modCore_comms (s : State) (c : Nat) (f : Core → Core) : (modCore s c f).comms = s.comms := rfl
@[simp] theorem modCore_colls (s : State) (c : Nat) (f : Core → Core) : (modCore s c f).colls = s.colls := rfl
@[simp] theorem modCore_parts (s : State) (c : Nat) (f : Core → Core) : (modCore s c f).parts = s.parts := rfl
@[simp] theorem modCore_saved (s : State) (c : Nat) (f : Core → Core) : (modCore s c f).saved = s.saved := rfl
@[simp] theorem modCore_fes (s : State) (c : Nat) (f : Core → Core) : (modCore s c f).fes = s.fes := rfl
@[simp] theorem modCore_feCur (s : State) (c : Nat) (f : Core → Core) : (modCore s c f).feCur = s.feCur := rfl
@[simp] theorem modCore_launches (s : State) (c : Nat) (f : Core → Core) : (modCore s c f).launches = s.launches := rfl
@[simp] theorem modCore_verified (s : State) (c : Nat) (f : Core → Core) : (modCore s c f).verified = s.verified := rfl
@[simp] theorem modCore_memTrained (s : State) (c : Nat) (f : Core → Core) : (modCore s c f).memTrained = s.memTrained := rfl
@[simp] theorem modCore_linksUp (s : State) (c : Nat) (f : Core → Core) : (modCore s c f).linksUp = s.linksUp := rfl
@[simp] theorem modCore_locked (s : State) (c : Nat) (f : Core → Core) : (modCore s c f).locked = s.locked := rfl
@[simp] theorem modCore_derlo (s : State) (c : Nat) (f : Core → Core) : (modCore s c f).derlo = s.derlo := rfl
@[simp] theorem modCore_ibaseNear (s : State) (c : Nat) (f : Core → Core) : (modCore s c f).ibaseNear = s.ibaseNear := rfl
@[simp] theorem modCore_ibaseFar (s : State) (c : Nat) (f : Core → Core) : (modCore s c f).ibaseFar = s.ibaseFar := rfl
@[simp] theorem modCore_clock (s : State) (c : Nat) (f : Core → Core) : (modCore s c f).clock = s.clock := rfl
@[simp] theorem modCore_clockMin (s : State) (c : Nat) (f : Core → Core) : (modCore s c f).clockMin = s.clockMin := rfl
@[simp] theorem modCore_power (s : State) (c : Nat) (f : Core → Core) : (modCore s c f).power = s.power := rfl
@[simp] theorem modCore_coolSince (s : State) (c : Nat) (f : Core → Core) : (modCore s c f).coolSince = s.coolSince := rfl
@[simp] theorem modCore_atsbyp (s : State) (c : Nat) (f : Core → Core) : (modCore s c f).atsbyp = s.atsbyp := rfl
@[simp] theorem modCore_removed (s : State) (c : Nat) (f : Core → Core) : (modCore s c f).removed = s.removed := rfl
@[simp] theorem modCore_hostPorts (s : State) (c : Nat) (f : Core → Core) : (modCore s c f).hostPorts = s.hostPorts := rfl
@[simp] theorem modCore_msix (s : State) (c : Nat) (f : Core → Core) : (modCore s c f).msix = s.msix := rfl
@[simp] theorem modCore_hostOut (s : State) (c : Nat) (f : Core → Core) : (modCore s c f).hostOut = s.hostOut := rfl
@[simp] theorem modCore_reports (s : State) (c : Nat) (f : Core → Core) : (modCore s c f).reports = s.reports := rfl
@[simp] theorem modCore_arriving (s : State) (c : Nat) (f : Core → Core) : (modCore s c f).arriving = s.arriving := rfl
@[simp] theorem modCore_agenda (s : State) (c : Nat) (f : Core → Core) : (modCore s c f).agenda = s.agenda := rfl
@[simp] theorem modCore_issue (s : State) (c : Nat) (f : Core → Core) : (modCore s c f).issue = s.issue := rfl

@[simp] theorem modDie_mem (s : State) (d : Nat) (f : Die → Die) : (modDie s d f).mem = s.mem := rfl
@[simp] theorem modDie_memBad (s : State) (d : Nat) (f : Die → Die) : (modDie s d f).memBad = s.memBad := rfl
@[simp] theorem modDie_time (s : State) (d : Nat) (f : Die → Die) : (modDie s d f).time = s.time := rfl
@[simp] theorem modDie_cycle (s : State) (d : Nat) (f : Die → Die) : (modDie s d f).cycle = s.cycle := rfl
@[simp] theorem modDie_subcycle (s : State) (d : Nat) (f : Die → Die) : (modDie s d f).subcycle = s.subcycle := rfl
@[simp] theorem modDie_fresh (s : State) (d : Nat) (f : Die → Die) : (modDie s d f).fresh = s.fresh := rfl
@[simp] theorem modDie_nextId (s : State) (d : Nat) (f : Die → Die) : (modDie s d f).nextId = s.nextId := rfl
@[simp] theorem modDie_groups (s : State) (d : Nat) (f : Die → Die) : (modDie s d f).groups = s.groups := rfl
@[simp] theorem modDie_teams (s : State) (d : Nat) (f : Die → Die) : (modDie s d f).teams = s.teams := rfl
@[simp] theorem modDie_grids (s : State) (d : Nat) (f : Die → Die) : (modDie s d f).grids = s.grids := rfl
@[simp] theorem modDie_cores (s : State) (d : Nat) (f : Die → Die) : (modDie s d f).cores = s.cores := rfl
@[simp] theorem modDie_ops (s : State) (d : Nat) (f : Die → Die) : (modDie s d f).ops = s.ops := rfl
@[simp] theorem modDie_copies (s : State) (d : Nat) (f : Die → Die) : (modDie s d f).copies = s.copies := rfl
@[simp] theorem modDie_walks (s : State) (d : Nat) (f : Die → Die) : (modDie s d f).walks = s.walks := rfl
@[simp] theorem modDie_hostReqs (s : State) (d : Nat) (f : Die → Die) : (modDie s d f).hostReqs = s.hostReqs := rfl
@[simp] theorem modDie_net (s : State) (d : Nat) (f : Die → Die) : (modDie s d f).net = s.net := rfl
@[simp] theorem modDie_rels (s : State) (d : Nat) (f : Die → Die) : (modDie s d f).rels = s.rels := rfl
@[simp] theorem modDie_ports (s : State) (d : Nat) (f : Die → Die) : (modDie s d f).ports = s.ports := rfl
@[simp] theorem modDie_phs (s : State) (d : Nat) (f : Die → Die) : (modDie s d f).phs = s.phs := rfl
@[simp] theorem modDie_pod (s : State) (d : Nat) (f : Die → Die) : (modDie s d f).pod = s.pod := rfl
@[simp] theorem modDie_pkg (s : State) (d : Nat) (f : Die → Die) : (modDie s d f).pkg = s.pkg := rfl
@[simp] theorem modDie_pnet (s : State) (d : Nat) (f : Die → Die) : (modDie s d f).pnet = s.pnet := rfl
@[simp] theorem modDie_links (s : State) (d : Nat) (f : Die → Die) : (modDie s d f).links = s.links := rfl
@[simp] theorem modDie_deadBoundaries (s : State) (d : Nat) (f : Die → Die) : (modDie s d f).deadBoundaries = s.deadBoundaries := rfl
@[simp] theorem modDie_comms (s : State) (d : Nat) (f : Die → Die) : (modDie s d f).comms = s.comms := rfl
@[simp] theorem modDie_colls (s : State) (d : Nat) (f : Die → Die) : (modDie s d f).colls = s.colls := rfl
@[simp] theorem modDie_parts (s : State) (d : Nat) (f : Die → Die) : (modDie s d f).parts = s.parts := rfl
@[simp] theorem modDie_saved (s : State) (d : Nat) (f : Die → Die) : (modDie s d f).saved = s.saved := rfl
@[simp] theorem modDie_fes (s : State) (d : Nat) (f : Die → Die) : (modDie s d f).fes = s.fes := rfl
@[simp] theorem modDie_feCur (s : State) (d : Nat) (f : Die → Die) : (modDie s d f).feCur = s.feCur := rfl
@[simp] theorem modDie_launches (s : State) (d : Nat) (f : Die → Die) : (modDie s d f).launches = s.launches := rfl
@[simp] theorem modDie_verified (s : State) (d : Nat) (f : Die → Die) : (modDie s d f).verified = s.verified := rfl
@[simp] theorem modDie_memTrained (s : State) (d : Nat) (f : Die → Die) : (modDie s d f).memTrained = s.memTrained := rfl
@[simp] theorem modDie_linksUp (s : State) (d : Nat) (f : Die → Die) : (modDie s d f).linksUp = s.linksUp := rfl
@[simp] theorem modDie_locked (s : State) (d : Nat) (f : Die → Die) : (modDie s d f).locked = s.locked := rfl
@[simp] theorem modDie_derlo (s : State) (d : Nat) (f : Die → Die) : (modDie s d f).derlo = s.derlo := rfl
@[simp] theorem modDie_ibaseNear (s : State) (d : Nat) (f : Die → Die) : (modDie s d f).ibaseNear = s.ibaseNear := rfl
@[simp] theorem modDie_ibaseFar (s : State) (d : Nat) (f : Die → Die) : (modDie s d f).ibaseFar = s.ibaseFar := rfl
@[simp] theorem modDie_clock (s : State) (d : Nat) (f : Die → Die) : (modDie s d f).clock = s.clock := rfl
@[simp] theorem modDie_clockMin (s : State) (d : Nat) (f : Die → Die) : (modDie s d f).clockMin = s.clockMin := rfl
@[simp] theorem modDie_power (s : State) (d : Nat) (f : Die → Die) : (modDie s d f).power = s.power := rfl
@[simp] theorem modDie_coolSince (s : State) (d : Nat) (f : Die → Die) : (modDie s d f).coolSince = s.coolSince := rfl
@[simp] theorem modDie_atsbyp (s : State) (d : Nat) (f : Die → Die) : (modDie s d f).atsbyp = s.atsbyp := rfl
@[simp] theorem modDie_removed (s : State) (d : Nat) (f : Die → Die) : (modDie s d f).removed = s.removed := rfl
@[simp] theorem modDie_hostPorts (s : State) (d : Nat) (f : Die → Die) : (modDie s d f).hostPorts = s.hostPorts := rfl
@[simp] theorem modDie_msix (s : State) (d : Nat) (f : Die → Die) : (modDie s d f).msix = s.msix := rfl
@[simp] theorem modDie_hostOut (s : State) (d : Nat) (f : Die → Die) : (modDie s d f).hostOut = s.hostOut := rfl
@[simp] theorem modDie_reports (s : State) (d : Nat) (f : Die → Die) : (modDie s d f).reports = s.reports := rfl
@[simp] theorem modDie_arriving (s : State) (d : Nat) (f : Die → Die) : (modDie s d f).arriving = s.arriving := rfl
@[simp] theorem modDie_agenda (s : State) (d : Nat) (f : Die → Die) : (modDie s d f).agenda = s.agenda := rfl
@[simp] theorem modDie_issue (s : State) (d : Nat) (f : Die → Die) : (modDie s d f).issue = s.issue := rfl

@[simp] theorem modPart_mem (s : State) (p : Nat) (f : Part → Part) : (modPart s p f).mem = s.mem := rfl
@[simp] theorem modPart_memBad (s : State) (p : Nat) (f : Part → Part) : (modPart s p f).memBad = s.memBad := rfl
@[simp] theorem modPart_time (s : State) (p : Nat) (f : Part → Part) : (modPart s p f).time = s.time := rfl
@[simp] theorem modPart_cycle (s : State) (p : Nat) (f : Part → Part) : (modPart s p f).cycle = s.cycle := rfl
@[simp] theorem modPart_subcycle (s : State) (p : Nat) (f : Part → Part) : (modPart s p f).subcycle = s.subcycle := rfl
@[simp] theorem modPart_fresh (s : State) (p : Nat) (f : Part → Part) : (modPart s p f).fresh = s.fresh := rfl
@[simp] theorem modPart_nextId (s : State) (p : Nat) (f : Part → Part) : (modPart s p f).nextId = s.nextId := rfl
@[simp] theorem modPart_groups (s : State) (p : Nat) (f : Part → Part) : (modPart s p f).groups = s.groups := rfl
@[simp] theorem modPart_teams (s : State) (p : Nat) (f : Part → Part) : (modPart s p f).teams = s.teams := rfl
@[simp] theorem modPart_grids (s : State) (p : Nat) (f : Part → Part) : (modPart s p f).grids = s.grids := rfl
@[simp] theorem modPart_cores (s : State) (p : Nat) (f : Part → Part) : (modPart s p f).cores = s.cores := rfl
@[simp] theorem modPart_dies (s : State) (p : Nat) (f : Part → Part) : (modPart s p f).dies = s.dies := rfl
@[simp] theorem modPart_ops (s : State) (p : Nat) (f : Part → Part) : (modPart s p f).ops = s.ops := rfl
@[simp] theorem modPart_copies (s : State) (p : Nat) (f : Part → Part) : (modPart s p f).copies = s.copies := rfl
@[simp] theorem modPart_walks (s : State) (p : Nat) (f : Part → Part) : (modPart s p f).walks = s.walks := rfl
@[simp] theorem modPart_hostReqs (s : State) (p : Nat) (f : Part → Part) : (modPart s p f).hostReqs = s.hostReqs := rfl
@[simp] theorem modPart_net (s : State) (p : Nat) (f : Part → Part) : (modPart s p f).net = s.net := rfl
@[simp] theorem modPart_rels (s : State) (p : Nat) (f : Part → Part) : (modPart s p f).rels = s.rels := rfl
@[simp] theorem modPart_ports (s : State) (p : Nat) (f : Part → Part) : (modPart s p f).ports = s.ports := rfl
@[simp] theorem modPart_phs (s : State) (p : Nat) (f : Part → Part) : (modPart s p f).phs = s.phs := rfl
@[simp] theorem modPart_pod (s : State) (p : Nat) (f : Part → Part) : (modPart s p f).pod = s.pod := rfl
@[simp] theorem modPart_pkg (s : State) (p : Nat) (f : Part → Part) : (modPart s p f).pkg = s.pkg := rfl
@[simp] theorem modPart_pnet (s : State) (p : Nat) (f : Part → Part) : (modPart s p f).pnet = s.pnet := rfl
@[simp] theorem modPart_links (s : State) (p : Nat) (f : Part → Part) : (modPart s p f).links = s.links := rfl
@[simp] theorem modPart_deadBoundaries (s : State) (p : Nat) (f : Part → Part) : (modPart s p f).deadBoundaries = s.deadBoundaries := rfl
@[simp] theorem modPart_comms (s : State) (p : Nat) (f : Part → Part) : (modPart s p f).comms = s.comms := rfl
@[simp] theorem modPart_colls (s : State) (p : Nat) (f : Part → Part) : (modPart s p f).colls = s.colls := rfl
@[simp] theorem modPart_saved (s : State) (p : Nat) (f : Part → Part) : (modPart s p f).saved = s.saved := rfl
@[simp] theorem modPart_fes (s : State) (p : Nat) (f : Part → Part) : (modPart s p f).fes = s.fes := rfl
@[simp] theorem modPart_feCur (s : State) (p : Nat) (f : Part → Part) : (modPart s p f).feCur = s.feCur := rfl
@[simp] theorem modPart_launches (s : State) (p : Nat) (f : Part → Part) : (modPart s p f).launches = s.launches := rfl
@[simp] theorem modPart_verified (s : State) (p : Nat) (f : Part → Part) : (modPart s p f).verified = s.verified := rfl
@[simp] theorem modPart_memTrained (s : State) (p : Nat) (f : Part → Part) : (modPart s p f).memTrained = s.memTrained := rfl
@[simp] theorem modPart_linksUp (s : State) (p : Nat) (f : Part → Part) : (modPart s p f).linksUp = s.linksUp := rfl
@[simp] theorem modPart_locked (s : State) (p : Nat) (f : Part → Part) : (modPart s p f).locked = s.locked := rfl
@[simp] theorem modPart_derlo (s : State) (p : Nat) (f : Part → Part) : (modPart s p f).derlo = s.derlo := rfl
@[simp] theorem modPart_ibaseNear (s : State) (p : Nat) (f : Part → Part) : (modPart s p f).ibaseNear = s.ibaseNear := rfl
@[simp] theorem modPart_ibaseFar (s : State) (p : Nat) (f : Part → Part) : (modPart s p f).ibaseFar = s.ibaseFar := rfl
@[simp] theorem modPart_clock (s : State) (p : Nat) (f : Part → Part) : (modPart s p f).clock = s.clock := rfl
@[simp] theorem modPart_clockMin (s : State) (p : Nat) (f : Part → Part) : (modPart s p f).clockMin = s.clockMin := rfl
@[simp] theorem modPart_power (s : State) (p : Nat) (f : Part → Part) : (modPart s p f).power = s.power := rfl
@[simp] theorem modPart_coolSince (s : State) (p : Nat) (f : Part → Part) : (modPart s p f).coolSince = s.coolSince := rfl
@[simp] theorem modPart_atsbyp (s : State) (p : Nat) (f : Part → Part) : (modPart s p f).atsbyp = s.atsbyp := rfl
@[simp] theorem modPart_removed (s : State) (p : Nat) (f : Part → Part) : (modPart s p f).removed = s.removed := rfl
@[simp] theorem modPart_hostPorts (s : State) (p : Nat) (f : Part → Part) : (modPart s p f).hostPorts = s.hostPorts := rfl
@[simp] theorem modPart_msix (s : State) (p : Nat) (f : Part → Part) : (modPart s p f).msix = s.msix := rfl
@[simp] theorem modPart_hostOut (s : State) (p : Nat) (f : Part → Part) : (modPart s p f).hostOut = s.hostOut := rfl
@[simp] theorem modPart_reports (s : State) (p : Nat) (f : Part → Part) : (modPart s p f).reports = s.reports := rfl
@[simp] theorem modPart_arriving (s : State) (p : Nat) (f : Part → Part) : (modPart s p f).arriving = s.arriving := rfl
@[simp] theorem modPart_agenda (s : State) (p : Nat) (f : Part → Part) : (modPart s p f).agenda = s.agenda := rfl
@[simp] theorem modPart_issue (s : State) (p : Nat) (f : Part → Part) : (modPart s p f).issue = s.issue := rfl

@[simp] theorem modFe_mem (s : State) (i : Nat) (f : Fe → Fe) : (modFe s i f).mem = s.mem := rfl
@[simp] theorem modFe_memBad (s : State) (i : Nat) (f : Fe → Fe) : (modFe s i f).memBad = s.memBad := rfl
@[simp] theorem modFe_time (s : State) (i : Nat) (f : Fe → Fe) : (modFe s i f).time = s.time := rfl
@[simp] theorem modFe_cycle (s : State) (i : Nat) (f : Fe → Fe) : (modFe s i f).cycle = s.cycle := rfl
@[simp] theorem modFe_subcycle (s : State) (i : Nat) (f : Fe → Fe) : (modFe s i f).subcycle = s.subcycle := rfl
@[simp] theorem modFe_fresh (s : State) (i : Nat) (f : Fe → Fe) : (modFe s i f).fresh = s.fresh := rfl
@[simp] theorem modFe_nextId (s : State) (i : Nat) (f : Fe → Fe) : (modFe s i f).nextId = s.nextId := rfl
@[simp] theorem modFe_groups (s : State) (i : Nat) (f : Fe → Fe) : (modFe s i f).groups = s.groups := rfl
@[simp] theorem modFe_teams (s : State) (i : Nat) (f : Fe → Fe) : (modFe s i f).teams = s.teams := rfl
@[simp] theorem modFe_grids (s : State) (i : Nat) (f : Fe → Fe) : (modFe s i f).grids = s.grids := rfl
@[simp] theorem modFe_cores (s : State) (i : Nat) (f : Fe → Fe) : (modFe s i f).cores = s.cores := rfl
@[simp] theorem modFe_dies (s : State) (i : Nat) (f : Fe → Fe) : (modFe s i f).dies = s.dies := rfl
@[simp] theorem modFe_ops (s : State) (i : Nat) (f : Fe → Fe) : (modFe s i f).ops = s.ops := rfl
@[simp] theorem modFe_copies (s : State) (i : Nat) (f : Fe → Fe) : (modFe s i f).copies = s.copies := rfl
@[simp] theorem modFe_walks (s : State) (i : Nat) (f : Fe → Fe) : (modFe s i f).walks = s.walks := rfl
@[simp] theorem modFe_hostReqs (s : State) (i : Nat) (f : Fe → Fe) : (modFe s i f).hostReqs = s.hostReqs := rfl
@[simp] theorem modFe_net (s : State) (i : Nat) (f : Fe → Fe) : (modFe s i f).net = s.net := rfl
@[simp] theorem modFe_rels (s : State) (i : Nat) (f : Fe → Fe) : (modFe s i f).rels = s.rels := rfl
@[simp] theorem modFe_ports (s : State) (i : Nat) (f : Fe → Fe) : (modFe s i f).ports = s.ports := rfl
@[simp] theorem modFe_phs (s : State) (i : Nat) (f : Fe → Fe) : (modFe s i f).phs = s.phs := rfl
@[simp] theorem modFe_pod (s : State) (i : Nat) (f : Fe → Fe) : (modFe s i f).pod = s.pod := rfl
@[simp] theorem modFe_pkg (s : State) (i : Nat) (f : Fe → Fe) : (modFe s i f).pkg = s.pkg := rfl
@[simp] theorem modFe_pnet (s : State) (i : Nat) (f : Fe → Fe) : (modFe s i f).pnet = s.pnet := rfl
@[simp] theorem modFe_links (s : State) (i : Nat) (f : Fe → Fe) : (modFe s i f).links = s.links := rfl
@[simp] theorem modFe_deadBoundaries (s : State) (i : Nat) (f : Fe → Fe) : (modFe s i f).deadBoundaries = s.deadBoundaries := rfl
@[simp] theorem modFe_comms (s : State) (i : Nat) (f : Fe → Fe) : (modFe s i f).comms = s.comms := rfl
@[simp] theorem modFe_colls (s : State) (i : Nat) (f : Fe → Fe) : (modFe s i f).colls = s.colls := rfl
@[simp] theorem modFe_parts (s : State) (i : Nat) (f : Fe → Fe) : (modFe s i f).parts = s.parts := rfl
@[simp] theorem modFe_saved (s : State) (i : Nat) (f : Fe → Fe) : (modFe s i f).saved = s.saved := rfl
@[simp] theorem modFe_feCur (s : State) (i : Nat) (f : Fe → Fe) : (modFe s i f).feCur = s.feCur := rfl
@[simp] theorem modFe_launches (s : State) (i : Nat) (f : Fe → Fe) : (modFe s i f).launches = s.launches := rfl
@[simp] theorem modFe_verified (s : State) (i : Nat) (f : Fe → Fe) : (modFe s i f).verified = s.verified := rfl
@[simp] theorem modFe_memTrained (s : State) (i : Nat) (f : Fe → Fe) : (modFe s i f).memTrained = s.memTrained := rfl
@[simp] theorem modFe_linksUp (s : State) (i : Nat) (f : Fe → Fe) : (modFe s i f).linksUp = s.linksUp := rfl
@[simp] theorem modFe_locked (s : State) (i : Nat) (f : Fe → Fe) : (modFe s i f).locked = s.locked := rfl
@[simp] theorem modFe_derlo (s : State) (i : Nat) (f : Fe → Fe) : (modFe s i f).derlo = s.derlo := rfl
@[simp] theorem modFe_ibaseNear (s : State) (i : Nat) (f : Fe → Fe) : (modFe s i f).ibaseNear = s.ibaseNear := rfl
@[simp] theorem modFe_ibaseFar (s : State) (i : Nat) (f : Fe → Fe) : (modFe s i f).ibaseFar = s.ibaseFar := rfl
@[simp] theorem modFe_clock (s : State) (i : Nat) (f : Fe → Fe) : (modFe s i f).clock = s.clock := rfl
@[simp] theorem modFe_clockMin (s : State) (i : Nat) (f : Fe → Fe) : (modFe s i f).clockMin = s.clockMin := rfl
@[simp] theorem modFe_power (s : State) (i : Nat) (f : Fe → Fe) : (modFe s i f).power = s.power := rfl
@[simp] theorem modFe_coolSince (s : State) (i : Nat) (f : Fe → Fe) : (modFe s i f).coolSince = s.coolSince := rfl
@[simp] theorem modFe_atsbyp (s : State) (i : Nat) (f : Fe → Fe) : (modFe s i f).atsbyp = s.atsbyp := rfl
@[simp] theorem modFe_removed (s : State) (i : Nat) (f : Fe → Fe) : (modFe s i f).removed = s.removed := rfl
@[simp] theorem modFe_hostPorts (s : State) (i : Nat) (f : Fe → Fe) : (modFe s i f).hostPorts = s.hostPorts := rfl
@[simp] theorem modFe_msix (s : State) (i : Nat) (f : Fe → Fe) : (modFe s i f).msix = s.msix := rfl
@[simp] theorem modFe_hostOut (s : State) (i : Nat) (f : Fe → Fe) : (modFe s i f).hostOut = s.hostOut := rfl
@[simp] theorem modFe_reports (s : State) (i : Nat) (f : Fe → Fe) : (modFe s i f).reports = s.reports := rfl
@[simp] theorem modFe_arriving (s : State) (i : Nat) (f : Fe → Fe) : (modFe s i f).arriving = s.arriving := rfl
@[simp] theorem modFe_agenda (s : State) (i : Nat) (f : Fe → Fe) : (modFe s i f).agenda = s.agenda := rfl
@[simp] theorem modFe_issue (s : State) (i : Nat) (f : Fe → Fe) : (modFe s i f).issue = s.issue := rfl

@[simp] theorem modLink_mem (s : State) (l : Nat) (f : Link → Link) : (modLink s l f).mem = s.mem := rfl
@[simp] theorem modLink_memBad (s : State) (l : Nat) (f : Link → Link) : (modLink s l f).memBad = s.memBad := rfl
@[simp] theorem modLink_time (s : State) (l : Nat) (f : Link → Link) : (modLink s l f).time = s.time := rfl
@[simp] theorem modLink_cycle (s : State) (l : Nat) (f : Link → Link) : (modLink s l f).cycle = s.cycle := rfl
@[simp] theorem modLink_subcycle (s : State) (l : Nat) (f : Link → Link) : (modLink s l f).subcycle = s.subcycle := rfl
@[simp] theorem modLink_fresh (s : State) (l : Nat) (f : Link → Link) : (modLink s l f).fresh = s.fresh := rfl
@[simp] theorem modLink_nextId (s : State) (l : Nat) (f : Link → Link) : (modLink s l f).nextId = s.nextId := rfl
@[simp] theorem modLink_groups (s : State) (l : Nat) (f : Link → Link) : (modLink s l f).groups = s.groups := rfl
@[simp] theorem modLink_teams (s : State) (l : Nat) (f : Link → Link) : (modLink s l f).teams = s.teams := rfl
@[simp] theorem modLink_grids (s : State) (l : Nat) (f : Link → Link) : (modLink s l f).grids = s.grids := rfl
@[simp] theorem modLink_cores (s : State) (l : Nat) (f : Link → Link) : (modLink s l f).cores = s.cores := rfl
@[simp] theorem modLink_dies (s : State) (l : Nat) (f : Link → Link) : (modLink s l f).dies = s.dies := rfl
@[simp] theorem modLink_ops (s : State) (l : Nat) (f : Link → Link) : (modLink s l f).ops = s.ops := rfl
@[simp] theorem modLink_copies (s : State) (l : Nat) (f : Link → Link) : (modLink s l f).copies = s.copies := rfl
@[simp] theorem modLink_walks (s : State) (l : Nat) (f : Link → Link) : (modLink s l f).walks = s.walks := rfl
@[simp] theorem modLink_hostReqs (s : State) (l : Nat) (f : Link → Link) : (modLink s l f).hostReqs = s.hostReqs := rfl
@[simp] theorem modLink_net (s : State) (l : Nat) (f : Link → Link) : (modLink s l f).net = s.net := rfl
@[simp] theorem modLink_rels (s : State) (l : Nat) (f : Link → Link) : (modLink s l f).rels = s.rels := rfl
@[simp] theorem modLink_ports (s : State) (l : Nat) (f : Link → Link) : (modLink s l f).ports = s.ports := rfl
@[simp] theorem modLink_phs (s : State) (l : Nat) (f : Link → Link) : (modLink s l f).phs = s.phs := rfl
@[simp] theorem modLink_pod (s : State) (l : Nat) (f : Link → Link) : (modLink s l f).pod = s.pod := rfl
@[simp] theorem modLink_pkg (s : State) (l : Nat) (f : Link → Link) : (modLink s l f).pkg = s.pkg := rfl
@[simp] theorem modLink_pnet (s : State) (l : Nat) (f : Link → Link) : (modLink s l f).pnet = s.pnet := rfl
@[simp] theorem modLink_deadBoundaries (s : State) (l : Nat) (f : Link → Link) : (modLink s l f).deadBoundaries = s.deadBoundaries := rfl
@[simp] theorem modLink_comms (s : State) (l : Nat) (f : Link → Link) : (modLink s l f).comms = s.comms := rfl
@[simp] theorem modLink_colls (s : State) (l : Nat) (f : Link → Link) : (modLink s l f).colls = s.colls := rfl
@[simp] theorem modLink_parts (s : State) (l : Nat) (f : Link → Link) : (modLink s l f).parts = s.parts := rfl
@[simp] theorem modLink_saved (s : State) (l : Nat) (f : Link → Link) : (modLink s l f).saved = s.saved := rfl
@[simp] theorem modLink_fes (s : State) (l : Nat) (f : Link → Link) : (modLink s l f).fes = s.fes := rfl
@[simp] theorem modLink_feCur (s : State) (l : Nat) (f : Link → Link) : (modLink s l f).feCur = s.feCur := rfl
@[simp] theorem modLink_launches (s : State) (l : Nat) (f : Link → Link) : (modLink s l f).launches = s.launches := rfl
@[simp] theorem modLink_verified (s : State) (l : Nat) (f : Link → Link) : (modLink s l f).verified = s.verified := rfl
@[simp] theorem modLink_memTrained (s : State) (l : Nat) (f : Link → Link) : (modLink s l f).memTrained = s.memTrained := rfl
@[simp] theorem modLink_linksUp (s : State) (l : Nat) (f : Link → Link) : (modLink s l f).linksUp = s.linksUp := rfl
@[simp] theorem modLink_locked (s : State) (l : Nat) (f : Link → Link) : (modLink s l f).locked = s.locked := rfl
@[simp] theorem modLink_derlo (s : State) (l : Nat) (f : Link → Link) : (modLink s l f).derlo = s.derlo := rfl
@[simp] theorem modLink_ibaseNear (s : State) (l : Nat) (f : Link → Link) : (modLink s l f).ibaseNear = s.ibaseNear := rfl
@[simp] theorem modLink_ibaseFar (s : State) (l : Nat) (f : Link → Link) : (modLink s l f).ibaseFar = s.ibaseFar := rfl
@[simp] theorem modLink_clock (s : State) (l : Nat) (f : Link → Link) : (modLink s l f).clock = s.clock := rfl
@[simp] theorem modLink_clockMin (s : State) (l : Nat) (f : Link → Link) : (modLink s l f).clockMin = s.clockMin := rfl
@[simp] theorem modLink_power (s : State) (l : Nat) (f : Link → Link) : (modLink s l f).power = s.power := rfl
@[simp] theorem modLink_coolSince (s : State) (l : Nat) (f : Link → Link) : (modLink s l f).coolSince = s.coolSince := rfl
@[simp] theorem modLink_atsbyp (s : State) (l : Nat) (f : Link → Link) : (modLink s l f).atsbyp = s.atsbyp := rfl
@[simp] theorem modLink_removed (s : State) (l : Nat) (f : Link → Link) : (modLink s l f).removed = s.removed := rfl
@[simp] theorem modLink_hostPorts (s : State) (l : Nat) (f : Link → Link) : (modLink s l f).hostPorts = s.hostPorts := rfl
@[simp] theorem modLink_msix (s : State) (l : Nat) (f : Link → Link) : (modLink s l f).msix = s.msix := rfl
@[simp] theorem modLink_hostOut (s : State) (l : Nat) (f : Link → Link) : (modLink s l f).hostOut = s.hostOut := rfl
@[simp] theorem modLink_reports (s : State) (l : Nat) (f : Link → Link) : (modLink s l f).reports = s.reports := rfl
@[simp] theorem modLink_arriving (s : State) (l : Nat) (f : Link → Link) : (modLink s l f).arriving = s.arriving := rfl
@[simp] theorem modLink_agenda (s : State) (l : Nat) (f : Link → Link) : (modLink s l f).agenda = s.agenda := rfl
@[simp] theorem modLink_issue (s : State) (l : Nat) (f : Link → Link) : (modLink s l f).issue = s.issue := rfl

@[simp] theorem modCur_mem (s : State) (f : Group → Group) : (modCur s f).mem = s.mem := rfl
@[simp] theorem modCur_memBad (s : State) (f : Group → Group) : (modCur s f).memBad = s.memBad := rfl
@[simp] theorem modCur_time (s : State) (f : Group → Group) : (modCur s f).time = s.time := rfl
@[simp] theorem modCur_cycle (s : State) (f : Group → Group) : (modCur s f).cycle = s.cycle := rfl
@[simp] theorem modCur_subcycle (s : State) (f : Group → Group) : (modCur s f).subcycle = s.subcycle := rfl
@[simp] theorem modCur_fresh (s : State) (f : Group → Group) : (modCur s f).fresh = s.fresh := rfl
@[simp] theorem modCur_nextId (s : State) (f : Group → Group) : (modCur s f).nextId = s.nextId := rfl
@[simp] theorem modCur_groups (s : State) (f : Group → Group) : (modCur s f).groups = s.groups := rfl
@[simp] theorem modCur_teams (s : State) (f : Group → Group) : (modCur s f).teams = s.teams := rfl
@[simp] theorem modCur_grids (s : State) (f : Group → Group) : (modCur s f).grids = s.grids := rfl
@[simp] theorem modCur_cores (s : State) (f : Group → Group) : (modCur s f).cores = s.cores := rfl
@[simp] theorem modCur_dies (s : State) (f : Group → Group) : (modCur s f).dies = s.dies := rfl
@[simp] theorem modCur_ops (s : State) (f : Group → Group) : (modCur s f).ops = s.ops := rfl
@[simp] theorem modCur_copies (s : State) (f : Group → Group) : (modCur s f).copies = s.copies := rfl
@[simp] theorem modCur_walks (s : State) (f : Group → Group) : (modCur s f).walks = s.walks := rfl
@[simp] theorem modCur_hostReqs (s : State) (f : Group → Group) : (modCur s f).hostReqs = s.hostReqs := rfl
@[simp] theorem modCur_net (s : State) (f : Group → Group) : (modCur s f).net = s.net := rfl
@[simp] theorem modCur_rels (s : State) (f : Group → Group) : (modCur s f).rels = s.rels := rfl
@[simp] theorem modCur_ports (s : State) (f : Group → Group) : (modCur s f).ports = s.ports := rfl
@[simp] theorem modCur_phs (s : State) (f : Group → Group) : (modCur s f).phs = s.phs := rfl
@[simp] theorem modCur_pod (s : State) (f : Group → Group) : (modCur s f).pod = s.pod := rfl
@[simp] theorem modCur_pkg (s : State) (f : Group → Group) : (modCur s f).pkg = s.pkg := rfl
@[simp] theorem modCur_pnet (s : State) (f : Group → Group) : (modCur s f).pnet = s.pnet := rfl
@[simp] theorem modCur_links (s : State) (f : Group → Group) : (modCur s f).links = s.links := rfl
@[simp] theorem modCur_deadBoundaries (s : State) (f : Group → Group) : (modCur s f).deadBoundaries = s.deadBoundaries := rfl
@[simp] theorem modCur_comms (s : State) (f : Group → Group) : (modCur s f).comms = s.comms := rfl
@[simp] theorem modCur_colls (s : State) (f : Group → Group) : (modCur s f).colls = s.colls := rfl
@[simp] theorem modCur_parts (s : State) (f : Group → Group) : (modCur s f).parts = s.parts := rfl
@[simp] theorem modCur_saved (s : State) (f : Group → Group) : (modCur s f).saved = s.saved := rfl
@[simp] theorem modCur_fes (s : State) (f : Group → Group) : (modCur s f).fes = s.fes := rfl
@[simp] theorem modCur_feCur (s : State) (f : Group → Group) : (modCur s f).feCur = s.feCur := rfl
@[simp] theorem modCur_launches (s : State) (f : Group → Group) : (modCur s f).launches = s.launches := rfl
@[simp] theorem modCur_verified (s : State) (f : Group → Group) : (modCur s f).verified = s.verified := rfl
@[simp] theorem modCur_memTrained (s : State) (f : Group → Group) : (modCur s f).memTrained = s.memTrained := rfl
@[simp] theorem modCur_linksUp (s : State) (f : Group → Group) : (modCur s f).linksUp = s.linksUp := rfl
@[simp] theorem modCur_locked (s : State) (f : Group → Group) : (modCur s f).locked = s.locked := rfl
@[simp] theorem modCur_derlo (s : State) (f : Group → Group) : (modCur s f).derlo = s.derlo := rfl
@[simp] theorem modCur_ibaseNear (s : State) (f : Group → Group) : (modCur s f).ibaseNear = s.ibaseNear := rfl
@[simp] theorem modCur_ibaseFar (s : State) (f : Group → Group) : (modCur s f).ibaseFar = s.ibaseFar := rfl
@[simp] theorem modCur_clock (s : State) (f : Group → Group) : (modCur s f).clock = s.clock := rfl
@[simp] theorem modCur_clockMin (s : State) (f : Group → Group) : (modCur s f).clockMin = s.clockMin := rfl
@[simp] theorem modCur_power (s : State) (f : Group → Group) : (modCur s f).power = s.power := rfl
@[simp] theorem modCur_coolSince (s : State) (f : Group → Group) : (modCur s f).coolSince = s.coolSince := rfl
@[simp] theorem modCur_atsbyp (s : State) (f : Group → Group) : (modCur s f).atsbyp = s.atsbyp := rfl
@[simp] theorem modCur_removed (s : State) (f : Group → Group) : (modCur s f).removed = s.removed := rfl
@[simp] theorem modCur_hostPorts (s : State) (f : Group → Group) : (modCur s f).hostPorts = s.hostPorts := rfl
@[simp] theorem modCur_msix (s : State) (f : Group → Group) : (modCur s f).msix = s.msix := rfl
@[simp] theorem modCur_hostOut (s : State) (f : Group → Group) : (modCur s f).hostOut = s.hostOut := rfl
@[simp] theorem modCur_reports (s : State) (f : Group → Group) : (modCur s f).reports = s.reports := rfl
@[simp] theorem modCur_arriving (s : State) (f : Group → Group) : (modCur s f).arriving = s.arriving := rfl
@[simp] theorem modCur_agenda (s : State) (f : Group → Group) : (modCur s f).agenda = s.agenda := rfl

@[simp] theorem setGrp_groups (s : State) (gid : Nat) (g : Group) : (setGrp s gid g).groups = mput s.groups gid g := rfl
@[simp] theorem modCore_cores (s : State) (c : Nat) (f : Core → Core) : (modCore s c f).cores = mput s.cores c (f (core s c)) := rfl
@[simp] theorem modDie_dies (s : State) (d : Nat) (f : Die → Die) : (modDie s d f).dies = mput s.dies d (f (die s d)) := rfl
@[simp] theorem modPart_parts (s : State) (p : Nat) (f : Part → Part) : (modPart s p f).parts = mput s.parts p (f (part s p)) := rfl
@[simp] theorem modFe_fes (s : State) (i : Nat) (f : Fe → Fe) : (modFe s i f).fes = mput s.fes i (f (fe s i)) := rfl
@[simp] theorem modLink_links (s : State) (l : Nat) (f : Link → Link) : (modLink s l f).links = mput s.links l (f (link s l)) := rfl
@[simp] theorem modCur_issue (s : State) (f : Group → Group) : (modCur s f).issue = { s.issue with cur := f s.issue.cur } := rfl

/-- modGrp changes groups alone. -/
theorem modGrp_frame (s : State) (gid : Nat) (f : Group → Group) : modGrp s gid f = { s with groups := (modGrp s gid f).groups } := by
  unfold modGrp; split <;> rfl
/-- modTeam changes teams alone. -/
theorem modTeam_frame (s : State) (t : Nat) (f : Team → Team) : modTeam s t f = { s with teams := (modTeam s t f).teams } := by
  unfold modTeam; split <;> rfl
/-- modGrid changes grids alone. -/
theorem modGrid_frame (s : State) (g : Nat) (f : Grid → Grid) : modGrid s g f = { s with grids := (modGrid s g f).grids } := by
  unfold modGrid; split <;> rfl
/-- modOp changes ops alone. -/
theorem modOp_frame (s : State) (i : Nat) (f : Op → Op) : modOp s i f = { s with ops := (modOp s i f).ops } := by
  unfold modOp; split <;> rfl
/-- modCopy changes copies alone. -/
theorem modCopy_frame (s : State) (i : Nat) (f : Copy → Copy) : modCopy s i f = { s with copies := (modCopy s i f).copies } := by
  unfold modCopy; split <;> rfl
/-- modColl changes colls alone. -/
theorem modColl_frame (s : State) (i : Nat) (f : Coll → Coll) : modColl s i f = { s with colls := (modColl s i f).colls } := by
  unfold modColl; split <;> rfl
/-- The group read after it is set. -/
theorem grp_setGrp (s : State) (a b : Nat) (g : Group) : grp (setGrp s a g) b = if b = a then g else grp s b := by
  unfold grp setGrp; simp only [mget_mput]; split <;> rfl
theorem core_modCore (s : State) (a b : Nat) (f : Core → Core) : core (modCore s a f) b = if b = a then f (core s a) else core s b := by
  unfold core modCore; simp only [mget_mput]; split <;> rfl
theorem die_modDie (s : State) (a b : Nat) (f : Die → Die) : die (modDie s a f) b = if b = a then f (die s a) else die s b := by
  unfold die modDie; simp only [mget_mput]; split <;> rfl
theorem part_modPart (s : State) (a b : Nat) (f : Part → Part) : part (modPart s a f) b = if b = a then f (part s a) else part s b := by
  unfold part modPart; simp only [mget_mput]; split <;> rfl
theorem fe_modFe (s : State) (a b : Nat) (f : Fe → Fe) : fe (modFe s a f) b = if b = a then f (fe s a) else fe s b := by
  unfold fe modFe; simp only [mget_mput]; split <;> rfl
theorem link_modLink (s : State) (a b : Nat) (f : Link → Link) : link (modLink s a f) b = if b = a then f (link s a) else link s b := by
  unfold link modLink; simp only [mget_mput]; split <;> rfl

/-- A lane register read after one is written, for lanes below 32 (R104). -/
theorem vget_vput (g : Group) (r n l k : Nat) (x : Word) (hl : l < 32) (hk : k < 32) :
    vget (vput g r l x) n k = if n = r ∧ k = l then x else vget g n k := by
  unfold vget vput
  rw [cget_cput]
  by_cases h : n = r ∧ k = l
  · rw [if_pos h, if_pos (by omega)]
  · rw [if_neg h, if_neg (by omega)]
/-- A k register read after one is written (R104). -/
theorem kget_kput (g : Group) (m n : Nat) (x : DWord) : kget (kput g n x) m = if m = n then x else kget g m := cget_cput ..

end Sys2Proof.Machine
end

