-- ==== Sys2Proof/Laws/Memory.lean ====
section
/-! SUPPORT. Every operation that writes memory keeps its canonical form: a home write and the operations over it, translating,
placing an instruction, and the memory of the reset state. -/

namespace Sys2Proof.Machine

/-- Sending leaves memory as it is. -/
@[simp] theorem sendFrom_mem (s : State) (d c : Nat) (g : Option Nat) (h : Home) (b : Body) : (sendFrom s d c g h b).mem = s.mem := by
  unfold sendFrom freshId; rfl
@[simp] theorem send_mem (s : State) (c : Nat) (g : Option Nat) (h : Home) (b : Body) : (send s c g h b).mem = s.mem :=
  sendFrom_mem ..
theorem foldl_mem {α : Type} (f : State → α → State) (hf : ∀ s x, (f s x).mem = s.mem) (l : List α) (s : State) :
    (l.foldl f s).mem = s.mem := by
  induction l generalizing s with
  | nil => rfl
  | cons x t ih => rw [List.foldl_cons, ih, hf]
/-- Waking the parties of a line leaves memory as it is. -/
@[simp] theorem wakeLine_mem (s : State) (line : Nat) : (wakeLine s line).mem = s.mem := by
  unfold wakeLine
  dsimp only
  split
  · rfl
  · rw [foldl_mem _ (fun s x => sendFrom_mem ..)]; rfl
/-- The L2 that takes a line leaves memory as it is. -/
@[simp] theorem l2Touch_mem (s : State) (line : Nat) (w : Bool) : (l2Touch s line w).mem = s.mem := by
  unfold l2Touch; split <;> rfl
/-- Writing a line at its home leaves the rest of memory as it is. -/
@[simp] theorem homeLine_mem (s : State) (line : Nat) : (homeLine s line).mem = s.mem := by
  unfold homeLine; rw [wakeLine_mem, l2Touch_mem]
/-- A home write changes memory by its bytes alone. -/
theorem homeWrite_mem (s : State) (bytes : Cells Byte) (bad : List Nat) :
    (homeWrite s bytes bad).mem = bytes.foldl (fun m x => writeByte m x.1 x.2) s.mem := by
  unfold homeWrite
  dsimp only
  rw [foldl_mem _ (fun s x => homeLine_mem ..)]
theorem writes_wf (bytes : Cells Byte) (m : List Host.Cell) (h : Memory.wf m = true) :
    Memory.wf (bytes.foldl (fun m x => writeByte m x.1 x.2) m) = true := by
  induction bytes generalizing m with
  | nil => exact h
  | cons x t ih => exact ih _ (writeByte_wf _ _ _ h)
/-- A home write keeps the canonical form. -/
theorem homeWrite_inv (s : State) (bytes : Cells Byte) (bad : List Nat) (h : MemInv s) : MemInv (homeWrite s bytes bad) := by
  unfold MemInv at *; rw [homeWrite_mem]; exact writes_wf _ _ h
theorem homeWriteNum_inv (s : State) (a n x : Nat) (h : MemInv s) : MemInv (homeWriteNum s a n x) := homeWrite_inv _ _ _ h
/-- A choice between two states that keep it keeps it. -/
theorem ite_inv {p : Prop} [Decidable p] {s t : State} (hs : MemInv s) (ht : MemInv t) : MemInv (if p then s else t) := by
  split
  · exact hs
  · exact ht
/-- Setting A and D keeps it. -/
theorem setAD_inv (s : State) (a : Nat) (w : Bool) (h : MemInv s) : MemInv (setAD s a w) := by
  unfold setAD; dsimp only
  refine ite_inv h ?_
  exact homeWriteNum_inv _ _ _ _ h
/-- Writing a queue descriptor keeps it. -/
theorem qPut_inv (s : State) (p q o n x : Nat) (h : MemInv s) : MemInv (qPut s p q o n x) := by
  unfold qPut; split
  · exact homeWriteNum_inv _ _ _ _ h
  · exact h
theorem qFlag_inv (s : State) (p q b : Nat) (v : Bool) (h : MemInv s) : MemInv (qFlag s p q b v) := qPut_inv _ _ _ _ _ _ h
theorem qError_inv (s : State) (p q i c : Nat) (h : MemInv s) : MemInv (qError s p q i c) := qFlag_inv _ _ _ _ _ (qPut_inv _ _ _ _ _ _ h)
/-- Translating at a die keeps it. -/
theorem xlateDie_inv (s : State) (d p ctx va : Nat) (w : Bool) (h : MemInv s) : MemInv (xlateDie s d p ctx va w).1 := by
  unfold xlateDie
  split
  · exact h
  · split
    · exact h
    · split <;> try exact h
      dsimp only
      split
      · exact setAD_inv _ _ _ h
      · exact h
/-- The bytes that an atomic writes at its home keep the canonical form when memory has it. -/
theorem atomic_inv (s : State) (k : AKind) (ls : List ALane) (h : MemInv s) :
    MemInv (homeWrite s (atomRun k s.mem ls).1 []) := homeWrite_inv _ _ _ h
theorem foldl_inv {α : Type} (f : State → α → State) (hf : ∀ s x, MemInv s → MemInv (f s x)) (l : List α) (s : State)
    (h : MemInv s) : MemInv (l.foldl f s) := by
  induction l generalizing s with
  | nil => exact h
  | cons x t ih => exact ih _ (hf _ _ h)
/-- Removing entries keeps it: what is removed reads as unlisted. -/
theorem filter_wf (m : List Host.Cell) (p : Nat × Byte → Bool) (h : Memory.wf m = true) : Memory.wf (m.filter p) = true := by
  unfold Memory.wf cellsWf at *
  simp only [Bool.and_eq_true, List.all_eq_true] at *
  refine ⟨?_, fun x hx => h.2 x (List.mem_filter.1 hx).1⟩
  have h1 := h.1
  clear h
  induction m with
  | nil => rfl
  | cons e t ih =>
    obtain ⟨j, y⟩ := e
    have hj : rising (some j) t = true := h1
    simp only [List.filter]
    split
    · exact rising_filter _ _ _ hj
    · exact ih (rising_none hj)
/-- A page of a save area that becomes zero keeps it. -/
theorem zeroPage_inv (s : State) (b : Nat) (h : MemInv s) : MemInv (zeroPage s b) := by
  unfold zeroPage
  split
  · exact h
  · dsimp only
    unfold MemInv
    rw [foldl_mem _ (fun s x => homeLine_mem ..)]
    exact filter_wf _ _ h
theorem zeroPages_inv (s : State) (b n : Nat) (h : MemInv s) : MemInv (zeroPages s b n) :=
  foldl_inv _ (fun s _ h => zeroPage_inv s _ h) _ _ h
/-- Writing a block of a save area keeps it. -/
theorem writePuts_inv (s : State) (b : Nat) (ps : List Put) (h : MemInv s) : MemInv (writePuts s b ps) := by
  unfold writePuts
  refine foldl_inv _ (fun s x h => ?_) _ _ h
  split
  · exact homeWriteNum_inv _ _ _ _ h
  · exact h
/-- Host software and its AtomicOps keep it. -/
theorem hostWrite_inv (s : State) (pa : Nat) (bs : List Byte) (h : MemInv s) : MemInv (hostWrite s pa bs) := homeWrite_inv _ _ _ h
theorem hostAtomic_inv (s : State) (port tag pa : Nat) (wide : Bool) (k : HostAtomic) (x c : DWord) (h : MemInv s) :
    MemInv (hostAtomic s port tag pa wide k x c) := by
  unfold hostAtomic
  dsimp only
  split
  · exact h
  · exact ite_inv h (homeWriteNum_inv _ _ _ _ h)
/-- Placing an instruction keeps it. -/
theorem place_inv (s : State) (w : Nat) (h : MemInv s) : MemInv (place s w) := by
  unfold place; split
  · exact h
  · exact writeNum_wf _ _ _ _ h
/-- The memory of the reset state lists nothing. -/
theorem reset_mem : State.reset.mem = [] := rfl

end Sys2Proof.Machine
end

