-- ==== Sys2Proof/Laws/Words.lean ====
section
/-! SUPPORT. The spec lemmas of the shared operations of a group's words: what a U word, a V word, a counter update, a fault and
a trap entry can do, said once in the words of Sys2Proof/Safety.lean. -/

namespace Sys2Proof.Machine

/-- What writing a k register does (R31, R104). -/
theorem kwrite_spec (s : State) (d : Fin 64) (x : DWord) : KWritten d x s (kwrite s d x) := by
  refine ⟨fun n => ?_, rfl, rfl⟩
  exact kget_kput ..

/-- The operand checks pass where the operands are readable (R23, R33). -/
theorem checkRegs_none {s : State} {regs : List Nat} {srcs : List Opnd} (h : RegsOk s regs srcs) :
    checkRegs s regs srcs = none := by
  unfold checkRegs
  have h1 : regs.find? (fun r => decide (s.issue.pre.regs ≤ r)) = none := by
    rw [List.find?_eq_none]; intro r hr; have := h.1 r hr; simp; omega
  have h2 : (srcs.map (emptyLatch s.issue.pre.y)).flatten = [] := by
    rw [List.flatten_eq_nil_iff]; intro l hl; obtain ⟨o, ho, rfl⟩ := List.mem_map.1 hl; exact h.2.1 o ho
  simp only [h1, h2]

theorem fold_vput (ls : List Nat) (hls : ∀ l ∈ ls, l < 32) (f : Nat → Word) (n : Nat) (c : Group) (r l : Nat) (hl : l < 32) :
    vget (ls.foldl (fun c l => vput c n l (f l)) c) r l = if r = n ∧ l ∈ ls then f l else vget c r l := by
  induction ls generalizing c with
  | nil => simp
  | cons a t ih =>
    rw [List.foldl_cons, ih (fun l h => hls l (List.mem_cons_of_mem _ h)), vget_vput _ _ _ _ _ _ (hls a (List.mem_cons_self ..)) hl]
    by_cases h1 : r = n
    · by_cases h2 : l ∈ t
      · simp [h1, h2]
      · by_cases h3 : l = a <;> simp [h1, h2, h3]
    · simp [h1]

theorem fold_frame (ls : List Nat) (f : Nat → Word) (n : Nat) (c : Group) :
    ∃ v b, ls.foldl (fun c l => vput c n l (f l)) c = { c with v := v, vBad := b } ∧ ∀ k ∈ b, k ∈ c.vBad := by
  induction ls generalizing c with
  | nil => exact ⟨c.v, c.vBad, rfl, fun _ h => h⟩
  | cons a t ih =>
    obtain ⟨v, b, h, hb⟩ := ih (vput c n a (f a))
    refine ⟨v, b, h, fun k hk => ?_⟩
    have := hb k hk
    unfold vput at this
    exact (List.mem_filter.1 this).1

theorem mem_active (g : Group) (l : Nat) : l ∈ activeLanes g ↔ l < 32 ∧ isActive g l = true := by
  unfold activeLanes allLanes; simp

theorem cget_y (ls : List Nat) (f : Nat → Word) (m : Cells Word) (l : Nat) :
    cget 0 (cputAll 0 m (ls.map fun l => (l, f l))) l = if l ∈ ls then f l else cget 0 m l := by
  unfold cputAll
  induction ls generalizing m with
  | nil => simp
  | cons a t ih =>
    simp only [List.map_cons, List.foldl_cons, List.mem_cons]
    rw [ih, cget_cput]
    by_cases h : l ∈ t
    · simp [h]
    · by_cases h3 : l = a <;> simp [h, h3]

/-- The state that a V word leaves, by its register contents. -/
def vLeft (s : State) (f : Nat → Word) (fl : Byte) (v : Cells Word) (b : List Nat) : State :=
  { s with issue := { s.issue with
      vDone := true
      cur := { s.issue.cur with v := v, vBad := b, status8 := s.issue.cur.status8 ||| fl
                                y := pushV s.issue.cur.y (cputAll 0 [] ((activeLanes s.issue.pre).map fun l => (l, f l))) } } }
theorem lanes_of (s : State) (d : VDst) (f : Nat → Word) (fl : Byte) (v : Cells Word) (b : List Nat)
    (hv : ∀ r l, l < 32 → cget 0 v (32 * r + l) =
      if laneDst s.issue.pre d = some r ∧ isActive s.issue.pre l = true then f l else vget s.issue.cur r l)
    (hb : ∀ k ∈ b, k ∈ s.issue.cur.vBad) :
    LanesWritten d f fl s (vLeft s f fl v b) := by
  refine ⟨hv, ⟨_, rfl, ?_⟩, rfl, hb, rfl⟩
  intro l hl; rw [cget_y]; simp [mem_active, hl, cget, mget]

/-- What delivering a V result does. -/
theorem vresult_spec (s : State) (d : VDst) (f : Nat → Word) (fl : Byte) :
    LanesWritten d f fl s (setFlags (vresult s d f) fl) := by
  obtain ⟨w, dd⟩ := d
  cases dd with
  | discard =>
    have : setFlags (vresult s ⟨w, .discard⟩ f) fl = vLeft s f fl s.issue.cur.v s.issue.cur.vBad := by
      cases w <;> (unfold setFlags vresult modCur; dsimp only; rfl)
    rw [this]
    exact lanes_of _ _ _ _ _ _ (fun r l _ => by simp [laneDst, vget]) (fun _ h => h)
  | v n =>
    cases w
    · obtain ⟨v, b, hf, hb⟩ := fold_frame (activeLanes s.issue.pre) f (s.issue.pre.ixb + n.val) s.issue.cur
      have : setFlags (vresult s ⟨false, .v n⟩ f) fl = vLeft s f fl v b := by
        unfold setFlags vresult modCur
        dsimp only
        rw [hf]; rfl
      rw [this]
      refine lanes_of _ _ _ _ _ _ (fun r l hl => ?_) hb
      have h := fold_vput (activeLanes s.issue.pre) (fun l h => ((mem_active _ _).1 h).1) f (s.issue.pre.ixb + n.val) s.issue.cur r l hl
      rw [hf] at h
      unfold vget at h
      dsimp only at h
      rw [h]; simp only [laneDst, mem_active, hl, true_and, vget]
      by_cases e : r = s.issue.pre.ixb + n.val
      · simp [e]
      · simp [e, Ne.symm e]
    · have : setFlags (vresult s ⟨true, .v n⟩ f) fl = vLeft s f fl s.issue.cur.v s.issue.cur.vBad := by
        unfold setFlags vresult modCur; dsimp only; rfl
      rw [this]
      exact lanes_of _ _ _ _ _ _ (fun r l _ => by simp [laneDst, vget]) (fun _ h => h)

/-- What a V word with readable operands does (R31, R126, R131). -/
theorem vword_spec (s : State) (d : VDst) (srcs : List Opnd) (f : Group → Nat → Word) (fl : Group → Nat → Byte)
    (h : OperandsOk s srcs d.d) :
    LanesWritten d (f s.issue.pre) (flagsOf (activeLanes s.issue.pre) (fl s.issue.pre)) s (vword s d srcs f fl) := by
  have : vword s d srcs f fl = setFlags (vresult s d (f s.issue.pre)) (flagsOf (activeLanes s.issue.pre) (fl s.issue.pre)) := by
    show (match checkRegs s (namedRegs s.issue.pre srcs (dstRegs s.issue.pre d.d)) srcs with
      | some t => t
      | none => if badSrcs s.issue.pre srcs then _ else _) = _
    rw [checkRegs_none h, h.2.2]; rfl
  rw [this]; exact vresult_spec ..
/-! ## Counters (R83, R350) -/

theorem cget_mapCtr_fold (f : Nat → Byte → Byte) (c0 : Cells Byte) (ls : List Nat) (m : Cells Byte) (l : Nat) :
    cget 0 (ls.foldl (fun m l => cput 0 m l (f l (cget 0 c0 l))) m) l = if l ∈ ls then f l (cget 0 c0 l) else cget 0 m l := by
  induction ls generalizing m with
  | nil => simp
  | cons a t ih =>
    rw [List.foldl_cons, ih, cget_cput]
    by_cases h : l ∈ t
    · simp [h]
    · by_cases e : l = a <;> simp [h, e]
/-- A counter after every counter is changed. -/
theorem cget_mapCtr (f : Nat → Byte → Byte) (c : Cells Byte) (l : Nat) (hl : l < 32) :
    cget 0 (mapCtr f c) l = f l (cget 0 c l) := by
  unfold mapCtr; rw [cget_mapCtr_fold]; simp [allLanes, hl]
theorem ctr_setCtr (g : Group) (f : Nat → Byte → Byte) (l : Nat) (hl : l < 32) : ctr (setCtr g f) l = f l (ctr g l) :=
  cget_mapCtr f g.c l hl
theorem dup_setCtr (g : Group) (f : Nat → Byte → Byte) (l : Nat) (hl : l < 32) :
    cget 0 (setCtr g f).dup l = f l (cget 0 g.dup l) := cget_mapCtr f g.dup l hl

/-! ## Faults (R27, R100) -/

/-- What trap entry does to a group (R100). -/
theorem enterTrap_spec (g : Group) (code : Byte) (info : DWord) (rp : Pos) (entry : Nat) (t : State)
    (h : t.issue.cur = g.enterTrap code info rp entry) : TrapTaken g code info rp entry t := by
  unfold TrapTaken
  rw [h]
  refine ⟨rfl, rfl, fun l hl => ?_, rfl, rfl, rfl, rfl, rfl, rfl, rfl, rfl, rfl, rfl⟩
  exact ctr_setCtr g (fun _ x => if x = 255 then 255 else 0) l hl
/-- A fault of a group that can trap takes the trap, and nothing outside the issue changes (R27, R100). -/
theorem raiseAt_spec (s : State) (stage : Nat) (code : Byte) (info : DWord) (rp : Pos) (entry : Nat) (h : CanTrap s entry) :
    TrapTaken s.issue.pre code info rp entry (raiseAt s stage code info rp) ∧ OnlyIssue s (raiseAt s stage code info rp) ∧
      (raiseAt s stage code info rp).issue.verdict = .faulted stage s.issue.word := by
  obtain ⟨h1, h2, h3⟩ := h
  have e : raiseAt s stage code info rp = { s with issue := { s.issue with
      cur := s.issue.pre.enterTrap code info rp entry, verdict := .faulted stage s.issue.word, endRun := true, target := none
      kill := s.issue.kill.filter fun k => k.code = 0x42, events := [], sgReset := false } } := by
    unfold raiseAt
    dsimp only
    rw [h1, h2]
    simp [h3]
  rw [e]
  exact ⟨enterTrap_spec _ _ _ _ _ _ rfl, rfl, rfl⟩
/-- The operand check of a register at or above the allotment (R23, R50). -/
theorem checkRegs_regs {s : State} {regs : List Nat} {srcs : List Opnd} {r : Nat}
    (h : regs.find? (fun r => decide (s.issue.pre.regs ≤ r)) = some r) :
    checkRegs s regs srcs = some (raiseB s 3 0x03 r) := by
  unfold checkRegs; simp only [h]
/-- Operands that can be read: the word runs. -/
theorem withRegs_ok {s : State} {regs : List Nat} {srcs : List Opnd} {k : State → State} (h : RegsOk s regs srcs) :
    withRegs s regs srcs k = k s := by
  unfold withRegs; rw [checkRegs_none h, h.2.2]; rfl
/-- A taken branch to a packet in the code region (R72, R73). -/
theorem takeBranch_spec (s : State) (t : Int) (k : State → State) (h : InCode s t) :
    takeBranch s t k = k (landed s ⟨t.toNat, 0⟩) := by
  unfold takeBranch; rw [if_neg (by have := h.1; have := h.2; omega)]; rfl
/-- The offset of a branch as a signed number (R72). -/
theorem sextInt_toInt (n : Nat) (x : BitVec n) : sextInt n x.toNat = x.toInt := by
  unfold sextInt
  have hx := x.isLt
  rw [Nat.mod_eq_of_lt hx, BitVec.toInt_eq_toNat_cond]
  cases n with
  | zero => obtain rfl : x = 0 := BitVec.eq_of_getElem_eq (by omega); rfl
  | succ n => 
    have hp : 2 ^ (n + 1) = 2 ^ n * 2 := Nat.pow_succ ..
    rw [Nat.add_sub_cancel]
    by_cases h : x.toNat < 2 ^ n
    · rw [if_pos h, if_pos (by omega)]
    · rw [if_neg h, if_neg (by omega)]

end Sys2Proof.Machine
end

