-- ==== Sys2Proof/Tests/Slice0.lean ====
section
/-! SUPPORT. Tests on fixed values: what WellFormed refuses, words decoded by the encodings of the manual, single steps, and, for
each statement with hypotheses, concrete values that meet the hypotheses of each of its clauses. -/

open Sys2Proof Sys2Proof.Machine

namespace Sys2Proof.Tests

-- One evaluation at a time: side by side they need more memory than the check allows.
set_option Elab.async false

/-! ## WellFormed refuses -/

theorem test_wf_depth : Instr.wf (.breakL (.v 0) 253) = false ∧ Instr.wf (.contL (.v 0) 253) = false ∧
    Instr.wf (.breakL (.v 0) 252) = true := by decide
theorem test_wf_literals : Instr.wf (.iadd .none ⟨false, .v 0⟩ (.lit 1) (.lit 2)) = false ∧
    Instr.wf (.ffma ⟨false, .v 0⟩ (.lit 1) (.v 0) (.lit 2)) = false ∧ Instr.wf (.iadd .none ⟨false, .v 0⟩ (.lit 1) (.lit 1)) = true ∧
    Instr.wf (.wbr 0 (.lit 1) (.lit 2)) = false ∧ Instr.wf (.invr 0 (.lit 1) (.lit 2)) = false := by decide
theorem test_wf_conversions : Instr.wf (.fcvt .f32 .f32 .rne ⟨false, .v 0⟩ (.v 0)) = false ∧
    Instr.wf (.fcvt .f16 .f32 .rs ⟨false, .v 0⟩ (.v 0)) = false ∧ Instr.wf (.fcvt .bf16 .f32 .rs ⟨false, .v 0⟩ (.v 0)) = true ∧
    Instr.wf (.icvt .i32 .rs ⟨false, .v 0⟩ (.v 0)) = false := by decide
theorem test_wf_memory : Instr.wf (.ld .b64 .discard 0 .zero 0) = false ∧ Instr.wf (.lds .b128 .discard .zero 0) = false ∧
    Instr.wf (.ldsGang .b64 .discard 0 .zero 0) = false ∧ Instr.wf (.ldp .b64 .discard 0 .zero 0) = false ∧
    Instr.wf (.st .b64 .zero 0 .zero 0) = false ∧ Instr.wf (.sts .b32 (.lit 1) (.lit 2) 0) = false ∧
    Instr.wf (.ld .b32 .discard 0 .zero 0) = true := by decide
theorem test_wf_atomics : Instr.wf (.red .addN64 .dev false 0 .zero .zero) = false ∧
    Instr.wf (.atoms .addN32 .dev .rlx none (.v 0) .zero) = false ∧
    Instr.wf (.atoms .addN32 .team .rlx (some 1) (.v 0) .zero) = false ∧
    Instr.wf (.atoms .addN64 .team .rlx none .zero .zero) = false ∧ Instr.wf (.waita true 0 .zero .zero) = false ∧
    Instr.wf (.stl true .dev 0 .zero .zero) = false ∧ Instr.wf (.promote .team (.v 0)) = false := by decide
theorem test_wf_engines : Instr.wf (.asts .zero 0 .f16 0 0 .rs) = false ∧ Instr.wf (.asts .zero 0 .f32 0 0 .rz) = false ∧
    Instr.wf (.twin 0) = false ∧ Instr.wf (.twin 255) = false ∧ Instr.wf (.twin 254) = true ∧
    Instr.wf (.tloadw .zero 127 1) = false ∧ Instr.wf (.tourLd 0 5 5 0 false 0) = false ∧
    Instr.wf (.tourLd 0 5 6 0 false 0) = false ∧ Instr.wf (.tourAdd 0 5 7 0 false 4) = false := by decide
theorem test_wf_collectives : Instr.wf (.coll 0 .discard 0 none 0 .add .b8 false .allReduce) = false ∧
    Instr.wf (.coll 0 .discard 0 none 0 .min .f32 false .allGather) = false ∧
    Instr.wf (.coll 0 .discard 0 none 0 .add .b8 false .allToAll) = true := by decide

/-! ## Words of the manual's encodings (R54 to R71, R88, R321), written out field by field -/

/-- MAJOR [30:25], W [24], D [23:18], A [17:12], B [11:6], FN or E [5:0]. -/
def v3 (major w d a b e : Nat) : Nat := major * 2 ^ 25 + w * 2 ^ 24 + d * 2 ^ 18 + a * 2 ^ 12 + b * 2 ^ 6 + e

/-- The instruction read, and the reason of a rejection. -/
def reads (w lit : Nat) : Option Instr := (decode w lit).toOption
def rejects (w lit : Nat) : Option Reject := match decode w lit with | .error r => some r | .ok _ => none
def readsRv (w : Nat) : Option Instr := (decodeRv w).toOption

theorem test_decode_integer : reads (v3 0x04 0 8 4 5 7 + 2 ^ 31) 0 = some (.imul .low ⟨false, .v 8⟩ (.v 4) (.v 5)) ∧
    reads (v3 0x04 0 10 11 61 16) 0xFF = some (.iand ⟨false, .v 10⟩ (.v 11) (.lit 0xFF)) ∧
    reads (v3 0x06 0 3 1 48 2) 0 = some (.icmp .ltI ⟨false, .v 3⟩ (.v 1) (.k 0)) ∧
    reads (v3 0x04 0 8 4 5 15) 0 = some (.unassignedOpcode 0x0820414F) ∧
    rejects (v3 0x04 0 48 4 5 7) 0 = some .operandValue := by decide
theorem test_decode_lanes : reads (v3 0x08 0 10 6 0 17) 0 = some (.redq .addF32 ⟨false, .v 10⟩ (.v 6)) ∧
    reads (v3 0x0F 0 12 4 5 61) 0x5410 = some (.prmt ⟨false, .v 12⟩ (.v 4) (.v 5) (.lit 0x5410)) ∧
    rejects (v3 0x08 0 10 6 1 17) 0 = some .reservedField := by decide
theorem test_decode_conversion : reads (v3 0x07 0 9 4 (4 * 1) 2) 0 = some (.fcvt .bf16 .f32 .rs ⟨false, .v 9⟩ (.v 4)) ∧
    rejects (v3 0x07 0 9 4 4 1) 0 = some .combination := by decide
theorem test_decode_uniform : reads 0x020C3081 0 = some (.ksub 3 3 (.reg 2)) ∧ reads 0x04040005 0 = some (.kaddImm 1 5) ∧
    reads 0x07054000 0 = some (.setixK 5) := by decide
theorem test_decode_control : reads 0x002C0000 0 = some .yieldL ∧ reads 0x01FFFFFF 0 = some (.unassignedOpcode 0x01FFFFFF) ∧
    reads 0x00FFFFFF 0 = some (.bra 0x7FFFFF) := by decide
theorem test_decode_memory : reads 0x214932C1 0 = some (.st .b64 (.v 9) 1 (.v 11) 1) ∧
    reads 0x290602C0 0 = some (.ldp .b32 (.v 6) 0 (.v 11) 0) ∧ reads 0x22084180 0 = some (.xwopen 1 2 3) ∧
    reads 0x22840082 0 = some (.kldp false 4 0 1 2) := by decide
theorem test_decode_atomics : reads 0x2E134103 0 = some (.cas false .dev .ar 2 4 (.v 3)) ∧
    reads 0x2E50223C 0 = some (.aggr .dev .rlx 1 8 .zero) ∧ reads 0x30310C40 0 = some (.promote .dev (.k 1)) := by decide
theorem test_decode_sync : reads 0x3410001A 0 = some (.waitb .cp 3) ∧ reads 0x3420000A 0 = some (.waitc .cp 1) ∧
    reads 0x34914021 0 = some (.phsw 5 2 true) ∧ reads 0x34C00500 0 = some (.emit 0 5) ∧ reads 0x34B00000 0 = some .bar := by decide
theorem test_decode_engines : reads 0x36101484 0x04410000 = some (.mmqz 0 20 2 false .n4 false 4 1 0x10000) ∧
    reads 0x36300000 0x0003F000 = some (.aclr 0 0 63) ∧ reads 0x38000000 0x10 = some (.twin 16) ∧
    reads 0x323CB200 0x20 = some (.cpyx (.k 2) (.k 2) 0 none 0x20) := by decide
theorem test_decode_front_end : readsRv 0x0005850B = some (.fetchr 10 11) ∧ readsRv 0x00C5B50B = some (.disp 10 11 12) ∧
    readsRv 0x00C5C50B = none := by decide

/-! ## States that meet the hypotheses of the statements -/

/-- A window on 4 KiB of near memory at address 0, writable. -/
def win0 : Window := { isOpen := true, base := 0, size := 4096, limit := 4096, w := true }
/-- A group of 64 registers and 64 tiles, every lane active. -/
def g0 : Group := { team := 2, regs := 64, ntiles := 64, xw := [(1, win0)] }
/-- Its grid: four packets of code at VA 0 and a trap entry. -/
def gr0 : Grid := { codeSize := 4, trap := some 2, scratch := 65536, cores := [0], cursor := 1, pw := [(0, { size := 256, frame := 8192 })] }
/-- Its team. -/
def tm0 : Team := { grid := 1, ways := [0], scratch := 65536, groups := [3], bar := { rn := 1, rx := 1 } }
/-- A TLB entry of the page at VA 0: V, W, X, A and D set. -/
def tlb0 : TlbEntry := { ctx := 0, va := 0, bits := 12, pte := 0x79, at_ := 4096, dSet := true }
/-- The group issues the word at the position of its issue. -/
def st (g : Group) : State :=
  { nextId := 10, grids := [(1, gr0)], teams := [(2, tm0)], groups := [(3, g)], parts := [(0, { dies := 1 })]
    cores := [(0, { slots := [(0, { holder := some 3 })], tlb := [tlb0] })], dies := [(0, { tlb := [tlb0] })], issue := { gid := 3, pre := g, cur := g } }
/-- g with k register 1 holding x. -/
def gk (x : DWord) : Group := { g0 with k := [(1, x)] }

theorem witness_SpecialRegisterWrites :
    ((st { g0 with trap := { lvl := true } }).issue.pre.trap.lvl = true) ∧ (63#8).toNat < (st g0).issue.pre.regs ∧
    (kget (st (gk 63)).issue.pre 1).toNat < (st (gk 63)).issue.pre.regs := by decide
theorem witness_SpecialRegisterWrites_faults : CanTrap (st g0) 2 ∧ SReg.epc ≠ .status ∧ SReg.epc ≠ .seed ∧
    (st g0).issue.pre.regs ≤ (64#8).toNat ∧ CanTrap (st (gk 64)) 2 ∧ (st (gk 64)).issue.pre.regs ≤ (kget (st (gk 64)).issue.pre 1).toNat := by
  unfold CanTrap; decide
/-- IntegerWords, FloatWords, ConversionWords and LaneMovementWords. -/
theorem witness_vector_words : OperandsOk (st g0) [.v 47] (.v 0) ∧ OperandsOk (st g0) [.v 1, .lit 5] .discard ∧
    OperandsOk (st g0) [.v 1, .k 0, .lane] (.v 47) ∧ (st g0).issue.verdict = .done ∧ RMode.rne ≠ .rs ∧
    badStream (st g0).issue.pre (.v 1) (.lit 5) = false := by
  unfold OperandsOk RegsOk; decide
/-- UniformWords: a KB and a literal in the words without them, and an immediate form that does not exist. -/
theorem witness_UniformWords : CanTrap (st g0) 2 ∧ (1 : Nat) < 64 ∧ ¬((0 : Nat) = 0 ∧ (1 : Nat) = 0) ∧ 32 ≤ (34 : Nat) := by
  unfold CanTrap; decide
/-- SpecialFunctionBounds: operands 1, 4 and 2^-1, finite and in range. -/
theorem witness_SpecialFunctionBounds : OperandsOk (st g0) [.lit 0x3F800000] (.v 0) ∧
    [0x3F800000, 0x40800000, 0x3F000000].all (fun x => !fpNan .f32 x && !fpInf .f32 x) = true ∧
    fpNum .f32 0x3F800000 = 1 ∧ fpNum .f32 0x40800000 = 4 ∧ fpNum .f32 0x3F000000 = 1 / 2 := by
  refine ⟨by unfold OperandsOk RegsOk; decide, by decide, ?_, ?_, ?_⟩ <;>
    norm_num [fpNum, fpNeg, fpMag, fpExpField, fpFrac, FTy.ebits, FTy.mbits, FTy.bias]
theorem witness_VectorOperandFaults : CanTrap (st { g0 with ixb := 17 }) 2 ∧
    (namedRegs { g0 with ixb := 17 } [.v 0, .v 47] (dstRegs { g0 with ixb := 17 } (.v 0))).find?
      (fun r => decide (({ g0 with ixb := 17 } : Group).regs ≤ r)) = some 64 ∧
    (∀ r ∈ namedRegs g0 [.y 0] (dstRegs g0 (.v 0)), r < g0.regs) ∧ emptyLatch g0.y (.y 0) ≠ [] ∧ CanTrap (st g0) 2 ∧
    badSrcs { g0 with vBad := [35] } [.v 1] = true ∧ (st { g0 with vBad := [35] }).issue.kill = none ∧
    CanTrap (st { g0 with vBad := [35] }) 2 := by
  unfold CanTrap; decide
theorem witness_Branches : InCode (st g0) (0 + (3#23).toInt) ∧ kget (st g0).issue.pre 1 = 0 ∧ InCode (st g0) (0 + (0#14).toInt) ∧
    kget (st (gk 36)).issue.pre 1 ≠ 0 ∧ InCode (st (gk 36)) (0 + (3#14).toInt) ∧ (∃ l, l < 32 ∧ isActive (st g0).issue.pre l = true) ∧
    InCode (st g0) (0 + (3#20).toInt) ∧ (∀ l, l < 32 → isActive { g0 with c := (List.range 32).map fun l => (l, 1) } l = false) ∧
    (kget (st (gk 36)).issue.pre 1).toNat % 2 ^ 32 % 12 = 0 ∧ 36 / 12 < (gridOf (st (gk 36)) (gk 36)).codeSize := by
  unfold InCode; refine ⟨by decide, by decide, by decide, by decide, by decide, ⟨0, by decide⟩, by decide, by decide, by decide, by decide⟩
theorem witness_Branches_faults : CanTrap (st (gk 37)) 2 ∧ ¬InCode (st (gk 37)) (0 + (4#23).toInt) ∧ ¬InCode (st (gk 37)) (0 + (-1#23).toInt) ∧
    ¬InCode (st g0) (0 + (4#14).toInt) ∧ ¬InCode (st g0) (0 + (-1#20).toInt) ∧ (kget (st (gk 37)).issue.pre 1).toNat % 2 ^ 32 % 12 ≠ 0 ∧
    (kget (st (gk 48)).issue.pre 1).toNat % 2 ^ 32 % 12 = 0 ∧ (gridOf (st (gk 48)) (gk 48)).codeSize ≤ 48 / 12 ∧ CanTrap (st (gk 48)) 2 := by
  unfold InCode CanTrap; decide
/-- The group at call depth 1. -/
def gCall : Group := { gk 36 with calls := [⟨⟨1, 2⟩, []⟩] }
theorem witness_CallsAndReturns : InCode (st gCall) (0 + (3#23).toInt) ∧ gCall.calls.length ≠ 16 ∧
    (kget gCall 1).toNat % 2 ^ 32 = 12 * 3 ∧ InCode (st gCall) (3 : Nat) ∧ gCall.calls = [] ++ [⟨⟨1, 2⟩, []⟩] ∧ gCall.c = gCall.dup ∧
    ∀ l, l < 32 → ctr gCall l = 255 ∨ ctr gCall l = cget 0 ([] : Cells Byte) l := by unfold InCode; decide
theorem witness_CallsAndReturns_faults :
    let full : Group := { g0 with calls := List.replicate 16 ⟨⟨1, 2⟩, []⟩ }
    let far (n : Nat) : Group := { g0 with k := [(1, BitVec.ofNat 64 n)] }
    let out : Group := { g0 with calls := [⟨⟨1, 2⟩, [(0, 1)]⟩] }
    CanTrap (st full) 2 ∧ full.calls.length = 16 ∧ CanTrap (st g0) 2 ∧ g0.calls = [] ∧ ¬InCode (st g0) (0 + (-1#23).toInt) ∧
    CanTrap (st (far 13)) 2 ∧ (kget (far 13) 1).toNat % 2 ^ 32 % 12 ≠ 0 ∧ CanTrap (st (far 0xFFFFFFFC)) 2 ∧
    (kget (far 0xFFFFFFFC) 1).toNat % 2 ^ 32 % 12 = 0 ∧ (gridOf (st g0) g0).codeSize ≤ 0xFFFFFFFC / 12 ∧
    CanTrap (st out) 2 ∧ ctr out 0 ≠ 255 ∧ ctr out 0 ≠ cget 0 [(0, (1 : Byte))] 0 := by
  unfold CanTrap InCode; decide
/-- Every counter is x. -/
def gAll (x : Byte) : Group := { g0 with c := (List.range 32).map fun l => (l, x), dup := (List.range 32).map fun l => (l, x) }
theorem witness_MaskWords : OperandsOk (st g0) [.v 0] .discard ∧ (∀ l, l < 32 → ¬254 < (ctr (gAll 253) l).toNat + 1) ∧
    g0.c = g0.dup ∧ (∀ l, l < 32 → ¬254 < (ctr (gAll 252) l).toNat + 2) ∧ (∃ l, l < 32 ∧ (ctr g0 l = 0 ∨ ctr g0 l = 1)) ∧
    InCode (st g0) (0 + (0#20).toInt) ∧ (gAll 2).c = (gAll 2).dup ∧ ∀ l, l < 32 → ctr (gAll 2) l ≠ 0 ∧ ctr (gAll 2) l ≠ 1 := by
  unfold OperandsOk RegsOk InCode; refine ⟨by decide, by decide, by decide, by decide, ⟨0, by decide⟩, by decide, by decide, by decide⟩
theorem witness_MaskWords_faults : CanTrap (st (gAll 254)) 2 ∧ OperandsOk (st (gAll 254)) [.v 0] .discard ∧
    (ctr (gAll 254) 0 ≠ 255 ∧ ctr (gAll 254) 0 ≠ 0 ∧ 254 < (ctr (gAll 254) 0).toNat + 1) ∧ CanTrap (st (gAll 253)) 2 ∧
    (ctr (gAll 253) 0 ≠ 255 ∧ ctr (gAll 253) 0 ≠ 0 ∧ 254 < (ctr (gAll 253) 0).toNat + 2) ∧ CanTrap (st g0) 2 ∧
    ¬InCode (st g0) (0 + (-1#20).toInt) ∧ ({ g0 with c := [(0, 1)], trap := { lvl := true } } : Group).c ≠ g0.dup := by
  unfold CanTrap OperandsOk RegsOk InCode; decide
theorem witness_ExitYieldSleepNop : (st g0).issue.cur.c = g0.c ∧ (∀ l, l < 32 → ctr g0 l = 0 ∨ ctr g0 l = 255) ∧ (1#16) ≠ 0 ∧
    (kget (gk 1) 1).toNat % 2 ^ 32 ≠ 0 ∧ (kget (gk 0) 1).toNat % 2 ^ 32 = 0 := by decide
theorem witness_TrapEntry : CanTrap (st g0) 2 := by unfold CanTrap; decide
theorem witness_DoubleFaultAborts : (st { g0 with trap := { lvl := true } }).issue.pre.trap.lvl = true ∧
    mget (st { g0 with trap := { lvl := true } }).grids (gidOf (st { g0 with trap := { lvl := true } }) { g0 with trap := { lvl := true } }) =
      some gr0 ∧ gr0.ending = .running := by decide
theorem witness_TrapReturn : let g : Group := { g0 with trap := { lvl := true, epc := ⟨3, 2⟩ } }
    g.trap.lvl = true ∧ g.c = g.dup ∧ (∀ l, l < 32 → ctr g l = 0 ∨ ctr g l = 255) ∧ g.calls.length = g.trap.depth ∧
    g.trap.epc.word ≠ 3 ∧ g.trap.epc.pkt < (gridOf (st g) g).codeSize ∧ CanTrap (st g0) 2 := by unfold CanTrap; decide
theorem witness_TrapReturn_double : let g : Group := { g0 with trap := { lvl := true, epc := ⟨3, 3⟩ } }
    g.trap.lvl = true ∧ g.c = g.dup ∧ mget (st g).grids (gidOf (st g) g) = some gr0 ∧ gr0.ending = .running ∧ g.trap.epc.word = 3 := by
  decide
theorem witness_SignatureCheck : (st { g0 with trap := { lvl := true } }).issue.pre.trap.lvl = true ∧
    (st g0).issue.pre.trap.lvl = false ∧ (st g0).issue.pre.sg = 0 ∧ (st g0).issue.pre.sg ≠ 1 := by decide

/-- g with one active lane. -/
def one (g : Group) : Group := { g with c := (List.range 31).map fun l => (l + 1, 255), dup := (List.range 31).map fun l => (l + 1, 255) }
def g1 : Group := one g0
/-- The access of n bytes at offset 0 of window 1 passes its checks, one access for each item. -/
def passes (g : Group) (items : List Item) (write : Bool) (tierOk : Nat → Bool) : Bool :=
  match checkAccess (memClass (st g)) 1 items write tierOk with
  | .ok s1 acc u => u = 0 && acc.length = items.length && decide (outstanding s1 0 + acc.length ≤ Config.requests)
  | _ => false
theorem witness_WindowAccess : (match checkAccess (st g1) 1 [{ lane := 0, off := 4092, size := 4 }] true anyTier with
    | .ok _ acc _ => acc.map (·.pa) == [4092] | _ => false) = true := by decide
theorem witness_WindowFaults :
    let items (o : Word) : List Item := mItems { g1 with v := [(32, o)] } (.v 1) 0 4
    CanTrap (st g1) 2 ∧ RegsOk (st g1) (opndRegs g1 (.v 1) ++ top (ldRegs g1 (.v 0) 4)) [.v 1] ∧ items 0 = [⟨0, 0, 4, false⟩] ∧
    (xwget g1 0).isOpen = false ∧ (xwget g1 1).isOpen = true ∧ (((xwget g1 1).base : Int) + 2) % 4 ≠ 0 ∧
    items 2 = [⟨0, 2, 4, false⟩] ∧ items 4096 = [⟨0, 4096, 4, false⟩] ∧ (((xwget g1 1).base : Int) + 4096) % 4 = 0 ∧
    (((xwget g1 1).size : Int) < 4096 + 4) := by unfold CanTrap RegsOk; decide
theorem witness_LaneLoads : RegsOk (st g1) (opndRegs g1 .zero ++ top (ldRegs g1 (.v 44) 16)) [.zero] ∧
    passes g1 (mItems g1 .zero 0 16) false anyTier = true ∧ (mItems g1 .zero 0 16) ≠ [] ∧ (pwin (st g1) g1 0).size ≠ 0 ∧
    ∀ i ∈ mItems g1 .zero 0 16, i.off % (i.size : Int) = 0 := by unfold RegsOk; decide
theorem witness_LaneStores : RegsOk (st g1) (top (stRegs g1 (.v 0) 4) ++ opndRegs g1 .lane) [.v 0, .lane] ∧
    passes g1 (mItems g1 .lane 0 4) true anyTier = true ∧
    (match checkAccess (memClass (st g1)) 1 (mItems g1 .lane 0 4) true anyTier with
      | .ok s1 acc u => u = 0 && acc.length = 1 && (acc.filter (goesOn s1 4)).isEmpty && (byLine (acc.filter (goesOn s1 4))).length = 0
      | _ => false) = true := by unfold RegsOk; decide
theorem witness_ScratchWords : RegsOk (st g1) (opndRegs g1 .zero ++ top (ldRegs g1 (.v 0) 4)) [.zero] ∧
    ScratchOk (st g1) none (mItems g1 .zero 0 4) 2 ∧ ScratchOk (st g1) (some 0) (mItems g1 .zero 0 4) 2 ∧
    RegsOk (st g1) (top (stRegs g1 (.v 0) 4) ++ opndRegs g1 .zero) [.v 0, .zero] ∧
    ScratchOk (st g1) none (aItems g1 .zero 4) 2 := by unfold RegsOk ScratchOk; decide
/-- g1 with lane register 0 of lane 0 flagged. -/
def gFlag : Group := { g1 with v := [(0, 1)] }
theorem witness_AtomicWords : RegsOk (st g1) (top (vRun g1 0 1) ++ opndRegs g1 .zero) [.zero] ∧
    passes g1 (aItems g1 .zero 4) true (atomTier .addN32) = true ∧ RegsOk (st g1) (top (stRegs g1 (.v 0) 4) ++ opndRegs g1 .zero) [.v 0, .zero] ∧
    RegsOk (st g1) (top (vRun g1 0 (kBytes false / 2)) ++ opndRegs g1 .zero) [.zero] ∧ passes g1 (aItems g1 .zero (kBytes false)) true anyTier = true ∧
    (workLanes gFlag).filter (fun l => vget gFlag 0 l != 0) = [0] ∧ RegsOk (st gFlag) (0 :: opndRegs gFlag .zero) [.zero] ∧
    passes gFlag [{ lane := 0, off := ((opv gFlag .zero 0).toNat : Int), size := 4 }] true anyTier = true := by unfold RegsOk; decide
theorem witness_OrderedWords : RegsOk (st g1) (top (vRun g1 0 2) ++ opndRegs g1 .zero) [.zero] ∧
    passes g1 [{ lane := 0, off := 0, size := 4 }, { lane := 0, off := ((vget g1 1 0).toNat : Int), size := 4, sec := true }] true anyTier = true ∧
    passes g1 (aItems g1 .zero 4) false anyTier = true ∧ RegsOk (st g1) (top (stRegs g1 (.v 0) 4) ++ opndRegs g1 .zero) [.v 0, .zero] ∧
    passes g1 (aItems g1 .zero 4) true anyTier = true := by unfold RegsOk; decide
/-- g with one held result. -/
def held (g : Group) (ops : List Nat) (r : Option DWord) : Group := { g with hold := [{ pos := {}, word := 0, ops := ops, res := r }] }
theorem witness_FencesAndPromote : loadsOut (st g1) 3 = false ∧ findHold (memClass (st g1)) [0] = none ∧ allBound (st g1) 3 = [] ∧
    allBound { st g1 with net := [{ id := 7, srcDie := 0, srcCore := 0, home := .slice 0 0, gid := some 3, body := .write [(0, 1)] [] none }] } 3 ≠ [] ∧
    (findHold (memClass (st (held g1 [0] none))) [0]).map (fun h => h.waitFor.all (performed (st (held g1 [0] none)))) = some true ∧
    RegsOk (st g1) (opndRegs g1 (.lit 23)) [.lit 23] ∧ activeLanes g1 = [0] ∧ (opv g1 (.lit 23) 0).toNat % 1024 = 23 ∧
    (part (st g1) (partOf (st g1) g1)).dies.getLsbD (23 / 24) = true ∧ findHold (st g1) [4, 23, Scope.die.code] = none ∧
    ((findHold (st (held g1 [4, 23, Scope.die.code] (some 0))) [4, 23, Scope.die.code]).map fun h => h.res.isSome) = some true := by
  unfold RegsOk; decide
theorem witness_RangeAndWaitWords : RegsOk (st g1) (top (stRegs g1 (.v 0) 4) ++ opndRegs g1 .zero) [.v 0, .zero] ∧
    (activeLanes g1).head? = some 0 ∧ passes g1 [{ lane := 0, off := ((opv g1 .zero 0).toNat : Int), size := 4 }] false anyTier = true ∧
    RegsOk (st g1) (opndRegs g1 .zero) [.zero] ∧ workLanes g1 = [0] ∧ (xwget g1 0).isOpen = false ∧ (xwget g1 1).isOpen = true ∧
    (opv g1 .zero 0).toNat < (xwget g1 1).size ∧ outstanding (memClass (st g1)) 0 < Config.requests ∧
    (match (xlateDie (memClass (st g1)) 0 0 0 0 false).2 with | .ok pa _ => cacheable pa | _ => false) = true ∧
    (opv g1 .zero 0).toNat + (opv g1 (.lit 4096) 0).toNat ≤ (xwget g1 1).size ∧
    (let ps := (rangePieces (memClass (st g1)) g1 0 4096).2; ps.held = false ∧ ps.bad = none ∧ inPieces ps.got 1 0 = true) ∧
    RegsOk (st g1) (opndRegs g1 (.lit 4096) ++ opndRegs g1 .zero) [.lit 4096, .zero] := by unfold RegsOk; decide
theorem witness_WindowsAndUniformLoads :
    let g : Group := { g1 with k := [(2, 64)], heldWalks := [⟨⟨{}, 0, [0, 64]⟩, 0, false, .leaf 0 12 0x79 4096⟩] }
    let s := memClass (st g)
    (kget g 1).toNat < 2 ^ 48 ∧ 0 < (kget g 2).toNat ∧ (kget g 2).toNat ≤ 2 ^ 32 ∧ (kget g 1).toNat + (kget g 2).toNat ≤ 2 ^ 48 ∧
    (match xlateGroup s 0 (partOf (st g) g) (ctxOf (st g) g) 0 false (heldFor s [0, 64]) with | .ok _ _ => true | _ => false) = true ∧
    findHold s [9, 1, 0, 64] = none ∧ findHold (st g) [8, 1, 252] = none ∧ findHold s [6, 1, 252] = none ∧
    (match openWindow s g 0 64 with | .ok (_, w) => w.isOpen | _ => false) = true ∧ (pwin (st g) g 0).size ≠ 0 ∧
    ((kget g 1).toNat % 2 ^ 32 + 63 * 4) % 4 = 0 ∧ (kget g 1).toNat % 2 ^ 32 + 63 * 4 + 4 ≤ (pwin (st g) g 0).size ∧
    (Machine.core (st g) 0).cc = [] ∧ (∀ i, i < 4 → resolve (st g) ((pwin (st g) g 0).frame + (252 + i)) = some (8192 + 252 + i)) ∧
    (findHold (memClass (st (held g1 [6, 0, 0] (some 7)))) [6, 0, kOffset (memClass (st (held g1 [6, 0, 0] (some 7)))) 1 0 4]).map (·.res) =
      some (some 7) := by decide
/-- The core's L1 holds the word at address 252, and KLDG reads it through window 1. -/
theorem witness_UniformLoadHits :
    let t : State := { st g1 with cores := [(0, { slots := [(0, { holder := some 3 })], tlb := [tlb0], l1 := [(1, { words := [(31, { val := 5 })] })] })] }
    cacheable 252 = true ∧ (match checkAccess (memClass t) 1 [{ lane := 0, off := 252, size := 4 }] false anyTier with
      | .ok u acc x => acc == [⟨0, 252, 4, false, false⟩] && x == 0 && (List.range 4).all fun i => (l1Word u 0 (252 + i)).isSome
      | _ => false) = true := by decide
theorem witness_CopyWords :
    let g : Group := { g0 with k := [(1, 0), (2, 0x00100000)] }
    let rows := linearRows (eopW g (.k 1)) (eopW g (.k 2) / 2 ^ 20 + 1) 16 (eopW g (.k 2) % 2 ^ 20) 16
    (xwget g 1).isOpen = true ∧ ¬Config.copyQueue ≤ ((st g).copies.filter fun x => x.2.core = 0).length ∧ rows.length = 2 ∧
    (∀ r ∈ rows, r.2.1 % 16 = 0 ∧ r.2.2 % 16 = 0 ∧ r.2.1 + 16 ≤ 4096 ∧ r.2.2 + 16 ≤ (team (st g) 2).scratch) ∧
    0 + 47 < g.regs ∧ (∀ r ∈ (activeLanes g).map fun l => (l, (vget g 47 l).toNat, eopW g .zero % 2 ^ 20 + l * 16),
      r.2.1 % 16 = 0 ∧ r.2.2 % 16 = 0 ∧ r.2.1 + 16 ≤ 4096 ∧ r.2.2 + 16 ≤ (team (st g) 2).scratch) ∧
    (eopW g .zero % 2 ^ 20) % 2 = 0 ∧ eopW g .zero % 2 ^ 20 + 2 * 32 ≤ (team (st g) 2).scratch ∧
    eopW g .zero + (3 * 32 + 1) / 2 ≤ (xwget g 1).size := by decide
theorem witness_CopyWords_tags :
    let g (h : Handle) : Group := { g0 with h := [(3, h)] }
    let none_ := g {}
    let waits := g { st := .bound, waits := true }
    let signals := g { st := .bound, signals := true }
    let s := st signals
    let full := { s with copies := (List.range 64).map fun i => (i, { gid := 0, core := 0, ins := .nop }) }
    CanTrap (st none_) 2 ∧ (hget none_ 3).st ≠ .bound ∧ CanTrap (st waits) 2 ∧ (hget waits 3).st = .bound ∧
    (hget waits 3).signals = false ∧ (hget signals 3).st = .bound ∧ (hget signals 3).signals = true ∧
    Config.copyQueue ≤ (full.copies.filter fun x => x.2.core = full.issue.pre.core).length ∧ (xwget full.issue.pre 1).isOpen = true := by
  unfold CanTrap; decide

theorem witness_BatchWords :
    let e : Machine.Class := { err := true, cause := 0x1F }
    let done (y : Machine.Class) (m : Byte) : Bool := !decide ((y.next - 1 - m).toNat < min 128 y.count)
    (clsOf (st g0).issue.cur .ld).count < 128 ∧ done (clsOf (st g0).issue.pre .ld) 0 = true ∧ (clsOf (st g0).issue.pre .ld).err = false ∧
    done (clsOf { g0 with cls := [(0, { next := 1, count := 1 })] } .ld) 0 = false ∧
    done (clsOf { g0 with cls := [(0, { next := 1, count := 1 })] } .ld) 1 = true ∧
    done (clsOf { g0 with cls := [(0, e)] } .ld) 0 = true ∧ (clsOf { g0 with cls := [(0, e)] } .ld).err = true ∧
    decide ((clsOf { g0 with cls := [(0, { count := 128 })] } .ld).count ≤ (127#8).toNat) = false ∧
    decide ((clsOf { g0 with cls := [(0, { count := 128 })] } .ld).count ≤ (128#8).toNat) = true ∧
    CanTrap (st { g0 with cls := [(0, e)] }) 2 := by unfold CanTrap; decide
/-- A handle bound to object 5 that signals phase n. -/
def bound (n : Word) : Handle := { st := .bound, signals := true, waits := true, id := 5, s := n, rid := 16 }
/-- The group holds handle 1, and object 5 has a node at the group's core. -/
def stp (h : Handle) (p : Phaser) (n : PhNode) : State :=
  { st { gk 1 with h := [(1, h)] } with phs := [(5, { p with nodes := [(0, n)] })] }
theorem witness_PhaserSignalsAndWaits :
    let s := stp (bound 1) { scope := 1 } { rn := 2, rx := 2 }
    let n := leafNode s 5
    s.issue.cur = s.issue.pre ∧ (hget s.issue.pre 1).st = .bound ∧ (hget s.issue.pre 1).obj = 5 ∧ (mget s.phs 5).isSome = true ∧
    (bound 1).waits = true ∧ (n.o - 1 - (kget s.issue.pre 0).truncate 32).toNat < 2 ^ 31 ∧
    2 ^ 31 ≤ (n.o - 1 - (kget s.issue.pre 1).truncate 32).toNat ∧ (bound 1).signals = true ∧ n.via = [] ∧
    (bound 1).s = n.o ∧ n.a + 1 ≠ n.rn ∧ (bound 2).s = n.o + 1 ∧
    (leafNode (stp (bound 1) { scope := 1 } { rn := 1, rx := 1 }) 5).a + 1 = 1 ∧ n.sent = false ∧ (1 : Nat) ≠ 0 ∧
    (leafNode (stp (bound 1) {} { rn := 1, rx := 1 }) 5).e ≠ 1 ∧ n.held = [] ∧ n.leaving = [] ∧ n.x = false ∧
    homeBound { s with net := [{ id := 7, srcDie := 0, srcCore := 0, home := .slice 0 0, gid := some 3, body := .write [(0, 1)] [] none }] } 3 ≠ [] := by
  decide
theorem witness_PhaserRegistration :
    let s := st { g0 with k := [(1, 0x35), (2, 5)] }
    let g := s.issue.pre
    let j (p : Phaser) : State := { s with phs := [(5, { p with nodes := [(0, { rn := 1, rx := 1 })] })] }
    s.issue.cur = g ∧ slotPos g < 64 ∧ (hget g 1).st = .unbound ∧ findHold s [3, 1] = none ∧ (kget g 1).toNat < 64 ∧
    bit (kget g 1).toNat 3 = false ∧ (kget g 1).toNat / 16 % 4 ≠ 0 ∧ (kget g 1).toNat % 4 ≠ 3 ∧
    ((findHold (st (held g [5, 1, 5, 3] (some 2))) [5, 1, 5, 3]).map (·.res)) = some (some 2) ∧
    findHold s [5, 1, (kget g 2).toNat, 3] = none ∧ resolveId s g (kget g 2).toNat = some 5 ∧ (phaserOf (j { scope := 1 }) 5).marked = false ∧
    (phaserOf (j { scope := 1 }) 5).part = partOf s g ∧ (phaserOf (j { scope := 1 }) 5).ctx = ctxOf s g ∧ admits s { scope := 1 } g = true ∧
    admits s { grid := some 1 } g = true ∧ liveObjects s < Config.phasers ∧ admits s { scope := 1, here := false } g = true ∧ (mget s.groups 3).isSome = true ∧ handleGroup s 5 (ridOf s g 1) .joining = none ∧
    mget (phaserOf (j {}) 5).nodes 0 = some { rn := 1, rx := 1 } ∧
    (hget (stp (bound 1) { scope := 1 } { rn := 1 }).issue.pre 1).obj = 5 := by decide
theorem witness_freeLid : ∃ l, freeLid (st { g0 with k := [(1, 0x35), (2, 5)] }) = some l := by
  have h : ∀ (xs : List Nat) (n : Nat), xs ≠ [] → ∃ l, xs[n % xs.length]? = some l :=
    fun xs n h => ⟨_, List.getElem?_eq_getElem (Nat.mod_lt _ (List.length_pos_iff.2 h))⟩
  unfold freeLid
  dsimp only
  rw [if_pos (by decide)]
  exact h _ _ (List.ne_nil_of_mem (a := 0) (List.mem_filter.2 ⟨List.mem_range.2 (by decide), by decide⟩))
theorem witness_BarrierAndRecords :
    let n : NodeDecl := { bytes := 8, regs := 16 }
    let s : State := { st g1 with grids := [(1, { gr0 with nodes := [(5, n)] })] }
    (s.ops.all fun o => o.2.gid != 3 || !o.2.holdsBar || o.2.parts = 0) = true ∧ (mget s.teams 2).isSome = true ∧
    (team s 2).node = none ∧ (team s 2).bar.a + 1 = (team s 2).bar.rn ∧ 3 ∈ (team s 2).groups ∧ (mget s.groups 3).isSome = true ∧
    ({ tm0 with bar := { rn := 2, rx := 2 } } : Team).bar.a + 1 ≠ 2 ∧ mget (grid s 1).nodes 5 = some n ∧
    RegsOk s (top [0, 1]) [] ∧ badRegs s (activeLanes g1) [0, 1] = false ∧ g1.uEmit = none ∧ homeBound s 3 = [] ∧ closedStores s 3 = [] ∧
    ∀ d, gatherLoad s d 1 5 + 32 ≤ Config.gatherRecords := by
  refine ⟨by decide, by decide, by decide, by decide, by decide, by decide, by decide, by decide, by unfold RegsOk; decide, by decide,
    by decide, by decide, by decide, fun d => ?_⟩
  rcases d with _ | d
  · decide
  · exact (by decide : 0 + 32 ≤ Config.gatherRecords)
theorem witness_MatrixIssue :
    let s := st { g1 with regs := 64 }
    let g := s.issue.pre
    rising none g.v = true ∧ (slotOf (Machine.core s 0) 0).mx.length < Config.matrixQueue ∧ (slotOf (Machine.core s 0) 0).coll = none ∧
    RegsOk s [0 + 47 + 15] [] ∧ RegsOk s [0 + 47 + 15, 0 + 47] [] ∧ 4 * (15#8).toNat + 4 ≤ g.ntiles ∧
    (0x4000#20).toNat % 64 = 0 ∧ (0x4000#20).toNat + bBytes (mmTypes .bf16).2 (mmK (mmTypes .bf16).2) ≤ (team s 2).scratch ∧
    (∀ qt ∈ liveQuarters (activeMask g), ((0x4000#20).toNat + (vget g 47 (8 * qt)).toNat) % 64 = 0) ∧
    (0#20).toNat % 64 = 0 ∧ (0#20).toNat + bBytes (qType .n4) 32 ≤ (team s 2).scratch ∧ (63#10).toNat + (0 + 1) ≤ g.ntiles ∧
    eopW g .zero % 16 = 0 ∧ eopW g .zero + 64 * 128 * elBytes (aldTy .f32) ≤ (team s 2).scratch ∧
    eopW g .zero + 128 * 64 * elBytes .f16 ≤ (team s 2).scratch ∧ (60#10).toNat % 4 = 0 ∧ ((3#10).toNat + 1) % 4 = 0 ∧
    (60#10).toNat + ((3#10).toNat + 1) ≤ g.ntiles := by unfold RegsOk; decide
theorem witness_TempoIssue :
    let s := st g1
    let g := s.issue.pre
    rising none g.v = true ∧ (Machine.core s 0).tq.length < Config.tempoQueue ∧ eopW g .zero % 16 = 0 ∧
    eopW g .zero + 128 * ((127#7).toNat + 1) ≤ (team s 2).scratch ∧ RegsOk s [0 + 47] [] := by unfold RegsOk; decide
theorem witness_TourWords :
    let s : State := { st g1 with mem := [(8192, 1), (8248, 2)] }
    let a := listWords (memClass s) 0 (pwin s g1 0) 0 1
    let b := listWords a.1 0 (pwin s g1 0) 8 5
    RegsOk s [0 + 0 + 1, 0 + 46 + 1, 0 + 45] [] ∧ findHold (memClass s) [7, 0, 0] = none ∧ (pwin s g1 0).size ≠ 0 ∧ activeLanes g1 ≠ [] ∧ a.2 = ([1], false) ∧ b.2.2 = false ∧
    ((b.2.1.drop 4).mapIdx fun i x => badStep x (i + 1 = 1)).any id = false ∧ freeTour g1 = some 0 ∧
    outstanding b.1 0 + 1 ≤ Config.requests := by unfold RegsOk; decide
theorem witness_CollectiveWords :
    let g : Group := { g1 with k := [(2, 8)], h := [(1, bound 1)] }
    let x : Comm := { dies := 1 }
    let s : State := { st g with comms := [(3, x)] }
    RegsOk s (dstRegs g (.v 47)) [] ∧ (s.colls.filter fun x => x.2.die = 0).length < Config.collQueue ∧ (xwget g 1).isOpen = true ∧
    (kget g 0).toNat % elemSize .f32 = 0 ∧ (kget g 0).toNat + srcCount .allReduce 1 (kget g 2).toNat * elemSize .f32 ≤ (xwget g 1).size ∧
    (kget g 1).toNat + dstCount .allReduce 1 (kget g 2).toNat * elemSize .f32 ≤ (xwget g 1).size ∧
    (hget g 1).st = .bound ∧ (hget g 1).signals = true ∧ mget s.comms (commKey 0 0 3) = some x ∧ mget s.comms (commKey 0 0 4) = none ∧
    x.dies.getLsbD 0 = true ∧ x.aborted.contains (cget 0 x.issued 0) = false ∧ (kget g 3).toNat % 8 = 0 ∧
    (kget g 3).toNat + 64 ≤ (xwget g 1).size ∧
    (match checkAccess (memClass s) 1 ((List.range 64).map fun i => { lane := 0, off := ((kget g 3).toNat + i : Nat), size := 1 }) false anyTier with
      | .ok s1 acc _ => acc.length = 64 && (homeBound s1 3).isEmpty | _ => false) = true ∧
    s.colls = [] ∧ mget s.colls (s.nextId + 1) = none := by unfold RegsOk; decide

/-- No issue is in progress; the group is g. -/
def sq (g : Group) : State := { st g with issue := {} }
/-- Operation 11 of class c, with one part outstanding. -/
def op0 (c : EngineClass) : Op := { gid := 3, cls := c, parts := 1 }
def mx0 (i : Instr) : MxCmd := { gid := 3, strm := 0, ins := i, mask := 0xFFFFFFFF, op := 11 }
theorem witness_EngineEvents :
    let s (i : Instr) : State := { sq g0 with ops := [(11, op0 .mx)], cores := [(0, { slots := [(0, { mx := [mx0 i] })] })] }
    let t (i : Instr) : State := { sq g0 with ops := [(11, op0 .tm)], cores := [(0, { tq := [{ gid := 3, ins := i, op := 11 }] })] }
    let c : Copy := { gid := 3, core := 0, ins := .cpy .zero .zero 1 none 0 1, op := 11 }
    let b (st : GStatus) : Group := { g0 with cls := [(0, { next := 1, count := 1 })], status := st }
    let u (st : GStatus) : State := { sq (b st) with ops := [(11, { op0 .ld with batch := some 0, parts := 0 })] }
    mget (s .nop).groups 3 = some g0 ∧ mget (s .nop).ops 11 = some (op0 .mx) ∧
    mxTurn (s (.aclr 0 0 63)) 0 0 = some (mx0 (.aclr 0 0 63)) ∧ mxTurn (s (.amov 0 0 0)) 0 0 = some (mx0 (.amov 0 0 0)) ∧
    mxTurn (s (.mmq 0 none 0 false .bf16 0 0)) 0 0 = some (mx0 (.mmq 0 none 0 false .bf16 0 0)) ∧ (mx0 .nop).left = none ∧
    ((0#20).toNat + (cget 0 (mx0 .nop).b 0).toNat) % 4 = 0 ∧ (0x4000 : DWord).toNat % 2 ^ 32 % 4 = 0 ∧ inMask (mx0 .nop).mask 31 = true ∧ g0.tilesBad = [] ∧ (team (s .nop) 2).carveBad = [] ∧
    (Machine.core (t (.twin 1)) 0).tq = [{ gid := 3, ins := .twin 1, op := 11 }] ∧ scratchDone (t (.twin 1)) 3 11 = true ∧
    (Machine.core (t .treset) 0).tempo.bad = [] ∧ (Machine.core (t (.tfire false)) 0).tempo.mode.getLsbD 0 = false ∧
    c.units = [] ∧ c.out = 0 ∧ c.op = 11 ∧ isCpyx c.ins = false ∧
    batchReady (u .ready) 3 .ld = true ∧ (u .ready).issue.gid ≠ 3 ∧ oldestBatch (clsOf (b .ready) .ld) = 0 ∧
    (∀ y ∈ (u .ready).ops, y.2.tag = none) ∧ (clsOf (b .ready) .ld).err = false ∧
    (b (.waiting (.batch .ld 0))).status = .waiting (.batch .ld (oldestBatch (clsOf (b (.waiting (.batch .ld 0))) .ld))) ∧
    batchReady (u (.waiting (.batch .ld 0))) 3 .ld = true ∧ (b (.waiting .sleep)).sleepLeft ≤ 0 - (b (.waiting .sleep)).since := by decide
theorem witness_RunAndGroupEnds :
    let g : Group := { g0 with stalled := true, walksOut := [9] }
    let d : Group := { g0 with status := .waiting .drain }
    let ab (d : Group) : State := { sq d with
      ops := [(11, { op0 .st with parts := 0 })], grids := mmap (sq d).grids fun _ x => { x with ending := .aborting 0x43 } }
    rising none (sq g).groups = true ∧ mget (sq g).groups 3 = some g ∧ (slotOf (Machine.core (sq g) 0) 0).holder = some 3 ∧ g.walksOut ≠ [] ∧
    (∀ o ∈ (sq d).ops, o.2.gid = 3 → stoppedGroup (sq d) d = true ∧ o.2.parts = 0) ∧
    (∃ o ∈ (ab d).ops, o.2.gid = 3) ∧ (∀ o ∈ (ab d).ops, o.2.gid = 3 → stoppedGroup (ab d) d = true ∧ o.2.parts = 0) ∧
    (∀ p ∈ (sq d).ports, p.2.gid ≠ 3) ∧ d.h = [] ∧ leftError d = none ∧
    (mget (sq d).teams 2).isSome = true ∧ (team (sq d) 2).groups = [3] ∧ (∃ k ∈ ({ tm0 with groups := [3, 4] } : Team).groups, k ≠ 3) ∧
    ({ tm0 with node := some 1 } : Team).node.isSome = true := by decide
/-- Message 9, at its home, arrives. -/
def at9 (g : Group) (h : Home) (b : Body) : State :=
  { sq g with net := [{ id := 9, srcDie := 0, srcCore := 0, home := h, gid := some 3, body := b }], arriving := .msg 9 }
def msg9 (h : Home) (b : Body) : Msg := { id := 9, srcDie := 0, srcCore := 0, home := h, gid := some 3, body := b }
theorem witness_HomeMessages :
    let a (b : Body) : Prop := Arrives (at9 g0 (homeOf 0) b) (msg9 (homeOf 0) b)
    let w : Body := .write [(0, 1), (1, 2)] [] (some 11)
    let rel (x : Release) : State := { at9 g0 (homeOf 0) (.marker 5) with rels := [(5, x)] }
    a (.read 0 [0] (.load 11 .b32 [(0, 0, 0)] [] [] false)) ∧ a w ∧ ([(0, 1), (1, 2)].map (·.1)).Nodup ∧
    Arrives (at9 g0 (.core 0) (.swrite 11 2 [(0, 1)])) (msg9 (.core 0) (.swrite 11 2 [(0, 1)])) ∧ (mget (at9 g0 (.core 0) w).teams 2).isSome = true ∧
    a (.atomic 11 (.op .addN32) none [{ lane := 0, pa := 0, v := 1, reg := some 0 }]) ∧ poisoned (at9 g0 (homeOf 0) w) 0 4 = false ∧
    a (.engine 12 [(0, 1)] []) ∧ Arrives (rel { gid := 3, body := w, home := homeOf 0 }) (msg9 (homeOf 0) (.marker 5)) ∧
    mget (rel { gid := 3, body := w, home := homeOf 0, pending := [7] }).rels 5 = some { gid := 3, body := w, home := homeOf 0, pending := [7] } ∧
    a (.report 5 7) ∧ a (.tour 3 0 0 0 0 0) ∧ 0 + 1 = (tourSlot { g0 with tours := [(0, { steps := [0] })] } 0).steps.length := by
  unfold Arrives; decide
theorem witness_AnswersAtTheCore :
    let a (g : Group) (b : Body) : Prop := Arrives { at9 g (.core 0) b with ops := [(11, op0 .ld)] } (msg9 (.core 0) b)
    let g : Group := { g0 with tours := [(0, { op := 11, d := 0, stat := 2 })] }
    a g0 (.data (.load 11 .b32 [(31, 0, 0)] [] [] false) [(0, 1)] [] false) ∧ ldBytes .b32 ≤ 4 ∧ (op0 .ld).discard = false ∧
    a g0 (.atomData 11 none [(31, 0, 5)] false) ∧ a g0 (.ack 11 false) ∧ a g0 (.ack 11 true) ∧ (clsOf g0 .ld).err = false ∧
    a g (.tourRet 3 0 31 0 7 5 0 0) ∧ a g0 (.data (.load 11 .b32 [(31, 0, 0)] [] [] false) [] [] true) ∧ (op0 .ld).failed = false ∧ (tourSlot g 0).op = 11 ∧ (tourSlot g 0).d + 1 < (tourSlot g 0).stat ∧
    a g (.page 3 0 0 0 0) ∧ (tourLane (tourSlot g 0) 0).woken = false ∧ killedGroup (sq g) g = false ∧ (sq g).issue.gid ≠ 3 := by
  unfold Arrives; decide
theorem witness_WakesAndControl :
    let a (g : Group) (h : Home) (b : Body) : Prop := Arrives (at9 g h b) (msg9 h b)
    let v : Inval := { ctx := 0, entry := 0, count := 1, level := 4, values := 0, cores := [0] }
    let p : State := { at9 g0 (.core 0) (.inval 0 0) with parts := [(0, { dies := 1, inval := [v] })] }
    let n : State := { at9 g0 (.die 0) (.record 1 5 [[1]]) with grids := [(1, { gr0 with nodes := [(5, { timer := 2 })] })] }
    let c : State := { at9 g0 (.die 0) (.collCtl 0 3 0 0) with comms := [(3, { dies := 1 })] }
    let f : State := { at9 g0 (.port 0) (.write [(0, 1)] [] (some 11)) with ops := [(11, op0 .st)], time := Config.timeoutNs }
    let h : PortHold := { gid := 3, records := [(0, 1, 5, [[1]])] }
    let o : State := { sq g0 with ports := [(8, h)], arriving := .port 8 }
    a { g0 with status := .parked } (.core 0) (.wake (.group 3) 7) ∧ a { g0 with status := .waiting (.mem 8 4 0 0) } (.core 0) (.wake (.waita 3) 0) ∧
    Arrives c (msg9 (.die 0) (.collCtl 0 3 0 0)) ∧ (mget c.comms (256 * 0 + 3)).isSome = true ∧ a g0 (.core 0) (.promote 3 0) ∧
    a (held g0 [4, 0, 3] none) (.core 0) (.promoteAck 3 7) ∧ (held g0 [4, 0, 3] none).hold.length = 1 ∧
    Arrives p (msg9 (.core 0) (.inval 0 0)) ∧ (mget p.parts 0).isSome = true ∧ (part p 0).inval = [v] ∧ v.cores.contains 0 = true ∧
    Arrives n (msg9 (.die 0) (.record 1 5 [[1]])) ∧ (grid n 1).ending = .running ∧ (grid n 1).isOver = false ∧ (mget (grid n 1).nodes 5).isSome = true ∧
    bufferOf n 0 1 5 = none ∧ f.arriving = .msg 9 ∧ netGet f 9 = some (msg9 (.port 0) (.write [(0, 1)] [] (some 11))) ∧
    0 + Config.timeoutNs ≤ f.time ∧ (0 : Nat) < 0 + Config.timeoutNs ∧ mget f.ops 11 = some (op0 .st) ∧ f.issue.gid ≠ 3 ∧
    (∀ r ∈ f.rels, r.2.body ≠ .atomic 11 .putf none []) ∧ (msg9 (.port 0) (.write [(0, 1)] [] (some 11))).at_ < 100 ∧ f.rels = [] ∧
    o.arriving = .port 8 ∧ mget o.ports 8 = some h ∧ portReady o h = true ∧ h.signal = none := by unfold Arrives; decide
/-- Memory holding numbers: address, bytes, value. -/
def memOf (xs : List (Nat × Nat × Nat)) : List Host.Cell := xs.foldl (fun m x => writeNum m x.1 x.2.1 x.2.2) []
/-- A context record at 0x20000 with PASID 5, its tables at 0x21000: 1 GiB at VA 0, and a host leaf at 1 GiB; queue 0 at 0x24000, of 16
packets at 0x30000, enabled, READ 0 and WRITE 1; a launch header at 0x40000. -/
def base0 : List (Nat × Nat × Nat) :=
  [(0x20000, 8, 0x21000), (0x20008, 8, 5), (0x21000, 8, 0x22001), (0x22000, 8, 0xF9), (0x22008, 8, 0xE0000000000000F9),
   (0x24000, 8, 0x30000), (0x24008, 8, 0x100000004), (0x24018, 8, 1), (0x40008, 4, 1), (0x40010, 4, 1), (0x40014, 4, 1), (0x40018, 4, 1),
   (0x40028, 4, 0xFFFFFFFF), (0x40034, 2, 16), (0x40038, 1, 1)]
/-- After lockdown, with queue 0 mapped at front-end core 0. -/
def sm (g : Group) (xs : List (Nat × Nat × Nat)) : State :=
  { sq g with
      mem := memOf (base0 ++ xs), locked := true
      parts := [(0, { dies := 1, resv := 1, ctxtab := 0x20000, qtab := 0x24000, flog := 0x50001, elog := 0x60001 })]
      fes := [(0, { slots := [(0, { part := 0, q := 0 })], running := true })] }
theorem witness_WalksAndRetries :
    let g : Group := { g0 with walksOut := [20], status := .waiting .walks }
    let w (who : Party) (r : Bool) : Walk := { part := 0, ctx := 0, va := 4096, write := true, who := who, die := 0, retry := r }
    let s (g : Group) (w : Walk) : State := { sm g [] with walks := [(20, w)] }
    let r (pri : Bool) : HostReq := { part := 0, ctx := 0, pasid := 5, va := 2 ^ 30, host := 0, write := true, who := .group 3, pri := pri }
    let x : Group := { g0 with tours := [(0, { lanes := [(0, { st := .parked, woken := true })] })] }
    let f : State := { sm g0 [] with
        fes := [(0, { slots := [(0, { part := 0, q := 0 })], cur := some 0, wait := some (0x100, 0, 1) })], walks := [(20, w (.fe 0) true)] }
    walkHeld (s g (w (.group 3) false)) 0 0 4096 = false ∧ walkVa (s g (w (.group 3) false)) 0 0 4096 = .leaf 0 30 0xF9 0x22000 ∧
    useLeaf (s g (w (.group 3) false)) 0 true 0xF9 30 (4096 / 4096 * 4096) false = .ok 4096 false ∧ g.walksOut = [20] ∧
    (match walkVa (s { g0 with status := .parked } (w (.group 3) true)) 0 0 4096 with | .absent _ => false | _ => true) = true ∧
    (w (.waita 3) true).notBefore ≤ (s g (w (.waita 3) true)).time ∧ (8 : Nat) ≠ noPa ∧
    walkHeld (sm g []) 0 0 (2 ^ 30) = false ∧ (s g (w (.waita 3) true)).walks = [(20, w (.waita 3) true)] ∧ (sm g []).memBad = [] ∧
    (sm g []).walks = [] ∧ walkVa (sm g []) 0 0 (2 ^ 30) = .leaf (2 ^ 30) 30 0xE0000000000000F9 0x22008 ∧
    useLeaf (sm g []) 0 true 0xE0000000000000F9 30 (2 ^ 30) false = .ats 0 ∧ (r false).va = 2 ^ 30 ∧
    (([(20, r false)] : Map HostReq).filter fun x => x.2.pri && x.2.part = 0).length < Config.priRequests ∧ (r true).pri = true ∧
    mget x.tours 0 = some { lanes := [(0, { st := .parked, woken := true })] } ∧ (tourLane (tourSlot x 0) 0).st = .parked ∧
    (tourSlot x 0).waitFor.all (performed (sq x)) = true ∧ (fe f 0).wait = some (0x100, 0, 1) ∧ curQueue (fe f 0) = some { part := 0, q := 0 } ∧
    (match xlateDie f 0 0 (qCtx f 0 0) 0x100 false with | (t, .ok pa _) => pa = 0x100 && fe t 0 == fe f 0 | _ => false) = true ∧
    (let u := modFe { f with walks := [] } 0 fun x => { x with blocked := false }
     match xlateDie u 0 0 (qCtx u 0 0) 0x100 false with | (t, .ok pa _) => pa = 0x100 && fe t 0 == fe u 0 | _ => false) = true := by decide +kernel
/-- Front-end core 0 with registers 1 and 2. -/
def sf (a b : DWord) (xs : List (Nat × Nat × Nat)) : State :=
  { sm g0 xs with fes := [(0, { slots := [(0, { part := 0, q := 0 })], running := true, cur := some 0, x := [(1, a), (2, b)] })] }
theorem witness_FrontEndWords :
    let f (a b : DWord) : Fe := fe (sf a b []) 0
    let h : State := sf 0x40000 0 []
    (xget (f 1 0xFFF) 2).toNat < 2 ^ 12 ∧ 2 ^ 12 ≤ (xget (f 1 0x1000) 2).toNat ∧ 16 ≤ (xget (f 16 0) 1).toNat ∧ mget (f 15 0).slots 15 = none ∧
    mget (f 0 0).slots (xget (f 0 0) 1).toNat = some { part := 0, q := 0 } ∧ (devRead (sf 0 0 []) (qAddr (sf 0 0 []) 0 0) 64).isSome = true ∧
    qRead (sf 0 0 [(0x24010, 8, 1)]) 0 0 = qWrite (sf 0 0 [(0x24010, 8, 1)]) 0 0 ∧
    (match takePacket (modFe (sf 0 0 []) 0 fun f => { f with cur := some 0 }) 0 0 0 { part := 0, q := 0 } with
      | (t, .ok i _) => i = 0 && (fe t 0).x == (f 0 0).x && (fe t 0).pc == (f 0 0).pc | _ => false) = true ∧
    (xget (f 4 0) 1).toNat % 8 ≠ 0 ∧ (xget (f 0 5) 1).toNat % 8 = 0 ∧ (f 0 5).cur = some (xget (f 0 5) 1).toNat ∧
    (match xlateDie (modFe (sf 0 5 [(0, 8, 5)]) 0 fun f => { f with wait := some (0, 5, 3) }) 0 0 (qCtx (sf 0 5 [(0, 8, 5)]) 0 0) 0 false with
      | (t, .ok pa _) => decide (5 ≤ readNum t.mem pa 8) && (fe t 0).pc == 0 && (fe t 0).x == (f 0 5).x | _ => false) = true ∧
    (∀ p ∈ (sf 0 1 []).parts, p.1 = 0 ∧ ctxValid (sf 0 1 []) p.1 1 = false) ∧ diePart h 0 = some 0 ∧ ctxValid h 0 0 = true ∧
    (match dispatch h 0 0 0 0x40000 0 none (fun s r va => feWait s 0 0 0 va r) with
      | .ok t _ _ => (fe t 0).pc == 0 && (fe t 0).x == (fe h 0).x | _ => false) = true ∧
    (match dispatch h 0 0 0 0x41000 0 none (fun s r va => feWait s 0 0 0 va r) with
      | .bad t off => off = 8 && (fe t 0).pc == 0 && (fe t 0).x == (fe h 0).x | _ => false) = true := by decide +kernel
/-- Message 9 of the synchronisation network arrives, and its node is n. -/
def atNode (p : Phaser) (n : PhNode) (dst : Nat) (path : List Nat) (k : PKind) : State :=
  { sq g0 with
      phs := [(5, { p with nodes := [(dst, n)] })], pnet := [(9, { obj := 5, src := 1, dst := dst, path := path, k := k })], arriving := .pmsg 9 }
theorem atNode_arrives (p : Phaser) (n : PhNode) (dst : Nat) (path : List Nat) (k : PKind) (h : dst ≠ podNode) :
    PhArrives (atNode p n dst path k) 9 { obj := 5, src := 1, dst := dst, path := path, k := k } ∧
      mget (atNode p n dst path k).phs 5 = some { p with nodes := [(dst, n)] } ∧
      mget ({ p with nodes := [(dst, n)] } : Phaser).nodes dst = some n := by
  refine ⟨⟨rfl, rfl, (by decide : (1 : Nat) ≠ podNode), h, ?_⟩, rfl, ?_⟩
  · simp [atNode]
  · simp [mget]
/-- The side conditions of each kind, at the nodes and messages of atNode. -/
theorem witness_PhaserNetwork :
    let g (st : HState) : Group := { g0 with h := [(1, { bound 1 with st := st })] }
    let h (st : HState) : State := { atNode { scope := 2 } {} 0 [] (.joined 2 16 1) with groups := [(3, g st)] }
    (576 : Nat) ≠ podNode ∧ (600 : Nat) ≠ podNode ∧ (0 : Nat) ≠ podNode ∧ (0 + 1 : Nat) ≠ 2 ∧ 1 ≤ 2 ∧ parentOf { scope := 2 } 576 = some 600 ∧
    parentOf { scope := 2 } 600 = none ∧ queueOfRid (h .joining) 16 = none ∧ handleGroup (h .joining) 5 16 .joining = some (3, 1) ∧
    mget (h .joining).groups 3 = some (g .joining) ∧ handleGroup (h .leaving) 5 16 .leaving = some (3, 1) ∧ isLeaf 576 = false ∧
    rising none (h .bound).groups = true ∧ (g .bound).core = 0 ∧ (hget (g .bound) 1).id.toNat % 2 ^ 20 = 5 ∧
    ((1 : Word) - 1).toNat < 2 ^ 31 := by decide
/-- A sender with flits 0 and 1 unacknowledged, in the direction that answers l. -/
def lk (l : Nat) (x : Link) : State :=
  { sq g0 with links := (if l < opposite l then [(l, x), (opposite l, { seq := 2, replay := [(0, 7), (1, 8)] })]
      else [(opposite l, { seq := 2, replay := [(0, 7), (1, 8)] }), (l, x)]) }
/-- A data flit whose check fails, and flits and frames whose checks pass. -/
theorem badFlit : unitOk 0 16 (dataSeed 0) = false := by
  have e : (List.range 62).map (flitByte 16) = (0x10 :: List.replicate 30 0) ++ List.replicate 31 0 := by decide +kernel
  have e1 : crcBytes (dataSeed 0) (0x10 :: List.replicate 30 0) = 0x6398 := by decide +kernel
  have e2 : crcBytes 0x6398 (List.replicate 31 0) ≠ BitVec.ofNat 16 ((16 : BitVec 512).toNat / 2 ^ 496) := by decide +kernel
  have u : isUplink 0 = false := by decide
  rw [unitOk, e, crcBytes_append, e1, u]
  simp only [Bool.false_eq_true, if_false]
  exact decide_eq_false e2
theorem witness_flits :
    let z : List Byte := List.replicate 59 0
    (∀ t a x, unitOk 0 (makeFlit t a z x) x = true) ∧ unitAck 0 (controlUnit 0 false 1) = 1 ∧ unitAck 0 (controlUnit 0 true 1) = 1 ∧
      (∀ t a x, t < 16 → unitType 0 (makeFlit t a z x) = t) ∧ unitKind 0 16 = .data ∧
      controlUnit 0 false 1 = makeFlit 2 1 z controlSeed ∧ controlUnit 0 true 1 = makeFlit 3 1 z controlSeed :=
by
  have u : isUplink 0 = false := by decide
  have z : (List.replicate 59 0 : List Byte).length = 59 := by simp
  have a : controlUnit 0 false 1 = makeFlit 2 1 (List.replicate 59 0) controlSeed := by
    simp only [controlUnit, u, Bool.false_eq_true, if_false, show (1 : BitVec 12).toNat = 1 from rfl]
  have n : controlUnit 0 true 1 = makeFlit 3 1 (List.replicate 59 0) controlSeed := by
    simp only [controlUnit, u, Bool.false_eq_true, if_false, if_true, show (1 : BitVec 12).toNat = 1 from rfl]
  refine ⟨fun _ _ _ => makeFlit_ok _ _ _ _ _ u z, ?_, ?_, fun _ _ _ h => makeFlit_type _ _ _ _ _ u z h, by decide +kernel, a, n⟩
  · rw [a, makeFlit_ack _ _ _ _ _ u z (by decide)]; rfl
  · rw [n, makeFlit_ack _ _ _ _ _ u z (by decide)]; rfl
theorem witness_UnitsAtTheReceiver :
    let k (l : Nat) (u : UnitKind) (f : BitVec 512) : Bool := unitKind l f == u && unitOk l f controlSeed
    let m (k : PKind) : PMsg := { obj := 5, src := pkgNode, dst := podNode, k := k, onLink := true }
    let w (k : PKind) : BitVec 128 := (makeFrame (frameOf (m k)) (dataSeed 0)).truncate 128
    let u := uplinkKey 1 0
    let wide (f : BitVec 512) : BitVec 512 := (f.truncate 128 : BitVec 128).zeroExtend 512
    linkRuns (link (lk 0 {}) 0) = true ∧ isUplink 0 = false ∧
    (link (lk 0 {}) (opposite 0)).replay = [(0, 7)] ++ (1, 8) :: [] ∧ (1 : BitVec 12) ≠ 2 ∧
    (link (lk 0 {}) (opposite 0)).st = .normal ∧ isUplink u = true ∧ linkRuns (link (lk u {}) u) = true ∧
    k u .ack (wide (controlUnit u false 1)) = true ∧ unitType u (wide (controlUnit u false 1)) = 12 ∧
    k u .nak (wide (controlUnit u true 1)) = true ∧ unitType u (wide (controlUnit u true 1)) = 13 ∧
    k u .idle (wide (makeFrame (11 * 2 ^ 108 + 2 ^ 56) controlSeed)) = true ∧ unitType u (wide (makeFrame (11 * 2 ^ 108 + 2 ^ 56) controlSeed)) = 11 ∧
    frameLink (m (.newObj 1)) = some u ∧ unitOk u ((w (.newObj 1)).zeroExtend 512) (dataSeed 0) = true ∧
    unitType u ((w (.newObj 1)).zeroExtend 512) = 9 ∧ frameOf (m (.newObj 1)) / 2 ^ 4 = (w (.newObj 1)).toNat / 2 ^ 16 % 2 ^ 112 / 2 ^ 4 ∧ unitOk u ((w .freeObj).zeroExtend 512) (dataSeed 0) = true ∧
    unitType u ((w .freeObj).zeroExtend 512) = 10 ∧ frameOf (m .freeObj) / 2 ^ 4 = (w .freeObj).toNat / 2 ^ 16 % 2 ^ 112 / 2 ^ 4 := by
  decide +kernel
theorem witness_LinkSenders :
    let r : Link := { seq := 2, replay := [(0, 7), (1, 8)], resend := [0, 1], st := .replay }
    linkRuns r = true ∧ r.resend = 0 :: [1] ∧ linkRuns { r with resend := [] } = true ∧ r.replay.length < Config.replayBuffer ∧
    ({ txq := [1] } : Link).txq ≠ [] ∧ ({} : Link).moved = [] ∧ (0, [(1 : Byte)]).2.length ≤ 59 ∧ r.since + 1000 ≤ 1000 ∧ r.replay = (0, 7) :: [(1, 8)] ∧ (0 : BitVec 12) ≠ r.seq ∧
    ({ discard := true } : Link).discard = true ∧ Config.replayLimit ≤ ({ tries := 16 } : Link).tries ∧
    ({ st := .retraining } : Link).st = .retraining ∧ ({ st := .retraining } : Link).failed = false ∧
    ({ st := .retraining, failed := true } : Link).failed = true ∧ enabledFrom (sq g0) 0 0 1 = some 1 ∧
    undelivered { sq g0 with links := [(0, { txq := [1] })] } 0 ≠ [] := by decide +kernel
/-- A COLL of communicator 3, of n elements, on die d. -/
def cl (d n : Nat) : Coll :=
  { part := 0, ctx := 0, cid := 3, die := d, step := 0, gid := 3, core := 24 * d, mask := 0xFFFFFFFF, op := 11, src := 0x100, dst := 0x200, n := n,
    gen := 0, reg := some 7, ins := .coll 0 .discard 1 none 3 .add .n32 false .allReduce }
/-- Communicator 3 of dies 0 and 1, with its two COLLs. -/
def sc (a b : Coll) (dead : Bool) : State :=
  { sm g0 [] with
      colls := [(15, a), (16, b)], comms := [(3, { dies := 3, told := [(0, 1, 0), (1, 0, 0)] })], ops := [(11, op0 .cl)], time := Config.timeoutNs
      deadBoundaries := if dead then List.range 76 else [] }
theorem witness_CollectiveEvents :
    let t (x : Coll) : Coll := { x with since := some 0, tries := 1 }
    let r : State := sc (t (cl 0 1)) (t (cl 1 1)) false
    let p : State := sc (t (cl 0 1)) (t (cl 1 1)) true
    let d : Coll := { cl 0 1 with status := some 0x4205 }
    let co : Comm := (mget r.comms 3).getD {}
    let maps (s : State) : Bool := match mapMembers 2 (stepMembers s 3 0) s with | (u, .ok ms) => pathBroken s ms == pathBroken u ms | _ => false
    let broken (s : State) : Bool := match mapMembers 2 (stepMembers s 3 0) s with | (_, .ok ms) => pathBroken s ms | _ => false
    rising none r.colls = true ∧ mget r.colls 15 = some (t (cl 0 1)) ∧ openColl (cl 0 1) = true ∧ (cl 0 1).key = 3 ∧
    stepReady r 3 0 = true ∧ (∀ x ∈ stepMembers r 3 0, x.2.waiting = false) ∧
    commM co = 2 ∧ (∀ x ∈ stepMembers r 3 0, memberIndex co x.2.die < commM co) ∧ sourcesCome r 3 0 = true ∧ (op0 .cl).dests = [] ∧
    (∃ x ∈ stepMembers (sc (cl 0 1) (cl 1 2) false) 3 0, ∃ y ∈ stepMembers (sc (cl 0 1) (cl 1 2) false) 3 0, x.2.n ≠ y.2.n) ∧
    disagreement ((mget r.comms 3).getD {}) 0 (stepMembers r 3 0) = none ∧ maps r = true ∧ broken r = false ∧ maps p = true ∧ broken p = true ∧
    (∀ x ∈ stepMembers r 3 0, x.2.after.all (performed r) = true) ∧ 1 ≤ 1 ∧ 0 < 1 ∧ 0 + Config.timeoutNs ≤ r.time ∧
    d.status = some 0x4205 ∧ d.reg = some 7 ∧ (mget r.ops 11 = some (op0 .cl)) ∧ (op0 .cl).discard = false ∧ isColl d.ins = true ∧
    r.issue.gid ≠ d.gid ∧ (op0 .cl).gid = d.gid ∧ (0x4205 : Word).toNat % 16 = 5 ∧ (clsOf g0 .cl).err = false := by decide +kernel
/-- Queue 0 of partition 0 has a packet of kind k with four fields at index 0. -/
def sp (k a b c d : Nat) : Machine.State :=
  sm g0 [(0x30000, 8, k), (0x30008, 8, a), (0x30010, 8, b), (0x30018, 8, c), (0x30020, 8, d), (0x100, 8, 7)]
/-- The packet comes up, is of kind k, and leaves a state that passes f. -/
def upThen (s : Machine.State) (k : Nat) (f : Machine.State → BitVec 512 → Bool) : Bool :=
  match takePacket s 0 0 0 { part := 0, q := 0 } with
  | (t, .ok i x) => decide (i = 0) && !badPacket x && decide (pktKind x = k) && f t x
  | _ => false
/-- Eight bytes from va have pieces apart from the descriptor, all of them good, and the state left passes f. -/
def eightThen (s : Machine.State) (va : Nat) (write : Bool) (f : Machine.State → Ranges → Bool) : Bool :=
  match mapRange 0 0 (qCtx s 0 0) write 3 va 0 8 s with
  | (u, .ok ps) => ((List.range 8).map fun i => (resolve u (qAddr u 0 0 + i)) == some (0x24000 + i)).all id
      && ((List.range 8).map (pieceAt ps)).eraseDups.length == 8 && (List.range 8).all (fun j =>
        (decide (pieceAt ps j < 0x24000) || decide (0x24040 ≤ pieceAt ps j)) && !u.memBad.contains (pieceAt ps j / 4)) && f u ps
  | _ => false
def launchOk (t : Machine.State) (x : BitVec 512) (bad : Bool) : Bool :=
  match dispatch t 0 0 (qCtx t 0 0) (pktField x 8) (pktField x 0x18) (some (0, 0, pktField x 0x10)) fun s r va => qWait s 0 0 va r false with
  | .ok _ _ _ => !bad
  | .bad _ _ => bad
  | _ => false
theorem witness_queue : let s := sp 2 0x100 5 0 0
    QueueAt s 0 0 0x24000 ∧ findQueue s 0 0 = some (0, 0, { part := 0, q := 0 }) ∧ queueRuns s 0 0 { part := 0, q := 0 } = true ∧
    (findQueue s 0 0).map (·.2.2.half) = some none := by unfold QueueAt; decide +kernel
theorem witness_launch : upThen (sp 1 0x40000 0 1 0) 1 (launchOk · · false) = true ∧ upThen (sp 1 0x41000 0 1 0) 1 (launchOk · · true) = true := by
  decide +kernel
theorem witness_QueuePackets :
    let e (k : Nat) (f : Machine.State → Ranges → Bool) (w : Bool) : Bool :=
      upThen (sp k 0x100 5 0x200 1) k fun t x => eightThen t (pktField x 8) w f
    e 2 (fun _ _ => true) true = true ∧ e 3 (fun _ _ => true) true = true ∧ e 4 (fun t ps => decide (5 ≤ piecesNum t ps)) false = true ∧
    upThen (sp 4 0x200 5 0 0) 4 (fun t x => eightThen t (pktField x 8) false fun t ps => decide (piecesNum t ps < 5)) = true ∧
    e 5 (fun t ps => let u := modQueue (piecesWrite t ps 8 5) 0 0 fun m => { m with half := some 5 }
      eightThen u 0x200 true fun _ qs => (List.range 8).all fun j => (List.range 8).all fun k => pieceAt ps j != pieceAt qs k) true = true ∧
    e 7 (fun _ _ => true) true = true ∧ upThen (sp 8 0 0 0 0) 8 (fun t _ => t.grids.all fun g => g.2.launch.isNone) = true := by decide +kernel
theorem witness_phaser_packet :
    let s : Machine.State := { sm g0 [(0x30000, 8, 6), (0x24030, 8, 0x5E)] with phs := [(5, {})] }
    upThen s 6 (fun t x => decide (pktField x 0x10 = 0) && (t.phs == s.phs) && (t.net.length == s.net.length)) = true ∧ (queueHandle s 0 0).st = .bound ∧
      phaseDone (nodeC (phNode (phaserOf s (queueHandle s 0 0).obj) (feLeaf (phaserDie s 0 (phaserOf s (queueHandle s 0 0).obj))))) 0 = true := by
  decide +kernel
/-- Queue 0 with FLAGS f, READ r and WRITE 1, a saved wait for VA 0x100 to reach 5, and the front end's slots. -/
def sz (f r : Nat) (slots : Map MQueue) (k : Nat) : Machine.State :=
  { sm g0 [(0x2400C, 4, f), (0x24010, 8, r), (0x24020, 8, 0x100), (0x24028, 8, 5), (0x100, 8, 7), (0x30000, 8, k), (0x30008, 8, 0x100),
      (0x30010, 8, 5)] with fes := [(0, { slots := slots, running := true })] }
theorem witness_QueueControl :
    let ready (s : Machine.State) : Prop := s.locked = true ∧ bit (qFlags s 0 0) 0 = true ∧ bit (qFlags s 0 0) 1 = false ∧ findQueue s 0 0 = none ∧
      descriptorOk s 0 0 = true ∧ freeSlots s 0 ≠ []
    let q : MQueue := { part := 0, q := 0 }
    let m : Map MQueue := [(0, q)]
    QueueAt (sz 1 0 [] 2) 0 0 0x24000 ∧ ready (sz 1 0 [] 2) ∧ ready (sz 0x15 0 [] 2) ∧ bit (qFlags (sz 0x15 0 [] 2) 0 0) 2 = true ∧
    bit (qFlags (sz 1 0 [] 2) 0 0) 4 = false ∧ qRead (sz 1 0 [] 2) 0 0 ≠ qWrite (sz 1 0 [] 2) 0 0 ∧
    bit (qFlags (sz 0x15 0 [] 2) 0 0) 4 = true ∧ waitMet (sz 0x15 0 [] 2) 0 0 = true ∧
    findQueue (sz 1 0 m 2) 0 0 = some (0, 0, q) ∧ queueRuns (sz 1 0 m 2) 0 0 q = true ∧ qRead (sz 1 0 m 2) 0 0 < qWrite (sz 1 0 m 2) 0 0 ∧
    (match readPacket (sz 1 0 m 2) 0 0 0 0 with | (_, .ok i _) => decide (i = 0) | _ => false) = true ∧
    (∀ e ∈ (sz 1 0 m 2).fes, e.2.wait = none) ∧ tooManyQueues (sz 1 0 m 2) 0 = false ∧
    (let t : Machine.State := { sz 1 1 m 2 with parts := [(0, { part (sz 1 1 m 2) 0 with dies := 0 })] }
     tooManyQueues t 0 = true ∧ findQueue t 0 0 = some (0, 0, q) ∧ qRead t 0 0 = qWrite t 0 0 ∧ bit (qFlags t 0 0) 4 = false ∧
     QueueAt t 0 0 0x24000) ∧ qRead (sz 1 1 m 2) 0 0 = qWrite (sz 1 1 m 2) 0 0 ∧
    (let w := { q with waiting := true }
     let s := sz 0x11 0 [(0, w)] 4
     findQueue s 0 0 = some (0, 0, w) ∧ bit (qFlags s 0 0) 4 = true ∧
     (upThen (modQueue s 0 0 fun m => { m with waiting := false }) 4 fun t x =>
       eightThen t (pktField x 8) false fun u ps => decide (pktField x 0x10 ≤ piecesNum u ps)) = true) := by
  unfold QueueAt; decide +kernel
/-- Grid 1, beside its team on core 0. -/
def sg (gr : Grid) : Machine.State := { sm g0 [] with grids := [(1, gr)], launches := 1 }
/-- Where one place is left, a gang takes it. -/
theorem place_of_one (s : Machine.State) (gid d f : Nat) (u : Machine.State) (h : gangPlaces { s with fresh := s.fresh + 1 } gid d f = [u]) :
    tryPlace s gid d f = some u := by
  simp [tryPlace, h, Nat.mod_one]
theorem one_place (l : List Machine.State) (h : l.length = 1) (r : l.all (fun u => rising none u.teams) = true) :
    ∃ u, l = [u] ∧ rising none u.teams = true := by
  obtain ⟨u, rfl⟩ := List.length_eq_one_iff.mp h
  exact ⟨u, rfl, by simpa using r⟩
/-- Grid 1 can place a gang at index f in one way. -/
theorem placed (s : Machine.State) (f : Nat) (h : (gangPlaces { s with fresh := s.fresh + 1 } 1 0 f).length = 1)
    (r : (gangPlaces { s with fresh := s.fresh + 1 } 1 0 f).all (fun u => rising none u.teams) = true) :
    ∃ u, tryPlace s 1 0 f = some u ∧ rising none u.teams = true := by
  obtain ⟨u, e, r⟩ := one_place _ h r
  exact ⟨u, place_of_one _ _ _ _ _ e, r⟩
def grClaim : Grid := { gr0 with x := 8 }
def grAttempt : Grid := { grClaim with cursor := 2, chunks := [(0, [1])] }
def grSteal : Grid := { gr0 with x := 2, cursor := 2, chunks := [(1, [1])], scratch := 0 }
def grGather : Grid := { gr0 with nodes := [(5, { entry := 1, regs := 16 })], reserve := [(0, (0, 1))] }
def grRelaunch : Grid := { grClaim with recs := [(3, { draining := true })] }
def sGather : Machine.State := { sg grGather with dies := [(0, { gather := [{ grid := 1, node := 5, recs := [[1]], lapse := some 0 }] })] }
theorem witness_GridEvents_start :
    startable (sg grClaim) 1 = true ∧ (part (sg grClaim) 0).dies.getLsbD 0 = true ∧ mget grClaim.chunks 0 = none ∧ grClaim.nodes = [] ∧
    grClaim.gang ≤ min 8 (gridSize grClaim - grClaim.cursor) ∧ (gangPlaces (sg grClaim) 1 0 0).length = 1 ∧
    startable (sg grAttempt) 1 = true ∧ nextGang (sg grAttempt) 1 0 = some 1 ∧ mayStart (sg grAttempt) 1 1 false = true ∧ grAttempt.gang = 1 ∧
    rising none (sg grAttempt).teams = true ∧ startable (sg grSteal) 1 = true ∧ gridSize grSteal ≤ grSteal.cursor ∧
    grSteal.chunks = [(1, [1])] ∧ mayStart (sg grSteal) 1 1 false = true ∧
    mget grRelaunch.recs 3 = some { draining := true } ∧ gangHere (sg grRelaunch) 1 3 = false ∧ startable (sg grRelaunch) 1 = true ∧
    mayStart (sg grRelaunch) 1 3 true = true ∧ partDies (part (sg grRelaunch) 0) = [0] := by decide +kernel
theorem witness_GridEvents_places : (∃ u, tryPlace (sg grAttempt) 1 0 1 = some u ∧ rising none u.teams = true) ∧
    (∃ u, tryPlace (sg grSteal) 1 0 1 = some u ∧ rising none u.teams = true) ∧
    ∃ u, tryPlace (sg grRelaunch) 1 0 3 = some u ∧ rising none u.teams = true :=
  ⟨placed _ _ (by decide +kernel) (by decide +kernel), placed _ _ (by decide +kernel) (by decide +kernel), placed _ _ (by decide +kernel) (by decide +kernel)⟩
theorem witness_GridEvents_reserves : ensureReserve (sg grAttempt) 1 = some (sg grAttempt) ∧ ensureReserve (sg grSteal) 1 = some (sg grSteal) ∧
    ensureReserve (sg grRelaunch) 1 = some (sg grRelaunch) ∧ ensureReserve sGather 1 = some sGather ∧
    savedGang (sg grRelaunch) 1 3 = false := by decide +kernel
theorem witness_GridEvents_gather :
    bufferOf sGather 0 1 5 = some { grid := 1, node := 5, recs := [[1]], lapse := some 0 } ∧ 0 ≤ sGather.time ∧
    ((partDies (part sGather 0)).filter fun d => (mget grGather.reserve d).isNone) = [] ∧ (grid sGather 1).nodes.isEmpty = false ∧
    mget grGather.nodes 5 = some { entry := 1, regs := 16 } ∧ nodePlaces sGather 1 0 { entry := 1, regs := 16 } = [(0, 1, true)] ∧
    startable sGather 1 = true := by decide +kernel
theorem witness_GridEvents_end :
    let gd : Grid := { gr0 with doneTeams := [0] }
    let go (x : GridEnd) : Grid := { gr0 with isOver := true, launch := some (0, 0, 0x100), ending := x }
    let se (x : GridEnd) : Machine.State := sg (go x)
    let r : BitVec 512 := 5
    let p : Part := part (sm g0 []) 0
    let sl : Machine.State := { sm g0 [] with parts := [(0, { p with fheld := [(r, none)], eheld := [(r, none)] })] }
    gridDone { sg gd with teams := [] } 1 gd = true ∧ (go .running).isOver = true ∧ (go .running).logHeld = false ∧
    (go .running).wbacks.all (performed (se .running)) = true ∧ (0x100 : Nat) ≠ 0 ∧ (0x14 : Nat) < 2 ^ 16 ∧
    [GridEnd.running, .refused 0x14, .aborting 0x43, .aborting 0x46].all (fun x =>
      match xlateDie (se x) (queueDie (se x) 0 0) 0 0 0x100 true with | (_, .ok _ _) => true | _ => false) = true ∧
    (mget sl.parts 0).isSome = true ∧ (part sl 0).fheld = [(r, none)] ∧ logFull (part sl 0).fw (part sl 0).fr (part sl 0).flog = false ∧
    resolve sl (logAddr (part sl 0).fw (part sl 0).flog) = some 0x50000 ∧ (part sl 0).eheld = [(r, none)] ∧
    logFull (part sl 0).ew (part sl 0).er (part sl 0).elog = false ∧ resolve sl (logAddr (part sl 0).ew (part sl 0).elog) = some 0x60000 := by
  decide +kernel
/-- Contexts 1 and 2 of class 1, with grids 1 and 7; context 1's team stands on core 0. -/
def sx (x : Part → Part) : Machine.State :=
  let s := sm g0 [(0x20040, 8, 0x21000), (0x2004C, 4, 1), (0x20080, 8, 0x21000), (0x2008C, 4, 1), (0x20058, 8, 0x800000), (0x20050, 8, 0x400000)]
  { s with
      grids := [(1, { gr0 with ctx := 1 }), (7, { gr0 with ctx := 2 })]
      parts := [(0, x { part s 0 with ctxtab := 0x20002, qtab := 0, resv := 0 })] }
def gb : Gather := { grid := 1, node := 5, recs := [[1]], lapse := some 2000 }
def sxGather : Machine.State := { sx id with teams := [], groups := [], dies := [(0, { gather := [gb] })], grids := [(1, { gr0 with ctx := 1, nodes := [(5, {})] })] }
theorem witness_TenantEvents_slices :
    let s : Machine.State := sx id
    let o (x : Part) : Part := { x with slice := some 1 }
    roundOf s 0 = [1, 2] ∧ (part s 0).slice = none ∧ (part (sx o) 0).slice = some 1 ∧ (part (sx o) 0).sliceEnd ≤ (sx o).time ∧
    halfSignal (sx o) 0 1 = false ∧ nextInRound (sx o) 0 (roundOf (sx o) 0) (some 1) = some 2 ∧ 0 ∈ coresOf (sx o) 0 1 ∧
    (coreCtxs (sx o) 0).contains (0, 1) = true := by decide +kernel
theorem witness_TenantEvents_saves :
    let c : Core := { preempt := some (0, 1) }
    let s : Machine.State := { sx id with cores := [(0, c)] }
    (Machine.core s 0).preempt = some (0, 1) ∧ drained s 0 0 1 = true ∧ (Machine.core s 0).l1 = [] ∧ coreBound s 0 = [] ∧ (coreGroups s 0).length = 1 ∧
    unequalGroups s 0 = [] ∧ s.teams = [(2, tm0)] ∧ sxGather.grids = [(1, { gr0 with ctx := 1, nodes := [(5, {})] })] ∧ coresOf sxGather 0 1 = [] ∧
    (part sxGather 0).dies.getLsbD 0 = true ∧
    scheduled sxGather 0 1 = false ∧ sxGather.net = [] ∧ sxGather.ports = [] ∧ (die sxGather 0).gather = [gb] ∧
    (mget sxGather.grids 1).isSome = true ∧ (grid sxGather 1).part = 0 ∧ (grid sxGather 1).ctx = 1 ∧
    savedOf sxGather 0 1 = { part := 0, ctx := 1 } ∧ scheduled (sx fun x => { x with slice := some 1 }) 0 1 = true ∧ gb.recs ≠ [] ∧
    (die (sm g0 []) 0).gather = [] := by decide +kernel
/-- Saved core 0 of context 1 takes a core of die 0, whichever it is. -/
def yc : SavedCore := { core := 0, teams := [(2, tm0)], groups := [(3, { g0 with xw := [] })] }
def sy : Machine.State := { sx (fun x => { x with slice := some 1 }) with teams := [], groups := [], saved := [{ part := 0, ctx := 1, cores := [yc] }] }
theorem restores (c : Fin 24) : (match restoreCore sy 0 1 (loadBlock sy 0 1 yc) c.val with
    | some u => decide (u.saved = sy.saved) && (u.groups.map (·.2.core) == [c.val]) | none => false) = true := by revert c; decide +kernel
theorem witness_TenantEvents_restore : scheduled sy 0 1 = true ∧ rebuildReserves sy 0 1 = sy ∧ unitSplit sy yc = false ∧
    ∃ u, placeUnit sy 0 1 [[loadBlock sy 0 1 yc]] = some u ∧ u.saved = sy.saved := by
  refine ⟨by decide +kernel, by decide +kernel, by decide +kernel, ?_⟩
  have e : partDies (part sy 0) = [0] := by decide +kernel
  have h := restores ⟨(Config.freeIndex sy.fresh + 0) % 24, Nat.mod_lt _ (by decide)⟩
  have sh : ∀ c : Fin 24, shiftCore (loadBlock sy 0 1 yc).core (24 * 0 + c.val) (loadBlock sy 0 1 yc).core = some c.val := by decide +kernel
  have sh := sh ⟨(Config.freeIndex sy.fresh + 0) % 24, Nat.mod_lt _ (by decide)⟩
  simp only at h sh
  split at h
  · rename_i u hu
    rw [Bool.and_eq_true, decide_eq_true_eq] at h
    refine ⟨u, ?_, h.1⟩
    simp only [placeUnit, e, List.length_singleton, Nat.mod_one, List.drop_zero, List.take_zero, List.append_nil, List.foldl_cons, List.foldl_nil,
      Option.bind_some, List.findSome?_cons, placeGangs, show List.range 24 = 0 :: (List.range 23).map (· + 1) from rfl, sh, hu]
  · simp at h
theorem witness_TenantEvents_invalidation :
    let s (a : DWord) : Machine.State := sx fun x => { x with invarg := a }
    let w : Inval := { ctx := 0, entry := 0x22000, count := 1, level := 4, values := 0x30000, flushed := true }
    let d : Machine.State := sx fun x => { x with inval := [w] }
    (s 0).parts.all (fun x => x.2.invarg.toNat / 2 ^ 9 % 8 = 0) = true ∧ (part (s 0xA00) 0).invarg.toNat / 2 ^ 9 % 8 = 5 ∧
    (part (s 0x30800) 0).invarg.toNat / 2 ^ 9 % 8 = 4 ∧ (part (s 0x30200) 0).invarg.toNat / 2 ^ 9 % 8 = 1 ∧ holders (s 0x30800) 0 = [0, 1000] ∧
    (part d 0).inval = [w] ∧ d.copies.isEmpty = true ∧ resolve d (0x30000 + 8 * 0) = some 0x30000 ∧
    (∀ y ∈ (sm g0 []).parts, hasPasid (sm g0 []) y.1 6 = false) ∧ hasPasid (sm g0 []) 0 5 = true ∧
    (partDies (part (sm g0 []) 0)).contains 0 = true ∧ (sm g0 []).parts.length = 1 := by decide +kernel
theorem witness_HostAndPower :
    let s : Machine.State := sm g0 []
    (State.reset.verified = false) ∧ ({ s with verified := true } : Machine.State).verified = true ∧ State.reset.locked = false ∧ s.locked = true ∧
    ({ s with derlo := true, locked := false } : Machine.State).derlo = true ∧ isRectangle (3 : BitVec 24) = true ∧ (∀ y ∈ s.parts, y.1 ≠ 1 → y.2.dies &&& 2#24 = 0) ∧ isRectangle (2 : BitVec 24) = true ∧
    isRectangle (5 : BitVec 24) = false ∧ (∃ y ∈ s.parts, y.1 ≠ 1 ∧ y.2.dies &&& 3#24 ≠ 0) ∧ readOnlyOff 0x20 = true ∧
    (10 : DWord).toNat = 10 ∧ (10000 : DWord).toNat ≤ 10000 ∧ 0x1000 + 0x100 * 24 ≤ 0x2800 ∧ 15000 < 15001 ∧ 14249 < 14250 ∧
    0 + 1000000 ≤ ({ s with coolSince := some 0, time := 1000000 } : Machine.State).time ∧ s.memTrained = false ∧ s.derlo = false := by decide +kernel
/-- State.reset with KADD k1, k0, 5 placed. -/
def sk : Machine.State := State.reset.withFetchWord 32 0x04040005
theorem test_step_kadd : (match step sk with
    | .next t => (t.groups.map fun g => (kget g.2 1, g.2.pc == ⟨1, 0⟩, g.2.sg)) == [(5, true, 0x80FBEAE9)] | _ => false) = true := by decide +kernel
theorem witness_StepRunsDecoded :
    sk.verified = true ∧ (match sk.agenda with
      | .slot c j :: _ =>
        (match (slotOf (Machine.core sk c) j).holder with
          | some gid =>
            let g := grp sk gid
            let s1 : Machine.State := { sk with agenda := [], issue := { gid := gid, pos := g.pc, word := g.pc.word, pre := g, cur := g } }
            let va := (gridOf s1 g).codeBase + 12 * g.pc.pkt
            !g.stalled && decide (g.pc.pkt < (gridOf s1 g).codeSize) && decide (va / 4096 = (va + 8) / 4096) && bit (codeLeaf s1 g va) 4
              && (match xlateGroup s1 g.core (partOf s1 g) (ctxOf s1 g) va false (heldFor s1 [va]) with
                | .ok pa _ =>
                  let s2 := loadCoreTlb s1 g.core (ctxOf s1 g) va false
                  let ws := [readNum s2.mem pa 4, readNum s2.mem (pa + 4) 4, readNum s2.mem (pa + 8) 4]
                  (List.range 3).all (fun k => !poisoned s2 (pa + 4 * k) 4) && word ws g.pc.word == 0x04040005 && !bit (word ws g.pc.word) 31
                    && !onlyNops ws g.pc.word && g.pc.word == 0 && (match decode 0x04040005 0 with | .ok i => i == .kaddImm 1 5 | _ => false)
                | _ => false)
          | none => false)
      | _ => false) = true ∧
    let s : Machine.State := { sm g0 [] with
        verified := true, agenda := [.fe 0], fes := [(0, { running := true, imem := [(0, 0x0B), (1, 0xB5), (2, 0xC5)] })] }
    s.verified = true ∧ State.reset.verified = false ∧ (fe s 0).running = true ∧ (fe s 0).blocked = false ∧ (fe s 0).wait = none ∧ (match decodeRv (feWord (fe s 0)) with | .ok i => i == .disp 10 11 12 | _ => false) = true ∧
    (match exec .clockRead { sk with agenda := [], arriving := .none } with | .next _ => true | _ => false) = true := by decide +kernel
theorem witness_IssueGroups :
    let a : Member := ⟨0, 0, none, .nop⟩
    let v (g : Group) (i : Instr) : Bool := match runMember exec ⟨1, 0, none, i⟩ (st g) with | .next t => isFault t | _ => false
    2 ≤ [a, a].length ∧ (match runMember exec a (st g0) with | .next t => t.issue.verdict == .done && !isFault t | _ => false) = true ∧
    v g0 (.ret) = true ∧ (match runMember exec ⟨1, 0, none, .fence .dev .ar⟩ { st g0 with ops := [(11, op0 .ld)] } with
      | .next t => t.issue.verdict == .stalled | _ => false) = true ∧
    (match runMember exec ⟨1, 0, none, .ld .b32 (.v 0) 1 .zero 0⟩
        (st { g1 with xw := [(1, { win0 with limit := 0 })], heldWalks := [⟨⟨{}, 1, [0]⟩, 0, false, .absent 0⟩] }) with
      | .next t => t.issue.verdict == .parked | _ => false) = true := by decide +kernel
theorem witness_DecodeOfEncode : (Instr.kaddImm 1 5).wf = true ∧ (Instr.kaddImm 1 5).form = .group ∧ (0 : Nat) < 2 ∧
    (Instr.disp 10 11 12).wf = true ∧ (Instr.disp 10 11 12).form = .frontEnd := by decide
theorem witness_MemoryStaysCanonical : Memory.wf sk.mem = true ∧ sk.mem.isEmpty = false ∧
    (match step sk with | .next _ => true | _ => false) = true := by decide +kernel

/-! ## The clauses of the wider statements -/

theorem witness_UniformConstantsAndKget : (team (st g0) 2).index = 0 + (grid (st g0) 1).x * (0 + (grid (st g0) 1).y * 0) ∧
    0 < (grid (st g0) 1).x ∧ 0 < (grid (st g0) 1).y ∧ (team (st g0) 2).node = none ∧ g0.core = 24 * 0 + 0 ∧
    (team { st g0 with teams := [(2, { tm0 with node := some 63 })] } 2).node = some 63 := by decide
theorem witness_MaskWords_poison :
    let g : Group := { g0 with vBad := [35], c := [(4, 255)] }
    (∀ r ∈ opndRegs g (.v 1), r < g.regs) ∧ emptyLatch g.y (.v 1) = [] ∧ (ctr g 3 ≠ 255 ∧ g.vBad.contains (32 * 1 + 3) = true) ∧
    (∀ l, l < 32 → ¬(ctr g l ≠ 255 ∧ ctr g l ≠ 0 ∧ 254 < (ctr g l).toNat + 1)) ∧ (st g).issue.kill = none ∧
    (∀ l, l < 32 → ctr g l ≠ 255 → ({ g with vBad := [36] } : Group).vBad.contains (32 * 1 + l) = false) := by decide
/-- A group at trap level 1, and one of the values that each fault of its words needs. -/
def gTwo : Group := { gk 37 with trap := { lvl := true, ecause := 7 } }
theorem witness_DoubleFaultAborts_faults :
    let far (o : Int) : Prop := ¬InCode (st gTwo) (0 + o)
    let full : Group := { gTwo with calls := List.replicate 16 ⟨⟨1, 2⟩, []⟩ }
    let at_ (x : DWord) (g : Group) : Group := { g with k := [(1, x)] }
    let all (x : Byte) : Group := { gAll x with trap := { lvl := true } }
    gTwo.trap.lvl = true ∧ mget (st gTwo).teams gTwo.team = some tm0 ∧ mget (st gTwo).grids tm0.grid = some gr0 ∧ gr0.ending = .running ∧
    RecordFits (st gTwo) gTwo tm0 gr0 ∧ (namedRegs { gTwo with ixb := 17 } [.v 0, .v 47] (dstRegs { gTwo with ixb := 17 } (.v 0))).find?
      (fun r => decide (64 ≤ r)) = some 64 ∧
    (∀ r ∈ namedRegs gTwo [.y 0] (dstRegs gTwo (.v 0)), r < gTwo.regs) ∧ emptyLatch gTwo.y (.y 0) ≠ [] ∧ SReg.active ≠ .status ∧
    SReg.active ≠ .seed ∧ SReg.active ≠ .epc ∧ gTwo.regs ≤ (64#8).toNat ∧ gTwo.regs ≤ (kget (at_ 64 gTwo) 1).toNat ∧ far (4#23).toInt ∧
    InCode (st full) (0 + (0#23).toInt) ∧ full.calls.length = 16 ∧ kget (at_ 0 gTwo) 1 = 0 ∧ kget gTwo 1 ≠ 0 ∧ far (4#14).toInt ∧ far (4#20).toInt ∧
    (∃ l, l < 32 ∧ isActive gTwo l = true) ∧ (∀ l, l < 32 → isActive (all 1) l = false) ∧ gTwo.c = gTwo.dup ∧
    (kget gTwo 1).toNat % 2 ^ 32 % 12 ≠ 0 ∧ (kget (at_ 48 gTwo) 1).toNat % 2 ^ 32 % 12 = 0 ∧ (gridOf (st gTwo) gTwo).codeSize ≤ 48 / 12 ∧
    (kget (at_ 36 full) 1).toNat % 2 ^ 32 / 12 < (gridOf (st full) full).codeSize ∧ gTwo.calls = [] ∧
    OperandsOk (st (all 254)) [.v 0] .discard ∧ (ctr (all 254) 0 ≠ 255 ∧ ctr (all 254) 0 ≠ 0 ∧ 254 < (ctr (all 254) 0).toNat + 1) ∧
    254 < (ctr (all 253) 0).toNat + 2 ∧ (ctr (all 254) 0 ≠ 0 ∧ (all 254).c = (all 254).dup) ∧
    (∀ l, l < 32 → ctr gTwo l = 0 ∨ ctr gTwo l = 255) ∧ gTwo.calls.length = gTwo.trap.depth ∧
    (gridOf (st gTwo) gTwo).codeSize ≤ ({ gTwo with trap := { lvl := true, epc := ⟨4, 0⟩ } } : Group).trap.epc.pkt := by
  unfold RecordFits InCode OperandsOk RegsOk; refine ⟨?_, ?_, ?_, ?_, ?_, ?_, ?_, ?_, ?_, ?_, ?_, ?_, ?_, ?_, ?_, ?_, ?_, ?_, ?_, ?_, ⟨0, by decide⟩, ?_, ?_, ?_, ?_, ?_, ?_, ?_, ?_, ?_, ?_, ?_, ?_, ?_, ?_⟩ <;> decide
theorem witness_DoubleFaultAborts_window :
    let g (o : Word) : Group := { one gTwo with v := [(32, o)] }
    let items (o : Word) : List Item := mItems (g o) (.v 1) 0 4
    RegsOk (st (g 0)) (opndRegs (g 0) (.v 1) ++ top (ldRegs (g 0) (.v 0) 4)) [.v 1] ∧ items 0 = [⟨0, 0, 4, false⟩] ∧
    items 2 = [⟨0, 2, 4, false⟩] ∧ items 4096 = [⟨0, 4096, 4, false⟩] ∧ (xwget (g 0) 0).isOpen = false ∧ (xwget (g 0) 1).isOpen = true ∧
    (((xwget (g 0) 1).base : Int) + 2) % 4 ≠ 0 ∧ (((xwget (g 0) 1).size : Int) < 4096 + 4) := by unfold RegsOk; decide
/-- Line 0 of the L1 of core 0 holds words. -/
def sl1 (g : Group) (ws : Map L1Word) : State :=
  { st g with cores := [(0, { slots := [(0, { holder := some 3 })], tlb := [tlb0], l1 := [(0, { words := ws })] })] }
/-- A message 7 of the group on its way home, and one that follows it. -/
def m7 : Msg := { id := 7, srcDie := 0, srcCore := 0, home := .slice 0 0, gid := some 3, body := .write [(0, 1)] [] none }
theorem witness_LaneStores_words :
    let one_ (s : State) (n : Nat) (f : Nat → Bool) : Bool := match checkAccess (memClass s) 1 (mItems g1 .lane 0 n) true anyTier with
      | .ok s1 [a] 0 => a.pa % n == 0 && f a.pa && (mget (Machine.core s1 0).l1 (a.pa / 128)).isSome && (byLine ([a].filter (goesOn s1 n))).length == 0
      | _ => false
    (∀ n ∈ [1, 2, 4, 8, 16], one_ (sl1 g1 [(0, { val := 5 })]) n (fun pa => pa == 0) = true) ∧
    goesOn (st g1) 1 ⟨0, 0, 1, false, false⟩ = true ∧ goesOn (st g1) 4 ⟨0, 0, 4, false, false⟩ = false := by decide
theorem witness_OrderedWords_lines :
    let s := sl1 g1 [(0, { val := 5, dirty := true, by_ := [3] })]
    rising none (Machine.core s 0).l1 = true ∧ (∀ l ∈ (Machine.core s 0).l1, rising none l.2.words = true) ∧ cacheable 0 = true ∧
    (match checkAccess (memClass s) 1 (aItems g1 .zero 4) false anyTier with
      | .ok s1 acc 0 => acc.map (·.pa) == [0] && (l1Word s1 0 0).map (·.dirty) == some true && (wordsOf 0 4).contains 0
      | _ => false) = true ∧
    (match checkAccess (memClass (st g1)) 1 [{ lane := 0, off := 0, size := 4 }, { lane := 0, off := 8, size := 4, sec := true }] true anyTier with
      | .ok _ acc 0 => acc.any (fun a => !a.sec) && (acc.find? fun f => f.sec && f.lane = 0).isSome
      | _ => false) = true := by decide
theorem witness_FencesAndPromote_waits :
    let h (w : List Nat) : Group := { g1 with hold := [{ pos := {}, word := 0, ops := [0], waitFor := w }] }
    let s : State := { st (h [7]) with net := [m7], ops := [(11, op0 .ld)] }
    let late : Msg := { m7 with id := 9, after := [7] }
    let a : State := { st g1 with net := [m7, late], arriving := .msg 9 }
    let off : Group := { g0 with c := (List.range 32).map fun l => (l, 1) }
    rising none (Machine.core (sl1 g1 [(0, { val := 5 })]) 0).l1 = true ∧ (∀ l ∈ (Machine.core (sl1 g1 [(0, { val := 5 })]) 0).l1, rising none l.2.words = true) ∧
    Scope.die ≠ .grp ∧ Scope.die ≠ .team ∧ isHomeBound (.write [(0, 1)] [] none) = true ∧ (st g1).issue.gid = 3 ∧
    a.arriving = .msg late.id ∧ netGet a late.id = some late ∧ unreachable a late = false ∧ (7 ∈ late.after ∧ performed a 7 = false) ∧
    loadsOut s 3 = true ∧ findHold (memClass { st g1 with ops := [(11, op0 .ld)] }) [0] = none ∧
    (findHold (memClass s) [0]).map (fun h => h.waitFor.all (performed s)) = some false ∧
    activeLanes off = [] ∧ RegsOk (st off) (opndRegs off (.lit 23)) [.lit 23] ∧ CanTrap (st g1) 2 ∧ (opv g1 (.lit 600) 0).toNat % 1024 = 600 ∧ 576 ≤ 600 ∧
    (part (st g1) (partOf (st g1) g1)).dies.getLsbD (30 / 24) = false ∧
    (findHold (st (held g1 [4, 23, Scope.die.code] none)) [4, 23, Scope.die.code]).map (·.res) = some none := by
  unfold RegsOk CanTrap; decide
theorem witness_RangeAndWaitWords_lines :
    let s := sl1 g1 [(0, { val := 5, dirty := true, by_ := [3] })]
    let full := sl1 g1 ((List.range 32).map fun k => (k, { val := 5 }))
    let x (s : State) : State := (xlateDie (memClass s) 0 0 0 0 false).1
    let far : Group := { g1 with xw := [(1, { win0 with limit := 0 })] }
    let t : TlbEntry := { tlb0 with pte := 0x4000000000000079 }
    let host : State := { st far with dies := [(0, { tlb := [t] })] }
    ({ g1 with status := .waiting .sleep } : Group).status = .waiting .sleep ∧ GStatus.waiting .sleep ≠ .waiting .drain ∧
    (∀ k, k < 32 → (mget (l1Line (x full) 0 0).words k).isSome) ∧ mget (l1Line (x s) 0 0).words 1 = none ∧
    (mget (l1Line (x s) 0 0).words 0).map (·.dirty) = some true ∧ rising none (Machine.core s 0).l1 = true ∧
    (∀ l ∈ (Machine.core s 0).l1, rising none l.2.words = true) ∧
    (let ps := (rangePieces (memClass s) g1 0 4096).2; ps.held = false ∧ ps.bad = none ∧ inPieces ps.got 0 0 = true) ∧
    (match (xlateDie (memClass host) 0 0 0 0 false).2 with | .ok pa _ => cacheable pa == false | _ => false) = true := by decide
/-- WindowAccess: a walk with each end, a leaf's use with each outcome, and an item through the TLBs. -/
theorem witness_WindowAccess_walks :
    let s : State := sm g0 [(0x22010, 8, 0), (0x22018, 8, 3), (0x22020, 8, 0x200000000000000)]
    let e (n : Nat) : Bool := poisoned s (0x22000 + 8 * n) 8
    resolve s (0x21000 + 8 * 0) = some 0x21000 ∧ readNum s.mem 0x21000 8 = 0x22001 ∧ e 0 = false ∧ readNum s.mem 0x22000 8 = 0xF9 ∧
    resolve s (2 ^ 45 * 24) = none ∧ resolve s (6 * 2 ^ 30) = none ∧ readNum s.mem 0x22010 8 / 2 ^ 0 % 2 = 0 ∧
    readNum s.mem 0x22018 8 % 2 = 1 ∧ readNum s.mem 0x22018 8 / 2 % 4 ≠ 0 ∧
    poisoned { s with memBad := [0x22000 / 4] } 0x22000 8 = true ∧
    tlbFind [tlb0] 0 0 = some tlb0 ∧ ([{ tag := ⟨{}, 0, []⟩, va := 0, write := true, res := .leaf 0 12 0x79 4096 }] : List HeldWalk).find?
      (fun h => h.va = 4 / 4096 * 4096 && (h.write || !true)) = some { tag := ⟨{}, 0, []⟩, va := 0, write := true, res := .leaf 0 12 0x79 4096 } ∧
    ((tlbFind (Machine.core (st g0) 0).tlb 0 0).filter (tlbServes · true)).isSome ∧
    ((tlbFind (Machine.core { st g0 with cores := [] } 0).tlb 0 0).filter (tlbServes · true)) = none ∧
    ((tlbFind (die (st g0) 0).tlb 0 0).filter (tlbServes · true)).isSome ∧ (0 : Nat) + 4 ≤ win0.limit ∧ ({ win0 with limit := 0 } : Window).limit < 0 + 4 := by
  decide +kernel
/-- ABORT of a communicator with an outstanding COLL, beside one of another communicator. -/
theorem witness_CollectiveWords_abort :
    let x : Comm := { dies := 1 }
    let y (cid : Nat) : Coll :=
      { part := 0, ctx := 0, cid := cid, die := 0, step := 0, gid := 3, core := 0, mask := 0xFFFFFFFF, op := 11, src := 0x100, dst := 0x200, n := 1,
        gen := 0, reg := none, ins := .coll 0 .discard 1 none 3 .add .n32 false .allReduce }
    let s : State := { st g1 with comms := [(3, x), (4, x)], colls := [(5, y 3), (6, y 4)], ops := [(11, op0 .cl)] }
    RegsOk s (dstRegs g1 .discard) [] ∧ (s.colls.filter fun x => x.2.die = 0).length < Config.collQueue ∧ mget s.comms (commKey 0 0 3) = some x ∧
    x.npkg ≤ 1 ∧ x.poolIn = [] ∧ rising none s.colls = true ∧ s.memBad = [] ∧ mget s.colls (s.nextId + 1) = none ∧
    (∀ y ∈ s.colls, y.2.since = none) ∧ mget s.colls 5 = some (y 3) ∧ openColl (y 3) = true ∧ (y 3).key = commKey 0 0 3 ∧
    mget s.colls 6 = some (y 4) ∧ openColl (y 4) = true ∧ (y 4).key ≠ commKey 0 0 3 ∧
    (∀ y ∈ s.colls, openColl y.2 = true → y.2.key ≠ commKey 0 0 5) := by unfold RegsOk; decide
/-- EngineEvents: the commands of the matrix units and of the tempo array. -/
theorem witness_EngineEvents_commands :
    let s (i : Instr) : State := { sq g0 with ops := [(11, op0 .mx)], cores := [(0, { slots := [(0, { mx := [{ mx0 i with k := [0x4000, 7] }] })] })] }
    let turns (i : Instr) : Bool := match mxTurn (s i) 0 0 with | some x => x.left.isNone && x.ins == i && x.k == [0x4000, 7] | none => false
    let t (i : Instr) : State := { sq g0 with ops := [(11, op0 .tm)], cores := [(0, { tq := [{ gid := 3, ins := i, op := 11, k := 0x4000 }] })] }
    let tempo (i : Instr) : Bool := match (Machine.core (t i) 0).tq with | [x] => x.left.isNone && x.ins == i && scratchDone (t i) x.gid x.op | _ => false
    [.mmqt 0 0 0 false .bf16 0 0, .mmqz 0 0 0 false .n4 false 0 0 0, .alds .zero 0 .f16 0 63, .asts .zero 0 .f16 0 63 .rs, .aadd 0 0 8 0,
      .ascl (.k 0) 0 0 3, .ascl (.row 0) 0 0 3].all turns = true ∧ (0#20).toNat % 4 = 0 ∧ ((0x4000 : DWord).toNat) % 4 = 0 ∧
    (mget (s .nop).teams 2).isSome = true ∧ inMask (mx0 .nop).mask 31 = true ∧
    [.tcfg .zero true, .tstage 0 3, .tfire true, .tfire false, .tloadw .zero 0 127, .tcapt 0 3].all tempo = true ∧ (0x4000 : DWord).toNat % 2 ^ 32 % 4 = 0 ∧
    (Machine.core (t .nop) 0).tempo.bad = [] ∧ (team (t .nop) 2).carveBad = [] ∧ ({ (Machine.core (t .nop) 0).tempo with mode := 1 } : Tempo).mode.getLsbD 0 = true := by
  decide +kernel
theorem witness_HomeMessages_atomics :
    let l : ALane := { lane := 0, pa := 0, v := 1, reg := some 0 }
    let a (b : Body) : Prop := Arrives (at9 g0 (homeOf 0) b) (msg9 (homeOf 0) b)
    let rel (b : Body) : State := { at9 g0 (homeOf 0) b with rels := [(5, { gid := 3, body := .atomic 11 .putf none [l], home := homeOf 0, arrived := true, pending := [7] })] }
    a (.atomic 11 (.cas false) none [l, l]) ∧ a (.atomic 11 (.aggr []) none [l]) ∧ Arrives (at9 g0 (.core 0) (.atoms 11 2 (.op .addN32) [l])) (msg9 (.core 0) (.atoms 11 2 (.op .addN32) [l])) ∧
    (mget (sq g0).teams 2).isSome = true ∧ (team (sq g0) 2).carveBad = [] ∧ a (.collData 4 0 0 [(0, 1), (1, 2)] []) ∧
    ([((0 : Nat), (1 : Byte)), (1, 2)].map (·.1)).Nodup ∧ Arrives (rel (.report 5 7)) (msg9 (homeOf 0) (.report 5 7)) ∧
    (mget (rel (.report 5 7)).rels 5).map (fun x => (x.arrived, x.pending, decide (x.srcCore < 24))) = some (true, [7], true) ∧
    poisoned (rel (.report 5 7)) l.pa (laneBytes .putf) = false ∧
    (mget (rel (.report 5 8)).rels 5).map (fun x => x.pending.any (· != 8)) = some true ∧
    0 + 1 = (tourSlot { g0 with tours := [(0, { steps := [0], add := true })] } 0).steps.length ∧ poisoned (sq g0) 0 4 = false := by
  unfold Arrives; decide
theorem witness_AnswersAtTheCore_errors :
    let b : Body := .data (.load 11 .b32 [(31, 0, 0)] [] [] false) [] [] true
    let s : State := { at9 g0 (.core 0) b with ops := [(11, { op0 .ld with dests := [(31, 0)] })] }
    Arrives s (msg9 (.core 0) b) ∧ (op0 .ld).parts = 1 ∧ (op0 .ld).discard = false ∧ s.issue.gid ≠ (op0 .ld).gid := by unfold Arrives; decide
theorem witness_WakesAndControl_promotes :
    let a (g : Group) (h : Home) (b : Body) : Prop := Arrives (at9 g h b) (msg9 h b)
    let p : State := { at9 g0 (.core 0) (.promote 3 0) with
      cores := (sl1 g0 [(0, { val := 5, dirty := true, by_ := [3] })]).cores
      net := [m7, { msg9 (.core 0) (.promote 3 0) with id := 9 }], rels := [(5, { gid := 3, body := .marker 5, home := homeOf 0 })] }
    let late : Msg := { msg9 (.core 0) (.promoteAck 3 7) with after := [7] }
    let k : State := { sq (held g0 [4, 0, 3] none) with net := [m7, late], arriving := .msg 9 }
    a { g0 with status := .waiting (.mem 8 4 0 0), also := some .sleep } (.core 0) (.wake (.waita 3) 0) ∧ ({ g0 with also := some .sleep } : Group).also = some .sleep ∧
    Arrives p (msg9 (.core 0) (.promote 3 0)) ∧ (mget (Machine.core p 0).l1 0).map (fun y => y.words.any fun w => w.2.dirty && decide (w.1 < 32)) = some true ∧
    (∃ x ∈ p.net, x.id ≠ 9 ∧ x.body = .write [(0, 1)] [] none ∧ 24 * x.srcDie + x.srcCore = 0) ∧ (∃ e ∈ p.rels, 24 * e.2.srcDie + e.2.srcCore = 0) ∧
    k.arriving = .msg late.id ∧ netGet k late.id = some late ∧ unreachable k late = false ∧ (∃ n ∈ late.after, performed k n = false) := by
  unfold Arrives
  refine ⟨by decide, by decide, by decide, by decide, ⟨m7, ?_⟩, ⟨(5, _), List.mem_cons_self, ?_⟩, by decide, by decide, by decide, ⟨7, by decide⟩⟩ <;> decide
theorem witness_WalksAndRetries_copies :
    let s : State := { sq g0 with nextId := 40 }
    let x : TourSlot := { waitCopies := [20], waitFor := [7] }
    x.sent = false ∧ x.waitFor.all (performed s) = true ∧ x.waitCopies.all (copyGone s) = true ∧ s.memBad = [] := by decide
/-- CollectiveEvents: a step that completes, one whose generations differ, and one that erred. -/
theorem witness_CollectiveEvents_completion :
    let t (x : Coll) : Coll := { x with since := some 0, tries := 1 }
    let b : Coll := { cl 1 1 with dst := 0x300 }
    let r : State := sc (t (cl 0 1)) (t b) false
    let gn : State := sc (cl 0 1) { b with gen := 1 } false
    let cs := stepMembers r 3 0
    let co : Comm := (mget r.comms 3).getD {}
    openColl (t (cl 0 1)) = true ∧ stepReady r 3 0 = true ∧ co.npkg = 1 ∧ co.rank = 0 ∧ co.poolIn = [] ∧ cs.map (·.1) = [15, 16] ∧
    (∀ x ∈ cs, x.2.waiting = false ∧ x.2.got = [] ∧ x.2.stage = none) ∧ collForm (cl 0 1).ins = (.allReduce, .add, .n32, false) ∧
    (match mapMembers (commM co) cs r with
      | (u, .ok ms) => pathBroken u ms == false && cs.all (fun x => (Machine.core u x.2.core).l1.isEmpty && x.2.after.all (performed u))
        && ms.all (fun x => x.2.1.length ≤ 1 && x.2.2.length ≤ 1 && (List.range 8).all fun i =>
          !beyond (pieceAt x.2.1 i) && !beyond (4 * (pieceAt x.2.2 i / 4)))
        && ((ms.map fun x => (List.range 4).map (pieceAt x.2.2)).flatten).eraseDups.length == 8
      | _ => false) = true ∧
    (let gs := stepMembers gn 3 0
     openColl (cl 0 1) = true ∧ stepReady gn 3 0 = true ∧ gs.map (fun x => memberIndex co x.2.die) = [0, 1] ∧
     (∀ y ∈ gs, collForm y.2.ins = collForm (cl 0 1).ins ∧ y.2.n = (cl 0 1).n) ∧ gs.map (·.2.gen) = [0, 1] ∧ commM co = 2) ∧
    ({ t (cl 0 1) with erred := true } : Coll).erred = true ∧ (t (cl 0 1)).erred = false := by decide +kernel
theorem witness_PhaserNetwork_members : ({ members := 1 } : Phaser).members ≠ 0 ∧ 2 ^ 31 ≤ (({ o := 5, rn := 2, rx := 2 } : PhNode).o - 1 - 7).toNat ∧
    (phNode { scope := 3, nodes := [(podNode, { rn := 1 })] } podNode).rx = 0 := by decide
/-- Object 5, whose node n is the leaf of the front end of die 0, beside a PHASER packet of operation op, partition scope unless x says. -/
def sj (op : Nat) (hst : Nat) (p : Phaser) (n : PhNode) : Machine.State :=
  { sm g0 [(0x30000, 8, 6), (0x30008, 8, 5), (0x30010, 8, op), (0x30018, 8, 0), (0x24030, 8, hst)] with phs := [(5, { p with nodes := [(feLeaf 0, n)] })] }
def pj : Phaser := { scope := 2, part := 0, ctx := 0 }
/-- The handle's state, the node, and the packet. -/
def hj (s : Machine.State) (f : Handle → Phaser → PhNode → Bool) : Bool :=
  upThen s 6 fun t _ => let h := queueHandle t 0 0
    let p := phaserOf t h.obj
    (mget t.phs h.obj).isSome && decide (phaserDie t 0 p = 0) && f h p (phNode p (feLeaf (phaserDie t 0 p)))
theorem witness_QueuePackets_phaser :
    let n0 : PhNode := { o := 7, rn := 2, rx := 2 }
    let last : PhNode := { n0 with rn := 1, rx := 1 }
    let any_ : Phaser := { pj with any := true }
    let h (o : Nat) : Nat := 0x5E + o * 2 ^ 32
    let b (op k : Nat) (p : Phaser) (n : PhNode) (f : Handle → Phaser → PhNode → Bool) : Bool :=
      hj (sj op k p n) fun h p n => h.st == .bound && n.via.isEmpty && f h p n
    b 0 (h 0) pj n0 (fun _ _ n => phaseDone (nodeC n) 0) = true ∧ b 0 (h 0) pj { n0 with o := 0 } (fun _ _ n => !phaseDone (nodeC n) 0) = true ∧
    b 2 (h 7) pj n0 (fun h p n => !p.any && h.s == n.o && n.a + 1 != n.rn) = true ∧
    b 2 (h 7) pj last (fun h p n => !p.any && h.s == n.o && n.a + 1 == n.rn && !n.sent) = true ∧
    b 2 (h 8) pj n0 (fun h p n => !p.any && h.s == n.o + 1) = true ∧ b 2 (h 7) any_ n0 (fun h p n => p.any && h.s == n.o && !n.x) = true ∧
    b 2 (h 9) pj n0 (fun h _ n => h.s != n.o && h.s != n.o + 1 && phaseDone (h.s - 2) n.o) = true ∧ b 3 (h 7) pj n0 (fun _ _ _ => true) = true ∧
    b 3 (h 7) pj last (fun h p n => !p.any && h.signals && h.s == n.o && n.a + 1 == n.rn && !n.sent) = true ∧
    hj (sj 2 0x50 pj n0) (fun h _ _ => h.st != .bound) = true ∧ hj (sj 1 0x51 pj n0) (fun h _ _ => h.st == .joining) = true := by decide +kernel
theorem witness_QueuePackets_joins :
    let j (p : Phaser) (f : Machine.State → Phaser → Bool) : Bool := upThen (sj 1 0 p { o := 7 }) 6 fun t x =>
      let y := phaserOf t (pktField x 8 % 2 ^ 20)
      pktField x 0x10 == 1 && (queueHandle t 0 0).st == .unbound && (mget t.phs 5).isSome && y.here && !y.marked && y.part == 0 && y.ctx == qCtx t 0 0 && f t y
    j pj (fun _ y => y.scope == 2) = true ∧ j { pj with scope := 1 } (fun _ y => y.scope == 1 && y.bound == none) = true ∧
    j { pj with scope := 1, bound := some 0 } (fun t y => y.bound == some (phaserDie t 0 y)) = true ∧
    (let s : Machine.State := { sj 1 0 { pj with scope := 3 } {} with pod := true }
     upThen s 6 (fun t _ => t.pod && (phaserOf t 5).scope == 3) = true) ∧
    upThen { sj 1 0 pj {} with phs := [] } 6 (fun t x => (mget t.phs (pktField x 8 % 2 ^ 20)).isNone && (queueHandle t 0 0).st == .unbound) = true ∧
    (let s : Machine.State := { sj 1 0x5E pj {} with fes := [(0, { slots := [(0, { part := 0, q := 0, half := some 6 })], running := true })] }
     upThen s 6 (fun t x => (queueHandle t 0 0).st == .bound && (findQueue s 0 0).bind (·.2.2.half) == some (pktHeader x)) = true) ∧
    upThen (sj 1 0x5E pj {}) 6 (fun t _ => (queueHandle t 0 0).st == .bound) = true := by decide +kernel
theorem witness_queue_errors :
    [0, 9, 255].all (fun k => let s := sp k 0 0 0 0
      queueRuns s 0 0 { part := 0, q := 0 } && match takePacket s 0 0 0 { part := 0, q := 0 } with
        | (t, .ok i x) => i == 0 && badPacket x && (resolve t (qAddr t 0 0)).isSome | _ => false) = true := by decide +kernel
/-- Grid 1's team waits for its ways, on the core whose L1 holds a line in the team's way of set 0; a fill of that line is on its way where f. -/
def swp (f : Bool) : Machine.State :=
  let s := sg grClaim
  { s with
      teams := [(2, { tm0 with started := false, swept := 0 })], groups := [(3, { g0 with status := .starting })]
      cores := [(0, { slots := [(0, { holder := some 3 })], l1 := [(512, { words := [(0, { val := 5 })] })] })]
      net := if f then [{ m7 with home := .slice 0 0, body := .read 512 [1] (.load 11 .b32 [] [] [1] false) }] else [] }
theorem witness_GridEvents_sweep :
    rising none (swp false).teams = true ∧ rising none (Machine.core (swp false) 0).l1 = true ∧ (∀ c ∈ (swp false).cores, c.1 = 0) ∧
    (∀ l ∈ (Machine.core (swp false) 0).l1, (∃ w ∈ lineWays l.2, w ∈ [0]) ∧ 0 ≤ l.1 % 512 ∧ fillComing (swp false) 0 l.1 = false) ∧
    (mget (swp false).groups 3).map (·.status) = some .starting ∧ (Machine.core (swp false) 0).l1.isEmpty = false ∧
    (∃ l ∈ (Machine.core (swp true) 0).l1, (∃ w ∈ lineWays l.2, w ∈ [0]) ∧ l.1 % 512 = 0 ∧ fillComing (swp true) 0 l.1 = true) := by decide +kernel
theorem witness_GridEvents_gangs :
    0 < grClaim.gang ∧ grSteal.gang ≤ 4 ∧ 1 % grSteal.gang = 0 ∧ grSteal.chunks = [(1, (List.range grSteal.gang).map (1 + ·))] ∧
    grSteal.scratch < 65536 ∧ gangHere (sg grSteal) 1 (1 / grSteal.gang) = false ∧ (1 : Nat) ≠ 0 ∧ placeReserve sGather 1 0 = some sGather ∧
    ({ entry := 1, regs := 16 } : NodeDecl).ways = 0 ∧
    [GridEnd.running, .refused 0x14, .aborting 0x43, .aborting 0x46].all (fun x =>
      let s := sg { gr0 with isOver := true, launch := some (0, 0, 0x100), ending := x }
      match mapRange (queueDie s 0 0) 0 0 true 2 0x100 0 4 s with
      | (_, .ok ps) => ((List.range 4).map (pieceAt ps)).eraseDups.length == 4
      | _ => false) = true := by decide +kernel
/-- Core 1 holds no team, and a dirty word of context 1's. -/
def sLeft : Machine.State :=
  let s := sx (fun x => { x with slice := some 1 })
  { s with
      grids := mmap s.grids fun k g => if k = 1 then { g with cores := [0, 1] } else g
      cores := s.cores ++ [(1, { l1 := [(0, { words := [(0, { val := 5, dirty := true })] })] })] }
theorem witness_TenantEvents_left :
    1 ∈ leftCores sLeft 0 1 ∧ coreCtxs sLeft 1 = [] ∧ (part sLeft 0).slice = some 1 ∧ (part sLeft 0).sliceEnd ≤ sLeft.time ∧
    halfSignal sLeft 0 1 = false ∧ nextInRound sLeft 0 (roundOf sLeft 0) (some 1) = some 2 ∧ (∀ t ∈ sLeft.teams, t.2.onReserve = false) ∧
    (mget sLeft.grids 1).map (·.ctx) = some 1 := by decide +kernel
theorem tours_short (i : Nat) : (tourSlot { g0 with xw := [] } i).steps.length ≤ 8 ∧ (tourSlot { g0 with xw := [] } i).masks.length ≤ 4 :=
  ⟨Nat.zero_le _, Nat.zero_le _⟩
theorem witness_TenantEvents_areas :
    BlockFits yc ∧ saveBase (sx id) 0 1 0 < 2 ^ 52 ∧ Installed (saveBase (sx id) 0 1 0) (2 ^ 22) ∧ yc.groups[0]? = some (3, { g0 with xw := [] }) ∧
    (let a := ctxField sxGather 0 1 0x18 8 + 2 ^ 21 * dieIndex (part sxGather 0) 0
     a < 2 ^ 52 ∧ Installed a (2 ^ 21)) ∧
    gb.node < 64 ∧ gb.recs.length ≤ 64 ∧ (∀ r ∈ gb.recs, r.length ≤ 64) ∧ (2000 - 0) / 1000 < 2 ^ 32 ∧
    sxGather.grids = [(gb.grid, { gr0 with ctx := 1, nodes := [(gb.node, {})] })] ∧ ({} : NodeDecl).bytes < 2 ^ 16 ∧ gb.recs[0]? = some [1] := by
  refine ⟨⟨?_, ?_, ?_, ?_, ?_, ?_, ?_, ?_, ?_, ?_, ?_, ?_⟩, ?_, ?_, rfl, ?_, ?_, ?_, ?_, ?_, ?_, ?_, ?_⟩
  case refine_8 =>
    intro g h
    rw [show yc.groups = [(3, { g0 with xw := [] })] from rfl, List.mem_singleton] at h
    subst h
    exact ⟨by decide, by decide, by decide, by decide, by decide, by decide, by decide, by decide, tours_short⟩
  all_goals first | decide +kernel | (unfold Installed; decide +kernel)
theorem witness_TenantEvents_units :
    unitMay sy 0 1 [[yc]] = true ∧ (match unitOrder sy [[yc]] with | some o => sy.grids.any (fun g => g.2.order == o) | none => true) = true := by
  decide +kernel
theorem witness_HostAndPower_derlo :
    ({ sm g0 [] with memTrained := true } : Machine.State).memTrained = true ∧ ({ sm g0 [] with memTrained := true } : Machine.State).derlo = false ∧
    ({ sm g0 [] with linksUp := true } : Machine.State).linksUp = true ∧ (0 : Nat) < 38 := by decide
/-- An issue group of group 3 with verdict v, in a state whose grid is gr. -/
def sv (gr : Grid) (v : Verdict) (f : Issue → Issue) : State :=
  { st g0 with grids := [(1, gr)], issue := f { (st g0).issue with verdict := v } }
theorem witness_CommitAndKill_verdicts :
    let poison : Kill := ⟨0x42, 0x1000, true⟩
    let c (f : Group → Group) (i : Issue) : Issue := { i with cur := f i.cur }
    rising none (st g0).groups = true ∧ rising none (st g0).teams = true ∧
    (sv gr0 .done id).issue.verdict = .done ∧ g0.status ≠ .waiting .drain ∧ ¬((sv gr0 .done id).issue.endRun = true ∨ 64 ≤ g0.runPkts + 1) ∧
    (sv gr0 .done fun i => { i with endRun := true }).issue.endRun = true ∧ 64 ≤ ({ g0 with runPkts := 63 } : Group).runPkts + 1 ∧
    (sv gr0 .done id).issue.kill = none ∧ (sv gr0 .done fun i => { i with kill := some poison }).issue.kill = some poison ∧
    (sv gr0 .done (c fun g => { g with status := .waiting .drain })).issue.cur.status = .waiting .drain ∧
    (sv gr0 (.faulted 2 0) id).issue.verdict = .faulted 2 0 ∧
    (gridOf (sv gr0 (.faulted 2 0) id) (grp (sv gr0 (.faulted 2 0) id) 3)).ending = .running ∧
    (gridOf (sv { gr0 with ending := .aborting 0x41 } (.faulted 2 0) id) (grp (sv gr0 (.faulted 2 0) id) 3)).ending = .aborting 0x41 ∧
    (mget (sv gr0 (.faulted 2 0) id).groups 3).isSome = true ∧ (sv gr0 .stalled id).issue.verdict = .stalled ∧
    (sv gr0 .parked id).issue.verdict = .parked ∧ (sv gr0 .parked (c fun g => { g with woken := true })).issue.cur.woken = true := by decide
theorem witness_CommitAndKill_kills :
    let r (n : Nat) (l : Option (Byte × Nat × Nat × Bool)) : Grid := { gr0 with relaunch := true, recs := [(0, { attempt := n, last := l })] }
    let same : Option (Byte × Nat × Nat × Bool) := some (0x41, 7, 0, false)
    let rec_ (gr : Grid) : LaunchRec := (mget gr.recs (tm0.index / gr.gang)).getD {}
    mget (st g0).groups 3 = some g0 ∧ mget (st g0).teams g0.team = some tm0 ∧ mget (sv (r 1 same) .done id).grids tm0.grid = some (r 1 same) ∧
    (∀ n ∈ [1, 2, 4], RecordFits (sv (r n same) .done id) g0 tm0 (r n same)) ∧ (7 : Nat) < 2 ^ 64 ∧
    ({ tm0 with node := some 5 } : Team).node.isSome = true ∧ tm0.node = none ∧ gr0.relaunch = false ∧ (r 1 none).relaunch = true ∧
    (rec_ { gr0 with recs := [(0, { draining := true })] }).draining = true ∧ (rec_ (r 1 same)).draining = false ∧
    (rec_ (r 2 (some (0x42, 7, 5, true)))).last = some (0x42, 7, 5, true) ∧ 4 ≤ (rec_ (r 4 same)).attempt ∧ (rec_ (r 2 same)).attempt < 4 ∧
    (rec_ (r 4 same)).last = some (0x41, 7, g0.core, false) ∧ (rec_ (r 4 none)).last = none ∧
    (rec_ { gr0 with recs := [(0, { attempt := 3, last := some (0x41, 7, 9, false), took := true })] }).took = true ∧
    (∃ y ∈ (st g0).teams, y.2.grid = tm0.grid ∧ y.2.node = none ∧ y.2.index / gr0.gang = 0 ∧ 3 ∈ y.2.groups) ∧ g0.status ≠ .ended ∧
    (∀ y ∈ (st g0).teams, 4 ∉ y.2.groups) := by
  refine ⟨by decide, by decide, by decide, by unfold RecordFits; decide, ?_, ?_, ?_, ?_, ?_, ?_, ?_, ?_, ?_, ?_, ?_, ?_, ?_, ?_, ?_, ?_⟩ <;> decide
/-- IssueGroups: a word that faults beside one that consumed a poisoned operand. -/
theorem witness_IssueGroups_kill :
    let g : Group := { g0 with vBad := [0] }
    let f : Instr → Bool × Option Byte := fun i => match runMember exec ⟨1, 0, none, i⟩ (st g) with
      | .next t => (isFault t, t.issue.kill.map (·.code)) | _ => (false, none)
    f .ret = (true, none) ∧ f (.iadd .none ⟨false, .v 1⟩ (.v 0) (.v 0)) = (false, some 0x42) := by decide +kernel

/-! ## The clauses on what goes with its request, its core or its packet -/

/-- FENCE: a fill that a home has read, of a page with S = 0, is on its way to the core. PROMOTE: its first attempt keeps the number of its
request, and an acknowledgement of another request comes. -/
theorem witness_FencesAndPromote_fills :
    let f : ReadFor := .load 11 .b32 [(0, 0, 0)] [] [0] false
    let m : Msg := { msg9 (.core 0) (.data f [(0, 1)] [] false) with id := 9 }
    let h : Hold := { pos := {}, word := 0, ops := [4, 0, 3], waitFor := [7] }
    fillFor 0 m = true ∧ fillStable f = false ∧ fillOf f = [0] ∧ h.ops.head? = some 4 ∧ h.ops.length = 3 ∧ h.res = none ∧ h.stands = false ∧
    Arrives (at9 { g0 with hold := [h] } (.core 0) (.promoteAck 3 8)) (msg9 (.core 0) (.promoteAck 3 8)) ∧
    ({ pos := {}, word := 0, ops := [0], waitFor := [7] } : Hold).stands = true ∧ (held g0 [6, 0, 0] (some 7)).hold.all Hold.stands = true := by
  unfold Arrives; decide
/-- A wake that reaches core 1 for a group on core 0, and an invalidation at a die. -/
theorem witness_WakesAndControl_elsewhere :
    let v : Inval := { ctx := 0, entry := 0, count := 1, level := 4, values := 0, cores := [1000] }
    let p : State := { at9 g0 (.die 0) (.inval 0 1000) with parts := [(0, { dies := 1, inval := [v] })] }
    Arrives (at9 { g0 with status := .parked } (.core 1) (.wake (.group 3) 7)) (msg9 (.core 1) (.wake (.group 3) 7)) ∧ (Home.core 1 ≠ .core g0.core) ∧
    Arrives p (msg9 (.die 0) (.inval 0 1000)) ∧ (part p 0).inval = [v] ∧ v.cores.contains 1000 = true ∧ dieOf 0 = 1000 - 1000 := by
  unfold Arrives; decide
/-- A WRITE-SIGNAL whose write is performed, and one in whose place another packet stood when its write was; a mapped queue whose descriptor
passes its checks, and one whose descriptor does not. -/
theorem witness_QueuePackets_begun :
    let s (h : DWord) : Machine.State := { sp 5 0x100 5 0x200 1 with fes := [(0, { slots := [(0, { part := 0, q := 0, half := some h })], running := true })] }
    let begun (t : Machine.State) (x : BitVec 512) : Bool := (findQueue t 0 0).bind (·.2.2.half) == some (pktHeader x)
    upThen (s 5) 5 (fun t x => begun (s 5) x && eightThen t 0x200 true fun _ _ => true) = true ∧ upThen (s 6) 5 (fun _ x => !begun (s 6) x) = true := by
  decide +kernel
theorem witness_QueueControl_enable :
    let m : Map MQueue := [(0, { part := 0, q := 0 })]
    let b : Machine.State := { sz 1 0 m 2 with mem := writeNum (sz 1 0 m 2).mem 0x24008 4 99 }
    descriptorOk (sz 1 0 m 2) 0 0 = true ∧ descriptorOk b 0 0 = false ∧ findQueue b 0 0 = some (0, 0, { part := 0, q := 0 }) ∧ b.locked = true ∧
    bit (qFlags b 0 0) 0 = true ∧ bit (qFlags b 0 0) 1 = false ∧ QueueAt b 0 0 0x24000 := by unfold QueueAt; decide +kernel
/-- A marked object that PHJOIN finds. -/
theorem witness_PhaserRegistration_marked :
    let s : State := { st { g0 with k := [(1, 0x35), (2, 5)] } with phs := [(5, { marked := true, here := false })] }
    CanTrap s 2 ∧ (hget s.issue.pre 1).st = .unbound ∧ findHold s [5, 1, (kget s.issue.pre 2).toNat, 3] = none ∧
    resolveId s s.issue.pre (kget s.issue.pre 2).toNat = some 5 ∧ (phaserOf s 5).marked = true ∧ (mget s.phs 5).isSome = true := by
  unfold CanTrap; decide
/-- A request to the host of a party whose core has been saved; a tour that waits for a collective and for none. -/
theorem witness_WalksAndRetries_saved :
    let r : HostReq := { part := 0, ctx := 0, pasid := 5, va := 2 ^ 30, host := 0, write := true, who := .group 3, pri := false, stale := true }
    let s : Machine.State := { sc (cl 0 1) (cl 1 1) false with hostReqs := [(20, r)] }
    mget s.hostReqs 20 = some r ∧ r.stale = true ∧ collGone s 15 = false ∧ ({ waitColls := [15] } : TourSlot).sent = false ∧
    ({ waitColls := [17] } : TourSlot).waitColls.all (collGone s) = true := by decide +kernel
/-- A DONE from the switch for an object of which this package has no proxy. -/
theorem witness_UnitsAtTheReceiver_drop :
    let m : PMsg := { obj := 5, src := podNode, dst := pkgNode, k := .done 1 0, onLink := true }
    let w : BitVec 128 := (makeFrame (frameOf m) (dataSeed 0)).truncate 128
    let l := uplinkKey 1 1
    isUplink l = true ∧ linkRuns (link (lk l {}) l) = true ∧ frameLink m = some l ∧ m.dst ≠ podNode ∧ unitOk l (w.zeroExtend 512) (dataSeed 0) = true ∧
    unitType l (w.zeroExtend 512) = 5 ∧ frameOf m / 2 ^ 4 = w.toNat / 2 ^ 16 % 2 ^ 112 / 2 ^ 4 ∧ ({ here := false } : Phaser).here = false := by
  decide +kernel
/-- Class-0 work needs core 0, which is reserved for it, while context 1's team is there. -/
theorem witness_TenantEvents_lost :
    let s := sx fun x => { x with resv := 1, slice := some 1 }
    let t : Machine.State := { s with grids := s.grids ++ [(9, { gr0 with ctx := 0 })] }
    forClass0 t 0 1 [0] = true ∧ halfSignal t 0 1 = false ∧ (coreCtxs t 0).contains (0, 1) = true := by decide +kernel

end Sys2Proof.Tests
end

section
/-! PROOFS. The operand checks of a V word (R23, R33, R50, R347), said once for all of them. -/

namespace Sys2Proof.Machine

/-- A word that fails an operand check leaves the state in which the fault is raised. -/
theorem withRegs_fault {s t : State} {regs : List Nat} {srcs : List Opnd} {k : State → State}
    (h : checkRegs s regs srcs = some t) : withRegs s regs srcs k = t := by
  unfold withRegs; simp only [h]
/-- A word that consumes a poisoned source kills after what it does (R347). -/
theorem withRegs_poison {s : State} {regs : List Nat} {srcs : List Opnd} {k : State → State}
    (h : checkRegs s regs srcs = none) (hb : badSrcs s.issue.pre srcs = true) :
    withRegs s regs srcs k = poisonKill (k s) 0 false := by
  unfold withRegs; simp only [h, hb, if_true]
/-- The first poisoned word that a group consumes becomes its kill (R347). -/
theorem poisonKill_none {s : State} (check : Nat) (m : Bool) (h : s.issue.kill = none) :
    (poisonKill s check m).issue.kill = some ⟨0x42, check, m⟩ := by
  unfold poisonKill; simp only [h]
/-- A kill stays the one raised first. -/
theorem poisonKill_some {s : State} {x : Kill} (check : Nat) (m : Bool) (h : s.issue.kill = some x) :
    poisonKill s check m = s := by
  unfold poisonKill; simp only [h]
/-- The operand checks of a V word pass the allotment and find an empty latch (R33, R50). -/
theorem checkRegs_latch {s : State} {regs : List Nat} {srcs : List Opnd} {n : Nat} {rest : List Nat}
    (h : ∀ r ∈ regs, r < s.issue.pre.regs) (he : (srcs.map (emptyLatch s.issue.pre.y)).flatten = n :: rest) :
    checkRegs s regs srcs = some (raiseB s 4 0x04 n) := by
  have h1 : regs.find? (fun r => decide (s.issue.pre.regs ≤ r)) = none := by
    rw [List.find?_eq_none]; intro r hr; have := h r hr; simp; omega
  unfold checkRegs; simp only [h1, he]
/-- Both operand checks pass. -/
theorem checkRegs_pass {s : State} {regs : List Nat} {srcs : List Opnd}
    (h : ∀ r ∈ regs, r < s.issue.pre.regs) (he : (srcs.map (emptyLatch s.issue.pre.y)).flatten = []) :
    checkRegs s regs srcs = none := by
  have h1 : regs.find? (fun r => decide (s.issue.pre.regs ≤ r)) = none := by
    rw [List.find?_eq_none]; intro r hr; have := h r hr; simp; omega
  unfold checkRegs; simp only [h1, he]

/-- i begins with the operand checks of a V word over d and srcs: a failed check is all that happens, and where both pass, a
poisoned source is a kill. -/
def ChecksOperands (s : State) (d : VDst) (srcs : List Opnd) (i : Instr) : Prop :=
  (∀ t, checkRegs s (namedRegs s.issue.pre srcs (dstRegs s.issue.pre d.d)) srcs = some t → t.issue.verdict ≠ .done →
    exec i s = .next t) ∧
  (checkRegs s (namedRegs s.issue.pre srcs (dstRegs s.issue.pre d.d)) srcs = none → badSrcs s.issue.pre srcs = true →
    s.issue.kill = none → Gives i s fun _ t => t.issue.kill = some ⟨0x42, 0, false⟩)

theorem vword_fault {s t : State} {d : VDst} {srcs : List Opnd} {f : Group → Nat → Word} {fl : Group → Nat → Byte}
    (h : checkRegs s (namedRegs s.issue.pre srcs (dstRegs s.issue.pre d.d)) srcs = some t) : vword s d srcs f fl = t := by
  unfold vword
  exact withRegs_fault h
theorem vword_poison {s : State} {d : VDst} {srcs : List Opnd} {f : Group → Nat → Word} {fl : Group → Nat → Byte}
    (h : checkRegs s (namedRegs s.issue.pre srcs (dstRegs s.issue.pre d.d)) srcs = none)
    (hb : badSrcs s.issue.pre srcs = true) (hk : s.issue.kill = none) :
    (vword s d srcs f fl).issue.kill = some ⟨0x42, 0, false⟩ := by
  unfold vword
  rw [withRegs_poison h hb]
  exact poisonKill_none _ _ hk

/-- A word that is a plain V word. -/
theorem checksOperands_of_vword {s : State} {d : VDst} {srcs : List Opnd} {i : Instr} {f : Group → Nat → Word}
    {fl : Group → Nat → Byte} (h : exec i s = .next (vword s d srcs f fl)) : ChecksOperands s d srcs i :=
  ⟨fun _ ht _ => h.trans (congrArg _ (vword_fault ht)), fun hn hb hk => ⟨_, h, vword_poison hn hb hk⟩⟩

/-- A change of the group's own state after a word raises no kill. -/
theorem ite_modCur_kill {p : Prop} [Decidable p] (t : State) (f : Group → Group) :
    (if p then modCur t f else t).issue.kill = t.issue.kill := by
  split <;> rfl
/-- A kill raised stays, whatever poisoned word is met after it. -/
theorem ite_poisonKill_some {p : Prop} [Decidable p] {t : State} {x : Kill} (check : Nat) (m : Bool) (h : t.issue.kill = some x) :
    (if p then poisonKill t check m else t) = t := by
  rw [poisonKill_some _ _ h, ite_self]

/-- FCVT, which may advance SEED after the word. -/
theorem checksOperands_fcvt (s : State) (d : VDst) (a : Opnd) (dst src : FTy) (m : RMode) :
    ChecksOperands s d [a] (.fcvt dst src m d a) := by
  refine ⟨fun t ht hv => ?_, fun hn hb hk => ⟨_, rfl, (ite_modCur_kill _ _).trans (vword_poison hn hb hk)⟩⟩
  simp only [exec, execFcvt, vword_fault ht, hv, and_false, if_false]
/-- SCXP, which may consume a poisoned stream word and set DS4 after the word. -/
theorem checksOperands_scxp (s : State) (d : VDst) (a b : Opnd) : ChecksOperands s d [a, b] (.scxp d a b) := by
  refine ⟨fun t ht hv => ?_, fun hn hb hk => ⟨_, rfl, (ite_modCur_kill _ _).trans ?_⟩⟩
  · simp only [exec, execScxp, vword_fault ht, hv, false_and, if_false]
  · rw [ite_poisonKill_some _ _ (vword_poison hn hb hk)]
    exact vword_poison hn hb hk

/-- Every V word begins with its operand checks. -/
theorem everyVWord_checksOperands (s : State) (d : VDst) (a b e : Opnd) :
    OfEveryVWord d a b e (ChecksOperands s d) := by
  refine ⟨fun i hi => ?_, fun _ => checksOperands_of_vword rfl, fun dst src m => checksOperands_fcvt s d a dst src m,
    fun _ _ => checksOperands_of_vword rfl, fun _ => checksOperands_of_vword rfl, fun _ => checksOperands_of_vword rfl,
    fun _ => checksOperands_of_vword rfl, fun i hi => ?_, fun _ => ⟨checksOperands_of_vword rfl, checksOperands_of_vword rfl⟩,
    fun _ => checksOperands_of_vword rfl,
    fun _ => ⟨checksOperands_of_vword rfl, checksOperands_of_vword rfl, checksOperands_of_vword rfl⟩,
    fun _ => checksOperands_of_vword rfl, fun _ => checksOperands_of_vword rfl,
    fun _ => ⟨checksOperands_of_vword rfl, checksOperands_of_vword rfl, checksOperands_of_vword rfl, checksOperands_of_vword rfl⟩,
    fun _ => ⟨checksOperands_of_vword rfl, checksOperands_of_vword rfl⟩, fun i hi => ?_⟩
  · fin_cases hi <;> exact checksOperands_of_vword rfl
  · simp only [List.mem_cons, List.not_mem_nil, or_false] at hi
    rcases hi with rfl | rfl | rfl | rfl | rfl | rfl | rfl | rfl | rfl | rfl | rfl | rfl | rfl | rfl | rfl | rfl | rfl
    case inr.inr.inr.inr.inr.inr.inr.inr.inr.inr.inr.inr.inl => exact checksOperands_scxp s d a b
    all_goals exact checksOperands_of_vword rfl
  · fin_cases hi <;> exact checksOperands_of_vword rfl
/-- What follows from a property of a word follows of every V word. -/
theorem OfEveryVWord.imp {d : VDst} {a b e : Opnd} {P Q : List Opnd → Instr → Prop} (h : ∀ srcs i, P srcs i → Q srcs i)
    (hp : OfEveryVWord d a b e P) : OfEveryVWord d a b e Q := by
  obtain ⟨h1, h2, h3, h4, h5, h6, h7, h8, h9, h10, h11, h12, h13, h14, h15, h16⟩ := hp
  exact ⟨fun i hi => h _ _ (h1 i hi), fun m => h _ _ (h2 m), fun x y z => h _ _ (h3 x y z), fun k m => h _ _ (h4 k m),
    fun o => h _ _ (h5 o), fun o => h _ _ (h6 o), fun o => h _ _ (h7 o), fun i hi => h _ _ (h8 i hi),
    fun x => ⟨h _ _ (h9 x).1, h _ _ (h9 x).2⟩, fun k => h _ _ (h10 k),
    fun x => ⟨h _ _ (h11 x).1, h _ _ (h11 x).2.1, h _ _ (h11 x).2.2⟩, fun x => h _ _ (h12 x), fun x => h _ _ (h13 x),
    fun x => ⟨h _ _ (h14 x).1, h _ _ (h14 x).2.1, h _ _ (h14 x).2.2.1, h _ _ (h14 x).2.2.2⟩,
    fun x => ⟨h _ _ (h15 x).1, h _ _ (h15 x).2⟩, fun i hi => h _ _ (h16 i hi)⟩

/-- Settles O10: every V word begins with its operand checks, and a fault of a group that can trap takes the trap. -/
theorem vectorOperandFaults : Obligations.VectorOperandFaults := by
  intro s d a b e entry hc
  refine OfEveryVWord.imp (fun srcs i hi => ?_) (everyVWord_checksOperands s d a b e)
  obtain ⟨hfault, hpoison⟩ := hi
  have traps : ∀ (stage : Nat) (code : Byte) (n : Nat),
      checkRegs s (namedRegs s.issue.pre srcs (dstRegs s.issue.pre d.d)) srcs = some (raiseB s stage code n) →
      Gives i s fun s t => TrapTaken s.issue.pre code (einfoB n 0 0 s.issue.word) s.issue.pos entry t ∧ OnlyIssue s t := by
    intro stage code n h
    obtain ⟨htrap, honly, hv⟩ := raiseAt_spec s stage code (einfoB n 0 0 s.issue.word) s.issue.pos entry hc
    exact ⟨_, hfault _ h (by rw [raiseB, raise, hv]; exact Verdict.noConfusion), htrap, honly⟩
  refine ⟨fun r hr => traps _ _ _ (checkRegs_regs hr), fun n rest hr he => traps _ _ _ (checkRegs_latch hr he), ?_⟩
  exact fun hr he hb hk => hpoison (checkRegs_pass hr he) hb hk

end Sys2Proof.Machine
end

section
/-! PROOFS. Uniform constants and KGET (R107, R109, R110). -/

namespace Sys2Proof.Machine

/-- The number that maskOf sums up over the first n lanes. -/
theorem maskSum_testBit (p : Nat → Bool) (n : Nat) :
    let x := (List.range n).foldl (fun m l => if p l then m + 2 ^ l else m) 0
    x < 2 ^ n ∧ ∀ l, x.testBit l = (decide (l < n) && p l) := by
  induction n with
  | zero => simp
  | succ n ih =>
    obtain ⟨hlt, hbit⟩ := ih
    rw [List.range_succ, List.foldl_append]
    simp only [List.foldl_cons, List.foldl_nil]
    split
    case isTrue hp =>
      refine ⟨by rw [Nat.pow_succ]; omega, fun l => ?_⟩
      rw [Nat.add_comm, ← Nat.mul_one (2 ^ n), Nat.testBit_two_pow_mul_add _ hlt, hbit]
      rcases Nat.lt_trichotomy l n with h | rfl | h
      · simp [h, Nat.lt_succ_of_lt h]
      · simp [hp]
      · have h1 : ¬ l < n + 1 := by omega
        have h2 : ¬ l < n := by omega
        have h3 : l - n ≠ 0 := by omega
        simp [h1, h2, Nat.testBit_lt_two_pow (Nat.one_lt_two_pow h3)]
    case isFalse hp =>
      refine ⟨by rw [Nat.pow_succ]; omega, fun l => ?_⟩
      rw [hbit]
      rcases Nat.lt_trichotomy l n with h | rfl | h
      · simp [h, Nat.lt_succ_of_lt h]
      · simp [hp]
      · have h1 : ¬ l < n + 1 := by omega
        have h2 : ¬ l < n := by omega
        simp [h1, h2]
/-- Lane l stands in a mask where it satisfies what the mask is of. -/
theorem maskOf_getLsbD (p : Nat → Bool) (l : Nat) : (maskOf p).getLsbD l = (decide (l < 32) && p l) := by
  unfold maskOf allLanes
  rw [BitVec.getLsbD_ofNat, (maskSum_testBit p 32).2 l]
  cases decide (l < 32) <;> rfl
/-- A mask read as a 64-bit value. -/
theorem zeroExtend_maskOf_getLsbD (p : Nat → Bool) (l : Nat) :
    ((maskOf p).zeroExtend 64).getLsbD l = (decide (l < 32) && p l) := by
  rw [BitVec.zeroExtend, BitVec.getLsbD_setWidth, maskOf_getLsbD]
  by_cases h : l < 32
  · simp [h, Nat.lt_trans h (by decide : 32 < 64)]
  · simp [h]

/-- KLIH joins its literal and the low half of KD (R107). -/
theorem klih_value (x : Word) (y : DWord) :
    (x ++ y.truncate 32 : DWord) = x.zeroExtend 64 <<< 32 ||| (y &&& 0xFFFFFFFF) := by
  apply BitVec.eq_of_getLsbD_eq
  intro n hn
  have hm : (0xFFFFFFFF : DWord).getLsbD n = decide (n < 32) := by
    rw [show (0xFFFFFFFF : DWord) = BitVec.ofNat 64 (2 ^ 32 - 1) from rfl, BitVec.getLsbD_ofNat, Nat.testBit_two_pow_sub_one]
    simp [hn]
  rw [BitVec.getLsbD_or, BitVec.getLsbD_and, hm, BitVec.getLsbD_append]
  by_cases h : n < 32
  · simp [h, hn]
  · simp [h, hn]

/-- KGET delivers what its special register reads. -/
theorem kget_gives (s : State) (d : Fin 64) (r : SReg) : Gives (.kget d r) s (KWritten d (sregVal s r)) :=
  ⟨_, rfl, kwrite_spec ..⟩
/-- KGET of a register whose reading is known. -/
theorem kget_reads {s : State} {d : Fin 64} {r : SReg} {x : DWord} (h : sregVal s r = x) :
    Gives (.kget d r) s (KWritten d x) := h ▸ kget_gives s d r

/-- The coordinates of a linear index (R20). -/
theorem coordinates_of_index {x y i j k n : Nat} (hi : i < x) (hj : j < y) (h : n = i + x * (j + y * k)) :
    n % x = i ∧ n / x % y = j ∧ n / x / y = k := by
  have h1 : n / x = j + y * k := by
    rw [h, Nat.add_mul_div_left _ _ (by omega), Nat.div_eq_of_lt hi, Nat.zero_add]
  refine ⟨by rw [h, Nat.add_mul_mod_self_left, Nat.mod_eq_of_lt hi], ?_, ?_⟩
  · rw [h1, Nat.add_mul_mod_self_left, Nat.mod_eq_of_lt hj]
  · rw [h1, Nat.add_mul_div_left _ _ (by omega), Nat.div_eq_of_lt hj, Nat.zero_add]

/-- Settles O2: each word writes what its special register or its constant reads as. -/
theorem uniformConstantsAndKget : Obligations.UniformConstantsAndKget := by
  intro s d g x gr dies reads
  refine ⟨fun i => ⟨_, rfl, kwrite_spec ..⟩, fun y => ⟨_, rfl, kwrite_spec ..⟩, fun y => ?_,
    ⟨_, rfl, _, kwrite_spec .., zeroExtend_maskOf_getLsbD _⟩, ⟨_, rfl, _, kwrite_spec .., zeroExtend_maskOf_getLsbD _⟩,
    kget_gives .., kget_gives .., kget_gives .., kget_gives .., kget_gives .., kget_gives .., kget_gives .., kget_gives ..,
    kget_gives .., kget_gives .., kget_gives .., kget_gives .., ?_, ?_, kget_gives .., kget_gives .., kget_gives .., ?_, ?_, ?_,
    kget_gives .., kget_gives s d⟩
  · rw [← klih_value]; exact ⟨_, rfl, kwrite_spec ..⟩
  · intro i j k hi hj hidx hn
    obtain ⟨h1, h2, h3⟩ := coordinates_of_index hi hj hidx
    have read : ∀ n : Nat, (if x.node.isSome then 0 else BitVec.ofNat 64 n : DWord) = BitVec.ofNat 64 n := fun n => by
      rw [hn]; rfl
    exact ⟨kget_reads ((read _).trans (congrArg _ h1)), kget_reads ((read _).trans (congrArg _ h2)),
      kget_reads ((read _).trans (congrArg _ h3)), kget_reads (read _)⟩
  · intro hn
    have read : ∀ n : Nat, (if x.node.isSome then 0 else BitVec.ofNat 64 n : DWord) = BitVec.ofNat 64 0 := fun n => if_pos hn
    exact ⟨kget_reads (read _), kget_reads (read _), kget_reads (read _), kget_reads (read _)⟩
  · intro hn
    have hn : (team s s.issue.pre.team).node = none := hn
    exact kget_reads (by simp only [sregVal, hn]; rfl)
  · intro n hn _
    have hn : (team s s.issue.pre.team).node = some n := hn
    exact kget_reads (by simp only [sregVal, hn]; rfl)
  · intro e c hc hcore
    have hdie : g.core / 24 = e := by omega
    have hmod : g.core % 24 = c := by omega
    refine ⟨kget_reads ?_, kget_reads ?_⟩
    · show BitVec.ofNat 64 (g.core % 24 * 2 ^ 24 + g.core / 24 * 2 ^ 16 + g.core) = _
      rw [hdie, hmod]
    · show BitVec.ofNat 64 (dieIndex (part s gr.part) (g.core / 24) * 2 ^ 8 + (partDies (part s gr.part)).length) = _
      rw [hdie]; rfl

end Sys2Proof.Machine
end

section
/-! PROOFS. What a step runs: the fetched word, the word of a front-end core, an event (R27, R45 to R48, R160, R321, R381). -/

namespace Sys2Proof.Machine

/-- A fetch whose translation is at hand goes on with the page's address (R160). -/
theorem fetchAt_ok {s : State} {va pa : Nat} {st : Bool} {k : State → Nat → State}
    (hx : xlateGroup s s.issue.pre.core (partOf s s.issue.pre) (ctxOf s s.issue.pre) va false (heldFor s [va]) = .ok pa st)
    (hb : bit (codeLeaf s s.issue.pre va) 4 = true) :
    fetchAt s va k = k (loadCoreTlb s s.issue.pre.core (ctxOf s s.issue.pre) va false) pa := by
  unfold fetchAt; simp only [hx, hb, if_true]

/-- A packet inside one page whose words can be read (R45). -/
theorem fetchPacket_ok {s : State} {pa : Nat} {st : Bool} {k : State → List Nat → State}
    (hc : s.issue.pos.pkt < (gridOf s s.issue.pre).codeSize) :
    let va := (gridOf s s.issue.pre).codeBase + 12 * s.issue.pos.pkt
    va / 4096 = (va + 8) / 4096 →
    xlateGroup s s.issue.pre.core (partOf s s.issue.pre) (ctxOf s s.issue.pre) va false (heldFor s [va]) = .ok pa st →
    bit (codeLeaf s s.issue.pre va) 4 = true →
    let s2 := loadCoreTlb s s.issue.pre.core (ctxOf s s.issue.pre) va false
    (∀ j, j < 3 → poisoned s2 (pa + 4 * j) 4 = false) →
    fetchPacket s k = k s2 [readNum s2.mem pa 4, readNum s2.mem (pa + 4) 4, readNum s2.mem (pa + 8) 4] := by
  intro va hpage hx hb s2 hp
  have hfind : [pa, pa + 4, pa + 8].find? (fun a => poisoned s2 a 4) = none := by
    simp only [List.find?_eq_none, List.mem_cons, List.not_mem_nil, or_false, Bool.not_eq_true]
    rintro a (rfl | rfl | rfl)
    · exact hp 0 (by omega)
    · exact hp 1 (by omega)
    · exact hp 2 (by omega)
  unfold fetchPacket
  rw [if_neg (by omega)]
  dsimp only
  rw [fetchAt_ok hx hb, if_pos hpage, if_pos (show va / 4096 = (va + 4) / 4096 by omega)]
  change (match [pa, pa + 4, pa + 8].find? (fun a => poisoned s2 a 4) with | some a => _ | none => _) = _
  rw [hfind]

/-- A word without a chain bit is an issue group of its own, with its literal word (R46, R47). -/
theorem members_single {ws : List Nat} {w x : Nat} {i : Instr} (hx : word ws w = x) (hc : bit x 31 = false)
    (hn : (if takesLiteral x then w + 2 else w + 1) ≤ 3)
    (hd : decode x (if takesLiteral x then word ws (w + 1) else 0) = .ok i) :
    members ws 3 w = ([⟨w, x, if takesLiteral x then some (word ws (w + 1)) else none, i⟩], none,
      if takesLiteral x then w + 2 else w + 1) := by
  have read : ∀ l, decode x l = .ok i → readWord x l = i := fun l h => by unfold readWord; rw [h]
  rw [members]
  dsimp only
  rw [hx]
  by_cases ht : takesLiteral x = true
  · simp only [ht, if_true] at hn hd ⊢
    have hw : w ≠ 2 := by omega
    simp only [hw, hc, decide_false, Bool.or_self, Bool.false_eq_true, if_false, read _ hd]
  · simp only [ht, Bool.false_eq_true, if_false] at hn hd ⊢
    simp only [hc, Bool.not_false, if_true, read _ hd]

/-- One member clashes with nothing (R19). -/
theorem clash_single (m : Member) : clash [m] [] [] = none := by
  simp [clash]

/-- An issue group of one word (R46). -/
theorem split_single {ws : List Nat} {w x : Nat} {i : Instr} (hx : word ws w = x) (hc : bit x 31 = false)
    (hn : (if takesLiteral x then w + 2 else w + 1) ≤ 3) (ho : onlyNops ws w = false) (hs : w = 0 ∨ w ∈ starts ws 3 0)
    (hd : decode x (if takesLiteral x then word ws (w + 1) else 0) = .ok i) :
    split ws w = .ok ([⟨w, x, if takesLiteral x then some (word ws (w + 1)) else none, i⟩],
      if takesLiteral x then w + 2 else w + 1) := by
  have h0 : (onlyNops ws 0 && decide (w = 0)) = false := by
    by_cases h : w = 0
    · subst h; simp [ho]
    · simp [h]
  have hstart : (decide (w ≠ 0) && !(starts ws 3 0).contains w) = false := by
    rcases hs with h | h
    · simp [h]
    · rw [List.contains_iff_mem.2 h]; simp
  unfold split
  simp only [h0, hstart, Bool.false_eq_true, if_false, members_single hx hc hn hd, clash_single, lowest]

/-- A slot whose group has no walk to wait for issues one issue group (R27, R210). -/
theorem slotTurn_issues {s : State} {c j gid : Nat} {ex : Instr → State → Out}
    (hh : (slotOf (core s c) j).holder = some gid) (hst : (grp s gid).stalled = false) :
    slotTurn ex c j s = issueGroup ex 2 gid s := by
  unfold slotTurn
  simp only [hh, hst, Option.isNone_some, Bool.false_eq_true, if_false, Bool.false_and]

/-- The issue of the word at the group's position, alone in its issue group (R27, R45, R46). -/
theorem issueGroup_single {ex : Instr → State → Out} {n gid w next x : Nat} {s s2 : State} {ws : List Nat} {lit : Option Nat}
    {i : Instr} :
    let g := grp s gid
    let s1 : State := { s with issue := { gid := gid, pos := g.pc, word := g.pc.word, pre := g, cur := g } }
    (∀ k : State → List Nat → State, fetchPacket s1 k = k s2 ws) → onlyNops ws g.pc.word = false →
    split ws g.pc.word = .ok ([⟨w, x, lit, i⟩], next) →
    issueGroup ex (n + 1) gid s = match ex i { s2 with issue := { s2.issue with
        fetched := some ws, next := if next = 3 then ⟨g.pc.pkt + 1, 0⟩ else ⟨g.pc.pkt, next⟩, word := w, raw := BitVec.ofNat 32 x } } with
      | .next t => .next (finish t [⟨w, x, lit, i⟩] (afterGroup ws g.pc.pkt next))
      | o => o := by
  intro g s1 hf ho hsp
  rw [issueGroup]
  dsimp only
  rw [hf]
  dsimp only
  rw [if_neg (by simp [g, ho] at ho ⊢), hsp]
  rfl

/-- The words of custom-0 alone say something to a front-end core (R321). -/
theorem decodeRv_custom0 {w : Nat} {i : Instr} (h : decodeRv w = .ok i) : w % 128 = 0x0B := by
  unfold decodeRv at h
  dsimp only at h
  split at h
  case isTrue hf => simpa [field] using hf.1
  case isFalse => exact absurd h (by simp)

/-- Before the images verify an entry that is not heard changes nothing (R381). -/
theorem act_asleep {a : Act} {s : State} (h : awake a s = false) : act a s = .next s := by
  unfold act; rw [h]; rfl
theorem act_awake {a : Act} {s : State} (h : s.verified = true) : (!awake a s) = false := by
  unfold awake; rw [h]; rfl
theorem act_slot {s : State} (c j : Nat) (h : s.verified = true) : act (.slot c j) s = slotTurn exec c j s := by
  unfold act; rw [act_awake h]; rfl
theorem act_fe {s : State} (id : Nat) (h : s.verified = true) : act (.fe id) s = feTurn exec id s := by
  unfold act; rw [act_awake h]; rfl
theorem act_event {s : State} {a : Arriving} {i : Instr} (h : awake (.event a i) s = true) :
    act (.event a i) s = runEvent a i s := by
  unfold act; rw [h]; rfl
/-- A front-end core that runs, is not held and waits for nothing executes the Xcokihan word at its program counter (R320, R321). -/
theorem feTurn_runs {ex : Instr → State → Out} {s : State} {id : Nat} {i : Instr} (hr : (fe s id).running = true)
    (hb : (fe s id).blocked = false) (hw : (fe s id).wait = none) (hd : decodeRv (feWord (fe s id)) = .ok i) :
    feTurn ex id s = ex i { s with feCur := id } := by
  unfold feTurn
  simp only [hr, hb, hw, hd, decodeRv_custom0 hd, Option.isSome_none, Bool.not_true, Bool.or_self, Bool.false_eq_true, if_false,
    if_true]
theorem step_cons {s : State} {a : Act} {rest : List Act} (h : s.agenda = a :: rest) :
    step s = act a { s with agenda := rest } := by
  unfold step; rw [h]

/-- Settles O56: each kind of agenda entry runs what it decodes. -/
theorem stepRunsDecoded : Obligations.StepRunsDecoded := by
  refine ⟨?_, ?_, ?_, ?_⟩
  · intro s c j gid pa x st rest i hv ha hh hst g pkt w s1 va hcode hpage hx hb s2 hp ws lit next hw hc hn ho hstart hd
    rw [step_cons ha, act_slot (s := { s with agenda := rest }) c j hv,
      slotTurn_issues (s := { s with agenda := rest }) hh hst]
    exact issueGroup_single (fun k => fetchPacket_ok hcode hpage hx hb hp) ho (split_single hw hc hn ho hstart hd)
  · intro s id rest i hv ha hrun hblocked hwait hd
    rw [step_cons ha, act_fe (s := { s with agenda := rest }) id hv]
    exact feTurn_runs hrun hblocked hwait hd
  · intro s t a rest i ha hwake hi
    have haw : awake (.event a i) { s with agenda := rest } = true := by
      unfold awake
      rcases hwake with h | ⟨ok, rfl⟩ | ⟨q, rfl⟩
      · rw [h]; rfl
      · exact Bool.or_true _
      · exact Bool.or_true _
    rw [step_cons ha, act_event haw]
    unfold runEvent
    rw [hi]
  · intro s a rest hv ha hpower hspdm hpass
    have haw : awake a { s with agenda := rest } = false := by
      unfold awake
      rw [show ({ s with agenda := rest } : State).verified = false from hv, Bool.false_or]
      split
      case h_1 x ok => exact absurd rfl (hpower x ok)
      case h_2 x q => exact absurd rfl (hspdm x q)
      case h_3 n => exact absurd rfl (hpass n)
      case h_4 => rfl
    rw [step_cons ha, act_asleep haw]

end Sys2Proof.Machine
end

section
/-! PROOFS. An issue group of several words (R27, R50, R163, R357). -/

namespace Sys2Proof.Machine

/-- The order of the pipes leaves no member out and adds none. -/
theorem mem_byPipe (ms : List Member) (m : Member) : m ∈ byPipe ms ↔ m ∈ ms := by
  unfold byPipe
  simp only [List.mem_append, List.mem_flatMap, List.mem_filter, List.mem_cons, List.not_mem_nil, or_false, decide_eq_true_eq]
  constructor
  · rintro (⟨_, _, h, _⟩ | ⟨h, _⟩) <;> exact h
  · intro h
    cases hp : m.pipe with
    | none => exact .inr ⟨h, rfl⟩
    | some p => exact .inl ⟨p, by cases p <;> simp, h, rfl⟩

/-- What becomes of an issue group whose words, each tried on the state before it, leave the states ts (R27, R50, R169). -/
def groupOutcome (ex : Instr → State → Out) (ms : List Member) (s : State) (ts : List (Member × State)) : Out :=
  match (ts.map (·.2)).filter isFault with
  | f :: rest => .next (keepKill (rest.foldl (fun a b => if worse b a then b else a) f) (ts.map (·.2)))
  | [] => match ts.find? fun t => t.2.issue.verdict = .stalled with
    | some t => .next (keepHolds t.2 (ts.map (·.2)))
    | none => match ts.find? fun t => t.2.issue.verdict = .parked && t.1.pipe = some .m with
      | some t => .next t.2
      | none => match ts.find? fun t => t.2.issue.verdict = .parked with
        | some t => .next t.2
        | none => runMembers ex (byPipe ms) s

/-- The words of a group, in the order of the pipes, with the states they leave. -/
def tried (ms : List Member) (f : Member → State) : List (Member × State) := (byPipe ms).map fun m => (m, f m)

theorem mem_tried {ms : List Member} {f : Member → State} {x : Member × State} :
    x ∈ tried ms f ↔ x.1 ∈ ms ∧ x.2 = f x.1 := by
  unfold tried
  simp only [List.mem_map, mem_byPipe]
  constructor
  · rintro ⟨m, hm, rfl⟩; exact ⟨hm, rfl⟩
  · rintro ⟨hm, hx⟩; exact ⟨x.1, hm, by rw [← hx]⟩
theorem mem_tried_states {ms : List Member} {f : Member → State} {t : State} :
    t ∈ (tried ms f).map (·.2) ↔ ∃ m ∈ ms, t = f m := by
  simp only [List.mem_map, mem_tried]
  constructor
  · rintro ⟨x, ⟨hm, hx⟩, rfl⟩; exact ⟨x.1, hm, hx⟩
  · rintro ⟨m, hm, rfl⟩; exact ⟨(m, f m), ⟨hm, rfl⟩, rfl⟩

/-- The issue group of several words that each answer a next state. -/
theorem runGroup_tried {ex : Instr → State → Out} {ms : List Member} {s : State} {f : Member → State} (hl : 2 ≤ ms.length)
    (h : ∀ m ∈ ms, runMember ex m s = .next (f m)) : runGroup ex ms s = groupOutcome ex ms s (tried ms f) := by
  have houts : (byPipe ms).map (fun m => (m, runMember ex m s)) = (byPipe ms).map fun m => (m, Host.Outcome.next (f m)) :=
    List.map_congr_left fun m hm => by rw [h m ((mem_byPipe ms m).1 hm)]
  match ms, hl with
  | a :: b :: t, _ =>
    unfold runGroup
    dsimp only
    rw [houts]
    have hnone : ((byPipe (a :: b :: t)).map fun m => (m, (Host.Outcome.next (f m) : Out))).find?
        (fun x => match x.2 with | .next _ => false | _ => true) = none := by
      rw [List.find?_eq_none]
      intro x hx
      obtain ⟨m, _, rfl⟩ := List.mem_map.1 hx
      exact Bool.false_ne_true
    have hts : ((byPipe (a :: b :: t)).map fun m => (m, (Host.Outcome.next (f m) : Out))).map (fun x => (x.1, outState s x.2)) =
        tried (a :: b :: t) f := by
      rw [List.map_map]; rfl
    split
    case h_1 x hx => exact absurd (hx.symm.trans hnone) (by simp)
    case h_2 =>
      rw [hts]; rfl

/-- A fault's place in the order of R50: its stage and its word. -/
theorem isFault_iff {s : State} : isFault s = true ↔ ∃ x i, s.issue.verdict = .faulted x i := by
  unfold isFault
  split
  case h_1 x i h => exact ⟨fun _ => ⟨x, i, h⟩, fun _ => rfl⟩
  case h_2 h => exact ⟨fun h' => absurd h' (by simp), fun ⟨x, i, hx⟩ => absurd hx (h x i)⟩
/-- What is no fault is worse than nothing. -/
theorem worse_of_not_fault {a b : State} (h : isFault a = false) : worse a b = false := by
  unfold worse
  split
  case h_1 x i y j ha hb => exact absurd (isFault_iff.2 ⟨x, i, ha⟩) (by simp [h])
  case h_2 => rfl
theorem worse_faults {a b : State} {x i y j : Nat} (ha : a.issue.verdict = .faulted x i) (hb : b.issue.verdict = .faulted y j) :
    worse a b = true ↔ x < y ∨ x = y ∧ i < j := by
  unfold worse; simp [ha, hb]
theorem worse_irrefl (a : State) : worse a a = false := by
  by_cases h : isFault a = true
  · obtain ⟨x, i, ha⟩ := isFault_iff.1 h
    exact Bool.eq_false_iff.2 fun hw => by have := (worse_faults ha ha).1 hw; omega
  · exact worse_of_not_fault (by simpa using h)
/-- One fault is worse than another, or at least as far on in R50 as any that is not before that other. -/
theorem worse_trans_false {a b c : State} (hb : isFault b = true) (hc : isFault c = true) (hab : worse a b = false)
    (hbc : worse b c = false) : worse a c = false := by
  by_cases h : isFault a = true
  · obtain ⟨x, i, ha⟩ := isFault_iff.1 h
    obtain ⟨y, j, hb⟩ := isFault_iff.1 hb
    obtain ⟨z, k, hc⟩ := isFault_iff.1 hc
    refine Bool.eq_false_iff.2 fun hw => ?_
    have h1 := (worse_faults ha hc).1 hw
    have h2 := mt (worse_faults ha hb).2 (by simp [hab])
    have h3 := mt (worse_faults hb hc).2 (by simp [hbc])
    omega
  · exact worse_of_not_fault (by simpa using h)
theorem worse_asymm {a b : State} (ha : isFault a = true) (hb : isFault b = true) (h : worse a b = true) : worse b a = false := by
  obtain ⟨x, i, ha⟩ := isFault_iff.1 ha
  obtain ⟨y, j, hb⟩ := isFault_iff.1 hb
  have h1 := (worse_faults ha hb).1 h
  exact Bool.eq_false_iff.2 fun hw => by have := (worse_faults hb ha).1 hw; omega

/-- The fold over the faults ends at one that none is worse than. -/
theorem worst_of_fold (l : List State) (a : State) (ha : isFault a = true) (hl : ∀ t ∈ l, isFault t = true) :
    let m := l.foldl (fun a b => if worse b a then b else a) a
    (m = a ∨ m ∈ l) ∧ isFault m = true ∧ worse a m = false ∧ ∀ t ∈ l, worse t m = false := by
  induction l generalizing a with
  | nil => exact ⟨.inl rfl, ha, worse_irrefl a, fun _ h => absurd h (by simp)⟩
  | cons b t ih =>
    have hb := hl b (List.mem_cons_self ..)
    have ht := fun x hx => hl x (List.mem_cons_of_mem b hx)
    rw [List.foldl_cons]
    by_cases hw : worse b a = true
    · rw [if_pos hw]
      obtain ⟨hmem, hf, hbm, hall⟩ := ih b hb ht
      refine ⟨.inr (List.mem_cons.2 hmem), hf,
        worse_trans_false hb hf (worse_asymm hb ha hw) hbm, fun x hx => ?_⟩
      rcases List.mem_cons.1 hx with rfl | hx
      · exact hbm
      · exact hall x hx
    · rw [if_neg hw]
      obtain ⟨hmem, hf, ham, hall⟩ := ih a ha ht
      refine ⟨hmem.imp id (List.mem_cons_of_mem b), hf, ham, fun x hx => ?_⟩
      rcases List.mem_cons.1 hx with rfl | hx
      · exact worse_trans_false ha hf (by simpa using hw) ham
      · exact hall x hx

/-- The kill that stands beside a fault: the fault's own, or the first poisoned word that another word consumed (R347, R357). -/
theorem keepKill_spec (t : State) (ts : List State) :
    ∃ k, keepKill t ts = { t with issue := { t.issue with kill := k } } ∧ (t.issue.kill.isSome → k = t.issue.kill) ∧
      (t.issue.kill = none → (∀ j, k = some j → j.code = 0x42 ∧ ∃ n ∈ ts, n.issue.kill = some j) ∧
        (k = none → ∀ n ∈ ts, ∀ j, n.issue.kill = some j → j.code ≠ 0x42)) := by
  unfold keepKill
  split
  case h_1 k hn hk =>
    obtain ⟨n, hmem, hkill⟩ := List.exists_of_findSome?_eq_some hk
    rw [Option.filter_eq_some_iff] at hkill
    obtain ⟨hkill, hcode⟩ := hkill
    refine ⟨some k, rfl, fun h => absurd h (by simp [hn]), fun _ => ⟨fun j hj => ?_, fun h => absurd h (by simp)⟩⟩
    cases hj
    exact ⟨of_decide_eq_true hcode, n, hmem, hkill⟩
  case h_2 h =>
    refine ⟨t.issue.kill, rfl, fun _ => rfl, fun hn => ⟨fun j hj => absurd hj (by simp [hn]), fun _ n hmem j hj hcode => ?_⟩⟩
    cases hs : ts.findSome? (fun t => t.issue.kill.filter fun k => decide (k.code = 0x42)) with
    | some k => exact h k hn hs
    | none =>
      have := List.findSome?_eq_none_iff.1 hs n hmem
      rw [hj] at this
      simp [hcode] at this

/-- The holding register of a stalled issue group after its other words' entries are kept (R163). -/
theorem keptHolds_spec (others : List State) (l0 : List Hold) :
    let hs := others.foldl (fun l t =>
      l ++ t.issue.cur.hold.filter fun h => h.stands && !(l.any fun x => x.word = h.word)) l0
    (∀ h ∈ l0, h ∈ hs) ∧ (∀ h ∈ hs, h ∉ l0 → h.stands = true ∧ ∃ t ∈ others, h ∈ t.issue.cur.hold) ∧
      ∀ t ∈ others, ∀ h ∈ t.issue.cur.hold, h.stands = true → ∃ k ∈ hs, k.word = h.word := by
  induction others generalizing l0 with
  | nil => exact ⟨fun _ h => h, fun _ h hn => absurd h hn, fun _ h => absurd h (by simp)⟩
  | cons t ts ih =>
    obtain ⟨hkeep, honly, hall⟩ := ih (l0 ++ t.issue.cur.hold.filter fun h => h.stands && !(l0.any fun x => x.word = h.word))
    rw [List.foldl_cons]
    refine ⟨fun h hm => hkeep h (List.mem_append_left _ hm), fun h hm hn => ?_, fun u hu h hm hst => ?_⟩
    · by_cases hh : h ∈ t.issue.cur.hold.filter fun h => h.stands && !(l0.any fun x => x.word = h.word)
      · obtain ⟨hmem, hp⟩ := List.mem_filter.1 hh
        exact ⟨(Bool.and_eq_true_iff.1 hp).1, t, List.mem_cons_self .., hmem⟩
      · obtain ⟨hst, u, hu, hmem⟩ := honly h hm (by simp only [List.mem_append, not_or]; exact ⟨hn, hh⟩)
        exact ⟨hst, u, List.mem_cons_of_mem _ hu, hmem⟩
    · rcases List.mem_cons.1 hu with rfl | hu
      · by_cases hw : (l0.any fun x => x.word = h.word) = true
        · obtain ⟨k, hk, he⟩ := List.any_eq_true.1 hw
          exact ⟨k, hkeep k (List.mem_append_left _ hk), of_decide_eq_true he⟩
        · refine ⟨h, hkeep h (List.mem_append_right _ (List.mem_filter.2 ⟨hm, ?_⟩)), rfl⟩
          rw [hst]; simpa using hw
      · exact hall u hu h hm hst

/-- No word of the group raises a fault. -/
theorem faults_tried_nil {ms : List Member} {f : Member → State} (h : ∀ m ∈ ms, isFault (f m) = false) :
    ((tried ms f).map (·.2)).filter isFault = [] := by
  rw [List.filter_eq_nil_iff]
  intro t ht
  obtain ⟨m, hm, rfl⟩ := mem_tried_states.1 ht
  simp [h m hm]
/-- No word of the group leaves a state that satisfies p. -/
theorem find_tried_none {ms : List Member} {f : Member → State} {p : Member × State → Bool} (h : ∀ m ∈ ms, p (m, f m) = false) :
    (tried ms f).find? p = none := by
  rw [List.find?_eq_none]
  rintro ⟨m, t⟩ hx
  obtain ⟨hm, ht⟩ := mem_tried.1 hx
  rw [show t = f m from ht, h m hm]
  exact Bool.false_ne_true
/-- A state found among those of the group's words is one of theirs. -/
theorem find_tried_some {ms : List Member} {f : Member → State} {p : Member × State → Bool} {x : Member × State}
    (h : (tried ms f).find? p = some x) : x.1 ∈ ms ∧ x.2 = f x.1 ∧ p x = true :=
  ⟨(mem_tried.1 (List.mem_of_find?_eq_some h)).1, (mem_tried.1 (List.mem_of_find?_eq_some h)).2, List.find?_some h⟩
/-- A word that satisfies p is found, or another one that does. -/
theorem find_tried_of_mem {ms : List Member} {f : Member → State} {p : Member × State → Bool} {m : Member} (hm : m ∈ ms)
    (hp : p (m, f m) = true) : ∃ x, (tried ms f).find? p = some x := by
  cases h : (tried ms f).find? p with
  | some x => exact ⟨x, rfl⟩
  | none => exact absurd hp (List.find?_eq_none.1 h _ (mem_tried.2 ⟨hm, rfl⟩))

section
variable {ms : List Member} {s : State} {f : Member → State} {ex : Instr → State → Out}

/-- The worst fault of R50 is raised, with the kill that stands beside it. -/
theorem groupOutcome_faults (h : ∃ m ∈ ms, isFault (f m) = true) :
    ∃ m ∈ ms, isFault (f m) = true ∧ (∀ n ∈ ms, worse (f n) (f m) = false) ∧
      groupOutcome ex ms s (tried ms f) = .next (keepKill (f m) ((tried ms f).map (·.2))) := by
  obtain ⟨m0, hm0, hf0⟩ := h
  have hmem : ∀ t, t ∈ ((tried ms f).map (·.2)).filter isFault ↔ (∃ m ∈ ms, t = f m) ∧ isFault t = true := fun t => by
    rw [List.mem_filter, mem_tried_states]
  unfold groupOutcome
  cases hfs : ((tried ms f).map (·.2)).filter isFault with
  | nil => exact absurd ((hmem (f m0)).2 ⟨⟨m0, hm0, rfl⟩, hf0⟩) (by simp [hfs])
  | cons a rest =>
    have hfault : ∀ t ∈ a :: rest, isFault t = true := fun t ht => ((hmem t).1 (hfs ▸ ht)).2
    obtain ⟨hin, hf, ha, hall⟩ := worst_of_fold rest a (hfault a (List.mem_cons_self ..))
      fun t ht => hfault t (List.mem_cons_of_mem _ ht)
    obtain ⟨⟨m, hm, he⟩, -⟩ := (hmem _).1 (hfs ▸ (List.mem_cons.2 hin))
    refine ⟨m, hm, he ▸ hf, fun n hn => ?_, by rw [← he]⟩
    rw [← he]
    by_cases hn' : isFault (f n) = true
    · rcases List.mem_cons.1 (hfs ▸ (hmem (f n)).2 ⟨⟨n, hn, rfl⟩, hn'⟩) with h | h
      · rw [h]; exact ha
      · exact hall _ h
    · exact worse_of_not_fault (by simpa using hn')

/-- With no fault a stalled word holds the issue group (R163). -/
theorem groupOutcome_stalled (hnf : ∀ m ∈ ms, isFault (f m) = false) (h : ∃ m ∈ ms, (f m).issue.verdict = .stalled) :
    ∃ m ∈ ms, (f m).issue.verdict = .stalled ∧
      groupOutcome ex ms s (tried ms f) = .next (keepHolds (f m) ((tried ms f).map (·.2))) := by
  obtain ⟨m0, hm0, hv0⟩ := h
  obtain ⟨x, hx⟩ := find_tried_of_mem (p := fun t => t.2.issue.verdict = .stalled) hm0 (decide_eq_true hv0)
  obtain ⟨hm, he, hp⟩ := find_tried_some hx
  refine ⟨x.1, hm, he ▸ of_decide_eq_true hp, ?_⟩
  unfold groupOutcome
  simp only [faults_tried_nil hnf, hx]
  rw [he]

/-- With neither a fault nor a stall a parked word parks the issue group (R169). -/
theorem groupOutcome_parked (hnf : ∀ m ∈ ms, isFault (f m) = false) (hns : ∀ m ∈ ms, (f m).issue.verdict ≠ .stalled)
    (h : ∃ m ∈ ms, (f m).issue.verdict = .parked) :
    ∃ m ∈ ms, groupOutcome ex ms s (tried ms f) = .next (f m) ∧ (f m).issue.verdict = .parked := by
  obtain ⟨m0, hm0, hv0⟩ := h
  have hstall : (tried ms f).find? (fun t => t.2.issue.verdict = .stalled) = none :=
    find_tried_none fun m hm => decide_eq_false (hns m hm)
  unfold groupOutcome
  simp only [faults_tried_nil hnf, hstall]
  cases hx : (tried ms f).find? (fun t => t.2.issue.verdict = .parked && t.1.pipe = some .m) with
  | some x =>
    obtain ⟨hm, he, hp⟩ := find_tried_some hx
    exact ⟨x.1, hm, by rw [← he], he ▸ of_decide_eq_true (Bool.and_eq_true_iff.1 hp).1⟩
  | none =>
    obtain ⟨x, hx⟩ := find_tried_of_mem (p := fun t => t.2.issue.verdict = .parked) hm0 (decide_eq_true hv0)
    obtain ⟨hm, he, hp⟩ := find_tried_some hx
    exact ⟨x.1, hm, by simp only [hx, ← he], he ▸ of_decide_eq_true hp⟩

/-- With every word done they take effect one after another (R27). -/
theorem groupOutcome_done (h : ∀ m ∈ ms, (f m).issue.verdict = .done) :
    groupOutcome ex ms s (tried ms f) = runMembers ex (byPipe ms) s := by
  have hnf : ∀ m ∈ ms, isFault (f m) = false := fun m hm => by unfold isFault; rw [h m hm]
  have none : ∀ (v : Verdict) (q : Member → Bool), v ≠ .done →
      (tried ms f).find? (fun t => decide (t.2.issue.verdict = v) && q t.1) = none := fun v q hv =>
    find_tried_none fun m hm => by rw [h m hm]; simp [hv.symm]
  have hs := none .stalled (fun _ => true) (by simp)
  have hp := none .parked (fun m => m.pipe = some .m) (by simp)
  have hq := none .parked (fun _ => true) (by simp)
  simp only [Bool.and_true] at hs hq
  unfold groupOutcome
  simp only [faults_tried_nil hnf, hs, hp, hq]
end

/-- Settles O57: the outcome of the words of a group, case by case of the worst that one of them meets. -/
theorem issueGroups : Obligations.IssueGroups := by
  intro ms s f hl h
  rw [runGroup_tried hl h]
  refine ⟨fun hf => ?_, fun hnf hs => ?_, fun hnf hns hp => groupOutcome_parked hnf hns hp, groupOutcome_done⟩
  · obtain ⟨m, hm, hfm, hworst, hout⟩ := groupOutcome_faults (ex := exec) (s := s) hf
    obtain ⟨k, hk, hsome, hnone⟩ := keepKill_spec (f m) ((tried ms f).map (·.2))
    refine ⟨m, hm, hfm, hworst, k, by rw [hout, hk], hsome, fun hn => ?_⟩
    obtain ⟨h1, h2⟩ := hnone hn
    refine ⟨fun j hj => ⟨(h1 j hj).1, ?_⟩, fun he n hn' => h2 he _ (mem_tried_states.2 ⟨n, hn', rfl⟩)⟩
    obtain ⟨t, ht, hj⟩ := (h1 j hj).2
    obtain ⟨n, hn, rfl⟩ := mem_tried_states.1 ht
    exact ⟨n, hn, hj⟩
  · obtain ⟨m, hm, hv, hout⟩ := groupOutcome_stalled (ex := exec) (s := s) hnf hs
    obtain ⟨hkeep, honly, hall⟩ := keptHolds_spec ((tried ms f).map (·.2)) (f m).issue.cur.hold
    refine ⟨m, hm, hv, _, hout, hkeep, fun k hk hn => ?_, fun n hn => hall _ (mem_tried_states.2 ⟨n, hn, rfl⟩)⟩
    obtain ⟨hst, t, ht, hmem⟩ := honly k hk hn
    obtain ⟨n, hn, rfl⟩ := mem_tried_states.1 ht
    exact ⟨hst, n, hn, hmem⟩

end Sys2Proof.Machine
end

section
/-! PROOFS. The team barrier and the records of EMIT (R40, R251, R253). -/

namespace Sys2Proof.Machine

/-! ## BAR -/

/-- A team read after it is changed. -/
theorem team_modTeam_same {s : State} {t : Nat} (f : Team → Team) (h : (mget s.teams t).isSome) :
    team (modTeam s t f) t = f (team s t) := by
  obtain ⟨x, hx⟩ := Option.isSome_iff_exists.1 h
  unfold team modTeam
  simp only [hx, mget_mput_same, Option.getD_some]
theorem modTeam_isSome {s : State} {t : Nat} (f : Team → Team) (h : (mget s.teams t).isSome) :
    (mget (modTeam s t f).teams t).isSome := by
  obtain ⟨x, hx⟩ := Option.isSome_iff_exists.1 h
  unfold modTeam
  simp only [hx, mget_mput_same, Option.isSome_some]

/-- Only the scheduling state of groups differs: of those in the list, and of the one that issues (R29). -/
def WakesOnly (s t : State) : Prop :=
  t = { s with groups := t.groups, issue := { s.issue with cur := { s.issue.cur with
    status := t.issue.cur.status, readyAt := t.issue.cur.readyAt, passed := t.issue.cur.passed } } }

theorem team_congr {s t : State} (k : Nat) (h : t.teams = s.teams) : team t k = team s k := by
  unfold team; rw [h]
theorem WakesOnly.teams {s t : State} (h : WakesOnly s t) : t.teams = s.teams := by
  unfold WakesOnly at h; rw [h]
theorem WakesOnly.refl (s : State) : WakesOnly s s := rfl
theorem WakesOnly.trans {s t u : State} (h1 : WakesOnly s t) (h2 : WakesOnly t u) : WakesOnly s u := by
  unfold WakesOnly at *
  rw [h2, h1]
theorem modG_wakesOnly (s : State) (gid : Nat) (f : Group → Group)
    (h : ∀ g, f g = { g with status := (f g).status, readyAt := (f g).readyAt, passed := (f g).passed }) :
    WakesOnly s (modG s gid f) := by
  unfold WakesOnly modG
  dsimp only
  rw [modGrp_frame]
  split
  · unfold modCur; dsimp only; rw [← h]
  · rfl

/-- The group read after a group that exists is changed. -/
theorem grp_modG {s : State} {gid : Nat} {f : Group → Group} (h : (mget s.groups gid).isSome) :
    grp (modG s gid f) gid = f (grp s gid) := by
  obtain ⟨g, hg⟩ := Option.isSome_iff_exists.1 h
  unfold modG modGrp grp
  dsimp only
  simp only [hg]
  split <;> simp [setGrp, mget_mput_same]
theorem grp_modG_other {s : State} {gid k : Nat} {f : Group → Group} (h : gid ≠ k) : grp (modG s k f) gid = grp s gid := by
  unfold modG modGrp grp
  dsimp only
  cases mget s.groups k <;> dsimp only <;> split <;> simp [setGrp, mget_mput_other _ _ _ _ h]
/-- The issuing group's own copy changes with it. -/
theorem modG_cur {s : State} {gid : Nat} {f : Group → Group} (h : s.issue.gid = gid) :
    (modG s gid f).issue.cur = f s.issue.cur := by
  unfold modG
  dsimp only
  rw [modGrp_frame]
  simp only [h, if_true, modCur_issue]
theorem modG_cur_other {s : State} {gid : Nat} {f : Group → Group} (h : s.issue.gid ≠ gid) :
    (modG s gid f).issue = s.issue := by
  unfold modG
  dsimp only
  rw [modGrp_frame]
  simp only [h, if_false]

/-- A completed phase wakes a group that waits for it at BAR (R251). -/
def barWake (o : Word) (s : State) (gid : Nat) : State :=
  match (grp s gid).status with
  | .waiting (.bar q) => if phaseDone o q then modG s gid (makeReady s) else s
  | _ => s
theorem barWake_wakesOnly (o : Word) (s : State) (gid : Nat) : WakesOnly s (barWake o s gid) := by
  unfold barWake
  split
  · split
    · exact modG_wakesOnly _ _ _ fun g => rfl
    · exact .refl s
  · exact .refl s
theorem barWake_waiting {o q : Word} {s : State} {gid : Nat} (h : (grp s gid).status = .waiting (.bar q))
    (hd : phaseDone o q = true) : barWake o s gid = modG s gid (makeReady s) := by
  unfold barWake; rw [h]; simp only [hd, if_true]
theorem barWakes_wakesOnly (o : Word) (l : List Nat) (s : State) : WakesOnly s (l.foldl (barWake o) s) := by
  induction l generalizing s with
  | nil => exact .refl s
  | cons k t ih => exact (barWake_wakesOnly o s k).trans (ih _)
/-- Waking other groups leaves a group and the issue's copy of it as they are. -/
theorem barWake_other {o : Word} {s : State} {gid k : Nat} (hk : gid ≠ k) (hg : s.issue.gid = gid) :
    grp (barWake o s k) gid = grp s gid ∧ (barWake o s k).issue.cur = s.issue.cur := by
  unfold barWake
  split
  · split
    · exact ⟨grp_modG_other hk, by rw [modG_cur_other (by rw [hg]; exact hk)]⟩
    · exact ⟨rfl, rfl⟩
  · exact ⟨rfl, rfl⟩
theorem barWake_ready {o : Word} {s : State} {gid k : Nat} (hg : s.issue.gid = gid) (h : s.issue.cur.status = .ready) :
    (barWake o s k).issue.cur.status = .ready := by
  by_cases hk : gid = k
  · subst hk
    unfold barWake
    split
    · split
      · rw [modG_cur hg]; rfl
      · exact h
    · exact h
  · rw [(barWake_other hk hg).2, h]
/-- The issuing group, which waits for the completed phase, goes on (R251). -/
theorem barWakes_ready {o q : Word} {gid : Nat} (hd : phaseDone o q = true) (l : List Nat) (s : State) (hg : s.issue.gid = gid)
    (h : s.issue.cur.status = .ready ∨ (grp s gid).status = .waiting (.bar q) ∧ gid ∈ l) :
    (l.foldl (barWake o) s).issue.cur.status = .ready := by
  induction l generalizing s with
  | nil => exact h.elim id fun h => absurd h.2 (by simp)
  | cons k t ih =>
    have hg' : (barWake o s k).issue.gid = gid := by rw [barWake_wakesOnly o s k]; exact hg
    refine ih _ hg' ?_
    rcases h with h | ⟨hw, hmem⟩
    · exact .inl (barWake_ready hg h)
    · by_cases hk : gid = k
      · subst hk
        exact .inl (by rw [barWake_waiting hw hd, modG_cur hg]; rfl)
      · refine .inr ⟨by rw [(barWake_other hk hg).1, hw], ?_⟩
        exact (List.mem_cons.1 hmem).resolve_left hk

/-- A phase that is not complete stays open. -/
theorem barCheck_open {s : State} {t : Nat} (h : (team s t).bar.a ≠ (team s t).bar.rn) : barCheck s t = s := by
  unfold barCheck; simp only [h, decide_false, Bool.false_and, Bool.false_eq_true, if_false]
/-- The phase in which every registered group has arrived completes. -/
theorem barCheck_complete {s : State} {t : Nat} (h : (team s t).bar.a = (team s t).bar.rn) (h1 : 1 ≤ (team s t).bar.rn) :
    let u := modTeam s t fun y => { y with bar := { y.bar with o := (team s t).bar.o + 1, rn := (team s t).bar.rx, a := 0 } }
    barCheck s t = (teamGroups u t).foldl (barWake (team s t).bar.o) u := by
  unfold barCheck
  simp only [h, h1, decide_true, Bool.and_self, if_true]
  rfl

/-- The state of BAR before its phase is looked at: the group waits, and is counted (R251). -/
def barArrived (s : State) : State :=
  modTeam (modG (endsRun s) s.issue.gid fun c => { c with status := .waiting (.bar (team s s.issue.pre.team).bar.o) })
    s.issue.pre.team fun y => { y with bar := { y.bar with a := y.bar.a + 1 } }
theorem execBar_team {s : State}
    (hops : (s.ops.all fun o => o.2.gid != s.issue.gid || !o.2.holdsBar || o.2.parts = 0) = true)
    (hn : (team s s.issue.pre.team).node = none) : exec .bar s = .next (barCheck (barArrived s) s.issue.pre.team) := by
  have hfree : (s.ops.any fun o => o.2.gid = s.issue.gid && o.2.holdsBar && o.2.parts != 0) = false := by
    rw [List.any_eq_false]
    intro o ho
    have := List.all_eq_true.1 hops o ho
    simp only [Bool.or_eq_true, bne_iff_ne, ne_eq, Bool.not_eq_true', decide_eq_true_eq] at this
    simp only [Bool.and_eq_true, decide_eq_true_eq, bne_iff_ne, ne_eq, not_and, not_not]
    rintro ⟨h1, h2⟩
    simpa [h1, h2] using this
  show Host.Outcome.next _ = _
  simp only [ hfree, hn, Option.isSome_none, Bool.false_eq_true, if_false]
  rfl
/-- BAR arrives with nothing changed but its group's scheduling, the run's end and its team's counter. -/
theorem barArrived_spec (s : State) :
    ∃ gs ts, barArrived s = { s with groups := gs, teams := ts, issue := { s.issue with endRun := true, cur := { s.issue.cur with
      status := .waiting (.bar (team s s.issue.pre.team).bar.o) } } } := by
  unfold barArrived modG endsRun
  dsimp only
  rw [modTeam_frame, modGrp_frame]
  simp only [if_true]
  exact ⟨_, _, rfl⟩
theorem barArrived_team {s : State} (h : (mget s.teams s.issue.pre.team).isSome) :
    team (barArrived s) s.issue.pre.team = { team s s.issue.pre.team with
      bar := { (team s s.issue.pre.team).bar with a := (team s s.issue.pre.team).bar.a + 1 } } := by
  have hw := modG_wakesOnly (endsRun s) s.issue.gid
    (fun c => { c with status := .waiting (.bar (team s s.issue.pre.team).bar.o) }) fun _ => rfl
  unfold barArrived
  rw [team_modTeam_same _ (by rw [hw.teams]; exact h), team_congr _ hw.teams]
  rfl
theorem barArrived_isSome {s : State} (h : (mget s.teams s.issue.pre.team).isSome) :
    (mget (barArrived s).teams s.issue.pre.team).isSome := by
  unfold barArrived
  exact modTeam_isSome _ (by rw [(modG_wakesOnly _ _ _ fun _ => rfl).teams]; exact h)
theorem barArrived_grp {s : State} (h : (mget s.groups s.issue.gid).isSome) :
    (grp (barArrived s) s.issue.gid).status = .waiting (.bar (team s s.issue.pre.team).bar.o) := by
  unfold barArrived
  rw [modTeam_frame]
  rw [show ∀ (u : State) ts, grp { u with teams := ts } s.issue.gid = grp u s.issue.gid from fun _ _ => rfl]
  rw [grp_modG (by exact h)]

/-- A phase is complete once the next one is open. -/
theorem phaseDone_self (o : Word) : phaseDone o o = true := by
  unfold phaseDone; simp

theorem WakesOnly.regsKept {s t u : State} (h : WakesOnly t u) (hk : RegsKept s t) : RegsKept s u := by
  unfold WakesOnly at h
  rw [h]; exact hk
/-- BAR of a group that is not the last to arrive: it is counted and waits (R251). -/
theorem bar_waits {s : State} (ht : (mget s.teams s.issue.pre.team).isSome) :
    let x := team s s.issue.pre.team
    RegsKept s (barArrived s) ∧ (barArrived s).mem = s.mem ∧ (barArrived s).issue.endRun = true ∧
      (barArrived s).issue.cur.status = .waiting (.bar x.bar.o) ∧
      (team (barArrived s) s.issue.pre.team).bar = { x.bar with a := x.bar.a + 1 } := by
  obtain ⟨gs, ts, h⟩ := barArrived_spec s
  refine ⟨?_, ?_, ?_, ?_, by rw [barArrived_team ht]⟩ <;> rw [h]
  exact ⟨rfl, rfl, rfl, rfl, rfl, rfl, rfl, rfl, rfl, rfl, rfl, rfl, rfl⟩
/-- BAR of the last group: the phase completes and the group goes on (R251). -/
theorem bar_completes {s : State} (ht : (mget s.teams s.issue.pre.team).isSome)
    (hlast : (team s s.issue.pre.team).bar.a + 1 = (team s s.issue.pre.team).bar.rn)
    (hmem : s.issue.gid ∈ (team s s.issue.pre.team).groups) (hg : (mget s.groups s.issue.gid).isSome) :
    let x := team s s.issue.pre.team
    let t := barCheck (barArrived s) s.issue.pre.team
    RegsKept s t ∧ t.mem = s.mem ∧ t.issue.endRun = true ∧ t.issue.cur.status = .ready ∧
      (team t s.issue.pre.team).bar = { x.bar with o := x.bar.o + 1, rn := x.bar.rx, a := 0 } := by
  intro x t
  have hteam := barArrived_team ht
  obtain ⟨hkept, hmem', hend, -, -⟩ := bar_waits ht
  let u := modTeam (barArrived s) s.issue.pre.team fun y => { y with bar := { y.bar with o := x.bar.o + 1, rn := x.bar.rx, a := 0 } }
  have ht' : t = (teamGroups u s.issue.pre.team).foldl (barWake x.bar.o) u := by
    show barCheck _ _ = _
    rw [barCheck_complete (by rw [hteam]; exact hlast) (by rw [hteam]; show 1 ≤ (team s s.issue.pre.team).bar.rn; omega)]
    simp only [hteam]
    rfl
  have hu : u = { barArrived s with teams := u.teams } := modTeam_frame ..
  have hwake : WakesOnly u t := ht' ▸ barWakes_wakesOnly _ _ _
  have hteamu : team u s.issue.pre.team = _ := (team_modTeam_same _ (barArrived_isSome ht)).trans (by rw [hteam])
  refine ⟨hwake.regsKept (by rw [hu]; exact hkept), by rw [hwake, hu]; exact hmem', by rw [hwake, hu]; exact hend, ?_, ?_⟩
  · rw [ht']
    have hgid : u.issue.gid = s.issue.gid := by
      obtain ⟨gs, ts, h⟩ := barArrived_spec s
      rw [hu, h]
    refine barWakes_ready (phaseDone_self _) _ _ hgid (.inr ⟨?_, ?_⟩)
    · rw [show grp u s.issue.gid = grp (barArrived s) s.issue.gid by rw [hu]; rfl]
      exact barArrived_grp hg
    · unfold teamGroups; rw [hteamu]; exact hmem
  · rw [team_congr _ hwake.teams, hteamu]

/-! ## EMIT -/

/-- Records by die: die, grid, node, records (R253). -/
abbrev DieRecords := List (Nat × Nat × Nat × List (List Word))

/-- The records of the lanes done so far: one entry a die, of this grid and node, no longer than the lanes done, and each of those
lanes' record under its die. -/
def RecordsOf (gr node : Nat) (die : List Word → Nat) (done : List (List Word)) (rs : DieRecords) : Prop :=
  (rs.map (·.1)).Nodup ∧ (∀ e ∈ rs, e.2.1 = gr ∧ e.2.2.1 = node ∧ e.2.2.2.length ≤ done.length) ∧
  ∀ w ∈ done, ∃ e ∈ rs, e.1 = die w ∧ w ∈ e.2.2.2

theorem recordsOf_nil (gr node : Nat) (die : List Word → Nat) : RecordsOf gr node die [] [] :=
  ⟨List.nodup_nil, fun _ h => absurd h (by simp), fun _ h => absurd h (by simp)⟩

/-- How many records are queued for a die. -/
def queuedFor (rs : DieRecords) (t : Nat) : Nat := (rs.filter fun r => r.1 = t).foldl (fun n r => n + r.2.2.2.length) 0
theorem filter_key_of_nodup {α : Type} (rs : List (Nat × α)) (t : Nat) (h : (rs.map (·.1)).Nodup) :
    rs.filter (fun r => r.1 = t) = [] ∨ ∃ e ∈ rs, rs.filter (fun r => r.1 = t) = [e] := by
  induction rs with
  | nil => exact .inl rfl
  | cons r rs ih =>
    obtain ⟨hr, hrs⟩ := List.nodup_cons.1 h
    by_cases ht : r.1 = t
    · have hnil : rs.filter (fun r => r.1 = t) = [] := by
        rw [List.filter_eq_nil_iff]
        intro e he
        simp only [decide_eq_true_eq]
        rintro rfl
        exact hr (by rw [show (fun x : Nat × α => x.1) r = e.1 from ht]; exact List.mem_map_of_mem (f := (·.1)) he)
      exact .inr ⟨r, List.mem_cons_self .., by rw [List.filter_cons_of_pos (by simp [ht]), hnil]⟩
    · rw [List.filter_cons_of_neg (by simp [ht])]
      rcases ih hrs with h | ⟨e, he, h⟩
      · exact .inl h
      · exact .inr ⟨e, List.mem_cons_of_mem _ he, h⟩
theorem queuedFor_le {gr node : Nat} {die : List Word → Nat} {done : List (List Word)} {rs : DieRecords}
    (h : RecordsOf gr node die done rs) (t : Nat) : queuedFor rs t ≤ done.length := by
  obtain ⟨hnd, hlen, -⟩ := h
  unfold queuedFor
  rcases filter_key_of_nodup rs t hnd with h | ⟨e, he, h⟩
  · simp [h]
  · simpa [h] using (hlen e he).2.2

/-- A further record joins its die's. -/
theorem recordsOf_addRecord {gr node : Nat} {die : List Word → Nat} {done : List (List Word)} {rs : DieRecords} (w : List Word)
    (h : RecordsOf gr node die done rs) : RecordsOf gr node die (done ++ [w]) (addRecord rs (die w) gr node w) := by
  obtain ⟨hnd, hlen, hall⟩ := h
  have hlen' : ∀ e ∈ rs, e.2.1 = gr ∧ e.2.2.1 = node ∧ e.2.2.2.length ≤ (done ++ [w]).length := fun e he => by
    obtain ⟨h1, h2, h3⟩ := hlen e he
    exact ⟨h1, h2, by simp; omega⟩
  unfold addRecord
  split
  case isTrue hany =>
    let f (r : Nat × Nat × Nat × List (List Word)) := if r.1 = die w then (r.1, r.2.1, r.2.2.1, r.2.2.2 ++ [w]) else r
    have hkey : ∀ r, (f r).1 = r.1 := fun r => by simp only [f]; split <;> rfl
    have hmem : ∀ r x, x ∈ r.2.2.2 → x ∈ (f r).2.2.2 := fun r x hx => by
      simp only [f]; split
      · exact List.mem_append_left _ hx
      · exact hx
    refine ⟨?_, fun e he => ?_, fun x hx => ?_⟩
    · rw [List.map_map, show (fun x : Nat × Nat × Nat × List (List Word) => x.1) ∘ f = (·.1) from funext hkey]; exact hnd
    · obtain ⟨r, hr, rfl⟩ := List.mem_map.1 he
      obtain ⟨h1, h2, h3⟩ := hlen r hr
      split
      · exact ⟨h1, h2, by simp; omega⟩
      · exact hlen' r hr
    · rcases List.mem_append.1 hx with hx | hx
      · obtain ⟨e, he, hk, hm⟩ := hall x hx
        exact ⟨f e, List.mem_map_of_mem he, by rw [hkey, hk], hmem e x hm⟩
      · obtain rfl := List.mem_singleton.1 hx
        obtain ⟨r, hr, hk⟩ := List.any_eq_true.1 hany
        have hk := of_decide_eq_true hk
        exact ⟨f r, List.mem_map_of_mem hr, by rw [hkey, hk], by simp [f, hk]⟩
  case isFalse hany =>
    have hfresh : ∀ r ∈ rs, r.1 ≠ die w := fun r hr hk => hany (List.any_eq_true.2 ⟨r, hr, decide_eq_true hk⟩)
    refine ⟨?_, fun e he => ?_, fun x hx => ?_⟩
    · rw [List.map_append, List.nodup_append]
      refine ⟨hnd, List.nodup_singleton _, ?_⟩
      rintro a ha b hb rfl
      obtain ⟨r, hr, rfl⟩ := List.mem_map.1 ha
      exact hfresh r hr (by simpa using hb)
    · rcases List.mem_append.1 he with he | he
      · exact hlen' e he
      · obtain rfl := List.mem_singleton.1 he
        exact ⟨rfl, rfl, by simp⟩
    · rcases List.mem_append.1 hx with hx | hx
      · obtain ⟨e, he, h⟩ := hall x hx
        exact ⟨e, List.mem_append_left _ he, h⟩
      · obtain rfl := List.mem_singleton.1 hx
        exact ⟨_, List.mem_append_right _ (List.mem_singleton.2 rfl), rfl, by simp⟩

/-- One lane's record: queued where its die has room, and otherwise left for a later attempt (R253). -/
def emitLane (load : Nat → Nat) (gr node : Nat) (die : List Word → Nat) (w : Nat → List Word) (x : DieRecords × List Nat) (l : Nat) :
    DieRecords × List Nat :=
  if load (die (w l)) + queuedFor x.1 (die (w l)) < Config.gatherRecords then (addRecord x.1 (die (w l)) gr node (w l), x.2)
  else (x.1, x.2 ++ [l])
/-- Where every die has room for a whole group, no lane is left. -/
theorem emitLanes_all {load : Nat → Nat} {gr node : Nat} {die : List Word → Nat} {w : Nat → List Word} (lanes : List Nat)
    (done : List (List Word)) (rs : DieRecords) (h : RecordsOf gr node die done rs) (hlen : done.length + lanes.length ≤ 32)
    (hload : ∀ d, load d + 32 ≤ Config.gatherRecords) :
    ∃ out, lanes.foldl (emitLane load gr node die w) (rs, []) = (out, []) ∧ RecordsOf gr node die (done ++ lanes.map w) out := by
  induction lanes generalizing done rs with
  | nil => exact ⟨rs, rfl, by simpa using h⟩
  | cons l t ih =>
    have hstep : emitLane load gr node die w (rs, []) l = (addRecord rs (die (w l)) gr node (w l), []) := by
      have h1 := queuedFor_le h (die (w l))
      have h2 := hload (die (w l))
      simp only [List.length_cons] at hlen
      unfold emitLane
      rw [if_pos (by dsimp only; omega)]
    obtain ⟨out, hout, hrec⟩ := ih (done ++ [w l]) _ (recordsOf_addRecord (w l) h) (by simp at hlen ⊢; omega)
    refine ⟨out, by rw [List.foldl_cons, hstep, hout], ?_⟩
    simpa using hrec

/-- What sending leaves: one message more, and a new number. -/
theorem send_frame (s : State) (c : Nat) (gid : Option Nat) (home : Home) (body : Body) :
    ∃ m, m.id = s.nextId ∧ m.home = home ∧ m.body = body ∧ m.gid = gid ∧
      send s c gid home body = { s with nextId := s.nextId + 1, net := s.net ++ [m] } :=
  ⟨_, rfl, rfl, rfl, rfl, rfl⟩
/-- Messages sent one after another: each stands in the network, nothing else but the numbers has changed. -/
theorem sends_frame {α : Type} (c : State → Nat) (gid : Option Nat) (home : α → Home) (body : α → Body) (l : List α) (s : State) :
    let t := l.foldl (fun s x => send s (c s) gid (home x) (body x)) s
    (∃ n net, t = { s with nextId := n, net := net }) ∧ (∀ m ∈ s.net, m ∈ t.net) ∧
      ∀ x ∈ l, ∃ m ∈ t.net, m.home = home x ∧ m.body = body x := by
  induction l generalizing s with
  | nil => exact ⟨⟨_, _, rfl⟩, fun _ h => h, fun _ h => absurd h (by simp)⟩
  | cons a t ih =>
    obtain ⟨m, -, hh, hb, -, hs⟩ := send_frame s (c s) gid (home a) (body a)
    obtain ⟨⟨n, net, hf⟩, hold, hnew⟩ := ih (send s (c s) gid (home a) (body a))
    rw [List.foldl_cons]
    refine ⟨⟨n, net, by rw [hf, hs]⟩, fun x hx => hold x (by rw [hs]; exact List.mem_append_left _ hx), fun x hx => ?_⟩
    rcases List.mem_cons.1 hx with rfl | hx
    · exact ⟨m, hold m (by rw [hs]; exact List.mem_append_right _ (List.mem_singleton.2 rfl)), hh, hb⟩
    · exact hnew x hx

/-- A port that waits for nothing sends at once (R249, R253). -/
theorem portHold_records {s : State} {gid : Nat} {recs : DieRecords} (hb : homeBound s gid = []) (hc : closedStores s gid = []) :
    portHold s { gid := gid, records := recs } =
      recs.foldl (fun s r => send s (grp s gid).core none (.die r.1) (.record r.2.1 r.2.2.1 r.2.2.2)) s := by
  unfold portHold
  simp only [hb, hc, portReady, List.all_nil, Bool.and_self, if_true]
  rfl

/-- EMIT of a node that is declared, with the records and the lanes left (R253). -/
theorem execEmit_declared {s : State} {r : Fin 48} {k : Fin 64} {n : NodeDecl} {out : DieRecords} :
    let g := s.issue.pre
    let gr := gidOf s g
    let regs := (List.range (n.bytes / 4)).map fun i => g.ixb + r.val + i
    let words (l : Nat) : List Word := regs.map fun i => vget g i l
    mget (grid s gr).nodes k.val = some n → RegsOk s (top regs) [] → badRegs s (activeLanes g) regs = false → g.uEmit = none →
      (activeLanes g).foldl (emitLane (fun d => gatherLoad s d gr k.val) gr k.val (recordDie s g n) words) ([], []) = (out, []) →
      exec (.emit r k) s = .next (modCur (if out.isEmpty then s else portHold s { gid := s.issue.gid, records := out })
        fun c => { c with uEmit := none }) := by
  intro g gr regs words hn hr hb hu hf
  have hu : s.issue.pre.uEmit = none := hu
  have hn : mget (grid s (gidOf s s.issue.pre)).nodes k.val = some n := hn
  have hb : badRegs s (activeLanes s.issue.pre) ((List.range (n.bytes / 4)).map fun i => s.issue.pre.ixb + r.val + i) = false := hb
  show execEmit r k s = _
  unfold execEmit
  simp only [hn, hu, List.filter_true]
  rw [withRegs_ok hr]
  simp only [hb, Bool.false_eq_true, if_false]
  generalize hx : List.foldl _ ([], []) (activeLanes s.issue.pre) = x
  obtain rfl : x = (out, []) := hx.symm.trans hf
  rfl

/-- Settles O33: BAR by whether its group is the last to arrive, EMIT by the fold over its lanes. -/
theorem barrierAndRecords : Obligations.BarrierAndRecords := by
  intro s r k n g gid x gr words regs
  refine ⟨fun hops ht hnode => ⟨fun hne => ?_, fun hlast hmem hg => ?_⟩, fun hn hr hb hu hbound hclosed hload => ?_⟩
  · refine ⟨_, execBar_team hops hnode, ?_⟩
    rw [barCheck_open (by rw [barArrived_team ht]; exact hne)]
    exact bar_waits ht
  · exact ⟨_, execBar_team hops hnode, bar_completes ht hlast hmem hg⟩
  · have hwords : words = fun l => regs.map fun i => vget g i l := by
      funext l; simp only [words, regs, List.map_map]; rfl
    obtain ⟨out, hfold, -, hshape, hall⟩ := emitLanes_all (w := words) (die := recordDie s g n) (activeLanes g) [] []
      (recordsOf_nil gr k.val _) (by
        have := List.length_filter_le (isActive g) allLanes
        simpa [activeLanes, allLanes] using this) hload
    rw [hwords] at hfold
    refine ⟨_, execEmit_declared hn hr hb hu hfold, ?_⟩
    obtain ⟨⟨i, net, hframe⟩, -, hsent⟩ := sends_frame (fun s => (grp s gid).core) none (fun r => .die r.1)
      (fun r => .record r.2.1 r.2.2.1 r.2.2.2) out s
    have hstate : (if out.isEmpty then s else portHold s { gid := gid, records := out }) =
        out.foldl (fun s r => send s (grp s gid).core none (.die r.1) (.record r.2.1 r.2.2.1 r.2.2.2)) s := by
      cases out with
      | nil => rfl
      | cons a t => exact portHold_records hbound hclosed
    rw [hstate]
    refine ⟨?_, by rw [hframe]; rfl, fun l hl => ?_⟩
    · rw [hframe]
      exact ⟨rfl, rfl, rfl, rfl, rfl, rfl, rfl, rfl, rfl, rfl, rfl, rfl, rfl⟩
    · obtain ⟨e, he, hdie, hw⟩ := hall (words l) (by simpa using ⟨l, hl, rfl⟩)
      obtain ⟨m, hm, hhome, hbody⟩ := hsent e he
      obtain ⟨h1, h2, -⟩ := hshape e he
      exact ⟨m, hm, e.2.2.2, by rw [hhome, hdie], by rw [hbody, h1, h2], hw⟩

end Sys2Proof.Machine
end

section
/-! PROOFS. Maps as lists: membership and reading (R13). -/

namespace Sys2Proof.Machine

theorem lt_of_mem_rising {α : Type} {lo : Nat} {m : Map α} (h : rising (some lo) m = true) : ∀ e ∈ m, lo < e.1 := by
  induction m generalizing lo with
  | nil => intro e he; exact absurd he (by simp)
  | cons a t ih =>
    obtain ⟨j, y⟩ := a
    simp only [rising, Bool.and_eq_true, decide_eq_true_eq] at h
    intro e he
    rcases List.mem_cons.1 he with rfl | he
    · exact h.1
    · exact Nat.lt_trans h.1 (ih h.2 e he)
/-- In a map whose keys rise an entry is what reading its key gives. -/
theorem mget_of_mem {α : Type} {m : Map α} {e : Nat × α} (h : rising none m = true) (he : e ∈ m) : mget m e.1 = some e.2 := by
  induction m with
  | nil => exact absurd he (by simp)
  | cons a t ih =>
    obtain ⟨j, y⟩ := a
    have ht : rising (some j) t = true := h
    rw [mget]
    rcases List.mem_cons.1 he with rfl | he
    · simp
    · have := lt_of_mem_rising ht e he
      rw [if_neg (by omega), if_neg (by omega), ih (rising_none ht) he]
/-- What reading a key gives stands in the map. -/
theorem mem_of_mget {α : Type} {m : Map α} {k : Nat} {x : α} (h : mget m k = some x) : (k, x) ∈ m := by
  induction m with
  | nil => exact absurd h (by simp [mget])
  | cons a t ih =>
    obtain ⟨j, y⟩ := a
    rw [mget] at h
    split at h
    · subst_vars; cases h; exact List.mem_cons_self ..
    · split at h
      · exact absurd h (by simp)
      · exact List.mem_cons_of_mem _ (ih h)
theorem grp_of_mget {s : State} {gid : Nat} {g : Group} (h : mget s.groups gid = some g) : grp s gid = g := by
  unfold grp; rw [h]; rfl
theorem rising_setGrp {s : State} (gid : Nat) (g : Group) (h : rising none s.groups = true) :
    rising none (setGrp s gid g).groups = true :=
  rising_mput _ _ _ _ (by simp) h

end Sys2Proof.Machine
end

section
/-! PROOFS. The end of a run, and the end of a group and its team (R28, R29, R32, R96, R180, R187, R247). -/

namespace Sys2Proof.Machine

/-! ## Selection (R29) -/

/-- A group that has been passed over. -/
def passOver (s : State) (g : Nat × Group) : State := setGrp s g.1 { g.2 with passed := g.2.passed + 1 }
/-- Passing groups over changes how often they were passed over, and nothing else. -/
theorem passOver_fold {s0 : State} (l : List (Nat × Group)) (hl : ∀ e ∈ l, mget s0.groups e.1 = some e.2) (s : State)
    (hs : ∀ k, ∃ p, grp s k = { grp s0 k with passed := p }) :
    let t := l.foldl passOver s
    (∃ gs, t = { s with groups := gs }) ∧ ∀ k, ∃ p, grp t k = { grp s0 k with passed := p } := by
  induction l generalizing s with
  | nil => exact ⟨⟨_, rfl⟩, hs⟩
  | cons e l ih =>
    obtain ⟨⟨gs, hf⟩, ht⟩ := ih (fun x hx => hl x (List.mem_cons_of_mem _ hx)) (passOver s e) fun k => by
      unfold passOver
      rw [grp_setGrp]
      split
      case isTrue h => subst h; rw [grp_of_mget (hl e (List.mem_cons_self ..))]; exact ⟨_, rfl⟩
      case isFalse => exact hs k
    exact ⟨⟨gs, hf⟩, ht⟩

/-- The groups that a run's end passes over have been (R29). -/
def passedOver (s : State) (c i : Nat) (atEnd : Bool) : State :=
  if atEnd then ((readyGroups s c i).filter fun g => some g.1 != selectNext s c i).foldl passOver s else s
/-- The selected group begins a run (R28). -/
def runStarted (s : State) (h : Option Nat) : State :=
  match h with
  | some gid => modGrp s gid fun g => { g with passed := 0, runPkts := 0, stalled := false, y := {} }
  | none => s
theorem selectAt_selects {s : State} {c : Nat} (i : Nat) (atEnd : Bool) (h : (core s c).preempt.isSome = false) :
    selectAt s c i atEnd = modSlot (runStarted (passedOver s c i atEnd) (selectNext s c i)) c i
      fun x => { x with holder := selectNext s c i } := by
  unfold selectAt; rw [h]; rfl
theorem passedOver_spec {s : State} (c i : Nat) (atEnd : Bool) (hr : rising none s.groups = true) :
    (∃ gs, passedOver s c i atEnd = { s with groups := gs }) ∧
      ∀ k, ∃ p, grp (passedOver s c i atEnd) k = { grp s k with passed := p } := by
  unfold passedOver
  split
  · exact passOver_fold _ (fun e he => mget_of_mem hr (List.mem_filter.1 (List.mem_filter.1 he).1).1) s fun k => ⟨_, rfl⟩
  · exact ⟨⟨_, rfl⟩, fun k => ⟨_, rfl⟩⟩
theorem runStarted_spec (s : State) (h : Option Nat) :
    (∃ gs, runStarted s h = { s with groups := gs }) ∧ ∀ k, grp (runStarted s h) k = grp s k ∨
      grp (runStarted s h) k = { grp s k with passed := 0, runPkts := 0, stalled := false, y := {} } := by
  unfold runStarted
  cases h with
  | none => exact ⟨⟨_, rfl⟩, fun k => .inl rfl⟩
  | some gid =>
    refine ⟨⟨_, modGrp_frame ..⟩, fun k => ?_⟩
    dsimp only
    unfold modGrp
    cases hm : mget s.groups gid with
    | none => exact .inl rfl
    | some g =>
      dsimp only
      rw [grp_setGrp]
      split
      case isTrue h => subst h; exact .inr (by rw [grp_of_mget hm])
      case isFalse => exact .inl rfl
/-- A slot read after one is changed. -/
theorem slotOf_modSlot (s : State) (c i : Nat) (f : Slot → Slot) :
    slotOf (core (modSlot s c i f) c) i = f (slotOf (core s c) i) := by
  unfold modSlot
  rw [core_modCore, if_pos rfl]
  simp [slotOf, mget_mput_same]

/-- A slot's selection leaves each group as it is but for its passes, and starts a run of the one that it selects (R29). -/
theorem selectAt_spec (s : State) (c i : Nat) (atEnd : Bool) (hr : rising none s.groups = true) :
    let t := selectAt s c i atEnd
    (∃ gs cs, t = { s with groups := gs, cores := cs }) ∧ (slotOf (core t c) i).coll = (slotOf (core s c) i).coll ∧
      ∀ k, ∃ p, grp t k = { grp s k with passed := p } ∨
        grp t k = { grp s k with passed := p, runPkts := 0, stalled := false, y := {} } := by
  intro t
  cases hp : (core s c).preempt.isSome with
  | true =>
    have ht : t = modSlot s c i fun x => { x with holder := none } := by
      show selectAt s c i atEnd = _
      unfold selectAt; rw [hp]; rfl
    exact ⟨⟨_, _, ht⟩, by rw [ht, slotOf_modSlot], fun k => ⟨_, .inl (by rw [ht]; rfl)⟩⟩
  | false =>
    have ht := selectAt_selects i atEnd hp
    obtain ⟨⟨gs, hf⟩, hpass⟩ := passedOver_spec c i atEnd hr
    obtain ⟨⟨gs', hf'⟩, hstart⟩ := runStarted_spec (passedOver s c i atEnd) (selectNext s c i)
    have hframe : runStarted (passedOver s c i atEnd) (selectNext s c i) = { s with groups := gs' } := hf'.trans (by rw [hf])
    refine ⟨⟨_, _, by rw [show t = _ from ht, hframe]; rfl⟩, ?_, fun k => ?_⟩
    · rw [show t = _ from ht, slotOf_modSlot, hframe]; rfl
    · obtain ⟨p, hk⟩ := hpass k
      rw [show t = _ from ht]
      rcases hstart k with h | h
      · exact ⟨p, .inl (h.trans hk)⟩
      · exact ⟨0, .inr (h.trans (by rw [hk]))⟩

/-! ## The end of a run (R28, R32) -/

/-- The end of a group's run: its latches, its count of packets and its stall are gone, its slot's collector is empty, and nothing
else of it changes but how often it was passed over. -/
theorem endRunOf_spec (s : State) (gid : Nat) (hr : rising none s.groups = true) :
    let t := endRunOf s gid
    let g := grp s gid
    (∃ gs cs, t = { s with groups := gs, cores := cs }) ∧ (slotOf (core t g.core) g.slot).coll = none ∧
      ∃ p, grp t gid = { g with y := {}, runPkts := 0, stalled := false, passed := p } := by
  intro t g
  let u := modSlot (setGrp s gid { g with y := {}, runPkts := 0, stalled := false }) g.core g.slot fun x => { x with coll := none }
  have hru : rising none u.groups = true := rising_setGrp gid _ hr
  obtain ⟨⟨gs, cs, hf⟩, hcoll, hgrp⟩ := selectAt_spec u g.core g.slot true hru
  have ht : t = selectAt u g.core g.slot true := rfl
  have hgu : grp u gid = { g with y := {}, runPkts := 0, stalled := false } :=
    (grp_setGrp s gid gid _).trans (if_pos rfl)
  refine ⟨⟨gs, cs, by rw [ht, hf]; rfl⟩, ?_, ?_⟩
  · rw [ht, hcoll]
    simp only [u, modSlot]
    rw [core_modCore, if_pos rfl]
    simp [slotOf, mget_mput_same]
  · obtain ⟨p, h | h⟩ := hgrp gid
    · exact ⟨p, by rw [ht, h, hgu]⟩
    · exact ⟨p, by rw [ht, h, hgu]⟩

/-- A stall of more than 16 cycles ends the run (R28, R210). -/
theorem stallRunEnd_spec {s : State} {gid : Nat} {g : Group} (hr : rising none s.groups = true) (hg : mget s.groups gid = some g)
    (hst : g.stalled = true) (hh : (slotOf (core s g.core) g.slot).holder = some gid) :
    Gives (.stallRunEnd gid) s fun s t => (∃ gs cs, t = { s with groups := gs, cores := cs }) ∧
      (slotOf (core t g.core) g.slot).coll = none ∧ ∃ p, grp t gid = { g with
        status := if g.walksOut.isEmpty then g.status else .waiting .walks, y := {}, runPkts := 0, stalled := false, passed := p } := by
  let u := setGrp s gid { g with status := if g.walksOut.isEmpty then g.status else .waiting .walks }
  have hgu : grp u gid = { g with status := if g.walksOut.isEmpty then g.status else .waiting .walks } :=
    (grp_setGrp s gid gid _).trans (if_pos rfl)
  refine ⟨endRunOf u gid, ?_, ?_⟩
  · show execStallRunEnd gid s = _
    unfold execStallRunEnd
    dsimp only
    rw [grp_of_mget hg, if_pos (by simp [hst, hh])]
  · obtain ⟨⟨gs, cs, hf⟩, hcoll, p, hp⟩ := endRunOf_spec u gid (rising_setGrp gid _ hr)
    rw [hgu] at hcoll hp
    exact ⟨⟨gs, cs, by rw [hf]; rfl⟩, hcoll, p, hp⟩

/-! ## The end of a group (R96, R180, R187, R247) -/

/-- Teams differ in their phasers alone. -/
def BarsOnly (s t : State) : Prop := (∃ ts, t = { s with teams := ts }) ∧ ∀ k, (mget s.teams k).isSome = (mget t.teams k).isSome ∧
  ∃ b, team t k = { team s k with bar := b }
theorem modTeam_barsOnly (s : State) (t : Nat) (f : Team → PhNode) : BarsOnly s (modTeam s t fun y => { y with bar := f y }) := by
  refine ⟨⟨_, modTeam_frame ..⟩, fun k => ?_⟩
  unfold modTeam
  cases hm : mget s.teams t with
  | none => exact ⟨rfl, _, rfl⟩
  | some x =>
    unfold team
    dsimp only
    rw [mget_mput]
    split
    case isTrue h => subst h; rw [hm]; exact ⟨rfl, _, rfl⟩
    case isFalse => exact ⟨rfl, _, rfl⟩
/-- Looking at a phase changes team phasers, and the scheduling state of groups. -/
theorem barCheck_spec (s : State) (t : Nat) : ∃ u, BarsOnly s u ∧ WakesOnly u (barCheck s t) := by
  by_cases h : (team s t).bar.a = (team s t).bar.rn ∧ 1 ≤ (team s t).bar.rn
  · exact ⟨_, modTeam_barsOnly .., barCheck_complete h.1 h.2 ▸ barWakes_wakesOnly _ _ _⟩
  · have : barCheck s t = s := by
      unfold barCheck
      rw [if_neg (by simpa using fun h1 h2 => h ⟨h1, h2⟩)]
    exact ⟨s, ⟨⟨_, rfl⟩, fun k => ⟨rfl, _, rfl⟩⟩, by rw [this]; exact .refl s⟩
/-- A group that leaves its team's phaser changes nothing else of a team (R240, R247). -/
theorem barLeave_spec (s : State) (t : Nat) :
    (barLeave s t).mem = s.mem ∧ ∀ k, (mget s.teams k).isSome = (mget (barLeave s t).teams k).isSome ∧
      ∃ b, team (barLeave s t) k = { team s k with bar := b } := by
  obtain ⟨⟨ts, hf1⟩, hb1⟩ := modTeam_barsOnly s t fun y => { y.bar with a := y.bar.a + 1, rx := y.bar.rx - 1 }
  obtain ⟨u, ⟨⟨ts', hf2⟩, hb2⟩, hw⟩ := barCheck_spec (modTeam s t fun y => { y with bar := { y.bar with a := y.bar.a + 1, rx := y.bar.rx - 1 } }) t
  have hbar : barLeave s t = barCheck (modTeam s t fun y => { y with bar := { y.bar with a := y.bar.a + 1, rx := y.bar.rx - 1 } }) t := rfl
  refine ⟨by rw [hbar, hw, hf2, hf1], fun k => ?_⟩
  obtain ⟨h1, b1, h1'⟩ := hb1 k
  obtain ⟨h2, b2, h2'⟩ := hb2 k
  rw [hbar]
  exact ⟨by rw [hw.teams, h1, h2], b2, by rw [team_congr k hw.teams, h2', h1']⟩

/-- A record is handed to a partition; a grid may wait for it (R344). -/
theorem pushRecord_frame (s : State) (p : Nat) (e : Bool) (r : BitVec 512) (w : Option Nat) :
    ∃ gs ps, pushRecord s p e r w = { s with grids := gs, parts := ps } := by
  unfold pushRecord
  cases w with
  | none => exact ⟨_, _, rfl⟩
  | some g => dsimp only; rw [modGrid_frame]; exact ⟨_, _, rfl⟩
theorem pushRecords_frame {α : Type} (p : State → Nat) (e : Bool) (r : State → α → BitVec 512) (w : Option Nat) (l : List α)
    (s : State) : ∃ gs ps, l.foldl (fun s x => pushRecord s (p s) e (r s x) w) s = { s with grids := gs, parts := ps } := by
  induction l generalizing s with
  | nil => exact ⟨_, _, rfl⟩
  | cons x l ih =>
    obtain ⟨gs, ps, h⟩ := pushRecord_frame s (p s) e (r s x) w
    obtain ⟨gs', ps', h'⟩ := ih (pushRecord s (p s) e (r s x) w)
    exact ⟨gs', ps', by rw [List.foldl_cons, h', h]⟩
/-- The end of a team changes teams, grids and logs (R37, R354). -/
theorem endTeam_frame (s : State) (t : Nat) : ∃ ts gs ps, endTeam s t = { s with teams := ts, grids := gs, parts := ps } := by
  unfold endTeam
  dsimp only
  split
  · exact ⟨_, _, _, rfl⟩
  rw [modTeam_frame]
  split
  · exact ⟨_, _, _, rfl⟩
  split
  · exact ⟨_, _, _, rfl⟩
  unfold killRecords
  rw [modGrid_frame]
  dsimp only
  split
  · exact ⟨_, _, _, rfl⟩
  · rw [modGrid_frame]
    generalize hf : List.foldl _ _ _ = u
    obtain ⟨gs, ps, h⟩ := pushRecords_frame _ true (fun s k => asClass3 k s.time) _ _ _
    rw [← hf, h]
    exact ⟨_, _, _, rfl⟩
/-- The end of a node group's team: it is gone (R42). -/
theorem endTeam_node {s : State} {t : Nat} (h : (team s t).node.isSome) : mget (endTeam s t).teams t = none := by
  unfold endTeam
  dsimp only
  rw [if_pos h]
  exact mget_mdel_same ..

/-- The state of a group's end before its team is looked at: its operations, its place in the phaser, its entry and its team's name
for it are gone. -/
def groupGone (s : State) (gid : Nat) (g : Group) : State :=
  let s := { s with ops := s.ops.filter fun o => o.2.gid != gid }
  let s := if (team s g.team).node.isNone then barLeave s g.team else s
  modTeam { s with groups := mdel s.groups gid } g.team fun t => { t with groups := t.groups.filter (· != gid) }
theorem execGroupEnd_ends {s : State} {gid : Nat} {g : Group} (hg : mget s.groups gid = some g) (hst : g.status = .waiting .drain)
    (hops : ∀ o ∈ s.ops, o.2.gid = gid → stoppedGroup s g = true ∧ o.2.parts = 0) (hports : ∀ p ∈ s.ports, p.2.gid ≠ gid)
    (hh : g.h = []) (hleft : leftError g = none) :
    exec (.groupEnd gid) s = .next (if (team (groupGone s gid g) g.team).groups.isEmpty then endTeam (groupGone s gid g) g.team
      else groupGone s gid g) := by
  have hidle : (s.ops.all fun o => o.2.gid != gid || (stoppedGroup s g && o.2.parts = 0)) = true := by
    rw [List.all_eq_true]
    intro o ho
    by_cases h : o.2.gid = gid
    · obtain ⟨h1, h2⟩ := hops o ho h
      simp [h1, h2]
    · simp [h]
  have hport : (s.ports.any fun p => p.2.gid = gid) = false := by
    rw [List.any_eq_false]
    exact fun p hp => by simpa using hports p hp
  show execGroupEnd gid s = _
  unfold execGroupEnd
  simp only [hg, hst, hidle, hport, hh, hleft, List.any_nil, List.foldl_nil, bne_self_eq_false, Bool.not_true, Bool.or_self,
    Bool.false_eq_true, if_false]
  rfl
theorem groupGone_spec {s : State} {gid : Nat} {g : Group} (ht : (mget s.teams g.team).isSome) :
    let t := groupGone s gid g
    mget t.groups gid = none ∧ t.mem = s.mem ∧ ∃ b, team t g.team = { team s g.team with
      bar := b, groups := (team s g.team).groups.filter (· != gid) } := by
  let s1 : State := { s with ops := s.ops.filter fun o => o.2.gid != gid }
  let s2 := if (team s1 g.team).node.isNone then barLeave s1 g.team else s1
  have hs2 : s2.mem = s.mem ∧ (mget s2.teams g.team).isSome ∧ ∃ b, team s2 g.team = { team s g.team with bar := b } := by
    simp only [s2]
    split
    · obtain ⟨hm, hk⟩ := barLeave_spec s1 g.team
      obtain ⟨h1, b, h2⟩ := hk g.team
      exact ⟨hm, h1 ▸ ht, b, h2⟩
    · exact ⟨rfl, ht, _, rfl⟩
  obtain ⟨hmem, hsome, b, hteam⟩ := hs2
  have hgone : groupGone s gid g =
      modTeam { s2 with groups := mdel s2.groups gid } g.team fun t => { t with groups := t.groups.filter (· != gid) } := rfl
  refine ⟨?_, ?_, b, ?_⟩
  · rw [hgone, modTeam_frame]; exact mget_mdel_same ..
  · rw [hgone, modTeam_frame]; exact hmem
  · rw [hgone, team_modTeam_same _ (by exact hsome)]
    rw [show team { s2 with groups := mdel s2.groups gid } g.team = team s2 g.team from rfl, hteam]

/-- Settles O40. -/
theorem runAndGroupEnds : Obligations.RunAndGroupEnds := by
  intro s gid g hr hg
  refine ⟨fun hst hh => ?_, fun hst hops hports hh hleft ht => ?_⟩
  · obtain ⟨t, hexec, ⟨gs, cs, hf⟩, hcoll, p, hgrp⟩ := stallRunEnd_spec hr hg hst hh
    refine ⟨t, hexec, by rw [hgrp], by rw [hgrp], by rw [hgrp], by rw [hgrp], by rw [hgrp], by rw [hgrp], hcoll, by rw [hf],
      fun hw => ?_⟩
    rw [hgrp]
    exact if_neg (by simpa using hw)
  · refine ⟨_, execGroupEnd_ends hg hst hops hports hh hleft, ?_⟩
    obtain ⟨hgone, hmem, b, hteam⟩ := groupGone_spec (gid := gid) ht
    obtain ⟨ts, gs, ps, hend⟩ := endTeam_frame (groupGone s gid g) g.team
    refine ⟨?_, ?_, fun hk => ?_, fun hlast hnode => ?_⟩
    · split
      · rw [hend]; exact hgone
      · exact hgone
    · split
      · rw [hend]; exact hmem
      · exact hmem
    · obtain ⟨k, hk, hne⟩ := hk
      rw [if_neg, hteam]
      rw [hteam]
      simp only [List.isEmpty_iff, List.filter_eq_nil_iff, bne_iff_ne, not_forall]
      exact ⟨k, hk, by simpa using hne⟩
    · rw [if_pos (by rw [hteam, hlast]; simp)]
      exact endTeam_node (by rw [hteam]; exact hnode)

end Sys2Proof.Machine
end

section
/-! PROOFS. Records (R344), stopped groups and aborted grids (R96, R340, R343, R357). -/

namespace Sys2Proof.Machine

/-! ## Records (R344) -/

/-- The fields of a record whose parts fit them. -/
theorem recField_logRecord {code cls ctx time gr tm loc epc addr aux : Nat} (hcode : code < 2 ^ 8) (hcls : cls < 2 ^ 8)
    (hctx : ctx < 2 ^ 32) (htime : time < 2 ^ 64) (hgr : gr < 2 ^ 32) (htm : tm < 2 ^ 32) (hloc : loc < 2 ^ 32) (hepc : epc < 2 ^ 64)
    (haddr : addr < 2 ^ 64) (haux : aux < 2 ^ 64) :
    let r := logRecord code cls ctx time gr tm loc epc addr aux
    recField r 0 4 = code + cls * 2 ^ 8 ∧ recField r 4 4 = ctx ∧ recField r 8 8 = time ∧ recField r 0x10 4 = gr ∧
    recField r 0x14 4 = tm ∧ recField r 0x18 4 = loc ∧ recField r 0x1C 4 = 0 ∧ recField r 0x20 8 = epc ∧ recField r 0x28 8 = addr ∧
    recField r 0x30 8 = aux ∧ recField r 0x38 8 = 0 := by
  unfold recField logRecord
  simp only [BitVec.toNat_ofNat]
  refine ⟨?_, ?_, ?_, ?_, ?_, ?_, ?_, ?_, ?_, ?_, ?_⟩ <;> omega

theorem teamAny_of_mget {s : State} {t : Nat} {x : Team} (h : mget s.teams t = some x) : teamAny s t = x := by
  unfold teamAny; rw [h]; rfl
theorem team_of_mget {s : State} {t : Nat} {x : Team} (h : mget s.teams t = some x) : team s t = x := by
  unfold team; rw [h]; rfl
theorem grid_of_mget {s : State} {k : Nat} {x : Grid} (h : mget s.grids k = some x) : grid s k = x := by
  unfold grid; rw [h]; rfl
/-- The number that EPC holds of a position that fits it (R110). -/
theorem posWord_toNat {p : Pos} (hp : p.pkt < 2 ^ 61) (hw : p.word < 4) : (posWord p).toNat = p.pkt * 4 + p.word := by
  unfold posWord; rw [BitVec.toNat_ofNat]; omega
/-- A record about a group of a resident team says what R344 names. -/
theorem groupRecord_is {s : State} {g : Group} {x : Team} {gr : Grid} {code cls epc addr aux : Nat}
    (hx : mget s.teams g.team = some x) (hgr : mget s.grids x.grid = some gr) (hfit : RecordFits s g x gr) (hcode : code < 2 ^ 8)
    (hcls : cls < 2 ^ 8) (hepc : epc < 2 ^ 64) (haddr : addr < 2 ^ 64) (haux : aux < 2 ^ 64) :
    RecordIs s g x gr (groupRecord s g code cls epc addr aux) code cls epc addr aux := by
  obtain ⟨hctx, htime, hhandle, hindex, hcore, hslot, hpos, hatt, -⟩ := hfit
  have hteam : (if x.node.isSome then 0xFFFFFFFF else x.index) < 2 ^ 32 := by split <;> omega
  have hloc : locField s g = g.core + (16 * g.slot + g.position) * 2 ^ 16 + attemptIn x gr * 2 ^ 24 := by
    unfold locField slotPos attemptIn attemptOf
    simp only [teamAny_of_mget hx, grid_of_mget hgr, Nat.mul_comm g.slot 16]
  unfold groupRecord RecordIs
  simp only [teamAny_of_mget hx, grid_of_mget hgr, teamField, hloc]
  exact recField_logRecord hcode hcls (by omega) htime (by omega) hteam (by omega) hepc haddr haux

/-! ## Stopping groups and aborting grids (R96, R340, R343) -/

theorem opParts_frame (s : State) (id n : Nat) : ∃ os, opParts s id n = { s with ops := os } := ⟨_, modOp_frame ..⟩
theorem dropTours_frame {α : Type} (op n : α → Nat) (l : List α) (s : State) :
    ∃ os, l.foldl (fun s t => opParts s (op t) (n t)) s = { s with ops := os } := by
  induction l generalizing s with
  | nil => exact ⟨_, rfl⟩
  | cons t l ih =>
    obtain ⟨os, h⟩ := opParts_frame s (op t) (n t)
    obtain ⟨os', h'⟩ := ih (opParts s (op t) (n t))
    exact ⟨os', by rw [List.foldl_cons, h', h]⟩

/-- The operations as a group's stop finds them: a kill completes the parts of its parked tour lanes (R351). -/
def toursDropped (drop : Bool) (s : State) (g : Group) : State :=
  if drop then g.tours.foldl (fun s t => opParts s t.2.op (dropParked t.2).2) s else s
theorem toursDropped_frame (drop : Bool) (s : State) (g : Group) : ∃ os, toursDropped drop s g = { s with ops := os } := by
  unfold toursDropped
  split
  · exact dropTours_frame (fun t : Nat × TourSlot => t.2.op) (fun t => (dropParked t.2).2) _ _
  · exact ⟨_, rfl⟩
/-- A group that stops at its boundary (R96, R351). -/
def stopped (drop : Bool) (g : Group) : Group :=
  { g with
    status := (if (match g.status with | .ended => true | _ => false) = true then .ended else .waiting .drain)
    u := none, uEmit := none, y := {}, walksOut := [], heldWalks := [], hold := [], stalled := false, woken := false, also := none
    tours := if drop then mmap g.tours fun _ t => (dropParked t).1 else g.tours }
/-- What stopping a group that exists does. -/
theorem stopGroup_some {drop : Bool} {s : State} {gid : Nat} {g : Group} (h : mget s.groups gid = some g) :
    stopGroup drop s gid = setGrp (modSlot { toursDropped drop s g with
      ops := mmap (toursDropped drop s g).ops fun _ o => if o.gid = gid then { o with discard := true } else o
      walks := (toursDropped drop s g).walks.filter fun w => !(g.walksOut.contains w.1) } g.core g.slot
        fun x => if x.holder = some gid then { x with holder := none, coll := none } else x) gid (stopped drop g) := by
  unfold stopGroup
  simp only [h]
  rfl
theorem stopGroup_none {drop : Bool} {s : State} {gid : Nat} (h : mget s.groups gid = none) : stopGroup drop s gid = s := by
  unfold stopGroup
  simp only [h]
/-- Stopping a group changes groups, operations, walks and slots. -/
theorem stopGroup_frame (drop : Bool) (s : State) (gid : Nat) :
    ∃ gs os ws cs, stopGroup drop s gid = { s with groups := gs, ops := os, walks := ws, cores := cs } := by
  cases h : mget s.groups gid with
  | none => exact ⟨_, _, _, _, stopGroup_none h⟩
  | some g =>
    obtain ⟨os, hd⟩ := toursDropped_frame drop s g
    rw [stopGroup_some h, hd]
    exact ⟨_, _, _, _, rfl⟩
theorem stopGroups_frame (drop : Bool) (l : List Nat) (s : State) :
    ∃ gs os ws cs, l.foldl (stopGroup drop) s = { s with groups := gs, ops := os, walks := ws, cores := cs } := by
  induction l generalizing s with
  | nil => exact ⟨_, _, _, _, rfl⟩
  | cons k l ih =>
    obtain ⟨gs, os, ws, cs, h⟩ := stopGroup_frame drop s k
    obtain ⟨gs', os', ws', cs', h'⟩ := ih (stopGroup drop s k)
    exact ⟨gs', os', ws', cs', by rw [List.foldl_cons, h', h]⟩
/-- Stopping the groups of teams. -/
theorem stopTeams_frame (drop : Bool) (l : List Nat) (s : State) :
    ∃ gs os ws cs, l.foldl (fun s t => (teamGroups s t).foldl (stopGroup drop) s) s =
      { s with groups := gs, ops := os, walks := ws, cores := cs } := by
  induction l generalizing s with
  | nil => exact ⟨_, _, _, _, rfl⟩
  | cons k l ih =>
    obtain ⟨gs, os, ws, cs, h⟩ := stopGroups_frame drop (teamGroups s k) s
    obtain ⟨gs', os', ws', cs', h'⟩ := ih ((teamGroups s k).foldl (stopGroup drop) s)
    exact ⟨gs', os', ws', cs', by rw [List.foldl_cons, h', h]⟩

theorem grid_modGrid_same {s : State} {k : Nat} {x : Grid} (f : Grid → Grid) (h : mget s.grids k = some x) :
    mget (modGrid s k f).grids k = some (f x) := by
  unfold modGrid; simp only [h, mget_mput_same]
/-- A record that a grid's status waits for: the grid is marked, and the record joins its log (R344). -/
theorem pushRecord_grid {s : State} {p k : Nat} {gr : Grid} (r : BitVec 512) (h : mget s.grids k = some gr) :
    let t := pushRecord s p true r (some k)
    mget t.grids k = some { gr with logHeld := true } ∧ (part t p).eheld = (part s p).eheld ++ [(r, some k)] := by
  refine ⟨grid_modGrid_same _ h, ?_⟩
  unfold pushRecord
  dsimp only
  rw [part_modPart, if_pos rfl, modGrid_frame]
  rfl
/-- Aborting a running grid: its teams that have not started never will, and its record is handed to its partition (R340, R344). -/
theorem abortGrid_running {s : State} {k : Nat} {gr : Grid} (code : Byte) (r : BitVec 512) (h : mget s.grids k = some gr)
    (hrun : gr.ending = .running) :
    let t := abortGrid s k code r
    (∃ grs ps gs os ws cs ds, t = { s with
      grids := grs, parts := ps, groups := gs, ops := os, walks := ws, cores := cs, dies := ds }) ∧
    mget t.grids k = some { gr with logHeld := true, ending := .aborting code, chunks := [], cursor := gr.x * gr.y * gr.z } ∧
    (part t gr.part).eheld = (part s gr.part).eheld ++ [(r, some k)] := by
  intro t
  obtain ⟨hgrid, hlog⟩ := pushRecord_grid (p := gr.part) r h
  obtain ⟨grs, ps, hframe⟩ := pushRecord_frame s gr.part true r (some k)
  let s1 := modGrid (pushRecord s gr.part true r (some k)) k
    fun x => { x with ending := .aborting code, chunks := [], cursor := x.x * x.y * x.z }
  let s2 : State := { s1 with dies := mmap s1.dies fun _ d => { d with gather := d.gather.filter fun b => b.grid != k } }
  have ht : t = (gridTeams s2 k).foldl (fun s t => (teamGroups s t).foldl (stopGroup (killCode code)) s) s2 := by
    show abortGrid s k code r = _
    unfold abortGrid
    simp only [grid_of_mget h, hrun]
    rfl
  obtain ⟨gs, os, ws, cs, hstop⟩ := stopTeams_frame (killCode code) (gridTeams s2 k) s2
  have hs2 : ∃ grs' ds, s2 = { s with grids := grs', parts := ps, dies := ds } := by
    simp only [s2, s1]
    rw [modGrid_frame, hframe]
    exact ⟨_, _, rfl⟩
  obtain ⟨grs', ds, hs2⟩ := hs2
  refine ⟨⟨grs', ps, gs, os, ws, cs, ds, by rw [ht, hstop, hs2]⟩, ?_, ?_⟩
  · rw [ht, hstop]
    exact grid_modGrid_same _ hgrid
  · rw [ht, hstop]
    show (part s1 gr.part).eheld = _
    rw [← hlog]
    simp only [s1]
    rw [modGrid_frame]
    rfl

/-- Aborting a grid, in whatever state it is, leaves memory and the issue in progress as they are. -/
theorem abortGrid_frame (s : State) (k : Nat) (code : Byte) (r : BitVec 512) :
    ∃ grs ps gs os ws cs ds, abortGrid s k code r = { s with
      grids := grs, parts := ps, groups := gs, ops := os, walks := ws, cores := cs, dies := ds } := by
  cases h : (grid s k).ending with
  | refused off => exact ⟨_, _, _, _, _, _, _, by unfold abortGrid; rw [h]⟩
  | aborting c =>
    have ht : abortGrid s k code r = if killCode code then pushRecord s (grid s k).part true r (some k) else s := by
      unfold abortGrid; rw [h]
    rw [ht]
    split
    · obtain ⟨gs, ps, hf⟩ := pushRecord_frame s (grid s k).part true r (some k)
      rw [hf]; exact ⟨_, _, _, _, _, _, _, rfl⟩
    · exact ⟨_, _, _, _, _, _, _, rfl⟩
  | running =>
    unfold abortGrid
    simp only [h]
    obtain ⟨gs, ps, hf⟩ := pushRecord_frame s (grid s k).part true r (some k)
    rw [modGrid_frame, hf]
    generalize hu : List.foldl _ _ _ = u
    obtain ⟨gs', os, ws, cs, hstop⟩ := stopTeams_frame (killCode code) _ _
    rw [← hu, hstop]
    exact ⟨_, _, _, _, _, _, _, rfl⟩
theorem abortGrid_issue (s : State) (k : Nat) (code : Byte) (r : BitVec 512) : (abortGrid s k code r).issue = s.issue := by
  obtain ⟨grs, ps, gs, os, ws, cs, ds, h⟩ := abortGrid_frame s k code r
  rw [h]

end Sys2Proof.Machine
end

section
/-! PROOFS. Faults at trap level 1 (R343, R359), and the faults of the words that name a target, nest, or open no window. -/

namespace Sys2Proof.Machine

/-- The issuing group is at trap level 1, in a running grid whose records fit (R100, R344). -/
structure AtLevelOne (s : State) (x : Team) (gr : Grid) : Prop where
  lvl : s.issue.pre.trap.lvl = true
  team : mget s.teams s.issue.pre.team = some x
  grid : mget s.grids x.grid = some gr
  running : gr.ending = .running
  fits : RecordFits s s.issue.pre x gr
/-- The grid is aborted by a double fault, with the record that R344 and R359 give it. -/
def DoubleFaulted (s : State) (x : Team) (gr : Grid) (code : Byte) (info : DWord) (t : State) : Prop :=
  (grid t x.grid).ending = .aborting 0x43 ∧ (grid t x.grid).chunks = [] ∧ t.issue.cur.trap = s.issue.pre.trap ∧ t.mem = s.mem ∧
  ∃ r, (part t gr.part).eheld = (part s gr.part).eheld ++ [(r, some x.grid)] ∧
    RecordIs s s.issue.pre x gr r 0x43 1 (s.issue.pos.pkt * 4 + s.issue.pos.word) info.toNat
      (s.issue.pre.trap.ecause.toNat + code.toNat * 2 ^ 8)
/-- What the words of an issue group have changed so far, the group and its position not among it. -/
def SameIssue (s u : State) : Prop := OnlyIssue s u ∧ u.issue.pre = s.issue.pre ∧ u.issue.pos = s.issue.pos ∧ u.issue.word = s.issue.word
theorem SameIssue.refl (s : State) : SameIssue s s := ⟨rfl, rfl, rfl, rfl⟩

/-- A fault whose route is the trap, at trap level 1, is a double fault (R343, R359). -/
theorem raiseAt_double {s u : State} {x : Team} {gr : Grid} (h : AtLevelOne s x gr) (hu : SameIssue s u) (stage : Nat)
    (code : Byte) (info : DWord) (rp : Pos) : DoubleFaulted s x gr code info (raiseAt u stage code info rp) := by
  obtain ⟨hlvl, hx, hgr, hrun, hfit⟩ := h
  obtain ⟨honly, hpre, hpos, -⟩ := hu
  let v : State := { u with issue := { u.issue with
    cur := u.issue.pre, verdict := .faulted stage u.issue.word, endRun := true, target := none
    kill := u.issue.kill.filter fun k => k.code = 0x42, events := [], sgReset := false } }
  let r := groupRecord v u.issue.pre 0x43 1 (posWord u.issue.pos).toNat info.toNat
    (u.issue.pre.trap.ecause.toNat + code.toNat * 2 ^ 8)
  have hraise : raiseAt u stage code info rp = abortGrid v (gidOf v u.issue.pre) 0x43 r := by
    unfold raiseAt
    dsimp only
    rw [if_pos (by rw [hpre]; exact hlvl)]
  have hv : v = { s with issue := v.issue } := by
    show _ = ({ s with issue := { u.issue with
      cur := u.issue.pre, verdict := .faulted stage u.issue.word, endRun := true, target := none
      kill := u.issue.kill.filter fun k => k.code = 0x42, events := [], sgReset := false } } : State)
    simp only [v]
    rw [honly]
  have hgid : gidOf v u.issue.pre = x.grid := by
    unfold gidOf; rw [hpre, hv]; exact congrArg Team.grid (team_of_mget hx)
  obtain ⟨⟨grs, ps, gs, os, ws, cs, ds, hframe⟩, hgrid, hlog⟩ :=
    abortGrid_running (s := v) (k := x.grid) 0x43 r (by rw [hv]; exact hgr) hrun
  have ⟨_, _, _, _, _, _, _, _, hpkt, hword, _⟩ := hfit
  have hfields : (posWord u.issue.pos).toNat = s.issue.pos.pkt * 4 + s.issue.pos.word := by
    rw [hpos, posWord_toNat hpkt hword]
  have hecause := s.issue.pre.trap.ecause.isLt
  have hcode := code.isLt
  rw [hraise, hgid]
  refine ⟨by rw [grid_of_mget hgrid], by rw [grid_of_mget hgrid], ?_, ?_, r, ?_, ?_⟩
  · rw [hframe]; exact congrArg (fun g : Group => g.trap) hpre
  · rw [hframe, hv]
  · rw [hlog, hv]; rfl
  · have hr : r = groupRecord s s.issue.pre 0x43 1 (s.issue.pos.pkt * 4 + s.issue.pos.word) info.toNat
        (s.issue.pre.trap.ecause.toNat + code.toNat * 2 ^ 8) := by
      simp only [r]
      rw [hpre, hfields, hv]
      rfl
    rw [hr]
    exact groupRecord_is hx hgr hfit (by omega) (by omega) (by omega) info.isLt (by omega)

/-- A fault of any route marks the issue group as faulted (R27). -/
theorem raiseAt_verdict (s : State) (stage : Nat) (code : Byte) (info : DWord) (rp : Pos) :
    (raiseAt s stage code info rp).issue.verdict = .faulted stage s.issue.word := by
  unfold raiseAt
  dsimp only
  split
  · rw [abortGrid_issue]
  · split
    · rw [abortGrid_issue]
    · split <;> rfl

/-! ## The words that fault before they take effect -/

/-- A target outside the code region raises code-bounds (R73). -/
theorem takeBranch_far {s : State} {t : Int} {k : State → State} (h : ¬InCode s t) :
    takeBranch s t k = raiseB s 5 0x06 (BitVec.ofInt 32 t).toNat := by
  unfold takeBranch
  rw [if_pos]
  unfold InCode at h
  by_cases h0 : t < 0
  · exact .inl h0
  · exact .inr (by
      by_contra hc
      exact h ⟨by omega, by omega⟩)
theorem relTarget_eq (s : State) {n : Nat} (o : BitVec n) : relTarget s n o.toNat = s.issue.pos.pkt + o.toInt := by
  unfold relTarget; rw [sextInt_toInt]
theorem activeLanes_nil_iff (g : Group) : activeLanes g = [] ↔ ∀ l, l < 32 → isActive g l = false := by
  rw [List.eq_nil_iff_forall_not_mem]
  simp only [mem_active, not_and, Bool.not_eq_true]
theorem activeLanes_ne_nil {g : Group} (h : ∃ l, l < 32 ∧ isActive g l = true) : activeLanes g ≠ [] := by
  obtain ⟨l, hl, ha⟩ := h
  exact fun hn => by simp [(activeLanes_nil_iff g).1 hn l hl] at ha
/-- A register target: the offset is no multiple of 12 (R73). -/
theorem regTarget_misaligned {s : State} {a : Fin 64} {k : State → State} (h : (kget s.issue.pre a.val).toNat % 2 ^ 32 % 12 ≠ 0) :
    regTarget s a k = raiseB s 5 0x05 ((kget s.issue.pre a.val).toNat % 2 ^ 32) := by
  unfold regTarget kreg; simp only [ne_eq, h, not_false_eq_true, if_true]
theorem regTarget_aligned {s : State} {a : Fin 64} {k : State → State} (h : (kget s.issue.pre a.val).toNat % 2 ^ 32 % 12 = 0) :
    regTarget s a k = takeBranch s ((kget s.issue.pre a.val).toNat % 2 ^ 32 / 12 : Nat) k := by
  unfold regTarget kreg; simp only [h, ne_eq, not_true_eq_false, if_false]
/-- A register target outside the code region (R73). -/
theorem regTarget_far {s : State} {a : Fin 64} {k : State → State} (h : (kget s.issue.pre a.val).toNat % 2 ^ 32 % 12 = 0)
    (hc : (gridOf s s.issue.pre).codeSize ≤ (kget s.issue.pre a.val).toNat % 2 ^ 32 / 12) :
    regTarget s a k = raiseB s 5 0x06 ((kget s.issue.pre a.val).toNat % 2 ^ 32 / 12) := by
  rw [regTarget_aligned h, takeBranch_far (fun hin => by have := hin.2; omega)]
  congr 1
  rw [BitVec.ofInt_natCast, BitVec.toNat_ofNat]
  omega
theorem pushFrame_deep {s : State} (h : s.issue.pre.calls.length = 16) : pushFrame s = raiseB s 6 0x07 0 := by
  unfold pushFrame; simp only [h, if_true]
/-- The counters agree: the word goes on (R350). -/
theorem compareCtr_equal {s : State} {k : State → State} (h : s.issue.pre.c = s.issue.pre.dup) : compareCtr s k = k s := by
  unfold compareCtr; rw [if_pos h]
/-- A lane whose counter would pass 254 (R86). -/
theorem tooDeep_of_past {g : Group} {n : Nat}
    (h : ∃ l, l < 32 ∧ ctr g l ≠ 255 ∧ ctr g l ≠ 0 ∧ 254 < (ctr g l).toNat + n) : tooDeep g n = true := by
  obtain ⟨l, hl, h1, h2, h3⟩ := h
  unfold tooDeep
  rw [List.any_eq_true]
  exact ⟨l, List.mem_range.2 hl, by simp only [bne_iff_ne, Bool.and_eq_true, decide_eq_true_eq]; exact ⟨⟨h1, h2⟩, h3⟩⟩
/-- A lane whose counter is 0 or 1 is active once counters of 1 have become 0 (R94). -/
theorem activeLanes_after_endloop {g : Group} (h : ∃ l, l < 32 ∧ (ctr g l = 0 ∨ ctr g l = 1)) :
    activeLanes (setCtr g fun _ x => if x = 1 then 0 else x) ≠ [] := by
  obtain ⟨l, hl, hc⟩ := h
  refine activeLanes_ne_nil ⟨l, hl, ?_⟩
  unfold isActive
  rw [ctr_setCtr _ _ _ hl]
  rcases hc with hc | hc <;> simp [hc]

/-- IF reads a poisoned word in a lane that is not retired (R347). -/
def ifReadsBad (g : Group) (o : Opnd) : Bool :=
  (opndRegs g o).any fun r => allLanes.any fun l => !isRetired g l && g.vBad.contains (32 * r + l)

section
variable {s : State}

theorem exec_bra_far {o : BitVec 23} (h : ¬InCode s (s.issue.pos.pkt + o.toInt)) :
    exec (.bra o) s = .next (raiseB s 5 0x06 (BitVec.ofInt 32 (s.issue.pos.pkt + o.toInt)).toNat) := by
  show execBra o s = _
  unfold execBra
  rw [relTarget_eq, takeBranch_far h]
theorem exec_call_far {o : BitVec 23} (h : ¬InCode s (s.issue.pos.pkt + o.toInt)) :
    exec (.call o) s = .next (raiseB s 5 0x06 (BitVec.ofInt 32 (s.issue.pos.pkt + o.toInt)).toNat) := by
  show execCall o s = _
  unfold execCall
  rw [relTarget_eq, takeBranch_far h]
theorem exec_brz_far {a : Fin 64} {o : BitVec 14} (ha : kget s.issue.pre a.val = 0) (h : ¬InCode s (s.issue.pos.pkt + o.toInt)) :
    exec (.brz a o) s = .next (raiseB s 5 0x06 (BitVec.ofInt 32 (s.issue.pos.pkt + o.toInt)).toNat) := by
  show execBrz a o s = _
  unfold execBrz kreg
  rw [if_pos ha, relTarget_eq, takeBranch_far h]
theorem exec_brnz_far {a : Fin 64} {o : BitVec 14} (ha : kget s.issue.pre a.val ≠ 0) (h : ¬InCode s (s.issue.pos.pkt + o.toInt)) :
    exec (.brnz a o) s = .next (raiseB s 5 0x06 (BitVec.ofInt 32 (s.issue.pos.pkt + o.toInt)).toNat) := by
  show execBrnz a o s = _
  unfold execBrnz kreg
  rw [if_neg ha, relTarget_eq, takeBranch_far h]
theorem exec_brany_far {o : BitVec 20} (ha : ∃ l, l < 32 ∧ isActive s.issue.pre l = true)
    (h : ¬InCode s (s.issue.pos.pkt + o.toInt)) :
    exec (.brany o) s = .next (raiseB s 5 0x06 (BitVec.ofInt 32 (s.issue.pos.pkt + o.toInt)).toNat) := by
  show execBrany o s = _
  unfold execBrany
  rw [if_neg (activeLanes_ne_nil ha), relTarget_eq, takeBranch_far h]
theorem exec_brnone_far {o : BitVec 20} (ha : ∀ l, l < 32 → isActive s.issue.pre l = false)
    (h : ¬InCode s (s.issue.pos.pkt + o.toInt)) :
    exec (.brnone o) s = .next (raiseB s 5 0x06 (BitVec.ofInt 32 (s.issue.pos.pkt + o.toInt)).toNat) := by
  show execBrnone o s = _
  unfold execBrnone
  rw [if_pos ((activeLanes_nil_iff _).2 ha), relTarget_eq, takeBranch_far h]
theorem exec_endloop_far {o : BitVec 20} (hc : s.issue.pre.c = s.issue.pre.dup)
    (hl : ∃ l, l < 32 ∧ (ctr s.issue.pre l = 0 ∨ ctr s.issue.pre l = 1)) (h : ¬InCode s (s.issue.pos.pkt + o.toInt)) :
    exec (.endloop o) s = .next (raiseB s 5 0x06 (BitVec.ofInt 32 (s.issue.pos.pkt + o.toInt)).toNat) := by
  show execEndloop o s = _
  unfold execEndloop
  rw [compareCtr_equal hc]
  dsimp only
  rw [if_neg (activeLanes_after_endloop hl), relTarget_eq, takeBranch_far h]
/-- CALL at the depth's limit, once its target has been checked (R50, R92). -/
theorem exec_call_deep {o : BitVec 23} (h : InCode s (s.issue.pos.pkt + o.toInt)) (hd : s.issue.pre.calls.length = 16) :
    exec (.call o) s = .next (raiseB s 6 0x07 0) := by
  show execCall o s = _
  unfold execCall
  rw [relTarget_eq, takeBranch_spec _ _ _ h, pushFrame_deep (s := landed s _) hd]
  rfl
theorem exec_callx_deep {a : Fin 64} (h : (kget s.issue.pre a.val).toNat % 2 ^ 32 % 12 = 0)
    (hc : (kget s.issue.pre a.val).toNat % 2 ^ 32 / 12 < (gridOf s s.issue.pre).codeSize) (hd : s.issue.pre.calls.length = 16) :
    exec (.callx a) s = .next (raiseB s 6 0x07 0) := by
  show execCallx a s = _
  unfold execCallx
  rw [regTarget_aligned h, takeBranch_spec _ _ _ ⟨by omega, by omega⟩, pushFrame_deep (s := landed s _) hd]
  rfl
/-- RET with no frame, or with a lane whose counter is not the call's (R92). -/
theorem exec_ret_nesting (hc : s.issue.pre.c = s.issue.pre.dup)
    (h : s.issue.pre.calls = [] ∨ ∃ f fs, s.issue.pre.calls = fs ++ [f] ∧
      ∃ l, l < 32 ∧ ctr s.issue.pre l ≠ 255 ∧ ctr s.issue.pre l ≠ cget 0 f.c l) :
    exec .ret s = .next (raiseB s 6 0x07 0) := by
  show execRet s = _
  unfold execRet
  dsimp only
  rw [compareCtr_equal hc]
  rcases h with h | ⟨f, fs, h, l, hl, h1, h2⟩
  · simp only [h, List.getLast?_nil]
  · simp only [h, List.getLast?_append, List.getLast?_singleton, Option.some_or]
    rw [if_neg]
    intro hall
    have := List.all_eq_true.1 hall l (List.mem_range.2 hl)
    simp only [Bool.or_eq_true, decide_eq_true_eq] at this
    exact this.elim h1 h2
theorem exec_loop_deep (h : ∃ l, l < 32 ∧ ctr s.issue.pre l ≠ 255 ∧ ctr s.issue.pre l ≠ 0 ∧ 254 < (ctr s.issue.pre l).toNat + 2) :
    exec .loopL s = .next (raiseB s 6 0x07 0) := by
  show execLoopL s = _
  unfold execLoopL
  rw [tooDeep_of_past h, if_pos rfl]
/-- IF past the limit of nesting; a poisoned word that it has read stays consumed (R86, R347). -/
theorem exec_if_deep {o : Opnd} (ho : OperandsOk s [o] .discard)
    (h : ∃ l, l < 32 ∧ ctr s.issue.pre l ≠ 255 ∧ ctr s.issue.pre l ≠ 0 ∧ 254 < (ctr s.issue.pre l).toNat + 1) :
    ∃ u, SameIssue s u ∧ exec (.ifL o) s = .next (raiseB u 6 0x07 0) := by
  have hkill : SameIssue s (if ifReadsBad s.issue.pre o then poisonKill s 0 false else s) := by
    split
    · unfold poisonKill
      split <;> exact ⟨rfl, rfl, rfl, rfl⟩
    · exact .refl s
  refine ⟨_, hkill, ?_⟩
  show execIfL o s = _
  unfold execIfL
  dsimp only
  rw [withRegs_ok (show RegsOk s (namedRegs s.issue.pre [o] []) [o] from ho)]
  rw [if_pos (tooDeep_of_past h)]
  rfl
theorem exec_eret_nesting (hlvl : s.issue.pre.trap.lvl = true) (hc : s.issue.pre.c = s.issue.pre.dup)
    (h : (∃ l, l < 32 ∧ ctr s.issue.pre l ≠ 0 ∧ ctr s.issue.pre l ≠ 255) ∨ s.issue.pre.calls.length ≠ s.issue.pre.trap.depth) :
    exec .eret s = .next (raiseB s 6 0x07 0) := by
  show execEret s = _
  unfold execEret
  simp only [hlvl, Bool.not_true, Bool.false_eq_true, if_false]
  rw [compareCtr_equal hc]
  split
  · rfl
  case isFalse hany =>
    rcases h with ⟨l, hl, h1, h2⟩ | h
    · exact absurd (List.any_eq_true.2 ⟨l, List.mem_range.2 hl, by simp only [bne_iff_ne, Bool.and_eq_true]; exact ⟨h1, h2⟩⟩) hany
    · rw [if_pos h]
theorem exec_eret_bounds (hlvl : s.issue.pre.trap.lvl = true) (hc : s.issue.pre.c = s.issue.pre.dup)
    (hl : ∀ l, l < 32 → ctr s.issue.pre l = 0 ∨ ctr s.issue.pre l = 255) (hd : s.issue.pre.calls.length = s.issue.pre.trap.depth)
    (h : s.issue.pre.trap.epc.word = 3 ∨ (gridOf s s.issue.pre).codeSize ≤ s.issue.pre.trap.epc.pkt) :
    exec .eret s = .next (raiseB s 6 0x06 s.issue.pre.trap.epc.pkt) := by
  have hany : (allLanes.any fun l => ctr s.issue.pre l != 0 && ctr s.issue.pre l != 255) = false := by
    rw [List.any_eq_false]
    intro l hmem
    rcases hl l (List.mem_range.1 hmem) with h | h <;> simp [h]
  show execEret s = _
  unfold execEret
  simp only [hlvl, Bool.not_true, Bool.false_eq_true, if_false]
  rw [compareCtr_equal hc]
  simp only [hany, hd, ne_eq, not_true_eq_false, Bool.false_eq_true, if_false]
  rw [if_pos h]
/-- TRAP at trap level 1 (R343). -/
theorem exec_trap_double (code : BitVec 8) (hlvl : s.issue.pre.trap.lvl = true) :
    exec (.trap code) s = .next (raiseAt s 6 0x30 (code.zeroExtend 64) s.issue.next) := by
  show execTrap code s = _
  unfold execTrap
  simp only [hlvl, Bool.true_or, if_true]
  cases (gridOf s s.issue.pre).trap <;> rfl
/-- KSET of a register that cannot be written (R109). -/
theorem exec_kset_illegal {r : SReg} {a : Fin 64} (h1 : r ≠ .status) (h2 : r ≠ .seed) (h3 : r ≠ .epc) :
    exec (.kset r a) s = .next (raiseB s 2 0x02 s.issue.raw.toNat) := by
  cases r
  case status => exact absurd rfl h1
  case seed => exact absurd rfl h2
  case epc => exact absurd rfl h3
  all_goals rfl
theorem setIxb_bounds {n : Nat} (h : s.issue.pre.regs ≤ n) : setIxb s n = raiseB s 6 0x03 n := by
  unfold setIxb; rw [if_pos h]
end

/-! ## The checks of a window (R164, R166) -/

theorem checkAccess_closed {s : State} {n : Nat} {i : Item} {rest : List Item} {write : Bool} {tier : Nat → Bool}
    (h : (xwget s.issue.pre n).isOpen = false) :
    checkAccess s n (i :: rest) write tier = .stop (raiseA s 0x10 (offAddr i.off) false i.sec i.lane) := by
  unfold checkAccess
  simp only [List.head?_cons, h, Bool.not_false, if_true]
theorem checkAccess_misaligned {s : State} {n : Nat} {i : Item} {rest : List Item} {write : Bool} {tier : Nat → Bool}
    (h : (xwget s.issue.pre n).isOpen = true) (ha : (((xwget s.issue.pre n).base : Int) + i.off) % i.size ≠ 0) :
    checkAccess s n (i :: rest) write tier = .stop (raiseA s 0x13 (offAddr i.off) false i.sec i.lane) := by
  have hf : (i :: rest).find? (fun i => (((xwget s.issue.pre n).base : Int) + i.off) % i.size != 0) = some i := by
    rw [List.find?_cons_of_pos (by simpa using ha)]
  unfold checkAccess
  simp only [List.head?_cons, h, Bool.not_true, Bool.false_eq_true, if_false, hf]
theorem checkAccess_bounds {s : State} {n : Nat} {i : Item} {rest : List Item} {write : Bool} {tier : Nat → Bool}
    (h : (xwget s.issue.pre n).isOpen = true)
    (ha : ∀ j ∈ i :: rest, (((xwget s.issue.pre n).base : Int) + j.off) % j.size = 0)
    (hb : i.off < 0 ∨ ((xwget s.issue.pre n).size : Int) < i.off + i.size) :
    checkAccess s n (i :: rest) write tier = .stop (raiseA s 0x11 (offAddr i.off) false i.sec i.lane) := by
  have hf : (i :: rest).find? (fun i => (((xwget s.issue.pre n).base : Int) + i.off) % i.size != 0) = none := by
    rw [List.find?_eq_none]; intro j hj; simpa using ha j hj
  have hg : (i :: rest).find? (fun i => decide (i.off < 0) || decide (((xwget s.issue.pre n).size : Int) < i.off + i.size)) =
      some i := by
    rw [List.find?_cons_of_pos (by simpa using hb)]
  unfold checkAccess
  simp only [List.head?_cons, h, Bool.not_true, Bool.false_eq_true, if_false, hf, hg]
/-- An LD whose access is stopped by a check ends there (R189). -/
theorem exec_ld_stop {s t : State} {sz : LdSize} {d : Dst} {win : Fin 8} {off : Opnd} {imm : BitVec 6}
    (hr : RegsOk s (opndRegs s.issue.pre off ++ top (ldRegs s.issue.pre d (ldBytes sz))) [off])
    (hc : checkAccess (memClass s) win.val (mItems s.issue.pre off imm (ldBytes sz)) false anyTier = .stop t) :
    exec (.ld sz d win off imm) s = .next t := by
  show execLd sz d win off imm s = _
  unfold execLd
  dsimp only
  rw [withRegs_ok hr]
  simp only [hc]
/-- Every item of a format M access has the access's size, and no second address (R164). -/
theorem mItems_size {g : Group} {off : Opnd} {imm : BitVec 6} {n : Nat} {i : Item} (h : i ∈ mItems g off imm n) :
    i.size = n ∧ i.sec = false := by
  obtain ⟨l, -, rfl⟩ := List.mem_map.1 h
  exact ⟨rfl, rfl⟩
theorem memClass_sameIssue (s : State) : SameIssue s (memClass s) := ⟨rfl, rfl, rfl, rfl⟩

/-- Settles O16: each word's fault, and what a fault at trap level 1 does. -/
theorem doubleFaultAborts : Obligations.DoubleFaultAborts := by
  intro s x gr d a b e ka n g w A off aborts faults far past hlvl hx hgr hrun hfit
  have h1 : AtLevelOne s x gr := ⟨hlvl, hx, hgr, hrun, hfit⟩
  have double : ∀ {i : Instr} {u : State} {stage : Nat} {code : Byte} {info : DWord} {rp : Pos}, SameIssue s u →
      exec i s = .next (raiseAt u stage code info rp) → aborts i code info := fun hu he => ⟨_, he, raiseAt_double h1 hu ..⟩
  have fault : ∀ {i : Instr} {stage : Nat} {code : Byte} {y : Nat}, exec i s = .next (raiseB s stage code y) → faults i code y :=
    fun he => double (.refl s) he
  refine ⟨fun code => ⟨double (.refl s) (exec_trap_double code hlvl), double (.refl s) rfl⟩, fun u => fault rfl, ?_,
    fun r hr1 hr2 hr3 => fault (exec_kset_illegal hr1 hr2 hr3), fun h => fault (congrArg _ (setIxb_bounds h)),
    fun h => fault (congrArg _ (setIxb_bounds h)), ?_, ?_, ?_, ?_, ?_, ?_, fun hc h => fault (exec_ret_nesting hc h), ?_,
    fun h => fault (exec_loop_deep h), fun hc => ⟨fun h => fault (exec_eret_nesting hlvl hc h),
      fun hl hd h => fault (exec_eret_bounds hlvl hc hl hd h)⟩, ?_⟩
  · refine OfEveryVWord.imp (fun srcs i hi => ?_) (everyVWord_checksOperands s d a b e)
    have hfault : ∀ {stage : Nat} {code : Byte} {y : Nat},
        checkRegs s (namedRegs g srcs (dstRegs g d.d)) srcs = some (raiseB s stage code y) → faults i code y := fun hc => by
      refine fault (hi.1 _ hc ?_)
      rw [raiseB, raise, raiseAt_verdict]
      exact Verdict.noConfusion
    exact ⟨fun r hr => hfault (checkRegs_regs hr), fun n rest hr he => hfault (checkRegs_latch hr he)⟩
  · exact fun o => ⟨fun h => fault (exec_bra_far h), fun h => fault (exec_call_far h), fun h hd => fault (exec_call_deep h hd)⟩
  · exact fun o => ⟨fun ha h => fault (exec_brz_far ha h), fun ha h => fault (exec_brnz_far ha h)⟩
  · exact fun o => ⟨fun ha h => fault (exec_brany_far ha h), fun ha h => fault (exec_brnone_far ha h),
      fun hc hl h => fault (exec_endloop_far hc hl h)⟩
  · exact fun h => ⟨fault (congrArg _ (regTarget_misaligned h)), fault (congrArg _ (regTarget_misaligned h))⟩
  · exact fun h hc => ⟨fault (congrArg _ (regTarget_far h hc)), fault (congrArg _ (regTarget_far h hc))⟩
  · exact fun h hc hd => fault (exec_callx_deep h hc hd)
  · intro ho h
    obtain ⟨u, hu, he⟩ := exec_if_deep ho h
    have hword : u.issue.word = w := hu.2.2.2
    rw [raiseB, hword] at he
    exact double hu he
  · intro sz dst win imm i rest m win' at_ hregs hitems
    have hmem : ∀ j ∈ i :: rest, j.size = m ∧ j.sec = false := fun j hj => mItems_size (hitems ▸ hj)
    have stop : ∀ {code : Byte}, checkAccess (memClass s) win.val (i :: rest) false anyTier =
        .stop (raiseA (memClass s) code (offAddr i.off) false i.sec i.lane) → at_ code := fun hc => by
      rw [(hmem i (List.mem_cons_self ..)).2] at hc
      exact double (memClass_sameIssue s) (exec_ld_stop hregs (hitems ▸ hc))
    refine ⟨fun ho => stop (checkAccess_closed ho), fun ho ha => stop (checkAccess_misaligned ho ?_), fun ho ha hb =>
      stop (checkAccess_bounds ho (fun j hj => ?_) ?_)⟩
    · rw [(hmem i (List.mem_cons_self ..)).1]; exact ha
    · rw [(hmem j hj).1]; exact ha j hj
    · rw [(hmem i (List.mem_cons_self ..)).1]; exact hb

end Sys2Proof.Machine
end

section
/-! PROOFS. FENCE, the acquires and PROMOTE (R163, R175, R214, R218, R223, R224). -/

namespace Sys2Proof.Machine

/-! ## Filtering and changing maps -/

theorem mget_none_of_lt {α : Type} {lo : Nat} {m : Map α} (h : rising (some lo) m = true) {k : Nat} (hk : k ≤ lo) : mget m k = none := by
  cases hm : mget m k with
  | none => rfl
  | some x => exact absurd (lt_of_mem_rising h _ (mem_of_mget hm)) (by dsimp only; omega)
/-- In a map whose keys rise, filtering keeps an entry where its test holds. -/
theorem mget_filter {α : Type} {m : Map α} (h : rising none m = true) (p : Nat × α → Bool) (k : Nat) :
    mget (m.filter p) k = (mget m k).filter fun x => p (k, x) := by
  induction m with
  | nil => rfl
  | cons e t ih =>
    obtain ⟨j, y⟩ := e
    have ht : rising (some j) t = true := h
    have ih := ih (rising_none ht)
    rw [List.filter_cons]
    by_cases hp : p (j, y) = true
    · rw [if_pos hp]
      simp only [mget]
      by_cases hj : j = k
      · subst hj; simp [Option.filter, hp]
      · rw [if_neg hj, if_neg hj]
        split
        · rfl
        · exact ih
    · rw [if_neg hp, ih]
      simp only [mget]
      by_cases hj : j = k
      · subst hj; rw [mget_none_of_lt ht (Nat.le_refl _)]; simp [Option.filter, hp]
      · rw [if_neg hj]
        split
        · rw [mget_none_of_lt ht (by omega)]
        · rfl
theorem rising_map_values {α β : Type} (f : Nat → α → β) : ∀ (lo : Option Nat) (m : Map α),
    rising lo (m.map fun e => (e.1, f e.1 e.2)) = rising lo m
  | _, [] => by cases ‹Option Nat› <;> rfl
  | none, (_, _) :: t => rising_map_values f _ t
  | some lo, (j, _) :: t => by
    simp only [List.map_cons, rising]
    rw [rising_map_values f (some j) t]
theorem mget_map_values {α β : Type} (f : Nat → α → β) (m : Map α) (k : Nat) :
    mget (m.map fun e => (e.1, f e.1 e.2)) k = (mget m k).map (f k) := by
  induction m with
  | nil => rfl
  | cons e t ih =>
    obtain ⟨j, y⟩ := e
    simp only [List.map_cons, mget]
    split
    · subst_vars; rfl
    · split
      · rfl
      · exact ih

/-! ## The acquire (R218) -/

/-- An acquire at .gang or wider discards the core's clean words of pages with S = 0, and cuts what is on its way (R218). -/
theorem acquireAt_wide {s : State} {c : Nat} {sc : Scope} (h1 : sc ≠ .grp) (h2 : sc ≠ .team) :
    acquireAt s c sc = stopOld (invalidate s c fun _ l _ w => !w.dirty && !l.stable) c fun st _ => !st := by
  cases sc with
  | grp => exact absurd rfl h1
  | team => exact absurd rfl h2
  | gang => rfl
  | die => rfl
  | dev => rfl
  | sys => rfl
/-- A line with the words that an invalidation leaves it (R175). -/
def leftOfLine (sel : Nat → L1Line → Nat → L1Word → Bool) (n : Nat) (l : L1Line) : L1Line :=
  { l with words := l.words.filter fun w => !sel n l w.1 w.2 }
theorem core_invalidate (s : State) (c : Nat) (sel : Nat → L1Line → Nat → L1Word → Bool) :
    (core (invalidate s c sel) c).l1 =
      ((core s c).l1.map fun e => (e.1, leftOfLine sel e.1 e.2)).filter fun l => !l.2.words.isEmpty := by
  unfold invalidate
  rw [core_modCore, if_pos rfl]
  rfl
/-- The words that an invalidation leaves in the L1 (R175). -/
theorem invalidate_words {s : State} {c : Nat} (sel : Nat → L1Line → Nat → L1Word → Bool)
    (hl : rising none (core s c).l1 = true) (hw : ∀ l ∈ (core s c).l1, rising none l.2.words = true) (line k : Nat) :
    mget (l1Line (invalidate s c sel) c line).words k =
      (mget (l1Line s c line).words k).filter fun w => !sel line (l1Line s c line) k w := by
  unfold l1Line
  rw [core_invalidate, mget_filter (by rw [rising_map_values]; exact hl), mget_map_values]
  cases hm : mget (core s c).l1 line with
  | none => rfl
  | some l =>
    have hleft : mget (leftOfLine sel line l).words k = (mget l.words k).filter fun w => !sel line l k w :=
      mget_filter (hw (line, l) (mem_of_mget hm)) (fun w => !sel line l w.1 w.2) k
    simp only [Option.map_some, Option.getD_some, Option.filter_some]
    rw [← hleft]
    split
    · rfl
    case isFalse he =>
      rw [show (leftOfLine sel line l).words = [] by simpa using he]
      rfl

theorem cutMsg_id (past : Bool) (sel : Bool → Nat → Bool) (m : Msg) : (cutMsg past sel m).id = m.id := by
  unfold cutMsg
  dsimp only
  split
  · split <;> rfl
  · rfl
  · rfl
theorem fillFor_cutMsg (c : Nat) (past : Bool) (sel : Bool → Nat → Bool) (m : Msg) : fillFor c (cutMsg past sel m) = fillFor c m := by
  unfold cutMsg
  dsimp only
  split
  · split <;> rfl
  · rfl
  · rfl
/-- What is no data keeps its body when only what a home has read is touched. -/
theorem cutMsg_past_of_not_data {sel : Bool → Nat → Bool} {m : Msg} (h : ∀ f bytes bad err, m.body ≠ .data f bytes bad err) :
    cutMsg true sel m = m := by
  unfold cutMsg
  dsimp only
  split
  · rfl
  case h_2 f a b bytes bad err hb => exact absurd hb (h _ _ _ _)
  · rfl
/-- Fills of pages with S = 0 that a home has read set no word any more (R218, assumption 12). -/
theorem cutMsg_past_fill {m : Msg} {f : ReadFor} {bytes : Cells Byte} {bad : List Nat} {err : Bool}
    (h : (cutMsg true (fun st _ => !st) m).body = .data f bytes bad err) (hb : bytes ≠ []) (hs : fillStable f = false) :
    fillOf f = [] := by
  unfold cutMsg at h
  dsimp only at h
  split at h
  case h_1 hr => rw [if_pos rfl, hr] at h; exact absurd h (by simp)
  case h_2 f0 a b bytes0 bad0 err0 hm =>
    obtain ⟨rfl, -, -, -⟩ := Body.data.inj h
    cases f0
    case load op sz ls got ws st => cases (show st = false from hs); simp [cutFill, fillOf]
    case kldg g w pa n got ws st => cases (show st = false from hs); simp [cutFill, fillOf]
    case pref ws st => cases (show st = false from hs); simp [cutFill, fillOf]
    all_goals rfl
  case h_3 hn =>
    cases bytes with
    | nil => exact absurd rfl hb
    | cons x t => exact absurd h (hn f x.1 x.2 t bad err)

theorem core_stopOld (s : State) (c : Nat) (sel : Bool → Nat → Bool) (d : Nat) : core (stopOld s c sel) d = core s d := rfl

/-- The first clause of O26: an acquire by its scope. -/
theorem acquireAt_spec (s : State) (c : Nat) (sc : Scope) (hl : rising none (core s c).l1 = true)
    (hw : ∀ l ∈ (core s c).l1, rising none l.2.words = true) :
    let t := acquireAt s c sc
    (sc = .grp ∨ sc = .team → t = s) ∧
    (sc ≠ .grp → sc ≠ .team → t.mem = s.mem ∧ t.issue = s.issue ∧ t.groups = s.groups ∧ t.ops = s.ops ∧
      (∀ d, d ≠ c → core t d = core s d) ∧ t.net.map (·.id) = s.net.map (·.id) ∧
      (∀ m ∈ t.net, fillFor c m = true → ∀ f bytes bad err, m.body = .data f bytes bad err → bytes ≠ [] → fillStable f = false →
        fillOf f = []) ∧
      (∀ m ∈ s.net, fillFor c m = false ∨ (∀ f bytes bad err, m.body ≠ .data f bytes bad err) → m ∈ t.net) ∧
      ∀ line k, mget (l1Line t c line).words k = (mget (l1Line s c line).words k).filter fun w => w.dirty || (l1Line s c line).stable) := by
  intro t
  refine ⟨by rintro (rfl | rfl) <;> rfl, fun h1 h2 => ?_⟩
  have ht : t = stopOld (invalidate s c fun _ l _ w => !w.dirty && !l.stable) c fun st _ => !st := acquireAt_wide h1 h2
  have hnet : t.net = s.net.map fun m => if fillFor c m then cutMsg true (fun st _ => !st) m else m := by rw [ht]; rfl
  refine ⟨by rw [ht]; rfl, by rw [ht]; rfl, by rw [ht]; rfl, by rw [ht]; rfl, fun d hd => ?_, ?_, fun m hm hf f bytes bad err hb => ?_,
    fun m hm hk => ?_, fun line k => ?_⟩
  · rw [ht]
    rw [core_stopOld]
    unfold invalidate
    rw [core_modCore, if_neg hd]
  · rw [hnet, List.map_map]
    refine List.map_congr_left fun m _ => ?_
    dsimp only [Function.comp_apply]
    split
    · exact cutMsg_id ..
    · rfl
  · rw [hnet] at hm
    obtain ⟨m0, -, rfl⟩ := List.mem_map.1 hm
    have hf0 : fillFor c m0 = true := by
      split at hf
      · rwa [fillFor_cutMsg] at hf
      · exact hf
    rw [if_pos hf0] at hb
    exact fun hne hs => cutMsg_past_fill hb hne hs
  · rw [hnet]
    refine List.mem_map.2 ⟨m, hm, ?_⟩
    rcases hk with hk | hk
    · rw [hk]; rfl
    · rw [cutMsg_past_of_not_data hk, ite_self]
  · have hcut : l1Line t c line = l1Line (invalidate s c fun _ l _ w => !w.dirty && !l.stable) c line := by rw [ht]; rfl
    rw [hcut, invalidate_words _ hl hw]
    congr 1
    funext w
    simp

/-! ## What follows a fence (R214, R223) -/

/-- A home-bound write follows the writes that its group's last release fence marked and that are not yet performed (R223). -/
theorem send_after {s : State} {gid : Nat} (c : Nat) (home : Home) (body : Body) (hb : isHomeBound body = true)
    (hg : s.issue.gid = gid) :
    ∃ m, (send s c (some gid) home body).net = s.net ++ [m] ∧ m.body = body ∧ m.home = home ∧
      ∀ k, k ∈ m.after ↔ k ∈ s.issue.cur.fenceAfter ∧ performed s k = false := by
  refine ⟨_, rfl, rfl, rfl, fun k => ?_⟩
  simp only [hb, if_true, List.mem_filter, Bool.not_eq_true']
  rw [if_pos hg]
  exact Iff.rfl
/-- A message that must follow a write which is not yet performed has not arrived (R157, R223). -/
theorem arrived_of_waiting {s : State} {m : Msg} (h : ∃ k ∈ m.after, performed s k = false) : arrived s m = false := by
  obtain ⟨k, hk, hp⟩ := h
  have : m.after.all (performed s) = false := List.all_eq_false.2 ⟨k, hk, by simp [hp]⟩
  unfold arrived
  simp [this]
/-- An arrival that has to wait changes nothing. -/
theorem onMessage_waiting {s : State} {m : Msg} {ok : Body → Bool} {k : State → Msg → State} (ha : s.arriving = .msg m.id)
    (hm : netGet s m.id = some m) (hu : unreachable s m = false) (hw : arrived s m = false) : onMessage s ok k = s := by
  unfold onMessage
  simp only [ha, hm, hu, hw, Bool.false_eq_true, if_false, ite_self]

/-! ## FENCE and PROMOTE (R223, R224) -/

/-- A word that stalls leaves the group's registers as they were (R28). -/
theorem stall_spec {s u : State} (hu : SameIssue s u) :
    (stall u).issue.verdict = .stalled ∧ OnlyIssue s (stall u) ∧ (stall u).issue.cur.v = s.issue.pre.v ∧
      (stall u).issue.cur.k = s.issue.pre.k ∧ (stall u).issue.cur.fenceAfter = s.issue.pre.fenceAfter := by
  obtain ⟨honly, hpre, -⟩ := hu
  refine ⟨rfl, ?_, show u.issue.pre.v = _ by rw [hpre], show u.issue.pre.k = _ by rw [hpre],
    show u.issue.pre.fenceAfter = _ by rw [hpre]⟩
  unfold OnlyIssue stall
  rw [honly]
/-- The entry that holds a word stands in the holding register (R163). -/
theorem holdWord_hold (s : State) (ops : List Nat) (h : Hold) :
    { h with pos := s.issue.pos, word := s.issue.word, ops := ops } ∈ (holdWord s ops h).issue.cur.hold :=
  List.mem_append_right _ (List.mem_singleton.2 rfl)
theorem holdWord_kept (s : State) (ops : List Nat) (h : Hold) :
    (holdWord s ops h).issue.verdict = .stalled ∧ (holdWord s ops h).mem = s.mem ∧ (holdWord s ops h).net = s.net := ⟨rfl, rfl, rfl⟩
theorem memClass_kept (s : State) : (memClass s).mem = s.mem ∧ (memClass s).net = s.net := ⟨rfl, rfl⟩
theorem loadsOut_iff (s : State) (gid : Nat) : loadsOut s gid = true ↔ ∃ o ∈ s.ops, o.2.gid = gid ∧ o.2.cls = .ld ∧ o.2.parts ≠ 0 := by
  unfold loadsOut
  simp [List.any_eq_true, and_assoc]

section
variable {s : State} {sc : Scope}

theorem exec_fence_acq : exec (.fence sc .acq) s =
    .next (if loadsOut s s.issue.gid then stall (memClass s) else acquireAt (memClass s) s.issue.pre.core sc) := rfl
theorem exec_fence_ar_held {h : Hold} (hh : findHold (memClass s) [0] = some h) : exec (.fence sc .ar) s =
    .next (if h.waitFor.all (performed s) then acquireAt (memClass s) s.issue.pre.core sc else stall (memClass s)) := by
  show execFence sc .ar s = _
  unfold execFence
  simp only [hh]
  rfl
theorem exec_fence_ar_first (hh : findHold (memClass s) [0] = none) : exec (.fence sc .ar) s =
    .next (if loadsOut s s.issue.gid then stall (memClass s)
      else if (allBound s s.issue.gid).isEmpty then acquireAt (memClass s) s.issue.pre.core sc
      else holdWord (memClass s) [0] { pos := {}, word := 0, ops := [], waitFor := allBound s s.issue.gid, phase2 := true }) := by
  show execFence sc .ar s = _
  unfold execFence
  simp only [hh]
  rfl
/-- A FENCE that waits holds the issue group (R28, R223). -/
theorem fence_waits {ord : Order} (h : exec (.fence sc ord) s = .next (stall (memClass s))) :
    Gives (.fence sc ord) s fun s t => t.issue.verdict = .stalled ∧ OnlyIssue s t ∧ t.issue.cur.v = s.issue.pre.v ∧
      t.issue.cur.k = s.issue.pre.k ∧ t.issue.cur.fenceAfter = s.issue.pre.fenceAfter :=
  ⟨_, h, stall_spec (memClass_sameIssue s)⟩

/-- What PROMOTE does with its first active lane's victim (R224). -/
def promoteTo (s : State) (sc : Scope) (v : Nat) : State :=
  if 576 ≤ v || !(part s (partOf s s.issue.pre)).dies.getLsbD (v / 24) then raiseB (memClass s) 6 0x1A v
  else match findHold s [4, v, sc.code] with
    | some h => if h.res.isSome then memClass s else stall (memClass s)
    | none => holdWord (send (memClass s) s.issue.pre.core none (.core v) (.promote s.issue.gid v)) [4, v, sc.code]
        { pos := {}, word := 0, ops := [], waitFor := [s.nextId] }
theorem exec_promote_none {data : Opnd} (hr : RegsOk s (opndRegs s.issue.pre data) [data]) (hl : activeLanes s.issue.pre = []) :
    exec (.promote sc data) s = .next (memClass s) := by
  show execPromote sc data s = _
  unfold execPromote
  dsimp only
  rw [withRegs_ok hr, hl]
  rfl
theorem exec_promote_lane {data : Opnd} {l : Nat} {rest : List Nat} (hr : RegsOk s (opndRegs s.issue.pre data) [data])
    (hl : activeLanes s.issue.pre = l :: rest) :
    exec (.promote sc data) s = .next (promoteTo s sc ((opv s.issue.pre data l).toNat % 1024)) := by
  show execPromote sc data s = _
  unfold execPromote
  dsimp only
  rw [withRegs_ok hr, hl]
  rfl
/-- A victim that is no core of the partition raises illegal-promote (R224). -/
theorem promoteTo_bad {v entry : Nat} (hc : CanTrap s entry)
    (h : 576 ≤ v ∨ (part s (partOf s s.issue.pre)).dies.getLsbD (v / 24) = false) :
    TrapTaken s.issue.pre 0x1A (einfoB v 0 0 s.issue.word) s.issue.pos entry (promoteTo s sc v) ∧ OnlyIssue s (promoteTo s sc v) := by
  have hp : promoteTo s sc v = raiseB (memClass s) 6 0x1A v := by
    unfold promoteTo
    rw [if_pos]
    rcases h with h | h <;> simp [h]
  rw [hp]
  have hc' : CanTrap (memClass s) entry := hc
  obtain ⟨ht, ho, -⟩ := raiseAt_spec (memClass s) 6 0x1A (einfoB v 0 0 s.issue.word) s.issue.pos entry hc'
  exact ⟨ht, ho⟩
theorem promoteTo_ok {v : Nat} (h1 : v < 576) (h2 : (part s (partOf s s.issue.pre)).dies.getLsbD (v / 24) = true) :
    (findHold s [4, v, sc.code] = none →
      let t := promoteTo s sc v
      t.issue.verdict = .stalled ∧ t.issue.cur.v = s.issue.pre.v ∧ t.issue.cur.k = s.issue.pre.k ∧
      ∃ m ∈ t.net, m.home = .core v ∧ m.body = .promote s.issue.gid v ∧ ∃ h ∈ t.issue.cur.hold, h.ops = [4, v, sc.code] ∧ h.res = none ∧
        h.waitFor = [m.id]) ∧
    ∀ h, findHold s [4, v, sc.code] = some h →
      promoteTo s sc v = if h.res.isSome then memClass s else stall (memClass s) := by
  have hcond : (decide (576 ≤ v) || !(part s (partOf s s.issue.pre)).dies.getLsbD (v / 24)) = false := by
    rw [h2]; simp; omega
  refine ⟨fun hn => ?_, fun h hh => ?_⟩
  · have hp : promoteTo s sc v = holdWord (send (memClass s) s.issue.pre.core none (.core v) (.promote s.issue.gid v)) [4, v, sc.code]
        { pos := {}, word := 0, ops := [], waitFor := [s.nextId] } := by
      unfold promoteTo
      rw [hcond, hn]
      rfl
    rw [hp]
    refine ⟨rfl, rfl, rfl, _, List.mem_append_right _ (List.mem_singleton.2 rfl), rfl, rfl, _, holdWord_hold .., rfl, rfl, rfl⟩
  · unfold promoteTo
    rw [hcond, hh]
    rfl
end

/-- Settles O26. -/
theorem fencesAndPromote : Obligations.FencesAndPromote := by
  refine ⟨acquireAt_spec, fun s c gid home body hb hg => send_after c home body hb hg, fun s m bytes bad op ha hm _ hu hw => ?_, ?_⟩
  · exact congrArg _ (onMessage_waiting ha hm hu (arrived_of_waiting hw))
  intro s sc data g gid waits
  refine ⟨rfl, rfl, loadsOut_iff s gid, fun hl => ⟨fence_waits ?_, fun hh => fence_waits ?_⟩, fun hl => ?_, fun hh hl hb => ?_,
    fun hh hl hb => ?_, fun h hh => ⟨fun hp => ?_, fun hp => fence_waits ?_⟩, fun hn hr => exec_promote_none hr hn,
    fun l rest v hr hl hv => ?_⟩
  · rw [exec_fence_acq, if_pos hl]
  · rw [exec_fence_ar_first hh, if_pos hl]
  · rw [exec_fence_acq, if_neg (by simp [gid] at hl; simp [hl])]
  · rw [exec_fence_ar_first hh, if_neg (by simp [gid] at hl; simp [hl]), if_pos (by simp [gid] at hb; simp [hb])]
  · refine ⟨holdWord (memClass s) [0] { pos := {}, word := 0, ops := [], waitFor := allBound s gid, phase2 := true },
      (exec_fence_ar_first hh).trans ?_, ?_⟩
    · rw [if_neg (by simp [gid] at hl; simp [hl]), if_neg (by simpa [gid] using hb)]
    · obtain ⟨hv, hm, hn⟩ := holdWord_kept (memClass s) [0] { pos := {}, word := 0, ops := [], waitFor := allBound s gid, phase2 := true }
      obtain ⟨hm0, hn0⟩ := memClass_kept s
      exact ⟨hv, hm.trans hm0, congrArg List.length (hn.trans hn0), _, holdWord_hold .., rfl⟩
  · rw [exec_fence_ar_held hh, if_pos hp]
  · rw [exec_fence_ar_held hh, if_neg (by simp [hp])]
  · have hexec : exec (.promote sc data) s = .next (promoteTo s sc v) := hv ▸ exec_promote_lane hr hl
    refine ⟨fun entry hc hbad => ⟨_, hexec, promoteTo_bad hc hbad⟩, fun h1 h2 => ?_⟩
    obtain ⟨hask, hheld⟩ := promoteTo_ok (sc := sc) h1 h2
    refine ⟨fun hn => ⟨_, hexec, hask hn⟩, fun h hh => ⟨fun hres => ⟨_, hexec, ?_⟩, fun hres => ?_⟩⟩
    · rw [hheld h hh, if_neg (by simp [hres])]
      obtain ⟨h1, h2, -⟩ := stall_spec (memClass_sameIssue s)
      exact ⟨h1, h2⟩
    · rw [hexec, hheld h hh, if_pos hres]

end Sys2Proof.Machine
end

section
/-! PROOFS. Groups that stop together, and the kill of a gang (R347, R351, R353 to R355, R357). -/

namespace Sys2Proof.Machine

/-! ## Groups that stop (R351) -/

theorem mem_mput {α : Type} {m : Map α} {k : Nat} {x : α} {e : Nat × α} (h : e ∈ mput m k x) : e = (k, x) ∨ e ∈ m := by
  induction m with
  | nil => exact .inl (List.mem_singleton.1 h)
  | cons a t ih =>
    obtain ⟨j, y⟩ := a
    unfold mput at h
    split at h
    · exact List.mem_cons.1 h
    · split at h
      · rcases List.mem_cons.1 h with h | h
        · exact .inl h
        · exact .inr (List.mem_cons_of_mem _ h)
      · rcases List.mem_cons.1 h with h | h
        · exact .inr (h ▸ List.mem_cons_self ..)
        · exact (ih h).imp id (List.mem_cons_of_mem _)

/-- What the operations of a group still answer is discarded. -/
def Discarded (s : State) (k : Nat) : Prop := ∀ o ∈ s.ops, o.2.gid = k → o.2.discard = true
theorem Discarded.opParts {s : State} {k : Nat} (h : Discarded s k) (id n : Nat) : Discarded (opParts s id n) k := by
  intro o ho hk
  unfold Sys2Proof.Machine.opParts modOp at ho
  cases hm : mget s.ops id with
  | none => rw [hm] at ho; exact h o ho hk
  | some x =>
    rw [hm] at ho
    rcases mem_mput ho with rfl | ho
    · exact h (id, x) (mem_of_mget hm) hk
    · exact h o ho hk
theorem Discarded.dropTours {α : Type} {s : State} {k : Nat} (op n : α → Nat) (l : List α) (h : Discarded s k) :
    Discarded (l.foldl (fun s t => Sys2Proof.Machine.opParts s (op t) (n t)) s) k := by
  induction l generalizing s with
  | nil => exact h
  | cons t l ih => exact ih (h.opParts _ _)
/-- To discard what some groups' operations answer takes no discard back. -/
theorem Discarded.discard {s : State} {k : Nat} (c : Op → Bool) (h : Discarded s k) :
    Discarded { s with ops := mmap s.ops fun _ o => if c o then { o with discard := true } else o } k := by
  intro o ho hk
  obtain ⟨p, hp, rfl⟩ := List.mem_map.1 ho
  dsimp only at hk ⊢
  split
  · rfl
  case isFalse hc => rw [if_neg hc] at hk; exact h p hp hk

/-- The groups of a list have stopped: those that had not ended drain, and nothing else of the others has changed. -/
structure Stops (s t : State) (l : List Nat) : Prop where
  frame : ∃ gs os ws cs, t = { s with groups := gs, ops := os, walks := ws, cores := cs }
  rises : rising none s.groups = true → rising none t.groups = true
  l1 : ∀ c, (core t c).l1 = (core s c).l1
  others : ∀ k, k ∉ l → mget t.groups k = mget s.groups k
  drains : ∀ k ∈ l, ∀ h, mget s.groups k = some h → h.status ≠ .ended →
    ∃ h', mget t.groups k = some h' ∧ h'.status = .waiting .drain ∧ h'.v = h.v ∧ h'.k = h.k
  keeps : ∀ k, Discarded s k → Discarded t k
  discards : ∀ k ∈ l, (mget s.groups k).isSome → Discarded t k

theorem Stops.refl (s : State) : Stops s s [] :=
  ⟨⟨_, _, _, _, rfl⟩, id, fun _ => rfl, fun _ _ => rfl, fun _ h => absurd h (by simp), fun _ => id, fun _ h => absurd h (by simp)⟩
theorem Stops.trans {s t u : State} {l l' : List Nat} (h : Stops s t l) (h' : Stops t u l') : Stops s u (l ++ l') where
  frame := by
    obtain ⟨_, _, _, _, hf⟩ := h.frame
    obtain ⟨_, _, _, _, hf'⟩ := h'.frame
    exact ⟨_, _, _, _, by rw [hf', hf]⟩
  rises := h'.rises ∘ h.rises
  l1 c := (h'.l1 c).trans (h.l1 c)
  others k hk := by
    rw [List.mem_append, not_or] at hk
    rw [h'.others k hk.2, h.others k hk.1]
  drains k hk x hx hs := by
    by_cases hl : k ∈ l
    · obtain ⟨y, hy, hys, hyv, hyk⟩ := h.drains k hl x hx hs
      by_cases hl' : k ∈ l'
      · obtain ⟨z, hz, hzs, hzv, hzk⟩ := h'.drains k hl' y hy (by rw [hys]; exact nofun)
        exact ⟨z, hz, hzs, hzv.trans hyv, hzk.trans hyk⟩
      · exact ⟨y, by rw [h'.others k hl', hy], hys, hyv, hyk⟩
    · exact h'.drains k ((List.mem_append.1 hk).resolve_left hl) x (by rw [h.others k hl, hx]) hs
  keeps k := h'.keeps k ∘ h.keeps k
  discards k hk hs := by
    by_cases hl : k ∈ l
    · exact h'.keeps k (h.discards k hl hs)
    · exact h'.discards k ((List.mem_append.1 hk).resolve_left hl) (by rw [h.others k hl]; exact hs)

theorem core_modSlot_l1 (s : State) (c i : Nat) (f : Slot → Slot) (d : Nat) : (core (modSlot s c i f) d).l1 = (core s d).l1 := by
  unfold modSlot
  rw [core_modCore]
  split
  · subst_vars; rfl
  · rfl
theorem Discarded.toursDropped {s : State} {k : Nat} (drop : Bool) (g : Group) (h : Discarded s k) :
    Discarded (Sys2Proof.Machine.toursDropped drop s g) k := by
  unfold Sys2Proof.Machine.toursDropped
  split
  · exact Discarded.dropTours (fun t : Nat × TourSlot => t.2.op) (fun t => (dropParked t.2).2) _ h
  · exact h
theorem stopped_drains (drop : Bool) {g : Group} (h : g.status ≠ .ended) : (stopped drop g).status = .waiting .drain := by
  unfold stopped
  dsimp only
  split
  case h_1 he => exact absurd he h
  · rfl
theorem stopGroup_stops (drop : Bool) (s : State) (gid : Nat) : Stops s (stopGroup drop s gid) [gid] := by
  cases hm : mget s.groups gid with
  | none =>
    rw [stopGroup_none hm]
    refine ⟨⟨_, _, _, _, rfl⟩, id, fun _ => rfl, fun _ _ => rfl, fun k hk h hh => ?_, fun _ => id, fun k hk hs => ?_⟩
    · rw [List.mem_singleton.1 hk, hm] at hh; exact absurd hh (by simp)
    · rw [List.mem_singleton.1 hk, hm] at hs; exact absurd hs (by simp)
  | some g =>
    obtain ⟨os, hd⟩ := toursDropped_frame drop s g
    have hgroups : (stopGroup drop s gid).groups = mput s.groups gid (stopped drop g) := by rw [stopGroup_some hm, hd]; rfl
    have hops : (stopGroup drop s gid).ops =
        mmap (toursDropped drop s g).ops fun _ o => if o.gid = gid then { o with discard := true } else o := by
      rw [stopGroup_some hm]; rfl
    refine ⟨stopGroup_frame drop s gid, fun hr => ?_, fun c => ?_, fun k hk => ?_, fun k hk h hh hs => ?_, fun k hk => ?_, fun k hk _ => ?_⟩
    · rw [hgroups]; exact rising_mput _ _ _ _ (by simp) hr
    · rw [stopGroup_some hm, hd]
      exact core_modSlot_l1 ..
    · rw [hgroups, mget_mput_other _ _ _ _ (by simpa using hk)]
    · obtain rfl := List.mem_singleton.1 hk
      obtain rfl : g = h := Option.some.inj (hm.symm.trans hh)
      exact ⟨_, by rw [hgroups, mget_mput_same], stopped_drains drop hs, rfl, rfl⟩
    · intro o ho
      rw [hops] at ho
      exact (hk.toursDropped drop g).discard (fun o => o.gid = gid) o (by simpa using ho)
    · obtain rfl := List.mem_singleton.1 hk
      intro o ho ho'
      rw [hops] at ho
      obtain ⟨p, hp, rfl⟩ := List.mem_map.1 ho
      dsimp only at ho' ⊢
      split
      · rfl
      case isFalse hc => rw [if_neg hc] at ho'; exact absurd ho' hc
theorem stopGroups_stops (drop : Bool) (l : List Nat) (s : State) : Stops s (l.foldl (stopGroup drop) s) l := by
  induction l generalizing s with
  | nil => exact .refl s
  | cons k l ih => exact (stopGroup_stops drop s k).trans (ih _)
/-- The groups of teams stop. -/
theorem stopTeams_stops (drop : Bool) (l : List Nat) (s : State) :
    Stops s (l.foldl (fun s t => (teamGroups s t).foldl (stopGroup drop) s) s) (l.flatMap (teamGroups s)) := by
  induction l generalizing s with
  | nil => exact .refl s
  | cons t l ih =>
    have hone := stopGroups_stops drop (teamGroups s t) s
    obtain ⟨_, _, _, _, hf⟩ := hone.frame
    have hteams : teamGroups ((teamGroups s t).foldl (stopGroup drop) s) = teamGroups s := by rw [hf]; rfl
    have hrest := ih ((teamGroups s t).foldl (stopGroup drop) s)
    rw [hteams] at hrest
    exact hone.trans hrest

/-- The groups of a gang that lie in a saved context stop there: the operations and the saved contexts alone change. -/
theorem stopSavedGang_spec (s : State) (gr gang size : Nat) : (∃ os sv, stopSavedGang s gr gang size = { s with ops := os, saved := sv }) ∧
    ∀ k, Discarded s k → Discarded (stopSavedGang s gr gang size) k := by
  unfold stopSavedGang
  dsimp only
  generalize List.flatMap _ _ = gs
  have hfold (l : List (Nat × Group)) (u : State) :
      (∃ os, l.foldl (fun s g => g.2.tours.foldl (fun s t => opParts s t.2.op (dropParked t.2).2) s) u = { u with ops := os }) ∧
        ∀ k, Discarded u k →
          Discarded (l.foldl (fun s g => g.2.tours.foldl (fun s t => opParts s t.2.op (dropParked t.2).2) s) u) k := by
    induction l generalizing u with
    | nil => exact ⟨⟨_, rfl⟩, fun _ => id⟩
    | cons g l ih =>
      obtain ⟨os, hf⟩ := dropTours_frame (fun t : Nat × TourSlot => t.2.op) (fun t => (dropParked t.2).2) g.2.tours u
      obtain ⟨⟨os', hf'⟩, hk⟩ := ih (g.2.tours.foldl (fun s t => opParts s t.2.op (dropParked t.2).2) u)
      exact ⟨⟨os', by rw [List.foldl_cons, hf', hf]⟩, fun k h =>
        hk k (h.dropTours (fun t : Nat × TourSlot => t.2.op) (fun t => (dropParked t.2).2) _)⟩
  obtain ⟨⟨os, hf⟩, hk⟩ := hfold gs s
  refine ⟨⟨_, _, by rw [hf]⟩, fun k h => ?_⟩
  exact (hk k h).discard fun o => gs.any fun g => g.1 = o.gid

end Sys2Proof.Machine
end

section
/-! PROOFS. The kill of a gang with its records (R347, R351, R353 to R355, R357). -/

namespace Sys2Proof.Machine

/-! ## The kill of a gang -/

/-- A record of a kill; of the codes that have no EINFO the address is 0 (assumption 47). -/
def killRecord (s : State) (g : Group) (pos : Pos) (code : Byte) (check : Nat) (c : Byte) (cls : Nat) : BitVec 512 :=
  groupRecord s g c.toNat cls (posWord pos).toNat (if code = 0x42 then check else 0) 0
/-- The core of a lasting fault is removed, with its two records (R354). -/
def coreLost (s : State) (p k : Nat) (a b : BitVec 512) (c : Nat) : State :=
  let t := pushRecord s p true a (some k)
  pushRecord { t with removed := insertNat t.removed c } p true b (some k)
/-- One memory-side word is consumed again (R355). -/
def killsAgain (last : LaunchRec) (code : Byte) (check : Nat) (mem : Bool) : Bool := match last.last with
  | some (c, k, _, m) => c = code && k = check && m && mem
  | none => false
/-- The code and check of the last kill, on its core or after that kill removed its core (R354, R357). -/
def killLasts (last : LaunchRec) (code : Byte) (check core : Nat) : Bool := match last.last with
  | some (c, k, d, _) => c = code && k = check && (d = core || last.took)
  | none => false
/-- The groups of a gang stop, those in a saved context with them (R351). -/
def gangStopped (s : State) (k n size : Nat) : State :=
  stopSavedGang (((gridTeams s k).filter fun t => (team s t).index / size = n && (team s t).node.isNone).foldl
    (fun s t => (teamGroups s t).foldl (stopGroup true) s) s) k n size

section
variable {s : State} {gid : Nat} {g : Group} {x : Team} {gr : Grid} {code : Byte} {check : Nat} {mem : Bool}

/-- The kill of a group's gang where its grid runs, case by case. -/
theorem killGang_running (hg : mget s.groups gid = some g) (hx : mget s.teams g.team = some x) (hgr : mget s.grids x.grid = some gr)
    (hrun : gr.ending = .running) {pos : Pos} (hpos : (if s.issue.gid = gid then s.issue.pos else g.pc) = pos) {last : LaunchRec}
    (hlast : (mget gr.recs (x.index / gr.gang)).getD {} = last) :
    let rec_ := killRecord s g pos code check
    let lost (u : State) : State := if killLasts last code check g.core then coreLost u gr.part x.grid (rec_ code 4) (rec_ code 5) g.core else u
    killGang s gid code check mem =
      if x.node.isSome then abortGrid s x.grid code (rec_ code 1)
      else if last.draining then s
      else if !gr.relaunch then modGrid (abortGrid s x.grid code (rec_ code 1)) x.grid
        fun y => { y with recs := mput y.recs (x.index / gr.gang) { last with draining := true } }
      else if killsAgain last code check mem then abortGrid s x.grid 0x42 (rec_ 0x42 1)
      else if 4 ≤ last.attempt then abortGrid (lost s) x.grid 0x46 (rec_ 0x46 1)
      else gangStopped (modGrid (lost (pushRecord s gr.part true (rec_ code 2) (some x.grid))) x.grid fun y => { y with
        recs := mput y.recs (x.index / gr.gang) { last with
          attempt := last.attempt + 1, last := some (code, check, g.core, mem), took := killLasts last code check g.core
          kills := last.kills ++ [rec_ code 2], draining := true } }) x.grid (x.index / gr.gang) gr.gang := by
  have hga : grpAny s gid = g := by unfold grpAny; rw [hg]; rfl
  subst hpos hlast
  unfold killGang
  simp only [hga, teamAny_of_mget hx, grid_of_mget hgr, hrun, Bool.false_eq_true, if_false, Bool.false_or]
  rfl
end

theorem mem_insertNat (l : List Nat) (k : Nat) : k ∈ insertNat l k := by
  induction l with
  | nil => exact List.mem_singleton.2 rfl
  | cons j t ih =>
    unfold insertNat
    split
    · exact List.mem_cons_self ..
    · split
      · subst_vars; exact List.mem_cons_self ..
      · exact List.mem_cons_of_mem _ ih
theorem coreLost_spec {s : State} {p k c : Nat} {gr : Grid} (a b : BitVec 512) (h : mget s.grids k = some gr) :
    let t := coreLost s p k a b c
    (∃ grs ps, t = { s with grids := grs, parts := ps, removed := insertNat s.removed c }) ∧
      mget t.grids k = some { gr with logHeld := true } ∧
      (part t p).eheld = (part s p).eheld ++ [(a, some k), (b, some k)] := by
  obtain ⟨hg, hl⟩ := pushRecord_grid (p := p) a h
  obtain ⟨grs, ps, hf⟩ := pushRecord_frame s p true a (some k)
  let u := { pushRecord s p true a (some k) with removed := insertNat (pushRecord s p true a (some k)).removed c }
  obtain ⟨hg', hl'⟩ := pushRecord_grid (s := u) (p := p) b hg
  obtain ⟨grs', ps', hf'⟩ := pushRecord_frame u p true b (some k)
  have hu : u = { s with grids := grs, parts := ps, removed := insertNat s.removed c } := by simp only [u, hf]
  refine ⟨⟨grs', ps', hf'.trans (by rw [hu])⟩, hg', hl'.trans ?_⟩
  show (part (pushRecord s p true a (some k)) p).eheld ++ _ = _
  rw [hl, List.append_assoc]
  rfl

/-- The gang of a team has stopped, and nothing else of the other groups has changed (R351). -/
theorem gangStopped_spec (s : State) (k n size : Nat) (hr : rising none s.teams = true) :
    let t := gangStopped s k n size
    let mine (i : Nat) : Prop := ∃ y ∈ s.teams, y.2.grid = k ∧ y.2.node = none ∧ y.2.index / size = n ∧ i ∈ y.2.groups
    (∃ gs os ws cs sv, t = { s with groups := gs, ops := os, walks := ws, cores := cs, saved := sv }) ∧
      (rising none s.groups = true → rising none t.groups = true) ∧ (∀ c, (core t c).l1 = (core s c).l1) ∧
      ∀ i h, mget s.groups i = some h →
        (mine i → h.status ≠ .ended → (grp t i).status = .waiting .drain ∧ (grp t i).v = h.v ∧ (grp t i).k = h.k ∧ Discarded t i) ∧
        (¬mine i → mget t.groups i = some h) := by
  intro t mine
  let ts := (gridTeams s k).filter fun t => (team s t).index / size = n && (team s t).node.isNone
  let u := ts.foldl (fun s t => (teamGroups s t).foldl (stopGroup true) s) s
  have hstops : Stops s u (ts.flatMap (teamGroups s)) := stopTeams_stops true ts s
  obtain ⟨⟨os', sv, hsaved⟩, hkeeps⟩ := stopSavedGang_spec u k n size
  have hsaved : t = { u with ops := os', saved := sv } := hsaved
  obtain ⟨gs, os, ws, cs, hf⟩ := hstops.frame
  have hgroups : t.groups = u.groups := by rw [hsaved]
  have hmine (i : Nat) : i ∈ ts.flatMap (teamGroups s) ↔ mine i := by
    simp only [ts, gridTeams, List.mem_flatMap, List.mem_filter, List.mem_map, decide_eq_true_eq, Bool.and_eq_true]
    constructor
    · rintro ⟨j, ⟨⟨y, ⟨hy, hyk⟩, rfl⟩, hn, hnode⟩, hi⟩
      rw [team_of_mget (mget_of_mem hr hy)] at hn hnode
      unfold teamGroups at hi
      rw [team_of_mget (mget_of_mem hr hy)] at hi
      exact ⟨y, hy, hyk, by simpa using hnode, hn, hi⟩
    · rintro ⟨y, hy, hyk, hnode, hn, hi⟩
      refine ⟨y.1, ⟨⟨y, ⟨hy, hyk⟩, rfl⟩, ?_⟩, ?_⟩
      · rw [team_of_mget (mget_of_mem hr hy)]
        exact ⟨hn, by simp [hnode]⟩
      · unfold teamGroups
        rwa [team_of_mget (mget_of_mem hr hy)]
  refine ⟨⟨gs, os', ws, cs, sv, hsaved.trans (by rw [hf])⟩, fun h => hgroups ▸ hstops.rises h,
    fun c => Eq.trans (by rw [hsaved]; rfl) (hstops.l1 c), fun i h hi => ⟨fun hm hs => ?_, fun hm => ?_⟩⟩
  · obtain ⟨y, hy, hys, hyv, hyk⟩ := hstops.drains i ((hmine i).2 hm) h hi hs
    have hyt : grp t i = y := grp_of_mget (hgroups ▸ hy)
    rw [hyt]
    exact ⟨hys, hyv, hyk, hkeeps i (hstops.discards i ((hmine i).2 hm) (by rw [hi]; rfl))⟩
  · rw [hgroups, hstops.others i (mt (hmine i).1 hm), hi]

/-! ## The keys of the groups still rise after a kill -/

theorem pushRecord_groups (s : State) (p : Nat) (e : Bool) (r : BitVec 512) (w : Option Nat) : (pushRecord s p e r w).groups = s.groups := by
  obtain ⟨gs, ps, hf⟩ := pushRecord_frame s p e r w
  rw [hf]
theorem modGrid_groups (s : State) (k : Nat) (f : Grid → Grid) : (modGrid s k f).groups = s.groups := by
  rw [modGrid_frame]
theorem abortGrid_rises (s : State) (k : Nat) (code : Byte) (r : BitVec 512) (h : rising none s.groups = true) :
    rising none (abortGrid s k code r).groups = true := by
  unfold abortGrid
  split
  · exact h
  · split
    · rwa [pushRecord_groups]
    · exact h
  · refine (stopTeams_stops _ _ _).rises ?_
    dsimp only
    rwa [modGrid_groups, pushRecord_groups]
theorem gangStopped_rises (s : State) (k n size : Nat) (h : rising none s.groups = true) :
    rising none (gangStopped s k n size).groups = true := by
  unfold gangStopped
  obtain ⟨⟨os, sv, hf⟩, -⟩ := stopSavedGang_spec (((gridTeams s k).filter fun t => (team s t).index / size = n &&
    (team s t).node.isNone).foldl (fun s t => (teamGroups s t).foldl (stopGroup true) s) s) k n size
  rw [hf]
  exact (stopTeams_stops _ _ _).rises h
theorem rises_ite {c : Prop} [Decidable c] {a b : State} (ha : rising none a.groups = true) (hb : rising none b.groups = true) :
    rising none (if c then a else b).groups = true := by
  split
  · exact ha
  · exact hb
theorem killGang_rises (s : State) (gid : Nat) (code : Byte) (check : Nat) (mem : Bool) (h : rising none s.groups = true) :
    rising none (killGang s gid code check mem).groups = true := by
  unfold killGang
  dsimp only
  refine rises_ite (rises_ite h (abortGrid_rises _ _ _ _ h)) (rises_ite h (rises_ite ?_ (rises_ite (abortGrid_rises _ _ _ _ h)
    (rises_ite (abortGrid_rises _ _ _ _ ?_) (gangStopped_rises _ _ _ _ ?_)))))
  · rw [modGrid_groups]
    exact abortGrid_rises _ _ _ _ h
  · refine rises_ite ?_ h
    rw [pushRecord_groups]
    dsimp only
    rwa [pushRecord_groups]
  · rw [modGrid_groups]
    refine rises_ite ?_ ?_
    · rw [pushRecord_groups]
      dsimp only
      rwa [pushRecord_groups, pushRecord_groups]
    · rwa [pushRecord_groups]

end Sys2Proof.Machine
end

section
/-! PROOFS. What a kill leaves, and the commit of an issue group (R27, R28, R32, R347 to R357). -/

namespace Sys2Proof.Machine

section
variable {s : State} {gid : Nat} {g : Group} {x : Team} {gr : Grid} {code : Byte} {check : Nat} {mem : Bool}

/-! ## Records and aborts of a kill -/

theorem killRecord_is {pos : Pos} (hx : mget s.teams g.team = some x) (hgr : mget s.grids x.grid = some gr) (hfit : RecordFits s g x gr)
    (hcheck : check < 2 ^ 64) (hpos : (if s.issue.gid = gid then s.issue.pos else g.pc) = pos) (c : Byte) {cls : Nat} (hcls : cls < 2 ^ 8) :
    RecordIs s g x gr (killRecord s g pos code check c cls) c.toNat cls (4 * pos.pkt + pos.word) (if code = 0x42 then check else 0) 0 := by
  obtain ⟨-, -, -, -, -, -, -, -, h1, h2, h3, h4⟩ := id hfit
  have hp : pos.pkt < 2 ^ 61 ∧ pos.word < 4 := by
    rw [← hpos]
    split
    · exact ⟨h1, h2⟩
    · exact ⟨h3, h4⟩
  have hnum : (posWord pos).toNat = 4 * pos.pkt + pos.word := by rw [posWord_toNat hp.1 hp.2, Nat.mul_comm]
  unfold killRecord
  rw [hnum]
  refine groupRecord_is hx hgr hfit c.isLt hcls (by omega) ?_ (by omega)
  split
  · exact hcheck
  · omega
/-- The grid that is aborted, and its one record (R340, R344). -/
theorem abortGrid_aborts {k : Nat} (h : mget s.grids k = some gr) (hrun : gr.ending = .running) (c : Byte) (r : BitVec 512) :
    let t := abortGrid s k c r
    ((grid t k).ending = .aborting c ∧ (grid t k).chunks = [] ∧ t.mem = s.mem) ∧
      (part t gr.part).eheld = (part s gr.part).eheld ++ [(r, some k)] := by
  obtain ⟨⟨_, _, _, _, _, _, _, hf⟩, hgrid, hlog⟩ := abortGrid_running c r h hrun
  intro t
  rw [show grid t k = _ from grid_of_mget hgrid]
  exact ⟨⟨rfl, rfl, by rw [show t = _ from hf]⟩, hlog⟩
/-- A note in a grid's launch records leaves its end and the logs as they are. -/
theorem modGrid_recs {t : State} {k : Nat} (f : Grid → Map LaunchRec) :
    let u := modGrid t k fun y => { y with recs := f y }
    (grid u k).ending = (grid t k).ending ∧ (grid u k).chunks = (grid t k).chunks ∧ u.mem = t.mem ∧ ∀ p, part u p = part t p := by
  unfold modGrid
  dsimp only
  cases hm : mget t.grids k with
  | none => exact ⟨rfl, rfl, rfl, fun _ => rfl⟩
  | some y =>
    unfold grid
    simp only [mget_mput_same, hm, Option.getD_some]
    exact ⟨trivial, trivial, trivial, fun _ => rfl⟩

theorem killsAgain_iff (last : LaunchRec) : killsAgain last code check mem = true ↔ mem = true ∧ ∃ k, last.last = some (code, check, k, true) := by
  unfold killsAgain
  rcases last.last with _ | ⟨c, k, d, m⟩
  · simp
  · cases m <;> simp [and_comm]
theorem killLasts_iff (last : LaunchRec) (core : Nat) : killLasts last code check core = true ↔
    ∃ k m, last.last = some (code, check, k, m) ∧ (k = core ∨ last.took = true) := by
  unfold killLasts
  rcases last.last with _ | ⟨c, k, d, m⟩
  · simp
  · simp only [Bool.and_eq_true, Bool.or_eq_true, decide_eq_true_eq, Option.some.injEq, Prod.mk.injEq]
    constructor
    · rintro ⟨⟨rfl, rfl⟩, h⟩
      exact ⟨_, _, ⟨rfl, rfl, rfl, rfl⟩, h⟩
    · rintro ⟨k', m', ⟨rfl, rfl, rfl, rfl⟩, h⟩
      exact ⟨⟨rfl, rfl⟩, h⟩

/-- The core of a lasting fault is lost before the record that aborts a grid (R353, R354). -/
theorem lost_aborts {k c : Nat} (h : mget s.grids k = some gr) (hrun : gr.ending = .running) (a b r : BitVec 512) (code : Byte) :
    let t := abortGrid (coreLost s gr.part k a b c) k code r
    ((grid t k).ending = .aborting code ∧ (grid t k).chunks = [] ∧ t.mem = s.mem) ∧ c ∈ t.removed ∧
      (part t gr.part).eheld = (part s gr.part).eheld ++ [(a, some k), (b, some k), (r, some k)] := by
  intro t
  obtain ⟨⟨grs, ps, hf⟩, hg, hl⟩ := coreLost_spec (c := c) (p := gr.part) a b h
  obtain ⟨⟨he, hc, hm⟩, hlog⟩ := abortGrid_aborts hg hrun code r
  obtain ⟨_, _, _, _, _, _, _, hf'⟩ := abortGrid_frame (coreLost s gr.part k a b c) k code r
  refine ⟨⟨he, hc, hm.trans (by rw [hf])⟩, ?_, hlog.trans ?_⟩
  · rw [show t = _ from hf', hf]
    exact mem_insertNat ..
  · show (part (coreLost s gr.part k a b c) gr.part).eheld ++ _ = _
    rw [hl, List.append_assoc]
    rfl
/-- The record of a kill, and those of a core that its fault removes (R353, R354). -/
theorem killRecorded {k c : Nat} (h : mget s.grids k = some gr) (r a b : BitVec 512) (lasting : Bool) :
    let u := pushRecord s gr.part true r (some k)
    let t := if lasting then coreLost u gr.part k a b c else u
    (∃ grs ps rm, t = { s with grids := grs, parts := ps, removed := rm }) ∧ mget t.grids k = some { gr with logHeld := true } ∧
      (lasting = false → t.removed = s.removed ∧ (part t gr.part).eheld = (part s gr.part).eheld ++ [(r, some k)]) ∧
      (lasting = true → c ∈ t.removed ∧
        (part t gr.part).eheld = (part s gr.part).eheld ++ [(r, some k), (a, some k), (b, some k)]) := by
  intro u t
  obtain ⟨hg, hl⟩ := pushRecord_grid (p := gr.part) r h
  obtain ⟨grs, ps, hf⟩ := pushRecord_frame s gr.part true r (some k)
  cases lasting with
  | false => exact ⟨⟨grs, ps, _, hf⟩, hg, fun _ => ⟨by rw [show t = _ from hf], hl⟩, nofun⟩
  | true =>
    obtain ⟨⟨grs', ps', hf'⟩, hg', hl'⟩ := coreLost_spec (c := c) (p := gr.part) a b hg
    refine ⟨⟨grs', ps', _, hf'.trans (by rw [hf])⟩, hg', nofun, fun _ => ⟨?_, hl'.trans ?_⟩⟩
    · rw [show t = _ from hf']
      exact mem_insertNat ..
    · rw [hl, List.append_assoc]
      rfl

/-! ## A gang that is to be relaunched (R353) -/

/-- A gang that is to be relaunched: it stops, its launch record notes the kill, and nothing of other groups changes. -/
theorem relaunch_spec {n : Nat} (h : mget s.grids x.grid = some gr) (hrun : gr.ending = .running)
    (ht : rising none s.teams = true) (r a b : BitVec 512) (lasting : Bool) (noted : LaunchRec) (core' : Nat) :
    let u := pushRecord s gr.part true r (some x.grid)
    let v := if lasting then coreLost u gr.part x.grid a b core' else u
    let t := gangStopped (modGrid v x.grid fun y => { y with recs := mput y.recs n noted }) x.grid n gr.gang
    let mine (k : Nat) : Prop := ∃ y ∈ s.teams, y.2.grid = x.grid ∧ y.2.node = none ∧ y.2.index / gr.gang = n ∧ k ∈ y.2.groups
    t.mem = s.mem ∧ (∀ c, (core t c).l1 = (core s c).l1) ∧
      (lasting = false → t.removed = s.removed ∧ (part t gr.part).eheld = (part s gr.part).eheld ++ [(r, some x.grid)]) ∧
      (lasting = true → core' ∈ t.removed ∧
        (part t gr.part).eheld = (part s gr.part).eheld ++ [(r, some x.grid), (a, some x.grid), (b, some x.grid)]) ∧
      (grid t x.grid).ending = .running ∧ mget (grid t x.grid).recs n = some noted ∧
      ∀ k h, mget s.groups k = some h →
        (mine k → h.status ≠ .ended → (grp t k).status = .waiting .drain ∧ (grp t k).v = h.v ∧ (grp t k).k = h.k ∧ Discarded t k) ∧
        (¬mine k → mget t.groups k = some h) := by
  intro u v t mine
  obtain ⟨⟨grs, ps, rm, hv⟩, hg, hno, hyes⟩ := killRecorded (c := core') h r a b lasting
  let w := modGrid v x.grid fun y => { y with recs := mput y.recs n noted }
  have hwg : mget w.grids x.grid = some { gr with logHeld := true, recs := mput gr.recs n noted } := grid_modGrid_same _ hg
  have hw : w = { v with grids := w.grids } := modGrid_frame ..
  have hw' : w = { s with grids := w.grids, parts := ps, removed := rm } := hw.trans (by rw [show v = _ from hv])
  have hteams : w.teams = s.teams := by rw [hw']
  obtain ⟨⟨gs, os, ws, cs, sv, hf⟩, -, hl1, hgrps⟩ := gangStopped_spec w x.grid n gr.gang (by rw [hteams]; exact ht)
  have hf : t = { w with groups := gs, ops := os, walks := ws, cores := cs, saved := sv } := hf
  have hrm : t.removed = v.removed := by rw [hf, hw]
  have hpart : part t gr.part = part v gr.part := by rw [hf, hw]; rfl
  have hgt : grid t x.grid = { gr with logHeld := true, recs := mput gr.recs n noted } := by
    rw [hf]
    exact grid_of_mget hwg
  refine ⟨by rw [hf, hw'], fun c => (hl1 c).trans (by rw [hw']; rfl), fun hl => ?_, fun hl => ?_, ?_, ?_, fun k h hk => ?_⟩
  · rw [hrm, hpart]; exact hno hl
  · rw [hrm, hpart]; exact hyes hl
  · rw [hgt]; exact hrun
  · rw [hgt]; exact mget_mput_same ..
  · have hkw : mget w.groups k = some h := by rw [hw']; exact hk
    have := hgrps k h hkw
    rw [hteams] at this
    exact this

end

end Sys2Proof.Machine
end

section
/-! PROOFS. The commit of an issue group by its verdict (R27, R28, R32, R96, R103, R116, R117, R348). -/

namespace Sys2Proof.Machine

/-! ## What follows an issue group's commit -/

/-- A group's run has ended with what it had committed. -/
def RunEnded (s t : State) (gid : Nat) (c : Group) : Prop :=
  (grp t gid).y = {} ∧ (grp t gid).runPkts = 0 ∧ (slotOf (core t c.core) c.slot).coll = none ∧ t.mem = s.mem ∧ t.issue = {} ∧
  (grp t gid).pc = c.pc ∧ (grp t gid).sg = c.sg ∧ (grp t gid).v = c.v ∧ (grp t gid).k = c.k ∧ (grp t gid).c = c.c ∧
  (grp t gid).status8 = c.status8 ∧ (grp t gid).trap = c.trap ∧ (grp t gid).status = c.status
theorem endRunOf_ended {s u : State} {gid : Nat} {c : Group} (hr : rising none u.groups = true) (hm : u.mem = s.mem) (hi : u.issue = {})
    (hc : grp u gid = c) : RunEnded s (endRunOf u gid) gid c := by
  obtain ⟨⟨gs, cs, hf⟩, hcoll, p, hp⟩ := endRunOf_spec u gid hr
  rw [hc] at hcoll hp
  have hm' : (endRunOf u gid).mem = s.mem := by rw [hf]; exact hm
  have hi' : (endRunOf u gid).issue = {} := by rw [hf]; exact hi
  unfold RunEnded
  rw [hp]
  exact ⟨rfl, rfl, hcoll, hm', hi', rfl, rfl, rfl, rfl, rfl, rfl, rfl, rfl⟩
/-- What a kill did stands in a later state. -/
def KillStands (u t : State) (gid : Nat) : Prop :=
  t.grids = u.grids ∧ t.parts = u.parts ∧ t.ops = u.ops ∧ t.removed = u.removed ∧ t.mem = u.mem ∧
    ((grp u gid).status = .waiting .drain → (grp t gid).status = .waiting .drain)
theorem issueDone_stands (u : State) (gid : Nat) : KillStands u { u with issue := {} } gid := ⟨rfl, rfl, rfl, rfl, rfl, id⟩
theorem endRunOf_stands (u : State) (gid : Nat) (hr : rising none u.groups = true) :
    KillStands u (endRunOf { u with issue := {} } gid) gid := by
  obtain ⟨⟨gs, cs, hf⟩, -, p, hp⟩ := endRunOf_spec { u with issue := {} } gid hr
  refine ⟨by rw [hf], by rw [hf], by rw [hf], by rw [hf], by rw [hf], fun hs => ?_⟩
  rw [hp]
  exact hs

/-! ## Batches that close with their group (R96) -/

/-- Every operation of a group in a class is in a closed batch. -/
def ClosedIn (s : State) (gid : Nat) (c : EngineClass) : Prop := ∀ o ∈ s.ops, o.2.gid = gid → o.2.cls = c → o.2.batch.isSome
/-- A class of a group that has an open batch closes it. -/
def closeOpen (gid : Nat) (x : State × Group) (c : EngineClass) : State × Group :=
  if x.1.ops.any fun o => o.2.gid = gid && o.2.cls = c && o.2.batch.isNone then closeBatch x.1 gid x.2 c else x
theorem closeBatch_ops {s : State} {gid : Nat} {g : Group} {c : EngineClass} {e : Nat × Op} (h : e ∈ (closeBatch s gid g c).1.ops) :
    ∃ o ∈ s.ops, e.2.gid = o.2.gid ∧ e.2.cls = o.2.cls ∧ (o.2.batch.isSome → e.2.batch.isSome) ∧
      (o.2.gid = gid → o.2.cls = c → e.2.batch.isSome) := by
  obtain ⟨o, ho, rfl⟩ := List.mem_map.1 h
  refine ⟨o, ho, ?_⟩
  dsimp only
  split
  · exact ⟨rfl, rfl, fun _ => rfl, fun _ _ => rfl⟩
  case isFalse hn => exact ⟨rfl, rfl, id, fun h1 h2 => by simpa [h1, h2, Option.isSome_iff_ne_none] using hn⟩
theorem closeOpen_closes (gid : Nat) (x : State × Group) (c : EngineClass) : ClosedIn (closeOpen gid x c).1 gid c := by
  unfold closeOpen
  split
  · intro e he hg hc
    obtain ⟨o, -, hog, hoc, -, h⟩ := closeBatch_ops he
    exact h (hog ▸ hg) (hoc ▸ hc)
  case isFalse hn =>
    intro o ho hg hc
    by_contra hb
    exact hn (List.any_eq_true.2 ⟨o, ho, by simp [hg, hc, Option.not_isSome_iff_eq_none.1 hb]⟩)
theorem closeOpen_keeps {gid : Nat} {x : State × Group} (c d : EngineClass) (h : ClosedIn x.1 gid d) :
    ClosedIn (closeOpen gid x c).1 gid d := by
  unfold closeOpen
  split
  · intro e he hg hc
    obtain ⟨o, ho, hog, hoc, hb, -⟩ := closeBatch_ops he
    exact hb (h o ho (hog ▸ hg) (hoc ▸ hc))
  · exact h
theorem closeOpen_fold (gid : Nat) (l : List EngineClass) (x : State × Group) :
    (∃ os, (l.foldl (closeOpen gid) x).1 = { x.1 with ops := os }) ∧
      ∀ d, d ∈ l ∨ ClosedIn x.1 gid d → ClosedIn (l.foldl (closeOpen gid) x).1 gid d := by
  induction l generalizing x with
  | nil => exact ⟨⟨_, rfl⟩, fun d h => h.resolve_left (by simp)⟩
  | cons c l ih =>
    obtain ⟨⟨os, hf⟩, hall⟩ := ih (closeOpen gid x c)
    have hone : ∃ os, (closeOpen gid x c).1 = { x.1 with ops := os } := by
      unfold closeOpen
      split
      · exact ⟨_, rfl⟩
      · exact ⟨_, rfl⟩
    obtain ⟨os', hone⟩ := hone
    refine ⟨⟨os, by rw [List.foldl_cons, hf, hone]⟩, fun d h => hall d ?_⟩
    rcases h with h | h
    · rcases List.mem_cons.1 h with rfl | h
      · exact .inr (closeOpen_closes gid x d)
      · exact .inl h
    · exact .inr (closeOpen_keeps c d h)
/-- The classes of engine words (R184). -/
def engineClasses : List EngineClass := [.ld, .st, .cp, .mx, .tm, .tour, .cl]
theorem mem_engineClasses (c : EngineClass) : c ∈ engineClasses := by cases c <;> decide
theorem closeAll_eq (s : State) (gid : Nat) : closeAll s gid =
    let x := engineClasses.foldl (closeOpen gid) (s, grp s gid)
    { setGrp x.1 gid x.2 with ops := mmap x.1.ops fun _ o => if o.gid = gid then { o with discard := true } else o } := by
  unfold closeAll
  generalize hx : List.foldl _ (s, grp s gid) _ = x
  rw [show engineClasses.foldl (closeOpen gid) (s, grp s gid) = x from hx]
  rfl
/-- Every batch of an ended group has closed, and what it still receives is discarded (R96). -/
theorem closeAll_spec (s : State) (gid : Nat) (hr : rising none s.groups = true) :
    (∀ o ∈ (closeAll s gid).ops, o.2.gid = gid → o.2.discard = true ∧ o.2.batch.isSome) ∧ rising none (closeAll s gid).groups = true := by
  obtain ⟨⟨os, hf⟩, hclosed⟩ := closeOpen_fold gid engineClasses (s, grp s gid)
  rw [closeAll_eq]
  generalize engineClasses.foldl (closeOpen gid) (s, grp s gid) = x at hf hclosed
  refine ⟨fun o ho hg => ?_, ?_⟩
  · obtain ⟨p, hp, rfl⟩ := List.mem_map.1 ho
    dsimp only at hg ⊢
    split
    case isTrue h => exact ⟨rfl, hclosed p.2.cls (.inl (mem_engineClasses _)) p hp h rfl⟩
    case isFalse h => rw [if_neg h] at hg; exact absurd hg h
  · have hx : x.1.groups = s.groups := by rw [hf]
    exact rising_setGrp gid x.2 (by rw [hx]; exact hr)

/-! ## The end of an issue group -/

section
variable {s : State} {ms : List Member} {next : Pos}

/-- What an issue group whose words took effect leaves of its group (R27, R31, R116). -/
def committed (s : State) (ms : List Member) (next : Pos) : Group :=
  let go := s.issue.target.getD next
  { s.issue.cur with
    y := if s.issue.noLatch then {} else s.issue.cur.y
    pc := go, sg := newSg s ms, runPkts := s.issue.cur.runPkts + (if go.pkt = s.issue.pos.pkt && s.issue.target.isNone then 0 else 1)
    hold := [], heldWalks := [], walksOut := [], stalled := false, woken := false }
theorem finish_done (hv : s.issue.verdict = .done) :
    let u := setGrp s s.issue.gid (committed s ms next)
    let w := if s.issue.cur.status = .waiting .drain then closeAll u s.issue.gid else u
    let t := { applyKill w s.issue.gid s.issue.kill with issue := {} }
    finish s ms next = if s.issue.endRun || 64 ≤ (committed s ms next).runPkts then endRunOf t s.issue.gid else t := by
  unfold finish
  simp only [hv]
  rfl
theorem finish_faulted {st w : Nat} (hv : s.issue.verdict = .faulted st w) :
    finish s ms next = endRunOf { applyKill (if aborting s s.issue.gid then s else setGrp s s.issue.gid s.issue.cur) s.issue.gid
      s.issue.kill with issue := {} } s.issue.gid := by
  unfold finish
  simp only [hv]
theorem finish_stalled (hv : s.issue.verdict = .stalled) : finish s ms next =
    { applyKill (setGrp s s.issue.gid { s.issue.cur with stalled := true }) s.issue.gid s.issue.kill with issue := {} } := by
  unfold finish
  simp only [hv]
/-- A parked group leaves its slot; one that was woken before is ready at once (R28, R33). -/
def parkedGroup (g : Group) : Group :=
  { g with status := if g.woken then .ready else .parked, heldWalks := [], walksOut := [], woken := false }
theorem finish_parked (hv : s.issue.verdict = .parked) : finish s ms next =
    endRunOf { applyKill (setGrp s s.issue.gid (parkedGroup s.issue.cur)) s.issue.gid s.issue.kill with issue := {} } s.issue.gid := by
  unfold finish
  simp only [hv]
  rfl
theorem hashedWords_eq (m : Member) : hashedWords m = match m.ins with
    | .sigchk _ | .bkpt _ => []
    | _ => BitVec.ofNat 32 m.raw :: (m.lit.map fun y => BitVec.ofNat 32 y).toList := by
  obtain ⟨pos, raw, lit, ins⟩ := m
  cases lit <;> rfl

theorem setGrp_rises {g : Group} (h : rising none s.groups = true) : rising none (setGrp s s.issue.gid g).groups = true :=
  rising_setGrp _ _ h
theorem grp_setGrp_same (s : State) (gid : Nat) (g : Group) : grp (setGrp s gid g) gid = g := (grp_setGrp s gid gid g).trans (if_pos rfl)

theorem finish_done_runs (hv : s.issue.verdict = .done) (hd : s.issue.cur.status ≠ .waiting .drain)
    (he : ¬(s.issue.endRun = true ∨ 64 ≤ (committed s ms next).runPkts)) : finish s ms next =
      { applyKill (setGrp s s.issue.gid (committed s ms next)) s.issue.gid s.issue.kill with issue := {} } := by
  rw [finish_done hv]
  dsimp only
  rw [if_neg hd, if_neg (by simpa using he)]
theorem finish_done_ends (hv : s.issue.verdict = .done) (hd : s.issue.cur.status ≠ .waiting .drain)
    (he : s.issue.endRun = true ∨ 64 ≤ (committed s ms next).runPkts) : finish s ms next =
      endRunOf { applyKill (setGrp s s.issue.gid (committed s ms next)) s.issue.gid s.issue.kill with issue := {} } s.issue.gid := by
  rw [finish_done hv]
  dsimp only
  rw [if_neg hd, if_pos (by simpa using he)]
/-- The kill of an issue group stands when its run has ended. -/
theorem killed_ends (hr : rising none s.groups = true) (c : Group) {k : Kill} (hk : s.issue.kill = some k) :
    KillStands (killGang (setGrp s s.issue.gid c) s.issue.gid k.code k.check k.memSide)
      (endRunOf { applyKill (setGrp s s.issue.gid c) s.issue.gid s.issue.kill with issue := {} } s.issue.gid) s.issue.gid := by
  rw [hk]
  exact endRunOf_stands _ _ (killGang_rises _ _ _ _ _ (setGrp_rises hr))
theorem killed_stays (c : Group) {k : Kill} (hk : s.issue.kill = some k) :
    KillStands (killGang (setGrp s s.issue.gid c) s.issue.gid k.code k.check k.memSide)
      { applyKill (setGrp s s.issue.gid c) s.issue.gid s.issue.kill with issue := {} } s.issue.gid := by
  rw [hk]
  exact issueDone_stands _ _
/-- With no kill the run of the issuing group ends with what it has committed. -/
theorem unkilled_ends (hr : rising none s.groups = true) (c : Group) (hk : s.issue.kill = none) :
    RunEnded s (endRunOf { applyKill (setGrp s s.issue.gid c) s.issue.gid s.issue.kill with issue := {} } s.issue.gid) s.issue.gid c := by
  rw [hk]
  exact endRunOf_ended (setGrp_rises hr) rfl rfl (grp_setGrp_same s s.issue.gid c)
/-- What a group that drains still receives is discarded, and every batch of it has closed (R96). -/
theorem finish_drains (hr : rising none s.groups = true) (hv : s.issue.verdict = .done) (hd : s.issue.cur.status = .waiting .drain)
    (hk : s.issue.kill = none) : ∀ o ∈ (finish s ms next).ops, o.2.gid = s.issue.gid → o.2.discard = true ∧ o.2.batch.isSome := by
  obtain ⟨hops, hrise⟩ := closeAll_spec (setGrp s s.issue.gid (committed s ms next)) s.issue.gid (setGrp_rises hr)
  rw [finish_done hv]
  dsimp only
  rw [if_pos hd, hk]
  generalize closeAll (setGrp s s.issue.gid (committed s ms next)) s.issue.gid = u at hops hrise
  split
  · obtain ⟨⟨gs, cs, hf⟩, -⟩ := endRunOf_spec { u with issue := {} } s.issue.gid hrise
    rw [show applyKill u s.issue.gid none = u from rfl, hf]
    exact hops
  · exact hops
end

end Sys2Proof.Machine
end

section
/-! PROOFS. The end of an issue group by its verdict, and the kill of its gang (O60). -/

namespace Sys2Proof.Machine

theorem aborting_of_running {s : State} {gid : Nat} (h : (gridOf s (grp s gid)).ending = .running) : aborting s gid = false := by
  unfold aborting
  rw [h]
theorem aborting_of_aborting {s : State} {gid : Nat} {e : Byte} (h : (gridOf s (grp s gid)).ending = .aborting e) :
    aborting s gid = true := by
  unfold aborting
  rw [h]

/-- Settles O60: the first half is the equation of `finish` for each verdict with what a run's end leaves, the second the cases of
`killGang` where the grid runs. -/
theorem commitAndKill : Obligations.CommitAndKill := by
  intro s ms next gid g x gr code check mem hr hteams
  refine ⟨?_, fun hg hx hgr hrun hfit hcheck => ?_⟩
  · intro i go n hash words sg c ends t drains ended killed parked
    have hsg : newSg s ms = sg := by
      have hw : hashedWords = words := funext hashedWords_eq
      simp only [newSg, hw]
      rfl
    have hc : committed s ms next = c := by
      unfold committed
      simp only [hsg, Bool.and_eq_true, decide_eq_true_eq, Option.isNone_iff_eq_none]
      rfl
    have hends : (s.issue.endRun = true ∨ 64 ≤ (committed s ms next).runPkts) ↔ ends := by rw [hc]
    have hdone (hv : i.verdict = .done) (hd : ¬drains) (he : ¬ends) : t = _ := finish_done_runs hv hd (mt hends.1 he)
    have hdoneEnds (hv : i.verdict = .done) (hd : ¬drains) (he : ends) : t = _ := finish_done_ends hv hd (hends.2 he)
    rw [hc] at hdone hdoneEnds
    have hfault {st w : Nat} (hv : i.verdict = .faulted st w) : t = _ := finish_faulted hv
    refine ⟨fun hv hd => ⟨fun he hk => ?_, fun he hk => ?_, fun k hk => ?_⟩, fun hv hd hk => finish_drains hr hv hd hk,
      fun st w hv => ⟨fun hrun => ?_, fun e hab hg hk => ?_⟩, fun hv => ?_, fun hv => ?_⟩
    · rw [hdone hv hd he, hk]
      rfl
    · show RunEnded s t i.gid c
      rw [hdoneEnds hv hd he]
      exact unkilled_ends hr c hk
    · show KillStands (killGang (setGrp s i.gid c) i.gid k.code k.check k.memSide) t i.gid
      by_cases he : ends
      · rw [hdoneEnds hv hd he]
        exact killed_ends hr c hk
      · rw [hdone hv hd he]
        exact killed_stays c hk
    · have hab : aborting s i.gid = false := aborting_of_running hrun
      have ht : t = _ := hfault hv
      rw [hab] at ht
      refine ⟨fun hk => ?_, fun k hk => ?_⟩
      · show RunEnded s t i.gid i.cur
        rw [ht]
        exact unkilled_ends hr i.cur hk
      · show KillStands (killGang (setGrp s i.gid i.cur) i.gid k.code k.check k.memSide) t i.gid
        rw [ht]
        exact killed_ends hr i.cur hk
    · have hab : aborting s i.gid = true := aborting_of_aborting hab
      have ht : t = _ := hfault hv
      rw [hab, hk] at ht
      show RunEnded s t i.gid (grp s i.gid)
      rw [ht]
      exact endRunOf_ended hr rfl rfl rfl
    · have ht : t = _ := finish_stalled hv
      refine ⟨fun hk => by rw [ht, hk]; rfl, fun k hk => ?_⟩
      show KillStands (killGang (setGrp s i.gid { i.cur with stalled := true }) i.gid k.code k.check k.memSide) t i.gid
      rw [ht]
      exact killed_stays _ hk
    · have ht : t = _ := finish_parked hv
      refine ⟨fun hk => ?_, fun k hk => ?_⟩
      · show RunEnded s t i.gid parked
        rw [ht]
        exact unkilled_ends hr (parkedGroup i.cur) hk
      · show KillStands (killGang (setGrp s i.gid parked) i.gid k.code k.check k.memSide) t i.gid
        rw [ht]
        exact killed_ends hr (parkedGroup i.cur) hk
  · intro t n last pos is logged aborted aborts again lasting lost mine
    let rec_ (c : Byte) (cls : Nat) : BitVec 512 := killRecord s g pos code check c cls
    have hrec (c : Byte) (cls : Nat) (hcls : cls < 2 ^ 8) : is (rec_ c cls) c cls := killRecord_is hx hgr hfit hcheck rfl c hcls
    have ht : t = _ := killGang_running hg hx hgr hrun (pos := pos) rfl (last := last) rfl
    have hagain : killsAgain last code check mem = true ↔ again := killsAgain_iff last
    have hlasting : killLasts last code check g.core = true ↔ lasting := killLasts_iff last g.core
    have haborts (c : Byte) (h : t = abortGrid s x.grid c (rec_ c 1)) : aborts c := by
      obtain ⟨hab, hlog⟩ := abortGrid_aborts hgr hrun c (rec_ c 1)
      rw [← h] at hab hlog
      exact ⟨hab, _, ⟨_, rfl, hrec c 1 (by omega)⟩, hlog⟩
    refine ⟨fun hn => haborts code (ht.trans (if_pos hn)), fun hn hd => ?_, fun hn hd => ?_⟩
    · rw [ht, if_neg (by simp [hn]), if_pos hd]
    rw [if_neg (by simp [hn]), if_neg (by simp [hd])] at ht
    refine ⟨fun hrel => ?_, fun hrel => ?_⟩
    · rw [hrel, if_pos (show (!false) = true from rfl)] at ht
      obtain ⟨⟨hab1, hab2, hab3⟩, hlog⟩ := abortGrid_aborts hgr hrun code (rec_ code 1)
      obtain ⟨h1, h2, h3, h4⟩ := modGrid_recs (t := abortGrid s x.grid code (rec_ code 1)) (k := x.grid)
        fun y => mput y.recs (x.index / gr.gang) { last with draining := true }
      rw [← ht] at h1 h2 h3 h4
      exact ⟨⟨h1.trans hab1, h2.trans hab2, h3.trans hab3⟩, _, ⟨_, rfl, hrec code 1 (by omega)⟩, by rw [h4]; exact hlog⟩
    rw [hrel, if_neg (by simp)] at ht
    dsimp only at ht
    refine ⟨fun ha => haborts 0x42 (ht.trans (if_pos (hagain.2 ha))), fun ha h4 hl => ?_, fun ha h4 hl => ?_, fun ha h4 => ?_⟩
    · rw [if_neg (mt hagain.1 ha), if_pos h4, if_neg (mt hlasting.1 hl)] at ht
      exact haborts 0x46 ht
    · rw [if_neg (mt hagain.1 ha), if_pos h4, if_pos (hlasting.2 hl)] at ht
      obtain ⟨hab, hrem, hlog⟩ := lost_aborts (c := g.core) hgr hrun (rec_ code 4) (rec_ code 5) (rec_ 0x46 1) 0x46
      rw [← ht] at hab hrem hlog
      exact ⟨hab, _, ⟨[rec_ code 4, rec_ code 5], rec_ 0x46 1, rfl,
        ⟨_, _, rfl, hrec code 4 (by omega), hrec code 5 (by omega), hrem⟩, hrec 0x46 1 (by omega)⟩, hlog⟩
    · rw [if_neg (mt hagain.1 ha), if_neg (by omega)] at ht
      obtain ⟨hmem, hl1, hno, hyes, hend, hnoted, hgrps⟩ := relaunch_spec (n := n) hgr hrun hteams (rec_ code 2) (rec_ code 4) (rec_ code 5)
        (killLasts last code check g.core) { last with
          attempt := last.attempt + 1, last := some (code, check, g.core, mem), took := killLasts last code check g.core
          kills := last.kills ++ [rec_ code 2], draining := true } g.core
      rw [← ht] at hmem hl1 hno hyes hend hnoted hgrps
      refine ⟨rec_ code 2, hrec code 2 (by omega), hmem, hl1, fun hl => ?_, fun hl => ?_, hend, ⟨_, hlasting, hnoted⟩, hgrps⟩
      · obtain ⟨hrem, hlog⟩ := hno (by simpa using mt hlasting.1 hl)
        exact ⟨hrem, _, rfl, hlog⟩
      · obtain ⟨hrem, hlog⟩ := hyes (hlasting.2 hl)
        exact ⟨_, ⟨[rec_ code 4, rec_ code 5], rfl, _, _, rfl, hrec code 4 (by omega), hrec code 5 (by omega), hrem⟩, hlog⟩

end Sys2Proof.Machine
end

section
/-! PROOFS. Arrivals, and wakes of groups (R157, R170, R198, R319, R346). -/

namespace Sys2Proof.Machine

/-! ## Arrivals (R157) -/

/-- What arrives is taken off the network and acts. -/
theorem onMessage_arrives {s : State} {m : Msg} (h : Arrives s m) {ok : Body → Bool} (hok : ok m.body = true)
    (k : State → Msg → State) : onMessage s ok k = k (netDel s m.id) m := by
  obtain ⟨harr, hget, hun, hat⟩ := h
  unfold onMessage
  simp only [harr, hget, hok, hun, hat, Bool.not_true, Bool.false_eq_true, if_false, if_true]

/-! ## What keeps memory -/

theorem killGang_mem (s : State) (gid : Nat) (code : Byte) (check : Nat) (mem : Bool) : (killGang s gid code check mem).mem = s.mem := by
  have abort (t : State) (k : Nat) (c : Byte) (r : BitVec 512) : (abortGrid t k c r).mem = t.mem := by
    obtain ⟨_, _, _, _, _, _, _, hf⟩ := abortGrid_frame t k c r
    rw [hf]
  have push (t : State) (p : Nat) (r : BitVec 512) (w : Option Nat) : (pushRecord t p true r w).mem = t.mem := by
    obtain ⟨_, _, hf⟩ := pushRecord_frame t p true r w
    rw [hf]
  have either {c : Prop} [Decidable c] {a b : State} (ha : a.mem = s.mem) (hb : b.mem = s.mem) : (if c then a else b).mem = s.mem := by
    split
    · exact ha
    · exact hb
  have stops (t : State) (l : List Nat) (k n size : Nat) (ht : t.mem = s.mem) : (stopSavedGang (l.foldl
      (fun s t => (teamGroups s t).foldl (stopGroup true) s) t) k n size).mem = s.mem := by
    obtain ⟨⟨_, _, hf⟩, -⟩ := stopSavedGang_spec (l.foldl (fun s t => (teamGroups s t).foldl (stopGroup true) s) t) k n size
    obtain ⟨_, _, _, _, hf'⟩ := stopTeams_frame true l t
    rw [hf, hf']
    exact ht
  have note (t : State) (k : Nat) (f : Grid → Grid) (ht : t.mem = s.mem) : (modGrid t k f).mem = s.mem := by rw [modGrid_frame]; exact ht
  unfold killGang
  dsimp only
  refine either (either rfl (abort _ _ _ _)) (either rfl (either (note _ _ _ (abort _ _ _ _)) (either (abort _ _ _ _)
    (either ((abort _ _ _ _).trans (either ?_ rfl)) (stops _ _ _ _ _ (note _ _ _ (either ?_ (push _ _ _ _))))))))
  · rw [push]
    dsimp only
    exact push ..
  · rw [push]
    dsimp only
    exact (push ..).trans (push ..)
theorem acquireAt_mem (s : State) (c : Nat) (sc : Scope) : (acquireAt s c sc).mem = s.mem := by
  cases sc <;> rfl
theorem modG_mem (s : State) (gid : Nat) (f : Group → Group) : (modG s gid f).mem = s.mem := by
  unfold modG
  rw [modGrp_frame]
  dsimp only
  split <;> rfl
theorem trapOutside_mem (s : State) (gid : Nat) (code : Byte) (info : DWord) (rp : Pos) : (trapOutside s gid code info rp).mem = s.mem := by
  have abort (t : State) (k : Nat) (c : Byte) (r : BitVec 512) : (abortGrid t k c r).mem = t.mem := by
    obtain ⟨_, _, _, _, _, _, _, hf⟩ := abortGrid_frame t k c r
    rw [hf]
  unfold trapOutside
  dsimp only
  split
  · exact abort ..
  · split
    · exact abort ..
    · split
      · exact killGang_mem ..
      · rfl
theorem checkWait_mem (s : State) (gid : Nat) (c : EngineClass) : (checkWait s gid c).mem = s.mem := by
  have holds : (waitHolds s gid c).mem = s.mem := by
    unfold waitHolds
    dsimp only
    split
    · exact trapOutside_mem ..
    · rfl
  unfold checkWait
  dsimp only
  split
  · split
    · exact holds
    · rfl
  · split
    · exact holds
    · rfl
  · rfl
theorem wakePhase_mem (s : State) (obj leaf : Nat) : (wakePhase s obj leaf).mem = s.mem := by
  unfold wakePhase
  exact foldl_mem _ (fun s g => (modG_mem ..).trans (acquireAt_mem ..)) _ _
theorem lookAgain_mem (s : State) (gid : Nat) : (lookAgain s gid).mem = s.mem := by
  unfold lookAgain
  dsimp only
  split
  · exact checkWait_mem ..
  · exact checkWait_mem ..
  · exact wakePhase_mem ..
  · split <;> rfl
  · rfl
theorem wakeWaita_mem (s : State) (gid : Nat) : (wakeWaita s gid).mem = s.mem := by
  unfold wakeWaita
  dsimp only
  split
  · rfl
  · exact lookAgain_mem ..
  · rfl

/-! ## Wakes (R170, R198) -/

section
variable {s : State} {m : Msg} {gid : Nat} {g : Group}

/-- A wake acts where its party is, and is discarded elsewhere. -/
theorem exec_monitorWake {who : Party} {line : Nat} (ha : Arrives s m) (hb : m.body = .wake who line) :
    exec .monitorWake s = .next (if m.home = partyHome (netDel s m.id) who then wakeParty (netDel s m.id) line who else netDel s m.id) := by
  show execMonitorWake s = _
  unfold execMonitorWake
  rw [onMessage_arrives ha (by rw [hb])]
  simp only [hb]
theorem mget_modGrp_same {f : Group → Group} (hg : mget s.groups gid = some g) : mget (modGrp s gid f).groups gid = some (f g) := by
  unfold modGrp
  simp only [hg]
  exact mget_mput_same ..
/-- A group whose tour lanes are woken (R315). -/
def lanesWoken (g : Group) : Group :=
  { g with tours := mmap g.tours fun _ t => { t with lanes := mmap t.lanes fun _ y =>
      if y.st = .parked || y.st = .inFlight then { y with woken := true } else y } }
/-- A parked group that is woken is ready, its registers as they were (R170). -/
theorem wakeGroup_parked (hg : mget s.groups gid = some g) (hp : g.status = .parked) (line : Nat) :
    let t := wakeGroup s gid line
    (grp t gid).status = .ready ∧ (grp t gid).readyAt = s.cycle ∧ (grp t gid).v = g.v ∧ t.mem = s.mem := by
  intro t
  let wake (g : Group) : Group := match g.status with
    | .parked => makeReady s g
    | _ => if aboutToPark g line then { g with woken := true } else g
  have hwake : wake g = makeReady s g := by simp only [wake, hp]
  have ht : t = wakeLanes (modGrp s gid wake) gid := rfl
  have hgt : mget (modGrp s gid wake).groups gid = some (makeReady s g) := hwake ▸ mget_modGrp_same hg
  have hgrp : grp t gid = lanesWoken (makeReady s g) := grp_of_mget (mget_modGrp_same hgt)
  have hmem : t.mem = s.mem := by
    rw [ht]
    unfold wakeLanes
    rw [modGrp_frame, modGrp_frame]
  rw [hgrp]
  exact ⟨rfl, rfl, rfl, hmem⟩
/-- A WAITA that is woken is over: its group is ready, or goes on with its other wait (R198, assumption 97). -/
theorem wakeWaita_spec {pa n : Nat} {e : DWord} {line : Nat} (hg : grp s gid = g) (hw : g.status = .waiting (.mem pa n e line)) :
    let t := wakeWaita s gid
    (g.also = none → (grp t gid).status = .ready) ∧ (g.also = some .sleep → (grp t gid).status = .waiting .sleep) ∧
      ((g.also = none ∨ g.also = some .sleep) → (grp t gid).waita = none ∧ (grp t gid).also = none ∧ (grp t gid).v = g.v) := by
  intro t
  have hnone (h : g.also = none) : grp t gid = { makeReady s g with waita := none } := by
    have ht : t = setGrp s gid { makeReady s g with waita := none } := by
      show wakeWaita s gid = _
      unfold wakeWaita
      simp only [hg, hw, h]
    rw [ht, grp_setGrp_same]
  have hsleep (h : g.also = some .sleep) : grp t gid = { g with status := .waiting .sleep, waita := none, also := none } := by
    have ht : t = lookAgain (setGrp s gid { g with status := .waiting .sleep, waita := none, also := none }) gid := by
      show wakeWaita s gid = _
      unfold wakeWaita
      simp only [hg, hw, h]
    have hlook : lookAgain (setGrp s gid { g with status := .waiting .sleep, waita := none, also := none }) gid =
        setGrp s gid { g with status := .waiting .sleep, waita := none, also := none } := by
      unfold lookAgain
      rw [grp_setGrp_same]
    rw [ht, hlook, grp_setGrp_same]
  refine ⟨fun h => by rw [hnone h]; rfl, fun h => by rw [hsleep h], ?_⟩
  rintro (h | h)
  · rw [hnone h]
    exact ⟨rfl, h, rfl⟩
  · rw [hsleep h]
    exact ⟨rfl, rfl, rfl⟩

end

end Sys2Proof.Machine
end

section
/-! PROOFS. The write-backs of a core, and PROMOTE (R172, R224, R229). -/

namespace Sys2Proof.Machine

/-! ## Writes on their way -/

/-- Every write that was on its way still is, from the same core. -/
def WritesKept (s t : State) : Prop := ∀ x ∈ s.net, ∀ bytes bad ack, x.body = .write bytes bad ack →
  ∃ y ∈ t.net, y.id = x.id ∧ y.body = x.body ∧ y.srcDie = x.srcDie ∧ y.srcCore = x.srcCore
theorem WritesKept.refl (s : State) : WritesKept s s := fun x hx _ _ _ _ => ⟨x, hx, rfl, rfl, rfl, rfl⟩
theorem WritesKept.trans {s t u : State} (h : WritesKept s t) (h' : WritesKept t u) : WritesKept s u := by
  intro x hx bytes bad ack hb
  obtain ⟨y, hy, h1, h2, h3, h4⟩ := h x hx bytes bad ack hb
  obtain ⟨z, hz, g1, g2, g3, g4⟩ := h' y hy bytes bad ack (h2.trans hb)
  exact ⟨z, hz, g1.trans h1, g2.trans h2, g3.trans h3, g4.trans h4⟩
theorem writesKept_append {s t : State} {l : List Msg} (h : t.net = s.net ++ l) : WritesKept s t :=
  fun x hx _ _ _ _ => ⟨x, by rw [h]; exact List.mem_append_left _ hx, rfl, rfl, rfl, rfl⟩
/-- A change of messages that leaves a write's number, body and source. -/
theorem writesKept_map {s t : State} (f : Msg → Msg) (h : t.net = s.net.map f) (hf : ∀ m bytes bad ack, m.body = .write bytes bad ack →
    (f m).id = m.id ∧ (f m).body = m.body ∧ (f m).srcDie = m.srcDie ∧ (f m).srcCore = m.srcCore) : WritesKept s t :=
  fun x hx bytes bad ack hb => ⟨f x, by rw [h]; exact List.mem_map_of_mem hx, hf x bytes bad ack hb⟩
/-- A message that a core sends says where it comes from. -/
theorem send_msg (s : State) (c : Nat) (gid : Option Nat) (home : Home) (body : Body) :
    ∃ m, m.id = s.nextId ∧ m.home = home ∧ m.body = body ∧ m.srcDie = dieOf c ∧ m.srcCore = c % 24 ∧
      send s c gid home body = { s with nextId := s.nextId + 1, net := s.net ++ [m] } :=
  ⟨_, rfl, rfl, rfl, rfl, rfl, rfl⟩
/-- A core's dirty word is on its way home. -/
def WordSent (t : State) (c line : Nat) (w : Nat × L1Word) : Prop :=
  ∃ x ∈ t.net, 24 * x.srcDie + x.srcCore = c ∧ ∃ bytes bad ack, x.body = .write bytes bad ack ∧
    ∀ j, j < 4 → (128 * line + 4 * w.1 + j, BitVec.ofNat 8 (w.2.val.toNat / 256 ^ j)) ∈ bytes
theorem WordSent.kept {t u : State} {c line : Nat} {w : Nat × L1Word} (h : WordSent t c line w) (hk : WritesKept t u) :
    WordSent u c line w := by
  obtain ⟨x, hx, hc, bytes, bad, ack, hb, hall⟩ := h
  obtain ⟨y, hy, -, h2, h3, h4⟩ := hk x hx bytes bad ack hb
  exact ⟨y, hy, by rw [h3, h4, hc], bytes, bad, ack, h2.trans hb, hall⟩
theorem mem_cellsOf_word (a x : Nat) {j : Nat} (hj : j < 4) : (a + j, BitVec.ofNat 8 (x / 256 ^ j)) ∈ cellsOf a 4 x := by
  match j, hj with
  | 0, _ => simp [cellsOf, bytesOf]
  | 1, _ => simp [cellsOf, bytesOf]
  | 2, _ => simp [cellsOf, bytesOf, Nat.div_div_eq_div_mul]
  | 3, _ => simp [cellsOf, bytesOf, Nat.div_div_eq_div_mul]

/-! ## Writing words back (R172) -/

/-- What a write-back of words of a core's lines leaves: the core's lines and the network alone have changed. -/
structure WritesBack (s t : State) (c : Nat) : Prop where
  frame : ∃ n net cs, t = { s with nextId := n, net := net, cores := cs }
  kept : WritesKept s t
  dirty : ∀ l ∈ (core t c).l1, ∀ w ∈ l.2.words, w.2.dirty = true →
    ∃ l' ∈ (core s c).l1, l'.1 = l.1 ∧ ∃ w' ∈ l'.2.words, w'.1 = w.1 ∧ w'.2.dirty = true
theorem WritesBack.refl (s : State) (c : Nat) : WritesBack s s c :=
  ⟨⟨_, _, _, rfl⟩, .refl s, fun l hl w hw hd => ⟨l, hl, rfl, w, hw, rfl, hd⟩⟩
theorem WritesBack.trans {s t u : State} {c : Nat} (h : WritesBack s t c) (h' : WritesBack t u c) : WritesBack s u c where
  frame := by
    obtain ⟨_, _, _, hf⟩ := h.frame
    obtain ⟨_, _, _, hf'⟩ := h'.frame
    exact ⟨_, _, _, by rw [hf', hf]⟩
  kept := h.kept.trans h'.kept
  dirty l hl w hw hd := by
    obtain ⟨l1, hl1, e1, w1, hw1, f1, hd1⟩ := h'.dirty l hl w hw hd
    obtain ⟨l2, hl2, e2, w2, hw2, f2, hd2⟩ := h.dirty l1 hl1 w1 hw1 hd1
    exact ⟨l2, hl2, e2.trans e1, w2, hw2, f2.trans f1, hd2⟩

/-- The dirty words of a line among ws. -/
def dirtyOf (s : State) (c line : Nat) (ws : List Nat) : Map L1Word :=
  (l1Line s c line).words.filter fun w => w.2.dirty && ws.contains w.1
/-- A line some of whose words have been written back. -/
def cleanLine (l : L1Line) (ws : List Nat) : L1Line :=
  { l with words := l.words.map fun w => if ws.contains w.1 then (w.1, { w.2 with dirty := false, by_ := [] }) else w }
theorem writeBackLine_none {s : State} {c line : Nat} {ws : List Nat} (gid ack : Option Nat) (h : (dirtyOf s c line ws).isEmpty = true) :
    (writeBackLine s c gid ack line ws).1 = s := by
  unfold writeBackLine
  dsimp only
  rw [if_pos (show (List.filter _ (l1Line s c line).words).isEmpty = true from h)]
theorem writeBackLine_some {s : State} {c line : Nat} {ws : List Nat} (gid ack : Option Nat) (h : (dirtyOf s c line ws).isEmpty = false) :
    ∃ f : Msg → Msg, (∀ m, (f m).id = m.id ∧ (f m).body = m.body ∧ (f m).srcDie = m.srcDie ∧ (f m).srcCore = m.srcCore) ∧
      (writeBackLine s c gid ack line ws).1 = modCore (netMod (send s c gid (homeOf (128 * line)) (.write
        ((dirtyOf s c line ws).map fun w => cellsOf (128 * line + 4 * w.1) 4 w.2.val.toNat).flatten
        (((dirtyOf s c line ws).filter (·.2.bad)).map fun w => 32 * line + w.1) ack)) s.nextId f) c
          fun k => { k with l1 := mput k.l1 line (cleanLine (l1Line s c line) ws) } := by
  unfold writeBackLine
  dsimp only
  rw [if_neg (show ¬(List.filter _ (l1Line s c line).words).isEmpty = true from ne_true_of_eq_false h)]
  refine ⟨_, ?_, rfl⟩
  exact fun m => ⟨rfl, rfl, rfl, rfl⟩

/-- The write-back of words of one line: it is a write-back, touches no other line, and sends what is dirty among them. -/
theorem writeBackLine_spec (s : State) (c line : Nat) (ws : List Nat) (gid ack : Option Nat) :
    let t := (writeBackLine s c gid ack line ws).1
    WritesBack s t c ∧ (∀ n, n ≠ line → mget (core t c).l1 n = mget (core s c).l1 n) ∧
      ∀ y, mget (core s c).l1 line = some y → ∀ w ∈ y.words, w.2.dirty = true → ws.contains w.1 = true → WordSent t c line w := by
  intro t
  cases he : (dirtyOf s c line ws).isEmpty with
  | true =>
    rw [show t = s from writeBackLine_none gid ack he]
    refine ⟨.refl s c, fun _ _ => rfl, fun y hy w hw hd hws => ?_⟩
    have hline : l1Line s c line = y := by unfold l1Line; rw [hy]; rfl
    have hmem : w ∈ dirtyOf s c line ws := List.mem_filter.2 ⟨hline ▸ hw, by rw [hd, hws]; rfl⟩
    rw [List.isEmpty_iff.1 he] at hmem
    exact absurd hmem (by simp)
  | false =>
    obtain ⟨f, hf, ht⟩ := writeBackLine_some gid ack he
    obtain ⟨m, -, -, hb, hsd, hsc, hsend⟩ := send_msg s c gid (homeOf (128 * line)) (.write
        ((dirtyOf s c line ws).map fun w => cellsOf (128 * line + 4 * w.1) 4 w.2.val.toNat).flatten
        (((dirtyOf s c line ws).filter (·.2.bad)).map fun w => 32 * line + w.1) ack)
    rw [hsend] at ht
    have ht : t = _ := ht
    have hnet : t.net = (s.net ++ [m]).map fun x => if x.id = s.nextId then f x else x := by rw [ht]; rfl
    have hl1 : (core t c).l1 = mput (core s c).l1 line (cleanLine (l1Line s c line) ws) := by
      rw [ht, core_modCore, if_pos rfl]
      rfl
    have hmap (x : Msg) : (if x.id = s.nextId then f x else x).id = x.id ∧ (if x.id = s.nextId then f x else x).body = x.body ∧
        (if x.id = s.nextId then f x else x).srcDie = x.srcDie ∧ (if x.id = s.nextId then f x else x).srcCore = x.srcCore := by
      split
      · exact hf x
      · exact ⟨rfl, rfl, rfl, rfl⟩
    have hkept : WritesKept { s with net := s.net ++ [m] } t := writesKept_map _ hnet fun x _ _ _ _ => hmap x
    refine ⟨⟨⟨_, _, _, ht⟩, (writesKept_append (t := { s with net := s.net ++ [m] }) rfl).trans hkept, fun l hl w hw hd => ?_⟩,
      fun n hn => by rw [hl1, mget_mput_other _ _ _ _ hn], fun y hy w hw hd hws => ?_⟩
    · rw [hl1] at hl
      rcases mem_mput hl with rfl | hl
      · obtain ⟨w0, hw0, rfl⟩ := List.mem_map.1 hw
        split at hd
        · exact absurd hd Bool.false_ne_true
        case isFalse hws =>
          unfold l1Line at hw0
          cases hm : mget (core s c).l1 line with
          | none => rw [hm] at hw0; exact absurd hw0 (by simp [Option.getD])
          | some y =>
            rw [hm] at hw0
            exact ⟨(line, y), mem_of_mget hm, rfl, w0, hw0, by rw [if_neg hws], hd⟩
      · exact ⟨l, hl, rfl, w, hw, rfl, hd⟩
    · have hline : l1Line s c line = y := by unfold l1Line; rw [hy]; rfl
      have hmem : w ∈ dirtyOf s c line ws := List.mem_filter.2 ⟨hline ▸ hw, by rw [hd, hws]; rfl⟩
      have hsent : WordSent { s with net := s.net ++ [m] } c line w := by
        refine ⟨m, List.mem_append_right _ (List.mem_singleton.2 rfl), ?_, _, _, _, hb, fun j hj => ?_⟩
        · rw [hsd, hsc]
          exact Nat.div_add_mod c 24
        · exact List.mem_flatten.2 ⟨_, List.mem_map_of_mem hmem, mem_cellsOf_word _ _ hj⟩
      exact hsent.kept hkept
/-- The write-back of every dirty word of the lines that a list names. -/
theorem writeBack_fold (c : Nat) (gid ack : Option Nat) (ws : Nat → List Nat) (ls : List (Nat × L1Line)) (x : State × List Nat) :
    let t := (ls.foldl (fun (x : State × List Nat) l =>
      let (t, ns) := writeBackLine x.1 c gid ack l.1 (ws l.1)
      (t, x.2 ++ ns)) x).1
    WritesBack x.1 t c ∧ ∀ l ∈ ls, ∀ y, mget (core x.1 c).l1 l.1 = some y → ∀ w ∈ y.words, w.2.dirty = true →
      (ws l.1).contains w.1 = true → WordSent t c l.1 w := by
  induction ls generalizing x with
  | nil => exact ⟨.refl _ _, fun _ h => absurd h (by simp)⟩
  | cons l ls ih =>
    obtain ⟨hone, hother, hsent⟩ := writeBackLine_spec x.1 c l.1 (ws l.1) gid ack
    obtain ⟨hrest, hall⟩ := ih ((writeBackLine x.1 c gid ack l.1 (ws l.1)).1, x.2 ++ (writeBackLine x.1 c gid ack l.1 (ws l.1)).2)
    refine ⟨hone.trans hrest, fun l' hl' y hy w hw hd hws => ?_⟩
    by_cases hn : l'.1 = l.1
    · rw [hn] at hy hws ⊢
      exact (hsent y hy w hw hd hws).kept hrest.kept
    · rcases List.mem_cons.1 hl' with rfl | hl'
      · exact absurd rfl hn
      · exact hall l' hl' y ((hother l'.1 hn).trans hy) w hw hd hws
/-- The write-back of a core: every dirty word that sel names is on its way home (R172). -/
theorem writeBack_spec (s : State) (c : Nat) (gid ack : Option Nat) (sel : Nat → Nat → Bool) :
    let t := (writeBack s c gid ack sel).1
    WritesBack s t c ∧ ∀ line y, mget (core s c).l1 line = some y → ∀ w ∈ y.words, w.2.dirty = true → w.1 < 32 → sel line w.1 = true →
      WordSent t c line w := by
  obtain ⟨hback, hall⟩ := writeBack_fold c gid ack (fun l => allWords.filter (sel l)) (core s c).l1 (s, [])
  refine ⟨hback, fun line y hy w hw hd hlt hsel => hall (line, y) (mem_of_mget hy) y hy w hw hd ?_⟩
  simp [allWords, hlt, hsel]

end Sys2Proof.Machine
end

section
/-! PROOFS. PROMOTE at its victim and its caller, and collective control (R224, R229, R374). -/

namespace Sys2Proof.Machine

theorem cutMsg_write {past : Bool} {sel : Bool → Nat → Bool} {m : Msg} {bytes : Cells Byte} {bad : List Nat} {ack : Option Nat}
    (h : m.body = .write bytes bad ack) : cutMsg past sel m = m := by
  unfold cutMsg
  simp only [h]
/-- To stop fills stops no write. -/
theorem stopWords_kept (s : State) (c : Nat) (sel : Nat → Bool) : WritesKept s (stopWords s c sel) := by
  refine writesKept_map _ rfl fun m bytes bad ack hb => ?_
  split
  · rw [cutMsg_write hb]
    exact ⟨rfl, rfl, rfl, rfl⟩
  · exact ⟨rfl, rfl, rfl, rfl⟩

section
variable {s : State} {m : Msg} {gid : Nat} {g : Group}

/-- The dirty words of a core (R224). -/
def dirtyWords (s : State) (v : Nat) : List (Nat × Nat) :=
  ((core s v).l1.map fun l => (l.2.words.filter fun w => w.2.dirty).map fun w => (l.1, w.1)).flatten
theorem mem_dirtyWords {v : Nat} {l : Nat × L1Line} {w : Nat × L1Word} (hl : l ∈ (core s v).l1) (hw : w ∈ l.2.words) (hd : w.2.dirty = true) :
    (l.1, w.1) ∈ dirtyWords s v :=
  List.mem_flatten.2 ⟨_, List.mem_map_of_mem hl, List.mem_map_of_mem (List.mem_filter.2 ⟨hw, hd⟩)⟩
/-- The victim of a PROMOTE without its dirty words, which are on their way home. -/
def victimCleaned (s : State) (v : Nat) : State :=
  stopWords (invalidate (writeBack s v none none fun _ _ => true).1 v fun l _ w _ => (dirtyWords s v).contains (l, w)) v
    fun w => (dirtyWords s v).contains (w / 32, w % 32)
theorem exec_promoteRequest {v : Nat} (ha : Arrives s m) (hb : m.body = .promote gid v) :
    let u := victimCleaned (netDel s m.id) v
    exec .promoteRequest s = .next (netMod (send u v none (.core (grp u gid).core) (.promoteAck gid m.id)) u.nextId
      fun x => { answers u m x with after := coreBound u v }) := by
  show execPromoteRequest s = _
  unfold execPromoteRequest
  rw [onMessage_arrives ha (by rw [hb])]
  simp only [hb]
  rfl
/-- A cleaned victim holds no dirty word; all it held is on its way home, and memory and groups are as they were (R224). -/
theorem victimCleaned_spec (s : State) (v : Nat) :
    let u := victimCleaned s v
    (∃ n net cs, u = { s with nextId := n, net := net, cores := cs }) ∧ WritesKept s u ∧
      (∀ l ∈ (core u v).l1, ∀ w ∈ l.2.words, w.2.dirty = false) ∧
      ∀ line y, mget (core s v).l1 line = some y → ∀ w ∈ y.words, w.2.dirty = true → w.1 < 32 → WordSent u v line w := by
  intro u
  obtain ⟨⟨⟨n, net, cs, hf⟩, hkept, hdirty⟩, hsent⟩ := writeBack_spec s v none none fun _ _ => true
  let t := (writeBack s v none none fun _ _ => true).1
  let sel : Nat → L1Line → Nat → L1Word → Bool := fun l _ w _ => (dirtyWords s v).contains (l, w)
  have hu : u = stopWords (invalidate t v sel) v fun w => (dirtyWords s v).contains (w / 32, w % 32) := rfl
  have hstop : WritesKept t u := (writesKept_append (l := []) (t := invalidate t v sel) (List.append_nil _).symm).trans (stopWords_kept _ _ _)
  refine ⟨⟨n, _, _, by rw [hu]; unfold stopWords invalidate modCore; rw [show t = _ from hf]⟩, hkept.trans hstop, fun l hl w hw => ?_,
    fun line y hy w hw hd hlt => (hsent line y hy w hw hd hlt rfl).kept hstop⟩
  by_contra hne
  have hd : w.2.dirty = true := by simpa using hne
  have hl : l ∈ (core (invalidate t v sel) v).l1 := hl
  rw [core_invalidate] at hl
  obtain ⟨l0, hl0, rfl⟩ := List.mem_map.1 (List.mem_filter.1 hl).1
  obtain ⟨hw0, hsel⟩ := List.mem_filter.1 hw
  obtain ⟨l1, hl1, e1, w1, hw1, f1, hd1⟩ := hdirty l0 hl0 w hw0 hd
  have hin : (l0.1, w.1) ∈ dirtyWords s v := e1 ▸ f1 ▸ mem_dirtyWords hl1 hw1 hd1
  have : sel l0.1 l0.2 w.1 w.2 = true := List.contains_iff_mem.2 hin
  rw [this] at hsel
  exact absurd hsel (by simp)
/-- A write of a core, or an update that waits for earlier writes, is among those that are not yet performed (R214, R224). -/
theorem mem_coreBound_write {t : State} {v : Nat} {x : Msg} (hx : x ∈ t.net) {bytes : Cells Byte} {bad : List Nat} {ack : Option Nat}
    (hb : x.body = .write bytes bad ack) (hs : 24 * x.srcDie + x.srcCore = v) : x.id ∈ coreBound t v := by
  refine List.mem_append_left _ (List.mem_map_of_mem (List.mem_filter.2 ⟨hx, ?_⟩))
  rw [hb]
  exact decide_eq_true hs
theorem mem_coreBound_release {t : State} {v : Nat} {e : Nat × Release} (he : e ∈ t.rels) (hs : 24 * e.2.srcDie + e.2.srcCore = v) :
    e.1 ∈ coreBound t v :=
  List.mem_append_right _ (List.mem_map_of_mem (List.mem_filter.2 ⟨he, decide_eq_true hs⟩))

/-- PROMOTE's request writes back what the victim holds; the answer follows every write that the victim had sent (R224). -/
theorem promoteRequest_spec {v : Nat} (hg : grp s gid = g) (ha : Arrives s m) (hb : m.body = .promote gid v) :
    Gives .promoteRequest s fun s t => t.mem = s.mem ∧ (∀ l ∈ (core t v).l1, ∀ w ∈ l.2.words, w.2.dirty = false) ∧
      ∃ r ∈ t.net, r.home = .core g.core ∧ r.body = .promoteAck gid m.id ∧
        (∀ line y, mget (core s v).l1 line = some y → ∀ w ∈ y.words, w.2.dirty = true → w.1 < 32 → ∃ x ∈ t.net, x.id ∈ r.after ∧
          ∃ bytes bad ack, x.body = .write bytes bad ack ∧
            ∀ j, j < 4 → (128 * line + 4 * w.1 + j, BitVec.ofNat 8 (w.2.val.toNat / 256 ^ j)) ∈ bytes) ∧
        (∀ x ∈ s.net, x.id ≠ m.id → ∀ bytes bad ack, x.body = .write bytes bad ack → 24 * x.srcDie + x.srcCore = v → x.id ∈ r.after) ∧
        ∀ e ∈ s.rels, 24 * e.2.srcDie + e.2.srcCore = v → e.1 ∈ r.after := by
  obtain ⟨⟨n, net, cs, hf⟩, hkept, hclean, hsent⟩ := victimCleaned_spec (netDel s m.id) v
  have hexec := exec_promoteRequest ha hb
  dsimp only at hexec
  generalize victimCleaned (netDel s m.id) v = u at hf hkept hclean hsent hexec
  obtain ⟨r, hid, hhome, hbody, -, -, hsend⟩ := send_msg u v none (.core (grp u gid).core) (.promoteAck gid m.id)
  rw [hsend] at hexec
  let f (x : Msg) : Msg := { answers u m x with after := coreBound u v }
  have hmap (x : Msg) : (if x.id = u.nextId then f x else x).id = x.id ∧ (if x.id = u.nextId then f x else x).body = x.body := by
    split <;> exact ⟨rfl, rfl⟩
  have hcore : (grp u gid).core = g.core := by rw [hf, ← hg]; rfl
  refine ⟨_, hexec, by rw [hf]; rfl, hclean, f r, List.mem_map.2 ⟨r, List.mem_append_right _ (List.mem_singleton.2 rfl), if_pos hid⟩,
    hhome.trans (by rw [hcore]), hbody, fun line y hy w hw hd hlt => ?_, fun x hx hne bytes bad ack hb' hs => ?_, fun e he hs => ?_⟩
  · obtain ⟨x, hx, hsrc, bytes, bad, ack, hxb, hall⟩ := hsent line y hy w hw hd hlt
    refine ⟨if x.id = u.nextId then f x else x, List.mem_map.2 ⟨x, List.mem_append_left _ hx, rfl⟩, ?_, bytes, bad, ack, ?_, hall⟩
    · rw [(hmap x).1]
      exact mem_coreBound_write hx hxb hsrc
    · rw [(hmap x).2, hxb]
  · have hx' : x ∈ (netDel s m.id).net := List.mem_filter.2 ⟨hx, by simpa using hne⟩
    obtain ⟨y, hy, h1, h2, h3, h4⟩ := hkept x hx' bytes bad ack hb'
    exact h1 ▸ mem_coreBound_write hy (h2.trans hb') (by rw [h3, h4, hs])
  · exact mem_coreBound_release (by rw [hf]; exact he) hs

/-- A held PROMOTE, done where it waits for the request of a number (R224). -/
def answered (req : Nat) (h : Hold) : Hold :=
  if h.ops.head? = some 4 && h.ops.length = 3 && h.waitFor = [req] then { h with res := some 0 } else h
theorem acquireAt_groups (s : State) (c : Nat) (sc : Scope) : (acquireAt s c sc).groups = s.groups := by
  cases sc <;> rfl
/-- PROMOTE's answer ends the wait for the request that it names, and no other (R224). -/
theorem promoteAcknowledge_spec {req : Nat} {h : Hold} (hg : mget s.groups gid = some g) (ha : Arrives s m)
    (hb : m.body = .promoteAck gid req) (hh : g.hold = [h]) (hop : h.ops.head? = some 4) (hlen : h.ops.length = 3) (hres : h.res = none) :
    Gives .promoteAcknowledge s fun s t => t.mem = s.mem ∧
      (h.waitFor = [req] → (grp t gid).hold = [{ h with res := some 0 }]) ∧ (h.waitFor ≠ [req] → (grp t gid).hold = [h]) := by
  have hexec : exec .promoteAcknowledge s = .next (promoteDone (netDel s m.id) gid req) := by
    show execPromoteAcknowledge s = _
    unfold execPromoteAcknowledge
    rw [onMessage_arrives ha (by rw [hb])]
    simp only [hb]
  have hgrp : grp (netDel s m.id) gid = g := grp_of_mget hg
  refine ⟨_, hexec, ?_⟩
  by_cases hw : h.waitFor = [req]
  · let u := modGrp (netDel s m.id) gid fun g => { g with hold := g.hold.map (answered req) }
    have hdone : promoteDone (netDel s m.id) gid req = match Scope.ofCode? ((h.ops[2]?).getD 4) with
        | some sc => acquireAt u g.core sc
        | none => u := by
      unfold promoteDone
      simp only [hgrp, hh, List.find?_cons, hop, hlen, hw, hres, decide_true, Bool.and_self, Option.isNone_none]
      rfl
    have hkept : (promoteDone (netDel s m.id) gid req).mem = s.mem ∧ (promoteDone (netDel s m.id) gid req).groups = u.groups := by
      have hu : u.mem = s.mem := by simp only [u]; rw [modGrp_frame]; rfl
      rw [hdone]
      split
      · exact ⟨(acquireAt_mem ..).trans hu, acquireAt_groups ..⟩
      · exact ⟨hu, rfl⟩
    have hgu : grp (promoteDone (netDel s m.id) gid req) gid = { g with hold := g.hold.map (answered req) } :=
      grp_of_mget (by rw [hkept.2]; exact mget_modGrp_same hg)
    refine ⟨hkept.1, fun _ => ?_, fun hn => absurd hw hn⟩
    rw [hgu, hh]
    simp [answered, hop, hlen, hw]
  · have hdone : promoteDone (netDel s m.id) gid req = netDel s m.id := by
      unfold promoteDone
      simp only [hgrp, hh, List.find?_cons, List.find?_nil, decide_eq_false hw, Bool.and_false, Bool.false_and]
    rw [hdone]
    exact ⟨rfl, fun h => absurd h hw, fun _ => by rw [hgrp, hh]⟩

/-! ## Collective control (R374) -/

theorem mem_addOnce {α : Type} [DecidableEq α] (l : List α) (x y : α) : y ∈ addOnce l x ↔ y = x ∨ y ∈ l := by
  unfold addOnce
  split
  case isTrue h => exact ⟨.inr, fun h' => h'.elim (fun e => e ▸ List.contains_iff_mem.1 h) id⟩
  case isFalse => rw [List.mem_append, List.mem_singleton, or_comm]
/-- A member has issued a step, and the communicator's engine knows it (R374). -/
theorem collectiveControl_spec {ctx cid d k e : Nat} {c : Comm} (ha : Arrives s m) (hb : m.body = .collCtl ctx cid d k)
    (hh : m.home = .die e) (hc : mget s.comms (256 * ctx + cid) = some c) :
    Gives .collectiveControl s fun s t => ∃ c', mget t.comms (256 * ctx + cid) = some c' ∧ (e, d, k) ∈ c'.told ∧
      (∀ x ∈ c'.told, x = (e, d, k) ∨ x ∈ c.told) ∧ t.mem = s.mem := by
  have hc' : mget (netDel s m.id).comms (256 * ctx + cid) = some c := hc
  refine ⟨{ netDel s m.id with comms := mput s.comms (256 * ctx + cid) { c with told := addOnce c.told (e, d, k) } }, ?_,
    _, mget_mput_same .., (mem_addOnce ..).2 (.inl rfl), fun x => (mem_addOnce ..).1, rfl⟩
  show execCollectiveControl s = _
  unfold execCollectiveControl
  rw [onMessage_arrives ha (by rw [hb])]
  simp only [hb, hh, hc']
  rfl

end

end Sys2Proof.Machine
end

section
/-! PROOFS. Invalidations, records, requests without an answer, and ports (R41, R253, R337, R367). -/

namespace Sys2Proof.Machine

section
variable {s : State} {m : Msg} {gid : Nat} {g : Group}

/-! ## An invalidation at a core or die (R337) -/

theorem entriesFrom_congr {s t : State} (hm : t.mem = s.mem) (h1 : t.ibaseNear = s.ibaseNear) (h2 : t.ibaseFar = s.ibaseFar) (va : Nat) :
    ∀ n level table, entriesFrom t va n level table = entriesFrom s va n level table
  | 0, _, _ => rfl
  | n + 1, level, table => by
    have hres (a : Nat) : resolve t a = resolve s a := by unfold resolve; rw [h1, h2]
    unfold entriesFrom
    simp only [hres, hm, entriesFrom_congr hm h1 h2 va n]
theorem resolve_netDel (s : State) (id a : Nat) : resolve (netDel s id) a = resolve s a := by
  unfold resolve netDel
  rfl
theorem ctxRoot_netDel (s : State) (id p ctx : Nat) : ctxRoot (netDel s id) p ctx = ctxRoot s p ctx := by
  unfold ctxRoot ctxField devRead
  rw [resolve_netDel]
  rfl
theorem derived_netDel (s : State) (id p : Nat) (v : Inval) (ctx va at_ : Nat) :
    derived (netDel s id) p v ctx va at_ = derived s p v ctx va at_ := by
  unfold derived
  rw [ctxRoot_netDel, entriesFrom_congr (s := s) (t := netDel s id) rfl rfl rfl]
theorem mem_foldl_insertNat {k : Nat} (l acc : List Nat) : k ∈ l.foldl insertNat acc ↔ k ∈ acc ∨ k ∈ l := by
  have hone (l : List Nat) (j : Nat) : k ∈ insertNat l j ↔ k = j ∨ k ∈ l := by
    induction l with
    | nil => simp [insertNat]
    | cons i t ih =>
      unfold insertNat
      split
      · simp
      · split
        · subst_vars; simp
        · simp only [List.mem_cons, ih]; tauto
  induction l generalizing acc with
  | nil => simp
  | cons j l ih =>
    refine (ih (insertNat acc j)).trans ?_
    rw [hone, List.mem_cons]
    tauto
theorem mem_cutTlb {s : State} {p : Nat} {v : Inval} {l : List TlbEntry} {e : TlbEntry} (h : e ∈ cutTlb s p v l) :
    e ∈ l ∧ derived s p v e.ctx e.va e.at_ = false := by
  obtain ⟨h1, h2⟩ := List.mem_filter.1 h
  exact ⟨h1, by simpa using h2⟩
/-- The core or die that an invalidation tells has no translation left that reads one of its entries; what was under way from there
is drained (R337). -/
theorem invalidationMessage_spec {p c : Nat} {v : Inval} {rest : List Inval} (ha : Arrives s m) (hb : m.body = .inval p c)
    (hv : (part s p).inval = v :: rest) (hc : v.cores.contains c = true) :
    let d := if 1000 ≤ c then c - 1000 else dieOf c
    Gives .invalidationMessage s fun s t => t.mem = s.mem ∧
      (∀ k, (if 1000 ≤ c then dieOf k = d else k = c) → ∀ e ∈ (core t k).tlb, e ∈ (core s k).tlb ∧ derived s p v e.ctx e.va e.at_ = false) ∧
      (∀ e ∈ (die t d).tlb, e ∈ (die s d).tlb ∧ derived s p v e.ctx e.va e.at_ = false) ∧
      ∃ w, (part t p).inval = w :: rest ∧ w.cores = v.cores.filter (· != c) ∧
        ∀ n ∈ underWay s d (if 1000 ≤ c then none else some c), n ≠ m.id → n ∈ w.drain := by
  intro d
  let u := netDel s m.id
  let hit (k : Nat) : Bool := if 1000 ≤ c then dieOf k = d else k = c
  let t0 := modDie u d fun x => { x with tlb := cutTlb u p v x.tlb }
  let t1 := { t0 with
    cores := mmap t0.cores fun k x => if hit k then { x with tlb := cutTlb u p v x.tlb } else x
    groups := mmap t0.groups fun _ g => if hit g.core then cutGroup u p v g else g }
  let more := underWay t1 d (if 1000 ≤ c then none else some c)
  let f : Inval → Option Inval := fun v => if v.cores.contains c
    then some { v with cores := v.cores.filter (· != c), drain := more.foldl insertNat v.drain } else none
  have hu : (part u p).inval = v :: rest := hv
  have hexec : exec .invalidationMessage s = .next (modPart t1 p fun x => { x with inval := modFirst f x.inval }) := by
    show execInvalidationMessage s = _
    unfold execInvalidationMessage
    rw [onMessage_arrives ha (by rw [hb])]
    simp only [hb]
    simp only [show (part (netDel s m.id) p).inval = v :: rest from hv, List.find?_cons, hc]
    rfl
  refine ⟨_, hexec, rfl, fun k hk e he => ?_, fun e he => ?_,
    { v with cores := v.cores.filter (· != c), drain := more.foldl insertNat v.drain }, ?_, rfl, fun n hn hne => ?_⟩
  · have hk : hit k = true := by
      simp only [hit]
      split at hk
      · rw [if_pos ‹_›]; exact decide_eq_true hk
      · rw [if_neg ‹_›]; exact decide_eq_true hk
    have hcore : (core t1 k).tlb = cutTlb u p v (core s k).tlb := by
      have hread : core t1 k = (mget (mmap s.cores fun k x => if hit k then { x with tlb := cutTlb u p v x.tlb } else x) k).getD {} := rfl
      rw [hread, mget_mmap]
      unfold core
      cases mget s.cores k with
      | none => rfl
      | some x =>
        simp only [Option.map_some, Option.getD_some, hk, if_true]
    have he : e ∈ (core t1 k).tlb := he
    rw [hcore] at he
    obtain ⟨h1, h2⟩ := mem_cutTlb he
    exact ⟨h1, (derived_netDel ..).symm.trans h2⟩
  · have hdie : die t0 d = { die s d with tlb := cutTlb u p v (die s d).tlb } := by
      simp only [t0]
      rw [die_modDie, if_pos rfl]
      rfl
    have he : e ∈ (die t0 d).tlb := he
    rw [hdie] at he
    obtain ⟨h1, h2⟩ := mem_cutTlb he
    exact ⟨h1, (derived_netDel ..).symm.trans h2⟩
  · rw [part_modPart, if_pos rfl]
    have : (part t1 p).inval = v :: rest := hv
    show modFirst f (part t1 p).inval = _
    rw [this]
    unfold modFirst
    simp only [f, hc, if_true]
  · refine (mem_foldl_insertNat _ _).2 (.inr ?_)
    unfold underWay at hn
    rcases List.mem_append.1 hn with hn | hn
    · obtain ⟨x, hx, rfl⟩ := List.mem_map.1 hn
      obtain ⟨hx1, hx2⟩ := List.mem_filter.1 hx
      exact List.mem_append_left _ (List.mem_map_of_mem (List.mem_filter.2 ⟨List.mem_filter.2 ⟨hx1, by simpa using hne⟩, hx2⟩))
    · exact List.mem_append_right _ hn

/-! ## Records at a gather buffer (R41) -/

/-- The first records at a buffer of a node start its timer (R41). -/
theorem gatherRecordArrival_spec {gr node : Nat} {recs : List (List Word)} {d : Nat} {x : Grid} {n : NodeDecl} (ha : Arrives s m)
    (hb : m.body = .record gr node recs) (hh : m.home = .die d) (hx : mget s.grids gr = some x) (hrun : x.ending = .running)
    (hover : x.isOver = false) (hn : mget x.nodes node = some n) (hbuf : bufferOf s d gr node = none) (hne : recs ≠ []) (hlt : recs.length < 32) :
    Gives .gatherRecordArrival s fun s t => t.mem = s.mem ∧
      bufferOf t d gr node = some { grid := gr, node := node, recs := recs, lapse := some (s.time + 1000 * n.timer) } := by
  let b : Gather := { grid := gr, node := node, recs := recs, lapse := some (s.time + 1000 * n.timer) }
  have hexec : exec .gatherRecordArrival s = .next (setBuffer (netDel s m.id) d b) := by
    show execGatherRecordArrival s = _
    unfold execGatherRecordArrival
    rw [onMessage_arrives ha (by rw [hb])]
    simp only [hb, hh, show mget (netDel s m.id).grids gr = some x from hx, show grid (netDel s m.id) gr = x from grid_of_mget hx, hn,
      show bufferOf (netDel s m.id) d gr node = none from hbuf, hrun, hover, Option.getD_none, List.nil_append, bne_self_eq_false,
      Bool.or_self, Bool.false_eq_true, if_false, List.isEmpty_nil, if_true]
    rw [if_neg (by omega)]
    rfl
  refine ⟨_, hexec, rfl, ?_⟩
  unfold bufferOf setBuffer
  rw [die_modDie, if_pos rfl]
  have hnone : (die s d).gather.find? (fun b => b.grid = gr && b.node = node) = none := hbuf
  have hrest : ((die s d).gather.filter fun y => !(y.grid = b.grid && y.node = b.node)).find? (fun b => b.grid = gr && b.node = node) = none := by
    rw [List.find?_eq_none] at hnone ⊢
    exact fun y hy => hnone y (List.mem_filter.1 hy).1
  have hempty : b.recs.isEmpty = false := by simpa [b] using hne
  show List.find? _ (((die s d).gather.filter fun y => !(y.grid = b.grid && y.node = b.node)) ++ if b.recs.isEmpty then [] else [b]) = _
  rw [List.find?_append, hrest, hempty]
  simp [b]

/-! ## What a port held (R249, R253) -/

theorem portSignalRelease_spec {id : Nat} {h : PortHold} {d gr node : Nat} {recs : List (List Word)} (ha : s.arriving = .port id)
    (hh : mget s.ports id = some h) (hr : portReady s h = true) (hs : h.signal = none) (hrec : h.records = [(d, gr, node, recs)]) :
    Gives .portSignalRelease s fun s t => mget t.ports id = none ∧ t.mem = s.mem ∧ OnItsWay t (.die d) (.record gr node recs) := by
  let u := { s with ports := mdel s.ports id }
  obtain ⟨r, -, hhome, hbody, -, -, hsend⟩ := send_msg u (grp u h.gid).core none (.die d) (.record gr node recs)
  have hexec : exec .portSignalRelease s = .next (send u (grp u h.gid).core none (.die d) (.record gr node recs)) := by
    show execPortSignalRelease s = _
    unfold execPortSignalRelease
    rw [ha]
    dsimp only
    rw [hh]
    dsimp only
    rw [if_pos hr, ← ha]
    unfold portSend
    rw [hs, hrec]
    rfl
  refine ⟨_, hexec, ?_⟩
  rw [hsend]
  exact ⟨mget_mdel_same .., rfl, r, List.mem_append_right _ (List.mem_singleton.2 rfl), hhome, hbody⟩

end

end Sys2Proof.Machine
end

section
/-! PROOFS. A request without an answer (R187, R366, R367), and O43. -/

namespace Sys2Proof.Machine

/-! ## Messages and monitors: what they leave as it was -/

/-- A chain of steps each of which changes the network and the dies alone does so too. -/
theorem foldl_net {α : Type} (f : State → α → State) (l : List α) (s : State)
    (hf : ∀ s x, ∃ n net ds, f s x = { s with nextId := n, net := net, dies := ds }) :
    ∃ n net ds, l.foldl f s = { s with nextId := n, net := net, dies := ds } := by
  induction l generalizing s with
  | nil => exact ⟨_, _, _, rfl⟩
  | cons x l ih =>
    obtain ⟨_, _, _, h⟩ := hf s x
    obtain ⟨_, _, _, h'⟩ := ih (f s x)
    exact ⟨_, _, _, by rw [List.foldl_cons, h', h]⟩
theorem sendReports_frame (s : State) (d n : Nat) (counted : List Nat) :
    ∃ k net ds, sendReports s d n counted = { s with nextId := k, net := net, dies := ds } :=
  foldl_net _ _ _ fun s x => by
    split
    · exact ⟨_, _, _, rfl⟩
    · exact ⟨_, _, _, rfl⟩
theorem homeLine_frame (s : State) (line : Nat) : ∃ n net ds, homeLine s line = { s with nextId := n, net := net, dies := ds } := by
  have htouch : ∃ ds, l2Touch s line true = { s with dies := ds } := by
    unfold l2Touch
    split
    · exact ⟨_, rfl⟩
    · exact ⟨_, rfl⟩
  obtain ⟨ds, htouch⟩ := htouch
  unfold homeLine
  rw [htouch]
  unfold wakeLine
  dsimp only
  split
  · exact ⟨_, _, _, rfl⟩
  · obtain ⟨_, _, _, h⟩ := foldl_net (fun s w => sendFrom s (paDie (128 * line)) 31 none (partyHome s w) (.wake w line)) _ _
      fun s x => ⟨_, _, _, rfl⟩
    exact ⟨_, _, _, h.trans rfl⟩
theorem homeWrite_frame (s : State) (bytes : Cells Byte) (bad : List Nat) :
    ∃ n net ds mb, homeWrite s bytes bad =
      { s with nextId := n, net := net, dies := ds, mem := bytes.foldl (fun m x => writeByte m x.1 x.2) s.mem, memBad := mb } := by
  unfold homeWrite
  dsimp only
  obtain ⟨_, _, _, h⟩ := foldl_net homeLine (linesOf (bytes.map (·.1))) _ homeLine_frame
  exact ⟨_, _, _, _, h⟩
/-- Bytes written one after another, each address once: memory takes them. -/
theorem readByte_writes (bytes : Cells Byte) (h : (bytes.map (·.1)).Nodup) (m : List Host.Cell) (a : Nat) :
    readByte (bytes.foldl (fun m x => writeByte m x.1 x.2) m) a = ((bytes.find? fun x => x.1 = a).map (·.2)).getD (readByte m a) := by
  induction bytes generalizing m with
  | nil => rfl
  | cons x t ih =>
    obtain ⟨hx, ht⟩ := List.nodup_cons.1 h
    rw [List.foldl_cons, ih ht, List.find?_cons, readByte_writeByte]
    by_cases ha : x.1 = a
    · subst ha
      have : t.find? (fun y => decide (y.1 = x.1)) = none :=
        List.find?_eq_none.2 fun y hy => by
          simpa using fun e : y.1 = x.1 => hx (List.mem_map.2 ⟨y, hy, e⟩)
      simp [this]
    · rw [if_neg (Ne.symm ha)]
      simp [ha]

/-! ## A part of an operation in error (R184, R187) -/

section
variable {s : State} {gid op : Nat} {g : Group} {o : Op}

theorem fold_vput_cls (ds : List (Nat × Nat)) (g : Group) : (ds.foldl (fun g d => vput g d.2 d.1 0xFFFFFFFF) g).cls = g.cls := by
  induction ds generalizing g with
  | nil => rfl
  | cons d ds ih => exact ih (vput g d.2 d.1 0xFFFFFFFF)
theorem mget_modOp_same {f : Op → Op} (h : mget s.ops op = some o) : mget (modOp s op f).ops op = some (f o) := by
  unfold modOp
  simp only [h]
  exact mget_mput_same ..
/-- An operation whose last part completes in error fails its destinations; nothing but the group's registers changes. -/
theorem failLoad_spec (s : State) (op gid : Nat) : (∃ gs, failLoad s op = { s with groups := gs }) ∧
    (grp (failLoad s op) gid).cls = (grp s gid).cls := by
  unfold failLoad
  cases h : mget s.ops op with
  | none => exact ⟨⟨_, rfl⟩, rfl⟩
  | some o =>
    dsimp only
    split
    · refine ⟨⟨_, modGrp_frame ..⟩, ?_⟩
      unfold modGrp
      cases hg : mget s.groups o.gid with
      | none => rfl
      | some g =>
        dsimp only
        rw [grp_setGrp]
        split
        · subst_vars
          rw [fold_vput_cls, grp_of_mget hg]
        · rfl
    · exact ⟨⟨_, rfl⟩, rfl⟩
/-- A part of an operation that completes in error: it is counted, and its class notes the first cause (R184, R187). -/
theorem opDone_error {cause : Byte} (ho : mget s.ops op = some o) (hgid : o.gid = gid) (hg : mget s.groups gid = some g)
    (hi : s.issue.gid ≠ gid) (he : (clsOf g o.cls).err = false) :
    let t := opDone s op (some cause)
    (∃ os gs, t = { s with ops := os, groups := gs }) ∧ (mget t.ops op).map (·.parts) = some (o.parts - 1) ∧
      (clsOf (grp t gid) o.cls).cause = cause ∧ (clsOf (grp t gid) o.cls).err = true := by
  intro t
  let b := opBatch s o
  let g' := setCls g o.cls { clsOf g o.cls with err := true, eb := b, cause := cause }
  let note (g : Group) : Group := if (clsOf g o.cls).err then g else setCls g o.cls { clsOf g o.cls with err := true, eb := b, cause := cause }
  have herror : opError s op cause = modGrp s gid note := by
    unfold opError modG
    rw [ho]
    dsimp only
    rw [hgid, modGrp_frame, if_neg hi]
  have hnote : note g = g' := by simp only [note]; rw [he]; rfl
  let u := modGrp s gid note
  have hug : mget u.groups gid = some g' := hnote ▸ mget_modGrp_same hg
  have huf : u = { s with groups := u.groups } := modGrp_frame ..
  have huo : mget u.ops op = some o := by rw [huf]; exact ho
  let w := opParts (modOp u op fun o => { o with failed := true }) op 1
  have ht : t = failLoad w op := by
    show opDone s op (some cause) = _
    unfold opDone
    dsimp only
    rw [herror]
  have hwo : mget w.ops op = some { o with failed := true, parts := o.parts - 1 } := mget_modOp_same (mget_modOp_same huo)
  have hwf : w = { u with ops := w.ops } := by
    simp only [w, opParts]
    rw [modOp_frame, modOp_frame]
  obtain ⟨⟨gs, hf⟩, hcls⟩ := failLoad_spec w op gid
  have hgw : grp w gid = g' := by rw [hwf]; exact grp_of_mget hug
  have hc : clsOf (grp t gid) o.cls = { clsOf g o.cls with err := true, eb := b, cause := cause } := by
    unfold clsOf
    rw [ht, hcls, hgw]
    simp only [g', setCls, mget_mput_same, Option.getD_some]
    rfl
  refine ⟨⟨w.ops, gs, ?_⟩, ?_, by rw [hc], by rw [hc]⟩
  · rw [ht, hf, hwf, huf]
  · have hops : t.ops = w.ops := by rw [ht, hf]
    rw [hops, hwo]
    rfl

/-- No PUTF of an operation waits: nothing is cancelled. -/
theorem cancelPutf_none {w : Nat} (h : ∀ r ∈ s.rels, ∀ acq ls, r.2.body ≠ .atomic op .putf acq ls) : cancelPutf s op w = s := by
  unfold cancelPutf
  dsimp only
  rw [List.find?_eq_none.2]
  intro r hr hc
  obtain ⟨-, hc⟩ := Bool.and_eq_true_iff.1 hc
  split at hc
  case h_1 o' acq ls hb => exact h r hr acq ls (by rw [hb, of_decide_eq_true hc])
  case h_2 => exact Bool.false_ne_true hc
/-- A write that has no answer within 1 ms completes in error; whether it was performed is free (R367, assumption 45). -/
theorem fabricRequestTimeout_spec {m : Msg} {p : Nat} {bytes : Cells Byte} (ha : s.arriving = .msg m.id) (hm : netGet s m.id = some m)
    (hh : m.home = .port p) (hat : m.at_ < 100) (hb : m.body = .write bytes [] (some op)) (hnd : (bytes.map (·.1)).Nodup)
    (ho : mget s.ops op = some o) (hgid : o.gid = gid) (hg : mget s.groups gid = some g) (hi : s.issue.gid ≠ gid)
    (hrel : ∀ r ∈ s.rels, ∀ acq ls, r.2.body ≠ .atomic op .putf acq ls) (ht : m.sentAt + Config.timeoutNs ≤ s.time)
    (he : (clsOf g o.cls).err = false) : Gives .fabricRequestTimeout s fun s t =>
      PartDone s t op ∧ (clsOf (grp t gid) o.cls).cause = 0x1F ∧ (clsOf (grp t gid) o.cls).err = true ∧
        (MemTakes bytes s t ∨ t.mem = s.mem) := by
  let s1 := { netDel s m.id with fresh := s.fresh + 1 }
  let s2 := if Config.freeBit s.fresh then homeWrite s1 bytes [] else s1
  have hexec : exec .fabricRequestTimeout s = .next (cancelPutf (opDone (sendReports s2 m.srcDie m.id m.counted) op (some 0x1F)) op m.id) := by
    show execFabricRequestTimeout s = _
    unfold execFabricRequestTimeout
    rw [ha]
    dsimp only
    rw [hm]
    dsimp only
    rw [if_neg (by omega), if_neg (by simp; omega), hh]
    dsimp only
    rw [hb]
    unfold errorOf
    rw [hb]
    unfold freeBit
    dsimp only
    cases hbit : Config.freeBit s.fresh with
    | true => rw [show s2 = homeWrite s1 bytes [] from if_pos hbit, show Config.freeBit (netDel s m.id).fresh = true from hbit]; rfl
    | false =>
      rw [show s2 = s1 from if_neg (by rw [hbit]; exact Bool.false_ne_true), show Config.freeBit (netDel s m.id).fresh = false from hbit]
      rfl
  have hs2 : ∃ n net ds mem mb, s2 = { s1 with nextId := n, net := net, dies := ds, mem := mem, memBad := mb } ∧
      (MemTakes bytes s s2 ∨ mem = s.mem) := by
    cases hbit : Config.freeBit s.fresh with
    | true =>
      obtain ⟨n, net, ds, mb, hf⟩ := homeWrite_frame s1 bytes []
      have h : s2 = homeWrite s1 bytes [] := if_pos hbit
      refine ⟨n, net, ds, _, mb, h.trans hf, .inl fun a => ?_⟩
      rw [h, homeWrite_mem]
      exact readByte_writes bytes hnd s.mem a
    | false => exact ⟨_, _, _, _, _, if_neg (by rw [hbit]; exact Bool.false_ne_true), .inr rfl⟩
  obtain ⟨n, net, ds, mem, mb, hs2, htakes⟩ := hs2
  obtain ⟨n', net', ds', hrep⟩ := sendReports_frame s2 m.srcDie m.id m.counted
  let s3 := sendReports s2 m.srcDie m.id m.counted
  have hs3 : s3 = { s1 with nextId := n', net := net', dies := ds', mem := mem, memBad := mb } := hrep.trans (by rw [hs2])
  have hmem3 : s3.mem = s2.mem := by rw [hs3, hs2]
  obtain ⟨⟨os, gs, hf⟩, hparts, hcause, herr⟩ := opDone_error (s := s3) (cause := 0x1F) (by rw [hs3]; exact ho) hgid (by rw [hs3]; exact hg)
    (by rw [hs3]; exact hi) he
  have hcancel : cancelPutf (opDone s3 op (some 0x1F)) op m.id = opDone s3 op (some 0x1F) := by
    have hrels : (opDone s3 op (some 0x1F)).rels = s.rels := by rw [hf, hs3]; rfl
    exact cancelPutf_none (by rw [hrels]; exact hrel)
  refine ⟨_, hexec, ?_⟩
  rw [show sendReports s2 m.srcDie m.id m.counted = s3 from rfl, hcancel]
  refine ⟨by unfold PartDone; rw [hparts, ho]; rfl, hcause, herr, htakes.imp (fun h a => ?_) fun h => ?_⟩
  · rw [hf, hmem3]
    exact h a
  · rw [hf, hmem3, hs2]
    exact h

/-- A request whose 1 ms is not over keeps waiting (R367). -/
theorem fabricRequestTimeout_early {m : Msg} (ha : s.arriving = .msg m.id) (hm : netGet s m.id = some m)
    (ht : s.time < m.sentAt + Config.timeoutNs) : exec .fabricRequestTimeout s = .next s := by
  show execFabricRequestTimeout s = _
  unfold execFabricRequestTimeout
  rw [ha]
  dsimp only
  rw [hm]
  dsimp only
  rw [if_pos ht]

end

/-- Settles O43: each arrival by the equation of its handler. -/
theorem wakesAndControl : Obligations.WakesAndControl := by
  intro s m gid g hg
  have hgrp : grp (netDel s m.id) gid = g := grp_of_mget hg
  have hgroup : partyHome (netDel s m.id) (.group gid) = .core g.core := congrArg (fun y : Group => Home.core y.core) hgrp
  have hwaita : partyHome (netDel s m.id) (.waita gid) = .core g.core := congrArg (fun y : Group => Home.core y.core) hgrp
  refine ⟨fun ha => ⟨fun line hb hh hp => ?_, fun who line hb hwho hh => ?_, fun pa n e line k hb hh hw => ?_,
      fun ctx cid d k e c hb hh hc => collectiveControl_spec ha hb hh hc, fun v hb => promoteRequest_spec (grp_of_mget hg) ha hb,
      fun h req hb hh hop hlen hres => promoteAcknowledge_spec hg ha hb hh hop hlen hres,
      fun p c v rest hb _ hv hc => invalidationMessage_spec ha hb hv hc,
      fun gr node recs d x n hb hh hx hrun hover hn hbuf hne hlt => gatherRecordArrival_spec ha hb hh hx hrun hover hn hbuf hne hlt⟩,
    fun req ha hm _ hu hw => ?_,
    fun p bytes op o ha hm hh hat hb hnd ho hgid hi hrel => ⟨fabricRequestTimeout_early ha hm,
      fabricRequestTimeout_spec ha hm hh hat hb hnd ho hgid hg hi hrel⟩,
    fun id h d gr node recs ha hh hr hs _ hrec => portSignalRelease_spec ha hh hr hs hrec⟩
  · exact ⟨_, (exec_monitorWake ha hb).trans (by rw [hgroup, if_pos hh]; rfl), wakeGroup_parked (s := netDel s m.id) hg hp line⟩
  · have hparty : partyHome (netDel s m.id) who = .core g.core := by
      rcases hwho with rfl | rfl
      · exact hgroup
      · exact hwaita
    exact ⟨netDel s m.id, (exec_monitorWake ha hb).trans (by rw [hparty, if_neg hh]), rfl, rfl, rfl⟩
  · obtain ⟨h1, h2, h3⟩ := wakeWaita_spec hgrp hw
    exact ⟨wakeWaita (netDel s m.id) gid, (exec_monitorWake ha hb).trans (by rw [hwaita, if_pos hh]; rfl), h1, h2, h3, wakeWaita_mem ..⟩
  · exact congrArg _ (onMessage_waiting ha hm hu (arrived_of_waiting hw))

end Sys2Proof.Machine
end

section
/-! PROOFS. The start of a team that must wait for its ways (R179), where the L1 is no map (O51). -/

namespace Sys2Proof.Machine

/-- Core 0's L1 lists line 5 before line 0, so its keys do not rise. Teams 2 and 3 of grid 1 pin ways 0 and 1, in which lines 5 and 0
lie; a fill of line 0 is on its way to the core. -/
def startAhead : State where
  grids := [(1, {})]
  teams := [(2, { grid := 1, index := 0, core := 0, ways := [0], started := false, swept := 0 }),
    (3, { grid := 1, index := 1, core := 0, ways := [1], started := false, swept := 0 })]
  cores := [(0, { l1 := [(5, { words := [(0, { val := 0 })], way := 0 }), (0, { words := [(0, { val := 0 })], way := 1 })] })]
  net := [{ id := 1, srcDie := 0, srcCore := 0, home := .slice 0 0, body := .read 0 [1] (.load 11 .b32 [] [] [1] false) }]

/-- Team 2's pinning deletes line 5, and with it, the keys not rising, line 0: team 3 finds no line to wait for and starts. -/
theorem startAhead_starts : (startTeams startAhead 1 0).teams.all (fun y => y.2.started) = true := by decide

/-- Refutes O51: its clause about a team whose line a fill is on its way to does not ask, as the clause before it does, that the keys of
the core's L1 rise. -/
theorem not_gridEvents : ¬ Obligations.GridEvents := by
  intro h
  obtain ⟨-, -, -, hwait, -⟩ := h startAhead 1 0 {} rfl
  obtain ⟨u, hexec, y, hy, -, hstart⟩ := hwait (3, { grid := 1, index := 1, core := 0, ways := [1], started := false, swept := 0 })
    (by decide) (by decide) rfl (by decide) rfl rfl ⟨(0, { words := [(0, { val := 0 })], way := 1 }), by decide, by decide, by decide, by decide⟩
  have hu : u = startTeams startAhead 1 0 := (Host.Outcome.next.inj hexec).symm
  rw [hu] at hy
  have := List.all_eq_true.1 startAhead_starts y hy
  rw [hstart] at this
  exact Bool.false_ne_true this

end Sys2Proof.Machine
end

section
/-! PROOFS. Time slices and pre-emption (R30, R229, R326, R330 to R332, R338, R388). -/

namespace Sys2Proof.Machine

/-! ## What a context's leaving changes -/

/-- Waits that are abandoned change front ends, monitors and walks. -/
theorem abandonWaits_frame (s : State) (p ctx : Nat) :
    ∃ fs ds ws, abandonWaits s p ctx = { s with fes := fs, dies := ds, walks := ws } := by
  unfold abandonWaits
  generalize mappedQueues s = l
  induction l generalizing s with
  | nil => exact ⟨_, _, _, rfl⟩
  | cons x l ih =>
    rw [List.foldl_cons]
    dsimp only
    split
    · exact ih s
    · obtain ⟨fs, ds, ws, h⟩ := ih _
      exact ⟨fs, ds, ws, h.trans rfl⟩
/-- Cores that are asked to give up a context: nothing but their requests changes. -/
theorem askCores_spec (p ctx : Nat) (cs : List Nat) (s : State) :
    (∃ ks, askCores s p ctx cs = { s with cores := ks }) ∧
      (∀ c ∈ cs, (core (askCores s p ctx cs) c).preempt = some (p, ctx)) ∧
      ∀ c, c ∉ cs → core (askCores s p ctx cs) c = core s c := by
  unfold askCores
  induction cs generalizing s with
  | nil => exact ⟨⟨_, rfl⟩, fun _ h => absurd h (by simp), fun _ _ => rfl⟩
  | cons k cs ih =>
    obtain ⟨⟨ks, hf⟩, hin, hout⟩ := ih (modCore s k fun y => { y with preempt := some (p, ctx) })
    rw [List.foldl_cons]
    refine ⟨⟨ks, hf⟩, fun c hc => ?_, fun c hc => ?_⟩
    · by_cases h : c ∈ cs
      · exact hin c h
      · rw [hout c h, core_modCore, if_pos ((List.mem_cons.1 hc).resolve_right h)]
    · rw [List.mem_cons, not_or] at hc
      rw [hout c hc.2, core_modCore, if_neg hc.1]
theorem mem_insertNat_iff {k : Nat} (l : List Nat) (j : Nat) : k ∈ insertNat l j ↔ k = j ∨ k ∈ l := by
  have := mem_foldl_insertNat (k := k) [j] l
  rw [List.foldl_cons, List.foldl_nil, List.mem_singleton] at this
  rw [this, or_comm]

/-! ## TIME_SLICE_EXPIRE (R330) -/

section
variable {s : State} {p : Nat}

/-- The first slice of a partition. -/
theorem timeSliceExpire_first {next : Nat} {rest : List Nat} (hr : roundOf s p = next :: rest) (hx : (part s p).slice = none) :
    exec (.timeSliceExpire p) s = .next (modPart s p fun x => { x with
      slice := some next, sliceEnd := s.time + sliceNs s p next, lost := x.lost.filter (·.1 != next) }) := by
  show execTimeSliceExpire p s = _
  unfold execTimeSliceExpire
  simp only [hr, hx, nextInRound, List.head?_cons, Bool.or_self, Bool.false_eq_true, if_false]
  unfold modPart
  simp only [hx, reduceCtorEq, if_false]
/-- A partition's block as the next context's slice begins (R330, R388). -/
def nextSlice (s : State) (p next : Nat) (x : Part) : Part :=
  { x with slice := some next, sliceEnd := s.time + sliceNs s p next
           lost := if x.slice = some next then x.lost else x.lost.filter (·.1 != next) }
/-- A slice that hands over to another context. -/
theorem timeSliceExpire_next {next old : Nat} (hx : (part s p).slice = some old) (he : (part s p).sliceEnd ≤ s.time)
    (hh : halfSignal s p old = false) (hn : nextInRound s p (roundOf s p) (part s p).slice = some next) (hne : old ≠ next) :
    let t := askLeaving (leaveSlice s p old) p old
    exec (.timeSliceExpire p) s = .next (modPart t p (nextSlice t p next)) := by
  show execTimeSliceExpire p s = _
  unfold execTimeSliceExpire
  rw [hx] at hn
  simp only [hx, hh, hn, decide_eq_false (Nat.not_lt.2 he), Bool.and_false, Bool.or_self, Bool.false_eq_true, if_false, if_neg hne]
  rfl
/-- What a context that gives up its cores leaves as it was. -/
theorem leaveSlice_spec (s : State) (p ctx : Nat) :
    let t := leaveSlice s p ctx
    (∃ fs ds ws gs, t = { s with fes := fs, dies := ds, walks := ws, grids := gs }) ∧
      ∀ k, mget t.grids k = (mget s.grids k).map fun g => if g.part = p && g.ctx = ctx then
        { g with reserve := g.reserve.filter fun r => reserveBusy s k r.1 } else g := by
  obtain ⟨fs, ds, ws, hf⟩ := abandonWaits_frame s p ctx
  unfold leaveSlice
  dsimp only
  rw [hf]
  exact ⟨⟨_, _, _, _, rfl⟩, fun k => mget_mmap ..⟩

/-! ## The cores of an outgoing context (R229, R330, assumption 93) -/

theorem writeBackLine_preempt (s : State) (c line : Nat) (ws : List Nat) (gid ack : Option Nat) (d : Nat) :
    (core (writeBackLine s c gid ack line ws).1 d).preempt = (core s d).preempt := by
  cases he : (dirtyOf s c line ws).isEmpty with
  | true => rw [writeBackLine_none gid ack he]
  | false =>
    obtain ⟨f, -, ht⟩ := writeBackLine_some gid ack he
    rw [ht, core_modCore]
    split
    · subst_vars; rfl
    · rfl
theorem writeBack_preempt (s : State) (c : Nat) (gid ack : Option Nat) (sel : Nat → Nat → Bool) (d : Nat) :
    (core (writeBack s c gid ack sel).1 d).preempt = (core s d).preempt := by
  have hfold (ls : List (Nat × L1Line)) (x : State × List Nat) : (core (ls.foldl (fun (x : State × List Nat) l =>
      let (t, ns) := writeBackLine x.1 c gid ack l.1 (allWords.filter (sel l.1))
      (t, x.2 ++ ns)) x).1 d).preempt = (core x.1 d).preempt := by
    induction ls generalizing x with
    | nil => rfl
    | cons l ls ih => exact (ih _).trans (writeBackLine_preempt ..)
  exact hfold _ _
theorem writeLeft_spec (s : State) (c : Nat) : (∃ ks n net, writeLeft s c = { s with cores := ks, nextId := n, net := net }) ∧
    ∀ d, (core (writeLeft s c) d).preempt = (core s d).preempt := by
  unfold writeLeft
  dsimp only
  refine ⟨?_, fun d => (writeBack_preempt ..).trans ?_⟩
  · obtain ⟨⟨n, net, cs, hf⟩, -, -⟩ := (writeBack_spec (modCore s c fun k => { k with l1 := mmap k.l1 fun _ l => { l with
      words := mmap l.words fun _ w => { w with by_ := w.by_.filter fun g => (mget s.groups g).isSome } } }) c none none
      fun line w => ((mget (l1Line s c line).words w).map (leftBehind s)).getD false).1
    exact ⟨cs, n, net, hf⟩
  · rw [core_modCore]
    split
    · subst_vars; rfl
    · rfl
theorem writeLefts_spec (l : List Nat) (s : State) : (∃ ks n net, l.foldl writeLeft s = { s with cores := ks, nextId := n, net := net }) ∧
    ∀ d, (core (l.foldl writeLeft s) d).preempt = (core s d).preempt := by
  induction l generalizing s with
  | nil => exact ⟨⟨_, _, _, rfl⟩, fun _ => rfl⟩
  | cons c l ih =>
    obtain ⟨⟨ks, n, net, hf⟩, hp⟩ := writeLeft_spec s c
    obtain ⟨⟨ks', n', net', hf'⟩, hp'⟩ := ih (writeLeft s c)
    exact ⟨⟨ks', n', net', by rw [List.foldl_cons, hf', hf]⟩, fun d => (hp' d).trans (hp d)⟩
/-- Every core where an ending slice's context has teams, or left dirty words that no team now stands by, is asked to give it up. -/
theorem askLeaving_spec (s : State) (p ctx c : Nat) : (∃ ks n net, askLeaving s p ctx = { s with cores := ks, nextId := n, net := net }) ∧
    (c ∈ coresOf s p ctx ∨ (c ∈ leftCores s p ctx ∧ coreCtxs s c = []) → (core (askLeaving s p ctx) c).preempt = some (p, ctx)) := by
  unfold askLeaving
  dsimp only
  obtain ⟨⟨ks, hf⟩, hin, -⟩ := askCores_spec p ctx (coresOf s p ctx ++ (leftCores s p ctx).filter fun c => (coreCtxs s c).isEmpty) s
  obtain ⟨⟨ks', n, net, hf'⟩, hp⟩ := writeLefts_spec ((leftCores s p ctx).filter fun c =>
    !(coreCtxs (askCores s p ctx (coresOf s p ctx ++ (leftCores s p ctx).filter fun c => (coreCtxs s c).isEmpty)) c).isEmpty)
    (askCores s p ctx (coresOf s p ctx ++ (leftCores s p ctx).filter fun c => (coreCtxs s c).isEmpty))
  refine ⟨⟨ks', n, net, hf'.trans (by rw [hf])⟩, fun h => (hp c).trans (hin c ?_)⟩
  rcases h with h | ⟨h, he⟩
  · exact List.mem_append_left _ h
  · exact List.mem_append_right _ (List.mem_filter.2 ⟨h, by rw [he]; rfl⟩)

theorem mem_coresOf (s : State) (p ctx c : Nat) : c ∈ coresOf s p ctx ↔
    ∃ t ∈ s.teams, (grid s t.2.grid).part = p ∧ (grid s t.2.grid).ctx = ctx ∧ t.2.core = c := by
  unfold coresOf
  have hfold (l : List (Nat × Team)) (acc : List Nat) : c ∈ l.foldl (fun l t => let g := grid s t.2.grid
      if g.part = p && g.ctx = ctx then insertNat l t.2.core else l) acc ↔
      c ∈ acc ∨ ∃ t ∈ l, (grid s t.2.grid).part = p ∧ (grid s t.2.grid).ctx = ctx ∧ t.2.core = c := by
    induction l generalizing acc with
    | nil => simp
    | cons t l ih =>
      refine (ih _).trans ?_
      simp only [List.mem_cons, exists_eq_or_imp]
      split
      case isTrue h =>
        rw [Bool.and_eq_true, decide_eq_true_eq, decide_eq_true_eq] at h
        rw [mem_insertNat_iff]
        simp only [h, true_and, eq_comm (a := c)]
        tauto
      case isFalse h =>
        rw [Bool.and_eq_true, decide_eq_true_eq, decide_eq_true_eq, not_and_or] at h
        tauto
  simpa using hfold s.teams []
theorem mem_leftCores (s : State) (p ctx c : Nat) : c ∈ leftCores s p ctx ↔
    (∃ g ∈ s.grids, (g.2.part = p ∧ g.2.ctx = ctx ∧ g.2.isOver = false) ∧ c ∈ g.2.cores) ∧ (coreCtxs s c).contains (p, ctx) = false ∧
      (core s c).preempt = none ∧ dirtyL1 s c = true := by
  unfold leftCores
  have hfold (l : List (Nat × Grid)) (acc : List Nat) : c ∈ l.foldl (fun l g => g.2.cores.foldl insertNat l) acc ↔
      c ∈ acc ∨ ∃ g ∈ l, c ∈ g.2.cores := by
    induction l generalizing acc with
    | nil => simp
    | cons g l ih =>
      refine (ih _).trans ?_
      rw [mem_foldl_insertNat, or_assoc]
      simp
  rw [List.mem_filter, hfold]
  simp [List.mem_filter, and_assoc]

/-- Grids that differ in what they reserve alone have the same cores to leave. -/
theorem leaving_congr {s u : State} {p ctx c : Nat} (hf : ∃ fs ds ws gs, u = { s with fes := fs, dies := ds, walks := ws, grids := gs })
    (hg : u.grids = mmap s.grids fun k g => if g.part = p && g.ctx = ctx then { g with reserve := g.reserve.filter fun r => reserveBusy s k r.1 } else g)
    (h : c ∈ coresOf s p ctx ∨ (c ∈ leftCores s p ctx ∧ coreCtxs s c = [])) :
    c ∈ coresOf u p ctx ∨ (c ∈ leftCores u p ctx ∧ coreCtxs u c = []) := by
  obtain ⟨fs, ds, ws, gs, hf⟩ := hf
  have hgrid (k : Nat) : (grid u k).part = (grid s k).part ∧ (grid u k).ctx = (grid s k).ctx := by
    unfold grid
    rw [hg, mget_mmap]
    cases mget s.grids k with
    | none => exact ⟨rfl, rfl⟩
    | some g => rw [Option.map_some, Option.getD_some, Option.getD_some]; split <;> exact ⟨rfl, rfl⟩
  have hteams : u.teams = s.teams := by rw [hf]
  have hctxs : coreCtxs u c = coreCtxs s c := by
    unfold coreCtxs
    rw [hteams]
    exact List.map_congr_left fun t _ => by rw [(hgrid _).1, (hgrid _).2]
  rcases h with h | ⟨h, he⟩
  · obtain ⟨t, ht, h1, h2, h3⟩ := (mem_coresOf s p ctx c).1 h
    exact .inl ((mem_coresOf u p ctx c).2 ⟨t, by rw [hteams]; exact ht, by rw [(hgrid _).1, h1], by rw [(hgrid _).2, h2], h3⟩)
  · obtain ⟨⟨g, hgm, ⟨h1, h2, h3⟩, hc⟩, h4, h5, h6⟩ := (mem_leftCores s p ctx c).1 h
    refine .inr ⟨(mem_leftCores u p ctx c).2 ⟨⟨(g.1, _), by rw [hg]; exact List.mem_map_of_mem hgm, ?_⟩, by rw [hctxs, h4], ?_, ?_⟩, by rw [hctxs, he]⟩
    · dsimp only
      split <;> exact ⟨⟨h1, h2, h3⟩, hc⟩
    · rw [hf]; exact h5
    · rw [hf]; exact h6

end

theorem leaveSlice_grids (s : State) (p ctx : Nat) : (leaveSlice s p ctx).grids = mmap s.grids fun k g =>
    if g.part = p && g.ctx = ctx then { g with reserve := g.reserve.filter fun r => reserveBusy s k r.1 } else g := by
  obtain ⟨fs, ds, ws, hf⟩ := abandonWaits_frame s p ctx
  unfold leaveSlice
  dsimp only
  rw [hf]
  rfl
/-- The slice of the next context begins; the outgoing one's cores are asked, and its free reservations are gone (R43, R229, R330). -/
theorem timeSliceExpire_hands {s : State} {p c next old : Nat} (hx : (part s p).slice = some old) (he : (part s p).sliceEnd ≤ s.time)
    (hh : halfSignal s p old = false) (hn : nextInRound s p (roundOf s p) (part s p).slice = some next) (hne : old ≠ next) :
    Gives (.timeSliceExpire p) s fun _ t => (part t p).slice = some next ∧
      (c ∈ coresOf s p old ∨ (c ∈ leftCores s p old ∧ coreCtxs s c = []) → (core t c).preempt = some (p, old)) ∧
      ∀ k y, mget s.grids k = some y → y.part = p → y.ctx = old → (∀ e, reserveBusy s k e = false) → (grid t k).reserve = [] := by
  let u := leaveSlice s p old
  obtain ⟨hf, -⟩ := leaveSlice_spec s p old
  obtain ⟨⟨ks, n, net, hask⟩, hpre⟩ := askLeaving_spec u p old c
  refine ⟨_, timeSliceExpire_next hx he hh hn hne, ?_, fun h => ?_, fun k y hk hp hc hb => ?_⟩
  · rw [part_modPart, if_pos rfl]
    rfl
  · exact hpre (leaving_congr hf (leaveSlice_grids s p old) h)
  · show (grid (askLeaving u p old) k).reserve = []
    rw [hask]
    show ((mget u.grids k).getD {}).reserve = []
    rw [leaveSlice_grids, mget_mmap, hk, Option.map_some, Option.getD_some, if_pos (by simp [hp, hc])]
    exact List.filter_eq_nil_iff.2 fun r _ => by simp [hb]

/-! ## PREEMPT_REQUEST (R331, R332, R338) -/

theorem mem_gangCover (s : State) (c : Nat) : ∀ n cs, c ∈ cs → c ∈ gangCover s n cs
  | 0, _, h => h
  | n + 1, cs, h => by
    have hfold (gs : List (Nat × Nat)) (l : List (Nat × Team)) (acc : List Nat) (hc : c ∈ acc) : c ∈ l.foldl (fun l t =>
        if t.2.node.isNone && gs.contains (t.2.grid, t.2.index / (grid s t.2.grid).gang) then insertNat l t.2.core else l) acc := by
      induction l generalizing acc with
      | nil => exact hc
      | cons t l ih =>
        refine ih _ ?_
        dsimp only
        split
        · exact (mem_insertNat_iff _ _).2 (.inr hc)
        · exact hc
    exact mem_gangCover s c n _ (hfold _ _ _ h)
/-- A core that holds teams of a context is asked to give it up, and the context starts no more; what class-0 work takes is lost. -/
theorem preemptRequest_spec {s : State} {p ctx c : Nat} (hh : halfSignal s p ctx = false) (hc : (coreCtxs s c).contains (p, ctx) = true) :
    Gives (.preemptRequest p ctx [c]) s fun _ t => (core t c).preempt = some (p, ctx) ∧ ctx ∈ (part t p).stopped ∧ t.groups = s.groups ∧
      (forClass0 s p ctx [c] = true → (ctx, c) ∈ (part t p).lost) := by
  let cs := (gangCover s 24 ([c].foldl insertNat [])).filter fun c => (coreCtxs s c).contains (p, ctx)
  let taken := if forClass0 s p ctx [c] then (cs.map fun c => (ctx, c)).filter fun l => !(part s p).lost.contains l else []
  have hcs : c ∈ cs := List.mem_filter.2 ⟨mem_gangCover s c _ _ ((mem_foldl_insertNat [c] []).2 (.inr (List.mem_singleton.2 rfl))), hc⟩
  obtain ⟨fs, ds, ws, hab⟩ := abandonWaits_frame s p ctx
  obtain ⟨⟨ks, hask⟩, hin, -⟩ := askCores_spec p ctx cs (abandonWaits s p ctx)
  have hexec : exec (.preemptRequest p ctx [c]) s = .next (modPart (askCores (abandonWaits s p ctx) p ctx cs) p fun x =>
      { x with stopped := insertNat x.stopped ctx, lost := x.lost ++ taken }) := by
    show execPreemptRequest p ctx [c] s = _
    unfold execPreemptRequest
    rw [hh]
    dsimp only
    rw [if_neg Bool.false_ne_true, if_neg (show ¬cs.isEmpty = true from fun h => by rw [List.isEmpty_iff.1 h] at hcs; exact absurd hcs (by simp))]
  have hpart : part (askCores (abandonWaits s p ctx) p ctx cs) p = part s p := by rw [hask, hab]; rfl
  refine ⟨_, hexec, hin c hcs, ?_, ?_, fun h0 => ?_⟩
  · rw [part_modPart, if_pos rfl]
    exact (mem_insertNat_iff _ _).2 (.inl rfl)
  · show (askCores (abandonWaits s p ctx) p ctx cs).groups = s.groups
    rw [hask, hab]
  · rw [part_modPart, if_pos rfl, hpart]
    show (ctx, c) ∈ (part s p).lost ++ taken
    by_cases hl : (ctx, c) ∈ (part s p).lost
    · exact List.mem_append_left _ hl
    · refine List.mem_append_right _ ?_
      rw [show taken = _ from if_pos h0]
      exact List.mem_filter.2 ⟨List.mem_map_of_mem hcs, by simpa using hl⟩

end Sys2Proof.Machine
end

section
/-! PROOFS. Numbers written to memory and read back (R118, R154), and blocks of them (R333): what a list of writes leaves at each byte. -/

namespace Sys2Proof.Machine

/-! ## A number at an address -/

theorem bytesOf_length : ∀ n x, (bytesOf n x).length = n
  | 0, _ => rfl
  | n + 1, x => congrArg (· + 1) (bytesOf_length n (x / 256))
theorem bytesOf_getElem : ∀ n x i, (h : i < (bytesOf n x).length) → (bytesOf n x)[i] = BitVec.ofNat 8 (x / 256 ^ i)
  | 0, _, _, h => absurd h (by simp [bytesOf])
  | n + 1, x, 0, _ => by simp [bytesOf]
  | n + 1, x, i + 1, h => by
    show (bytesOf n (x / 256))[i]'_ = _
    rw [bytesOf_getElem n (x / 256) i, Nat.div_div_eq_div_mul, Nat.pow_succ']
/-- Cells written one after another from an address up are bytes written there. -/
theorem foldl_writeByte_mapIdx (bs : List Byte) (m : List Host.Cell) (a : Nat) :
    (bs.mapIdx fun i b => (a + i, b)).foldl (fun m x => writeByte m x.1 x.2) m = writeBytes m a bs := by
  induction bs generalizing m a with
  | nil => rfl
  | cons b bs ih =>
    rw [List.mapIdx_cons, List.foldl_cons, writeBytes, ← ih]
    simp only [Nat.add_zero, Nat.add_comm 1, Nat.add_assoc]
theorem homeWriteNum_mem (s : State) (a n x : Nat) : (homeWriteNum s a n x).mem = writeNum s.mem a n x :=
  (homeWrite_mem ..).trans (foldl_writeByte_mapIdx ..)
theorem readByte_writeNum (m : List Host.Cell) (a n x b : Nat) :
    readByte (writeNum m a n x) b = if a ≤ b ∧ b < a + n then BitVec.ofNat 8 (x / 256 ^ (b - a)) else readByte m b := by
  split
  · next h =>
    have hb : b - a < (bytesOf n x).length := by rw [bytesOf_length]; omega
    have hr := readByte_writeBytes_inside (bytesOf n x) m a (b - a) hb
    rw [bytesOf_getElem] at hr
    rwa [show a + (b - a) = b by omega] at hr
  · exact readByte_writeBytes_outside _ _ _ _ (by rw [bytesOf_length]; omega)
theorem readNum_congr {m m' : List Host.Cell} {a a' : Nat} : ∀ {n : Nat}, (∀ i, i < n → readByte m (a + i) = readByte m' (a' + i)) →
    readNum m a n = readNum m' a' n := by
  intro n
  induction n generalizing a a' with
  | zero => exact fun _ => rfl
  | succ n ih =>
    intro h
    show (readByte m a).toNat + 256 * readNum m (a + 1) n = (readByte m' a').toNat + 256 * readNum m' (a' + 1) n
    rw [show readByte m a = readByte m' a' from h 0 (by omega), ih (a := a + 1) (a' := a' + 1) fun i hi => by
      rw [show a + 1 + i = a + (i + 1) by omega, show a' + 1 + i = a' + (i + 1) by omega]; exact h (i + 1) (by omega)]
/-- Bytes that spell a number read as that number. -/
theorem readNum_of_bytes {m : List Host.Cell} {a x : Nat} : ∀ {n : Nat}, (∀ i, i < n → readByte m (a + i) = BitVec.ofNat 8 (x / 256 ^ i)) →
    readNum m a n = x % 256 ^ n := by
  intro n
  induction n generalizing a x with
  | zero => exact fun _ => (Nat.mod_one x).symm
  | succ n ih =>
    intro h
    have h0 : readByte m a = BitVec.ofNat 8 x := by simpa using h 0 (by omega)
    have ht : readNum m (a + 1) n = x / 256 % 256 ^ n := ih fun i hi => by
      rw [show a + 1 + i = a + (i + 1) by omega, h (i + 1) (by omega), Nat.div_div_eq_div_mul, Nat.pow_succ']
    show (readByte m a).toNat + 256 * readNum m (a + 1) n = _
    rw [h0, ht, BitVec.toNat_ofNat, show 256 ^ (n + 1) = 256 * 256 ^ n from Nat.pow_succ', Nat.mod_mul]
theorem readNum_one (m : List Host.Cell) (a : Nat) : readNum m a 1 = (readByte m a).toNat := by
  simp [readNum, readBytes, ofBytes]
theorem readNum_writeNum_same (m : List Host.Cell) (a n x : Nat) : readNum (writeNum m a n x) a n = x % 256 ^ n :=
  readNum_of_bytes fun i hi => by rw [readByte_writeNum, if_pos (by omega), Nat.add_sub_cancel_left]
theorem readNum_writeNum_apart {m : List Host.Cell} {a n x b k : Nat} (h : b + k ≤ a ∨ a + n ≤ b) :
    readNum (writeNum m a n x) b k = readNum m b k :=
  readNum_congr fun i hi => by rw [readByte_writeNum, if_neg (by omega)]
theorem readNum_lt (m : List Host.Cell) (a n : Nat) : readNum m a n < 256 ^ n := by
  induction n generalizing a with
  | zero => exact Nat.one_pos
  | succ n ih =>
    show (readByte m a).toNat + 256 * readNum m (a + 1) n < _
    have := (readByte m a).isLt
    have := ih (a + 1)
    rw [Nat.pow_succ']
    omega

/-! ## Lists of writes -/

/-- A byte at an offset after one write. -/
def putAt (o : Nat) (b : Byte) (u : Put) : Byte := if u.1 ≤ o ∧ o < u.1 + u.2.1 then BitVec.ofNat 8 (u.2.2 / 256 ^ (o - u.1)) else b
/-- The byte at an offset of a block that held zeros. -/
def byteAt (ps : List Put) (o : Nat) : Byte := ps.foldl (putAt o) 0
/-- The writes of a list lie in a range of offsets. -/
def Within (lo hi : Nat) (ps : List Put) : Prop := ∀ u ∈ ps, lo ≤ u.1 ∧ u.1 + u.2.1 ≤ hi
/-- The writes of a list follow one another in a range of offsets. -/
def Laid : Nat → Nat → List Put → Prop
  | lo, hi, [] => lo ≤ hi
  | lo, hi, u :: t => lo ≤ u.1 ∧ Laid (u.1 + u.2.1) hi t

theorem Within.flatten {lo hi : Nat} {pss : List (List Put)} (h : ∀ ps ∈ pss, Within lo hi ps) : Within lo hi pss.flatten := fun u hu =>
  let ⟨ps, hps, hu⟩ := List.mem_flatten.1 hu
  h ps hps u hu

theorem Laid.le {lo hi : Nat} {ps : List Put} (h : Laid lo hi ps) : lo ≤ hi := by
  induction ps generalizing lo with
  | nil => exact h
  | cons u t ih => have := ih h.2; have := h.1; omega
theorem Laid.mono_left {lo lo' hi : Nat} {ps : List Put} (h : Laid lo hi ps) (hl : lo' ≤ lo) : Laid lo' hi ps := by
  cases ps with
  | nil => exact hl.trans h
  | cons u t => exact ⟨hl.trans h.1, h.2⟩
theorem Laid.append {lo mid hi : Nat} {a b : List Put} (ha : Laid lo mid a) (hb : Laid mid hi b) : Laid lo hi (a ++ b) := by
  induction a generalizing lo with
  | nil => exact hb.mono_left ha
  | cons u t ih => exact ⟨ha.1, ih ha.2⟩
theorem Laid.within {lo hi : Nat} {ps : List Put} (h : Laid lo hi ps) : Within lo hi ps := by
  induction ps generalizing lo with
  | nil => exact fun _ h => absurd h (by simp)
  | cons u t ih =>
    obtain ⟨hu, ht⟩ := h
    intro w hw
    rcases List.mem_cons.1 hw with rfl | hw
    · exact ⟨hu, ht.le⟩
    · have := ih ht w hw
      omega
/-- Writes laid out in turn, those of each thing in its own stretch. -/
theorem laid_flatten (st : Nat) (pss : List (List Put)) (lo hi : Nat)
    (h : ∀ i ps, pss[i]? = some ps → Laid (lo + st * i) (lo + st * (i + 1)) ps) (hh : lo + st * pss.length ≤ hi) : Laid lo hi pss.flatten := by
  induction pss generalizing lo with
  | nil => simpa [Laid] using hh
  | cons ps pss ih =>
    rw [List.flatten_cons]
    refine Laid.append (mid := lo + st) (by simpa using h 0 ps rfl) (ih _ (fun i y hy => ?_) ?_)
    · have := h (i + 1) y hy
      rwa [show lo + st * (i + 1) = lo + st + st * i by ring, show lo + st * (i + 1 + 1) = lo + st + st * (i + 1) by ring] at this
    · rw [List.length_cons] at hh
      linarith
/-- Single writes laid out in turn. -/
theorem laid_list (st : Nat) (ps : List Put) (lo hi : Nat)
    (h : ∀ i u, ps[i]? = some u → lo + st * i ≤ u.1 ∧ u.1 + u.2.1 ≤ lo + st * (i + 1)) (hh : lo + st * ps.length ≤ hi) : Laid lo hi ps := by
  induction ps generalizing lo with
  | nil => simpa [Laid] using hh
  | cons u ps ih =>
    obtain ⟨h0, h1⟩ : lo ≤ u.1 ∧ u.1 + u.2.1 ≤ lo + st := by simpa using h 0 u rfl
    refine ⟨h0, (ih (lo + st) (fun i y hy => ?_) ?_).mono_left h1⟩
    · have := h (i + 1) y hy
      rwa [show lo + st * (i + 1) = lo + st + st * i by ring, show lo + st * (i + 1 + 1) = lo + st + st * (i + 1) by ring] at this
    · rw [List.length_cons] at hh
      linarith
/-- A block's writes moved to a place in a larger one. -/
theorem Laid.shift {lo hi : Nat} {ps : List Put} (k : Nat) (h : Laid lo hi ps) : Laid (k + lo) (k + hi) (ps.map fun u => (k + u.1, u.2)) := by
  induction ps generalizing lo with
  | nil => exact Nat.add_le_add_left h k
  | cons u t ih =>
    refine ⟨Nat.add_le_add_left h.1 k, ?_⟩
    show Laid (k + u.1 + u.2.1) _ _
    rw [Nat.add_assoc]
    exact ih h.2
theorem getElem?_map_range {α : Type} {f : Nat → α} {n i : Nat} {x : α} (h : ((List.range n).map f)[i]? = some x) : i < n ∧ f i = x := by
  obtain ⟨k, hk, rfl⟩ := Option.map_eq_some_iff.1 (List.getElem?_map .. ▸ h)
  obtain ⟨hi, rfl⟩ := List.getElem?_eq_some_iff.1 hk
  rw [List.getElem_range]
  exact ⟨by simpa using hi, rfl⟩
theorem getElem?_mapIdx_some {α β : Type} {f : Nat → α → β} {l : List α} {i : Nat} {x : β} (h : (l.mapIdx f)[i]? = some x) :
    ∃ y, l[i]? = some y ∧ f i y = x := Option.map_eq_some_iff.1 (List.getElem?_mapIdx .. ▸ h)

/-! ## Reading a byte of a block -/

theorem putAt_apart {o : Nat} {b : Byte} {u : Put} (h : o < u.1 ∨ u.1 + u.2.1 ≤ o) : putAt o b u = b := if_neg (by omega)
theorem foldl_putAt_apart {o : Nat} {ps : List Put} (b : Byte) (h : ∀ u ∈ ps, o < u.1 ∨ u.1 + u.2.1 ≤ o) : ps.foldl (putAt o) b = b := by
  induction ps with
  | nil => rfl
  | cons u t ih => rw [List.foldl_cons, putAt_apart (h u (by simp)), ih fun w hw => h w (by simp [hw])]
theorem byteAt_apart {o : Nat} {ps : List Put} (h : ∀ u ∈ ps, o < u.1 ∨ u.1 + u.2.1 ≤ o) : byteAt ps o = 0 := foldl_putAt_apart 0 h
/-- A byte of one thing's stretch, where every thing's writes lie in its own. -/
theorem byteAt_flatten {α : Type} {o : Nat} (l : List α) (f : Nat → α → List Put) (i : Nat) (x : α) (hi : l[i]? = some x)
    (h : ∀ j y, j ≠ i → l[j]? = some y → ∀ u ∈ f j y, o < u.1 ∨ u.1 + u.2.1 ≤ o) : byteAt (l.mapIdx f).flatten o = byteAt (f i x) o := by
  induction l generalizing f i with
  | nil => exact absurd hi (by simp)
  | cons y l ih =>
    rw [List.mapIdx_cons, List.flatten_cons]
    unfold byteAt at ih ⊢
    rw [List.foldl_append]
    cases i with
    | zero =>
      obtain rfl : y = x := by simpa using hi
      refine foldl_putAt_apart _ fun u hu => ?_
      obtain ⟨ps, hps, hu⟩ := List.mem_flatten.1 hu
      obtain ⟨j, hj, rfl⟩ := List.mem_mapIdx.1 hps
      exact h (j + 1) l[j] (by omega) (by simp [hj]) u hu
    | succ i =>
      rw [foldl_putAt_apart 0 (h 0 y (by omega) rfl)]
      exact ih _ i (by simpa using hi) fun j z hj hz => h (j + 1) z (by omega) (by simpa using hz)
/-- Writes laid out in turn: each is read back. -/
theorem byteAt_laid {o lo hi : Nat} {ps : List Put} {u : Put} (h : Laid lo hi ps) (hu : u ∈ ps) (hl : u.1 ≤ o) (hh : o < u.1 + u.2.1) :
    byteAt ps o = BitVec.ofNat 8 (u.2.2 / 256 ^ (o - u.1)) := by
  suffices ∀ b, ps.foldl (putAt o) b = BitVec.ofNat 8 (u.2.2 / 256 ^ (o - u.1)) from this 0
  induction ps generalizing lo with
  | nil => exact absurd hu (by simp)
  | cons w t ih =>
    obtain ⟨-, ht⟩ := h
    intro b
    rw [List.foldl_cons]
    rcases List.mem_cons.1 hu with rfl | hu
    · rw [show putAt o b u = _ from if_pos ⟨hl, hh⟩]
      exact foldl_putAt_apart _ fun w hw => .inl (hh.trans_le (ht.within w hw).1)
    · exact ih ht hu _

/-- A byte that one write alone covers. -/
theorem foldl_putAt_only {o : Nat} {ps : List Put} {u : Put} (hu : u ∈ ps) (hl : u.1 ≤ o) (hh : o < u.1 + u.2.1)
    (h : ∀ w ∈ ps, w = u ∨ o < w.1 ∨ w.1 + w.2.1 ≤ o) (b : Byte) : ps.foldl (putAt o) b = BitVec.ofNat 8 (u.2.2 / 256 ^ (o - u.1)) := by
  suffices ∀ b, ps.foldl (putAt o) b = if u ∈ ps then BitVec.ofNat 8 (u.2.2 / 256 ^ (o - u.1)) else b from (this b).trans (if_pos hu)
  clear hu b
  induction ps with
  | nil => exact fun b => by simp
  | cons w t ih =>
    intro b
    rw [List.foldl_cons, ih fun x hx => h x (List.mem_cons_of_mem _ hx)]
    rcases h w List.mem_cons_self with rfl | hw
    · rw [show putAt o b w = _ from if_pos ⟨hl, hh⟩]
      simp
    · have hne : u ≠ w := by rintro rfl; omega
      rw [putAt_apart hw]
      simp [hne]
/-- Cells of one size do not meet. -/
theorem cell_apart (b : Nat) {sz n k j : Nat} (hj : j < sz) (hn : n ≠ k) : b + sz * k + j < b + sz * n ∨ b + sz * n + sz ≤ b + sz * k + j := by
  rcases Nat.lt_or_gt_of_ne hn with h | h
  · have := Nat.mul_le_mul_left sz (Nat.succ_le_of_lt h)
    rw [Nat.mul_succ] at this
    omega
  · have := Nat.mul_le_mul_left sz (Nat.succ_le_of_lt h)
    rw [Nat.mul_succ] at this
    omega
/-- A store written cell by cell: each cell, listed or not, is read back. -/
theorem byteAt_cells {α : Type} {m : Cells α} (b k : Nat) {sz j : Nat} (v : α → Nat) (hm : rising none m = true) (hj : j < sz) :
    byteAt (m.map fun w => (b + sz * w.1, sz, v w.2)) (b + sz * k + j) = BitVec.ofNat 8 (((mget m k).map v).getD 0 / 256 ^ j) := by
  cases hk : mget m k with
  | none =>
    rw [byteAt_apart]
    · simp
    · intro u hu
      obtain ⟨w, hw, rfl⟩ := List.mem_map.1 hu
      refine cell_apart b hj fun h => ?_
      rw [← h, mget_of_mem hm hw] at hk
      exact absurd hk (by simp)
  | some x =>
    unfold byteAt
    rw [foldl_putAt_only (u := (b + sz * k, sz, v x)) (List.mem_map.2 ⟨(k, x), mem_of_mget hk, rfl⟩) (by dsimp only; omega) (by dsimp only; omega)]
    · rw [show b + sz * k + j - (b + sz * k) = j by omega]
      rfl
    · intro u hu
      obtain ⟨w, hw, rfl⟩ := List.mem_map.1 hu
      by_cases h : w.1 = k
      · have := mget_of_mem hm hw
        rw [h, hk] at this
        obtain rfl := Option.some.inj this
        exact .inl (by rw [h])
      · exact .inr (cell_apart b hj h)

/-! ## Stores packed one behind the other (R333) -/

/-- What the elements before one take. -/
def sumBefore {α : Type} (f : α → Nat) (l : List α) (i : Nat) : Nat := ((l.take i).map f).sum
theorem sumBefore_succ {α : Type} {f : α → Nat} {l : List α} {i : Nat} {x : α} (h : l[i]? = some x) :
    sumBefore f l (i + 1) = sumBefore f l i + f x := by
  unfold sumBefore
  rw [List.take_add_one, h]
  simp
theorem sumBefore_mono {α : Type} (f : α → Nat) (l : List α) {i j : Nat} (h : i ≤ j) : sumBefore f l i ≤ sumBefore f l j := by
  unfold sumBefore
  obtain ⟨k, rfl⟩ := Nat.exists_eq_add_of_le h
  rw [List.take_add]
  simp
theorem sumBefore_le {α : Type} (f : α → Nat) (l : List α) (i : Nat) : sumBefore f l i ≤ (l.map f).sum := by
  have := sumBefore_mono f l (i := i) (j := max i l.length) (Nat.le_max_left ..)
  rwa [sumBefore, sumBefore, List.take_of_length_le (Nat.le_max_right i l.length)] at this
/-- The stores of several things, each with c cells for a unit of its allotment, one behind the other. -/
def packedPuts {α β : Type} (l : List α) (f : α → Nat) (store : α → Cells β) (v : β → Nat) (base sz c : Nat) : List Put :=
  (l.mapIdx fun i x => (store x).map fun w => (base + sz * (c * sumBefore f l i + w.1), sz, v w.2)).flatten
section
variable {α β : Type} {l : List α} {f : α → Nat} {store : α → Cells β}

theorem packed_index {c i k : Nat} {x : α} (hx : l[i]? = some x) (hk : k < c * f x) :
    c * sumBefore f l i + k < c * sumBefore f l (i + 1) := by
  rw [sumBefore_succ hx, Nat.mul_add]
  omega
theorem packedPuts_within (v : β → Nat) (base sz c top : Nat) (hs : ∀ x ∈ l, ∀ w ∈ store x, w.1 < c * f x)
    (ht : base + sz * (c * (l.map f).sum) ≤ top) : Within base top (packedPuts l f store v base sz c) := by
  refine Within.flatten fun ps hps u hu => ?_
  obtain ⟨i, hi⟩ := List.getElem?_of_mem hps
  obtain ⟨x, hx, rfl⟩ := getElem?_mapIdx_some hi
  obtain ⟨w, hw, rfl⟩ := List.mem_map.1 hu
  refine ⟨Nat.le_add_right .., ?_⟩
  have hn := (packed_index hx (hs x (List.mem_of_getElem? hx) w hw)).trans_le (Nat.mul_le_mul_left c (sumBefore_le f l (i + 1)))
  have := Nat.mul_le_mul_left sz (Nat.succ_le_of_lt hn)
  rw [Nat.mul_succ] at this
  dsimp only
  omega
/-- Each cell of a packed store, listed or not, is read back. -/
theorem byteAt_packed (v : β → Nat) (base : Nat) {sz c i k j : Nat} {x : α}
    (hs : ∀ x ∈ l, rising none (store x) = true ∧ ∀ w ∈ store x, w.1 < c * f x) (hx : l[i]? = some x) (hk : k < c * f x) (hj : j < sz) :
    byteAt (packedPuts l f store v base sz c) (base + sz * (c * sumBefore f l i + k) + j) =
      BitVec.ofNat 8 (((mget (store x) k).map v).getD 0 / 256 ^ j) := by
  unfold packedPuts
  rw [byteAt_flatten l _ i x hx]
  · rw [show ((store x).map fun w => (base + sz * (c * sumBefore f l i + w.1), sz, v w.2)) =
      (store x).map fun w => (base + sz * (c * sumBefore f l i) + sz * w.1, sz, v w.2) by simp only [Nat.mul_add, Nat.add_assoc]]
    rw [Nat.mul_add, ← Nat.add_assoc]
    exact byteAt_cells _ k v (hs x (List.mem_of_getElem? hx)).1 hj
  · intro m y hm hy u hu
    obtain ⟨w, hw, rfl⟩ := List.mem_map.1 hu
    have hi := packed_index hx hk
    have hn := packed_index hy ((hs y (List.mem_of_getElem? hy)).2 w hw)
    refine cell_apart base hj fun he => ?_
    rcases Nat.lt_or_gt_of_ne hm with h | h
    · have := Nat.mul_le_mul_left c (sumBefore_mono f l (show m + 1 ≤ i from h))
      omega
    · have := Nat.mul_le_mul_left c (sumBefore_mono f l (show i + 1 ≤ m from h))
      omega

end

/-! ## Regions -/

/-- Regions of a block one behind the other, each with its end. -/
def Fenced : Nat → List (Nat × List Put) → Prop
  | _, [] => True
  | lo, (hi, ps) :: t => lo ≤ hi ∧ Within lo hi ps ∧ Fenced hi t
/-- Where a region begins. -/
def startOf : Nat → List (Nat × List Put) → Nat → Nat
  | _, (hi, _) :: t, k + 1 => startOf hi t k
  | lo, _, _ => lo
theorem Fenced.above {lo : Nat} {rs : List (Nat × List Put)} (h : Fenced lo rs) : ∀ u ∈ rs.flatMap (·.2), lo ≤ u.1 := by
  induction rs generalizing lo with
  | nil => exact fun _ h => absurd h (by simp)
  | cons r t ih =>
    obtain ⟨hle, hw, ht⟩ := h
    intro u hu
    rcases List.mem_append.1 (List.flatMap_cons ▸ hu) with hu | hu
    · exact (hw u hu).1
    · exact hle.trans (ih ht u hu)
theorem Fenced.start_le {lo : Nat} {rs : List (Nat × List Put)} (h : Fenced lo rs) (k : Nat) : lo ≤ startOf lo rs k := by
  induction rs generalizing lo k with
  | nil => cases k <;> exact Nat.le_refl _
  | cons r t ih =>
    obtain ⟨hle, -, ht⟩ := h
    cases k with
    | zero => exact Nat.le_refl _
    | succ k => exact hle.trans (ih ht k)
/-- A byte of a region: the other regions do not matter. -/
theorem Fenced.byteAt {lo o : Nat} {rs : List (Nat × List Put)} (h : Fenced lo rs) (k : Nat) {hi : Nat} {ps : List Put} (hk : rs[k]? = some (hi, ps))
    (hl : startOf lo rs k ≤ o) (hh : o < hi) : byteAt (rs.flatMap (·.2)) o = byteAt ps o := by
  induction rs generalizing lo k with
  | nil => exact absurd hk (by simp)
  | cons r t ih =>
    obtain ⟨-, hw, ht⟩ := h
    rw [List.flatMap_cons]
    unfold Machine.byteAt at ih ⊢
    rw [List.foldl_append]
    cases k with
    | zero =>
      obtain rfl := Option.some.inj hk
      exact foldl_putAt_apart _ fun u hu => .inl (hh.trans_le (ht.above u hu))
    | succ k =>
      rw [foldl_putAt_apart 0 fun u hu => .inr ((hw u hu).2.trans ((ht.start_le k).trans hl))]
      exact ih ht k hk hl

/-! ## Blocks in memory (R154, R333) -/

/-- Addresses in the installed memory of a die are their own (R154). -/
theorem resolve_installed {a n o : Nat} (s : State) (ha : a < 2 ^ 52) (hi : Installed a n) (ho : o < n) : resolve s (a + o) = some (a + o) := by
  obtain ⟨ht, hd, hc⟩ := hi
  have hcap : capacity (paTier a) ≤ 2 ^ 45 := by
    unfold capacity
    split
    · decide
    · decide
  unfold paTier paDie paOff at *
  have h1 : (a + o) / 2 ^ 50 % 4 = a / 2 ^ 50 % 4 := by omega
  have h2 : (a + o) / 2 ^ 45 % 32 = a / 2 ^ 45 % 32 := by omega
  have h3 : (a + o) % 2 ^ 45 = a % 2 ^ 45 + o := by omega
  unfold resolve paTier paDie paOff
  rw [h1, h2, h3]
  dsimp only
  rw [if_neg (by omega), if_pos hd, if_pos (by omega), show (a + o) % 2 ^ 52 = a + o by omega]
/-- What writes of memory at its homes leave alone: everything but memory, its marks, the L2s, the monitors and the messages. -/
def MemWork (s t : State) : Prop := ∃ n net ds m mb, t = { s with nextId := n, net := net, dies := ds, mem := m, memBad := mb }

theorem MemWork.refl (s : State) : MemWork s s := ⟨_, _, _, _, _, rfl⟩
theorem MemWork.trans {s t u : State} (h : MemWork s t) (h' : MemWork t u) : MemWork s u := by
  obtain ⟨_, _, _, _, _, rfl⟩ := h
  obtain ⟨_, _, _, _, _, rfl⟩ := h'
  exact ⟨_, _, _, _, _, rfl⟩
theorem MemWork.resolve {s t : State} (h : MemWork s t) (a : Nat) : resolve t a = resolve s a := by
  obtain ⟨_, _, _, _, _, rfl⟩ := h
  rfl
theorem homeWriteNum_memWork (s : State) (a n x : Nat) : MemWork s (homeWriteNum s a n x) := by
  obtain ⟨_, _, _, _, h⟩ := homeWrite_frame s (cellsOf a n x) []
  exact ⟨_, _, _, _, _, h⟩

theorem foldl_memWork {α : Type} (f : State → α → State) (l : List α) (s : State) (hf : ∀ s x, MemWork s (f s x)) : MemWork s (l.foldl f s) := by
  induction l generalizing s with
  | nil => exact .refl s
  | cons x l ih => exact (hf s x).trans (ih (f s x))
theorem writePuts_memWork (s : State) (base : Nat) (ps : List Put) : MemWork s (writePuts s base ps) :=
  foldl_memWork _ _ _ fun s x => by
    cases resolve s (base + x.1) with
    | none => exact .refl s
    | some a => exact homeWriteNum_memWork s a x.2.1 x.2.2
/-- A page becomes zero: none of its bytes is listed any more. -/
theorem zeroPage_spec (s : State) (base : Nat) : MemWork s (zeroPage s base) ∧ ∀ a, resolve s base = some a →
    (zeroPage s base).mem = s.mem.filter fun c => !(decide (a ≤ c.1) && decide (c.1 < a + 4096)) := by
  unfold zeroPage
  cases resolve s base with
  | none => exact ⟨.refl s, fun a h => absurd h (by simp)⟩
  | some a =>
    dsimp only
    obtain ⟨_, _, _, h⟩ := foldl_net homeLine _ _ homeLine_frame
    rw [h]
    exact ⟨⟨_, _, _, _, _, rfl⟩, fun b hb => by rw [Option.some.inj hb]⟩
theorem zeroPages_memWork (s : State) (base n : Nat) : MemWork s (zeroPages s base n) :=
  foldl_memWork _ _ _ fun s i => (zeroPage_spec s (base + 4096 * i)).1
/-- A block that is written at addresses of its own: each byte becomes what the list leaves there. -/
theorem readByte_writePuts (base : Nat) (ps : List Put) (s : State) (hr : ∀ u ∈ ps, resolve s (base + u.1) = some (base + u.1)) (o : Nat) :
    readByte (writePuts s base ps).mem (base + o) = ps.foldl (putAt o) (readByte s.mem (base + o)) := by
  induction ps generalizing s with
  | nil => rfl
  | cons u t ih =>
    have hu := homeWriteNum_memWork s (base + u.1) u.2.1 u.2.2
    have hstep : writePuts s base (u :: t) = writePuts (homeWriteNum s (base + u.1) u.2.1 u.2.2) base t := by
      show writePuts (match resolve s (base + u.1) with | some a => homeWriteNum s a u.2.1 u.2.2 | none => s) base t = _
      rw [hr u List.mem_cons_self]
    rw [hstep, ih _ fun w hw => (hu.resolve _).trans (hr w (List.mem_cons_of_mem _ hw)), homeWriteNum_mem, readByte_writeNum, List.foldl_cons]
    congr 1
    by_cases h : u.1 ≤ o ∧ o < u.1 + u.2.1
    · rw [show putAt o _ u = _ from if_pos h, if_pos (by omega), show base + o - (base + u.1) = o - u.1 by omega]
    · rw [show putAt o _ u = _ from if_neg h, if_neg (by omega)]
/-- A number of a block that is written: no other write of the block meets it. -/
theorem readNum_writePuts {base o n v : Nat} {ps : List Put} {s : State} (hr : ∀ u ∈ ps, resolve s (base + u.1) = some (base + u.1))
    (hu : (o, n, v) ∈ ps) (h : ∀ w ∈ ps, w = (o, n, v) ∨ o + n ≤ w.1 ∨ w.1 + w.2.1 ≤ o) :
    readNum (writePuts s base ps).mem (base + o) n = v % 256 ^ n := readNum_of_bytes fun i hi => by
  rw [Nat.add_assoc, readByte_writePuts base ps s hr, foldl_putAt_only hu (show o ≤ o + i by omega) (show o + i < o + n by omega),
    Nat.add_sub_cancel_left]
  intro w hw
  rcases h w hw with h | h
  · exact .inl h
  · exact .inr (by omega)
/-- Pages become zero: no byte of them is listed. -/
theorem zeroPages_unlisted {base : Nat} (s : State) (n : Nat) (hr : ∀ i, i < n → resolve s (base + 4096 * i) = some (base + 4096 * i)) :
    ∀ e ∈ (zeroPages s base n).mem, ¬(base ≤ e.1 ∧ e.1 < base + 4096 * n) := by
  induction n with
  | zero => exact fun e _ => by omega
  | succ n ih =>
    have hstep : zeroPages s base (n + 1) = zeroPage (zeroPages s base n) (base + 4096 * n) := by
      show (List.range (n + 1)).foldl _ s = _
      rw [List.range_succ, List.foldl_append]
      rfl
    intro e he
    rw [hstep, (zeroPage_spec _ _).2 _ (((zeroPages_memWork s base n).resolve _).trans (hr n (by omega)))] at he
    obtain ⟨he, hne⟩ := List.mem_filter.1 he
    have := ih (fun i hi => hr i (by omega)) e he
    simp at hne
    omega
theorem readByte_unlisted {m : List Host.Cell} {a : Nat} (h : ∀ e ∈ m, e.1 ≠ a) : readByte m a = 0 := by
  unfold readByte cget
  cases ha : mget m a with
  | none => rfl
  | some b => exact absurd rfl (h _ (mem_of_mget ha))
theorem markPuts_memWork (base : Nat) (offs : List Nat) (s : State) : MemWork s (markPuts s base offs) ∧ (markPuts s base offs).mem = s.mem := by
  induction offs generalizing s with
  | nil => exact ⟨.refl s, rfl⟩
  | cons o t ih =>
    have hstep : markPuts s base (o :: t) = markPuts (match resolve s (base + o) with
      | some a => { s with memBad := insertNat s.memBad (a / 4) }
      | none => s) base t := rfl
    rw [hstep]
    cases resolve s (base + o) with
    | none => exact ih s
    | some a =>
      obtain ⟨hw, hm⟩ := ih { s with memBad := insertNat s.memBad (a / 4) }
      exact ⟨.trans ⟨_, _, _, _, _, rfl⟩ hw, hm⟩

end Sys2Proof.Machine
end

section
/-! PROOFS. Invalidation (R337, R369, R370): the clauses of O52 about INVAL, its completion and the host's requests. -/

namespace Sys2Proof.Machine

/-! ## INVAL (R337, R369) -/

theorem inval_refused {s : State} {p : Nat} (v : DWord) (hd : s.derlo = true)
    (hl : (part s p).invarg.toNat / 2 ^ 9 % 8 = 0 ∨ 5 ≤ (part s p).invarg.toNat / 2 ^ 9 % 8) :
    Gives (.inval p v) s fun s t => t.msix = s.msix ++ [2 * p + 1] ∧ part t p = { part s p with refused := true } ∧ t.mem = s.mem := by
  have hexec : exec (.inval p v) s = .next (invalDone (modPart s p fun x => { x with refused := true }) p) := by
    show execInval p v s = _
    unfold execInval startInval
    rw [if_pos hd, if_pos (by simpa using hl)]
  refine ⟨_, hexec, rfl, ?_, rfl⟩
  exact (part_modPart s p p fun x => { x with refused := true }).trans (if_pos rfl)

/-- A chain of messages: each is on its way, and nothing but the network has changed. -/
theorem sends_onTheirWay (d p : Nat) (ks : List Nat) (s : State) :
    ∃ n net, ks.foldl (fun s c => sendFrom s d 31 none (holderHome c) (.inval p c)) s = { s with nextId := n, net := net } ∧
      (∀ m ∈ s.net, m ∈ net) ∧ ∀ k ∈ ks, ∃ r ∈ net, r.home = holderHome k ∧ r.body = .inval p k := by
  induction ks generalizing s with
  | nil => exact ⟨_, _, rfl, fun _ h => h, fun _ h => absurd h (by simp)⟩
  | cons k ks ih =>
    obtain ⟨n, net, hf, hold, hnew⟩ := ih (sendFrom s d 31 none (holderHome k) (.inval p k))
    refine ⟨n, net, hf, fun m hm => hold m (List.mem_append_left _ hm), fun j hj => ?_⟩
    rcases List.mem_cons.1 hj with rfl | hj
    · exact ⟨_, hold _ (List.mem_append_right _ (List.mem_singleton.2 rfl)), rfl, rfl⟩
    · exact hnew j hj
/-- The invalidation that a write of INVAL begins. -/
def begunInval (s : State) (p : Nat) (v : DWord) : Inval :=
  let arg := (part s p).invarg.toNat
  let entry := v.toNat % 2 ^ 52
  { ctx := v.toNat / 2 ^ 52, entry := (resolve s entry).getD entry, count := arg % 2 ^ 9 + 1, level := arg / 2 ^ 9 % 8
    values := arg / 2 ^ 12 * 2 ^ 12
    frames := (List.range (arg % 2 ^ 9 + 1)).flatMap fun i => framesUnder s 4 (arg / 2 ^ 9 % 8) (entry + 8 * i), cores := holders s p }
theorem inval_started {s : State} {p : Nat} (v : DWord) (hd : s.derlo = true)
    (h1 : 1 ≤ (part s p).invarg.toNat / 2 ^ 9 % 8) (h4 : (part s p).invarg.toNat / 2 ^ 9 % 8 ≤ 4) :
    Gives (.inval p v) s fun s t => t.mem = s.mem ∧ t.msix = s.msix ∧
      (∃ w, (part t p).inval = (part s p).inval ++ [w] ∧ w.ctx = v.toNat / 2 ^ 52 ∧ w.count = (part s p).invarg.toNat % 2 ^ 9 + 1 ∧
        w.level = (part s p).invarg.toNat / 2 ^ 9 % 8 ∧ w.values = (part s p).invarg.toNat / 2 ^ 12 * 2 ^ 12 ∧ w.cores = holders s p) ∧
      ∀ k ∈ holders s p, OnItsWay t (holderHome k) (.inval p k) := by
  let begun (x : Part) : Part := { x with refused := false, inval := x.inval ++ [begunInval s p v] }
  have hexec : exec (.inval p v) s = .next ((holders s p).foldl (fun t c =>
      sendFrom t ((partDies (part s p)).headD 0) 31 none (holderHome c) (.inval p c)) (modPart s p begun)) := by
    show execInval p v s = _
    unfold execInval startInval
    rw [if_pos hd, if_neg (by simp; omega)]
    rfl
  obtain ⟨n, net, hf, -, hnew⟩ := sends_onTheirWay ((partDies (part s p)).headD 0) p (holders s p) (modPart s p begun)
  refine ⟨_, hexec, ?_⟩
  rw [hf]
  refine ⟨rfl, rfl, ⟨begunInval s p v, ?_, rfl, rfl, rfl, rfl, rfl⟩, fun k hk => hnew k hk⟩
  exact congrArg Part.inval ((part_modPart s p p begun).trans (if_pos rfl))

/-! ## The new values and the completion (R337) -/

/-- The first n new values at their entries. -/
def writeEntries (s : State) (w : Inval) (n : Nat) : State :=
  (List.range n).foldl (fun s i => homeWriteNum s (w.entry + 8 * i) 8 ((devRead s (w.values + 8 * i) 8).getD 0)) s
theorem writeEntries_succ (s : State) (w : Inval) (n : Nat) : writeEntries s w (n + 1) =
    homeWriteNum (writeEntries s w n) (w.entry + 8 * n) 8 ((devRead (writeEntries s w n) (w.values + 8 * n) 8).getD 0) := by
  unfold writeEntries
  rw [List.range_succ, List.foldl_append]
  rfl
/-- The entries take the new values, which stand apart from them and so are read as they were. -/
theorem writeEntries_spec {s : State} {w : Inval} (n : Nat) (hv : ∀ i, i < n → ∃ a, resolve s (w.values + 8 * i) = some a ∧
      ∀ j, j < n → a + 8 ≤ w.entry + 8 * j ∨ w.entry + 8 * j + 8 ≤ a) :
    MemWork s (writeEntries s w n) ∧
      (∀ b k, (∀ j, j < n → b + k ≤ w.entry + 8 * j ∨ w.entry + 8 * j + 8 ≤ b) → readNum (writeEntries s w n).mem b k = readNum s.mem b k) ∧
      ∀ i a, i < n → resolve s (w.values + 8 * i) = some a → readNum (writeEntries s w n).mem (w.entry + 8 * i) 8 = readNum s.mem a 8 := by
  induction n with
  | zero => exact ⟨.refl s, fun _ _ _ => rfl, fun _ _ h => absurd h (by omega)⟩
  | succ n ih =>
    obtain ⟨hw, hold, hnew⟩ := ih fun i hi =>
      let ⟨a, ha, h⟩ := hv i (by omega)
      ⟨a, ha, fun j hj => h j (by omega)⟩
    rw [writeEntries_succ]
    refine ⟨hw.trans (homeWriteNum_memWork ..), fun b k hb => ?_, fun i a hi ha => ?_⟩
    · rw [homeWriteNum_mem, readNum_writeNum_apart (hb n (by omega))]
      exact hold b k fun j hj => hb j (by omega)
    · rw [homeWriteNum_mem]
      obtain ⟨b, hb, hapart⟩ := hv i hi
      obtain rfl : b = a := Option.some.inj (hb.symm.trans ha)
      by_cases h : i = n
      · subst h
        rw [readNum_writeNum_same]
        unfold devRead
        rw [hw.resolve, ha, Option.map_some, Option.getD_some, hold b 8 fun j hj => hapart j (by omega)]
        exact Nat.mod_eq_of_lt (readNum_lt s.mem b 8)
      · rw [readNum_writeNum_apart (by omega)]
        exact hnew i b (by omega) ha
theorem invalidationDrainDone_spec {s : State} {p : Nat} {w : Inval} {rest : List Inval} (hi : (part s p).inval = w :: rest) (hc : w.cores = [])
    (hd : w.drain.all (performed s) = true) (hf : w.flushed = true) (ha : w.ats = false) (hcp : s.copies = [])
    (hv : ∀ i, i < w.count → ∃ a, resolve s (w.values + 8 * i) = some a ∧
      ∀ j, j < w.count → a + 8 ≤ w.entry + 8 * j ∨ w.entry + 8 * j + 8 ≤ a) :
    Gives (.invalidationDrainDone p) s fun s t => (part t p).inval = rest ∧ t.msix = s.msix ++ [2 * p + 1] ∧
      ∀ i a, i < w.count → resolve s (w.values + 8 * i) = some a → readNum t.mem (w.entry + 8 * i) 8 = readNum s.mem a 8 := by
  let u := modPart s p fun x => { x with inval := rest }
  obtain ⟨hw, -, hnew⟩ := writeEntries_spec (s := u) w.count hv
  have hexec : exec (.invalidationDrainDone p) s = .next (invalDone (releaseHeld (writeEntries u w w.count) p) p) := by
    show execInvalidationDrainDone p s = _
    unfold execInvalidationDrainDone
    rw [hi]
    dsimp only
    rw [if_neg (by simp [hc, hd]), if_neg (by simp [hf]), if_neg (by simp [ha])]
    rfl
  have hrel : releaseHeld (writeEntries u w w.count) p = writeEntries u w w.count := by
    have : (writeEntries u w w.count).copies = [] := by
      obtain ⟨_, _, _, _, _, h⟩ := hw
      rw [h]
      exact hcp
    unfold releaseHeld
    rw [this]
    rfl
  refine ⟨_, hexec, ?_⟩
  rw [hrel]
  refine ⟨?_, ?_, hnew⟩
  · obtain ⟨_, _, _, _, _, h⟩ := hw
    rw [h]
    exact congrArg Part.inval ((part_modPart s p p fun x => { x with inval := rest }).trans (if_pos rfl))
  · obtain ⟨_, _, _, _, _, h⟩ := hw
    rw [h]
    rfl

/-! ## The host's requests (R370) -/

theorem atsInvalidateRequest_none {s : State} {pasid : Nat} (addr size : Nat) (h : ∀ y ∈ s.parts, hasPasid s y.1 pasid = false) :
    Gives (.atsInvalidateRequest pasid addr size) s fun s t => t.hostOut = s.hostOut ++ [s.nextId] ∧ t.mem = s.mem ∧ t.dies = s.dies := by
  have hexec : exec (.atsInvalidateRequest pasid addr size) s = .next { s with nextId := s.nextId + 1, hostOut := s.hostOut ++ [s.nextId] } := by
    show execAtsInvalidateRequest pasid addr size s = _
    unfold execAtsInvalidateRequest
    rw [List.filter_eq_nil_iff.2 fun y hy => by simp [h y hy]]
    rfl
  exact ⟨_, hexec, rfl, rfl, rfl⟩
/-- What cutting the translations of a host range leaves alone. -/
def TlbWork (s t : State) : Prop := ∃ ds cs gs, t = { s with dies := ds, cores := cs, groups := gs }
theorem TlbWork.fromHost {s t : State} (h : TlbWork s t) (p pasid addr size : Nat) : fromHost t p pasid addr size = fromHost s p pasid addr size := by
  obtain ⟨_, _, _, rfl⟩ := h
  rfl
/-- TLBs of dies are cut one after another: each loses what is cut, and none gains an entry. -/
theorem cutDies_spec (cut : List TlbEntry → List TlbEntry) (hcut : ∀ l, ∀ e ∈ cut l, e ∈ l) (ds : List Nat) (s : State) :
    (∃ x, ds.foldl (fun t d => modDie t d fun y => { y with tlb := cut y.tlb }) s = { s with dies := x }) ∧
    ∀ d, (∀ e ∈ (die (ds.foldl (fun t d => modDie t d fun y => { y with tlb := cut y.tlb }) s) d).tlb, e ∈ (die s d).tlb) ∧
      (d ∈ ds → ∀ e ∈ (die (ds.foldl (fun t d => modDie t d fun y => { y with tlb := cut y.tlb }) s) d).tlb, ∃ l, e ∈ cut l) := by
  induction ds generalizing s with
  | nil => exact ⟨⟨_, rfl⟩, fun d => ⟨fun _ h => h, fun h => absurd h (by simp)⟩⟩
  | cons k ds ih =>
    obtain ⟨⟨x, hx⟩, h⟩ := ih (modDie s k fun y => { y with tlb := cut y.tlb })
    have hk (d : Nat) : (die (modDie s k fun y => { y with tlb := cut y.tlb }) d).tlb = if d = k then cut (die s k).tlb else (die s d).tlb := by
      rw [die_modDie]
      split
      · rfl
      · rfl
    refine ⟨⟨x, hx⟩, fun d => ⟨fun e he => ?_, fun hd e he => ?_⟩⟩
    · have := (h d).1 e he
      rw [hk] at this
      split at this
      · subst_vars
        exact hcut _ _ this
      · exact this
    · by_cases hdk : d = k
      · have := (h d).1 e he
        rw [hk, if_pos hdk] at this
        exact ⟨_, this⟩
      · exact (h d).2 ((List.mem_cons.1 hd).resolve_left hdk) e he
theorem cutHostTlbs_spec (s : State) (p pasid addr size : Nat) : TlbWork s (cutHostTlbs s p pasid addr size) ∧
    ∀ d, (∀ e ∈ (die (cutHostTlbs s p pasid addr size) d).tlb, e ∈ (die s d).tlb) ∧
      (d ∈ partDies (part s p) → ∀ e ∈ (die (cutHostTlbs s p pasid addr size) d).tlb, fromHost s p pasid addr size e = false) := by
  let cut (l : List TlbEntry) : List TlbEntry := l.filter fun e => !fromHost s p pasid addr size e
  obtain ⟨⟨x, hx⟩, h⟩ := cutDies_spec cut (fun l e he => (List.mem_filter.1 he).1) (partDies (part s p)) s
  refine ⟨⟨_, _, _, congrArg (fun t : State => { t with
    cores := mmap t.cores fun c k => if (partDies (part s p)).contains (dieOf c) then { k with tlb := cut k.tlb } else k
    groups := mmap t.groups fun _ g => if (partDies (part s p)).contains (dieOf g.core) then cutHost g else g }) hx⟩,
    fun d => ⟨(h d).1, fun hd e he => ?_⟩⟩
  obtain ⟨l, hl⟩ := (h d).2 hd e he
  simpa using (List.mem_filter.1 hl).2
/-- The host's request cuts the TLBs of every partition that has the PASID. -/
theorem cutHosts_spec (pasid addr size : Nat) (ps : List Nat) (s : State) :
    TlbWork s (ps.foldl (fun t p => cutHostTlbs t p pasid addr size) s) ∧
    ∀ d, (∀ e ∈ (die (ps.foldl (fun t p => cutHostTlbs t p pasid addr size) s) d).tlb, e ∈ (die s d).tlb) ∧
      ∀ p ∈ ps, d ∈ partDies (part s p) →
        ∀ e ∈ (die (ps.foldl (fun t p => cutHostTlbs t p pasid addr size) s) d).tlb, fromHost s p pasid addr size e = false := by
  induction ps generalizing s with
  | nil => exact ⟨⟨_, _, _, rfl⟩, fun d => ⟨fun _ h => h, fun p hp => absurd hp (by simp)⟩⟩
  | cons q ps ih =>
    obtain ⟨hw, hq⟩ := cutHostTlbs_spec s q pasid addr size
    obtain ⟨hw', h⟩ := ih (cutHostTlbs s q pasid addr size)
    have hpart (p : Nat) : part (cutHostTlbs s q pasid addr size) p = part s p := by
      obtain ⟨_, _, _, hw⟩ := hw
      rw [hw]
      rfl
    refine ⟨?_, fun d => ⟨fun e he => (hq d).1 e ((h d).1 e he), fun p hp hd e he => ?_⟩⟩
    · obtain ⟨_, _, _, hw⟩ := hw
      obtain ⟨_, _, _, hw'⟩ := hw'
      exact ⟨_, _, _, hw'.trans (by rw [hw])⟩
    · rcases List.mem_cons.1 hp with rfl | hp
      · exact (hq d).2 hd e ((h d).1 e he)
      · rw [← hw.fromHost]
        exact (h d).2 p hp (by rw [hpart]; exact hd) e he
theorem atsInvalidateRequest_cuts {s : State} {p pasid d : Nat} (addr size : Nat) (hm : mget s.parts p = some (part s p))
    (hp : hasPasid s p pasid = true) (hd : (partDies (part s p)).contains d = true) :
    Gives (.atsInvalidateRequest pasid addr size) s fun s t => t.mem = s.mem ∧ t.hostOut = s.hostOut ∧
      (∀ e ∈ (die t d).tlb, e ∈ (die s d).tlb ∧ fromHost s p pasid addr size e = false) ∧
      ∀ rest, s.parts = (p, part s p) :: rest → ∃ w, (part t p).inval = (part s p).inval ++ [w] ∧ w.ats = true ∧ w.drain = toHost s := by
  let ps := (s.parts.filter fun x => hasPasid s x.1 pasid).map (·.1)
  have hps : p ∈ ps := List.mem_map.2 ⟨_, List.mem_filter.2 ⟨mem_of_mget hm, hp⟩, rfl⟩
  obtain ⟨q, qs, hq⟩ : ∃ q qs, ps = q :: qs := List.exists_cons_of_ne_nil (List.ne_nil_of_mem hps)
  let v : Inval := { ctx := 0, entry := addr, count := size, level := 0, values := pasid, drain := toHost s, ats := true }
  let t := ps.foldl (fun t p => cutHostTlbs t p pasid addr size) s
  obtain ⟨hw, h⟩ := cutHosts_spec pasid addr size ps s
  have hexec : exec (.atsInvalidateRequest pasid addr size) s = .next (modPart t q fun y => { y with inval := y.inval ++ [v] }) := by
    show execAtsInvalidateRequest pasid addr size s = _
    unfold execAtsInvalidateRequest
    rw [show (s.parts.filter fun x => hasPasid s x.1 pasid).map (·.1) = q :: qs from hq]
    rw [show t = _ from congrArg (fun l => List.foldl (fun t p => cutHostTlbs t p pasid addr size) s l) hq]
  refine ⟨_, hexec, ?_, ?_, fun e he => ⟨(h d).1 e he, (h d).2 p hps (by simpa using hd) e he⟩, fun rest hrest => ⟨v, ?_, rfl, rfl⟩⟩
  · obtain ⟨_, _, _, hw⟩ := hw
    rw [show t = _ from hw]
    rfl
  · obtain ⟨_, _, _, hw⟩ := hw
    rw [show t = _ from hw]
    rfl
  · obtain rfl : q = p := by
      have := hq
      simp [ps, hrest, hp] at this
      exact this.1.symm
    have hpart : part t q = part s q := by
      obtain ⟨_, _, _, hw⟩ := hw
      rw [show t = _ from hw]
      rfl
    rw [part_modPart, if_pos rfl, hpart]

end Sys2Proof.Machine
end

section
/-! PROOFS. What a restore reads back, and what it puts back (R328, R333, R334, R388): three clauses of O52. -/

namespace Sys2Proof.Machine

/-! ## A group from its block (R334) -/

theorem cget_foldl_cput {α : Type} [DecidableEq α] (d : α) (f : Nat → α) (ks : List Nat) (m : Cells α) (k : Nat) :
    cget d (ks.foldl (fun m k => cput d m k (f k)) m) k = if k ∈ ks then f k else cget d m k := by
  induction ks generalizing m with
  | nil => simp
  | cons j t ih =>
    rw [List.foldl_cons, ih, cget_cput]
    by_cases h : k ∈ t
    · simp [h]
    · by_cases e : k = j <;> simp [h, e]
theorem cget_countersOf (x l : Nat) (hl : l < 32) : cget 0 (countersOf x) l = BitVec.ofNat 8 (x / 2 ^ (8 * l)) := by
  unfold countersOf
  rw [cget_foldl_cput 0 fun l => BitVec.ofNat 8 (x / 2 ^ (8 * l)), if_pos (by simp [allLanes, hl])]
theorem before_getD (f : Group → Nat) (gs : List Group) (n i : Nat) (hi : i < gs.length) :
    (before f n gs).getD i 0 = n + ((gs.take i).map f).sum := by
  induction gs generalizing n i with
  | nil => exact absurd hi (by simp)
  | cons g t ih =>
    cases i with
    | zero => simp [before]
    | succ i =>
      show (before f (n + f g) t).getD i 0 = _
      rw [ih _ _ (by simpa using hi)]
      simp [Nat.add_assoc]
theorem regBases_getD (y : SavedCore) (i : Nat) (hi : i < y.groups.length) : (regBases y).getD i 0 = ((y.groups.take i).map (·.2.regs)).sum := by
  unfold regBases
  rw [before_getD _ _ _ _ (by simpa using hi), Nat.zero_add, ← List.map_take, List.map_map]
  rfl
theorem tileBases_getD (y : SavedCore) (i : Nat) (hi : i < y.groups.length) : (tileBases y).getD i 0 = ((y.groups.take i).map (·.2.ntiles)).sum := by
  unfold tileBases
  rw [before_getD _ _ _ _ (by simpa using hi), Nat.zero_add, ← List.map_take, List.map_map]
  rfl
/-- A group as its record and its lane registers give it. -/
theorem loadGroup_spec (f : Nat → Nat → Nat) (bad : Nat → Bool) (i reg0 tile0 : Nat) (g : Group) :
    let g' := loadGroup f bad i reg0 tile0 g
    let r := 0x20000 + 4096 * i
    g'.pc = ⟨f r 8 / 4 % 2 ^ 32, f r 8 % 4⟩ ∧ (∀ j, j < 64 → kget g' j = BitVec.ofNat 64 (f (r + 0x300 + 8 * j) 8)) ∧
      (∀ l, l < 32 → ctr g' l = BitVec.ofNat 8 (f (r + 0x008) 32 / 2 ^ (8 * l))) ∧
      g'.status8 = BitVec.ofNat 8 (f (r + 0x500) 8) ∧ g'.seed = BitVec.ofNat 64 (f (r + 0x508) 8) ∧ g'.sg = BitVec.ofNat 32 (f (r + 0x510) 8) ∧
      ∀ q l, q < g.regs → l < 32 → vget g' q l = BitVec.ofNat 32 (f (0x60000 + 128 * (reg0 + q) + 4 * l) 4) := by
  intro g' r
  refine ⟨?_, fun j hj => ?_, fun l hl => cget_countersOf _ l hl, rfl, rfl, rfl, fun q l hq hl => ?_⟩
  · show wordPos (BitVec.ofNat 64 (f r 8 % 2 ^ 34)) = _
    unfold wordPos
    rw [BitVec.toNat_ofNat, Nat.mod_eq_of_lt (b := 2 ^ 64) (by omega)]
    congr 1
    · omega
    · omega
  · show cget 0 ((List.range 64).foldl (fun m n => cput 0 m n (BitVec.ofNat 64 (f (r + (0x300 + 8 * n)) 8))) []) j = _
    rw [cget_foldl_cput 0 fun n => BitVec.ofNat 64 (f (r + (0x300 + 8 * n)) 8), if_pos (List.mem_range.2 hj), Nat.add_assoc r]
  · show cget 0 ((List.range (32 * g.regs)).foldl (fun m k => cput 0 m k (BitVec.ofNat 32 (f (0x60000 + 128 * (reg0 + k / 32) + 4 * (k % 32)) 4))) [])
      (32 * q + l) = _
    rw [cget_foldl_cput 0 fun k => BitVec.ofNat 32 (f (0x60000 + 128 * (reg0 + k / 32) + 4 * (k % 32)) 4), if_pos (List.mem_range.2 (by omega)),
      show (32 * q + l) / 32 = q by omega, show (32 * q + l) % 32 = l by omega]
theorem loadBlock_spec {s : State} {p ctx : Nat} {y : SavedCore} {i id : Nat} {g : Group} (hg : y.groups[i]? = some (id, g)) :
    ∃ g', (loadBlock s p ctx y).groups[i]? = some (id, g') ∧
      let n (o k : Nat) : Nat := (devRead s (saveBase s p ctx y.core + o) k).getD 0
      let r := 0x20000 + 4096 * i
      let reg0 := ((y.groups.take i).map (·.2.regs)).sum
      g'.pc = ⟨n r 8 / 4 % 2 ^ 32, n r 8 % 4⟩ ∧ (∀ j, j < 64 → kget g' j = BitVec.ofNat 64 (n (r + 0x300 + 8 * j) 8)) ∧
      (∀ l, l < 32 → ctr g' l = BitVec.ofNat 8 (n (r + 0x008) 32 / 2 ^ (8 * l))) ∧
      g'.status8 = BitVec.ofNat 8 (n (r + 0x500) 8) ∧ g'.seed = BitVec.ofNat 64 (n (r + 0x508) 8) ∧ g'.sg = BitVec.ofNat 32 (n (r + 0x510) 8) ∧
      ∀ q l, q < g.regs → l < 32 → vget g' q l = BitVec.ofNat 32 (n (0x60000 + 128 * (reg0 + q) + 4 * l) 4) := by
  obtain ⟨hi, -⟩ := List.getElem?_eq_some_iff.1 hg
  have hload : (loadBlock s p ctx y).groups[i]? = some (id, loadGroup (blockNum s (saveBase s p ctx y.core)) (blockBad s (saveBase s p ctx y.core)) i
      ((regBases y).getD i 0) ((tileBases y).getD i 0) g) := by
    show (y.groups.mapIdx _)[i]? = _
    rw [List.getElem?_mapIdx, hg]
    rfl
  refine ⟨_, hload, ?_⟩
  rw [regBases_getD y i hi]
  exact loadGroup_spec ..

/-! ## CONTEXT_RESTORE (R328, R388) -/

theorem placeReserve_frame {s t : State} {gid d : Nat} (h : placeReserve s gid d = some t) : ∃ n gs, t = { s with fresh := n, grids := gs } := by
  unfold placeReserve at h
  split at h
  · exact ⟨_, _, (Option.some.inj h).symm⟩
  · obtain ⟨r, -, rfl⟩ := Option.map_eq_some_iff.1 h
    rw [modGrid_frame, modGrid_frame s gid]
    exact ⟨_, _, rfl⟩
/-- Steps that place reservations change the grids, and the count of free choices, alone. -/
theorem foldl_fresh {α : Type} (f : State → α → State) (l : List α) (s : State)
    (hf : ∀ s x, ∃ n gs, f s x = { s with fresh := n, grids := gs }) : ∃ n gs, l.foldl f s = { s with fresh := n, grids := gs } := by
  induction l generalizing s with
  | nil => exact ⟨_, _, rfl⟩
  | cons x l ih =>
    obtain ⟨_, _, h⟩ := hf s x
    obtain ⟨_, _, h'⟩ := ih (f s x)
    exact ⟨_, _, by rw [List.foldl_cons, h', h]⟩
theorem rebuildReserves_frame (s : State) (p ctx : Nat) : ∃ n gs, rebuildReserves s p ctx = { s with fresh := n, grids := gs } := by
  unfold rebuildReserves
  refine foldl_fresh _ _ _ fun s g => foldl_fresh _ _ _ fun s d => ?_
  cases h : placeReserve s g.1 d with
  | none => exact ⟨_, _, rfl⟩
  | some t => exact placeReserve_frame h

/-- The buffers of a context are reloaded and their timers count on. -/
theorem contextRestore_gather {s : State} {p ctx d : Nat} {b : Gather} (hs : scheduled s p ctx = true)
    (hv : s.saved = [{ part := p, ctx := ctx, gather := [(d, [b])] }]) (hb : b.recs ≠ []) (hd : (die s d).gather = []) :
    Gives (.contextRestore p ctx) s fun s t => t.saved = [] ∧ (die t d).gather = [{ b with lapse := b.lapse.map (s.time + ·) }] := by
  let b' : Gather := { b with lapse := b.lapse.map (s.time + ·) }
  let x : Saved := { part := p, ctx := ctx, gather := [(d, [b])] }
  obtain ⟨n, gs, hf⟩ := rebuildReserves_frame (setBuffer s d b') p ctx
  have hexec : exec (.contextRestore p ctx) s = .next (putSaved (rebuildReserves (setBuffer s d b') p ctx) { x with gather := [] }) := by
    show execContextRestore p ctx s = _
    unfold execContextRestore
    rw [hs, show s.saved.find? (fun x => x.part = p && x.ctx = ctx) = some x by simp [hv, x]]
    dsimp only
    rw [if_neg (by simp), show restoreGather s x = setBuffer s d b' from rfl,
      show linkedSets (gangLinked (rebuildReserves (setBuffer s d b') p ctx)) (x.cores.length + 1) x.cores = [] from rfl]
    simp only [List.foldl_nil, show inOrder (rebuildReserves (setBuffer s d b') p ctx) [] = [] by simp [inOrder]]
    rfl
  have hput : (putSaved (setBuffer s d b') { x with gather := [] }).saved = [] := by
    show (s.saved.filter _) = []
    rw [hv]
    simp [x]
  refine ⟨_, hexec, ?_⟩
  rw [hf]
  refine ⟨hput, ?_⟩
  show (die (setBuffer s d b') d).gather = _
  unfold setBuffer
  rw [die_modDie, if_pos rfl, hd]
  simp [b', hb]

theorem insertNat_rises {l : List Nat} (k : Nat) (h : l.Pairwise (· < ·)) : (insertNat l k).Pairwise (· < ·) := by
  induction l with
  | nil => exact List.pairwise_singleton _ _
  | cons j t ih =>
    obtain ⟨hj, ht⟩ := List.pairwise_cons.1 h
    unfold insertNat
    split
    · next hkj => exact List.pairwise_cons.2 ⟨fun n hn => (List.mem_cons.1 hn).elim (· ▸ hkj) fun hn => hkj.trans (hj n hn), h⟩
    · split
      · exact h
      · refine List.pairwise_cons.2 ⟨fun n hn => ?_, ih ht⟩
        rcases (mem_insertNat_iff t k).1 hn with rfl | hn
        · omega
        · exact hj n hn
theorem foldl_insertNat_rises {α : Type} (f : α → Nat) (xs : List α) {l : List Nat} (h : l.Pairwise (· < ·)) :
    (xs.foldl (fun l x => insertNat l (f x)) l).Pairwise (· < ·) := by
  induction xs generalizing l with
  | nil => exact h
  | cons x xs ih => exact ih (insertNat_rises (f x) h)
theorem flatMap_once {β : Type} {o : Nat} {us : List β} (f : Nat → List β) (l : List Nat) (hl : l.Nodup) (ho : o ∈ l) (h : f o = us)
    (hne : ∀ k, k ≠ o → f k = []) : l.flatMap f = us := by
  induction l with
  | nil => exact absurd ho (by simp)
  | cons k t ih =>
    obtain ⟨hk, ht⟩ := List.nodup_cons.1 hl
    rw [List.flatMap_cons]
    rcases List.mem_cons.1 ho with rfl | ho
    · rw [h, List.flatMap_eq_nil_iff.2 fun j hj => hne j fun e => hk (e ▸ hj), List.append_nil]
    · rw [hne k fun e => hk (e ▸ ho), List.nil_append]
      exact ih ht ho
/-- One unit alone is restored in whatever order. -/
theorem inOrder_single {s : State} {u : List (List SavedCore)} (h : ∀ o, unitOrder s u = some o → ∃ g ∈ s.grids, g.2.order = o) :
    inOrder s [u] = [u] := by
  unfold inOrder
  cases ho : unitOrder s u with
  | none => simp [ho]
  | some o =>
    obtain ⟨g, hg, rfl⟩ := h o ho
    rw [flatMap_once (o := g.2.order) (us := [u]) _ _ ((foldl_insertNat_rises (fun g : Nat × Grid => g.2.order) s.grids .nil).imp Nat.ne_of_lt)]
    · simp [ho]
    · have := (mem_foldl_insertNat (k := g.2.order) (s.grids.map fun g => g.2.order) []).2 (.inr (List.mem_map.2 ⟨g, hg, rfl⟩))
      rwa [List.foldl_map] at this
    · simp [ho]
    · intro k hk
      simp [ho, Ne.symm hk]
/-- One saved core whose unit may take positions and finds room is restored. -/
theorem contextRestore_core {s u : State} {p ctx : Nat} {y : SavedCore} (hs : scheduled s p ctx = true)
    (hv : s.saved = [{ part := p, ctx := ctx, cores := [y] }]) (hr : rebuildReserves s p ctx = s) (hsp : unitSplit s y = false)
    (hm : unitMay s p ctx [[y]] = true) (ho : ∀ o, unitOrder s [[y]] = some o → ∃ g ∈ s.grids, g.2.order = o)
    (hp : placeUnit s p ctx [[loadBlock s p ctx y]] = some u) (hu : u.saved = s.saved) :
    Gives (.contextRestore p ctx) s fun _ t => t.saved = [] ∧ t.groups = u.groups ∧ t.teams = u.teams := by
  let x : Saved := { part := p, ctx := ctx, cores := [y] }
  have hunit : restoreUnit s p ctx [[y]] = ({ u with fresh := u.fresh + 2 }, true) := by
    unfold restoreUnit
    rw [if_neg (by simp [hsp, hm]), show placeUnit s p ctx (List.map (fun xs => xs.map (loadBlock s p ctx)) [[y]]) = some u from hp]
  have hexec : exec (.contextRestore p ctx) s = .next (putSaved { u with fresh := u.fresh + 2 } { x with cores := [] }) := by
    show execContextRestore p ctx s = _
    unfold execContextRestore
    rw [hs, show s.saved.find? (fun x => x.part = p && x.ctx = ctx) = some x by simp [hv, x]]
    dsimp only
    rw [if_neg (by simp), show restoreGather s x = s from rfl, hr,
      show linkedSets (gangLinked s) (x.cores.length + 1) x.cores = [[y]] from rfl]
    simp only [List.foldl_cons, List.foldl_nil, List.filter_nil, List.flatten_nil, List.nil_append, inOrder_single ho, hunit, if_true]
    rfl
  refine ⟨_, hexec, ?_, rfl, rfl⟩
  show (u.saved.filter _) = []
  rw [hu, hv]
  simp [x]

end Sys2Proof.Machine
end

section
/-! PROOFS. The group record of a block (R334): its writes follow one another in 4096 bytes. -/

namespace Sys2Proof.Machine

/-! ## Counters (R83, R334) -/

theorem counterSum_spec (c : Cells Byte) (n : Nat) :
    let x := (List.range n).foldl (fun n l => n + (cget 0 c l).toNat * 2 ^ (8 * l)) 0
    x < 256 ^ n ∧ ∀ l, l < n → BitVec.ofNat 8 (x / 256 ^ l) = cget 0 c l := by
  induction n with
  | zero => exact ⟨by simp, fun l h => absurd h (by omega)⟩
  | succ n ih =>
    obtain ⟨hlt, hb⟩ := ih
    have hp : (2 : Nat) ^ (8 * n) = 256 ^ n := by rw [Nat.pow_mul]
    have hc := (cget 0 c n).isLt
    intro x
    have hx : x = (List.range n).foldl (fun n l => n + (cget 0 c l).toNat * 2 ^ (8 * l)) 0 + (cget 0 c n).toNat * 256 ^ n := by
      rw [← hp]
      show (List.range (n + 1)).foldl _ 0 = _
      rw [List.range_succ, List.foldl_append]
      rfl
    generalize (List.range n).foldl (fun n l => n + (cget 0 c l).toNat * 2 ^ (8 * l)) 0 = y at *
    rw [hx]
    refine ⟨?_, fun l hl => ?_⟩
    · rw [Nat.pow_succ]
      nlinarith
    · by_cases h : l = n
      · subst h
        rw [Nat.add_mul_div_right _ _ (by positivity), Nat.div_eq_of_lt hlt, Nat.zero_add]
        simp
      · obtain ⟨k, rfl⟩ : ∃ k, n = l + (k + 1) := ⟨n - l - 1, by omega⟩
        rw [← hb l (by omega), show (cget 0 c (l + (k + 1))).toNat * 256 ^ (l + (k + 1)) = (cget 0 c (l + (k + 1))).toNat * 256 ^ k * 256 * 256 ^ l by ring,
          Nat.add_mul_div_right _ _ (by positivity)]
        apply BitVec.eq_of_toNat_eq
        simp only [BitVec.toNat_ofNat]
        omega
theorem counterNum_byte (c : Cells Byte) {l : Nat} (hl : l < 32) : BitVec.ofNat 8 (counterNum c / 256 ^ l) = cget 0 c l :=
  (counterSum_spec c 32).2 l hl

/-! ## The parts of a record -/

def recordHead (g : Group) (reg0 tile0 : Nat) : List Put :=
  [(0x000, 8, (posWord g.pc).toNat + statusCode g.status * 2 ^ 34), (0x008, 32, counterNum g.c),
   (0x028, 8, g.calls.length + boolBit g.trap.lvl * 2 ^ 8 + g.ixb * 2 ^ 16 + reg0 * 2 ^ 32 + tile0 * 2 ^ 48)]
def callPuts (g : Group) : List Put :=
  (g.calls.mapIdx fun i f => [(0x030 + 40 * i, 8, (posWord f.ret).toNat), (0x038 + 40 * i, 32, counterNum f.c)]).flatten
def trapPuts (g : Group) : List Put :=
  [(0x2B0, 32, counterNum g.trap.c), (0x2D0, 8, g.trap.depth), (0x2D8, 8, (posWord g.trap.epc).toNat),
   (0x2E0, 8, g.trap.ecause.toNat), (0x2E8, 8, g.trap.einfo.toNat), (0x2F0, 8, g.trap.emask.toNat)]
def kPuts (g : Group) : List Put := (List.range 64).map fun i => (0x300 + 8 * i, 8, (kget g i).toNat)
def specialPuts (g : Group) : List Put :=
  [(0x500, 8, g.status8.toNat), (0x508, 8, g.seed.toNat), (0x510, 8, g.sg.toNat), (0x518, 8, g.sleepLeft)]
def windowPuts (g : Group) : List Put :=
  ((List.range 8).map fun i =>
    let w := xwget g i
    [(0x520 + 24 * i, 8, w.base), (0x528 + 24 * i, 8, w.size), (0x530 + 24 * i, 8, boolBit w.isOpen)]).flatten
def handlePuts (g : Group) : List Put := (List.range 16).map fun i => (0x5E0 + 16 * i, 16, handleNum (hget g i))
def classPuts (s : State) (g : Group) (gid : Nat) : List Put :=
  [EngineClass.ld, .st, .cp, .mx, .tm, .tour, .cl].map fun c =>
    let x := clsOf g c
    let isOpen := s.ops.any fun o => o.2.gid = gid && o.2.cls = c && o.2.batch.isNone
    (0x6E0 + 8 * c.code, 8, x.next.toNat + x.count * 2 ^ 8 + boolBit x.err * 2 ^ 16 + x.eb.toNat * 2 ^ 24 + x.cause.toNat * 2 ^ 32
      + boolBit isOpen * 2 ^ 40)
def maskPuts (g : Group) : List Put :=
  [(0x720, 4, ((g.u.or g.uEmit).getD 0xFFFFFFFF).toNat), (0x724, 4, if g.u.isSome then (g.uEmit.getD 0).toNat else 0)]
def waitaPuts (g : Group) : List Put := match g.waita with
  | some (w, o, e) => [(0x728, 8, w), (0x730, 8, o), (0x738, 8, e.toNat)]
  | none => []
def placePuts (g : Group) (team : Nat) : List Put :=
  [(0x740, 4, team), (0x744, 4, g.num), (0x748, 4, g.role), (0x74C, 4, g.slot), (0x750, 4, g.regs), (0x754, 4, g.ntiles)]
def slotPuts (g : Group) : List Put := ((List.range 4).map fun i => tourPuts (0x800 + 512 * i) (tourSlot g i)).flatten
theorem groupPuts_eq (s : State) (g : Group) (gid team reg0 tile0 : Nat) : groupPuts s g gid team reg0 tile0 =
    recordHead g reg0 tile0 ++ callPuts g ++ trapPuts g ++ kPuts g ++ specialPuts g ++ windowPuts g ++ handlePuts g ++ classPuts s g gid
      ++ maskPuts g ++ waitaPuts g ++ placePuts g team ++ slotPuts g := by
  unfold groupPuts waitaPuts
  rfl

/-- The parts of a record in order. -/
def recordParts (s : State) (g : Group) (gid team reg0 tile0 : Nat) : List (List Put) :=
  [recordHead g reg0 tile0, callPuts g, trapPuts g, kPuts g, specialPuts g, windowPuts g, handlePuts g, classPuts s g gid, maskPuts g, waitaPuts g,
   placePuts g team, slotPuts g]
theorem mem_groupPuts {s : State} {g : Group} {gid team reg0 tile0 : Nat} {u : Put} {ps : List Put} (k : Nat)
    (hk : (recordParts s g gid team reg0 tile0)[k]? = some ps) (hu : u ∈ ps) : u ∈ groupPuts s g gid team reg0 tile0 := by
  have : groupPuts s g gid team reg0 tile0 = (recordParts s g gid team reg0 tile0).flatten := by
    rw [groupPuts_eq]
    simp only [recordParts, List.flatten_cons, List.flatten_nil, List.append_nil, List.append_assoc]
  rw [this]
  exact List.mem_flatten.2 ⟨ps, List.mem_of_getElem? hk, hu⟩

/-! ## A record's writes follow one another -/

theorem kPuts_laid (g : Group) : Laid 0x300 0x500 (kPuts g) := by
  refine laid_list 8 _ _ _ (fun i u h => ?_) (by simp [kPuts])
  obtain ⟨-, rfl⟩ := getElem?_map_range h
  dsimp only
  omega
theorem handlePuts_laid (g : Group) : Laid 0x5E0 0x6E0 (handlePuts g) := by
  refine laid_list 16 _ _ _ (fun i u h => ?_) (by simp [handlePuts])
  obtain ⟨-, rfl⟩ := getElem?_map_range h
  dsimp only
  omega
theorem callPuts_laid (g : Group) (h : g.calls.length ≤ 16) : Laid 0x030 0x2B0 (callPuts g) := by
  refine laid_flatten 40 _ _ _ (fun i ps hi => ?_) (by simp; omega)
  obtain ⟨f, -, rfl⟩ := getElem?_mapIdx_some hi
  simp only [Laid]
  omega
theorem windowPuts_laid (g : Group) : Laid 0x520 0x5E0 (windowPuts g) := by
  refine laid_flatten 24 _ _ _ (fun i ps hi => ?_) (by simp)
  obtain ⟨-, rfl⟩ := getElem?_map_range hi
  simp only [Laid]
  omega
theorem classPuts_laid (s : State) (g : Group) (gid : Nat) : Laid 0x6E0 0x720 (classPuts s g gid) := by
  simp [classPuts, Laid, EngineClass.code]
theorem waitaPuts_laid (g : Group) : Laid 0x728 0x740 (waitaPuts g) := by
  unfold waitaPuts
  split
  · simp [Laid]
  · simp [Laid]
theorem tourPuts_laid (base : Nat) (t : TourSlot) (hs : t.steps.length ≤ 8) (hm : t.masks.length ≤ 4) :
    Laid base (base + 512) (tourPuts base t) := by
  have hmasks : Laid (base + 8) (base + 40) (t.masks.mapIdx fun i x => (base + 8 + 8 * i, 8, x.toNat)) := by
    refine laid_list 8 _ _ _ (fun i u h => ?_) (by simp; omega)
    obtain ⟨x, -, rfl⟩ := getElem?_mapIdx_some h
    dsimp only
    omega
  have hsteps : Laid (base + 40) (base + 104) (t.steps.mapIdx fun i x => (base + 40 + 8 * i, 8, x.toNat)) := by
    refine laid_list 8 _ _ _ (fun i u h => ?_) (by simp; omega)
    obtain ⟨x, -, rfl⟩ := getElem?_mapIdx_some h
    dsimp only
    omega
  unfold tourPuts
  refine Laid.append (mid := base + 128) (Laid.append (Laid.append (Laid.append ?_ hmasks) hsteps) ?_) ?_
  · simp [Laid]
  · simp only [Laid]
    omega
  · unfold allLanes
    rw [List.flatMap_def]
    refine laid_flatten 12 _ _ _ (fun i ps hi => ?_) (by simp)
    obtain ⟨-, rfl⟩ := getElem?_map_range hi
    simp only [Laid]
    omega
theorem slotPuts_laid (g : Group) (h : ∀ i, (tourSlot g i).steps.length ≤ 8 ∧ (tourSlot g i).masks.length ≤ 4) :
    Laid 0x800 0x1000 (slotPuts g) := by
  unfold slotPuts
  refine laid_flatten 512 _ _ _ (fun i ps hi => ?_) (by simp)
  obtain ⟨-, rfl⟩ := getElem?_map_range hi
  rw [Nat.mul_succ, ← Nat.add_assoc]
  exact tourPuts_laid _ _ (h i).1 (h i).2
theorem groupPuts_laid (s : State) (g : Group) (gid team reg0 tile0 : Nat) (hc : g.calls.length ≤ 16)
    (ht : ∀ i, (tourSlot g i).steps.length ≤ 8 ∧ (tourSlot g i).masks.length ≤ 4) :
    Laid 0 0x1000 (groupPuts s g gid team reg0 tile0) := by
  rw [groupPuts_eq]
  refine Laid.append (Laid.append (Laid.append (Laid.append (Laid.append (Laid.append (Laid.append (Laid.append (Laid.append (Laid.append
    (Laid.append ?_ (callPuts_laid g hc)) ?_) (kPuts_laid g)) ?_) (windowPuts_laid g)) (handlePuts_laid g)) (classPuts_laid s g gid)) ?_)
    (waitaPuts_laid g)) ?_) (slotPuts_laid g ht)
  · simp [recordHead, Laid]
  · simp [trapPuts, Laid]
  · simp [specialPuts, Laid]
  · simp [maskPuts, Laid]
  · simp [placePuts, Laid]

end Sys2Proof.Machine
end

section
/-! PROOFS. The block of a core (R333): its regions, and what each of its bytes is. -/

namespace Sys2Proof.Machine

/-! ## The regions of a block -/

def headPuts (x : SavedCore) : List Put :=
  [(0, 8, x.teams.length), (8, 8, x.groups.length), (16, 8, x.copies.length), (24, 8, (leafEntries x).length)]
def teamPuts (s : State) (x : SavedCore) : List Put :=
  (x.teams.mapIdx fun i t =>
    let gr := grid s t.2.grid
    let b := 0x1000 + 64 * i
    [(b, 4, teamField t.2), (b + 4, 4, roleCounts x.groups t.1), (b + 8, 4, t.2.index / gr.gang), (b + 12, 4, t.2.index % gr.gang),
     (b + 16, 4, t.2.ways.length), (b + 20, 4, (carveBases x).getD i 0)]).flatten
def cellPuts (x : SavedCore) : List Put := x.tempo.cells.map fun c => (0x2000 + c.1, 1, c.2.toNat / 16 * 128 + c.2.toNat % 16)
def modePuts (x : SavedCore) : List Put := [(0x6000, 16, x.tempo.mode.toNat), (0x6010, 1, x.tempo.tw.toNat)]
def stagePuts (x : SavedCore) : List Put := x.tempo.stage.map fun r => (0x6020 + 2 * r.1, 2, r.2.toNat + 256)
def outPuts (x : SavedCore) : List Put := (List.range 128).map fun j => (0x6120 + j, 1, (cget 255 x.tempo.out j).toNat)
def copyPuts (s : State) (x : SavedCore) : List Put :=
  (x.copies.mapIdx fun i c =>
    let ws := encode c.2.ins
    let b := 0x8000 + 32 * i
    [(b, 4, ws.getD 0 0), (b + 4, 4, ws.getD 1 0), (b + 8, 8, c.2.opA), (b + 16, 8, c.2.opB),
     (b + 24, 8, (((mget s.ops c.2.op).map (opBatch s)).getD 0).toNat)]).flatten
def phaserPuts (x : SavedCore) : List Put := ((leafEntries x).mapIdx fun i n => leafPuts (0x8800 + 32 * i) n.1 n.2).flatten
def recordPuts (s : State) (x : SavedCore) : List Put :=
  (x.groups.mapIdx fun i g =>
    (groupPuts s g.2 g.1 (x.teams.takeWhile fun t => t.1 != g.2.team).length ((regBases x).getD i 0) ((tileBases x).getD i 0)).map fun u =>
      (0x20000 + 4096 * i + u.1, u.2)).flatten
def regPuts (x : SavedCore) : List Put :=
  (x.groups.mapIdx fun i g => g.2.v.map fun w => (0x60000 + 128 * ((regBases x).getD i 0 + w.1 / 32) + 4 * (w.1 % 32), 4, w.2.toNat)).flatten
def tilePuts (x : SavedCore) : List Put :=
  (x.groups.mapIdx fun i g => g.2.tiles.map fun w => (0xE0000 + 512 * ((tileBases x).getD i 0 + w.1 / 128) + 4 * (w.1 % 128), 4, w.2.toNat)).flatten
def carvePuts (x : SavedCore) : List Put :=
  (x.teams.mapIdx fun i t => t.2.carve.map fun b => (0x2E0000 + (carveBases x).getD i 0 + b.1, 1, b.2.toNat)).flatten
/-- The regions of a block in order, each with its end. -/
def blockRegions (s : State) (x : SavedCore) : List (Nat × List Put) :=
  [(0x1000, headPuts x), (0x2000, teamPuts s x), (0x6000, cellPuts x), (0x6020, modePuts x), (0x6120, stagePuts x), (0x8000, outPuts x),
   (0x8800, copyPuts s x), (0x20000, phaserPuts x), (0x60000, recordPuts s x), (0xE0000, regPuts x), (0x2E0000, tilePuts x),
   (0x3C0000, carvePuts x)]
theorem corePuts_eq (s : State) (x : SavedCore) : corePuts s x = (blockRegions s x).flatMap (·.2) := by
  show headPuts x ++ teamPuts s x ++ cellPuts x ++ modePuts x ++ stagePuts x ++ outPuts x ++ copyPuts s x ++ phaserPuts x ++ recordPuts s x
    ++ regPuts x ++ tilePuts x ++ carvePuts x = _
  simp only [blockRegions, List.flatMap_cons, List.flatMap_nil, List.append_nil, List.append_assoc]

/-! ## The packed regions -/

theorem carveFold_spec (ts : List (Nat × Team)) (l : List Nat) (n : Nat) :
    (ts.foldl (fun (l : List Nat × Nat) t => (l.1 ++ [l.2], l.2 + t.2.scratch)) (l, n)).1 =
      l ++ (List.range ts.length).map fun i => n + sumBefore (·.2.scratch) ts i := by
  induction ts generalizing l n with
  | nil => simp
  | cons t ts ih =>
    rw [List.foldl_cons, ih, List.length_cons, List.range_succ_eq_map, List.map_cons, List.map_map, List.append_assoc]
    simp [sumBefore, Function.comp_def, Nat.add_assoc]
theorem carveBases_getD (x : SavedCore) {i : Nat} (hi : i < x.teams.length) : (carveBases x).getD i 0 = sumBefore (·.2.scratch) x.teams i := by
  unfold carveBases
  rw [carveFold_spec]
  simp [hi]
theorem regPuts_eq (x : SavedCore) : regPuts x = packedPuts x.groups (·.2.regs) (·.2.v) (·.toNat) 0x60000 4 32 := by
  unfold regPuts packedPuts
  congr 1
  refine List.ext_getElem (by simp) fun i h _ => ?_
  simp only [List.getElem_mapIdx]
  rw [regBases_getD x i (by simpa using h)]
  refine List.map_congr_left fun w _ => ?_
  congr 1
  show 0x60000 + 128 * (sumBefore (·.2.regs) x.groups i + w.1 / 32) + 4 * (w.1 % 32) = _
  omega
theorem tilePuts_eq (x : SavedCore) : tilePuts x = packedPuts x.groups (·.2.ntiles) (·.2.tiles) (·.toNat) 0xE0000 4 128 := by
  unfold tilePuts packedPuts
  congr 1
  refine List.ext_getElem (by simp) fun i h _ => ?_
  simp only [List.getElem_mapIdx]
  rw [tileBases_getD x i (by simpa using h)]
  refine List.map_congr_left fun w _ => ?_
  congr 1
  show 0xE0000 + 512 * (sumBefore (·.2.ntiles) x.groups i + w.1 / 128) + 4 * (w.1 % 128) = _
  omega
theorem carvePuts_eq (x : SavedCore) : carvePuts x = packedPuts x.teams (·.2.scratch) (·.2.carve) (·.toNat) 0x2E0000 1 1 := by
  unfold carvePuts packedPuts
  congr 1
  refine List.ext_getElem (by simp) fun i h _ => ?_
  simp only [List.getElem_mapIdx]
  rw [carveBases_getD x (by simpa using h)]
  refine List.map_congr_left fun w _ => ?_
  congr 1
  omega

/-! ## Where each region lies -/

theorem leafEntries_length (x : SavedCore) : (leafEntries x).length = x.leaves.length + x.teams.length := by simp [leafEntries]
theorem headPuts_laid (x : SavedCore) : Laid 0 0x1000 (headPuts x) := by simp [headPuts, Laid]
theorem modePuts_laid (x : SavedCore) : Laid 0x6000 0x6020 (modePuts x) := by simp [modePuts, Laid]
theorem teamPuts_laid (s : State) {x : SavedCore} (h : x.teams.length ≤ 64) : Laid 0x1000 0x2000 (teamPuts s x) := by
  unfold teamPuts
  refine laid_flatten 64 _ _ _ (fun i ps hi => ?_) (by simp; omega)
  obtain ⟨t, -, rfl⟩ := getElem?_mapIdx_some hi
  simp only [Laid]
  omega
theorem copyPuts_laid (s : State) {x : SavedCore} (h : x.copies.length ≤ 64) : Laid 0x8000 0x8800 (copyPuts s x) := by
  unfold copyPuts
  refine laid_flatten 32 _ _ _ (fun i ps hi => ?_) (by simp; omega)
  obtain ⟨c, -, rfl⟩ := getElem?_mapIdx_some hi
  simp only [Laid]
  omega
theorem phaserPuts_laid {x : SavedCore} (h : (leafEntries x).length ≤ 1088) : Laid 0x8800 0x20000 (phaserPuts x) := by
  unfold phaserPuts
  refine laid_flatten 32 _ _ _ (fun i ps hi => ?_) (by simp; omega)
  obtain ⟨n, -, rfl⟩ := getElem?_mapIdx_some hi
  simp only [leafPuts, Laid]
  omega
theorem recordPuts_laid (s : State) {x : SavedCore} (h : x.groups.length ≤ 64)
    (hg : ∀ g ∈ x.groups, g.2.calls.length ≤ 16 ∧ ∀ i, (tourSlot g.2 i).steps.length ≤ 8 ∧ (tourSlot g.2 i).masks.length ≤ 4) :
    Laid 0x20000 0x60000 (recordPuts s x) := by
  unfold recordPuts
  refine laid_flatten 4096 _ _ _ (fun i ps hi => ?_) (by simp; omega)
  obtain ⟨g, hgi, rfl⟩ := getElem?_mapIdx_some hi
  obtain ⟨hc, ht⟩ := hg g (List.mem_of_getElem? hgi)
  have := (groupPuts_laid s g.2 g.1 (x.teams.takeWhile fun t => t.1 != g.2.team).length ((regBases x).getD i 0) ((tileBases x).getD i 0)
    hc ht).shift (0x20000 + 4096 * i)
  rwa [Nat.mul_succ, ← Nat.add_assoc]
theorem outPuts_within (x : SavedCore) : Within 0x6120 0x8000 (outPuts x) := by
  intro u hu
  obtain ⟨j, hj, rfl⟩ := List.mem_map.1 hu
  have := List.mem_range.1 hj
  dsimp only
  omega
theorem cellPuts_within {x : SavedCore} (h : ∀ c ∈ x.tempo.cells, c.1 < 16384) : Within 0x2000 0x6000 (cellPuts x) := by
  intro u hu
  obtain ⟨c, hc, rfl⟩ := List.mem_map.1 hu
  have := h c hc
  dsimp only
  omega
theorem stagePuts_within {x : SavedCore} (h : ∀ r ∈ x.tempo.stage, r.1 < 128) : Within 0x6020 0x6120 (stagePuts x) := by
  intro u hu
  obtain ⟨r, hr, rfl⟩ := List.mem_map.1 hu
  have := h r hr
  dsimp only
  omega
/-- What a saved core holds fits its block: its regions follow one another. -/
theorem blockRegions_fenced (s : State) {x : SavedCore} (h : BlockFits x) : Fenced 0 (blockRegions s x) := by
  obtain ⟨hteams, hgroups, hcopies, hleaves, hregs, htiles, hcarve, hg, ht, -, hcells, hstage⟩ := h
  refine ⟨by omega, (headPuts_laid x).within, by omega, (teamPuts_laid s hteams).within, by omega, cellPuts_within hcells, by omega,
    (modePuts_laid x).within, by omega, stagePuts_within hstage, by omega, outPuts_within x, by omega, (copyPuts_laid s hcopies).within, by omega,
    (phaserPuts_laid (by rw [leafEntries_length]; omega)).within, by omega, (recordPuts_laid s hgroups ?_).within, by omega, ?_, by omega, ?_,
    by omega, ?_, trivial⟩
  · intro g hgm
    obtain ⟨-, -, hc, -, -, -, -, -, htour⟩ := hg g hgm
    exact ⟨hc, htour⟩
  · rw [regPuts_eq]
    refine packedPuts_within _ _ _ _ _ (fun g hgm => ?_) (by omega)
    obtain ⟨-, -, -, -, -, hv, -⟩ := hg g hgm
    exact hv
  · rw [tilePuts_eq]
    refine packedPuts_within _ _ _ _ _ (fun g hgm => ?_) (by omega)
    obtain ⟨-, -, -, -, -, -, -, hv, -⟩ := hg g hgm
    exact hv
  · rw [carvePuts_eq]
    exact packedPuts_within _ _ _ _ _ (fun t htm w hw => by simpa using (ht t htm).2 w hw) (by omega)

/-! ## The block in memory -/

theorem Fenced.below {lo top : Nat} {rs : List (Nat × List Put)} (h : Fenced lo rs) (ht : ∀ r ∈ rs, r.1 ≤ top) :
    ∀ u ∈ rs.flatMap (·.2), u.1 + u.2.1 ≤ top := by
  induction rs generalizing lo with
  | nil => exact fun _ h => absurd h (by simp)
  | cons r t ih =>
    obtain ⟨-, hw, hf⟩ := h
    intro u hu
    rcases List.mem_append.1 (List.flatMap_cons ▸ hu) with hu | hu
    · exact (hw u hu).2.trans (ht r List.mem_cons_self)
    · exact ih hf (fun r hr => ht r (List.mem_cons_of_mem _ hr)) u hu
theorem writeBlock_memWork (s : State) (p ctx : Nat) (x : SavedCore) : MemWork s (writeBlock s p ctx x) :=
  ((zeroPages_memWork ..).trans (writePuts_memWork ..)).trans (markPuts_memWork ..).1
/-- A core's block is written: every byte of it is what its list of writes leaves on zeros. -/
theorem readByte_writeBlock {s : State} {p ctx a : Nat} {x : SavedCore} (ha : saveBase s p ctx x.core = a) (hf : BlockFits x) (hlt : a < 2 ^ 52)
    (hi : Installed a (2 ^ 22)) {o : Nat} (ho : o < 2 ^ 22) : readByte (writeBlock s p ctx x).mem (a + o) = byteAt (corePuts s x) o := by
  have hzero := zeroPages_unlisted (base := a) s 1024 fun i hi' => resolve_installed s hlt hi (by omega)
  have htop : ∀ u ∈ corePuts s x, u.1 + u.2.1 ≤ 0x3C0000 := by
    rw [corePuts_eq]
    refine (blockRegions_fenced s hf).below ?_
    simp [blockRegions]
  have hblock : writeBlock s p ctx x = markPuts (writePuts (zeroPages s a 1024) a (corePuts s x)) a (coreMarks x) := by
    unfold writeBlock
    rw [ha]
  rw [hblock, (markPuts_memWork ..).2, readByte_writePuts a _ _ fun u hu => resolve_installed _ hlt hi (by have := htop u hu; omega),
    readByte_unlisted fun e he heq => hzero e he (by omega)]
  rfl

end Sys2Proof.Machine
end

section
/-! PROOFS. The block of a core stands in memory once its bytes do (R333, R334). -/

namespace Sys2Proof.Machine

theorem toNat_mod {w n : Nat} (v : BitVec w) (h : 2 ^ w ≤ 256 ^ n) : v.toNat % 256 ^ n = v.toNat := Nat.mod_eq_of_lt (v.isLt.trans_le h)
theorem boolBit_le (b : Bool) : boolBit b ≤ 1 := by cases b <;> decide
theorem recordState_eq (g : Group) : recordState g = statusCode g.status := by
  unfold recordState statusCode
  split <;> simp_all
theorem statusCode_le (st : GStatus) : statusCode st ≤ 3 := by
  unfold statusCode
  split <;> omega

section
variable {s : State} {m : List Host.Cell} {a : Nat} {x : SavedCore} (hf : BlockFits x)
  (hb : ∀ o, o < 2 ^ 22 → readByte m (a + o) = byteAt (corePuts s x) o)
include hf hb

/-- A byte of a region of the block. -/
theorem block_byte (k : Nat) {hi o : Nat} {ps : List Put} (hk : (blockRegions s x)[k]? = some (hi, ps)) (hl : startOf 0 (blockRegions s x) k ≤ o)
    (hh : o < hi) (ht : hi ≤ 2 ^ 22) : readByte m (a + o) = byteAt ps o := by
  rw [hb o (by omega), corePuts_eq]
  exact (blockRegions_fenced s hf).byteAt k hk hl hh
/-- A write of a region whose writes follow one another is read back, as a number and byte by byte. -/
theorem block_put (k : Nat) {lo hi : Nat} {ps : List Put} (hk : (blockRegions s x)[k]? = some (hi, ps)) (hlaid : Laid lo hi ps)
    (hl : startOf 0 (blockRegions s x) k ≤ lo) (ht : hi ≤ 2 ^ 22) {o n v : Nat} (hu : (o, n, v) ∈ ps) :
    readNum m (a + o) n = v % 256 ^ n ∧ ∀ j, j < n → readByte m (a + o + j) = BitVec.ofNat 8 (v / 256 ^ j) := by
  have hbyte (j : Nat) (hj : j < n) : readByte m (a + o + j) = BitVec.ofNat 8 (v / 256 ^ j) := by
    obtain ⟨h1, h2⟩ := hlaid.within _ hu
    dsimp only at h1 h2
    rw [Nat.add_assoc, block_byte hf hb k hk (by omega) (by omega) ht,
      byteAt_laid hlaid hu (show o ≤ o + j by omega) (show o + j < o + n by omega), Nat.add_sub_cancel_left]
  exact ⟨readNum_of_bytes hbyte, hbyte⟩
theorem head_holds {o n v : Nat} (hu : (o, n, v) ∈ headPuts x) : readNum m (a + o) n = v % 256 ^ n :=
  (block_put hf hb 0 rfl (headPuts_laid x) (Nat.le_refl 0) (by omega) hu).1
theorem mode_holds : readNum m (a + 0x6000) 16 = x.tempo.mode.toNat := by
  rw [(block_put hf hb 3 rfl (modePuts_laid x) (Nat.le_refl _) (by omega) (o := 0x6000) (n := 16) (v := x.tempo.mode.toNat) (by simp [modePuts])).1]
  exact toNat_mod _ (by norm_num)
theorem cell_holds {k : Nat} (hk : k < 16384) :
    readNum m (a + (0x2000 + k)) 1 = (cget 0 x.tempo.cells k).toNat / 16 * 2 ^ 7 + (cget 0 x.tempo.cells k).toNat % 16 := by
  obtain ⟨-, -, -, -, -, -, -, -, -, hcells, -, -⟩ := id hf
  have hps : cellPuts x = x.tempo.cells.map fun c => (0x2000 + 1 * c.1, 1, c.2.toNat / 16 * 128 + c.2.toNat % 16) := by
    simp only [Nat.one_mul]
    rfl
  rw [readNum_one, block_byte hf hb 2 rfl (show 0x2000 ≤ 0x2000 + k by omega) (by omega) (by omega), hps]
  have h := byteAt_cells 0x2000 k (fun c : BitVec 5 => c.toNat / 16 * 128 + c.toNat % 16) hcells (sz := 1) (j := 0) (by omega)
  rw [Nat.add_zero, Nat.one_mul] at h
  rw [h]
  unfold cget
  cases mget x.tempo.cells k with
  | none => rfl
  | some c =>
    have := c.isLt
    simp only [Option.map_some, Option.getD_some, Nat.pow_zero, Nat.div_one, BitVec.toNat_ofNat]
    omega
theorem carve_holds {i b : Nat} {t : Nat × Team} (ht : x.teams[i]? = some t) (hlt : b < t.2.scratch) :
    readNum m (a + (0x2E0000 + sumBefore (·.2.scratch) x.teams i + b)) 1 = (cget 0 t.2.carve b).toNat := by
  obtain ⟨-, -, -, -, -, -, hcarve, -, hts, -, -, -⟩ := id hf
  have hin := packed_index (f := fun t : Nat × Team => t.2.scratch) (c := 1) ht (by simpa using hlt)
  have htop := sumBefore_le (fun t : Nat × Team => t.2.scratch) x.teams (i + 1)
  rw [readNum_one, block_byte hf hb 11 rfl (show 0x2E0000 ≤ 0x2E0000 + sumBefore (·.2.scratch) x.teams i + b by omega) (by omega) (by omega),
    carvePuts_eq]
  have h := byteAt_packed (l := x.teams) (f := fun t => t.2.scratch) (store := fun t => t.2.carve) (BitVec.toNat) 0x2E0000 (sz := 1) (c := 1) (j := 0)
    (fun t htm => ⟨(hts t htm).1, fun w hw => by simpa using (hts t htm).2 w hw⟩) ht (by simpa using hlt) (by omega)
  rw [Nat.add_zero, Nat.one_mul, Nat.one_mul, ← Nat.add_assoc] at h
  rw [h]
  unfold cget
  cases mget t.2.carve b <;> simp

section
variable {i gid : Nat} {g : Group} (hg : x.groups[i]? = some (gid, g))
include hg

/-- What the record of a group holds. -/
theorem record_put (k : Nat) {ps : List Put} {o n v q : Nat} (hk : (recordParts s g gid (x.teams.takeWhile fun t => t.1 != g.team).length
      (sumBefore (·.2.regs) x.groups i) (sumBefore (·.2.ntiles) x.groups i))[k]? = some ps) (hu : (o, n, v) ∈ ps) (hq : q = 0x20000 + 4096 * i + o) :
    readNum m (a + q) n = v % 256 ^ n ∧ ∀ j, j < n → readByte m (a + q + j) = BitVec.ofNat 8 (v / 256 ^ j) := by
  obtain ⟨-, hgroups, -, -, -, -, -, hgs, -⟩ := id hf
  obtain ⟨hi, -⟩ := List.getElem?_eq_some_iff.1 hg
  have hlaid := recordPuts_laid s hgroups fun g hgm =>
    let ⟨_, _, hc, _, _, _, _, _, ht⟩ := hgs g hgm
    ⟨hc, ht⟩
  subst hq
  refine block_put hf hb 8 rfl hlaid (Nat.le_refl _) (by omega) (List.mem_flatten.2 ⟨_, List.mem_mapIdx.2 ⟨i, hi, rfl⟩, ?_⟩)
  have hgi : x.groups[i] = (gid, g) := (List.getElem?_eq_some_iff.1 hg).2
  rw [hgi, regBases_getD x i hi, tileBases_getD x i hi]
  exact List.mem_map.2 ⟨_, mem_groupPuts k hk hu, rfl⟩
theorem record_counters (k : Nat) {ps : List Put} {o q l : Nat} {c : Cells Byte}
    (hk : (recordParts s g gid (x.teams.takeWhile fun t => t.1 != g.team).length (sumBefore (·.2.regs) x.groups i)
      (sumBefore (·.2.ntiles) x.groups i))[k]? = some ps) (hu : (o, 32, counterNum c) ∈ ps) (hq : q = 0x20000 + 4096 * i + o) (hl : l < 32) :
    readNum m (a + (q + l)) 1 = (cget 0 c l).toNat := by
  rw [readNum_one, ← Nat.add_assoc, (record_put hf hb hg k hk hu hq).2 l hl, counterNum_byte c hl]
theorem reg_holds {q l : Nat} (hq : q < g.regs) (hl : l < 32) :
    readNum m (a + (0x60000 + 128 * (sumBefore (·.2.regs) x.groups i + q) + 4 * l)) 4 = (vget g q l).toNat := by
  obtain ⟨-, -, -, -, hregs, -, -, hgs, -⟩ := id hf
  have hstores : ∀ g ∈ x.groups, rising none g.2.v = true ∧ ∀ w ∈ g.2.v, w.1 < 32 * g.2.regs := fun g hgm =>
    let ⟨_, _, _, _, hr, hv, _⟩ := hgs g hgm
    ⟨hr, hv⟩
  have hin := packed_index (f := fun g : Nat × Group => g.2.regs) (c := 32) (k := 32 * q + l) hg (by dsimp only; omega)
  have htop := sumBefore_le (fun g : Nat × Group => g.2.regs) x.groups (i + 1)
  have hval : readNum m (a + (0x60000 + 128 * (sumBefore (·.2.regs) x.groups i + q) + 4 * l)) 4 =
      ((mget g.v (32 * q + l)).map BitVec.toNat).getD 0 % 256 ^ 4 := readNum_of_bytes fun j hj => by
    rw [Nat.add_assoc, block_byte hf hb 9 rfl (show 0x60000 ≤ _ by omega) (by omega) (by omega), regPuts_eq,
      ← byteAt_packed (l := x.groups) (f := fun g => g.2.regs) (store := fun g => g.2.v) BitVec.toNat 0x60000 hstores hg (by dsimp only; omega) hj]
    congr 1
    omega
  rw [hval]
  unfold vget cget
  cases mget g.v (32 * q + l) with
  | none => rfl
  | some w => exact toNat_mod w (by norm_num)
theorem tile_holds {q j : Nat} (hq : q < g.ntiles) (hj : j < 128) :
    readNum m (a + (0xE0000 + 512 * (sumBefore (·.2.ntiles) x.groups i + q) + 4 * j)) 4 = (cget 0 g.tiles (128 * q + j)).toNat := by
  obtain ⟨-, -, -, -, -, htiles, -, hgs, -⟩ := id hf
  have hstores : ∀ g ∈ x.groups, rising none g.2.tiles = true ∧ ∀ w ∈ g.2.tiles, w.1 < 128 * g.2.ntiles := fun g hgm =>
    let ⟨_, _, _, _, _, _, hr, hv, _⟩ := hgs g hgm
    ⟨hr, hv⟩
  have hin := packed_index (f := fun g : Nat × Group => g.2.ntiles) (c := 128) (k := 128 * q + j) hg (by dsimp only; omega)
  have htop := sumBefore_le (fun g : Nat × Group => g.2.ntiles) x.groups (i + 1)
  have hval : readNum m (a + (0xE0000 + 512 * (sumBefore (·.2.ntiles) x.groups i + q) + 4 * j)) 4 =
      ((mget g.tiles (128 * q + j)).map BitVec.toNat).getD 0 % 256 ^ 4 := readNum_of_bytes fun k hk => by
    rw [Nat.add_assoc, block_byte hf hb 10 rfl (show 0xE0000 ≤ _ by omega) (by omega) (by omega), tilePuts_eq,
      ← byteAt_packed (l := x.groups) (f := fun g => g.2.ntiles) (store := fun g => g.2.tiles) BitVec.toNat 0xE0000 hstores hg (by dsimp only; omega) hk]
    congr 1
    omega
  rw [hval]
  unfold cget
  cases mget g.tiles (128 * q + j) with
  | none => rfl
  | some w => exact toNat_mod w (by norm_num)

end
end

end Sys2Proof.Machine
end

section
/-! PROOFS. BlockHolds from the bytes of a block (R333, R334). -/

namespace Sys2Proof.Machine

theorem posWord_mod (p : Pos) : (posWord p).toNat = (4 * p.pkt + p.word) % 2 ^ 64 := by
  unfold posWord
  rw [BitVec.toNat_ofNat, Nat.mul_comm]

section
variable {s : State} {m : List Host.Cell} {a : Nat} {x : SavedCore} (hf : BlockFits x)
  (hb : ∀ o, o < 2 ^ 22 → readByte m (a + o) = byteAt (corePuts s x) o) {i gid : Nat} {g : Group} (hg : x.groups[i]? = some (gid, g))
include hf hb hg

/-- The head of a record: position, state, counters, and the word that names the packed regions. -/
theorem record_head : readNum m (a + (0x20000 + 4096 * i)) 8 = 4 * g.pc.pkt + g.pc.word + recordState g * 2 ^ 34 ∧
    readNum m (a + (0x20000 + 4096 * i + 0x028)) 8 = g.calls.length + boolBit g.trap.lvl * 2 ^ 8 + g.ixb * 2 ^ 16 +
      sumBefore (·.2.regs) x.groups i * 2 ^ 32 + sumBefore (·.2.ntiles) x.groups i * 2 ^ 48 := by
  obtain ⟨-, -, -, -, hregs, htiles, -, hgs, -⟩ := id hf
  obtain ⟨hpkt, hword, hcalls, hixb, -⟩ := hgs _ (List.mem_of_getElem? hg)
  have hr := sumBefore_le (fun g : Nat × Group => g.2.regs) x.groups i
  have ht := sumBefore_le (fun g : Nat × Group => g.2.ntiles) x.groups i
  have hst := statusCode_le g.status
  have hlvl := boolBit_le g.trap.lvl
  dsimp only at hpkt hword hcalls hixb
  constructor
  · rw [(record_put hf hb hg 0 rfl (List.mem_cons_self ..) (Nat.add_zero _).symm).1, posWord_mod, recordState_eq]
    omega
  · rw [(record_put hf hb hg 0 rfl (List.mem_cons_of_mem _ (List.mem_cons_of_mem _ (List.mem_cons_self ..))) rfl).1]
    omega

/-- The call stack of a record. -/
theorem record_calls {j : Nat} {f : Frame} (hj : g.calls[j]? = some f) :
    readNum m (a + (0x20000 + 4096 * i + 0x030 + 40 * j)) 8 = (4 * f.ret.pkt + f.ret.word) % 2 ^ 64 ∧
      ∀ l, l < 32 → readNum m (a + (0x20000 + 4096 * i + 0x038 + 40 * j + l)) 1 = (cget 0 f.c l).toNat := by
  have hmem (u : Put) (hu : u ∈ [(0x030 + 40 * j, 8, (posWord f.ret).toNat), (0x038 + 40 * j, 32, counterNum f.c)]) : u ∈ callPuts g := by
    obtain ⟨hlt, rfl⟩ := List.getElem?_eq_some_iff.1 hj
    exact List.mem_flatten.2 ⟨_, List.mem_mapIdx.2 ⟨j, hlt, rfl⟩, hu⟩
  constructor
  · rw [(record_put hf hb hg 1 rfl (hmem _ (List.mem_cons_self ..)) (Nat.add_assoc ..)).1, toNat_mod _ (by norm_num), posWord_mod]
  · exact fun l hl => record_counters hf hb hg 1 rfl (hmem _ (List.mem_cons_of_mem _ (List.mem_cons_self ..))) (Nat.add_assoc ..) hl
/-- The trap save area of a record. -/
theorem record_trap : (∀ l, l < 32 → readNum m (a + (0x20000 + 4096 * i + 0x2B0 + l)) 1 = (cget 0 g.trap.c l).toNat) ∧
    readNum m (a + (0x20000 + 4096 * i + 0x2D0)) 8 = g.trap.depth % 2 ^ 64 ∧
    readNum m (a + (0x20000 + 4096 * i + 0x2D8)) 8 = (4 * g.trap.epc.pkt + g.trap.epc.word) % 2 ^ 64 ∧
    readNum m (a + (0x20000 + 4096 * i + 0x2E0)) 8 = g.trap.ecause.toNat ∧ readNum m (a + (0x20000 + 4096 * i + 0x2E8)) 8 = g.trap.einfo.toNat ∧
    readNum m (a + (0x20000 + 4096 * i + 0x2F0)) 8 = g.trap.emask.toNat := by
  have hput {o n v : Nat} (hu : (o, n, v) ∈ trapPuts g) := (record_put hf hb hg 2 rfl hu rfl).1
  refine ⟨fun l hl => record_counters hf hb hg 2 rfl (show (0x2B0, 32, counterNum g.trap.c) ∈ trapPuts g by simp [trapPuts]) rfl hl, ?_, ?_, ?_, ?_, ?_⟩
  · rw [hput (show (0x2D0, 8, g.trap.depth) ∈ trapPuts g by simp [trapPuts])]
    norm_num
  · rw [hput (show (0x2D8, 8, (posWord g.trap.epc).toNat) ∈ trapPuts g by simp [trapPuts]), toNat_mod _ (by norm_num), posWord_mod]
  · rw [hput (show (0x2E0, 8, g.trap.ecause.toNat) ∈ trapPuts g by simp [trapPuts]), toNat_mod _ (by norm_num)]
  · rw [hput (show (0x2E8, 8, g.trap.einfo.toNat) ∈ trapPuts g by simp [trapPuts]), toNat_mod _ (by norm_num)]
  · rw [hput (show (0x2F0, 8, g.trap.emask.toNat) ∈ trapPuts g by simp [trapPuts]), toNat_mod _ (by norm_num)]
/-- The k registers and special registers of a record. -/
theorem record_registers : (∀ j, j < 64 → readNum m (a + (0x20000 + 4096 * i + 0x300 + 8 * j)) 8 = (kget g j).toNat) ∧
    readNum m (a + (0x20000 + 4096 * i + 0x500)) 8 = g.status8.toNat ∧ readNum m (a + (0x20000 + 4096 * i + 0x508)) 8 = g.seed.toNat ∧
    readNum m (a + (0x20000 + 4096 * i + 0x510)) 8 = g.sg.toNat ∧ readNum m (a + (0x20000 + 4096 * i + 0x518)) 8 = g.sleepLeft % 2 ^ 64 := by
  have hput {o n v : Nat} (hu : (o, n, v) ∈ specialPuts g) := (record_put hf hb hg 4 rfl hu rfl).1
  refine ⟨fun j hj => ?_, ?_, ?_, ?_, ?_⟩
  · rw [(record_put hf hb hg 3 rfl (List.mem_map.2 ⟨j, List.mem_range.2 hj, rfl⟩) (Nat.add_assoc ..)).1, toNat_mod _ (by norm_num)]
  · rw [hput (show (0x500, 8, g.status8.toNat) ∈ specialPuts g by simp [specialPuts]), toNat_mod _ (by norm_num)]
  · rw [hput (show (0x508, 8, g.seed.toNat) ∈ specialPuts g by simp [specialPuts]), toNat_mod _ (by norm_num)]
  · rw [hput (show (0x510, 8, g.sg.toNat) ∈ specialPuts g by simp [specialPuts]), toNat_mod _ (by norm_num)]
  · rw [hput (show (0x518, 8, g.sleepLeft) ∈ specialPuts g by simp [specialPuts])]
    norm_num
/-- The windows of a record. -/
theorem record_windows {j : Nat} (hj : j < 8) : readNum m (a + (0x20000 + 4096 * i + 0x520 + 24 * j)) 8 = (xwget g j).base % 2 ^ 64 ∧
    readNum m (a + (0x20000 + 4096 * i + 0x528 + 24 * j)) 8 = (xwget g j).size % 2 ^ 64 ∧
    readNum m (a + (0x20000 + 4096 * i + 0x530 + 24 * j)) 8 = boolBit (xwget g j).isOpen := by
  have hput {o v : Nat} (hu : (o + 24 * j, 8, v) ∈ [(0x520 + 24 * j, 8, (xwget g j).base), (0x528 + 24 * j, 8, (xwget g j).size),
      (0x530 + 24 * j, 8, boolBit (xwget g j).isOpen)]) : readNum m (a + (0x20000 + 4096 * i + o + 24 * j)) 8 = v % 256 ^ 8 :=
    (record_put hf hb hg 5 rfl (List.mem_flatten.2 ⟨_, List.mem_map.2 ⟨j, List.mem_range.2 hj, rfl⟩, hu⟩) (Nat.add_assoc ..)).1
  refine ⟨?_, ?_, ?_⟩
  · rw [hput (v := (xwget g j).base) (by simp)]
    norm_num
  · rw [hput (v := (xwget g j).size) (by simp)]
    norm_num
  · rw [hput (v := boolBit (xwget g j).isOpen) (by simp)]
    have := boolBit_le (xwget g j).isOpen
    omega

end

theorem blockHolds_of_bytes {s : State} {m : List Host.Cell} {a : Nat} {x : SavedCore} (hf : BlockFits x)
    (hb : ∀ o, o < 2 ^ 22 → readByte m (a + o) = byteAt (corePuts s x) o) : BlockHolds m a x := by
  have hhead {o v : Nat} (hu : (o, 8, v) ∈ headPuts x) (hv : v < 2 ^ 64) : readNum m (a + o) 8 = v := by
    rw [head_holds hf hb hu]
    exact Nat.mod_eq_of_lt (by omega)
  obtain ⟨hteams, hgroups, hcopies, hleaves, -⟩ := id hf
  refine ⟨hhead (by simp [headPuts]) (by omega), hhead (by simp [headPuts]) (by omega), hhead (by simp [headPuts]) (by omega),
    hhead (by simp [headPuts, leafEntries]) (by omega), fun k hk => cell_holds hf hb hk, mode_holds hf hb, fun i gid g hg => ?_,
    fun i tid t ht b hlt => carve_holds hf hb ht hlt⟩
  obtain ⟨hpc, hpack⟩ := record_head hf hb hg
  obtain ⟨htc, htd, hte, htk, hti, htm⟩ := record_trap hf hb hg
  obtain ⟨hk, hst, hseed, hsg, hsleep⟩ := record_registers hf hb hg
  exact ⟨hpc, fun l hl => record_counters hf hb hg 0 rfl (show (0x008, 32, counterNum g.c) ∈ recordHead _ _ _ by simp [recordHead]) rfl hl, hpack,
    fun j f hj => record_calls hf hb hg hj, htc, htd, hte, htk, hti, htm, hk, hst, hseed, hsg, hsleep, fun j hj => record_windows hf hb hg hj,
    fun q l hq hl => reg_holds hf hb hg hq hl, fun q j hq hj => tile_holds hf hb hg hq hj⟩

end Sys2Proof.Machine
end

section
/-! PROOFS. CORE_STATE_SAVE (R208, R226, R332, R333). -/

namespace Sys2Proof.Machine

theorem savedOf_names (s : State) (p ctx : Nat) : (savedOf s p ctx).part = p ∧ (savedOf s p ctx).ctx = ctx := by
  unfold savedOf
  cases h : s.saved.find? fun x => x.part = p && x.ctx = ctx with
  | none => exact ⟨rfl, rfl⟩
  | some y => simpa using List.find?_some h
theorem mem_putSaved {s : State} {y : Saved} (h : (y.cores.isEmpty && y.gather.isEmpty) = false) : y ∈ (putSaved s y).saved := by
  unfold putSaved
  simp [h]

/-- What a save of a core keeps (R333). -/
def keptCore (s : State) (c p ctx : Nat) : SavedCore :=
  { core := c, teams := s.teams.filter fun t => t.2.core = c, groups := mmap (coreGroups s c) fun _ g => savedGroup s g, tempo := (core s c).tempo
    copies := s.copies.filter fun x => x.2.core = c
    leaves := (ctxObjects s p ctx).filterMap fun o => (mget o.2.nodes c).map fun n => (o.1, n) }
/-- A core without what was saved of it. -/
def clearedCore (s : State) (c p ctx : Nat) : State :=
  let t := dropInterest s c
  modCore { t with
    groups := t.groups.filter fun g => g.2.core != c
    teams := t.teams.filter fun t => t.2.core != c
    copies := t.copies.filter fun y => y.2.core != c
    phs := mmap t.phs fun _ o => if o.part = p && o.ctx = ctx then { o with nodes := mdel o.nodes c } else o
    grids := mmap t.grids fun _ g => if g.part = p && g.ctx = ctx then { g with reserve := g.reserve.filter fun r => r.2.1 != c } else g }
    c fun k => { k with slots := [], tempo := {}, preempt := none }
/-- The save of a core with teams: its block, what is kept of it, and the core free. -/
theorem saveCore_eq {s : State} {c p ctx : Nat} (h : (s.teams.filter fun t => t.2.core = c).isEmpty = false) :
    let u := clearedCore (writeBlock s p ctx (keptCore s c p ctx)) c p ctx
    let y := { savedOf u p ctx with cores := (savedOf u p ctx).cores ++ [keptCore s c p ctx] }
    ∃ ps, saveCore s c p ctx = { putSaved u y with parts := ps } := by
  intro u y
  have hsave : saveCore s c p ctx = if (putSaved u y).cores.any fun k => k.2.preempt = some (p, ctx) then putSaved u y
      else modPart (putSaved u y) p fun x => { x with stopped := x.stopped.filter (· != ctx) } := by
    unfold saveCore
    simp only [h, Bool.false_eq_true, if_false]
    rfl
  rw [hsave]
  split
  · exact ⟨_, rfl⟩
  · exact ⟨_, rfl⟩
theorem saveCore_spec {s : State} {c p ctx : Nat} (h : ∃ k ∈ s.teams, k.2.core = c) :
    let t := saveCore s c p ctx
    let z := keptCore s c p ctx
    t.mem = (writeBlock s p ctx z).mem ∧ t.groups = s.groups.filter (fun g => g.2.core != c) ∧ t.teams = s.teams.filter (fun t => t.2.core != c) ∧
      (core t c).preempt = none ∧ ∃ y ∈ t.saved, y.part = p ∧ y.ctx = ctx ∧ z ∈ y.cores := by
  obtain ⟨k, hk, hkc⟩ := h
  obtain ⟨ps, hsave⟩ := saveCore_eq (s := s) (c := c) (p := p) (ctx := ctx)
    (by simpa using ⟨k.1, k.2, hk, hkc⟩)
  obtain ⟨_, _, _, _, _, hw⟩ := writeBlock_memWork s p ctx (keptCore s c p ctx)
  let u := clearedCore (writeBlock s p ctx (keptCore s c p ctx)) c p ctx
  let y := { savedOf u p ctx with cores := (savedOf u p ctx).cores ++ [keptCore s c p ctx] }
  obtain ⟨hp, hc⟩ := savedOf_names u p ctx
  intro t z
  rw [show t = _ from hsave]
  refine ⟨rfl, ?_, ?_, ?_, y, mem_putSaved (by simp [y]), hp, hc, List.mem_append_right _ (List.mem_singleton.2 rfl)⟩
  · show (writeBlock s p ctx (keptCore s c p ctx)).groups.filter _ = _
    rw [hw]
  · show (writeBlock s p ctx (keptCore s c p ctx)).teams.filter _ = _
    rw [hw]
  · show (core u c).preempt = none
    show (core (modCore _ c _) c).preempt = none
    rw [core_modCore, if_pos rfl]

/-- A core that has drained and has nothing to write back is saved. -/
theorem coreStateSave_eq {s : State} {p ctx c : Nat} (hpre : (core s c).preempt = some (p, ctx)) (hd : drained s c p ctx = true)
    (hl : (core s c).l1 = []) (hb : coreBound s c = []) (hu : unequalGroups s c = []) :
    exec (.coreStateSave c) s = .next (saveCore (modCore (disown s c) c fun k => { k with l1 := [] }) c p ctx) := by
  have hback : writeBack (disown s c) c none none (fun _ _ => true) = (disown s c, []) := by
    have : (core (disown s c) c).l1 = [] := by
      unfold disown
      rw [core_modCore, if_pos rfl, hl]
      rfl
    unfold writeBack
    rw [this]
    rfl
  show execCoreStateSave c s = _
  unfold execCoreStateSave
  rw [hpre]
  dsimp only
  rw [if_neg (by simp [hd]), if_neg (by simp [hu]), hback]
  dsimp only
  rw [if_pos]
  show (true && (coreBound s c).isEmpty) = true
  rw [hb]
  rfl
theorem coreStateSave_spec {s : State} {p ctx c : Nat} (hpre : (core s c).preempt = some (p, ctx)) (hd : drained s c p ctx = true)
    (hl : (core s c).l1 = []) (hb : coreBound s c = []) (hu : unequalGroups s c = []) (ht : ∃ k ∈ s.teams, k.2.core = c) :
    Gives (.coreStateSave c) s fun s t => (∀ g ∈ t.groups, g.2.core ≠ c) ∧
      (∀ k ∈ t.teams, k.2.core ≠ c) ∧ (core t c).preempt = none ∧
      ∃ y ∈ t.saved, y.part = p ∧ y.ctx = ctx ∧ ∃ z ∈ y.cores, z.core = c ∧ z.teams = s.teams.filter (fun k => k.2.core = c) ∧
        (∀ g ∈ coreGroups s c, ∃ g' ∈ z.groups, g'.1 = g.1 ∧ g'.2.pc = g.2.pc ∧ g'.2.v = g.2.v ∧ g'.2.k = g.2.k ∧ g'.2.c = g.2.c ∧
          g'.2.tiles = g.2.tiles ∧ g'.2.sg = g.2.sg) ∧
        let a := saveBase s p ctx c
        (BlockFits z → a < 2 ^ 52 → Installed a (2 ^ 22) → BlockHolds t.mem a z) := by
  let u := modCore (disown s c) c fun k => { k with l1 := [] }
  refine ⟨_, coreStateSave_eq hpre hd hl hb hu, ?_⟩
  obtain ⟨hmem, hgroups, hteams, hfree, y, hy, hp, hc, hz⟩ := saveCore_spec (s := u) (c := c) (p := p) (ctx := ctx) ht
  refine ⟨fun g hg => ?_, fun k hk => ?_, hfree, y, hy, hp, hc, keptCore u c p ctx, hz, rfl, rfl, fun g hg => ?_, fun hf hlt hi => ?_⟩
  · rw [hgroups] at hg
    simpa using (List.mem_filter.1 hg).2
  · rw [hteams] at hk
    simpa using (List.mem_filter.1 hk).2
  · exact ⟨(g.1, savedGroup u g.2), List.mem_map.2 ⟨g, hg, rfl⟩, rfl, rfl, rfl, rfl, rfl, rfl, rfl⟩
  · rw [hmem]
    exact blockHolds_of_bytes hf fun o ho => readByte_writeBlock (s := u) rfl hf hlt hi ho

end Sys2Proof.Machine
end

section
/-! PROOFS. GATHER_BUFFER_SAVE (R328, R339). -/

namespace Sys2Proof.Machine

/-! ## Writes at homes leave the gather buffers alone -/

theorem foldl_gather {α : Type} (d : Nat) (f : State → α → State) (l : List α) (s : State)
    (hf : ∀ s x, (die (f s x) d).gather = (die s d).gather) : (die (l.foldl f s) d).gather = (die s d).gather := by
  induction l generalizing s with
  | nil => rfl
  | cons x l ih => exact (ih (f s x)).trans (hf s x)
theorem homeLine_gather (s : State) (line d : Nat) : (die (homeLine s line) d).gather = (die s d).gather := by
  have htouch : (die (l2Touch s line true) d).gather = (die s d).gather := by
    unfold l2Touch
    split
    · rfl
    · rw [die_modDie]
      split
      · subst_vars
        rfl
      · rfl
  unfold homeLine
  rw [← htouch]
  generalize l2Touch s line true = t
  unfold wakeLine
  dsimp only
  split
  · rfl
  · rw [foldl_gather d _ _ _ fun s w => by rfl]
    rw [die_modDie]
    split
    · subst_vars
      rfl
    · rfl
theorem homeWriteNum_gather (s : State) (a n x d : Nat) : (die (homeWriteNum s a n x) d).gather = (die s d).gather :=
  foldl_gather d homeLine _ _ fun s line => homeLine_gather s line d
theorem writePuts_gather (s : State) (base : Nat) (ps : List Put) (d : Nat) : (die (writePuts s base ps) d).gather = (die s d).gather :=
  foldl_gather d _ _ _ fun s u => by
    cases resolve s (base + u.1) with
    | none => rfl
    | some a => exact homeWriteNum_gather s a u.2.1 u.2.2 d

/-! ## The bytes of a die's gather area (R328) -/

/-- The writes for one node's buffer. -/
def bufferPuts (node bytes left : Nat) (recs : List (List Word)) : List Put :=
  [(2 ^ 20 + 64 * node, 64, recs.length + bytes * 2 ^ 16 + left / 1000 * 2 ^ 32)]
    ++ (recs.mapIdx fun k ws => ws.mapIdx fun i w => (2 ^ 14 * node + 256 * k + 4 * i, 4, w.toNat)).flatten
theorem mem_bufferPuts {node bytes left : Nat} {recs : List (List Word)} {u : Put} : u ∈ bufferPuts node bytes left recs ↔
    u = (2 ^ 20 + 64 * node, 64, recs.length + bytes * 2 ^ 16 + left / 1000 * 2 ^ 32) ∨
      ∃ k i ws w, recs[k]? = some ws ∧ ws[i]? = some w ∧ u = (2 ^ 14 * node + 256 * k + 4 * i, 4, w.toNat) := by
  unfold bufferPuts
  rw [List.mem_append, List.mem_singleton]
  refine or_congr Iff.rfl ⟨fun h => ?_, ?_⟩
  · obtain ⟨ps, hps, hu⟩ := List.mem_flatten.1 h
    obtain ⟨k, hk⟩ := List.getElem?_of_mem hps
    obtain ⟨ws, hws, rfl⟩ := getElem?_mapIdx_some hk
    obtain ⟨i, hi⟩ := List.getElem?_of_mem hu
    obtain ⟨w, hw, rfl⟩ := getElem?_mapIdx_some hi
    exact ⟨k, i, ws, w, hws, hw, rfl⟩
  · rintro ⟨k, i, ws, w, hk, hi, rfl⟩
    obtain ⟨hkl, rfl⟩ := List.getElem?_eq_some_iff.1 hk
    obtain ⟨hil, rfl⟩ := List.getElem?_eq_some_iff.1 hi
    exact List.mem_flatten.2 ⟨_, List.mem_mapIdx.2 ⟨k, hkl, rfl⟩, List.mem_mapIdx.2 ⟨i, hil, rfl⟩⟩
/-- A node's buffer that fits its place stands in memory: its header and each word of its records. -/
theorem bufferPuts_hold {s : State} {a node bytes left : Nat} {recs : List (List Word)} (hn : node < 64) (hr : recs.length ≤ 64)
    (hw : ∀ r ∈ recs, r.length ≤ 64) (hb : bytes < 2 ^ 16) (hl : left / 1000 < 2 ^ 32) (ha : a < 2 ^ 52) (hi : Installed a (2 ^ 21)) :
    readNum (writePuts s a (bufferPuts node bytes left recs)).mem (a + 2 ^ 20 + 64 * node) 64 =
        recs.length + bytes * 2 ^ 16 + left / 1000 * 2 ^ 32 ∧
      ∀ k i ws w, recs[k]? = some ws → ws[i]? = some w →
        readNum (writePuts s a (bufferPuts node bytes left recs)).mem (a + 2 ^ 14 * node + 256 * k + 4 * i) 4 = w.toNat := by
  have hbound {k i : Nat} {ws : List Word} {w : Word} (hk : recs[k]? = some ws) (hi : ws[i]? = some w) : k < 64 ∧ i < 64 := by
    obtain ⟨hk', -⟩ := List.getElem?_eq_some_iff.1 hk
    obtain ⟨hi', -⟩ := List.getElem?_eq_some_iff.1 hi
    have := hw ws (List.mem_of_getElem? hk)
    omega
  have hres : ∀ u ∈ bufferPuts node bytes left recs, resolve s (a + u.1) = some (a + u.1) := fun u hu => by
    refine resolve_installed s ha hi ?_
    rcases mem_bufferPuts.1 hu with rfl | ⟨k, i, ws, w, hk, hi, rfl⟩
    · dsimp only
      omega
    · have := hbound hk hi
      dsimp only
      omega
  constructor
  · rw [Nat.add_assoc, readNum_writePuts hres (mem_bufferPuts.2 (.inl rfl))]
    · exact Nat.mod_eq_of_lt (by norm_num; omega)
    · intro u hu
      rcases mem_bufferPuts.1 hu with h | ⟨k, i, ws, w, hk, hi, rfl⟩
      · exact .inl h
      · have := hbound hk hi
        dsimp only
        omega
  · intro k i ws w hk hi
    have h := hbound hk hi
    rw [show a + 2 ^ 14 * node + 256 * k + 4 * i = a + (2 ^ 14 * node + 256 * k + 4 * i) by omega,
      readNum_writePuts hres (mem_bufferPuts.2 (.inr ⟨k, i, ws, w, hk, hi, rfl⟩))]
    · exact toNat_mod w (by norm_num)
    · intro u hu
      rcases mem_bufferPuts.1 hu with rfl | ⟨k', i', ws', w', hk', hi', rfl⟩
      · dsimp only
        omega
      · have h' := hbound hk' hi'
        by_cases he : k' = k ∧ i' = i
        · obtain ⟨rfl, rfl⟩ := he
          obtain rfl := Option.some.inj (hk'.symm.trans hk)
          obtain rfl := Option.some.inj (hi'.symm.trans hi)
          exact .inl rfl
        · dsimp only
          omega

/-! ## The save (R339) -/

/-- A buffer with what is left of its timer. -/
def heldBuffer (s : State) (b : Gather) : Gather := { b with lapse := b.lapse.map (· - s.time) }
theorem gatherBufferSave_eq {s : State} {p ctx d : Nat} {b : Gather} {gr : Grid} (hs : scheduled s p ctx = false) (hn : s.net = [])
    (hp : s.ports = []) (hg : (die s d).gather = [b]) (hgr : mget s.grids b.grid = some gr) (hpart : gr.part = p) (hctx : gr.ctx = ctx)
    (ho : gr.isOver = false) (hne : gr.nodes ≠ []) (hc : coresOf s p ctx = []) (hd : (part s p).dies.getLsbD d = true)
    (hsv : savedOf s p ctx = { part := p, ctx := ctx }) :
    let base := ctxField s p ctx 0x18 8 + 2 ^ 21 * dieIndex (part s p) d
    let u := (s.grids.filter fun g => g.2.part = p && g.2.ctx = ctx && !g.2.isOver).foldl (fun t g =>
      writePuts t base (gatherPuts g.2 (([heldBuffer s b].filter fun b => b.grid = g.1).map fun b => (b.node, b, b.lapse.getD 0)))) s
    let v := modDie u d fun x => { x with gather := x.gather.filter fun b => !((grid s b.grid).part = p && (grid s b.grid).ctx = ctx) }
    exec (.gatherBufferSave p ctx d) s = .next (putSaved v { savedOf v p ctx with gather := mput (savedOf v p ctx).gather d [heldBuffer s b] }) := by
  have hgrid : grid s b.grid = gr := by
    unfold grid
    rw [hgr]
    rfl
  have hdecl : (s.grids.any fun g => (grid s g.1).part = p && (grid s g.1).ctx = ctx && !g.2.isOver && !g.2.nodes.isEmpty) = true :=
    List.any_eq_true.2 ⟨(b.grid, gr), mem_of_mget hgr, by simp [hgrid, hpart, hctx, ho, hne]⟩
  have hbufs : ((die s d).gather.filter fun b => (grid s b.grid).part = p && (grid s b.grid).ctx = ctx) = [b] := by
    rw [hg]
    simp [hgrid, hpart, hctx]
  intro base u v
  show execGatherBufferSave p ctx d s = _
  unfold execGatherBufferSave
  dsimp only
  rw [if_neg, hbufs]
  · rfl
  · simp only [hs, hn, hp, hdecl, hsv, hc, hd]
    simp [mget]
theorem gatherBufferSave_spec {s : State} {p ctx d : Nat} {b : Gather} {gr : Grid} (hs : scheduled s p ctx = false) (hn : s.net = [])
    (hp : s.ports = []) (hg : (die s d).gather = [b]) (hgr : mget s.grids b.grid = some gr) (hpart : gr.part = p) (hctx : gr.ctx = ctx)
    (ho : gr.isOver = false) (hne : gr.nodes ≠ []) (hc : coresOf s p ctx = []) (hd : (part s p).dies.getLsbD d = true)
    (hsv : savedOf s p ctx = { part := p, ctx := ctx }) :
    Gives (.gatherBufferSave p ctx d) s fun _ t => (die t d).gather = [] ∧
      (∃ y ∈ t.saved, y.part = p ∧ y.ctx = ctx ∧ y.gather = [(d, [{ b with lapse := b.lapse.map (· - s.time) }])]) ∧
      let a := ctxField s p ctx 0x18 8 + 2 ^ 21 * dieIndex (part s p) d
      let left := ((b.lapse.map (· - s.time)).getD 0) / 1000
      ∀ n, s.grids = [(b.grid, gr)] → gr.nodes = [(b.node, n)] → b.node < 64 → b.recs.length ≤ 64 → (∀ r ∈ b.recs, r.length ≤ 64) →
        n.bytes < 2 ^ 16 → left < 2 ^ 32 → a < 2 ^ 52 → Installed a (2 ^ 21) →
        readNum t.mem (a + 2 ^ 20 + 64 * b.node) 64 = b.recs.length + n.bytes * 2 ^ 16 + left * 2 ^ 32 ∧
        ∀ k i ws w, b.recs[k]? = some ws → ws[i]? = some w → readNum t.mem (a + 2 ^ 14 * b.node + 256 * k + 4 * i) 4 = w.toNat := by
  have hgrid : grid s b.grid = gr := by
    unfold grid
    rw [hgr]
    rfl
  let base := ctxField s p ctx 0x18 8 + 2 ^ 21 * dieIndex (part s p) d
  let puts (g : Nat × Grid) : List Put := gatherPuts g.2 (([heldBuffer s b].filter fun b => b.grid = g.1).map fun b => (b.node, b, b.lapse.getD 0))
  let gs := s.grids.filter fun g => g.2.part = p && g.2.ctx = ctx && !g.2.isOver
  let u := gs.foldl (fun t g => writePuts t base (puts g)) s
  obtain ⟨_, _, _, _, _, hu⟩ := foldl_memWork (fun t g => writePuts t base (puts g)) gs s fun t g => writePuts_memWork t base (puts g)
  have hgather : (die u d).gather = [b] := (foldl_gather d _ gs s fun t g => writePuts_gather t base (puts g) d).trans hg
  let v := modDie u d fun x => { x with gather := x.gather.filter fun b => !((grid s b.grid).part = p && (grid s b.grid).ctx = ctx) }
  have hsaved : savedOf v p ctx = { part := p, ctx := ctx } := by
    have : savedOf v p ctx = savedOf s p ctx := by
      show savedOf u p ctx = _
      rw [show u = _ from hu]
      rfl
    rw [this, hsv]
  refine ⟨_, gatherBufferSave_eq hs hn hp hg hgr hpart hctx ho hne hc hd hsv, ?_, ⟨_, mem_putSaved ?_, (savedOf_names v p ctx).1, (savedOf_names v p ctx).2, ?_⟩, ?_⟩
  · show (die v d).gather = []
    rw [die_modDie, if_pos rfl]
    show (die u d).gather.filter _ = []
    rw [hgather]
    simp [hgrid, hpart, hctx]
  · show ((savedOf v p ctx).cores.isEmpty && (mput (savedOf v p ctx).gather d [heldBuffer s b]).isEmpty) = false
    rw [hsaved]
    rfl
  · show mput (savedOf v p ctx).gather d [heldBuffer s b] = _
    rw [hsaved]
    rfl
  · intro a left n hgrids hnodes hnode hrecs hlens hbytes hleft ha hi
    have hputs : puts (b.grid, gr) = bufferPuts b.node n.bytes ((b.lapse.map (· - s.time)).getD 0) b.recs := by
      show gatherPuts gr _ = _
      unfold gatherPuts bufferPuts
      rw [hnodes]
      simp [heldBuffer]
    have hmem : u = writePuts s a (bufferPuts b.node n.bytes ((b.lapse.map (· - s.time)).getD 0) b.recs) := by
      rw [← hputs]
      show (s.grids.filter _).foldl _ s = _
      rw [hgrids]
      simp [hpart, hctx, ho, base, a]
    show readNum u.mem _ 64 = _ ∧ ∀ k i ws w, _ → _ → readNum u.mem _ 4 = _
    rw [hmem]
    exact bufferPuts_hold hnode hrecs hlens hbytes hleft ha hi

end Sys2Proof.Machine
end

section
/-! PROOFS. O52 from its clauses. -/

namespace Sys2Proof.Machine

/-- Settles O52: each event by its own lemma; the block and the gather area by the layout of their writes. -/
theorem tenantEvents : Obligations.TenantEvents := by
  unfold Obligations.TenantEvents
  intro s p ctx c d v x level n
  exact ⟨fun next rest hr hx => ⟨_, timeSliceExpire_first hr hx, rfl, (part_modPart ..).trans (if_pos rfl)⟩,
    fun next old hx he hh hn hne => timeSliceExpire_hands hx he hh hn hne,
    fun hh hc => preemptRequest_spec hh hc,
    fun hpre hd hl hb hu ht => coreStateSave_spec hpre hd hl hb hu ht,
    fun y i id g hg => loadBlock_spec hg,
    fun b gr hs hn hp hg hgr hpart hctx ho hne hc hd hsv => gatherBufferSave_spec hs hn hp hg hgr hpart hctx ho hne hc hd hsv,
    fun b hs hv hb hd => contextRestore_gather hs hv hb hd,
    fun y u hs hv hr hsp hm ho hp hu => contextRestore_core hs hv hr hsp hm ho hp hu,
    fun hd => by
      show execInval p v s = _
      unfold execInval
      rw [hd]
      rfl,
    fun hd hl => inval_refused v hd hl,
    fun hd h1 h4 => inval_started v hd h1 h4,
    fun w rest hi hc hd hf ha hcp hv => invalidationDrainDone_spec hi hc hd hf ha hcp hv,
    fun pasid addr size h => atsInvalidateRequest_none addr size h,
    fun pasid addr size hm hp hd => atsInvalidateRequest_cuts addr size hm hp hd⟩

end Sys2Proof.Machine
end

section
/-! PROOFS. Words and their fields (R46, R47, R51): an instruction and the fields of its word and literal. -/

namespace Sys2Proof

/-- The literal word given to the decoder: 0 where an instruction takes none. -/
def literalNum (l : Option Word) : Nat := (l.getD 0).toNat
@[simp] theorem literalNum_some (y : Word) : literalNum (some y) = y.toNat := rfl

/-- The word w, whatever its chain bit, with the literal word l is read as i, and asks for a literal where there is one. -/
def WordOf (i : Instr) (w : Nat) (l : Option Word) : Prop :=
  w < 2 ^ 31 ∧ ∀ c, decodeFields (w + c * 2 ^ 31) (literalNum l) = .ok i ∧ takesLiteral (w + c * 2 ^ 31) = l.isSome

/-- The chain bit is no part of what is read: it is enough to read every word whose low 31 bits are w. -/
theorem wordOf_intro {i : Instr} {w : Nat} {l : Option Word} (hw : w < 2 ^ 31)
    (h : ∀ x, x % 2 ^ 31 = w → decodeFields x (literalNum l) = .ok i ∧ takesLiteral x = l.isSome) : WordOf i w l :=
  ⟨hw, fun c => h _ (by omega)⟩

/-! ## Fields -/

theorem field_field {w lo m k n : Nat} (h : k + n ≤ m) : field (field w lo m) k n = field w (lo + k) n := by
  unfold field
  obtain ⟨j, rfl⟩ : ∃ j, m = k + n + j := ⟨m - (k + n), by omega⟩
  rw [Nat.pow_add 2 lo k, ← Nat.div_div_eq_div_mul, show 2 ^ (k + n + j) = 2 ^ k * (2 ^ n * 2 ^ j) by ring,
    Nat.mod_mul_right_div_self, Nat.mod_mul_right_mod]
theorem field_mod {w m k n : Nat} (h : k + n ≤ m) : field (w % 2 ^ m) k n = field w k n := by
  have := field_field (w := w) (lo := 0) h
  rwa [Nat.zero_add, show field w 0 m = w % 2 ^ m by simp [field]] at this
theorem ofNat_of_mod {n w : Nat} {x : BitVec n} (h : w % 2 ^ n = x.toNat) : BitVec.ofNat n w = x :=
  BitVec.eq_of_toNat_eq (by rw [BitVec.toNat_ofNat, h])
@[simp] theorem boolBit_eq_one (b : Bool) : boolBit b = 1 ↔ b = true := by cases b <;> decide

/-! ## Operands (R51) -/

theorem Dst.toField_lt (d : Dst) : d.toField < 61 := by
  cases d with
  | v n => exact n.isLt.trans (by decide)
  | discard => decide
@[simp] theorem Dst.ofField?_toField (d : Dst) : Dst.ofField? d.toField = some d := by
  cases d with
  | v n => simp [Dst.ofField?, Dst.toField]
  | discard => rfl
@[simp] theorem reg?_val (r : Fin 48) : reg? r.val = some r := by simp [reg?]
theorem EOp.toField_lt (o : EOp) : o.toField < 61 := by
  cases o with
  | k n => have := n.isLt; simp only [EOp.toField]; omega
  | zero => decide
@[simp] theorem EOp.ofField?_toField (o : EOp) : EOp.ofField? o.toField = some o := by
  cases o with
  | k n =>
    have : 48 + n.val < 56 := by omega
    simp [EOp.ofField?, EOp.toField, this]
  | zero => rfl
theorem Opnd.toField_lt (o : Opnd) : o.toField < 64 := by
  cases o with
  | v n | k n | y n => have := n.isLt; simp only [Opnd.toField]; omega
  | zero | lit _ | lane | tid => simp [Opnd.toField]
theorem Opnd.toField_eq_literal (o : Opnd) : decide (o.toField = 61) = o.lit?.isSome := by
  cases o with
  | v n | k n | y n => exact decide_eq_false (by have := n.isLt; simp only [Opnd.toField]; omega)
  | zero | lit _ | lane | tid => rfl

/-- Where operand o reads a literal, it reads l. -/
def Opnd.Reads (o : Opnd) (l : Option Word) : Prop := ∀ x, o.lit? = some x → l = some x

/-- A source operand is read back from its field and the literal that it reads. -/
theorem Opnd.ofField_toField {o : Opnd} {l : Option Word} (h : o.Reads l) : Opnd.ofField o.toField (literalNum l) = o := by
  cases o with
  | v n => simp [Opnd.ofField, Opnd.toField]
  | k n =>
    have : 48 + n.val < 56 := by omega
    simp [Opnd.ofField, Opnd.toField, this]
  | y n =>
    have : ¬56 + n.val < 48 ∧ 56 + n.val < 60 := by omega
    simp [Opnd.ofField, Opnd.toField, this]
  | lit x => simp [Opnd.ofField, Opnd.toField, h x rfl]
  | zero | lane | tid => rfl
theorem Opnd.reads_lit (o : Opnd) : o.Reads o.lit? := fun _ h => h
theorem reads_litOf2_left (a b : Opnd) : a.Reads (litOf2 a b) := fun _ h => by simp [litOf2, h]
/-- The second operand reads the first one's literal, because two operands name one literal only. -/
theorem reads_litOf2_right {a b : Opnd} (h : litsAgree2 a b = true) : b.Reads (litOf2 a b) := by
  intro x hx
  cases ha : a.lit? with
  | none => simp [litOf2, ha, hx]
  | some y => simp_all [litOf2, litsAgree2]
theorem isSome_litOf2 (a b : Opnd) : (litOf2 a b).isSome = (decide (a.toField = 61) || decide (b.toField = 61)) := by
  rw [a.toField_eq_literal, b.toField_eq_literal]
  cases ha : a.lit? <;> simp [litOf2, ha]
theorem reads_litOf3 {a b e : Opnd} (h : litsAgree3 a b e = true) :
    a.Reads (litOf3 a b e) ∧ b.Reads (litOf3 a b e) ∧ e.Reads (litOf3 a b e) := by
  simp only [litsAgree3, Bool.and_eq_true] at h
  obtain ⟨⟨hab, hae⟩, hbe⟩ := h
  cases ha : a.lit? with
  | some y =>
    have hl : litOf3 a b e = some y := by simp [litOf3, ha]
    have hread (o : Opnd) (ho : litsAgree2 a o = true) : o.Reads (some y) := by simpa [litOf2, ha] using reads_litOf2_right ho
    rw [hl]
    exact ⟨fun x hx => by rw [← hx, ha], hread b hab, hread e hae⟩
  | none =>
    have hl : litOf3 a b e = litOf2 b e := by simp [litOf3, ha]
    rw [hl]
    exact ⟨fun x hx => by simp [ha] at hx, reads_litOf2_left b e, reads_litOf2_right hbe⟩
theorem isSome_litOf3 (a b e : Opnd) :
    (litOf3 a b e).isSome = (decide (a.toField = 61) || decide (b.toField = 61) || decide (e.toField = 61)) := by
  rw [Bool.or_assoc, ← isSome_litOf2, a.toField_eq_literal]
  cases ha : a.lit? <;> simp [litOf3, ha]

/-! ## Suffixes (R66 to R71) and tags (R201) -/

@[simp] theorem RMode.ofCode_code (m : RMode) : RMode.ofCode m.code = m := by cases m <;> rfl
theorem RMode.code_le (m : RMode) : m.code ≤ 4 := by cases m <;> decide
@[simp] theorem LdSize.ofCode_code (z : LdSize) : LdSize.ofCode z.code = z := by cases z <;> rfl
theorem LdSize.code_lt (z : LdSize) : z.code < 7 := by cases z <;> decide
@[simp] theorem StSize.ofCode?_code (z : StSize) : StSize.ofCode? z.code = some z := by cases z <;> rfl
theorem StSize.code_lt (z : StSize) : z.code < 7 := by cases z <;> decide
@[simp] theorem AtomOp.ofCode_code (o : AtomOp) : AtomOp.ofCode o.code = o := by cases o <;> rfl
theorem AtomOp.code_lt (o : AtomOp) : o.code < 16 := by cases o <;> decide
@[simp] theorem Scope.ofCode?_code (s : Scope) : Scope.ofCode? s.code = some s := by cases s <;> rfl
theorem Scope.code_lt (s : Scope) : s.code < 6 := by cases s <;> decide
@[simp] theorem Order.ofCode_code (o : Order) : Order.ofCode o.code = o := by cases o <;> rfl
theorem Order.code_lt (o : Order) : o.code < 4 := by cases o <;> decide
@[simp] theorem EngineClass.ofCode?_code (c : EngineClass) : EngineClass.ofCode? c.code = some c := by cases c <;> rfl
theorem EngineClass.code_lt (c : EngineClass) : c.code < 7 := by cases c <;> decide
@[simp] theorem JoinMode.ofCode?_code (m : JoinMode) : JoinMode.ofCode? m.code = some m := by cases m <;> rfl
theorem JoinMode.code_lt (m : JoinMode) : m.code < 4 := by cases m <;> decide
@[simp] theorem MmTy.ofCode?_code (t : MmTy) : MmTy.ofCode? t.code = some t := by cases t <;> rfl
theorem MmTy.code_lt (t : MmTy) : t.code < 10 := by cases t <;> decide
@[simp] theorem QTy.ofCode?_code (t : QTy) : QTy.ofCode? t.code = some t := by cases t <;> rfl
theorem QTy.code_lt (t : QTy) : t.code < 4 := by cases t <;> decide
@[simp] theorem AldTy.ofCode?_code (t : AldTy) : AldTy.ofCode? t.code = some t := by cases t <;> rfl
theorem AldTy.code_lt (t : AldTy) : t.code < 3 := by cases t <;> decide
@[simp] theorem astTy?_code (t : FTy) : astTy? t.code = some t := by cases t <;> rfl
theorem FTy.code_lt (t : FTy) : t.code < 5 := by cases t <;> decide
@[simp] theorem CollOp.ofCode?_code (o : CollOp) : CollOp.ofCode? o.code = some o := by cases o <;> rfl
theorem CollOp.code_lt (o : CollOp) : o.code < 3 := by cases o <;> decide
@[simp] theorem CollTy.ofCode?_code (t : CollTy) : CollTy.ofCode? t.code = some t := by cases t <;> rfl
theorem CollTy.code_lt (t : CollTy) : t.code < 6 := by cases t <;> decide
@[simp] theorem CollKind.ofCode?_code (k : CollKind) : CollKind.ofCode? k.code = some k := by cases k <;> rfl
theorem CollKind.code_lt (k : CollKind) : k.code < 4 := by cases k <;> decide
@[simp] theorem SReg.ofCode?_code (r : SReg) : SReg.ofCode? r.code = some r := by cases r <;> rfl
theorem SReg.code_lt (r : SReg) : r.code < 25 := by cases r <;> decide
theorem tagField_lt (t : Option (Fin 16)) : tagField t < 32 := by
  cases t with
  | none => decide
  | some h => have := h.isLt; simp only [tagField]; omega
/-- The tag of an engine command is read back beside its window. -/
theorem tag?_tagField (x : Nat) (t : Option (Fin 16)) : tag? (x * 32 + tagField t) = some t := by
  cases t with
  | none =>
    have h1 : field (x * 32) 4 1 = 0 := by unfold field; omega
    have h2 : field (x * 32) 0 4 = 0 := by unfold field; omega
    simp [tag?, tagField, h1, h2]
  | some h =>
    have h1 : field (x * 32 + (16 + h.val)) 4 1 = 1 := by unfold field; omega
    have h2 : Fin.ofNat 16 (x * 32 + (16 + h.val)) = h := Fin.ext (by rw [Fin.val_ofNat]; omega)
    simp only [tag?, tagField, h1, h2, if_true]

end Sys2Proof
end

section
/-! PROOFS. Reading back the words of majors 0x01, 0x02 and 0x04 to 0x0F (R54 to R58, R67 to R69). A lemma about
the words of one format takes as h what the decoder reads at one function value: the decoder's own branch, which evaluating the
decoder gives by default, so that only the instruction is named where the lemma is used. -/

namespace Sys2Proof

/-! ## Lane words -/

/-- The fields of a V2 or V3 word (R54, R55). -/
structure VFields (w major : Nat) (d : VDst) (a b e : Nat) : Prop where
  major_eq : field w 25 6 = major
  w_eq : field w 24 1 = boolBit d.w
  d_eq : field w 18 6 = d.d.toField
  a_eq : field w 12 6 = a
  b_eq : field w 6 6 = b
  e_eq : field w 0 6 = e

section
variable {major a b e : Nat} (d : VDst) (hm : major < 64) (ha : a < 64) (hb : b < 64) (he : e < 64)
include hm ha hb he

theorem encV_lt : encV major d a b e < 2 ^ 31 := by
  have := d.d.toField_lt
  have := Machine.boolBit_le d.w
  unfold encV
  omega
theorem vFields_encV {x : Nat} (hx : x % 2 ^ 31 = encV major d a b e) : VFields x major d a b e := by
  have := d.d.toField_lt
  have := Machine.boolBit_le d.w
  unfold encV at hx
  constructor <;> unfold field <;> omega
end

theorem takesLiteral_v2 {w major a b e : Nat} {d : VDst} (h : VFields w major d a b e) (hm : 4 ≤ major ∧ major ≤ 9) :
    takesLiteral w = (decide (a = 61) || decide (b = 61)) := by
  unfold takesLiteral
  rw [h.major_eq, h.a_eq, h.b_eq]
  simp (disch := omega) only [if_neg, if_pos]
theorem takesLiteral_v3 {w major a b e : Nat} {d : VDst} (h : VFields w major d a b e) (hm : 10 ≤ major ∧ major ≤ 15) :
    takesLiteral w = (decide (a = 61) || decide (b = 61) || decide (e = 61)) := by
  unfold takesLiteral
  rw [h.major_eq, h.a_eq, h.b_eq, h.e_eq]
  simp (disch := omega) only [if_neg, if_pos]

section
variable {d : VDst} {a b e : Opnd} {major fn : Nat}

/-- A V2 word with two sources. -/
theorem wordOf_twoSources (f : VDst → Opnd → Opnd → Instr) (hl : litsAgree2 a b = true)
    (h : ∀ w lit, field w 25 6 = major → field w 0 6 = fn → decodeFields w lit =
      operand (Dst.ofField? (field w 18 6)) fun d =>
        .ok (f ⟨field w 24 1 = 1, d⟩ (Opnd.ofField (field w 12 6) lit) (Opnd.ofField (field w 6 6) lit))
      := by intro w lit hm hf; unfold decodeFields decodeV2; rw [hm, hf]; rfl)
    (hm : 4 ≤ major ∧ major ≤ 9 := by decide) (hfn : fn < 64 := by decide) :
    WordOf (f d a b) (encV major d a.toField b.toField fn) (litOf2 a b) := by
  have hm' : major < 64 := by omega
  refine wordOf_intro (encV_lt d hm' a.toField_lt b.toField_lt hfn) fun x hx => ?_
  have hv := vFields_encV d hm' a.toField_lt b.toField_lt hfn hx
  refine ⟨?_, by rw [takesLiteral_v2 hv hm, isSome_litOf2]⟩
  rw [h _ _ hv.major_eq hv.e_eq, hv.w_eq, hv.d_eq, hv.a_eq, hv.b_eq, Opnd.ofField_toField (reads_litOf2_left a b),
    Opnd.ofField_toField (reads_litOf2_right hl)]
  simp [operand]
/-- A V2 word with one source. -/
theorem wordOf_oneSource (f : VDst → Opnd → Instr)
    (h : ∀ w lit, field w 25 6 = major → field w 0 6 = fn → decodeFields w lit =
      operand (Dst.ofField? (field w 18 6)) fun d =>
        reserved (field w 6 6 = 0) (f ⟨field w 24 1 = 1, d⟩ (Opnd.ofField (field w 12 6) lit))
      := by intro w lit hm hf; unfold decodeFields decodeV2; rw [hm, hf]; rfl)
    (hm : 4 ≤ major ∧ major ≤ 9 := by decide) (hfn : fn < 64 := by decide) :
    WordOf (f d a) (encV major d a.toField 0 fn) a.lit? := by
  have hm' : major < 64 := by omega
  refine wordOf_intro (encV_lt d hm' a.toField_lt (by decide) hfn) fun x hx => ?_
  have hv := vFields_encV d hm' a.toField_lt (by decide) hfn hx
  refine ⟨?_, by simp [takesLiteral_v2 hv hm, ← a.toField_eq_literal]⟩
  rw [h _ _ hv.major_eq hv.e_eq, hv.w_eq, hv.d_eq, hv.a_eq, hv.b_eq, Opnd.ofField_toField a.reads_lit]
  simp [operand, reserved]
/-- A conversion, whose rounding mode stands in B (R56). -/
theorem wordOf_conversion (f : RMode → VDst → Opnd → Instr) {m : RMode}
    (h : ∀ w lit, field w 25 6 = 7 → field w 0 6 = fn → decodeFields w lit =
      operand (Dst.ofField? (field w 18 6)) fun d =>
        if field w 9 3 ≠ 0 then .error .reservedField
        else if field w 6 3 ≤ 4 then .ok (f (RMode.ofCode (field w 6 3)) ⟨field w 24 1 = 1, d⟩ (Opnd.ofField (field w 12 6) lit))
        else .error .operandValue
      := by intro w lit hm hf; unfold decodeFields decodeV2; rw [hm, hf]; rfl)
    (hfn : fn < 64 := by decide) : WordOf (f m d a) (encV 7 d a.toField m.code fn) a.lit? := by
  have hmode := m.code_le
  refine wordOf_intro (encV_lt d (by decide) a.toField_lt (by omega) hfn) fun x hx => ?_
  have hv := vFields_encV d (by decide) a.toField_lt (by omega) hfn hx
  have hlow : field x 6 3 = m.code := by
    rw [← field_field (k := 0) (m := 6) (by decide), hv.b_eq]
    unfold field
    omega
  have hhigh : field x 9 3 = 0 := by
    rw [← field_field (lo := 6) (k := 3) (m := 6) (by decide), hv.b_eq]
    unfold field
    omega
  constructor
  · rw [h _ _ hv.major_eq hv.e_eq, hv.w_eq, hv.d_eq, hv.a_eq, hlow, hhigh, Opnd.ofField_toField a.reads_lit]
    simp [operand, hmode]
  · have : m.code ≠ 61 := by omega
    simp [takesLiteral_v2 hv (by decide), this, ← a.toField_eq_literal]
/-- The types of FCVT, the two of them different (R69). -/
theorem fcvt_code {t f : FTy} (h : t ≠ f) : 5 * f.code + t.code < 25 ∧ (5 * f.code + t.code) % 6 ≠ 0 ∧
    FTy.ofCode ((5 * f.code + t.code) % 5) = t ∧ FTy.ofCode ((5 * f.code + t.code) / 5) = f := by
  revert h
  cases t <;> cases f <;> decide
theorem wordOf_fcvt {t f : FTy} {m : RMode} (h : t ≠ f) :
    WordOf (.fcvt t f m d a) (encV 7 d a.toField m.code (5 * f.code + t.code)) a.lit? := by
  obtain ⟨hlt, hne, hto, hfrom⟩ := fcvt_code h
  refine wordOf_conversion (.fcvt t f) (fun w lit hm hf => ?_) (by omega)
  unfold decodeFields decodeV2
  rw [hm, hf]
  show (if _ then if _ then _ else _ else _) = _
  rw [if_pos hlt, if_neg hne, hto, hfrom]
/-- A V3 word. -/
theorem wordOf_threeSources (f : VDst → Opnd → Opnd → Opnd → Instr) (hl : litsAgree3 a b e = true)
    (h : ∀ w lit, field w 25 6 = major → decodeFields w lit =
      operand (Dst.ofField? (field w 18 6)) fun d =>
        .ok (f ⟨field w 24 1 = 1, d⟩ (Opnd.ofField (field w 12 6) lit) (Opnd.ofField (field w 6 6) lit)
          (Opnd.ofField (field w 0 6) lit))
      := by intro w lit hm; unfold decodeFields decodeV3; rw [hm]; rfl)
    (hm : 10 ≤ major ∧ major ≤ 15 := by decide) :
    WordOf (f d a b e) (encV major d a.toField b.toField e.toField) (litOf3 a b e) := by
  have hm' : major < 64 := by omega
  refine wordOf_intro (encV_lt d hm' a.toField_lt b.toField_lt e.toField_lt) fun x hx => ?_
  have hv := vFields_encV d hm' a.toField_lt b.toField_lt e.toField_lt hx
  obtain ⟨ha, hb, he⟩ := reads_litOf3 hl
  refine ⟨?_, by rw [takesLiteral_v3 hv hm, isSome_litOf3]⟩
  rw [h _ _ hv.major_eq, hv.w_eq, hv.d_eq, hv.a_eq, hv.b_eq, hv.e_eq, Opnd.ofField_toField ha, Opnd.ofField_toField hb,
    Opnd.ofField_toField he]
  simp [operand]
end

/-! ## Uniform words -/

/-- The fields of a word of the register layout (R57): L, KD, KA, KB and the function value. -/
theorem kReg_fields (d a : Fin 64) {x l kb fn : Nat} (hl : l < 2) (hb : kb < 64) (hfn : fn < 64)
    (hx : x % 2 ^ 31 = 2 ^ 25 + l * 2 ^ 24 + d.val * 2 ^ 18 + a.val * 2 ^ 12 + kb * 2 ^ 6 + fn) :
    field x 25 6 = 1 ∧ field x 24 1 = l ∧ field x 18 6 = d ∧ field x 12 6 = a ∧ field x 6 6 = kb ∧ field x 0 6 = fn := by
  unfold field
  omega

section
variable {d a : Fin 64} {fn : Nat}

/-- A uniform word of the register layout, with KB or a literal. -/
theorem wordOf_kReg (f : Fin 64 → Fin 64 → KSrc → Instr) {b : KSrc}
    (h : ∀ w lit, field w 25 6 = 1 → field w 0 6 = fn → decodeFields w lit =
      reserved (field w 24 1 = 0 || field w 6 6 = 0) (f (Fin.ofNat 64 (field w 18 6)) (Fin.ofNat 64 (field w 12 6))
        (if field w 24 1 = 0 then .reg (Fin.ofNat 64 (field w 6 6)) else .lit (BitVec.ofNat 32 lit)))
      := by intro w lit hm hf; unfold decodeFields decodeKReg; rw [hm, hf]; rfl)
    (hfn : fn < 64 := by decide) : WordOf (f d a b) (encKReg fn d a b) b.lit? := by
  cases b with
  | reg n =>
    refine wordOf_intro (by simp only [encKReg]; omega) fun x hx => ?_
    obtain ⟨hm, hl, hd, ha, hb, he⟩ := kReg_fields d a (l := 0) (by decide) n.isLt hfn (hx.trans (by simp only [encKReg]; omega))
    exact ⟨by simp [h _ _ hm he, hl, hd, ha, hb, reserved], by simp [takesLiteral, hm, hl, KSrc.lit?]⟩
  | lit y =>
    refine wordOf_intro (by simp only [encKReg]; omega) fun x hx => ?_
    obtain ⟨hm, hl, hd, ha, hb, he⟩ := kReg_fields d a (l := 1) (kb := 0) (by decide) (by decide) hfn
      (hx.trans (by simp only [encKReg]; omega))
    exact ⟨by simp [h _ _ hm he, hl, hd, ha, hb, reserved, KSrc.lit?], by simp [takesLiteral, hm, hl, KSrc.lit?]⟩
/-- KMOV and KPOPC, which read no B. -/
theorem wordOf_kMono (f : Fin 64 → Fin 64 → Instr)
    (h : ∀ w lit, field w 25 6 = 1 → field w 0 6 = fn → decodeFields w lit =
      reserved (field w 24 1 = 0 && field w 6 6 = 0) (f (Fin.ofNat 64 (field w 18 6)) (Fin.ofNat 64 (field w 12 6)))
      := by intro w lit hm hf; unfold decodeFields decodeKReg; rw [hm, hf]; rfl)
    (hfn : fn < 64 := by decide) : WordOf (f d a) (encKReg fn d a (.reg 0)) none := by
  refine wordOf_intro (by simp only [encKReg]; omega) fun x hx => ?_
  obtain ⟨hm, hl, hd, ha, hb, he⟩ := kReg_fields d a (l := 0) (kb := 0) (by decide) (by decide) hfn
    (hx.trans (by simp only [encKReg]; omega))
  exact ⟨by simp [h _ _ hm he, hl, hd, ha, hb, reserved], by simp [takesLiteral, hm, hl]⟩
/-- A uniform word of the immediate layout (R57). -/
theorem wordOf_kImm (f : Fin 64 → BitVec 12 → Instr) {i : BitVec 12}
    (h : ∀ w lit, field w 25 6 = 2 → field w 12 6 = fn → decodeFields w lit =
      reserved (field w 24 1 = 0) (f (Fin.ofNat 64 (field w 18 6)) (BitVec.ofNat 12 w))
      := by intro w lit hm hf; unfold decodeFields decodeKImm; rw [hm, hf]; rfl)
    (hfn : fn < 64 := by decide) : WordOf (f d i) (encKImm fn d i) none := by
  have hi := i.isLt
  unfold encKImm
  refine wordOf_intro (by omega) fun x hx => ?_
  have hF : field x 25 6 = 2 ∧ field x 24 1 = 0 ∧ field x 18 6 = d ∧ field x 12 6 = fn ∧ x % 2 ^ 12 = i.toNat := by
    unfold field; omega
  obtain ⟨hm, hl, hd, hf, hi⟩ := hF
  exact ⟨by simp [h _ _ hm hf, hl, hd, ofNat_of_mod hi, reserved], by simp [takesLiteral, hm]⟩
end

end Sys2Proof
end

section
/-! PROOFS. Reading back the words of majors 0x00 and 0x03 (R58, R61, R66, R88). -/

namespace Sys2Proof

/-! ## Control words -/

/-- What a misc control word holds beside its operand (R88). -/
theorem misc_fields {x sub low : Nat} (hs : sub < 32) (hlow : low < 2 ^ 18) (hx : x % 2 ^ 31 = encMisc sub low) :
    field x 25 6 = 0 ∧ field x 23 2 = 0 ∧ field x 18 5 = sub ∧ x % 2 ^ 18 = low := by
  unfold encMisc at hx
  unfold field
  omega
theorem takesLiteral_misc {w sub : Nat} (hm : field w 25 6 = 0) (h23 : field w 23 2 = 0) (hs : field w 18 5 = sub) :
    takesLiteral w = (decide (sub = 14) || ((decide (sub = 4) || decide (sub = 8) || decide (sub = 9)) &&
      decide (field w 12 6 = 61))) := by
  simp [takesLiteral, hm, h23, hs]
theorem takesLiteral_branch {w : Nat} (hm : field w 25 6 = 0) (h23 : field w 23 2 ≠ 0) : takesLiteral w = false := by
  simp [takesLiteral, hm, h23]

section
variable {sub : Nat}

/-- A misc control word whose low bits are low and that takes no literal. -/
theorem wordOf_misc {i : Instr} {low : Nat} (hs : sub < 32) (hlow : low < 2 ^ 18) (hn : sub ∉ [4, 8, 9, 14])
    (h : ∀ w lit, field w 25 6 = 0 → field w 23 2 = 0 → field w 18 5 = sub → w % 2 ^ 18 = low → decodeFields w lit = .ok i) :
    WordOf i (encMisc sub low) none := by
  refine wordOf_intro (by unfold encMisc; omega) fun x hx => ?_
  obtain ⟨hm, h23, hsub, hl⟩ := misc_fields hs hlow hx
  simp only [List.mem_cons, List.not_mem_nil, or_false, not_or] at hn
  exact ⟨h _ _ hm h23 hsub hl, by simp [takesLiteral_misc hm h23 hsub, hn]⟩
/-- A control word without operands. -/
theorem wordOf_noOperand (i : Instr)
    (h : ∀ w lit, field w 25 6 = 0 → field w 23 2 = 0 → field w 18 5 = sub → decodeFields w lit = reserved (w % 2 ^ 18 = 0) i
      := by intro w lit hm h23 hs; unfold decodeFields decodeControl; rw [hm, h23, hs]; rfl)
    (hs : sub < 32 := by decide) (hn : sub ∉ [4, 8, 9, 14] := by decide) : WordOf i (encMisc sub 0) none :=
  wordOf_misc hs (by decide) hn fun w lit hm h23 hsub hl => by
    rw [h _ _ hm h23 hsub, hl]
    rfl
/-- BRX and CALLX. -/
theorem wordOf_registerTarget (f : Fin 64 → Instr) {a : Fin 64}
    (h : ∀ w lit, field w 25 6 = 0 → field w 23 2 = 0 → field w 18 5 = sub → decodeFields w lit =
      reserved (w % 2 ^ 18 % 4096 = 0) (f (Fin.ofNat 64 (field w 12 6)))
      := by intro w lit hm h23 hs; unfold decodeFields decodeControl; rw [hm, h23, hs]; rfl)
    (hs : sub < 32 := by decide) (hn : sub ∉ [4, 8, 9, 14] := by decide) : WordOf (f a) (encMisc sub (a.val * 2 ^ 12)) none := by
  refine wordOf_misc hs (by omega) hn fun w lit hm h23 hsub hl => ?_
  have ha : field w 12 6 = a := by unfold field; omega
  have h0 : w % 2 ^ 18 % 4096 = 0 := by omega
  rw [h _ _ hm h23 hsub, ha, h0]
  simp [reserved]
/-- TRAP and BKPT. -/
theorem wordOf_trapCode (f : BitVec 8 → Instr) {n : BitVec 8}
    (h : ∀ w lit, field w 25 6 = 0 → field w 23 2 = 0 → field w 18 5 = sub → decodeFields w lit =
      reserved (w % 2 ^ 18 / 256 = 0) (f (BitVec.ofNat 8 w))
      := by intro w lit hm h23 hs; unfold decodeFields decodeControl; rw [hm, h23, hs]; rfl)
    (hs : sub < 32 := by decide) (hn : sub ∉ [4, 8, 9, 14] := by decide) : WordOf (f n) (encMisc sub n.toNat) none := by
  have hlt := n.isLt
  refine wordOf_misc hs (by omega) hn fun w lit hm h23 hsub hl => ?_
  have h0 : w % 2 ^ 18 / 256 = 0 := by omega
  rw [h _ _ hm h23 hsub, ofNat_of_mod (x := n) (by omega), h0]
  simp [reserved]
theorem wordOf_sleepImm (n : BitVec 16) : WordOf (.sleepImm n) (encMisc 15 n.toNat) none := by
  have hlt := n.isLt
  refine wordOf_misc (by decide) (by omega) (by decide) fun w lit hm h23 hsub hl => ?_
  have hn : w % 2 ^ 16 = n.toNat := by omega
  have hF : field w 17 1 = 0 ∧ field w 16 1 = 0 := by unfold field; omega
  simp [decodeFields, decodeControl, hm, h23, hsub, hF, ofNat_of_mod hn, reserved]
theorem wordOf_sleepK (a : Fin 64) : WordOf (.sleepK a) (encMisc 15 (2 ^ 17 + a.val * 2 ^ 10)) none := by
  refine wordOf_misc (by decide) (by omega) (by decide) fun w lit hm h23 hsub hl => ?_
  have hF : field w 17 1 = 1 ∧ field w 16 1 = 0 ∧ field w 0 10 = 0 ∧ field w 10 6 = a := by unfold field; omega
  simp [decodeFields, decodeControl, hm, h23, hsub, hF, reserved]
theorem wordOf_sigchk (y : Word) : WordOf (.sigchk y) (encMisc 14 0) (some y) := by
  refine wordOf_intro (by decide) fun x hx => ?_
  obtain ⟨hm, h23, hsub, hl⟩ := misc_fields (by decide) (by decide) hx
  have hread : decodeFields x y.toNat = reserved (x % 2 ^ 18 = 0) (.sigchk (BitVec.ofNat 32 y.toNat)) := by
    unfold decodeFields decodeControl
    rw [hm, h23, hsub]
    rfl
  refine ⟨hread.trans ?_, by simp [takesLiteral_misc hm h23 hsub]⟩
  rw [hl, BitVec.ofNat_toNat, BitVec.setWidth_eq]
  rfl
theorem wordOf_ifL (o : Opnd) : WordOf (.ifL o) (encMisc 4 (o.toField * 2 ^ 12)) o.lit? := by
  have ho := o.toField_lt
  refine wordOf_intro (by unfold encMisc; omega) fun x hx => ?_
  obtain ⟨hm, h23, hsub, hl⟩ := misc_fields (by decide) (by omega) hx
  have hF : field x 12 6 = o.toField ∧ x % 2 ^ 18 % 4096 = 0 := by unfold field; omega
  obtain ⟨ho, h0⟩ := hF
  constructor
  · have hread (lit : Nat) : decodeFields x lit = reserved (x % 2 ^ 18 % 4096 = 0) (.ifL (Opnd.ofField (field x 12 6) lit)) := by
      unfold decodeFields decodeControl
      rw [hm, h23, hsub]
      rfl
    rw [hread, ho, Opnd.ofField_toField o.reads_lit, h0]
    rfl
  · simp [takesLiteral_misc hm h23 hsub, ho, ← o.toField_eq_literal]
/-- BREAK and CONT. -/
theorem wordOf_leaveLoop (f : Opnd → BitVec 8 → Instr) {o : Opnd} {n : BitVec 8}
    (h : ∀ w lit, field w 25 6 = 0 → field w 23 2 = 0 → field w 18 5 = sub → decodeFields w lit =
      reserved (w % 2 ^ 18 % 16 = 0) (f (Opnd.ofField (field w 12 6) lit) (BitVec.ofNat 8 (field w 4 8)))
      := by intro w lit hm h23 hs; unfold decodeFields decodeControl; rw [hm, h23, hs]; rfl)
    (hs : sub = 8 ∨ sub = 9 := by decide) : WordOf (f o n) (encMisc sub (o.toField * 2 ^ 12 + n.toNat * 2 ^ 4)) o.lit? := by
  have ho := o.toField_lt
  have hn := n.isLt
  refine wordOf_intro (by unfold encMisc; omega) fun x hx => ?_
  obtain ⟨hm, h23, hsub, hl⟩ := misc_fields (by omega) (by omega) hx
  have hF : field x 12 6 = o.toField ∧ x % 2 ^ 18 % 16 = 0 ∧ field x 4 8 = n.toNat := by unfold field; omega
  obtain ⟨ho, h0, hd⟩ := hF
  constructor
  · rw [h _ _ hm h23 hsub, ho, Opnd.ofField_toField o.reads_lit, h0, hd]
    simp [reserved]
  · rcases hs with rfl | rfl <;> simp [takesLiteral_misc hm h23 hsub, ho, ← o.toField_eq_literal]
/-- BRA and CALL. -/
theorem wordOf_branch (f : BitVec 23 → Instr) {o : BitVec 23}
    (h : ∀ w lit, field w 25 6 = 0 → field w 23 2 = sub → decodeFields w lit = .ok (f (BitVec.ofNat 23 w))
      := by intro w lit hm h23; unfold decodeFields decodeControl; rw [hm, h23]; rfl)
    (hs : sub = 1 ∨ sub = 2 := by decide) : WordOf (f o) (sub * 2 ^ 23 + o.toNat) none := by
  have ho := o.isLt
  refine wordOf_intro (by omega) fun x hx => ?_
  have hF : field x 25 6 = 0 ∧ field x 23 2 = sub ∧ x % 2 ^ 23 = o.toNat := by unfold field; omega
  obtain ⟨hm, h23, ho⟩ := hF
  exact ⟨by rw [h _ _ hm h23, ofNat_of_mod ho], takesLiteral_branch hm (by omega)⟩
/-- BRZ and BRNZ. -/
theorem wordOf_registerBranch (f : Fin 64 → BitVec 14 → Instr) {a : Fin 64} {o : BitVec 14}
    (h : ∀ w lit, field w 25 6 = 0 → field w 23 2 = 3 → field w 20 3 = sub → decodeFields w lit =
      .ok (f (Fin.ofNat 64 (field w 14 6)) (BitVec.ofNat 14 w))
      := by intro w lit hm h23 hs; unfold decodeFields decodeControl; rw [hm, h23, hs]; rfl)
    (hs : sub < 8 := by decide) : WordOf (f a o) (3 * 2 ^ 23 + sub * 2 ^ 20 + a.val * 2 ^ 14 + o.toNat) none := by
  have ho := o.isLt
  refine wordOf_intro (by omega) fun x hx => ?_
  have hF : field x 25 6 = 0 ∧ field x 23 2 = 3 ∧ field x 20 3 = sub ∧ field x 14 6 = a ∧ x % 2 ^ 14 = o.toNat := by
    unfold field; omega
  obtain ⟨hm, h23, hsub, ha, ho⟩ := hF
  exact ⟨by simp [h _ _ hm h23 hsub, ha, ofNat_of_mod ho], takesLiteral_branch hm (by omega)⟩
/-- BRANY, BRNONE and ENDLOOP. -/
theorem wordOf_laneBranch (f : BitVec 20 → Instr) {o : BitVec 20}
    (h : ∀ w lit, field w 25 6 = 0 → field w 23 2 = 3 → field w 20 3 = sub → decodeFields w lit = .ok (f (BitVec.ofNat 20 w))
      := by intro w lit hm h23 hs; unfold decodeFields decodeControl; rw [hm, h23, hs]; rfl)
    (hs : sub < 8 := by decide) : WordOf (f o) (3 * 2 ^ 23 + sub * 2 ^ 20 + o.toNat) none := by
  have ho := o.isLt
  refine wordOf_intro (by omega) fun x hx => ?_
  have hF : field x 25 6 = 0 ∧ field x 23 2 = 3 ∧ field x 20 3 = sub ∧ x % 2 ^ 20 = o.toNat := by
    unfold field; omega
  obtain ⟨hm, h23, hsub, ho⟩ := hF
  exact ⟨by rw [h _ _ hm h23 hsub, ofNat_of_mod ho], takesLiteral_branch hm (by omega)⟩
end

/-! ## Constants, special registers and the index base -/

/-- A word of major 0x03 (R58); the literal is that of KLI and KLIH. -/
theorem wordOf_kSpecial {i : Instr} {w : Nat} {y : Option Word} (sel : Nat) (k : Fin 64) (l low : Nat) (hs : sel < 8) (hb : l < 2)
    (hlow : low < 2 ^ 15) (hw : w = 3 * 2 ^ 25 + sel * 2 ^ 22 + k.val * 2 ^ 16 + l * 2 ^ 15 + low)
    (hy : ((sel = 0 && l = 1) || sel = 1) = y.isSome)
    (h : ∀ x, field x 25 6 = 3 → field x 22 3 = sel → field x 16 6 = k → field x 15 1 = l → x % 2 ^ 15 = low →
      decodeFields x (literalNum y) = .ok i) : WordOf i w y := by
  refine wordOf_intro (by omega) fun x hx => ?_
  have hF : field x 25 6 = 3 ∧ field x 22 3 = sel ∧ field x 16 6 = k ∧ field x 15 1 = l ∧ x % 2 ^ 15 = low := by
    unfold field; omega
  obtain ⟨hm, hsel, hk, hl, hlow⟩ := hF
  refine ⟨h _ hm hsel hk hl hlow, ?_⟩
  simp [takesLiteral, hm, hsel, hl, ← hy]

theorem wordOf_kli (d : Fin 64) (i : BitVec 15) : WordOf (.kli d i) (0x06000000 + d.val * 2 ^ 16 + i.toNat) none :=
  wordOf_kSpecial 0 d 0 i.toNat (by decide) (by decide) i.isLt (by omega) rfl fun w hm hsel hk hl hlow => by
    simp [decodeFields, decodeKSpecial, hm, hsel, hk, hl, ofNat_of_mod hlow]
theorem wordOf_kliLiteral (d : Fin 64) (y : Word) : WordOf (.kliLiteral d y) (0x06008000 + d.val * 2 ^ 16) (some y) :=
  wordOf_kSpecial 0 d 1 0 (by decide) (by decide) (by decide) (by omega) rfl fun w hm hsel hk hl hlow => by
    have h0 : field w 0 15 = 0 := by unfold field; omega
    simp [decodeFields, decodeKSpecial, hm, hsel, hk, hl, h0, reserved]
theorem wordOf_klih (d : Fin 64) (y : Word) : WordOf (.klih d y) (0x06408000 + d.val * 2 ^ 16) (some y) :=
  wordOf_kSpecial 1 d 1 0 (by decide) (by decide) (by decide) (by omega) rfl fun w hm hsel hk hl hlow => by
    have h0 : field w 0 15 = 0 := by unfold field; omega
    simp [decodeFields, decodeKSpecial, hm, hsel, hk, hl, h0, reserved]
theorem sreg_fields {w : Nat} {r : SReg} (h : w % 2 ^ 15 = r.code) : field w 0 8 = r.code ∧ field w 8 7 = 0 := by
  have := r.code_lt
  unfold field
  omega
theorem wordOf_kget (d : Fin 64) (r : SReg) : WordOf (.kget d r) (0x06800000 + d.val * 2 ^ 16 + r.code) none :=
  wordOf_kSpecial 2 d 0 r.code (by decide) (by decide) (r.code_lt.trans (by decide)) (by omega) rfl fun w hm hsel hk hl hlow => by
    simp [decodeFields, decodeKSpecial, hm, hsel, hk, hl, sreg_fields hlow, operand, reserved]
theorem wordOf_kset (r : SReg) (a : Fin 64) : WordOf (.kset r a) (0x06C00000 + a.val * 2 ^ 16 + r.code) none :=
  wordOf_kSpecial 3 a 0 r.code (by decide) (by decide) (r.code_lt.trans (by decide)) (by omega) rfl fun w hm hsel hk hl hlow => by
    simp [decodeFields, decodeKSpecial, hm, hsel, hk, hl, sreg_fields hlow, operand, reserved]
theorem wordOf_setix (n : BitVec 8) : WordOf (.setix n) (0x07000000 + n.toNat) none :=
  wordOf_kSpecial 4 0 0 n.toNat (by decide) (by decide) (n.isLt.trans (by decide)) (by omega) rfl fun w hm hsel hk hl hlow => by
    have hn := n.isLt
    have hlow8 : w % 2 ^ 8 = n.toNat := by omega
    have hF : field w 14 1 = 0 ∧ field w 8 6 = 0 := by unfold field; omega
    simp [decodeFields, decodeKSpecial, hm, hsel, hk, hl, ofNat_of_mod hlow8, hF, reserved]
theorem wordOf_setixK (a : Fin 64) : WordOf (.setixK a) (0x07004000 + a.val * 2 ^ 16) none :=
  wordOf_kSpecial 4 a 0 (2 ^ 14) (by decide) (by decide) (by decide) (by omega) rfl fun w hm hsel hk hl hlow => by
    have hF : field w 14 1 = 1 ∧ field w 0 14 = 0 := by unfold field; omega
    simp [decodeFields, decodeKSpecial, hm, hsel, hk, hl, hF, reserved]

end Sys2Proof
end

section
/-! PROOFS. Reading back the words of majors 0x10 to 0x18 (R59, R62, R63, R70, R188, R191, R221). -/

namespace Sys2Proof

/-! ## Lane loads and stores -/

/-- The fields of a format M word (R188); store is bit 12, and the window's fields are also a gang member's. -/
structure MFields (w major store sz data win : Nat) (off : Opnd) (imm : BitVec 6) : Prop where
  major_eq : field w 25 6 = major
  store_eq : field w 12 1 = store
  sz_eq : field w 22 3 = sz
  data_eq : field w 16 6 = data
  win_eq : field w 13 3 = win
  gang_eq : field w 15 1 = win / 4
  off_eq : field w 6 6 = off.toField
  imm_eq : BitVec.ofNat 6 w = imm

/-- A format M word: the offset may name the literal, and so may the data of a store. -/
theorem wordOf_formatM {i : Instr} {major store sz data win : Nat} {off : Opnd} {imm : BitVec 6} {y : Option Word}
    (hm : major = 16 ∨ major = 18 ∨ major = 20 ∧ store = 0) (hst : store < 2) (hsz : sz < 7) (hd : data < 64) (hw : win < 8)
    (hy : y.isSome = (decide (off.toField = 61) || (decide (store = 1) && decide (data = 61))))
    (h : ∀ w, MFields w major store sz data win off imm → decodeM w (literalNum y) = .ok i) :
    WordOf i (encM (major * 2 ^ 25 + store * 2 ^ 12) sz data win off imm) y := by
  have ho := off.toField_lt
  have hi := imm.isLt
  unfold encM
  refine wordOf_intro (by omega) fun x hx => ?_
  have hF : MFields x major store sz data win off imm := by
    constructor
    case imm_eq => exact ofNat_of_mod (by omega)
    all_goals unfold field; omega
  constructor
  · rw [← h x hF]
    unfold decodeFields
    rw [hF.major_eq]
    rcases hm with rfl | rfl | ⟨rfl, -⟩ <;> rfl
  · rcases hm with rfl | rfl | ⟨rfl, rfl⟩ <;> simp [takesLiteral, hF.major_eq, hF.store_eq, hF.data_eq, hF.off_eq, hy]

section
variable (z : LdSize) (d : Dst) (win : Fin 8) (o : Opnd) (i : BitVec 6)

theorem wordOf_ld : WordOf (.ld z d win o i) (encM 0x20000000 z.code d.toField win.val o i) o.lit? :=
  wordOf_formatM (major := 16) (store := 0) (.inl rfl) (by decide) z.code_lt (d.toField_lt.trans (by decide)) win.isLt
    (by simp [← o.toField_eq_literal]) fun w hF => by
      have hz := z.code_lt.ne
      simp [decodeM, hF.major_eq, hF.store_eq, hF.sz_eq, hF.data_eq, hF.win_eq, hF.off_eq, hF.imm_eq,
        Opnd.ofField_toField o.reads_lit, operand, hz]
theorem wordOf_ldp : WordOf (.ldp z d win o i) (encM 0x28000000 z.code d.toField win.val o i) o.lit? :=
  wordOf_formatM (major := 20) (store := 0) (.inr (.inr ⟨rfl, rfl⟩)) (by decide) z.code_lt (d.toField_lt.trans (by decide)) win.isLt
    (by simp [← o.toField_eq_literal]) fun w hF => by
      have hz := z.code_lt.ne
      simp [decodeM, hF.major_eq, hF.store_eq, hF.sz_eq, hF.data_eq, hF.win_eq, hF.off_eq, hF.imm_eq,
        Opnd.ofField_toField o.reads_lit, operand, reserved, hz]
theorem wordOf_lds : WordOf (.lds z d o i) (encM 0x24000000 z.code d.toField 0 o i) o.lit? :=
  wordOf_formatM (major := 18) (store := 0) (.inr (.inl rfl)) (by decide) z.code_lt (d.toField_lt.trans (by decide)) (by decide)
    (by simp [← o.toField_eq_literal]) fun w hF => by
      have hz := z.code_lt.ne
      simp [decodeM, hF.major_eq, hF.store_eq, hF.sz_eq, hF.data_eq, hF.win_eq, hF.gang_eq, hF.off_eq, hF.imm_eq,
        Opnd.ofField_toField o.reads_lit, operand, reserved, hz]
theorem wordOf_ldsGang (m : Fin 4) :
    WordOf (.ldsGang z d m o i) (encM 0x24000000 z.code d.toField (4 + m.val) o i) o.lit? :=
  wordOf_formatM (major := 18) (store := 0) (.inr (.inl rfl)) (by decide) z.code_lt (d.toField_lt.trans (by decide)) (by omega)
    (by simp [← o.toField_eq_literal]) fun w hF => by
      have hz := z.code_lt.ne
      have hg : (4 + m.val) / 4 = 1 := by omega
      have hm : Fin.ofNat 4 (4 + m.val) = m := Fin.ext (by rw [Fin.val_ofNat]; omega)
      simp only [decodeM, hF.major_eq, hF.store_eq, hF.sz_eq, hF.data_eq, hF.win_eq, hF.gang_eq, hF.off_eq, hF.imm_eq, hg, hm,
        Opnd.ofField_toField o.reads_lit, operand, hz]
      simp
end

section
variable {z : StSize} {x : Opnd} {o : Opnd} (h : litsAgree2 x o = true) (win : Fin 8) (i : BitVec 6)
include h

theorem wordOf_st : WordOf (.st z x win o i) (encM 0x20001000 z.code x.toField win.val o i) (litOf2 x o) :=
  wordOf_formatM (major := 16) (store := 1) (.inl rfl) (by decide) z.code_lt x.toField_lt win.isLt
    (by simp [isSome_litOf2, Bool.or_comm]) fun w hF => by
      simp [decodeM, hF.major_eq, hF.store_eq, hF.sz_eq, hF.data_eq, hF.win_eq, hF.off_eq, hF.imm_eq,
        Opnd.ofField_toField (reads_litOf2_left x o), Opnd.ofField_toField (reads_litOf2_right h), operand]
theorem wordOf_sts : WordOf (.sts z x o i) (encM 0x24001000 z.code x.toField 0 o i) (litOf2 x o) :=
  wordOf_formatM (major := 18) (store := 1) (.inr (.inl rfl)) (by decide) z.code_lt x.toField_lt (by decide)
    (by simp [isSome_litOf2, Bool.or_comm]) fun w hF => by
      simp [decodeM, hF.major_eq, hF.store_eq, hF.sz_eq, hF.data_eq, hF.win_eq, hF.off_eq, hF.imm_eq,
        Opnd.ofField_toField (reads_litOf2_left x o), Opnd.ofField_toField (reads_litOf2_right h), operand, reserved]
end

/-! ## Windows and uniform loads (R59) -/

theorem takesLiteral_kMem {w : Nat} (hm : field w 25 6 = 17) : takesLiteral w = false := by
  simp [takesLiteral, hm]
theorem wordOf_xwopen (n : Fin 8) (a b : Fin 64) :
    WordOf (.xwopen n a b) (0x22000000 + n.val * 2 ^ 19 + a.val * 2 ^ 13 + b.val * 2 ^ 7) none := by
  refine wordOf_intro (by omega) fun x hx => ?_
  have hF : field x 25 6 = 17 ∧ field x 22 3 = 0 ∧ field x 19 3 = n ∧ field x 13 6 = a ∧ field x 7 6 = b ∧ field x 0 7 = 0 := by
    unfold field; omega
  obtain ⟨hm, hs, hn, ha, hb, h0⟩ := hF
  exact ⟨by simp [decodeFields, decodeKMem, hm, hs, hn, ha, hb, h0, reserved], takesLiteral_kMem hm⟩
theorem wordOf_xwclose (n : Fin 8) : WordOf (.xwclose n) (0x22400000 + n.val * 2 ^ 19) none := by
  refine wordOf_intro (by omega) fun x hx => ?_
  have hF : field x 25 6 = 17 ∧ field x 22 3 = 1 ∧ field x 19 3 = n ∧ field x 0 19 = 0 := by unfold field; omega
  obtain ⟨hm, hs, hn, h0⟩ := hF
  exact ⟨by simp [decodeFields, decodeKMem, hm, hs, hn, h0, reserved], takesLiteral_kMem hm⟩
/-- KLDP and KLDG. -/
theorem wordOf_kLoad (f : Fin 64 → Fin 8 → Fin 64 → BitVec 7 → Instr) {d a : Fin 64} {n : Fin 8} {i : BitVec 7} {sel : Nat}
    (h : ∀ w lit, field w 25 6 = 17 → field w 22 3 = sel → decodeFields w lit =
      .ok (f (Fin.ofNat 64 (field w 16 6)) (Fin.ofNat 8 (field w 13 3)) (Fin.ofNat 64 (field w 7 6)) (BitVec.ofNat 7 w))
      := by intro w lit hm hs; unfold decodeFields decodeKMem; rw [hm, hs]; rfl)
    (hs : sel < 8 := by decide) :
    WordOf (f d n a i) (17 * 2 ^ 25 + sel * 2 ^ 22 + d.val * 2 ^ 16 + n.val * 2 ^ 13 + a.val * 2 ^ 7 + i.toNat) none := by
  have hi := i.isLt
  refine wordOf_intro (by omega) fun x hx => ?_
  have hF : field x 25 6 = 17 ∧ field x 22 3 = sel ∧ field x 16 6 = d ∧ field x 13 3 = n ∧ field x 7 6 = a ∧
      x % 2 ^ 7 = i.toNat := by unfold field; omega
  obtain ⟨hm, hs, hd, hn, ha, hi⟩ := hF
  exact ⟨by simp [h _ _ hm hs, hd, hn, ha, ofNat_of_mod hi], takesLiteral_kMem hm⟩

/-! ## Atomics and ordered words -/

/-- The fields of a format A word (R191, R221). -/
structure AFields (w major op : Nat) (sc : Scope) (ord : Order) (win data off : Nat) : Prop where
  major_eq : field w 25 6 = major
  op_eq : field w 21 4 = op
  sc_eq : field w 18 3 = sc.code
  ord_eq : field w 16 2 = ord.code
  win_eq : field w 13 3 = win
  gang_eq : field w 15 1 = win / 4
  member_eq : field w 13 2 = win % 4
  zero_eq : field w 12 1 = 0
  data_eq : field w 6 6 = data
  off_eq : field w 0 6 = off
  plain_eq : field w 16 5 = ord.code + sc.code * 4

/-- A format A word. -/
theorem wordOf_formatA {i : Instr} {major op win data : Nat} {sc : Scope} {ord : Order} {off : Opnd} {y : Option Word}
    (hm : major = 19 ∨ 21 ≤ major ∧ major ≤ 24) (hop : op < 16) (hw : win < 8) (hd : data < 64)
    (hy : y.isSome = (decide (data = 61) || decide (off.toField = 61)))
    (h : ∀ w, AFields w major op sc ord win data off.toField → decodeA w (literalNum y) = .ok i) :
    WordOf i (encA major op sc ord win data off) y := by
  have hsc := sc.code_lt
  have hord := ord.code_lt
  have ho := off.toField_lt
  unfold encA
  refine wordOf_intro (by omega) fun x hx => ?_
  have hF : AFields x major op sc ord win data off.toField := by constructor <;> unfold field <;> omega
  constructor
  · rw [← h x hF]
    unfold decodeFields
    rw [hF.major_eq]
    simp (disch := omega) only [if_neg, if_pos]
  · unfold takesLiteral
    rw [hF.major_eq, hF.data_eq, hF.off_eq, hy]
    simp (disch := omega) only [if_neg, if_pos]

section
variable {major op : Nat} {sc : Scope} {ord : Order} {win : Fin 8} {off : Opnd} {i : Instr}

/-- A format A word whose data is a lane register. -/
theorem wordOf_formatA_register (f : Scope → Order → Fin 8 → Fin 48 → Opnd → Decoded) {r : Fin 48} (hi : f sc ord win r off = .ok i)
    (h : ∀ w lit, field w 25 6 = major → field w 21 4 = op → decodeA w lit =
      if field w 12 1 ≠ 0 then .error .reservedField
      else operand (Scope.ofCode? (field w 18 3)) fun sc => operand (reg? (field w 6 6)) fun r =>
        f sc (Order.ofCode (field w 16 2)) (Fin.ofNat 8 (field w 13 3)) r (Opnd.ofField (field w 0 6) lit)
      := by intro w lit hm ho; unfold decodeA; rw [hm, ho]; rfl)
    (hm : major = 19 ∨ 21 ≤ major ∧ major ≤ 24 := by decide) (hop : op < 16 := by decide) :
    WordOf i (encA major op sc ord win.val r.val off) off.lit? := by
  have hr : r.val ≠ 61 := by omega
  refine wordOf_formatA hm hop win.isLt (by omega) (by simp [hr, ← off.toField_eq_literal]) fun w hF => ?_
  rw [h _ _ hF.major_eq hF.op_eq, hF.zero_eq, hF.sc_eq, hF.ord_eq, hF.win_eq, hF.data_eq, hF.off_eq,
    Opnd.ofField_toField off.reads_lit]
  simp [operand, hi]
/-- A format A word whose data is a source operand. -/
theorem wordOf_formatA_operand (f : Scope → Order → Fin 8 → Opnd → Opnd → Decoded) {x : Opnd} (hl : litsAgree2 x off = true)
    (hi : f sc ord win x off = .ok i)
    (h : ∀ w lit, field w 25 6 = major → field w 21 4 = op → decodeA w lit =
      if field w 12 1 ≠ 0 then .error .reservedField
      else operand (Scope.ofCode? (field w 18 3)) fun sc =>
        f sc (Order.ofCode (field w 16 2)) (Fin.ofNat 8 (field w 13 3)) (Opnd.ofField (field w 6 6) lit)
          (Opnd.ofField (field w 0 6) lit)
      := by intro w lit hm ho; unfold decodeA; rw [hm, ho]; rfl)
    (hm : major = 19 ∨ 21 ≤ major ∧ major ≤ 24 := by decide) (hop : op < 16 := by decide) :
    WordOf i (encA major op sc ord win.val x.toField off) (litOf2 x off) := by
  refine wordOf_formatA hm hop win.isLt x.toField_lt (isSome_litOf2 x off) fun w hF => ?_
  rw [h _ _ hF.major_eq hF.op_eq, hF.zero_eq, hF.sc_eq, hF.ord_eq, hF.win_eq, hF.data_eq, hF.off_eq,
    Opnd.ofField_toField (reads_litOf2_left x off), Opnd.ofField_toField (reads_litOf2_right hl)]
  simp [operand, hi]
/-- A range word: neither scope nor order, and a source operand as data. -/
theorem wordOf_range (f : Fin 8 → Opnd → Opnd → Instr) {x : Opnd} (hl : litsAgree2 x off = true)
    (h : ∀ w lit, field w 25 6 = 24 → field w 21 4 = op → decodeA w lit =
      reserved (field w 12 1 = 0 && field w 16 5 = 0 && true) (f (Fin.ofNat 8 (field w 13 3)) (Opnd.ofField (field w 6 6) lit)
        (Opnd.ofField (field w 0 6) lit))
      := by intro w lit hm ho; unfold decodeA; rw [hm, ho]; rfl)
    (hop : op < 16 := by decide) :
    WordOf (f win x off) (encA 24 op .grp .rlx win.val x.toField off) (litOf2 x off) := by
  refine wordOf_formatA (by decide) hop win.isLt x.toField_lt (isSome_litOf2 x off) fun w hF => ?_
  rw [h _ _ hF.major_eq hF.op_eq, hF.zero_eq, hF.plain_eq, hF.win_eq, hF.data_eq, hF.off_eq,
    Opnd.ofField_toField (reads_litOf2_left x off), Opnd.ofField_toField (reads_litOf2_right hl)]
  simp [reserved, Order.code, Scope.code]
/-- PREF, which has no data. -/
theorem wordOf_pref (l2 : Bool) : WordOf (.pref l2 win off) (encA 24 (6 + boolBit l2) .grp .rlx win.val 0 off) off.lit? := by
  refine wordOf_formatA (by decide) (by have := Machine.boolBit_le l2; omega) win.isLt (by decide)
    (by simp [← off.toField_eq_literal]) fun w hF => ?_
  have hop := hF.op_eq
  cases l2 <;> simp [decodeA, hF.major_eq, hop, boolBit, hF.zero_eq, hF.plain_eq, hF.win_eq, hF.data_eq, hF.off_eq,
    Opnd.ofField_toField off.reads_lit, reserved, Order.code, Scope.code]
/-- ATOMS names a member of its gang where it has the gang's scope. -/
theorem wordOf_atoms {o : AtomOp} {g : Option (Fin 4)} {x : Opnd} (hl : litsAgree2 x off = true) :
    WordOf (.atoms o sc ord g x off) (encA 19 o.code sc ord (match g with | some m => 4 + m.val | none => 0) x.toField off)
      (litOf2 x off) := by
  refine wordOf_formatA (by decide) o.code_lt (by cases g <;> dsimp only <;> omega) x.toField_lt (isSome_litOf2 x off) fun w hF => ?_
  have hx := Opnd.ofField_toField (reads_litOf2_left x off)
  have ho := Opnd.ofField_toField (reads_litOf2_right hl)
  have hgang := hF.gang_eq
  have hmember := hF.member_eq
  cases g with
  | none =>
    simp [decodeA, hF.major_eq, hF.op_eq, hF.zero_eq, hF.sc_eq, hF.ord_eq, hF.data_eq, hF.off_eq, hgang, hmember, hx, ho, operand,
      reserved]
  | some m =>
    have h1 : (4 + m.val) / 4 = 1 := by omega
    have h2 : (4 + m.val) % 4 = m.val := by omega
    dsimp only at hgang hmember
    simp [decodeA, hF.major_eq, hF.op_eq, hF.zero_eq, hF.sc_eq, hF.ord_eq, hF.data_eq, hF.off_eq, hgang, hmember, h1, h2, hx, ho,
      operand]
/-- FENCE, which has neither data nor offset: both fields are 0, as if they named lane register 0. -/
theorem wordOf_fence : WordOf (.fence sc ord) (0x30000000 + sc.code * 2 ^ 18 + ord.code * 2 ^ 16) none := by
  rw [show 0x30000000 + sc.code * 2 ^ 18 + ord.code * 2 ^ 16 = encA 24 0 sc ord 0 0 (.v 0) by simp [encA, Opnd.toField]]
  refine wordOf_formatA (by decide) (by decide) (by decide) (by decide) rfl fun w hF => ?_
  simp [decodeA, hF.major_eq, hF.op_eq, hF.zero_eq, hF.sc_eq, hF.ord_eq, hF.win_eq, hF.data_eq, hF.off_eq, operand, reserved,
    show (Opnd.v 0).toField = 0 from rfl]
/-- PROMOTE, which acquires and has no offset. -/
theorem wordOf_promote {x : Opnd} : WordOf (.promote sc x) (0x30210000 + sc.code * 2 ^ 18 + x.toField * 2 ^ 6) x.lit? := by
  rw [show 0x30210000 + sc.code * 2 ^ 18 + x.toField * 2 ^ 6 = encA 24 1 sc .acq 0 x.toField (.v 0) by
    simp only [encA, Opnd.toField, Order.code]
    omega]
  refine wordOf_formatA (by decide) (by decide) (by decide) x.toField_lt
    (by simp [← x.toField_eq_literal, Opnd.toField]) fun w hF => ?_
  simp [decodeA, hF.major_eq, hF.op_eq, hF.zero_eq, hF.sc_eq, hF.ord_eq, hF.win_eq, hF.data_eq, hF.off_eq, operand, reserved,
    show (Opnd.v 0).toField = 0 from rfl, Opnd.ofField_toField x.reads_lit]
end

end Sys2Proof
end

section
/-! PROOFS. Reading back the words of majors 0x19 to 0x1B (R60, R64, R201, R243, R262, R269, R275, R280). -/

namespace Sys2Proof

/-! ## Batches and phasers -/

section
variable {sub rest : Nat} {i : Instr}

/-- A word of major 0x1A. -/
theorem wordOf_sync (hs : sub < 32) (hr : rest < 2 ^ 20)
    (h : ∀ w, field w 20 5 = sub → w % 2 ^ 20 = rest → decodeSync w = .ok i) : WordOf i (encS sub rest) none := by
  unfold encS
  refine wordOf_intro (by omega) fun x hx => ?_
  have hF : field x 25 6 = 26 ∧ field x 20 5 = sub ∧ x % 2 ^ 20 = rest := by unfold field; omega
  obtain ⟨hm, hsub, hrest⟩ := hF
  refine ⟨?_, by simp [takesLiteral, hm]⟩
  rw [← h x hsub hrest]
  unfold decodeFields
  rw [hm]
  rfl
end

theorem wordOf_close (c : EngineClass) : WordOf (.close c) (encS 0 c.code) none := by
  have hc := c.code_lt
  refine wordOf_sync (by decide) (by omega) fun w hs hr => ?_
  have hF : field w 0 3 = c.code ∧ field w 3 17 = 0 := by unfold field; omega
  simp [decodeSync, hs, hF, operand, reserved]
theorem wordOf_waitb (c : EngineClass) (n : BitVec 8) : WordOf (.waitb c n) (encS 1 (n.toNat * 8 + c.code)) none := by
  have hc := c.code_lt
  have hn := n.isLt
  refine wordOf_sync (by decide) (by omega) fun w hs hr => ?_
  have hF : field w 0 3 = c.code ∧ field w 3 8 = n.toNat ∧ field w 11 1 = 0 ∧ field w 12 8 = 0 := by unfold field; omega
  simp [decodeSync, hs, hF, operand, reserved]
theorem wordOf_waitbK (c : EngineClass) (a : Fin 64) :
    WordOf (.waitbK c a) (encS 1 (a.val * 2 ^ 14 + 2 ^ 11 + c.code)) none := by
  have hc := c.code_lt
  refine wordOf_sync (by decide) (by omega) fun w hs hr => ?_
  have hF : field w 0 3 = c.code ∧ field w 3 8 = 0 ∧ field w 11 1 = 1 ∧ field w 12 2 = 0 ∧ field w 14 6 = a := by
    unfold field; omega
  simp [decodeSync, hs, hF, operand, reserved]
theorem wordOf_waitc (c : EngineClass) (n : BitVec 8) : WordOf (.waitc c n) (encS 2 (n.toNat * 8 + c.code)) none := by
  have hc := c.code_lt
  have hn := n.isLt
  refine wordOf_sync (by decide) (by omega) fun w hs hr => ?_
  have hF : field w 0 3 = c.code ∧ field w 3 8 = n.toNat ∧ field w 11 9 = 0 := by unfold field; omega
  simp [decodeSync, hs, hF, operand, reserved]

/-- The fields of a phaser word: KA or KD, KB, the handle and the low bits (R60). -/
theorem phaser_fields {w low : Nat} {a b : Fin 64} {h : Fin 16} (hl : low < 16)
    (hw : w % 2 ^ 20 = a.val * 2 ^ 14 + b.val * 2 ^ 8 + h.val * 16 + low) :
    field w 14 6 = a ∧ field w 8 6 = b ∧ field w 4 4 = h ∧ field w 0 4 = low ∧ field w 0 2 = low % 4 ∧ field w 2 2 = low / 4 ∧
      field w 0 1 = low % 2 ∧ field w 1 3 = low / 2 ∧ field w 8 12 = a.val * 2 ^ 6 + b.val := by
  unfold field
  omega

section
variable (a b : Fin 64) (h : Fin 16)

theorem wordOf_phnew : WordOf (.phnew a h) (encS 3 (a.val * 2 ^ 14 + h.val * 16)) none :=
  wordOf_sync (by decide) (by omega) fun w hs hr => by
    simp [decodeSync, hs, phaser_fields (a := a) (b := 0) (h := h) (low := 0) (by decide) (by simpa using hr), reserved]
theorem wordOf_phfree : WordOf (.phfree h) (encS 4 (h.val * 16)) none :=
  wordOf_sync (by decide) (by omega) fun w hs hr => by
    simp [decodeSync, hs, phaser_fields (a := 0) (b := 0) (h := h) (low := 0) (by decide) (by simpa using hr), reserved]
theorem wordOf_phjoin (m : JoinMode) :
    WordOf (.phjoin a b h m) (encS 5 (a.val * 2 ^ 14 + b.val * 2 ^ 8 + h.val * 16 + m.code)) none := by
  have hm := m.code_lt
  refine wordOf_sync (by decide) (by omega) fun w hs hr => ?_
  have h2 : m.code % 4 = m.code := Nat.mod_eq_of_lt hm
  have h4 : m.code / 4 = 0 := Nat.div_eq_of_lt hm
  simp [decodeSync, hs, phaser_fields (by omega) hr, h2, h4, operand, reserved]
theorem wordOf_phleave : WordOf (.phleave h) (encS 6 (h.val * 16)) none :=
  wordOf_sync (by decide) (by omega) fun w hs hr => by
    simp [decodeSync, hs, phaser_fields (a := 0) (b := 0) (h := h) (low := 0) (by decide) (by simpa using hr), reserved]
theorem wordOf_phsig (v : Bool) : WordOf (.phsig h v) (encS 7 (h.val * 16 + boolBit v)) none := by
  have hv := Machine.boolBit_le v
  refine wordOf_sync (by decide) (by omega) fun w hs hr => ?_
  have hF := phaser_fields (a := 0) (b := 0) (h := h) (low := boolBit v) (by omega) (by simpa using hr)
  cases v <;> simp [decodeSync, hs, hF, boolBit, reserved]
theorem wordOf_phwait : WordOf (.phwait a h) (encS 8 (a.val * 2 ^ 14 + h.val * 16)) none :=
  wordOf_sync (by decide) (by omega) fun w hs hr => by
    simp [decodeSync, hs, phaser_fields (a := a) (b := 0) (h := h) (low := 0) (by decide) (by simpa using hr), reserved]
theorem wordOf_phsw (v : Bool) : WordOf (.phsw a h v) (encS 9 (a.val * 2 ^ 14 + h.val * 16 + boolBit v)) none := by
  have hv := Machine.boolBit_le v
  refine wordOf_sync (by decide) (by omega) fun w hs hr => ?_
  have hF := phaser_fields (a := a) (b := 0) (h := h) (low := boolBit v) (by omega) (by simpa using hr)
  cases v <;> simp [decodeSync, hs, hF, boolBit, reserved]
theorem wordOf_phrd : WordOf (.phrd a h) (encS 10 (a.val * 2 ^ 14 + h.val * 16)) none :=
  wordOf_sync (by decide) (by omega) fun w hs hr => by
    simp [decodeSync, hs, phaser_fields (a := a) (b := 0) (h := h) (low := 0) (by decide) (by simpa using hr), reserved]
end

theorem wordOf_bar : WordOf .bar (encS 11 0) none :=
  wordOf_sync (by decide) (by decide) fun w hs hr => by
    have h0 : field w 0 20 = 0 := by unfold field; omega
    simp [decodeSync, hs, h0, reserved]
theorem wordOf_emit (r : Fin 48) (n : Fin 64) : WordOf (.emit r n) (encS 12 (r.val * 2 ^ 14 + n.val * 2 ^ 8)) none :=
  wordOf_sync (by decide) (by omega) fun w hs hr => by
    have hF : field w 14 6 = r ∧ field w 8 6 = n ∧ field w 0 8 = 0 := by unfold field; omega
    simp [decodeSync, hs, hF, operand, reserved]

/-! ## Engine commands -/

/-- The fields of a format E word (R64). -/
structure EFields (w major sub opa opb ctl : Nat) : Prop where
  major_eq : field w 25 6 = major
  sub_eq : field w 20 5 = sub
  opa_eq : field w 14 6 = opa
  opb_eq : field w 8 6 = opb
  ctl_eq : w % 256 = ctl
  low_eq : field w 0 14 = opb * 2 ^ 8 + ctl

/-- The control bits of a format E word. -/
theorem EFields.ctl_field {w major sub opa opb ctl k n : Nat} (h : EFields w major sub opa opb ctl) (hk : k + n ≤ 8) :
    field w k n = field ctl k n := by
  rw [← h.ctl_eq, show 256 = 2 ^ 8 from rfl, field_mod hk]
/-- A format E word with its literal word y. -/
theorem wordOf_formatE {i : Instr} {major sub opa opb ctl : Nat} {y : Word} (hm : major = 25 ∨ 27 ≤ major ∧ major ≤ 30) (hs : sub < 32)
    (ha : opa < 64) (hb : opb < 64) (hc : ctl < 256)
    (h : ∀ w, EFields w major sub opa opb ctl → decodeFields w y.toNat = .ok i) : WordOf i (encE major sub opa opb ctl) (some y) := by
  unfold encE
  refine wordOf_intro (by omega) fun x hx => ?_
  have hF : EFields x major sub opa opb ctl := by
    constructor
    case ctl_eq => omega
    all_goals unfold field; omega
  refine ⟨h x hF, ?_⟩
  unfold takesLiteral
  rw [hF.major_eq]
  simp (disch := omega) only [if_neg, if_pos]
  rfl
/-- A literal word holds the number that it is written from. -/
theorem literal_toNat {n : Nat} (h : n < 2 ^ 32) : (BitVec.ofNat 32 n).toNat = n := by
  rw [BitVec.toNat_ofNat, Nat.mod_eq_of_lt h]

/-! ## The copy engine -/

section
variable {sub opa : Nat} {b : EOp} {xw : Fin 8} {t : Option (Fin 16)}

/-- A word of the copy engine (R201). -/
theorem wordOf_copyEngine {i : Instr} {hi lo : BitVec 16} (hs : sub < 32) (ha : opa < 64)
    (h : ∀ w, field w 20 5 = sub → field w 14 6 = opa → field w 8 6 = b.toField → field w 5 3 = xw → tag? (w % 256) = some t →
      ∀ y, BitVec.ofNat 16 (y / 2 ^ 16) = hi → BitVec.ofNat 16 y = lo → decodeCopy w y = .ok i) :
    WordOf i (encE 25 sub opa b.toField (xw.val * 32 + tagField t)) (some (litHalves hi lo)) := by
  have hb := b.toField_lt
  have ht := tagField_lt t
  have hhi := hi.isLt
  have hlo := lo.isLt
  refine wordOf_formatE (.inl rfl) hs ha (by omega) (by omega) fun w hF => ?_
  have hxw : field w 5 3 = xw := by
    rw [hF.ctl_field (by decide)]
    unfold field
    omega
  have hread := h w hF.sub_eq hF.opa_eq hF.opb_eq hxw (by rw [hF.ctl_eq, tag?_tagField]) (litHalves hi lo).toNat
  rw [litHalves, literal_toNat (by omega)] at hread ⊢
  rw [← hread (ofNat_of_mod (by omega)) (ofNat_of_mod (by omega))]
  unfold decodeFields
  rw [hF.major_eq]
  rfl
/-- CPY and CPYS, with two length fields. -/
theorem wordOf_copy (f : EOp → EOp → Fin 8 → Option (Fin 16) → BitVec 16 → BitVec 16 → Instr) {a : EOp} {hi lo : BitVec 16}
    (h : ∀ w lit, field w 20 5 = sub → decodeCopy w lit =
      operand (tag? (w % 256)) fun tag => operand (EOp.ofField? (field w 14 6)) fun a => operand (EOp.ofField? (field w 8 6)) fun b =>
        .ok (f a b (Fin.ofNat 8 (field w 5 3)) tag (BitVec.ofNat 16 (lit / 2 ^ 16)) (BitVec.ofNat 16 lit))
      := by intro w lit hs; unfold decodeCopy; rw [hs]; rfl) (hs : sub < 32 := by decide) :
    WordOf (f a b xw t hi lo) (encE 25 sub a.toField b.toField (xw.val * 32 + tagField t)) (some (litHalves hi lo)) :=
  wordOf_copyEngine hs (a.toField_lt.trans (by decide)) fun w hsub ha hb hxw ht y hhi hlo => by
    rw [h _ _ hsub, ha, hb, hxw, ht, hhi, hlo]
    simp [operand]
theorem wordOf_cpyg {a : Fin 48} {lo : BitVec 16} :
    WordOf (.cpyg a b xw t lo) (encE 25 1 a.val b.toField (xw.val * 32 + tagField t)) (some (litHalves 0 lo)) :=
  wordOf_copyEngine (by decide) (by omega) fun w hsub ha hb hxw ht y hhi hlo => by
    simp only [decodeCopy, hsub, ha, hb, hxw, ht, hhi, hlo]
    simp [operand, reserved]
theorem wordOf_cpyx {a : EOp} {lo : BitVec 16} :
    WordOf (.cpyx a b xw t lo) (encE 25 3 a.toField b.toField (xw.val * 32 + tagField t)) (some (litHalves 0 lo)) :=
  wordOf_copyEngine (by decide) (a.toField_lt.trans (by decide)) fun w hsub ha hb hxw ht y hhi hlo => by
    simp only [decodeCopy, hsub, ha, hb, hxw, ht, hhi, hlo]
    simp [operand, reserved]
end

/-! ## The matrix unit -/

/-- A matrix word: the stream, and the bits below it (R262). -/
theorem wordOf_matrix {i : Instr} {sub opa opb ctl : Nat} {y : Word} (s : Fin 4) (rest : Nat) (hs : sub < 32) (ha : opa < 64)
    (hb : opb < 64) (hr : rest < 64) (hc : ctl = s.val * 64 + rest)
    (h : ∀ w, field w 20 5 = sub → field w 14 6 = opa → field w 8 6 = opb → field w 6 2 = s → w % 64 = rest →
      decodeMatrix w y.toNat = .ok i) : WordOf i (encE 27 sub opa opb ctl) (some y) := by
  refine wordOf_formatE (by decide) hs ha hb (by omega) fun w hF => ?_
  have hctl := hF.ctl_eq
  rw [← h w hF.sub_eq hF.opa_eq hF.opb_eq (by unfold field; omega) (by omega)]
  unfold decodeFields
  rw [hF.major_eq]
  rfl

/-- The quad, the selector and the carve-out offset of a literal (R269, R275). -/
theorem quad_literal (tq : BitVec 8) (boff : BitVec 20) {sel y : Nat} (hs : sel < 4)
    (hy : y = tq.toNat * 2 ^ 24 + sel * 2 ^ 22 + boff.toNat) :
    BitVec.ofNat 8 (y / 2 ^ 24) = tq ∧ BitVec.ofNat 20 y = boff ∧ field y 22 2 = sel ∧ field y 20 2 = 0 ∧
      field y 20 4 = sel * 4 := by
  have ht := tq.isLt
  have hb := boff.isLt
  refine ⟨ofNat_of_mod (by omega), ofNat_of_mod (by omega), ?_, ?_, ?_⟩ <;> unfold field <;> omega
/-- The two tile fields of a literal and the bits below them (R262). -/
theorem tiles_literal (tf n1 : BitVec 10) {rest : Nat} (hr : rest < 2 ^ 12) :
    BitVec.ofNat 10 ((litTiles tf n1 rest).toNat / 2 ^ 22) = tf ∧ BitVec.ofNat 10 ((litTiles tf n1 rest).toNat / 2 ^ 12) = n1 ∧
      (litTiles tf n1 rest).toNat % 2 ^ 12 = rest := by
  have ht := tf.isLt
  have hn := n1.isLt
  unfold litTiles
  rw [literal_toNat (by omega)]
  exact ⟨ofNat_of_mod (by omega), ofNat_of_mod (by omega), by omega⟩
theorem optReg_lt (b : Option (Fin 48)) : optReg b < 64 := by
  cases b with
  | none => decide
  | some r => exact r.isLt.trans (by decide)
/-- The B of MMQ, a lane register or 60, is read back. -/
theorem optReg_read (b : Option (Fin 48)) : (if optReg b = 60 then some none else (reg? (optReg b)).map some) = some b := by
  cases b with
  | none => rfl
  | some r =>
    have : r.val ≠ 60 := by omega
    simp [optReg, this]
/-- RU and TYPE of MMQ and MMQT. -/
theorem mmq_fields {w : Nat} {ru : Bool} {t : MmTy} (h : w % 64 = boolBit ru * 32 + t.code * 2) :
    field w 5 1 = boolBit ru ∧ field w 1 4 = t.code ∧ field w 0 1 = 0 := by
  have := Machine.boolBit_le ru
  have := t.code_lt
  unfold field
  omega

section
variable (s : Fin 4) (ru : Bool) (tq : BitVec 8) (boff : BitVec 20) (tf n1 : BitVec 10)

theorem wordOf_mmq (a : Fin 48) (b : Option (Fin 48)) (t : MmTy) : WordOf (.mmq a b s ru t tq boff)
    (encE 27 0 a.val (optReg b) (s.val * 64 + boolBit ru * 32 + t.code * 2))
    (some (BitVec.ofNat 32 (tq.toNat * 2 ^ 24 + boff.toNat))) := by
  have hru := Machine.boolBit_le ru
  have ht := t.code_lt
  refine wordOf_matrix s (boolBit ru * 32 + t.code * 2) (by decide) (by omega) (optReg_lt b) (by omega) (by omega)
    fun w hs ha hb hstrm hctl => ?_
  rw [literal_toNat (by omega)]
  have hlit := quad_literal tq boff (sel := 0) (by decide) (show tq.toNat * 2 ^ 24 + boff.toNat = _ by omega)
  simp only [decodeMatrix, hs, ha, hb, hstrm, mmq_fields hctl, hlit, optReg_read]
  simp [operand, reserved]
theorem wordOf_mmqt (a : Fin 48) (p : Fin 7) (t : MmTy) : WordOf (.mmqt a p s ru t tq boff)
    (encE 27 2 a.val (48 + p.val) (s.val * 64 + boolBit ru * 32 + t.code * 2))
    (some (BitVec.ofNat 32 (tq.toNat * 2 ^ 24 + boff.toNat))) := by
  have hru := Machine.boolBit_le ru
  have ht := t.code_lt
  have hp : 48 + p.val ≤ 54 := by omega
  refine wordOf_matrix s (boolBit ru * 32 + t.code * 2) (by decide) (by omega) (by omega) (by omega) (by omega)
    fun w hs ha hb hstrm hctl => ?_
  rw [literal_toNat (by omega)]
  have hlit := quad_literal tq boff (sel := 0) (by decide) (show tq.toNat * 2 ^ 24 + boff.toNat = _ by omega)
  simp only [decodeMatrix, hs, ha, hb, hstrm, mmq_fields hctl, hlit]
  simp [operand, reserved, hp]
theorem wordOf_mmqz (a b : Fin 48) (q : QTy) (f : Bool) (sel : Fin 4) : WordOf (.mmqz a b s ru q f tq sel boff)
    (encE 27 1 a.val b.val (s.val * 64 + boolBit ru * 32 + q.code * 4 + boolBit f * 2))
    (some (BitVec.ofNat 32 (tq.toNat * 2 ^ 24 + sel.val * 2 ^ 22 + boff.toNat))) := by
  have hru := Machine.boolBit_le ru
  have hf := Machine.boolBit_le f
  have hq := q.code_lt
  refine wordOf_matrix s (boolBit ru * 32 + q.code * 4 + boolBit f * 2) (by decide) (by omega) (by omega) (by omega) (by omega)
    fun w hs ha hb hstrm hctl => ?_
  have hF : field w 5 1 = boolBit ru ∧ field w 2 3 = q.code ∧ field w 1 1 = boolBit f ∧ field w 0 1 = 0 := by
    unfold field; omega
  rw [literal_toNat (by omega)]
  have hlit := quad_literal tq boff sel.isLt rfl
  simp only [decodeMatrix, hs, ha, hb, hstrm, hF, hlit]
  simp [operand, reserved]
theorem wordOf_amov (d : Fin 48) :
    WordOf (.amov d s tq) (encE 27 6 d.val 0 (s.val * 64)) (some (BitVec.ofNat 32 (tq.toNat * 2 ^ 24))) := by
  have ht := tq.isLt
  refine wordOf_matrix s 0 (by decide) (by omega) (by decide) (by decide) (by omega) fun w hs ha hb hstrm hctl => ?_
  rw [literal_toNat (by omega)]
  have hlit : BitVec.ofNat 8 (tq.toNat * 2 ^ 24 / 2 ^ 24) = tq := ofNat_of_mod (by omega)
  have h0 : field w 0 6 = 0 ∧ field (tq.toNat * 2 ^ 24) 0 24 = 0 := by unfold field; omega
  simp only [decodeMatrix, hs, ha, hb, hstrm, h0, hlit]
  simp [operand, reserved]
theorem wordOf_aclr : WordOf (.aclr s tf n1) (encE 27 3 0 0 (s.val * 64)) (some (litTiles tf n1 0)) := by
  refine wordOf_matrix s 0 (by decide) (by decide) (by decide) (by decide) (by omega) fun w hs ha hb hstrm hctl => ?_
  obtain ⟨htf, hn, hlit⟩ := tiles_literal tf n1 (rest := 0) (by decide)
  have h0 : field w 0 6 = 0 ∧ field (litTiles tf n1 0).toNat 0 12 = 0 := by unfold field; omega
  simp only [decodeMatrix, hs, ha, hb, hstrm, htf, hn, h0]
  simp [reserved]
theorem wordOf_ascl (f : AsclF) : WordOf (.ascl f s tf n1) (encE 27 8 f.toField 0 (s.val * 64)) (some (litTiles tf n1 0)) := by
  obtain ⟨htf, hn, hlit⟩ := tiles_literal tf n1 (rest := 0) (by decide)
  have hf : f.toField < 56 := by
    cases f <;> simp only [AsclF.toField] <;> omega
  refine wordOf_matrix s 0 (by decide) (by omega) (by decide) (by decide) (by omega) fun w hs ha hb hstrm hctl => ?_
  have h0 : field w 0 6 = 0 ∧ field (litTiles tf n1 0).toNat 0 12 = 0 := by unfold field; omega
  simp only [decodeMatrix, hs, ha, hb, hstrm, htf, hn, h0]
  cases f with
  | row n => simp [AsclF.toField, operand, reserved]
  | k n =>
    have : 48 + n.val < 56 := by omega
    simp [AsclF.toField, operand, reserved, this]
theorem wordOf_aadd (m1 : BitVec 10) :
    WordOf (.aadd s tf n1 m1) (encE 27 7 0 0 (s.val * 64)) (some (litTiles tf n1 (m1.toNat * 4))) := by
  have hm := m1.isLt
  obtain ⟨htf, hn, hlit⟩ := tiles_literal tf n1 (rest := m1.toNat * 4) (by omega)
  refine wordOf_matrix s 0 (by decide) (by decide) (by decide) (by decide) (by omega) fun w hs ha hb hstrm hctl => ?_
  have hm1 : BitVec.ofNat 10 ((litTiles tf n1 (m1.toNat * 4)).toNat / 4) = m1 := ofNat_of_mod (by omega)
  have h0 : field w 0 6 = 0 ∧ field (litTiles tf n1 (m1.toNat * 4)).toNat 0 2 = 0 := by unfold field; omega
  simp only [decodeMatrix, hs, ha, hb, hstrm, htf, hn, hm1, h0]
  simp [reserved]
theorem wordOf_alds (b : EOp) (t : AldTy) :
    WordOf (.alds b s t tf n1) (encE 27 4 b.toField 0 (s.val * 64 + t.code * 4)) (some (litTiles tf n1 0)) := by
  have hb := b.toField_lt
  have ht := t.code_lt
  obtain ⟨htf, hn, hlit⟩ := tiles_literal tf n1 (rest := 0) (by decide)
  refine wordOf_matrix s (t.code * 4) (by decide) (by omega) (by decide) (by omega) rfl fun w hs ha hb hstrm hctl => ?_
  have hF : field w 2 3 = t.code ∧ field w 5 1 = 0 ∧ field w 0 2 = 0 ∧ field (litTiles tf n1 0).toNat 0 12 = 0 := by
    unfold field; omega
  simp only [decodeMatrix, hs, ha, hb, hstrm, htf, hn, hF]
  simp [operand, reserved]
theorem wordOf_asts (b : EOp) (t : FTy) (m : RMode) : WordOf (.asts b s t tf n1 m)
    (encE 27 5 b.toField 0 (s.val * 64 + t.code * 4)) (some (litTiles tf n1 (m.code * 2 ^ 9))) := by
  have hb := b.toField_lt
  have ht := t.code_lt
  have hm := m.code_le
  obtain ⟨htf, hn, hlit⟩ := tiles_literal tf n1 (rest := m.code * 2 ^ 9) (by omega)
  refine wordOf_matrix s (t.code * 4) (by decide) (by omega) (by decide) (by omega) rfl fun w hs ha hb hstrm hctl => ?_
  have hF : field w 2 3 = t.code ∧ field w 5 1 = 0 ∧ field w 0 2 = 0 ∧ field (litTiles tf n1 (m.code * 2 ^ 9)).toNat 9 3 = m.code ∧
      field (litTiles tf n1 (m.code * 2 ^ 9)).toNat 0 9 = 0 := by
    unfold field; omega
  simp only [decodeMatrix, hs, ha, hb, hstrm, htf, hn, hF]
  simp [operand, reserved, hm]
end

end Sys2Proof
end

section
/-! PROOFS. Reading back the words of majors 0x1C to 0x1E (R289, R307, R372) and of a front-end core (R321). -/

namespace Sys2Proof

/-! ## The tempo array -/

/-- A tempo word: one operand and a literal (R289). -/
theorem wordOf_tempo {i : Instr} {sub opa : Nat} {y : Word} (hs : sub < 32) (ha : opa < 64)
    (h : ∀ w, field w 20 5 = sub → field w 14 6 = opa → field w 0 14 = 0 → decodeTempo w y.toNat = .ok i) :
    WordOf i (encE 28 sub opa 0 0) (some y) := by
  refine wordOf_formatE (by decide) hs ha (by decide) (by decide) fun w hF => ?_
  rw [← h w hF.sub_eq hF.opa_eq hF.low_eq]
  unfold decodeFields
  rw [hF.major_eq]
  rfl
theorem wordOf_twin (tw : BitVec 8) : WordOf (.twin tw) (encE 28 0 0 0 0) (some (BitVec.ofNat 32 tw.toNat)) := by
  have ht := tw.isLt
  refine wordOf_tempo (by decide) (by decide) fun w hs ha hz => ?_
  rw [literal_toNat (by omega)]
  have h0 : field tw.toNat 8 24 = 0 := by unfold field; omega
  simp [decodeTempo, hs, ha, hz, h0, reserved]
theorem wordOf_tloadw (b : EOp) (nr1 fr : BitVec 7) :
    WordOf (.tloadw b nr1 fr) (encE 28 1 b.toField 0 0) (some (BitVec.ofNat 32 (nr1.toNat * 256 + fr.toNat))) := by
  have hn := nr1.isLt
  have hf := fr.isLt
  refine wordOf_tempo (by decide) (b.toField_lt.trans (by decide)) fun w hs ha hz => ?_
  rw [literal_toNat (by omega)]
  have h0 : field (nr1.toNat * 256 + fr.toNat) 7 1 = 0 ∧ field (nr1.toNat * 256 + fr.toNat) 15 17 = 0 := by unfold field; omega
  have hnr : BitVec.ofNat 7 ((nr1.toNat * 256 + fr.toNat) / 256) = nr1 := ofNat_of_mod (by omega)
  have hfr : BitVec.ofNat 7 (nr1.toNat * 256 + fr.toNat) = fr := ofNat_of_mod (by omega)
  simp only [decodeTempo, hs, ha, hz, h0, hnr, hfr]
  simp [operand, reserved]
/-- A literal of one bit. -/
theorem bit_literal (h : Bool) : (BitVec.ofNat 32 (boolBit h)).toNat = boolBit h ∧ field (boolBit h) 1 31 = 0 ∧
    field (boolBit h) 0 1 = boolBit h := by
  cases h <;> decide
theorem wordOf_tcfg (b : EOp) (h : Bool) : WordOf (.tcfg b h) (encE 28 2 b.toField 0 0) (some (BitVec.ofNat 32 (boolBit h))) :=
  wordOf_tempo (by decide) (b.toField_lt.trans (by decide)) fun w hs ha hz => by
    simp only [decodeTempo, hs, ha, hz, bit_literal h]
    simp [operand, reserved]
theorem wordOf_tfire (fb : Bool) : WordOf (.tfire fb) (encE 28 4 0 0 0) (some (BitVec.ofNat 32 (boolBit fb))) :=
  wordOf_tempo (by decide) (by decide) fun w hs ha hz => by
    simp only [decodeTempo, hs, ha, hz, bit_literal fb]
    simp [reserved]
/-- TSTAGE and TCAPT: a lane register and a row bank. -/
theorem wordOf_rowBank (f : Fin 48 → Fin 4 → Instr) {sub : Nat} {a : Fin 48} {rb : Fin 4}
    (h : ∀ w lit, field w 20 5 = sub → decodeTempo w lit = operand (reg? (field w 14 6)) fun a =>
      reserved (field w 0 14 = 0 && field lit 2 30 = 0) (f a (Fin.ofNat 4 (field lit 0 2)))
      := by intro w lit hs; unfold decodeTempo; rw [hs]; rfl) (hs : sub < 32 := by decide) :
    WordOf (f a rb) (encE 28 sub a.val 0 0) (some (BitVec.ofNat 32 rb.val)) := by
  refine wordOf_tempo hs (by omega) fun w hsub ha hz => ?_
  have hlit : field rb.val 0 2 = rb ∧ field rb.val 2 30 = 0 := by unfold field; omega
  rw [literal_toNat (by omega), h _ _ hsub, ha, hz, hlit.1, hlit.2]
  simp [operand, reserved]
theorem wordOf_treset : WordOf .treset (encE 28 6 0 0 0) (some 0) :=
  wordOf_tempo (by decide) (by decide) fun w hs ha hz => by
    simp only [decodeTempo, hs, ha, hz]
    rfl

/-! ## Tours -/

/-- TOUR.LD and TOUR.ADD (R307). -/
theorem wordOf_tour (f : Fin 48 → Fin 48 → Fin 48 → Fin 8 → Bool → BitVec 16 → Instr) {sub : Nat} {a d s : Fin 48} {pw : Fin 8}
    {wide : Bool} {loff : BitVec 16}
    (h : ∀ w lit, field w 20 5 = sub → decodeTour w lit =
      operand (reg? (field w 14 6)) fun a => operand (reg? (field w 8 6)) fun d => operand (reg? (field w 2 6)) fun s =>
        if field lit 24 2 ≤ 1 then
          reserved (field w 0 2 = 0 && field lit 26 3 = 0 && field lit 16 8 = 0)
            (f a d s (Fin.ofNat 8 (field lit 29 3)) (field lit 24 2 = 1) (BitVec.ofNat 16 lit))
        else .error .operandValue
      := by intro w lit hs; unfold decodeTour; rw [hs]; rfl) (hs : sub < 32 := by decide) :
    WordOf (f a d s pw wide loff) (encE 29 sub a.val d.val (s.val * 4))
      (some (BitVec.ofNat 32 (pw.val * 2 ^ 29 + boolBit wide * 2 ^ 24 + loff.toNat))) := by
  have hw := Machine.boolBit_le wide
  have hl := loff.isLt
  refine wordOf_formatE (by decide) hs (by omega) (by omega) (by omega) fun w hF => ?_
  have hctl := hF.ctl_eq
  have hs6 : field w 2 6 = s ∧ field w 0 2 = 0 := by unfold field; omega
  rw [literal_toNat (by omega)]
  generalize hy : pw.val * 2 ^ 29 + boolBit wide * 2 ^ 24 + loff.toNat = y
  have hlit : field y 24 2 = boolBit wide ∧ field y 26 3 = 0 ∧ field y 16 8 = 0 ∧ field y 29 3 = pw ∧ y % 2 ^ 16 = loff.toNat := by
    unfold field; omega
  obtain ⟨h24, h26, h16, h29, hloff⟩ := hlit
  have hread : decodeFields w y = decodeTour w y := by
    unfold decodeFields
    rw [hF.major_eq]
    rfl
  rw [hread, h _ _ hF.sub_eq, hF.opa_eq, hF.opb_eq, hs6.1, hs6.2, h24, h26, h16, h29, ofNat_of_mod hloff]
  simp [operand, reserved, hw]

/-! ## Collectives -/

section
variable {opa : Nat} {d : Dst} {xw : Fin 8} {cid : BitVec 8}

/-- A word of major 0x1E (R372). -/
theorem wordOf_collective {i : Instr} {sub ctl : Nat} {y : Word} (tagbits : Nat) (hs : sub < 32) (ha : opa < 64) (ht : tagbits < 32)
    (hc : ctl = xw.val * 32 + tagbits)
    (h : ∀ w, field w 20 5 = sub → field w 14 6 = opa → field w 8 6 = d.toField → field w 5 3 = xw → field w 0 5 = tagbits →
      w % 256 = ctl → decodeColl w y.toNat = .ok i) : WordOf i (encE 30 sub opa d.toField ctl) (some y) := by
  have hd := d.toField_lt
  refine wordOf_formatE (by decide) hs ha (by omega) (by omega) fun w hF => ?_
  have hctl := hF.ctl_eq
  rw [← h w hF.sub_eq hF.opa_eq hF.opb_eq (by unfold field; omega) (by unfold field; omega) hctl]
  unfold decodeFields
  rw [hF.major_eq]
  rfl
theorem wordOf_coll (b : Fin 5) (t : Option (Fin 16)) (op : CollOp) (ty : CollTy) (arr : Bool) (kind : CollKind) :
    WordOf (.coll b d xw t cid op ty arr kind) (encE 30 0 (48 + b.val) d.toField (xw.val * 32 + tagField t))
      (some (BitVec.ofNat 32
        (cid.toNat * 2 ^ 24 + op.code * 2 ^ 20 + ty.code * 2 ^ 16 + boolBit arr * 2 ^ 15 + kind.code * 2 ^ 12))) := by
  have hcid := cid.isLt
  have hop := op.code_lt
  have hty := ty.code_lt
  have harr := Machine.boolBit_le arr
  have hkind := kind.code_lt
  have hb : 48 + b.val ≤ 52 := by omega
  refine wordOf_collective (tagField t) (by decide) (by omega) (tagField_lt t) rfl fun w hs ha hd hx ht hctl => ?_
  rw [literal_toNat (by omega)]
  generalize hy : cid.toNat * 2 ^ 24 + op.code * 2 ^ 20 + ty.code * 2 ^ 16 + boolBit arr * 2 ^ 15 + kind.code * 2 ^ 12 = y
  have hlit : field y 20 4 = op.code ∧ field y 16 4 = ty.code ∧ field y 15 1 = boolBit arr ∧ field y 12 3 = kind.code ∧
      field y 0 12 = 0 := by
    unfold field; omega
  have hc : BitVec.ofNat 8 (y / 2 ^ 24) = cid := ofNat_of_mod (by omega)
  simp only [decodeColl, hs, ha, hd, hx, hctl, tag?_tagField, hlit, hc]
  simp [operand, reserved, hb]
/-- The literal of COMMQ. -/
theorem commq_literal (cid : BitVec 8) {n y : Nat} (hn : n < 16) (hy : y = cid.toNat * 2 ^ 24 + n) :
    field y 0 4 = n ∧ field y 4 20 = 0 ∧ BitVec.ofNat 8 (y / 2 ^ 24) = cid := by
  have hcid := cid.isLt
  exact ⟨by unfold field; omega, by unfold field; omega, ofNat_of_mod (by omega)⟩
theorem wordOf_commqCreate (a : Fin 8) : WordOf (.commqCreate xw a d cid) (encE 30 1 (48 + a.val) d.toField (xw.val * 32))
    (some (BitVec.ofNat 32 (cid.toNat * 2 ^ 24))) := by
  have hcid := cid.isLt
  have ha8 : 48 + a.val < 56 := by omega
  refine wordOf_collective (xw := xw) 0 (by decide) (by omega) (by decide) rfl fun w hs ha hd hx h0 _ => ?_
  rw [literal_toNat (by omega)]
  simp only [decodeColl, hs, ha, hd, hx, h0, commq_literal cid (n := 0) (by decide) (Nat.add_zero _).symm]
  simp [operand, reserved, ha8]
/-- COMMQ's destroy, abort and query. -/
theorem wordOf_commq (f : Fin 8 → Dst → BitVec 8 → Instr) {n : Nat}
    (h : ∀ w lit, field w 20 5 = 1 → field lit 0 4 = n → decodeColl w lit = operand (Dst.ofField? (field w 8 6)) fun d =>
      if field w 14 6 = 60 then
        reserved (field w 0 5 = 0 && field lit 4 20 = 0) (f (Fin.ofNat 8 (field w 5 3)) d (BitVec.ofNat 8 (lit / 2 ^ 24)))
      else .error .operandValue
      := by intro w lit hs hn; unfold decodeColl; rw [hs, hn]; rfl) (hn : n < 16 := by decide) :
    WordOf (f xw d cid) (encE 30 1 60 d.toField (xw.val * 32)) (some (BitVec.ofNat 32 (cid.toNat * 2 ^ 24 + n))) := by
  have hcid := cid.isLt
  obtain ⟨hcode, h20, hid⟩ := commq_literal cid hn rfl
  refine wordOf_collective (xw := xw) 0 (by decide) (by decide) (by decide) rfl fun w hs ha hd hx h0 _ => ?_
  rw [literal_toNat (by omega), h _ _ hs hcode, ha, hd, hx, h0, h20, hid]
  simp [operand, reserved]
end

/-! ## Front-end words (R321) -/

/-- The fields of a front-end word. -/
theorem rv_fields {f3 : Nat} (h3 : f3 < 8) (rd rs1 rs2 : Fin 32) : let w := encRv f3 rd rs1 rs2
    field w 0 7 = 0x0B ∧ field w 7 5 = rd ∧ field w 12 3 = f3 ∧ field w 15 5 = rs1 ∧ field w 20 5 = rs2 ∧ field w 25 7 = 0 := by
  unfold encRv field
  omega
theorem decodeRv_encode {i : Instr} (h : i.form = .frontEnd) : decodeRv (encodeWord i) = .ok i := by
  cases i with
  | fetchr rd rs1 =>
    show decodeRv (encRv 0 rd rs1 0) = _
    simp [decodeRv, rv_fields, reserved]
  | bfx rd rs1 rs2 =>
    show decodeRv (encRv 1 rd rs1 rs2) = _
    simp [decodeRv, rv_fields]
  | swait rd rs1 rs2 =>
    show decodeRv (encRv 2 rd rs1 rs2) = _
    simp [decodeRv, rv_fields]
  | disp rd rs1 rs2 =>
    show decodeRv (encRv 3 rd rs1 rs2) = _
    simp [decodeRv, rv_fields]
  | _ => nomatch h

end Sys2Proof
end

section
/-! PROOFS. O55 from the formats, and O54. -/

namespace Sys2Proof

/-- Every well-formed group word is read back, by its format's lemma; an event has no word. -/
theorem wordOf_encode (i : Instr) (hwf : i.wf = true) (hform : i.form = .group) : WordOf i (encodeWord i) (encodeLit i) := by
  cases i with
  -- major 0x00
  | nop => exact wordOf_noOperand (sub := 0) .nop
  | ret => exact wordOf_noOperand .ret
  | elseL => exact wordOf_noOperand .elseL
  | endifL => exact wordOf_noOperand .endifL
  | loopL => exact wordOf_noOperand .loopL
  | exitL => exact wordOf_noOperand .exitL
  | yieldL => exact wordOf_noOperand .yieldL
  | eret => exact wordOf_noOperand .eret
  | brx a => exact wordOf_registerTarget .brx
  | callx a => exact wordOf_registerTarget .callx
  | ifL o => exact wordOf_ifL o
  | breakL o d => exact wordOf_leaveLoop .breakL
  | contL o d => exact wordOf_leaveLoop .contL
  | trap n => exact wordOf_trapCode .trap
  | bkpt n => exact wordOf_trapCode .bkpt
  | sigchk y => exact wordOf_sigchk y
  | sleepImm n => exact wordOf_sleepImm n
  | sleepK a => exact wordOf_sleepK a
  | bra o => exact wordOf_branch (sub := 1) .bra
  | call o => exact wordOf_branch (sub := 2) .call
  | brz a o => exact wordOf_registerBranch (sub := 0) .brz
  | brnz a o => exact wordOf_registerBranch (sub := 1) .brnz
  | brany o => exact wordOf_laneBranch (sub := 2) .brany
  | brnone o => exact wordOf_laneBranch (sub := 3) .brnone
  | endloop o => exact wordOf_laneBranch (sub := 4) .endloop
  -- major 0x01
  | kadd d a b => exact wordOf_kReg .kadd
  | ksub d a b => exact wordOf_kReg .ksub
  | kmul d a b => exact wordOf_kReg .kmul
  | kmulh s d a b => cases s <;> exact wordOf_kReg (.kmulh _)
  | kand d a b => exact wordOf_kReg .kand
  | kor d a b => exact wordOf_kReg .kor
  | kxor d a b => exact wordOf_kReg .kxor
  | kshl d a b => exact wordOf_kReg .kshl
  | kshr d a b => exact wordOf_kReg .kshr
  | ksra d a b => exact wordOf_kReg .ksra
  | kmin s d a b => cases s <;> exact wordOf_kReg (.kmin _)
  | kmax s d a b => cases s <;> exact wordOf_kReg (.kmax _)
  | kcmp c d a b => cases c <;> exact wordOf_kReg (.kcmp _)
  | ksel d a b => exact wordOf_kReg .ksel
  | kbfe s d a b => cases s <;> exact wordOf_kReg (.kbfe _)
  | kmov d a => exact wordOf_kMono .kmov
  | kpopc d a => exact wordOf_kMono .kpopc
  -- major 0x02
  | kaddImm d i => exact wordOf_kImm .kaddImm
  | ksubImm d i => exact wordOf_kImm .ksubImm
  | kmulImm d i => exact wordOf_kImm .kmulImm
  | kmulhImm s d i => cases s <;> exact wordOf_kImm (.kmulhImm _)
  | kandImm d i => exact wordOf_kImm .kandImm
  | korImm d i => exact wordOf_kImm .korImm
  | kxorImm d i => exact wordOf_kImm .kxorImm
  | kshlImm d i => exact wordOf_kImm .kshlImm
  | kshrImm d i => exact wordOf_kImm .kshrImm
  | ksraImm d i => exact wordOf_kImm .ksraImm
  | kminImm s d i => cases s <;> exact wordOf_kImm (.kminImm _)
  | kmaxImm s d i => cases s <;> exact wordOf_kImm (.kmaxImm _)
  | kcmpImm c d i => cases c <;> exact wordOf_kImm (.kcmpImm _)
  | kbfeImm s d i => cases s <;> exact wordOf_kImm (.kbfeImm _)
  -- major 0x03
  | kli d i => exact wordOf_kli d i
  | kliLiteral d y => exact wordOf_kliLiteral d y
  | klih d y => exact wordOf_klih d y
  | kget d r => exact wordOf_kget d r
  | kset r a => exact wordOf_kset r a
  | setix n => exact wordOf_setix n
  | setixK a => exact wordOf_setixK a
  -- majors 0x04 to 0x09
  | iadd s d a b => cases s <;> exact wordOf_twoSources (.iadd _) hwf
  | iaddc d a b => exact wordOf_twoSources .iaddc hwf
  | isub s d a b => cases s <;> exact wordOf_twoSources (.isub _) hwf
  | imul k d a b => cases k <;> exact wordOf_twoSources (.imul _) hwf
  | imin s d a b => cases s <;> exact wordOf_twoSources (.imin _) hwf
  | imax s d a b => cases s <;> exact wordOf_twoSources (.imax _) hwf
  | iabs d a => exact wordOf_oneSource .iabs
  | iand d a b => exact wordOf_twoSources .iand hwf
  | ior d a b => exact wordOf_twoSources .ior hwf
  | ixor d a b => exact wordOf_twoSources .ixor hwf
  | ishl d a b => exact wordOf_twoSources .ishl hwf
  | ishr d a b => exact wordOf_twoSources .ishr hwf
  | isra d a b => exact wordOf_twoSources .isra hwf
  | ibfe s d a b => cases s <;> exact wordOf_twoSources (.ibfe _) hwf
  | ipopc d a => exact wordOf_oneSource .ipopc
  | iclz d a => exact wordOf_oneSource .iclz
  | ibrev d a => exact wordOf_oneSource .ibrev
  | icmp c d a b => cases c <;> exact wordOf_twoSources (.icmp _) hwf
  | fadd d a b => exact wordOf_twoSources .fadd hwf
  | fsub d a b => exact wordOf_twoSources .fsub hwf
  | fmul d a b => exact wordOf_twoSources .fmul hwf
  | fmin d a b => exact wordOf_twoSources .fmin hwf
  | fmax d a b => exact wordOf_twoSources .fmax hwf
  | fabs d a => exact wordOf_oneSource .fabs
  | fneg d a => exact wordOf_oneSource .fneg
  | fclass d a => exact wordOf_oneSource .fclass
  | frnd m d a => cases m <;> exact wordOf_oneSource (.frnd _)
  | hadd2 t d a b => cases t <;> exact wordOf_twoSources (.hadd2 _) hwf
  | hmul2 t d a b => cases t <;> exact wordOf_twoSources (.hmul2 _) hwf
  | hmin2 t d a b => cases t <;> exact wordOf_twoSources (.hmin2 _) hwf
  | hmax2 t d a b => cases t <;> exact wordOf_twoSources (.hmax2 _) hwf
  | fcmp c d a b => cases c <;> exact wordOf_twoSources (.fcmp _) hwf
  | fcvt t f m d a =>
    obtain ⟨hne, -⟩ := Bool.and_eq_true_iff.1 hwf
    exact wordOf_fcvt (bne_iff_ne.1 hne)
  | icvt k m d a => cases k <;> exact wordOf_conversion (.icvt _)
  | pack t d a b => cases t <;> exact wordOf_twoSources (.pack _) hwf
  | unpack t d a b => cases t <;> exact wordOf_twoSources (.unpack _) hwf
  | scxp d a b => exact wordOf_twoSources .scxp hwf
  | mov d a => exact wordOf_oneSource .mov
  | shfl d a b => exact wordOf_twoSources .shfl hwf
  | shflx d a b => exact wordOf_twoSources .shflx hwf
  | shflup d a b => exact wordOf_twoSources .shflup hwf
  | shfldn d a b => exact wordOf_twoSources .shfldn hwf
  | vote o d a => cases o <;> exact wordOf_oneSource (.vote _)
  | redq o d a => cases o <;> exact wordOf_oneSource (.redq _)
  | scanq o d a => cases o <;> exact wordOf_oneSource (.scanq _)
  | frcp d a => exact wordOf_oneSource .frcp
  | frsq d a => exact wordOf_oneSource .frsq
  | fsqrt d a => exact wordOf_oneSource .fsqrt
  | fexp2 d a => exact wordOf_oneSource .fexp2
  | flog2 d a => exact wordOf_oneSource .flog2
  | fsin d a => exact wordOf_oneSource .fsin
  | fcos d a => exact wordOf_oneSource .fcos
  -- majors 0x0A to 0x0F
  | ffma d a b e => exact wordOf_threeSources .ffma hwf
  | imad d a b e => exact wordOf_threeSources .imad hwf
  | hfma2 d a b e => exact wordOf_threeSources .hfma2 hwf
  | isel d a b e => exact wordOf_threeSources .isel hwf
  | ibfi d a b e => exact wordOf_threeSources .ibfi hwf
  | prmt d a b e => exact wordOf_threeSources .prmt hwf
  -- majors 0x10 to 0x12 and 0x14
  | ld z d n o i => exact wordOf_ld z d n o i
  | ldp z d n o i => exact wordOf_ldp z d n o i
  | lds z d o i => exact wordOf_lds z d o i
  | ldsGang z d m o i => exact wordOf_ldsGang z d o i m
  | st z x n o i =>
    obtain ⟨-, hl⟩ := Bool.and_eq_true_iff.1 hwf
    exact wordOf_st hl n i
  | sts z x o i =>
    obtain ⟨-, hl⟩ := Bool.and_eq_true_iff.1 hwf
    exact wordOf_sts hl i
  | xwopen n a b => exact wordOf_xwopen n a b
  | xwclose n => exact wordOf_xwclose n
  | kldp v d n a i => cases v; exacts [wordOf_kLoad (sel := 2) (.kldp _), wordOf_kLoad (sel := 3) (.kldp _)]
  | kldg v d n a i => cases v; exacts [wordOf_kLoad (sel := 4) (.kldg _), wordOf_kLoad (sel := 5) (.kldg _)]
  -- majors 0x13 and 0x15 to 0x18
  | atom op sc o n r f => cases op <;> exact wordOf_formatA_register (fun sc o n r f => .ok (.atom _ sc o n r f)) rfl
  | red op sc rel n x f =>
    obtain ⟨-, hl⟩ := Bool.and_eq_true_iff.1 hwf
    cases op <;> cases rel <;> exact wordOf_formatA_operand (fun sc o n x f => match o with
      | .rlx => .ok (.red _ sc false n x f)
      | .rel => .ok (.red _ sc true n x f)
      | _ => .error .operandValue) hl rfl
  | atoms op sc o g x f =>
    obtain ⟨h, -⟩ := Bool.and_eq_true_iff.1 hwf
    obtain ⟨-, hl⟩ := Bool.and_eq_true_iff.1 h
    exact wordOf_atoms hl
  | cas v sc o n r f => cases v <;> exact wordOf_formatA_register (fun sc o n r f => .ok (.cas _ sc o n r f)) rfl
  | aggr sc o n r f => exact wordOf_formatA_register (fun sc o n r f => .ok (.aggr sc o n r f)) rfl
  | putf v sc n r f => cases v <;>
      exact wordOf_formatA_register (fun sc o n r f => if o = .rel then .ok (.putf _ sc n r f) else .error .operandValue) rfl
  | lda v sc n r f => cases v <;>
      exact wordOf_formatA_register (fun sc o n r f => if o = .acq then .ok (.lda _ sc n r f) else .error .operandValue) rfl
  | stl v sc n x f =>
    obtain ⟨-, hl⟩ := Bool.and_eq_true_iff.1 hwf
    cases v <;> exact wordOf_formatA_operand (fun sc o n x f => if o = .rel then .ok (.stl _ sc n x f) else .error .operandValue) hl rfl
  | waita v n x f =>
    obtain ⟨-, hl⟩ := Bool.and_eq_true_iff.1 hwf
    cases v <;> exact wordOf_range (.waita _) hl
  | wbr n x f => exact wordOf_range .wbr hwf
  | invr n x f => exact wordOf_range .invr hwf
  | pref v n f => exact wordOf_pref v
  | fence sc o => exact wordOf_fence
  | promote sc x => exact wordOf_promote
  -- major 0x19
  | cpy a b n t hi lo => exact wordOf_copy .cpy
  | cpyg a b n t lo => exact wordOf_cpyg
  | cpys a b n t hi lo => exact wordOf_copy .cpys
  | cpyx a b n t lo => exact wordOf_cpyx
  -- major 0x1A
  | close c => exact wordOf_close c
  | waitb c n => exact wordOf_waitb c n
  | waitbK c a => exact wordOf_waitbK c a
  | waitc c n => exact wordOf_waitc c n
  | phnew a h => exact wordOf_phnew a h
  | phfree h => exact wordOf_phfree h
  | phjoin d b h m => exact wordOf_phjoin d b h m
  | phleave h => exact wordOf_phleave h
  | phsig h v => exact wordOf_phsig h v
  | phwait a h => exact wordOf_phwait a h
  | phsw a h v => exact wordOf_phsw a h v
  | phrd d h => exact wordOf_phrd d h
  | bar => exact wordOf_bar
  | emit r n => exact wordOf_emit r n
  -- major 0x1B
  | mmq a b s ru t tq boff => exact wordOf_mmq s ru tq boff a b t
  | mmqz a b s ru q f tq sel boff => exact wordOf_mmqz s ru tq boff a b q f sel
  | mmqt a p s ru t tq boff => exact wordOf_mmqt s ru tq boff a p t
  | aclr s tf n1 => exact wordOf_aclr s tf n1
  | alds b s t tf n1 => exact wordOf_alds s tf n1 b t
  | asts b s t tf n1 m => exact wordOf_asts s tf n1 b t m
  | amov d s tq => exact wordOf_amov s tq d
  | aadd s td ts n1 => exact wordOf_aadd s td ts n1
  | ascl f s tf n1 => exact wordOf_ascl s tf n1 f
  -- major 0x1C
  | twin tw => exact wordOf_twin tw
  | tloadw b nr1 fr => exact wordOf_tloadw b nr1 fr
  | tcfg b h => exact wordOf_tcfg b h
  | tstage a rb => exact wordOf_rowBank .tstage
  | tfire fb => exact wordOf_tfire fb
  | tcapt d cb => exact wordOf_rowBank .tcapt
  | treset => exact wordOf_treset
  -- majors 0x1D and 0x1E
  | tourLd a d s pw v loff => exact wordOf_tour .tourLd
  | tourAdd a d s pw v loff => exact wordOf_tour .tourAdd
  | coll b d n t cid op ty arr kind => exact wordOf_coll b t op ty arr kind
  | commqCreate n a d cid => exact wordOf_commqCreate a
  | commqDestroy n d cid => exact wordOf_commq (n := 1) .commqDestroy
  | commqAbort n d cid => exact wordOf_commq (n := 2) .commqAbort
  | commqQuery n d cid => exact wordOf_commq (n := 3) .commqQuery
  | _ => nomatch hform

theorem decode_of_decodeFields {i : Instr} {w lit : Nat} (h : decodeFields w lit = .ok i) (hwf : i.wf = true) :
    decode w lit = .ok i := by
  unfold decode
  rw [h]
  exact if_pos hwf

/-- Settles O55: the fields of every encoded word, with either chain bit, are those that its decoder reads. -/
theorem decodeOfEncode : Obligations.DecodeOfEncode := by
  unfold Obligations.DecodeOfEncode
  refine fun i hwf => ⟨fun hform c _ => ?_, decodeRv_encode⟩
  obtain ⟨hlt, hread⟩ := wordOf_encode i hwf hform
  obtain ⟨hdecode, htakes⟩ := hread c
  exact ⟨decode_of_decodeFields hdecode hwf, hlt, htakes⟩

/-- Settles O54, by evaluating the decoder. -/
theorem encodedWords : Obligations.EncodedWords := by
  unfold Obligations.EncodedWords
  decide

end Sys2Proof
end

section
/-! PROOFS. Calls and returns (R73, R91, R92). -/

namespace Sys2Proof.Machine

/-- A word that raises a fault takes the trap where the group can trap, and changes nothing outside the issue (R27, R100). -/
theorem gives_trapTaken_of_raiseB {s : State} {i : Instr} {stage y entry : Nat} {code : Byte} (hc : CanTrap s entry)
    (h : exec i s = .next (raiseB s stage code y)) :
    Gives i s fun s t => TrapTaken s.issue.pre code (einfoB y 0 0 s.issue.word) s.issue.pos entry t ∧ OnlyIssue s t := by
  obtain ⟨htrap, honly, -⟩ := raiseAt_spec s stage code (einfoB y 0 0 s.issue.word) s.issue.pos entry hc
  exact ⟨_, h, htrap, honly⟩
/-- A call below the depth's limit pushes the position after the issue group and the counters (R92). -/
theorem pushFrame_room {s : State} (h : s.issue.pre.calls.length ≠ 16) :
    pushFrame s = modCur s fun c => { c with calls := c.calls ++ [⟨s.issue.next, s.issue.pre.c⟩] } := if_neg h

section
variable {s : State}

theorem exec_call_pushes {o : BitVec 23} (h : InCode s (s.issue.pos.pkt + o.toInt)) (hd : s.issue.pre.calls.length ≠ 16) :
    exec (.call o) s = .next (modCur (landed s ⟨(s.issue.pos.pkt + o.toInt).toNat, 0⟩) fun c =>
      { c with calls := c.calls ++ [⟨s.issue.next, s.issue.pre.c⟩] }) := by
  show execCall o s = _
  unfold execCall
  rw [relTarget_eq, takeBranch_spec _ _ _ h, pushFrame_room (s := landed s _) hd]
  rfl
theorem exec_callx_pushes {a : Fin 64} (h : (kget s.issue.pre a.val).toNat % 2 ^ 32 % 12 = 0)
    (hc : (kget s.issue.pre a.val).toNat % 2 ^ 32 / 12 < (gridOf s s.issue.pre).codeSize) (hd : s.issue.pre.calls.length ≠ 16) :
    exec (.callx a) s = .next (modCur (landed s ⟨(kget s.issue.pre a.val).toNat % 2 ^ 32 / 12, 0⟩) fun c =>
      { c with calls := c.calls ++ [⟨s.issue.next, s.issue.pre.c⟩] }) := by
  show execCallx a s = _
  unfold execCallx
  rw [regTarget_aligned h, takeBranch_spec _ _ _ ⟨by omega, by omega⟩, pushFrame_room (s := landed s _) hd]
  rfl
/-- RET where every lane that is not retired has its counter of the call (R92). -/
theorem exec_ret_pops {f : Frame} {fs : List Frame} (hf : s.issue.pre.calls = fs ++ [f]) (hc : s.issue.pre.c = s.issue.pre.dup)
    (hl : ∀ l, l < 32 → ctr s.issue.pre l = 255 ∨ ctr s.issue.pre l = cget 0 f.c l) :
    exec .ret s = .next (landed (modCur s fun c => { c with calls := c.calls.dropLast }) f.ret) := by
  have hall : (allLanes.all fun l => ctr s.issue.pre l = 255 || ctr s.issue.pre l = cget 0 f.c l) = true := by
    simpa [allLanes] using hl
  show execRet s = _
  unfold execRet
  dsimp only
  rw [compareCtr_equal hc, hf, List.getLast?_concat]
  dsimp only
  rw [if_pos hall]
  rfl

end

/-- Settles O12: a call's target is checked before its depth, and RET compares the counters of the frame on top. -/
theorem callsAndReturns : Obligations.CallsAndReturns := by
  unfold Obligations.CallsAndReturns
  intro s a g off pushed traps called
  have fault {i : Instr} {stage y : Nat} {code : Byte}
      (h : s.issue.pre.c = s.issue.pre.dup → exec i s = .next (raiseB s stage code y)) : traps i code y :=
    fun _ hc => gives_trapTaken_of_raiseB hc (h hc.2.2)
  exact ⟨fun o => ⟨fun h => ⟨exec_call_pushes h, fun hd => fault fun _ => exec_call_deep h hd⟩,
      fun h => fault fun _ => exec_call_far h⟩,
    fun h hc => ⟨exec_callx_pushes h hc, fun hd => fault fun _ => exec_callx_deep h hc hd⟩,
    fun h => fault fun _ => congrArg _ (regTarget_misaligned h),
    fun h hc => fault fun _ => congrArg _ (regTarget_far h hc),
    fun h => fault fun hc => exec_ret_nesting hc (.inl h),
    fun f fs hf => ⟨exec_ret_pops hf, fun hl => fault fun hc => exec_ret_nesting hc (.inr ⟨f, fs, hf, hl⟩)⟩⟩

end Sys2Proof.Machine
end

section
/-! PROOFS. Branches, the end of a run, the trap and its return, signatures, and the writes of special registers (R90, R96 to R103,
R108 to R111, R117, R343, R351). -/

namespace Sys2Proof.Machine

/-! ## Branches (R72, R73, R90) -/

section
variable {s : State}

/-- A branch that is taken lands in the code region, and raises code-bounds outside it (R73). -/
theorem takenBranch_spec {i : Instr} {t : Int} (h : exec i s = .next (takeBranch s t id)) :
    (InCode s t → exec i s = .next (landed s ⟨t.toNat, 0⟩)) ∧
    (¬InCode s t → ∀ entry, CanTrap s entry → Gives i s fun s u =>
      TrapTaken s.issue.pre 0x06 (einfoB (BitVec.ofInt 32 t).toNat 0 0 s.issue.word) s.issue.pos entry u ∧ OnlyIssue s u) :=
  ⟨fun hin => by rw [h, takeBranch_spec _ _ _ hin]; rfl,
    fun hout _ hc => gives_trapTaken_of_raiseB hc (by rw [h, takeBranch_far hout])⟩
theorem exec_bra_takes (o : BitVec 23) : exec (.bra o) s = .next (takeBranch s (s.issue.pos.pkt + o.toInt) id) := by
  rw [← relTarget_eq]; rfl
theorem exec_brz_takes {a : Fin 64} (o : BitVec 14) (h : kget s.issue.pre a.val = 0) :
    exec (.brz a o) s = .next (takeBranch s (s.issue.pos.pkt + o.toInt) id) := by
  rw [← relTarget_eq]; exact congrArg _ (if_pos h)
theorem exec_brz_passes {a : Fin 64} (o : BitVec 14) (h : kget s.issue.pre a.val ≠ 0) : exec (.brz a o) s = .next s :=
  congrArg _ (if_neg h)
theorem exec_brnz_takes {a : Fin 64} (o : BitVec 14) (h : kget s.issue.pre a.val ≠ 0) :
    exec (.brnz a o) s = .next (takeBranch s (s.issue.pos.pkt + o.toInt) id) := by
  rw [← relTarget_eq]; exact congrArg _ (if_neg h)
theorem exec_brnz_passes {a : Fin 64} (o : BitVec 14) (h : kget s.issue.pre a.val = 0) : exec (.brnz a o) s = .next s :=
  congrArg _ (if_pos h)
theorem exec_brany_takes (o : BitVec 20) (h : ∃ l, l < 32 ∧ isActive s.issue.pre l = true) :
    exec (.brany o) s = .next (takeBranch s (s.issue.pos.pkt + o.toInt) id) := by
  rw [← relTarget_eq]; exact congrArg _ (if_neg (activeLanes_ne_nil h))
theorem exec_brany_passes (o : BitVec 20) (h : ∀ l, l < 32 → isActive s.issue.pre l = false) : exec (.brany o) s = .next s :=
  congrArg _ (if_pos ((activeLanes_nil_iff _).2 h))
theorem exec_brnone_takes (o : BitVec 20) (h : ∀ l, l < 32 → isActive s.issue.pre l = false) :
    exec (.brnone o) s = .next (takeBranch s (s.issue.pos.pkt + o.toInt) id) := by
  rw [← relTarget_eq]; exact congrArg _ (if_pos ((activeLanes_nil_iff _).2 h))
theorem exec_brnone_passes (o : BitVec 20) (h : ∃ l, l < 32 ∧ isActive s.issue.pre l = true) : exec (.brnone o) s = .next s :=
  congrArg _ (if_neg (activeLanes_ne_nil h))
theorem exec_brx_lands {a : Fin 64} (h : (kget s.issue.pre a.val).toNat % 2 ^ 32 % 12 = 0)
    (hc : (kget s.issue.pre a.val).toNat % 2 ^ 32 / 12 < (gridOf s s.issue.pre).codeSize) :
    exec (.brx a) s = .next (landed s ⟨(kget s.issue.pre a.val).toNat % 2 ^ 32 / 12, 0⟩) := by
  show execBrx a s = _
  unfold execBrx
  rw [regTarget_aligned h, takeBranch_spec _ _ _ ⟨by omega, by omega⟩]
  rfl

end

/-- Settles O11: each branch by whether it is taken, and a taken one by whether its target lies in the code region. -/
theorem branches : Obligations.Branches := by
  unfold Obligations.Branches
  intro s a g A off traps taken not
  refine ⟨fun o => takenBranch_spec (exec_bra_takes o),
    fun o => ⟨fun h => takenBranch_spec (exec_brz_takes o h), fun h => exec_brz_passes o h⟩,
    fun o => ⟨fun h => takenBranch_spec (exec_brnz_takes o h), fun h => exec_brnz_passes o h⟩,
    fun o => ⟨fun h => takenBranch_spec (exec_brany_takes o h), fun h => exec_brany_passes o h⟩,
    fun o => ⟨fun h => takenBranch_spec (exec_brnone_takes o h), fun h => exec_brnone_passes o h⟩,
    fun h hc => exec_brx_lands h hc, fun h _ hc => gives_trapTaken_of_raiseB hc (congrArg _ (regTarget_misaligned h)),
    fun h hc _ ht => gives_trapTaken_of_raiseB ht (congrArg _ (regTarget_far h hc))⟩

/-! ## EXIT, YIELD, SLEEP and NOP (R96 to R99) -/

theorem sleepFor_pos (s : State) {n : Nat} (h : n ≠ 0) : sleepFor s n = { s with issue := { s.issue with
    endRun := true
    cur := { s.issue.cur with status := .waiting .sleep, sleepLeft := n + (s.cycle - s.issue.cur.since) } } } := by
  unfold sleepFor; rw [if_neg h]; rfl
theorem OnlyIssue.trans {s t u : State} (h : OnlyIssue s t) (h' : OnlyIssue t u) : OnlyIssue s u :=
  Eq.trans h' (congrArg (fun x : State => { x with issue := u.issue }) h)
/-- EXIT retires the active lanes (R96). -/
def lanesExit (s : State) : State := modCur s fun c => setCtr c fun l x => if isActive s.issue.pre l then 255 else x
theorem lanesExit_frame (s : State) : (lanesExit s).issue.cur.v = s.issue.cur.v ∧ (lanesExit s).issue.cur.k = s.issue.cur.k ∧
    OnlyIssue s (lanesExit s) := ⟨rfl, rfl, rfl⟩
/-- A group without a lane left drains (R96). -/
def drains (s : State) : State := endsRun (modCur s fun c => { c with status := .waiting .drain })
theorem drains_frame (s : State) : (drains s).issue.cur.v = s.issue.cur.v ∧ (drains s).issue.cur.k = s.issue.cur.k ∧
    (∀ l, ctr (drains s).issue.cur l = ctr s.issue.cur l) ∧ OnlyIssue s (drains s) := ⟨rfl, rfl, fun _ => rfl, rfl⟩
theorem exec_exit (s : State) : exec .exitL s =
    .next (if (allLanes.all fun l => isRetired (lanesExit s).issue.cur l) = true then drains (lanesExit s) else lanesExit s) := rfl
/-- The counters that EXIT leaves, where the group's own have not changed before it. -/
theorem ctr_lanesExit {s : State} (h : s.issue.cur.c = s.issue.pre.c) {l : Nat} (hl : l < 32) :
    ctr (lanesExit s).issue.cur l = if ctr s.issue.pre l = 0 then 255 else ctr s.issue.pre l := by
  refine (ctr_setCtr s.issue.cur (fun l x => if isActive s.issue.pre l then 255 else x) l hl).trans ?_
  unfold isActive ctr
  rw [h]
  simp
/-- EXIT of every lane that is left: the group drains (R96). -/
theorem lanesExit_retired {s : State} (h : s.issue.cur.c = s.issue.pre.c)
    (hl : ∀ l, l < 32 → ctr s.issue.pre l = 0 ∨ ctr s.issue.pre l = 255) :
    (allLanes.all fun l => isRetired (lanesExit s).issue.cur l) = true := by
  refine List.all_eq_true.2 fun l hmem => decide_eq_true ?_
  have hlt := List.mem_range.1 hmem
  rw [ctr_lanesExit h hlt]
  rcases hl l hlt with h0 | h255
  · rw [if_pos h0]
  · rw [h255]; rfl
theorem exec_exit_gives {s : State} (h : s.issue.cur.c = s.issue.pre.c) : Gives .exitL s fun s t =>
    (∀ l, l < 32 → ctr t.issue.cur l = if ctr s.issue.pre l = 0 then 255 else ctr s.issue.pre l) ∧
    ((∀ l, l < 32 → ctr s.issue.pre l = 0 ∨ ctr s.issue.pre l = 255) →
      t.issue.cur.status = .waiting .drain ∧ t.issue.endRun = true) ∧
    t.issue.cur.v = s.issue.cur.v ∧ t.issue.cur.k = s.issue.cur.k ∧ OnlyIssue s t := by
  obtain ⟨hv, hk, honly⟩ := lanesExit_frame s
  by_cases hall : (allLanes.all fun l => isRetired (lanesExit s).issue.cur l) = true
  · obtain ⟨hv', hk', hc', honly'⟩ := drains_frame (lanesExit s)
    exact ⟨drains (lanesExit s), by rw [exec_exit, if_pos hall], fun l hl => (hc' l).trans (ctr_lanesExit h hl), fun _ => ⟨rfl, rfl⟩,
      hv'.trans hv, hk'.trans hk, honly.trans honly'⟩
  · exact ⟨lanesExit s, by rw [exec_exit, if_neg hall], fun l hl => ctr_lanesExit h hl,
      fun hl => absurd (lanesExit_retired h hl) hall, hv, hk, honly⟩

/-- Settles O14. -/
theorem exitYieldSleepNop : Obligations.ExitYieldSleepNop := by
  unfold Obligations.ExitYieldSleepNop
  intro s a g
  have hk : exec (.sleepK a) s = .next (sleepFor s (min ((kget g a.val).toNat % 2 ^ 32) 16777216)) := rfl
  refine ⟨rfl, rfl, exec_exit_gives, fun n hn => ?_, rfl, fun h => ?_, fun h => ?_⟩
  · exact congrArg _ (sleepFor_pos s fun h0 => hn (BitVec.eq_of_toNat_eq h0))
  · rw [hk, h]; rfl
  · rw [hk, sleepFor_pos s (by omega)]

/-! ## Traps and their return (R100 to R102, R117, R343) -/

/-- TRAP of a group that can trap: the issue group takes effect, and the handler returns after it (R100). -/
theorem exec_trap_enters {s : State} {entry : Nat} (h : CanTrap s entry) (code : BitVec 8) :
    exec (.trap code) s = .next { s with issue := { s.issue with
      cur := s.issue.cur.enterTrap 0x30 (code.zeroExtend 64) s.issue.next entry, target := some ⟨entry, 0⟩, endRun := true } } := by
  obtain ⟨hlvl, hentry, hctr⟩ := h
  show execTrap code s = _
  unfold execTrap
  simp only [hentry, hlvl, hctr, Bool.false_or, bne_self_eq_false, Bool.false_eq_true, if_false]
  rfl

theorem exec_unassigned (s : State) (w : Word) : exec (.unassignedOpcode w) s = .next (raiseB s 2 0x02 s.issue.raw.toNat) := rfl
/-- An illegal word of a group that can trap (R50, R102). -/
theorem unassigned_traps {s : State} {entry : Nat} (w : Word) (hc : CanTrap s entry) : Gives (.unassignedOpcode w) s fun s t =>
    TrapTaken s.issue.pre 0x02 (einfoB s.issue.raw.toNat 0 0 s.issue.word) s.issue.pos entry t ∧ OnlyIssue s t :=
  (gives_trapTaken_of_raiseB hc (exec_unassigned s w)).imp fun _ h => h

/-- Settles O15. -/
theorem trapEntry : Obligations.TrapEntry := by
  intro s entry hc
  refine ⟨fun code => ?_, fun code => ⟨_, exec_trap_enters hc code, enterTrap_spec _ _ _ _ _ _ rfl, rfl, rfl⟩,
    fun w => unassigned_traps w hc⟩
  obtain ⟨htrap, honly, -⟩ := raiseAt_spec s 6 0x31 (code.zeroExtend 64) s.issue.pos entry hc
  exact ⟨_, rfl, htrap, honly⟩

section
variable {s : State}

/-- ERET whose counters, call depth and EPC pass their checks (R101). -/
theorem exec_eret_returns (hlvl : s.issue.pre.trap.lvl = true) (hc : s.issue.pre.c = s.issue.pre.dup)
    (hl : ∀ l, l < 32 → ctr s.issue.pre l = 0 ∨ ctr s.issue.pre l = 255) (hd : s.issue.pre.calls.length = s.issue.pre.trap.depth)
    (hw : s.issue.pre.trap.epc.word ≠ 3) (hp : s.issue.pre.trap.epc.pkt < (gridOf s s.issue.pre).codeSize) :
    exec .eret s = .next { s with issue := { s.issue with
      cur := s.issue.cur.leaveTrap, target := some s.issue.pre.trap.epc, noLatch := true } } := by
  have hany : (allLanes.any fun l => ctr s.issue.pre l != 0 && ctr s.issue.pre l != 255) = false := by
    rw [List.any_eq_false]
    intro l hmem
    rcases hl l (List.mem_range.1 hmem) with h | h <;> simp [h]
  show execEret s = _
  unfold execEret
  simp only [hlvl, Bool.not_true, Bool.false_eq_true, if_false]
  rw [compareCtr_equal hc]
  simp only [hany, hd, ne_eq, not_true_eq_false, Bool.false_eq_true, if_false]
  rw [if_neg (by omega)]
  rfl
/-- ERET that fails a check raises the fault of that check at trap level 1 (R101). -/
theorem exec_eret_raises (hlvl : s.issue.pre.trap.lvl = true) (hc : s.issue.pre.c = s.issue.pre.dup)
    (h : (∃ l, l < 32 ∧ ctr s.issue.pre l ≠ 0 ∧ ctr s.issue.pre l ≠ 255) ∨ s.issue.pre.calls.length ≠ s.issue.pre.trap.depth ∨
      s.issue.pre.trap.epc.word = 3 ∨ (gridOf s s.issue.pre).codeSize ≤ s.issue.pre.trap.epc.pkt) :
    ∃ code y, exec .eret s = .next (raiseB s 6 code y) := by
  by_cases hn : (∃ l, l < 32 ∧ ctr s.issue.pre l ≠ 0 ∧ ctr s.issue.pre l ≠ 255) ∨
      s.issue.pre.calls.length ≠ s.issue.pre.trap.depth
  · exact ⟨_, _, exec_eret_nesting hlvl hc hn⟩
  · obtain ⟨hl, hd⟩ := not_or.1 hn
    refine ⟨_, _, exec_eret_bounds hlvl hc (fun l hlt => ?_) (not_not.1 hd) ((h.resolve_left hl).resolve_left hd)⟩
    by_contra hne
    exact hl ⟨l, hlt, not_or.1 hne⟩
/-- A fault at trap level 1 aborts a running grid and changes neither memory nor the trap frame (R343). -/
theorem raiseAt_aborts {gr : Grid} (hlvl : s.issue.pre.trap.lvl = true) (hgr : mget s.grids (gidOf s s.issue.pre) = some gr)
    (hrun : gr.ending = .running) (stage : Nat) (code : Byte) (info : DWord) (rp : Pos) :
    let t := raiseAt s stage code info rp
    (grid t (gidOf s s.issue.pre)).ending = .aborting 0x43 ∧ t.issue.cur.trap = s.issue.pre.trap ∧ t.mem = s.mem := by
  unfold raiseAt
  dsimp only
  rw [if_pos hlvl]
  generalize hv : ({ s with issue := _ } : State) = v
  have hpre : v = { s with issue := v.issue } ∧ v.issue.cur = s.issue.pre := by rw [← hv]; exact ⟨rfl, rfl⟩
  obtain ⟨honly, hcur⟩ := hpre
  have hgid : gidOf v s.issue.pre = gidOf s s.issue.pre := by rw [honly]; rfl
  rw [hgid]
  obtain ⟨⟨grs, ps, gs, os, ws, cs, ds, hframe⟩, hgrid, -⟩ :=
    abortGrid_running (s := v) (k := gidOf s s.issue.pre) 0x43
      (groupRecord v s.issue.pre 0x43 1 (posWord s.issue.pos).toNat info.toNat (s.issue.pre.trap.ecause.toNat + code.toNat * 2 ^ 8))
      (by rw [honly]; exact hgr) hrun
  refine ⟨by rw [grid_of_mget hgrid], ?_, ?_⟩
  · rw [hframe]; exact congrArg Group.trap hcur
  · rw [hframe, honly]

end

/-- Settles O17: the checks of ERET pass, one of them fails, or the group is at trap level 0. -/
theorem trapReturn : Obligations.TrapReturn := by
  intro s g
  refine ⟨fun hlvl hc hl hd hw hp => ⟨_, exec_eret_returns hlvl hc hl hd hw hp, rfl, rfl,
      fun l hl => ctr_setCtr s.issue.cur (fun l x => if x = 255 then 255 else cget 0 s.issue.cur.trap.c l) l hl, rfl, rfl, rfl, rfl, rfl⟩, fun gr hlvl hc hgr hrun h => ?_, fun entry hc => ?_⟩
  · obtain ⟨code, y, he⟩ := exec_eret_raises hlvl hc h
    exact ⟨_, he, raiseAt_aborts hlvl hgr hrun ..⟩
  · have he : exec .eret s = .next (raiseB s 6 0x02 s.issue.raw.toNat) := by
      show execEret s = _
      unfold execEret
      simp only [hc.1, Bool.not_false, if_true]
    obtain ⟨t, hnext, htrap, -⟩ := gives_trapTaken_of_raiseB hc he
    exact ⟨t, hnext, htrap⟩

/-! ## Signatures (R103, R351) -/

/-- Settles O18: each branch of SIGCHK. -/
theorem signatureCheck : Obligations.SignatureCheck := by
  intro s value
  exact ⟨fun hlvl => congrArg _ (if_pos hlvl),
    fun hlvl hsg => congrArg _ ((if_neg (by simp [hlvl])).trans (if_pos hsg)),
    fun hlvl hsg => congrArg _ ((if_neg (by simp [hlvl])).trans (if_neg hsg))⟩

/-! ## KSET and SETIX (R108 to R111) -/

/-- A fault that the trap takes leaves ixb as it was before the issue group. -/
theorem gives_trap_keeps_ixb {s : State} {i : Instr} {stage y entry : Nat} {code : Byte} (hc : CanTrap s entry)
    (h : exec i s = .next (raiseB s stage code y)) : Gives i s fun s t =>
      TrapTaken s.issue.pre code (einfoB y 0 0 s.issue.word) s.issue.pos entry t ∧ t.issue.cur.ixb = s.issue.pre.ixb ∧
        OnlyIssue s t := by
  obtain ⟨t, he, htrap, honly⟩ := gives_trapTaken_of_raiseB hc h
  obtain ⟨-, -, -, -, -, -, hixb, -⟩ := id htrap
  exact ⟨t, he, htrap, hixb, honly⟩
theorem exec_kset_raises {s : State} {r : SReg} {a : Fin 64} (h1 : r ≠ .status) (h2 : r ≠ .seed) (hlvl : s.issue.pre.trap.lvl = false) :
    ∃ stage, exec (.kset r a) s = .next (raiseB s stage 0x02 s.issue.raw.toNat) := by
  by_cases h3 : r = .epc
  · subst h3
    exact ⟨6, congrArg _ (if_neg (Bool.eq_false_iff.1 hlvl))⟩
  · exact ⟨2, exec_kset_illegal h1 h2 h3⟩
theorem setIxb_below {s : State} {n : Nat} (h : n < s.issue.pre.regs) : setIxb s n = modCur s fun g => { g with ixb := n } :=
  if_neg (by omega)

/-- Settles O3. -/
theorem specialRegisterWrites : Obligations.SpecialRegisterWrites := by
  intro s a n x traps
  exact ⟨rfl, rfl, fun hlvl => congrArg _ (if_pos hlvl),
    fun r h1 h2 entry hc => (exec_kset_raises h1 h2 hc.1).elim fun _ h => gives_trap_keeps_ixb hc h,
    fun h => congrArg _ (setIxb_below h), fun h => congrArg _ (setIxb_below h),
    fun h _ hc => gives_trap_keeps_ixb hc (congrArg _ (setIxb_bounds h)),
    fun h _ hc => gives_trap_keeps_ixb hc (congrArg _ (setIxb_bounds h))⟩

end Sys2Proof.Machine
end

section
/-! PROOFS. The structured words, on the counters of every lane (R83 to R86, R93, R94, R347, R350). -/

namespace Sys2Proof.Machine

/-- The counters of every lane become f of what they were; marks of the issue may be set beside (R83). -/
theorem countersBecome_setCtr (s : State) {f g : Nat → Byte → Byte} (h : ∀ l x, g l x = f l x) (ev : List Word) (sg er : Bool)
    (tg : Option Pos) :
    CountersBecome f s { s with issue := { s.issue with
      cur := setCtr s.issue.cur g, events := ev, sgReset := sg, endRun := er, target := tg } } := by
  obtain rfl : g = f := funext fun l => funext fun x => h l x
  exact ⟨fun l hl => ctr_setCtr _ _ _ hl, fun l hl => dup_setCtr _ _ _ hl, rfl⟩
/-- Copies of the counters that differ kill the gang (R350). -/
theorem compareCtr_differ {s : State} {k : State → State} (h : s.issue.pre.c ≠ s.issue.pre.dup) :
    compareCtr s k = { s with issue := { s.issue with kill := some ⟨0x41, s.issue.pos.pkt, false⟩, endRun := true } } :=
  if_neg h
/-- No counter passes 254 (R86). -/
theorem tooDeep_eq_false {g : Group} {n : Nat}
    (h : ¬∃ l, l < 32 ∧ ctr g l ≠ 255 ∧ ctr g l ≠ 0 ∧ 254 < (ctr g l).toNat + n) : tooDeep g n = false := by
  unfold tooDeep
  rw [List.any_eq_false]
  intro l hl
  simp only [bne_iff_ne, Bool.and_eq_true, decide_eq_true_eq]
  rintro ⟨⟨h255, h0⟩, hdeep⟩
  exact h ⟨l, List.mem_range.1 hl, h255, h0, hdeep⟩
/-- IF finds every word that it reads good (R347). -/
theorem ifReadsBad_eq_false_iff (g : Group) (o : Opnd) : ifReadsBad g o = false ↔
    ∀ r ∈ opndRegs g o, ∀ l, l < 32 → ctr g l ≠ 255 → g.vBad.contains (32 * r + l) = false := by
  unfold ifReadsBad isRetired
  simp only [List.any_eq_false, Bool.and_eq_true, Bool.not_eq_true', decide_eq_false_iff_not, not_and, Bool.not_eq_true]
  exact ⟨fun h r hr l hl => h r hr l (List.mem_range.2 hl), fun h r hr l hl => h r hr l (List.mem_range.1 hl)⟩

/-- The counter that IF gives a lane (R93). -/
def ifCounter (g : Group) (o : Opnd) (l : Nat) (x : Byte) : Byte :=
  if x = 255 then x else if x ≠ 0 then x + 1 else if opv g o l = 0 then 1 else x
/-- The state that IF leaves where no counter is too deep: a bad word that it has read is a kill (R93, R347). -/
def ifLeft (s : State) (o : Opnd) : State :=
  modCur (if ifReadsBad s.issue.pre o then poisonKill s 0 false else s) fun c => setCtr c (ifCounter s.issue.pre o)

section
variable {s : State}

theorem ifLeft_clean {o : Opnd} (h : ifReadsBad s.issue.pre o = false) :
    ifLeft s o = modCur s fun c => setCtr c (ifCounter s.issue.pre o) := by
  unfold ifLeft; rw [h]; rfl
theorem ifLeft_bad {o : Opnd} (h : ifReadsBad s.issue.pre o = true) (hk : s.issue.kill = none) :
    ifLeft s o = { s with issue := { s.issue with
      cur := setCtr s.issue.cur (ifCounter s.issue.pre o), kill := some ⟨0x42, 0, false⟩ } } := by
  unfold ifLeft poisonKill; rw [h, hk]; rfl
/-- IF below the limit of nesting, with an operand that can be read (R86, R93). -/
theorem exec_if_enters {o : Opnd} (hr : ∀ r ∈ opndRegs s.issue.pre o, r < s.issue.pre.regs) (he : emptyLatch s.issue.pre.y o = [])
    (hd : tooDeep s.issue.pre 1 = false) :
    exec (.ifL o) s = .next (if badSrcs s.issue.pre [o] = true then poisonKill (ifLeft s o) 0 false else ifLeft s o) := by
  have hcheck : checkRegs s (namedRegs s.issue.pre [o] []) [o] = none := by
    refine checkRegs_pass (fun r hmem => hr r ?_) (by simp [he])
    simpa [namedRegs] using hmem
  show execIfL o s = _
  unfold execIfL withRegs
  simp only [hcheck, hd, Bool.false_eq_true, if_false]
  rfl
theorem exec_if_clean {o : Opnd} (ho : OperandsOk s [o] .discard) (hc : ifReadsBad s.issue.pre o = false)
    (hd : tooDeep s.issue.pre 1 = false) :
    exec (.ifL o) s = .next (modCur s fun c => setCtr c (ifCounter s.issue.pre o)) := by
  obtain ⟨hregs, hempty, hbad⟩ := ho
  rw [exec_if_enters (fun r hr => hregs r (by simpa [namedRegs] using .inl hr)) (hempty o (List.mem_singleton.2 rfl)) hd, hbad,
    ifLeft_clean hc]
  rfl
theorem exec_if_bad {o : Opnd} (hr : ∀ r ∈ opndRegs s.issue.pre o, r < s.issue.pre.regs) (he : emptyLatch s.issue.pre.y o = [])
    (hb : ifReadsBad s.issue.pre o = true) (hd : tooDeep s.issue.pre 1 = false) (hk : s.issue.kill = none) :
    exec (.ifL o) s = .next { s with issue := { s.issue with
      cur := setCtr s.issue.cur (ifCounter s.issue.pre o), kill := some ⟨0x42, 0, false⟩ } } := by
  rw [exec_if_enters hr he hd, ifLeft_bad hb hk, ite_poisonKill_some _ _ rfl]

/-- Where no kill was raised before, the kill is all that a bad operand adds to what IF does. -/
theorem countersBecome_killCleared (hk : s.issue.kill = none) {f g : Nat → Byte → Byte} (h : ∀ l x, g l x = f l x) :
    CountersBecome f s { s with issue := { s.issue with cur := setCtr s.issue.cur g, kill := none } } := by
  have hkeep := countersBecome_setCtr s h s.issue.events s.issue.sgReset s.issue.endRun s.issue.target
  rw [← hk]
  exact hkeep
theorem exec_else_equal (h : s.issue.pre.c = s.issue.pre.dup) : exec .elseL s =
    .next (hashEvent (modCur s fun c => setCtr c fun _ x => if x = 0 then 1 else if x = 1 then 0 else x) 0xE0000001) :=
  congrArg _ (compareCtr_equal h)
theorem exec_endif_equal (h : s.issue.pre.c = s.issue.pre.dup) : exec .endifL s =
    .next (hashEvent (modCur s fun c => setCtr c fun _ x => if x = 255 ∨ x = 0 then x else x - 1) 0xE0000002) :=
  congrArg _ (compareCtr_equal h)
theorem exec_loop_enters (h : tooDeep s.issue.pre 2 = false) : exec .loopL s =
    .next (resetSg (modCur s fun c => setCtr c fun _ x => if x = 255 ∨ x = 0 then x else x + 2)) :=
  congrArg _ (if_neg (Bool.eq_false_iff.1 h))
/-- BREAK and CONT with an operand that can be read (R94). -/
theorem leaveLoop_readable {o : Opnd} (h : OperandsOk s [o] .discard) (n : Byte) : leaveLoop s o n =
    modCur s fun c => setCtr c fun l x => if isActive s.issue.pre l && opv s.issue.pre o l != 0 then n else x := by
  unfold leaveLoop
  exact withRegs_ok h
theorem leaveLoop_counters {o : Opnd} (h : OperandsOk s [o] .discard) (n : Byte) :
    CountersBecome (fun l x => if isActive s.issue.pre l = true ∧ opv s.issue.pre o l ≠ 0 then n else x) s (leaveLoop s o n) := by
  rw [leaveLoop_readable h]
  exact countersBecome_setCtr s (fun l x => by simp only [Bool.and_eq_true, bne_iff_ne]) ..

/-- ENDLOOP while a lane is left in the loop (R94). -/
theorem exec_endloop_again {o : BitVec 20} (hc : s.issue.pre.c = s.issue.pre.dup)
    (hl : ∃ l, l < 32 ∧ (ctr s.issue.pre l = 0 ∨ ctr s.issue.pre l = 1)) (h : InCode s (s.issue.pos.pkt + o.toInt)) :
    exec (.endloop o) s = .next (hashEvent (modCur (landed s ⟨(s.issue.pos.pkt + o.toInt).toNat, 0⟩)
      fun c => setCtr c fun _ x => if x = 1 then 0 else x) 0xE0000004) := by
  show execEndloop o s = _
  unfold execEndloop
  rw [compareCtr_equal hc]
  dsimp only
  rw [if_neg (activeLanes_after_endloop hl), relTarget_eq, takeBranch_spec _ _ _ h]
/-- No lane of a group is left in the loop. -/
theorem activeLanes_after_endloop_nil {g : Group} (h : ∀ l, l < 32 → ctr g l ≠ 0 ∧ ctr g l ≠ 1) :
    activeLanes (setCtr g fun _ x => if x = 1 then 0 else x) = [] := by
  refine (activeLanes_nil_iff _).2 fun l hl => decide_eq_false ?_
  obtain ⟨h0, h1⟩ := h l hl
  rw [ctr_setCtr _ _ _ hl, if_neg h1]
  exact h0
/-- ENDLOOP when no lane is left in the loop (R94). -/
theorem exec_endloop_leaves {o : BitVec 20} (hc : s.issue.pre.c = s.issue.pre.dup)
    (hl : ∀ l, l < 32 → ctr s.issue.pre l ≠ 0 ∧ ctr s.issue.pre l ≠ 1) :
    exec (.endloop o) s = .next (hashEvent (modCur s fun c => setCtr c fun _ x =>
      if x = 255 then x else if x = 1 then 0 else if x = 2 then 0 else if 2 < x.toNat then x - 2 else x) 0xE0000003) := by
  show execEndloop o s = _
  unfold execEndloop
  rw [compareCtr_equal hc]
  dsimp only
  rw [if_pos (activeLanes_after_endloop_nil hl)]
/-- ENDLOOP's counters in either order of the cases 1, 2 and above (R94). -/
theorem endloop_counter (x : Byte) :
    (if x = 255 then x else if x = 1 then 0 else if x = 2 then 0 else if 2 < x.toNat then x - 2 else x) =
      if x = 255 then 255 else if x = 2 then 0 else if 2 < x.toNat then x - 2 else if x = 1 then 0 else x := by
  by_cases h : x = 1
  · subst h; rfl
  · simp only [h, if_false]
    split <;> simp_all

/-- The words that compare the two copies of the counters (R350). -/
theorem exec_compares {i : Instr} {k : State → State} (h : exec i s = .next (compareCtr s k)) (hd : s.issue.pre.c ≠ s.issue.pre.dup) :
    exec i s = .next { s with issue := { s.issue with kill := some ⟨0x41, s.issue.pos.pkt, false⟩, endRun := true } } := by
  rw [h, compareCtr_differ hd]
theorem exec_eret_differ (hlvl : s.issue.pre.trap.lvl = true) (hd : s.issue.pre.c ≠ s.issue.pre.dup) :
    exec .eret s = .next { s with issue := { s.issue with kill := some ⟨0x41, s.issue.pos.pkt, false⟩, endRun := true } } := by
  show execEret s = _
  unfold execEret
  simp only [hlvl, Bool.not_true, Bool.false_eq_true, if_false]
  rw [compareCtr_differ hd]
/-- IF past the limit of nesting takes the trap, whatever poisoned word it has read (R86, R347). -/
theorem if_deep_traps {o : Opnd} {entry : Nat} (ho : OperandsOk s [o] .discard)
    (h : ∃ l, l < 32 ∧ ctr s.issue.pre l ≠ 255 ∧ ctr s.issue.pre l ≠ 0 ∧ 254 < (ctr s.issue.pre l).toNat + 1) (hc : CanTrap s entry) :
    Gives (.ifL o) s fun s t => TrapTaken s.issue.pre 0x07 (einfoB 0 0 0 s.issue.word) s.issue.pos entry t ∧ OnlyIssue s t := by
  obtain ⟨u, ⟨honly, hpre, hpos, hword⟩, he⟩ := exec_if_deep ho h
  have hgrid : gridOf u u.issue.pre = gridOf s s.issue.pre := by rw [hpre, honly]; rfl
  have hcu : CanTrap u entry := by unfold CanTrap; rw [hgrid, hpre]; exact hc
  obtain ⟨htrap, hrest, -⟩ := raiseAt_spec u 6 0x07 (einfoB 0 0 0 u.issue.word) u.issue.pos entry hcu
  refine ⟨_, he, ?_, honly.trans hrest⟩
  rw [← hpre, ← hpos, ← hword]
  exact htrap

end

/-- Settles O13: each word by its equation, case by case of what the counters and the operand are. -/
theorem maskWords : Obligations.MaskWords := by
  unfold Obligations.MaskWords
  intro s o depth g past clean entered traps kills
  have hif (l : Nat) (x : Byte) : ifCounter g o l x = entered l x := by
    show (if x = 255 then x else if x ≠ 0 then x + 1 else if opv g o l = 0 then 1 else x) =
      if x = 255 then 255 else if x ≠ 0 then x + 1 else if opv g o l = 0 then 1 else 0
    split
    · assumption
    · split
      · rfl
      case isFalse h => rw [not_not.1 h]
  have hclean : clean ↔ ifReadsBad g o = false := (ifReadsBad_eq_false_iff g o).symm
  refine ⟨fun ho h _ hc => if_deep_traps ho h hc, fun h _ hc => gives_trapTaken_of_raiseB hc (exec_loop_deep h),
    fun off hl hout _ hc => gives_trapTaken_of_raiseB hc (exec_endloop_far hc.2.2 hl hout),
    exec_compares rfl, exec_compares rfl, fun _ => exec_compares rfl, exec_compares rfl, fun hlvl => exec_eret_differ hlvl,
    fun ho hcl hd => ⟨_, exec_if_clean ho (hclean.1 hcl) (tooDeep_eq_false hd), countersBecome_setCtr s hif ..⟩,
    fun hr he hcl hd hk => ?_,
    fun hc => ⟨⟨_, exec_else_equal hc, countersBecome_setCtr s (fun _ _ => rfl) ..⟩,
      _, exec_endif_equal hc, countersBecome_setCtr s (fun _ _ => rfl) ..⟩,
    fun hd => ⟨_, exec_loop_enters (tooDeep_eq_false hd), countersBecome_setCtr s (fun _ _ => rfl) ..⟩,
    fun ho => ⟨⟨_, rfl, leaveLoop_counters ho _⟩, _, rfl, leaveLoop_counters ho _⟩,
    fun off hc hl hin => ⟨_, exec_endloop_again hc hl hin, countersBecome_setCtr s (fun _ _ => rfl) .., rfl⟩,
    fun off hc hl => ⟨_, exec_endloop_leaves hc hl, countersBecome_setCtr s (fun _ x => endloop_counter x) .., rfl⟩⟩
  have hbad : ifReadsBad g o = true := by rw [← Bool.not_eq_false, ← hclean]; exact hcl
  refine ⟨_, exec_if_bad hr he hbad (tooDeep_eq_false hd) hk, rfl, countersBecome_killCleared hk hif⟩

end Sys2Proof.Machine
end

section
/-! PROOFS. The uniform arithmetic words (R104 to R106). -/

namespace Sys2Proof.Machine

theorem gives_kwritten {s : State} {i : Instr} {d : Fin 64} {x : DWord} (h : exec i s = .next (kwrite s d x)) :
    Gives i s (KWritten d x) := ⟨_, h, kwrite_spec s d x⟩

/-! ## What the words compute, in the words of R106 -/

theorem kshlVal_eq : kshlVal = fun x y => if y.toNat < 64 then x <<< y.toNat else 0 := by
  funext x y
  unfold kshlVal
  by_cases h : y.toNat < 64
  · rw [if_neg (by omega), if_pos h]
  · rw [if_pos (by omega), if_neg h]
theorem kshrVal_eq : kshrVal = fun x y => if y.toNat < 64 then x >>> y.toNat else 0 := by
  funext x y
  unfold kshrVal
  by_cases h : y.toNat < 64
  · rw [if_neg (by omega), if_pos h]
  · rw [if_pos (by omega), if_neg h]
theorem dlt_iff (sg : Bool) (x y : DWord) : dlt sg x y = true ↔ if sg then x.toInt < y.toInt else x.toNat < y.toNat := by
  cases sg
  · exact BitVec.ult_iff_toNat_lt ..
  · exact BitVec.slt_iff_toInt_lt ..
/-- The relation that a comparison asks for (R106). -/
theorem kcmpHolds_iff (cc : Cc) (x y : DWord) : kcmpHolds cc x y = true ↔ match cc with
    | .eq => x = y | .ne => x ≠ y
    | .ltI => x.toInt < y.toInt | .leI => x.toInt ≤ y.toInt | .gtI => y.toInt < x.toInt | .geI => y.toInt ≤ x.toInt
    | .ltN => x.toNat < y.toNat | .leN => x.toNat ≤ y.toNat | .gtN => y.toNat < x.toNat | .geN => y.toNat ≤ x.toNat := by
  cases cc
  · exact beq_iff_eq
  · exact bne_iff_ne
  · exact BitVec.slt_iff_toInt_lt ..
  · exact BitVec.sle_iff_toInt_le ..
  · exact BitVec.slt_iff_toInt_lt ..
  · exact BitVec.sle_iff_toInt_le ..
  · exact BitVec.ult_iff_toNat_lt ..
  · exact BitVec.ule_iff_toNat_le ..
  · exact BitVec.ult_iff_toNat_lt ..
  · exact BitVec.ule_iff_toNat_le ..
theorem popc_eq (n : Nat) (x : DWord) : popc n x.toNat = ((List.range n).filter fun i => x.getLsbD i).length := by
  have : bit x.toNat = fun i => x.getLsbD i := by
    funext i
    unfold bit
    rw [BitVec.getLsbD, Nat.testBit_eq_decide_div_mod_eq]
  unfold popc
  rw [this]
/-- The number that a field of w bits spells in two's complement, balanced about 0 (R13). -/
theorem sextInt_eq_bmod {w : Nat} (hw : 0 < w) (n : Nat) : sextInt w (n % 2 ^ w) = Int.bmod n (2 ^ w) := by
  obtain ⟨k, rfl⟩ := Nat.exists_eq_add_of_lt hw
  unfold sextInt Int.bmod
  have h2 : 2 ^ (0 + k + 1) = 2 * 2 ^ k := by rw [Nat.zero_add, Nat.pow_succ, Nat.mul_comm]
  simp only [Nat.mod_mod, Nat.zero_add, Nat.add_sub_cancel] at h2 ⊢
  rw [h2]
  generalize 2 ^ k = p
  split <;> split <;> omega
theorem kbfeVal_eq (sg : Bool) : kbfeVal sg = fun x y =>
    let pos := y.toNat % 64
    let w := min (y.toNat / 64 % 64 + 1) (64 - pos)
    if sg then BitVec.ofInt 64 (Int.bmod (x.toNat / 2 ^ pos) (2 ^ w)) else BitVec.ofNat 64 (x.toNat / 2 ^ pos % 2 ^ w) := by
  funext x y
  unfold kbfeVal
  dsimp only
  rw [sextInt_eq_bmod (by omega)]
  norm_cast

/-! ## Words of majors 0x01 and 0x02 that are illegal (R105, R106) -/

theorem decode_error {w lit : Nat} {r : Reject} (h : decodeFields w lit = .error r) : decode w lit = .error r := by
  unfold decode
  rw [h]
/-- KMOV and KPOPC reserve their L bit and KB (R106). -/
theorem decodeFields_kmov_reserved {w fn : Nat} (hfn : fn = 33 ∨ fn = 34) (hmajor : field w 25 6 = 1) (hf : field w 0 6 = fn)
    (h : ¬(field w 24 1 = 0 ∧ field w 6 6 = 0)) (lit : Nat) : decodeFields w lit = .error .reservedField := by
  have hbad : (decide (field w 24 1 = 0) && decide (field w 6 6 = 0)) = false := by simpa using h
  unfold decodeFields decodeKReg
  rw [hmajor, hf]
  rcases hfn with rfl | rfl
  · show reserved _ _ = _
    rw [hbad]
    rfl
  · show reserved _ _ = _
    rw [hbad]
    rfl
/-- The fields of a word of the register layout (R57). -/
theorem kreg_fields {d a : Fin 64} {fn kb l : Nat} (hfn : fn < 64) (hkb : kb < 64) (hl : l < 2) :
    let w := 0x02000000 + l * 2 ^ 24 + d.val * 2 ^ 18 + a.val * 2 ^ 12 + kb * 2 ^ 6 + fn
    field w 25 6 = 1 ∧ field w 24 1 = l ∧ field w 6 6 = kb ∧ field w 0 6 = fn := by
  unfold field
  omega
/-- KMOV and KPOPC with a KB or a literal have a reserved field that is not zero (R53, R106). -/
theorem decode_kmov_reserved {d a : Fin 64} {fn kb l : Nat} (hfn : fn = 33 ∨ fn = 34) (hkb : kb < 64) (hl : l < 2)
    (h : ¬(kb = 0 ∧ l = 0)) (lit : Nat) :
    decode (0x02000000 + l * 2 ^ 24 + d.val * 2 ^ 18 + a.val * 2 ^ 12 + kb * 2 ^ 6 + fn) lit = .error .reservedField := by
  obtain ⟨hmajor, hL, hKB, hF⟩ := kreg_fields (d := d) (a := a) (show fn < 64 by omega) hkb hl
  have hne : ¬(field (0x02000000 + l * 2 ^ 24 + d.val * 2 ^ 18 + a.val * 2 ^ 12 + kb * 2 ^ 6 + fn) 24 1 = 0 ∧
      field (0x02000000 + l * 2 ^ 24 + d.val * 2 ^ 18 + a.val * 2 ^ 12 + kb * 2 ^ 6 + fn) 6 6 = 0) := by
    rw [hL, hKB]
    exact fun hz => h ⟨hz.2, hz.1⟩
  exact decode_error (decodeFields_kmov_reserved hfn hmajor hF hne lit)
/-- The immediate layout assigns none of the function values of KSEL, KMOV and KPOPC (R67). -/
theorem decode_kimm_unassigned {d : Fin 64} {i : BitVec 12} {fn : Nat} (h1 : 32 ≤ fn) (h2 : fn ≤ 34) :
    decode (0x04000000 + d.val * 2 ^ 18 + fn * 2 ^ 12 + i.toNat) 0 =
      .ok (.unassignedOpcode (BitVec.ofNat 32 (0x04000000 + d.val * 2 ^ 18 + fn * 2 ^ 12 + i.toNat))) := by
  have hi := i.isLt
  generalize hw : 0x04000000 + d.val * 2 ^ 18 + fn * 2 ^ 12 + i.toNat = w
  have hmajor : field w 25 6 = 2 := by unfold field; omega
  have hF : field w 12 6 = fn := by unfold field; omega
  have hfields : decodeFields w 0 = .ok (.unassignedOpcode (BitVec.ofNat 32 w)) := by
    unfold decodeFields decodeKImm
    rw [hmajor, hF]
    obtain rfl | rfl | rfl : fn = 32 ∨ fn = 33 ∨ fn = 34 := by omega
    all_goals rfl
  unfold decode
  rw [hfields]
  rfl

/-- Settles O1: each word writes what its function gives of the operands of either layout; the illegal words by the decoder. -/
theorem uniformWords : Obligations.UniformWords := by
  unfold Obligations.UniformWords
  intro s d a b i A B both less holds
  have words {r m : Instr} (f : DWord → DWord → DWord) (hr : exec r s = kop s d a b f) (hm : exec m s = kopImm s d i f) : both r m f :=
    ⟨gives_kwritten hr, gives_kwritten hm⟩
  have compares (cc : Cc) : both (.kcmp cc d a b) (.kcmpImm cc d i) fun x y => boolD (kcmpHolds cc x y) :=
    ⟨gives_kwritten rfl, gives_kwritten rfl⟩
  refine ⟨words _ rfl rfl, words _ rfl rfl, words _ rfl rfl, words (kmulhVal true) rfl rfl, words (kmulhVal false) rfl rfl, words _ rfl rfl, words _ rfl rfl,
    words _ rfl rfl, kshlVal_eq ▸ words kshlVal rfl rfl, kshrVal_eq ▸ words kshrVal rfl rfl, words ksraVal rfl rfl,
    fun sg => ⟨_, words (kminVal sg) rfl rfl, fun x y => ?_⟩, fun sg => ⟨_, words (kmaxVal sg) rfl rfl, fun x y => ?_⟩,
    fun cc => ⟨fun x y => boolD (kcmpHolds cc x y), compares cc, fun x y => ?_⟩,
    gives_kwritten rfl, gives_kwritten rfl, popc_eq 64 A ▸ gives_kwritten rfl, fun sg => kbfeVal_eq sg ▸ words (kbfeVal sg) rfl rfl,
    fun fn kb l hfn hkb hl h lit => decode_kmov_reserved hfn hkb hl h lit,
    fun fn h1 h2 => ⟨decode_kimm_unassigned h1 h2, fun _ hc => unassigned_traps _ hc⟩⟩
  · exact ⟨fun h => if_pos ((dlt_iff ..).2 h), fun h => if_neg fun hd => h ((dlt_iff ..).1 hd)⟩
  · exact ⟨fun h => if_pos ((dlt_iff ..).2 h), fun h => if_neg fun hd => h ((dlt_iff ..).1 hd)⟩
  · have hcc : kcmpHolds cc x y = true ↔ holds cc x y := kcmpHolds_iff cc x y
    exact ⟨fun h => if_pos (hcc.2 h), fun h => if_neg fun hd => h (hcc.1 hd)⟩

end Sys2Proof.Machine
end

section
/-! PROOFS. The one rounding of floating point (R120, R123 to R125): what roundTo gives is the pattern and the flags that Rounded
describes. -/

namespace Sys2Proof.Machine

/-! ## Steps of a magnitude -/

theorem zpow_toNat {n : ℤ} (h : 0 ≤ n) : (2 : ℚ) ^ n.toNat = 2 ^ n := by
  rw [← zpow_natCast, Int.toNat_of_nonneg h]
/-- A magnitude in steps that are no finer than it is: a whole number of them. -/
theorem steps_whole (man : Nat) {exp q : ℤ} (h : q ≤ exp) :
    (man : ℚ) * 2 ^ exp / 2 ^ q = ((man * 2 ^ (exp - q).toNat : Nat) : ℚ) := by
  push_cast
  rw [zpow_toNat (by omega), zpow_sub₀ (by norm_num), mul_div_assoc]
/-- A magnitude in coarser steps. -/
theorem steps_parts (man : Nat) {exp q : ℤ} (h : exp ≤ q) :
    (man : ℚ) * 2 ^ exp / 2 ^ q = (man : ℚ) / ((2 ^ (q - exp).toNat : Nat) : ℚ) := by
  push_cast
  rw [zpow_toNat (by omega), zpow_sub₀ (by norm_num), div_div_eq_mul_div]

theorem bne_zero_eq (n : Nat) : (n != 0) = decide (n ≠ 0) := by cases n <;> rfl

/-- The last step up, by the whole steps n and the rest f of one (R123, R125). -/
def roundsUp (mode : RMode) (rnd : Nat) (neg : Bool) (n : Nat) (f : ℚ) : Bool :=
  match mode with
  | .rne => decide (1 / 2 < f) || (decide (f = 1 / 2) && decide (n % 2 = 1))
  | .rz => false
  | .rd => neg && decide (f ≠ 0)
  | .ru => !neg && decide (f ≠ 0)
  | .rs => decide (2 ^ 32 ≤ ⌊f * 2 ^ 32⌋₊ + rnd)
theorem stepsOf_eq (mode : RMode) (rnd : Nat) (neg : Bool) (v : ℚ) (q : ℤ) : stepsOf mode rnd neg v q =
    if roundsUp mode rnd neg ⌊v / 2 ^ q⌋₊ (v / 2 ^ q - ⌊v / 2 ^ q⌋₊) = true then ⌊v / 2 ^ q⌋₊ + 1 else ⌊v / 2 ^ q⌋₊ := by
  cases mode <;> rfl
/-- A whole number of steps stays. -/
theorem roundsUp_zero {mode : RMode} {rnd : Nat} (hrnd : rnd < 2 ^ 32) (neg : Bool) (n : Nat) : roundsUp mode rnd neg n 0 = false := by
  cases mode
  case rs => simpa [roundsUp] using hrnd
  all_goals simp [roundsUp]
/-- The last step up as the model has it, by the whole steps n and r of the d parts of one. -/
def partsUp (mode : RMode) (rnd : Nat) (neg : Bool) (n r d : Nat) : Bool :=
  match mode with
  | .rne => decide (d < 2 * r) || (decide (2 * r = d) && decide (n % 2 = 1))
  | .rz => false
  | .rd => neg && r != 0
  | .ru => !neg && r != 0
  | .rs => decide (2 ^ 32 ≤ r * 2 ^ 32 / d + rnd)
theorem roundSteps_coarse (mode : RMode) (rnd : Nat) (neg : Bool) (man : Nat) {exp q : ℤ} (h : ¬q ≤ exp) :
    let d := 2 ^ (q - exp).toNat
    roundSteps mode rnd neg man exp q =
      (if partsUp mode rnd neg (man / d) (man % d) d = true then man / d + 1 else man / d, man % d != 0) := by
  cases mode <;> exact if_neg h
theorem partsUp_eq (mode : RMode) (rnd : Nat) (neg : Bool) (n r : Nat) {d : Nat} (hd : 0 < d) :
    partsUp mode rnd neg n r d = roundsUp mode rnd neg n ((r : ℚ) / d) := by
  have hd' : (0 : ℚ) < d := by exact_mod_cast hd
  have hne : ((r : ℚ) / d ≠ 0) ↔ r ≠ 0 := by simp [hd.ne']
  cases mode
  case rz => rfl
  case rd | ru => simp only [partsUp, roundsUp, hne, bne_zero_eq]
  case rne =>
    have h1 : 1 / 2 < (r : ℚ) / d ↔ d < 2 * r := by
      rw [div_lt_div_iff₀ (by norm_num) hd', one_mul, mul_comm]
      exact_mod_cast Iff.rfl
    have h2 : (r : ℚ) / d = 1 / 2 ↔ 2 * r = d := by
      rw [div_eq_div_iff hd'.ne' (by norm_num), one_mul, mul_comm]
      exact_mod_cast Iff.rfl
    simp only [partsUp, roundsUp, h1, h2]
  case rs =>
    have h1 : (r : ℚ) / d * 2 ^ 32 = ((r * 2 ^ 32 : Nat) : ℚ) / (d : ℚ) := by push_cast; ring
    simp only [partsUp, roundsUp, h1, Nat.floor_div_eq_div]

/-- The number of steps, and whether anything was lost (R123, R125). -/
theorem roundSteps_spec (mode : RMode) {rnd : Nat} (hrnd : rnd < 2 ^ 32) (neg : Bool) (man : Nat) (exp q : ℤ) :
    roundSteps mode rnd neg man exp q = (stepsOf mode rnd neg (man * 2 ^ exp) q,
      decide ((stepsOf mode rnd neg (man * 2 ^ exp) q : ℚ) * 2 ^ q ≠ man * 2 ^ exp)) := by
  have hq : (2 : ℚ) ^ q ≠ 0 := by positivity
  by_cases h : q ≤ exp
  · have hsteps : stepsOf mode rnd neg (man * 2 ^ exp) q = man * 2 ^ (exp - q).toNat := by
      rw [stepsOf_eq, steps_whole man h, Nat.floor_natCast, sub_self, roundsUp_zero hrnd]
      rfl
    have hexact : ((man * 2 ^ (exp - q).toNat : Nat) : ℚ) * 2 ^ q = man * 2 ^ exp := by
      rw [← steps_whole man h, div_mul_cancel₀ _ hq]
    rw [hsteps, hexact]
    unfold roundSteps
    simp [h]
  · have hd : 0 < 2 ^ (q - exp).toNat := by positivity
    generalize hdd : 2 ^ (q - exp).toNat = d at hd
    have hparts : (man : ℚ) * 2 ^ exp / 2 ^ q = (man : ℚ) / (d : ℚ) := by rw [steps_parts man (by omega), hdd]
    have hfloor : ⌊(man : ℚ) / (d : ℚ)⌋₊ = man / d := Nat.floor_div_eq_div ..
    have hd' : (d : ℚ) ≠ 0 := by exact_mod_cast hd.ne'
    have hrest : (man : ℚ) / d - ((man / d : Nat) : ℚ) = ((man % d : Nat) : ℚ) / d := by
      rw [eq_div_iff hd', sub_mul, div_mul_cancel₀ _ hd', sub_eq_iff_eq_add]
      exact_mod_cast (Nat.mod_add_div' man d).symm
    have hsteps : stepsOf mode rnd neg (man * 2 ^ exp) q =
        if roundsUp mode rnd neg (man / d) (((man % d : Nat) : ℚ) / d) = true then man / d + 1 else man / d := by
      rw [stepsOf_eq, hparts, hfloor, hrest]
    have hlost : ((stepsOf mode rnd neg (man * 2 ^ exp) q : ℚ) * 2 ^ q ≠ man * 2 ^ exp) ↔ man % d ≠ 0 := by
      rw [not_iff_not, ← eq_div_iff hq, hparts, eq_div_iff hd', hsteps]
      have hman := Nat.mod_add_div' man d
      have hlt := Nat.mod_lt man hd
      have hcast (x : Nat) : (x : ℚ) * d = man ↔ x * d = man := by norm_cast
      rw [hcast]
      by_cases hr : man % d = 0
      · rw [hr, zero_add] at hman
        rw [hr, Nat.cast_zero, zero_div, roundsUp_zero hrnd]
        exact ⟨fun _ => rfl, fun _ => hman⟩
      · refine ⟨fun he => absurd he ?_, fun h0 => absurd h0 hr⟩
        generalize hx : man / d * d = x at hman
        split
        · rw [Nat.add_mul]; omega
        · omega
    rw [decide_eq_decide.2 hlost, hsteps, roundSteps_coarse _ _ _ _ h, hdd, bne_zero_eq, partsUp_eq _ _ _ _ _ hd]

/-! ## Patterns (R120) -/

/-- Where a magnitude lies between powers of two. -/
theorem log_eq_of_bounds {v : ℚ} {k : ℤ} (h1 : 2 ^ k ≤ v) (h2 : v < 2 ^ (k + 1)) : Int.log 2 v = k := by
  have hv : 0 < v := lt_of_lt_of_le (by positivity) h1
  have hle : k ≤ Int.log 2 v := (Int.zpow_le_iff_le_log (b := 2) (by norm_num) hv).1 (by exact_mod_cast h1)
  have hlt : Int.log 2 v < k + 1 := (Int.lt_zpow_iff_log_lt (b := 2) (by norm_num) hv).1 (by exact_mod_cast h2)
  omega
/-- The exponent of a magnitude. -/
theorem log_magnitude {man : Nat} (h : man ≠ 0) (exp : ℤ) : Int.log 2 ((man : ℚ) * 2 ^ exp) = man.log2 + exp := by
  have hlow : (2 : ℚ) ^ (man.log2 : ℤ) ≤ man := by exact_mod_cast Nat.log2_self_le h
  have hhigh : (man : ℚ) < 2 ^ ((man.log2 : ℤ) + 1) := by exact_mod_cast (Nat.lt_log2_self (n := man))
  refine log_eq_of_bounds ?_ ?_
  · rw [zpow_add₀ (by norm_num)]
    exact mul_le_mul_of_nonneg_right hlow (by positivity)
  · rw [show (man.log2 : ℤ) + exp + 1 = (man.log2 + 1) + exp by ring, zpow_add₀ (by norm_num)]
    exact mul_lt_mul_of_pos_right hhigh (by positivity)

/-- The fields of a pattern without a sign, and of the same with one. -/
theorem fpFields_signed (t : FTy) (neg : Bool) {b : Nat} (h : b < 2 ^ (FTy.ebits t + FTy.mbits t)) :
    fpNeg t (fpSigned t neg b) = neg ∧ fpExpField t (fpSigned t neg b) = b / 2 ^ FTy.mbits t ∧
      fpFrac t (fpSigned t neg b) = b % 2 ^ FTy.mbits t := by
  have hp : 2 ^ (FTy.ebits t + FTy.mbits t) = 2 ^ FTy.ebits t * 2 ^ FTy.mbits t := Nat.pow_add ..
  have hlt : b / 2 ^ FTy.mbits t < 2 ^ FTy.ebits t := by rw [Nat.div_lt_iff_lt_mul (by positivity), ← hp]; exact h
  unfold fpNeg fpExpField fpFrac fpSigned
  cases neg
  · simp only [Bool.false_eq_true, if_false, Nat.div_eq_of_lt h, Nat.mod_eq_of_lt hlt]
    simp
  · simp only [if_true]
    refine ⟨?_, ?_, ?_⟩
    · rw [Nat.add_div_right _ (by positivity), Nat.div_eq_of_lt h]
      rfl
    · rw [hp, Nat.add_mul_div_right _ _ (by positivity), Nat.add_mod_right, Nat.mod_eq_of_lt hlt]
    · rw [hp, Nat.add_mul_mod_self_right]
theorem fpMag_signed (t : FTy) (neg : Bool) {b : Nat} (h : b < 2 ^ (FTy.ebits t + FTy.mbits t)) :
    fpMag t (fpSigned t neg b) = fpMag t b := by
  obtain ⟨-, he, hf⟩ := fpFields_signed t neg h
  obtain ⟨-, he', hf'⟩ := fpFields_signed t false h
  have hb : fpSigned t false b = b := rfl
  rw [hb] at he' hf'
  unfold fpMag
  rw [he, hf, he', hf']
/-- The largest finite pattern is below the sign. -/
theorem fpLargest_lt (t : FTy) : fpLargest t < 2 ^ (FTy.ebits t + FTy.mbits t) := by cases t <;> decide
theorem fpLargest_eq (t : FTy) : fpLargest t = FTy.maxBits t := by cases t <;> rfl
theorem expField_of_le_largest {t : FTy} (ht : t ≠ .f8a) {b : Nat} (h : b ≤ fpLargest t) :
    b / 2 ^ FTy.mbits t < 2 ^ FTy.ebits t - 1 := by
  rw [Nat.div_lt_iff_lt_mul (by positivity)]
  refine h.trans_lt ?_
  cases t
  case f8a => exact absurd rfl ht
  all_goals decide
/-- A pattern up to the largest finite one is finite. -/
theorem finite_of_le_largest (t : FTy) (neg : Bool) {b : Nat} (h : b ≤ fpLargest t) :
    fpNan t (fpSigned t neg b) = false ∧ fpInf t (fpSigned t neg b) = false := by
  obtain ⟨-, he, hf⟩ := fpFields_signed t neg (h.trans_lt (fpLargest_lt t))
  unfold fpNan fpInf
  rw [he, hf]
  by_cases ht : t = .f8a
  · subst ht
    have hb : ¬(b / 8 = 15 ∧ b % 8 = 7) := by
      have h : b ≤ 126 := h
      omega
    refine ⟨?_, rfl⟩
    show (decide (b / 8 = 15) && decide (b % 8 = 7)) = false
    rwa [Bool.and_eq_false_iff, decide_eq_false_iff_not, decide_eq_false_iff_not, ← not_and_or]
  · have := (expField_of_le_largest ht h).ne
    simp [this]

/-- n steps of 2 ^ (E − M − bias), M the fraction's width, E the exponent field of a pattern with 2 ^ M ≤ n. -/
theorem fpMag_steps (t : FTy) {E n : Nat} (hE : 1 ≤ E) (hlow : E = 1 ∨ 2 ^ FTy.mbits t ≤ n) (hhigh : n ≤ 2 * 2 ^ FTy.mbits t)
    (h : (E - 1) * 2 ^ FTy.mbits t + n < 2 ^ (FTy.ebits t + FTy.mbits t)) :
    fpMag t ((E - 1) * 2 ^ FTy.mbits t + n) = n * 2 ^ ((E : ℤ) - FTy.mbits t - FTy.bias t) := by
  obtain ⟨-, he, hf⟩ := fpFields_signed t false h
  have hb : fpSigned t false ((E - 1) * 2 ^ FTy.mbits t + n) = (E - 1) * 2 ^ FTy.mbits t + n := rfl
  rw [hb] at he hf
  have hP : (2 : ℚ) ^ FTy.mbits t = 2 ^ (FTy.mbits t : ℤ) := (zpow_natCast ..).symm
  obtain ⟨e, rfl⟩ := Nat.exists_eq_add_of_le' hE
  rw [Nat.add_sub_cancel] at he hf ⊢
  unfold fpMag
  rw [he, hf, Nat.add_comm _ n, Nat.add_mul_div_right _ _ (by positivity), Nat.add_mul_mod_self_right, hP]
  have hPpos : (0 : ℚ) < 2 ^ (FTy.mbits t : ℤ) := by positivity
  have hPp : 0 < 2 ^ FTy.mbits t := by positivity
  have hPz : ((2 ^ FTy.mbits t : Nat) : ℚ) = 2 ^ (FTy.mbits t : ℤ) := by push_cast; exact hP
  generalize 2 ^ FTy.mbits t = P at *
  rcases Nat.lt_or_ge n P with hn | hn
  · obtain rfl : e = 0 := by omega
    rw [Nat.div_eq_of_lt hn, Nat.mod_eq_of_lt hn, if_pos rfl, zpow_sub₀ (by norm_num), zpow_sub₀ (by norm_num), zpow_sub₀ (by norm_num)]
    push_cast
    field_simp
  · have hdiv : (n / P = 1 ∧ n % P = n - P) ∨ (n / P = 2 ∧ n = 2 * P ∧ n % P = 0) := by
      rcases Nat.lt_or_ge n (2 * P) with h2 | h2
      · left
        have : n / P = 1 := by
          refine Nat.div_eq_of_lt_le (by omega) (by omega)
        exact ⟨this, by rw [Nat.mod_eq_sub_mul_div, this]; omega⟩
      · right
        obtain rfl : n = 2 * P := by omega
        exact ⟨Nat.mul_div_left _ hPp |>.trans rfl, rfl, Nat.mul_mod_left ..⟩
    rcases hdiv with ⟨hd, hm⟩ | ⟨hd, rfl, hm⟩
    · rw [hd, hm, if_neg (by omega), zpow_sub₀ (by norm_num), zpow_sub₀ (by norm_num), zpow_sub₀ (by norm_num), Nat.cast_sub hn, hPz]
      push_cast
      rw [add_comm (1 : ℤ) e]
      field_simp
      ring
    · rw [hd, hm, if_neg (by omega), zpow_sub₀ (by norm_num), zpow_sub₀ (by norm_num), zpow_sub₀ (by norm_num)]
      push_cast [hPz]
      rw [show (2 : ℤ) + e = e + 1 + 1 by ring, zpow_add₀ (by norm_num) (↑e + 1 : ℤ) 1]
      field_simp
      simp

/-! ## The largest finite magnitude (R120, R124) -/

/-- The exponent field of the largest finite pattern, and the steps of its exponent that it is. -/
def topField (t : FTy) : Nat := fpLargest t / 2 ^ FTy.mbits t
def topSteps (t : FTy) : Nat := 2 ^ FTy.mbits t + fpLargest t % 2 ^ FTy.mbits t
theorem topField_pos (t : FTy) : 1 ≤ topField t := by cases t <;> decide
theorem topSteps_bounds (t : FTy) : 2 ^ FTy.mbits t ≤ topSteps t ∧ topSteps t < 2 * 2 ^ FTy.mbits t := by
  have := Nat.mod_lt (fpLargest t) (show 0 < 2 ^ FTy.mbits t by positivity)
  unfold topSteps
  omega
theorem fpLargest_steps (t : FTy) : (topField t - 1) * 2 ^ FTy.mbits t + topSteps t = fpLargest t := by
  have h1 := topField_pos t
  have h2 := Nat.div_add_mod' (fpLargest t) (2 ^ FTy.mbits t)
  obtain ⟨e, he⟩ := Nat.exists_eq_add_of_le' h1
  unfold topSteps
  rw [he, Nat.add_sub_cancel]
  change topField t * _ + _ = _ at h2
  rw [he, Nat.add_mul] at h2
  omega
theorem fpMag_largest (t : FTy) :
    fpMag t (fpLargest t) = topSteps t * 2 ^ ((topField t : ℤ) - FTy.mbits t - FTy.bias t) := by
  obtain ⟨hlow, hhigh⟩ := topSteps_bounds t
  have h := fpMag_steps t (topField_pos t) (.inr hlow) hhigh.le (by rw [fpLargest_steps]; exact fpLargest_lt t)
  rwa [fpLargest_steps] at h
theorem log_largest (t : FTy) : Int.log 2 (fpMag t (fpLargest t)) = topField t - FTy.bias t := by
  obtain ⟨hlow, hhigh⟩ := topSteps_bounds t
  have hlow' : (2 : ℚ) ^ (FTy.mbits t : ℤ) ≤ topSteps t := by exact_mod_cast hlow
  have hhigh' : (topSteps t : ℚ) < 2 * 2 ^ (FTy.mbits t : ℤ) := by exact_mod_cast hhigh
  rw [fpMag_largest]
  generalize (topSteps t : ℚ) = n at *
  have hsplit : (2 : ℚ) ^ ((topField t : ℤ) - FTy.bias t) = 2 ^ (FTy.mbits t : ℤ) * 2 ^ ((topField t : ℤ) - FTy.mbits t - FTy.bias t) := by
    rw [← zpow_add₀ (by norm_num)]
    congr 1
    ring
  have hpos : (0 : ℚ) < 2 ^ ((topField t : ℤ) - FTy.mbits t - FTy.bias t) := by positivity
  refine log_eq_of_bounds ?_ ?_
  · rw [hsplit]
    exact mul_le_mul_of_nonneg_right hlow' hpos.le
  · rw [zpow_add₀ (by norm_num), hsplit, zpow_one, mul_right_comm, mul_comm _ (2 : ℚ)]
    exact mul_lt_mul_of_pos_right hhigh' hpos
/-- A pattern lies above the largest finite one exactly where its magnitude does. -/
theorem overflow_iff (t : FTy) {E n : Nat} (hE : 1 ≤ E) (hlow : E = 1 ∨ 2 ^ FTy.mbits t ≤ n)
    (hhigh : E < topField t → n ≤ 2 * 2 ^ FTy.mbits t) :
    fpLargest t < (E - 1) * 2 ^ FTy.mbits t + n ↔ fpMag t (fpLargest t) < n * 2 ^ ((E : ℤ) - FTy.mbits t - FTy.bias t) := by
  have hscale (k : Nat) : (2 : ℚ) ^ ((k : ℤ) - FTy.mbits t - FTy.bias t) = 2 ^ k * 2 ^ (-(FTy.mbits t : ℤ) - FTy.bias t) := by
    rw [← zpow_natCast, ← zpow_add₀ (by norm_num)]
    congr 1
    ring
  have hmag : fpMag t (fpLargest t) < n * 2 ^ ((E : ℤ) - FTy.mbits t - FTy.bias t) ↔ topSteps t * 2 ^ topField t < n * 2 ^ E := by
    rw [fpMag_largest, hscale, hscale, ← mul_assoc, ← mul_assoc, mul_lt_mul_iff_left₀ (by positivity)]
    exact_mod_cast Iff.rfl
  rw [hmag, ← fpLargest_steps]
  have hF := topField_pos t
  obtain ⟨hnl, hnh⟩ := topSteps_bounds t
  generalize topField t = F at *
  generalize topSteps t = N at *
  generalize 2 ^ FTy.mbits t = P at *
  rcases Nat.lt_trichotomy E F with h | rfl | h
  · obtain ⟨j, rfl⟩ := Nat.exists_eq_add_of_lt h
    obtain ⟨e, rfl⟩ := Nat.exists_eq_add_of_le' hE
    have h2 := hhigh h
    refine iff_of_false ?_ ?_
    · have : (e + 1 + j + 1 - 1) * P = e * P + P + j * P := by
        rw [show e + 1 + j + 1 - 1 = e + 1 + j by omega]
        ring
      rw [this, Nat.add_sub_cancel]
      omega
    · rw [Nat.not_lt]
      calc n * 2 ^ (e + 1) ≤ (2 * P) * 2 ^ (e + 1) := Nat.mul_le_mul_right _ h2
        _ = P * 2 ^ (e + 1 + 1) := by ring
        _ ≤ N * 2 ^ (e + 1 + j + 1) := Nat.mul_le_mul hnl (Nat.pow_le_pow_right (by decide) (by omega))
  · rw [Nat.mul_lt_mul_right (by positivity)]
    omega
  · obtain ⟨j, rfl⟩ := Nat.exists_eq_add_of_lt h
    obtain ⟨f, rfl⟩ := Nat.exists_eq_add_of_le' hF
    have hn : P ≤ n := hlow.resolve_left (by omega)
    refine iff_of_true ?_ ?_
    · have : (f + 1 + j + 1 - 1) * P = f * P + P + j * P := by
        rw [show f + 1 + j + 1 - 1 = f + 1 + j by omega]
        ring
      rw [this, Nat.add_sub_cancel]
      omega
    · calc N * 2 ^ (f + 1) < (2 * P) * 2 ^ (f + 1) := Nat.mul_lt_mul_of_pos_right hnh (by positivity)
        _ = P * 2 ^ (f + 1 + 1) := by ring
        _ ≤ n * 2 ^ (f + 1 + j + 1) := Nat.mul_le_mul hn (Nat.pow_le_pow_right (by decide) (by omega))

/-! ## Rounding to a format (R123 to R125) -/

theorem withSign_eq (t : FTy) (neg : Bool) (b : Nat) : withSign t neg b = fpSigned t neg b := by
  have : FTy.width t - 1 = FTy.ebits t + FTy.mbits t := by unfold FTy.width; omega
  unfold withSign fpSigned
  rw [this, Nat.add_comm]
theorem infBits_eq (t : FTy) : infBits t = fpTopInf t := by cases t <;> rfl
theorem hasInf_flag (t : FTy) : (if FTy.hasInf t = true then 0 else fSAT) = if t = .f8a then fSAT else 0 := by cases t <;> rfl
theorem stepsOf_bounds (mode : RMode) (rnd : Nat) (neg : Bool) (v : ℚ) (q : ℤ) :
    ⌊v / 2 ^ q⌋₊ ≤ stepsOf mode rnd neg v q ∧ stepsOf mode rnd neg v q ≤ ⌊v / 2 ^ q⌋₊ + 1 := by
  rw [stepsOf_eq]
  split <;> omega
/-- The spacing at a magnitude with exponent lg, as Rounded has it (R123, R125). -/
def spacing (t : FTy) (mode : RMode) (lg : ℤ) : ℤ :=
  let q0 : ℤ := max lg (1 - FTy.bias t) - FTy.mbits t
  if mode = .rs then min q0 (topField t - FTy.bias t - FTy.mbits t) else q0
/-- The exponent field that the spacing belongs to. -/
theorem spacing_field (t : FTy) (mode : RMode) (lg : ℤ) : ∃ E : Nat, 1 ≤ E ∧ spacing t mode lg = (E : ℤ) - FTy.mbits t - FTy.bias t ∧
    (spacing t mode lg ≤ lg - FTy.mbits t ∨ E = 1) ∧ (E < topField t → lg - FTy.mbits t ≤ spacing t mode lg) := by
  have hF := topField_pos t
  refine ⟨(spacing t mode lg + FTy.mbits t + FTy.bias t).toNat, ?_⟩
  unfold spacing
  dsimp only
  split <;> omega
/-- The whole steps of a magnitude at a spacing no coarser, or no finer, than its own. -/
theorem floor_steps_ge {v : ℚ} {lg q : ℤ} {m : Nat} (hv : 2 ^ lg ≤ v) (h : q ≤ lg - m) : 2 ^ m ≤ ⌊v / 2 ^ q⌋₊ := by
  refine Nat.le_floor ?_
  rw [le_div_iff₀ (by positivity)]
  refine le_trans ?_ hv
  push_cast
  rw [← zpow_natCast, ← zpow_add₀ (by norm_num)]
  exact zpow_le_zpow_right₀ (by norm_num) (by omega)
theorem floor_steps_lt {v : ℚ} {lg q : ℤ} {m : Nat} (h0 : 0 ≤ v) (hv : v < 2 ^ (lg + 1)) (h : lg - m ≤ q) :
    ⌊v / 2 ^ q⌋₊ < 2 * 2 ^ m := by
  rw [Nat.floor_lt (by positivity), div_lt_iff₀ (by positivity)]
  refine lt_of_lt_of_le hv ?_
  push_cast
  rw [← zpow_natCast, mul_comm (2 : ℚ), mul_assoc, mul_comm (2 : ℚ), ← zpow_add_one₀ (by norm_num), ← zpow_add₀ (by norm_num)]
  exact zpow_le_zpow_right₀ (by norm_num) (by omega)

/-- What a magnitude's steps at its spacing make: an exponent field E, with the pattern that packBits gives. -/
theorem steps_pattern (t : FTy) (mode : RMode) (rnd : Nat) (neg : Bool) {v : ℚ} (hv : 0 < v) :
    let q := spacing t mode (Int.log 2 v)
    let n := stepsOf mode rnd neg v q
    ∃ E : Nat, 1 ≤ E ∧ q = (E : ℤ) - FTy.mbits t - FTy.bias t ∧ (E = 1 ∨ 2 ^ FTy.mbits t ≤ n) ∧
      (E < topField t → n ≤ 2 * 2 ^ FTy.mbits t) ∧ packBits t n q = (E - 1) * 2 ^ FTy.mbits t + n := by
  intro q n
  obtain ⟨E, hE, hq, hfine, hcoarse⟩ := spacing_field t mode (Int.log 2 v)
  obtain ⟨hn1, hn2⟩ := stepsOf_bounds mode rnd neg v q
  have hlow : E = 1 ∨ 2 ^ FTy.mbits t ≤ n := by
    rcases hfine with h | h
    · exact .inr ((floor_steps_ge (Int.zpow_log_le_self (by norm_num) hv) h).trans hn1)
    · exact .inl h
  refine ⟨E, hE, hq, hlow, fun h => ?_, ?_⟩
  · have : ⌊v / 2 ^ q⌋₊ < _ := floor_steps_lt hv.le (Int.lt_zpow_succ_log_self (b := 2) (by norm_num) v) (hcoarse h)
    omega
  · unfold packBits
    split
    case isTrue h0 =>
      have : 0 < 2 ^ FTy.mbits t := by positivity
      obtain rfl : E = 1 := by omega
      omega
    case isFalse h0 =>
      obtain ⟨e, rfl⟩ := Nat.exists_eq_add_of_le' hE
      have hfield : q + FTy.mbits t + FTy.bias t = (e : ℤ) + 1 := by
        have := hq
        push_cast at this
        omega
      have : ((e : ℤ) + 1) * (2 ^ FTy.mbits t : Nat) + n - (2 ^ FTy.mbits t : Nat) = ((e * 2 ^ FTy.mbits t + n : Nat) : ℤ) := by
        push_cast
        ring
      rw [hfield, this, Int.toNat_natCast, Nat.add_sub_cancel]
/-- A result is tiny: rounded with an unbounded exponent it lies below the smallest normal (R126). -/
theorem tiny_iff (n : Nat) (k emin : ℤ) : (n != 0 && decide ((n.log2 : ℤ) + k < emin)) = true ↔ 0 < (n : ℚ) * 2 ^ k ∧ (n : ℚ) * 2 ^ k < 2 ^ emin := by
  by_cases h0 : n = 0
  · simp [h0]
  · have hpos : 0 < (n : ℚ) * 2 ^ k := by positivity
    have hlt : (n : ℚ) * 2 ^ k < 2 ^ emin ↔ (n.log2 : ℤ) + k < emin := by
      rw [← log_magnitude h0]
      exact_mod_cast Int.lt_zpow_iff_log_lt (b := 2) (by norm_num) hpos
    simp [h0, hpos, hlt]

theorem fpSigned_lt (t : FTy) (neg : Bool) {b : Nat} (h : b < 2 ^ (FTy.ebits t + FTy.mbits t)) :
    fpSigned t neg b < 2 ^ (1 + FTy.ebits t + FTy.mbits t) := by
  rw [show 1 + FTy.ebits t + FTy.mbits t = FTy.ebits t + FTy.mbits t + 1 by ring, Nat.pow_succ]
  unfold fpSigned
  split <;> omega

/-- The one rounding: the pattern and the flags of an exact magnitude (R123 to R125). -/
theorem roundTo_rounded (t : FTy) (mode : RMode) {rnd : Nat} (hrnd : rnd < 2 ^ 32) (neg : Bool) (man : Nat) (exp : ℤ) :
    Rounded t mode rnd neg (man * 2 ^ exp) (roundTo t mode rnd neg man exp) := by
  by_cases h0 : man = 0
  · subst h0
    unfold Rounded roundTo
    simp [withSign_eq]
  · have hv : 0 < (man : ℚ) * 2 ^ exp := by positivity
    have hlog := log_magnitude h0 exp
    obtain ⟨E, hE, hq, hlow, hhigh, hpack⟩ := steps_pattern t mode rnd neg hv
    have hspace : (if mode = .rs then min (max (Int.log 2 ((man : ℚ) * 2 ^ exp)) (1 - FTy.bias t) - FTy.mbits t)
          (Int.log 2 (fpMag t (fpLargest t)) - FTy.mbits t)
        else max (Int.log 2 ((man : ℚ) * 2 ^ exp)) (1 - FTy.bias t) - FTy.mbits t) = spacing t mode (Int.log 2 ((man : ℚ) * 2 ^ exp)) := by
      rw [log_largest]
      rfl
    have hmodel : (if mode = .rs then min (max (FTy.emin t - FTy.mbits t) ((man.log2 : ℤ) + exp - FTy.mbits t))
          ((FTy.maxBits t / 2 ^ FTy.mbits t : Nat) - FTy.bias t - FTy.mbits t)
        else max (FTy.emin t - FTy.mbits t) ((man.log2 : ℤ) + exp - FTy.mbits t)) = spacing t mode (Int.log 2 ((man : ℚ) * 2 ^ exp)) := by
      rw [← fpLargest_eq, hlog]
      unfold spacing topField FTy.emin
      rw [← max_sub_sub_right, max_comm]
    have hover := overflow_iff t hE hlow hhigh
    rw [← hpack, ← hq] at hover
    unfold Rounded roundTo
    dsimp only
    rw [if_neg h0, if_neg hv.ne', hspace, hmodel, roundSteps_spec mode hrnd, roundSteps_spec mode hrnd, ← fpLargest_eq]
    dsimp only
    generalize hQ : spacing t mode (Int.log 2 ((man : ℚ) * 2 ^ exp)) = q at *
    generalize hn : stepsOf mode rnd neg ((man : ℚ) * 2 ^ exp) q = n at *
    by_cases hbig : fpLargest t < packBits t n q
    · rw [if_pos hbig, if_pos (hover.1 hbig), hasInf_flag, withSign_eq]
      refine congrArg (fun b => (fpSigned t neg b, fOF ||| fNX ||| if t = .f8a then fSAT else 0)) ?_
      unfold overflowBits
      rw [← fpLargest_eq, infBits_eq]
      cases mode <;> cases neg <;> rfl
    · have hle : packBits t n q ≤ fpLargest t := by omega
      have hlt := hle.trans_lt (fpLargest_lt t)
      have hsteps : n ≤ 2 * 2 ^ FTy.mbits t := by
        rcases Nat.lt_or_ge E (topField t) with hE' | hE'
        · exact hhigh hE'
        · obtain ⟨htop, htop'⟩ := topSteps_bounds t
          have hrow := Nat.mul_le_mul_right (2 ^ FTy.mbits t) (Nat.sub_le_sub_right hE' 1)
          have hlargest := fpLargest_steps t
          omega
      obtain ⟨hnan, hinf⟩ := finite_of_le_largest t neg hle
      have hmag : fpMag t (packBits t n q) = n * 2 ^ q := by
        rw [hpack, hq]
        exact fpMag_steps t hE hlow hsteps (hpack ▸ hlt)
      rw [if_neg hbig, if_neg (fun h => hbig (hover.2 h)), withSign_eq]
      refine ⟨fpSigned_lt t neg hlt, hnan, hinf, (fpFields_signed t neg hlt).1, (fpMag_signed t neg hlt).trans hmag, ?_⟩
      have htiny := tiny_iff (stepsOf mode rnd neg (man * 2 ^ exp) (man.log2 + exp - FTy.mbits t)) (man.log2 + exp - FTy.mbits t) (FTy.emin t)
      rw [hlog]
      by_cases hx : (n : ℚ) * 2 ^ q = man * 2 ^ exp
      · simp [hx]
      · simp only [hx, ne_eq, not_false_eq_true, decide_true, if_true, if_false, Bool.true_and, true_and]
        exact congrArg (fNX ||| ·) (if_congr htiny rfl rfl)

end Sys2Proof.Machine
end

section
/-! PROOFS. Exact values of patterns, and sums, products and conversions of them (R120 to R124, R138, R145). -/

namespace Sys2Proof.Machine

theorem or_zero (x : Byte) : x ||| (0 : Byte) = x := BitVec.or_zero
theorem zero_or (x : Byte) : (0 : Byte) ||| x = x := BitVec.zero_or

/-! ## Values (R120) -/

/-- The exact number of a finite value; 0 of the others. -/
def FVal.num : FVal → ℚ
  | .fin n m e => ((if n then -(m : ℤ) else m : ℤ) : ℚ) * 2 ^ e
  | _ => 0
/-- A pattern is a NaN, an infinity, or finite, and its value is what its fields say (R120, R121). -/
inductive Views (t : FTy) (w : Nat) : FVal → Prop where
  | nan : fpNan t w = true → fpInf t w = false → Views t w (.nan (fpSnan t w))
  | inf : fpNan t w = false → fpInf t w = true → Views t w (.inf (fpNeg t w))
  | fin (m : Nat) (e : ℤ) : fpNan t w = false → fpInf t w = false → fpMag t w = m * 2 ^ e → Views t w (.fin (fpNeg t w) m e)

theorem bit_sign (t : FTy) (w : Nat) : bit w (FTy.mbits t + FTy.ebits t) = fpNeg t w := by
  unfold bit fpNeg
  rw [Nat.add_comm]
/-- The top bit of the fraction tells a quiet NaN from a signalling one (R121). -/
theorem quietBit (t : FTy) (w : Nat) : (!bit w (FTy.mbits t - 1)) = decide (fpFrac t w < 2 ^ (FTy.mbits t - 1)) := by
  unfold bit fpFrac
  rw [← decide_not, decide_eq_decide]
  cases t <;> simp only [FTy.mbits] <;> omega
/-- The magnitudes of a subnormal and of a normal pattern (R120). -/
theorem fpMag_subnormal {t : FTy} {w : Nat} (h : fpExpField t w = 0) :
    fpMag t w = fpFrac t w * 2 ^ (FTy.emin t - FTy.mbits t) := by
  unfold fpMag FTy.emin
  rw [if_pos h, zpow_sub₀ (by norm_num) _ (FTy.mbits t : ℤ), zpow_natCast]
  ring
theorem fpMag_normal {t : FTy} {w : Nat} (h : fpExpField t w ≠ 0) :
    fpMag t w = ((2 ^ FTy.mbits t + fpFrac t w : Nat) : ℚ) * 2 ^ ((fpExpField t w : ℤ) - FTy.bias t - FTy.mbits t) := by
  unfold fpMag
  rw [if_neg h, zpow_sub₀ (by norm_num) _ (FTy.mbits t : ℤ), zpow_natCast]
  push_cast
  field_simp
theorem hasInf_iff (t : FTy) : FTy.hasInf t = true ↔ t ≠ .f8a := by cases t <;> decide
theorem fpInf_iff (t : FTy) (w : Nat) :
    fpInf t w = true ↔ FTy.hasInf t = true ∧ fpExpField t w = 2 ^ FTy.ebits t - 1 ∧ fpFrac t w = 0 := by
  unfold fpInf
  rw [hasInf_iff]
  simp [and_assoc]
theorem fpNan_iff (t : FTy) (w : Nat) : fpNan t w = true ↔ fpExpField t w = 2 ^ FTy.ebits t - 1 ∧
    (FTy.hasInf t = true ∧ fpFrac t w ≠ 0 ∨ FTy.hasInf t = false ∧ fpFrac t w = 7) := by
  unfold fpNan
  by_cases ht : t = .f8a
  · subst ht
    simp [FTy.hasInf]
  · have := (hasInf_iff t).2 ht
    simp [ht, this]
theorem fval_views (t : FTy) (w : Nat) : Views t w (fval t w) := by
  have htop : 2 ^ FTy.ebits t - 1 ≠ 0 := by cases t <;> decide
  have hfin (hnan : fpNan t w = false) (hinf : fpInf t w = false) :
      Views t w (if fpExpField t w = 0 then .fin (fpNeg t w) (fpFrac t w) (FTy.emin t - FTy.mbits t)
        else .fin (fpNeg t w) (2 ^ FTy.mbits t + fpFrac t w) ((fpExpField t w : ℤ) - FTy.bias t - FTy.mbits t)) := by
    split
    · exact .fin _ _ hnan hinf (fpMag_subnormal ‹_›)
    · exact .fin _ _ hnan hinf (fpMag_normal ‹_›)
  unfold fval
  dsimp only
  rw [bit_sign, quietBit]
  change Views t w (if FTy.hasInf t = true ∧ fpExpField t w = 2 ^ FTy.ebits t - 1 ∧ fpFrac t w = 0 then _ else
    if FTy.hasInf t = true ∧ fpExpField t w = 2 ^ FTy.ebits t - 1 then _ else
    if FTy.hasInf t = false ∧ fpExpField t w = 2 ^ FTy.ebits t - 1 ∧ fpFrac t w = 7 then _ else
    if fpExpField t w = 0 then .fin (fpNeg t w) (fpFrac t w) (FTy.emin t - FTy.mbits t)
        else .fin (fpNeg t w) (2 ^ FTy.mbits t + fpFrac t w) ((fpExpField t w : ℤ) - FTy.bias t - FTy.mbits t))
  have hnan := fpNan_iff t w
  have hinf := fpInf_iff t w
  by_cases h1 : FTy.hasInf t = true ∧ fpExpField t w = 2 ^ FTy.ebits t - 1 ∧ fpFrac t w = 0
  · rw [if_pos h1]
    obtain ⟨hI, he, hf⟩ := h1
    exact .inf (by rw [← Bool.not_eq_true, hnan]; simp [hI, hf]) (hinf.2 ⟨hI, he, hf⟩)
  have hinf' : fpInf t w = false := by rw [← Bool.not_eq_true, hinf]; exact h1
  rw [if_neg h1]
  by_cases h2 : FTy.hasInf t = true ∧ fpExpField t w = 2 ^ FTy.ebits t - 1
  · rw [if_pos h2]
    obtain ⟨hI, he⟩ := h2
    have hn := hnan.2 ⟨he, .inl ⟨hI, fun hf => h1 ⟨hI, he, hf⟩⟩⟩
    have hv := Views.nan hn hinf'
    convert hv using 2
    have ht := (hasInf_iff t).1 hI
    unfold fpSnan
    rw [hn]
    cases t
    case f8a => exact absurd rfl ht
    all_goals simp
  rw [if_neg h2]
  by_cases h3 : FTy.hasInf t = false ∧ fpExpField t w = 2 ^ FTy.ebits t - 1 ∧ fpFrac t w = 7
  · rw [if_pos h3]
    obtain ⟨hI, he, hf⟩ := h3
    have hv := Views.nan (hnan.2 ⟨he, .inr ⟨hI, hf⟩⟩) hinf'
    have ht : t = .f8a := by
      by_contra ht
      rw [(hasInf_iff t).2 ht] at hI
      exact Bool.noConfusion hI
    have hs : fpSnan t w = false := by unfold fpSnan; simp [ht]
    rwa [hs] at hv
  rw [if_neg h3]
  refine hfin ?_ hinf'
  rw [← Bool.not_eq_true, hnan]
  rintro ⟨he, ⟨hI, hf⟩ | ⟨hI, hf⟩⟩
  · exact h2 ⟨hI, he⟩
  · exact h3 ⟨hI, he, hf⟩

theorem fpSnan_of_not_nan {t : FTy} {w : Nat} (h : fpNan t w = false) : fpSnan t w = false := by unfold fpSnan; rw [h]; rfl
theorem fpNum_fin {t : FTy} {w m : Nat} {e : ℤ} (h : fpMag t w = m * 2 ^ e) : (FVal.fin (fpNeg t w) m e).num = fpNum t w := by
  unfold FVal.num fpNum
  rw [h]
  cases fpNeg t w <;> simp
theorem signedAt_num (n : Bool) (m : Nat) {e lo : ℤ} (h : lo ≤ e) : (signedAt n m e lo : ℚ) * 2 ^ lo = (FVal.fin n m e).num := by
  have hp : (2 : ℚ) ^ (e - lo).toNat * 2 ^ lo = 2 ^ e := by
    rw [zpow_toNat (by omega), ← zpow_add₀ (by norm_num), sub_add_cancel]
  unfold signedAt FVal.num
  cases n
  · simp only [Bool.false_eq_true, if_false]
    push_cast
    rw [mul_assoc, hp]
  · simp only [if_true]
    push_cast
    rw [neg_mul, mul_assoc, hp, neg_mul]

/-! ## Delivering an exact value (R123, R124) -/

theorem RoundedSum.congr {t : FTy} {x y : ℚ} {z z' : Bool} {r : Nat × Byte} (h : RoundedSum t x z r) (hx : x = y) (hz : x = 0 → z = z') :
    RoundedSum t y z' r := by
  subst hx
  unfold RoundedSum at h ⊢
  by_cases h0 : x = 0
  · rw [if_pos h0] at h ⊢
    rw [h, hz h0]
  · rw [if_neg h0] at h ⊢
    exact h
/-- A finite value, rounded to nearest-even. -/
theorem deliver_fin (t : FTy) (n : Bool) (m : Nat) (e : ℤ) :
    RoundedSum t (FVal.fin n m e).num n (deliver t .rne 0 (.fin n m e)) := by
  have h := roundTo_rounded t .rne (rnd := 0) (by norm_num) n m e
  have hp : (0 : ℚ) < 2 ^ e := by positivity
  unfold RoundedSum
  by_cases h0 : m = 0
  · subst h0
    rw [if_pos (by cases n <;> simp [FVal.num])]
    simp [deliver, roundTo, withSign_eq]
  · have hm : (0 : ℚ) < m * 2 ^ e := by positivity
    have hnum : (FVal.fin n m e).num = if n then -((m : ℚ) * 2 ^ e) else m * 2 ^ e := by cases n <;> simp [FVal.num]
    rw [hnum]
    cases n
    · simp only [Bool.false_eq_true, if_false]
      rw [if_neg hm.ne', decide_eq_false (not_lt.2 hm.le), abs_of_pos hm]
      exact h
    · simp only [if_true]
      rw [if_neg (neg_ne_zero.2 hm.ne'), decide_eq_true (neg_neg_of_pos hm), abs_neg, abs_of_pos hm]
      exact h
/-- A signed number of steps of 2 ^ e, rounded to nearest-even; zero takes the sign z. -/
theorem deliver_ofSigned (t : FTy) (x e : ℤ) (z : Bool) : RoundedSum t (x * 2 ^ e) z (deliver t .rne 0 (ofSigned x e z)) := by
  unfold ofSigned
  split
  case isTrue h0 =>
    refine (deliver_fin t z 0 e).congr ?_ fun _ => rfl
    rw [h0]
    cases z <;> simp [FVal.num]
  case isFalse h0 =>
    have hx : (if x < 0 then -(x.natAbs : ℤ) else x.natAbs) = x := by split <;> omega
    refine (deliver_fin t _ x.natAbs e).congr ?_ fun hz => absurd hz ?_
    all_goals
      unfold FVal.num
      simp only [decide_eq_true_eq]
      rw [hx]
    exact mul_ne_zero (by exact_mod_cast h0) (by positivity)
theorem nan_eq (t : FTy) : FTy.nan t = fpCanon t := by cases t <;> rfl
theorem nvOf_views {t : FTy} {w : Nat} {v : FVal} (h : Views t w v) : nvOf v = if fpSnan t w = true then fNV else 0 := by
  cases h with
  | nan hn hi => cases fpSnan t w <;> rfl
  | inf hn hi => rw [fpSnan_of_not_nan hn]; rfl
  | fin m e hn hi hm => rw [fpSnan_of_not_nan hn]; rfl
theorem nv_or (x y : Bool) : (if x = true then fNV else 0) ||| (if y = true then fNV else 0) = if (x || y) = true then fNV else 0 := by
  cases x <;> cases y <;> rfl
theorem deliver_nan (t : FTy) (q : Bool) (f : Byte) : roundRne t (.nan q, f) = (fpCanon t, f) := by
  unfold roundRne deliver
  rw [nan_eq]
  simp
theorem deliver_inf {t : FTy} {w : Nat} (h : fpInf t w = true) (n : Bool) : roundRne t (.inf n, 0) = (fpSigned t n (fpTopInf t), 0) := by
  change (withSign t n (infBits t), (if FTy.hasInf t = true then 0 else fSAT) ||| (0 : Byte)) = _
  rw [withSign_eq, infBits_eq, ((fpInf_iff t w).1 h).1]
  rfl

theorem roundRne_zero (t : FTy) (v : FVal) : roundRne t (v, 0) = deliver t .rne 0 v := Prod.ext rfl BitVec.or_zero
theorem num_true_nonpos (m : Nat) (e : ℤ) : (FVal.fin true m e).num ≤ 0 := by
  have : (0 : ℚ) ≤ m * 2 ^ e := by positivity
  simp [FVal.num, this]
theorem num_eq_zero {n : Bool} {m : Nat} {e : ℤ} : (FVal.fin n m e).num = 0 ↔ m = 0 := by
  have : (2 : ℚ) ^ e ≠ 0 := by positivity
  cases n <;> simp [FVal.num, this]
/-- Two negative values add to zero only if both are −0. -/
theorem sum_zero_sign {n n' : Bool} {m m' : Nat} {e e' : ℤ} (h : (FVal.fin n m e).num + (FVal.fin n' m' e').num = 0) :
    (n && n' && decide (m = 0) && decide (m' = 0)) = (n && n') := by
  cases n
  · rfl
  cases n'
  · rfl
  have h1 := num_true_nonpos m e
  have h2 := num_true_nonpos m' e'
  have h1' : (FVal.fin true m e).num = 0 := by linarith
  have h2' : (FVal.fin true m' e').num = 0 := by linarith
  simp [num_eq_zero.1 h1', num_eq_zero.1 h2']
theorem mul_num (n n' : Bool) (m m' : Nat) (e e' : ℤ) :
    (FVal.fin (n != n') (m * m') (e + e')).num = (FVal.fin n m e).num * (FVal.fin n' m' e').num := by
  have h : (2 : ℚ) ^ (e + e') = 2 ^ e * 2 ^ e' := zpow_add₀ (by norm_num) ..
  dsimp only [FVal.num]
  rw [h]
  push_cast
  cases n <;> cases n' <;> simp <;> ring

/-! ## Sums and products (R138) -/

/-- FADD's sum is that of the exact values (R138). -/
theorem fpAdd_sumIs (t : FTy) (a b : Nat) : SumIs t false a b (fpAdd t a b) := by
  have ha := fval_views t a
  have hb := fval_views t b
  have hnv : nvOf (fval t a) ||| nvOf (fval t b) = if (fpSnan t a || fpSnan t b) = true then fNV else 0 := by
    rw [nvOf_views ha, nvOf_views hb, nv_or]
  unfold SumIs fpAdd
  generalize fval t a = va at *
  generalize fval t b = vb at *
  cases ha with
  | nan hn hi =>
    rw [if_pos (by simp [hn]), ← hnv]
    exact deliver_nan ..
  | inf hn hi =>
    cases hb with
    | nan hn' hi' =>
      rw [if_pos (by simp [hn']), ← hnv]
      exact deliver_nan ..
    | inf hn' hi' =>
      rw [if_neg (by simp [hn, hn'])]
      by_cases hs : fpNeg t a = fpNeg t b
      · rw [if_neg (by simp [hs]), if_pos hi]
        simp only [addExact, if_pos hs]
        exact deliver_inf hi _
      · rw [if_pos (by simp [hi, hi', hs])]
        simp only [addExact, if_neg hs]
        exact deliver_nan ..
    | fin m' e' hn' hi' hm' =>
      rw [if_neg (by simp [hn, hn']), if_neg (by simp [hi']), if_pos hi]
      exact deliver_inf hi _
  | fin m e hn hi hm =>
    cases hb with
    | nan hn' hi' =>
      rw [if_pos (by simp [hn']), ← hnv]
      exact deliver_nan ..
    | inf hn' hi' =>
      rw [if_neg (by simp [hn, hn']), if_neg (by simp [hi]), if_neg (by simp [hi]), if_pos hi']
      simp only [Bool.bne_false]
      exact deliver_inf hi' _
    | fin m' e' hn' hi' hm' =>
      rw [if_neg (by simp [hn, hn']), if_neg (by simp [hi]), if_neg (by simp [hi]), if_neg (by simp [hi'])]
      have hx : ((signedAt (fpNeg t a) m e (min e e') + signedAt (fpNeg t b) m' e' (min e e') : ℤ) : ℚ) * 2 ^ min e e' =
          fpNum t a + fpNum t b := by
        push_cast
        rw [add_mul, signedAt_num _ _ (min_le_left ..), signedAt_num _ _ (min_le_right ..), fpNum_fin hm, fpNum_fin hm']
      have h := deliver_ofSigned t (signedAt (fpNeg t a) m e (min e e') + signedAt (fpNeg t b) m' e' (min e e')) (min e e')
        (fpNeg t a && fpNeg t b && decide (m = 0) && decide (m' = 0))
      rw [← roundRne_zero] at h
      refine h.congr hx fun h0 => ?_
      rw [hx, ← fpNum_fin hm, ← fpNum_fin hm'] at h0
      exact sum_zero_sign h0
/-- FMUL's product is that of the exact values (R138). -/
theorem fpMul_productIs (t : FTy) (a b : Nat) : ProductIs t a b (fpMul t a b) := by
  have hp (e : ℤ) : (2 : ℚ) ^ e ≠ 0 := by positivity
  have ha := fval_views t a
  have hb := fval_views t b
  have hnv : nvOf (fval t a) ||| nvOf (fval t b) = if (fpSnan t a || fpSnan t b) = true then fNV else 0 := by
    rw [nvOf_views ha, nvOf_views hb, nv_or]
  unfold ProductIs fpMul
  generalize fval t a = va at *
  generalize fval t b = vb at *
  cases ha with
  | nan hn hi =>
    rw [if_pos (by simp [hn]), ← hnv]
    exact deliver_nan ..
  | inf hn hi =>
    cases hb with
    | nan hn' hi' =>
      rw [if_pos (by simp [hn']), ← hnv]
      exact deliver_nan ..
    | inf hn' hi' =>
      rw [if_neg (by simp [hn, hn']), if_neg (by simp [hi, hi']), if_pos (by simp [hi])]
      exact deliver_inf hi _
    | fin m e hn' hi' hm =>
      rw [if_neg (by simp [hn, hn'])]
      by_cases h0 : m = 0
      · rw [if_pos (by simp [hi, hi', hm, h0])]
        simp only [mulExact, if_pos h0]
        exact deliver_nan ..
      · rw [if_neg (by simp [hi, hi', hm, h0, hp]), if_pos (by simp [hi])]
        simp only [mulExact, if_neg h0]
        exact deliver_inf hi _
  | fin m e hn hi hm =>
    cases hb with
    | nan hn' hi' =>
      rw [if_pos (by simp [hn']), ← hnv]
      exact deliver_nan ..
    | inf hn' hi' =>
      rw [if_neg (by simp [hn, hn'])]
      by_cases h0 : m = 0
      · rw [if_pos (by simp [hi, hi', hm, h0])]
        simp only [mulExact, if_pos h0]
        exact deliver_nan ..
      · rw [if_neg (by simp [hi, hi', hm, h0, hp]), if_pos (by simp [hi'])]
        simp only [mulExact, if_neg h0]
        exact deliver_inf hi' _
    | fin m' e' hn' hi' hm' =>
      rw [if_neg (by simp [hn, hn']), if_neg (by simp [hi, hi']), if_neg (by simp [hi, hi'])]
      have h := deliver_fin t (fpNeg t a != fpNeg t b) (m * m') (e + e')
      rw [← roundRne_zero] at h
      refine h.congr ?_ fun _ => rfl
      rw [mul_num, fpNum_fin hm, fpNum_fin hm']
/-- FCVT's conversion, of a pattern in range (R145). -/
theorem fcvtVal_converted (to_ from_ : FTy) (mode : RMode) {rnd a : Nat} (ha : a < 2 ^ FTy.width from_) (hr : rnd < 2 ^ 32) :
    ConvertedIs to_ from_ mode rnd a (fcvtVal to_ from_ mode rnd a) := by
  have hv := fval_views from_ a
  have hnv := nvOf_views hv
  unfold ConvertedIs fcvtVal
  rw [Nat.mod_eq_of_lt ha]
  generalize fval from_ a = v at *
  cases hv with
  | nan hn hi =>
    rw [if_pos hn, ← hnv]
    dsimp only [deliver]
    rw [nan_eq, zero_or]
  | inf hn hi =>
    rw [if_neg (by simp [hn]), if_pos hi]
    dsimp only [deliver, nvOf]
    rw [withSign_eq, infBits_eq, or_zero]
    cases to_ <;> simp [FTy.hasInf]
  | fin m e hn hi hm =>
    rw [if_neg (by simp [hn]), if_neg (by simp [hi]), hm]
    dsimp only [nvOf]
    rw [or_zero]
    exact roundTo_rounded to_ mode hr (fpNeg from_ a) m e

end Sys2Proof.Machine
end

section
/-! PROOFS. Elements of the matrix unit: their values, a block of products, a row and column (R120 to R124, R269 to R271, R276). -/

namespace Sys2Proof.Machine

/-! ## Bounds and flags of a rounded value -/

theorem fpTopInf_lt (t : FTy) : fpTopInf t < 2 ^ (FTy.ebits t + FTy.mbits t) := by cases t <;> decide
theorem fpCanon_lt (t : FTy) : fpCanon t < 2 ^ (1 + FTy.ebits t + FTy.mbits t) := by cases t <;> decide
theorem zero_nv : (0 : Byte) &&& (fNV ||| fOF) = 0 &&& fOF := rfl
theorem overflow_nv (t : FTy) : (fOF ||| fNX ||| if t = .f8a then fSAT else 0) &&& (fNV ||| fOF) =
    (fOF ||| fNX ||| if t = .f8a then fSAT else 0) &&& fOF := by cases t <;> decide
/-- A rounded value fits its format, and rounding sets no NV (R124, R126). -/
theorem Rounded.result {t : FTy} {mode : RMode} {rnd : Nat} {neg : Bool} {v : ℚ} {r : Nat × Byte} (h : Rounded t mode rnd neg v r) :
    r.1 < 2 ^ (1 + FTy.ebits t + FTy.mbits t) ∧ r.2 &&& (fNV ||| fOF) = r.2 &&& fOF := by
  have hI := fpTopInf_lt t
  have hL := fpLargest_lt t
  unfold Rounded at h
  extract_lets m emin q0 q x u at h
  by_cases h0 : v = 0
  · rw [if_pos h0] at h
    rw [h]
    exact ⟨fpSigned_lt t neg (by positivity), zero_nv⟩
  rw [if_neg h0] at h
  by_cases ho : fpMag t (fpLargest t) < x
  · rw [if_pos ho] at h
    rw [h]
    refine ⟨fpSigned_lt t neg ?_, overflow_nv t⟩
    cases mode <;> cases neg <;> assumption
  · rw [if_neg ho] at h
    obtain ⟨hlt, -, -, -, -, hf⟩ := h
    refine ⟨hlt, ?_⟩
    rw [hf]
    split <;> split <;> decide
theorem RoundedSum.result {t : FTy} {x : ℚ} {z : Bool} {r : Nat × Byte} (h : RoundedSum t x z r) :
    r.1 < 2 ^ (1 + FTy.ebits t + FTy.mbits t) ∧ r.2 &&& (fNV ||| fOF) = r.2 &&& fOF := by
  unfold RoundedSum at h
  by_cases h0 : x = 0
  · rw [if_pos h0] at h
    rw [h]
    exact ⟨fpSigned_lt t z (by positivity), zero_nv⟩
  · rw [if_neg h0] at h
    exact h.result
theorem fpInf_signed_lt (t : FTy) (n : Bool) : fpSigned t n (fpTopInf t) < 2 ^ (1 + FTy.ebits t + FTy.mbits t) :=
  fpSigned_lt t n (fpTopInf_lt t)
theorem SumIs.lt {t : FTy} {a b : Nat} {r : Nat × Byte} (h : SumIs t false a b r) : r.1 < 2 ^ (1 + FTy.ebits t + FTy.mbits t) := by
  unfold SumIs at h
  extract_lets nb at h
  rw [if_neg (show ¬false = true by decide)] at h
  split_ifs at h
  · exact h ▸ fpCanon_lt t
  · exact h ▸ fpCanon_lt t
  · exact h ▸ fpCanon_lt t
  · exact h ▸ fpInf_signed_lt t _
  · exact h ▸ fpInf_signed_lt t _
  · exact h.result.1
theorem ProductIs.lt {t : FTy} {a b : Nat} {r : Nat × Byte} (h : ProductIs t a b r) : r.1 < 2 ^ (1 + FTy.ebits t + FTy.mbits t) := by
  unfold ProductIs at h
  extract_lets neg at h
  split_ifs at h
  · exact h ▸ fpCanon_lt t
  · exact h ▸ fpCanon_lt t
  · exact h ▸ fpCanon_lt t
  · exact h ▸ fpInf_signed_lt t _
  · exact h.result.1
theorem ConvertedIs.lt {to_ from_ : FTy} {m : RMode} {rnd a : Nat} {r : Nat × Byte} (h : ConvertedIs to_ from_ m rnd a r) :
    r.1 < 2 ^ (1 + FTy.ebits to_ + FTy.mbits to_) := by
  unfold ConvertedIs at h
  by_cases hn : fpNan from_ a = true
  · rw [if_pos hn] at h
    exact h ▸ fpCanon_lt to_
  rw [if_neg hn] at h
  by_cases hi : fpInf from_ a = true
  · rw [if_pos hi] at h
    exact h ▸ fpInf_signed_lt to_ _
  · rw [if_neg hi] at h
    exact h.result.1
/-- FP32 addition of a word and a pattern, with the sum as a word. -/
theorem fpAdd_word (x : Word) (u : Nat) : SumIs .f32 false x.toNat u ((BitVec.ofNat 32 (fpAdd .f32 x.toNat u).1).toNat, (fpAdd .f32 x.toNat u).2) := by
  have h := fpAdd_sumIs .f32 x.toNat u
  rwa [BitVec.toNat_ofNat, Nat.mod_eq_of_lt (b := 2 ^ 32) h.lt]
theorem fpMul_word (x : Word) (u : Nat) : ProductIs .f32 x.toNat u ((BitVec.ofNat 32 (fpMul .f32 x.toNat u).1).toNat, (fpMul .f32 x.toNat u).2) := by
  have h := fpMul_productIs .f32 x.toNat u
  rwa [BitVec.toNat_ofNat, Nat.mod_eq_of_lt (b := 2 ^ 32) h.lt]
/-- The numbers of the generator are those of R125. -/
theorem draw_eq (s : DWord) (l : Nat) : draw s l = drawOf s l := by
  unfold draw drawOf
  dsimp only
  rw [BitVec.ofNat_mul, show BitVec.ofNat 64 seedStep = 0x9E3779B97F4A7C15#64 from rfl]
  rfl
theorem drawOf_lt (s : DWord) (l : Nat) : drawOf s l < 2 ^ 32 := by
  unfold drawOf
  dsimp only
  rw [Nat.div_lt_iff_lt_mul (by norm_num)]
  exact lt_of_lt_of_eq (BitVec.isLt _) (by norm_num)

/-! ## Values of elements (R122, R269 to R271, R275) -/

/-- An element is a NaN, an infinity, or finite, and its value is what its type says. -/
inductive ElViews (e : El) (w : Nat) : FVal → Prop where
  | nan : exNan e w = true → exInf e w = false → ElViews e w (.nan (exSnan e w))
  | inf : exNan e w = false → exInf e w = true → ElViews e w (.inf (exNeg e w))
  | fin (n : Bool) (m : Nat) (x : ℤ) : exNan e w = false → exInf e w = false → (FVal.fin n m x).num = exNum e w →
    (elIsInt e = false → n = exNeg e w) → ElViews e w (.fin n m x)

theorem elWidth_eq (e : El) : elWidth e = exWidth e := by
  cases e with
  | fl t => cases t <;> rfl
  | int sg w => rfl
theorem ofSigned_num (x e : ℤ) (z : Bool) : (ofSigned x e z).num = x * 2 ^ e := by
  unfold ofSigned
  split
  next h =>
    rw [h]
    cases z <;> simp [FVal.num]
  next h =>
    unfold FVal.num
    dsimp only
    simp only [decide_eq_true_eq]
    rw [show (if x < 0 then -(x.natAbs : ℤ) else x.natAbs) = x by split <;> omega]
/-- A value that is no special one has the fields of a finite one. -/
theorem ofSigned_fin (x e : ℤ) (z : Bool) : ∃ n m, ofSigned x e z = .fin n m e := by
  unfold ofSigned
  split
  · exact ⟨_, _, rfl⟩
  · exact ⟨_, _, rfl⟩
theorem exNum_int (sg : Bool) (w x : Nat) :
    exNum (.int sg w) x = ((if sg = true then sextInt w x else (x % 2 ^ w : Nat) : ℤ) : ℚ) := by
  dsimp only [exNum, sextInt]
  cases sg
  · rw [if_neg (by simp), if_neg (by simp)]
    exact (Int.cast_natCast _).symm
  · by_cases h : x % 2 ^ w < 2 ^ (w - 1)
    · rw [if_neg (fun hx => absurd h (not_lt.2 hx.2)), if_pos rfl, if_pos h]
      exact (Int.cast_natCast _).symm
    · rw [if_pos ⟨rfl, not_lt.1 h⟩, if_pos rfl, if_neg h]
      push_cast
      rfl
theorem exNum_int_mod (sg : Bool) (w x : Nat) : exNum (.int sg w) (x % 2 ^ w) = exNum (.int sg w) x := by
  dsimp only [exNum]
  rw [Nat.mod_mod]
theorem int_views (sg : Bool) (w x : Nat) : ElViews (.int sg w) (x % 2 ^ w) (elVal (.int sg w) x) := by
  have hn := ofSigned_num (if sg = true then sextInt w x else (x % 2 ^ w : Nat)) 0 false
  obtain ⟨n, m, hf⟩ := ofSigned_fin (if sg = true then sextInt w x else (x % 2 ^ w : Nat)) 0 false
  change ElViews _ _ (ofSigned _ 0 false)
  rw [hf] at hn ⊢
  refine .fin n m 0 rfl rfl ?_ fun h => Bool.noConfusion h
  rw [exNum_int_mod, exNum_int, hn]
  simp
theorem float_views (t : FTy) (x : Nat) : ElViews (.fl t) (x % 2 ^ exWidth (.fl t)) (elVal (.fl t) x) := by
  rw [← elWidth_eq]
  change ElViews (.fl t) (x % 2 ^ FTy.width t) (fval t (x % 2 ^ FTy.width t))
  have h := fval_views t (x % 2 ^ FTy.width t)
  generalize fval t (x % 2 ^ FTy.width t) = v at *
  cases h with
  | nan hn hi => exact .nan hn hi
  | inf hn hi => exact .inf hn hi
  | fin m e hn hi hm => exact .fin _ m e hn hi (fpNum_fin hm) fun _ => rfl
/-- The element types that the unit has are floats, and integers of some bits. -/
theorem el_views (e : El) (x : Nat) : ElViews e (x % 2 ^ exWidth e) (elVal e x) := by
  cases e with
  | fl t => exact float_views t x
  | int sg w => exact int_views sg w x
theorem ElViews.nvOf {e : El} {w : Nat} {v : FVal} (h : ElViews e w v) : nvOf v = if exSnan e w = true then fNV else 0 := by
  have hs (h : exNan e w = false) : exSnan e w = false := by
    cases e with
    | fl t => exact fpSnan_of_not_nan h
    | int _ _ => rfl
  cases h with
  | nan hn hi => cases exSnan e w <;> rfl
  | inf hn hi => rw [hs hn]; rfl
  | fin n m x hn hi hx => rw [hs hn]; rfl

/-! ## A product of a block (R271) -/

section
variable (ea eb : El) (x y : Nat)
/-- A product is a NaN's, is zero times an infinity, is infinite; its sign; it sets NV. -/
def termNan : Bool := exNan ea x || exNan eb y
def termZeroInf : Bool := !termNan ea eb x y && ((exInf ea x && !exInf eb y && decide (exNum eb y = 0))
  || (exInf eb y && !exInf ea x && decide (exNum ea x = 0)))
def termInf : Bool := exInf ea x || exInf eb y
def termNeg : Bool := exNeg ea x != exNeg eb y
def termNv : Bool := termZeroInf ea eb x y || exSnan ea x || exSnan eb y
end

/-- What an exact product delivers to the sum of its block. -/
inductive TermViews (ea eb : El) (x y : Nat) : FVal → Prop where
  | nan : (termNan ea eb x y || termZeroInf ea eb x y) = true → TermViews ea eb x y (.nan false)
  | inf : (termNan ea eb x y || termZeroInf ea eb x y) = false → termInf ea eb x y = true → TermViews ea eb x y (.inf (termNeg ea eb x y))
  | fin (n : Bool) (m : Nat) (e : ℤ) : (termNan ea eb x y || termZeroInf ea eb x y) = false → termInf ea eb x y = false →
    (FVal.fin n m e).num = exNum ea x * exNum eb y → (elIsInt ea = false → n = termNeg ea eb x y) → TermViews ea eb x y (.fin n m e)

theorem exInf_float {e : El} {x : Nat} (h : exInf e x = true) : elIsInt e = false := by
  cases e with
  | fl t => rfl
  | int _ _ => exact Bool.noConfusion h
theorem exSnan_nan {e : El} {x : Nat} (h : exNan e x = false) : exSnan e x = false := by
  cases e with
  | fl t => exact fpSnan_of_not_nan h
  | int _ _ => rfl
theorem mulExact_views {ea eb : El} {x y : Nat} {u v : FVal} (hee : elIsInt ea = elIsInt eb) (hu : ElViews ea x u) (hv : ElViews eb y v) :
    TermViews ea eb x y (mulExact u v).1 ∧ (mulExact u v).2 = if termNv ea eb x y = true then fNV else 0 := by
  have hnv : nvOf u ||| nvOf v = if (exSnan ea x || exSnan eb y) = true then fNV else 0 := by
    rw [hu.nvOf, hv.nvOf, nv_or]
  have hnan (h : termNan ea eb x y = true) : termNv ea eb x y = (exSnan ea x || exSnan eb y) := by
    unfold termNv termZeroInf
    rw [h]
    simp
  cases hu with
  | nan hn hi =>
    have h : termNan ea eb x y = true := by simp [termNan, hn]
    exact ⟨.nan (by simp [h]), by rw [hnan h, ← hnv]; rfl⟩
  | inf hn hi =>
    cases hv with
    | nan hn' hi' =>
      have h : termNan ea eb x y = true := by simp [termNan, hn']
      exact ⟨.nan (by simp [h]), by rw [hnan h, ← hnv]; rfl⟩
    | inf hn' hi' =>
      have hz : termZeroInf ea eb x y = false := by simp [termZeroInf, hi, hi']
      have hN : termNan ea eb x y = false := by simp [termNan, hn, hn']
      exact ⟨.inf (by simp [hN, hz]) (by simp [termInf, hi]), by simp [termNv, hz, exSnan_nan hn, exSnan_nan hn', mulExact]⟩
    | fin n m e hn' hi' hm hs =>
      have hN : termNan ea eb x y = false := by simp [termNan, hn, hn']
      by_cases h0 : m = 0
      · have hz : termZeroInf ea eb x y = true := by
          simp [termZeroInf, hN, hi, hi', ← hm, num_eq_zero.2 h0]
        simp only [mulExact, if_pos h0]
        exact ⟨.nan (by simp [hz]), by simp [termNv, hz]⟩
      · have hz : termZeroInf ea eb x y = false := by
          simp [termZeroInf, hi, hi', ← hm, num_eq_zero, h0]
        simp only [mulExact, if_neg h0, hs (hee ▸ exInf_float hi)]
        exact ⟨.inf (by simp [hN, hz]) (by simp [termInf, hi]), by simp [termNv, hz, exSnan_nan hn, exSnan_nan hn']⟩
  | fin n m e hn hi hm hs =>
    cases hv with
    | nan hn' hi' =>
      have h : termNan ea eb x y = true := by simp [termNan, hn']
      exact ⟨.nan (by simp [h]), by rw [hnan h, ← hnv]; rfl⟩
    | inf hn' hi' =>
      have hN : termNan ea eb x y = false := by simp [termNan, hn, hn']
      by_cases h0 : m = 0
      · have hz : termZeroInf ea eb x y = true := by
          simp [termZeroInf, hN, hi, hi', ← hm, num_eq_zero.2 h0]
        simp only [mulExact, if_pos h0]
        exact ⟨.nan (by simp [hz]), by simp [termNv, hz]⟩
      · have hz : termZeroInf ea eb x y = false := by
          simp [termZeroInf, hi, hi', ← hm, num_eq_zero, h0]
        simp only [mulExact, if_neg h0, hs (hee ▸ exInf_float hi')]
        exact ⟨.inf (by simp [hN, hz]) (by simp [termInf, hi']), by simp [termNv, hz, exSnan_nan hn, exSnan_nan hn']⟩
    | fin n' m' e' hn' hi' hm' hs' =>
      have hN : termNan ea eb x y = false := by simp [termNan, hn, hn']
      have hz : termZeroInf ea eb x y = false := by simp [termZeroInf, hi, hi']
      refine ⟨.fin _ _ _ (by simp [hN, hz]) (by simp [termInf, hi, hi']) ?_ fun h => ?_, by
        simp [termNv, hz, exSnan_nan hn, exSnan_nan hn', mulExact]⟩
      · rw [mul_num, hm, hm']
      · rw [hs h, hs' (hee ▸ h)]
        rfl

end Sys2Proof.Machine
end

section
/-! PROOFS. Sums of products: a block, a row and column of MMQ, an element of MMQZ (R271, R276). -/

namespace Sys2Proof.Machine

/-! ## Exact sums at one exponent -/

/-- An infinity of sign n. -/
def infOf (n : Bool) (v : FVal) : Bool := match v with | .inf m => m = n | _ => false
/-- A zero with a minus sign. -/
def negZero (v : FVal) : Bool := match v with | .fin s m _ => s && m = 0 | _ => false
/-- The lowest exponent of some values, at most 0. -/
def lowestStep (m : Int) (v : FVal) : Int := match v with | .fin _ _ e => min m e | _ => m
def commonStep (vs : List FVal) : Int := vs.foldl lowestStep 0
/-- A value's steps of an exponent that is not above its own. -/
def stepsAt (lo : Int) (v : FVal) : Int := match v with | .fin s m e => signedAt s m e lo | _ => 0
def LowAt (lo : Int) (v : FVal) : Prop := match v with | .fin _ _ e => lo ≤ e | _ => True

theorem stepsAt_num {lo : Int} {v : FVal} (h : LowAt lo v) : (stepsAt lo v : ℚ) * 2 ^ lo = v.num := by
  cases v with
  | nan q => simp [stepsAt, FVal.num]
  | inf n => simp [stepsAt, FVal.num]
  | fin n m e => exact signedAt_num n m h
theorem lowestStep_le (m : Int) (v : FVal) : lowestStep m v ≤ m ∧ LowAt (lowestStep m v) v := by
  cases v with
  | nan q => exact ⟨le_refl m, trivial⟩
  | inf n => exact ⟨le_refl m, trivial⟩
  | fin n k e => exact ⟨min_le_left .., min_le_right ..⟩
theorem LowAt.mono {lo lo' : Int} {v : FVal} (h : LowAt lo v) (hl : lo' ≤ lo) : LowAt lo' v := by
  cases v with
  | nan q => trivial
  | inf n => trivial
  | fin n m e => exact le_trans hl h
theorem foldl_lowest (vs : List FVal) (m : Int) : vs.foldl lowestStep m ≤ m ∧ ∀ v ∈ vs, LowAt (vs.foldl lowestStep m) v := by
  induction vs generalizing m with
  | nil => exact ⟨le_refl m, fun _ h => absurd h (by simp)⟩
  | cons v vs ih =>
    obtain ⟨hm, hv⟩ := lowestStep_le m v
    obtain ⟨hle, hall⟩ := ih (lowestStep m v)
    refine ⟨le_trans hle hm, fun u hu => ?_⟩
    rcases List.mem_cons.1 hu with rfl | hu
    · exact hv.mono hle
    · exact hall u hu
theorem commonStep_at {vs : List FVal} {v : FVal} (h : v ∈ vs) : LowAt (commonStep vs) v := (foldl_lowest vs 0).2 v h
/-- A sum taken from the left is the list's sum. -/
theorem foldl_add_sum {α : Type} (f : α → Int) (l : List α) (n : Int) : l.foldl (fun n x => n + f x) n = n + (l.map f).sum := by
  induction l generalizing n with
  | nil => simp
  | cons x l ih => rw [List.foldl_cons, ih, List.map_cons, List.sum_cons, add_assoc]
/-- Weighted steps at a common exponent, as numbers. -/
theorem sum_stepsAt {α : Type} (l : List α) (g : α → FVal) (k : α → Int) {lo : Int} (h : ∀ x ∈ l, LowAt lo (g x)) :
    (((l.map fun x => stepsAt lo (g x) * k x).sum : Int) : ℚ) * 2 ^ lo = (l.map fun x => (g x).num * k x).sum := by
  induction l with
  | nil => simp
  | cons x l ih =>
    simp only [List.map_cons, List.sum_cons]
    push_cast
    push_cast at ih
    rw [add_mul, ih fun y hy => h y (List.mem_cons_of_mem _ hy), ← stepsAt_num (h x List.mem_cons_self)]
    ring

theorem any_eq_of_mem {α : Type} {l : List α} {p q : α → Bool} (h : ∀ x ∈ l, p x = q x) : l.any p = l.any q := by
  induction l with
  | nil => rfl
  | cons x l ih =>
    rw [List.any_cons, List.any_cons, h x List.mem_cons_self, ih fun y hy => h y (List.mem_cons_of_mem _ hy)]
theorem all_eq_of_mem {α : Type} {l : List α} {p q : α → Bool} (h : ∀ x ∈ l, p x = q x) : l.all p = l.all q := by
  rw [List.all_eq_not_any_not, List.all_eq_not_any_not, any_eq_of_mem fun x hx => by rw [h x hx]]

theorem sum_mul_sub {α : Type} (l : List α) (f g : α → ℚ) (z : ℚ) :
    (l.map fun x => f x * (g x - z)).sum = (l.map fun x => f x * g x).sum - z * (l.map f).sum := by
  induction l with
  | nil => simp
  | cons x l ih =>
    simp only [List.map_cons, List.sum_cons]
    rw [ih]
    ring

/-! ## A block of products (R271) -/

/-- The flags of some terms. -/
def orFlags (fs : List Byte) : Byte := fs.foldl (fun f g => f ||| g) 0
theorem foldl_or_nv {α : Type} (l : List α) (p : α → Bool) (b : Bool) :
    (l.map fun x => if p x = true then fNV else 0).foldl (fun f g => f ||| g) (if b = true then fNV else 0) =
      if (b || l.any p) = true then fNV else 0 := by
  induction l generalizing b with
  | nil => simp
  | cons x l ih => rw [List.map_cons, List.foldl_cons, nv_or, ih, List.any_cons, Bool.or_assoc]
theorem orFlags_nv {α : Type} (l : List α) (p : α → Bool) :
    orFlags (l.map fun x => if p x = true then fNV else 0) = if l.any p = true then fNV else 0 := foldl_or_nv l p false
theorem blockSum_eq (ints : Bool) (ts : List (FVal × Byte)) : blockSum ints ts =
    if (ts.map (·.1)).any FVal.isNan = true then (.nan false, orFlags (ts.map (·.2)))
    else if ((ts.map (·.1)).any (infOf true) && (ts.map (·.1)).any (infOf false)) = true then (.nan false, orFlags (ts.map (·.2)) ||| fNV)
    else if (ts.map (·.1)).any (infOf true) = true then (.inf true, orFlags (ts.map (·.2)))
    else if (ts.map (·.1)).any (infOf false) = true then (.inf false, orFlags (ts.map (·.2)))
    else (ofSigned ((ts.map (·.1)).map (stepsAt (commonStep (ts.map (·.1))))).sum (commonStep (ts.map (·.1)))
      (!ints && (ts.map (·.1)).all negZero), orFlags (ts.map (·.2))) := by
  have hsum (lo : Int) : ts.foldl (fun n t => match t.1 with | .fin s m e => n + signedAt s m e lo | _ => n) 0 =
      ((ts.map (·.1)).map (stepsAt lo)).sum := by
    rw [List.map_map, ← zero_add (List.sum _), ← foldl_add_sum]
    congr 1
    funext n t
    obtain ⟨v, f⟩ := t
    cases v <;> simp [stepsAt]
  have hlo : ts.foldl (fun m t => match t.1 with | .fin _ _ e => min m e | _ => m) 0 = commonStep (ts.map (·.1)) := by
    unfold commonStep
    rw [List.foldl_map]
    rfl
  have hfl : ts.foldl (fun (f : Byte) t => f ||| t.2) 0 = orFlags (ts.map (·.2)) := by
    unfold orFlags
    rw [List.foldl_map]
  simp only [List.any_map, List.all_map]
  rw [← hsum, ← hlo, ← hfl]
  rfl

theorem TermViews.isNan {ea eb : El} {x y : Nat} {v : FVal} (h : TermViews ea eb x y v) :
    v.isNan = (termNan ea eb x y || termZeroInf ea eb x y) := by
  cases h with
  | nan hn => exact hn.symm
  | inf hn hi => exact hn.symm
  | fin n m e hn hi => exact hn.symm
theorem TermViews.infOf {ea eb : El} {x y : Nat} {v : FVal} (h : TermViews ea eb x y v)
    (hn : (termNan ea eb x y || termZeroInf ea eb x y) = false) (n : Bool) :
    infOf n v = (termInf ea eb x y && termNeg ea eb x y == n) := by
  cases h with
  | nan hn' => exact absurd hn' (by simp [hn])
  | inf hn' hi =>
    rw [hi]
    show decide _ = _
    cases termNeg ea eb x y <;> cases n <;> rfl
  | fin m k e hn' hi => rw [hi]; rfl
/-- A finite product: its number, and when it is −0. -/
theorem TermViews.finite {ea eb : El} {x y : Nat} {v : FVal} (h : TermViews ea eb x y v)
    (hn : (termNan ea eb x y || termZeroInf ea eb x y) = false) (hi : termInf ea eb x y = false) :
    v.num = exNum ea x * exNum eb y ∧
      (elIsInt ea = false → negZero v = (termNeg ea eb x y && decide (exNum ea x * exNum eb y = 0))) := by
  cases h with
  | nan hn' => exact absurd hn' (by simp [hn])
  | inf hn' hi' => exact absurd hi' (by simp [hi])
  | fin n m e hn' hi' hnum hs =>
    refine ⟨hnum, fun hint => ?_⟩
    rw [← hs hint, ← hnum]
    simp only [negZero, num_eq_zero]
theorem exNeg_int {e : El} (h : elIsInt e = true) (x : Nat) : exNeg e x = false := by
  cases e with
  | fl t => exact Bool.noConfusion h
  | int _ _ => rfl

theorem termNv_of_not_nan {ea eb : El} {x y : Nat} (h : (termNan ea eb x y || termZeroInf ea eb x y) = false) : termNv ea eb x y = false := by
  obtain ⟨hn, hz⟩ := Bool.or_eq_false_iff.1 h
  obtain ⟨hx, hy⟩ := Bool.or_eq_false_iff.1 hn
  simp [termNv, hz, exSnan_nan hx, exSnan_nan hy]

section
variable {ea eb : El} {a b : Nat → Nat} {p : Nat → FVal × Byte}

/-- NV of a block's terms. -/
theorem block_flags (hf : ∀ i, (p i).2 = if termNv ea eb (a i) (b i) = true then fNV else 0) :
    orFlags (((List.range 16).map p).map (·.2)) = if ((List.range 16).any fun i => termNv ea eb (a i) (b i)) = true then fNV else 0 := by
  rw [List.map_map, ← orFlags_nv]
  congr 1
  exact List.map_congr_left fun i _ => hf i
/-- The terms of a block that are all finite, summed at their lowest exponent and rounded once. -/
theorem block_finite (hee : elIsInt ea = elIsInt eb) (hv : ∀ i, TermViews ea eb (a i) (b i) (p i).1)
    (hN : ∀ i ∈ List.range 16, (termNan ea eb (a i) (b i) || termZeroInf ea eb (a i) (b i)) = false)
    (hI : ∀ i ∈ List.range 16, termInf ea eb (a i) (b i) = false) :
    let vs := ((List.range 16).map p).map (·.1)
    RoundedSum .f32 ((List.range 16).map fun i => exNum ea (a i) * exNum eb (b i)).sum
      ((List.range 16).all fun i => termNeg ea eb (a i) (b i) && decide (exNum ea (a i) * exNum eb (b i) = 0))
      (deliver .f32 .rne 0 (ofSigned (vs.map (stepsAt (commonStep vs))).sum (commonStep vs) (!elIsInt ea && vs.all negZero))) := by
  intro vs
  have hsum : (((vs.map (stepsAt (commonStep vs))).sum : Int) : ℚ) * 2 ^ commonStep vs =
      ((List.range 16).map fun i => exNum ea (a i) * exNum eb (b i)).sum := by
    have h := sum_stepsAt (List.range 16) (fun i => (p i).1) (fun _ => 1) (lo := commonStep vs) fun i hi =>
      commonStep_at (List.mem_map_of_mem (List.mem_map_of_mem hi))
    simp only [mul_one, Int.cast_one] at h
    rw [show vs.map (stepsAt (commonStep vs)) = (List.range 16).map fun i => stepsAt (commonStep vs) (p i).1 by
      simp only [vs, List.map_map]; rfl]
    exact h.trans (congrArg List.sum (List.map_congr_left fun i hi => ((hv i).finite (hN i hi) (hI i hi)).1))
  have hzero : (!elIsInt ea && vs.all negZero) =
      (List.range 16).all fun i => termNeg ea eb (a i) (b i) && decide (exNum ea (a i) * exNum eb (b i) = 0) := by
    cases hint : elIsInt ea
    · simp only [vs]
      rw [List.map_map, List.all_map]
      exact all_eq_of_mem fun i hi => ((hv i).finite (hN i hi) (hI i hi)).2 hint
    · simp [termNeg, exNeg_int hint, exNeg_int (hee ▸ hint), List.range_succ]
  rw [← hsum, ← hzero]
  exact deliver_ofSigned ..
/-- The exact sum of a block, delivered to FP32, is what R271 says of the block. -/
theorem blockSum_blockIs (hee : elIsInt ea = elIsInt eb) (hv : ∀ i, TermViews ea eb (a i) (b i) (p i).1)
    (hf : ∀ i, (p i).2 = if termNv ea eb (a i) (b i) = true then fNV else 0) :
    let s := blockSum (elIsInt ea) ((List.range 16).map p)
    let d := deliver .f32 .rne 0 s.1
    BlockIs ea eb a b d.1 (nvOfOnly (s.2 ||| d.2)) := by
  intro s d
  let N (i : Nat) : Bool := termNan ea eb (a i) (b i) || termZeroInf ea eb (a i) (b i)
  let I (n : Bool) (i : Nat) : Bool := termInf ea eb (a i) (b i) && termNeg ea eb (a i) (b i) == n
  have hs : s = _ := blockSum_eq (elIsInt ea) ((List.range 16).map p)
  have hnan : (((List.range 16).map p).map (·.1)).any FVal.isNan = (List.range 16).any N := by
    rw [List.map_map, List.any_map]
    exact any_eq_of_mem fun i _ => (hv i).isNan
  rw [block_flags hf, hnan] at hs
  change if (List.range 16).any N = true then
      d.1 = fpCanon .f32 ∧ nvOfOnly (s.2 ||| d.2) = (if ((List.range 16).any fun i => termNv ea eb (a i) (b i)) = true then fNV else 0)
    else if (List.range 16).any (I true) = true ∧ (List.range 16).any (I false) = true then
      d.1 = fpCanon .f32 ∧ nvOfOnly (s.2 ||| d.2) = fNV
    else if (List.range 16).any (I true) = true ∨ (List.range 16).any (I false) = true then
      d.1 = fpSigned .f32 ((List.range 16).any (I true)) (fpTopInf .f32) ∧ nvOfOnly (s.2 ||| d.2) = 0
    else ∃ g, RoundedSum .f32 ((List.range 16).map fun i => exNum ea (a i) * exNum eb (b i)).sum
      ((List.range 16).all fun i => termNeg ea eb (a i) (b i) && decide (exNum ea (a i) * exNum eb (b i) = 0)) (d.1, g) ∧
        nvOfOnly (s.2 ||| d.2) = g &&& fOF
  by_cases h1 : (List.range 16).any N = true
  · rw [if_pos h1] at hs
    rw [if_pos h1, show d = deliver .f32 .rne 0 s.1 from rfl, hs]
    refine ⟨rfl, ?_⟩
    dsimp only [deliver]
    split <;> rfl
  rw [if_neg h1] at hs ⊢
  have hN (i : Nat) (hi : i ∈ List.range 16) : N i = false := by
    rw [List.any_eq_true] at h1
    exact Bool.eq_false_iff.2 fun h => h1 ⟨i, hi, h⟩
  have hfl0 : (if ((List.range 16).any fun i => termNv ea eb (a i) (b i)) = true then fNV else 0) = 0 := by
    rw [if_neg]
    simp only [List.any_eq_true, not_exists, not_and]
    exact fun i hi => Bool.eq_false_iff.1 (termNv_of_not_nan (hN i hi))
  have hinf (n : Bool) : (((List.range 16).map p).map (·.1)).any (infOf n) = (List.range 16).any (I n) := by
    rw [List.map_map, List.any_map]
    exact any_eq_of_mem fun i hi => (hv i).infOf (hN i hi) n
  rw [hfl0, hinf, hinf] at hs
  by_cases h2 : (List.range 16).any (I true) = true ∧ (List.range 16).any (I false) = true
  · rw [if_pos (by rw [h2.1, h2.2]; rfl)] at hs
    rw [if_pos h2, show d = deliver .f32 .rne 0 s.1 from rfl, hs]
    exact ⟨rfl, rfl⟩
  rw [if_neg (by rwa [Bool.and_eq_true])] at hs
  rw [if_neg h2]
  by_cases h3 : (List.range 16).any (I true) = true
  · rw [if_pos h3] at hs
    rw [if_pos (.inl h3), show d = deliver .f32 .rne 0 s.1 from rfl, hs, h3]
    exact ⟨rfl, rfl⟩
  rw [if_neg h3] at hs
  by_cases h4 : (List.range 16).any (I false) = true
  · rw [if_pos h4] at hs
    rw [if_pos (.inr h4), show d = deliver .f32 .rne 0 s.1 from rfl, hs, Bool.eq_false_iff.2 h3]
    exact ⟨rfl, rfl⟩
  rw [if_neg h4] at hs
  rw [if_neg (not_or.2 ⟨h3, h4⟩)]
  have hI (i : Nat) (hi : i ∈ List.range 16) : termInf ea eb (a i) (b i) = false := by
    by_contra h
    rw [Bool.not_eq_false] at h
    have hany : (List.range 16).any (I (termNeg ea eb (a i) (b i))) = true :=
      List.any_eq_true.2 ⟨i, hi, by simp only [I]; rw [h]; simp⟩
    cases hn : termNeg ea eb (a i) (b i) <;> rw [hn] at hany
    · exact h4 hany
    · exact h3 hany
  have hd : d = deliver .f32 .rne 0 s.1 := rfl
  rw [hs] at hd
  have hround := block_finite hee hv hN hI
  dsimp only at hd hround
  rw [← hd] at hround
  refine ⟨d.2, hround, ?_⟩
  rw [hs]
  exact (congrArg nvOfOnly (zero_or _)).trans hround.result.2
end

/-! ## A row and a column (R271) -/

/-- An accumulator and its flags after one block. -/
def mmStep (ints : Bool) (a b : Nat → FVal) (n : Nat) (x : Word × Byte) : Word × Byte :=
  let s := blockSum ints ((List.range 16).map fun i => mulExact (a (16 * n + i)) (b (16 * n + i)))
  let d := deliver .f32 .rne 0 s.1
  let r := fpAdd .f32 x.1.toNat d.1
  (BitVec.ofNat 32 r.1, x.2 ||| nvOfOnly (s.2 ||| d.2 ||| r.2))
theorem mmElem_head (ints : Bool) (a b : Nat → FVal) (n k : Nat) (x : Word × Byte) :
    mmElem ints a b (n + 1) k x = mmElem ints a b n (k + 1) (mmStep ints a b k x) := rfl
theorem mmElem_last (ints : Bool) (a b : Nat → FVal) (n k : Nat) (x : Word × Byte) :
    mmElem ints a b (n + 1) k x = mmStep ints a b (k + n) (mmElem ints a b n k x) := by
  induction n generalizing k x with
  | zero => rfl
  | succ n ih => rw [mmElem_head, ih, mmElem_head, Nat.add_right_comm]; rfl
theorem nvOfOnly_or (f g : Byte) : nvOfOnly (f ||| g) = nvOfOnly f ||| nvOfOnly g := by
  unfold nvOfOnly
  exact BitVec.and_or_distrib_right ..
/-- An element of MMQ and MMQT is what R271 says of its row and column. -/
theorem mmElem_mmIs {ea eb : El} {a b : Nat → Nat} {va vb : Nat → FVal} (hee : elIsInt ea = elIsInt eb)
    (ha : ∀ k, ElViews ea (a k) (va k)) (hb : ∀ k, ElViews eb (b k) (vb k)) (k : Nat) (x : Word) :
    MmIs ea eb k a b x (mmElem (elIsInt ea) va vb (k / 16) 0 (x, 0)) := by
  let y (n : Nat) := mmElem (elIsInt ea) va vb n 0 (x, 0)
  refine ⟨fun n => (y n).1, fun n => (y n).2, rfl, rfl, rfl, fun n _ => ?_⟩
  let s := blockSum (elIsInt ea) ((List.range 16).map fun i => mulExact (va (16 * n + i)) (vb (16 * n + i)))
  let d := deliver .f32 .rne 0 s.1
  have hy : y (n + 1) = mmStep (elIsInt ea) va vb n (y n) := by
    have h := mmElem_last (elIsInt ea) va vb n 0 (x, 0)
    rwa [zero_add] at h
  have hblock : BlockIs ea eb (fun i => a (16 * n + i)) (fun i => b (16 * n + i)) d.1 (nvOfOnly (s.2 ||| d.2)) :=
    blockSum_blockIs hee (fun i => (mulExact_views hee (ha _) (hb _)).1) fun i => (mulExact_views hee (ha _) (hb _)).2
  refine ⟨d.1, nvOfOnly (s.2 ||| d.2), (fpAdd .f32 (y n).1.toNat d.1).2, hblock, ?_, ?_⟩
  · dsimp only
    rw [hy]
    exact fpAdd_word ..
  · dsimp only
    rw [hy]
    show (y n).2 ||| nvOfOnly (s.2 ||| d.2 ||| (fpAdd .f32 (y n).1.toNat d.1).2) = _
    rw [nvOfOnly_or, ← BitVec.or_assoc]
    rfl
theorem idleElem_idleIs (x : Word) : IdleIs x (idleElem x) := ⟨_, fpAdd_word x 0, rfl⟩

/-! ## An element of MMQZ (R276) -/

/-- The number of a weight or a zero point. -/
def weight (v : FVal) : Int := match v with | .fin s m _ => if s then -(m : Int) else m | _ => 0
def notFinite (v : FVal) : Bool := match v with | .fin _ _ _ => false | _ => true
theorem weight_int (sg : Bool) (w x : Nat) : ((weight (elVal (.int sg w) x) : Int) : ℚ) = exNum (.int sg w) x := by
  have hn := ofSigned_num (if sg = true then sextInt w x else (x % 2 ^ w : Nat)) 0 false
  obtain ⟨n, m, hf⟩ := ofSigned_fin (if sg = true then sextInt w x else (x % 2 ^ w : Nat)) 0 false
  rw [exNum_int]
  change ((weight (ofSigned _ 0 false) : Int) : ℚ) = _
  rw [hf] at hn ⊢
  simpa [FVal.num, weight] using hn
theorem ElViews.num {e : El} {w : Nat} {v : FVal} (h : ElViews e w v) (hf : ¬notFinite v = true) : v.num = exNum e w := by
  cases h with
  | nan hn hi => exact absurd rfl hf
  | inf hn hi => exact absurd rfl hf
  | fin n m x hn hi hx => exact hx
theorem ElViews.notFinite {e : El} {w : Nat} {v : FVal} (h : ElViews e w v) : notFinite v = (exNan e w || exInf e w) := by
  cases h with
  | nan hn hi => rw [hn]; rfl
  | inf hn hi => rw [hn, hi]; rfl
  | fin n m x hn hi => rw [hn, hi]; rfl
theorem Views.notFinite {t : FTy} {w : Nat} {v : FVal} (h : Views t w v) : notFinite v = (fpNan t w || fpInf t w) := by
  cases h with
  | nan hn hi => rw [hn]; rfl
  | inf hn hi => rw [hn, hi]; rfl
  | fin m x hn hi => rw [hn, hi]; rfl
/-- A NaN's flags add nothing to NV. -/
theorem nv_or_nvOf (v : FVal) : fNV ||| nvOf v = fNV := by
  cases v with
  | nan q => cases q <;> rfl
  | inf n => exact or_zero fNV
  | fin n m e => exact or_zero fNV
theorem nv_or_foldl (vs : List FVal) {f : Byte} (h : fNV ||| f = fNV) : fNV ||| vs.foldl (fun f v => f ||| nvOf v) f = fNV := by
  induction vs generalizing f with
  | nil => exact h
  | cons v vs ih => exact ih (by rw [← BitVec.or_assoc, h, nv_or_nvOf])

section
variable (a q : Nat → FVal) (zp : Int) (acc : Word)

/-- The steps of S − Z of a row and column at the exponent lo (R276). -/
def mzSteps (lo : Int) : Int := ((List.range 32).map fun k => stepsAt lo (a k) * (weight (q k) - zp)).sum
/-- What is added to the accumulator. -/
def mzTerm (scale : FVal) : Nat × Byte :=
  let lo := commonStep ((List.range 32).map a)
  let x := (List.range 32).foldl (fun n k => n + stepsAt lo (a k) * (weight (q k) - zp)) 0
  let sig := ((List.range 32).map a).foldl (fun f v => f ||| nvOf v) (nvOf scale)
  match scale with
  | .fin sn sm se => if ((List.range 32).map a).any notFinite then (FTy.nan .f32, fNV ||| sig)
    else deliver .f32 .rne 0 (ofSigned (x * weight (.fin sn sm se)) (lo + se) false)
  | _ => (FTy.nan .f32, fNV ||| sig)
theorem mzElem_eq (scale : FVal) : mzElem a q scale zp acc =
    (BitVec.ofNat 32 (fpAdd .f32 acc.toNat (mzTerm a q zp scale).1).1,
      nvOfOnly ((mzTerm a q zp scale).2 ||| (fpAdd .f32 acc.toNat (mzTerm a q zp scale).1).2)) := by
  cases scale <;> rfl
/-- A NaN or an infinity among the scale and the row: the canonical NaN, with NV. -/
theorem mzTerm_special {scale : FVal} (h : (((List.range 32).map a).any notFinite || notFinite scale) = true) :
    mzTerm a q zp scale = (fpCanon .f32, fNV) := by
  have hsig := nv_or_foldl ((List.range 32).map a) (nv_or_nvOf scale)
  unfold mzTerm
  dsimp only
  rw [hsig]
  cases scale with
  | nan s => rfl
  | inf n => rfl
  | fin n m e => exact if_pos ((Bool.or_false _).symm.trans h)
theorem mzTerm_finite (sn : Bool) (sm : Nat) (se : Int) (h : ((List.range 32).map a).any notFinite = false) :
    mzTerm a q zp (.fin sn sm se) = deliver .f32 .rne 0 (ofSigned (mzSteps a q zp (commonStep ((List.range 32).map a)) * weight (.fin sn sm se))
      (commonStep ((List.range 32).map a) + se) false) := by
  unfold mzSteps
  rw [← zero_add (List.sum _), ← foldl_add_sum]
  exact if_neg (by rw [h]; decide)
/-- S − Z as a number (R276). -/
theorem mzSteps_num {lo : Int} (h : ∀ k, k < 32 → LowAt lo (a k)) : (mzSteps a q zp lo : ℚ) * 2 ^ lo =
    ((List.range 32).map fun k => (a k).num * weight (q k)).sum - zp * ((List.range 32).map fun k => (a k).num).sum := by
  have hs := sum_stepsAt (List.range 32) a (fun k => weight (q k) - zp) (lo := lo) fun k hk => h k (List.mem_range.1 hk)
  unfold mzSteps
  rw [hs, ← sum_mul_sub]
  push_cast
  rfl
end

/-- An element of MMQZ is what R276 says of its row and its column of weights. -/
theorem mzElem_mzIs {ea : El} {a : Nat → Nat} {va vq : Nat → FVal} {q : Nat → ℚ} {scale : Nat} {vs : FVal} {z : Int} {zq : ℚ}
    (hs : Views .f16 scale vs) (ha : ∀ k, ElViews ea (a k) (va k)) (hq : ∀ k, ((weight (vq k) : Int) : ℚ) = q k) (hz : (z : ℚ) = zq) (x : Word) :
    MzIs ea a q scale zq x (mzElem va vq vs z x) := by
  have hbad : ((List.range 32).map va).any notFinite = (List.range 32).any fun k => exNan ea (a k) || exInf ea (a k) := by
    rw [List.any_map]
    exact any_eq_of_mem fun k _ => (ha k).notFinite
  have hcond : (((List.range 32).any fun k => exNan ea (a k) || exInf ea (a k)) || fpNan .f16 scale || fpInf .f16 scale) =
      (((List.range 32).map va).any notFinite || notFinite vs) := by
    rw [hbad, hs.notFinite, Bool.or_assoc]
  rw [mzElem_eq]
  refine ⟨(mzTerm va vq z vs).1, (mzTerm va vq z vs).2, _, fpAdd_word .., rfl, ?_⟩
  rw [hcond]
  by_cases h : (((List.range 32).map va).any notFinite || notFinite vs) = true
  · rw [if_pos h, mzTerm_special va vq z h]
    exact ⟨rfl, rfl⟩
  · rw [if_neg h]
    rw [Bool.not_eq_true, Bool.or_eq_false_iff] at h
    obtain ⟨hrow, hscale⟩ := h
    cases hs with
    | nan hn hi => exact Bool.noConfusion hscale
    | inf hn hi => exact Bool.noConfusion hscale
    | fin m e hn hi hm =>
      rw [mzTerm_finite va vq z _ m e hrow]
      refine (deliver_ofSigned ..).congr ?_ fun _ => rfl
      have hnum (k : Nat) (hk : k ∈ List.range 32) : (va k).num = exNum ea (a k) :=
        (ha k).num ((List.any_eq_false.1 hrow) (va k) (List.mem_map_of_mem hk))
      have hsteps := mzSteps_num va vq z (lo := commonStep ((List.range 32).map va)) fun k hk =>
        commonStep_at (List.mem_map_of_mem (List.mem_range.2 hk))
      have hprod (k : Nat) (hk : k ∈ List.range 32) : (va k).num * (weight (vq k) : ℚ) = exNum ea (a k) * q k := by rw [hnum k hk, hq]
      rw [List.map_congr_left hprod, List.map_congr_left hnum, hz] at hsteps
      rw [← hsteps, ← fpNum_fin hm, zpow_add₀ (by norm_num)]
      unfold FVal.num weight
      push_cast
      ring

end Sys2Proof.Machine
end

section
/-! PROOFS. The values a matrix command gives elements, from what it has captured and read (R270, R271, R275 to R277, R280). -/

namespace Sys2Proof.Machine

/-! ## Operands (R270) -/

theorem aElem_views (c : MxCmd) (e : El) (l k : Nat) : ElViews e (aBits c.a (exWidth e) l k) (aElem c e l k) := by
  unfold aBits aElem
  rw [elWidth_eq]
  exact el_views e _
/-- The element types that B can have. -/
def BType (e : El) : Prop := exWidth e = 16 ∨ exWidth e = 8 ∨ exWidth e = 4
theorem bElem_16 {e : El} (h : exWidth e = 16) (carve : Cells Byte) (base k j : Nat) :
    bElem carve e base k j = elVal e (readNum carve (base + 2 * (16 * k + j)) 2) := by
  unfold bElem
  rw [elWidth_eq, h]
  rfl
theorem bElem_8 {e : El} (h : exWidth e = 8) (carve : Cells Byte) (base k j : Nat) :
    bElem carve e base k j = elVal e (readNum carve (base + 16 * k + j) 1) := by
  unfold bElem
  rw [elWidth_eq, h]
  rfl
theorem bElem_4 {e : El} (h : exWidth e = 4) (carve : Cells Byte) (base k j : Nat) :
    bElem carve e base k j = elVal e (readNum carve (base + 8 * k + j / 2) 1 / 16 ^ (j % 2)) := by
  unfold bElem
  rw [elWidth_eq, h]
  rfl
/-- An element of B is that of its bits. -/
theorem bElem_value {e : El} (he : BType e) (carve : Cells Byte) (base k j : Nat) :
    ∃ x, bElem carve e base k j = elVal e x ∧ bBits carve (exWidth e) base k j = x % 2 ^ exWidth e := by
  rcases he with h | h | h
  · refine ⟨_, bElem_16 h carve base k j, ?_⟩
    rw [h, Nat.mod_eq_of_lt (b := 2 ^ 16) (readNum_lt carve _ 2)]
    rfl
  · refine ⟨_, bElem_8 h carve base k j, ?_⟩
    rw [h, Nat.mod_eq_of_lt (b := 2 ^ 8) (readNum_lt carve _ 1), readNum_one]
    rfl
  · refine ⟨_, bElem_4 h carve base k j, ?_⟩
    rw [h, readNum_one]
    rfl
theorem bElem_views {e : El} (he : BType e) (carve : Cells Byte) (base k j : Nat) :
    ElViews e (bBits carve (exWidth e) base k j) (bElem carve e base k j) := by
  obtain ⟨x, hx, hb⟩ := bElem_value he carve base k j
  rw [hx, hb]
  exact el_views e x
/-- Two stores hold the same bytes of a range. -/
def SameBytes (m m' : Cells Byte) (lo n : Nat) : Prop := ∀ i, lo ≤ i → i < lo + n → cget 0 m i = cget 0 m' i
theorem SameBytes.readNum {m m' : Cells Byte} {lo n a k : Nat} (h : SameBytes m m' lo n) (h1 : lo ≤ a) (h2 : a + k ≤ lo + n) :
    readNum m a k = readNum m' a k :=
  readNum_congr fun i hi => h (a + i) (by omega) (by omega)
theorem bElem_congr {e : El} (he : BType e) {got carve : Cells Byte} {base n k j : Nat} (h : SameBytes got carve base (bBytes e n))
    (hk : k < n) (hj : j < 16) : bElem got e base k j = bElem carve e base k j := by
  unfold bBytes at h
  rw [elWidth_eq] at h
  rcases he with hw | hw | hw <;> rw [hw] at h
  · rw [bElem_16 hw, bElem_16 hw, h.readNum (by omega) (by omega)]
  · rw [bElem_8 hw, bElem_8 hw, h.readNum (by omega) (by omega)]
  · rw [bElem_4 hw, bElem_4 hw, h.readNum (by omega) (by omega)]
theorem mmElem_congr {ints : Bool} {a b b' : Nat → FVal} : ∀ {n k : Nat} {x : Word × Byte}, (∀ i, i < 16 * (k + n) → b i = b' i) →
    mmElem ints a b n k x = mmElem ints a b' n k x := by
  intro n
  induction n with
  | zero => exact fun _ => rfl
  | succ n ih =>
    intro k x h
    have hstep : mmStep ints a b k x = mmStep ints a b' k x := by
      unfold mmStep
      rw [List.map_congr_left fun i hi => by rw [h (16 * k + i) (by have := List.mem_range.1 hi; omega)]]
    rw [mmElem_head, mmElem_head, hstep, ih fun i hi => h i (by omega)]
theorem mzElem_congr {a q q' : Nat → FVal} {scale : FVal} {zp : Int} {x : Word} (h : ∀ i, i < 32 → q i = q' i) :
    mzElem a q scale zp x = mzElem a q' scale zp x := by
  have hfold (lo : Int) : (List.range 32).foldl (fun n k => n + stepsAt lo (a k) * (weight (q k) - zp)) 0 =
      (List.range 32).foldl (fun n k => n + stepsAt lo (a k) * (weight (q' k) - zp)) 0 := by
    rw [foldl_add_sum, foldl_add_sum, List.map_congr_left fun i hi => by rw [h i (List.mem_range.1 hi)]]
  have hterm : mzTerm a q zp scale = mzTerm a q' zp scale := by
    unfold mzTerm
    dsimp only
    rw [hfold]
  rw [mzElem_eq, mzElem_eq, hterm]

/-! ## Elements of MMQ, MMQT and MMQZ -/

theorem mmTable_eq (t : MmTy) : mmTable t = ((mmTypes t).1, (mmTypes t).2, mmK (mmTypes t).1) := by cases t <;> rfl
theorem mmTypes_ints (t : MmTy) : elIsInt (mmTypes t).1 = elIsInt (mmTypes t).2 := by cases t <;> rfl
theorem mmTypes_width (t : MmTy) : exWidth (mmTypes t).1 = exWidth (mmTypes t).2 := by cases t <;> rfl
theorem mmTypes_bType (t : MmTy) : BType (mmTypes t).2 := by cases t <;> simp [BType, mmTypes, exWidth]
theorem qType_bType (t : QTy) : BType (qType t) := by cases t <;> simp [BType, qType, exWidth]
theorem mzTable_eq (t : QTy) : mzTable t = qType t := by cases t <;> rfl

/-- An accumulator x becomes y of the row of a lane, and a column of B from a base (R271). -/
def ProductTo (c : MxCmd) (carve : Cells Byte) (ty : MmTy) (at_ q r j : Nat) (x : Word) (y : Word × Byte) : Prop :=
  let (ea, eb, n) := mmTable ty
  if inMask c.mask (8 * q + r) = true
    then MmIs ea eb n (aBits c.a (exWidth ea) (8 * q + r)) (fun k => bBits carve (exWidth eb) at_ k j) x y
    else IdleIs x y
theorem mmK_eq (e e' : El) (h : exWidth e = exWidth e') : mmK e = mmK e' := by
  unfold mmK
  rw [elWidth_eq, elWidth_eq, h]
theorem mmValue_productTo {c : MxCmd} {carve : Cells Byte} {ty : MmTy} {base q r j : Nat}
    (h : SameBytes c.got carve base (bBytes (mmTypes ty).2 (mmK (mmTypes ty).2))) (hj : j < 16) (x : Word) :
    ProductTo c carve ty base q r j x (mmValue c ty q r j base x) := by
  unfold ProductTo mmValue
  rw [mmTable_eq]
  dsimp only
  by_cases hm : inMask c.mask (8 * q + r) = true
  · rw [if_pos hm, if_neg (by simp [hm]), mmElem_congr (b' := fun k => bElem carve (mmTypes ty).2 base k j) fun k hk =>
      bElem_congr (mmTypes_bType ty) h (by rw [← mmK_eq _ _ (mmTypes_width ty)]; omega) hj]
    exact mmElem_mmIs (mmTypes_ints ty) (aElem_views c _ _) (fun k => bElem_views (mmTypes_bType ty) carve base k j) _ x
  · rw [if_neg hm, if_pos (by simp [hm])]
    exact idleElem_idleIs x
/-- An accumulator x becomes y of the row of a lane, and a column of weights (R276). -/
def ScaledTo (c : MxCmd) (carve : Cells Byte) (qt : QTy) (af16 : Bool) (sel : Fin 4) (base q r j : Nat) (x : Word) (y : Word × Byte) : Prop :=
  let ea : El := .fl (if af16 = true then .f16 else .bf16)
  let w := mzTable qt
  if inMask c.mask (8 * q + r) = true
    then MzIs ea (aBits c.a 16 (8 * q + r)) (fun k => exNum w (bBits carve (exWidth w) base k j))
      ((cget 0 c.b j).toNat / 2 ^ (16 * (sel.val % 2)) % 2 ^ 16) (exNum w ((cget 0 c.b (16 + j)).toNat / 2 ^ (8 * sel.val))) x y
    else IdleIs x y
theorem weight_q (qt : QTy) (x : Nat) : ((weight (elVal (qType qt) x) : Int) : ℚ) = exNum (qType qt) x := by
  cases qt <;> exact weight_int ..
theorem mzZero_num (c : MxCmd) (qt : QTy) (sel : Fin 4) (j : Nat) :
    ((mzZero c qt sel j : Int) : ℚ) = exNum (qType qt) ((cget 0 c.b (16 + j)).toNat / 2 ^ (8 * sel.val)) := weight_q ..
theorem weight_b (qt : QTy) (carve : Cells Byte) (base k j : Nat) :
    ((weight (bElem carve (qType qt) base k j) : Int) : ℚ) = exNum (qType qt) (bBits carve (exWidth (qType qt)) base k j) := by
  obtain ⟨x, hx, hb⟩ := bElem_value (qType_bType qt) carve base k j
  rw [hx, hb, weight_q]
  cases qt <;> exact (exNum_int_mod ..).symm
theorem mzValue_scaledTo {c : MxCmd} {carve : Cells Byte} {qt : QTy} {af16 : Bool} {sel : Fin 4} {base q r j : Nat}
    (h : SameBytes c.got carve base (bBytes (qType qt) 32)) (hj : j < 16) (x : Word) :
    ScaledTo c carve qt af16 sel base q r j x (mzValue c qt af16 sel q r j base x) := by
  unfold ScaledTo mzValue
  rw [mzTable_eq]
  dsimp only
  have hw : exWidth (.fl (if af16 = true then .f16 else .bf16)) = 16 := by cases af16 <;> rfl
  generalize El.fl (if af16 = true then .f16 else .bf16) = ea at *
  by_cases hm : inMask c.mask (8 * q + r) = true
  · rw [if_pos hm, if_neg (by simp [hm]), mzElem_congr (q' := fun k => bElem carve (qType qt) base k j) fun k hk =>
      bElem_congr (qType_bType qt) h hk hj]
    have ha (k : Nat) := aElem_views c ea (8 * q + r) k
    rw [hw] at ha
    exact mzElem_mzIs (fval_views ..) ha (fun k => weight_b ..) (mzZero_num ..) x
  · rw [if_neg hm, if_pos (by simp [hm])]
    exact idleElem_idleIs x

end Sys2Proof.Machine
end

section
/-! PROOFS. A matrix command that starts whole: what it reads, and what it leaves (R265 to R268). -/

namespace Sys2Proof.Machine

/-! ## The pieces of a command -/

/-- A word of the carve-out is read. -/
def takeWord (carve : Cells Byte) (m : Cells Byte) (w : Nat) : Cells Byte :=
  cputAll 0 m ((List.range 4).map fun i => (4 * w + i, cget 0 carve (4 * w + i)))
/-- What a piece reads of the carve-out and of the tiles, the value it gives an element, and what it writes to the carve-out. -/
def pieceGot (carve m : Cells Byte) (p : MxPiece) : Cells Byte := match p with
  | .word w => cputAll 0 m ((List.range 4).map fun i => (4 * w + i, cget 0 carve (4 * w + i)))
  | _ => m
def pieceSeen (tiles m : Cells Word) (p : MxPiece) : Cells Word := match p with
  | .take k => cput 0 m k (cget 0 tiles k)
  | _ => m
def pieceVal (c : MxCmd) (tiles : Cells Word) (p : MxPiece) : Option (Nat × Word × Byte) := match p with
  | .elem k => some (k, mxElem c k (cget 0 tiles k))
  | _ => none
def piecePut (c : MxCmd) (p : MxPiece) : Option (Cells Byte × Byte) := match p with
  | .put w => some (astsWord c w)
  | _ => none
/-- An element's value reaches its tile, or the register of AMOV. -/
def mxPlace (c : MxCmd) (g : Group) (v : Nat × Word × Byte) : Group := match amovDest c v.1 with
  | some (r, l) => vput g r l v.2.1
  | none => { g with tiles := cput 0 g.tiles v.1 v.2.1, tilesBad := g.tilesBad.filter fun k => k != v.1 }
/-- Values and bytes are written, and their flags are the operation's. -/
def mxWrite (s : State) (c : MxCmd) (vals : List (Nat × Word × Byte)) (puts : List (Cells Byte × Byte)) : State :=
  let bytes := puts.flatMap (·.1)
  let flags := puts.foldl (fun f p => f ||| p.2) (vals.foldl (fun f v => f ||| v.2.2) 0)
  let s := modTeam s (grp s c.gid).team fun t => { t with
    carve := cputAll 0 t.carve bytes
    carveBad := t.carveBad.filter fun w => (mget bytes (4 * w)).isNone }
  let s := if ((mget s.ops c.op).map (·.discard)).getD false then s else modGrp s c.gid fun g => vals.foldl (mxPlace c) g
  modOp s c.op fun o => { o with flags := o.flags ||| flags }
/-- A command that has read all it reads. -/
def mxRead (c : MxCmd) (carve : Cells Byte) (tiles : Cells Word) : MxCmd :=
  { c with
    got := (mxWords c).foldl (takeWord carve) c.got
    seen := (mxTakes c).foldl (fun m k => cput 0 m k (cget 0 tiles k)) c.seen
    left := some [] }
/-- The values of its elements, and its words of the carve-out. -/
def mxVals (c : MxCmd) (carve : Cells Byte) (tiles : Cells Word) : List (Nat × Word × Byte) :=
  (mxElems c).map fun k => (k, mxElem (mxRead c carve tiles) k (cget 0 tiles k))
def mxWrites (c : MxCmd) (carve : Cells Byte) (tiles : Cells Word) : List (Cells Byte × Byte) :=
  (mxPuts c).map (astsWord (mxRead c carve tiles))

theorem mxPieces_got (c : MxCmd) (carve m : Cells Byte) : (mxPieces c).foldl (pieceGot carve) m = (mxWords c).foldl (takeWord carve) m := by
  have hid {α : Type} (f : α → MxPiece) (l : List α) (h : ∀ m x, pieceGot carve m (f x) = m) (m : Cells Byte) :
      (l.map f).foldl (pieceGot carve) m = m := by
    rw [List.foldl_map]
    induction l with
    | nil => rfl
    | cons x l ih => rw [List.foldl_cons, h, ih]
  unfold mxPieces
  rw [List.foldl_append, List.foldl_append, List.foldl_append, hid _ _ fun _ _ => rfl, hid _ _ fun _ _ => rfl,
    hid _ _ fun _ _ => rfl, List.foldl_map]
  rfl
theorem mxPieces_seen (c : MxCmd) (tiles m : Cells Word) :
    (mxPieces c).foldl (pieceSeen tiles) m = (mxTakes c).foldl (fun m k => cput 0 m k (cget 0 tiles k)) m := by
  have hid {α : Type} (f : α → MxPiece) (l : List α) (h : ∀ m x, pieceSeen tiles m (f x) = m) (m : Cells Word) :
      (l.map f).foldl (pieceSeen tiles) m = m := by
    rw [List.foldl_map]
    induction l generalizing m with
    | nil => rfl
    | cons x l ih => rw [List.foldl_cons, h, ih]
  unfold mxPieces
  rw [List.foldl_append, List.foldl_append, List.foldl_append, hid _ _ (fun _ _ => rfl) m, hid _ _ fun _ _ => rfl,
    hid _ _ fun _ _ => rfl, List.foldl_map]
  rfl
theorem filterMap_map_none {α β γ : Type} (f : β → Option γ) (g : α → β) (l : List α) (h : ∀ x, f (g x) = none) : (l.map g).filterMap f = [] := by
  rw [List.filterMap_map]
  exact List.filterMap_eq_nil_iff.2 fun x _ => h x
theorem filterMap_map_some {α β γ : Type} (f : β → Option γ) (g : α → β) (k : α → γ) (l : List α) (h : ∀ x, f (g x) = some (k x)) :
    (l.map g).filterMap f = l.map k := by
  rw [List.filterMap_map, ← List.filterMap_eq_map]
  exact List.filterMap_congr fun x _ => h x
theorem mxPieces_vals (c y : MxCmd) (tiles : Cells Word) :
    (mxPieces c).filterMap (pieceVal y tiles) = (mxElems c).map fun k => (k, mxElem y k (cget 0 tiles k)) := by
  unfold mxPieces
  rw [List.filterMap_append, List.filterMap_append, List.filterMap_append, filterMap_map_none _ _ _ fun _ => rfl,
    filterMap_map_none _ _ _ fun _ => rfl, filterMap_map_none _ _ (mxPuts c) fun _ => rfl,
    filterMap_map_some (pieceVal y tiles) .elem (fun k => (k, mxElem y k (cget 0 tiles k))) _ fun _ => rfl, List.append_nil]
  rfl
theorem mxPieces_puts (c y : MxCmd) : (mxPieces c).filterMap (piecePut y) = (mxPuts c).map (astsWord y) := by
  unfold mxPieces
  rw [List.filterMap_append, List.filterMap_append, List.filterMap_append, filterMap_map_none _ _ _ fun _ => rfl,
    filterMap_map_none _ _ _ fun _ => rfl, filterMap_map_none _ _ (mxElems c) fun _ => rfl,
    filterMap_map_some (piecePut y) .put (astsWord y) _ fun _ => rfl]
  rfl
/-- A command that starts whole reads all it reads, and then writes all it writes. -/
theorem mxAct_whole (s : State) (c : MxCmd) (h : c.left = none) :
    let g := grp s c.gid
    let carve := (team s g.team).carve
    mxAct s c (mxLeft c) = (mxWrite s (mxRead c carve g.tiles) (mxVals c carve g.tiles) (mxWrites c carve g.tiles),
      mxRead c carve g.tiles, mxBad g (team s g.team) (mxRead c carve g.tiles) (mxPieces c)) := by
  intro g carve
  have hpieces : mxLeft c = mxPieces c := by unfold mxLeft; rw [h]; rfl
  have hmore : ((mxPieces c).flatMap (mxNeeds c)).filter (fun p => (mxLeft c).contains p && !(mxPieces c).contains p) = [] := by
    rw [hpieces]
    exact List.filter_eq_nil_iff.2 fun p _ => by simp
  have hleft : (mxLeft c).filter (fun p => !(mxPieces c).contains p) = [] := by
    rw [hpieces]
    exact List.filter_eq_nil_iff.2 fun p hp => by simp [hp]
  let read (ps : List MxPiece) : MxCmd :=
    { c with got := ps.foldl (pieceGot carve) c.got, seen := ps.foldl (pieceSeen g.tiles) c.seen,
             left := some ((mxLeft c).filter fun p => !ps.contains p) }
  let made (ps : List MxPiece) : State × MxCmd × Option Nat :=
    (mxWrite s (read ps) (ps.filterMap (pieceVal (read ps) g.tiles)) (ps.filterMap (piecePut (read ps))), read ps,
      mxBad g (team s g.team) (read ps) ps)
  have hread : read (mxPieces c) = mxRead c carve g.tiles := by
    simp only [read]
    rw [hleft, mxPieces_got, mxPieces_seen]
    rfl
  have hact (ps : List MxPiece) :
      mxAct s c ps = made (ps ++ (ps.flatMap (mxNeeds c)).filter fun p => (mxLeft c).contains p && !ps.contains p) := rfl
  have hmade : made (mxPieces c) = (mxWrite s (mxRead c carve g.tiles) (mxVals c carve g.tiles) (mxWrites c carve g.tiles),
      mxRead c carve g.tiles, mxBad g (team s g.team) (mxRead c carve g.tiles) (mxPieces c)) := by
    simp only [made]
    rw [hread, mxPieces_vals, mxPieces_puts]
    rfl
  rw [hpieces, hact, hmore, List.append_nil, hmade]

/-! ## What is left (R267, R351) -/

theorem mxBad_none {g : Group} {t : Team} (c : MxCmd) (hg : g.tilesBad = []) (ht : t.carveBad = []) (ps : List MxPiece) : mxBad g t c ps = none := by
  unfold mxBad
  rw [List.findSome?_eq_none_iff]
  intro p _
  cases p <;> simp [hg, ht]
theorem failLoad_of_whole {s : State} {op : Nat} {o : Op} (h : mget s.ops op = some o) (hf : o.failed = false) : failLoad s op = s := by
  unfold failLoad
  rw [h]
  dsimp only
  rw [hf]
  rfl
/-- The last part of an operation that has not failed. -/
theorem opDone_whole {s : State} {op : Nat} {o : Op} (h : mget s.ops op = some o) (hf : o.failed = false) : opDone s op none = opParts s op 1 :=
  failLoad_of_whole (mget_modOp_same h) hf

section
variable {s : State} {c : MxCmd} {g : Group} {o : Op} {vals : List (Nat × Word × Byte)} {puts : List (Cells Byte × Byte)}

/-- What writing leaves of everything else, of the group, of the carve-out and of the operation. -/
theorem mxWrite_spec (hg : mget s.groups c.gid = some g) (ho : mget s.ops c.op = some o) (hd : o.discard = false) :
    let t := mxWrite s c vals puts
    t.mem = s.mem ∧ (∀ k, k ≠ c.gid → mget t.groups k = mget s.groups k) ∧ grp t c.gid = vals.foldl (mxPlace c) g ∧
      ((team t g.team).carve = if (mget s.teams g.team).isSome = true then cputAll 0 (team s g.team).carve (puts.flatMap (·.1))
        else (team s g.team).carve) ∧
      mget t.ops c.op = some { o with flags := o.flags ||| puts.foldl (fun f p => f ||| p.2) (vals.foldl (fun f v => f ||| v.2.2) 0) } := by
  intro t
  let bytes := puts.flatMap (·.1)
  let f1 (y : Team) : Team := { y with
    carve := cputAll 0 y.carve bytes, carveBad := y.carveBad.filter fun w => (mget bytes (4 * w)).isNone }
  let f2 (g : Group) : Group := vals.foldl (mxPlace c) g
  let f3 (o : Op) : Op := { o with flags := o.flags ||| puts.foldl (fun f p => f ||| p.2) (vals.foldl (fun f v => f ||| v.2.2) 0) }
  let s1 := modTeam s g.team f1
  let s2 := modGrp s1 c.gid f2
  have hs1 : s1 = { s with teams := s1.teams } := modTeam_frame ..
  have hs2 : s2 = { s1 with groups := s2.groups } := modGrp_frame ..
  have hg1 : mget s1.groups c.gid = some g := by rw [hs1]; exact hg
  have hg2 : s2.groups = mput s.groups c.gid (f2 g) := by
    simp only [s2, modGrp, hg1]
    simp only [setGrp]
    rw [hs1]
  have ho2 : mget s2.ops c.op = some o := by rw [hs2, hs1]; exact ho
  have ht : t = modOp s2 c.op f3 := by
    show mxWrite s c vals puts = _
    unfold mxWrite
    dsimp only
    rw [grp_of_mget hg, if_neg (by
      rw [modTeam_frame]
      simp [ho, hd])]
  have hts : t = { s2 with ops := t.ops } := by rw [ht]; exact modOp_frame ..
  have hteams : t.teams = s1.teams := by rw [hts, hs2]
  refine ⟨by rw [hts, hs2, hs1], fun k hk => ?_, ?_, ?_, by rw [ht]; exact mget_modOp_same ho2⟩
  · rw [hts]
    dsimp only
    rw [hg2, mget_mput_other _ _ _ _ hk]
  · unfold grp
    rw [hts]
    dsimp only
    rw [hg2, mget_mput_same]
    rfl
  · rw [team_congr _ hteams]
    by_cases h : (mget s.teams g.team).isSome = true
    · rw [if_pos h, team_modTeam_same f1 h]
    · rw [if_neg h]
      simp only [s1, modTeam]
      rw [Option.not_isSome_iff_eq_none.1 h]
end

/-- What a command that starts whole leaves when it is complete. -/
structure MxDone (s t : State) (x : MxCmd) (g : Group) (o : Op) : Prop where
  parts : PartDone s t x.op
  mem : t.mem = s.mem
  others : ∀ k, k ≠ x.gid → mget t.groups k = mget s.groups k
  group : grp t x.gid = (mxVals x (team s g.team).carve g.tiles).foldl (mxPlace (mxRead x (team s g.team).carve g.tiles)) g
  carve : (team t g.team).carve = if (mget s.teams g.team).isSome = true
    then cputAll 0 (team s g.team).carve ((mxWrites x (team s g.team).carve g.tiles).flatMap (·.1)) else (team s g.team).carve
  flags : (mget t.ops x.op).map (·.flags) = some (o.flags ||| (mxWrites x (team s g.team).carve g.tiles).foldl (fun f p => f ||| p.2)
    ((mxVals x (team s g.team).carve g.tiles).foldl (fun f v => f ||| v.2.2) 0))

theorem matrixCommand_done {s : State} {slot : Nat} {strm : Fin 4} {x : MxCmd} {g : Group} {o : Op} (hx : mxTurn s slot strm = some x)
    (hleft : x.left = none) (hg : mget s.groups x.gid = some g) (ho : mget s.ops x.op = some o) (hd : o.discard = false)
    (hf : o.failed = false) (htb : g.tilesBad = []) (hcb : (team s g.team).carveBad = []) :
    Gives (.matrixCommandExecute slot strm) s fun s t => MxDone s t x g o := by
  let s1 := modMx s slot fun q => q.filter fun z => z.op != x.op
  let carve := (team s g.team).carve
  let y := mxRead x carve g.tiles
  let w := mxWrite s1 y (mxVals x carve g.tiles) (mxWrites x carve g.tiles)
  have hg1 : grp s1 x.gid = g := grp_of_mget (s := s1) hg
  have hact : mxAct s1 x (mxLeft x) = (w, y, none) := by
    have h := mxAct_whole s1 x hleft
    dsimp only at h
    rw [hg1] at h
    exact h.trans (congrArg (fun b => (w, y, b)) (mxBad_none _ htb hcb _))
  obtain ⟨hmem, hothers, hgroup, hcarve, hop⟩ := mxWrite_spec (s := s1) (c := y) (vals := mxVals x carve g.tiles)
    (puts := mxWrites x carve g.tiles) hg ho hd
  have hrun : mxRun s1 x = opParts w x.op 1 := by
    unfold mxRun
    rw [hact]
    exact opDone_whole hop hf
  have hframe : opParts w x.op 1 = { w with ops := (opParts w x.op 1).ops } := modOp_frame ..
  have hops : mget (opParts w x.op 1).ops x.op = _ := mget_modOp_same hop
  refine ⟨opParts w x.op 1, ?_, ?_, ?_, ?_, ?_, ?_, ?_⟩
  · show Host.Outcome.next _ = _
    rw [hx]
    exact congrArg _ hrun
  · unfold PartDone
    rw [hops, ho]
    rfl
  · rw [hframe]
    exact hmem
  · intro k hk
    rw [hframe]
    exact hothers k hk
  · unfold grp
    rw [hframe]
    exact hgroup
  · rw [team_congr g.team (show (opParts w x.op 1).teams = w.teams by rw [hframe])]
    exact hcarve
  · rw [hops]
    rfl

end Sys2Proof.Machine
end

section
/-! PROOFS. The elements and words of a matrix command, and its effect on tiles (R266 to R268, R273, R279). -/

namespace Sys2Proof.Machine

/-! ## Which elements and words -/

theorem mem_tileKeys (ts : List Nat) (k : Nat) : k ∈ tileKeys ts ↔ k / 128 ∈ ts := by
  simp only [tileKeys, List.mem_flatMap, List.mem_map, List.mem_range]
  constructor
  · rintro ⟨t, ht, i, hi, rfl⟩
    rwa [show (128 * t + i) / 128 = t by omega]
  · exact fun h => ⟨k / 128, h, k % 128, by omega, by omega⟩
theorem mem_tileRun (tf n1 : BitVec 10) (k : Nat) :
    k ∈ tileKeys (tileRun tf n1) ↔ tf.toNat ≤ k / 128 ∧ k / 128 ≤ tf.toNat + n1.toNat := by
  simp only [mem_tileKeys, tileRun, List.mem_map, List.mem_range]
  constructor
  · rintro ⟨i, hi, he⟩
    omega
  · exact fun h => ⟨k / 128 - tf.toNat, by omega, by omega⟩
theorem byte_ne_zero (n : Nat) : n % 256 ≠ 0 ↔ ∃ r, r < 8 ∧ n.testBit r = true := by
  constructor
  · intro h
    by_contra hne
    refine h (Nat.eq_of_testBit_eq fun i => ?_)
    rw [show 256 = 2 ^ 8 from rfl, Nat.testBit_mod_two_pow, Nat.zero_testBit]
    by_cases hi : i < 8
    · have : n.testBit i = false := Bool.eq_false_iff.2 fun hb => hne ⟨i, hi, hb⟩
      simp [this]
    · simp [hi]
  · rintro ⟨r, hr, hb⟩ h
    have hz : (n % 2 ^ 8).testBit r = true := (Nat.testBit_mod_two_pow ..).trans (by simp [hr, hb])
    rw [show n % 2 ^ 8 = 0 from h, Nat.zero_testBit] at hz
    exact Bool.noConfusion hz
/-- A quarter has an active lane. -/
def Live (mask : Word) (q : Nat) : Prop := ∃ r, r < 8 ∧ inMask mask (8 * q + r) = true
theorem mem_liveQuarters (mask : Word) (q : Nat) : q ∈ liveQuarters mask ↔ q < 4 ∧ Live mask q := by
  unfold liveQuarters Live
  rw [List.mem_filter, List.mem_range, bne_iff_ne, byte_ne_zero]
  simp only [Nat.testBit_div_two_pow, inMask, BitVec.getLsbD, Nat.add_comm]
theorem mem_quarters (mask : Word) (tq k : Nat) : k ∈ tileKeys ((liveQuarters mask).map (4 * tq + ·)) ↔
    4 * tq ≤ k / 128 ∧ k / 128 < 4 * tq + 4 ∧ Live mask (k / 128 - 4 * tq) := by
  simp only [mem_tileKeys, List.mem_map, mem_liveQuarters]
  constructor
  · rintro ⟨q, ⟨hq, hl⟩, he⟩
    rw [show k / 128 - 4 * tq = q by omega]
    exact ⟨by omega, by omega, hl⟩
  · rintro ⟨h1, h2, hl⟩
    exact ⟨k / 128 - 4 * tq, ⟨by omega, hl⟩, by omega⟩
theorem mem_rangeWords {lo n k : Nat} (hlo : lo % 4 = 0) (hn : n % 4 = 0) (h1 : lo ≤ k) (h2 : k < lo + n) : k / 4 ∈ rangeWords lo n := by
  simp only [rangeWords, List.mem_map, List.mem_range]
  exact ⟨k / 4 - lo / 4, by omega, by omega⟩

/-! ## What is read -/

theorem cget_takeWord (carve m : Cells Byte) (w k : Nat) : cget 0 (takeWord carve m w) k = if k / 4 = w then cget 0 carve k else cget 0 m k := by
  have h : takeWord carve m w = ((List.range 4).map (4 * w + ·)).foldl (fun m k => cput 0 m k (cget 0 carve k)) m := by
    unfold takeWord cputAll
    rw [List.foldl_map, List.foldl_map]
  rw [h, cget_foldl_cput 0 (cget 0 carve)]
  by_cases hk : k / 4 = w
  · rw [if_pos hk, if_pos]
    simp only [List.mem_map, List.mem_range]
    exact ⟨k % 4, by omega, by omega⟩
  · rw [if_neg hk, if_neg]
    simp only [List.mem_map, List.mem_range]
    rintro ⟨i, hi, he⟩
    omega
theorem cget_takeWords (carve : Cells Byte) (ws : List Nat) (m : Cells Byte) (k : Nat) :
    cget 0 (ws.foldl (takeWord carve) m) k = if k / 4 ∈ ws then cget 0 carve k else cget 0 m k := by
  induction ws generalizing m with
  | nil => simp
  | cons w ws ih =>
    rw [List.foldl_cons, ih, cget_takeWord]
    by_cases h : k / 4 ∈ ws
    · simp [h]
    · simp [h]
/-- A command has read a range of the carve-out whose words are among its own. -/
theorem mxRead_got {c : MxCmd} {carve : Cells Byte} (tiles : Cells Word) {lo n : Nat} (hlo : lo % 4 = 0) (hn : n % 4 = 0)
    (h : ∀ w ∈ rangeWords lo n, w ∈ mxWords c) : SameBytes (mxRead c carve tiles).got carve lo n := fun k h1 h2 =>
  (cget_takeWords carve (mxWords c) c.got k).trans (if_pos (h _ (mem_rangeWords hlo hn h1 h2)))
theorem mxRead_seen (c : MxCmd) (carve : Cells Byte) (tiles : Cells Word) (k : Nat) :
    cget 0 (mxRead c carve tiles).seen k = if k ∈ mxTakes c then cget 0 tiles k else cget 0 c.seen k :=
  cget_foldl_cput 0 (cget 0 tiles) ..

/-! ## What is left of the tiles and the flags -/

theorem foldl_or_bit {α : Type} (p : α → Byte) (l : List α) (f : Byte) (i : Nat) :
    (l.foldl (fun f x => f ||| p x) f).getLsbD i = (f.getLsbD i || l.any fun x => (p x).getLsbD i) := by
  induction l generalizing f with
  | nil => simp
  | cons x l ih => rw [List.foldl_cons, ih, BitVec.getLsbD_or, List.any_cons, Bool.or_assoc]
theorem foldl_or_zero_bit {α : Type} (p : α → Byte) (l : List α) (i : Nat) :
    (l.foldl (fun f x => f ||| p x) 0).getLsbD i = l.any fun x => (p x).getLsbD i :=
  (foldl_or_bit p l 0 i).trans (by rw [show (0 : Byte).getLsbD i = false from BitVec.getLsbD_zero, Bool.false_or])
/-- An operation's flags after a command: those it had, and those of the elements. -/
def Flagged (t : State) (op : Nat) (o : Op) (F : Nat → Byte) : Prop :=
  ∀ i, (mget t.ops op).map (·.flags.getLsbD i) = some true ↔ o.flags.getLsbD i = true ∨ ∃ k, (F k).getLsbD i = true
theorem flagged_of {t : State} {op : Nat} {o : Op} {f : Byte} {F : Nat → Byte} (h : (mget t.ops op).map (·.flags) = some (o.flags ||| f))
    (hF : ∀ i, f.getLsbD i = true ↔ ∃ k, (F k).getLsbD i = true) : Flagged t op o F := by
  intro i
  have hm : (mget t.ops op).map (·.flags.getLsbD i) = some ((o.flags ||| f).getLsbD i) := by
    rw [← Option.map_some (f := fun f : Byte => f.getLsbD i), ← h, Option.map_map]
    rfl
  rw [hm, Option.some_inj, BitVec.getLsbD_or, Bool.or_eq_true, hF]
/-- The elements in P change as R says, and no other; registers and the carve-out stay. -/
def ElemsDone (s t : State) (x : MxCmd) (g : Group) (o : Op) (P : Nat → Prop) (R : Nat → Word × Byte → Prop) : Prop :=
  ((grp t x.gid).v = g.v ∧ (grp t x.gid).k = g.k ∧ (team t g.team).carve = (team s g.team).carve) ∧ ∃ F, Flagged t x.op o F ∧
    ∀ k, (P k → R k (cget 0 (grp t x.gid).tiles k, F k)) ∧ (¬P k → cget 0 (grp t x.gid).tiles k = cget 0 g.tiles k ∧ F k = 0)
theorem foldl_mxPlace_tiles {c : MxCmd} (h : ∀ k, amovDest c k = none) (e : Nat → Word × Byte) (ks : List Nat) (g : Group) :
    let g' := (ks.map fun k => (k, e k)).foldl (mxPlace c) g
    g'.v = g.v ∧ g'.k = g.k ∧ ∀ k, cget 0 g'.tiles k = if k ∈ ks then (e k).1 else cget 0 g.tiles k := by
  intro g'
  have hg : g' = ks.foldl (fun g k => { g with tiles := cput 0 g.tiles k (e k).1, tilesBad := g.tilesBad.filter fun j => j != k }) g := by
    simp only [g', List.foldl_map, mxPlace, h]
  have hfold (ks : List Nat) (g : Group) :
      let g' := ks.foldl (fun g k => { g with tiles := cput 0 g.tiles k (e k).1, tilesBad := g.tilesBad.filter fun j => j != k }) g
      g'.v = g.v ∧ g'.k = g.k ∧ g'.tiles = ks.foldl (fun m k => cput 0 m k (e k).1) g.tiles := by
    induction ks generalizing g with
    | nil => exact ⟨rfl, rfl, rfl⟩
    | cons k ks ih => exact ih _
  obtain ⟨hv, hk, ht⟩ := hfold ks g
  rw [← hg] at hv hk ht
  exact ⟨hv, hk, fun k => by rw [ht, cget_foldl_cput 0 fun k => (e k).1]⟩
/-- A command that changes tiles alone: the value of each of its elements has to be right, and of each that it leaves. -/
theorem MxDone.elems {s t : State} {x : MxCmd} {g : Group} {o : Op} (h : MxDone s t x g o) (hputs : mxPuts x = [])
    (hdest : ∀ k, amovDest x k = none) {P : Nat → Prop} {R : Nat → Word × Byte → Prop} (hP : ∀ k, k ∈ mxElems x → P k)
    (hR : ∀ k, k ∈ mxElems x → R k (mxElem (mxRead x (team s g.team).carve g.tiles) k (cget 0 g.tiles k)))
    (hrest : ∀ k, P k → k ∉ mxElems x → R k (cget 0 g.tiles k, 0)) : ElemsDone s t x g o P R := by
  let e (k : Nat) := mxElem (mxRead x (team s g.team).carve g.tiles) k (cget 0 g.tiles k)
  obtain ⟨hv, hk, ht⟩ := foldl_mxPlace_tiles (c := mxRead x (team s g.team).carve g.tiles) hdest e (mxElems x) g
  have hvals : mxVals x (team s g.team).carve g.tiles = (mxElems x).map fun k => (k, e k) := rfl
  rw [← hvals, ← h.group] at hv hk ht
  have hw : mxWrites x (team s g.team).carve g.tiles = [] := by unfold mxWrites; rw [hputs]; rfl
  have hc := h.carve
  have hf := h.flags
  rw [hw] at hc hf
  refine ⟨⟨hv, hk, hc.trans (ite_self _)⟩, fun k => if k ∈ mxElems x then (e k).2 else 0, flagged_of hf fun i => ?_, fun k => ⟨fun hp => ?_, fun hp => ?_⟩⟩
  · rw [List.foldl_nil, foldl_or_zero_bit, hvals]
    simp only [List.any_map, List.any_eq_true]
    constructor
    · rintro ⟨k, hk, hb⟩
      exact ⟨k, by rw [if_pos hk]; exact hb⟩
    · rintro ⟨k, hb⟩
      by_cases hk : k ∈ mxElems x
      · rw [if_pos hk] at hb
        exact ⟨k, hk, hb⟩
      · rw [if_neg hk] at hb
        simp at hb
  · rw [ht]
    by_cases hk : k ∈ mxElems x
    · simp only [if_pos hk]
      exact hR k hk
    · simp only [if_neg hk]
      exact hrest k hp hk
  · have hk : k ∉ mxElems x := fun hk => hp (hP k hk)
    rw [ht, if_neg hk]
    exact ⟨rfl, if_neg hk⟩

end Sys2Proof.Machine
end

section
/-! PROOFS. Each matrix command's effect (R269 to R271, R275 to R283). -/

namespace Sys2Proof.Machine

section
variable {s t : State} {x : MxCmd} {g : Group} {o : Op}

theorem amovDest_none (h : ∀ d st tq, x.ins ≠ .amov d st tq) (k : Nat) : amovDest x k = none := by
  unfold amovDest
  split
  · exact absurd ‹_› (h _ _ _)
  · rfl
theorem mxPuts_none (h : ∀ b st ty tf n1 m, x.ins ≠ .asts b st ty tf n1 m) : mxPuts x = [] := by
  unfold mxPuts
  split
  · exact absurd ‹_› (h _ _ _ _ _ _)
  · rfl

/-! ## MMQ, MMQT and MMQZ -/

/-- The elements of the quarters from a tile that have an active lane change as R says (R273). -/
def QuartsDone (s t : State) (x : MxCmd) (g : Group) (o : Op) (tq : BitVec 8) (R : Nat → Nat → Nat → Word → Word × Byte → Prop) : Prop :=
  ElemsDone s t x g o (fun k => 4 * tq.toNat ≤ k / 128 ∧ k / 128 < 4 * tq.toNat + 4 ∧ Live x.mask (k / 128 - 4 * tq.toNat)) fun k =>
    R (k / 128 - 4 * tq.toNat) (k / 16 % 8) (k % 16) (cget 0 g.tiles k)
theorem MxDone.quarts (h : MxDone s t x g o) (hputs : mxPuts x = []) (hdest : ∀ k, amovDest x k = none) {tq : BitVec 8}
    (he : mxElems x = tileKeys ((liveQuarters x.mask).map (4 * tq.toNat + ·))) {R : Nat → Nat → Nat → Word → Word × Byte → Prop}
    (hR : ∀ k, k / 128 - 4 * tq.toNat ∈ liveQuarters x.mask → R (k / 128 - 4 * tq.toNat) (k / 16 % 8) (k % 16) (cget 0 g.tiles k)
      (mxElem (mxRead x (team s g.team).carve g.tiles) k (cget 0 g.tiles k))) : QuartsDone s t x g o tq R := by
  refine h.elems hputs hdest (fun k hk => ?_) (fun k hk => ?_) fun k hp hk => ?_
  · rwa [he, mem_quarters] at hk
  · rw [he, mem_quarters] at hk
    obtain ⟨h1, h2, hl⟩ := hk
    exact hR k ((mem_liveQuarters ..).2 ⟨by omega, hl⟩)
  · rw [he, mem_quarters] at hk
    exact absurd hp hk
theorem mmB_bytes (ty : MmTy) : bBytes (mmTypes ty).2 (mmK (mmTypes ty).2) = 1024 := by cases ty <;> rfl
theorem mzB_bytes (qt : QTy) : bBytes (qType qt) 32 % 4 = 0 := by cases qt <;> rfl
theorem mmq_done {a b st ru ty tq boff} (hi : x.ins = .mmq a b st ru ty tq boff)
    (hb : ∀ q, q < 4 → (boff.toNat + (cget 0 x.b (8 * q)).toNat) % 4 = 0) (h : MxDone s t x g o) :
    QuartsDone s t x g o tq fun q => ProductTo x (team s g.team).carve ty (boff.toNat + (cget 0 x.b (8 * q)).toNat) q := by
  refine h.quarts (mxPuts_none (by simp [hi])) (amovDest_none (by simp [hi])) (by unfold mxElems; rw [hi]) fun k hq => ?_
  have hw : mxWords x = ((liveQuarters x.mask).flatMap fun q =>
      rangeWords (bBase boff x.b q) (bBytes (mmTypes ty).2 (mmK (mmTypes ty).2))).eraseDups := by unfold mxWords; rw [hi]
  have hsame : SameBytes (mxRead x (team s g.team).carve g.tiles).got (team s g.team).carve (bBase boff x.b (k / 128 - 4 * tq.toNat))
      (bBytes (mmTypes ty).2 (mmK (mmTypes ty).2)) :=
    mxRead_got g.tiles (hb _ ((mem_liveQuarters ..).1 hq).1) (by rw [mmB_bytes]) fun w hw' => by
      rw [hw, List.mem_eraseDups, List.mem_flatMap]
      exact ⟨_, hq, hw'⟩
  have hval : mxElem (mxRead x (team s g.team).carve g.tiles) k (cget 0 g.tiles k) =
      mmValue (mxRead x (team s g.team).carve g.tiles) ty (k / 128 - 4 * tq.toNat) (k / 16 % 8) (k % 16)
        (bBase boff x.b (k / 128 - 4 * tq.toNat)) (cget 0 g.tiles k) := by
    unfold mxElem
    rw [show (mxRead x (team s g.team).carve g.tiles).ins = x.ins from rfl, hi]
    rfl
  rw [hval]
  exact mmValue_productTo hsame (Nat.mod_lt _ (by norm_num)) _
/-- The mask of MMQT compares signed numbers (R277). -/
theorem truncate_toInt (k : DWord) : (k.truncate 32 : Word).toInt = sextInt 32 k.toNat := by
  rw [← sextInt_toInt 32]
  unfold sextInt
  rw [BitVec.truncate_eq_setWidth, BitVec.toNat_setWidth, Nat.mod_mod]
theorem highWord (k : DWord) : BitVec.ofNat 32 (k.toNat / 2 ^ 32) = (k >>> 32).truncate 32 := by
  refine BitVec.eq_of_toNat_eq ?_
  rw [BitVec.truncate_eq_setWidth, BitVec.toNat_setWidth, BitVec.toNat_ushiftRight, BitVec.toNat_ofNat, Nat.shiftRight_eq_div_pow]
theorem not_allMasked {k0 k1 : DWord} {q k : Nat} (h : ¬mmtMasked k0 k1 q (k / 16 % 8) (k % 16) = true) : allMasked k0 k1 q = false := by
  refine Bool.eq_false_iff.2 fun hall => h ?_
  have hk := List.all_eq_true.1 hall (k % 128) (List.mem_range.2 (Nat.mod_lt _ (by norm_num)))
  rwa [show k % 128 / 16 = k / 16 % 8 by omega, show k % 128 % 16 = k % 16 by omega] at hk
theorem mmqt_done {a p st ru ty tq boff k0 k1} (hi : x.ins = .mmqt a p st ru ty tq boff) (hk : x.k = [k0, k1])
    (hb : boff.toNat % 4 = 0) (h : MxDone s t x g o) :
    QuartsDone s t x g o tq fun q r j v y =>
      if (k1.truncate 32 : Word).toInt < ((k0.toNat / 2 ^ 32 + j : Nat) : Int) - ((k0.toNat % 2 ^ 32 + 8 * q + r : Nat) : Int)
        then y = ((k1 >>> 32).truncate 32, 0) else ProductTo x (team s g.team).carve ty boff.toNat q r j v y := by
  refine h.quarts (mxPuts_none (by simp [hi])) (amovDest_none (by simp [hi])) (by unfold mxElems; rw [hi]) fun k hq => ?_
  have hk0 : mxK x 0 = k0 := by unfold mxK; rw [hk]; rfl
  have hk1 : mxK x 1 = k1 := by unfold mxK; rw [hk]; rfl
  have hval : mxElem (mxRead x (team s g.team).carve g.tiles) k (cget 0 g.tiles k) =
      if mmtMasked k0 k1 (k / 128 - 4 * tq.toNat) (k / 16 % 8) (k % 16) = true then (BitVec.ofNat 32 (k1.toNat / 2 ^ 32), 0)
      else mmValue (mxRead x (team s g.team).carve g.tiles) ty (k / 128 - 4 * tq.toNat) (k / 16 % 8) (k % 16) boff.toNat (cget 0 g.tiles k) := by
    unfold mxElem
    rw [show (mxRead x (team s g.team).carve g.tiles).ins = x.ins from rfl, hi, ← hk0, ← hk1]
    rfl
  rw [hval, truncate_toInt]
  by_cases hm : mmtMasked k0 k1 (k / 128 - 4 * tq.toNat) (k / 16 % 8) (k % 16) = true
  · rw [if_pos hm, if_pos (of_decide_eq_true hm), highWord]
  · rw [if_neg hm, if_neg (of_decide_eq_false (Bool.eq_false_iff.2 hm))]
    have hw : mxWords x = rangeWords boff.toNat (bBytes (mmTypes ty).2 (mmK (mmTypes ty).2)) := by
      unfold mxWords
      rw [hi]
      dsimp only
      rw [hk0, hk1, if_pos (List.any_eq_true.2 ⟨_, hq, by rw [not_allMasked hm]; rfl⟩)]
    exact mmValue_productTo (mxRead_got g.tiles hb (by rw [mmB_bytes]) fun w hw' => by rwa [hw]) (Nat.mod_lt _ (by norm_num)) _
theorem mmqz_done {a b st ru qt af16 tq sel boff} (hi : x.ins = .mmqz a b st ru qt af16 tq sel boff) (hb : boff.toNat % 4 = 0)
    (h : MxDone s t x g o) : QuartsDone s t x g o tq fun q r j v y => ScaledTo x (team s g.team).carve qt af16 sel boff.toNat q r j v y := by
  refine h.quarts (mxPuts_none (by simp [hi])) (amovDest_none (by simp [hi])) (by unfold mxElems; rw [hi]) fun k hq => ?_
  have hval : mxElem (mxRead x (team s g.team).carve g.tiles) k (cget 0 g.tiles k) =
      mzValue (mxRead x (team s g.team).carve g.tiles) qt af16 sel (k / 128 - 4 * tq.toNat) (k / 16 % 8) (k % 16) boff.toNat (cget 0 g.tiles k) := by
    unfold mxElem
    rw [show (mxRead x (team s g.team).carve g.tiles).ins = x.ins from rfl, hi]
    rfl
  have hw : mxWords x = rangeWords boff.toNat (bBytes (qType qt) 32) := by
    unfold mxWords
    rw [hi]
    dsimp only
    rw [if_neg]
    intro he
    rw [List.isEmpty_iff.1 he] at hq
    exact absurd hq (by simp)
  rw [hval]
  exact mzValue_scaledTo (mxRead_got g.tiles hb (mzB_bytes qt) fun w hw' => by rwa [hw]) (Nat.mod_lt _ (by norm_num)) _

/-! ## ACLR, ALDS, AADD and ASCL -/

/-- The elements of consecutive tiles change as R says. -/
def RunDone (s t : State) (x : MxCmd) (g : Group) (o : Op) (tf n1 : BitVec 10) (R : Nat → Word × Byte → Prop) : Prop :=
  ElemsDone s t x g o (fun k => tf.toNat ≤ k / 128 ∧ k / 128 ≤ tf.toNat + n1.toNat) R
theorem MxDone.run (h : MxDone s t x g o) (hputs : mxPuts x = []) (hdest : ∀ k, amovDest x k = none) {tf n1 : BitVec 10}
    (he : mxElems x = tileKeys (tileRun tf n1)) {R : Nat → Word × Byte → Prop}
    (hR : ∀ k, tf.toNat ≤ k / 128 ∧ k / 128 ≤ tf.toNat + n1.toNat →
      R k (mxElem (mxRead x (team s g.team).carve g.tiles) k (cget 0 g.tiles k))) : RunDone s t x g o tf n1 R := by
  refine h.elems hputs hdest (fun k hk => ?_) (fun k hk => ?_) fun k hp hk => ?_
  · rwa [he, mem_tileRun] at hk
  · rw [he, mem_tileRun] at hk
    exact hR k hk
  · rw [he, mem_tileRun] at hk
    exact absurd hp hk
theorem aclr_done {st tf n1} (hi : x.ins = .aclr st tf n1) (h : MxDone s t x g o) : RunDone s t x g o tf n1 fun _ y => y = (0, 0) := by
  refine h.run (mxPuts_none (by simp [hi])) (amovDest_none (by simp [hi])) (by unfold mxElems; rw [hi]) fun k _ => ?_
  unfold mxElem
  rw [show (mxRead x (team s g.team).carve g.tiles).ins = x.ins from rfl, hi]
theorem aldTy_bytes (ty : AldTy) : elBytes (aldTy ty) = (if aldTy ty = .f32 then 4 else 2) ∧ 256 ^ elBytes (aldTy ty) = 2 ^ FTy.width (aldTy ty) := by
  cases ty <;> exact ⟨rfl, rfl⟩
theorem alds_done {b st ty tf n1} (hi : x.ins = .alds b st ty tf n1) (hb : (x.k.getD 0 0).toNat % 4 = 0) (h : MxDone s t x g o) :
    RunDone s t x g o tf n1 fun k y => ∃ f, ConvertedIs .f32 (aldTy ty) .rne 0
      (readNum (team s g.team).carve ((x.k.getD 0 0).toNat + (k - 128 * tf.toNat) * elBytes (aldTy ty)) (elBytes (aldTy ty))) (y.1.toNat, f) ∧
        y.2 = f &&& fNV := by
  refine h.run (mxPuts_none (by simp [hi])) (amovDest_none (by simp [hi])) (by unfold mxElems; rw [hi]) fun k hk => ?_
  let base := (x.k.getD 0 0).toNat
  let es := elBytes (aldTy ty)
  let got := (mxRead x (team s g.team).carve g.tiles).got
  have hw : mxWords x = rangeWords base ((n1.toNat + 1) * 128 * es) := by unfold mxWords; rw [hi]; rfl
  have hlast : (k - 128 * tf.toNat + 1) * es ≤ (n1.toNat + 1) * 128 * es := Nat.mul_le_mul_right es (by omega)
  have hsame : SameBytes got (team s g.team).carve base ((n1.toNat + 1) * 128 * es) :=
    mxRead_got g.tiles hb (by rw [Nat.mul_right_comm]; omega) fun w hw' => by rwa [hw]
  have hread : readNum got (base + (k - 128 * tf.toNat) * es) es = readNum (team s g.team).carve (base + (k - 128 * tf.toNat) * es) es :=
    hsame.readNum (by omega) (by rw [Nat.add_mul, Nat.one_mul] at hlast; omega)
  have hval : mxElem (mxRead x (team s g.team).carve g.tiles) k (cget 0 g.tiles k) =
      (BitVec.ofNat 32 (fcvtVal .f32 (aldTy ty) .rne 0 (readNum got (base + (k - 128 * tf.toNat) * es) es)).1,
        (fcvtVal .f32 (aldTy ty) .rne 0 (readNum got (base + (k - 128 * tf.toNat) * es) es)).2 &&& fNV) := by
    unfold mxElem
    rw [show (mxRead x (team s g.team).carve g.tiles).ins = x.ins from rfl, hi]
    rfl
  have hlt := readNum_lt (team s g.team).carve (base + (k - 128 * tf.toNat) * es) es
  have hconv := fcvtVal_converted .f32 (aldTy ty) .rne (rnd := 0) (hlt.trans_eq (aldTy_bytes ty).2) (by norm_num)
  rw [hval, hread]
  refine ⟨_, ?_, rfl⟩
  dsimp only
  rw [BitVec.toNat_ofNat, Nat.mod_eq_of_lt (b := 2 ^ 32) hconv.lt]
  exact hconv
theorem aadd_done {st td ts n1} (hi : x.ins = .aadd st td ts n1) (h : MxDone s t x g o) : RunDone s t x g o td n1 fun k y =>
    SumIs .f32 false (cget 0 g.tiles k).toNat (cget 0 g.tiles (k + 128 * ts.toNat - 128 * td.toNat)).toNat (y.1.toNat, y.2) := by
  refine h.run (mxPuts_none (by simp [hi])) (amovDest_none (by simp [hi])) (by unfold mxElems; rw [hi]) fun k hk => ?_
  let source : Word := if td = ts then cget 0 g.tiles k else cget 0 (mxRead x (team s g.team).carve g.tiles).seen (aaddSource td ts k)
  have hval : mxElem (mxRead x (team s g.team).carve g.tiles) k (cget 0 g.tiles k) = outF (fpAdd .f32 (cget 0 g.tiles k).toNat source.toNat) := by
    unfold mxElem
    rw [show (mxRead x (team s g.team).carve g.tiles).ins = x.ins from rfl, hi]
  have hsource : source = cget 0 g.tiles (k + 128 * ts.toNat - 128 * td.toNat) := by
    by_cases htd : td = ts
    · rw [show source = cget 0 g.tiles k from if_pos htd, htd, Nat.add_sub_cancel]
    · have htakes : mxTakes x = tileKeys (tileRun ts n1) := by
        unfold mxTakes
        rw [hi]
        exact if_neg htd
      rw [show source = _ from if_neg htd, mxRead_seen, htakes, if_pos]
      · rfl
      · rw [mem_tileRun]
        unfold aaddSource
        omega
  rw [hval, hsource]
  exact fpAdd_word ..
theorem asclK_done {f st tf n1} (hi : x.ins = .ascl (.k f) st tf n1) (h : MxDone s t x g o) : RunDone s t x g o tf n1 fun k y =>
    ProductIs .f32 (cget 0 g.tiles k).toNat ((x.k.getD 0 0).toNat % 2 ^ 32) (y.1.toNat, y.2) := by
  refine h.run (mxPuts_none (by simp [hi])) (amovDest_none (by simp [hi])) (by unfold mxElems; rw [hi]) fun k _ => ?_
  have hval : mxElem (mxRead x (team s g.team).carve g.tiles) k (cget 0 g.tiles k) =
      outF (fpMul .f32 (cget 0 g.tiles k).toNat ((x.k.getD 0 0).toNat % 2 ^ 32)) := by
    unfold mxElem
    rw [show (mxRead x (team s g.team).carve g.tiles).ins = x.ins from rfl, hi]
    rfl
  rw [hval]
  exact fpMul_word ..
theorem asclRow_done {f st tf n1} (hi : x.ins = .ascl (.row f) st tf n1) (h : MxDone s t x g o) : RunDone s t x g o tf n1 fun k y =>
    if inMask x.mask (8 * ((k / 128 - tf.toNat) % 4) + k / 16 % 8) = true
      then ProductIs .f32 (cget 0 g.tiles k).toNat (cget 0 x.b (8 * ((k / 128 - tf.toNat) % 4) + k / 16 % 8)).toNat (y.1.toNat, y.2)
      else y = (cget 0 g.tiles k, 0) := by
  have he (k : Nat) : k ∈ mxElems x ↔ (tf.toNat ≤ k / 128 ∧ k / 128 ≤ tf.toNat + n1.toNat) ∧
      inMask x.mask (8 * ((k / 128 - tf.toNat) % 4) + k / 16 % 8) = true := by
    unfold mxElems
    rw [hi]
    dsimp only
    rw [List.mem_filter, mem_tileRun]
    rfl
  refine h.elems (mxPuts_none (by simp [hi])) (amovDest_none (by simp [hi])) (fun k hk => ((he k).1 hk).1) (fun k hk => ?_) fun k hp hk => ?_
  · have hval : mxElem (mxRead x (team s g.team).carve g.tiles) k (cget 0 g.tiles k) =
        outF (fpMul .f32 (cget 0 g.tiles k).toNat (cget 0 x.b (8 * ((k / 128 - tf.toNat) % 4) + k / 16 % 8)).toNat) := by
      unfold mxElem
      rw [show (mxRead x (team s g.team).carve g.tiles).ins = x.ins from rfl, hi]
      rfl
    rw [if_pos ((he k).1 hk).2, hval]
    exact fpMul_word ..
  · rw [if_neg fun hm => hk ((he k).2 ⟨hp, hm⟩)]
end

end Sys2Proof.Machine
end

section
/-! PROOFS. What ASTS writes to the carve-out, and AMOV to registers (R280, R281). -/

namespace Sys2Proof.Machine

/-! ## Cells that spell a list of numbers -/

/-- Cells that all say what f says of their place leave f there and nothing elsewhere. -/
theorem cget_cputAll_of {α : Type} [DecidableEq α] (d : α) (f : Nat → α) (xs : List (Nat × α)) (m : Cells α) (k : Nat) (h : ∀ x ∈ xs, x.2 = f x.1) :
    cget d (cputAll d m xs) k = if k ∈ xs.map (·.1) then f k else cget d m k := by
  rw [← cget_foldl_cput d f]
  unfold cputAll
  rw [List.foldl_map]
  congr 1
  induction xs generalizing m with
  | nil => rfl
  | cons x xs ih =>
    rw [List.foldl_cons, List.foldl_cons, h x List.mem_cons_self, ih _ fun y hy => h y (List.mem_cons_of_mem _ hy)]
theorem mem_cellsOf {a n v : Nat} {p : Nat × Byte} : p ∈ cellsOf a n v ↔ ∃ i, i < n ∧ p = (a + i, BitVec.ofNat 8 (v / 256 ^ i)) := by
  unfold cellsOf
  rw [List.mem_mapIdx]
  constructor
  · rintro ⟨i, hi, rfl⟩
    exact ⟨i, by rwa [bytesOf_length] at hi, by rw [bytesOf_getElem]⟩
  · rintro ⟨i, hi, rfl⟩
    exact ⟨i, by rwa [bytesOf_length], by rw [bytesOf_getElem]⟩

section
variable {s t : State} {x : MxCmd} {g : Group} {o : Op}

/-! ## ASTS (R280) -/

/-- Element i of those that ASTS stores, converted. -/
def astsVal (x : MxCmd) (tiles : Cells Word) (ty : FTy) (m : RMode) (tf i : Nat) : Nat × Byte :=
  fcvtVal ty .f32 m (draw x.seed i) (cget 0 tiles (128 * tf + i)).toNat
theorem astsVal_converted (x : MxCmd) (tiles : Cells Word) (ty : FTy) (m : RMode) (tf i : Nat) :
    ConvertedIs ty .f32 m (drawOf x.seed i) (cget 0 tiles (128 * tf + i)).toNat (astsVal x tiles ty m tf i) := by
  unfold astsVal
  rw [draw_eq]
  exact fcvtVal_converted ty .f32 m (BitVec.isLt _) (drawOf_lt ..)
theorem elBytes_cases (ty : FTy) : elBytes ty = 4 ∨ elBytes ty = 2 ∨ elBytes ty = 1 := by cases ty <;> decide
theorem elBytes_width (ty : FTy) : 256 ^ elBytes ty = 2 ^ FTy.width ty := by cases ty <;> rfl
/-- The first element of word q of those that ASTS writes. -/
def firstElem (ty : FTy) (base q : Nat) : Nat := (4 * (base / 4 + q) - base) / elBytes ty
/-- The word and the place in it of each element that ASTS stores. -/
theorem asts_place {ty : FTy} {base n q i : Nat} (hb : base % 4 = 0) (hq : q < n * 128 * elBytes ty / 4) (hi : i < 4 / elBytes ty) :
    firstElem ty base q + i < 128 * n ∧ 4 * (base / 4 + q) + i * elBytes ty = base + (firstElem ty base q + i) * elBytes ty := by
  unfold firstElem
  rcases elBytes_cases ty with h | h | h <;> rw [h] at hq hi ⊢ <;> omega
theorem asts_element (ty : FTy) {base n e : Nat} (hb : base % 4 = 0) (he : e < 128 * n) : ∃ q i, q < n * 128 * elBytes ty / 4 ∧
    i < 4 / elBytes ty ∧ firstElem ty base q + i = e := by
  unfold firstElem
  refine ⟨e * elBytes ty / 4, e % (4 / elBytes ty), ?_⟩
  rcases elBytes_cases ty with h | h | h <;> rw [h] <;> omega
/-- The converted elements of a word that ASTS writes. -/
theorem asts_vals {b st ty tf n1 m} (hi : x.ins = .asts b st ty tf n1 m) (hb : (x.k.getD 0 0).toNat % 4 = 0) (carve : Cells Byte) {q : Nat}
    (hq : q < (n1.toNat + 1) * 128 * elBytes ty / 4) :
    let base := (x.k.getD 0 0).toNat
    let vals := (List.range (4 / elBytes ty)).map fun i =>
      astsVal x g.tiles ty m tf.toNat (firstElem ty base q + i)
    astsWord (mxRead x carve g.tiles) (base / 4 + q) =
      ((vals.mapIdx fun i v => cellsOf (4 * (base / 4 + q) + i * elBytes ty) (elBytes ty) v.1).flatten,
        vals.foldl (fun f v => f ||| v.2) 0) := by
  intro base vals
  have htakes : mxTakes x = tileKeys (tileRun tf n1) := by unfold mxTakes; rw [hi]
  have hvals : (putElems ty tf base (base / 4 + q)).map (fun k =>
      fcvtVal ty .f32 m (draw x.seed (k - 128 * tf.toNat)) (cget 0 (mxRead x carve g.tiles).seen k).toNat) = vals := by
    rw [show putElems ty tf base (base / 4 + q) = (List.range (4 / elBytes ty)).map fun i => 128 * tf.toNat + firstElem ty base q + i from rfl,
      List.map_map]
    refine List.map_congr_left fun i hr => ?_
    obtain ⟨he, -⟩ := asts_place hb hq (List.mem_range.1 hr)
    dsimp only [Function.comp]
    rw [mxRead_seen, htakes, if_pos ((mem_tileRun ..).2 (by simp only [base] at he ⊢; omega))]
    unfold astsVal
    rw [Nat.add_assoc, Nat.add_sub_cancel_left]
  rw [← hvals]
  unfold astsWord
  rw [show (mxRead x carve g.tiles).ins = x.ins from rfl, hi]
  rfl
/-- The cells that ASTS writes: the bytes of each element in turn. -/
theorem asts_cells {b st ty tf n1 m} (hi : x.ins = .asts b st ty tf n1 m) (hb : (x.k.getD 0 0).toNat % 4 = 0) (carve : Cells Byte)
    (p : Nat × Byte) : p ∈ (mxWrites x carve g.tiles).flatMap (·.1) ↔ ∃ e j, e < 128 * (n1.toNat + 1) ∧ j < elBytes ty ∧
      p = ((x.k.getD 0 0).toNat + e * elBytes ty + j, BitVec.ofNat 8 ((astsVal x g.tiles ty m tf.toNat e).1 / 256 ^ j)) := by
  have hputs : mxPuts x = rangeWords (x.k.getD 0 0).toNat ((n1.toNat + 1) * 128 * elBytes ty) := by unfold mxPuts; rw [hi]; rfl
  simp only [mxWrites, hputs, rangeWords, List.mem_flatMap, List.mem_map, List.mem_range, exists_exists_and_eq_and]
  constructor
  · rintro ⟨q, hq, hp⟩
    rw [asts_vals hi hb carve hq] at hp
    simp only [List.mem_flatten, List.mem_mapIdx, List.length_map, List.length_range, List.getElem_map, List.getElem_range] at hp
    obtain ⟨cs, ⟨i, hlt, rfl⟩, hp⟩ := hp
    obtain ⟨j, hj, rfl⟩ := mem_cellsOf.1 hp
    obtain ⟨he, hplace⟩ := asts_place hb hq hlt
    exact ⟨_, j, he, hj, by rw [hplace]⟩
  · rintro ⟨e, j, he, hj, rfl⟩
    obtain ⟨q, i, hq, hlt, rfl⟩ := asts_element ty hb he
    obtain ⟨-, hplace⟩ := asts_place hb hq hlt
    refine ⟨q, hq, ?_⟩
    rw [asts_vals hi hb carve hq]
    simp only [List.mem_flatten, List.mem_mapIdx, List.length_map, List.length_range, List.getElem_map, List.getElem_range]
    exact ⟨_, ⟨i, hlt, rfl⟩, mem_cellsOf.2 ⟨j, hj, by rw [hplace]⟩⟩
theorem asts_flags {b st ty tf n1 m} (hi : x.ins = .asts b st ty tf n1 m) (hb : (x.k.getD 0 0).toNat % 4 = 0) (carve : Cells Byte) (n : Nat) :
    ((mxWrites x carve g.tiles).any fun p => p.2.getLsbD n) = true ↔
      ∃ e, e < 128 * (n1.toNat + 1) ∧ (astsVal x g.tiles ty m tf.toNat e).2.getLsbD n = true := by
  have hputs : mxPuts x = rangeWords (x.k.getD 0 0).toNat ((n1.toNat + 1) * 128 * elBytes ty) := by unfold mxPuts; rw [hi]; rfl
  simp only [mxWrites, hputs, rangeWords, List.any_map, List.any_eq_true, List.mem_range, Function.comp]
  constructor
  · rintro ⟨q, hq, hp⟩
    rw [asts_vals hi hb carve hq, foldl_or_zero_bit, List.any_map, List.any_eq_true] at hp
    obtain ⟨i, hlt, hbit⟩ := hp
    exact ⟨_, (asts_place hb hq (List.mem_range.1 hlt)).1, hbit⟩
  · rintro ⟨e, he, hbit⟩
    obtain ⟨q, i, hq, hlt, rfl⟩ := asts_element ty hb he
    refine ⟨q, hq, ?_⟩
    rw [asts_vals hi hb carve hq, foldl_or_zero_bit, List.any_map, List.any_eq_true]
    exact ⟨i, List.mem_range.2 hlt, hbit⟩
theorem asts_done {b st ty tf n1 m} (hi : x.ins = .asts b st ty tf n1 m) (hb : (x.k.getD 0 0).toNat % 4 = 0)
    (ht : (mget s.teams g.team).isSome = true) (h : MxDone s t x g o) :
    let base := (x.k.getD 0 0).toNat
    let after := (team t g.team).carve
    (grp t x.gid).tiles = g.tiles ∧ (grp t x.gid).v = g.v ∧ (grp t x.gid).k = g.k ∧
      (∀ i, (i < base ∨ base + 128 * (n1.toNat + 1) * elBytes ty ≤ i) → cget 0 after i = cget 0 (team s g.team).carve i) ∧
      ∃ F, Flagged t x.op o F ∧ (∀ i, 128 * (n1.toNat + 1) ≤ i → F i = 0) ∧ ∀ i, i < 128 * (n1.toNat + 1) →
        ConvertedIs ty .f32 m (drawOf x.seed i) (cget 0 g.tiles (128 * tf.toNat + i)).toNat
          (readNum after (base + i * elBytes ty) (elBytes ty), F i) := by
  intro base after
  let carve := (team s g.team).carve
  let es := elBytes ty
  let val (e : Nat) := astsVal x g.tiles ty m tf.toNat e
  let f (a : Nat) : Byte := BitVec.ofNat 8 ((val ((a - base) / es)).1 / 256 ^ ((a - base) % es))
  have hes : 0 < es := by rcases elBytes_cases ty with h | h | h <;> simp only [es] <;> omega
  have hcells := asts_cells (g := g) hi hb carve
  have hval (e j : Nat) (hj : j < es) : f (base + e * es + j) = BitVec.ofNat 8 ((val e).1 / 256 ^ j) := by
    simp only [f]
    rw [show base + e * es + j - base = j + es * e by rw [Nat.mul_comm]; omega, Nat.add_mul_div_left _ _ hes, Nat.div_eq_of_lt hj,
      Nat.add_mul_mod_self_left, Nat.mod_eq_of_lt hj, Nat.zero_add]
  have hafter (k : Nat) : cget 0 after k = if k ∈ ((mxWrites x carve g.tiles).flatMap (·.1)).map (·.1) then f k else cget 0 carve k := by
    simp only [after]
    rw [h.carve, if_pos ht]
    refine cget_cputAll_of 0 f _ carve k fun p hp => ?_
    obtain ⟨e, j, -, hj, rfl⟩ := (hcells p).1 hp
    exact (hval e j hj).symm
  have hvals : mxVals x carve g.tiles = [] := by unfold mxVals mxElems; rw [hi]; rfl
  have hgroup := h.group
  have hflags := h.flags
  rw [hvals] at hgroup hflags
  refine ⟨congrArg Group.tiles hgroup, congrArg Group.v hgroup, congrArg Group.k hgroup, fun i hout => ?_,
    fun i => if i < 128 * (n1.toNat + 1) then (val i).2 else 0, flagged_of hflags fun i => ?_, fun i hlt => if_neg (by omega), fun i hlt => ?_⟩
  · rw [hafter, if_neg]
    rw [List.mem_map]
    rintro ⟨p, hp, rfl⟩
    obtain ⟨e, j, he, hj, rfl⟩ := (hcells p).1 hp
    have hle : (e + 1) * es ≤ 128 * (n1.toNat + 1) * es := Nat.mul_le_mul_right es he
    rw [Nat.add_mul, Nat.one_mul] at hle
    simp only [es] at hle hj
    simp only [base] at hout
    omega
  · rw [List.foldl_nil, foldl_or_zero_bit, asts_flags hi hb]
    constructor
    · rintro ⟨e, he, hbit⟩
      exact ⟨e, by rw [if_pos he]; exact hbit⟩
    · rintro ⟨e, hbit⟩
      by_cases he : e < 128 * (n1.toNat + 1)
      · rw [if_pos he] at hbit
        exact ⟨e, he, hbit⟩
      · rw [if_neg he] at hbit
        simp at hbit
  · have hconv := astsVal_converted x g.tiles ty m tf.toNat i
    have hread : readNum after (base + i * es) es = (val i).1 := by
      rw [readNum_of_bytes (x := (val i).1) fun j hj => ?_, Nat.mod_eq_of_lt]
      · rw [elBytes_width]
        exact hconv.lt
      · show cget 0 after _ = _
        rw [hafter, if_pos, hval i j hj]
        exact List.mem_map.2 ⟨_, (hcells _).2 ⟨i, j, hlt, hj, rfl⟩, rfl⟩
    dsimp only
    rw [if_pos hlt, hread]
    exact hconv

/-! ## AMOV (R281) -/

/-- Registers written one after another, each with what f says of its place. -/
theorem vget_foldl_vput (r l : Nat → Nat) (val : Nat → Word) (f : Nat → Nat → Word) {i j : Nat} (hj : j < 32) (ks : List Nat) (g : Group)
    (hl : ∀ k ∈ ks, l k < 32) (hf : ∀ k ∈ ks, val k = f (r k) (l k)) :
    let g' := ks.foldl (fun g k => vput g (r k) (l k) (val k)) g
    g'.tiles = g.tiles ∧ g'.k = g.k ∧ ((∃ k ∈ ks, r k = i ∧ l k = j) → vget g' i j = f i j) ∧
      ((¬∃ k ∈ ks, r k = i ∧ l k = j) → vget g' i j = vget g i j) := by
  induction ks generalizing g with
  | nil => exact ⟨rfl, rfl, fun ⟨_, hk, _⟩ => absurd hk (by simp), fun _ => rfl⟩
  | cons k ks ih =>
    obtain ⟨ht, hk, hin, hout⟩ := ih (vput g (r k) (l k) (val k)) (fun n hn => hl n (List.mem_cons_of_mem _ hn)) fun n hn =>
      hf n (List.mem_cons_of_mem _ hn)
    refine ⟨ht, hk, fun h => ?_, fun h => ?_⟩
    · by_cases hks : ∃ k ∈ ks, r k = i ∧ l k = j
      · exact hin hks
      · obtain ⟨n, hn, hr, hln⟩ := h
        rcases List.mem_cons.1 hn with rfl | hn
        · rw [List.foldl_cons, hout hks, vget_vput _ _ _ _ _ _ (hl n List.mem_cons_self) hj, if_pos ⟨hr.symm, hln.symm⟩,
            hf n List.mem_cons_self, hr, hln]
        · exact absurd ⟨n, hn, hr, hln⟩ hks
    · rw [List.foldl_cons, hout fun ⟨n, hn, he⟩ => h ⟨n, List.mem_cons_of_mem _ hn, he⟩,
        vget_vput _ _ _ _ _ _ (hl k List.mem_cons_self) hj, if_neg fun he => h ⟨k, List.mem_cons_self, he.1.symm, he.2.symm⟩]
theorem lanesOf_lt {m : Word} {l : Nat} : l ∈ lanesOf m ↔ l < 32 ∧ inMask m l = true := by
  unfold lanesOf allLanes
  rw [List.mem_filter, List.mem_range]
theorem amov_done {d st tq} (hi : x.ins = .amov d st tq) (h : MxDone s t x g o) :
    (grp t x.gid).tiles = g.tiles ∧ (grp t x.gid).k = g.k ∧ (team t g.team).carve = (team s g.team).carve ∧ Flagged t x.op o (fun _ => 0) ∧
      ∀ l i, l < 32 → vget (grp t x.gid) i l = if x.d ≤ i ∧ i < x.d + 16 ∧ inMask x.mask l = true
        then cget 0 g.tiles (128 * (4 * tq.toNat + l / 8) + 16 * (l % 8) + (i - x.d)) else vget g i l := by
  let carve := (team s g.team).carve
  let r (k : Nat) := x.d + keyCol k
  let l (k : Nat) := 8 * keyQuarter (4 * tq.toNat) k + keyRow k
  let f (i j : Nat) : Word := cget 0 g.tiles (128 * (4 * tq.toNat + j / 8) + 16 * (j % 8) + (i - x.d))
  have hmem (k : Nat) : k ∈ mxElems x ↔ ∃ j c, (j < 32 ∧ inMask x.mask j = true) ∧ c < 16 ∧ tileKey (4 * tq.toNat + j / 8) (j % 8) c = k := by
    unfold mxElems
    rw [hi]
    simp only [List.mem_flatMap, List.mem_map, List.mem_range, lanesOf_lt]
    exact ⟨fun ⟨j, hj, c, hc, he⟩ => ⟨j, c, hj, hc, he⟩, fun ⟨j, c, hj, hc, he⟩ => ⟨j, hj, c, hc, he⟩⟩
  have hplace (j c : Nat) (hj : j < 32) (hc : c < 16) : let k := tileKey (4 * tq.toNat + j / 8) (j % 8) c
      r k = x.d + c ∧ l k = j ∧ cget 0 g.tiles k = f (r k) (l k) := by
    intro k
    have hr : r k = x.d + c := by simp only [r, k, keyCol, tileKey]; omega
    have hl : l k = j := by simp only [l, k, keyQuarter, keyRow, tileKey]; omega
    exact ⟨hr, hl, by simp only [f]; rw [hr, hl, Nat.add_sub_cancel_left]; rfl⟩
  have hvals : mxVals x carve g.tiles = (mxElems x).map fun k => (k, cget 0 g.tiles k, 0) := by
    refine List.map_congr_left fun k _ => ?_
    unfold mxElem
    rw [show (mxRead x carve g.tiles).ins = x.ins from rfl, hi]
  have hw : mxWrites x carve g.tiles = [] := by unfold mxWrites mxPuts; rw [hi]; rfl
  have hgroup : grp t x.gid = (mxElems x).foldl (fun g' k => vput g' (r k) (l k) (cget 0 g.tiles k)) g := by
    rw [h.group, hvals, List.foldl_map]
    unfold mxPlace amovDest
    rw [show (mxRead x (team s g.team).carve g.tiles).ins = x.ins from rfl, hi]
    rfl
  have hfold (i : Nat) {j : Nat} (hj : j < 32) := vget_foldl_vput r l (cget 0 g.tiles) f (i := i) hj (mxElems x) g
    (fun k hk => by
      obtain ⟨j, c, ⟨hj, -⟩, hc, rfl⟩ := (hmem k).1 hk
      rw [(hplace j c hj hc).2.1]
      exact hj)
    fun k hk => by
      obtain ⟨j, c, ⟨hj, -⟩, hc, rfl⟩ := (hmem k).1 hk
      exact (hplace j c hj hc).2.2
  have hc := h.carve
  have hf := h.flags
  rw [hw] at hc hf
  rw [hvals] at hf
  obtain ⟨ht, hk, -, -⟩ := hfold 0 (j := 0) (by norm_num)
  rw [← hgroup] at ht hk
  refine ⟨ht, hk, hc.trans (ite_self _), flagged_of hf fun i => ?_, fun j i hj => ?_⟩
  · rw [List.foldl_nil, foldl_or_zero_bit]
    simp
  · obtain ⟨-, -, hin, hout⟩ := hfold i hj
    rw [← hgroup] at hin hout
    by_cases hp : x.d ≤ i ∧ i < x.d + 16 ∧ inMask x.mask j = true
    · obtain ⟨h1, h2, hm⟩ := hp
      rw [if_pos ⟨h1, h2, hm⟩]
      obtain ⟨hr, hl, -⟩ := hplace j (i - x.d) hj (by omega)
      exact hin ⟨_, (hmem _).2 ⟨j, i - x.d, ⟨hj, hm⟩, by omega, rfl⟩, by rw [hr]; omega, hl⟩
    · rw [if_neg hp]
      refine hout ?_
      rintro ⟨k, hk, hr, hl⟩
      obtain ⟨j', c, ⟨hj', hm⟩, hc, rfl⟩ := (hmem k).1 hk
      obtain ⟨hr', hl', -⟩ := hplace j' c hj' hc
      rw [hl'] at hl
      subst hl
      exact hp ⟨by omega, by omega, hm⟩
end

end Sys2Proof.Machine
end

section
/-! PROOFS. The tempo array's commands (R292 to R300). -/

namespace Sys2Proof.Machine

/-! ## A command of the array (R292, R293) -/

theorem tempoAct_frame (s : State) (c : Nat) (x : TmCmd) (ps : List Nat) :
    (tempoAct s c x ps).1 = { s with groups := (tempoAct s c x ps).1.groups } := by
  unfold tempoAct
  dsimp only
  split
  · rfl
  · dsimp only
    split
    · rfl
    · exact modGrp_frame ..
  · rfl
theorem tempoBad_none {t : Tempo} (ht : t.bad = []) (x : TmCmd) (ps : List Nat) : tempoBad t [] x ps = none := by
  unfold tempoBad
  split
  · simp
  · rw [ht]
    simp
  · rfl
/-- What a command does to the array leaves its instruction and what it captured. -/
theorem tempoAct_cmd (s : State) (c : Nat) (x : TmCmd) (ps : List Nat) : ∃ left got, (tempoAct s c x ps).2.1 = { x with left := left, got := got } := by
  unfold tempoAct
  dsimp only
  split
  · exact ⟨_, _, rfl⟩
  · exact ⟨_, x.got, rfl⟩
  · exact ⟨x.left, x.got, rfl⟩
theorem tempoAct_bad {s : State} {c : Nat} {x : TmCmd} (h : (core s c).tempo.bad = []) (hc : (team s (grp s x.gid).team).carveBad = [])
    (ps : List Nat) : (tempoAct s c x ps).2.2 = none := by
  have hb : tempoBad (core s c).tempo (team s (grp s x.gid).team).carveBad x ps = none := by rw [hc]; exact tempoBad_none h x ps
  unfold tempoAct
  dsimp only
  split
  · exact hb
  · exact hb
  · rfl

/-- What the command whose turn it is leaves. -/
structure TmDone (s t : State) (c : Nat) (x : TmCmd) (rest : List TmCmd) : Prop where
  parts : PartDone s t x.op
  mem : t.mem = s.mem
  teams : t.teams = s.teams
  queue : (core t c).tq = rest
  groups : t.groups = (tempoAct (modCore s c fun k => { k with tq := rest }) c x (tempoLeft x)).1.groups
  tempo : (core t c).tempo = tempoAfter (core s c).tempo (tempoAct (modCore s c fun k => { k with tq := rest }) c x (tempoLeft x)).2.1.got
    (tempoAct (modCore s c fun k => { k with tq := rest }) c x (tempoLeft x)).2.1

theorem tempoCommand_done {s : State} {c : Nat} {x : TmCmd} {rest : List TmCmd} {o : Op} (hq : (core s c).tq = x :: rest)
    (hs : scratchDone s x.gid x.op = true) (ho : mget s.ops x.op = some o) (hf : o.failed = false) (hb : (core s c).tempo.bad = [])
    (hc : (team s (grp s x.gid).team).carveBad = []) : Gives (.tempoCommandExecute c) s fun s t => TmDone s t c x rest := by
  let s1 := modCore s c fun k => { k with tq := rest }
  let w := (tempoAct s1 c x (tempoLeft x)).1
  let y := (tempoAct s1 c x (tempoLeft x)).2.1
  let s2 := modCore w c fun k => { k with tempo := tempoAfter k.tempo y.got y }
  have hw : w = { s1 with groups := w.groups } := tempoAct_frame ..
  have hcore : core s1 c = { core s c with tq := rest } := (core_modCore ..).trans (if_pos rfl)
  have hbad : (tempoAct s1 c x (tempoLeft x)).2.2 = none :=
    tempoAct_bad (s := s1) (by rw [hcore]; exact hb) hc _
  have hop : y.op = x.op := by
    obtain ⟨left, got, hy⟩ := tempoAct_cmd s1 c x (tempoLeft x)
    show (tempoAct s1 c x (tempoLeft x)).2.1.op = _
    rw [hy]
  have ho2 : mget s2.ops x.op = some o := by
    show mget w.ops x.op = _
    rw [hw]
    exact ho
  have hrun : tempoRun s1 c x = opParts s2 x.op 1 := by
    show mxKill (opDone s2 y.op none) y.gid (tempoAct s1 c x (tempoLeft x)).2.2 = _
    rw [hbad, hop]
    exact opDone_whole ho2 hf
  have hframe : opParts s2 x.op 1 = { s2 with ops := (opParts s2 x.op 1).ops } := modOp_frame ..
  have hops : mget (opParts s2 x.op 1).ops x.op = _ := mget_modOp_same ho2
  have hcore2 : core (opParts s2 x.op 1) c = { core s c with tq := rest, tempo := tempoAfter (core s c).tempo y.got y } := by
    have h1 : core (opParts s2 x.op 1) c = core s2 c := by unfold core; rw [hframe]
    have h2 : core w c = core s1 c := by unfold core; rw [hw]
    rw [h1, (core_modCore ..).trans (if_pos rfl), h2, hcore]
  refine ⟨opParts s2 x.op 1, ?_, ?_, ?_, ?_, ?_, ?_, ?_⟩
  · show Host.Outcome.next _ = _
    rw [hq]
    dsimp only
    rw [if_pos hs]
    exact congrArg _ hrun
  · unfold PartDone
    rw [hops, ho]
    rfl
  · rw [hframe]
    show w.mem = _
    rw [hw]
    rfl
  · rw [hframe]
    show w.teams = _
    rw [hw]
    rfl
  · rw [hcore2]
  · rw [hframe]
    rfl
  · rw [hcore2]

section
variable {s t : State} {c : Nat} {x : TmCmd} {rest : List TmCmd}

/-- A command that reads nothing of the carve-out and writes no register. -/
theorem TmDone.whole (h : TmDone s t c x rest) (hl : ∀ b n f, x.ins ≠ .tloadw b n f) (hc : ∀ d cb, x.ins ≠ .tcapt d cb) :
    t.groups = s.groups ∧ (core t c).tempo = tempoAfter (core s c).tempo x.got x := by
  let s1 := modCore s c fun k => { k with tq := rest }
  have hact : tempoAct s1 c x (tempoLeft x) = (s1, x, none) := by
    unfold tempoAct
    dsimp only
    split
    · exact absurd ‹_› (hl _ _ _)
    · exact absurd ‹_› (hc _ _)
    · rfl
  have hg := h.groups
  have ht := h.tempo
  rw [hact] at hg ht
  exact ⟨hg, ht⟩
theorem twin_done {tw} (hi : x.ins = .twin tw) (hb : (core s c).tempo.bad = []) (h : TmDone s t c x rest) :
    (core t c).tempo = { (core s c).tempo with tw := tw } := by
  rw [(h.whole (by simp [hi]) (by simp [hi])).2]
  unfold tempoAfter
  rw [hi]
  dsimp only
  rw [hb]
  rfl
theorem treset_done (hi : x.ins = .treset) (hb : (core s c).tempo.bad = []) (h : TmDone s t c x rest) :
    (core t c).tempo = { (core s c).tempo with stage := [], out := [], bad := [] } := by
  rw [(h.whole (by simp [hi]) (by simp [hi])).2]
  unfold tempoAfter
  rw [hi]
  dsimp only
  rw [hb]
  rfl
/-- A command other than TCAPT leaves every group. -/
theorem TmDone.groups_kept (h : TmDone s t c x rest) (hc : ∀ d cb, x.ins ≠ .tcapt d cb) : t.groups = s.groups := by
  rw [h.groups]
  unfold tempoAct
  dsimp only
  split
  · rfl
  · exact absurd ‹_› (hc _ _)
  · rfl

theorem mget_foldl_mput {α : Type} (f : Nat → α) (ks : List Nat) (m : Map α) (k : Nat) :
    mget (ks.foldl (fun m k => mput m k (f k)) m) k = if k ∈ ks then some (f k) else mget m k := by
  induction ks generalizing m with
  | nil => simp
  | cons j ks ih =>
    rw [List.foldl_cons, ih, mget_mput]
    by_cases h : k ∈ ks
    · simp [h]
    · by_cases e : k = j <;> simp [h, e]

/-! ## TLOADW, TCFG and TSTAGE (R294, R295, R297) -/

theorem loadRows_cells (t : Tempo) (got : Cells Byte) (base fr n i : Nat) : cget 0 (loadRows t got base fr n).cells i =
    if 128 * fr ≤ i ∧ i < 128 * (fr + n) then cellOf (cget 0 got (base + (i - 128 * fr))) else cget 0 t.cells i := by
  have hcells : (loadRows t got base fr n).cells = ((List.range (128 * n)).map (128 * fr + ·)).foldl
      (fun m i => cput 0 m i (cellOf (cget 0 got (base + (i - 128 * fr))))) t.cells := by
    rw [List.foldl_map]
    simp only [Nat.add_sub_cancel_left]
    rfl
  rw [hcells, cget_foldl_cput 0 fun i => cellOf (cget 0 got (base + (i - 128 * fr)))]
  simp only [List.mem_map, List.mem_range]
  by_cases hr : 128 * fr ≤ i ∧ i < 128 * (fr + n)
  · rw [if_pos hr, if_pos ⟨i - 128 * fr, by omega, by omega⟩]
  · rw [if_neg hr, if_neg]
    rintro ⟨j, hj, rfl⟩
    exact hr ⟨by omega, by omega⟩
theorem tloadw_done {b nr1 fr} (hi : x.ins = .tloadw b nr1 fr) (hleft : x.left = none) (ha : x.k.toNat % 2 ^ 32 % 4 = 0)
    (hb : (core s c).tempo.bad = []) (h : TmDone s t c x rest) :
    (core t c).tempo = { (core s c).tempo with cells := (core t c).tempo.cells } ∧ ∀ i, cget 0 (core t c).tempo.cells i =
      if 128 * fr.toNat ≤ i ∧ i < 128 * (fr.toNat + nr1.toNat + 1)
      then cellOf (cget 0 (team s (grp s x.gid).team).carve (x.k.toNat % 2 ^ 32 + (i - 128 * fr.toNat)))
      else cget 0 (core s c).tempo.cells i := by
  let s1 := modCore s c fun k => { k with tq := rest }
  let carve := (team s (grp s x.gid).team).carve
  let base := x.k.toNat % 2 ^ 32
  let words := (List.range (32 * (nr1.toNat + 1))).map (base / 4 + ·)
  have hpieces : tempoLeft x = words := by
    unfold tempoLeft
    rw [hleft]
    show tempoPieces x = _
    unfold tempoPieces
    rw [hi]
  have hcmd : (tempoAct s1 c x (tempoLeft x)).2.1 = { x with
      left := some ((tempoLeft x).filter fun p => !(tempoLeft x).contains p), got := words.foldl (takeWord carve) x.got } := by
    rw [← hpieces]
    unfold tempoAct
    rw [hi]
    rfl
  have htempo : (core t c).tempo = loadRows (core s c).tempo (words.foldl (takeWord carve) x.got) base fr.toNat (nr1.toNat + 1) := by
    rw [h.tempo, hcmd]
    unfold tempoAfter
    dsimp only
    rw [hi]
  have hgot (i : Nat) (hlt : i < 128 * (nr1.toNat + 1)) : cget 0 (words.foldl (takeWord carve) x.got) (base + i) = cget 0 carve (base + i) := by
    rw [cget_takeWords, if_pos]
    simp only [words, List.mem_map, List.mem_range]
    exact ⟨(base + i) / 4 - base / 4, by omega, by omega⟩
  refine ⟨?_, fun i => ?_⟩
  · rw [htempo]
    unfold loadRows
    dsimp only
    rw [hb]
    rfl
  · rw [htempo, loadRows_cells, Nat.add_assoc]
    by_cases hr : 128 * fr.toNat ≤ i ∧ i < 128 * (fr.toNat + (nr1.toNat + 1))
    · rw [if_pos hr, if_pos hr, hgot _ (by omega)]
    · rw [if_neg hr, if_neg hr]
theorem tcfg_done {b h'} (hi : x.ins = .tcfg b h') (hb : (core s c).tempo.bad = []) (h : TmDone s t c x rest) :
    (core t c).tempo = { (core s c).tempo with mode := (core t c).tempo.mode } ∧ ∀ j, j < 128 → (core t c).tempo.mode.getLsbD j =
      if j / 64 = (if h' = true then 1 else 0) then x.k.getLsbD (j % 64) else (core s c).tempo.mode.getLsbD j := by
  have htempo : (core t c).tempo = setModes (core s c).tempo x.k h' := by
    rw [(h.whole (by simp [hi]) (by simp [hi])).2]
    unfold tempoAfter
    rw [hi]
  refine ⟨?_, fun j hj => ?_⟩
  · rw [htempo]
    unfold setModes
    dsimp only
    rw [hb]
    rfl
  · rw [htempo]
    unfold setModes
    dsimp only
    have hlow : (0xFFFFFFFFFFFFFFFF : BitVec 128).getLsbD j = decide (j < 64) := by
      rw [show (0xFFFFFFFFFFFFFFFF : BitVec 128) = BitVec.ofNat 128 (2 ^ 64 - 1) from rfl, BitVec.getLsbD_ofNat, Nat.testBit_two_pow_sub_one]
      simp [hj]
    cases h'
    · simp only [Bool.false_eq_true, if_false]
      rw [BitVec.getLsbD_or, BitVec.getLsbD_shiftLeft, BitVec.getLsbD_ushiftRight, BitVec.getLsbD_setWidth]
      by_cases h64 : j < 64
      · rw [if_pos (by omega), Nat.mod_eq_of_lt h64]
        simp [hj, h64]
      · rw [if_neg (by omega), show 64 + (j - 64) = j by omega]
        simp [hj, h64, BitVec.getLsbD_of_ge x.k j (by omega)]
    · simp only [if_true]
      rw [BitVec.getLsbD_or, BitVec.getLsbD_and, hlow, BitVec.getLsbD_shiftLeft, BitVec.getLsbD_setWidth]
      by_cases h64 : j < 64
      · rw [if_neg (by omega)]
        simp [h64]
      · rw [if_pos (by omega), show j % 64 = j - 64 by omega]
        simp [hj, h64]
        omega
theorem tstage_done {a rb} (hi : x.ins = .tstage a rb) (hb : (core s c).tempo.bad = []) (h : TmDone s t c x rest) :
    (core t c).tempo = { (core s c).tempo with stage := (core t c).tempo.stage } ∧ ∀ i, i < 128 → mget (core t c).tempo.stage i =
      if i / 32 = rb.val ∧ inMask x.mask (i % 32) = true then some ((cget 0 x.a (i % 32)).truncate 8) else mget (core s c).tempo.stage i := by
  have htempo : (core t c).tempo = stageRows (core s c).tempo x.mask x.a rb.val := by
    rw [(h.whole (by simp [hi]) (by simp [hi])).2]
    unfold tempoAfter
    rw [hi]
  refine ⟨?_, fun i hlt => ?_⟩
  · rw [htempo]
    unfold stageRows
    dsimp only
    rw [hb]
    rfl
  · let f (i : Nat) : Byte := (cget 0 x.a (i % 32)).truncate 8
    have hstage : (core t c).tempo.stage =
        ((lanesOf x.mask).map (32 * rb.val + ·)).foldl (fun m i => mput m i (f i)) (core s c).tempo.stage := by
      rw [htempo, List.foldl_map]
      refine List.foldl_ext _ _ _ fun m l hl => ?_
      simp only [f]
      rw [show (32 * rb.val + l) % 32 = l by have := (lanesOf_lt.1 hl).1; omega]
    have hmem : i ∈ (lanesOf x.mask).map (32 * rb.val + ·) ↔ i / 32 = rb.val ∧ inMask x.mask (i % 32) = true := by
      simp only [List.mem_map, lanesOf_lt]
      constructor
      · rintro ⟨l, ⟨hl, hm⟩, rfl⟩
        exact ⟨by omega, by rwa [show (32 * rb.val + l) % 32 = l by omega]⟩
      · exact fun ⟨hq, hm⟩ => ⟨i % 32, ⟨by omega, hm⟩, by omega⟩
    rw [hstage, mget_foldl_mput f]
    by_cases hr : i / 32 = rb.val ∧ inMask x.mask (i % 32) = true
    · rw [if_pos hr, if_pos (hmem.2 hr)]
    · rw [if_neg hr, if_neg (mt hmem.1 hr)]

/-! ## TCAPT (R299) -/

theorem tcapt_done {d cb} {g : Group} {o : Op} (hi : x.ins = .tcapt d cb) (hleft : x.left = none) (hg : mget s.groups x.gid = some g)
    (ho : mget s.ops x.op = some o) (hd : o.discard = false) (h : TmDone s t c x rest) :
    (core t c).tempo = (core s c).tempo ∧ ∀ r l, l < 32 → vget (grp t x.gid) r l = if r = x.d ∧ inMask x.mask l = true
      then (cget 255 (core s c).tempo.out (32 * cb.val + l)).zeroExtend 32 else vget g r l := by
  let s1 := modCore s c fun k => { k with tq := rest }
  let arr := (core s c).tempo
  let f (_ l : Nat) : Word := (cget 255 arr.out (32 * cb.val + l)).zeroExtend 32
  have hcore : (core s1 c).tempo = arr := by rw [show core s1 c = _ from (core_modCore ..).trans (if_pos rfl)]
  have hpieces : tempoLeft x = lanesOf x.mask := by
    unfold tempoLeft
    rw [hleft]
    show tempoPieces x = _
    unfold tempoPieces
    rw [hi]
  have hcapt : captWord arr x = f 0 := by
    funext l
    unfold captWord
    rw [hi]
  have hact : ∃ left bad, tempoAct s1 c x (tempoLeft x) =
      (modGrp s1 x.gid fun g => (lanesOf x.mask).foldl (fun g l => vput g x.d l (f 0 l)) g, { x with left := left }, bad) := by
    rw [← hcapt, ← hcore, ← hpieces]
    have hdis : ((mget s1.ops x.op).map (·.discard)).getD false = false := by
      rw [show mget s1.ops x.op = some o from ho]
      exact hd
    unfold tempoAct
    rw [hdis, hi]
    exact ⟨_, _, rfl⟩
  obtain ⟨left, bad, hact⟩ := hact
  have hgroups := h.groups
  have htempo := h.tempo
  rw [hact] at hgroups htempo
  refine ⟨?_, fun r l hl => ?_⟩
  · rw [htempo]
    unfold tempoAfter
    dsimp only
    rw [hi]
  · obtain ⟨-, -, hin, hout⟩ := vget_foldl_vput (fun _ => x.d) id (f 0) f (i := r) hl (lanesOf x.mask) g (fun k hk => (lanesOf_lt.1 hk).1)
      fun _ _ => rfl
    have hgrp : grp t x.gid = (lanesOf x.mask).foldl (fun g l => vput g x.d l (f 0 l)) g := by
      unfold grp
      rw [hgroups, mget_modGrp_same (s := s1) hg]
      rfl
    rw [hgrp]
    by_cases hr : r = x.d ∧ inMask x.mask l = true
    · rw [if_pos hr]
      exact hin ⟨l, lanesOf_lt.2 ⟨hl, hr.2⟩, hr.1.symm, rfl⟩
    · rw [if_neg hr]
      exact hout fun ⟨k, hk, hd, he⟩ => hr ⟨hd.symm, by subst he; exact (lanesOf_lt.1 hk).2⟩

/-! ## TFIRE (R298) -/

/-- A row is enabled in a column; the tick on which its edge arrives; it arrives within the tick window. -/
def rowOn (t : Tempo) (j i : Nat) : Prop := i < 128 ∧ (cget 0 t.cells (128 * i + j)).getLsbD 4 = true
def rowLate (t : Tempo) (fb : Bool) (j i : Nat) : Nat := rowTick t fb i + (cget 0 t.cells (128 * i + j)).toNat % 16
def rowInTime (t : Tempo) (fb : Bool) (j i : Nat) : Prop := rowOn t j i ∧ rowTick t fb i ≠ 255 ∧ rowLate t fb j i < t.tw.toNat
theorem rowTick_eq (t : Tempo) (fb : Bool) (i : Nat) :
    rowTick t fb i = if fb = true then (cget 255 t.out i).toNat else ((mget t.stage i).getD 255).toNat := by
  unfold rowTick
  cases fb
  · cases mget t.stage i <;> rfl
  · rfl
theorem mem_enabledRows (t : Tempo) (j i : Nat) : i ∈ enabledRows t j ↔ rowOn t j i := by
  unfold enabledRows rowOn cellE
  rw [List.mem_filter, List.mem_range]
/-- The ticks on which a column's edges arrive within the window. -/
def arrivals (t : Tempo) (fb : Bool) (j : Nat) : List Nat := (enabledRows t j).filterMap fun i =>
  if (rowTick t fb i != 255 && decide (rowLate t fb j i < t.tw.toNat)) = true then some (rowLate t fb j i) else none
theorem arrives_iff (t : Tempo) (fb : Bool) {j i : Nat} (hon : rowOn t j i) :
    (rowTick t fb i != 255 && decide (rowLate t fb j i < t.tw.toNat)) = true ↔ rowInTime t fb j i := by
  rw [Bool.and_eq_true, bne_iff_ne, decide_eq_true_eq]
  exact ⟨fun h => ⟨hon, h⟩, fun h => h.2⟩
theorem mem_arrivals (t : Tempo) (fb : Bool) (j y : Nat) : y ∈ arrivals t fb j ↔ ∃ i, rowInTime t fb j i ∧ rowLate t fb j i = y := by
  unfold arrivals
  rw [List.mem_filterMap]
  constructor
  · rintro ⟨i, hi, he⟩
    rw [mem_enabledRows] at hi
    by_cases hc : (rowTick t fb i != 255 && decide (rowLate t fb j i < t.tw.toNat)) = true
    · rw [if_pos hc] at he
      exact ⟨i, (arrives_iff t fb hi).1 hc, Option.some_inj.1 he⟩
    · rw [if_neg hc] at he
      exact absurd he (by simp)
  · rintro ⟨i, ht, rfl⟩
    exact ⟨i, (mem_enabledRows ..).2 ht.1, if_pos ((arrives_iff t fb ht.1).2 ht)⟩
/-- Some enabled row's edge does not arrive in time. -/
theorem arrivals_short (t : Tempo) (fb : Bool) (j : Nat) : (arrivals t fb j).length < (enabledRows t j).length ↔
    ∃ i, rowOn t j i ∧ ¬rowInTime t fb j i := by
  unfold arrivals
  rw [List.length_filterMap_lt_length_iff_exists]
  constructor
  · rintro ⟨i, hi, he⟩
    rw [mem_enabledRows] at hi
    refine ⟨i, hi, fun ht => ?_⟩
    rw [if_pos ((arrives_iff t fb hi).2 ht)] at he
    exact absurd he (by simp)
  · rintro ⟨i, hi, ht⟩
    exact ⟨i, (mem_enabledRows ..).2 hi, if_neg fun hc => ht ((arrives_iff t fb hi).1 hc)⟩
theorem arrivals_le (t : Tempo) (fb : Bool) (j : Nat) : (arrivals t fb j).length ≤ (enabledRows t j).length := List.length_filterMap_le ..
/-- The first and the last of some ticks. -/
theorem foldl_min_eq {m : Nat} : ∀ (ys : List Nat) (y : Nat), m ∈ y :: ys → (∀ z ∈ y :: ys, m ≤ z) → ys.foldl min y = m
  | [], y, hm, _ => (List.mem_singleton.1 hm).symm
  | z :: ys, y, hm, hle => by
    refine foldl_min_eq ys (min y z) ?_ fun u hu => ?_
    · have h1 := hle y (by simp)
      have h2 := hle z (by simp)
      rcases List.mem_cons.1 hm with rfl | hm
      · rw [min_eq_left h2]
        exact List.mem_cons_self
      · rcases List.mem_cons.1 hm with rfl | hm
        · rw [min_eq_right h1]
          exact List.mem_cons_self
        · exact List.mem_cons_of_mem _ hm
    · rcases List.mem_cons.1 hu with rfl | hu
      · exact le_min (hle y (by simp)) (hle z (by simp))
      · exact hle u (by simp [hu])
theorem foldl_max_eq {m : Nat} : ∀ (ys : List Nat) (y : Nat), m ∈ y :: ys → (∀ z ∈ y :: ys, z ≤ m) → ys.foldl max y = m
  | [], y, hm, _ => (List.mem_singleton.1 hm).symm
  | z :: ys, y, hm, hle => by
    refine foldl_max_eq ys (max y z) ?_ fun u hu => ?_
    · have h1 := hle y (by simp)
      have h2 := hle z (by simp)
      rcases List.mem_cons.1 hm with rfl | hm
      · rw [max_eq_left h2]
        exact List.mem_cons_self
      · rcases List.mem_cons.1 hm with rfl | hm
        · rw [max_eq_right h1]
          exact List.mem_cons_self
        · exact List.mem_cons_of_mem _ hm
    · rcases List.mem_cons.1 hu with rfl | hu
      · exact max_le (hle y (by simp)) (hle z (by simp))
      · exact hle u (by simp [hu])
/-- A column's result from the ticks of its rows in time, of n enabled rows. -/
def raceResult (last : Bool) (n : Nat) (ts : List Nat) : Byte := match ts with
  | [] => 255
  | y :: rest => if last then (if ts.length = n then BitVec.ofNat 8 (rest.foldl max y) else 255) else BitVec.ofNat 8 (rest.foldl min y)
theorem column_eq (t : Tempo) (fb : Bool) (j : Nat) :
    column t fb j = raceResult (t.mode.getLsbD j) (enabledRows t j).length (arrivals t fb j) := rfl
/-- The first edge of a column, and none. -/
theorem column_first {t : Tempo} {fb : Bool} {j : Nat} (hm : t.mode.getLsbD j = false) :
    ((∀ i, ¬rowInTime t fb j i) → column t fb j = 255) ∧
      ∀ i, rowInTime t fb j i → (∀ n, rowInTime t fb j n → rowLate t fb j i ≤ rowLate t fb j n) → column t fb j = BitVec.ofNat 8 (rowLate t fb j i) := by
  rw [column_eq, hm]
  have hmem := mem_arrivals t fb j
  generalize arrivals t fb j = ts at hmem ⊢
  cases ts with
  | nil => exact ⟨fun _ => rfl, fun i hi _ => absurd ((hmem _).2 ⟨i, hi, rfl⟩) (by simp)⟩
  | cons y ys =>
    refine ⟨fun hnone => ?_, fun i hi hle => congrArg (BitVec.ofNat 8) (foldl_min_eq ys y ((hmem _).2 ⟨i, hi, rfl⟩) fun z hz => ?_)⟩
    · obtain ⟨i, hi, -⟩ := (hmem y).1 List.mem_cons_self
      exact absurd hi (hnone i)
    · obtain ⟨n, hn, rfl⟩ := (hmem z).1 hz
      exact hle n hn
/-- The last edge of a column all of whose rows are in time. -/
theorem column_last {t : Tempo} {fb : Bool} {j : Nat} (hm : t.mode.getLsbD j = true) :
    (((∀ i, ¬rowOn t j i) ∨ ∃ i, rowOn t j i ∧ ¬rowInTime t fb j i) → column t fb j = 255) ∧
      ∀ i, rowOn t j i → (∀ n, rowOn t j n → rowInTime t fb j n ∧ rowLate t fb j n ≤ rowLate t fb j i) →
        column t fb j = BitVec.ofNat 8 (rowLate t fb j i) := by
  rw [column_eq, hm]
  have hmem := mem_arrivals t fb j
  have hshort := arrivals_short t fb j
  have hle := arrivals_le t fb j
  generalize arrivals t fb j = ts at hmem hshort hle ⊢
  cases ts with
  | nil => exact ⟨fun _ => rfl, fun i hi hall => absurd ((hmem _).2 ⟨i, (hall i hi).1, rfl⟩) (by simp)⟩
  | cons y ys =>
    refine ⟨fun hnone => if_neg fun he => ?_, fun i hi hall => ?_⟩
    · rcases hnone with hoff | hmiss
      · obtain ⟨i, hi, -⟩ := (hmem y).1 List.mem_cons_self
        exact hoff i hi.1
      · exact absurd (hshort.2 hmiss) (by omega)
    · have hfull : (y :: ys).length = (enabledRows t j).length := by
        refine le_antisymm hle (not_lt.1 fun hlt => ?_)
        obtain ⟨n, hon, hn⟩ := hshort.1 hlt
        exact hn (hall n hon).1
      refine (if_pos hfull).trans (congrArg (BitVec.ofNat 8) (foldl_max_eq ys y ((hmem _).2 ⟨i, (hall i hi).1, rfl⟩) fun z hz => ?_))
      obtain ⟨n, hn, rfl⟩ := (hmem z).1 hz
      exact (hall n hn.1).2
theorem tfire_done {fb} (hi : x.ins = .tfire fb) (hb : (core s c).tempo.bad = []) (h : TmDone s t c x rest) :
    (core t c).tempo = { (core s c).tempo with out := (core t c).tempo.out } ∧ ∀ j, j < 128 →
      cget 255 (core t c).tempo.out j = column (core s c).tempo fb j := by
  have htempo : (core t c).tempo = race (core s c).tempo fb := by
    rw [(h.whole (by simp [hi]) (by simp [hi])).2]
    unfold tempoAfter
    rw [hi]
  refine ⟨?_, fun j hj => ?_⟩
  · rw [htempo]
    unfold race raceBad
    dsimp only
    rw [hb]
    rfl
  · have hout : (core t c).tempo.out = (List.range 128).foldl (fun m j => cput 255 m j (column (core s c).tempo fb j)) [] := by
      rw [htempo]
      show cputAll 255 [] _ = _
      unfold cputAll
      rw [List.foldl_map]
    rw [hout, cget_foldl_cput 255 (column (core s c).tempo fb), if_pos (List.mem_range.2 hj)]
end

end Sys2Proof.Machine
end

section
/-! PROOFS. Ends of copies, batches and sleeps (R98, R112, R184, R206), and O39. -/

namespace Sys2Proof.Machine

/-! ## A copy's end (R206) -/

theorem copyComplete_done {s : State} {id op : Nat} {x : Copy} {o : Op} (hx : mget s.copies id = some x) (hu : x.units = []) (hout : x.out = 0)
    (hop : x.op = op) (hc : isCpyx x.ins = false) (ho : mget s.ops op = some o) :
    Gives (.copyComplete id) s fun s t => PartDone s t op ∧ mget t.copies id = none ∧ t.mem = s.mem ∧ t.teams = s.teams := by
  subst hop
  let s1 : State := { s with copies := mdel s.copies id }
  obtain ⟨os, hos⟩ := opParts_frame s1 x.op 1
  have hops : mget os x.op = some { o with parts := o.parts - 1 } := by
    have h : mget (opParts s1 x.op 1).ops x.op = some { o with parts := o.parts - 1 } := mget_modOp_same (s := s1) ho
    rwa [hos] at h
  obtain ⟨⟨gs, hf⟩, -⟩ := failLoad_spec (opParts s1 x.op 1) x.op 0
  have ht : opDone s1 x.op none = { s1 with ops := os, groups := gs } := by
    rw [hos] at hf
    rw [← hf, ← hos]
    rfl
  have hover : copyOver x = true := by
    unfold copyOver
    rw [hu, hout]
    rfl
  refine ⟨opDone s1 x.op none, ?_, ?_, ?_, ?_, ?_⟩
  · show Host.Outcome.next _ = _
    rw [hx]
    dsimp only
    rw [hover, hc]
    rfl
  · unfold PartDone
    rw [ht, ho]
    show (mget os x.op).map _ = _
    rw [hops]
    rfl
  · rw [ht]
    exact mget_mdel_same ..
  · rw [ht]
  · rw [ht]

/-! ## A batch's end (R112, R184, R185) -/

section
variable {s : State} {gid : Nat} {g : Group} {c : EngineClass}

/-- The operations of a class's oldest closed batch, and the handles they signal. -/
def inBatch (g : Group) (gid : Nat) (c : EngineClass) (y : Nat × Op) : Bool :=
  y.2.gid = gid && y.2.cls = c && y.2.batch = some (oldestBatch (clsOf g c))
def tagsOf (ops : Map Op) : List Nat := ops.foldl (fun l o => match o.2.tag with | some h => insertNat l h | none => l) []
theorem tagsOf_none {ops : Map Op} (h : ∀ y ∈ ops, y.2.tag = none) : tagsOf ops = [] := by
  unfold tagsOf
  induction ops with
  | nil => rfl
  | cons y ops ih =>
    rw [List.foldl_cons, h y List.mem_cons_self]
    exact ih fun z hz => h z (List.mem_cons_of_mem _ hz)
/-- A group whose oldest batch of a class has completed. -/
def batchOver (s : State) (gid : Nat) (c : EngineClass) (g g' : Group) : Group :=
  { setCls g' c { clsOf g c with count := (clsOf g c).count - 1 } with
    status8 := g'.status8 ||| (s.ops.filter (inBatch g gid c)).foldl (fun f y => f ||| y.2.flags) 0 }
/-- The state before waits are met. -/
def afterBatch (s : State) (gid : Nat) (c : EngineClass) (g : Group) : State :=
  modGrp { s with ops := s.ops.filter fun y => !inBatch g gid c y } gid (batchOver s gid c g)
theorem mem_inBatch {y : Nat × Op} : inBatch g gid c y = true ↔ y.2.gid = gid ∧ y.2.cls = c ∧ y.2.batch = some (oldestBatch (clsOf g c)) := by
  simp [inBatch, and_assoc]
theorem batchComplete_exec (hg : mget s.groups gid = some g) (hr : batchReady s gid c = true)
    (ht : ∀ y ∈ s.ops, y.2.gid = gid → y.2.cls = c → y.2.batch = some (oldestBatch (clsOf g c)) → y.2.tag = none) :
    exec (.batchComplete gid c) s = .next (checkWait (afterBatch s gid c g) gid c) := by
  have hgrp : grp s gid = g := grp_of_mget hg
  have htags : tagsOf (s.ops.filter (inBatch (grp s gid) gid c)) = [] := by
    refine tagsOf_none fun y hy => ?_
    obtain ⟨hmem, hy⟩ := List.mem_filter.1 hy
    obtain ⟨h1, h2, h3⟩ := mem_inBatch.1 hy
    rw [hgrp] at h3
    exact ht y hmem h1 h2 h3
  have hexec : exec (.batchComplete gid c) s = .next (if (!batchReady s gid c) = true then s else
      checkWait ((tagsOf (s.ops.filter (inBatch (grp s gid) gid c))).foldl (fun s h => tagSignal s gid h)
        (afterBatch s gid c (grp s gid))) gid c) := rfl
  rw [hexec, htags, hr, hgrp]
  rfl
theorem mget_afterBatch (hg : mget s.groups gid = some g) : mget (afterBatch s gid c g).groups gid = some (batchOver s gid c g g) :=
  mget_modGrp_same (s := { s with ops := s.ops.filter fun y => !inBatch g gid c y }) hg
theorem afterBatch_frame : ∃ gs, afterBatch s gid c g = { s with ops := s.ops.filter fun y => !inBatch g gid c y, groups := gs } :=
  ⟨_, modGrp_frame ..⟩
theorem checkWait_other {t : State} (h1 : ∀ d n, (grp t gid).status ≠ .waiting (.batch d n)) (h2 : ∀ d n, (grp t gid).status ≠ .waiting (.count d n)) :
    checkWait t gid c = t := by
  unfold checkWait
  dsimp only
  split
  · exact absurd ‹_› (h1 _ _)
  · exact absurd ‹_› (h2 _ _)
  · rfl
theorem batchComplete_done (hg : mget s.groups gid = some g) (hr : batchReady s gid c = true)
    (ht : ∀ y ∈ s.ops, y.2.gid = gid → y.2.cls = c → y.2.batch = some (oldestBatch (clsOf g c)) → y.2.tag = none)
    (h1 : ∀ d n, g.status ≠ .waiting (.batch d n)) (h2 : ∀ d n, g.status ≠ .waiting (.count d n)) :
    Gives (.batchComplete gid c) s fun s t => t.mem = s.mem ∧
      grp t gid = { setCls g c { clsOf g c with count := (clsOf g c).count - 1 } with status8 := (grp t gid).status8 } ∧
      (∀ i, (grp t gid).status8.getLsbD i = (g.status8.getLsbD i || s.ops.any fun y => y.2.gid = gid && y.2.cls = c
        && y.2.batch = some (oldestBatch (clsOf g c)) && y.2.flags.getLsbD i)) ∧
      ∀ y, y ∈ t.ops ↔ y ∈ s.ops ∧ ¬(y.2.gid = gid ∧ y.2.cls = c ∧ y.2.batch = some (oldestBatch (clsOf g c))) := by
  have hgrp : grp (afterBatch s gid c g) gid = batchOver s gid c g g := grp_of_mget (mget_afterBatch hg)
  obtain ⟨gs, hframe⟩ := afterBatch_frame (s := s) (gid := gid) (g := g) (c := c)
  refine ⟨afterBatch s gid c g, ?_, ?_, ?_, fun i => ?_, fun y => ?_⟩
  · rw [batchComplete_exec hg hr ht, checkWait_other (by rw [hgrp]; exact h1) (by rw [hgrp]; exact h2)]
  · rw [hframe]
  · rw [hgrp]
    rfl
  · rw [hgrp]
    show (g.status8 ||| _).getLsbD i = _
    rw [BitVec.getLsbD_or, foldl_or_zero_bit, List.any_filter]
    rfl
  · rw [hframe]
    show y ∈ s.ops.filter _ ↔ _
    rw [List.mem_filter, ← mem_inBatch (g := g), Bool.not_eq_true', Bool.not_eq_true]
/-- The oldest batch is complete once it is no longer counted (R185). -/
theorem batchDone_oldest {x : Class} (h0 : x.count ≠ 0) (h : x.count ≤ 128) : batchDone { x with count := x.count - 1 } (oldestBatch x) = true := by
  have hback : x.next - 1 - oldestBatch x = BitVec.ofNat 8 (x.count - 1) := by
    unfold oldestBatch
    bv_omega
  have hdone : batchDone { x with count := x.count - 1 } (oldestBatch x) =
      (!decide ((x.next - 1 - oldestBatch x).toNat < 128) || decide (x.count - 1 ≤ (x.next - 1 - oldestBatch x).toNat)) := rfl
  rw [hdone, hback, BitVec.toNat_ofNat, Nat.mod_eq_of_lt (by omega)]
  simp
theorem batchComplete_wakes (hg : mget s.groups gid = some g) (hr : batchReady s gid c = true) (hn : (clsOf g c).count ≤ 128)
    (he : (clsOf g c).err = false) (ht : ∀ y ∈ s.ops, y.2.gid = gid → y.2.cls = c → y.2.tag = none)
    (hw : g.status = .waiting (.batch c (oldestBatch (clsOf g c)))) : Gives (.batchComplete gid c) s fun s t =>
      (grp t gid).status = .ready ∧ (grp t gid).readyAt = s.cycle := by
  let t := afterBatch s gid c g
  let g' := batchOver s gid c g g
  have hgrp : grp t gid = g' := grp_of_mget (mget_afterBatch hg)
  obtain ⟨gs, hframe⟩ := afterBatch_frame (s := s) (gid := gid) (g := g) (c := c)
  have hcls : clsOf g' c = { clsOf g c with count := (clsOf g c).count - 1 } := by
    show (mget (mput g.cls c.code _) c.code).getD {} = _
    rw [mget_mput_same]
    rfl
  have h0 : (clsOf g c).count ≠ 0 := by
    unfold batchReady at hr
    rw [grp_of_mget hg] at hr
    simp only [Bool.and_eq_true, bne_iff_ne] at hr
    exact hr.1
  have hcheck : checkWait t gid c = setGrp t gid (makeReady t g') := by
    unfold checkWait
    rw [hgrp]
    dsimp only
    rw [show g'.status = g.status from rfl, hw]
    dsimp only
    rw [hcls, batchDone_oldest h0 hn]
    unfold waitHolds
    rw [hgrp]
    dsimp only
    rw [hcls]
    dsimp only
    rw [he]
    simp
  refine ⟨setGrp t gid (makeReady t g'), ?_, ?_, ?_⟩
  · rw [batchComplete_exec hg hr fun y hy h1 h2 _ => ht y hy h1 h2]
    exact congrArg _ hcheck
  · rw [grp_setGrp_same]
    rfl
  · rw [grp_setGrp_same]
    show t.cycle = _
    simp only [t]
    rw [hframe]
end

/-! ## A sleep's end (R98) -/

theorem sleepExpire_done {s : State} {gid : Nat} {g : Group} (hg : mget s.groups gid = some g) (hw : g.status = .waiting .sleep)
    (hl : g.sleepLeft ≤ s.cycle - g.since) : exec (.sleepExpire gid) s =
      .next (setGrp s gid { g with status := .ready, readyAt := s.cycle, passed := 0, sleepLeft := 0 }) := by
  show execSleepExpire gid s = _
  unfold execSleepExpire
  rw [grp_of_mget hg]
  dsimp only
  rw [hw]
  dsimp only
  rw [if_pos hl]
  rfl

end Sys2Proof.Machine
end

section
/-! PROOFS. O39: what the events of the engines do (R98, R112, R184, R206, R267 to R300). -/

namespace Sys2Proof.Machine

/-- Settles O39: a command that starts whole reads all it needs and writes each element's value once, so the state after each engine's event
is read off what that engine does. -/
theorem engineEvents : Obligations.EngineEvents := by
  unfold Obligations.EngineEvents
  intro s gid op g o c hg ho
  refine ⟨?_, ?_, ?_, ?_, ?_, ?_⟩
  · intro slot strm x hx hleft hgid hop hd hf htb hcb
    subst hgid hop
    refine (matrixCommand_done hx hleft hg ho hd hf htb hcb).imp fun t ⟨he, h⟩ => ⟨he, h.parts, h.mem, h.others, ?_⟩
    refine ⟨fun a b st ru ty tq boff hi hb => mmq_done hi hb h, fun a p st ru ty tq boff k0 k1 hi hk hb => mmqt_done hi hk hb h,
      fun a b st ru qt af16 tq sel boff hi hb => mmqz_done hi hb h, fun st tf n1 hi => aclr_done hi h,
      fun b st ty tf n1 hi hb => ?_, fun b st ty tf n1 m hi hb ht => ?_, fun d st tq hi => amov_done hi h,
      fun st td ts n1 hi => aadd_done hi h, fun f st tf n1 hi => asclK_done hi h, fun f st tf n1 hi => asclRow_done hi h⟩
    · cases ty <;> exact alds_done hi hb h
    · cases ty <;> exact asts_done hi hb ht h
  · intro k x rest hq hs hop hf hb hc
    subst hop
    refine (tempoCommand_done hq hs ho hf hb hc).imp fun t ⟨he, h⟩ => ⟨he, h.parts, h.mem, h.teams, h.queue, h.groups_kept, ?_⟩
    refine ⟨fun tw hi => twin_done hi hb h, fun hi => treset_done hi hb h, fun b nr1 fr hi hl ha => tloadw_done hi hl ha hb h,
      fun b h' hi => tcfg_done hi hb h, fun a rb hi => tstage_done hi hb h, fun d cb hi hl hgid hd => ?_, fun fb hi => ?_⟩
    · subst hgid
      exact tcapt_done hi hl hg ho hd h
    · obtain ⟨htempo, hout⟩ := tfire_done hi hb h
      refine ⟨htempo, fun j hj => ?_⟩
      rw [hout j hj]
      have hfirst (hm : (core s k).tempo.mode.getLsbD j = false) := column_first (fb := fb) hm
      have hlast (hm : (core s k).tempo.mode.getLsbD j = true) := column_last (fb := fb) hm
      simp only [rowInTime, rowLate, rowTick_eq] at hfirst hlast
      exact ⟨hfirst, hlast⟩
  · intro id x hx hu hout hop hc
    exact copyComplete_done hx hu hout hop hc ho
  · intro hr _ ht h1 h2
    exact batchComplete_done hg hr ht h1 h2
  · intro hr _ hn he ht hw
    exact batchComplete_wakes hg hr hn he ht hw
  · exact sleepExpire_done hg

end Sys2Proof.Machine
end

section
/-! PROOFS. The integer vector words (R135 to R137), and what a V word with one, two or three sources gives its lanes. -/

namespace Sys2Proof.Machine

/-! ## Words of one, two and three sources (R131) -/

theorem gives_v1 {i : Instr} {s : State} {d : VDst} {a : Opnd} {f : Word → Word × Byte}
    (h : exec i s = .next (v1 s d a f)) (hs : OperandsOk s [a] d.d) : GivesLanes i s d fun l => f (opv s.issue.pre a l) :=
  ⟨_, h, vword_spec s d [a] _ _ hs⟩
theorem gives_v2 {i : Instr} {s : State} {d : VDst} {a b : Opnd} {f : Word → Word → Word × Byte}
    (h : exec i s = .next (v2 s d a b f)) (hs : OperandsOk s [a, b] d.d) :
    GivesLanes i s d fun l => f (opv s.issue.pre a l) (opv s.issue.pre b l) := ⟨_, h, vword_spec s d [a, b] _ _ hs⟩
theorem gives_v3 {i : Instr} {s : State} {d : VDst} {a b e : Opnd} {f : Word → Word → Word → Word × Byte}
    (h : exec i s = .next (v3 s d a b e f)) (hs : OperandsOk s [a, b, e] d.d) :
    GivesLanes i s d fun l => f (opv s.issue.pre a l) (opv s.issue.pre b l) (opv s.issue.pre e l) :=
  ⟨_, h, vword_spec s d [a, b, e] _ _ hs⟩
/-- What a word gives its lanes, in other words. -/
theorem GivesLanes.congr {i : Instr} {s : State} {d : VDst} {f g : Nat → Word × Byte} (h : GivesLanes i s d f)
    (he : ∀ l, f l = g l) : GivesLanes i s d g := (funext he : f = g) ▸ h

/-! ## What the words compute, in the words of R135 to R137 -/

theorem iabs_eq (x : Word) : (if x.msb = true then 0 - x else x) = if x.toInt < 0 then -x else x := by
  simp only [BitVec.msb_eq_toInt, decide_eq_true_eq]
  rw [show (0 : Word) - x = -x from BitVec.zero_sub x]
theorem bit_toNat {n : Nat} (x : BitVec n) (i : Nat) : bit x.toNat i = x.getLsbD i := by
  unfold bit
  rw [BitVec.getLsbD, Nat.testBit_eq_decide_div_mod_eq]
theorem popc_word (n : Nat) (x : Word) : popc n x.toNat = ((List.range n).filter fun i => x.getLsbD i).length := by
  unfold popc
  rw [show bit x.toNat = fun i => x.getLsbD i from funext (bit_toNat x)]
/-- Where the leading one bit stands (R135 ICLZ). -/
theorem clz_spec (x : Word) : clz x ≤ 32 ∧ (∀ i, i < clz x → x.getLsbD (31 - i) = false) ∧
    (clz x < 32 → x.getLsbD (31 - clz x) = true) := by
  unfold clz
  by_cases h : x = 0
  · subst h
    simp
  · have h0 : x.toNat ≠ 0 := fun hx => h (BitVec.eq_of_toNat_eq hx)
    have hlog : x.toNat.log2 < 32 := (Nat.log2_lt h0).2 x.isLt
    rw [if_neg h]
    refine ⟨by omega, fun i hi => ?_, fun _ => ?_⟩
    · exact Nat.testBit_lt_two_pow ((Nat.log2_lt h0).1 (by omega))
    · rw [show 31 - (31 - x.toNat.log2) = x.toNat.log2 by omega]
      exact Nat.testBit_log2 h0
/-- A sum over a list of what some of its members count. -/
theorem foldl_if_sum (p : Nat → Bool) (c : Nat → Nat) (ls : List Nat) (n : Nat) :
    ls.foldl (fun n l => if p l then n + c l else n) n = n + (ls.map fun l => if p l then c l else 0).sum := by
  induction ls generalizing n with
  | nil => simp
  | cons a t ih =>
    rw [List.foldl_cons, ih, List.map_cons, List.sum_cons]
    split <;> omega
/-- Bits in reverse are a mask, read from the other end (R135 IBREV). -/
theorem brev_eq_maskOf (x : Word) : brev x = maskOf fun l => x.getLsbD (31 - l) := by
  have hrev : (List.range 32).map (fun l => 31 - l) = (List.range 32).reverse := by decide
  unfold brev maskOf allLanes
  rw [foldl_if_sum, foldl_if_sum, ← List.sum_reverse ((List.range 32).map fun l => if x.getLsbD (31 - l) = true then 2 ^ l else 0),
    ← List.map_reverse, ← hrev, List.map_map]
  refine congrArg (fun l : List Nat => BitVec.ofNat 32 (0 + l.sum)) (List.map_congr_left fun i hi => ?_)
  have hi : i < 32 := List.mem_range.1 hi
  rw [bit_toNat, Function.comp_apply, show 31 - (31 - i) = i by omega]
theorem brev_getLsbD (x : Word) {i : Nat} (hi : i < 32) : (brev x).getLsbD i = x.getLsbD (31 - i) := by
  rw [brev_eq_maskOf, maskOf_getLsbD]
  simp [hi]
/-- A sum or difference without saturation wraps (R135). -/
theorem satOp_none_add (x y : Word) : satOp .none (· + ·) x y = (x + y, 0) := by
  refine Prod.ext (BitVec.eq_of_toInt_eq ?_) rfl
  change (BitVec.ofInt 32 (x.toNat + y.toNat)).toInt = _
  rw [show ((x.toNat : Int) + y.toNat) = ((x.toNat + y.toNat : Nat) : Int) by push_cast; rfl, BitVec.ofInt_natCast, BitVec.ofNat_add,
    BitVec.ofNat_toNat, BitVec.ofNat_toNat]
  simp
theorem satOp_none_sub (x y : Word) : satOp .none (· - ·) x y = (x - y, 0) := by
  refine Prod.ext (BitVec.eq_of_toNat_eq ?_) rfl
  change (BitVec.ofInt 32 (x.toNat - y.toNat)).toNat = _
  have := x.isLt
  have := y.isLt
  rw [BitVec.toNat_ofInt, BitVec.toNat_sub]
  omega
/-- A clamped value and its flag (R135). -/
theorem satWord_eq (x lo hi : Int) (h : lo ≤ hi) :
    satWord x lo hi = (BitVec.ofInt 32 (max lo (min hi x)), if lo ≤ x ∧ x ≤ hi then 0 else fSAT) := by
  unfold satWord clampInt satIf
  by_cases h1 : x < lo
  · rw [if_pos h1, if_neg (by omega), max_eq_left ((min_le_right ..).trans h1.le)]
    rfl
  · by_cases h2 : hi < x
    · rw [if_neg h1, if_pos h2, if_neg (by omega), min_eq_left h2.le, max_eq_right h]
      rfl
    · rw [if_neg h1, if_neg h2, if_pos (by omega), min_eq_right (by omega), max_eq_right (by omega)]
      rfl
theorem wlt_signed (x y : Word) : wlt true x y = true ↔ x.toInt < y.toInt := BitVec.slt_iff_toInt_lt ..
theorem wlt_unsigned (x y : Word) : wlt false x y = true ↔ x.toNat < y.toNat := BitVec.ult_iff_toNat_lt ..
theorem if_wlt_signed (x y u v : Word) : (if wlt true x y = true then u else v) = if x.toInt < y.toInt then u else v :=
  if_congr (wlt_signed x y) rfl rfl
theorem if_wlt_unsigned (x y u v : Word) : (if wlt false x y = true then u else v) = if x.toNat < y.toNat then u else v :=
  if_congr (wlt_unsigned x y) rfl rfl
/-- The relation that a comparison asks for (R137). -/
theorem icmpHolds_iff (cc : Cc) (x y : Word) : icmpHolds cc x y = true ↔ match cc with
    | .eq => x = y | .ne => x ≠ y
    | .ltI => x.toInt < y.toInt | .leI => x.toInt ≤ y.toInt | .gtI => y.toInt < x.toInt | .geI => y.toInt ≤ x.toInt
    | .ltN => x.toNat < y.toNat | .leN => x.toNat ≤ y.toNat | .gtN => y.toNat < x.toNat | .geN => y.toNat ≤ x.toNat := by
  cases cc
  · exact beq_iff_eq
  · exact bne_iff_ne
  · exact BitVec.slt_iff_toInt_lt ..
  · exact BitVec.sle_iff_toInt_le ..
  · exact BitVec.slt_iff_toInt_lt ..
  · exact BitVec.sle_iff_toInt_le ..
  · exact BitVec.ult_iff_toNat_lt ..
  · exact BitVec.ule_iff_toNat_le ..
  · exact BitVec.ult_iff_toNat_lt ..
  · exact BitVec.ule_iff_toNat_le ..
theorem shl_eq (x y : Word) : shl x y = if y.toNat < 32 then x <<< y.toNat else 0 := by
  unfold shl
  by_cases h : y.toNat < 32
  · rw [if_neg (by omega), if_pos h]
  · rw [if_pos (by omega), if_neg h]
theorem shr_eq (x y : Word) : shr x y = if y.toNat < 32 then x >>> y.toNat else 0 := by
  unfold shr
  by_cases h : y.toNat < 32
  · rw [if_neg (by omega), if_pos h]
  · rw [if_pos (by omega), if_neg h]
/-- The field that a descriptor names, sign-extended (R136). -/
theorem ibfe_signed_eq (x y : Word) : ibfe true x y = if 32 ≤ y.toNat % 64 then 0 else
    BitVec.ofInt 32 (Int.bmod (x.toNat / 2 ^ (y.toNat % 64)) (2 ^ min (y.toNat / 64 % 64 + 1) (32 - y.toNat % 64))) := by
  by_cases h : 32 ≤ y.toNat % 64
  · rw [if_pos h]
    exact if_pos h
  · rw [if_neg h]
    refine (if_neg h).trans ?_
    change BitVec.ofInt 32 (sextInt _ _) = _
    rw [sextInt, ← Nat.mod_mod, ← sextInt, sextInt_eq_bmod (by omega)]
    norm_cast
/-- Three numbers side by side, bit by bit: lo below bit p, mid in the next w bits, hi above. -/
theorem testBit_insert {lo mid p w : Nat} (hi : Nat) (hlo : lo < 2 ^ p) (hmid : mid < 2 ^ w) (i : Nat) :
    (lo + hi * 2 ^ (p + w) + mid * 2 ^ p).testBit i =
      if i < p then lo.testBit i else if i < p + w then mid.testBit (i - p) else hi.testBit (i - (p + w)) := by
  rw [show lo + hi * 2 ^ (p + w) + mid * 2 ^ p = 2 ^ p * (2 ^ w * hi + mid) + lo by rw [Nat.pow_add]; ring,
    Nat.testBit_two_pow_mul_add _ hlo, Nat.testBit_two_pow_mul_add _ hmid]
  by_cases h1 : i < p
  · rw [if_pos h1, if_pos h1]
  · by_cases h2 : i < p + w
    · rw [if_neg h1, if_neg h1, if_pos (by omega), if_pos h2]
    · rw [if_neg h1, if_neg h1, if_neg (by omega), if_neg h2, Nat.sub_sub]
/-- A field of A replaced by the low bits of B (R136 IBFI). -/
theorem ibfi_getLsbD (x y z : Word) {i : Nat} (hi : i < 32) :
    let pos := z.toNat % 64
    let w := min (z.toNat / 64 % 64 + 1) (32 - pos)
    (ibfi x y z).getLsbD i = if pos < 32 ∧ pos ≤ i ∧ i < pos + w then y.getLsbD (i - pos) else x.getLsbD i := by
  intro pos w
  by_cases h : 32 ≤ pos
  · rw [if_neg (by omega), show ibfi x y z = x from if_pos h]
  · have hv : ibfi x y z = BitVec.ofNat 32 (x.toNat % 2 ^ pos + x.toNat / 2 ^ (pos + w) * 2 ^ (pos + w) + y.toNat % 2 ^ w * 2 ^ pos) :=
      if_neg h
    rw [hv, BitVec.getLsbD_ofNat, testBit_insert _ (Nat.mod_lt _ (by positivity)) (Nat.mod_lt _ (by positivity)),
      Nat.testBit_mod_two_pow, Nat.testBit_mod_two_pow, Nat.testBit_div_two_pow, decide_eq_true hi, Bool.true_and]
    by_cases h1 : i < pos
    · rw [if_pos h1, if_neg (by omega), decide_eq_true h1, Bool.true_and]
      rfl
    · by_cases h2 : i < pos + w
      · rw [if_neg h1, if_pos h2, if_pos (by omega), decide_eq_true (by omega), Bool.true_and]
        rfl
      · rw [if_neg h1, if_neg h2, if_neg (by omega), Nat.sub_add_cancel (by omega)]
        rfl

/-- Settles O4: a V word gives each active lane its function of the operands, and each function is that of its row. -/
theorem integerWords : Obligations.IntegerWords := by
  intro s d a b e A B E clamped pos wid holds two
  refine ⟨fun h => ?_, fun h => ?_, fun h => ?_⟩
  · have word {i : Instr} {f : Word → Word} (g : Word → Word) (hi : exec i s = .next (v1 s d a fun x => noFlag (f x)))
        (hf : ∀ x, f x = g x) : GivesLanes i s d fun l => (g (A l), 0) := (gives_v1 hi h).congr fun l => congrArg noFlag (hf _)
    exact ⟨word (fun x => if x.toInt < 0 then -x else x) rfl iabs_eq,
      word (fun x => BitVec.ofNat 32 ((List.range 32).filter fun i => x.getLsbD i).length) rfl fun x => by rw [popc_word],
      ⟨clz, word (fun x => BitVec.ofNat 32 (clz x)) rfl fun _ => rfl, clz_spec⟩, ⟨brev, word brev rfl fun _ => rfl, fun x i hi => brev_getLsbD x hi⟩⟩
  · have lift {i : Instr} {f : Word → Word → Word × Byte} (g : Word → Word → Word) (hi : exec i s = .next (v2 s d a b f))
        (hf : ∀ x y, f x y = (g x y, 0)) : two i g := (gives_v2 hi h).congr fun l => hf _ _
    have word {i : Instr} {f : Word → Word → Word} (g : Word → Word → Word)
        (hi : exec i s = .next (v2 s d a b fun x y => noFlag (f x y))) (hf : ∀ x y, f x y = g x y) : two i g :=
      lift g hi fun x y => congrArg noFlag (hf x y)
    have sat {i : Instr} (g : Word → Word → Int) {lo hi : Int} (hle : lo ≤ hi)
        (hx : exec i s = .next (v2 s d a b fun x y => satWord (g x y) lo hi)) :
        GivesLanes i s d fun l => clamped (g (A l) (B l)) lo hi := (gives_v2 hx h).congr fun l => satWord_eq _ _ _ hle
    refine ⟨lift _ rfl satOp_none_add, lift _ rfl satOp_none_sub,
      sat (fun x y => x.toInt + y.toInt) (by norm_num) rfl, sat (fun x y => (x.toNat : Int) + y.toNat) (by norm_num) rfl,
      sat (fun x y => x.toInt - y.toInt) (by norm_num) rfl, sat (fun x y => (x.toNat : Int) - y.toNat) (by norm_num) rfl,
      word (fun x y => if 2 ^ 32 ≤ x.toNat + y.toNat then 1 else 0) rfl fun x y => ?_, word (mulKind .low) rfl fun _ _ => rfl,
      word (mulKind .highI) rfl fun _ _ => rfl, word (mulKind .highN) rfl fun _ _ => rfl,
      word (fun x y => if y.toInt < x.toInt then y else x) rfl fun x y => if_wlt_signed ..,
      word (fun x y => if y.toNat < x.toNat then y else x) rfl fun x y => if_wlt_unsigned ..,
      word (fun x y => if x.toInt < y.toInt then y else x) rfl fun x y => if_wlt_signed ..,
      word (fun x y => if x.toNat < y.toNat then y else x) rfl fun x y => if_wlt_unsigned ..,
      word (· &&& ·) rfl fun _ _ => rfl, word (· ||| ·) rfl fun _ _ => rfl, word (· ^^^ ·) rfl fun _ _ => rfl, word _ rfl shl_eq, word _ rfl shr_eq,
      word sra rfl fun _ _ => rfl, word (ibfe false) rfl fun _ _ => rfl, word _ rfl ibfe_signed_eq, fun cc => ?_⟩
    · exact if_congr decide_eq_true_iff rfl rfl
    · refine ⟨fun x y => boolWord (icmpHolds cc x y), word (fun x y => boolWord (icmpHolds cc x y)) rfl fun _ _ => rfl, fun x y => ?_⟩
      have hcc : icmpHolds cc x y = true ↔ holds cc x y := icmpHolds_iff cc x y
      exact ⟨fun h => if_pos (hcc.2 h), fun h => if_neg fun hd => h (hcc.1 hd)⟩
  · exact ⟨gives_v3 (f := fun x y z => noFlag (x * y + z)) rfl h, gives_v3 (f := fun x y z => noFlag (if x = 0 then z else y)) rfl h, ibfi, gives_v3 (f := fun x y z => noFlag (ibfi x y z)) rfl h, fun x y z i hi => ibfi_getLsbD x y z hi⟩

end Sys2Proof.Machine
end

section
/-! PROOFS. The order of patterns without a sign is that of their magnitudes (R120), and FMIN, FMAX and FCMP by it (R139, R143). -/

namespace Sys2Proof.Machine

/-! ## Magnitudes in steps of the smallest subnormal (R120) -/

/-- A pattern without its sign. -/
def fpBody (t : FTy) (w : Nat) : Nat := w % 2 ^ (FTy.ebits t + FTy.mbits t)
/-- The steps of the smallest subnormal that a pattern without a sign is. -/
def magSteps (t : FTy) (b : Nat) : Nat :=
  if b / 2 ^ FTy.mbits t = 0 then b else (2 ^ FTy.mbits t + b % 2 ^ FTy.mbits t) * 2 ^ (b / 2 ^ FTy.mbits t - 1)

theorem fpExpField_body (t : FTy) (w : Nat) : fpExpField t w = fpBody t w / 2 ^ FTy.mbits t := by
  unfold fpExpField fpBody
  rw [Nat.add_comm, Nat.pow_add, Nat.mod_mul_right_div_self]
theorem fpFrac_body (t : FTy) (w : Nat) : fpFrac t w = fpBody t w % 2 ^ FTy.mbits t := by
  unfold fpFrac fpBody
  rw [Nat.add_comm, Nat.pow_add, Nat.mod_mul_right_mod]
theorem fpMag_eq_magSteps (t : FTy) (w : Nat) : fpMag t w = magSteps t (fpBody t w) * 2 ^ (FTy.emin t - FTy.mbits t) := by
  unfold magSteps
  rw [← fpExpField_body]
  by_cases h : fpExpField t w = 0
  · have hb : fpBody t w = fpFrac t w := by
      have := Nat.div_add_mod (fpBody t w) (2 ^ FTy.mbits t)
      rw [← fpExpField_body, ← fpFrac_body, h] at this
      omega
    rw [if_pos h, fpMag_subnormal h, hb]
  · obtain ⟨e, he⟩ := Nat.exists_eq_add_of_le' (Nat.one_le_iff_ne_zero.2 h)
    rw [if_neg h, fpMag_normal h, ← fpFrac_body, he, Nat.add_sub_cancel]
    push_cast
    rw [mul_assoc, ← zpow_natCast (2 : ℚ) e, ← zpow_add₀ (by norm_num)]
    unfold FTy.emin
    congr 2
    ring
theorem magSteps_lt {t : FTy} {a b : Nat} (h : a < b) : magSteps t a < magSteps t b := by
  unfold magSteps
  have ha := Nat.div_add_mod' a (2 ^ FTy.mbits t)
  have hb := Nat.div_add_mod' b (2 ^ FTy.mbits t)
  have hP : 0 < 2 ^ FTy.mbits t := by positivity
  have hra := Nat.mod_lt a hP
  have hdiv : a / 2 ^ FTy.mbits t ≤ b / 2 ^ FTy.mbits t := Nat.div_le_div_right h.le
  generalize 2 ^ FTy.mbits t = P at *
  generalize a % P = r at *
  generalize b % P = r' at *
  generalize a / P = k at *
  generalize b / P = k' at *
  rcases Nat.eq_zero_or_pos k' with h0 | h0
  · rw [if_pos h0, if_pos (show k = 0 by omega)]
    exact h
  · obtain ⟨j', rfl⟩ := Nat.exists_eq_add_of_le' h0
    rw [if_neg h0.ne', Nat.add_sub_cancel]
    rcases Nat.eq_zero_or_pos k with h1 | h1
    · subst h1
      rw [if_pos rfl]
      calc a < P + r' := by omega
        _ ≤ (P + r') * 2 ^ j' := Nat.le_mul_of_pos_right _ (by positivity)
    · obtain ⟨j, rfl⟩ := Nat.exists_eq_add_of_le' h1
      rw [if_neg h1.ne', Nat.add_sub_cancel]
      rcases Nat.lt_or_ge j j' with hj | hj
      · calc (P + r) * 2 ^ j < (2 * P) * 2 ^ j := Nat.mul_lt_mul_of_pos_right (by omega) (by positivity)
          _ = P * 2 ^ (j + 1) := by ring
          _ ≤ (P + r') * 2 ^ j' := Nat.mul_le_mul (by omega) (Nat.pow_le_pow_right (by decide) hj)
      · obtain rfl : j = j' := by omega
        exact Nat.mul_lt_mul_of_pos_right (by omega) (by positivity)
theorem magSteps_lt_iff (t : FTy) (a b : Nat) : magSteps t a < magSteps t b ↔ a < b :=
  StrictMono.lt_iff_lt fun _ _ h => magSteps_lt h
/-- The order of magnitudes is that of patterns without their signs. -/
theorem fpMag_lt_iff (t : FTy) (a b : Nat) : fpMag t a < fpMag t b ↔ fpBody t a < fpBody t b := by
  rw [fpMag_eq_magSteps, fpMag_eq_magSteps, mul_lt_mul_iff_left₀ (by positivity), Nat.cast_lt, magSteps_lt_iff]
theorem fpMag_nonneg (t : FTy) (w : Nat) : 0 ≤ fpMag t w := by
  rw [fpMag_eq_magSteps]
  positivity
theorem fpBody_lt (t : FTy) (w : Nat) : fpBody t w < 2 ^ (FTy.ebits t + FTy.mbits t) := Nat.mod_lt _ (by positivity)
/-- A pattern is its sign and its body. -/
theorem sign_body (t : FTy) (w : Nat) :
    w % 2 ^ FTy.width t = fpBody t w + if fpNeg t w = true then 2 ^ (FTy.ebits t + FTy.mbits t) else 0 := by
  have hw : 2 ^ FTy.width t = 2 ^ (FTy.ebits t + FTy.mbits t) * 2 := by
    rw [← Nat.pow_succ]
    congr 1
    unfold FTy.width
    omega
  unfold fpBody fpNeg
  rw [hw, Nat.mod_mul]
  have := Nat.mod_two_eq_zero_or_one (w / 2 ^ (FTy.ebits t + FTy.mbits t))
  rcases this with h | h <;> simp [h]

/-! ## Infinities among the numbers (R120, R139) -/

theorem body_of_inf {t : FTy} {w : Nat} (h : fpInf t w = true) : fpBody t w = (2 ^ FTy.ebits t - 1) * 2 ^ FTy.mbits t := by
  obtain ⟨-, he, hf⟩ := (fpInf_iff t w).1 h
  have := Nat.div_add_mod' (fpBody t w) (2 ^ FTy.mbits t)
  rw [← fpExpField_body, ← fpFrac_body, he, hf] at this
  exact this.symm
/-- A finite pattern has a smaller body than an infinity. -/
theorem body_lt_inf {t : FTy} {a b : Nat} (hi : fpInf t a = true) (hn : fpNan t b = false) (hf : fpInf t b = false) :
    fpBody t b < fpBody t a := by
  have hI := ((fpInf_iff t a).1 hi).1
  have hfield : fpExpField t b ≠ 2 ^ FTy.ebits t - 1 := fun h => by
    by_cases h0 : fpFrac t b = 0
    · exact Bool.noConfusion (hf.symm.trans ((fpInf_iff t b).2 ⟨hI, h, h0⟩))
    · exact Bool.noConfusion (hn.symm.trans ((fpNan_iff t b).2 ⟨h, .inl ⟨hI, h0⟩⟩))
  have hlt : fpExpField t b < 2 ^ FTy.ebits t := Nat.mod_lt _ (by positivity)
  rw [body_of_inf hi, ← Nat.div_lt_iff_lt_mul (by positivity), ← fpExpField_body]
  omega
/-- Numbers, infinities included, are in the order of the values that their fields would have. -/
theorem fpBelow_eq {t : FTy} {a b : Nat} (ha : fpNan t a = false) (hb : fpNan t b = false) :
    fpBelow t a b = decide (fpNum t a < fpNum t b) := by
  have hma := fpMag_nonneg t a
  have hmb := fpMag_nonneg t b
  unfold fpBelow
  by_cases hia : fpInf t a = true
  · rw [if_pos hia]
    by_cases hib : fpInf t b = true
    · have heq : fpMag t a = fpMag t b := by rw [fpMag_eq_magSteps, fpMag_eq_magSteps, body_of_inf hia, body_of_inf hib]
      have hpos : 0 < fpMag t b := by
        have hP : 0 < magSteps t (fpBody t b) := by
          refine Nat.pos_of_ne_zero fun h => ?_
          have := (magSteps_lt_iff t 0 (fpBody t b)).2 (by rw [body_of_inf hib]; cases t <;> decide)
          omega
        rw [fpMag_eq_magSteps]
        positivity
      unfold fpNum
      cases fpNeg t a <;> cases fpNeg t b <;> simp [hib, heq] <;> linarith
    · have hlt := (fpMag_lt_iff t b a).2 (body_lt_inf hia hb (by simpa using hib))
      unfold fpNum
      cases fpNeg t a <;> cases fpNeg t b <;> simp [hib] <;> linarith
  · by_cases hib : fpInf t b = true
    · have hlt := (fpMag_lt_iff t a b).2 (body_lt_inf hib ha (by simpa using hia))
      rw [if_neg hia, if_pos hib]
      unfold fpNum
      cases fpNeg t a <;> cases fpNeg t b <;> simp <;> linarith
    · rw [if_neg hia, if_neg hib]

/-! ## FMIN and FMAX (R139) -/

/-- The order of patterns with their signs, −0 below +0. -/
theorem fltBits_eq {t : FTy} {a b : Nat} (ha : fpNan t a = false) (hb : fpNan t b = false) :
    fltBits t a b = (fpBelow t a b || (!fpBelow t b a && fpNeg t a && !fpNeg t b)) := by
  have hwidth : 2 * 2 ^ (FTy.width t - 1) = 2 ^ FTy.width t := by cases t <;> rfl
  have hhalf : FTy.width t - 1 = FTy.ebits t + FTy.mbits t := by cases t <;> rfl
  have hA := fpBody_lt t a
  have hB := fpBody_lt t b
  have hma := fpMag_nonneg t a
  have hmb := fpMag_nonneg t b
  have hab := fpMag_lt_iff t a b
  have hba := fpMag_lt_iff t b a
  rw [fpBelow_eq ha hb, fpBelow_eq hb ha]
  unfold fltBits fpNum
  dsimp only
  rw [hwidth, sign_body, sign_body, hhalf]
  generalize 2 ^ (FTy.ebits t + FTy.mbits t) = H at *
  cases fpNeg t a <;> cases fpNeg t b
  · simp [hA, hB, hab]
  · have : ¬fpBody t b + H < H := by omega
    have h2 : ¬fpMag t a < -fpMag t b := by linarith
    simp [hA, this, h2]
  · have : ¬fpBody t a + H < H := by omega
    have h2 : ¬fpMag t b < -fpMag t a := by linarith
    simp [hB, this, h2]
  · have h1 : ¬fpBody t a + H < H := by omega
    have h2 : ¬fpBody t b + H < H := by omega
    simp [h1, h2, hba]
theorem Views.isNan {t : FTy} {w : Nat} {v : FVal} (h : Views t w v) : v.isNan = fpNan t w := by
  cases h with
  | nan hn _ => exact hn.symm
  | inf hn _ => exact hn.symm
  | fin _ _ hn _ _ => exact hn.symm
/-- FMIN and FMAX of patterns (R139). -/
theorem fpMinMax_minMaxIs (t : FTy) (isMax : Bool) (a b : Nat) : MinMaxIs t isMax a b (fpMinMax t isMax a b) := by
  have ha := fval_views t a
  have hb := fval_views t b
  have hnv : nvOf (fval t a) ||| nvOf (fval t b) = if (fpSnan t a || fpSnan t b) = true then fNV else 0 := by
    rw [nvOf_views ha, nvOf_views hb, nv_or]
  have hw : 2 ^ (1 + FTy.ebits t + FTy.mbits t) = 2 ^ FTy.width t := rfl
  unfold MinMaxIs fpMinMax
  dsimp only
  rw [ha.isNan, hb.isNan, hnv, hw]
  by_cases hna : fpNan t a = true <;> by_cases hnb : fpNan t b = true
  · rw [hna, hnb, nan_eq]
    rfl
  · rw [Bool.not_eq_true] at hnb
    rw [hna, hnb]
    rfl
  · rw [Bool.not_eq_true] at hna
    rw [hna, hnb]
    rfl
  · rw [Bool.not_eq_true] at hna hnb
    rw [hna, hnb]
    dsimp only
    rw [fltBits_eq hna hnb]
    refine Prod.ext ?_ rfl
    exact apply_ite (· % 2 ^ FTy.width t) ..
theorem MinMaxIs.lt {t : FTy} {isMax : Bool} {a b : Nat} {r : Nat × Byte} (h : MinMaxIs t isMax a b r) :
    r.1 < 2 ^ (1 + FTy.ebits t + FTy.mbits t) := by
  have hmod (x : Nat) : x % 2 ^ (1 + FTy.ebits t + FTy.mbits t) < 2 ^ (1 + FTy.ebits t + FTy.mbits t) := Nat.mod_lt _ (by positivity)
  unfold MinMaxIs at h
  rw [h]
  dsimp only
  split_ifs
  · exact fpCanon_lt t
  all_goals exact hmod _

/-- A result that fits FP32, as a lane's word. -/
theorem asWord_outF {R : Nat × Byte → Prop} {r : Nat × Byte} (h : R r) (hlt : r.1 < 2 ^ 32) : asWord R (outF r) := by
  unfold asWord outF
  dsimp only
  rwa [BitVec.toNat_ofNat, Nat.mod_eq_of_lt hlt]

/-! ## FCMP (R143) -/

theorem fcompare_fin {t : FTy} {a b m m' : Nat} {e e' : ℤ} (ha : fpMag t a = m * 2 ^ e) (hb : fpMag t b = m' * 2 ^ e') :
    (fcompare (.fin (fpNeg t a) m e) (.fin (fpNeg t b) m' e') < 0 ↔ fpNum t a < fpNum t b) ∧
    (0 < fcompare (.fin (fpNeg t a) m e) (.fin (fpNeg t b) m' e') ↔ fpNum t b < fpNum t a) := by
  have h1 := signedAt_num (fpNeg t a) m (min_le_left e e')
  have h2 := signedAt_num (fpNeg t b) m' (min_le_right e e')
  rw [fpNum_fin ha] at h1
  rw [fpNum_fin hb] at h2
  have hp : (0 : ℚ) < 2 ^ min e e' := by positivity
  rw [← h1, ← h2, mul_lt_mul_iff_left₀ hp, mul_lt_mul_iff_left₀ hp, Int.cast_lt, Int.cast_lt]
  unfold fcompare
  dsimp only
  split_ifs <;> omega
/-- The comparison of two numbers says which is below (R143). -/
theorem fcompare_spec {t : FTy} {a b : Nat} (ha : fpNan t a = false) (hb : fpNan t b = false) :
    (fcompare (fval t a) (fval t b) < 0 ↔ fpBelow t a b = true) ∧ (0 < fcompare (fval t a) (fval t b) ↔ fpBelow t b a = true) := by
  have hva := fval_views t a
  have hvb := fval_views t b
  unfold fpBelow
  generalize fval t a = va at *
  generalize fval t b = vb at *
  cases hva with
  | nan hn _ => exact absurd hn (by simp [ha])
  | inf _ hia =>
    cases hvb with
    | nan hn _ => exact absurd hn (by simp [hb])
    | inf _ hib => cases fpNeg t a <;> cases fpNeg t b <;> simp [fcompare, hia, hib]
    | fin m e _ hib _ => cases fpNeg t a <;> simp [fcompare, hia, hib]
  | fin m e _ hia hm =>
    cases hvb with
    | nan hn _ => exact absurd hn (by simp [hb])
    | inf _ hib => cases fpNeg t b <;> simp [fcompare, hia, hib]
    | fin m' e' _ hib hm' =>
      obtain ⟨h1, h2⟩ := fcompare_fin hm hm'
      simp [hia, hib, h1, h2]
/-- FCMP's result and NV (R143). -/
theorem fcmp_comparedIs (cc : FCc) (x y : Word) :
    ComparedIs cc x.toNat y.toNat (boolWord (fcmpFlags cc x y).1, (fcmpFlags cc x y).2) := by
  have ha := fval_views .f32 x.toNat
  have hb := fval_views .f32 y.toNat
  have hnv : nvOf (fval .f32 x.toNat) ||| nvOf (fval .f32 y.toNat) =
      if (fpSnan .f32 x.toNat || fpSnan .f32 y.toNat) = true then fNV else 0 := by
    rw [nvOf_views ha, nvOf_views hb, nv_or]
  unfold ComparedIs fcmpFlags
  dsimp only
  rw [ha.isNan, hb.isNan, hnv]
  by_cases hnan : (fpNan .f32 x.toNat || fpNan .f32 y.toNat) = true
  · rw [hnan]
    cases cc <;> rfl
  · rw [Bool.not_eq_true, Bool.or_eq_false_iff] at hnan
    obtain ⟨h1, h2⟩ := fcompare_spec hnan.1 hnan.2
    rw [hnan.1, hnan.2]
    generalize fcompare (fval .f32 x.toNat) (fval .f32 y.toNat) = c at *
    have h1 : decide (c < 0) = fpBelow .f32 x.toNat y.toNat := by rw [Bool.eq_iff_iff, decide_eq_true_iff, h1]
    have h2 : decide (0 < c) = fpBelow .f32 y.toNat x.toNat := by rw [Bool.eq_iff_iff, decide_eq_true_iff, h2]
    have h3 : decide (c ≤ 0) = !fpBelow .f32 y.toNat x.toNat := by
      rw [← h2, ← decide_not]
      exact decide_eq_decide.2 (by omega)
    have h4 : decide (0 ≤ c) = !fpBelow .f32 x.toNat y.toNat := by
      rw [← h1, ← decide_not]
      exact decide_eq_decide.2 (by omega)
    have h5 : decide (c = 0) = (!fpBelow .f32 x.toNat y.toNat && !fpBelow .f32 y.toNat x.toNat) := by
      rw [← h3, ← h4, ← Bool.decide_and]
      exact decide_eq_decide.2 (by omega)
    cases cc
    case ne =>
      dsimp only
      rw [decide_not, h5]
      cases fpBelow .f32 x.toNat y.toNat <;> cases fpBelow .f32 y.toNat x.toNat <;> rfl
    case eq => rw [h5, Bool.and_assoc]; rfl
    case lt => rw [h1]; rfl
    case le => rw [h3]; rfl
    case gt => rw [h2]; rfl
    case ge => rw [h4]; rfl
    all_goals rfl

end Sys2Proof.Machine
end

section
/-! PROOFS. Lane movement, votes, reductions and PRMT (R149 to R152). -/

namespace Sys2Proof.Machine

/-- What a word with any sources gives its lanes (R131). -/
theorem gives_vword {i : Instr} {s : State} {d : VDst} {srcs : List Opnd} {f : Group → Nat → Word} {fl : Group → Nat → Byte}
    (h : exec i s = .next (vword s d srcs f fl)) (hs : OperandsOk s srcs d.d) :
    GivesLanes i s d fun l => (f s.issue.pre l, fl s.issue.pre l) := ⟨_, h, vword_spec s d srcs f fl hs⟩
theorem flagsOf_congr {ls : List Nat} {f g : Nat → Byte} (h : ∀ l ∈ ls, f l = g l) : flagsOf ls f = flagsOf ls g := by
  unfold flagsOf
  generalize (0 : Byte) = x
  induction ls generalizing x with
  | nil => rfl
  | cons a t ih =>
    rw [List.foldl_cons, List.foldl_cons, h a List.mem_cons_self, ih fun l hl => h l (List.mem_cons_of_mem _ hl)]
/-- Only what a word gives to active lanes matters. -/
theorem LanesWritten.congr {d : VDst} {f g : Nat → Word} {fl : Byte} {s t : State} (h : LanesWritten d f fl s t)
    (he : ∀ l, l < 32 → isActive s.issue.pre l = true → f l = g l) : LanesWritten d g fl s t := by
  have hif (l : Nat) (hl : l < 32) (p : Prop) [Decidable p] (x : Word) :
      (if p ∧ isActive s.issue.pre l = true then g l else x) = if p ∧ isActive s.issue.pre l = true then f l else x := by
    split
    case isTrue hp => rw [he l hl hp.2]
    case isFalse => rfl
  obtain ⟨hv, ⟨y, hy, hyl⟩, hrest⟩ := h
  refine ⟨fun r l hl => ?_, ⟨y, hy, fun l hl => ?_⟩, hrest⟩
  · rw [hif l hl]
    exact hv r l hl
  · have := hif l hl True 0
    simp only [true_and] at this
    rw [this]
    exact hyl l hl
theorem GivesLanes.congr_active {i : Instr} {s : State} {d : VDst} {f g : Nat → Word × Byte} (h : GivesLanes i s d f)
    (he : ∀ l, l < 32 → isActive s.issue.pre l = true → f l = g l) : GivesLanes i s d g := by
  have hfl : flagsOf (activeLanes s.issue.pre) (fun l => (f l).2) = flagsOf (activeLanes s.issue.pre) fun l => (g l).2 :=
    flagsOf_congr fun l hl => congrArg Prod.snd (he l ((mem_active _ _).1 hl).1 ((mem_active _ _).1 hl).2)
  obtain ⟨t, ht, hw⟩ := h
  rw [hfl] at hw
  exact ⟨t, ht, hw.congr fun l hl ha => congrArg Prod.fst (he l hl ha)⟩

/-! ## Shuffles and votes (R149, R150) -/

theorem shuffle_gives {i : Instr} {s : State} {d : VDst} {a b : Opnd} {src : Nat → Word → Int}
    (h : exec i s = .next (shuffle s d a b src)) (hs : OperandsOk s [a, b] d.d) :
    GivesLanes i s d fun l =>
      (if 0 ≤ src l (opv s.issue.pre b l) ∧ src l (opv s.issue.pre b l) < 32 ∧
          isActive s.issue.pre (src l (opv s.issue.pre b l)).toNat = true then
        opv s.issue.pre a (src l (opv s.issue.pre b l)).toNat else opv s.issue.pre a l, 0) :=
  (gives_vword h hs).congr fun _ => Prod.ext (if_congr (and_congr_right fun _ => and_congr_left fun _ => Int.lt_add_one_iff.symm) rfl rfl) rfl
theorem any_ne_zero (g : Group) (a : Opnd) : ((activeLanes g).any fun l => opv g a l != 0) = true ↔ ∃ l ∈ activeLanes g, opv g a l ≠ 0 := by
  simp only [List.any_eq_true, bne_iff_ne]
theorem all_ne_zero (g : Group) (a : Opnd) : ((activeLanes g).all fun l => opv g a l != 0) = true ↔ ∀ l ∈ activeLanes g, opv g a l ≠ 0 := by
  simp only [List.all_eq_true, bne_iff_ne]
theorem voteVal_any (g : Group) (a : Opnd) : voteVal .any g a = if ∃ l ∈ activeLanes g, opv g a l ≠ 0 then 1 else 0 :=
  if_congr (any_ne_zero g a) rfl rfl
theorem voteVal_all (g : Group) (a : Opnd) : voteVal .all g a = if ∀ l ∈ activeLanes g, opv g a l ≠ 0 then 1 else 0 :=
  if_congr (all_ne_zero g a) rfl rfl
theorem voteVal_eq (g : Group) (a : Opnd) : voteVal .eq g a =
    if (∀ l ∈ activeLanes g, opv g a l ≠ 0) ∨ (∀ l ∈ activeLanes g, opv g a l = 0) then 1 else 0 := by
  refine if_congr ?_ rfl rfl
  rw [Bool.or_eq_true, all_ne_zero, Bool.not_eq_true', ← Bool.not_eq_true, any_ne_zero]
  push Not
  rfl
theorem voteVal_ballot (g : Group) (a : Opnd) {l : Nat} (hl : l < 32) :
    (voteVal .ballot g a).getLsbD l = (isActive g l && opv g a l != 0) := by
  refine (maskOf_getLsbD _ l).trans ?_
  rw [decide_eq_true hl, Bool.true_and]

/-! ## The tree of a reduction (R151) -/

theorem redOp_opIs (op : RedOp) (x y : Word) : OpIs op x y (redOp op x y) := by
  cases op
  case minI32 => exact congrArg noFlag (if_wlt_signed ..)
  case minN32 => exact congrArg noFlag (if_wlt_unsigned ..)
  case maxI32 => exact congrArg noFlag (if_wlt_signed ..)
  case maxN32 => exact congrArg noFlag (if_wlt_unsigned ..)
  case addF32 => exact asWord_outF (fpAdd_sumIs .f32 _ _) (fpAdd_sumIs .f32 _ _).lt
  case minF32 => exact asWord_outF (fpMinMax_minMaxIs .f32 _ _ _) (fpMinMax_minMaxIs .f32 _ _ _).lt
  case maxF32 => exact asWord_outF (fpMinMax_minMaxIs .f32 _ _ _) (fpMinMax_minMaxIs .f32 _ _ _).lt
  all_goals rfl
/-- Combining two contributions: an operation where both are there, with its flags beside those so far. -/
theorem redJoin_joinIs (op : RedOp) (a b : Option Word × Byte) :
    ∃ f, JoinIs op a.1 b.1 (redJoin op a b).1 f ∧ (redJoin op a b).2 = a.2 ||| b.2 ||| f := by
  obtain ⟨a, fa⟩ := a
  obtain ⟨b, fb⟩ := b
  cases a with
  | none => exact ⟨0, ⟨rfl, rfl⟩, (or_zero _).symm⟩
  | some x =>
    cases b with
    | none => exact ⟨0, ⟨rfl, rfl⟩, (or_zero _).symm⟩
    | some y => exact ⟨_, ⟨_, rfl, redOp_opIs op x y⟩, rfl⟩
theorem redJoin_isSome (op : RedOp) (a b : Option Word × Byte) : (redJoin op a b).1.isSome = (a.1.isSome || b.1.isSome) := by
  obtain ⟨a, fa⟩ := a
  obtain ⟨b, fb⟩ := b
  cases a <;> cases b <;> rfl
theorem redNode_treeIs (op : RedOp) (v : Nat → Option Word) : TreeIs op v (redNode op v) :=
  ⟨fun _ => rfl, fun _ _ => redJoin_joinIs op _ _⟩
/-- A node over a lane that contributes has a value. -/
theorem redNode_isSome (op : RedOp) (v : Nat → Option Word) {l : Nat} (h : (v l).isSome = true) (j : Nat) :
    (redNode op v j (l / 2 ^ j)).1.isSome = true := by
  induction j with
  | zero => rwa [Nat.pow_zero, Nat.div_one]
  | succ j ih =>
    have hl : l / 2 ^ j = 2 * (l / 2 ^ (j + 1)) ∨ l / 2 ^ j = 2 * (l / 2 ^ (j + 1)) + 1 := by
      rw [Nat.pow_succ, ← Nat.div_div_eq_div_mul]
      omega
    change (redJoin op _ _).1.isSome = true
    rw [redJoin_isSome, Bool.or_eq_true]
    rcases hl with hl | hl
    · exact .inl (hl ▸ ih)
    · exact .inr (hl ▸ ih)

/-! ## The prefixes of a scan (R151) -/

/-- One level of the loop of SCANQ for lane l. -/
def scanStep (op : RedOp) (v : Nat → Option Word) (l j : Nat) (a : Option (Option Word) × Byte) : Option (Option Word) × Byte :=
  let blk := (redNode op v j ((l + 1) / 2 ^ (j + 1) * 2)).1
  if (l + 1).testBit j then
    match a.1 with
    | none => (some blk, a.2)
    | some x => (some (redJoin op (x, 0) (blk, 0)).1, a.2 ||| (redJoin op (x, 0) (blk, 0)).2)
  else a
/-- The loop of SCANQ for lane l after n levels from level 5 down. -/
def scanLevels (op : RedOp) (v : Nat → Option Word) (l : Nat) : Nat → Option (Option Word) × Byte
  | 0 => (none, 0)
  | n + 1 => scanStep op v l (5 - n) (scanLevels op v l n)
/-- What the loop holds when level j has been done. -/
def scanAcc (op : RedOp) (v : Nat → Option Word) (l j : Nat) : Option (Option Word) × Byte := scanLevels op v l (6 - j)

theorem scanAcc_step (op : RedOp) (v : Nat → Option Word) (l : Nat) {j : Nat} (h : j < 6) :
    scanAcc op v l j = scanStep op v l j (scanAcc op v l (j + 1)) := by
  have h1 : 6 - j = (5 - j) + 1 := by omega
  unfold scanAcc
  rw [h1, show 6 - (j + 1) = 5 - j by omega]
  change scanStep op v l (5 - (5 - j)) _ = _
  rw [show 5 - (5 - j) = j by omega]
theorem scanAcc_prefixIs (op : RedOp) (v : Nat → Option Word) (l : Nat) : PrefixIs op (redNode op v) l (scanAcc op v l) := by
  refine ⟨rfl, fun j hj => ?_⟩
  rw [scanAcc_step op v l hj]
  unfold scanStep
  dsimp only
  by_cases hb : (l + 1).testBit j = true
  · rw [if_pos hb, if_pos hb]
    cases (scanAcc op v l (j + 1)).1 with
    | none => rfl
    | some x =>
      obtain ⟨f, hf, he⟩ := redJoin_joinIs op (x, 0) ((redNode op v j ((l + 1) / 2 ^ (j + 1) * 2)).1, 0)
      refine ⟨_, _, rfl, ?_⟩
      dsimp only at he
      rwa [he, or_zero, zero_or]
  · rw [if_neg hb, if_neg hb]
/-- The lanes before the blocks that are left, once bit j of n has been taken. -/
theorem prefix_step (n j : Nat) : n / 2 ^ j * 2 ^ j = n / 2 ^ (j + 1) * 2 ^ (j + 1) + if n.testBit j = true then 2 ^ j else 0 := by
  have h2 : n / 2 ^ j = 2 * (n / 2 ^ (j + 1)) + n / 2 ^ j % 2 := by
    rw [Nat.pow_succ, ← Nat.div_div_eq_div_mul]
    omega
  rw [h2, Nat.testBit_eq_decide_div_mod_eq, Nat.pow_succ]
  rcases Nat.mod_two_eq_zero_or_one (n / 2 ^ j) with h | h
  · rw [h, if_neg (by decide)]
    ring
  · rw [h, if_pos (by decide)]
    ring
/-- The model's loop is that of scanStep, from any level on. -/
theorem scanFrom_eq (op : RedOp) (v : Nat → Option Word) (l : Nat) {j : Nat} (hj : j ≤ 6) :
    scanFrom op v (l + 1) j ((l + 1) / 2 ^ j * 2 ^ j) (scanAcc op v l j).1 (scanAcc op v l j).2 =
      ((scanAcc op v l 0).1.getD none, (scanAcc op v l 0).2) := by
  induction j with
  | zero => rfl
  | succ j ih =>
    have hblk : (l + 1) / 2 ^ (j + 1) * 2 ^ (j + 1) / 2 ^ j = (l + 1) / 2 ^ (j + 1) * 2 := by
      rw [Nat.pow_succ, ← Nat.mul_assoc, Nat.mul_right_comm, Nat.mul_div_cancel _ (by positivity)]
    have hbit : bit (l + 1) j = (l + 1).testBit j := by
      rw [Nat.testBit_eq_decide_div_mod_eq]
      rfl
    rw [← ih (by omega), prefix_step (l + 1) j, scanAcc_step op v l (j := j) (by omega)]
    unfold scanStep
    rw [scanFrom, hblk, hbit]
    by_cases hb : (l + 1).testBit j = true
    · simp only [if_pos hb]
      cases (scanAcc op v l (j + 1)).1 <;> rfl
    · simp only [if_neg hb]
      rfl
/-- The loop holds a value once it has taken in a lane that contributes. -/
theorem scanAcc_isSome (op : RedOp) (v : Nat → Option Word) {l m : Nat} (hl : l < 32) (hv : (v m).isSome = true) {j : Nat} (hj : j ≤ 6)
    (hm : m < (l + 1) / 2 ^ j * 2 ^ j) : ((scanAcc op v l j).1.getD none).isSome = true := by
  induction hj using Nat.decreasingInduction with
  | self =>
    rw [Nat.div_eq_of_lt (by omega)] at hm
    omega
  | of_succ j hlt ih =>
    rw [prefix_step] at hm
    rw [scanAcc_step op v l hlt]
    unfold scanStep
    dsimp only
    by_cases hb : (l + 1).testBit j = true
    · rw [if_pos hb] at hm ⊢
      generalize hacc : (scanAcc op v l (j + 1)).1 = acc at *
      by_cases h : m < (l + 1) / 2 ^ (j + 1) * 2 ^ (j + 1)
      · have := ih h
        cases acc with
        | none => exact Bool.noConfusion this
        | some x =>
          change (redJoin op _ _).1.isSome = true
          rw [redJoin_isSome, Bool.or_eq_true]
          exact .inl this
      · have hblk : m / 2 ^ j = (l + 1) / 2 ^ (j + 1) * 2 := by
          rw [show (l + 1) / 2 ^ (j + 1) * 2 ^ (j + 1) = (l + 1) / 2 ^ (j + 1) * 2 * 2 ^ j by rw [Nat.pow_succ]; ring] at h hm
          exact Nat.div_eq_of_lt_le (by omega) (by rw [Nat.succ_mul]; exact hm)
        have hnode := redNode_isSome op v hv j
        rw [hblk] at hnode
        cases acc with
        | none => exact hnode
        | some x =>
          change (redJoin op _ _).1.isSome = true
          rw [redJoin_isSome, Bool.or_eq_true]
          exact .inr hnode
    · rw [if_neg hb, Nat.add_zero] at hm
      rw [if_neg hb]
      exact ih hm

/-! ## PRMT (R152) -/

/-- Byte j of two words side by side. -/
theorem byte_of_pair (a b : Word) (j : Nat) : (a.toNat + b.toNat * 2 ^ 32) / 256 ^ j % 256 =
    if j < 4 then a.toNat / 256 ^ j % 256 else b.toNat / 256 ^ (j - 4) % 256 := by
  by_cases h : j < 4
  · have hp : b.toNat * 2 ^ 32 = 256 ^ j * (256 * (256 ^ (3 - j) * b.toNat)) := by
      rw [show (2 : Nat) ^ 32 = 256 ^ (j + 1 + (3 - j)) by rw [show j + 1 + (3 - j) = 4 by omega]; norm_num, Nat.pow_add, Nat.pow_succ]
      ring
    rw [if_pos h, hp, Nat.add_mul_div_left _ _ (by positivity), Nat.add_mul_mod_self_left]
  · obtain ⟨k, rfl⟩ := Nat.exists_eq_add_of_le (Nat.not_lt.1 h)
    rw [if_neg h, Nat.pow_add, ← Nat.div_div_eq_div_mul, show 256 ^ 4 = 2 ^ 32 by norm_num, Nat.add_sub_cancel_left, Nat.add_mul_div_right _ _ (by norm_num),
      Nat.div_eq_of_lt a.isLt, Nat.zero_add]
/-- The byte that a selector takes from a source of eight bytes (R152). -/
def prmtByte (src sel : Nat) : Nat :=
  if sel < 8 then src / 256 ^ (sel % 8) % 256 else if src / 256 ^ (sel % 8) % 256 < 128 then 0 else 255
theorem prmtByte_eq (a b : Word) (n : Nat) : prmtByte (a.toNat + b.toNat * 2 ^ 32) n =
    let src := if n % 8 < 4 then a.toNat / 256 ^ (n % 8) % 256 else b.toNat / 256 ^ (n % 8 - 4) % 256
    if 8 ≤ n then (if 128 ≤ src then 255 else 0) else src := by
  unfold prmtByte
  rw [byte_of_pair]
  generalize (if n % 8 < 4 then a.toNat / 256 ^ (n % 8) % 256 else b.toNat / 256 ^ (n % 8 - 4) % 256) = x
  dsimp only
  split_ifs <;> omega
theorem prmtVal_eq (a b e : Word) : prmtVal a b e =
    BitVec.ofNat 32 ((List.range 4).foldl (fun n i => n + prmtByte (a.toNat + b.toNat * 2 ^ 32) (e.toNat / 16 ^ i % 16) * 256 ^ i) 0) := by
  unfold prmtVal
  simp only [prmtByte_eq]
theorem foldl_four (f : Nat → Nat) (b : Nat) :
    (List.range 4).foldl (fun n i => n + f i * b ^ i) 0 = f 0 + f 1 * b + f 2 * b ^ 2 + f 3 * b ^ 3 := by
  simp [List.range_succ]

/-- Settles O9: each word gives its lanes what its rule says; in a reduction an active lane makes every node above it, and the
loop of its own scan, a value, so what stands for a missing value reaches no lane. -/
theorem laneMovementWords : Obligations.LaneMovementWords := by
  intro s d a b e g A B from_
  have hsome {l : Nat} (ha : isActive g l = true) : (contrib g a l).isSome = true := by
    unfold contrib
    rw [if_pos ha]
    rfl
  have hgetD {x : Option Word} {y z : Word} (h : x.isSome = true) : x.getD y = x.getD z := by
    obtain ⟨w, rfl⟩ := Option.isSome_iff_exists.1 h
    rfl
  refine ⟨fun h => ⟨gives_v1 (f := noFlag) rfl h, (gives_vword (f := fun g _ => voteVal .any g a) (fl := fun _ _ => 0) rfl h).congr fun l => congrArg noFlag (voteVal_any g a),
    (gives_vword rfl h).congr fun l => congrArg noFlag (voteVal_all g a),
    ⟨voteVal .ballot g a, gives_vword (f := fun g _ => voteVal .ballot g a) (fl := fun _ _ => 0) rfl h, fun l hl => voteVal_ballot g a hl⟩,
    (gives_vword rfl h).congr fun l => congrArg noFlag (voteVal_eq g a), fun op => ⟨redNode op (contrib g a), redNode_treeIs op _, ?_, ?_⟩⟩,
    fun h => ⟨shuffle_gives (src := fun _ x => (x.toNat % 32 : Nat)) rfl h,
      shuffle_gives (src := fun l x => ((BitVec.ofNat 5 l ^^^ BitVec.ofNat 5 x.toNat).toNat : Nat)) rfl h,
      shuffle_gives (src := fun l x => (l : Int) - x.toNat) rfl h, shuffle_gives (src := fun l x => (l : Int) + x.toNat) rfl h⟩,
    fun h => (gives_v3 rfl h).congr fun l => congrArg noFlag ((prmtVal_eq _ _ _).trans (congrArg _ (foldl_four _ 256)))⟩
  · refine (gives_vword rfl h).congr_active fun l hl ha => Prod.ext ?_ rfl
    have := redNode_isSome op (contrib g a) (hsome ha) 5
    rw [Nat.div_eq_of_lt (show l < 2 ^ 5 from hl)] at this
    exact hgetD this
  · refine ⟨scanAcc op (contrib g a), scanAcc_prefixIs op _, (gives_vword rfl h).congr_active fun l hl ha => ?_⟩
    have hscan := scanFrom_eq op (contrib g a) l (Nat.le_refl 6)
    rw [Nat.div_eq_of_lt (show l + 1 < 2 ^ 6 by omega), Nat.zero_mul] at hscan
    change scanFrom op (contrib g a) (l + 1) 6 0 none 0 = _ at hscan
    have := scanAcc_isSome op (contrib g a) hl (hsome ha) (Nat.zero_le 6) (by rw [Nat.pow_zero, Nat.div_one]; omega)
    rw [hscan]
    exact Prod.ext (hgetD this) rfl

end Sys2Proof.Machine
end

section
/-! PROOFS. The floating-point vector words (R138 to R143). -/

namespace Sys2Proof.Machine

/-- What a word of one or two sources gives each lane, by a relation (R131). -/
theorem each_v1 {i : Instr} {s : State} {d : VDst} {a : Opnd} {f : Word → Word × Byte} {R : Nat → Word × Byte → Prop}
    (h : exec i s = .next (v1 s d a f)) (hs : OperandsOk s [a] d.d) (hf : ∀ l, R l (f (opv s.issue.pre a l))) :
    GivesEach i s d R := ⟨_, gives_v1 h hs, hf⟩
theorem each_v2 {i : Instr} {s : State} {d : VDst} {a b : Opnd} {f : Word → Word → Word × Byte} {R : Nat → Word × Byte → Prop}
    (h : exec i s = .next (v2 s d a b f)) (hs : OperandsOk s [a, b] d.d)
    (hf : ∀ l, R l (f (opv s.issue.pre a l) (opv s.issue.pre b l))) : GivesEach i s d R := ⟨_, gives_v2 h hs, hf⟩
theorem each_v3 {i : Instr} {s : State} {d : VDst} {a b e : Opnd} {f : Word → Word → Word → Word × Byte} {R : Nat → Word × Byte → Prop}
    (h : exec i s = .next (v3 s d a b e f)) (hs : OperandsOk s [a, b, e] d.d)
    (hf : ∀ l, R l (f (opv s.issue.pre a l) (opv s.issue.pre b l) (opv s.issue.pre e l))) : GivesEach i s d R :=
  ⟨_, gives_v3 h hs, hf⟩

/-! ## Difference and fused product (R123, R138) -/

theorem neg_num (n : Bool) (m : Nat) (e : ℤ) : (FVal.fin (!n) m e).num = -(FVal.fin n m e).num := by
  unfold FVal.num
  cases n <;> simp
/-- A difference that is an exact zero is +0; any other is that of the values (R123). -/
theorem deliver_difference (t : FTy) (x e : ℤ) (z : Bool) : RoundedSum t (x * 2 ^ e) false
    (deliver t .rne 0 (match ofSigned x e z with | .fin n m e => .fin (n && m != 0) m e | r => r)) := by
  unfold ofSigned
  split_ifs with h0
  · have h := deliver_ofSigned t x e false
    unfold ofSigned at h
    rw [if_pos h0] at h
    cases z <;> exact h
  · have h := (deliver_ofSigned t x e z).congr (z' := false) rfl fun hz => absurd hz (mul_ne_zero (by exact_mod_cast h0) (by positivity))
    unfold ofSigned at h
    rw [if_neg h0] at h
    have hm : (x.natAbs != 0) = true := by simp [h0]
    dsimp only
    rwa [hm, Bool.and_true]
/-- FSUB's difference is that of the exact values (R138). -/
theorem fpSub_sumIs (t : FTy) (a b : Nat) : SumIs t true a b (fpSub t a b) := by
  have ha := fval_views t a
  have hb := fval_views t b
  have hnv : nvOf (fval t a) ||| nvOf (fval t b) = if (fpSnan t a || fpSnan t b) = true then fNV else 0 := by
    rw [nvOf_views ha, nvOf_views hb, nv_or]
  unfold SumIs fpSub subExact
  generalize fval t a = va at *
  generalize fval t b = vb at *
  cases ha with
  | nan hn hi =>
    rw [if_pos (by simp [hn]), ← hnv]
    cases vb <;> exact deliver_nan ..
  | inf hn hi =>
    cases hb with
    | nan hn' hi' =>
      rw [if_pos (by simp [hn']), ← hnv]
      exact deliver_nan ..
    | inf hn' hi' =>
      rw [if_neg (by simp [hn, hn'])]
      by_cases hs : fpNeg t a = !fpNeg t b
      · rw [if_neg (by simp [hs]), if_pos hi]
        simp only [addExact, FVal.neg, if_pos hs]
        exact deliver_inf hi _
      · rw [if_pos (by rw [hi, hi', Bool.bne_true]; simpa using hs)]
        simp only [addExact, FVal.neg, if_neg hs]
        exact deliver_nan ..
    | fin m' e' hn' hi' hm' =>
      rw [if_neg (by simp [hn, hn']), if_neg (by simp [hi']), if_pos hi]
      exact deliver_inf hi _
  | fin m e hn hi hm =>
    cases hb with
    | nan hn' hi' =>
      rw [if_pos (by simp [hn']), ← hnv]
      exact deliver_nan ..
    | inf hn' hi' =>
      rw [if_neg (by simp [hn, hn']), if_neg (by simp [hi]), if_neg (by simp [hi]), if_pos hi']
      simp only [Bool.bne_true]
      exact deliver_inf hi' _
    | fin m' e' hn' hi' hm' =>
      rw [if_neg (by simp [hn, hn']), if_neg (by simp [hi]), if_neg (by simp [hi]), if_neg (by simp [hi'])]
      have hx : ((signedAt (fpNeg t a) m e (min e e') + signedAt (!fpNeg t b) m' e' (min e e') : ℤ) : ℚ) * 2 ^ min e e' =
          fpNum t a - fpNum t b := by
        push_cast
        rw [add_mul, signedAt_num _ _ (min_le_left ..), signedAt_num _ _ (min_le_right ..), neg_num, fpNum_fin hm, fpNum_fin hm',
          sub_eq_add_neg]
      have h := deliver_difference t (signedAt (fpNeg t a) m e (min e e') + signedAt (!fpNeg t b) m' e' (min e e')) (min e e')
        (fpNeg t a && !fpNeg t b && decide (m = 0) && decide (m' = 0))
      have hres : roundRne t (match addExact (.fin (fpNeg t a) m e) (FVal.neg (.fin (fpNeg t b) m' e')) with
          | (.fin n m e, f) => (.fin (n && m != 0) m e, f)
          | r => r) = deliver t .rne 0 (match ofSigned (signedAt (fpNeg t a) m e (min e e') + signedAt (!fpNeg t b) m' e' (min e e')) (min e e')
        (fpNeg t a && !fpNeg t b && decide (m = 0) && decide (m' = 0)) with | .fin n m e => .fin (n && m != 0) m e | r => r) := by
        obtain ⟨n, k, hof⟩ := ofSigned_fin (signedAt (fpNeg t a) m e (min e e') + signedAt (!fpNeg t b) m' e' (min e e')) (min e e')
          (fpNeg t a && !fpNeg t b && decide (m = 0) && decide (m' = 0))
        simp only [addExact, FVal.neg, hof]
        exact roundRne_zero ..
      rw [← hres] at h
      exact h.congr hx fun _ => rfl

theorem elViews_of_views {t : FTy} {w : Nat} {v : FVal} (h : Views t w v) : ElViews (.fl t) w v := by
  cases h with
  | nan hn hi => exact .nan hn hi
  | inf hn hi => exact .inf hn hi
  | fin m e hn hi hm => exact .fin _ m e hn hi (fpNum_fin hm) fun _ => rfl
theorem fpNum_eq_zero (t : FTy) (w : Nat) : fpNum t w = 0 ↔ fpMag t w = 0 := by
  unfold fpNum
  cases fpNeg t w <;> simp
/-- The product of two patterns is zero times an infinity (R138). -/
theorem termZeroInf_float (t : FTy) (a b : Nat) : termZeroInf (.fl t) (.fl t) a b = (!(fpNan t a || fpNan t b) &&
    ((fpInf t a && !fpInf t b && decide (fpMag t b = 0)) || (fpInf t b && !fpInf t a && decide (fpMag t a = 0)))) := by
  unfold termZeroInf exNum
  simp only [fpNum_eq_zero]
  rfl
/-- The sum of two finite values, rounded; a zero sum of two negative ones is −0 (R123). -/
theorem roundRne_addExact (t : FTy) (n n' : Bool) (m m' : Nat) (e e' : ℤ) :
    RoundedSum t ((FVal.fin n m e).num + (FVal.fin n' m' e').num) (n && n') (roundRne t (addExact (.fin n m e) (.fin n' m' e'))) := by
  have hx : ((signedAt n m e (min e e') + signedAt n' m' e' (min e e') : ℤ) : ℚ) * 2 ^ min e e' =
      (FVal.fin n m e).num + (FVal.fin n' m' e').num := by
    push_cast
    rw [add_mul, signedAt_num _ _ (min_le_left ..), signedAt_num _ _ (min_le_right ..)]
  have h := deliver_ofSigned t (signedAt n m e (min e e') + signedAt n' m' e' (min e e')) (min e e')
    (n && n' && decide (m = 0) && decide (m' = 0))
  rw [← roundRne_zero] at h
  exact h.congr hx fun h0 => sum_zero_sign (hx.symm.trans h0)
theorem addExact_nan (v : FVal) : ∃ q, addExact (.nan false) v = (.nan q, nvOf v) := by
  refine ⟨false, ?_⟩
  cases v <;> exact Prod.ext rfl (zero_or _)
/-- FFMA's sum is that of the exact product and the addend (R138). -/
theorem fpFma_fusedIs (t : FTy) (a b c : Nat) : FusedIs t a b c (fpFma t a b c) := by
  obtain ⟨hterm, hflags⟩ := mulExact_views (ea := .fl t) (eb := .fl t) rfl (elViews_of_views (fval_views t a)) (elViews_of_views (fval_views t b))
  have hc := fval_views t c
  have hnv := nvOf_views hc
  unfold FusedIs fpFma fmaExact
  dsimp only
  generalize mulExact (fval t a) (fval t b) = p at *
  generalize fval t c = vc at *
  obtain ⟨p, f⟩ := p
  dsimp only at *
  rw [← termZeroInf_float]
  change if (termNan (.fl t) (.fl t) a b || fpNan t c || termZeroInf (.fl t) (.fl t) a b) = true then _ else _
  have hbad : termNv (.fl t) (.fl t) a b = (termZeroInf (.fl t) (.fl t) a b || fpSnan t a || fpSnan t b) := rfl
  cases hterm with
  | nan h =>
    obtain ⟨q, hq⟩ := addExact_nan vc
    rw [if_pos (by rw [Bool.or_right_comm, h, Bool.true_or]), hq, hflags, hnv, nv_or, hbad]
    exact deliver_nan ..
  | inf h hinf =>
    obtain ⟨hN, hz⟩ := Bool.or_eq_false_iff.1 h
    obtain ⟨hna, hnb⟩ := Bool.or_eq_false_iff.1 (show (fpNan t a || fpNan t b) = false from hN)
    have hf : f = 0 := by rw [hflags, hbad, hz, fpSnan_of_not_nan hna, fpSnan_of_not_nan hnb]; rfl
    have hinf' : (fpInf t a || fpInf t b) = true := hinf
    rw [hf, hN, hz, hna, hnb, hinf', fpSnan_of_not_nan hna, fpSnan_of_not_nan hnb]
    cases hc with
    | nan hn hi =>
      rw [hn, if_pos (by decide)]
      refine (deliver_nan t false _).trans (congrArg _ ?_)
      exact (zero_or _).trans ((zero_or _).trans hnv)
    | inf hn hi =>
      rw [hn, hi, if_neg (by decide)]
      change if (termNeg (.fl t) (.fl t) a b != fpNeg t c) = true then _ else _
      by_cases hs : termNeg (.fl t) (.fl t) a b = fpNeg t c
      · rw [if_neg (by simp [hs]), if_pos (by decide)]
        simp only [addExact, if_pos hs]
        exact deliver_inf hi _
      · rw [if_pos (by simp [hs])]
        simp only [addExact, if_neg hs]
        exact deliver_nan ..
    | fin m e hn hi hm =>
      obtain ⟨x, hx⟩ : ∃ x, fpInf t x = true := (Bool.or_eq_true_iff.1 hinf').elim (⟨a, ·⟩) (⟨b, ·⟩)
      rw [hn, hi, if_neg (by decide), if_neg (by simp), if_pos (by decide), zero_or]
      exact deliver_inf hx _
  | fin n m e h hfin hm hneg =>
    obtain ⟨hN, hz⟩ := Bool.or_eq_false_iff.1 h
    obtain ⟨hna, hnb⟩ := Bool.or_eq_false_iff.1 (show (fpNan t a || fpNan t b) = false from hN)
    have hf : f = 0 := by rw [hflags, hbad, hz, fpSnan_of_not_nan hna, fpSnan_of_not_nan hnb]; rfl
    have hfin' : (fpInf t a || fpInf t b) = false := hfin
    rw [hf, hN, hz, hna, hnb, hfin', fpSnan_of_not_nan hna, fpSnan_of_not_nan hnb]
    cases hc with
    | nan hn hi =>
      rw [hn, if_pos (by decide)]
      refine (deliver_nan t false _).trans (congrArg _ ?_)
      exact (zero_or _).trans ((zero_or _).trans hnv)
    | inf hn hi =>
      rw [hn, hi, if_neg (by decide), if_neg (by simp), if_neg (by decide), if_pos (by decide), zero_or]
      exact deliver_inf hi _
    | fin m' e' hn hi hm' =>
      rw [hn, hi, if_neg (by decide), if_neg (by simp), if_neg (by decide), if_neg (by decide), zero_or]
      refine (roundRne_addExact t n (fpNeg t c) m m' e e').congr ?_ fun _ => ?_
      · rw [hm, fpNum_fin hm']
        rfl
      · rw [hneg rfl]
        rfl

/-! ## Results that fit their format -/

theorem differenceIs_lt {t : FTy} {a b : Nat} {r : Nat × Byte} (h : SumIs t true a b r) : r.1 < 2 ^ (1 + FTy.ebits t + FTy.mbits t) := by
  unfold SumIs at h
  extract_lets nb at h
  rw [if_pos (show true = true from rfl)] at h
  split_ifs at h
  · exact h ▸ fpCanon_lt t
  · exact h ▸ fpCanon_lt t
  · exact h ▸ fpCanon_lt t
  · exact h ▸ fpInf_signed_lt t _
  · exact h ▸ fpInf_signed_lt t _
  · exact h.result.1
theorem FusedIs.lt {t : FTy} {a b e : Nat} {r : Nat × Byte} (h : FusedIs t a b e r) : r.1 < 2 ^ (1 + FTy.ebits t + FTy.mbits t) := by
  unfold FusedIs at h
  extract_lets neg nan bad pinf at h
  by_cases h1 : (nan || fpNan t e || bad) = true
  · rw [if_pos h1] at h
    exact h ▸ fpCanon_lt t
  rw [if_neg h1] at h
  split_ifs at h
  · exact h ▸ fpCanon_lt t
  · exact h ▸ fpInf_signed_lt t _
  · exact h ▸ fpInf_signed_lt t _
  · exact h.result.1
/-- Two results of 16 bits side by side (R138). -/
theorem packedIs_of {R : Nat → Nat → Nat → Nat × Byte → Prop} {a b e : Word} {lo hi : Nat × Byte}
    (hlo : R (a.toNat % 2 ^ 16) (b.toNat % 2 ^ 16) (e.toNat % 2 ^ 16) lo)
    (hhi : R (a.toNat / 2 ^ 16) (b.toNat / 2 ^ 16) (e.toNat / 2 ^ 16) hi) (hl : lo.1 < 2 ^ 16) (hh : hi.1 < 2 ^ 16) :
    PackedIs R a b e (BitVec.ofNat 32 (lo.1 + hi.1 * 2 ^ 16), lo.2 ||| hi.2) := by
  have hval : (BitVec.ofNat 32 (lo.1 + hi.1 * 2 ^ 16)).toNat = lo.1 + hi.1 * 2 ^ 16 := by
    rw [BitVec.toNat_ofNat, Nat.mod_eq_of_lt (by omega)]
  refine ⟨lo.2, hi.2, rfl, ?_, ?_⟩
  · rwa [hval, Nat.add_mul_mod_self_right, Nat.mod_eq_of_lt hl]
  · rwa [hval, Nat.add_mul_div_right _ _ (by norm_num), Nat.div_eq_of_lt hl, Nat.zero_add]
/-- A packed word of an operation whose results fit 16 bits (R138). -/
theorem packed2_is {R : Nat → Nat → Nat × Byte → Prop} {f : Nat → Nat → Nat × Byte} (hf : ∀ x y, R x y (f x y))
    (hlt : ∀ x y, (f x y).1 < 2 ^ 16) (a b : Word) : PackedIs (fun x y _ => R x y) a b 0 (packed2 f a b) :=
  packedIs_of (e := 0) (hf _ _) (hf _ _) (hlt _ _) (hlt _ _)

/-! ## Exact results and FP32 values (R120, R123) -/

/-- A magnitude in steps no finer than it is stays (R123). -/
theorem stepsOf_whole (mode : RMode) {rnd : Nat} (hrnd : rnd < 2 ^ 32) (neg : Bool) (m : Nat) {e q : ℤ} (h : q ≤ e) :
    (stepsOf mode rnd neg (m * 2 ^ e) q : ℚ) * 2 ^ q = m * 2 ^ e := by
  have hs : stepsOf mode rnd neg (m * 2 ^ e) q = m * 2 ^ (e - q).toNat := by
    rw [stepsOf_eq, steps_whole m h, Nat.floor_natCast, sub_self, roundsUp_zero hrnd]
    rfl
  rw [hs, ← steps_whole m h, div_mul_cancel₀ _ (by positivity)]
/-- A magnitude of few enough bits is delivered as it is, with no flag (R123). -/
theorem Rounded.exact {t : FTy} {neg : Bool} {m : Nat} {e : ℤ} {r : Nat × Byte} (h : Rounded t .rne 0 neg (m * 2 ^ e) r)
    (hm : m < 2 ^ (FTy.mbits t + 1)) (he : 1 - (FTy.bias t : ℤ) - FTy.mbits t ≤ e) (hmax : (m : ℚ) * 2 ^ e ≤ fpMag t (fpLargest t)) :
    r.1 < 2 ^ (1 + FTy.ebits t + FTy.mbits t) ∧ fpNan t r.1 = false ∧ fpInf t r.1 = false ∧ fpNeg t r.1 = neg ∧
      fpMag t r.1 = m * 2 ^ e ∧ r.2 = 0 := by
  unfold Rounded at h
  extract_lets k emin q0 q x u at h
  by_cases h0 : (m : ℚ) * 2 ^ e = 0
  · rw [if_pos h0] at h
    have hlt : 0 < 2 ^ (FTy.ebits t + FTy.mbits t) := by positivity
    obtain ⟨hn, hi⟩ := finite_of_le_largest t neg (Nat.zero_le _)
    rw [h]
    refine ⟨fpSigned_lt t neg hlt, hn, hi, (fpFields_signed t neg hlt).1, ?_, rfl⟩
    rw [fpMag_signed t neg hlt, h0]
    simp [fpMag, fpExpField, fpFrac]
  · have hm0 : m ≠ 0 := fun hz => h0 (by rw [hz]; simp)
    have hq : q ≤ e := by
      have hlog : m.log2 < FTy.mbits t + 1 := (Nat.log2_lt hm0).2 hm
      change (if RMode.rne = .rs then _ else max (Int.log 2 ((m : ℚ) * 2 ^ e)) (1 - FTy.bias t) - FTy.mbits t) ≤ e
      rw [if_neg (by decide), log_magnitude hm0]
      omega
    have hx : x = m * 2 ^ e := stepsOf_whole .rne (by norm_num) neg m hq
    rw [if_neg h0, if_neg (by rw [hx]; exact not_lt.2 hmax)] at h
    obtain ⟨hlt, hn, hi, hs, hmag, hf⟩ := h
    rw [hx] at hmag hf
    exact ⟨hlt, hn, hi, hs, hmag, by simpa using hf⟩
/-- The fields of a finite FP32 value (R120). -/
theorem fval_f32_fin {w m : Nat} {n : Bool} {e : ℤ} (h : fval .f32 w = .fin n m e) :
    (m < 2 ^ 23 ∧ e = -149) ∨ (2 ^ 23 ≤ m ∧ m < 2 ^ 24 ∧ -149 ≤ e ∧ e ≤ 104) := by
  have hmod := Nat.mod_lt w (show 0 < 2 ^ 23 by norm_num)
  have hexp := Nat.mod_lt (w / 2 ^ 23) (show 0 < 2 ^ 8 by norm_num)
  unfold fval at h
  dsimp only at h
  split_ifs at h with h1 h2 h3 h0
  · simp only [FVal.fin.injEq, FTy.emin, FTy.bias, FTy.mbits, FTy.ebits] at h
    omega
  · have htop : ¬w / 2 ^ 23 % 2 ^ 8 = 2 ^ 8 - 1 := fun hx => h2 ⟨rfl, hx⟩
    simp only [FVal.fin.injEq, FTy.bias, FTy.mbits, FTy.ebits] at h h0
    omega
theorem views_fin {w m : Nat} {n : Bool} {e : ℤ} {t : FTy} (h : fval t w = .fin n m e) :
    fpNan t w = false ∧ fpInf t w = false ∧ fpNeg t w = n ∧ fpMag t w = m * 2 ^ e := by
  have hv := fval_views t w
  rw [h] at hv
  cases hv with
  | fin m e hn hi hm => exact ⟨hn, hi, rfl, hm⟩
theorem views_inf {w : Nat} {n : Bool} {t : FTy} (h : fval t w = .inf n) : fpNan t w = false ∧ fpInf t w = true ∧ fpNeg t w = n := by
  have hv := fval_views t w
  rw [h] at hv
  cases hv with
  | inf hn hi => exact ⟨hn, hi, rfl⟩
theorem views_nan {w : Nat} {q : Bool} {t : FTy} (h : fval t w = .nan q) : fpNan t w = true ∧ fpSnan t w = q := by
  have hv := fval_views t w
  rw [h] at hv
  cases hv with
  | nan hn hi => exact ⟨hn, rfl⟩
/-- A finite magnitude is at most the largest one. -/
theorem fpMag_le_largest {w : Nat} (hn : fpNan .f32 w = false) (hi : fpInf .f32 w = false) : fpMag .f32 w ≤ fpMag .f32 (fpLargest .f32) := by
  have hlt := body_lt_inf (t := .f32) (a := 0x7F800000) (by decide) hn hi
  refine not_lt.1 fun h => ?_
  have := (fpMag_lt_iff .f32 _ _).1 h
  rw [show fpBody .f32 0x7F800000 = 0x7F800000 by decide] at hlt
  rw [show fpBody .f32 (fpLargest .f32) = 0x7F7FFFFF by decide] at this
  omega

/-! ## FCLASS and FRND (R141, R142) -/

theorem fclass_classIs (x : Word) : ClassIs x.toNat (fclassBit x) := by
  unfold ClassIs fclassBit
  generalize hv : fval .f32 x.toNat = v
  cases v with
  | nan q =>
    obtain ⟨hn, hs⟩ := views_nan hv
    rw [hn, hs]
    rfl
  | inf n =>
    obtain ⟨hn, hi, hs⟩ := views_inf hv
    rw [fpSnan_of_not_nan hn, hn, hi, hs]
    rfl
  | fin n m e =>
    obtain ⟨hn, hi, hs, hm⟩ := views_fin hv
    have hz : fpMag .f32 x.toNat = 0 ↔ m = 0 := by
      have : (2 : ℚ) ^ e ≠ 0 := by positivity
      simp [hm, this]
    have hsub : fpMag .f32 x.toNat < 2 ^ (-126 : ℤ) ↔ m < 2 ^ 23 := by
      have h126 : (2 : ℚ) ^ (-126 : ℤ) = (2 ^ 23 : Nat) * 2 ^ (-149 : ℤ) := by norm_num
      rw [hm, h126]
      rcases fval_f32_fin hv with ⟨hlt, rfl⟩ | ⟨hle, -, he, -⟩
      · rw [mul_lt_mul_iff_left₀ (by positivity), Nat.cast_lt]
      · refine iff_of_false (not_lt.2 ?_) (not_lt.2 hle)
        exact mul_le_mul (by exact_mod_cast hle) (zpow_le_zpow_right₀ (by norm_num) he) (by positivity) (by positivity)
    rw [fpSnan_of_not_nan hn, hn, hi, hs, if_congr hz rfl rfl, if_congr hsub rfl rfl]
    rfl
/-- An FP32 magnitude rounded to a whole number is an FP32 magnitude. -/
theorem frnd_integralIs (m : FrndMode) (x : Word) : asWord (IntegralIs (FrndMode.toRMode m) x.toNat) (frnd m x) := by
  unfold asWord IntegralIs frnd
  generalize hv : fval .f32 x.toNat = v
  cases v with
  | nan q =>
    obtain ⟨hn, hs⟩ := views_nan hv
    rw [hn, hs]
    cases q <;> rfl
  | inf n =>
    obtain ⟨hn, hi, hs⟩ := views_inf hv
    rw [hn, hi]
    rfl
  | fin n k e =>
    obtain ⟨hn, hi, hs, hm⟩ := views_fin hv
    rw [hn, hi, hs, hm, if_neg (by decide), if_neg (by decide)]
    dsimp only [roundInt]
    rw [roundSteps_spec _ (by norm_num)]
    dsimp only
    generalize hj : stepsOf (FrndMode.toRMode m) 0 n (k * 2 ^ e) 0 = j
    have habs : (if n = true then -(j : ℤ) else j).natAbs = j := by split <;> omega
    rw [habs]
    have hr := roundTo_rounded .f32 .rne (rnd := 0) (by norm_num) n j 0
    obtain ⟨k', e', hje, hk', he', hle⟩ : ∃ (k' : Nat) (e' : ℤ), (j : ℚ) * 2 ^ (0 : ℤ) = k' * 2 ^ e' ∧ k' < 2 ^ 24 ∧ -149 ≤ e' ∧
        (k' : ℚ) * 2 ^ e' ≤ fpMag .f32 (fpLargest .f32) := by
      have hk : k < 2 ^ 24 := by rcases fval_f32_fin hv with h | h <;> omega
      rcases le_or_gt 0 e with he | he
      · exact ⟨k, e, by rw [← hj, stepsOf_whole _ (by norm_num) _ _ he], hk, by omega, hm ▸ fpMag_le_largest hn hi⟩
      · have hj' : j ≤ 2 ^ 23 := by
          have hfloor : ⌊(k : ℚ) * 2 ^ e / 2 ^ (0 : ℤ)⌋₊ < 2 ^ 23 := by
            rw [Nat.floor_lt (by positivity), zpow_zero, div_one]
            calc (k : ℚ) * 2 ^ e < 2 ^ 24 * 2 ^ e := mul_lt_mul_of_pos_right (by exact_mod_cast hk) (by positivity)
              _ ≤ 2 ^ 24 * 2 ^ (-1 : ℤ) := mul_le_mul_of_nonneg_left (zpow_le_zpow_right₀ (by norm_num) (by omega)) (by positivity)
              _ = (2 ^ 23 : Nat) := by norm_num
          have := (stepsOf_bounds (FrndMode.toRMode m) 0 n ((k : ℚ) * 2 ^ e) 0).2
          omega
        refine ⟨j, 0, rfl, by omega, by omega, ?_⟩
        rw [fpMag_largest]
        calc (j : ℚ) * 2 ^ (0 : ℤ) ≤ 2 ^ 23 := by rw [zpow_zero, mul_one]; exact_mod_cast hj'
          _ ≤ _ := by norm_num [topSteps, topField, fpLargest, FTy.mbits, FTy.bias, FTy.ebits]
    rw [hje] at hr
    obtain ⟨hlt, hn', hi', hs', hm', -⟩ := hr.exact hk' he' hle
    unfold noFlag
    dsimp only
    rw [BitVec.toNat_ofNat, Nat.mod_eq_of_lt (b := 2 ^ 32) hlt]
    refine ⟨hlt, hn', hi', hs', ?_, rfl⟩
    rw [hm', ← hje]
    simp

theorem if_isNan (x y z : Word) :
    (if (fval .f32 x.toNat).isNan = true then y else z) = if fpNan .f32 x.toNat = true then y else z := by
  rw [(fval_views .f32 x.toNat).isNan]
theorem fty_lt {t : HTy} {n : Nat} (h : n < 2 ^ (1 + FTy.ebits (HTy.fty t) + FTy.mbits (HTy.fty t))) : n < 2 ^ 16 := by
  cases t <;> exact h

/-- Settles O5: each lane's result is that of its pattern operation, which rounds the exact value once. -/
theorem floatWords : Obligations.FloatWords := by
  intro s d a b e A B E one two halves
  refine ⟨fun h => ?_, fun h => ?_, fun h => ?_⟩
  · have bits {i : Instr} (g : Word → Word)
        (hi : exec i s = .next (v1 s d a fun x => noFlag (if (fval .f32 x.toNat).isNan then 0x7FC00000 else g x))) :
        GivesLanes i s d fun l => (if fpNan .f32 (A l).toNat then 0x7FC00000 else g (A l), 0) :=
      (gives_v1 hi h).congr fun l => congrArg noFlag (if_isNan ..)
    refine ⟨bits (· &&& 0x7FFFFFFF) rfl, bits (· ^^^ 0x80000000) rfl,
      each_v1 rfl h fun l => ⟨rfl, _, fclass_classIs _, rfl⟩, fun m => ?_⟩
    exact each_v1 rfl h fun l => frnd_integralIs m _
  · have word {i : Instr} {f : Nat → Nat → Nat × Byte} {R : Nat → Nat → Nat × Byte → Prop}
        (hi : exec i s = .next (v2 s d a b fun x y => outF (f x.toNat y.toNat))) (hf : ∀ x y, R x y (f x y))
        (hlt : ∀ x y, (f x y).1 < 2 ^ 32) : two i R := each_v2 hi h fun l => asWord_outF (hf _ _) (hlt _ _)
    have pack {i : Instr} {f : Nat → Nat → Nat × Byte} {R : Nat → Nat → Nat × Byte → Prop}
        (hi : exec i s = .next (v2 s d a b (packed2 f))) (hf : ∀ x y, R x y (f x y))
        (hlt : ∀ x y, (f x y).1 < 2 ^ 16) : halves i R := each_v2 hi h fun l => packed2_is hf hlt _ _
    refine ⟨word rfl (fpAdd_sumIs .f32) fun x y => (fpAdd_sumIs .f32 x y).lt, word rfl (fpSub_sumIs .f32) fun x y => differenceIs_lt (fpSub_sumIs .f32 x y),
      word rfl (fpMul_productIs .f32) fun x y => (fpMul_productIs .f32 x y).lt,
      word rfl (fpMinMax_minMaxIs .f32 false) fun x y => (fpMinMax_minMaxIs .f32 false x y).lt,
      word rfl (fpMinMax_minMaxIs .f32 true) fun x y => (fpMinMax_minMaxIs .f32 true x y).lt,
      fun cc => each_v2 rfl h fun l => fcmp_comparedIs cc _ _, fun t => ?_⟩
    exact ⟨pack rfl (fpAdd_sumIs _) fun x y => fty_lt (fpAdd_sumIs _ x y).lt, pack rfl (fpMul_productIs _) fun x y => fty_lt (fpMul_productIs _ x y).lt,
      pack rfl (fpMinMax_minMaxIs _ false) fun x y => fty_lt (fpMinMax_minMaxIs _ false x y).lt,
      pack rfl (fpMinMax_minMaxIs _ true) fun x y => fty_lt (fpMinMax_minMaxIs _ true x y).lt⟩
  · exact ⟨each_v3 rfl h fun l => asWord_outF (fpFma_fusedIs .f32 _ _ _) (fpFma_fusedIs .f32 _ _ _).lt,
      each_v3 rfl h fun l => packedIs_of (fpFma_fusedIs .bf16 _ _ _) (fpFma_fusedIs .bf16 _ _ _) (fpFma_fusedIs .bf16 _ _ _).lt
        (fpFma_fusedIs .bf16 _ _ _).lt⟩

end Sys2Proof.Machine
end

section
/-! PROOFS. The conversions: FCVT with its draws, ICVT, PACK, UNPACK and SCXP (R125, R129, R145 to R148). -/

namespace Sys2Proof.Machine

/-! ## FCVT (R125, R145) -/

/-- Only the stochastic mode looks at the number drawn (R123, R125). -/
theorem stepsOf_draw {m : RMode} (hm : m ≠ .rs) (rnd : Nat) (neg : Bool) (v : ℚ) (q : ℤ) : stepsOf m rnd neg v q = stepsOf m 0 neg v q := by
  cases m
  case rs => exact absurd rfl hm
  all_goals rfl
theorem ConvertedIs.draw {dst src : FTy} {m : RMode} {rnd a : Nat} {r : Nat × Byte} (h : ConvertedIs dst src m rnd a r) (hm : m ≠ .rs) :
    ConvertedIs dst src m 0 a r := by
  unfold ConvertedIs Rounded at h ⊢
  simpa only [stepsOf_draw hm rnd] using h
theorem fcvtVal_mod (dst src : FTy) (m : RMode) (rnd x : Nat) : fcvtVal dst src m rnd (x % 2 ^ FTy.width src) = fcvtVal dst src m rnd x := by
  unfold fcvtVal
  rw [Nat.mod_mod]
theorem fcvt_word (dst src : FTy) (m : RMode) (seed : DWord) (l x : Nat) :
    asWord (ConvertedIs dst src m (drawOf seed l) (x % 2 ^ FTy.width src)) (outF (fcvtVal dst src m (draw seed l) x)) := by
  have h := fcvtVal_converted dst src m (Nat.mod_lt x (Nat.two_pow_pos (FTy.width src))) (drawOf_lt seed l)
  rw [fcvtVal_mod] at h
  rw [draw_eq]
  refine asWord_outF h (h.lt.trans_le (Nat.pow_le_pow_right (by decide) ?_))
  cases dst <;> decide
/-- A word leaves the verdict and the seed (R131). -/
theorem LanesWritten.verdict {d : VDst} {f : Nat → Word} {fl : Byte} {s t : State} (h : LanesWritten d f fl s t) :
    t.issue.verdict = s.issue.verdict := by
  obtain ⟨-, -, -, -, hframe⟩ := h
  rw [hframe]
theorem LanesWritten.seed {d : VDst} {f : Nat → Word} {fl : Byte} {s t : State} (h : LanesWritten d f fl s t) :
    t.issue.cur.seed = s.issue.cur.seed := by
  obtain ⟨-, -, -, -, hframe⟩ := h
  rw [hframe]
/-- A seed that is set and set back is as it was. -/
theorem seed_restored (t : State) (x : DWord) : modCur (modCur t fun g => { g with seed := x }) (fun g => { g with seed := t.issue.cur.seed }) = t :=
  rfl

/-! ## ICVT (R146) -/

theorem clampInt_eq (x lo hi : Int) (h : lo ≤ hi) :
    clampInt x lo hi = (max lo (min hi x), decide (x < lo ∨ hi < x)) := by
  unfold clampInt
  by_cases h1 : x < lo
  · rw [if_pos h1, decide_eq_true (.inl h1), max_eq_left ((min_le_right ..).trans h1.le)]
  · by_cases h2 : hi < x
    · rw [if_neg h1, if_pos h2, decide_eq_true (.inr h2), min_eq_left h2.le, max_eq_right h]
    · rw [if_neg h1, if_neg h2, decide_eq_false (by omega), min_eq_right (by omega), max_eq_right (by omega)]
/-- FP32 to integer (R146). -/
theorem toInt_integerIs (m : RMode) {lo hi : Int} (h : lo ≤ hi) (x : Word) :
    IntegerIs m lo hi x.toNat (BitVec.ofInt 32 (toInt m lo hi x).1, (toInt m lo hi x).2) := by
  unfold IntegerIs toInt
  generalize hv : fval .f32 x.toNat = v
  cases v with
  | nan q =>
    rw [(views_nan hv).1]
    rfl
  | inf n =>
    obtain ⟨hn, hi, hs⟩ := views_inf hv
    rw [hn, hi, hs]
    rfl
  | fin n k e =>
    obtain ⟨hn, hi, hs, hm⟩ := views_fin hv
    have hnum : fpNum .f32 x.toNat = if n = true then -((k : ℚ) * 2 ^ e) else k * 2 ^ e := by
      unfold fpNum
      rw [hs, hm]
    rw [hn, hi, hs, hnum, hm]
    dsimp only [roundInt]
    rw [roundSteps_spec _ (by norm_num)]
    dsimp only
    rw [clampInt_eq _ _ _ h]
    generalize stepsOf m 0 n (k * 2 ^ e) 0 = j
    have hlost : ((if n = true then -(j : ℤ) else j : ℤ) : ℚ) ≠ (if n = true then -((k : ℚ) * 2 ^ e) else k * 2 ^ e) ↔
        (j : ℚ) * 2 ^ (0 : ℤ) ≠ k * 2 ^ e := by
      cases n <;> simp
    rw [if_neg (by decide), if_neg (by decide), if_congr hlost rfl rfl]
    refine Prod.ext rfl ?_
    simp only [decide_eq_true_eq]
/-- Integer to FP32 (R146). -/
theorem roundTo_word (m : RMode) (n : Bool) (k : Nat) : asWord (Rounded .f32 m 0 n (k : ℚ)) (outF (roundTo .f32 m 0 n k 0)) := by
  have h := roundTo_rounded .f32 m (rnd := 0) (by norm_num) n k 0
  rw [zpow_zero, mul_one] at h
  exact asWord_outF h h.result.1

/-! ## PACK and UNPACK (R147) -/

/-- The low bits of a number, whatever width it is written in. -/
theorem ofInt_mod (y : Int) {w : Nat} (hw : w ≤ 32) : (BitVec.ofInt 32 y).toNat % 2 ^ w = (y % 2 ^ w).toNat := by
  have hdvd : (2 : Int) ^ w ∣ 2 ^ 32 := pow_dvd_pow 2 hw
  have h1 : 0 ≤ y % 2 ^ w := Int.emod_nonneg _ (by positivity)
  have h2 : 0 ≤ y % 2 ^ 32 := Int.emod_nonneg _ (by positivity)
  have h3 : ((BitVec.ofInt 32 y).toNat : Int) = y % 2 ^ 32 := by
    rw [BitVec.toNat_ofInt]
    push_cast
    omega
  zify
  rw [h3, Int.emod_emod_of_dvd _ hdvd, Int.toNat_of_nonneg h1]
/-- An element shifted in below the others (R147). -/
theorem shift_in (a : Word) {w n : Nat} (hw : w < 32) (hn : n < 2 ^ w) :
    a <<< w ||| BitVec.ofNat 32 n = BitVec.ofNat 32 (a.toNat * 2 ^ w % 2 ^ 32 + n) := by
  have hn' : n < 2 ^ 32 := hn.trans (Nat.pow_lt_pow_right (by decide) hw)
  refine BitVec.eq_of_toNat_eq ?_
  have hsplit : a.toNat * 2 ^ w % 2 ^ 32 = 2 ^ w * (a.toNat % 2 ^ (32 - w)) := by
    rw [show (2 : Nat) ^ 32 = 2 ^ w * 2 ^ (32 - w) by rw [← Nat.pow_add]; congr 1; omega, Nat.mul_comm a.toNat, Nat.mul_mod_mul_left]
  rw [BitVec.toNat_or, BitVec.toNat_shiftLeft, Nat.shiftLeft_eq, BitVec.toNat_ofNat, Nat.mod_eq_of_lt hn', BitVec.toNat_ofNat, hsplit,
    ← Nat.two_pow_add_eq_or_of_lt hn]
  refine (Nat.mod_eq_of_lt ?_).symm
  have := Nat.mod_lt a.toNat (Nat.two_pow_pos (32 - w))
  calc 2 ^ w * (a.toNat % 2 ^ (32 - w)) + n < 2 ^ w * (a.toNat % 2 ^ (32 - w)) + 2 ^ w := by omega
    _ = 2 ^ w * (a.toNat % 2 ^ (32 - w) + 1) := by ring
    _ ≤ 2 ^ w * 2 ^ (32 - w) := Nat.mul_le_mul_left _ this
    _ = 2 ^ 32 := by rw [← Nat.pow_add]; congr 1; omega
/-- A clamped element shifted in, with its flag (R147). -/
theorem pack_clamped (a : Word) (x : Int) {lo hi : Int} {w : Nat} (h : lo ≤ hi) (hw : w < 32) :
    (a <<< w ||| BitVec.ofNat 32 ((BitVec.ofInt 32 (clampInt x lo hi).1).toNat % 2 ^ w), satIf (clampInt x lo hi).2) =
      (BitVec.ofNat 32 (a.toNat * 2 ^ w % 2 ^ 32 + (max lo (min hi x) % 2 ^ w).toNat), if max lo (min hi x) = x then 0 else fSAT) := by
  have hflag : satIf (decide (x < lo ∨ hi < x)) = if max lo (min hi x) = x then 0 else fSAT := by
    unfold satIf
    by_cases hx : x < lo ∨ hi < x
    · rw [if_pos (decide_eq_true hx), if_neg (by omega)]
    · rw [if_neg (by simpa using hx), if_pos (by omega)]
  rw [shift_in a hw (Nat.mod_lt _ (Nat.two_pow_pos w)), clampInt_eq _ _ _ h, ofInt_mod _ hw.le, hflag]
theorem packVal_eq (t : PackTy) (a b : Word) : packVal t a b =
    let w := PackTy.w t
    let x : Int := if PackTy.signed t then b.toInt else b.toNat
    let y : Int := if PackTy.signed t then max (-(2 ^ (w - 1))) (min (2 ^ (w - 1) - 1) x) else max 0 (min (2 ^ w - 1) x)
    (BitVec.ofNat 32 (a.toNat * 2 ^ w % 2 ^ 32 + (y % 2 ^ w).toNat), if y = x then 0 else fSAT) := by
  have hw : PackTy.w t < 32 := by cases t <;> decide
  have hp (n : Nat) : (1 : Int) ≤ 2 ^ n := one_le_pow₀ (by norm_num)
  have h1 := hp (PackTy.w t - 1)
  have h2 := hp (PackTy.w t)
  unfold packVal
  simp only [Nat.cast_pow, Nat.cast_ofNat]
  by_cases hs : PackTy.signed t = true
  · simp only [if_pos hs]
    exact pack_clamped a _ (by omega) hw
  · simp only [if_neg hs]
    exact pack_clamped a _ (by omega) hw
theorem unpackVal_eq (t : PackTy) (a b : Word) : unpackVal t a b =
    let w := PackTy.w t
    let field := a.toNat / 2 ^ (w * (b.toNat % 32 % (32 / w))) % 2 ^ w
    if PackTy.signed t then BitVec.ofInt 32 (Int.bmod field (2 ^ w)) else BitVec.ofNat 32 field := by
  have hw : 0 < PackTy.w t := by cases t <;> decide
  unfold unpackVal sextWord
  dsimp only
  rw [← sextInt_eq_bmod hw, Nat.mod_mod]

/-! ## SCXP (R129, R148) -/

/-- A code and the place of the next nibble, after one more code (R129). -/
def scxpStep (nib : Nat → Nat) (c : Nat × Nat) : Nat × Nat :=
  let r := ds4Step c.1 (nib c.2) (nib (c.2 + 1)) (nib (c.2 + 2))
  (r.1, c.2 + r.2.1)
/-- The code and the place after l codes. -/
def scxpAt (nib : Nat → Nat) (c : Nat × Nat) (l : Nat) : Nat × Nat := (scxpStep nib)^[l] c
/-- The step from a code leaves 0 to 255. -/
def scxpOff (nib : Nat → Nat) (c : Nat × Nat) : Bool := (ds4Step c.1 (nib c.2) (nib (c.2 + 1)) (nib (c.2 + 2))).2.2

theorem scxpAt_succ (nib : Nat → Nat) (c : Nat × Nat) (l : Nat) : scxpAt nib c (l + 1) = scxpStep nib (scxpAt nib c l) :=
  Function.iterate_succ_apply' ..
theorem scxpAt_succ_first (nib : Nat → Nat) (c : Nat × Nat) (l : Nat) : scxpAt nib c (l + 1) = scxpAt nib (scxpStep nib c) l :=
  Function.iterate_succ_apply ..
/-- The codes of a stream, and whether any step left 0 to 255 (R129). -/
theorem ds4Decode_eq (nib : Nat → Nat) (n : Nat) (c : Nat × Nat) :
    (∀ l, l < n → (ds4Decode nib n c.1 c.2).1[l]? = some (scxpAt nib c (l + 1))) ∧
      (ds4Decode nib n c.1 c.2).2 = (List.range n).any fun l => scxpOff nib (scxpAt nib c l) := by
  induction n generalizing c with
  | zero => exact ⟨fun l hl => absurd hl (Nat.not_lt_zero l), rfl⟩
  | succ n ih =>
    obtain ⟨hcodes, herr⟩ := ih (scxpStep nib c)
    refine ⟨fun l hl => ?_, ?_⟩
    · cases l with
      | zero => rfl
      | succ l =>
        rw [scxpAt_succ_first]
        exact hcodes l (by omega)
    · rw [List.range_succ_eq_map, List.any_cons, List.any_map]
      change (scxpOff nib c || (ds4Decode nib n (scxpStep nib c).1 (scxpStep nib c).2).2) = _
      rw [herr]
      simp only [Function.comp_def, scxpAt_succ_first]
      rfl
/-- A difference of a nibble (R129). -/
theorem sext_nibble {n : Nat} (h : n < 16) : sextInt 4 n = if n < 8 then (n : Int) else n - 16 := by
  unfold sextInt
  rw [Nat.mod_eq_of_lt (by omega)]
  rfl
/-- One step of the stream, in the words of R129. -/
theorem scxpStep_spec {nib : Nat → Nat} (hnib : ∀ m, nib m < 16) (c m : Nat) :
    let delta (n : Nat) : Int := if n < 8 then n else (n : Int) - 16
    let off : Bool := nib m != 8 && (decide ((c : Int) + delta (nib m) < 0) || decide (255 < (c : Int) + delta (nib m)))
    scxpOff nib (c, m) = off ∧
      (nib m = 8 → (scxpStep nib (c, m)).1 = 16 * nib (m + 1) + nib (m + 2) ∧ (scxpStep nib (c, m)).2 = m + 3) ∧
      (nib m ≠ 8 → ((scxpStep nib (c, m)).1 : Int) = (if off then 0 else (c : Int) + delta (nib m)) ∧ (scxpStep nib (c, m)).2 = m + 1) := by
  intro delta off
  unfold scxpOff scxpStep ds4Step
  dsimp only
  rw [sext_nibble (hnib m)]
  by_cases h8 : nib m = 8
  · have hoff : off = false := by
      change (nib m != 8 && _) = false
      rw [h8]
      rfl
    rw [if_pos h8, hoff]
    exact ⟨rfl, fun _ => ⟨rfl, rfl⟩, fun h => absurd h8 h⟩
  · have hoff : off = decide ((c : Int) + delta (nib m) < 0 ∨ 255 < (c : Int) + delta (nib m)) := by
      change (nib m != 8 && _) = _
      rw [bne_iff_ne.2 h8, Bool.true_and, Bool.decide_or]
    rw [if_neg h8, hoff]
    by_cases hout : (c : Int) + delta (nib m) < 0 ∨ 255 < (c : Int) + delta (nib m)
    · rw [if_pos hout, decide_eq_true hout]
      exact ⟨rfl, fun h => absurd h h8, fun _ => ⟨rfl, rfl⟩⟩
    · rw [if_neg hout, decide_eq_false hout]
      exact ⟨rfl, fun h => absurd h h8, fun _ => ⟨Int.toNat_of_nonneg (not_lt.1 (not_or.1 hout).1), rfl⟩⟩

theorem flagsOf_zero (ls : List Nat) : flagsOf ls (fun _ => 0) = 0 := by
  unfold flagsOf
  induction ls with
  | nil => rfl
  | cons a t ih => rwa [List.foldl_cons, or_zero]
theorem LanesWritten.setFlags {d : VDst} {f : Nat → Word} {s t : State} (h : LanesWritten d f 0 s t) (x : Byte) :
    LanesWritten d f x s (setFlags t x) := by
  obtain ⟨hv, hy, hst, hb, hframe⟩ := h
  rw [or_zero] at hst
  refine ⟨hv, hy, congrArg (· ||| x) hst, hb, ?_⟩
  rw [hframe]
  rfl

/-- The nibbles of a group's stream (R148). -/
def streamNib (g : Group) (a : Opnd) (m : Nat) : Nat := (opv g a (m / 8)).toNat / 16 ^ (m % 8) % 16
/-- What a lane receives of its code and the nibbles consumed (R148). -/
def scxpWord (c : Nat × Nat) : Word := BitVec.ofNat 32 (c.2 * 2 ^ 24 + c.1 * 2 ^ 16 + scaleBits c.1)
/-- SCXP of a good stream (R148): the codes in the lanes, and DS4 for an error of any lane position. -/
theorem scxp_gives {s : State} {d : VDst} {a b : Opnd} (h : OperandsOk s [a, b] d.d) (hv : s.issue.verdict = .done)
    (hb : badStream s.issue.pre a b = false) :
    let nib := streamNib s.issue.pre a
    let c : Nat × Nat := ((opv s.issue.pre b 0).toNat % 256, 0)
    Gives (.scxp d a b) s (LanesWritten d (fun l => scxpWord (scxpAt nib c (l + 1)))
      (if ((List.range 32).any fun l => scxpOff nib (scxpAt nib c l)) = true then fDS4 else 0)) := by
  intro nib c
  obtain ⟨hcodes, herr⟩ := ds4Decode_eq nib 32 c
  have hw := vword_spec s d [a, b]
    (fun g l => scxpWord (((ds4Decode (streamNib g a) 32 ((opv g b 0).toNat % 256) 0).1)[l]?.getD (0, 0))) (fun _ _ => 0) h
  generalize ht : vword s d [a, b]
    (fun g l => scxpWord (((ds4Decode (streamNib g a) 32 ((opv g b 0).toNat % 256) 0).1)[l]?.getD (0, 0))) (fun _ _ => 0) = t at hw
  rw [flagsOf_zero] at hw
  have hw : LanesWritten d (fun l => scxpWord (scxpAt nib c (l + 1))) 0 s t := hw.congr fun l hl _ => by
    change scxpWord ((ds4Decode nib 32 c.1 c.2).1[l]?.getD (0, 0)) = _
    rw [hcodes l hl]
    rfl
  have he : exec (.scxp d a b) s =
      .next (if t.issue.verdict = .done ∧ (ds4Decode nib 32 c.1 c.2).2 = true then setFlags t fDS4 else t) := by
    have : exec (.scxp d a b) s = .next
        (let u := if t.issue.verdict = .done ∧ badStream s.issue.pre a b then poisonKill t 0 false else t
          if u.issue.verdict = .done ∧ (ds4Decode nib 32 c.1 c.2).2 = true then setFlags u fDS4 else u) := by
      rw [← ht]
      rfl
    rw [this, hb]
    simp
  rw [hw.verdict.trans hv, herr] at he
  refine ⟨_, he, ?_⟩
  by_cases hd : ((List.range 32).any fun l => scxpOff nib (scxpAt nib c l)) = true
  · rw [if_pos hd, if_pos ⟨rfl, hd⟩]
    exact hw.setFlags fDS4
  · rw [if_neg hd, if_neg fun hx => hd hx.2]
    exact hw

/-- Settles O8: a conversion rounds the exact value once with its lane's draw; SCXP's codes are those of the stream, step by step. -/
theorem conversionWords : Obligations.ConversionWords := by
  intro s d a b A B width signed rnd
  refine ⟨fun h => ⟨fun dst src m hm => ?_, fun dst src hv => ?_, fun m => ?_⟩, fun h => ⟨fun t => ?_, fun t => ?_, fun hv hb => ?_⟩⟩
  · have he : exec (.fcvt dst src m d a) s = .next (vword s d [a]
        (fun g l => (outF (fcvtVal dst src m (draw s.issue.pre.seed l) (opv g a l).toNat)).1)
        (fun g l => (fcvtVal dst src m (draw s.issue.pre.seed l) (opv g a l).toNat).2)) :=
      congrArg Host.Outcome.next (if_neg fun hx => hm hx.1)
    exact ⟨_, gives_vword he h, fun l => ConvertedIs.draw (fcvt_word dst src m s.issue.pre.seed l _) hm⟩
  · have hw := vword_spec s d [a] (fun g l => (outF (fcvtVal dst src .rs (draw s.issue.pre.seed l) (opv g a l).toNat)).1)
      (fun g l => (fcvtVal dst src .rs (draw s.issue.pre.seed l) (opv g a l).toNat).2) h
    refine ⟨fun l => outF (fcvtVal dst src .rs (draw s.issue.pre.seed l) (A l)), fun l => fcvt_word dst src .rs s.issue.pre.seed l _,
      _, congrArg Host.Outcome.next (if_pos ⟨rfl, hw.verdict.trans hv⟩), ?_, ?_⟩
    · change seedAfter s.issue.pre.seed 32 = _
      unfold seedAfter
      rw [BitVec.ofNat_mul]
      rfl
    · rw [← hw.seed, seed_restored]
      exact hw
  · have lim {k : IcvtKind} {lo hi : Int} (hle : lo ≤ hi)
        (hk : ∀ x, icvtVal k m x = (BitVec.ofInt 32 (toInt m lo hi x).1, (toInt m lo hi x).2)) :
        GivesEach (.icvt k m d a) s d fun l => IntegerIs m lo hi (A l) := each_v1 rfl h fun l => by
      rw [hk]
      exact toInt_integerIs m hle _
    refine ⟨lim (by norm_num) fun _ => rfl, lim (by norm_num) fun _ => rfl, lim (by norm_num) fun _ => rfl, lim (by norm_num) fun _ => rfl,
      lim (by norm_num) fun _ => rfl, lim (by norm_num) fun _ => rfl, each_v1 rfl h fun l => ?_, each_v1 rfl h fun l => roundTo_word m false _⟩
    rw [← BitVec.msb_eq_toInt]
    exact roundTo_word m _ _
  · exact (gives_v2 rfl h).congr fun l => packVal_eq t _ _
  · exact (gives_v2 rfl h).congr fun l => congrArg noFlag (unpackVal_eq t _ _)
  · have hstep (l : Nat) := scxpStep_spec (nib := streamNib s.issue.pre a) (fun m => Nat.mod_lt _ (by decide))
      (scxpAt (streamNib s.issue.pre a) (B 0 % 256, 0) l).1 (scxpAt (streamNib s.issue.pre a) (B 0 % 256, 0) l).2
    refine ⟨fun l => (scxpAt (streamNib s.issue.pre a) (B 0 % 256, 0) l).1, fun l => (scxpAt (streamNib s.issue.pre a) (B 0 % 256, 0) l).2,
      rfl, rfl, fun l hl => ?_, ?_⟩
    · obtain ⟨-, hesc, hdiff⟩ := hstep l
      dsimp only
      rw [scxpAt_succ]
      exact ⟨hesc, hdiff⟩
    · have := scxp_gives h hv hb
      dsimp only at this
      rw [show (fun l => scxpOff (streamNib s.issue.pre a) (scxpAt (streamNib s.issue.pre a) ((opv s.issue.pre b 0).toNat % 256, 0) l)) = _
        from funext fun l => (hstep l).1] at this
      exact this

end Sys2Proof.Machine
end

section
/-! PROOFS. FP32 patterns in value order, and roundings up and down by their places (R120, R123): what a choice within two numbers
gives (R144). -/

namespace Sys2Proof.Machine

/-! ## Places (R120) -/

/-- The magnitude of an FP32 pattern without its sign. -/
def f32Mag (b : Nat) : ℚ := magSteps .f32 b * 2 ^ (-149 : ℤ)
/-- The number at a place on the line of FP32 patterns. -/
def placeNum (p : ℤ) : ℚ := if p < 0 then -f32Mag p.natAbs else f32Mag p.natAbs
/-- The place of the largest finite pattern. -/
def topPlace : Nat := 0x7F7FFFFF

theorem f32Mag_lt_iff (a b : Nat) : f32Mag a < f32Mag b ↔ a < b := by
  unfold f32Mag
  rw [mul_lt_mul_iff_left₀ (by positivity), Nat.cast_lt, magSteps_lt_iff]
theorem f32Mag_le_iff (a b : Nat) : f32Mag a ≤ f32Mag b ↔ a ≤ b := by rw [← not_lt, f32Mag_lt_iff, not_lt]
theorem f32Mag_zero : f32Mag 0 = 0 := by simp [f32Mag, magSteps]
theorem f32Mag_nonneg (b : Nat) : 0 ≤ f32Mag b := by
  unfold f32Mag
  positivity
theorem fpMag_f32 (w : Nat) : fpMag .f32 w = f32Mag (fpBody .f32 w) := fpMag_eq_magSteps .f32 w
theorem fpBody_of_lt {b : Nat} (h : b < 2 ^ 31) : fpBody .f32 b = b := Nat.mod_eq_of_lt h
theorem largest_mag : fpMag .f32 (fpLargest .f32) = f32Mag topPlace := fpMag_f32 _
theorem placeNum_le_iff (p p' : ℤ) : placeNum p ≤ placeNum p' ↔ p ≤ p' := by
  have h1 := f32Mag_le_iff p.natAbs p'.natAbs
  have h2 := f32Mag_le_iff p'.natAbs p.natAbs
  have n1 := f32Mag_nonneg p.natAbs
  have n2 := f32Mag_nonneg p'.natAbs
  have z1 := f32Mag_lt_iff 0 p.natAbs
  have z2 := f32Mag_lt_iff 0 p'.natAbs
  rw [f32Mag_zero] at z1 z2
  unfold placeNum
  split_ifs with h h'
  · rw [neg_le_neg_iff, h2]
    omega
  · exact iff_of_true (by linarith) (by omega)
  · refine iff_of_false (fun hx => ?_) (by omega)
    have := z2.2 (by omega)
    linarith
  · rw [h1]
    omega
/-- An FP32 magnitude has at most 24 bits. -/
theorem f32Mag_form (b : Nat) : ∃ (m : Nat) (e : ℤ), m < 2 ^ 24 ∧ -149 ≤ e ∧ f32Mag b = m * 2 ^ e := by
  unfold f32Mag magSteps
  split_ifs with h
  · refine ⟨b, -149, ?_, le_refl _, rfl⟩
    have : b < 2 ^ 23 := by simpa [FTy.mbits, Nat.div_eq_zero_iff] using h
    omega
  · refine ⟨2 ^ 23 + b % 2 ^ 23, (b / 2 ^ 23 - 1 : Nat) - 149, ?_, by omega, ?_⟩
    · have := Nat.mod_lt b (show 0 < 2 ^ 23 by norm_num)
      omega
    · change (((2 ^ 23 + b % 2 ^ 23) * 2 ^ (b / 2 ^ 23 - 1) : Nat) : ℚ) * 2 ^ (-149 : ℤ) = _
      rw [sub_eq_add_neg, zpow_add₀ (by norm_num), zpow_natCast, Nat.cast_mul, mul_assoc]
      push_cast
      rfl
theorem f32Place_signed (neg : Bool) {b : Nat} (h : b < 2 ^ 31) : f32Place (fpSigned .f32 neg b) = if neg then -(b : ℤ) else b := by
  unfold f32Place
  cases neg
  · exact if_pos h
  · have hp : fpSigned .f32 true b = b + 2 ^ 31 := rfl
    rw [hp, if_neg (by omega), if_pos rfl]
    push_cast
    ring
theorem placeNum_signed (neg : Bool) (b : Nat) : placeNum (if neg then -(b : ℤ) else b) = if neg then -f32Mag b else f32Mag b := by
  unfold placeNum
  cases neg
  · simp
  · by_cases h : b = 0
    · simp [h, f32Mag_zero]
    · rw [if_pos rfl, if_pos rfl, if_pos (by omega), Int.natAbs_neg, Int.natAbs_natCast]
theorem f32AtPlace_eq (p : ℤ) : f32AtPlace p = fpSigned .f32 (decide (p < 0)) p.natAbs := by
  unfold f32AtPlace fpSigned
  by_cases h : 0 ≤ p
  · rw [if_pos h, if_neg (by simpa using h)]
    omega
  · rw [if_neg h, if_pos (by simpa using h)]
    exact Nat.add_comm ..
/-- The pattern at a place of a finite one. -/
theorem atPlace_spec {p : ℤ} (h : p.natAbs ≤ topPlace) :
    F32Fin (f32AtPlace p) ∧ fpNum .f32 (f32AtPlace p) = placeNum p ∧ fpNeg .f32 (f32AtPlace p) = decide (p < 0) := by
  have hlt : p.natAbs < 2 ^ 31 := lt_of_le_of_lt h (by decide)
  obtain ⟨hn, hi⟩ := finite_of_le_largest .f32 (decide (p < 0)) h
  obtain ⟨hs, -, -⟩ := fpFields_signed .f32 (decide (p < 0)) hlt
  rw [f32AtPlace_eq]
  refine ⟨⟨fpSigned_lt .f32 _ hlt, hn, hi⟩, ?_, hs⟩
  unfold fpNum placeNum
  rw [hs, fpMag_signed .f32 _ hlt, fpMag_f32, fpBody_of_lt hlt]
  simp only [decide_eq_true_eq]
/-- A pattern is its sign and its body. -/
theorem eq_signed {w : Nat} (h : w < 2 ^ 32) : w = fpSigned .f32 (fpNeg .f32 w) (fpBody .f32 w) := by
  have hb := sign_body .f32 w
  rw [Nat.mod_eq_of_lt (show w < 2 ^ FTy.width .f32 from h)] at hb
  unfold fpSigned
  split
  case isTrue hs =>
    rw [if_pos hs] at hb
    exact hb
  case isFalse hs =>
    rw [if_neg hs] at hb
    exact hb

/-! ## Rounding up and down (R123) -/

/-- The spacing of FP32 at a magnitude. -/
def f32Ulp (v : ℚ) : ℤ := max (Int.log 2 v) (-126) - 23

theorem steps_up {mode : RMode} {neg : Bool} (hm : mode = if neg then .rd else .ru) {v : ℚ} (hv : 0 ≤ v) (q : ℤ) :
    v ≤ stepsOf mode 0 neg v q * 2 ^ q ∧ ∀ j : Nat, v ≤ j * 2 ^ q → stepsOf mode 0 neg v q ≤ j := by
  have hp : (0 : ℚ) < 2 ^ q := by positivity
  have hup : ∀ f, roundsUp mode 0 neg ⌊v / 2 ^ q⌋₊ f = decide (f ≠ 0) := by
    intro f
    subst hm
    cases neg <;> simp [roundsUp]
  have hfloor := Nat.floor_le (div_nonneg hv hp.le)
  have hlt := Nat.lt_floor_add_one (v / 2 ^ q)
  rw [stepsOf_eq, hup]
  split_ifs with hf
  · rw [← div_le_iff₀ hp]
    refine ⟨by push_cast; exact hlt.le, fun j hj => ?_⟩
    rw [← div_le_iff₀ hp] at hj
    have hne : ((⌊v / 2 ^ q⌋₊ : Nat) : ℚ) < v / 2 ^ q := lt_of_le_of_ne hfloor fun he => (of_decide_eq_true hf) (by rw [he, sub_self])
    exact Nat.succ_le_of_lt (by exact_mod_cast hne.trans_le hj)
  · have heq : v / 2 ^ q = ((⌊v / 2 ^ q⌋₊ : Nat) : ℚ) := by simpa [sub_eq_zero] using hf
    rw [← div_le_iff₀ hp]
    refine ⟨heq.le, fun j hj => ?_⟩
    rw [← div_le_iff₀ hp, heq] at hj
    exact_mod_cast hj
theorem steps_down {mode : RMode} {neg : Bool} (hm : mode = if neg then .ru else .rd) {v : ℚ} (hv : 0 ≤ v) (q : ℤ) :
    stepsOf mode 0 neg v q * 2 ^ q ≤ v ∧ ∀ j : Nat, j * 2 ^ q ≤ v → j ≤ stepsOf mode 0 neg v q := by
  have hp : (0 : ℚ) < 2 ^ q := by positivity
  have hup : ∀ f, roundsUp mode 0 neg ⌊v / 2 ^ q⌋₊ f = false := by
    intro f
    subst hm
    cases neg <;> simp [roundsUp]
  rw [stepsOf_eq, hup, if_neg (by decide), ← le_div_iff₀ hp]
  refine ⟨Nat.floor_le (div_nonneg hv hp.le), fun j hj => ?_⟩
  rw [← le_div_iff₀ hp] at hj
  exact Nat.le_floor hj
/-- An FP32 magnitude is a multiple of the spacing at v, or lies below v's power of two. -/
theorem f32Mag_grid (b : Nat) (v : ℚ) : (∃ j : Nat, f32Mag b = j * 2 ^ f32Ulp v) ∨ f32Ulp v = Int.log 2 v - 23 ∧ f32Mag b < 2 ^ Int.log 2 v := by
  obtain ⟨m, e, hm, he, hb⟩ := f32Mag_form b
  rcases le_or_gt (f32Ulp v) e with h | h
  · refine .inl ⟨m * 2 ^ (e - f32Ulp v).toNat, ?_⟩
    rw [← steps_whole m h, div_mul_cancel₀ _ (by positivity), hb]
  · have hq : f32Ulp v = Int.log 2 v - 23 := by
      unfold f32Ulp at h ⊢
      omega
    refine .inr ⟨hq, ?_⟩
    calc f32Mag b < 2 ^ 24 * 2 ^ e := by rw [hb]; exact mul_lt_mul_of_pos_right (by exact_mod_cast hm) (by positivity)
      _ = 2 ^ (e + 24) := by rw [zpow_add₀ (by norm_num), mul_comm]; norm_num
      _ ≤ 2 ^ Int.log 2 v := zpow_le_zpow_right₀ (by norm_num) (by omega)

theorem zero_mag_iff (b : Nat) : f32Mag b ≤ 0 ↔ b ≤ 0 := by rw [← f32Mag_zero, f32Mag_le_iff]
/-- What rounding to FP32 gives, by its body: zero, an overflow, or the steps of the spacing. -/
theorem Rounded.f32_cases {mode : RMode} {neg : Bool} {v : ℚ} {r : Nat × Byte} (h : Rounded .f32 mode 0 neg v r) (hm : mode ≠ .rs) :
    (v = 0 ∧ r = (fpSigned .f32 neg 0, 0)) ∨ v ≠ 0 ∧
      let x : ℚ := stepsOf mode 0 neg v (f32Ulp v) * 2 ^ f32Ulp v
      (f32Mag topPlace < x ∧ r.1 = fpSigned .f32 neg (overflowBits .f32 mode neg) ∧ r.2 = fOF ||| fNX) ∨
      (x ≤ f32Mag topPlace ∧ r.1 < 2 ^ 32 ∧ fpNan .f32 r.1 = false ∧ fpInf .f32 r.1 = false ∧ r.1 = fpSigned .f32 neg (fpBody .f32 r.1) ∧
        f32Mag (fpBody .f32 r.1) = x ∧
        let u : ℚ := stepsOf mode 0 neg v (Int.log 2 v - 23) * 2 ^ (Int.log 2 v - 23)
        r.2 = (if x = v then 0 else fNX) ||| if x ≠ v ∧ 0 < u ∧ u < 2 ^ (-126 : ℤ) then fUF else 0) := by
  unfold Rounded at h
  extract_lets m emin q0 q x u at h
  by_cases h0 : v = 0
  · rw [if_pos h0] at h
    exact .inl ⟨h0, h⟩
  have hq : q = f32Ulp v := if_neg hm
  rw [if_neg h0, largest_mag] at h
  refine .inr ⟨h0, ?_⟩
  dsimp only
  rw [← hq]
  change (f32Mag topPlace < x ∧ _) ∨ (x ≤ f32Mag topPlace ∧ _)
  by_cases ho : f32Mag topPlace < x
  · rw [if_pos ho] at h
    refine .inl ⟨ho, ?_, ?_⟩
    · rw [h]
      cases mode <;> cases neg <;> rfl
    · rw [h]
      exact or_zero _
  · rw [if_neg ho] at h
    obtain ⟨hlt, hn, hi, hs, hmag, hf⟩ := h
    refine .inr ⟨not_lt.1 ho, hlt, hn, hi, ?_, ?_, hf⟩
    · have := eq_signed hlt
      rwa [hs] at this
    · rw [← fpMag_f32, hmag]

/-- Rounding a magnitude up gives the least magnitude that is not below it. -/
theorem rounded_up {mode : RMode} {neg : Bool} {v : ℚ} {r : Nat × Byte} (hv : 0 ≤ v) (h : Rounded .f32 mode 0 neg v r)
    (hm : mode = if neg then .rd else .ru) :
    ∃ b, b < 2 ^ 31 ∧ r.1 = fpSigned .f32 neg b ∧ ∀ b', b' ≤ topPlace → (v ≤ f32Mag b' ↔ b ≤ b') := by
  have hrs : mode ≠ .rs := by
    subst hm
    cases neg <;> decide
  rcases h.f32_cases hrs with ⟨rfl, hr⟩ | ⟨h0, hcase⟩
  · exact ⟨0, by norm_num, by rw [hr], fun b' _ => iff_of_true (f32Mag_nonneg b') (Nat.zero_le _)⟩
  obtain ⟨hup, hmin⟩ := steps_up hm hv (f32Ulp v)
  have key (b' : Nat) : v ≤ f32Mag b' ↔ stepsOf mode 0 neg v (f32Ulp v) * 2 ^ f32Ulp v ≤ f32Mag b' := by
    refine ⟨fun hb => ?_, fun hb => hup.trans hb⟩
    rcases f32Mag_grid b' v with ⟨j, hj⟩ | ⟨-, hlt⟩
    · rw [hj] at hb ⊢
      exact mul_le_mul_of_nonneg_right (by exact_mod_cast hmin j hb) (by positivity)
    · have := Int.zpow_log_le_self (b := 2) (by norm_num) (lt_of_le_of_ne hv (Ne.symm h0))
      exact absurd (lt_of_lt_of_le hlt (by exact_mod_cast this)) (not_lt.2 hb)
  rcases hcase with ⟨hbig, hr, -⟩ | ⟨-, -, -, -, hr, hx, -⟩
  · refine ⟨overflowBits .f32 mode neg, ?_, hr, fun b' hb' => ?_⟩
    · cases mode <;> cases neg <;> decide
    · rw [key]
      refine iff_of_false (fun hx => ?_) ?_
      · have := (f32Mag_le_iff b' topPlace).2 hb'
        linarith
      · subst hm
        have : overflowBits .f32 (if neg then .rd else .ru) neg = topPlace + 1 := by cases neg <;> rfl
        omega
  · refine ⟨fpBody .f32 r.1, fpBody_lt .f32 r.1, hr, fun b' _ => ?_⟩
    rw [key, ← hx, f32Mag_le_iff]
/-- Rounding a magnitude down gives the largest magnitude that is not above it. -/
theorem rounded_down {mode : RMode} {neg : Bool} {v : ℚ} {r : Nat × Byte} (hv : 0 ≤ v) (h : Rounded .f32 mode 0 neg v r)
    (hm : mode = if neg then .ru else .rd) :
    ∃ b, b < 2 ^ 31 ∧ r.1 = fpSigned .f32 neg b ∧ ∀ b', b' ≤ topPlace → (f32Mag b' ≤ v ↔ b' ≤ b) := by
  have hrs : mode ≠ .rs := by
    subst hm
    cases neg <;> decide
  rcases h.f32_cases hrs with ⟨rfl, hr⟩ | ⟨h0, hcase⟩
  · exact ⟨0, by norm_num, by rw [hr], fun b' _ => zero_mag_iff b'⟩
  obtain ⟨hdown, hmax⟩ := steps_down hm hv (f32Ulp v)
  have hpow := Int.zpow_log_le_self (b := 2) (by norm_num) (lt_of_le_of_ne hv (Ne.symm h0))
  have key (b' : Nat) : f32Mag b' ≤ v ↔ f32Mag b' ≤ stepsOf mode 0 neg v (f32Ulp v) * 2 ^ f32Ulp v := by
    refine ⟨fun hb => ?_, fun hb => hb.trans hdown⟩
    rcases f32Mag_grid b' v with ⟨j, hj⟩ | ⟨hq, hlt⟩
    · rw [hj] at hb ⊢
      exact mul_le_mul_of_nonneg_right (by exact_mod_cast hmax j hb) (by positivity)
    · have hwhole : ((2 ^ 23 : Nat) : ℚ) * 2 ^ f32Ulp v = 2 ^ Int.log 2 v := by
        rw [hq, zpow_sub₀ (by norm_num)]
        norm_num
        ring
      have hj := hmax (2 ^ 23) (by rw [hwhole]; exact_mod_cast hpow)
      refine hlt.le.trans ?_
      rw [← hwhole]
      exact mul_le_mul_of_nonneg_right (by exact_mod_cast hj) (by positivity)
  rcases hcase with ⟨hbig, hr, -⟩ | ⟨-, -, -, -, hr, hx, -⟩
  · refine ⟨overflowBits .f32 mode neg, ?_, hr, fun b' hb' => ?_⟩
    · cases mode <;> cases neg <;> decide
    · rw [key]
      have hle := (f32Mag_le_iff b' topPlace).2 hb'
      refine iff_of_true (by linarith) ?_
      have : overflowBits .f32 mode neg = topPlace := by
        subst hm
        cases neg <;> rfl
      omega
  · refine ⟨fpBody .f32 r.1, fpBody_lt .f32 r.1, hr, fun b' _ => ?_⟩
    rw [key, ← hx, f32Mag_le_iff]

/-- A magnitude with a sign. -/
def signedNum (neg : Bool) (v : ℚ) : ℚ := if neg then -v else v
/-- The place of a number rounded up is the least one that is not below the number. -/
theorem place_up {neg : Bool} {v : ℚ} {r : Nat × Byte} (hv : 0 ≤ v) (h : Rounded .f32 .ru 0 neg v r) {p : ℤ} (hp : p.natAbs ≤ topPlace) :
    signedNum neg v ≤ placeNum p ↔ f32Place r.1 ≤ p := by
  have hm := f32Mag_nonneg p.natAbs
  unfold signedNum placeNum
  cases neg
  · obtain ⟨b, hb, hr, hiff⟩ := rounded_up hv h rfl
    rw [hr, f32Place_signed _ hb]
    have := hiff p.natAbs hp
    simp only [Bool.false_eq_true, if_false]
    by_cases hneg : p < 0
    · rw [if_pos hneg]
      refine iff_of_false (fun hx => ?_) (by omega)
      have hz := (f32Mag_lt_iff 0 p.natAbs).2 (by omega)
      rw [f32Mag_zero] at hz
      linarith
    · rw [if_neg hneg, this]
      omega
  · obtain ⟨b, hb, hr, hiff⟩ := rounded_down hv h rfl
    rw [hr, f32Place_signed _ hb]
    have := hiff p.natAbs hp
    simp only [if_true]
    by_cases hneg : p < 0
    · rw [if_pos hneg, neg_le_neg_iff, this]
      omega
    · rw [if_neg hneg]
      exact iff_of_true (by linarith) (by omega)
/-- The place of a number rounded down is the largest one that is not above the number. -/
theorem place_down {neg : Bool} {v : ℚ} {r : Nat × Byte} (hv : 0 ≤ v) (h : Rounded .f32 .rd 0 neg v r) {p : ℤ} (hp : p.natAbs ≤ topPlace) :
    placeNum p ≤ signedNum neg v ↔ p ≤ f32Place r.1 := by
  have hm := f32Mag_nonneg p.natAbs
  unfold signedNum placeNum
  cases neg
  · obtain ⟨b, hb, hr, hiff⟩ := rounded_down hv h rfl
    rw [hr, f32Place_signed _ hb]
    have := hiff p.natAbs hp
    simp only [Bool.false_eq_true, if_false]
    by_cases hneg : p < 0
    · rw [if_pos hneg]
      exact iff_of_true (by linarith) (by omega)
    · rw [if_neg hneg, this]
      omega
  · obtain ⟨b, hb, hr, hiff⟩ := rounded_up hv h rfl
    rw [hr, f32Place_signed _ hb]
    have := hiff p.natAbs hp
    simp only [if_true]
    by_cases hneg : p < 0
    · rw [if_pos hneg, neg_le_neg_iff, this]
      omega
    · rw [if_neg hneg]
      by_cases h0 : p = 0
      · subst h0
        change v ≤ f32Mag 0 ↔ b ≤ 0 at this
        change f32Mag 0 ≤ -v ↔ (0 : ℤ) ≤ -b
        rw [f32Mag_zero] at this ⊢
        rw [le_neg, neg_zero, this]
        omega
      · have hz := (f32Mag_lt_iff 0 p.natAbs).2 (by omega)
        rw [f32Mag_zero] at hz
        exact iff_of_false (by linarith) (by omega)

end Sys2Proof.Machine
end

section
/-! PROOFS. Quotients rounded through a sticky bit, and the choice of a result within a bound of an enclosure (R144). -/

namespace Sys2Proof.Machine

/-! ## A quotient and its sticky bit -/

/-- v' stands to every multiple of a power of two that is not finer than 2 ^ -40 of v as v does. -/
def SameSteps (v v' : ℚ) : Prop :=
  0 < v ∧ ∀ (j : Nat) (c : ℤ), Int.log 2 v - 40 ≤ c → (j * 2 ^ c ≤ v ↔ j * 2 ^ c ≤ v') ∧ (v ≤ j * 2 ^ c ↔ v' ≤ j * 2 ^ c)

section
variable {v v' : ℚ} (h : SameSteps v v')
include h
theorem SameSteps.log : Int.log 2 v' = Int.log 2 v := by
  obtain ⟨hv, hs⟩ := h
  have h1 := (hs 1 (Int.log 2 v) (by omega)).1
  have h2 := (hs 1 (Int.log 2 v + 1) (by omega)).1
  rw [Nat.cast_one, one_mul] at h1 h2
  have hlow : (2 : ℚ) ^ Int.log 2 v ≤ v := by exact_mod_cast Int.zpow_log_le_self (b := 2) (by norm_num) hv
  have hhigh : v < (2 : ℚ) ^ (Int.log 2 v + 1) := by exact_mod_cast Int.lt_zpow_succ_log_self (b := 2) (by norm_num) v
  exact log_eq_of_bounds (h1.1 hlow) (lt_of_not_ge fun hx => not_le.2 hhigh (h2.2 hx))
theorem SameSteps.pos : 0 < v' := by
  have h1 := (h.2 1 (Int.log 2 v) (by omega)).1
  rw [Nat.cast_one, one_mul] at h1
  have hlow : (2 : ℚ) ^ Int.log 2 v ≤ v := by exact_mod_cast Int.zpow_log_le_self (b := 2) (by norm_num) h.1
  exact lt_of_lt_of_le (by positivity) (h1.1 hlow)
theorem SameSteps.eq_iff (j : Nat) {c : ℤ} (hc : Int.log 2 v - 40 ≤ c) : v = j * 2 ^ c ↔ v' = j * 2 ^ c := by
  obtain ⟨h1, h2⟩ := h.2 j c hc
  rw [le_antisymm_iff, le_antisymm_iff, h1, h2]
theorem SameSteps.floor {q : ℤ} (hq : Int.log 2 v - 40 ≤ q) : ⌊v' / 2 ^ q⌋₊ = ⌊v / 2 ^ q⌋₊ := by
  have hp : (0 : ℚ) < 2 ^ q := by positivity
  have hv := (div_pos h.1 hp).le
  have hv' := (div_pos h.pos hp).le
  refine eq_of_forall_le_iff fun j => ?_
  rw [Nat.le_floor_iff hv', Nat.le_floor_iff hv, le_div_iff₀ hp, le_div_iff₀ hp]
  exact (h.2 j q hq).1.symm
/-- The steps of a magnitude are those of what stands for it. -/
theorem SameSteps.stepsOf {mode : RMode} (hm : mode ≠ .rs) (neg : Bool) {q : ℤ} (hq : Int.log 2 v - 39 ≤ q) :
    stepsOf mode 0 neg v' q = stepsOf mode 0 neg v q := by
  have hp : (0 : ℚ) < 2 ^ q := by positivity
  have hhalf (n : Nat) (x : ℚ) : x / 2 ^ q - n = 1 / 2 ↔ x = ((2 * n + 1 : Nat) : ℚ) * 2 ^ (q - 1) := by
    rw [zpow_sub_one₀ (by norm_num), sub_eq_iff_eq_add, div_eq_iff hp.ne']
    push_cast
    refine ⟨fun hx => hx.trans (by ring), fun hx => hx.trans (by ring)⟩
  have habove (n : Nat) (x : ℚ) : 1 / 2 < x / 2 ^ q - n ↔ ¬x ≤ ((2 * n + 1 : Nat) : ℚ) * 2 ^ (q - 1) := by
    rw [zpow_sub_one₀ (by norm_num), lt_sub_iff_add_lt, lt_div_iff₀ hp, not_le]
    push_cast
    refine ⟨fun hx => lt_of_eq_of_lt (by ring) hx, fun hx => lt_of_eq_of_lt (by ring) hx⟩
  have hzero (n : Nat) (x : ℚ) : x / 2 ^ q - n ≠ 0 ↔ ¬x = n * 2 ^ q := by
    rw [Ne, sub_eq_zero, div_eq_iff hp.ne']
  rw [stepsOf_eq, stepsOf_eq, h.floor (by omega)]
  generalize ⌊v / 2 ^ q⌋₊ = n
  have hz : v' / 2 ^ q - n ≠ 0 ↔ v / 2 ^ q - n ≠ 0 := by rw [hzero, hzero, h.eq_iff n (c := q) (by omega)]
  have hh : v' / 2 ^ q - n = 1 / 2 ↔ v / 2 ^ q - n = 1 / 2 := by rw [hhalf, hhalf, h.eq_iff _ (c := q - 1) (by omega)]
  have ha : 1 / 2 < v' / 2 ^ q - n ↔ 1 / 2 < v / 2 ^ q - n := by rw [habove, habove, (h.2 _ (q - 1) (by omega)).2]
  have hup : roundsUp mode 0 neg n (v' / 2 ^ q - n) = roundsUp mode 0 neg n (v / 2 ^ q - n) := by
    cases mode
    case rs => exact absurd rfl hm
    case rz => rfl
    case rne => simp only [roundsUp, ha, hh]
    case rd | ru => simp only [roundsUp, hz]
  rw [hup]
/-- FP32's rounding of a magnitude is that of what stands for it. -/
theorem SameSteps.rounded {mode : RMode} (hm : mode ≠ .rs) {neg : Bool} {r : Nat × Byte} (hr : Rounded .f32 mode 0 neg v' r) :
    Rounded .f32 mode 0 neg v r := by
  have hlg : Int.log 2 v - 39 ≤ max (Int.log 2 v) (1 - (FTy.bias .f32 : ℤ)) - (FTy.mbits .f32 : ℤ) := by
    simp only [FTy.mbits]
    omega
  have hlg' : Int.log 2 v - 39 ≤ Int.log 2 v - (FTy.mbits .f32 : ℤ) := by
    simp only [FTy.mbits]
    omega
  have hx (n : Nat) : (n : ℚ) * 2 ^ (max (Int.log 2 v) (1 - (FTy.bias .f32 : ℤ)) - (FTy.mbits .f32 : ℤ)) = v' ↔
      (n : ℚ) * 2 ^ (max (Int.log 2 v) (1 - (FTy.bias .f32 : ℤ)) - (FTy.mbits .f32 : ℤ)) = v := by
    rw [eq_comm, eq_comm (b := v), h.eq_iff n (by omega)]
  unfold Rounded at hr ⊢
  simpa only [if_neg hm, if_neg h.1.ne', if_neg h.pos.ne', h.log, h.stepsOf hm neg hlg, h.stepsOf hm neg hlg', hx, ne_eq] using hr
end

/-- The mantissa of a quotient has more bits than the finest step that is looked at (R144). -/
theorem ratVal_same {num : ℤ} {den : Nat} (hn : num ≠ 0) (hd : 0 < den) :
    SameSteps ((num.natAbs : ℚ) / den) ((ratVal num den).2.1 * 2 ^ (ratVal num den).2.2) := by
  have ha : num.natAbs ≠ 0 := Int.natAbs_ne_zero.2 hn
  unfold ratVal
  dsimp only
  generalize num.natAbs = a at *
  generalize hk : 64 + den.log2 - a.log2 = k
  have hbig : 2 ^ 63 ≤ a * 2 ^ k / den := by
    have h1 := Nat.log2_self_le ha
    have h2 := Nat.lt_log2_self (n := den)
    rw [Nat.le_div_iff_mul_le hd]
    calc 2 ^ 63 * den ≤ 2 ^ 63 * 2 ^ (den.log2 + 1) := Nat.mul_le_mul_left _ h2.le
      _ = 2 ^ (64 + den.log2) := by rw [← Nat.pow_add]; congr 1; omega
      _ ≤ 2 ^ (a.log2 + k) := Nat.pow_le_pow_right (by decide) (by omega)
      _ = 2 ^ a.log2 * 2 ^ k := Nat.pow_add ..
      _ ≤ a * 2 ^ k := Nat.mul_le_mul_right _ h1
  have hd' : (0 : ℚ) < den := by exact_mod_cast hd
  have hP : (0 : ℚ) < 2 ^ (-(k : ℤ)) := by positivity
  have hdiv := Nat.div_add_mod' (a * 2 ^ k) den
  have hmod := Nat.mod_lt (a * 2 ^ k) hd
  have hv : (a : ℚ) / den = ((a * 2 ^ k : Nat) : ℚ) / den * 2 ^ (-(k : ℤ)) := by
    push_cast
    rw [zpow_neg, zpow_natCast]
    field_simp
  generalize a * 2 ^ k / den = n at *
  generalize a * 2 ^ k % den = r at *
  rw [← hdiv] at hv
  have hs : ((2 * n + if r = 0 then 0 else 1 : Nat) : ℚ) * 2 ^ (-(k : ℤ) - 1) = ((n : ℚ) + if r = 0 then 0 else 1 / 2) * 2 ^ (-(k : ℤ)) := by
    rw [zpow_sub_one₀ (by norm_num)]
    push_cast
    split <;> ring
  have hvpos : 0 < (a : ℚ) / den := by positivity
  have hlog : 63 - (k : ℤ) ≤ Int.log 2 ((a : ℚ) / den) := by
    refine (Int.zpow_le_iff_le_log (b := 2) (by norm_num) hvpos).1 ?_
    have hn63 : (2 : ℚ) ^ 63 ≤ n := by exact_mod_cast hbig
    calc ((2 : Nat) : ℚ) ^ (63 - (k : ℤ)) = 2 ^ 63 * 2 ^ (-(k : ℤ)) := by
          rw [sub_eq_add_neg, Nat.cast_ofNat, zpow_add₀ (by norm_num)]
          norm_num
      _ ≤ ((n * den + r : Nat) : ℚ) / den * 2 ^ (-(k : ℤ)) := by
          refine mul_le_mul_of_nonneg_right (hn63.trans ?_) hP.le
          rw [le_div_iff₀ hd']
          exact_mod_cast Nat.le_add_right _ _
      _ = _ := hv.symm
  refine ⟨hvpos, fun j c hc => ?_⟩
  have hj : (j : ℚ) * 2 ^ c = ((j * 2 ^ (c - -(k : ℤ)).toNat : Nat) : ℚ) * 2 ^ (-(k : ℤ)) := by
    rw [← steps_whole j (by omega), div_mul_cancel₀ _ hP.ne']
  rw [hs, hv, hj]
  generalize j * 2 ^ (c - -(k : ℤ)).toNat = J
  rw [mul_le_mul_iff_left₀ hP, mul_le_mul_iff_left₀ hP, mul_le_mul_iff_left₀ hP, mul_le_mul_iff_left₀ hP, le_div_iff₀ hd', div_le_iff₀ hd']
  have hcast1 : (J : ℚ) * den ≤ ((n * den + r : Nat) : ℚ) ↔ J ≤ n := by
    rw [← Nat.cast_mul, Nat.cast_le]
    refine ⟨fun hx => ?_, fun hx => (Nat.mul_le_mul_right _ hx).trans (Nat.le_add_right _ _)⟩
    by_contra hlt
    have := Nat.mul_le_mul_right den (Nat.succ_le_of_lt (not_le.1 hlt))
    rw [Nat.succ_mul] at this
    omega
  have hcast2 : ((n * den + r : Nat) : ℚ) ≤ J * den ↔ if r = 0 then n ≤ J else n + 1 ≤ J := by
    rw [← Nat.cast_mul, Nat.cast_le]
    split
    case isTrue h0 => rw [h0, Nat.add_zero, Nat.mul_le_mul_right_iff hd]
    case isFalse h0 =>
      refine ⟨fun hx => ?_, fun hx => ?_⟩
      · by_contra hlt
        have := Nat.mul_le_mul_right den (show J ≤ n by omega)
        omega
      · have := Nat.mul_le_mul_right den hx
        rw [Nat.succ_mul] at this
        omega
  rw [hcast1, hcast2]
  split
  case isTrue h0 => simp
  case isFalse h0 =>
    constructor
    · refine ⟨fun hx => ?_, fun hx => ?_⟩
      · have : (J : ℚ) ≤ n := by exact_mod_cast hx
        linarith
      · have : (J : ℚ) < (n + 1 : Nat) := by push_cast; linarith
        have : J < n + 1 := by exact_mod_cast this
        omega
    · refine ⟨fun hx => ?_, fun hx => ?_⟩
      · have : ((n + 1 : Nat) : ℚ) ≤ J := by exact_mod_cast hx
        push_cast at this
        linarith
      · have : (n : ℚ) < J := by linarith
        have : n < J := by exact_mod_cast this
        omega
/-- A quotient, rounded to FP32 (R123). -/
theorem ratVal_rounded (mode : RMode) (hm : mode ≠ .rs) (num : ℤ) {den : Nat} (hd : 0 < den) :
    Rounded .f32 mode 0 (decide (num < 0)) ((num.natAbs : ℚ) / den)
      (roundTo .f32 mode 0 (ratVal num den).1 (ratVal num den).2.1 (ratVal num den).2.2) := by
  have h := roundTo_rounded .f32 mode (rnd := 0) (by norm_num) (ratVal num den).1 (ratVal num den).2.1 (ratVal num den).2.2
  by_cases h0 : num = 0
  · subst h0
    have hz : (ratVal 0 den).2.1 = 0 := by simp [ratVal]
    have hs : (ratVal 0 den).1 = false := by simp [ratVal]
    rw [hz, hs] at h ⊢
    simpa using h
  · exact (ratVal_same h0 hd).rounded hm h
theorem signedNum_div (num : ℤ) (den : Nat) : signedNum (decide (num < 0)) ((num.natAbs : ℚ) / den) = num / den := by
  unfold signedNum
  simp only [decide_eq_true_eq]
  split
  case isTrue h =>
    rw [← neg_div, ← Int.cast_natCast, Int.ofNat_natAbs_of_nonpos h.le]
    push_cast
    rw [neg_neg]
  case isFalse h => rw [← Int.cast_natCast, Int.natAbs_of_nonneg (not_lt.1 h)]

/-! ## The choice within a bound (R144) -/

/-- A pattern that is chosen lies between the two numbers, where some finite one does. -/
theorem pickWithin_spec (fn : Nat) (x : Word) (i : Enclosure) (eNum : ℤ) {eDen : Nat} (hd : 0 < i.den) (he : 0 < eDen) {D U : ℚ}
    (hD : D = i.hi / i.den - eNum / eDen) (hU : U = i.lo / i.den + eNum / eDen) {p : ℤ} (hp : p.natAbs ≤ topPlace)
    (h1 : D ≤ placeNum p) (h2 : placeNum p ≤ U) :
    F32Fin (pickWithin fn x i eNum eDen) ∧ D ≤ fpNum .f32 (pickWithin fn x i eNum eDen) ∧ fpNum .f32 (pickWithin fn x i eNum eDen) ≤ U ∧
      (0 < D → fpNeg .f32 (pickWithin fn x i eNum eDen) = false) := by
  have hd' : (i.den : ℚ) ≠ 0 := by exact_mod_cast hd.ne'
  have he' : (eDen : ℚ) ≠ 0 := by exact_mod_cast he.ne'
  have hden : 0 < i.den * eDen := Nat.mul_pos hd he
  have hdown := ratVal_rounded .ru (by decide) (i.hi * eDen - eNum * i.den) hden
  have hup := ratVal_rounded .rd (by decide) (i.lo * eDen + eNum * i.den) hden
  have hDq : signedNum (decide (i.hi * eDen - eNum * i.den < 0)) (((i.hi * eDen - eNum * i.den).natAbs : ℚ) / (i.den * eDen : Nat)) = D := by
    rw [signedNum_div, hD]
    push_cast
    field_simp
  have hUq : signedNum (decide (i.lo * eDen + eNum * i.den < 0)) (((i.lo * eDen + eNum * i.den).natAbs : ℚ) / (i.den * eDen : Nat)) = U := by
    rw [signedNum_div, hU]
    push_cast
    field_simp
  have hA (p : ℤ) (hp : p.natAbs ≤ topPlace) := place_up (by positivity) hdown hp
  have hB (p : ℤ) (hp : p.natAbs ≤ topPlace) := place_down (by positivity) hup hp
  rw [hDq] at hA
  rw [hUq] at hB
  unfold pickWithin
  dsimp only
  generalize f32Place (roundTo .f32 .ru 0 _ _ _).1 = a at *
  generalize f32Place (roundTo .f32 .rd 0 _ _ _).1 = b at *
  have ha := (hA p hp).1 h1
  have hb := (hB p hp).1 h2
  have htop : ((FTy.maxBits .f32 : Nat) : ℤ) = topPlace := rfl
  rw [htop]
  have hres : ∀ c : ℤ, max (-(topPlace : ℤ)) (min topPlace a) ≤ c → c ≤ max (-(topPlace : ℤ)) (min topPlace b) →
      F32Fin (f32AtPlace c) ∧ D ≤ fpNum .f32 (f32AtPlace c) ∧ fpNum .f32 (f32AtPlace c) ≤ U ∧ (0 < D → fpNeg .f32 (f32AtPlace c) = false) := by
    intro c hc1 hc2
    have hc : c.natAbs ≤ topPlace := by omega
    obtain ⟨hfin, hnum, hneg⟩ := atPlace_spec hc
    have hDc := (hA c hc).2 (by omega)
    refine ⟨hfin, hnum ▸ hDc, hnum ▸ (hB c hc).2 (by omega), fun h0 => ?_⟩
    rw [hneg, decide_eq_false_iff_not]
    intro hlt
    have hle := (placeNum_le_iff c 0).2 hlt.le
    have hz : placeNum 0 = 0 := f32Mag_zero
    linarith
  split
  case isTrue hle => exact hres _ le_rfl (by omega)
  case isFalse hlt =>
    have hmod := Nat.mod_lt (Config.specialPick fn x)
      (show 0 < (max (-(topPlace : ℤ)) (min topPlace b) - max (-(topPlace : ℤ)) (min topPlace a) + 1).toNat by omega)
    exact hres _ (by omega) (by omega)

theorem rne_close (neg : Bool) {v : ℚ} (hv : 0 ≤ v) (q : ℤ) : |stepsOf .rne 0 neg v q * 2 ^ q - v| ≤ 2 ^ q / 2 := by
  have hp : (0 : ℚ) < 2 ^ q := by positivity
  have h1 := Nat.floor_le (div_nonneg hv hp.le)
  have h2 := Nat.lt_floor_add_one (v / 2 ^ q)
  have hsteps : |((stepsOf .rne 0 neg v q : Nat) : ℚ) - v / 2 ^ q| ≤ 1 / 2 := by
    rw [stepsOf_eq]
    generalize hf : v / 2 ^ q - ⌊v / 2 ^ q⌋₊ = f
    split_ifs with hup
    · have : 1 / 2 ≤ f := by
        simp only [roundsUp, Bool.or_eq_true, Bool.and_eq_true, decide_eq_true_eq] at hup
        rcases hup with h | ⟨h, -⟩
        · exact h.le
        · exact h.ge
      push_cast
      rw [abs_le]
      constructor <;> linarith
    · have : f ≤ 1 / 2 := by
        simp only [roundsUp, Bool.or_eq_true, Bool.and_eq_true, decide_eq_true_eq, not_or] at hup
        exact not_lt.1 hup.1
      rw [abs_le]
      constructor <;> linarith
  have : (stepsOf .rne 0 neg v q : ℚ) * 2 ^ q - v = ((stepsOf .rne 0 neg v q : ℚ) - v / 2 ^ q) * 2 ^ q := by
    rw [sub_mul, div_mul_cancel₀ _ hp.ne']
  rw [this, abs_mul, abs_of_pos hp]
  linarith [mul_le_mul_of_nonneg_right hsteps hp.le]
/-- A number that rounds to a finite one has a finite one within half a spacing. -/
theorem nearest_place {neg : Bool} {v : ℚ} {r : Nat × Byte} (hv : 0 < v) (h : Rounded .f32 .rne 0 neg v r) (hf : r.2 &&& fOF = 0) :
    ∃ p : ℤ, p.natAbs ≤ topPlace ∧ |placeNum p - signedNum neg v| ≤ 2 ^ f32Ulp v / 2 := by
  rcases h.f32_cases (by decide) with ⟨h0, -⟩ | ⟨-, ⟨-, -, hf'⟩ | ⟨hle, -, -, -, -, hx, -⟩⟩
  · exact absurd h0 hv.ne'
  · rw [hf'] at hf
    exact absurd hf (by decide)
  · have hb : fpBody .f32 r.1 ≤ topPlace := by
      rw [← hx, f32Mag_le_iff] at hle
      exact hle
    have hclose := rne_close neg hv.le (f32Ulp v)
    rw [← hx] at hclose
    refine ⟨if neg then -(fpBody .f32 r.1 : ℤ) else fpBody .f32 r.1, by split <;> omega, ?_⟩
    rw [placeNum_signed]
    unfold signedNum
    split
    · rwa [neg_sub_neg, abs_sub_comm]
    · exact hclose

end Sys2Proof.Machine
end

section
/-! PROOFS. What a special function's choice within some spacings of an enclosure gives, with its flags (R144). -/

namespace Sys2Proof.Machine

/-! ## The rounding with no bound on the exponent (R124) -/

/-- A magnitude rounded to 24 bits, to nearest-even, with no bound on the exponent. -/
def wideRound (neg : Bool) (v : ℚ) : ℚ := stepsOf .rne 0 neg v (Int.log 2 v - 23) * 2 ^ (Int.log 2 v - 23)

theorem log_le {v : ℚ} (hv : 0 < v) : (2 : ℚ) ^ Int.log 2 v ≤ v := by exact_mod_cast Int.zpow_log_le_self (b := 2) (by norm_num) hv
theorem lt_log_succ (v : ℚ) : v < (2 : ℚ) ^ (Int.log 2 v + 1) := by exact_mod_cast Int.lt_zpow_succ_log_self (b := 2) (by norm_num) v
theorem log_lt_iff {v : ℚ} (hv : 0 < v) (n : ℤ) : Int.log 2 v < n ↔ v < 2 ^ n := by
  rw [← Int.lt_zpow_iff_log_lt (b := 2) (by norm_num) hv, Nat.cast_ofNat]
theorem le_log_iff {v : ℚ} (hv : 0 < v) (n : ℤ) : n ≤ Int.log 2 v ↔ (2 : ℚ) ^ n ≤ v := by
  rw [← Int.zpow_le_iff_le_log (b := 2) (by norm_num) hv, Nat.cast_ofNat]
theorem zpow_split {c d : ℤ} (h : d ≤ c) : (2 : ℚ) ^ c = ((2 ^ (c - d).toNat : Nat) : ℚ) * 2 ^ d := by
  rw [Nat.cast_pow, Nat.cast_ofNat, ← zpow_natCast, ← zpow_add₀ (by norm_num), Int.toNat_of_nonneg (by omega)]
  congr 1
  omega
/-- A multiple of the step that is not above a magnitude is not above its rounding. -/
theorem rne_ge (neg : Bool) {v : ℚ} {q : ℤ} {j : Nat} (h : (j : ℚ) * 2 ^ q ≤ v) : (j : ℚ) * 2 ^ q ≤ stepsOf .rne 0 neg v q * 2 ^ q := by
  have hp : (0 : ℚ) < 2 ^ q := by positivity
  have hj : j ≤ ⌊v / 2 ^ q⌋₊ := Nat.le_floor ((le_div_iff₀ hp).2 h)
  refine mul_le_mul_of_nonneg_right ?_ hp.le
  rw [stepsOf_eq]
  split <;> exact_mod_cast (by omega)
theorem wideRound_ge (neg : Bool) {v : ℚ} (hv : 0 < v) {n : ℤ} (h : (2 : ℚ) ^ n ≤ v) : (2 : ℚ) ^ n ≤ wideRound neg v := by
  have hn := (le_log_iff hv n).2 h
  have hw : (2 : ℚ) ^ Int.log 2 v ≤ wideRound neg v := by
    have h1 := log_le hv
    rw [zpow_split (show Int.log 2 v - 23 ≤ Int.log 2 v by omega)] at h1 ⊢
    exact rne_ge neg h1
  exact (zpow_le_zpow_right₀ (by norm_num) hn).trans hw
theorem wideRound_close (neg : Bool) {v : ℚ} (hv : 0 < v) : |wideRound neg v - v| ≤ 2 ^ (Int.log 2 v - 24) := by
  have h := rne_close neg hv.le (Int.log 2 v - 23)
  rwa [show (2 : ℚ) ^ (Int.log 2 v - 23) / 2 = 2 ^ (Int.log 2 v - 24) by
    rw [show Int.log 2 v - 23 = Int.log 2 v - 24 + 1 by ring, zpow_add_one₀ (by norm_num), mul_div_cancel_right₀ _ (by norm_num)]] at h
/-- A magnitude that rounds to less than 2 ^ -126 at the subnormal spacing, or inexactly so at its own, is tiny (R124). -/
theorem wide_tiny_iff (neg : Bool) {v : ℚ} (hv : 0 < v) (hl : Int.log 2 v < -126) :
    let x : ℚ := stepsOf .rne 0 neg v (f32Ulp v) * 2 ^ f32Ulp v
    (x ≠ v ∧ 0 < wideRound neg v ∧ wideRound neg v < 2 ^ (-126 : ℤ)) ∨ x < 2 ^ (-126 : ℤ) ↔ wideRound neg v < 2 ^ (-126 : ℤ) := by
  have hulp : f32Ulp v = -149 := by
    unfold f32Ulp
    omega
  have hclose := rne_close neg hv.le (-149)
  have hw := wideRound_close neg hv
  have hpow : (2 : ℚ) ^ (Int.log 2 v - 24) ≤ 2 ^ (-151 : ℤ) := zpow_le_zpow_right₀ (by norm_num) (by omega)
  have hlt := (log_lt_iff hv _).1 hl
  have hlow := log_le hv
  dsimp only
  rw [hulp]
  constructor
  · rintro (⟨-, -, h⟩ | hx)
    · exact h
    · generalize stepsOf .rne 0 neg v (-149) = n at *
      rw [zpow_split (show (-149 : ℤ) ≤ -126 by norm_num), mul_lt_mul_iff_left₀ (by positivity), Nat.cast_lt] at hx
      have hn : (n : ℚ) ≤ 2 ^ 23 - 1 := by
        have : (n : ℚ) + 1 ≤ (2 ^ 23 : Nat) := by exact_mod_cast hx
        push_cast at this
        linarith
      have h1 := mul_le_mul_of_nonneg_right hn (show (0 : ℚ) ≤ 2 ^ (-149 : ℤ) by positivity)
      rw [abs_le] at hclose hw
      norm_num at *
      linarith
  · intro h
    rcases lt_or_ge (stepsOf .rne 0 neg v (-149) * (2 : ℚ) ^ (-149 : ℤ)) (2 ^ (-126 : ℤ)) with hx | hx
    · exact .inr hx
    · exact .inl ⟨(hlt.trans_le hx).ne', lt_of_lt_of_le (by positivity) (wideRound_ge neg hv hlow), h⟩
/-- FP32's rounding overflows where the rounding with no bound does. -/
theorem wide_overflow_iff (neg : Bool) {v : ℚ} (hv : 0 < v) :
    f32Mag topPlace < stepsOf .rne 0 neg v (f32Ulp v) * 2 ^ f32Ulp v ↔ f32Mag topPlace < wideRound neg v := by
  rcases le_or_gt (-126) (Int.log 2 v) with h | h
  · have : f32Ulp v = Int.log 2 v - 23 := by
      unfold f32Ulp
      omega
    rw [this]
    rfl
  · have hulp : f32Ulp v = -149 := by
      unfold f32Ulp
      omega
    have hlt := (log_lt_iff hv _).1 h
    have hclose := rne_close neg hv.le (-149)
    have hw := wideRound_close neg hv
    have hpow : (2 : ℚ) ^ (Int.log 2 v - 24) ≤ 1 := zpow_le_one_of_nonpos₀ (by norm_num) (by omega)
    have htop : (2 : ℚ) ≤ f32Mag topPlace := by
      have : f32Mag 0x40000000 ≤ f32Mag topPlace := (f32Mag_le_iff ..).2 (by decide)
      refine le_trans ?_ this
      norm_num [f32Mag, magSteps, FTy.mbits]
    rw [hulp]
    rw [abs_le] at hclose hw
    norm_num at hlt hclose
    exact iff_of_false (by norm_num; linarith) (by linarith)

theorem smallest_normal_mag : f32Mag (2 ^ 23) = 2 ^ (-126 : ℤ) := by norm_num [f32Mag, magSteps, FTy.mbits]

/-! ## The choice and its flags (R144) -/

/-- The numbers of an enclosure. -/
def Enclosure.low (i : Enclosure) : ℚ := i.lo / i.den
def Enclosure.high (i : Enclosure) : ℚ := i.hi / i.den

theorem ulpExp_eq {num : ℤ} {den : Nat} (hn : num ≠ 0) (hd : 0 < den) : ulpExp num den = f32Ulp ((num.natAbs : ℚ) / den) := by
  have h := ratVal_same hn hd
  have hm : (ratVal num den).2.1 ≠ 0 := fun h0 => by
    have := h.pos
    rw [h0] at this
    simp at this
  have hlog := h.log
  rw [log_magnitude hm] at hlog
  change max (-149) (((ratVal num den).2.1.log2 : ℤ) + (ratVal num den).2.2 - 23) = _
  unfold f32Ulp
  omega
theorem flag_of (p q : Prop) [Decidable p] [Decidable q] :
    ((((if p then (0 : Byte) else fNX) ||| if q then fUF else 0) &&& fOF) = 0) ∧
      (((((if p then (0 : Byte) else fNX) ||| if q then fUF else 0) &&& fUF) != 0) = decide q) := by
  by_cases p <;> by_cases q <;> simp [*, fNX, fUF, fOF]
/-- A result within n spacings of an enclosure (R144). -/
def WithinEnclosure (i : Enclosure) (d : ℚ) (r : Nat) : Prop :=
  F32Fin r ∧ i.high - d ≤ fpNum .f32 r ∧ fpNum .f32 r ≤ i.low + d ∧ (0 < i.high - d → fpNeg .f32 r = false)

theorem abs_low (i : Enclosure) : |i.low| = (i.lo.natAbs : ℚ) / i.den := by
  unfold Enclosure.low
  rw [abs_div, Nat.abs_cast, Nat.cast_natAbs, Int.cast_abs]
/-- The choice of pickUlp: infinity where the rounding overflows, else within n spacings of the enclosure, UF where tiny. -/
theorem pickUlp_spec (fn : Nat) (x : Word) {i : Enclosure} {n : Nat} (hd : 0 < i.den) (hlo : i.lo ≠ 0) (hn : 1 ≤ n) :
    let neg := decide (i.lo < 0)
    if f32Mag topPlace < wideRound neg |i.low| then pickUlp fn x i n = (fpSigned .f32 neg (fpTopInf .f32), fOF ||| fNX)
    else (pickUlp fn x i n).2 = (fNX ||| if wideRound neg |i.low| < 2 ^ (-126 : ℤ) then fUF else 0) ∧
      (i.lo ≤ i.hi → i.high - i.low ≤ 2 ^ f32Ulp |i.low| / 2 → WithinEnclosure i (n * 2 ^ f32Ulp |i.low|) (pickUlp fn x i n).1) := by
  rw [abs_low]
  have hround := ratVal_rounded .rne (by decide) i.lo hd
  have hsame := ratVal_same hlo hd
  have hv := hsame.1
  have hulp := ulpExp_eq hlo hd
  have hsigned := signedNum_div i.lo i.den
  have hm : (ratVal i.lo i.den).2.1 ≠ 0 := fun h0 => by
    have := hsame.pos
    rw [h0] at this
    simp at this
  have hlog := hsame.log
  rw [log_magnitude hm] at hlog
  have hneg : (ratVal i.lo i.den).1 = decide (i.lo < 0) := rfl
  dsimp only
  unfold pickUlp
  dsimp only
  rw [hlog, hulp]
  rw [hneg] at hround ⊢
  generalize hr : roundTo .f32 .rne 0 (decide (i.lo < 0)) (ratVal i.lo i.den).2.1 (ratVal i.lo i.den).2.2 = r at *
  generalize hvd : (i.lo.natAbs : ℚ) / i.den = v at *
  rcases hround.f32_cases (by decide) with ⟨h0, -⟩ | ⟨-, ⟨hbig, hb, hf⟩ | ⟨hle, -, -, -, hb, hx, hf⟩⟩
  · exact absurd h0 hv.ne'
  · rw [if_pos ((wide_overflow_iff _ hv).1 hbig), if_pos (by rw [hf]; decide)]
    exact Prod.ext hb hf
  · have hof : r.2 &&& fOF = 0 := by rw [hf]; exact (flag_of _ _).1
    obtain ⟨p, hp, hclose⟩ := nearest_place hv hround hof
    rw [if_neg (by rw [← wide_overflow_iff _ hv]; exact not_lt.2 hle), if_neg (not_not.2 hof)]
    refine ⟨?_, fun hlohi hwidth => ?_⟩
    · have hbody : r.1 % 2 ^ 31 < 2 ^ 23 ↔ stepsOf .rne 0 (decide (i.lo < 0)) v (f32Ulp v) * (2 : ℚ) ^ f32Ulp v < 2 ^ (-126 : ℤ) := by
        rw [← hx, ← smallest_normal_mag, f32Mag_lt_iff]
        rfl
      have htiny : (decide (Int.log 2 v < FTy.emin .f32) && (r.2 &&& fUF != 0 || decide (r.1 % 2 ^ 31 < 2 ^ 23))) =
          decide (wideRound (decide (i.lo < 0)) v < 2 ^ (-126 : ℤ)) := by
        rw [hf, (flag_of _ _).2, decide_eq_decide.2 hbody, ← Bool.decide_or, ← Bool.decide_and]
        refine decide_eq_decide.2 ⟨fun ⟨hl, ht⟩ => (wide_tiny_iff _ hv hl).1 ht, fun hw => ?_⟩
        have hl : Int.log 2 v < -126 := (log_lt_iff hv _).2 (lt_of_not_ge fun hge => not_le.2 hw (wideRound_ge _ hv hge))
        exact ⟨hl, (wide_tiny_iff _ hv hl).2 hw⟩
      rw [htiny]
      simp only [decide_eq_true_eq]
    · rw [hsigned] at hclose
      have hclose := abs_le.1 hclose
      have hone : (1 : ℚ) * 2 ^ f32Ulp v ≤ n * 2 ^ f32Ulp v := mul_le_mul_of_nonneg_right (by exact_mod_cast hn) (by positivity)
      have h1 : i.high - n * 2 ^ f32Ulp v ≤ placeNum p := by
        change i.high - i.lo / i.den ≤ _ at hwidth
        linarith
      have h2 : placeNum p ≤ i.low + n * 2 ^ f32Ulp v := by
        change _ ≤ (i.lo : ℚ) / i.den + _
        have : (0 : ℚ) < 2 ^ f32Ulp v := by positivity
        linarith
      split
      case isTrue hu =>
        have hstep : (((n * 2 ^ (f32Ulp v).toNat : Nat) : ℤ) : ℚ) / (1 : Nat) = n * 2 ^ f32Ulp v := by
          rw [Int.cast_natCast, Nat.cast_one, div_one, Nat.cast_mul, zpow_split hu, zpow_zero, mul_one, Int.sub_zero]
        exact pickWithin_spec fn x i _ hd one_pos (by rw [hstep]; rfl) (by rw [hstep]; rfl) hp h1 h2
      case isFalse hu =>
        have hstep : ((n : ℤ) : ℚ) / (2 ^ (-f32Ulp v).toNat : Nat) = n * 2 ^ f32Ulp v := by
          have hz := zpow_split (show 0 ≤ -f32Ulp v by omega)
          rw [zpow_zero, mul_one, Int.sub_zero, zpow_neg] at hz
          rw [Int.cast_natCast, ← hz, div_inv_eq_mul]
        exact pickWithin_spec fn x i _ hd (by positivity) (by rw [hstep]; rfl) (by rw [hstep]; rfl) hp h1 h2

end Sys2Proof.Machine
end

section
/-! PROOFS. What a special function's choice within an absolute bound gives (R144). -/

namespace Sys2Proof.Machine

/-- A small number has a finite pattern within 2 ^ -23. -/
theorem small_place (num : ℤ) {den : Nat} (hd : 0 < den) (h : |(num : ℚ) / den| < 4) :
    ∃ p : ℤ, p.natAbs ≤ topPlace ∧ |placeNum p - num / den| ≤ 1 / 2 ^ 23 := by
  rcases eq_or_ne num 0 with rfl | hn
  · refine ⟨0, Nat.zero_le _, ?_⟩
    have : placeNum 0 = 0 := f32Mag_zero
    rw [this]
    norm_num
  · have hround := ratVal_rounded .rne (by decide) num hd
    have hv := (ratVal_same hn hd).1
    have hsigned := signedNum_div num den
    have habs : |(num : ℚ) / den| = (num.natAbs : ℚ) / den := by rw [abs_div, Nat.abs_cast, Nat.cast_natAbs, Int.cast_abs]
    rw [habs] at h
    generalize (num.natAbs : ℚ) / den = v at *
    generalize roundTo .f32 .rne 0 _ _ _ = r at *
    have hlog : Int.log 2 v < 2 := (log_lt_iff hv 2).2 (by norm_num; exact h)
    have hulp : (2 : ℚ) ^ f32Ulp v ≤ 2 ^ (-22 : ℤ) := zpow_le_zpow_right₀ (by norm_num) (by unfold f32Ulp; omega)
    have hof : r.2 &&& fOF = 0 := by
      rcases hround.f32_cases (by decide) with ⟨h0, -⟩ | ⟨-, ⟨hbig, -, -⟩ | ⟨-, -, -, -, -, -, hf⟩⟩
      · exact absurd h0 hv.ne'
      · have hclose := (abs_le.1 (rne_close (decide (num < 0)) hv.le (f32Ulp v))).2
        have htop : f32Mag 0x41000000 ≤ f32Mag topPlace := (f32Mag_le_iff ..).2 (by decide)
        have h8 : f32Mag 0x41000000 = 8 := by norm_num [f32Mag, magSteps, FTy.mbits]
        norm_num at hulp
        linarith
      · rw [hf]
        exact (flag_of _ _).1
    obtain ⟨p, hp, hclose⟩ := nearest_place hv hround hof
    rw [hsigned] at hclose
    refine ⟨p, hp, hclose.trans ?_⟩
    norm_num at hulp ⊢
    linarith
/-- The choice of pickAbs lies within the bound of a small enclosure. -/
theorem pickAbs_spec (fn : Nat) (x : Word) {i : Enclosure} {k : Nat} (hk : k ≤ 22) (hd : 0 < i.den) (hlow : |i.low| < 4)
    (hwidth : i.high - i.low ≤ 1 / 2 ^ 23) : WithinEnclosure i (1 / 2 ^ k) (pickAbs fn x i 1 (2 ^ k)).1 := by
  obtain ⟨p, hp, hclose⟩ := small_place i.lo hd hlow
  have hclose := abs_le.1 hclose
  have hpow : (1 : ℚ) / 2 ^ 22 ≤ 1 / 2 ^ k := one_div_le_one_div_of_le (by positivity) (pow_le_pow_right₀ (by norm_num) hk)
  have hstep : ((1 : ℤ) : ℚ) / (2 ^ k : Nat) = 1 / 2 ^ k := by push_cast; rfl
  refine pickWithin_spec fn x i 1 hd (by positivity) (by rw [hstep]; rfl) (by rw [hstep]; rfl) hp ?_ ?_
  · change i.high - i.lo / i.den ≤ _ at hwidth
    norm_num at *
    linarith
  · change _ ≤ (i.lo : ℚ) / i.den + _
    norm_num at *
    linarith

end Sys2Proof.Machine
end

section
/-! PROOFS. FRCP (R144). -/

namespace Sys2Proof.Machine

/-! ## Powers of two -/

theorem largest_f32 : f32Mag topPlace = ((2 ^ 24 - 1 : Nat) : ℚ) * 2 ^ (104 : ℤ) := by
  have h : magSteps .f32 topPlace = (2 ^ 24 - 1) * 2 ^ 253 := rfl
  unfold f32Mag
  rw [h, Nat.cast_mul, mul_assoc, Nat.cast_pow, Nat.cast_ofNat, ← zpow_natCast, ← zpow_add₀ (by norm_num)]
  rfl
theorem f32Ulp_pow {n : ℤ} (h : -126 ≤ n) : f32Ulp (2 ^ n) = n - 23 := by
  have : Int.log 2 ((2 : ℚ) ^ n) = n := Int.log_zpow (b := 2) (by norm_num) n
  unfold f32Ulp
  omega
/-- A power of two, not below the smallest subnormal, is exact or overflows. -/
theorem roundTo_pow (neg : Bool) {n : ℤ} (h : -149 ≤ n) : f32Pow neg n (roundTo .f32 .rne 0 neg 1 n) := by
  have hr := roundTo_rounded .f32 .rne (rnd := 0) (by norm_num) neg 1 n
  generalize roundTo .f32 .rne 0 neg 1 n = r at *
  unfold f32Pow
  split
  case isTrue hbig =>
    have hgt : f32Mag topPlace < 2 ^ n := by
      have : (2 : ℚ) ^ (128 : ℤ) ≤ 2 ^ n := zpow_le_zpow_right₀ (by norm_num) hbig
      rw [zpow_split (show (104 : ℤ) ≤ 128 by norm_num)] at this
      refine lt_of_lt_of_le ?_ this
      rw [largest_f32, mul_lt_mul_iff_left₀ (by positivity), Nat.cast_lt]
      decide
    have hw := stepsOf_whole .rne (rnd := 0) (by norm_num) neg 1 (show n - 23 ≤ n by omega)
    rw [Nat.cast_one, one_mul] at hw hr
    rcases hr.f32_cases (by decide) with ⟨h0, -⟩ | ⟨-, ⟨-, hb, hf⟩ | ⟨hle, -⟩⟩
    · exact absurd h0 (by positivity)
    · exact Prod.ext hb hf
    · rw [f32Ulp_pow (by omega), hw] at hle
      exact absurd hle (not_le.2 hgt)
  case isFalse hbig =>
    have hmax : ((1 : Nat) : ℚ) * 2 ^ n ≤ fpMag .f32 (fpLargest .f32) := by
      have : (2 : ℚ) ^ n ≤ 2 ^ (127 : ℤ) := zpow_le_zpow_right₀ (by norm_num) (not_lt.1 hbig)
      rw [zpow_split (show (104 : ℤ) ≤ 127 by norm_num)] at this
      rw [largest_mag, largest_f32, Nat.cast_one, one_mul]
      refine this.trans (mul_le_mul_of_nonneg_right ?_ (by positivity))
      exact Nat.cast_le.2 (by decide)
    obtain ⟨hlt, hn, hi, hs, hm, hf⟩ := hr.exact (by norm_num [FTy.mbits]) (show -149 ≤ n from h) hmax
    exact ⟨hf, hlt, hn, hi, hs, by rw [hm, Nat.cast_one, one_mul]⟩
/-- A mantissa is a power of two exactly where the magnitude is. -/
theorem isPow2_iff {m : Nat} (hm : m ≠ 0) (e : ℤ) : isPow2 m = true ↔ (m : ℚ) * 2 ^ e = 2 ^ Int.log 2 ((m : ℚ) * 2 ^ e) := by
  have hb : (m != 0) = true := by simpa using hm
  rw [log_magnitude hm, zpow_add₀ (by norm_num), mul_left_inj' (by positivity), zpow_natCast]
  unfold isPow2
  rw [hb, Bool.true_and, decide_eq_true_eq, eq_comm]
  norm_cast

/-! ## FRCP -/

/-- A reciprocal with a sign, in lowest form or not. -/
theorem rcp_low (neg : Bool) {m : Nat} (hm : m ≠ 0) (e : ℤ) (num : Nat) (den : Nat) (h : (num : ℚ) / den = 1 / (m * 2 ^ e)) (hd : 0 < den)
    (lo : ℤ) (hlo : lo = (if neg then -1 else 1) * (num : ℤ)) :
    lo ≠ 0 ∧ decide (lo < 0) = neg ∧ (lo : ℚ) / den = (if neg then -1 else 1) * (1 / (m * 2 ^ e)) := by
  have hd' : (0 : ℚ) < den := by exact_mod_cast hd
  have hn : 0 < num := by
    have : 0 < (num : ℚ) / den := by rw [h]; positivity
    exact_mod_cast (div_pos_iff_of_pos_right hd').1 this
  subst hlo
  refine ⟨?_, ?_, ?_⟩
  · cases neg <;> simp [hn.ne']
  · cases neg <;> simp [hn]
  · rw [← h]
    by_cases neg <;> simp [*, neg_div]
/-- The choice within one spacing of a reciprocal. -/
theorem pickUlp_rcp (x : Word) {neg : Bool} {m : Nat} {e : ℤ} (hm : m ≠ 0) (num den : Nat) (h : (num : ℚ) / den = 1 / (m * 2 ^ e)) (hd : 0 < den)
    {lo : ℤ} (hlo : lo = (if neg then -1 else 1) * (num : ℤ)) :
    let y : ℚ := 1 / (m * 2 ^ e)
    let r := pickUlp 0 x ⟨lo, lo, den⟩ 1
    if f32Mag topPlace < wideRound neg y then r = (fpSigned .f32 neg (fpTopInf .f32), fOF ||| fNX)
    else F32Fin r.1 ∧ |fpNum .f32 r.1 - (if neg then -1 else 1) * y| ≤ 2 ^ f32Ulp y ∧
      r.2 = fNX ||| if wideRound neg y < 2 ^ (-126 : ℤ) then fUF else 0 := by
  obtain ⟨h0, hneg, hlow⟩ := rcp_low neg hm e num den h hd lo hlo
  have hspec := pickUlp_spec 0 x (i := ⟨lo, lo, den⟩) (n := 1) hd h0 le_rfl
  have habs : |(⟨lo, lo, den⟩ : Enclosure).low| = 1 / (m * 2 ^ e) := by
    rw [show (⟨lo, lo, den⟩ : Enclosure).low = _ from hlow, abs_mul, abs_of_pos (show (0 : ℚ) < 1 / (m * 2 ^ e) by positivity)]
    cases neg <;> simp
  dsimp only at hspec ⊢
  rw [habs, hneg] at hspec
  split
  case isTrue hbig =>
    rw [if_pos hbig] at hspec
    exact hspec
  case isFalse hbig =>
    rw [if_neg hbig] at hspec
    obtain ⟨hflags, hin⟩ := hspec
    obtain ⟨hfin, h1, h2, -⟩ := hin le_rfl (by
      change (lo : ℚ) / den - lo / den ≤ _
      rw [sub_self]
      positivity)
    refine ⟨hfin, ?_, hflags⟩
    change (lo : ℚ) / den - _ ≤ _ at h1
    change _ ≤ (lo : ℚ) / den + _ at h2
    rw [hlow, Nat.cast_one, one_mul] at h1 h2
    rw [abs_le]
    constructor <;> linarith
/-- FRCP (R144). -/
theorem fpRcp_rcpIs (x : Word) : RcpIs x.toNat (fpRcp x) := by
  unfold RcpIs fpRcp
  have hviews := fval_views .f32 x.toNat
  generalize hv : fval .f32 x.toNat = v at *
  cases hviews with
  | nan hn hi =>
    rw [hn, if_pos rfl]
    cases fpSnan .f32 x.toNat <;> rfl
  | inf hn hi =>
    rw [hn, hi]
    exact Prod.ext (withSign_eq ..) rfl
  | fin m e hn hi hm =>
    rw [hn, hi, hm]
    dsimp only
    by_cases h0 : m = 0
    · subst h0
      rw [if_pos rfl, if_neg (by decide), if_neg (by decide), if_pos (by simp), withSign_eq, infBits_eq]
    · have hform := fval_f32_fin hv
      have hpos : (0 : ℚ) < m * 2 ^ e := by positivity
      rw [if_neg (by decide), if_neg (by decide), if_neg hpos.ne', if_neg h0]
      by_cases hpow : isPow2 m = true
      · have hlog := log_magnitude h0 e
        rw [if_pos ((isPow2_iff h0 e).1 hpow), if_pos hpow, hlog]
        have hlt : m.log2 < 24 := (Nat.log2_lt h0).2 (by rcases hform with h | h <;> omega)
        have he : e ≤ 104 := by rcases hform with h | h <;> omega
        exact roundTo_pow _ (by omega)
      · rw [if_neg (fun h => hpow ((isPow2_iff h0 e).2 h)), if_neg hpow]
        have hsgn : 1 / fpNum .f32 x.toNat = (if fpNeg .f32 x.toNat then -1 else 1) * (1 / (m * 2 ^ e)) := by
          unfold fpNum
          rw [hm]
          cases fpNeg .f32 x.toNat <;> simp [inv_neg]
        rw [largest_mag, hsgn]
        generalize fpNeg .f32 x.toNat = neg at *
        rcases le_or_gt 0 e with he | he
        · rw [if_pos he]
          refine pickUlp_rcp (neg := neg) x h0 1 _ ?_ (by positivity) (by simp)
          push_cast
          rw [← zpow_natCast, Int.toNat_of_nonneg he]
        · rw [if_neg (not_le.2 he)]
          refine pickUlp_rcp (neg := neg) x h0 (2 ^ e.natAbs) m ?_ (by omega) rfl
          push_cast
          rw [← zpow_natCast, Int.ofNat_natAbs_of_nonpos he.le, zpow_neg]
          field_simp

end Sys2Proof.Machine
end

section
/-! PROOFS. Integer square roots, FSQRT and FRSQ (R144). -/

namespace Sys2Proof.Machine

/-! ## Integer square roots -/

theorem isqrtFrom_spec (n k r : Nat) (h1 : r * r ≤ n) (h2 : n < (r + 2 ^ (k + 1)) * (r + 2 ^ (k + 1))) :
    isqrtFrom n k r * isqrtFrom n k r ≤ n ∧ n < (isqrtFrom n k r + 1) * (isqrtFrom n k r + 1) := by
  induction k generalizing r with
  | zero =>
    unfold isqrtFrom
    split
    case isTrue h => exact ⟨h, by simpa [Nat.add_assoc] using h2⟩
    case isFalse h => exact ⟨h1, not_le.1 h⟩
  | succ k ih =>
    unfold isqrtFrom
    split
    case isTrue h =>
      refine ih _ h ?_
      rwa [Nat.add_assoc, ← Nat.two_mul, ← Nat.pow_succ']
    case isFalse h => exact ih _ h1 (not_le.1 h)
theorem isqrt_spec (n : Nat) : isqrt n * isqrt n ≤ n ∧ n < (isqrt n + 1) * (isqrt n + 1) := by
  refine isqrtFrom_spec n _ 0 (Nat.zero_le _) ?_
  rw [Nat.zero_add, ← Nat.pow_add]
  exact Nat.lt_log2_self.trans_le (Nat.pow_le_pow_right (by decide) (by omega))

/-- A magnitude with an even exponent. -/
theorem evenForm_spec (man : Nat) (exp : ℤ) (extra : Nat) :
    ((evenForm man exp extra).1 : ℚ) * 2 ^ (2 * (evenForm man exp extra).2) = man * 2 ^ exp ∧
      man * 2 ^ (2 * extra) ≤ (evenForm man exp extra).1 := by
  have hp (c : ℤ) : (2 : ℚ) ^ (2 * extra) * 2 ^ (2 * (c - extra)) = 2 ^ (2 * c) := by
    rw [← zpow_natCast, ← zpow_add₀ (by norm_num)]
    congr 1
    push_cast
    ring
  unfold evenForm
  split
  case isTrue h =>
    refine ⟨?_, le_rfl⟩
    push_cast
    rw [mul_assoc, hp, show 2 * (exp / 2) = exp by omega]
  case isFalse h =>
    refine ⟨?_, ?_⟩
    · push_cast
      rw [mul_assoc, hp, show 2 * ((exp - 1) / 2) = exp - 1 by omega, zpow_sub_one₀ (by norm_num)]
      ring
    · rw [Nat.mul_assoc]
      exact Nat.le_mul_of_pos_left _ (by decide)

theorem zpow_double (e : ℤ) : (2 : ℚ) ^ (2 * e) = (2 ^ e) ^ 2 := by rw [two_mul, zpow_add₀ (by norm_num), sq]
/-- w stands to every multiple of a power of two, from 2 ^ e on, as the root of x does. -/
def RootOf (w x : ℚ) (e : ℤ) : Prop :=
  0 < w ∧ ∀ (j : Nat) (c : ℤ), e ≤ c → ((j : ℚ) * 2 ^ c ≤ w ↔ ((j : ℚ) * 2 ^ c) ^ 2 ≤ x) ∧ (w ≤ j * 2 ^ c ↔ x ≤ ((j : ℚ) * 2 ^ c) ^ 2)

/-- A number half a step above r, among whole ones. -/
theorem half_step (r J : Nat) : ((J : ℚ) ≤ r + 1 / 2 ↔ J ≤ r) ∧ ((r : ℚ) + 1 / 2 ≤ J ↔ r + 1 ≤ J) := by
  refine ⟨⟨fun h => ?_, fun h => ?_⟩, ⟨fun h => ?_, fun h => ?_⟩⟩
  · have : (J : ℚ) < (r + 1 : Nat) := by push_cast; linarith
    have : J < r + 1 := by exact_mod_cast this
    omega
  · have : (J : ℚ) ≤ r := by exact_mod_cast h
    linarith
  · have : (r : ℚ) < J := by linarith
    have : r < J := by exact_mod_cast this
    omega
  · have : ((r + 1 : Nat) : ℚ) ≤ J := by exact_mod_cast h
    push_cast at this
    linarith
/-- The integer root with its sticky bit. -/
theorem isqrt_root {m : Nat} (hm : 0 < m) (e : ℤ) :
    RootOf (((2 * isqrt m + if isqrt m * isqrt m = m then 0 else 1 : Nat) : ℚ) * 2 ^ (e - 1)) (m * 2 ^ (2 * e)) e := by
  obtain ⟨h1, h2⟩ := isqrt_spec m
  generalize isqrt m = r at *
  have hr : 0 < r := Nat.pos_of_ne_zero fun h0 => by
    subst h0
    omega
  have hp : (0 : ℚ) < 2 ^ e := by positivity
  have hw : ((2 * r + if r * r = m then 0 else 1 : Nat) : ℚ) * 2 ^ (e - 1) = (r + if r * r = m then 0 else 1 / 2) * 2 ^ e := by
    rw [zpow_sub_one₀ (by norm_num)]
    push_cast
    split <;> ring
  rw [hw]
  refine ⟨mul_pos ?_ hp, fun j c hc => ?_⟩
  · have : (0 : ℚ) < r := by exact_mod_cast hr
    split <;> linarith
  · rw [zpow_split hc, ← mul_assoc, ← Nat.cast_mul]
    generalize j * 2 ^ (c - e).toNat = J
    have hsq : ((J : ℚ) * 2 ^ e) ^ 2 = ((J * J : Nat) : ℚ) * 2 ^ (2 * e) := by
      rw [zpow_double]
      push_cast
      ring
    rw [hsq, mul_le_mul_iff_left₀ hp, mul_le_mul_iff_left₀ hp, mul_le_mul_iff_left₀ (by positivity), mul_le_mul_iff_left₀ (by positivity),
      Nat.cast_le, Nat.cast_le]
    have hJ1 : J ≤ r ↔ J * J ≤ m := ⟨fun h => (Nat.mul_le_mul h h).trans h1, fun h => by
      by_contra hlt
      have := Nat.mul_le_mul (show r + 1 ≤ J by omega) (show r + 1 ≤ J by omega)
      omega⟩
    have hJ2 : m ≤ J * J ↔ if r * r = m then r ≤ J else r + 1 ≤ J := by
      split
      case isTrue h =>
        rw [← h]
        exact Nat.mul_self_le_mul_self_iff
      case isFalse h =>
        refine ⟨fun hx => ?_, fun hx => h2.le.trans (Nat.mul_le_mul hx hx)⟩
        by_contra hlt
        have := Nat.mul_le_mul (show J ≤ r by omega) (show J ≤ r by omega)
        omega
    rw [← hJ1, hJ2]
    split
    case isTrue h => simp
    case isFalse h => exact half_step r J

/-! ## FSQRT -/

section
variable {w x : ℚ} {e : ℤ} (h : RootOf w x e)
include h
/-- The exponent of a root. -/
theorem RootOf.log (hl : e ≤ Int.log 2 w) : (2 : ℚ) ^ (2 * Int.log 2 w) ≤ x ∧ x < 2 ^ (2 * (Int.log 2 w + 1)) := by
  obtain ⟨h1, -⟩ := h.2 1 (Int.log 2 w) hl
  obtain ⟨h2, -⟩ := h.2 1 (Int.log 2 w + 1) (by omega)
  rw [Nat.cast_one, one_mul, ← zpow_double] at h1 h2
  exact ⟨h1.1 (log_le h.1), lt_of_not_ge fun hx => not_le.2 (lt_log_succ w) (h2.2 hx)⟩
/-- A root rounded to nearest lies within half a step. -/
theorem RootOf.nearest (hl : e + 24 ≤ Int.log 2 w) {n : Nat} (hn : 0 < n)
    (hclose : |(n : ℚ) * 2 ^ (Int.log 2 w - 23) - w| ≤ 2 ^ (Int.log 2 w - 23) / 2) :
    (2 * (n : ℚ) - 1) ^ 2 * 2 ^ (2 * (Int.log 2 w - 23)) ≤ 4 * x ∧ 4 * x ≤ (2 * (n : ℚ) + 1) ^ 2 * 2 ^ (2 * (Int.log 2 w - 23)) := by
  generalize hq : Int.log 2 w - 23 = q at *
  have hhalf : (2 : ℚ) ^ q = 2 * 2 ^ (q - 1) := by
    rw [← zpow_one_add₀ (by norm_num)]
    congr 1
    ring
  obtain ⟨h1, -⟩ := h.2 (2 * n - 1) (q - 1) (by omega)
  obtain ⟨-, h2⟩ := h.2 (2 * n + 1) (q - 1) (by omega)
  have hclose := abs_le.1 hclose
  have hcast : ((2 * n - 1 : Nat) : ℚ) = 2 * n - 1 := by
    rw [Nat.cast_sub (by omega)]
    push_cast
    rfl
  rw [hcast] at h1
  push_cast at h2
  rw [zpow_double, hhalf] at *
  have h1 := h1.1 (by linarith)
  have h2 := h2.1 (by linarith)
  constructor <;> linarith
end

/-- The size of a finite FP32 magnitude. -/
theorem f32_size {m : Nat} {e : ℤ} (hm : m ≠ 0) (hform : (m < 2 ^ 23 ∧ e = -149) ∨ (2 ^ 23 ≤ m ∧ m < 2 ^ 24 ∧ -149 ≤ e ∧ e ≤ 104)) :
    (2 : ℚ) ^ (-149 : ℤ) ≤ m * 2 ^ e ∧ (m : ℚ) * 2 ^ e < 2 ^ (128 : ℤ) := by
  have h1 : (1 : ℚ) ≤ m := by exact_mod_cast Nat.one_le_iff_ne_zero.2 hm
  have h2 : (m : ℚ) < 2 ^ 24 := by exact_mod_cast (show m < 2 ^ 24 by rcases hform with h | h <;> omega)
  have h3 : (2 : ℚ) ^ (-149 : ℤ) ≤ 2 ^ e := zpow_le_zpow_right₀ (by norm_num) (by rcases hform with h | h <;> omega)
  have h4 : (2 : ℚ) ^ e ≤ 2 ^ (104 : ℤ) := zpow_le_zpow_right₀ (by norm_num) (by rcases hform with h | h <;> omega)
  constructor
  · nlinarith [show (0 : ℚ) < 2 ^ e by positivity]
  · calc (m : ℚ) * 2 ^ e ≤ m * 2 ^ (104 : ℤ) := mul_le_mul_of_nonneg_left h4 (by positivity)
      _ < 2 ^ 24 * 2 ^ (104 : ℤ) := mul_lt_mul_of_pos_right h2 (by positivity)
      _ = 2 ^ (128 : ℤ) := by norm_num
/-- The integer root has a step of its own that is much finer than the result's. -/
theorem RootOf.fine {w x : ℚ} {e : ℤ} (h : RootOf w x e) {m k : Nat} (hx : x = m * 2 ^ (2 * e)) (hk : 2 ^ (2 * k) ≤ m) : e + k ≤ Int.log 2 w := by
  obtain ⟨h1, -⟩ := h.2 1 (e + k) (by omega)
  refine (le_log_iff h.1 _).2 ?_
  rw [Nat.cast_one, one_mul] at h1
  refine h1.2 ?_
  have hk' : (2 : ℚ) ^ (2 * k) ≤ m := by exact_mod_cast hk
  calc ((2 : ℚ) ^ (e + k)) ^ 2 = 2 ^ (2 * k) * 2 ^ (2 * e) := by
        rw [zpow_add₀ (by norm_num), zpow_natCast, zpow_double, pow_mul']
        ring
    _ ≤ x := hx ▸ mul_le_mul_of_nonneg_right hk' (by positivity)
theorem zpow_lt_iff {a b : ℤ} : (2 : ℚ) ^ a < 2 ^ b ↔ a < b := zpow_lt_zpow_iff_right₀ (by norm_num)
theorem zpow_le_iff {a b : ℤ} : (2 : ℚ) ^ a ≤ 2 ^ b ↔ a ≤ b := zpow_le_zpow_iff_right₀ (by norm_num)
/-- A magnitude that is far from both ends is rounded without overflow or underflow. -/
theorem Rounded.plain {neg : Bool} {v : ℚ} {r : Nat × Byte} (h : Rounded .f32 .rne 0 neg v r) (hv : 0 < v) (h1 : -126 ≤ Int.log 2 v)
    (h2 : Int.log 2 v ≤ 100) :
    F32Fin r.1 ∧ fpNeg .f32 r.1 = neg ∧ fpMag .f32 r.1 = wideRound neg v ∧ r.2 = if wideRound neg v = v then 0 else fNX := by
  have hulp : f32Ulp v = Int.log 2 v - 23 := by
    unfold f32Ulp
    omega
  have hge := wideRound_ge neg hv (log_le hv)
  have hnormal := zpow_le_iff.2 h1
  have htiny : ¬wideRound neg v < 2 ^ (-126 : ℤ) := not_lt.2 (hnormal.trans hge)
  have hle : wideRound neg v ≤ f32Mag topPlace := by
    have hc := (abs_le.1 (wideRound_close neg hv)).2
    have h3 : (2 : ℚ) ^ (Int.log 2 v + 1) ≤ 2 ^ (101 : ℤ) := zpow_le_iff.2 (by omega)
    have h4 : (2 : ℚ) ^ (Int.log 2 v - 24) ≤ 2 ^ (101 : ℤ) := zpow_le_iff.2 (by omega)
    have h5 := lt_log_succ v
    rw [largest_f32]
    norm_num at *
    linarith
  rcases h.f32_cases (by decide) with ⟨h0, -⟩ | ⟨-, ⟨hbig, -, -⟩ | ⟨-, hlt, hn, hi, hs, hx, hf⟩⟩
  · exact absurd h0 hv.ne'
  · exact absurd ((wide_overflow_iff neg hv).1 hbig) (not_lt.2 hle)
  · rw [hulp] at hx hf
    change f32Mag _ = wideRound neg v at hx
    change r.2 = (if wideRound neg v = v then 0 else fNX) ||| (if wideRound neg v ≠ v ∧ 0 < wideRound neg v ∧ wideRound neg v < 2 ^ (-126 : ℤ) then fUF else 0) at hf
    rw [if_neg (c := _ ∧ _) fun hc => htiny hc.2.2, or_zero] at hf
    refine ⟨⟨hlt, hn, hi⟩, ?_, by rw [fpMag_f32, hx], hf⟩
    rw [hs]
    exact (fpFields_signed .f32 neg (fpBody_lt .f32 r.1)).1

/-- FSQRT (R144). -/
theorem fpSqrt_sqrtIs (x : Word) : SqrtIs x.toNat (fpSqrt x) := by
  unfold SqrtIs fpSqrt
  have hviews := fval_views .f32 x.toNat
  generalize hv : fval .f32 x.toNat = v at *
  cases hviews with
  | nan hn hi =>
    rw [hn, if_pos rfl]
    cases fpSnan .f32 x.toNat <;> rfl
  | inf hn hi =>
    rw [hn, hi]
    cases fpNeg .f32 x.toNat <;> rfl
  | fin m e hn hi hm =>
    rw [hn, hi, hm]
    dsimp only
    by_cases h0 : m = 0
    · subst h0
      rw [if_pos rfl, if_neg (by decide), if_pos ⟨rfl, by simp⟩]
    · have hpos : (0 : ℚ) < m * 2 ^ e := by positivity
      rw [if_neg (by decide), if_neg fun h => hpos.ne' h.2, if_neg h0]
      by_cases hneg : fpNeg .f32 x.toNat = true
      · rw [if_pos hneg, if_pos hneg]
        rfl
      · rw [if_neg hneg, if_neg hneg, if_neg (by decide)]
        obtain ⟨hmin, hmax⟩ := f32_size h0 (fval_f32_fin hv)
        obtain ⟨hx, hbig⟩ := evenForm_spec m e 32
        generalize evenForm m e 32 = p at *
        obtain ⟨k, c⟩ := p
        dsimp only at hx hbig ⊢
        have hk : 2 ^ (2 * 32) ≤ k := (Nat.le_mul_of_pos_left _ (Nat.pos_of_ne_zero h0)).trans hbig
        have hroot := isqrt_root (show 0 < k by omega) c
        have hround := roundTo_rounded .f32 .rne (rnd := 0) (by norm_num) false (2 * isqrt k + if isqrt k * isqrt k = k then 0 else 1) (c - 1)
        have hfine := hroot.fine rfl hk
        rw [hx] at hroot
        obtain ⟨hl1, hl2⟩ := hroot.log (by omega)
        have hlow := zpow_lt_iff.1 (hmin.trans_lt hl2)
        have hhigh := zpow_lt_iff.1 (hl1.trans_lt hmax)
        generalize (((2 * isqrt k + if isqrt k * isqrt k = k then 0 else 1 : Nat) : ℚ) * 2 ^ (c - 1)) = w at *
        obtain ⟨hfin, hs, hmag, hflags⟩ := hround.plain hroot.1 (by omega) (by omega)
        have hge := wideRound_ge false hroot.1 (log_le hroot.1)
        have hclose := rne_close false hroot.1.le (Int.log 2 w - 23)
        unfold wideRound at hmag hflags hge
        generalize stepsOf .rne 0 false w (Int.log 2 w - 23) = n at *
        have hn : 0 < n := Nat.pos_of_ne_zero fun hz => by
          rw [hz, Nat.cast_zero, zero_mul] at hge
          exact absurd hge (not_le.2 (by positivity))
        obtain ⟨hA, hB⟩ := hroot.nearest (by omega) hn hclose
        obtain ⟨he1, he2⟩ := hroot.2 n (Int.log 2 w - 23) (by omega)
        refine ⟨hfin, hs, n, Int.log 2 w - 23, ?_, ?_, hmag, hA, hB, ?_⟩
        · rwa [Int.sub_add_cancel]
        · rwa [show Int.log 2 w - 23 + 24 = Int.log 2 w + 1 by ring]
        · rw [hflags]
          refine if_congr ?_ rfl rfl
          rw [le_antisymm_iff, he1, he2, zpow_double, ← mul_pow, ← le_antisymm_iff]

end Sys2Proof.Machine
end

section
/-! PROOFS. FRSQ (R144). -/

namespace Sys2Proof.Machine

/-- A narrow enclosure of the reciprocal root of x, of the size of an FP32 number's. -/
structure RsqEnclosure (i : Enclosure) (x : ℚ) : Prop where
  den : 0 < i.den
  pos : 0 < i.lo
  le : i.lo ≤ i.hi
  below : i.low ^ 2 * x ≤ 1
  above : 1 ≤ i.high ^ 2 * x
  narrow : i.high - i.low ≤ i.low / 2 ^ 64

theorem mul_zpow_le {a x : ℚ} {n m : ℤ} (ha : (2 : ℚ) ^ n ≤ a) (hx : (2 : ℚ) ^ m ≤ x) : (2 : ℚ) ^ (2 * n + m) ≤ a ^ 2 * x := by
  rw [zpow_add₀ (by norm_num), zpow_double]
  exact mul_le_mul (pow_le_pow_left₀ (by positivity) ha 2) hx (by positivity) (by positivity)
theorem mul_zpow_lt {a x : ℚ} {n m : ℤ} (h0 : 0 < a) (ha : a < (2 : ℚ) ^ n) (h1 : 0 < x) (hx : x < (2 : ℚ) ^ m) :
    a ^ 2 * x < (2 : ℚ) ^ (2 * n + m) := by
  rw [zpow_add₀ (by norm_num), zpow_double]
  exact mul_lt_mul (pow_lt_pow_left₀ ha h0.le (by norm_num)) hx.le h1 (by positivity)
section
variable {i : Enclosure} {x : ℚ} (h : RsqEnclosure i x)
include h
theorem RsqEnclosure.low_pos : 0 < i.low := by
  have := h.pos
  have := h.den
  unfold Enclosure.low
  positivity
/-- The exponents of such an enclosure. -/
theorem RsqEnclosure.log (h1 : (2 : ℚ) ^ (-149 : ℤ) ≤ x) (h2 : x < (2 : ℚ) ^ (128 : ℤ)) : -66 ≤ Int.log 2 i.low ∧ Int.log 2 i.low ≤ 74 := by
  have hlow := h.low_pos
  have hx : 0 < x := lt_of_lt_of_le (by positivity) h1
  constructor
  · have hhigh : i.high < 2 ^ (Int.log 2 i.low + 2) := by
      have := h.narrow
      have hlt := lt_log_succ i.low
      rw [show Int.log 2 i.low + 2 = Int.log 2 i.low + 1 + 1 by ring, zpow_add_one₀ (by norm_num)]
      norm_num at this
      linarith
    have hpos : 0 < i.high := lt_of_lt_of_le hlow (div_le_div_of_nonneg_right (by exact_mod_cast h.le) (by positivity))
    have := zpow_lt_iff.1 ((zpow_zero (2 : ℚ)).le.trans_lt (h.above.trans_lt (mul_zpow_lt hpos hhigh hx h2)))
    omega
  · have := zpow_le_iff.1 ((mul_zpow_le (log_le hlow) h1).trans (h.below.trans (zpow_zero (2 : ℚ)).ge))
    omega
/-- The choice within one spacing of such an enclosure (R144). -/
theorem RsqEnclosure.choice (h1 : (2 : ℚ) ^ (-149 : ℤ) ≤ x) (h2 : x < (2 : ℚ) ^ (128 : ℤ)) (fn : Nat) (w : Word) :
    let r := pickUlp fn w i 1
    F32Fin r.1 ∧ fpNeg .f32 r.1 = false ∧ r.2 = fNX ∧
      ∃ q : ℤ, (2 : ℚ) ^ (2 * (q + 23)) * x ≤ 1 ∧ 1 < (2 : ℚ) ^ (2 * (q + 24)) * x ∧
        (fpNum .f32 r.1 ≤ 2 ^ q ∨ (fpNum .f32 r.1 - 2 ^ q) ^ 2 * x ≤ 1) ∧ 1 ≤ (fpNum .f32 r.1 + 2 ^ q) ^ 2 * x := by
  have hlow := h.low_pos
  have hx : 0 < x := lt_of_lt_of_le (by positivity) h1
  obtain ⟨hl1, hl2⟩ := h.log h1 h2
  have hulp : f32Ulp i.low = Int.log 2 i.low - 23 := by
    unfold f32Ulp
    omega
  have hspec := pickUlp_spec fn w h.den h.pos.ne' le_rfl
  have hclose := (abs_le.1 (wideRound_close (decide (i.lo < 0)) hlow)).2
  have hge := wideRound_ge (decide (i.lo < 0)) hlow (log_le hlow)
  have hlt := lt_log_succ i.low
  have hnarrow := h.narrow
  have hloglow := log_le hlow
  dsimp only at hspec ⊢
  rw [abs_of_pos hlow, hulp, if_neg, if_neg, or_zero] at hspec
  · obtain ⟨hflags, hin⟩ := hspec
    have hu : (2 : ℚ) ^ Int.log 2 i.low = 2 ^ 23 * 2 ^ (Int.log 2 i.low - 23) := by
      rw [← zpow_natCast, ← zpow_add₀ (by norm_num)]
      congr 1
      push_cast
      ring
    obtain ⟨hfin, hA, hB, hS⟩ := hin h.le (by
      rw [zpow_add_one₀ (by norm_num), hu] at hlt
      norm_num at hnarrow ⊢
      linarith)
    rw [Nat.cast_one, one_mul] at hA hB hS
    generalize (pickUlp fn w i 1).1 = p at *
    set q : ℤ := Int.log 2 (1 / x) / 2 - 23 with hq
    have hinv : 0 < 1 / x := by positivity
    have hqle : Int.log 2 i.low ≤ q + 23 := by
      have : (2 : ℚ) ^ (2 * Int.log 2 i.low) ≤ 1 / x := by
        rw [le_div_iff₀ hx, zpow_double]
        exact (mul_le_mul_of_nonneg_right (pow_le_pow_left₀ (by positivity) hloglow 2) hx.le).trans h.below
      have := (le_log_iff hinv _).2 this
      omega
    have hqpow : (2 : ℚ) ^ (Int.log 2 i.low - 23) ≤ 2 ^ q := zpow_le_iff.2 (by omega)
    have hhigh : i.low ≤ i.high := div_le_div_of_nonneg_right (by exact_mod_cast h.le) (by positivity)
    have hp : (0 : ℚ) < 2 ^ (Int.log 2 i.low - 23) := by positivity
    refine ⟨hfin, hS (by linarith), hflags, q, ?_, ?_, ?_, ?_⟩
    · rw [← le_div_iff₀ hx]
      exact (zpow_le_iff.2 (by omega)).trans (log_le hinv)
    · rw [← div_lt_iff₀ hx]
      exact (lt_log_succ (1 / x)).trans_le (zpow_le_iff.2 (by omega))
    · rcases le_or_gt (fpNum .f32 p) (2 ^ q) with hle | hgt
      · exact .inl hle
      · refine .inr (le_trans ?_ h.below)
        exact mul_le_mul_of_nonneg_right (pow_le_pow_left₀ (by linarith) (by linarith) 2) hx.le
    · refine h.above.trans ?_
      exact mul_le_mul_of_nonneg_right (pow_le_pow_left₀ (by linarith) (by linarith) 2) hx.le
  · refine not_lt.2 (le_trans ?_ hge)
    exact zpow_le_iff.2 (by omega)
  · have h3 : (2 : ℚ) ^ (Int.log 2 i.low + 1) ≤ 2 ^ (101 : ℤ) := zpow_le_iff.2 (by omega)
    have h4 : (2 : ℚ) ^ (Int.log 2 i.low - 24) ≤ 2 ^ (101 : ℤ) := zpow_le_iff.2 (by omega)
    rw [largest_f32]
    norm_num at *
    linarith
end

/-- The reciprocals of an integer root and of its successor enclose the reciprocal root. -/
theorem rsq_enclosure {k : Nat} (hk : 2 ^ (2 * 64) ≤ k) {c : ℤ} {lo hi : ℤ} {den num : Nat} (hden : 0 < den)
    (hnum : 0 < num) (hlo : lo = num * (isqrt k : ℤ)) (hhi : hi = num * ((isqrt k : ℤ) + 1))
    (h : (num : ℚ) / den = 2 ^ (-c) / (isqrt k * (isqrt k + 1))) : RsqEnclosure ⟨lo, hi, den⟩ (k * 2 ^ (2 * c)) := by
  obtain ⟨h1, h2⟩ := isqrt_spec k
  generalize isqrt k = r at *
  have hr : 2 ^ 64 ≤ r := by
    by_contra hlt
    have := Nat.mul_le_mul (show r + 1 ≤ 2 ^ 64 by omega) (show r + 1 ≤ 2 ^ 64 by omega)
    norm_num at *
    omega
  have hrq : (2 : ℚ) ^ 64 ≤ r := by exact_mod_cast hr
  have hr0 : (0 : ℚ) < r := lt_of_lt_of_le (by positivity) hrq
  have hp : (0 : ℚ) < 2 ^ c := by positivity
  have hkq1 : (r : ℚ) ^ 2 ≤ k := by exact_mod_cast (sq r).trans_le h1
  have hkq2 : (k : ℚ) ≤ (r + 1) ^ 2 := by exact_mod_cast h2.le.trans_eq (sq _).symm
  have hl : (⟨lo, hi, den⟩ : Enclosure).low = 2 ^ (-c) / (r + 1) := by
    unfold Enclosure.low
    dsimp only
    rw [hlo]
    push_cast
    rw [mul_div_right_comm, h]
    field_simp
  have hh : (⟨lo, hi, den⟩ : Enclosure).high = 2 ^ (-c) / r := by
    unfold Enclosure.high
    dsimp only
    rw [hhi]
    push_cast
    rw [mul_div_right_comm, h]
    field_simp
  refine ⟨hden, ?_, ?_, ?_, ?_, ?_⟩
  · have : 0 < r := by omega
    rw [hlo]
    positivity
  · rw [hlo, hhi]
    exact mul_le_mul_of_nonneg_left (by omega) (by positivity)
  · rw [hl, zpow_double, zpow_neg, show ((2 : ℚ) ^ c)⁻¹ / (r + 1) = ((2 : ℚ) ^ c * (r + 1))⁻¹ by field_simp, inv_pow, inv_mul_le_iff₀ (by positivity)]
    rw [mul_one, mul_pow, mul_comm]
    exact mul_le_mul_of_nonneg_left hkq2 (by positivity)
  · rw [hh, zpow_double, zpow_neg, show ((2 : ℚ) ^ c)⁻¹ / r = ((2 : ℚ) ^ c * r)⁻¹ by field_simp, inv_pow, le_inv_mul_iff₀ (by positivity)]
    rw [mul_one, mul_pow, mul_comm (k : ℚ)]
    exact mul_le_mul_of_nonneg_left hkq1 (by positivity)
  · rw [hl, hh, show (2 : ℚ) ^ (-c) / r - 2 ^ (-c) / (r + 1) = 2 ^ (-c) / (r + 1) / r by field_simp; ring]
    exact div_le_div_of_nonneg_left (by positivity) (by positivity) hrq

/-- FRSQ (R144). -/
theorem fpRsq_rsqIs (x : Word) : RsqIs x.toNat (fpRsq x) := by
  unfold RsqIs fpRsq
  have hviews := fval_views .f32 x.toNat
  generalize hv : fval .f32 x.toNat = v at *
  cases hviews with
  | nan hn hi =>
    rw [hn, if_pos rfl]
    cases fpSnan .f32 x.toNat <;> rfl
  | inf hn hi =>
    rw [hn, hi]
    cases fpNeg .f32 x.toNat <;> rfl
  | fin m e hn hi hm =>
    rw [hn, hi, hm]
    dsimp only
    by_cases h0 : m = 0
    · subst h0
      rw [if_pos rfl, if_neg (by decide), if_pos ⟨rfl, by simp⟩, withSign_eq, infBits_eq]
    · have hpos : (0 : ℚ) < m * 2 ^ e := by positivity
      rw [if_neg (by decide), if_neg fun h => hpos.ne' h.2, if_neg h0]
      by_cases hneg : fpNeg .f32 x.toNat = true
      · rw [if_pos hneg, if_pos hneg]
        rfl
      · rw [if_neg hneg, if_neg hneg, if_neg (by decide)]
        obtain ⟨hmin, hmax⟩ := f32_size h0 (fval_f32_fin hv)
        have hlog := log_magnitude h0 e
        have hpow : (isPow2 m && decide (((m.log2 : ℤ) + e) % 2 = 0)) = true ↔
            (m : ℚ) * 2 ^ e = 2 ^ Int.log 2 ((m : ℚ) * 2 ^ e) ∧ Int.log 2 ((m : ℚ) * 2 ^ e) % 2 = 0 := by
          rw [Bool.and_eq_true, decide_eq_true_eq, isPow2_iff h0 e, hlog]
        by_cases hp : (m : ℚ) * 2 ^ e = 2 ^ Int.log 2 ((m : ℚ) * 2 ^ e) ∧ Int.log 2 ((m : ℚ) * 2 ^ e) % 2 = 0
        · have hl := (log_lt_iff hpos 128).2 hmax
          rw [if_pos hp, if_pos (hpow.2 hp), hlog]
          exact roundTo_pow _ (by omega)
        · rw [if_neg hp, if_neg (fun h => hp (hpow.1 h))]
          obtain ⟨hx, hbig⟩ := evenForm_spec m e 64
          generalize evenForm m e 64 = q at *
          obtain ⟨k, c⟩ := q
          dsimp only at hx hbig ⊢
          have hk : 2 ^ (2 * 64) ≤ k := (Nat.le_mul_of_pos_left _ (Nat.pos_of_ne_zero h0)).trans hbig
          have hr : 0 < isqrt k := Nat.pos_of_ne_zero fun hz => by
            have := (isqrt_spec k).2
            rw [hz] at this
            omega
          rw [← hx] at hmin hmax ⊢
          rcases le_or_gt 0 c with hc | hc
          · rw [if_pos hc]
            refine (rsq_enclosure hk (num := 1) (by positivity) one_pos (by simp) (by simp) ?_).choice hmin hmax 1 x
            rw [zpow_neg, ← Int.toNat_of_nonneg hc, zpow_natCast, Int.toNat_natCast]
            push_cast
            field_simp
          · rw [if_neg (not_le.2 hc)]
            refine (rsq_enclosure hk (num := 2 ^ c.natAbs) (by positivity) (by positivity) (by push_cast; rfl) (by push_cast; rfl) ?_).choice hmin hmax 1 x
            rw [← Int.ofNat_natAbs_of_nonpos hc.le, zpow_natCast]
            push_cast
            rfl

end Sys2Proof.Machine
end

section
/-! PROOFS. The fixed-point constants ln 2 and pi of the special functions (R144). -/

namespace Sys2Proof.Machine

/-- The sum of s ^ i / ((2 i + 1) x ^ (2 i + 1)) over i below a bound, each term in fixed point and rounded down. -/
def fixSum (s : ℤ) (x b : Nat) : Nat → ℤ
  | 0 => 0
  | n + 1 => fixSum s x b n + s ^ n * (2 ^ b / (x ^ (2 * n + 1) * (2 * n + 1)) : Nat)
theorem fixSum_succ (s : ℤ) (x b n : Nat) :
    fixSum s x b (n + 1) = fixSum s x b n + s ^ n * (2 ^ b / (x ^ (2 * n + 1) * (2 * n + 1)) : Nat) := rfl
/-- The sum that fixSum rounds. -/
noncomputable def realSum (s : ℝ) (x : ℝ) (n : Nat) : ℝ := ∑ i ∈ Finset.range n, s ^ i * (x ^ (2 * i + 1) / ((2 * i + 1 : Nat) : ℝ))

/-- A quotient rounded down is within 1. -/
theorem div_close (a b : Nat) : |((a / b : Nat) : ℝ) - (a : ℝ) / b| ≤ 1 := by
  have h1 := Nat.floor_le (show (0 : ℝ) ≤ (a : ℝ) / b by positivity)
  have h2 := Nat.lt_floor_add_one ((a : ℝ) / b)
  rw [Nat.floor_div_eq_div] at h1 h2
  rw [abs_le]
  constructor <;> linarith
theorem fixSum_close {s : ℤ} (hs : |s| = 1) (x b n : Nat) : |(fixSum s x b n : ℝ) - 2 ^ b * realSum s (x : ℝ)⁻¹ n| ≤ n := by
  induction n with
  | zero => simp [fixSum, realSum]
  | succ n ih =>
    have hsn : |(s : ℝ) ^ n| = 1 := by rw [abs_pow, ← Int.cast_abs, hs, Int.cast_one, one_pow]
    have hterm := div_close (2 ^ b) (x ^ (2 * n + 1) * (2 * n + 1))
    have hreal : 2 ^ b * realSum s (x : ℝ)⁻¹ (n + 1) = 2 ^ b * realSum s (x : ℝ)⁻¹ n +
        (s : ℝ) ^ n * (((2 ^ b : Nat) : ℝ) / ((x ^ (2 * n + 1) * (2 * n + 1) : Nat) : ℝ)) := by
      unfold realSum
      rw [Finset.sum_range_succ]
      push_cast
      rw [inv_pow]
      field_simp
    rw [hreal, fixSum_succ]
    generalize 2 ^ b / (x ^ (2 * n + 1) * (2 * n + 1)) = d at *
    generalize ((2 ^ b : Nat) : ℝ) / ((x ^ (2 * n + 1) * (2 * n + 1) : Nat) : ℝ) = d' at *
    push_cast
    rw [show ∀ u u' w : ℝ, u + w * d - (u' + w * d') = u - u' + w * (d - d') by intros; ring]
    refine (abs_add_le _ _).trans ?_
    rw [abs_mul, hsn, one_mul]
    exact add_le_add ih hterm
/-- What is left of a series after a power below one unit. -/
theorem tail_le {a b n : Nat} (h : 2 ^ b ≤ a ^ n) : (2 : ℝ) ^ b * (a : ℝ)⁻¹ ^ n ≤ 1 := by
  have ha : (2 : ℝ) ^ b ≤ (a : ℝ) ^ n := by exact_mod_cast h
  rw [inv_pow]
  exact mul_inv_le_one_of_le₀ ha (by positivity)

/-! ## ln 2 -/

theorem log_two_sum (n : Nat) : 2 * realSum 1 3⁻¹ n ≤ Real.log 2 ∧ Real.log 2 ≤ 2 * realSum 1 3⁻¹ n + 3⁻¹ ^ (2 * n) := by
  have h1 := Real.sum_range_le_log_div (x := 3⁻¹) (by norm_num) (by norm_num) n
  have h2 := Real.log_div_le_sum_range_add (x := 3⁻¹) (by norm_num) (by norm_num) n
  have hsum : realSum 1 3⁻¹ n = ∑ i ∈ Finset.range n, (3⁻¹ : ℝ) ^ (2 * i + 1) / (2 * i + 1) := by
    unfold realSum
    simp
  rw [← hsum, show (1 + 3⁻¹) / (1 - 3⁻¹) = (2 : ℝ) by norm_num] at h1 h2
  have hp : (0 : ℝ) ≤ 3⁻¹ ^ (2 * n) := by positivity
  rw [pow_succ] at h2
  constructor
  · linarith
  · norm_num at *
    linarith
/-- A number between twice a sum and a little more, in units, by the sum in fixed point. -/
theorem close_of_sum {P L S t F c n m : ℝ} (hP : 0 ≤ P) (h1 : 2 * S ≤ L) (h2 : L ≤ 2 * S + t) (ht : P * t ≤ 1) (hF : |F - P * S| ≤ n)
    (hc1 : c ≤ 2 * F + m) (hc2 : 2 * F ≤ c + m) : |P * L - c| ≤ m + 2 * n + 1 := by
  have hF := abs_le.1 hF
  have h1 := mul_le_mul_of_nonneg_left h1 hP
  have h2 := mul_le_mul_of_nonneg_left h2 hP
  rw [abs_le]
  constructor <;> linarith
/-- ln 2 in units of 2 ^ -256. -/
theorem ln2Exp_close : |2 ^ 256 * Real.log 2 - ln2Exp| ≤ 400 := by
  obtain ⟨h1, h2⟩ := log_two_sum 82
  have hd1 : ln2Exp ≤ 2 * fixSum 1 3 256 82 + 200 := by decide +kernel
  have hd2 : 2 * fixSum 1 3 256 82 ≤ ln2Exp + 200 := by decide +kernel
  have hF := fixSum_close (s := 1) rfl 3 256 82
  have ht := tail_le (a := 3) (b := 256) (n := 2 * 82) (by decide +kernel)
  simp only [Int.cast_one, Nat.cast_ofNat] at hF ht
  refine (close_of_sum (by positivity) h1 h2 ht hF (m := 200) (by exact_mod_cast hd1) (by exact_mod_cast hd2)).trans (by norm_num)
/-- A number in coarser units. -/
theorem close_of_finer {P Q L a b d : ℝ} (hQ : 0 < Q) (h : |Q * P * L - a| ≤ d) (hd : d ≤ Q) (h1 : b * Q ≤ a) (h2 : a ≤ b * Q + Q) :
    |P * L - b| ≤ 2 := by
  have h := abs_le.1 h
  rw [abs_le]
  constructor <;> nlinarith
/-- ln 2 in units of 2 ^ -96. -/
theorem ln2Fix_close : |2 ^ 96 * Real.log 2 - ln2Fix| ≤ 2 := by
  have hd1 : ln2Fix * 2 ^ 160 ≤ ln2Exp := by decide +kernel
  have hd2 : ln2Exp ≤ ln2Fix * 2 ^ 160 + 2 ^ 160 := by decide +kernel
  have h := ln2Exp_close
  rw [show (2 : ℝ) ^ 256 = 2 ^ 160 * 2 ^ 96 by rw [← pow_add]] at h
  exact close_of_finer (by positivity) h (by norm_num) (by exact_mod_cast hd1) (by exact_mod_cast hd2)

/-! ## pi -/

theorem arctan_sum {x : ℝ} (h0 : 0 ≤ x) (h1 : x < 1) (k : Nat) :
    realSum (-1) x (2 * k) ≤ Real.arctan x ∧ Real.arctan x ≤ realSum (-1) x (2 * k) + x ^ (2 * (2 * k)) := by
  have ht := (Real.hasSum_arctan (x := x) (by rwa [Real.norm_of_nonneg h0])).tendsto_sum_nat
  have hanti : Antitone fun n : Nat => x ^ (2 * n + 1) / ((2 * n + 1 : Nat) : ℝ) := by
    refine antitone_nat_of_succ_le fun n => ?_
    refine div_le_div₀ (by positivity) (pow_le_pow_of_le_one h0 h1.le (by omega)) (by positivity) (by exact_mod_cast (by omega))
  simp only [mul_div_assoc] at ht
  have hlo := hanti.alternating_series_le_tendsto ht k
  have hhi := hanti.tendsto_le_alternating_series ht k
  refine ⟨hlo, hhi.trans ?_⟩
  rw [Finset.sum_range_succ]
  refine add_le_add le_rfl ?_
  rw [pow_mul (-1 : ℝ), neg_one_sq, one_pow, one_mul]
  calc x ^ (2 * (2 * k) + 1) / ((2 * (2 * k) + 1 : Nat) : ℝ) ≤ x ^ (2 * (2 * k) + 1) := div_le_self (by positivity) (by exact_mod_cast (by omega))
    _ ≤ x ^ (2 * (2 * k)) := pow_le_pow_of_le_one h0 h1.le (by omega)
/-- Machin's sum in units, by the two sums in fixed point. -/
theorem close_of_machin {P a b S T t u F G c p n m k : ℝ} (hP : 0 ≤ P) (hp : 4 * a - b = p / 4) (h1 : S ≤ a) (h2 : a ≤ S + t) (h3 : T ≤ b)
    (h4 : b ≤ T + u) (ht : P * t ≤ 1) (hu : P * u ≤ 1) (hF : |F - P * S| ≤ n) (hG : |G - P * T| ≤ m)
    (hc1 : c ≤ 16 * F - 4 * G + k) (hc2 : 16 * F - 4 * G ≤ c + k) : |P * p - c| ≤ k + 16 * n + 4 * m + 20 := by
  have hF := abs_le.1 hF
  have hG := abs_le.1 hG
  have h1 := mul_le_mul_of_nonneg_left h1 hP
  have h2 := mul_le_mul_of_nonneg_left h2 hP
  have h3 := mul_le_mul_of_nonneg_left h3 hP
  have h4 := mul_le_mul_of_nonneg_left h4 hP
  have hpi : P * p = 16 * (P * a) - 4 * (P * b) := by
    rw [show p = 16 * a - 4 * b by linarith]
    ring
  rw [hpi, abs_le]
  constructor <;> linarith
/-- pi in units of 2 ^ -320. -/
theorem piFix_close : |2 ^ 320 * Real.pi - piFix| ≤ 4000 := by
  obtain ⟨h1, h2⟩ := arctan_sum (x := 5⁻¹) (by norm_num) (by norm_num) 36
  obtain ⟨h3, h4⟩ := arctan_sum (x := 239⁻¹) (by norm_num) (by norm_num) 11
  have hd1 : (piFix : ℤ) ≤ 16 * fixSum (-1) 5 320 72 - 4 * fixSum (-1) 239 320 22 + 2000 := by decide +kernel
  have hd2 : 16 * fixSum (-1) 5 320 72 - 4 * fixSum (-1) 239 320 22 ≤ (piFix : ℤ) + 2000 := by decide +kernel
  have hF := fixSum_close (s := -1) rfl 5 320 72
  have hG := fixSum_close (s := -1) rfl 239 320 22
  have ht := tail_le (a := 5) (b := 320) (n := 2 * (2 * 36)) (by decide +kernel)
  have hu := tail_le (a := 239) (b := 320) (n := 2 * (2 * 11)) (by decide +kernel)
  simp only [Int.cast_neg, Int.cast_one, Nat.cast_ofNat] at hF hG ht hu
  refine (close_of_machin (by positivity) Real.four_mul_arctan_inv_5_sub_arctan_inv_239 h1 h2 h3 h4 ht hu hF hG (k := 2000)
    (by exact_mod_cast hd1) (by exact_mod_cast hd2)).trans (by norm_num)

end Sys2Proof.Machine
end

section
/-! PROOFS. FEXP2's series and enclosure (R144). -/

namespace Sys2Proof.Machine

/-! ## The exponential's series in fixed point -/

/-- Term k of the exponential's series at T, in units of 1 / P. -/
noncomputable def expTerm (P T : ℝ) (k : Nat) : ℝ := P * (T ^ k / (k.factorial : ℝ))

theorem expTerm_succ (P T : ℝ) (k : Nat) : expTerm P T (k + 1) = expTerm P T k * T / ((k + 1 : Nat) : ℝ) := by
  unfold expTerm
  rw [Nat.factorial_succ, pow_succ, Nat.cast_mul]
  field_simp
/-- A product in fixed point, divided and rounded down twice, is within 2 and its factor's own distance. -/
theorem fix_step {term t j P : Nat} {a T d : ℝ} (hP : 0 < P) (hT : T = (t : ℝ) / P) (hj : 0 < j) (h : |(term : ℝ) - a| ≤ d) :
    |((term * t / P / j : Nat) : ℝ) - a * T / j| ≤ d * T + 2 := by
  have h1 := abs_le.1 (div_close (term * t) P)
  have h2 := abs_le.1 (div_close (term * t / P) j)
  have hj' : (1 : ℝ) ≤ j := by exact_mod_cast hj
  have hT0 : 0 ≤ T := by rw [hT]; positivity
  have hd : 0 ≤ d := (abs_nonneg _).trans h
  have h3 : |(((term * t / P : Nat) : ℝ) - a * T) / j| ≤ 1 + d * T := by
    rw [abs_div, Nat.abs_cast]
    refine (div_le_self (abs_nonneg _) hj').trans ?_
    have hprod : ((term * t : Nat) : ℝ) / P = term * T := by
      rw [hT]
      push_cast
      ring
    rw [hprod] at h1
    have h4 : |(term : ℝ) * T - a * T| ≤ d * T := by
      rw [← sub_mul, abs_mul, abs_of_nonneg hT0]
      exact mul_le_mul_of_nonneg_right h hT0
    have h4 := abs_le.1 h4
    rw [abs_le]
    constructor <;> linarith
  have h3 := abs_le.1 h3
  rw [sub_div] at h3
  rw [abs_le]
  constructor <;> linarith
/-- The sum of the terms from k on, each rounded down, is within 8 for each. -/
theorem expSeries_close {t : Nat} {T : ℝ} (hT : T = (t : ℝ) / (2 ^ 256 : Nat)) (hle : T ≤ 3 / 4) (n k term : Nat)
    (h : |(term : ℝ) - expTerm (2 ^ 256 : Nat) T k| ≤ 8) :
    |(expSeries t n k term : ℝ) - ∑ i ∈ Finset.range n, expTerm (2 ^ 256 : Nat) T (k + i)| ≤ 8 * n := by
  induction n generalizing k term with
  | zero => simp [expSeries]
  | succ n ih =>
    have hP : 0 < 2 ^ expBits := by positivity
    have hstep := fix_step hP hT (Nat.succ_pos k) h
    rw [← expTerm_succ] at hstep
    have hnext := ih (k + 1) (term * t / 2 ^ expBits / (k + 1)) (hstep.trans (by linarith))
    have hsum : ∑ i ∈ Finset.range (n + 1), expTerm (2 ^ 256 : Nat) T (k + i) =
        expTerm (2 ^ 256 : Nat) T k + ∑ i ∈ Finset.range n, expTerm (2 ^ 256 : Nat) T (k + 1 + i) := by
      rw [Finset.sum_range_succ', add_comm]
      simp only [Nat.add_zero, Nat.add_assoc, Nat.add_comm 1]
    unfold expSeries
    rw [hsum]
    generalize expSeries t n (k + 1) (term * t / 2 ^ expBits / (k + 1)) = s at *
    generalize ∑ i ∈ Finset.range n, expTerm (2 ^ 256 : Nat) T (k + 1 + i) = S at *
    generalize expTerm (2 ^ 256 : Nat) T k = A at *
    have h1 := abs_le.1 h
    have h2 := abs_le.1 hnext
    push_cast
    rw [abs_le]
    constructor <;> linarith
/-- The exponential from 64 terms. -/
theorem exp_sum {P T : ℝ} (hP : 0 ≤ P) (h0 : 0 ≤ T) (h1 : T ≤ 1) (hs : P * (65 / ((Nat.factorial 64 : ℝ) * 64)) ≤ 1) :
    |∑ i ∈ Finset.range 64, expTerm P T i - P * Real.exp T| ≤ 1 := by
  have hlo := mul_le_mul_of_nonneg_left (Real.sum_le_exp_of_nonneg h0 64) hP
  have hhi := mul_le_mul_of_nonneg_left (Real.exp_bound' h0 h1 (n := 64) (by norm_num)) hP
  have hsum : ∑ i ∈ Finset.range 64, expTerm P T i = P * ∑ i ∈ Finset.range 64, T ^ i / (i.factorial : ℝ) := by
    unfold expTerm
    rw [Finset.mul_sum]
  have htail : T ^ 64 * ((64 : Nat) + 1) / ((Nat.factorial 64 : ℝ) * (64 : Nat)) ≤ 65 / ((Nat.factorial 64 : ℝ) * 64) := by
    have : T ^ 64 ≤ 1 := pow_le_one₀ h0 h1
    push_cast
    refine div_le_div_of_nonneg_right ?_ (by positivity)
    linarith
  have htail := mul_le_mul_of_nonneg_left htail hP
  rw [hsum]
  rw [mul_add] at hhi
  generalize P * ∑ i ∈ Finset.range 64, T ^ i / (i.factorial : ℝ) = S at *
  rw [abs_le]
  constructor <;> linarith

/-! ## The fraction's power of two -/

/-- Exponentials of near exponents are near. -/
theorem exp_near {a b d c : ℝ} (hab : |a - b| ≤ d) (ha : Real.exp a ≤ c) (hb : Real.exp b ≤ c) : |Real.exp a - Real.exp b| ≤ c * d := by
  have key {u v : ℝ} (h : |u - v| ≤ d) (hu : Real.exp u ≤ c) : Real.exp u - Real.exp v ≤ c * d := by
    have h1 := Real.add_one_le_exp (v - u)
    have h2 : Real.exp v = Real.exp u * Real.exp (v - u) := by rw [← Real.exp_add]; congr 1; ring
    have hpos := Real.exp_pos u
    have h3 := (abs_le.1 h).2
    calc Real.exp u - Real.exp v = Real.exp u * (1 - Real.exp (v - u)) := by rw [h2]; ring
      _ ≤ Real.exp u * d := mul_le_mul_of_nonneg_left (by linarith) hpos.le
      _ ≤ c * d := mul_le_mul_of_nonneg_right hu ((abs_nonneg _).trans h)
  have h1 := key hab ha
  have h2 := key (by rwa [abs_sub_comm]) hb
  rw [abs_le]
  constructor <;> linarith
theorem exp_le_three {x : ℝ} (h : x ≤ 3 / 4) : Real.exp x ≤ 3 :=
  (Real.exp_le_exp.2 (by linarith)).trans Real.exp_one_lt_d9.le |>.trans (by norm_num)
/-- The exponent that exp2Frac sums the series at. -/
theorem frac_exponent {P f L : Nat} (hf : f < P) (hln : |(P : ℝ) * Real.log 2 - L| ≤ 400) (hL : 4 * L ≤ 3 * P) :
    ((f * L / P : Nat) : ℝ) / P ≤ 3 / 4 ∧ |((f * L / P : Nat) : ℝ) / P - Real.log 2 * (f / P)| ≤ 401 / P := by
  have hP : (0 : ℝ) < P := by exact_mod_cast (by omega : 0 < P)
  have hL' : 4 * (L : ℝ) ≤ 3 * P := by exact_mod_cast hL
  have hf' : (f : ℝ) ≤ P := by exact_mod_cast hf.le
  have hdiv := abs_le.1 (div_close (f * L) P)
  constructor
  · have h1 : f * L / P ≤ L := Nat.div_le_of_le_mul (Nat.mul_le_mul_right _ hf.le)
    have h1 : ((f * L / P : Nat) : ℝ) ≤ L := by exact_mod_cast h1
    rw [div_le_iff₀ hP]
    linarith
  · have hfrac : 0 ≤ (f : ℝ) / P ∧ (f : ℝ) / P ≤ 1 := ⟨by positivity, (div_le_one hP).2 hf'⟩
    have hprod : |((f * L : Nat) : ℝ) / P - P * (Real.log 2 * (f / P))| ≤ 400 := by
      have : ((f * L : Nat) : ℝ) / P - P * (Real.log 2 * (f / P)) = -(P * Real.log 2 - L) * (f / P) := by
        push_cast
        field_simp
        ring
      rw [this, abs_mul, abs_neg, abs_of_nonneg hfrac.1]
      calc _ ≤ 400 * ((f : ℝ) / P) := mul_le_mul_of_nonneg_right hln hfrac.1
        _ ≤ 400 := by linarith [hfrac.2]
    have hprod := abs_le.1 hprod
    have : ((f * L / P : Nat) : ℝ) / P - Real.log 2 * (f / P) = (((f * L / P : Nat) : ℝ) - P * (Real.log 2 * (f / P))) / P := by
      rw [sub_div, mul_div_cancel_left₀ _ hP.ne']
    rw [this, abs_div, abs_of_pos hP]
    refine div_le_div_of_nonneg_right ?_ hP.le
    rw [abs_le]
    constructor <;> linarith
theorem log_two_le : Real.log 2 ≤ 3 / 4 := Real.log_two_lt_d9.le.trans (by norm_num)
/-- exp2Frac is the fraction's power of two, in units of 2 ^ -256, within half the slack. -/
theorem exp2Frac_close {f : Nat} (hf : f < 2 ^ 256) : |(exp2Frac f : ℝ) - (2 ^ 256 : Nat) * (2 : ℝ) ^ ((f : ℝ) / (2 ^ 256 : Nat))| ≤ 2000 := by
  have hPc : (2 : ℝ) ^ 256 = ((2 ^ 256 : Nat) : ℝ) := (Nat.cast_pow 2 256).symm
  have hln := ln2Exp_close
  rw [hPc] at hln
  obtain ⟨hle, hnear⟩ := frac_exponent hf hln (by decide +kernel)
  have hfact : 65 * 2 ^ 256 ≤ Nat.factorial 64 * 64 := by decide +kernel
  have hfact : (65 : ℝ) * (2 ^ 256 : Nat) ≤ (Nat.factorial 64 : ℝ) * 64 := by exact_mod_cast hfact
  have hP : (0 : ℝ) < (2 ^ 256 : Nat) := by positivity
  have hf' : (f : ℝ) ≤ (2 ^ 256 : Nat) := by exact_mod_cast hf.le
  have hser := expSeries_close rfl hle 64 0 (2 ^ 256) (by simp [expTerm])
  have hexp := exp_sum (P := (2 ^ 256 : Nat)) (T := ((f * ln2Exp / 2 ^ 256 : Nat) : ℝ) / (2 ^ 256 : Nat)) hP.le (by positivity) (by linarith)
    (by rw [← mul_div_assoc, div_le_one (by positivity), mul_comm]; exact hfact)
  simp only [Nat.zero_add] at hser
  change |(expSeries (f * ln2Exp / 2 ^ 256) 64 0 (2 ^ 256) : ℝ) - _| ≤ _
  generalize expSeries (f * ln2Exp / 2 ^ 256) 64 0 (2 ^ 256) = y at *
  generalize ((f * ln2Exp / 2 ^ 256 : Nat) : ℝ) / (2 ^ 256 : Nat) = T at *
  generalize (((2 ^ 256 : Nat) : ℕ) : ℝ) = P at *
  have hfrac : Real.log 2 * (f / P) ≤ 3 / 4 := by
    have : (f : ℝ) / P ≤ 1 := (div_le_one hP).2 hf'
    have h0 : 0 ≤ (f : ℝ) / P := by positivity
    nlinarith [log_two_le, Real.log_pos one_lt_two]
  have hE := exp_near hnear (exp_le_three hle) (exp_le_three hfrac)
  rw [Real.rpow_def_of_pos two_pos]
  generalize ∑ i ∈ Finset.range 64, expTerm P T i = S at *
  have hE' : |P * Real.exp T - P * Real.exp (Real.log 2 * (f / P))| ≤ 1203 := by
    rw [← mul_sub, abs_mul, abs_of_pos hP]
    refine (mul_le_mul_of_nonneg_left hE hP.le).trans (le_of_eq ?_)
    field_simp
    norm_num
  have h1 := abs_le.1 hser
  have h2 := abs_le.1 hexp
  have h3 := abs_le.1 hE'
  push_cast at h1
  rw [abs_le]
  constructor <;> linarith

end Sys2Proof.Machine
end

section
/-! PROOFS. FEXP2's enclosure and its choice (R144). -/

namespace Sys2Proof.Machine

/-- An enclosure with one denominator, narrow against the power of two below 2 ^ x, that holds 2 ^ x. -/
structure Exp2Enclosure (i : Enclosure) (x : ℚ) : Prop where
  den : 0 < i.den
  le : i.lo ≤ i.hi
  below : (i.low : ℝ) ≤ 2 ^ (x : ℝ)
  above : (2 : ℝ) ^ (x : ℝ) ≤ i.high
  near : (2 : ℝ) ^ (x : ℝ) ≤ i.low + 2 ^ (⌊x⌋ - 243)
  narrow : i.high - i.low = 2 ^ (⌊x⌋ - 243)

theorem fval_num_fin (n : Bool) (m : Nat) (e : ℤ) : (FVal.fin n m e).num = ((if n then -(m : ℤ) else m : ℤ) : ℚ) * 2 ^ e := rfl
theorem exp2Enc_ends (neg : Bool) (man : Nat) (exp : ℤ) :
    let fx := signedAt neg man (exp + 256) 0
    let n : ℤ := fx / (2 ^ 256 : Nat)
    let y : ℤ := exp2Frac (fx % (2 ^ 256 : Nat)).toNat
    let i := exp2Enc neg man exp
    0 < i.den ∧ i.lo ≤ i.hi ∧ i.low = ((y - 4096 : ℤ) : ℚ) * 2 ^ (n - 256) ∧ i.high = ((y + 4096 : ℤ) : ℚ) * 2 ^ (n - 256) := by
  intro fx n y i
  have hi : i = if 0 ≤ n then ⟨(y - 4096) * (2 ^ n.toNat : Nat), (y + 4096) * (2 ^ n.toNat : Nat), 2 ^ 256⟩
    else ⟨y - 4096, y + 4096, 2 ^ (256 + n.natAbs)⟩ := rfl
  unfold Enclosure.low Enclosure.high
  clear_value i n y
  subst hi
  rcases le_or_gt 0 n with h | h
  · rw [if_pos h]
    have hp : ((2 ^ n.toNat : Nat) : ℚ) / (2 ^ 256 : Nat) = 2 ^ (n - 256) := by
      rw [zpow_sub₀ (by norm_num), ← Int.toNat_of_nonneg h, zpow_natCast]
      push_cast
      rfl
    refine ⟨by positivity, mul_le_mul_of_nonneg_right (by omega) (by positivity), ?_, ?_⟩ <;> dsimp only <;>
      rw [Int.cast_mul, Int.cast_natCast, mul_div_assoc, hp]
  · rw [if_neg (not_le.2 h)]
    have hp : ((2 ^ (256 + n.natAbs) : Nat) : ℚ)⁻¹ = 2 ^ (n - 256) := by
      rw [Nat.cast_pow, Nat.cast_ofNat, ← zpow_natCast, ← zpow_neg]
      congr 1
      omega
    refine ⟨by positivity, by dsimp only; omega, ?_, ?_⟩ <;> dsimp only <;> rw [div_eq_mul_inv, hp]
/-- The whole part and the fraction of a number in fixed point. -/
theorem fix_floor {fx : ℤ} {P : Nat} {x : ℚ} (hP : 0 < P) (h : (fx : ℚ) = x * P) :
    fx / P = ⌊x⌋ ∧ (fx % P).toNat < P ∧ (((fx % P).toNat : Nat) : ℚ) / P = x - ⌊x⌋ := by
  have hP' : (0 : ℚ) < P := by exact_mod_cast hP
  have hn : fx / P = ⌊x⌋ := by
    rw [← Rat.floor_intCast_div_natCast, h, mul_div_cancel_right₀ _ hP'.ne']
  have hmod := Int.emod_nonneg fx (show (P : ℤ) ≠ 0 by omega)
  have hlt := Int.emod_lt_of_pos fx (show 0 < (P : ℤ) by omega)
  refine ⟨hn, by omega, ?_⟩
  have hcast : (((fx % P).toNat : Nat) : ℚ) = ((fx % P : ℤ) : ℚ) := by
    rw [← Int.cast_natCast, Int.toNat_of_nonneg hmod]
  have hdm := Int.emod_add_mul_ediv fx P
  have : (fx % P : ℤ) = fx - P * ⌊x⌋ := by rw [← hn]; omega
  rw [hcast, this]
  push_cast
  rw [h]
  field_simp
/-- FEXP2's enclosure. -/
theorem exp2Enc_spec (neg : Bool) (man : Nat) {exp : ℤ} (he : -256 ≤ exp) : Exp2Enclosure (exp2Enc neg man exp) (FVal.fin neg man exp).num := by
  obtain ⟨hden, hle, hlow, hhigh⟩ := exp2Enc_ends neg man exp
  have hfx : (signedAt neg man (exp + 256) 0 : ℚ) = (FVal.fin neg man exp).num * (2 ^ 256 : Nat) := by
    have h := signedAt_num neg man (e := exp + 256) (lo := 0) (by omega)
    rw [zpow_zero, mul_one] at h
    rw [h]
    rw [fval_num_fin, fval_num_fin, zpow_add₀ (by norm_num)]
    push_cast
    exact (mul_assoc ..).symm
  obtain ⟨hn, hf, hfrac⟩ := fix_floor (by positivity) hfx
  rw [hn] at hlow hhigh
  have hclose := abs_le.1 (exp2Frac_close hf)
  generalize (FVal.fin neg man exp).num = x at *
  generalize (signedAt neg man (exp + 256) 0 % ((2 ^ 256 : Nat) : ℤ)).toNat = f at *
  generalize exp2Frac f = y at *
  have hfrac : (f : ℝ) / (2 ^ 256 : Nat) = x - ⌊x⌋ := by
    have hcast := congrArg (Rat.cast (K := ℝ)) hfrac
    rwa [Rat.cast_div, Rat.cast_natCast, Rat.cast_natCast, Rat.cast_sub, Rat.cast_intCast] at hcast
  rw [hfrac, Real.rpow_sub two_pos, Real.rpow_intCast] at hclose
  have hu : (2 : ℝ) ^ (x : ℝ) = (2 ^ 256 : Nat) * (2 ^ (x : ℝ) / 2 ^ ⌊x⌋) * 2 ^ (⌊x⌋ - 256) := by
    rw [zpow_sub₀ two_ne_zero]
    push_cast
    field_simp
    norm_cast
  have hslack : (2 : ℝ) ^ (⌊x⌋ - 243) = 8192 * 2 ^ (⌊x⌋ - 256) := by
    rw [show ⌊x⌋ - 243 = ⌊x⌋ - 256 + 13 by ring, zpow_add₀ two_ne_zero]
    norm_num
    ring
  have hpos : (0 : ℝ) < 2 ^ (⌊x⌋ - 256) := by positivity
  have hlowR : ((exp2Enc neg man exp).low : ℝ) = ((y : ℝ) - 4096) * 2 ^ (⌊x⌋ - 256) := by
    rw [hlow]
    push_cast
    rfl
  have hhighR : ((exp2Enc neg man exp).high : ℝ) = ((y : ℝ) + 4096) * 2 ^ (⌊x⌋ - 256) := by
    rw [hhigh]
    push_cast
    rfl
  refine ⟨hden, hle, ?_, ?_, ?_, ?_⟩
  · rw [hlowR, hu]
    exact mul_le_mul_of_nonneg_right (by linarith) hpos.le
  · rw [hhighR, hu]
    exact mul_le_mul_of_nonneg_right (by linarith) hpos.le
  · rw [hlowR, hslack, hu, ← add_mul]
    exact mul_le_mul_of_nonneg_right (by linarith) hpos.le
  · rw [hlow, hhigh, ← sub_mul, show ⌊x⌋ - 243 = ⌊x⌋ - 256 + 13 by ring, zpow_add₀ (show (2 : ℚ) ≠ 0 by norm_num)]
    push_cast
    norm_num
    ring

end Sys2Proof.Machine
end

section
/-! PROOFS. FEXP2 (R144). -/

namespace Sys2Proof.Machine

/-! ## Bounds of an enclosure's choice -/

theorem real_le {a b : ℚ} (h : a ≤ b) : (a : ℝ) ≤ b := Rat.cast_le.2 h
theorem of_real_le {a b : ℚ} (h : (a : ℝ) ≤ b) : a ≤ b := Rat.cast_le.1 h
/-- A result within n spacings of an enclosure is within n spacings of what the enclosure holds. -/
theorem WithinEnclosure.ulps {i : Enclosure} {n r : Nat} {y : ℝ} (h : WithinEnclosure i (n * 2 ^ f32Ulp |i.low|) r)
    (h1 : (i.low : ℝ) ≤ y) (h2 : y ≤ i.high) (hlog : Int.log 2 |i.low| ≤ Int.log 2 |y|) : WithinUlps n y r := by
  obtain ⟨-, hA, hB, -⟩ := h
  have hA := real_le hA
  have hB := real_le hB
  push_cast at hA hB
  have hpow : (2 : ℝ) ^ f32Ulp |i.low| ≤ 2 ^ (max (Int.log 2 |y|) (-126) - 23) := by
    refine zpow_le_zpow_right₀ one_le_two ?_
    unfold f32Ulp
    omega
  have hpow := mul_le_mul_of_nonneg_left hpow (Nat.cast_nonneg (α := ℝ) n)
  unfold WithinUlps
  rw [abs_le]
  constructor <;> linarith
/-- The exponent of a number is not above that of a larger one. -/
theorem log_le_log_real {v : ℚ} {y : ℝ} (hv : 0 < v) (h : (v : ℝ) ≤ y) : Int.log 2 v ≤ Int.log 2 y := by
  have hpow : ((2 : ℚ) ^ Int.log 2 v : ℝ) ≤ v := by exact_mod_cast log_le hv
  have hy : 0 < y := lt_of_lt_of_le (by exact_mod_cast hv) h
  refine (Int.zpow_le_iff_le_log (b := 2) (by norm_num) hy).1 ?_
  push_cast at hpow ⊢
  exact hpow.trans h

/-! ## FP32 numbers near whole ones (R120) -/

/-- An FP32 number below a whole one that is not small lies 2 ^ -17 below it. -/
theorem f32_below {k : ℤ} {e : ℤ} (hk : |k| < 2 ^ 24) {c : ℤ} (hc : 64 < |c|) (h : (k : ℚ) * 2 ^ e < c) : (k : ℚ) * 2 ^ e ≤ c - 2 ^ (-17 : ℤ) := by
  rcases le_or_gt (-17) e with he | he
  · have hp : (0 : ℚ) < 2 ^ (-17 : ℤ) := by positivity
    rw [zpow_split he, ← mul_assoc] at h ⊢
    have hcq : (c : ℚ) = ((c * 2 ^ 17 : ℤ) : ℚ) * 2 ^ (-17 : ℤ) := by
      push_cast
      norm_num
      ring
    rw [hcq] at h ⊢
    have hlt : k * (2 ^ (e - -17).toNat : Nat) < c * 2 ^ 17 := by
      have := (mul_lt_mul_iff_left₀ hp).1 h
      exact_mod_cast this
    have hle : ((k * (2 ^ (e - -17).toNat : Nat) : ℤ) : ℚ) ≤ ((c * 2 ^ 17 - 1 : ℤ) : ℚ) := by exact_mod_cast Int.le_sub_one_of_lt hlt
    rw [show ((c * 2 ^ 17 : ℤ) : ℚ) * 2 ^ (-17 : ℤ) - 2 ^ (-17 : ℤ) = ((c * 2 ^ 17 - 1 : ℤ) : ℚ) * 2 ^ (-17 : ℤ) by push_cast; ring]
    refine mul_le_mul_of_nonneg_right ?_ hp.le
    exact_mod_cast hle
  · have hk' : |(k : ℚ)| ≤ 2 ^ 24 := by exact_mod_cast hk.le
    have hx : |(k : ℚ) * 2 ^ e| ≤ 64 := by
      rw [abs_mul, abs_of_pos (show (0 : ℚ) < 2 ^ e by positivity)]
      calc |(k : ℚ)| * 2 ^ e ≤ 2 ^ 24 * 2 ^ (-18 : ℤ) :=
            mul_le_mul hk' (zpow_le_iff.2 (by omega)) (by positivity) (by positivity)
        _ = 64 := by norm_num
    have hx := abs_le.1 hx
    rcases lt_abs.1 hc with hpos | hneg
    · have : (65 : ℚ) ≤ c := by exact_mod_cast hpos
      norm_num
      linarith
    · have : (c : ℚ) ≤ -65 := by exact_mod_cast (by omega : c ≤ -65)
      linarith
/-- An FP32 number that is not whole lies 2 ^ -149 above its floor. -/
theorem f32_above_floor {k : ℤ} {e : ℤ} (he : -149 ≤ e) (h : (k : ℚ) * 2 ^ e ≠ ⌊(k : ℚ) * 2 ^ e⌋) :
    (⌊(k : ℚ) * 2 ^ e⌋ : ℚ) + 2 ^ (-149 : ℤ) ≤ k * 2 ^ e := by
  have hlt := lt_of_le_of_ne (Int.floor_le ((k : ℚ) * 2 ^ e)) h.symm
  generalize ⌊(k : ℚ) * 2 ^ e⌋ = n at *
  have hp : (0 : ℚ) < 2 ^ (-149 : ℤ) := by positivity
  have hn : (n : ℚ) = ((n * 2 ^ 149 : ℤ) : ℚ) * 2 ^ (-149 : ℤ) := by
    push_cast
    norm_num
    ring
  rw [zpow_split he, ← mul_assoc, hn] at hlt ⊢
  have hlt' : n * 2 ^ 149 < k * (2 ^ (e - -149).toNat : Nat) := by
    have := (mul_lt_mul_iff_left₀ hp).1 hlt
    exact_mod_cast this
  rw [show ((n * 2 ^ 149 : ℤ) : ℚ) * 2 ^ (-149 : ℤ) + 2 ^ (-149 : ℤ) = ((n * 2 ^ 149 + 1 : ℤ) : ℚ) * 2 ^ (-149 : ℤ) by push_cast; ring]
  refine mul_le_mul_of_nonneg_right ?_ hp.le
  exact_mod_cast Int.add_one_le_of_lt hlt'

/-! ## Powers of two near a power of two -/

theorem log_two_ge : 1 / 2 ≤ Real.log 2 := le_trans (by norm_num) Real.log_two_gt_d9.le
theorem rpow_ge {d : ℝ} (h : 0 ≤ d) : 1 + d / 2 ≤ (2 : ℝ) ^ d := by
  rw [Real.rpow_def_of_pos two_pos]
  have := Real.add_one_le_exp (Real.log 2 * d)
  nlinarith [log_two_ge]
/-- Two to a number d below a whole one. -/
theorem rpow_below {x : ℝ} {c : ℤ} (h : x ≤ c - 2 ^ (-17 : ℤ)) : (2 : ℝ) ^ x ≤ 2 ^ c - 2 ^ (c - 19) := by
  have h1 : (2 : ℝ) ^ x ≤ 2 ^ ((c : ℝ) - 2 ^ (-17 : ℤ)) := Real.rpow_le_rpow_of_exponent_le one_le_two h
  have h2 := rpow_ge (d := 2 ^ (-17 : ℤ)) (by positivity)
  rw [Real.rpow_sub two_pos, Real.rpow_intCast] at h1
  refine h1.trans ?_
  have hc : (0 : ℝ) < 2 ^ c := by positivity
  rw [show (2 : ℝ) ^ c - 2 ^ (c - 19) = 2 ^ c * (1 - 1 / 2 ^ 19) by rw [zpow_sub₀ two_ne_zero]; norm_num; ring, div_eq_mul_inv]
  refine mul_le_mul_of_nonneg_left ?_ hc.le
  rw [inv_le_comm₀ (by positivity) (by norm_num)]
  refine le_trans ?_ h2
  norm_num
theorem below_of_rpow {v x : ℚ} {c : ℤ} (h : (v : ℝ) ≤ 2 ^ (x : ℝ)) (hx : x ≤ c - 2 ^ (-17 : ℤ)) : v ≤ 2 ^ c - 2 ^ (c - 19) := by
  have hx := real_le hx
  push_cast at hx
  exact of_real_le (by push_cast; exact h.trans (rpow_below hx))

section
variable {i : Enclosure} {x : ℚ} (h : Exp2Enclosure i x)
include h
/-- The size of the enclosure's lower end. -/
theorem Exp2Enclosure.low_bounds : (2 : ℚ) ^ (⌊x⌋ - 1) ≤ i.low ∧ i.low < 2 ^ (⌊x⌋ + 1) := by
  have hn : (⌊x⌋ : ℝ) ≤ x := by exact_mod_cast Int.floor_le x
  have hn' : (x : ℝ) < ⌊x⌋ + 1 := by exact_mod_cast Int.lt_floor_add_one x
  have hE : (2 : ℝ) ^ ⌊x⌋ ≤ 2 ^ (x : ℝ) := by
    rw [← Real.rpow_intCast]
    exact Real.rpow_le_rpow_of_exponent_le one_le_two hn
  have hE' : (2 : ℝ) ^ (x : ℝ) < 2 ^ (⌊x⌋ + 1) := by
    rw [← Real.rpow_intCast]
    push_cast
    exact Real.rpow_lt_rpow_of_exponent_lt one_lt_two hn'
  constructor
  · have hs : (2 : ℝ) ^ (⌊x⌋ - 243) ≤ 2 ^ (⌊x⌋ - 1) := zpow_le_zpow_right₀ one_le_two (by omega)
    have hd : (2 : ℝ) ^ ⌊x⌋ = 2 ^ (⌊x⌋ - 1) + 2 ^ (⌊x⌋ - 1) := by
      rw [zpow_sub_one₀ two_ne_zero]
      ring
    have : (2 : ℝ) ^ (⌊x⌋ - 1) ≤ i.low := by linarith [h.near]
    exact of_real_le (by push_cast; exact this)
  · have : (i.low : ℝ) < 2 ^ (⌊x⌋ + 1) := h.below.trans_lt hE'
    exact (Rat.cast_lt (K := ℝ)).1 (by push_cast; exact this)
/-- FEXP2's choice (R144). -/
theorem Exp2Enclosure.choice (h1 : -150 ≤ x) (h2 : x ≤ 128 - 2 ^ (-17 : ℤ))
    (h3 : x ≤ -126 - 2 ^ (-17 : ℤ) ∨ -126 ≤ x ∧ (⌊x⌋ : ℚ) + 2 ^ (-149 : ℤ) ≤ x) (fn : Nat) (w : Word) :
    let r := pickUlp fn w i 2
    F32Fin r.1 ∧ r.2 = (fNX ||| if x < -126 then fUF else 0) ∧ WithinUlps 2 ((2 : ℝ) ^ (x : ℝ)) r.1 := by
  obtain ⟨hl1, hl2⟩ := h.low_bounds
  have hpos : 0 < i.low := lt_of_lt_of_le (by positivity) hl1
  have hlo : 0 < i.lo := by
    have := (div_pos_iff_of_pos_right (show (0 : ℚ) < i.den by exact_mod_cast h.den)).1 hpos
    exact_mod_cast this
  have hn1 : -150 ≤ ⌊x⌋ := Int.le_floor.2 (by exact_mod_cast h1)
  have hn2 : ⌊x⌋ < 128 := Int.floor_lt.2 (lt_of_le_of_lt h2 (by norm_num))
  have hlog1 := (le_log_iff hpos _).2 hl1
  have hlog2 := (log_lt_iff hpos _).2 hl2
  have hspec := pickUlp_spec fn w h.den hlo.ne' (n := 2) (by norm_num)
  generalize decide (i.lo < 0) = neg at hspec
  have hclose := (abs_le.1 (wideRound_close neg hpos)).2
  dsimp only at hspec ⊢
  rw [abs_of_pos hpos, if_neg] at hspec
  · obtain ⟨hflags, hin⟩ := hspec
    have hwithin := hin h.le (by
      rw [h.narrow, le_div_iff₀ (by norm_num), ← zpow_add_one₀ (by norm_num)]
      refine zpow_le_iff.2 ?_
      unfold f32Ulp
      omega)
    refine ⟨hwithin.1, ?_, ?_⟩
    · have htiny : wideRound neg i.low < 2 ^ (-126 : ℤ) ↔ x < -126 := by
        rcases h3 with h3 | ⟨h3, h4⟩
        · refine iff_of_true ?_ (lt_of_le_of_lt h3 (by norm_num))
          have hle := below_of_rpow (c := -126) h.below (by push_cast; exact h3)
          have hlt : i.low < 2 ^ (-126 : ℤ) := hle.trans_lt (by norm_num)
          have hl := (log_lt_iff hpos _).2 hlt
          have hp : (2 : ℚ) ^ (Int.log 2 i.low - 24) ≤ 2 ^ (-151 : ℤ) := zpow_le_iff.2 (by omega)
          norm_num at *
          linarith
        · refine iff_of_false (not_lt.2 (wideRound_ge neg hpos ?_)) (not_lt.2 h3)
          have hn : -126 ≤ ⌊x⌋ := Int.le_floor.2 (by exact_mod_cast h3)
          refine (zpow_le_iff.2 hn).trans ?_
          have hd : (2 : ℝ) ^ (-149 : ℤ) ≤ (x : ℝ) - ⌊x⌋ := by
            have := real_le h4
            push_cast at this
            linarith
          have hg := rpow_ge (d := (x : ℝ) - ⌊x⌋) (le_trans (by positivity) hd)
          rw [Real.rpow_sub two_pos, Real.rpow_intCast, le_div_iff₀ (by positivity)] at hg
          have hnear := h.near
          have hslack : (2 : ℝ) ^ (⌊x⌋ - 243) = 2 ^ (-243 : ℤ) * 2 ^ ⌊x⌋ := by
            rw [← zpow_add₀ two_ne_zero]
            congr 1
            ring
          have hp : (0 : ℝ) < 2 ^ ⌊x⌋ := by positivity
          have hsmall : (2 : ℝ) ^ (-243 : ℤ) ≤ ((x : ℝ) - ⌊x⌋) / 2 := by
            refine le_trans ?_ (div_le_div_of_nonneg_right hd (by norm_num))
            norm_num
          have hmul := mul_le_mul_of_nonneg_right hsmall hp.le
          have : (2 : ℝ) ^ ⌊x⌋ ≤ i.low := by
            rw [hslack] at hnear
            generalize (2 : ℝ) ^ ⌊x⌋ = p at *
            generalize (2 : ℝ) ^ (-243 : ℤ) = c at *
            linarith
          exact of_real_le (by push_cast; exact this)
      rw [hflags, if_congr htiny rfl rfl]
    · rw [← abs_of_pos hpos] at hwithin
      refine hwithin.ulps h.below h.above ?_
      rw [abs_of_pos hpos, abs_of_pos (by positivity)]
      exact log_le_log_real hpos h.below
  · have hle := below_of_rpow (c := 128) h.below (by push_cast; exact h2)
    have hp : (2 : ℚ) ^ (Int.log 2 i.low - 24) ≤ 2 ^ (103 : ℤ) := zpow_le_iff.2 (by omega)
    rw [largest_f32]
    norm_num at *
    linarith
end

end Sys2Proof.Machine
end

section
/-! PROOFS. FEXP2 over its cases (R144). -/

namespace Sys2Proof.Machine

/-- Rounding down gives the floor, and whether anything was lost. -/
theorem roundInt_rd (neg : Bool) (man : Nat) (exp : ℤ) :
    roundInt .rd neg man exp = (⌊(FVal.fin neg man exp).num⌋, decide ((FVal.fin neg man exp).num ≠ ⌊(FVal.fin neg man exp).num⌋)) := by
  have hv : (0 : ℚ) ≤ man * 2 ^ exp := by positivity
  have hpair : roundInt .rd neg man exp = (if neg then -(stepsOf .rd 0 neg (man * 2 ^ exp) 0 : ℤ) else stepsOf .rd 0 neg (man * 2 ^ exp) 0,
      decide ((stepsOf .rd 0 neg (man * 2 ^ exp) 0 : ℚ) * 2 ^ (0 : ℤ) ≠ man * 2 ^ exp)) := by
    unfold roundInt
    rw [roundSteps_spec _ (by norm_num)]
  have hnum : (FVal.fin neg man exp).num = signedNum neg (man * 2 ^ exp) := by
    rw [fval_num_fin]
    unfold signedNum
    cases neg <;> simp
  rw [hpair, hnum]
  generalize (man : ℚ) * 2 ^ exp = v at *
  unfold signedNum
  cases neg
  · obtain ⟨h1, h2⟩ := steps_down (mode := .rd) (neg := false) rfl hv 0
    simp only [zpow_zero, mul_one] at h1 h2
    generalize stepsOf .rd 0 false v 0 = n at *
    have hf : ⌊v⌋ = n := by
      refine Int.floor_eq_iff.2 ⟨by exact_mod_cast h1, ?_⟩
      by_contra hx
      have := h2 (n + 1) (by push_cast; exact_mod_cast not_lt.1 hx)
      omega
    simp only [Bool.false_eq_true, if_false, hf, zpow_zero, mul_one, Int.cast_natCast, ne_eq, eq_comm (a := v)]
  · obtain ⟨h1, h2⟩ := steps_up (mode := .rd) (neg := true) rfl hv 0
    simp only [zpow_zero, mul_one] at h1 h2
    generalize stepsOf .rd 0 true v 0 = n at *
    have hf : ⌊-v⌋ = -(n : ℤ) := by
      refine Int.floor_eq_iff.2 ⟨by push_cast; linarith, ?_⟩
      push_cast
      by_contra hx
      rcases Nat.eq_zero_or_pos n with h0 | h0
      · rw [h0] at hx
        norm_num at hx
        linarith
      · have := h2 (n - 1) (by rw [Nat.cast_sub h0]; push_cast; linarith)
        omega
    simp only [if_true, hf, zpow_zero, mul_one, Int.cast_neg, Int.cast_natCast, ne_eq, neg_inj, eq_comm (a := v)]

/-- A signed mantissa as one integer. -/
theorem fval_int {w m : Nat} {n : Bool} {e : ℤ} (h : fval .f32 w = .fin n m e) :
    ∃ k : ℤ, (FVal.fin n m e).num = k * 2 ^ e ∧ |k| < 2 ^ 24 ∧ -149 ≤ e := by
  have hform := fval_f32_fin h
  refine ⟨if n then -(m : ℤ) else m, fval_num_fin .., ?_, by omega⟩
  have : m < 2 ^ 24 := by omega
  rw [abs_lt]
  split <;> omega
/-- FEXP2's exact cases, its flags and its bound (R144). -/
theorem fpExp2_spec (x : Word) : Exp2Is x.toNat (fpExp2 x) ∧
    (fpNan .f32 x.toNat = false → fpInf .f32 x.toNat = false → -150 ≤ (fpNum .f32 x.toNat : ℝ) → (fpNum .f32 x.toNat : ℝ) < 128 →
      WithinUlps 2 ((2 : ℝ) ^ (fpNum .f32 x.toNat : ℝ)) (fpExp2 x).1) := by
  unfold Exp2Is fpExp2
  have hviews := fval_views .f32 x.toNat
  generalize hv : fval .f32 x.toNat = v at *
  cases hviews with
  | nan hn hi =>
    rw [hn, if_pos rfl]
    exact ⟨by cases fpSnan .f32 x.toNat <;> rfl, fun h => Bool.noConfusion h⟩
  | inf hn hi =>
    rw [hn, hi]
    exact ⟨by cases fpNeg .f32 x.toNat <;> rfl, fun _ h => Bool.noConfusion h⟩
  | fin m e hn hi hm =>
    have hnum := fpNum_fin hm
    obtain ⟨k, hk, hk24, he⟩ := fval_int hv
    have hspec := exp2Enc_spec (fpNeg .f32 x.toNat) m (exp := e) (by omega)
    rw [hn, hi]
    dsimp only
    rw [roundInt_rd, if_neg (by decide), if_neg (by decide)]
    rw [← hnum]
    have hsign : fpNeg .f32 x.toNat = true → (FVal.fin (fpNeg .f32 x.toNat) m e).num ≤ 0 := fun h => by
      rw [h, fval_num_fin]
      simpa using (show (0 : ℚ) ≤ m * 2 ^ e by positivity)
    generalize fpNeg .f32 x.toNat = neg at *
    generalize exp2Enc neg m e = i at *
    generalize hy : (FVal.fin neg m e).num = y at *
    dsimp only
    by_cases hbig : 128 ≤ y
    · have hcond : (!neg && decide (128 ≤ ⌊y⌋)) = true := by
        have h1 : 128 ≤ ⌊y⌋ := Int.le_floor.2 (by exact_mod_cast hbig)
        cases neg
        · simpa using h1
        · linarith [hsign rfl]
      rw [if_pos hbig, if_pos hcond]
      refine ⟨by rw [infBits_eq], fun _ _ _ h => ?_⟩
      have := real_le hbig
      push_cast at this
      linarith
    · have hcond : ¬(!neg && decide (128 ≤ ⌊y⌋)) = true := by
        rw [Bool.and_eq_true, decide_eq_true_eq, Int.le_floor]
        exact fun h => hbig (by exact_mod_cast h.2)
      rw [if_neg hbig, if_neg hcond]
      by_cases hsmall : y < -150
      · have hcond : ⌊y⌋ < -150 := Int.floor_lt.2 (by exact_mod_cast hsmall)
        rw [if_pos hsmall, if_pos hcond]
        refine ⟨rfl, fun _ _ h _ => ?_⟩
        have : (y : ℝ) < -150 := by exact_mod_cast hsmall
        linarith
      · have hcond : ¬⌊y⌋ < -150 := fun h => hsmall (by exact_mod_cast Int.floor_lt.1 h)
        rw [if_neg hsmall, if_neg hcond]
        by_cases hint : y = ⌊y⌋ ∧ -149 ≤ y
        · have hfl : -149 ≤ ⌊y⌋ := Int.le_floor.2 (by exact_mod_cast hint.2)
          have hlt : ⌊y⌋ < 128 := Int.floor_lt.2 (by exact_mod_cast not_le.1 hbig)
          rw [if_pos hint, if_pos (by simpa [← hint.1] using hfl)]
          have hpow := roundTo_pow false hfl
          refine ⟨hpow, fun _ _ _ _ => ?_⟩
          unfold f32Pow at hpow
          rw [if_neg (by omega)] at hpow
          obtain ⟨-, -, -, -, hs, hmag⟩ := hpow
          have hy' : (y : ℝ) = (⌊y⌋ : ℝ) := by exact_mod_cast congrArg (Rat.cast (K := ℝ)) hint.1
          have hnum' : fpNum .f32 (roundTo .f32 .rne 0 false 1 ⌊y⌋).1 = 2 ^ ⌊y⌋ := by
            unfold fpNum
            rw [hs, hmag]
            rfl
          unfold WithinUlps
          rw [hnum', hy', Real.rpow_intCast, Rat.cast_zpow, Rat.cast_ofNat, sub_self, abs_zero]
          positivity
        · have hbelow := f32_below hk24 (c := 128) (e := e) (by norm_num)
          have hbelow' := f32_below hk24 (c := -126) (e := e) (by norm_num)
          have habove := f32_above_floor (k := k) he
          rw [← hk] at hbelow hbelow' habove
          push_cast at hbelow hbelow'
          have hcond : ¬((!decide (y ≠ ⌊y⌋)) && decide (-149 ≤ ⌊y⌋)) = true := by
            rw [Bool.and_eq_true, Bool.not_eq_true', decide_eq_false_iff_not, not_not, decide_eq_true_eq, Int.le_floor]
            exact fun h => hint ⟨h.1, by exact_mod_cast h.2⟩
          rw [if_neg hint, if_neg hcond]
          have hthird : y ≤ -126 - 2 ^ (-17 : ℤ) ∨ -126 ≤ y ∧ (⌊y⌋ : ℚ) + 2 ^ (-149 : ℤ) ≤ y := by
            rcases lt_or_ge y (-126) with h | h
            · exact .inl (hbelow' h)
            · exact .inr ⟨h, habove fun hx => hint ⟨hx, by linarith⟩⟩
          obtain ⟨hfin, hflags, hnear⟩ := hspec.choice (not_lt.1 hsmall) (hbelow (not_le.1 hbig)) hthird 3 x
          exact ⟨⟨hfin, hflags⟩, fun _ _ _ _ => hnear⟩

end Sys2Proof.Machine
end

section
/-! PROOFS. FLOG2's series and enclosure (R144). -/

namespace Sys2Proof.Machine

/-! ## The series in fixed point -/

/-- A product in fixed point, rounded down, is as near as its factors. -/
theorem fix_mul {a b P : Nat} {A B d d' : ℝ} (ha : |(a : ℝ) - P * A| ≤ d) (hb : |(b : ℝ) - P * B| ≤ d') (hP : 0 < P) (hA : 0 ≤ A) :
    |((a * b / P : Nat) : ℝ) - P * (A * B)| ≤ 1 + d * ((b : ℝ) / P) + A * d' := by
  have hP' : (0 : ℝ) < P := by exact_mod_cast hP
  have h1 := abs_le.1 (div_close (a * b) P)
  have h2 : |((a : ℝ) - P * A) * ((b : ℝ) / P)| ≤ d * ((b : ℝ) / P) := by
    rw [abs_mul, abs_of_nonneg (show (0 : ℝ) ≤ (b : ℝ) / P by positivity)]
    exact mul_le_mul_of_nonneg_right ha (by positivity)
  have h3 : |A * ((b : ℝ) - P * B)| ≤ A * d' := by
    rw [abs_mul, abs_of_nonneg hA]
    exact mul_le_mul_of_nonneg_left hb hA
  have hsplit : ((a * b : Nat) : ℝ) / P - P * (A * B) = ((a : ℝ) - P * A) * ((b : ℝ) / P) + A * ((b : ℝ) - P * B) := by
    push_cast
    field_simp
    ring
  have h2 := abs_le.1 h2
  have h3 := abs_le.1 h3
  rw [abs_le]
  constructor <;> linarith
/-- The sum of the terms from k on, each rounded down, is within 4 for each. -/
theorem atanhSeries_close {z2 : Nat} {w : ℝ} (h0 : 0 ≤ w) (h1 : w ≤ 1 / 3) (hz2 : |(z2 : ℝ) - (2 ^ fixBits : Nat) * w ^ 2| ≤ 2)
    (n k pw : Nat) (h : |(pw : ℝ) - (2 ^ fixBits : Nat) * w ^ (2 * k + 1)| ≤ 3) :
    |(atanhSeries z2 n k pw : ℝ) - (2 ^ fixBits : Nat) * ∑ i ∈ Finset.range n, w ^ (2 * (k + i) + 1) / ((2 * (k + i) + 1 : Nat) : ℝ)| ≤ 4 * n := by
  induction n generalizing k pw with
  | zero => simp [atanhSeries]
  | succ n ih =>
    have hP : 0 < 2 ^ fixBits := by positivity
    have hbig : 24 ≤ 2 ^ fixBits := by decide
    have hmul := fix_mul h hz2 hP (by positivity)
    have hdiv := div_close pw (2 * k + 1)
    have hsum : ∑ i ∈ Finset.range (n + 1), w ^ (2 * (k + i) + 1) / ((2 * (k + i) + 1 : Nat) : ℝ) =
        w ^ (2 * k + 1) / ((2 * k + 1 : Nat) : ℝ) + ∑ i ∈ Finset.range n, w ^ (2 * (k + 1 + i) + 1) / ((2 * (k + 1 + i) + 1 : Nat) : ℝ) := by
      rw [Finset.sum_range_succ', add_comm]
      simp only [Nat.add_zero, Nat.add_assoc, Nat.add_comm 1]
    unfold atanhSeries
    rw [hsum]
    generalize 2 ^ fixBits = P at *
    have hP' : (24 : ℝ) ≤ P := by exact_mod_cast hbig
    have hnext := ih (k + 1) (pw * z2 / P) (by
      rw [show 2 * (k + 1) + 1 = 2 * k + 1 + 2 by ring, pow_add]
      refine hmul.trans ?_
      have hw1 : w ^ (2 * k + 1) ≤ 1 / 3 := (pow_le_of_le_one h0 (by linarith) (by omega)).trans h1
      have hz : (z2 : ℝ) / P ≤ 1 / 4 := by
        rw [div_le_iff₀ (by linarith)]
        have := (abs_le.1 hz2).2
        have hsq : w ^ 2 ≤ 1 / 9 := by nlinarith
        nlinarith
      linarith)
    generalize atanhSeries z2 n (k + 1) (pw * z2 / P) = s at *
    generalize ∑ i ∈ Finset.range n, w ^ (2 * (k + 1 + i) + 1) / ((2 * (k + 1 + i) + 1 : Nat) : ℝ) = S at *
    have hj : (1 : ℝ) ≤ ((2 * k + 1 : Nat) : ℝ) := by exact_mod_cast (by omega)
    have hterm : |((pw : ℝ) - P * w ^ (2 * k + 1)) / ((2 * k + 1 : Nat) : ℝ)| ≤ 3 := by
      rw [abs_div, Nat.abs_cast]
      exact (div_le_self (abs_nonneg _) hj).trans h
    rw [sub_div] at hterm
    have h2 := abs_le.1 hterm
    have h3 := abs_le.1 hdiv
    have h4 := abs_le.1 hnext
    rw [mul_add, ← mul_div_assoc]
    generalize ((2 * k + 1 : Nat) : ℝ) = j at *
    push_cast
    rw [abs_le]
    constructor <;> linarith
/-- Twice the series at (M - 1) / (M + 1) is ln M. -/
theorem log_atanh {M : ℝ} (h1 : 1 ≤ M) (h2 : M ≤ 2) :
    let w := (M - 1) / (M + 1)
    0 ≤ w ∧ w ≤ 1 / 3 ∧ |(∑ i ∈ Finset.range 48, w ^ (2 * i + 1) / ((2 * i + 1 : Nat) : ℝ)) - Real.log M / 2| ≤ 1 / 2 ^ 96 := by
  intro w
  have hw : w = (M - 1) / (M + 1) := rfl
  have h0 : 0 ≤ w := div_nonneg (by linarith) (by linarith)
  have h3 : w ≤ 1 / 3 := by
    rw [hw, div_le_div_iff₀ (by linarith) (by norm_num)]
    linarith
  clear_value w
  have hM : (1 + w) / (1 - w) = M := by
    have hne : M + 1 ≠ 0 := by linarith
    rw [hw, div_eq_iff (by rw [one_sub_div hne]; exact div_ne_zero (by linarith) hne)]
    field_simp
    ring
  refine ⟨h0, h3, ?_⟩
  have hlo := Real.sum_range_le_log_div h0 (by linarith) 48
  have hhi := Real.log_div_le_sum_range_add h0 (by linarith) 48
  rw [hM] at hlo hhi
  have htail : w ^ (2 * 48 + 1) / (1 - w ^ 2) ≤ 1 / 2 ^ 96 := by
    have hp : w ^ 97 ≤ (1 / 3) ^ 97 := pow_le_pow_left₀ h0 h3 97
    have hd : 1 / 2 ≤ 1 - w ^ 2 := by nlinarith
    calc w ^ 97 / (1 - w ^ 2) ≤ (1 / 3) ^ 97 / (1 / 2) := div_le_div₀ (by positivity) hp (by norm_num) hd
      _ ≤ 1 / 2 ^ 96 := by norm_num
  have hsum : ∑ i ∈ Finset.range 48, w ^ (2 * i + 1) / ((2 * i + 1 : Nat) : ℝ) = ∑ i ∈ Finset.range 48, w ^ (2 * i + 1) / (2 * (i : ℝ) + 1) := by
    push_cast
    rfl
  rw [hsum]
  generalize ∑ i ∈ Finset.range 48, w ^ (2 * i + 1) / (2 * (i : ℝ) + 1) = S at *
  generalize (1 : ℝ) / 2 ^ 96 = u at *
  rw [abs_le]
  constructor <;> linarith

/-! ## The quotient by ln 2 -/

/-- A quotient in fixed point of near numbers, rounded down. -/
theorem fix_quotient {a b P : Nat} {A B d d' : ℝ} (ha : |(a : ℝ) - P * A| ≤ d) (hb : |(b : ℝ) - P * B| ≤ d') (hP : 0 < P)
    (hA : 0 ≤ A) (hAB : A ≤ B) (hB : 0 < B) (hbP : (P : ℝ) ≤ 2 * b) :
    |((a * P / b : Nat) : ℝ) - P * (A / B)| ≤ 1 + 2 * d + 2 * d' := by
  have hP' : (0 : ℝ) < P := by exact_mod_cast hP
  have hb0 : (0 : ℝ) < b := by linarith
  have h1 := abs_le.1 (div_close (a * P) b)
  have hratio : (P : ℝ) / b ≤ 2 := by rwa [div_le_iff₀ hb0]
  have hfrac : 0 ≤ A / B ∧ A / B ≤ 1 := ⟨by positivity, (div_le_one hB).2 hAB⟩
  have hsplit : ((a * P : Nat) : ℝ) / b - P * (A / B) = (P / b) * (((a : ℝ) - P * A) - (A / B) * ((b : ℝ) - P * B)) := by
    push_cast
    field_simp
    ring
  have hinner : |((a : ℝ) - P * A) - (A / B) * ((b : ℝ) - P * B)| ≤ d + d' := by
    refine (abs_sub _ _).trans (add_le_add ha ?_)
    rw [abs_mul, abs_of_nonneg hfrac.1]
    exact (mul_le_of_le_one_left (abs_nonneg _) hfrac.2).trans hb
  have hmain : |((a * P : Nat) : ℝ) / b - P * (A / B)| ≤ 2 * (d + d') := by
    rw [hsplit, abs_mul, abs_of_nonneg (show (0 : ℝ) ≤ P / b by positivity)]
    exact mul_le_mul hratio hinner (abs_nonneg _) (by norm_num)
  have hmain := abs_le.1 hmain
  rw [abs_le]
  constructor <;> linarith

end Sys2Proof.Machine
end

section
/-! PROOFS. FLOG2's enclosure (R144). -/

namespace Sys2Proof.Machine

/-- A narrow enclosure of y. -/
structure NarrowEnclosure (i : Enclosure) (y : ℝ) : Prop where
  den : 0 < i.den
  le : i.lo ≤ i.hi
  below : (i.low : ℝ) ≤ y
  above : y ≤ i.high
  narrow : i.high - i.low = 1 / 2 ^ 83

/-- An integer within the slack of a number in units of 2 ^ -96 encloses it. -/
theorem slack_enclosure {y : ℤ} {L : ℝ} (h : |(y : ℝ) - (2 ^ fixBits : Nat) * L| ≤ 4096) :
    NarrowEnclosure ⟨y - slack, y + slack, 2 ^ fixBits⟩ L := by
  have hs : slack = 4096 := rfl
  have h := abs_le.1 h
  have hP : (0 : ℝ) < (2 ^ fixBits : Nat) := by positivity
  rw [hs]
  refine ⟨by positivity, by dsimp only; omega, ?_, ?_, ?_⟩
  · unfold Enclosure.low
    dsimp only
    rw [Rat.cast_div, Rat.cast_intCast, Rat.cast_natCast, div_le_iff₀ hP]
    push_cast at h ⊢
    linarith
  · unfold Enclosure.high
    dsimp only
    rw [Rat.cast_div, Rat.cast_intCast, Rat.cast_natCast, le_div_iff₀ hP]
    push_cast at h ⊢
    linarith
  · unfold Enclosure.low Enclosure.high fixBits
    push_cast
    ring
/-- The mantissa's share of a logarithm. -/
theorem log_share {man : Nat} (h0 : man ≠ 0) (exp : ℤ) :
    let M : ℝ := man / 2 ^ man.log2
    1 ≤ M ∧ M < 2 ∧ Real.logb 2 (man * 2 ^ exp) = ((man.log2 + exp : ℤ) : ℝ) + Real.log M / Real.log 2 := by
  intro M
  have hp : (0 : ℝ) < 2 ^ man.log2 := by positivity
  have h1 : (2 : ℝ) ^ man.log2 ≤ man := by exact_mod_cast Nat.log2_self_le h0
  have h2 : (man : ℝ) < 2 ^ (man.log2 + 1) := by exact_mod_cast Nat.lt_log2_self (n := man)
  have hM1 : 1 ≤ M := (one_le_div hp).2 h1
  refine ⟨hM1, (div_lt_iff₀ hp).2 (by rwa [← pow_succ']), ?_⟩
  have hsplit : (man : ℝ) * 2 ^ exp = 2 ^ (man.log2 + exp : ℤ) * M := by
    rw [zpow_add₀ two_ne_zero, zpow_natCast, mul_right_comm, mul_div_cancel₀ _ hp.ne']
  rw [hsplit, Real.logb_mul (by positivity) (by linarith), ← Real.rpow_intCast, Real.logb_rpow two_pos (by norm_num)]
  rfl
/-- The argument of the series. -/
theorem atanh_argument {m P : Nat} {M : ℝ} (hP : 0 < P) (hm : (m : ℝ) = P * M) (hM : 1 ≤ M) :
    |(((m - P) * P / (m + P) : Nat) : ℝ) - P * ((M - 1) / (M + 1))| ≤ 1 := by
  have hP' : (0 : ℝ) < P := by exact_mod_cast hP
  have hle : P ≤ m := by
    have : (P : ℝ) ≤ m := by
      rw [hm]
      exact le_mul_of_one_le_right hP'.le hM
    exact_mod_cast this
  have h := div_close ((m - P) * P) (m + P)
  have hq : (((m - P) * P : Nat) : ℝ) / ((m + P : Nat) : ℝ) = P * ((M - 1) / (M + 1)) := by
    have hne : M + 1 ≠ 0 := by linarith
    rw [Nat.cast_mul, Nat.cast_sub hle, Nat.cast_add, hm, div_eq_iff (by nlinarith)]
    field_simp
  rwa [hq] at h
/-- Twice the series is ln M, in units of 2 ^ -96. -/
theorem ln_series {m : Nat} {M : ℝ} (hm : (m : ℝ) = (2 ^ fixBits : Nat) * M) (hM1 : 1 ≤ M) (hM2 : M ≤ 2) :
    let z := (m - 2 ^ fixBits) * 2 ^ fixBits / (m + 2 ^ fixBits)
    |((2 * atanhSeries (z * z / 2 ^ fixBits) 48 0 z : Nat) : ℝ) - (2 ^ fixBits : Nat) * Real.log M| ≤ 386 := by
  intro z
  obtain ⟨hw0, hw3, hsum⟩ := log_atanh hM1 hM2
  have hP : 0 < 2 ^ fixBits := by positivity
  have hz : |(z : ℝ) - _| ≤ 1 := atanh_argument hP hm hM1
  have hbig : 24 ≤ 2 ^ fixBits := by decide
  have hunit : ((2 ^ fixBits : Nat) : ℝ) * (1 / 2 ^ 96) = 1 := by
    unfold fixBits
    norm_num
  clear_value z
  generalize (M - 1) / (M + 1) = w at *
  have hsq : |((z * z / 2 ^ fixBits : Nat) : ℝ) - (2 ^ fixBits : Nat) * w ^ 2| ≤ 2 := by
    have h := fix_mul hz hz hP hw0
    generalize 2 ^ fixBits = P at *
    have hP' : (24 : ℝ) ≤ P := by exact_mod_cast hbig
    have hzP : (z : ℝ) / P ≤ 1 / 2 := by
      rw [div_le_iff₀ (by linarith)]
      have := (abs_le.1 hz).2
      nlinarith
    rw [sq]
    exact h.trans (by linarith)
  have hser := atanhSeries_close hw0 hw3 hsq 48 0 z (by simpa using hz.trans (by norm_num))
  simp only [Nat.zero_add] at hser
  generalize atanhSeries (z * z / 2 ^ fixBits) 48 0 z = s at *
  generalize ((2 ^ fixBits : Nat) : ℝ) = P at *
  generalize ∑ i ∈ Finset.range 48, w ^ (2 * i + 1) / ((2 * i + 1 : Nat) : ℝ) = S at *
  have hP0 : 0 ≤ P := by
    by_contra hneg
    have : P * (1 / 2 ^ 96) ≤ 0 := mul_nonpos_of_nonpos_of_nonneg (by linarith) (by positivity)
    linarith
  have hS : |P * S - P * (Real.log M / 2)| ≤ 1 := by
    rw [← mul_sub, abs_mul, abs_of_nonneg hP0, ← hunit]
    exact mul_le_mul_of_nonneg_left hsum hP0
  have h1 := abs_le.1 hser
  have h2 := abs_le.1 hS
  push_cast at h1 ⊢
  rw [abs_le]
  constructor <;> linarith
theorem fix_shift (e : ℤ) {q P : Nat} {s d : ℝ} (h : |(q : ℝ) - P * s| ≤ d) : |((e * (P : ℤ) + (q : ℤ) : ℤ) : ℝ) - P * (e + s)| ≤ d := by
  push_cast
  rwa [show (e : ℝ) * P + q - P * (e + s) = q - P * s by ring]
/-- FLOG2's enclosure. -/
theorem log2Enc_spec {man : Nat} (h0 : man ≠ 0) (hlt : man < 2 ^ 24) (exp : ℤ) :
    NarrowEnclosure (log2Enc man exp) (Real.logb 2 (man * 2 ^ exp)) := by
  obtain ⟨hM1, hM2, hlog⟩ := log_share h0 exp
  have hlg : man.log2 < 24 := (Nat.log2_lt h0).2 hlt
  have hP : 0 < 2 ^ fixBits := by positivity
  have hm : ((man * 2 ^ fixBits / 2 ^ man.log2 : Nat) : ℝ) = (2 ^ fixBits : Nat) * (man / 2 ^ man.log2) := by
    rw [Nat.cast_div (Dvd.dvd.mul_left (pow_dvd_pow 2 (by unfold fixBits; omega)) _) (by positivity)]
    push_cast
    ring
  have hfix := ln2Fix_close
  have hhalf : 2 ^ fixBits ≤ 2 * ln2Fix := by decide +kernel
  have hhalf : ((2 ^ fixBits : Nat) : ℝ) ≤ 2 * ln2Fix := by exact_mod_cast hhalf
  rw [show (2 : ℝ) ^ 96 = ((2 ^ fixBits : Nat) : ℝ) by unfold fixBits; norm_num, abs_sub_comm] at hfix
  have hser := ln_series hm hM1 hM2.le
  have hle : Real.log (man / 2 ^ man.log2) ≤ Real.log 2 := Real.log_le_log (by linarith) hM2.le
  have hq := fix_quotient hser hfix hP (Real.log_nonneg hM1) hle (Real.log_pos one_lt_two) hhalf
  rw [hlog]
  exact slack_enclosure ((fix_shift _ hq).trans (by norm_num))

end Sys2Proof.Machine
end

section
/-! PROOFS. FLOG2 (R144). -/

namespace Sys2Proof.Machine

section
variable {i : Enclosure} {y : ℝ} (h : NarrowEnclosure i y)
include h
theorem NarrowEnclosure.near : y - 1 / 2 ^ 83 ≤ i.low := by
  have h1 := h.above
  have h2 : i.high = i.low + 1 / 2 ^ 83 := by linarith [h.narrow]
  rw [h2] at h1
  push_cast at h1
  linarith
/-- The choice within an absolute bound of a number that is not large. -/
theorem NarrowEnclosure.choiceAbs (hy : |y| ≤ 3) {k : Nat} (hk : k ≤ 22) (fn : Nat) (w : Word) :
    let r := pickAbs fn w i 1 (2 ^ k)
    F32Fin r.1 ∧ r.2 = fNX ∧ |(fpNum .f32 r.1 : ℝ) - y| ≤ 1 / 2 ^ k := by
  have hnear := h.near
  have hbelow := h.below
  have hy := abs_le.1 hy
  have hlow : |i.low| < 4 := by
    have : |(i.low : ℝ)| < 4 := by
      rw [abs_lt]
      norm_num at hnear
      constructor <;> linarith
    exact_mod_cast this
  obtain ⟨hfin, hA, hB, -⟩ := pickAbs_spec fn w hk h.den hlow (by rw [h.narrow]; norm_num)
  have hA := real_le hA
  have hB := real_le hB
  push_cast at hA hB
  refine ⟨hfin, rfl, ?_⟩
  have hab := h.above
  rw [abs_le]
  constructor <;> linarith
/-- The choice within two spacings of a number that is neither small nor large. -/
theorem NarrowEnclosure.choiceUlp (h1 : 1 ≤ |i.low|) (h2 : |i.low| < 2 ^ (100 : ℤ)) (hlog : Int.log 2 |i.low| ≤ Int.log 2 |y|)
    (fn : Nat) (w : Word) :
    let r := pickUlp fn w i 2
    F32Fin r.1 ∧ r.2 = fNX ∧ WithinUlps 2 y r.1 := by
  have hpos : 0 < |i.low| := by linarith
  have hlo : i.lo ≠ 0 := fun h0 => by
    unfold Enclosure.low at hpos
    rw [h0] at hpos
    simp at hpos
  have hl1 := (le_log_iff hpos 0).2 (by rwa [zpow_zero])
  have hl2 := (log_lt_iff hpos 100).2 h2
  have hspec := pickUlp_spec fn w h.den hlo (n := 2) (by norm_num)
  generalize decide (i.lo < 0) = neg at hspec
  have hclose := (abs_le.1 (wideRound_close neg hpos)).2
  have hge := wideRound_ge neg hpos (n := 0) (by rwa [zpow_zero])
  dsimp only at hspec ⊢
  rw [if_neg, if_neg, or_zero] at hspec
  · obtain ⟨hflags, hin⟩ := hspec
    have hwithin := hin h.le (by
      have hp : (2 : ℚ) ^ (-23 : ℤ) ≤ 2 ^ f32Ulp |i.low| := zpow_le_iff.2 (by unfold f32Ulp; omega)
      rw [h.narrow]
      norm_num at hp ⊢
      linarith)
    exact ⟨hwithin.1, hflags, hwithin.ulps h.below h.above hlog⟩
  · refine not_lt.2 (le_trans ?_ hge)
    exact zpow_le_iff.2 (by norm_num)
  · have hp : (2 : ℚ) ^ (Int.log 2 |i.low| - 24) ≤ 2 ^ (100 : ℤ) := zpow_le_iff.2 (by omega)
    rw [largest_f32]
    norm_num at *
    linarith
end

/-- The exponents of two numbers between neighbouring whole ones. -/
theorem log_le_between {a : Nat} {v : ℚ} {y : ℝ} (ha : 1 ≤ a) (hv : 0 < v) (h1 : v < a + 1) (h2 : (a : ℝ) ≤ y) : Int.log 2 v ≤ Int.log 2 y := by
  have hy : (1 : ℝ) ≤ y := le_trans (by exact_mod_cast ha) h2
  refine (Int.zpow_le_iff_le_log (b := 2) (by norm_num) (by linarith)).1 ?_
  rcases le_or_gt 0 (Int.log 2 v) with h | h
  · obtain ⟨k, hk⟩ := Int.eq_ofNat_of_zero_le h
    have hlow := log_le hv
    rw [hk, zpow_natCast] at hlow ⊢
    have hlt : (2 ^ k : Nat) < a + 1 := by
      have : ((2 ^ k : Nat) : ℚ) < ((a + 1 : Nat) : ℚ) := by push_cast; linarith
      exact_mod_cast this
    have hle : ((2 ^ k : Nat) : ℝ) ≤ a := by exact_mod_cast Nat.lt_succ_iff.1 hlt
    push_cast at hle ⊢
    linarith
  · exact (zpow_le_one_of_nonpos₀ (by norm_num) h.le).trans hy
/-- A mantissa that is no power of two has a logarithm that is not near a whole number. -/
theorem log_share_bounds {man : Nat} (h0 : man ≠ 0) (hlt : man < 2 ^ 24) (hp : isPow2 man ≠ true) :
    1 / 2 ^ 24 ≤ Real.log (man / 2 ^ man.log2) / Real.log 2 ∧ Real.log (man / 2 ^ man.log2) / Real.log 2 < 1 := by
  obtain ⟨hM1, hM2, -⟩ := log_share h0 0
  have hlg : man.log2 < 24 := (Nat.log2_lt h0).2 hlt
  have hl2 := Real.log_pos one_lt_two
  have hM : 1 + 1 / 2 ^ 23 ≤ (man : ℝ) / 2 ^ man.log2 := by
    have hne : 2 ^ man.log2 ≠ man := fun h => hp (by unfold isPow2; simp [h0, h])
    have hle := Nat.log2_self_le h0
    have hnat : 2 ^ man.log2 + 1 ≤ man := by omega
    have hnat : (2 : ℝ) ^ man.log2 + 1 ≤ man := by exact_mod_cast hnat
    have hpow : (2 : ℝ) ^ man.log2 ≤ 2 ^ 23 := pow_le_pow_right₀ one_le_two (by omega)
    rw [le_div_iff₀ (by positivity)]
    norm_num at hpow ⊢
    linarith
  generalize (man : ℝ) / 2 ^ man.log2 = M at *
  have hMpos : 0 < M := by linarith
  constructor
  · have hge := Real.one_sub_inv_le_log_of_pos hMpos
    have hinv : M⁻¹ ≤ 1 - 1 / 2 ^ 24 := by
      rw [inv_le_comm₀ hMpos (by norm_num)]
      exact le_trans (by norm_num) hM
    rw [le_div_iff₀ hl2]
    have := log_two_le
    norm_num at *
    linarith
  · rw [div_lt_one hl2]
    exact Real.log_lt_log hMpos hM2
/-- FLOG2's choice away from the powers of two (R144). -/
theorem log2_choice {man : Nat} {exp : ℤ} (hform : (man < 2 ^ 23 ∧ exp = -149) ∨ (2 ^ 23 ≤ man ∧ man < 2 ^ 24 ∧ -149 ≤ exp ∧ exp ≤ 104)) (h0 : man ≠ 0)
    (hp : isPow2 man ≠ true) (w : Word) :
    let e : ℤ := (man.log2 : ℤ) + exp
    let y : ℝ := Real.logb 2 (man * 2 ^ exp)
    let r := if e = -1 ∨ e = 0 then pickAbs 4 w (log2Enc man exp) 1 (2 ^ 22) else pickUlp 4 w (log2Enc man exp) 2
    F32Fin r.1 ∧ r.2 = fNX ∧ if e = -1 ∨ e = 0 then |(fpNum .f32 r.1 : ℝ) - y| ≤ 1 / 2 ^ 22 else WithinUlps 2 y r.1 := by
  have hlt : man < 2 ^ 24 := by omega
  have hspec := log2Enc_spec h0 hlt exp
  obtain ⟨-, -, hlog⟩ := log_share h0 exp
  obtain ⟨hs1, hs2⟩ := log_share_bounds h0 hlt hp
  have hlg : man.log2 < 24 := (Nat.log2_lt h0).2 hlt
  dsimp only
  generalize he : (man.log2 : ℤ) + exp = e at *
  generalize log2Enc man exp = i at *
  generalize Real.logb 2 (man * 2 ^ exp) = y at *
  generalize Real.log (man / 2 ^ man.log2) / Real.log 2 = s at *
  have hnear := hspec.near
  have hbelow := hspec.below
  by_cases hmid : e = -1 ∨ e = 0
  · rw [if_pos hmid, if_pos hmid]
    refine hspec.choiceAbs ?_ le_rfl 4 w
    rw [hlog, abs_le]
    rcases hmid with rfl | rfl <;> norm_num at * <;> constructor <;> linarith
  · rw [if_neg hmid, if_neg hmid]
    have hbig : (e : ℝ) ≤ 128 ∧ -149 ≤ (e : ℝ) := ⟨by exact_mod_cast (by omega : e ≤ 128), by exact_mod_cast (by omega : -149 ≤ e)⟩
    rcases (by omega : 1 ≤ e ∨ e ≤ -2) with hpos | hneg
    · have hposR : (1 : ℝ) ≤ e := by exact_mod_cast hpos
      have h1 : 1 ≤ i.low := of_real_le (by norm_num at *; linarith)
      have h2 : i.low ≤ 1000 := of_real_le (by norm_num at *; linarith)
      have habs : |i.low| = i.low := abs_of_pos (by linarith)
      refine hspec.choiceUlp (by rwa [habs]) (by rw [habs]; norm_num; linarith) ?_ 4 w
      rw [habs]
      exact log_le_log_real (by linarith) (hbelow.trans (le_abs_self y))
    · have hnegR : (e : ℝ) ≤ -2 := by exact_mod_cast hneg
      obtain ⟨a, ha⟩ := Int.eq_ofNat_of_zero_le (show 0 ≤ -e - 1 by omega)
      have haR : (a : ℝ) = -e - 1 := by exact_mod_cast ha.symm
      have h1 : i.low ≤ -1 := of_real_le (by push_cast; linarith)
      have h2 : -1000 ≤ i.low := of_real_le (by push_cast; norm_num at *; linarith)
      have habs : |i.low| = -i.low := abs_of_neg (by linarith)
      have hyabs : |y| = -y := abs_of_neg (by linarith)
      refine hspec.choiceUlp (by rw [habs]; linarith) (by rw [habs]; norm_num; linarith) ?_ 4 w
      rw [habs, hyabs]
      refine log_le_between (a := a) (by omega) (by linarith) ?_ (by linarith)
      have : ((-i.low : ℚ) : ℝ) < ((a + 1 : ℚ) : ℝ) := by
        push_cast
        norm_num at *
        linarith
      exact Rat.cast_lt.1 this

end Sys2Proof.Machine
end

section
/-! PROOFS. FLOG2 over its cases (R144). -/

namespace Sys2Proof.Machine

/-- A small whole number is exact. -/
theorem roundTo_int (e : ℤ) (he : e.natAbs < 2 ^ 24) :
    let r := roundTo .f32 .rne 0 (decide (e < 0)) e.natAbs 0
    F32Fin r.1 ∧ fpNum .f32 r.1 = e ∧ r.2 = 0 := by
  have hr := roundTo_rounded .f32 .rne (rnd := 0) (by norm_num) (decide (e < 0)) e.natAbs 0
  generalize roundTo .f32 .rne 0 (decide (e < 0)) e.natAbs 0 = r at *
  have hmax : (e.natAbs : ℚ) * 2 ^ (0 : ℤ) ≤ fpMag .f32 (fpLargest .f32) := by
    rw [largest_mag, largest_f32]
    have : (e.natAbs : ℚ) ≤ 2 ^ 24 := by exact_mod_cast he.le
    norm_num at *
    linarith
  obtain ⟨hlt, hn, hi, hs, hm, hf⟩ := hr.exact he (show (-149 : ℤ) ≤ 0 by norm_num) hmax
  refine ⟨⟨hlt, hn, hi⟩, ?_, hf⟩
  unfold fpNum
  rw [hs, hm, zpow_zero, mul_one]
  have h := signedNum_div e 1
  simpa [signedNum] using h
/-- The bound of FLOG2 at x: absolute between 1/2 and 2, in spacings outside (R144). -/
def Log2Near (x : ℝ) (r : Nat) : Prop :=
  if 1 / 2 ≤ x ∧ x ≤ 2 then |(fpNum .f32 r : ℝ) - Real.logb 2 x| ≤ 1 / 2 ^ 22 else WithinUlps 2 (Real.logb 2 x) r
theorem log2Near_exact {x : ℝ} {r : Nat} (h : (fpNum .f32 r : ℝ) = Real.logb 2 x) : Log2Near x r := by
  unfold Log2Near WithinUlps
  rw [h, sub_self, abs_zero]
  split <;> positivity
/-- The two bounds by the exponent of the operand. -/
theorem log2Near_of {m : Nat} {e : ℤ} {r : Nat} (h0 : m ≠ 0) (hp : isPow2 m ≠ true)
    (h : if (m.log2 : ℤ) + e = -1 ∨ (m.log2 : ℤ) + e = 0 then |(fpNum .f32 r : ℝ) - Real.logb 2 (m * 2 ^ e)| ≤ 1 / 2 ^ 22
      else WithinUlps 2 (Real.logb 2 (m * 2 ^ e)) r) : Log2Near (m * 2 ^ e) r := by
  have hpos : (0 : ℚ) < m * 2 ^ e := by positivity
  have hlog := log_magnitude h0 e
  have hlow := log_le hpos
  have hhigh := lt_log_succ ((m : ℚ) * 2 ^ e)
  have hne : (m : ℚ) * 2 ^ e ≠ 2 ^ Int.log 2 ((m : ℚ) * 2 ^ e) := fun hx => hp ((isPow2_iff h0 e).2 hx)
  rw [hlog] at hlow hhigh hne
  generalize (m.log2 : ℤ) + e = c at *
  have hcast : ((((m : ℚ) * 2 ^ e : ℚ)) : ℝ) = (m : ℝ) * 2 ^ e := by push_cast; rfl
  rw [← hcast] at h ⊢
  generalize (m : ℚ) * 2 ^ e = x at *
  have hiff : (1 / 2 ≤ (x : ℝ) ∧ (x : ℝ) ≤ 2) ↔ c = -1 ∨ c = 0 := by
    have h1 : (1 / 2 : ℝ) ≤ x ↔ (1 / 2 : ℚ) ≤ x := by
      rw [← Rat.cast_le (K := ℝ)]
      norm_num
    have h2 : (x : ℝ) ≤ 2 ↔ x ≤ 2 := by norm_cast
    rw [h1, h2]
    constructor
    · rintro ⟨ha, hb⟩
      have hc1 : -1 < c + 1 := zpow_lt_iff.1 (lt_of_le_of_lt (by norm_num; linarith) hhigh)
      have hc2 : c ≤ 1 := zpow_le_iff.1 (hlow.trans (by norm_num; exact hb))
      have hc3 : c ≠ 1 := fun hc => by
        subst hc
        exact hne (le_antisymm (by norm_num; exact hb) hlow)
      omega
    · rintro (rfl | rfl) <;> norm_num at hlow hhigh ⊢ <;> constructor <;> linarith
  unfold Log2Near
  rw [if_congr hiff rfl rfl]
  exact h
/-- FLOG2's exact cases, its flags and its bound (R144). -/
theorem fpLog2_spec (x : Word) : Log2Is x.toNat (fpLog2 x) ∧
    (fpNan .f32 x.toNat = false → fpInf .f32 x.toNat = false → 0 < (fpNum .f32 x.toNat : ℝ) → Log2Near (fpNum .f32 x.toNat : ℝ) (fpLog2 x).1) := by
  unfold Log2Is fpLog2
  have hviews := fval_views .f32 x.toNat
  generalize hv : fval .f32 x.toNat = v at *
  cases hviews with
  | nan hn hi =>
    rw [hn, if_pos rfl]
    exact ⟨by cases fpSnan .f32 x.toNat <;> rfl, fun h => Bool.noConfusion h⟩
  | inf hn hi =>
    rw [hn, hi]
    exact ⟨by cases fpNeg .f32 x.toNat <;> rfl, fun _ h => Bool.noConfusion h⟩
  | fin m e hn hi hm =>
    rw [hn, hi, hm]
    dsimp only
    by_cases h0 : m = 0
    · subst h0
      rw [if_pos rfl, if_neg (by decide), if_pos ⟨rfl, by simp⟩, withSign_eq, infBits_eq]
      refine ⟨rfl, fun _ _ h => ?_⟩
      rw [(fpNum_eq_zero .f32 x.toNat).2 (by rw [hm]; simp)] at h
      simp at h
    · have hpos : (0 : ℚ) < m * 2 ^ e := by positivity
      rw [if_neg (by decide), if_neg fun h => hpos.ne' h.2, if_neg h0]
      by_cases hneg : fpNeg .f32 x.toNat = true
      · rw [if_pos hneg, if_pos hneg]
        refine ⟨rfl, fun _ _ h => ?_⟩
        unfold fpNum at h
        rw [if_pos hneg, hm] at h
        have : (0 : ℝ) < (m * 2 ^ e : ℚ) := by exact_mod_cast hpos
        push_cast at h this
        linarith
      · rw [if_neg hneg, if_neg hneg, if_neg (by decide)]
        have hform := fval_f32_fin hv
        have hnum : (fpNum .f32 x.toNat : ℝ) = m * 2 ^ e := by
          unfold fpNum
          rw [if_neg hneg, hm]
          push_cast
          rfl
        have hlog := log_magnitude h0 e
        rw [hnum]
        by_cases hpow : isPow2 m = true
        · have hlt : m.log2 < 24 := (Nat.log2_lt h0).2 (by omega)
          have hpow' := (isPow2_iff h0 e).1 hpow
          rw [if_pos hpow, if_pos hpow', hlog]
          obtain ⟨hfin, hval, hf⟩ := roundTo_int ((m.log2 : ℤ) + e) (by omega)
          refine ⟨⟨hfin, hval, hf⟩, fun _ _ _ => log2Near_exact ?_⟩
          have hreal := congrArg (Rat.cast (K := ℝ)) hpow'
          push_cast at hreal
          rw [hval, hreal, hlog, ← Real.rpow_intCast, Real.logb_rpow two_pos (by norm_num)]
          rfl
        · rw [if_neg fun h => hpow ((isPow2_iff h0 e).2 h), if_neg hpow]
          obtain ⟨hfin, hflags, hnear⟩ := log2_choice hform h0 hpow x
          exact ⟨⟨hfin, hflags⟩, fun _ _ _ => log2Near_of h0 hpow hnear⟩

end Sys2Proof.Machine
end

section
/-! PROOFS. The series of FSIN and FCOS (R144). -/

namespace Sys2Proof.Machine

/-! ## Terms -/

/-- Term i of an alternating series that starts at power k, times c. -/
noncomputable def trigTerm (c x : ℝ) (k i : Nat) : ℝ := c * ((-1) ^ i * (x ^ (k + 2 * i) / ((k + 2 * i).factorial : ℝ)))

theorem trigTerm_succ (c x : ℝ) (k i : Nat) :
    trigTerm c x k (i + 1) = -(trigTerm c x k i * x ^ 2 / (((k + 2 * i + 1) * (k + 2 * i + 2) : Nat) : ℝ)) := by
  have hf : (k + 2 * (i + 1)).factorial = (k + 2 * i + 1) * (k + 2 * i + 2) * (k + 2 * i).factorial := by
    rw [show k + 2 * (i + 1) = k + 2 * i + 1 + 1 by ring, Nat.factorial_succ, Nat.factorial_succ]
    ring
  have h0 : ((k + 2 * i).factorial : ℝ) ≠ 0 := by positivity
  have h1 : (((k + 2 * i + 1) * (k + 2 * i + 2) : Nat) : ℝ) ≠ 0 := by positivity
  unfold trigTerm
  rw [hf, show k + 2 * (i + 1) = k + 2 * i + 2 by ring, Nat.cast_mul, pow_add, pow_succ (-1 : ℝ)]
  generalize (((k + 2 * i + 1) * (k + 2 * i + 2) : Nat) : ℝ) = j at *
  field_simp
  ring
theorem trigTerm_abs {c x : ℝ} {P : ℝ} (hc : |c| = P) (h0 : 0 ≤ x) (h2 : x ≤ 2) (k i : Nat) : |trigTerm c x k i| ≤ 8 * P := by
  have hP : 0 ≤ P := hc ▸ abs_nonneg c
  have he : x ^ (k + 2 * i) / ((k + 2 * i).factorial : ℝ) ≤ 8 := by
    refine (Real.pow_div_factorial_le_exp x h0 _).trans ((Real.exp_le_exp.2 h2).trans ?_)
    have h1 := Real.exp_one_lt_d9
    have hsq : Real.exp 2 = Real.exp 1 * Real.exp 1 := by rw [← Real.exp_add]; norm_num
    have hp := Real.exp_pos 1
    rw [hsq]
    nlinarith
  unfold trigTerm
  rw [abs_mul, abs_mul, abs_pow, abs_neg, abs_one, one_pow, one_mul, hc, abs_of_nonneg (by positivity), mul_comm]
  exact mul_le_mul_of_nonneg_right he hP
/-- An integer quotient rounded down is within 1. -/
theorem int_div_close (a : ℤ) {b : Nat} (hb : 0 < b) : |((a / (b : ℤ) : ℤ) : ℝ) - (a : ℝ) / b| ≤ 1 := by
  have hb' : (0 : ℝ) < b := by exact_mod_cast hb
  have h1 : a / (b : ℤ) * b ≤ a := Int.ediv_mul_le a (by omega)
  have h2 : a < (a / (b : ℤ) + 1) * b := Int.lt_ediv_add_one_mul_self a (by omega)
  have h1 : ((a / (b : ℤ) : ℤ) : ℝ) * b ≤ a := by exact_mod_cast h1
  have h2 : (a : ℝ) < (((a / (b : ℤ) : ℤ) : ℝ) + 1) * b := by exact_mod_cast h2
  have h1 := (le_div_iff₀ hb').2 h1
  have h2 := (div_lt_iff₀ hb').2 h2
  rw [abs_le]
  constructor <;> linarith
/-- A term's step in fixed point. -/
theorem trig_step {term : ℤ} {a x d m : ℝ} {r2 P j : Nat} (hP : 0 < P) (hj : 0 < j) (h : |(term : ℝ) - a| ≤ d) (ha : |a| ≤ m * P)
    (hr : |(r2 : ℝ) - P * x ^ 2| ≤ 1) (hr3 : (r2 : ℝ) ≤ 3 * P) :
    |((-(term * (r2 : ℤ) / (P : ℤ) / (j : ℤ)) : ℤ) : ℝ) - -(a * x ^ 2 / j)| ≤ (1 + 3 * d + m) / j + 1 := by
  have hP' : (0 : ℝ) < P := by exact_mod_cast hP
  have hj' : (0 : ℝ) < j := by exact_mod_cast hj
  have h1 := abs_le.1 (int_div_close (term * r2) hP)
  have h2 := abs_le.1 (int_div_close (term * r2 / (P : ℤ)) hj)
  have h3 : |((term : ℝ) - a) * (r2 / P)| ≤ 3 * d := by
    rw [abs_mul, abs_of_nonneg (show (0 : ℝ) ≤ r2 / P by positivity), mul_comm]
    exact mul_le_mul ((div_le_iff₀ hP').2 hr3) h (abs_nonneg _) (by norm_num)
  have h4 : |a / P * ((r2 : ℝ) - P * x ^ 2)| ≤ m := by
    rw [abs_mul, abs_div, abs_of_pos hP']
    have hle : |a| / P ≤ m := (div_le_iff₀ hP').2 ha
    calc |a| / P * |(r2 : ℝ) - P * x ^ 2| ≤ |a| / P * 1 := mul_le_mul_of_nonneg_left hr (by positivity)
      _ ≤ m := by rwa [mul_one]
  have hsplit : ((term * (r2 : ℤ) : ℤ) : ℝ) / P - a * x ^ 2 = ((term : ℝ) - a) * (r2 / P) + a / P * ((r2 : ℝ) - P * x ^ 2) := by
    push_cast
    field_simp
    ring
  have h5 : |(((term * (r2 : ℤ) / (P : ℤ) : ℤ) : ℝ) - a * x ^ 2) / j| ≤ (1 + 3 * d + m) / j := by
    rw [abs_div, abs_of_pos hj']
    refine div_le_div_of_nonneg_right ?_ hj'.le
    have h3 := abs_le.1 h3
    have h4 := abs_le.1 h4
    rw [abs_le]
    constructor <;> linarith
  rw [sub_div] at h5
  have h5 := abs_le.1 h5
  rw [Int.cast_neg, abs_le]
  constructor <;> linarith
/-- The sum of the terms from i on, each rounded, is within 5 for each. -/
theorem trigSeries_close {r2 : Nat} {c x : ℝ} (hc : |c| = (2 ^ fixBits : Nat)) (h0 : 0 ≤ x) (h2 : x ≤ 8 / 5)
    (hr : |(r2 : ℝ) - (2 ^ fixBits : Nat) * x ^ 2| ≤ 1) {k : Nat} (hk : 1 ≤ k) (n i : Nat) (term : ℤ) (h : |(term : ℝ) - trigTerm c x k i| ≤ 5) :
    |(trigSeries r2 n (k + 2 * i) term : ℝ) - ∑ j ∈ Finset.range n, trigTerm c x k (i + j)| ≤ 5 * n := by
  induction n generalizing i term with
  | zero => simp [trigSeries]
  | succ n ih =>
    have hP : 0 < 2 ^ fixBits := by positivity
    have hbig : 24 ≤ 2 ^ fixBits := by decide
    have hsum : ∑ j ∈ Finset.range (n + 1), trigTerm c x k (i + j) = trigTerm c x k i + ∑ j ∈ Finset.range n, trigTerm c x k (i + 1 + j) := by
      rw [Finset.sum_range_succ', add_comm]
      simp only [Nat.add_zero, Nat.add_assoc, Nat.add_comm 1]
    have habs := trigTerm_abs hc h0 (by linarith) k i
    unfold trigSeries
    rw [hsum]
    generalize 2 ^ fixBits = P at *
    have hP' : (24 : ℝ) ≤ P := by exact_mod_cast hbig
    have hr3 : (r2 : ℝ) ≤ 3 * P := by
      have := (abs_le.1 hr).2
      have hsq : x ^ 2 ≤ 64 / 25 := by nlinarith
      nlinarith
    have hj : 0 < (k + 2 * i + 1) * (k + 2 * i + 2) := by positivity
    have hj6 : (6 : ℝ) ≤ (((k + 2 * i + 1) * (k + 2 * i + 2) : Nat) : ℝ) := by
      have : 2 * 3 ≤ (k + 2 * i + 1) * (k + 2 * i + 2) := Nat.mul_le_mul (by omega) (by omega)
      exact_mod_cast this
    have hstep := trig_step hP hj h habs hr hr3
    have hnext := ih (i + 1) _ (by
      rw [trigTerm_succ]
      refine hstep.trans ?_
      have : (1 + 3 * 5 + 8) / (((k + 2 * i + 1) * (k + 2 * i + 2) : Nat) : ℝ) ≤ (1 + 3 * 5 + 8) / 6 :=
        div_le_div_of_nonneg_left (by norm_num) (by norm_num) hj6
      linarith)
    rw [show k + 2 * (i + 1) = k + 2 * i + 2 by ring] at hnext
    generalize trigSeries r2 n (k + 2 * i + 2) _ = s at *
    generalize ∑ j ∈ Finset.range n, trigTerm c x k (i + 1 + j) = S at *
    have h1 := abs_le.1 h
    have h2 := abs_le.1 hnext
    push_cast
    rw [abs_le]
    constructor <;> linarith

/-! ## Sums -/

/-- The alternating sum of n terms from power k on is near its limit. -/
theorem trig_sum {x l : ℝ} {k : Nat} (hk : 1 ≤ k) (h0 : 0 ≤ x) (h2 : x ≤ 2)
    (hl : HasSum (fun i : Nat => (-1) ^ i * (x ^ (k + 2 * i) / ((k + 2 * i).factorial : ℝ))) l) (c : ℝ) (n : Nat) :
    |c * l - ∑ i ∈ Finset.range n, trigTerm c x k i| ≤ |c| * (2 ^ (k + 2 * n) / ((k + 2 * n).factorial : ℝ)) := by
  have hanti : Antitone fun i : Nat => x ^ (k + 2 * i) / ((k + 2 * i).factorial : ℝ) := by
    refine antitone_nat_of_succ_le fun i => ?_
    have hsq : x ^ 2 ≤ 4 := by nlinarith
    have hfac : (k + 2 * (i + 1)).factorial = (k + 2 * i + 2) * ((k + 2 * i + 1) * (k + 2 * i).factorial) := by
      rw [show k + 2 * (i + 1) = k + 2 * i + 1 + 1 by ring, Nat.factorial_succ, Nat.factorial_succ]
    have hj : (4 : ℝ) ≤ ((k + 2 * i + 2 : Nat) : ℝ) * ((k + 2 * i + 1 : Nat) : ℝ) := by
      have : 3 * 2 ≤ (k + 2 * i + 2) * (k + 2 * i + 1) := Nat.mul_le_mul (by omega) (by omega)
      exact_mod_cast (by omega : 4 ≤ (k + 2 * i + 2) * (k + 2 * i + 1))
    rw [show k + 2 * (i + 1) = k + 2 * i + 2 by ring] at hfac ⊢
    rw [hfac, Nat.cast_mul, Nat.cast_mul, ← mul_assoc, pow_add, mul_comm, mul_div_mul_comm]
    refine mul_le_of_le_one_left (by positivity) ((div_le_one (by positivity)).2 (hsq.trans hj))
  have hsummable : Summable fun i : Nat => x ^ (k + 2 * i) / ((k + 2 * i).factorial : ℝ) :=
    (Real.summable_pow_div_factorial x).comp_injective (i := fun i : Nat => k + 2 * i) fun a b hab => by
      dsimp only at hab
      omega
  have hbound := alternating_series_error_bound _ hanti hsummable n
  rw [hl.tsum_eq] at hbound
  have hsum : ∑ i ∈ Finset.range n, trigTerm c x k i = c * ∑ i ∈ Finset.range n, (-1) ^ i * (x ^ (k + 2 * i) / ((k + 2 * i).factorial : ℝ)) := by
    unfold trigTerm
    rw [Finset.mul_sum]
  rw [hsum, ← mul_sub, abs_mul]
  refine mul_le_mul_of_nonneg_left (hbound.trans ?_) (abs_nonneg c)
  exact div_le_div_of_nonneg_right (pow_le_pow_left₀ h0 h2 _) (by positivity)
theorem hasSum_sin_terms (x : ℝ) : HasSum (fun i : Nat => (-1) ^ i * (x ^ (1 + 2 * i) / ((1 + 2 * i).factorial : ℝ))) (Real.sin x) := by
  simpa only [mul_div_assoc, Nat.add_comm 1] using Real.hasSum_sin x
theorem hasSum_cos_terms (x : ℝ) : HasSum (fun i : Nat => (-1) ^ i * (x ^ (2 + 2 * i) / ((2 + 2 * i).factorial : ℝ))) (1 - Real.cos x) := by
  have h := ((hasSum_nat_add_iff' 1).2 (Real.hasSum_cos x)).neg
  simp only [Finset.sum_range_one, pow_zero, Nat.mul_zero, Nat.factorial_zero, Nat.cast_one, div_one, mul_one, neg_sub] at h
  have hterms : (fun i : Nat => (-1 : ℝ) ^ i * (x ^ (2 + 2 * i) / ((2 + 2 * i).factorial : ℝ))) =
      fun i => -((-1) ^ (i + 1) * x ^ (2 * (i + 1)) / ((2 * (i + 1)).factorial : ℝ)) := by
    funext i
    rw [show 2 * (i + 1) = 2 + 2 * i by ring, pow_succ]
    ring
  rw [hterms]
  exact h

end Sys2Proof.Machine
end

section
/-! PROOFS. Sine and cosine of a reduced argument, and the reduction (R144). -/

namespace Sys2Proof.Machine

/-! ## The reduced argument -/

/-- A square in fixed point. -/
theorem fix_sq (r : Nat) {P : Nat} (hP : 0 < P) : |((r * r / P : Nat) : ℝ) - P * ((r : ℝ) / P) ^ 2| ≤ 1 := by
  have hP' : (0 : ℝ) < P := by exact_mod_cast hP
  have h := div_close (r * r) P
  have hq : ((r * r : Nat) : ℝ) / P = P * ((r : ℝ) / P) ^ 2 := by
    push_cast
    field_simp
  rwa [hq] at h
theorem trig_tail {P : ℝ} {k n : Nat} (h : P * 2 ^ (k + 2 * n) ≤ ((k + 2 * n).factorial : ℝ)) :
    P * (2 ^ (k + 2 * n) / ((k + 2 * n).factorial : ℝ)) ≤ 1 := by
  rw [← mul_div_assoc]
  exact (div_le_one (by positivity)).2 h
section
variable {r : Nat} (hr : (r : ℝ) / (2 ^ fixBits : Nat) ≤ 8 / 5)
include hr
/-- The sine's series. -/
theorem sinSeries_close : |(trigSeries (r * r / 2 ^ fixBits) 40 1 r : ℝ) - (2 ^ fixBits : Nat) * Real.sin ((r : ℝ) / (2 ^ fixBits : Nat))| ≤ 201 := by
  have hP : 0 < 2 ^ fixBits := by positivity
  have hP' : (0 : ℝ) < (2 ^ fixBits : Nat) := by exact_mod_cast hP
  have hx0 : 0 ≤ (r : ℝ) / (2 ^ fixBits : Nat) := by positivity
  have hc : |((2 ^ fixBits : Nat) : ℝ)| = (2 ^ fixBits : Nat) := Nat.abs_cast _
  have htail : 2 ^ fixBits * 2 ^ (1 + 2 * 40) ≤ (1 + 2 * 40).factorial := by decide +kernel
  have hser := trigSeries_close hc hx0 hr (fix_sq r hP) le_rfl 40 0 r (by
    unfold trigTerm
    simp only [Nat.mul_zero, Nat.add_zero, pow_zero, pow_one, Nat.factorial_one, Nat.cast_one, div_one, one_mul, Int.cast_natCast]
    rw [mul_div_cancel₀ _ hP'.ne', sub_self, abs_zero]; norm_num)
  have hle : |((2 ^ fixBits : Nat) : ℝ)| * (2 ^ (1 + 2 * 40) / ((1 + 2 * 40).factorial : ℝ)) ≤ 1 := by
    rw [hc]
    exact trig_tail (by exact_mod_cast htail)
  have hsum := (trig_sum le_rfl hx0 (by linarith) (hasSum_sin_terms _) (2 ^ fixBits : Nat) 40).trans hle
  simp only [Nat.zero_add, Nat.mul_zero, Nat.add_zero] at hser
  have h1 := abs_le.1 hser
  have h2 := abs_le.1 hsum
  push_cast at h1 h2 ⊢
  rw [abs_le]
  constructor <;> linarith
/-- The cosine's series. -/
theorem cosSeries_close : |(trigSeries (r * r / 2 ^ fixBits) 40 0 (2 ^ fixBits : Nat) : ℝ) -
    (2 ^ fixBits : Nat) * Real.cos ((r : ℝ) / (2 ^ fixBits : Nat))| ≤ 201 := by
  have hP : 0 < 2 ^ fixBits := by positivity
  have hP' : (0 : ℝ) < (2 ^ fixBits : Nat) := by exact_mod_cast hP
  have hx0 : 0 ≤ (r : ℝ) / (2 ^ fixBits : Nat) := by positivity
  have hc : |-((2 ^ fixBits : Nat) : ℝ)| = (2 ^ fixBits : Nat) := by rw [abs_neg, Nat.abs_cast]
  have htail : 2 ^ fixBits * 2 ^ (2 + 2 * 39) ≤ (2 + 2 * 39).factorial := by decide +kernel
  have hbig : 24 ≤ 2 ^ fixBits := by decide
  have hsq := fix_sq r hP
  have hfirst : trigSeries (r * r / 2 ^ fixBits) 40 0 (2 ^ fixBits : Nat) = (2 ^ fixBits : Nat) + trigSeries (r * r / 2 ^ fixBits) 39 (2 + 2 * 0)
      (-(((2 ^ fixBits : Nat) : ℤ) * ((r * r / 2 ^ fixBits : Nat) : ℤ) / (2 ^ fixBits : Nat) / (((0 + 1) * (0 + 2) : Nat) : ℤ))) := rfl
  rw [hfirst]
  have hstep := trig_step (term := (2 ^ fixBits : Nat)) (a := (2 ^ fixBits : Nat)) (d := 0) (m := 1) (j := (0 + 1) * (0 + 2)) hP (by norm_num)
    (by simp) (by rw [one_mul, Nat.abs_cast]) hsq (by
      have := (abs_le.1 hsq).2
      have hsq2 : ((r : ℝ) / (2 ^ fixBits : Nat)) ^ 2 ≤ 64 / 25 := by nlinarith
      have hbig : (24 : ℝ) ≤ (2 ^ fixBits : Nat) := by exact_mod_cast hbig
      nlinarith)
  have hser := trigSeries_close hc hx0 hr hsq one_le_two 39 0 _ (by
    have hterm : trigTerm (-((2 ^ fixBits : Nat) : ℝ)) ((r : ℝ) / (2 ^ fixBits : Nat)) 2 0 =
        -(((2 ^ fixBits : Nat) : ℝ) * ((r : ℝ) / (2 ^ fixBits : Nat)) ^ 2 / (((0 + 1) * (0 + 2) : Nat) : ℝ)) := by
      unfold trigTerm
      norm_num
      ring
    rw [hterm]
    exact hstep.trans (by norm_num))
  have hle : |-((2 ^ fixBits : Nat) : ℝ)| * (2 ^ (2 + 2 * 39) / ((2 + 2 * 39).factorial : ℝ)) ≤ 1 := by
    rw [hc]
    exact trig_tail (by exact_mod_cast htail)
  have hsum := (trig_sum one_le_two hx0 (by linarith) (hasSum_cos_terms _) (-((2 ^ fixBits : Nat) : ℝ)) 39).trans hle
  simp only [Nat.zero_add] at hser hsum
  generalize trigSeries (r * r / 2 ^ fixBits) 39 _ _ = s at *
  have h1 := abs_le.1 hser
  have h2 := abs_le.1 hsum
  push_cast at h1 h2 ⊢
  rw [abs_le]
  constructor <;> linarith
end

end Sys2Proof.Machine
end

section
/-! PROOFS. The reduction by quarter turns, and the enclosure of FSIN and FCOS (R144). -/

namespace Sys2Proof.Machine

/-- A quarter turn in units of 2 ^ -319. -/
theorem half_close : |((piFix / 4 : Nat) : ℝ) - 2 ^ 319 * (Real.pi / 2)| ≤ 1001 := by
  have h1 := abs_le.1 piFix_close
  have h2 := abs_le.1 (div_close piFix 4)
  rw [pow_succ (2 : ℝ) 319] at h1
  push_cast at h2
  generalize (2 : ℝ) ^ 319 = Q at *
  rw [abs_le]
  constructor <;> linarith
/-- What is left after whole quarter turns, in coarser units. -/
theorem reduce_close {P R H X : Nat} {t c : ℝ} (hP : 0 < P) (hR : 0 < R) (hH : |(H : ℝ) - (P * R : Nat) * t| ≤ c) (hPR : P * R ≤ H)
    (hH8 : 5 * H ≤ 8 * (P * R)) {K : Nat} (hX : X < K * (P * R)) (hc : K * c ≤ R) :
    |(X : ℝ) / (P * R : Nat) - ((X / H : Nat) * t + ((X % H / R : Nat) : ℝ) / P)| ≤ 2 / P ∧ ((X % H / R : Nat) : ℝ) / P ≤ 8 / 5 := by
  have hP' : (0 : ℝ) < P := by exact_mod_cast hP
  have hR' : (0 : ℝ) < R := by exact_mod_cast hR
  have hQ : 0 < P * R := Nat.mul_pos hP hR
  have hQ' : (0 : ℝ) < (P * R : Nat) := by exact_mod_cast hQ
  have hdm := Nat.div_add_mod' X H
  have hlt := Nat.mod_lt X (hQ.trans_le hPR)
  have hrest := div_close (X % H) R
  have hk : X / H ≤ K := by
    refine Nat.le_of_lt ((Nat.div_lt_iff_lt_mul (hQ.trans_le hPR)).2 (hX.trans_le ?_))
    exact Nat.mul_le_mul_left _ hPR
  have hfloor := Nat.div_mul_le_self (X % H) R
  generalize X % H / R = r at *
  generalize X / H = k at *
  generalize X % H = m at *
  have hdm : (X : ℝ) = k * H + m := by exact_mod_cast hdm.symm
  have hk : (k : ℝ) ≤ K := by exact_mod_cast hk
  have hc0 : 0 ≤ c := (abs_nonneg _).trans hH
  constructor
  · have h1 : |(k : ℝ) * ((H : ℝ) - (P * R : Nat) * t)| ≤ R := by
      rw [abs_mul, Nat.abs_cast]
      exact (mul_le_mul hk hH (abs_nonneg _) (by positivity)).trans hc
    have h2 : |R * ((m : ℝ) / R - r)| ≤ R := by
      rw [abs_mul, Nat.abs_cast, abs_sub_comm]
      exact mul_le_of_le_one_right hR'.le hrest
    have hsplit : (X : ℝ) / (P * R : Nat) - (k * t + (r : ℝ) / P) =
        (k * ((H : ℝ) - (P * R : Nat) * t) + R * ((m : ℝ) / R - r)) / (P * R : Nat) := by
      rw [hdm]
      push_cast
      field_simp
      ring
    rw [hsplit, abs_div, abs_of_pos hQ', div_le_div_iff₀ hQ' hP']
    have h3 := (abs_add_le _ _).trans (add_le_add h1 h2)
    push_cast at h3 ⊢
    nlinarith
  · have hnat : r * R * 5 ≤ 8 * (P * R) := by omega
    have hnat : r * 5 ≤ 8 * P := by nlinarith
    have hreal : (r : ℝ) * 5 ≤ 8 * P := by exact_mod_cast hnat
    rw [div_le_div_iff₀ hP' (by norm_num)]
    linarith

/-- The sine after k quarter turns, by the sine and cosine of what is left. -/
def quarter {α : Type} [Neg α] (k : Nat) (s c : α) : α :=
  match k % 4 with
  | 0 => s
  | 1 => c
  | 2 => -s
  | _ => -c
theorem sin_quarter (k : Nat) (x : ℝ) : Real.sin (k * (Real.pi / 2) + x) = quarter k (Real.sin x) (Real.cos x) := by
  have hk := Nat.div_add_mod k 4
  have hlt := Nat.mod_lt k (show 0 < 4 by norm_num)
  have hkR : (k : ℝ) * (Real.pi / 2) + x = (((k % 4 : Nat) : ℝ) * (Real.pi / 2) + x) + ((k / 4 : Nat) : ℝ) * (2 * Real.pi) := by
    have : (k : ℝ) = 4 * ((k / 4 : Nat) : ℝ) + ((k % 4 : Nat) : ℝ) := by exact_mod_cast hk.symm
    rw [this]
    ring
  rw [hkR, Real.sin_add_nat_mul_two_pi]
  unfold quarter
  generalize k % 4 = j at *
  match j, hlt with
  | 0, _ => simp
  | 1, _ =>
    rw [Nat.cast_one, one_mul, add_comm, Real.sin_add_pi_div_two]
    rfl
  | 2, _ =>
    rw [Nat.cast_ofNat, mul_div_cancel₀ _ (by norm_num), add_comm, Real.sin_add_pi]
    rfl
  | 3, _ =>
    rw [show ((3 : Nat) : ℝ) * (Real.pi / 2) + x = x + Real.pi / 2 + Real.pi by push_cast; ring, Real.sin_add_pi, Real.sin_add_pi_div_two]
    rfl
theorem cos_quarter (k : Nat) (x : ℝ) : Real.cos (k * (Real.pi / 2) + x) = quarter (k + 1) (Real.sin x) (Real.cos x) := by
  rw [← sin_quarter, ← Real.sin_add_pi_div_two]
  congr 1
  push_cast
  ring
/-- The choice of a quarter keeps nearness. -/
theorem quarter_close {P d s c : ℝ} {sn cs : ℤ} (hs : |(sn : ℝ) - P * s| ≤ d) (hc : |(cs : ℝ) - P * c| ≤ d) (k : Nat) :
    |((quarter k sn cs : ℤ) : ℝ) - P * quarter k s c| ≤ d := by
  have hneg {a : ℤ} {b : ℝ} (h : |(a : ℝ) - P * b| ≤ d) : |((-a : ℤ) : ℝ) - P * -b| ≤ d := by
    rwa [Int.cast_neg, mul_neg, neg_sub_neg, abs_sub_comm]
  unfold quarter
  have hlt := Nat.mod_lt k (show 0 < 4 by norm_num)
  generalize k % 4 = j at *
  match j, hlt with
  | 0, _ => exact hs
  | 1, _ => exact hc
  | 2, _ => exact hneg hs
  | 3, _ => exact hneg hc

end Sys2Proof.Machine
end

section
/-! PROOFS. FSIN and FCOS (R144). -/

namespace Sys2Proof.Machine

theorem sin_near (a b : ℝ) : |Real.sin a - Real.sin b| ≤ |a - b| := by
  have h1 : |Real.sin ((a - b) / 2)| ≤ |(a - b) / 2| := Real.abs_sin_le_abs
  have h2 := Real.abs_cos_le_one ((a + b) / 2)
  rw [Real.sin_sub_sin, abs_mul, abs_mul, abs_two]
  rw [abs_div, abs_two] at h1
  nlinarith [abs_nonneg (Real.sin ((a - b) / 2)), abs_nonneg (Real.cos ((a + b) / 2))]
theorem cos_near (a b : ℝ) : |Real.cos a - Real.cos b| ≤ |a - b| := by
  rw [← Real.sin_add_pi_div_two, ← Real.sin_add_pi_div_two]
  refine (sin_near _ _).trans (le_of_eq ?_)
  congr 1
  ring
/-- The sine or the cosine. -/
noncomputable def trigOf (cos : Bool) (x : ℝ) : ℝ := if cos then Real.cos x else Real.sin x

theorem trigOf_abs (cos : Bool) (x : ℝ) : |trigOf cos x| ≤ 1 := by
  cases cos
  · exact Real.abs_sin_le_one x
  · exact Real.abs_cos_le_one x
theorem mul_pow_lt {m a n b c : Nat} (hm : m < 2 ^ a) (h : a + n ≤ b + c) : m * 2 ^ n < 2 ^ b * 2 ^ c := by
  calc m * 2 ^ n < 2 ^ a * 2 ^ n := Nat.mul_lt_mul_of_pos_right hm (by positivity)
    _ = 2 ^ (a + n) := (Nat.pow_add ..).symm
    _ ≤ 2 ^ (b + c) := Nat.pow_le_pow_right two_pos h
    _ = 2 ^ b * 2 ^ c := Nat.pow_add ..
/-- The operand of the enclosure is reduced to what is left after quarter turns. -/
theorem trig_reduce {man : Nat} {exp : ℤ} (hman : man < 2 ^ 24) (he : -319 ≤ exp) (hexp : exp ≤ 104) :
    let x : Nat := man * 2 ^ (exp + 319).toNat
    let k := x / (piFix / 4)
    let r := x % (piFix / 4) / 2 ^ (319 - fixBits)
    |(man : ℝ) * 2 ^ exp - (k * (Real.pi / 2) + (r : ℝ) / (2 ^ fixBits : Nat))| ≤ 2 / (2 ^ fixBits : Nat) ∧ (r : ℝ) / (2 ^ fixBits : Nat) ≤ 8 / 5 := by
  intro x
  have hQ : 2 ^ fixBits * 2 ^ (319 - fixBits) = 2 ^ 319 := by decide +kernel
  have hPR : 2 ^ 319 ≤ piFix / 4 := by decide +kernel
  have hH8 : 5 * (piFix / 4) ≤ 8 * 2 ^ 319 := by decide +kernel
  have hc : 2 ^ 128 * 1001 ≤ 2 ^ (319 - fixBits) := by decide +kernel
  have hc : ((2 ^ 128 : Nat) : ℝ) * 1001 ≤ (2 ^ (319 - fixBits) : Nat) := by exact_mod_cast hc
  have hX : x < 2 ^ 128 * 2 ^ 319 := mul_pow_lt hman (by omega)
  have hval : (x : ℝ) / (2 ^ 319 : Nat) = man * 2 ^ exp := by
    have hsplit : (2 : ℝ) ^ exp = 2 ^ (exp + 319).toNat / 2 ^ 319 := by
      rw [← zpow_natCast, Int.toNat_of_nonneg (by omega), zpow_add₀ two_ne_zero]
      field_simp
    rw [hsplit, ← mul_div_assoc, Nat.cast_mul, Nat.cast_pow, Nat.cast_pow, Nat.cast_ofNat]
  have hH := half_close
  rw [show (2 : ℝ) ^ 319 = ((2 ^ 319 : Nat) : ℝ) from (Nat.cast_pow 2 319).symm] at hH
  clear_value x
  rw [← hQ] at hH hPR hH8 hX hval
  rw [← hval]
  exact reduce_close (by positivity) (by positivity) hH hPR hH8 hX hc
/-- A near sine or cosine, in units, of an argument that is near. -/
theorem trig_units {P d e a b f g : ℝ} {v : ℤ} (hP : 0 < P) (hv : |(v : ℝ) - P * g| ≤ d) (hfg : |f - g| ≤ |a - b|) (hab : |a - b| ≤ e / P) :
    |(v : ℝ) - P * f| ≤ d + e := by
  have h1 : |P * (f - g)| ≤ e := by
    rw [abs_mul, abs_of_pos hP, mul_comm]
    exact (le_div_iff₀ hP).1 (hfg.trans hab)
  have h1 := abs_le.1 h1
  have h2 := abs_le.1 hv
  rw [abs_le]
  constructor <;> linarith
/-- The enclosure of FSIN and FCOS. -/
theorem trigEnc_spec (cos neg : Bool) {man : Nat} {exp : ℤ} (hman : man < 2 ^ 24) (he : -319 ≤ exp) (hexp : exp ≤ 104) :
    NarrowEnclosure (trigEnc cos neg man exp) (trigOf cos (FVal.fin neg man exp).num) := by
  obtain ⟨hred, hle⟩ := trig_reduce hman he hexp
  have hP : (0 : ℝ) < (2 ^ fixBits : Nat) := by positivity
  have hx : (((FVal.fin neg man exp).num : ℚ) : ℝ) = if neg then -((man : ℝ) * 2 ^ exp) else man * 2 ^ exp := by
    rw [fval_num_fin]
    cases neg <;> simp
  have hcond : (if 0 ≤ exp + 319 then man * 2 ^ (exp + 319).toNat else man / 2 ^ (-(exp + 319)).toNat) = man * 2 ^ (exp + 319).toNat :=
    if_pos (by omega)
  unfold trigEnc
  dsimp only
  rw [hcond]
  refine slack_enclosure ?_
  have hsn := sinSeries_close hle
  have hcs := cosSeries_close hle
  generalize man * 2 ^ (exp + 319).toNat / (piFix / 4) = k at *
  generalize man * 2 ^ (exp + 319).toNat % (piFix / 4) / 2 ^ (319 - fixBits) = r at *
  generalize trigSeries (r * r / 2 ^ fixBits) 40 1 r = sn at *
  generalize trigSeries (r * r / 2 ^ fixBits) 40 0 (2 ^ fixBits : Nat) = cs at *
  rw [hx]
  generalize (man : ℝ) * 2 ^ exp = a at *
  change |((if (neg && !cos) = true then -quarter (if cos = true then k + 1 else k) sn cs else quarter (if cos = true then k + 1 else k) sn cs : ℤ) : ℝ) -
    _| ≤ _
  have hsin : |((quarter k sn cs : ℤ) : ℝ) - (2 ^ fixBits : Nat) * Real.sin a| ≤ 201 + 2 :=
    trig_units hP (quarter_close hsn hcs k) (by rw [← sin_quarter]; exact sin_near _ _) hred
  have hcos : |((quarter (k + 1) sn cs : ℤ) : ℝ) - (2 ^ fixBits : Nat) * Real.cos a| ≤ 201 + 2 :=
    trig_units hP (quarter_close hsn hcs (k + 1)) (by rw [← cos_quarter]; exact cos_near _ _) hred
  cases cos <;> cases neg
  · exact hsin.trans (by norm_num)
  · change |((-quarter k sn cs : ℤ) : ℝ) - _ * Real.sin (-a)| ≤ _
    rw [Real.sin_neg, Int.cast_neg, mul_neg, neg_sub_neg, abs_sub_comm]
    exact hsin.trans (by norm_num)
  · exact hcos.trans (by norm_num)
  · change |((quarter (k + 1) sn cs : ℤ) : ℝ) - _ * Real.cos (-a)| ≤ _
    rw [Real.cos_neg]
    exact hcos.trans (by norm_num)
/-- FSIN and FCOS of a small operand. -/
theorem trig_small {x : ℝ} (h : |x| ≤ 1 / 2 ^ 12) : |x - Real.sin x| ≤ 1 / 2 ^ 21 ∧ |1 - Real.cos x| ≤ 1 / 2 ^ 21 := by
  constructor
  · refine (Real.abs_sub_sin_le x).trans ?_
    have h3 : |x| ^ 3 ≤ (1 / 2 ^ 12) ^ 3 := pow_le_pow_left₀ (abs_nonneg x) h 3
    norm_num at h3 ⊢
    linarith
  · have h1 := Real.one_sub_sq_div_two_le_cos (x := x)
    have h2 := Real.cos_le_one x
    have h3 : |x| ^ 2 ≤ (1 / 2 ^ 12) ^ 2 := pow_le_pow_left₀ (abs_nonneg x) h 2
    rw [sq_abs] at h3
    rw [abs_of_nonneg (by linarith)]
    norm_num at h3 ⊢
    linarith
theorem fpNum_one : fpNum .f32 0x3F800000 = 1 := by
  have hs : fpNeg .f32 0x3F800000 = false := by decide
  have hb : fpBody .f32 0x3F800000 = 0x3F800000 := by decide
  have hm : f32Mag 0x3F800000 = 1 := by norm_num [f32Mag, magSteps, FTy.mbits]
  unfold fpNum
  rw [hs, fpMag_f32, hb, hm]
  rfl
/-- FSIN's and FCOS's exact cases, flags and bound (R144). -/
theorem fpTrig_spec (cos : Bool) (x : Word) : TrigIs cos x.toNat (fpTrig cos x) ∧
    (fpNan .f32 x.toNat = false → fpInf .f32 x.toNat = false →
      |(fpNum .f32 (fpTrig cos x).1 : ℝ) - trigOf cos (fpNum .f32 x.toNat)| ≤ 1 / 2 ^ 21) := by
  unfold TrigIs fpTrig
  have hviews := fval_views .f32 x.toNat
  generalize hv : fval .f32 x.toNat = v at *
  cases hviews with
  | nan hn hi =>
    rw [hn, if_pos rfl]
    exact ⟨by cases fpSnan .f32 x.toNat <;> rfl, fun h => Bool.noConfusion h⟩
  | inf hn hi =>
    rw [hn, hi]
    exact ⟨rfl, fun _ h => Bool.noConfusion h⟩
  | fin m e hn hi hm =>
    have hform := fval_f32_fin hv
    have hcond : (m = 0 ∨ (m.log2 : ℤ) + e < -12) ↔ (m : ℚ) * 2 ^ e < 2 ^ (-12 : ℤ) := by
      rcases eq_or_ne m 0 with h0 | h0
      · subst h0
        exact iff_of_true (.inl rfl) (by norm_num)
      · rw [← log_magnitude h0 e, log_lt_iff (by positivity)]
        exact or_iff_right h0
    rw [hn, hi, hm, if_neg (by decide), if_neg (by decide)]
    dsimp only
    rw [if_congr hcond rfl rfl]
    by_cases hsmall : (m : ℚ) * 2 ^ e < 2 ^ (-12 : ℤ)
    · rw [if_pos hsmall, if_pos hsmall]
      refine ⟨rfl, fun _ _ => ?_⟩
      have habs : |fpNum .f32 x.toNat| = m * 2 ^ e := by
        have hp : (0 : ℚ) ≤ m * 2 ^ e := by positivity
        unfold fpNum
        rw [hm]
        split
        · rw [abs_neg, abs_of_nonneg hp]
        · exact abs_of_nonneg hp
      have hreal := real_le (habs.trans_le hsmall.le)
      push_cast at hreal
      obtain ⟨h1, h2⟩ := trig_small (x := fpNum .f32 x.toNat) (hreal.trans (by norm_num))
      cases cos
      · exact h1
      · change |(fpNum .f32 0x3F800000 : ℝ) - Real.cos _| ≤ _
        rw [fpNum_one, Rat.cast_one]
        exact h2
    · have hbig := fun h => hsmall (hcond.1 (.inr h))
      have h0 : m ≠ 0 := fun h => hsmall (hcond.1 (.inl h))
      have hlt : m.log2 < 24 := (Nat.log2_lt h0).2 (by omega)
      rw [if_neg hsmall, if_neg hsmall, ← fpNum_fin hm]
      have hspec := trigEnc_spec cos (fpNeg .f32 x.toNat) (man := m) (exp := e) (by omega) (by omega) (by omega)
      obtain ⟨hfin, hflags, hnear⟩ := hspec.choiceAbs ((trigOf_abs cos _).trans (by norm_num)) (k := 21) (by norm_num) (if cos then 6 else 5) x
      exact ⟨⟨hfin, hflags⟩, fun _ _ => hnear⟩

end Sys2Proof.Machine
end

section
/-! PROOFS. The special functions' words, and their bounds (R144). -/

namespace Sys2Proof.Machine

/-! ## Results fit a lane's word -/

theorem fits_of_eq {r : Nat × Byte} {b : Nat} {f : Byte} (h : r = (b, f)) (hb : b < 2 ^ 32) : r.1 < 2 ^ 32 := by rwa [h]
theorem f32Canon_lt : fpCanon .f32 < 2 ^ 32 := fpCanon_lt .f32
theorem f32Zero_lt (neg : Bool) : fpSigned .f32 neg 0 < 2 ^ 32 := fpSigned_lt .f32 neg (by decide)
theorem f32Inf_lt (neg : Bool) : fpSigned .f32 neg (fpTopInf .f32) < 2 ^ 32 := fpSigned_lt .f32 neg (by decide)
theorem f32Pow_lt {neg : Bool} {n : ℤ} {r : Nat × Byte} (h : f32Pow neg n r) : r.1 < 2 ^ 32 := by
  unfold f32Pow at h
  split at h
  case isTrue => exact fits_of_eq h (f32Inf_lt neg)
  case isFalse => exact h.2.1
theorem of_ite {p A B Q : Prop} [Decidable p] (h : if p then A else B) (hA : A → Q) (hB : B → Q) : Q := by
  split at h
  case isTrue => exact hA h
  case isFalse => exact hB h
theorem RcpIs.lt {a : Nat} {r : Nat × Byte} (h : RcpIs a r) : r.1 < 2 ^ 32 := by
  refine of_ite h (fits_of_eq · f32Canon_lt) fun h => of_ite h (fits_of_eq · (f32Zero_lt _)) fun h => ?_
  refine of_ite h (fits_of_eq · (f32Inf_lt _)) fun h => of_ite h f32Pow_lt fun h => ?_
  exact of_ite h (fits_of_eq · (f32Inf_lt _)) fun ⟨hfin, _⟩ => hfin.1
theorem RsqIs.lt {a : Nat} {r : Nat × Byte} (h : RsqIs a r) : r.1 < 2 ^ 32 := by
  refine of_ite h (fits_of_eq · f32Canon_lt) fun h => of_ite h (fits_of_eq · (f32Inf_lt _)) fun h => ?_
  refine of_ite h (fits_of_eq · f32Canon_lt) fun h => of_ite h (fits_of_eq · (by decide)) fun h => ?_
  exact of_ite h f32Pow_lt fun ⟨hfin, _⟩ => hfin.1
theorem SqrtIs.lt {a : Nat} {r : Nat × Byte} (ha : a < 2 ^ 32) (h : SqrtIs a r) : r.1 < 2 ^ 32 := by
  refine of_ite h (fits_of_eq · f32Canon_lt) fun h => of_ite h (fits_of_eq · ha) fun h => ?_
  exact of_ite h (fits_of_eq · f32Canon_lt) fun h => of_ite h (fits_of_eq · ha) fun ⟨hfin, _⟩ => hfin.1
theorem Exp2Is.lt {a : Nat} {r : Nat × Byte} (h : Exp2Is a r) : r.1 < 2 ^ 32 := by
  refine of_ite h (fits_of_eq · f32Canon_lt) fun h => of_ite h (fits_of_eq · (by split <;> decide)) fun h => ?_
  refine of_ite h (fits_of_eq · (by decide)) fun h => of_ite h (fits_of_eq · (by decide)) fun h => ?_
  exact of_ite h f32Pow_lt fun ⟨hfin, _⟩ => hfin.1
theorem Log2Is.lt {a : Nat} {r : Nat × Byte} (h : Log2Is a r) : r.1 < 2 ^ 32 := by
  refine of_ite h (fits_of_eq · f32Canon_lt) fun h => of_ite h (fits_of_eq · (f32Inf_lt _)) fun h => ?_
  refine of_ite h (fits_of_eq · f32Canon_lt) fun h => of_ite h (fits_of_eq · (by decide)) fun h => ?_
  exact of_ite h (fun ⟨hfin, _⟩ => hfin.1) fun ⟨hfin, _⟩ => hfin.1
theorem TrigIs.lt {cos : Bool} {a : Nat} {r : Nat × Byte} (ha : a < 2 ^ 32) (h : TrigIs cos a r) : r.1 < 2 ^ 32 := by
  refine of_ite h (fits_of_eq · f32Canon_lt) fun h => of_ite h (fits_of_eq · f32Canon_lt) fun h => ?_
  refine of_ite h (fits_of_eq · ?_) fun ⟨hfin, _⟩ => hfin.1
  cases cos
  · exact ha
  · exact (by decide : 0x3F800000 < 2 ^ 32)

/-! ## The words -/

/-- Settles O6: FRCP, FRSQ and FSQRT by exact arithmetic, FEXP2, FLOG2, FSIN and FCOS by enclosures of their exact results. -/
theorem specialFunctionWords : Obligations.SpecialFunctionWords := by
  intro s d a h one
  refine ⟨each_v1 rfl h fun l => ?_, each_v1 rfl h fun l => ?_, each_v1 rfl h fun l => ?_, each_v1 rfl h fun l => ?_,
    each_v1 rfl h fun l => ?_, each_v1 rfl h fun l => ?_, each_v1 rfl h fun l => ?_⟩
  · exact asWord_outF (fpRcp_rcpIs _) (fpRcp_rcpIs _).lt
  · exact asWord_outF (fpRsq_rsqIs _) (fpRsq_rsqIs _).lt
  · exact asWord_outF (fpSqrt_sqrtIs _) ((fpSqrt_sqrtIs _).lt (BitVec.isLt _))
  · exact asWord_outF (fpExp2_spec _).1 (fpExp2_spec _).1.lt
  · exact asWord_outF (fpLog2_spec _).1 (fpLog2_spec _).1.lt
  · exact asWord_outF (fpTrig_spec false _).1 ((fpTrig_spec false _).1.lt (BitVec.isLt _))
  · exact asWord_outF (fpTrig_spec true _).1 ((fpTrig_spec true _).1.lt (BitVec.isLt _))
/-- A result that fits FP32 keeps its pattern as a lane's word. -/
theorem outF_toNat {r : Nat × Byte} (h : r.1 < 2 ^ 32) : (outF r).1.toNat = r.1 := by
  unfold outF
  dsimp only
  rw [BitVec.toNat_ofNat, Nat.mod_eq_of_lt h]
/-- Settles O7: each choice lies within its bound of every number of the enclosure, and the enclosure holds the exact result. -/
theorem specialFunctionBounds : Obligations.SpecialFunctionBounds := by
  intro s d a h x v near
  refine ⟨each_v1 rfl h fun l hn hi => ?_, each_v1 rfl h fun l hn hi => ?_, each_v1 rfl h fun l hn hi => ?_, each_v1 rfl h fun l hn hi => ?_⟩
  · rw [outF_toNat (fpExp2_spec _).1.lt]
    exact (fpExp2_spec _).2 hn hi
  · rw [outF_toNat (fpLog2_spec _).1.lt]
    exact (fpLog2_spec _).2 hn hi
  · rw [outF_toNat ((fpTrig_spec false _).1.lt (BitVec.isLt _))]
    exact (fpTrig_spec false _).2 hn hi
  · rw [outF_toNat ((fpTrig_spec true _).1.lt (BitVec.isLt _))]
    exact (fpTrig_spec true _).2 hn hi

end Sys2Proof.Machine
end
